-- ==== Sys2Proof/Word.lean ====
section
/-!
DEFINITION. The words of the machine: register numbers, bytes, capabilities as 129-bit values and the sorted map that
holds sparse state.
-/

namespace Sys2Proof

/-- A register field of an instruction: six bits (R179, R183). -/
abbrev Reg := Fin 64

/-- One byte of memory. -/
abbrev Byte := BitVec 8

/-- A 129-bit capability value (R55): the tag and the 128 data bits. -/
structure Cap where
  tag : Bool
  bits : BitVec 128
deriving DecidableEq, Repr, Inhabited

/-- The null capability: 129 zero bits (R55). -/
def Cap.null : Cap := ⟨false, 0⟩

/-- Plain data: TAG 0 (R61). -/
def Cap.plain (x : BitVec 128) : Cap := ⟨false, x⟩

/-- A sparse map from numbers, kept as a list with strictly rising keys. -/
abbrev SMap (α : Type) := List (Nat × α)

/-- The place of a context: its core (R10) and its slot. -/
structure CtxId where
  core : Nat
  slot : Nat
deriving DecidableEq, Repr, Inhabited

end Sys2Proof
end

