-- ==== Sys2Proof/Syntax.lean ====
section
/-!
DEFINITION. The instructions: one constructor for every row of spec/opcode_table.json. Rows 0 to 311 are the words of
the opcode map (R196 to R200), split by length class as the table splits them; the rows after them are the events of
the machine and its host that the table lists without an encoding.
-/

namespace Sys2Proof

/-- The element formats of R83. -/
inductive Fmt
  | f32 | bf16 | f16 | e4m3 | e5m2 | e2m1 | lns6 | s8 | s16 | s32 | n8 | s4 | mo
deriving DecidableEq, Repr, Inhabited

/-- The rounding modes of R92. -/
inductive Rm
  | rne | rtz | rup | rdn | rna | sto | odd
deriving DecidableEq, Repr, Inhabited

/-- The scopes of R7. -/
inductive Scope
  | lane | core | quad | die | pkg | pod | host | sys
deriving DecidableEq, Repr, Inhabited

/-- The ordering annotations of R167. -/
inductive Order
  | plain | acquire | release | full
deriving DecidableEq, Repr, Inhabited

/-- The engine pins of R36. -/
inductive Pin
  | none | mx | ep | ch0 | ch1 | ch2 | ch3
deriving DecidableEq, Repr, Inhabited

/-- The widths of R222. -/
inductive BitWidth
  | w64 | w32 | w16
deriving DecidableEq, Repr, Inhabited

/-- The kinds of `ld` and `st` (R192). -/
inductive Kind
  | n8 | n16 | n32 | n64 | s8 | s16 | s32
deriving DecidableEq, Repr, Inhabited

/-- The conditions of `bm` (R193, R230). -/
inductive MaskCond
  | any | all | none
deriving DecidableEq, Repr, Inhabited

/-- The kinds of `vpack` and `vunpk` (R267). -/
inductive PackKind
  | mx | sc
deriving DecidableEq, Repr, Inhabited

/-- The conditions of `vcmp` (R269). -/
inductive CmpCond
  | eq | ne | lt | le | gt | ge | uno | ord
deriving DecidableEq, Repr, Inhabited

/-- The functions of `mskl` (R270). -/
inductive MaskOp
  | and | or | xor | andn | not
deriving DecidableEq, Repr, Inhabited

/-- The functions of `mskp` (R270). -/
inductive MaskProbe
  | popc | first | last
deriving DecidableEq, Repr, Inhabited

/-- The functions of `msks` in class 0b11 (R270). -/
inductive MaskSet
  | set | or | and | andn
deriving DecidableEq, Repr, Inhabited

/-- The functions of `vred` (R271). -/
inductive RedOp
  | sum | max | min | argmax | argmin
deriving DecidableEq, Repr, Inhabited

/-- The functions of `vscan` (R272). -/
inductive ScanOp
  | isum | xsum | imax
deriving DecidableEq, Repr, Inhabited

/-- The forms of `mcoll` (R282). -/
inductive CollForm
  | mean | var | std | ksig | samp
deriving DecidableEq, Repr, Inhabited

/-- The operations of `amo` (R289). -/
inductive AmoOp
  | swap | add | and | or | xor | min | max | minn | maxn
deriving DecidableEq, Repr, Inhabited

/-- The functions of `sum.red` (R334). -/
inductive SumOp
  | sum | max | min | argmax | or
deriving DecidableEq, Repr, Inhabited

/-- The second operand of the ALU pattern outside class 0b00 (R186): class 0b10, 0b01 or 0b11. -/
inductive Op2
  | ext (c : Reg) (imm : BitVec 24)
  | lit (v : BitVec 64)
  | long (v : BitVec 64)
deriving DecidableEq, Repr, Inhabited

/-- The mask of a lane instruction (R189): the lanes whose bit of `reg` is 1, or 0 when `neg`. -/
structure MaskSel where
  neg : Bool
  reg : Fin 16
deriving DecidableEq, Repr, Inhabited

/-- No mask: `m0`, all lanes. -/
def MaskSel.all : MaskSel := ⟨false, 0⟩

/-- The indexed operand of R188, with its six displacement bits. -/
inductive Index
  | none
  | opA (k : Fin 64)
  | opB (k : Fin 64)
  | opC (k : Fin 64)
deriving DecidableEq, Repr, Inhabited

/-- The extended fields of a VEC or MOM instruction (R185): FMT, RND (`none` is 7), mask and index. -/
structure VecX where
  fmt : Fmt
  rnd : Option Rm
  mask : MaskSel
  index : Index
deriving DecidableEq, Repr, Inhabited

/-- `vsplat` outside class 0b00 (R273): the literal forms carry what their class has room for. -/
inductive SplatX
  | ext (c : Reg) (imm : BitVec 24) (x : VecX)
  | lit (v : BitVec 64) (fmt : Fmt)
  | long (v : BitVec 64) (x : VecX)
deriving DecidableEq, Repr, Inhabited

/-- The extended fields of a MEM instruction (R284): index register, byte offset, scope and ordering. -/
structure MemX where
  index : Reg
  imm : BitVec 24
  scope : Scope
  order : Order
deriving DecidableEq, Repr, Inhabited

/-- What a member of a collective issued (R333). -/
inductive CollKind
  | bar
  | red (op : SumOp) (fmt : Fmt)
  | bc
  | top
  | topp
deriving DecidableEq, Repr, Inhabited

/-- The arrival of a member on another package of the pod (R333): its rank, its operand and, for the sampler, its shard
and the draw its key gives when it has the lowest rank. -/
structure RemoteMember where
  package : Nat
  ordinal : Nat
  kind : CollKind
  operand : BitVec 128
  logits : List (Nat × BitVec 32)
  draw : Option (BitVec 32)
deriving DecidableEq, Repr, Inhabited

/-- The algorithms a requester may offer (R456). -/
inductive SpdmAlgorithm
  | ecdsaP384 | sha384 | ecdheP384 | aes256Gcm | other
deriving DecidableEq, Repr, Inhabited

/-- The instructions and events of the opcode table, in its order. -/
inductive Instr
  /-- ADD (R221) -/
  | add (a b c : Reg)
  /-- ADD_WIDE (R221) -/
  | addWide (a b : Reg) (o : Op2)
  /-- SUB (R221) -/
  | sub (a b c : Reg)
  /-- SUB_WIDE (R221) -/
  | subWide (a b : Reg) (o : Op2)
  /-- MUL (R221) -/
  | mul (a b c : Reg)
  /-- MUL_WIDE (R221) -/
  | mulWide (a b : Reg) (o : Op2)
  /-- MULH (R221) -/
  | mulh (a b c : Reg)
  /-- MULH_WIDE (R221) -/
  | mulhWide (a b : Reg) (o : Op2)
  /-- MULHN (R221) -/
  | mulhn (a b c : Reg)
  /-- MULHN_WIDE (R221) -/
  | mulhnWide (a b : Reg) (o : Op2)
  /-- DIV (R221) -/
  | div (a b c : Reg)
  /-- DIV_WIDE (R221) -/
  | divWide (a b : Reg) (o : Op2)
  /-- DIVN (R221) -/
  | divn (a b c : Reg)
  /-- DIVN_WIDE (R221) -/
  | divnWide (a b : Reg) (o : Op2)
  /-- REM (R221) -/
  | rem (a b c : Reg)
  /-- REM_WIDE (R221) -/
  | remWide (a b : Reg) (o : Op2)
  /-- REMN (R221) -/
  | remn (a b c : Reg)
  /-- REMN_WIDE (R221) -/
  | remnWide (a b : Reg) (o : Op2)
  /-- AND (R221) -/
  | and (a b c : Reg)
  /-- AND_WIDE (R221) -/
  | andWide (a b : Reg) (o : Op2)
  /-- OR (R221) -/
  | or (a b c : Reg)
  /-- OR_WIDE (R221) -/
  | orWide (a b : Reg) (o : Op2)
  /-- XOR (R221) -/
  | xor (a b c : Reg)
  /-- XOR_WIDE (R221) -/
  | xorWide (a b : Reg) (o : Op2)
  /-- SHL (R221) -/
  | shl (a b c : Reg)
  /-- SHL_WIDE (R221) -/
  | shlWide (a b : Reg) (o : Op2)
  /-- SHR (R221) -/
  | shr (a b c : Reg)
  /-- SHR_WIDE (R221) -/
  | shrWide (a b : Reg) (o : Op2)
  /-- SRA (R221) -/
  | sra (a b c : Reg)
  /-- SRA_WIDE (R221) -/
  | sraWide (a b : Reg) (o : Op2)
  /-- ROTL (R221) -/
  | rotl (a b c : Reg)
  /-- ROTL_WIDE (R221) -/
  | rotlWide (a b : Reg) (o : Op2)
  /-- SLT (R221) -/
  | slt (a b c : Reg)
  /-- SLT_WIDE (R221) -/
  | sltWide (a b : Reg) (o : Op2)
  /-- SLTN (R221) -/
  | sltn (a b c : Reg)
  /-- SLTN_WIDE (R221) -/
  | sltnWide (a b : Reg) (o : Op2)
  /-- SEQ (R221) -/
  | seq (a b c : Reg)
  /-- SEQ_WIDE (R221) -/
  | seqWide (a b : Reg) (o : Op2)
  /-- SNE (R221) -/
  | sne (a b c : Reg)
  /-- SNE_WIDE (R221) -/
  | sneWide (a b : Reg) (o : Op2)
  /-- MIN (R221) -/
  | min (a b c : Reg)
  /-- MIN_WIDE (R221) -/
  | minWide (a b : Reg) (o : Op2)
  /-- MAX (R221) -/
  | max (a b c : Reg)
  /-- MAX_WIDE (R221) -/
  | maxWide (a b : Reg) (o : Op2)
  /-- MINN (R221) -/
  | minn (a b c : Reg)
  /-- MINN_WIDE (R221) -/
  | minnWide (a b : Reg) (o : Op2)
  /-- MAXN (R221) -/
  | maxn (a b c : Reg)
  /-- MAXN_WIDE (R221) -/
  | maxnWide (a b : Reg) (o : Op2)
  /-- CLZ (R222) -/
  | clz (a b : Reg)
  /-- CLZ_EXT (R222) -/
  | clzExt (a b : Reg) (w : BitWidth)
  /-- CTZ (R222) -/
  | ctz (a b : Reg)
  /-- CTZ_EXT (R222) -/
  | ctzExt (a b : Reg) (w : BitWidth)
  /-- POPC (R222) -/
  | popc (a b : Reg)
  /-- POPC_EXT (R222) -/
  | popcExt (a b : Reg) (w : BitWidth)
  /-- BSWAP (R222) -/
  | bswap (a b : Reg)
  /-- BSWAP_EXT (R222) -/
  | bswapExt (a b : Reg) (w : BitWidth)
  /-- QADD (R223) -/
  | qadd (a b c : Reg)
  /-- QADD_WIDE (R223) -/
  | qaddWide (a b : Reg) (o : Op2)
  /-- QSUB (R223) -/
  | qsub (a b c : Reg)
  /-- QSUB_WIDE (R223) -/
  | qsubWide (a b : Reg) (o : Op2)
  /-- QMUL (R223) -/
  | qmul (a b c : Reg)
  /-- QMUL_WIDE (R223) -/
  | qmulWide (a b : Reg) (o : Op2)
  /-- QSHL (R223) -/
  | qshl (a b c : Reg)
  /-- QSHL_WIDE (R223) -/
  | qshlWide (a b : Reg) (o : Op2)
  /-- QSHR (R223) -/
  | qshr (a b c : Reg)
  /-- QSHR_WIDE (R223) -/
  | qshrWide (a b : Reg) (o : Op2)
  /-- KMOV (R224) -/
  | kmov (a b : Reg)
  /-- KMOV_EXT (R224) -/
  | kmovExt (a b : Reg)
  /-- KSTEP (R224) -/
  | kstep (a b c : Reg)
  /-- KSTEP_EXT (R224) -/
  | kstepExt (a b c : Reg) (imm : BitVec 24)
  /-- KPLACE (R224) -/
  | kplace (a b c : Reg)
  /-- KPLACE_EXT (R224) -/
  | kplaceExt (a b c : Reg) (imm : BitVec 24)
  /-- KFIT (R226) -/
  | kfit (a b c : Reg)
  /-- KFIT_EXT (R226) -/
  | kfitExt (a b c : Reg) (imm : BitVec 24)
  /-- KCUT (R226) -/
  | kcut (a b c : Reg)
  /-- KCUT_EXT (R226) -/
  | kcutExt (a b c : Reg) (imm : BitVec 24)
  /-- KMASK (R224) -/
  | kmask (a b c : Reg)
  /-- KMASK_EXT (R224) -/
  | kmaskExt (a b c : Reg) (imm : BitVec 24)
  /-- KLOCK (R227) -/
  | klock (a b : Reg)
  /-- KLOCK_EXT (R227) -/
  | klockExt (a b : Reg)
  /-- KOPEN (R227) -/
  | kopen (a b c : Reg)
  /-- KOPEN_EXT (R227) -/
  | kopenExt (a b c : Reg)
  /-- KCUR (R228) -/
  | kcur (a b : Reg)
  /-- KBASE (R228) -/
  | kbase (a b : Reg)
  /-- KTOP (R228) -/
  | ktop (a b : Reg)
  /-- KLEN (R228) -/
  | klen (a b : Reg)
  /-- KPERM (R228) -/
  | kperm (a b : Reg)
  /-- KTAG (R228) -/
  | ktag (a b : Reg)
  /-- KINSIDE (R228) -/
  | kinside (a b c : Reg)
  /-- KPLAIN (R228) -/
  | kplain (a b : Reg)
  /-- J (R231) -/
  | j (off : BitVec 16)
  /-- J_EXT (R231) -/
  | jExt (off : BitVec 24)
  /-- JAL (R231) -/
  | jal (a : Reg) (off : BitVec 16)
  /-- JAL_EXT (R231) -/
  | jalExt (a : Reg) (off : BitVec 24)
  /-- JR (R232) -/
  | jr (b : Reg)
  /-- JALR (R232) -/
  | jalr (a b : Reg)
  /-- RET (R232) -/
  | ret (b : Reg)
  /-- BEQ (R229) -/
  | beq (a b : Reg) (off : BitVec 10)
  /-- BEQ_EXT (R229) -/
  | beqExt (a b : Reg) (off : BitVec 24)
  /-- BNE (R229) -/
  | bne (a b : Reg) (off : BitVec 10)
  /-- BNE_EXT (R229) -/
  | bneExt (a b : Reg) (off : BitVec 24)
  /-- BLT (R229) -/
  | blt (a b : Reg) (off : BitVec 10)
  /-- BLT_EXT (R229) -/
  | bltExt (a b : Reg) (off : BitVec 24)
  /-- BGE (R229) -/
  | bge (a b : Reg) (off : BitVec 10)
  /-- BGE_EXT (R229) -/
  | bgeExt (a b : Reg) (off : BitVec 24)
  /-- BLTN (R229) -/
  | bltn (a b : Reg) (off : BitVec 10)
  /-- BLTN_EXT (R229) -/
  | bltnExt (a b : Reg) (off : BitVec 24)
  /-- BGEN (R229) -/
  | bgen (a b : Reg) (off : BitVec 10)
  /-- BGEN_EXT (R229) -/
  | bgenExt (a b : Reg) (off : BitVec 24)
  /-- BM (R230) -/
  | bm (m : Reg) (cond : MaskCond) (off : BitVec 24)
  /-- KENTER (R233) -/
  | kenter (a b : Reg)
  /-- CTX_SAVE (R250) -/
  | ctxSave (d a b c : Reg) (evict : Bool)
  /-- CTX_REST (R250) -/
  | ctxRest (d a b c : Reg)
  /-- ERET (R244) -/
  | eret (b : Reg)
  /-- START (R234) -/
  | start (a b c : Reg) (pin : Pin)
  /-- JOIN (R235) -/
  | join (a b : Reg)
  /-- HALT (R235) -/
  | halt (a : Reg)
  /-- SPAWN (R236) -/
  | spawn (a b c d : Reg) (imm : BitVec 24)
  /-- YIELD (R237) -/
  | yield
  /-- BAR (R238) -/
  | bar (sc : Scope)
  /-- SEM_SIG (R239) -/
  | semSig (sem : Reg)
  /-- SEM_WAIT (R239) -/
  | semWait (sem : Reg)
  /-- FWD_PUT (R240) -/
  | fwdPut (a : Reg) (quad : Bool)
  /-- FWD_GET (R240) -/
  | fwdGet (a : Reg)
  /-- TRAP (R247) -/
  | trap (n : Fin 16)
  /-- TRAP_EXT (R247) -/
  | trapExt (n : BitVec 24)
  /-- SRD (R248) -/
  | srd (a sr : Reg)
  /-- SWR (R248) -/
  | swr (sr b : Reg)
  /-- IFENCE (R160) -/
  | ifence
  /-- HRET (R246) -/
  | hret (b : Reg)
  /-- VADD (R261) -/
  | vadd (a b c : Reg) (fmt : Fmt)
  /-- VADD_EXT (R261) -/
  | vaddExt (a b c : Reg) (sat : Bool) (x : VecX)
  /-- VSUB (R261) -/
  | vsub (a b c : Reg) (fmt : Fmt)
  /-- VSUB_EXT (R261) -/
  | vsubExt (a b c : Reg) (sat : Bool) (x : VecX)
  /-- VMUL (R261) -/
  | vmul (a b c : Reg) (fmt : Fmt)
  /-- VMUL_EXT (R261) -/
  | vmulExt (a b c : Reg) (sat : Bool) (x : VecX)
  /-- VFMA (R261) -/
  | vfma (a b c : Reg) (fmt : Fmt)
  /-- VFMA_EXT (R261) -/
  | vfmaExt (a b c : Reg) (x : VecX)
  /-- VMIN (R261) -/
  | vmin (a b c : Reg) (fmt : Fmt)
  /-- VMIN_EXT (R261) -/
  | vminExt (a b c : Reg) (x : VecX)
  /-- VMAX (R261) -/
  | vmax (a b c : Reg) (fmt : Fmt)
  /-- VMAX_EXT (R261) -/
  | vmaxExt (a b c : Reg) (x : VecX)
  /-- VABS (R261) -/
  | vabs (a b : Reg) (fmt : Fmt)
  /-- VABS_EXT (R261) -/
  | vabsExt (a b : Reg) (sat : Bool) (x : VecX)
  /-- VNEG (R261) -/
  | vneg (a b : Reg) (fmt : Fmt)
  /-- VNEG_EXT (R261) -/
  | vnegExt (a b : Reg) (sat : Bool) (x : VecX)
  /-- VDIV (R261) -/
  | vdiv (a b c : Reg) (fmt : Fmt)
  /-- VDIV_EXT (R261) -/
  | vdivExt (a b c : Reg) (x : VecX)
  /-- VSQRT (R261) -/
  | vsqrt (a b : Reg) (fmt : Fmt)
  /-- VSQRT_EXT (R261) -/
  | vsqrtExt (a b : Reg) (x : VecX)
  /-- VRSQRT (R261) -/
  | vrsqrt (a b : Reg) (fmt : Fmt)
  /-- VRSQRT_EXT (R261) -/
  | vrsqrtExt (a b : Reg) (x : VecX)
  /-- VEXP (R261) -/
  | vexp (a b : Reg) (fmt : Fmt)
  /-- VEXP_EXT (R261) -/
  | vexpExt (a b : Reg) (x : VecX)
  /-- VLOG (R261) -/
  | vlog (a b : Reg) (fmt : Fmt)
  /-- VLOG_EXT (R261) -/
  | vlogExt (a b : Reg) (x : VecX)
  /-- VSIG (R261) -/
  | vsig (a b : Reg) (fmt : Fmt)
  /-- VSIG_EXT (R261) -/
  | vsigExt (a b : Reg) (x : VecX)
  /-- VTANH (R261) -/
  | vtanh (a b : Reg) (fmt : Fmt)
  /-- VTANH_EXT (R261) -/
  | vtanhExt (a b : Reg) (x : VecX)
  /-- VADDC (R263) -/
  | vaddc (a b : Reg)
  /-- VADDC_EXT (R263) -/
  | vaddcExt (a b : Reg) (x : VecX)
  /-- VAND (R264) -/
  | vand (a b c : Reg) (fmt : Fmt)
  /-- VAND_EXT (R264) -/
  | vandExt (a b c : Reg) (x : VecX)
  /-- VOR (R264) -/
  | vor (a b c : Reg) (fmt : Fmt)
  /-- VOR_EXT (R264) -/
  | vorExt (a b c : Reg) (x : VecX)
  /-- VXOR (R264) -/
  | vxor (a b c : Reg) (fmt : Fmt)
  /-- VXOR_EXT (R264) -/
  | vxorExt (a b c : Reg) (x : VecX)
  /-- VSHL (R264) -/
  | vshl (a b c : Reg) (fmt : Fmt)
  /-- VSHL_EXT (R264) -/
  | vshlExt (a b c : Reg) (x : VecX)
  /-- VSHR (R264) -/
  | vshr (a b c : Reg) (fmt : Fmt)
  /-- VSHR_EXT (R264) -/
  | vshrExt (a b c : Reg) (x : VecX)
  /-- VSRA (R264) -/
  | vsra (a b c : Reg) (fmt : Fmt)
  /-- VSRA_EXT (R264) -/
  | vsraExt (a b c : Reg) (x : VecX)
  /-- VSEL (R264) -/
  | vsel (a b c : Reg) (fmt : Fmt)
  /-- VSEL_EXT (R264) -/
  | vselExt (a b c : Reg) (x : VecX)
  /-- VMOV (R264) -/
  | vmov (a b : Reg) (fmt : Fmt)
  /-- VMOV_EXT (R264) -/
  | vmovExt (a b : Reg) (x : VecX)
  /-- VDOT (R265) -/
  | vdot (a b c : Reg) (fmt : Fmt)
  /-- VDOT_EXT (R265) -/
  | vdotExt (a b c : Reg) (x : VecX)
  /-- VCVT (R266) -/
  | vcvt (a b : Reg) (part : Fin 16) (src : Fmt) (x : VecX)
  /-- VPACK (R267) -/
  | vpack (a d b : Reg) (kind : PackKind) (part : Fin 16) (x : VecX)
  /-- VUNPK (R268) -/
  | vunpk (a d b : Reg) (kind : PackKind) (part : Fin 16) (x : VecX)
  /-- VCMP (R269) -/
  | vcmp (a b c : Reg) (cond : CmpCond) (x : VecX)
  /-- MSKL (R270) -/
  | mskl (a b c : Reg) (op : MaskOp)
  /-- MSKP (R270) -/
  | mskp (a b : Reg) (op : MaskProbe)
  /-- MSKS (R270) -/
  | msks (a : Reg) (lit : BitVec 64)
  /-- MSKS_EXT (R270) -/
  | msksExt (a : Reg) (lit : BitVec 64) (op : MaskSet)
  /-- VRED (R271) -/
  | vred (a b : Reg) (op : RedOp) (x : VecX)
  /-- VSCAN (R272) -/
  | vscan (a b c d : Reg) (op : ScanOp) (x : VecX)
  /-- VBCAST (R273) -/
  | vbcast (a b c : Reg) (fmt : Fmt)
  /-- VBCAST_EXT (R273) -/
  | vbcastExt (a b c : Reg) (imm : BitVec 24) (x : VecX)
  /-- VPERM (R273) -/
  | vperm (a b c : Reg) (fmt : Fmt)
  /-- VPERM_EXT (R273) -/
  | vpermExt (a b c : Reg) (x : VecX)
  /-- VSORT (R275) -/
  | vsort (a b : Reg) (fmt : Fmt)
  /-- VSORT_EXT (R275) -/
  | vsortExt (a b : Reg) (desc : Bool) (x : VecX)
  /-- VMERGE (R275) -/
  | vmerge (a b c : Reg) (fmt : Fmt)
  /-- VMERGE_EXT (R275) -/
  | vmergeExt (a b c d : Reg) (desc : Bool) (x : VecX)
  /-- VIDX (R273) -/
  | vidx (a b : Reg) (fmt : Fmt)
  /-- VIDX_EXT (R273) -/
  | vidxExt (a b : Reg) (imm : BitVec 24) (x : VecX)
  /-- VSPLAT (R273) -/
  | vsplat (a c : Reg) (fmt : Fmt)
  /-- VSPLAT_WIDE (R273) -/
  | vsplatWide (a : Reg) (w : SplatX)
  /-- VRAND (R276) -/
  | vrand (a : Reg) (fmt : Fmt)
  /-- VRAND_EXT (R276) -/
  | vrandExt (a : Reg) (x : VecX)
  /-- VKEEP (R276) -/
  | vkeep (a b c : Reg) (fmt : Fmt)
  /-- VKEEP_EXT (R276) -/
  | vkeepExt (a b c : Reg) (x : VecX)
  /-- VPHX (R277) -/
  | vphx (a b c : Reg) (fmt : Fmt)
  /-- VPHX_EXT (R277) -/
  | vphxExt (a b c : Reg) (word : Fin 4) (imm : BitVec 24) (x : VecX)
  /-- VROPE (R278) -/
  | vrope (a b c : Reg)
  /-- VROPE_EXT (R278) -/
  | vropeExt (a b c d : Reg) (half : Bool) (x : VecX)
  /-- VINS (R273) -/
  | vins (a b c : Reg) (fmt : Fmt)
  /-- VINS_EXT (R273) -/
  | vinsExt (a b c : Reg) (imm : BitVec 24) (x : VecX)
  /-- VEXT (R273) -/
  | vext (a b c : Reg) (fmt : Fmt)
  /-- VEXT_EXT (R273) -/
  | vextExt (a b c : Reg) (imm : BitVec 24) (x : VecX)
  /-- MADD (R280) -/
  | madd (a b c : Reg)
  /-- MADD_EXT (R280) -/
  | maddExt (a b c d : Reg) (x : VecX)
  /-- MSUB (R280) -/
  | msub (a b c : Reg)
  /-- MSUB_EXT (R280) -/
  | msubExt (a b c d : Reg) (x : VecX)
  /-- MMUL (R280) -/
  | mmul (a b c : Reg)
  /-- MMUL_EXT (R280) -/
  | mmulExt (a b c : Reg) (x : VecX)
  /-- MSCL (R280) -/
  | mscl (a b c : Reg)
  /-- MSCL_EXT (R280) -/
  | msclExt (a b c : Reg) (x : VecX)
  /-- MEXP (R280) -/
  | mexp (a b : Reg)
  /-- MEXP_EXT (R280) -/
  | mexpExt (a b : Reg) (x : VecX)
  /-- MRELU (R280) -/
  | mrelu (a b : Reg)
  /-- MRELU_EXT (R280) -/
  | mreluExt (a b : Reg) (x : VecX)
  /-- MSIG (R280) -/
  | msig (a b : Reg)
  /-- MSIG_EXT (R280) -/
  | msigExt (a b : Reg) (x : VecX)
  /-- MCOLL (R282) -/
  | mcoll (a b c : Reg) (form : CollForm) (half : Bool) (x : VecX)
  /-- MFROM (R281) -/
  | mfrom (a b c : Reg)
  /-- MFROM_EXT (R281) -/
  | mfromExt (a b c : Reg) (x : VecX)
  /-- MMOV (R280) -/
  | mmov (a b : Reg)
  /-- MMOV_EXT (R280) -/
  | mmovExt (a b : Reg) (x : VecX)
  /-- LD (R286) -/
  | ld (a b : Reg) (kind : Kind) (off : Fin 16)
  /-- LD_EXT (R286) -/
  | ldExt (a b : Reg) (kind : Kind) (x : MemX)
  /-- ST (R286) -/
  | st (a b : Reg) (kind : Kind) (off : Fin 16)
  /-- ST_EXT (R286) -/
  | stExt (a b : Reg) (kind : Kind) (x : MemX)
  /-- CLD (R286) -/
  | cld (a b : Reg) (off : Fin 16)
  /-- CLD_EXT (R286) -/
  | cldExt (a b : Reg) (x : MemX)
  /-- CST (R286) -/
  | cst (a b : Reg) (off : Fin 16)
  /-- CST_EXT (R286) -/
  | cstExt (a b : Reg) (x : MemX)
  /-- VLD (R287) -/
  | vld (a b : Reg) (off : Fin 16)
  /-- VLD_EXT (R287) -/
  | vldExt (a b : Reg) (m : MaskSel) (x : MemX)
  /-- VST (R287) -/
  | vst (a b : Reg) (off : Fin 16)
  /-- VST_EXT (R287) -/
  | vstExt (a b : Reg) (m : MaskSel) (x : MemX)
  /-- VGATH (R288) -/
  | vgath (a b : Reg) (m : MaskSel) (x : MemX)
  /-- VSCAT (R288) -/
  | vscat (a b : Reg) (m : MaskSel) (x : MemX)
  /-- ELD (R287) -/
  | eld (a b : Reg) (off : Fin 16)
  /-- ELD_EXT (R287) -/
  | eldExt (a b : Reg) (m : MaskSel) (x : MemX)
  /-- EST (R287) -/
  | est (a b : Reg) (off : Fin 16)
  /-- EST_EXT (R287) -/
  | estExt (a b : Reg) (m : MaskSel) (x : MemX)
  /-- AMO (R289) -/
  | amo (a b d : Reg) (op : AmoOp) (narrow : Bool) (x : MemX)
  /-- CAS (R290) -/
  | cas (a b d : Reg) (narrow : Bool) (x : MemX)
  /-- CCAS (R291) -/
  | ccas (a b d : Reg) (x : MemX)
  /-- FENCE (R166) -/
  | fence (sc : Scope)
  /-- STASH_MAP (R123) -/
  | stashMap (w b : Reg) (off len : Fin 1024)
  /-- STASH_UNMAP (R126) -/
  | stashUnmap (w : Reg)
  /-- STASH_UNMAP_EXT (R126) -/
  | stashUnmapExt
  /-- STASH_WB (R126) -/
  | stashWb (w : Reg)
  /-- STASH_WB_EXT (R126) -/
  | stashWbExt
  /-- STASH_AP (R293) -/
  | stashAp (a b c : Reg)
  /-- COPY (R295) -/
  | copy (a b c : Reg) (ch : Fin 4) (land : Bool)
  /-- COPY_WAIT (R296) -/
  | copyWait (ch : Reg)
  /-- COPY_WAIT_EXT (R296) -/
  | copyWaitExt (d ch b : Reg) (imm : BitVec 24)
  /-- VALLOC (R298) -/
  | valloc (a d c : Reg) (imm : BitVec 24)
  /-- VDUP (R297) -/
  | vdup (a b : Reg)
  /-- VDUP_EXT (R297) -/
  | vdupExt (a b : Reg)
  /-- VSPLIT (R297) -/
  | vsplit (a b c : Reg)
  /-- VSPLIT_EXT (R297) -/
  | vsplitExt (a b c : Reg) (imm : BitVec 24)
  /-- VNARROW (R297) -/
  | vnarrow (a b c : Reg)
  /-- VNARROW_EXT (R297) -/
  | vnarrowExt (a b c : Reg) (imm : BitVec 24)
  /-- VDROP (R297) -/
  | vdrop (b : Reg)
  /-- VDROP_EXT (R297) -/
  | vdropExt (b : Reg)
  /-- VPARK (R297) -/
  | vpark (k b : Reg)
  /-- VPARK_EXT (R297) -/
  | vparkExt (k b : Reg)
  /-- VTAKE (R297) -/
  | vtake (a k : Reg)
  /-- VTAKE_EXT (R297) -/
  | vtakeExt (a k : Reg)
  /-- PM_LOOK (R300) -/
  | pmLook (a b : Reg)
  /-- PM_FILL (R301) -/
  | pmFill (b c : Reg) (e : Fin 256)
  /-- KV_APP (R302) -/
  | kvApp (a b c d e : Reg) (n : Fin 256)
  /-- CAIRN_LOOK (R304) -/
  | cairnLook (a b c d : Reg)
  /-- CAIRN_INS (R305) -/
  | cairnIns (a b c d : Reg)
  /-- CAIRN_REL (R305) -/
  | cairnRel (a c d : Reg)
  /-- ADM_RSV (R306) -/
  | admRsv (a b c d : Reg)
  /-- ADM_END (R307) -/
  | admEnd (a b : Reg)
  /-- MSG_SEND (R308) -/
  | msgSend (a b c d : Reg) (ord : Order)
  /-- MIG (R311) -/
  | mig (a b : Reg)
  /-- MIG_RET (R312) -/
  | migRet (a : Reg)
  /-- MX_LDW (R319) -/
  | mxLdw (n : Fin 256) (b c : Reg)
  /-- MX_SWAP (R320) -/
  | mxSwap
  /-- MX_SWAP_EXT (R320) -/
  | mxSwapExt (n : Fin 256) (ch : Fin 4) (waits : Bool)
  /-- MX_STR (R321) -/
  | mxStr (a b c : Reg) (n : Fin 256) (z mo : Bool) (blk : Fin 8)
  /-- MX_GSTR (R323) -/
  | mxGstr (a b : Reg) (n m p : Fin 256) (z : Bool) (blk : Fin 8)
  /-- ACC_RD (R325) -/
  | accRd (a b c : Reg) (mo : Bool)
  /-- ACC_WR (R325) -/
  | accWr (a b c : Reg) (mo : Bool)
  /-- ACC_CLR (R326) -/
  | accClr (a : Reg)
  /-- ACC_CLR_EXT (R326) -/
  | accClrExt (a : Reg) (mask : Fin 256)
  /-- EP_LOAD (R329) -/
  | epLoad (a b : Reg)
  /-- EP_RUN (R330) -/
  | epRun (a b c d : Reg) (n : Fin 256) (mo : Bool) (rnd : Option Rm)
  /-- EP_WAIT (R331) -/
  | epWait (a : Reg)
  /-- SMP_PEN (R339) -/
  | smpPen (a b c d : Reg) (n : Fin 256)
  /-- SMP_TEMP (R340) -/
  | smpTemp (a c : Reg) (n : Fin 256)
  /-- SMP_GUM (R341) -/
  | smpGum (a b d : Reg) (n : Fin 256)
  /-- SMP_TOP (R342) -/
  | smpTop (a d : Reg) (n : Fin 256) (sc : Scope)
  /-- SMP_TOPP (R343) -/
  | smpTopp (a b c d : Reg) (n : Fin 256) (sc : Scope)
  /-- SMP_STEP (R344) -/
  | smpStep (a b c : Reg)
  /-- SMP_DRAFT (R348) -/
  | smpDraft (a b c : Reg)
  /-- SMP_VER (R350) -/
  | smpVer (a b c : Reg)
  /-- SUM_RED (R334) -/
  | sumRed (a b : Reg) (op : SumOp) (fmt : Fmt) (sc : Scope)
  /-- SUM_BC (R334) -/
  | sumBc (a b : Reg) (sc : Scope)
  /-- TOK_MAP (R336) -/
  | tokMap (a b : Reg) (k : Fin 16)
  /-- TOK_BIND (R337) -/
  | tokBind (a b c : Reg)
  /-- FETCH_SERVE (R20) -/
  | fetchServe (unit : Nat)
  /-- OPERATION_COMPLETE (R16) -/
  | operationComplete (core slot : Nat)
  /-- BARRIER_COMPLETE (R11) -/
  | barrierComplete (team : Nat) (scope : Scope) (extent : Nat) (remote : List RemoteMember)
  /-- FWD_HOLD_COMPLETE (R49) -/
  | fwdHoldComplete (core slot : Nat)
  /-- LAUNCH_ADMIT (R23) -/
  | launchAdmit (queue entry : Nat) (place : List Nat)
  /-- TEAM_COMPLETE (R27) -/
  | teamComplete (team : Nat)
  /-- GRANT_ROUND (R41) -/
  | grantRound (core : Nat)
  /-- WEIGHT_RESTORE (R45) -/
  | weightRestore (island cls weight : Nat)
  /-- SLICE_BOUNDARY (R51) -/
  | sliceBoundary (leave enter : List Nat)
  /-- CONTEXT_PREEMPT (R52) -/
  | contextPreempt (core slot : Nat)
  /-- SPAWN_ARRIVAL (R33) -/
  | spawnArrival (core : Nat)
  /-- TRAP_NOTICE_RUN (R438) -/
  | trapNoticeRun (core : Nat)
  /-- COMPLETION_NOTICE (R421) -/
  | completionNotice (core slot : Nat)
  /-- MESSAGE_RUN (R309) -/
  | messageRun (core : Nat)
  /-- COPY_DELIVERY (R129) -/
  | copyDelivery (core : Nat) (ch : Fin 4)
  /-- MORAINE_FREE (R142) -/
  | moraineFree (domain granule : Nat)
  /-- SCRUB (R154) -/
  | scrub (item : Nat)
  /-- COVERED_ALLOCATION (R358) -/
  | coveredAllocation (core slot : Nat)
  /-- EPILOGUE_ROW (R330) -/
  | epilogueRow (core : Nat)
  /-- DOORBELL (R390) -/
  | doorbell (func queue : Nat) (count : BitVec 64)
  /-- INTAKE_ENTRY (R391) -/
  | intakeEntry (queue : Nat)
  /-- STAMP_RETRY (R391) -/
  | stampRetry (queue : Nat)
  /-- INTAKE_SLOT_ASSIGN (R392) -/
  | intakeSlotAssign (core : Nat)
  /-- PLACEMENT_EXCHANGE (R393) -/
  | placementExchange (first second : Nat)
  /-- NOP (R394) -/
  | nop (queue entry : Nat)
  /-- LAUNCH (R400) -/
  | launch (queue entry : Nat)
  /-- WAIT (R394) -/
  | wait (queue entry : Nat)
  /-- WAIT_SATISFIED (R394) -/
  | waitSatisfied (queue entry : Nat)
  /-- SIGNAL (R394) -/
  | signal (queue entry : Nat)
  /-- QUEUE_FENCE (R396) -/
  | queueFence (queue entry : Nat)
  /-- BIND (R404) -/
  | bind (queue entry : Nat)
  /-- SWAP (R405) -/
  | swap (queue entry : Nat)
  /-- UNBIND (R406) -/
  | unbind (queue entry : Nat)
  /-- BIAS (R173) -/
  | bias (queue entry : Nat)
  /-- SAMPLE (R397) -/
  | sample (queue entry : Nat)
  /-- DOMCFG (R407) -/
  | domcfg (queue entry : Nat)
  /-- QCFG_WRITE (R386) -/
  | qcfgWrite (queue : Nat) (value : BitVec 128)
  /-- REGISTER_WRITE (R384) -/
  | registerWrite (func offset : Nat) (value : BitVec 64)
  /-- EVENT_WRITE (R422) -/
  | eventWrite (func : Nat)
  /-- EVENT_REPLY (R423) -/
  | eventReply (func : Nat) (reply : BitVec 256)
  /-- INTAKE_WINDOW_WRITE (R398) -/
  | intakeWindowWrite (func queue : Nat) (entry : BitVec 1024)
  /-- SEGMENT_WINDOW_ACCESS (R385) -/
  | segmentWindowAccess (func offset size : Nat) (data : Option (List (BitVec 8)))
  /-- HOST_MEM_ACCESS (R171) -/
  | hostMemAccess (address size : Nat) (data : Option (List (BitVec 8)))
  /-- SHOOTDOWN_TRANSLATION (R415) -/
  | shootdownTranslation (fromHost : Bool) (page count : Nat)
  /-- SHOOTDOWN_RIGHTS (R415) -/
  | shootdownRights (fromHost : Bool) (domain : Nat)
  /-- SHOOTDOWN_COMPLETE (R416) -/
  | shootdownComplete
  /-- PAGE_MOVE (R417) -/
  | pageMove (request : BitVec 128)
  /-- PAGE_IN (R419) -/
  | pageIn (ticket : Nat)
  /-- KEY_CREATE (R429) -/
  | keyCreate (handle : BitVec 32)
  /-- KEY_DESTROY (R429) -/
  | keyDestroy (handle : BitVec 32)
  /-- KEY_QUERY (R429) -/
  | keyQuery (handle : BitVec 32)
  /-- PACKAGE_RESET (R431) -/
  | packageReset (verified : List Nat)
  /-- FIRMWARE_UPDATE (R455) -/
  | firmwareUpdate (length : BitVec 64) (versions : Nat × Nat) (dies : List Nat)
  /-- FIRMWARE_DIE_UPDATE (R432) -/
  | firmwareDieUpdate (verified : Bool)
  /-- PRESET (R449) -/
  | preset (value : BitVec 64)
  /-- LAUNCH_TIME_LIMIT (R448) -/
  | launchTimeLimit (team : Nat)
  /-- FUNCTION_LEVEL_RESET (R449) -/
  | functionLevelReset (func : Nat)
  /-- MERIDIAN_INTERVAL (R446) -/
  | meridianInterval (power temperature : List (Nat × Nat))
  /-- HBM_PATROL (R452) -/
  | hbmPatrol (corrected : List Nat × Nat) (uncorrected : List Nat × List Nat)
  /-- LINK_CRC_ERROR (R452) -/
  | linkCrcError (retrain : Bool)
  /-- GET_VERSION (R456) -/
  | getVersion
  /-- GET_CAPABILITIES (R456) -/
  | getCapabilities
  /-- NEGOTIATE_ALGORITHMS (R456) -/
  | negotiateAlgorithms (offered : List SpdmAlgorithm)
  /-- GET_DIGESTS (R456) -/
  | getDigests
  /-- GET_CERTIFICATE (R456) -/
  | getCertificate (slot offset length : Nat)
  /-- CHALLENGE (R456) -/
  | challenge (slot : Nat) (nonce : BitVec 256)
  /-- GET_MEASUREMENTS (R457) -/
  | getMeasurements (request : Nat × Option (Nat × BitVec 256))
  /-- KEY_EXCHANGE (R456) -/
  | keyExchange (share : BitVec 768)
  /-- FINISH (R456) -/
  | finish (verify : BitVec 384)
  /-- HEARTBEAT (R456) -/
  | heartbeat (session : Nat)
  /-- KEY_UPDATE (R456) -/
  | keyUpdate (session : Nat)
  /-- END_SESSION (R456) -/
  | endSession (session : Nat)
  /-- SET_CERTIFICATE (R456) -/
  | setCertificate (session slot : Nat) (chain : List (BitVec 8))
  /-- SETKEY (R458) -/
  | setkey (session : Nat) (identifier : Nat) (key : BitVec 512)
  /-- GENKEY (R458) -/
  | genkey (session : Nat) (identifier : Nat)
  /-- DROPKEY (R458) -/
  | dropkey (session : Nat) (identifier : Nat)
  /-- HOST_VISIBILITY (R172) -/
  | hostVisibility (index : Nat)
deriving DecidableEq, Repr

/-- Who moves next: a core whose issue selector runs one cycle, or an event. -/
inductive Turn
  | issue (core : Nat)
  | event (e : Instr)
deriving DecidableEq, Repr, Inhabited

end Sys2Proof
end

