-- ==== Sys2Proof/WellFormed.lean ====
section
/-!
DEFINITION. Which terms of `Instr` are instructions of the machine: the limits of R183 to R192 and of each
instruction's description that the types of its fields do not say. A term that breaks one is an encoding that R194
makes illegal; `Instr.check` names the first limit it breaks.
-/

namespace Sys2Proof

/-- Why a word sequence is not an instruction (R194); `truncated` is a word sequence that ends too early. -/
inductive Illegal
  | truncated
  | opcode
  | lengthClass
  | field
  | register
  | format
  | function
  | kind
  | condition
  | rounding
  | mask
  | index
  | order
  | scope
  | part
  | argumentRun
  | specialRegister
  | noEncoding
deriving DecidableEq, Repr, Inhabited

/-- Format code (R83). -/
def Fmt.num : Fmt → Nat
  | .f32 => 0 | .bf16 => 1 | .f16 => 2 | .e4m3 => 3 | .e5m2 => 4 | .e2m1 => 5 | .lns6 => 6 | .s8 => 7 | .s16 => 8
  | .s32 => 9 | .n8 => 10 | .s4 => 11 | .mo => 12

/-- Element width in bits (R83, R256). -/
def Fmt.width : Fmt → Nat
  | .f32 | .s32 => 32
  | .bf16 | .f16 | .s16 => 16
  | .e4m3 | .e5m2 | .lns6 | .s8 | .n8 => 8
  | .e2m1 | .s4 => 4
  | .mo => 64

/-- FP32, BF16 or FP16: codes 0 to 2. -/
def Fmt.isFloat (f : Fmt) : Bool := f == .f32 || f == .bf16 || f == .f16
/-- Any float code: 0 to 5. -/
def Fmt.isFloatAny (f : Fmt) : Bool := f.isFloat || f == .e4m3 || f == .e5m2 || f == .e2m1
/-- Integer codes: 7 to 11. -/
def Fmt.isInt (f : Fmt) : Bool := f == .s8 || f == .s16 || f == .s32 || f == .n8 || f == .s4
/-- Codes 0 to 2 and 7 to 11. -/
def Fmt.isArith (f : Fmt) : Bool := f.isFloat || f.isInt
/-- Code 0. -/
def Fmt.isF32 (f : Fmt) : Bool := f == .f32
/-- Codes 0 to 11. -/
def Fmt.isElem (f : Fmt) : Bool := f != .mo
/-- Codes 7, 8, 9 and 11. -/
def Fmt.isSigned (f : Fmt) : Bool := f.isInt && f != .n8
/-- Codes 1 to 5, 7, 10 and 11. -/
def Fmt.isDot (f : Fmt) : Bool :=
  (f.isFloatAny && f != .f32) || f == .s8 || f == .n8 || f == .s4
/-- Codes 0 and 9. -/
def Fmt.isWord (f : Fmt) : Bool := f == .f32 || f == .s32
/-- Codes 0 to 4 and 6 to 10. -/
def Fmt.isPerm (f : Fmt) : Bool := f != .e2m1 && f != .s4 && f != .mo
/-- Codes 0, 1, 2 and 9. -/
def Fmt.isKeep (f : Fmt) : Bool := f.isFloat || f == .s32
/-- Code 12. -/
def Fmt.isMoment (f : Fmt) : Bool := f == .mo

/-- The formats of each kind of block scale (R267). -/
def PackKind.accepts : PackKind → Fmt → Bool
  | .mx, f => f == .e4m3 || f == .e5m2 || f == .e2m1
  | .sc, f => f == .e4m3 || f == .e2m1 || f == .lns6

/-- Kinds 0 to 3 (R192). -/
def Kind.isStore : Kind → Bool
  | .n8 | .n16 | .n32 | .n64 => true
  | .s8 | .s16 | .s32 => false

/-- Scopes with a barrier network: 0 to 5 (R7, R238). -/
def Scope.isNetwork : Scope → Bool
  | .lane | .core | .quad | .die | .pkg | .pod => true
  | .host | .sys => false
/-- Scopes of the collectives: 1 to 5 (R315). -/
def Scope.isSummit (s : Scope) : Bool := s.isNetwork && s != .lane

/-- Annotations a load accepts (R167). -/
def Order.onLoad (o : Order) : Bool := o == .plain || o == .acquire
/-- Annotations a store accepts (R167). -/
def Order.onStore (o : Order) : Bool := o != .acquire

/-- The special-register numbers of R74. -/
def knownSpecial (r : Reg) : Bool :=
  r.val < 3 || (8 ≤ r.val && r.val < 0x13) || (0x18 ≤ r.val && r.val < 0x1D) || (0x20 ≤ r.val && r.val < 0x23)

/-- The parts `vcvt` accepts (R266). -/
def cvtPart (src dst : Fmt) (p : Fin 16) : Bool :=
  if src.width ≤ dst.width then p.val < dst.width / src.width else p.val < src.width / dst.width

def Index.isA : Index → Bool
  | .opA _ => true | .none | .opB _ | .opC _ => false
def Index.isB : Index → Bool
  | .opB _ => true | .none | .opA _ | .opC _ => false
def Index.isC : Index → Bool
  | .opC _ => true | .none | .opA _ | .opB _ => false

/-- One limit: nothing when it holds, its name when it does not. -/
def need (ok : Bool) (e : Illegal) : Option Illegal := if ok then none else some e

/-- The first limit broken in a list of limits. -/
def firstOf : List (Option Illegal) → Option Illegal
  | [] => none
  | some e :: _ => some e
  | none :: rest => firstOf rest

/-- The limits of the extended fields of a lane instruction (R187 to R191, R255, R258): whether the format is accepted,
whether it rounds, whether it takes a mask, and which of A, B and C name a vector or moment register. -/
def VecX.check (x : VecX) (fmtOk rounds masked a b c : Bool) : Option Illegal :=
  firstOf [need fmtOk .format, need (rounds || x.rnd == some .rne) .rounding, need (masked || x.mask == .all) .mask,
    need (match x.index with
          | .none => true | .opA _ => a | .opB _ => b | .opC _ => c) .index]

/-- The limits of `vsplat` outside class 0b00. -/
def SplatX.check : SplatX → Option Illegal
  | .ext _ _ x => x.check x.fmt.isElem false true true false false
  | .lit _ f => need f.isElem .format
  | .long _ x => x.check x.fmt.isElem false true true false false

/-- The first limit that a term breaks, by name. Events have no encoding and no limit here. -/
def Instr.check : Instr → Option Illegal
  | .add _ _ _ => none
  | .addWide _ _ _ => none
  | .sub _ _ _ => none
  | .subWide _ _ _ => none
  | .mul _ _ _ => none
  | .mulWide _ _ _ => none
  | .mulh _ _ _ => none
  | .mulhWide _ _ _ => none
  | .mulhn _ _ _ => none
  | .mulhnWide _ _ _ => none
  | .div _ _ _ => none
  | .divWide _ _ _ => none
  | .divn _ _ _ => none
  | .divnWide _ _ _ => none
  | .rem _ _ _ => none
  | .remWide _ _ _ => none
  | .remn _ _ _ => none
  | .remnWide _ _ _ => none
  | .and _ _ _ => none
  | .andWide _ _ _ => none
  | .or _ _ _ => none
  | .orWide _ _ _ => none
  | .xor _ _ _ => none
  | .xorWide _ _ _ => none
  | .shl _ _ _ => none
  | .shlWide _ _ _ => none
  | .shr _ _ _ => none
  | .shrWide _ _ _ => none
  | .sra _ _ _ => none
  | .sraWide _ _ _ => none
  | .rotl _ _ _ => none
  | .rotlWide _ _ _ => none
  | .slt _ _ _ => none
  | .sltWide _ _ _ => none
  | .sltn _ _ _ => none
  | .sltnWide _ _ _ => none
  | .seq _ _ _ => none
  | .seqWide _ _ _ => none
  | .sne _ _ _ => none
  | .sneWide _ _ _ => none
  | .min _ _ _ => none
  | .minWide _ _ _ => none
  | .max _ _ _ => none
  | .maxWide _ _ _ => none
  | .minn _ _ _ => none
  | .minnWide _ _ _ => none
  | .maxn _ _ _ => none
  | .maxnWide _ _ _ => none
  | .clz _ _ => none
  | .clzExt _ _ _ => none
  | .ctz _ _ => none
  | .ctzExt _ _ _ => none
  | .popc _ _ => none
  | .popcExt _ _ _ => none
  | .bswap _ _ => none
  | .bswapExt _ _ _ => none
  | .qadd _ _ _ => none
  | .qaddWide _ _ _ => none
  | .qsub _ _ _ => none
  | .qsubWide _ _ _ => none
  | .qmul _ _ _ => none
  | .qmulWide _ _ _ => none
  | .qshl _ _ _ => none
  | .qshlWide _ _ _ => none
  | .qshr _ _ _ => none
  | .qshrWide _ _ _ => none
  | .kmov _ _ => none
  | .kmovExt _ _ => none
  | .kstep _ _ _ => none
  | .kstepExt _ _ _ _ => none
  | .kplace _ _ _ => none
  | .kplaceExt _ _ _ _ => none
  | .kfit _ _ _ => none
  | .kfitExt _ _ _ _ => none
  | .kcut _ _ _ => none
  | .kcutExt _ _ _ _ => none
  | .kmask _ _ _ => none
  | .kmaskExt _ _ _ _ => none
  | .klock _ _ => none
  | .klockExt _ _ => none
  | .kopen _ _ _ => none
  | .kopenExt _ _ _ => none
  | .kcur _ _ => none
  | .kbase _ _ => none
  | .ktop _ _ => none
  | .klen _ _ => none
  | .kperm _ _ => none
  | .ktag _ _ => none
  | .kinside _ _ _ => none
  | .kplain _ _ => none
  | .j _ => none
  | .jExt _ => none
  | .jal a _ => need (a.val != 0) .register
  | .jalExt a _ => need (a.val != 0) .register
  | .jr _ => none
  | .jalr a _ => need (a.val != 0) .register
  | .ret _ => none
  | .beq _ _ _ => none
  | .beqExt _ _ _ => none
  | .bne _ _ _ => none
  | .bneExt _ _ _ => none
  | .blt _ _ _ => none
  | .bltExt _ _ _ => none
  | .bge _ _ _ => none
  | .bgeExt _ _ _ => none
  | .bltn _ _ _ => none
  | .bltnExt _ _ _ => none
  | .bgen _ _ _ => none
  | .bgenExt _ _ _ => none
  | .bm m _ _ => need (m.val < 16) .register
  | .kenter _ _ => none
  | .ctxSave _ _ _ _ _ => none
  | .ctxRest _ _ _ _ => none
  | .eret _ => none
  | .start _ _ c _ => need (c.val < 61) .argumentRun
  | .join _ _ => none
  | .halt _ => none
  | .spawn _ _ c _ _ => need (c.val < 61) .argumentRun
  | .yield => none
  | .bar sc => need (sc.isNetwork) .scope
  | .semSig sem => need (sem.val < 32) .register
  | .semWait sem => need (sem.val < 32) .register
  | .fwdPut _ _ => none
  | .fwdGet _ => none
  | .trap _ => none
  | .trapExt _ => none
  | .srd _ sr => need (knownSpecial sr) .specialRegister
  | .swr sr _ => need (knownSpecial sr) .specialRegister
  | .ifence => none
  | .hret _ => none
  | .vadd _ _ _ fmt => need (fmt.isArith) .format
  | .vaddExt _ _ _ sat x => firstOf [x.check (x.fmt.isArith) x.fmt.isFloatAny true true true true, need (!sat || x.fmt.isInt) .function]
  | .vsub _ _ _ fmt => need (fmt.isArith) .format
  | .vsubExt _ _ _ sat x => firstOf [x.check (x.fmt.isArith) x.fmt.isFloatAny true true true true, need (!sat || x.fmt.isInt) .function]
  | .vmul _ _ _ fmt => need (fmt.isArith) .format
  | .vmulExt _ _ _ sat x => firstOf [x.check (x.fmt.isArith) x.fmt.isFloatAny true true true true, need (!sat || x.fmt.isInt) .function]
  | .vfma _ _ _ fmt => need (fmt.isFloat) .format
  | .vfmaExt _ _ _ x => x.check (x.fmt.isFloat) true true true true true
  | .vmin _ _ _ fmt => need (fmt.isArith) .format
  | .vminExt _ _ _ x => x.check (x.fmt.isArith) false true true true true
  | .vmax _ _ _ fmt => need (fmt.isArith) .format
  | .vmaxExt _ _ _ x => x.check (x.fmt.isArith) false true true true true
  | .vabs _ _ fmt => need (fmt.isArith) .format
  | .vabsExt _ _ sat x => firstOf [x.check (x.fmt.isArith) false true true true false, need (!sat || x.fmt.isInt) .function]
  | .vneg _ _ fmt => need (fmt.isArith) .format
  | .vnegExt _ _ sat x => firstOf [x.check (x.fmt.isArith) false true true true false, need (!sat || x.fmt.isInt) .function]
  | .vdiv _ _ _ fmt => need (fmt.isFloat) .format
  | .vdivExt _ _ _ x => x.check (x.fmt.isFloat) true true true true true
  | .vsqrt _ _ fmt => need (fmt.isFloat) .format
  | .vsqrtExt _ _ x => x.check (x.fmt.isFloat) true true true true false
  | .vrsqrt _ _ fmt => need (fmt.isFloat) .format
  | .vrsqrtExt _ _ x => x.check (x.fmt.isFloat) true true true true false
  | .vexp _ _ fmt => need (fmt.isFloat) .format
  | .vexpExt _ _ x => x.check (x.fmt.isFloat) true true true true false
  | .vlog _ _ fmt => need (fmt.isFloat) .format
  | .vlogExt _ _ x => x.check (x.fmt.isFloat) true true true true false
  | .vsig _ _ fmt => need (fmt.isFloat) .format
  | .vsigExt _ _ x => x.check (x.fmt.isFloat) true true true true false
  | .vtanh _ _ fmt => need (fmt.isFloat) .format
  | .vtanhExt _ _ x => x.check (x.fmt.isFloat) true true true true false
  | .vaddc _ _ => none
  | .vaddcExt _ _ x => x.check (x.fmt.isF32) false true true true false
  | .vand _ _ _ fmt => need (fmt.isElem) .format
  | .vandExt _ _ _ x => x.check (x.fmt.isElem) false true true true true
  | .vor _ _ _ fmt => need (fmt.isElem) .format
  | .vorExt _ _ _ x => x.check (x.fmt.isElem) false true true true true
  | .vxor _ _ _ fmt => need (fmt.isElem) .format
  | .vxorExt _ _ _ x => x.check (x.fmt.isElem) false true true true true
  | .vshl _ _ _ fmt => need (fmt.isInt) .format
  | .vshlExt _ _ _ x => x.check (x.fmt.isInt) false true true true true
  | .vshr _ _ _ fmt => need (fmt.isInt) .format
  | .vshrExt _ _ _ x => x.check (x.fmt.isInt) false true true true true
  | .vsra _ _ _ fmt => need (fmt.isSigned) .format
  | .vsraExt _ _ _ x => x.check (x.fmt.isSigned) false true true true true
  | .vsel _ _ _ fmt => need (fmt.isElem) .format
  | .vselExt _ _ _ x => x.check (x.fmt.isElem) false true true true true
  | .vmov _ _ fmt => need (fmt.isElem) .format
  | .vmovExt _ _ x => x.check (x.fmt.isElem) false true true true false
  | .vdot _ _ _ fmt => need (fmt.isDot) .format
  | .vdotExt _ _ _ x => x.check (x.fmt.isDot) x.fmt.isFloatAny true true true true
  | .vcvt _ _ part src x => firstOf [x.check (x.fmt.isElem) true true true true false, need (src.isElem) .format, need (cvtPart src x.fmt part) .part]
  | .vpack _ _ _ kind part x => firstOf [x.check (kind.accepts x.fmt) true false true true false, need (part.val < 32 / x.fmt.width) .part]
  | .vunpk _ _ _ kind part x => firstOf [x.check (kind.accepts x.fmt) true true true true false, need (part.val < 32 / x.fmt.width) .part]
  | .vcmp a _ _ cond x => firstOf [x.check (x.fmt.isWord) false true false true true, need (a.val < 16) .register, need (x.fmt == .f32 || (cond != .uno && cond != .ord)) .function]
  | .mskl a b c op => firstOf [need (a.val < 16 && b.val < 16 && c.val < 16) .register, need (op != .not || c.val == 0) .register]
  | .mskp _ b _ => need (b.val < 16) .register
  | .msks a _ => need (a.val < 16) .register
  | .msksExt a _ _ => need (a.val < 16) .register
  | .vred _ _ op x => x.check (x.fmt.isArith) (op == .sum && x.fmt.isFloat) true false true false
  | .vscan _ _ _ _ op x => x.check (x.fmt.isWord) (op != .imax && x.fmt == .f32) true true true false
  | .vbcast _ _ _ fmt => need (fmt.isElem) .format
  | .vbcastExt _ _ _ _ x => x.check (x.fmt.isElem) false true true true false
  | .vperm _ _ _ fmt => need (fmt.isPerm) .format
  | .vpermExt _ _ _ x => x.check (x.fmt.isPerm) false true true true true
  | .vsort _ _ fmt => need (fmt.isWord) .format
  | .vsortExt _ _ _ x => x.check (x.fmt.isWord) false false true true false
  | .vmerge _ _ _ fmt => need (fmt.isWord) .format
  | .vmergeExt _ _ _ _ _ x => x.check (x.fmt.isWord) false false true true true
  | .vidx _ _ fmt => need (fmt.isInt) .format
  | .vidxExt _ _ _ x => x.check (x.fmt.isInt) false true true false false
  | .vsplat _ _ fmt => need (fmt.isElem) .format
  | .vsplatWide _ w => w.check
  | .vrand _ fmt => need (fmt.isWord) .format
  | .vrandExt _ x => x.check (x.fmt.isWord) false true true false false
  | .vkeep _ _ _ fmt => need (fmt.isKeep) .format
  | .vkeepExt _ _ _ x => x.check (x.fmt.isKeep) false true true true false
  | .vphx _ _ _ fmt => need (fmt.isWord) .format
  | .vphxExt _ _ _ _ _ x => x.check (x.fmt.isWord) false true true false false
  | .vrope _ _ _ => none
  | .vropeExt _ _ _ _ _ x => x.check (x.fmt.isF32) true true true true false
  | .vins _ _ _ fmt => need (fmt.isElem) .format
  | .vinsExt _ _ _ _ x => x.check (x.fmt.isElem) false true true false false
  | .vext _ _ _ fmt => need (fmt.isElem) .format
  | .vextExt _ _ _ _ x => x.check (x.fmt.isElem) false false false true false
  | .madd a b c => firstOf [need (a.val < 16) .register, need (b.val < 16) .register, need (c.val < 16) .register]
  | .maddExt a b c _ x => firstOf [x.check (x.fmt.isMoment) false true true true true, need (x.index.isA || a.val < 16) .register, need (x.index.isB || b.val < 16) .register, need (x.index.isC || c.val < 16) .register]
  | .msub a b c => firstOf [need (a.val < 16) .register, need (b.val < 16) .register, need (c.val < 16) .register]
  | .msubExt a b c _ x => firstOf [x.check (x.fmt.isMoment) false true true true true, need (x.index.isA || a.val < 16) .register, need (x.index.isB || b.val < 16) .register, need (x.index.isC || c.val < 16) .register]
  | .mmul a b c => firstOf [need (a.val < 16) .register, need (b.val < 16) .register, need (c.val < 16) .register]
  | .mmulExt a b c x => firstOf [x.check (x.fmt.isMoment) false true true true true, need (x.index.isA || a.val < 16) .register, need (x.index.isB || b.val < 16) .register, need (x.index.isC || c.val < 16) .register]
  | .mscl a b _ => firstOf [need (a.val < 16) .register, need (b.val < 16) .register]
  | .msclExt a b _ x => firstOf [x.check (x.fmt.isMoment) false true true true false, need (x.index.isA || a.val < 16) .register, need (x.index.isB || b.val < 16) .register]
  | .mexp a b => firstOf [need (a.val < 16) .register, need (b.val < 16) .register]
  | .mexpExt a b x => firstOf [x.check (x.fmt.isMoment) false true true true false, need (x.index.isA || a.val < 16) .register, need (x.index.isB || b.val < 16) .register]
  | .mrelu a b => firstOf [need (a.val < 16) .register, need (b.val < 16) .register]
  | .mreluExt a b x => firstOf [x.check (x.fmt.isMoment) false true true true false, need (x.index.isA || a.val < 16) .register, need (x.index.isB || b.val < 16) .register]
  | .msig a b => firstOf [need (a.val < 16) .register, need (b.val < 16) .register]
  | .msigExt a b x => firstOf [x.check (x.fmt.isMoment) false true true true false, need (x.index.isA || a.val < 16) .register, need (x.index.isB || b.val < 16) .register]
  | .mcoll _ b c form half x => firstOf [x.check (x.fmt.isFloat) true true true true false, need (x.index.isB || b.val < 16) .register, need (form == .ksig || c.val == 0) .field, need (!half || x.fmt != .f32) .function]
  | .mfrom a _ _ => need (a.val < 16) .register
  | .mfromExt a _ _ x => firstOf [x.check (x.fmt.isF32) false true true true true, need (x.index.isA || a.val < 16) .register]
  | .mmov a b => firstOf [need (a.val < 16) .register, need (b.val < 16) .register]
  | .mmovExt a b x => firstOf [x.check (x.fmt.isMoment) false true true true false, need (x.index.isA || a.val < 16) .register, need (x.index.isB || b.val < 16) .register]
  | .ld _ _ _ _ => none
  | .ldExt _ _ _ x => need (x.order.onLoad) .order
  | .st _ _ kind _ => need (kind.isStore) .kind
  | .stExt _ _ kind x => firstOf [need (kind.isStore) .kind, need (x.order.onStore) .order]
  | .cld _ _ _ => none
  | .cldExt _ _ x => need (x.order.onLoad) .order
  | .cst _ _ _ => none
  | .cstExt _ _ x => need (x.order.onStore) .order
  | .vld _ _ _ => none
  | .vldExt _ _ _ x => need (x.order.onLoad) .order
  | .vst _ _ _ => none
  | .vstExt _ _ _ x => need (x.order.onStore) .order
  | .vgath _ _ _ x => need (x.order.onLoad) .order
  | .vscat _ _ _ x => need (x.order.onStore) .order
  | .eld a _ _ => need (a.val < 16) .register
  | .eldExt a _ _ x => firstOf [need (x.order.onLoad) .order, need (a.val < 16) .register]
  | .est a _ _ => need (a.val < 16) .register
  | .estExt a _ _ x => firstOf [need (x.order.onStore) .order, need (a.val < 16) .register]
  | .amo _ _ _ _ _ _ => none
  | .cas _ _ _ _ _ => none
  | .ccas _ _ _ _ => none
  | .fence sc => need (sc != .lane) .scope
  | .stashMap w _ _ _ => need (w.val < 16) .register
  | .stashUnmap w => need (w.val < 16) .register
  | .stashUnmapExt => none
  | .stashWb w => need (w.val < 16) .register
  | .stashWbExt => none
  | .stashAp _ _ _ => none
  | .copy _ _ _ _ _ => none
  | .copyWait ch => need (ch.val < 4) .register
  | .copyWaitExt _ ch _ _ => need (ch.val < 4) .register
  | .valloc a _ _ _ => need (a.val != 0) .register
  | .vdup a b => firstOf [need (a.val != 0) .register, need (a != b) .register]
  | .vdupExt a b => firstOf [need (a.val != 0) .register, need (a != b) .register]
  | .vsplit a b _ => firstOf [need (a.val != 0) .register, need (a != b) .register]
  | .vsplitExt a b _ _ => firstOf [need (a.val != 0) .register, need (a != b) .register]
  | .vnarrow a _ _ => need (a.val != 0) .register
  | .vnarrowExt a _ _ _ => need (a.val != 0) .register
  | .vdrop _ => none
  | .vdropExt _ => none
  | .vpark k _ => need (k.val < 16) .register
  | .vparkExt k _ => need (k.val < 16) .register
  | .vtake _ k => need (k.val < 16) .register
  | .vtakeExt _ k => need (k.val < 16) .register
  | .pmLook _ _ => none
  | .pmFill _ _ _ => none
  | .kvApp _ _ _ _ _ _ => none
  | .cairnLook _ _ _ _ => none
  | .cairnIns _ _ _ _ => none
  | .cairnRel _ _ _ => none
  | .admRsv _ _ _ _ => none
  | .admEnd _ _ => none
  | .msgSend _ _ c _ ord => firstOf [need (c.val < 61) .argumentRun, need (ord != .acquire) .order]
  | .mig _ _ => none
  | .migRet _ => none
  | .mxLdw _ _ _ => none
  | .mxSwap => none
  | .mxSwapExt _ ch waits => need (waits || ch.val == 0) .function
  | .mxStr a _ _ _ _ mo _ => firstOf [need (a.val < 8) .register, need (!mo || a.val % 2 == 0) .register]
  | .mxGstr a _ _ _ _ _ _ => need (a.val < 8) .register
  | .accRd a b _ mo => firstOf [need (b.val < 8) .register, need (!mo || (b.val % 2 == 0 && a.val < 16)) .register]
  | .accWr a b _ mo => firstOf [need (a.val < 8) .register, need (!mo || (a.val % 2 == 0 && b.val < 16)) .register]
  | .accClr a => need (a.val < 8) .register
  | .accClrExt a mask => firstOf [need (a.val < 8) .register, need (mask.val != 0) .function]
  | .epLoad _ _ => none
  | .epRun a _ _ _ _ mo _ => firstOf [need (a.val < 8) .register, need (!mo || a.val % 2 == 0) .register]
  | .epWait _ => none
  | .smpPen _ _ _ _ _ => none
  | .smpTemp _ _ _ => none
  | .smpGum _ _ _ _ => none
  | .smpTop _ _ _ sc => need (sc.isSummit) .scope
  | .smpTopp _ _ _ _ _ sc => need (sc.isSummit) .scope
  | .smpStep _ _ _ => none
  | .smpDraft _ _ _ => none
  | .smpVer _ _ _ => none
  | .sumRed _ _ op fmt sc => firstOf [need (sc.isSummit) .scope, need (fmt.isWord) .format, need (op != .or || fmt == .s32) .function]
  | .sumBc _ _ sc => need (sc.isSummit) .scope
  | .tokMap _ _ _ => none
  | .tokBind _ _ _ => none
  | .fetchServe _ => none
  | .operationComplete _ _ => none
  | .barrierComplete _ _ _ _ => none
  | .fwdHoldComplete _ _ => none
  | .launchAdmit _ _ _ => none
  | .teamComplete _ => none
  | .grantRound _ => none
  | .weightRestore _ _ _ => none
  | .sliceBoundary _ _ => none
  | .contextPreempt _ _ => none
  | .spawnArrival _ => none
  | .trapNoticeRun _ => none
  | .completionNotice _ _ => none
  | .messageRun _ => none
  | .copyDelivery _ _ => none
  | .moraineFree _ _ => none
  | .scrub _ => none
  | .coveredAllocation _ _ => none
  | .epilogueRow _ => none
  | .doorbell _ _ _ => none
  | .intakeEntry _ => none
  | .stampRetry _ => none
  | .intakeSlotAssign _ => none
  | .placementExchange _ _ => none
  | .nop _ _ => none
  | .launch _ _ => none
  | .wait _ _ => none
  | .waitSatisfied _ _ => none
  | .signal _ _ => none
  | .queueFence _ _ => none
  | .bind _ _ => none
  | .swap _ _ => none
  | .unbind _ _ => none
  | .bias _ _ => none
  | .sample _ _ => none
  | .domcfg _ _ => none
  | .qcfgWrite _ _ => none
  | .registerWrite _ _ _ => none
  | .eventWrite _ => none
  | .eventReply _ _ => none
  | .intakeWindowWrite _ _ _ => none
  | .segmentWindowAccess _ _ _ _ => none
  | .hostMemAccess _ _ _ => none
  | .shootdownTranslation _ _ _ => none
  | .shootdownRights _ _ => none
  | .shootdownComplete => none
  | .pageMove _ => none
  | .pageIn _ => none
  | .keyCreate _ => none
  | .keyDestroy _ => none
  | .keyQuery _ => none
  | .packageReset _ => none
  | .firmwareUpdate _ _ _ => none
  | .firmwareDieUpdate _ => none
  | .preset _ => none
  | .launchTimeLimit _ => none
  | .functionLevelReset _ => none
  | .meridianInterval _ _ => none
  | .hbmPatrol _ _ => none
  | .linkCrcError _ => none
  | .getVersion => none
  | .getCapabilities => none
  | .negotiateAlgorithms _ => none
  | .getDigests => none
  | .getCertificate _ _ _ => none
  | .challenge _ _ => none
  | .getMeasurements _ => none
  | .keyExchange _ => none
  | .finish _ => none
  | .heartbeat _ => none
  | .keyUpdate _ => none
  | .endSession _ => none
  | .setCertificate _ _ _ => none
  | .setkey _ _ _ => none
  | .genkey _ _ => none
  | .dropkey _ _ => none
  | .hostVisibility _ => none

/-- A term that breaks no limit. -/
def Instr.wf (i : Instr) : Bool := i.check.isNone

/-- The terms that stand for an event and have no word. -/
def Instr.isEvent : Instr → Bool
  | .fetchServe _ => true
  | .operationComplete _ _ => true
  | .barrierComplete _ _ _ _ => true
  | .fwdHoldComplete _ _ => true
  | .launchAdmit _ _ _ => true
  | .teamComplete _ => true
  | .grantRound _ => true
  | .weightRestore _ _ _ => true
  | .sliceBoundary _ _ => true
  | .contextPreempt _ _ => true
  | .spawnArrival _ => true
  | .trapNoticeRun _ => true
  | .completionNotice _ _ => true
  | .messageRun _ => true
  | .copyDelivery _ _ => true
  | .moraineFree _ _ => true
  | .scrub _ => true
  | .coveredAllocation _ _ => true
  | .epilogueRow _ => true
  | .doorbell _ _ _ => true
  | .intakeEntry _ => true
  | .stampRetry _ => true
  | .intakeSlotAssign _ => true
  | .placementExchange _ _ => true
  | .nop _ _ => true
  | .launch _ _ => true
  | .wait _ _ => true
  | .waitSatisfied _ _ => true
  | .signal _ _ => true
  | .queueFence _ _ => true
  | .bind _ _ => true
  | .swap _ _ => true
  | .unbind _ _ => true
  | .bias _ _ => true
  | .sample _ _ => true
  | .domcfg _ _ => true
  | .qcfgWrite _ _ => true
  | .registerWrite _ _ _ => true
  | .eventWrite _ => true
  | .eventReply _ _ => true
  | .intakeWindowWrite _ _ _ => true
  | .segmentWindowAccess _ _ _ _ => true
  | .hostMemAccess _ _ _ => true
  | .shootdownTranslation _ _ _ => true
  | .shootdownRights _ _ => true
  | .shootdownComplete => true
  | .pageMove _ => true
  | .pageIn _ => true
  | .keyCreate _ => true
  | .keyDestroy _ => true
  | .keyQuery _ => true
  | .packageReset _ => true
  | .firmwareUpdate _ _ _ => true
  | .firmwareDieUpdate _ => true
  | .preset _ => true
  | .launchTimeLimit _ => true
  | .functionLevelReset _ => true
  | .meridianInterval _ _ => true
  | .hbmPatrol _ _ => true
  | .linkCrcError _ => true
  | .getVersion => true
  | .getCapabilities => true
  | .negotiateAlgorithms _ => true
  | .getDigests => true
  | .getCertificate _ _ _ => true
  | .challenge _ _ => true
  | .getMeasurements _ => true
  | .keyExchange _ => true
  | .finish _ => true
  | .heartbeat _ => true
  | .keyUpdate _ => true
  | .endSession _ => true
  | .setCertificate _ _ _ => true
  | .setkey _ _ _ => true
  | .genkey _ _ => true
  | .dropkey _ _ => true
  | .hostVisibility _ => true
  | _ => false

end Sys2Proof
end

