-- ==== Sys2Proof/Decode.lean ====
section
/-!
DEFINITION. Instruction words: the fields of R178 to R182, the decoder from bytes to an instruction or the name of why
there is none (R183 to R200), and after it the encoder. Both are written from the tables of 06_encoding.md and the
field lists of the instruction descriptions. The decoder is marked noncomputable only because Lean's compiler takes no
constructor past the 245th; the kernel evaluates it.
-/

namespace Sys2Proof

/-- The fields of an instruction of any length class (R178 to R181); a field its class does not carry is 0 (R182). -/
structure Raw where
  l : Fin 4
  op : Fin 256
  a : Fin 64 := 0
  b : Fin 64 := 0
  c : Fin 64 := 0
  f : Fin 16 := 0
  sc : Fin 8 := 0
  mn : Fin 2 := 0
  ms : Fin 16 := 0
  imm : BitVec 24 := 0
  ix : Fin 4 := 0
  xfn : Fin 512 := 0
  ord : Fin 4 := 0
  rnd : Fin 8 := 0
  fmt : Fin 16 := 0
  e : Fin 64 := 0
  d : Fin 64 := 0
  lit : BitVec 64 := 0
deriving DecidableEq, Repr, Inhabited

/-- Every field of the list is 0; otherwise the encoding is illegal (R183, R194). -/
def zeros : List Nat → Except Illegal Unit
  | [] => .ok ()
  | 0 :: rest => zeros rest
  | _ :: _ => .error .field

/-! ### Codes of the enumerated fields -/

def Fmt.code (f : Fmt) : Fin 16 := Fin.ofNat 16 f.num
def Fmt.ofNum : Nat → Except Illegal Fmt
  | 0 => .ok .f32 | 1 => .ok .bf16 | 2 => .ok .f16 | 3 => .ok .e4m3 | 4 => .ok .e5m2 | 5 => .ok .e2m1
  | 6 => .ok .lns6 | 7 => .ok .s8 | 8 => .ok .s16 | 9 => .ok .s32 | 10 => .ok .n8 | 11 => .ok .s4
  | 12 => .ok .mo | _ => .error .format
def Fmt.ofCode (c : Fin 16) : Except Illegal Fmt := Fmt.ofNum c.val
def Fmt.xfnCode (f : Fmt) : Fin 512 := Fin.ofNat 512 f.num
def Fmt.ofXfn (x : Fin 512) : Except Illegal Fmt := Fmt.ofNum x.val

/-- RND: 0 to 6 name a mode, 7 takes it from `%round` (R181, R191). -/
def rndCode : Option Rm → Fin 8
  | some .rne => 0 | some .rtz => 1 | some .rup => 2 | some .rdn => 3 | some .rna => 4 | some .sto => 5
  | some .odd => 6 | none => 7
def rndOf (r : Fin 8) : Option Rm :=
  match r.val with
  | 0 => some .rne | 1 => some .rtz | 2 => some .rup | 3 => some .rdn | 4 => some .rna | 5 => some .sto
  | 6 => some .odd | _ => none

def Scope.code : Scope → Fin 8
  | .lane => 0 | .core => 1 | .quad => 2 | .die => 3 | .pkg => 4 | .pod => 5 | .host => 6 | .sys => 7
def Scope.ofCode (s : Fin 8) : Scope :=
  match s.val with
  | 0 => .lane | 1 => .core | 2 => .quad | 3 => .die | 4 => .pkg | 5 => .pod | 6 => .host | _ => .sys

def Order.code : Order → Fin 4
  | .plain => 0 | .acquire => 1 | .release => 2 | .full => 3
def Order.ofCode (o : Fin 4) : Order :=
  match o.val with
  | 0 => .plain | 1 => .acquire | 2 => .release | _ => .full

def Pin.num : Pin → Nat
  | .none => 0 | .mx => 1 | .ep => 2 | .ch0 => 4 | .ch1 => 5 | .ch2 => 6 | .ch3 => 7
def Pin.code (p : Pin) : Fin 512 := Fin.ofNat 512 p.num
def Pin.ofNum : Nat → Option Pin
  | 0 => some .none | 1 => some .mx | 2 => some .ep | 4 => some .ch0 | 5 => some .ch1 | 6 => some .ch2
  | 7 => some .ch3 | _ => Option.none
def Pin.ofCode (x : Fin 512) : Except Illegal Pin :=
  match Pin.ofNum x.val with
  | some p => .ok p
  | Option.none => .error .function

def BitWidth.code : BitWidth → Fin 512
  | .w64 => 0 | .w32 => 1 | .w16 => 2
def BitWidth.ofCode (x : Fin 512) : Except Illegal BitWidth :=
  match x.val with
  | 0 => .ok .w64 | 1 => .ok .w32 | 2 => .ok .w16 | _ => .error .function

def Kind.num : Kind → Nat
  | .n8 => 0 | .n16 => 1 | .n32 => 2 | .n64 => 3 | .s8 => 4 | .s16 => 5 | .s32 => 6
def Kind.ofNum : Nat → Except Illegal Kind
  | 0 => .ok .n8 | 1 => .ok .n16 | 2 => .ok .n32 | 3 => .ok .n64 | 4 => .ok .s8 | 5 => .ok .s16 | 6 => .ok .s32
  | _ => .error .kind
def Kind.codeC (k : Kind) : Fin 64 := Fin.ofNat 64 k.num
def Kind.codeF (k : Kind) : Fin 16 := Fin.ofNat 16 k.num
def Kind.ofC (c : Fin 64) : Except Illegal Kind := Kind.ofNum c.val
def Kind.ofF (f : Fin 16) : Except Illegal Kind := Kind.ofNum f.val

def MaskCond.code : MaskCond → Fin 16
  | .any => 0 | .all => 1 | .none => 2
def MaskCond.ofCode (x : Fin 16) : Except Illegal MaskCond :=
  match x.val with
  | 0 => .ok .any | 1 => .ok .all | 2 => .ok .none | _ => .error .condition

def PackKind.code : PackKind → Fin 512
  | .mx => 1 | .sc => 2
def PackKind.ofCode (x : Fin 512) : Except Illegal PackKind :=
  match x.val with
  | 1 => .ok .mx | 2 => .ok .sc | _ => .error .function

def CmpCond.code : CmpCond → Fin 16
  | .eq => 0 | .ne => 1 | .lt => 2 | .le => 3 | .gt => 4 | .ge => 5 | .uno => 6 | .ord => 7
def CmpCond.ofCode (x : Fin 16) : Except Illegal CmpCond :=
  match x.val with
  | 0 => .ok .eq | 1 => .ok .ne | 2 => .ok .lt | 3 => .ok .le | 4 => .ok .gt | 5 => .ok .ge | 6 => .ok .uno | 7 => .ok .ord | _ => .error .condition

def MaskOp.code : MaskOp → Fin 16
  | .and => 0 | .or => 1 | .xor => 2 | .andn => 3 | .not => 4
def MaskOp.ofCode (x : Fin 16) : Except Illegal MaskOp :=
  match x.val with
  | 0 => .ok .and | 1 => .ok .or | 2 => .ok .xor | 3 => .ok .andn | 4 => .ok .not | _ => .error .function

def MaskProbe.code : MaskProbe → Fin 16
  | .popc => 0 | .first => 1 | .last => 2
def MaskProbe.ofCode (x : Fin 16) : Except Illegal MaskProbe :=
  match x.val with
  | 0 => .ok .popc | 1 => .ok .first | 2 => .ok .last | _ => .error .function

def MaskSet.code : MaskSet → Fin 16
  | .set => 0 | .or => 1 | .and => 2 | .andn => 3
def MaskSet.ofCode (x : Fin 16) : Except Illegal MaskSet :=
  match x.val with
  | 0 => .ok .set | 1 => .ok .or | 2 => .ok .and | 3 => .ok .andn | _ => .error .function

def RedOp.code : RedOp → Fin 16
  | .sum => 0 | .max => 1 | .min => 2 | .argmax => 3 | .argmin => 4
def RedOp.ofCode (x : Fin 16) : Except Illegal RedOp :=
  match x.val with
  | 0 => .ok .sum | 1 => .ok .max | 2 => .ok .min | 3 => .ok .argmax | 4 => .ok .argmin | _ => .error .function

def ScanOp.code : ScanOp → Fin 16
  | .isum => 0 | .xsum => 1 | .imax => 2
def ScanOp.ofCode (x : Fin 16) : Except Illegal ScanOp :=
  match x.val with
  | 0 => .ok .isum | 1 => .ok .xsum | 2 => .ok .imax | _ => .error .function

def CollForm.code : CollForm → Fin 16
  | .mean => 0 | .var => 1 | .std => 2 | .ksig => 3 | .samp => 4
def CollForm.ofCode (x : Fin 16) : Except Illegal CollForm :=
  match x.val with
  | 0 => .ok .mean | 1 => .ok .var | 2 => .ok .std | 3 => .ok .ksig | 4 => .ok .samp | _ => .error .function

def SumOp.code : SumOp → Fin 16
  | .sum => 0 | .max => 1 | .min => 2 | .argmax => 3 | .or => 4
def SumOp.ofCode (x : Fin 16) : Except Illegal SumOp :=
  match x.val with
  | 0 => .ok .sum | 1 => .ok .max | 2 => .ok .min | 3 => .ok .argmax | 4 => .ok .or | _ => .error .function


/-! ### Fields that hold one bit or a packed group -/

def bitF (x : Bool) : Fin 16 := if x then 1 else 0
def boolOfF (f : Fin 16) : Except Illegal Bool :=
  match f.val with
  | 0 => .ok false | 1 => .ok true | _ => .error .function
def bitXfn (x : Bool) : Fin 512 := if x then 1 else 0
def boolOfXfn (x : Fin 512) : Except Illegal Bool :=
  match x.val with
  | 0 => .ok false | 1 => .ok true | _ => .error .function
/-- F[1] is MO (R315). -/
def moF (mo : Bool) : Fin 16 := if mo then 2 else 0
def moOfF (f : Fin 16) : Except Illegal Bool :=
  match f.val with
  | 0 => .ok false | 2 => .ok true | _ => .error .function
/-- F[0] is Z and F[1] is MO (R315). -/
def zmoF (z mo : Bool) : Fin 16 := Fin.ofNat 16 ((if z then 1 else 0) + (if mo then 2 else 0))
def moBit (f : Fin 16) : Bool := f.val / 2 % 2 == 1
def zOfF (f : Fin 16) : Except Illegal Bool := if f.val < 4 then .ok (f.val % 2 == 1) else .error .function
def word4 (w : Fin 4) : Fin 16 := Fin.ofNat 16 w.val
def word4Of (f : Fin 16) : Except Illegal (Fin 4) := if f.val < 4 then .ok (Fin.ofNat 4 f.val) else .error .function
/-- XFN[1:0] a channel and XFN[2] a flag (R295, R315). -/
def chXfn (ch : Fin 4) (flag : Bool) : Fin 512 := Fin.ofNat 512 (ch.val + (if flag then 4 else 0))
def chOfXfn (x : Fin 512) : Except Illegal (Fin 4) :=
  if x.val < 8 then .ok (Fin.ofNat 4 x.val) else .error .function
def flagOfXfn (x : Fin 512) : Bool := x.val / 4 % 2 == 1
/-- XFN[2:0] is the row block (R315). -/
def blkXfn (k : Fin 8) : Fin 512 := Fin.ofNat 512 k.val
def blkOfXfn (x : Fin 512) : Except Illegal (Fin 8) :=
  if x.val < 8 then .ok (Fin.ofNat 8 x.val) else .error .function
def maskXfn (m : Fin 256) : Fin 512 := Fin.ofNat 512 m.val
def maskOfXfn (x : Fin 512) : Except Illegal (Fin 256) :=
  if x.val < 256 then .ok (Fin.ofNat 256 x.val) else .error .function

def AmoOp.num : AmoOp → Nat
  | .swap => 0 | .add => 1 | .and => 2 | .or => 3 | .xor => 4 | .min => 5 | .max => 6 | .minn => 7 | .maxn => 8
/-- XFN[3:0] is the operation and XFN[4] the width (R289). -/
def amoXfn (op : AmoOp) (narrow : Bool) : Fin 512 := Fin.ofNat 512 (op.num + (if narrow then 16 else 0))
def AmoOp.ofXfn (x : Fin 512) : Except Illegal AmoOp :=
  if 32 ≤ x.val then .error .function else
  match x.val % 16 with
  | 0 => .ok .swap | 1 => .ok .add | 2 => .ok .and | 3 => .ok .or | 4 => .ok .xor | 5 => .ok .min | 6 => .ok .max
  | 7 => .ok .minn | 8 => .ok .maxn | _ => .error .function
def narrowOf (x : Fin 512) : Bool := x.val / 16 % 2 == 1
def casXfn (narrow : Bool) : Fin 512 := if narrow then 16 else 0
def casNarrow (x : Fin 512) : Except Illegal Bool :=
  match x.val with
  | 0 => .ok false | 16 => .ok true | _ => .error .function

/-- IMM24[9:0] and IMM24[19:10] of `stash.map` (R293). -/
def stashImm (off len : Fin 1024) : BitVec 24 := BitVec.ofNat 24 (off.val + 1024 * len.val)
def stashOff (i : BitVec 24) : Except Illegal (Fin 1024) :=
  if i.toNat < 1048576 then .ok (Fin.ofNat 1024 i.toNat) else .error .field
def stashLen (i : BitVec 24) : Fin 1024 := Fin.ofNat 1024 (i.toNat / 1024)
/-- One descriptor in IMM24[7:0], the other bytes 0 (R184). -/
def descImm (n : Fin 256) : BitVec 24 := BitVec.ofNat 24 n.val
def descOf (i : BitVec 24) : Except Illegal (Fin 256) :=
  if i.toNat < 256 then .ok (Fin.ofNat 256 i.toNat) else .error .field
/-- Three descriptors in the bytes of IMM24 (R184). -/
def desc3Imm (n m p : Fin 256) : BitVec 24 := BitVec.ofNat 24 (n.val + 256 * m.val + 65536 * p.val)
def desc3N (i : BitVec 24) : Fin 256 := Fin.ofNat 256 i.toNat
def desc3M (i : BitVec 24) : Fin 256 := Fin.ofNat 256 (i.toNat / 256)
def desc3P (i : BitVec 24) : Fin 256 := Fin.ofNat 256 (i.toNat / 65536)
def mapImm (k : Fin 16) : BitVec 24 := BitVec.ofNat 24 k.val
def mapOf (i : BitVec 24) : Except Illegal (Fin 16) :=
  if i.toNat < 16 then .ok (Fin.ofNat 16 i.toNat) else .error .field

/-- The class 0b00 offset of the JMP pattern: B, C and F from the top (R193). -/
def jmpB (o : BitVec 16) : Fin 64 := Fin.ofNat 64 (o.toNat / 1024)
def jmpC (o : BitVec 16) : Fin 64 := Fin.ofNat 64 (o.toNat / 16)
def jmpF (o : BitVec 16) : Fin 16 := Fin.ofNat 16 o.toNat
def jmpOff (b c : Fin 64) (f : Fin 16) : BitVec 16 := BitVec.ofNat 16 (b.val * 1024 + c.val * 16 + f.val)
/-- The class 0b00 offset of the BR pattern: C and F (R193). -/
def brC (o : BitVec 10) : Fin 64 := Fin.ofNat 64 (o.toNat / 16)
def brF (o : BitVec 10) : Fin 16 := Fin.ofNat 16 o.toNat
def brOff (c : Fin 64) (f : Fin 16) : BitVec 10 := BitVec.ofNat 10 (c.val * 16 + f.val)

/-! ### Masks, indexing and the memory fields -/

def MaskSel.negCode (m : MaskSel) : Fin 2 := if m.neg then 1 else 0
def MaskSel.ofRaw (r : Raw) : MaskSel := ⟨r.mn.val == 1, r.ms⟩
def Index.ix : Index → Fin 4
  | .none => 0 | .opA _ => 1 | .opB _ => 2 | .opC _ => 3
def Index.disp : Index → Fin 64
  | .none => 0 | .opA k => k | .opB k => k | .opC k => k
/-- IX and E (R188); without indexing E must be 0 (R255). -/
def Index.ofRaw (r : Raw) : Except Illegal Index :=
  match r.ix.val with
  | 0 => if r.e.val = 0 then .ok .none else .error .field
  | 1 => .ok (.opA r.e) | 2 => .ok (.opB r.e) | _ => .ok (.opC r.e)
def VecX.ofRaw (r : Raw) : Except Illegal VecX := do
  let fmt ← Fmt.ofCode r.fmt
  let index ← Index.ofRaw r
  pure ⟨fmt, rndOf r.rnd, MaskSel.ofRaw r, index⟩
def MemX.ofRaw (r : Raw) : MemX := ⟨r.c, r.imm, Scope.ofCode r.sc, Order.ofCode r.ord⟩

/-! ### The opcode map (R196 to R200), one definition for each row of sixteen opcodes -/

def opcodes0 (r : Raw) : Except Illegal Instr :=
  match r.op.val % 16 with
  | 1 =>
    match r.l.val with
    | 0 => do
      zeros [r.f.val]
      pure (.add r.a r.b r.c)
    | 1 => do
      zeros [r.c.val, r.f.val]
      pure (.addWide r.a r.b (.lit r.lit))
    | 2 => do
      zeros [r.f.val, r.sc.val, r.mn.val, r.ms.val, r.ix.val, r.xfn.val, r.ord.val, r.rnd.val, r.fmt.val, r.e.val, r.d.val]
      pure (.addWide r.a r.b (.ext r.c r.imm))
    | _ => do
      zeros [r.c.val, r.f.val, r.imm.toNat, r.sc.val, r.mn.val, r.ms.val, r.ix.val, r.xfn.val, r.ord.val, r.rnd.val, r.fmt.val, r.e.val, r.d.val]
      pure (.addWide r.a r.b (.long r.lit))
  | 2 =>
    match r.l.val with
    | 0 => do
      zeros [r.f.val]
      pure (.sub r.a r.b r.c)
    | 1 => do
      zeros [r.c.val, r.f.val]
      pure (.subWide r.a r.b (.lit r.lit))
    | 2 => do
      zeros [r.f.val, r.sc.val, r.mn.val, r.ms.val, r.ix.val, r.xfn.val, r.ord.val, r.rnd.val, r.fmt.val, r.e.val, r.d.val]
      pure (.subWide r.a r.b (.ext r.c r.imm))
    | _ => do
      zeros [r.c.val, r.f.val, r.imm.toNat, r.sc.val, r.mn.val, r.ms.val, r.ix.val, r.xfn.val, r.ord.val, r.rnd.val, r.fmt.val, r.e.val, r.d.val]
      pure (.subWide r.a r.b (.long r.lit))
  | 3 =>
    match r.l.val with
    | 0 => do
      zeros [r.f.val]
      pure (.mul r.a r.b r.c)
    | 1 => do
      zeros [r.c.val, r.f.val]
      pure (.mulWide r.a r.b (.lit r.lit))
    | 2 => do
      zeros [r.f.val, r.sc.val, r.mn.val, r.ms.val, r.ix.val, r.xfn.val, r.ord.val, r.rnd.val, r.fmt.val, r.e.val, r.d.val]
      pure (.mulWide r.a r.b (.ext r.c r.imm))
    | _ => do
      zeros [r.c.val, r.f.val, r.imm.toNat, r.sc.val, r.mn.val, r.ms.val, r.ix.val, r.xfn.val, r.ord.val, r.rnd.val, r.fmt.val, r.e.val, r.d.val]
      pure (.mulWide r.a r.b (.long r.lit))
  | 4 =>
    match r.l.val with
    | 0 => do
      zeros [r.f.val]
      pure (.mulh r.a r.b r.c)
    | 1 => do
      zeros [r.c.val, r.f.val]
      pure (.mulhWide r.a r.b (.lit r.lit))
    | 2 => do
      zeros [r.f.val, r.sc.val, r.mn.val, r.ms.val, r.ix.val, r.xfn.val, r.ord.val, r.rnd.val, r.fmt.val, r.e.val, r.d.val]
      pure (.mulhWide r.a r.b (.ext r.c r.imm))
    | _ => do
      zeros [r.c.val, r.f.val, r.imm.toNat, r.sc.val, r.mn.val, r.ms.val, r.ix.val, r.xfn.val, r.ord.val, r.rnd.val, r.fmt.val, r.e.val, r.d.val]
      pure (.mulhWide r.a r.b (.long r.lit))
  | 5 =>
    match r.l.val with
    | 0 => do
      zeros [r.f.val]
      pure (.mulhn r.a r.b r.c)
    | 1 => do
      zeros [r.c.val, r.f.val]
      pure (.mulhnWide r.a r.b (.lit r.lit))
    | 2 => do
      zeros [r.f.val, r.sc.val, r.mn.val, r.ms.val, r.ix.val, r.xfn.val, r.ord.val, r.rnd.val, r.fmt.val, r.e.val, r.d.val]
      pure (.mulhnWide r.a r.b (.ext r.c r.imm))
    | _ => do
      zeros [r.c.val, r.f.val, r.imm.toNat, r.sc.val, r.mn.val, r.ms.val, r.ix.val, r.xfn.val, r.ord.val, r.rnd.val, r.fmt.val, r.e.val, r.d.val]
      pure (.mulhnWide r.a r.b (.long r.lit))
  | 6 =>
    match r.l.val with
    | 0 => do
      zeros [r.f.val]
      pure (.div r.a r.b r.c)
    | 1 => do
      zeros [r.c.val, r.f.val]
      pure (.divWide r.a r.b (.lit r.lit))
    | 2 => do
      zeros [r.f.val, r.sc.val, r.mn.val, r.ms.val, r.ix.val, r.xfn.val, r.ord.val, r.rnd.val, r.fmt.val, r.e.val, r.d.val]
      pure (.divWide r.a r.b (.ext r.c r.imm))
    | _ => do
      zeros [r.c.val, r.f.val, r.imm.toNat, r.sc.val, r.mn.val, r.ms.val, r.ix.val, r.xfn.val, r.ord.val, r.rnd.val, r.fmt.val, r.e.val, r.d.val]
      pure (.divWide r.a r.b (.long r.lit))
  | 7 =>
    match r.l.val with
    | 0 => do
      zeros [r.f.val]
      pure (.divn r.a r.b r.c)
    | 1 => do
      zeros [r.c.val, r.f.val]
      pure (.divnWide r.a r.b (.lit r.lit))
    | 2 => do
      zeros [r.f.val, r.sc.val, r.mn.val, r.ms.val, r.ix.val, r.xfn.val, r.ord.val, r.rnd.val, r.fmt.val, r.e.val, r.d.val]
      pure (.divnWide r.a r.b (.ext r.c r.imm))
    | _ => do
      zeros [r.c.val, r.f.val, r.imm.toNat, r.sc.val, r.mn.val, r.ms.val, r.ix.val, r.xfn.val, r.ord.val, r.rnd.val, r.fmt.val, r.e.val, r.d.val]
      pure (.divnWide r.a r.b (.long r.lit))
  | 8 =>
    match r.l.val with
    | 0 => do
      zeros [r.f.val]
      pure (.rem r.a r.b r.c)
    | 1 => do
      zeros [r.c.val, r.f.val]
      pure (.remWide r.a r.b (.lit r.lit))
    | 2 => do
      zeros [r.f.val, r.sc.val, r.mn.val, r.ms.val, r.ix.val, r.xfn.val, r.ord.val, r.rnd.val, r.fmt.val, r.e.val, r.d.val]
      pure (.remWide r.a r.b (.ext r.c r.imm))
    | _ => do
      zeros [r.c.val, r.f.val, r.imm.toNat, r.sc.val, r.mn.val, r.ms.val, r.ix.val, r.xfn.val, r.ord.val, r.rnd.val, r.fmt.val, r.e.val, r.d.val]
      pure (.remWide r.a r.b (.long r.lit))
  | 9 =>
    match r.l.val with
    | 0 => do
      zeros [r.f.val]
      pure (.remn r.a r.b r.c)
    | 1 => do
      zeros [r.c.val, r.f.val]
      pure (.remnWide r.a r.b (.lit r.lit))
    | 2 => do
      zeros [r.f.val, r.sc.val, r.mn.val, r.ms.val, r.ix.val, r.xfn.val, r.ord.val, r.rnd.val, r.fmt.val, r.e.val, r.d.val]
      pure (.remnWide r.a r.b (.ext r.c r.imm))
    | _ => do
      zeros [r.c.val, r.f.val, r.imm.toNat, r.sc.val, r.mn.val, r.ms.val, r.ix.val, r.xfn.val, r.ord.val, r.rnd.val, r.fmt.val, r.e.val, r.d.val]
      pure (.remnWide r.a r.b (.long r.lit))
  | 10 =>
    match r.l.val with
    | 0 => do
      zeros [r.f.val]
      pure (.and r.a r.b r.c)
    | 1 => do
      zeros [r.c.val, r.f.val]
      pure (.andWide r.a r.b (.lit r.lit))
    | 2 => do
      zeros [r.f.val, r.sc.val, r.mn.val, r.ms.val, r.ix.val, r.xfn.val, r.ord.val, r.rnd.val, r.fmt.val, r.e.val, r.d.val]
      pure (.andWide r.a r.b (.ext r.c r.imm))
    | _ => do
      zeros [r.c.val, r.f.val, r.imm.toNat, r.sc.val, r.mn.val, r.ms.val, r.ix.val, r.xfn.val, r.ord.val, r.rnd.val, r.fmt.val, r.e.val, r.d.val]
      pure (.andWide r.a r.b (.long r.lit))
  | 11 =>
    match r.l.val with
    | 0 => do
      zeros [r.f.val]
      pure (.or r.a r.b r.c)
    | 1 => do
      zeros [r.c.val, r.f.val]
      pure (.orWide r.a r.b (.lit r.lit))
    | 2 => do
      zeros [r.f.val, r.sc.val, r.mn.val, r.ms.val, r.ix.val, r.xfn.val, r.ord.val, r.rnd.val, r.fmt.val, r.e.val, r.d.val]
      pure (.orWide r.a r.b (.ext r.c r.imm))
    | _ => do
      zeros [r.c.val, r.f.val, r.imm.toNat, r.sc.val, r.mn.val, r.ms.val, r.ix.val, r.xfn.val, r.ord.val, r.rnd.val, r.fmt.val, r.e.val, r.d.val]
      pure (.orWide r.a r.b (.long r.lit))
  | 12 =>
    match r.l.val with
    | 0 => do
      zeros [r.f.val]
      pure (.xor r.a r.b r.c)
    | 1 => do
      zeros [r.c.val, r.f.val]
      pure (.xorWide r.a r.b (.lit r.lit))
    | 2 => do
      zeros [r.f.val, r.sc.val, r.mn.val, r.ms.val, r.ix.val, r.xfn.val, r.ord.val, r.rnd.val, r.fmt.val, r.e.val, r.d.val]
      pure (.xorWide r.a r.b (.ext r.c r.imm))
    | _ => do
      zeros [r.c.val, r.f.val, r.imm.toNat, r.sc.val, r.mn.val, r.ms.val, r.ix.val, r.xfn.val, r.ord.val, r.rnd.val, r.fmt.val, r.e.val, r.d.val]
      pure (.xorWide r.a r.b (.long r.lit))
  | 13 =>
    match r.l.val with
    | 0 => do
      zeros [r.f.val]
      pure (.shl r.a r.b r.c)
    | 1 => do
      zeros [r.c.val, r.f.val]
      pure (.shlWide r.a r.b (.lit r.lit))
    | 2 => do
      zeros [r.f.val, r.sc.val, r.mn.val, r.ms.val, r.ix.val, r.xfn.val, r.ord.val, r.rnd.val, r.fmt.val, r.e.val, r.d.val]
      pure (.shlWide r.a r.b (.ext r.c r.imm))
    | _ => do
      zeros [r.c.val, r.f.val, r.imm.toNat, r.sc.val, r.mn.val, r.ms.val, r.ix.val, r.xfn.val, r.ord.val, r.rnd.val, r.fmt.val, r.e.val, r.d.val]
      pure (.shlWide r.a r.b (.long r.lit))
  | 14 =>
    match r.l.val with
    | 0 => do
      zeros [r.f.val]
      pure (.shr r.a r.b r.c)
    | 1 => do
      zeros [r.c.val, r.f.val]
      pure (.shrWide r.a r.b (.lit r.lit))
    | 2 => do
      zeros [r.f.val, r.sc.val, r.mn.val, r.ms.val, r.ix.val, r.xfn.val, r.ord.val, r.rnd.val, r.fmt.val, r.e.val, r.d.val]
      pure (.shrWide r.a r.b (.ext r.c r.imm))
    | _ => do
      zeros [r.c.val, r.f.val, r.imm.toNat, r.sc.val, r.mn.val, r.ms.val, r.ix.val, r.xfn.val, r.ord.val, r.rnd.val, r.fmt.val, r.e.val, r.d.val]
      pure (.shrWide r.a r.b (.long r.lit))
  | 15 =>
    match r.l.val with
    | 0 => do
      zeros [r.f.val]
      pure (.sra r.a r.b r.c)
    | 1 => do
      zeros [r.c.val, r.f.val]
      pure (.sraWide r.a r.b (.lit r.lit))
    | 2 => do
      zeros [r.f.val, r.sc.val, r.mn.val, r.ms.val, r.ix.val, r.xfn.val, r.ord.val, r.rnd.val, r.fmt.val, r.e.val, r.d.val]
      pure (.sraWide r.a r.b (.ext r.c r.imm))
    | _ => do
      zeros [r.c.val, r.f.val, r.imm.toNat, r.sc.val, r.mn.val, r.ms.val, r.ix.val, r.xfn.val, r.ord.val, r.rnd.val, r.fmt.val, r.e.val, r.d.val]
      pure (.sraWide r.a r.b (.long r.lit))
  | _ => .error .opcode

def opcodes1 (r : Raw) : Except Illegal Instr :=
  match r.op.val % 16 with
  | 0 =>
    match r.l.val with
    | 0 => do
      zeros [r.f.val]
      pure (.rotl r.a r.b r.c)
    | 1 => do
      zeros [r.c.val, r.f.val]
      pure (.rotlWide r.a r.b (.lit r.lit))
    | 2 => do
      zeros [r.f.val, r.sc.val, r.mn.val, r.ms.val, r.ix.val, r.xfn.val, r.ord.val, r.rnd.val, r.fmt.val, r.e.val, r.d.val]
      pure (.rotlWide r.a r.b (.ext r.c r.imm))
    | _ => do
      zeros [r.c.val, r.f.val, r.imm.toNat, r.sc.val, r.mn.val, r.ms.val, r.ix.val, r.xfn.val, r.ord.val, r.rnd.val, r.fmt.val, r.e.val, r.d.val]
      pure (.rotlWide r.a r.b (.long r.lit))
  | 1 =>
    match r.l.val with
    | 0 => do
      zeros [r.f.val]
      pure (.slt r.a r.b r.c)
    | 1 => do
      zeros [r.c.val, r.f.val]
      pure (.sltWide r.a r.b (.lit r.lit))
    | 2 => do
      zeros [r.f.val, r.sc.val, r.mn.val, r.ms.val, r.ix.val, r.xfn.val, r.ord.val, r.rnd.val, r.fmt.val, r.e.val, r.d.val]
      pure (.sltWide r.a r.b (.ext r.c r.imm))
    | _ => do
      zeros [r.c.val, r.f.val, r.imm.toNat, r.sc.val, r.mn.val, r.ms.val, r.ix.val, r.xfn.val, r.ord.val, r.rnd.val, r.fmt.val, r.e.val, r.d.val]
      pure (.sltWide r.a r.b (.long r.lit))
  | 2 =>
    match r.l.val with
    | 0 => do
      zeros [r.f.val]
      pure (.sltn r.a r.b r.c)
    | 1 => do
      zeros [r.c.val, r.f.val]
      pure (.sltnWide r.a r.b (.lit r.lit))
    | 2 => do
      zeros [r.f.val, r.sc.val, r.mn.val, r.ms.val, r.ix.val, r.xfn.val, r.ord.val, r.rnd.val, r.fmt.val, r.e.val, r.d.val]
      pure (.sltnWide r.a r.b (.ext r.c r.imm))
    | _ => do
      zeros [r.c.val, r.f.val, r.imm.toNat, r.sc.val, r.mn.val, r.ms.val, r.ix.val, r.xfn.val, r.ord.val, r.rnd.val, r.fmt.val, r.e.val, r.d.val]
      pure (.sltnWide r.a r.b (.long r.lit))
  | 3 =>
    match r.l.val with
    | 0 => do
      zeros [r.f.val]
      pure (.seq r.a r.b r.c)
    | 1 => do
      zeros [r.c.val, r.f.val]
      pure (.seqWide r.a r.b (.lit r.lit))
    | 2 => do
      zeros [r.f.val, r.sc.val, r.mn.val, r.ms.val, r.ix.val, r.xfn.val, r.ord.val, r.rnd.val, r.fmt.val, r.e.val, r.d.val]
      pure (.seqWide r.a r.b (.ext r.c r.imm))
    | _ => do
      zeros [r.c.val, r.f.val, r.imm.toNat, r.sc.val, r.mn.val, r.ms.val, r.ix.val, r.xfn.val, r.ord.val, r.rnd.val, r.fmt.val, r.e.val, r.d.val]
      pure (.seqWide r.a r.b (.long r.lit))
  | 4 =>
    match r.l.val with
    | 0 => do
      zeros [r.f.val]
      pure (.sne r.a r.b r.c)
    | 1 => do
      zeros [r.c.val, r.f.val]
      pure (.sneWide r.a r.b (.lit r.lit))
    | 2 => do
      zeros [r.f.val, r.sc.val, r.mn.val, r.ms.val, r.ix.val, r.xfn.val, r.ord.val, r.rnd.val, r.fmt.val, r.e.val, r.d.val]
      pure (.sneWide r.a r.b (.ext r.c r.imm))
    | _ => do
      zeros [r.c.val, r.f.val, r.imm.toNat, r.sc.val, r.mn.val, r.ms.val, r.ix.val, r.xfn.val, r.ord.val, r.rnd.val, r.fmt.val, r.e.val, r.d.val]
      pure (.sneWide r.a r.b (.long r.lit))
  | 5 =>
    match r.l.val with
    | 0 => do
      zeros [r.f.val]
      pure (.min r.a r.b r.c)
    | 1 => do
      zeros [r.c.val, r.f.val]
      pure (.minWide r.a r.b (.lit r.lit))
    | 2 => do
      zeros [r.f.val, r.sc.val, r.mn.val, r.ms.val, r.ix.val, r.xfn.val, r.ord.val, r.rnd.val, r.fmt.val, r.e.val, r.d.val]
      pure (.minWide r.a r.b (.ext r.c r.imm))
    | _ => do
      zeros [r.c.val, r.f.val, r.imm.toNat, r.sc.val, r.mn.val, r.ms.val, r.ix.val, r.xfn.val, r.ord.val, r.rnd.val, r.fmt.val, r.e.val, r.d.val]
      pure (.minWide r.a r.b (.long r.lit))
  | 6 =>
    match r.l.val with
    | 0 => do
      zeros [r.f.val]
      pure (.max r.a r.b r.c)
    | 1 => do
      zeros [r.c.val, r.f.val]
      pure (.maxWide r.a r.b (.lit r.lit))
    | 2 => do
      zeros [r.f.val, r.sc.val, r.mn.val, r.ms.val, r.ix.val, r.xfn.val, r.ord.val, r.rnd.val, r.fmt.val, r.e.val, r.d.val]
      pure (.maxWide r.a r.b (.ext r.c r.imm))
    | _ => do
      zeros [r.c.val, r.f.val, r.imm.toNat, r.sc.val, r.mn.val, r.ms.val, r.ix.val, r.xfn.val, r.ord.val, r.rnd.val, r.fmt.val, r.e.val, r.d.val]
      pure (.maxWide r.a r.b (.long r.lit))
  | 7 =>
    match r.l.val with
    | 0 => do
      zeros [r.f.val]
      pure (.minn r.a r.b r.c)
    | 1 => do
      zeros [r.c.val, r.f.val]
      pure (.minnWide r.a r.b (.lit r.lit))
    | 2 => do
      zeros [r.f.val, r.sc.val, r.mn.val, r.ms.val, r.ix.val, r.xfn.val, r.ord.val, r.rnd.val, r.fmt.val, r.e.val, r.d.val]
      pure (.minnWide r.a r.b (.ext r.c r.imm))
    | _ => do
      zeros [r.c.val, r.f.val, r.imm.toNat, r.sc.val, r.mn.val, r.ms.val, r.ix.val, r.xfn.val, r.ord.val, r.rnd.val, r.fmt.val, r.e.val, r.d.val]
      pure (.minnWide r.a r.b (.long r.lit))
  | 8 =>
    match r.l.val with
    | 0 => do
      zeros [r.f.val]
      pure (.maxn r.a r.b r.c)
    | 1 => do
      zeros [r.c.val, r.f.val]
      pure (.maxnWide r.a r.b (.lit r.lit))
    | 2 => do
      zeros [r.f.val, r.sc.val, r.mn.val, r.ms.val, r.ix.val, r.xfn.val, r.ord.val, r.rnd.val, r.fmt.val, r.e.val, r.d.val]
      pure (.maxnWide r.a r.b (.ext r.c r.imm))
    | _ => do
      zeros [r.c.val, r.f.val, r.imm.toNat, r.sc.val, r.mn.val, r.ms.val, r.ix.val, r.xfn.val, r.ord.val, r.rnd.val, r.fmt.val, r.e.val, r.d.val]
      pure (.maxnWide r.a r.b (.long r.lit))
  | 9 =>
    match r.l.val with
    | 0 => do
      zeros [r.c.val, r.f.val]
      pure (.clz r.a r.b)
    | 2 => do
      zeros [r.c.val, r.f.val, r.sc.val, r.mn.val, r.ms.val, r.imm.toNat, r.ix.val, r.ord.val, r.rnd.val, r.fmt.val, r.e.val, r.d.val]
      let w ← BitWidth.ofCode r.xfn
      pure (.clzExt r.a r.b w)
    | _ => .error .lengthClass
  | 10 =>
    match r.l.val with
    | 0 => do
      zeros [r.c.val, r.f.val]
      pure (.ctz r.a r.b)
    | 2 => do
      zeros [r.c.val, r.f.val, r.sc.val, r.mn.val, r.ms.val, r.imm.toNat, r.ix.val, r.ord.val, r.rnd.val, r.fmt.val, r.e.val, r.d.val]
      let w ← BitWidth.ofCode r.xfn
      pure (.ctzExt r.a r.b w)
    | _ => .error .lengthClass
  | 11 =>
    match r.l.val with
    | 0 => do
      zeros [r.c.val, r.f.val]
      pure (.popc r.a r.b)
    | 2 => do
      zeros [r.c.val, r.f.val, r.sc.val, r.mn.val, r.ms.val, r.imm.toNat, r.ix.val, r.ord.val, r.rnd.val, r.fmt.val, r.e.val, r.d.val]
      let w ← BitWidth.ofCode r.xfn
      pure (.popcExt r.a r.b w)
    | _ => .error .lengthClass
  | 12 =>
    match r.l.val with
    | 0 => do
      zeros [r.c.val, r.f.val]
      pure (.bswap r.a r.b)
    | 2 => do
      zeros [r.c.val, r.f.val, r.sc.val, r.mn.val, r.ms.val, r.imm.toNat, r.ix.val, r.ord.val, r.rnd.val, r.fmt.val, r.e.val, r.d.val]
      let w ← BitWidth.ofCode r.xfn
      pure (.bswapExt r.a r.b w)
    | _ => .error .lengthClass
  | _ => .error .opcode

def opcodes2 (r : Raw) : Except Illegal Instr :=
  match r.op.val % 16 with
  | 0 =>
    match r.l.val with
    | 0 => do
      zeros [r.f.val]
      pure (.qadd r.a r.b r.c)
    | 1 => do
      zeros [r.c.val, r.f.val]
      pure (.qaddWide r.a r.b (.lit r.lit))
    | 2 => do
      zeros [r.f.val, r.sc.val, r.mn.val, r.ms.val, r.ix.val, r.xfn.val, r.ord.val, r.rnd.val, r.fmt.val, r.e.val, r.d.val]
      pure (.qaddWide r.a r.b (.ext r.c r.imm))
    | _ => do
      zeros [r.c.val, r.f.val, r.imm.toNat, r.sc.val, r.mn.val, r.ms.val, r.ix.val, r.xfn.val, r.ord.val, r.rnd.val, r.fmt.val, r.e.val, r.d.val]
      pure (.qaddWide r.a r.b (.long r.lit))
  | 1 =>
    match r.l.val with
    | 0 => do
      zeros [r.f.val]
      pure (.qsub r.a r.b r.c)
    | 1 => do
      zeros [r.c.val, r.f.val]
      pure (.qsubWide r.a r.b (.lit r.lit))
    | 2 => do
      zeros [r.f.val, r.sc.val, r.mn.val, r.ms.val, r.ix.val, r.xfn.val, r.ord.val, r.rnd.val, r.fmt.val, r.e.val, r.d.val]
      pure (.qsubWide r.a r.b (.ext r.c r.imm))
    | _ => do
      zeros [r.c.val, r.f.val, r.imm.toNat, r.sc.val, r.mn.val, r.ms.val, r.ix.val, r.xfn.val, r.ord.val, r.rnd.val, r.fmt.val, r.e.val, r.d.val]
      pure (.qsubWide r.a r.b (.long r.lit))
  | 2 =>
    match r.l.val with
    | 0 => do
      zeros [r.f.val]
      pure (.qmul r.a r.b r.c)
    | 1 => do
      zeros [r.c.val, r.f.val]
      pure (.qmulWide r.a r.b (.lit r.lit))
    | 2 => do
      zeros [r.f.val, r.sc.val, r.mn.val, r.ms.val, r.ix.val, r.xfn.val, r.ord.val, r.rnd.val, r.fmt.val, r.e.val, r.d.val]
      pure (.qmulWide r.a r.b (.ext r.c r.imm))
    | _ => do
      zeros [r.c.val, r.f.val, r.imm.toNat, r.sc.val, r.mn.val, r.ms.val, r.ix.val, r.xfn.val, r.ord.val, r.rnd.val, r.fmt.val, r.e.val, r.d.val]
      pure (.qmulWide r.a r.b (.long r.lit))
  | 3 =>
    match r.l.val with
    | 0 => do
      zeros [r.f.val]
      pure (.qshl r.a r.b r.c)
    | 1 => do
      zeros [r.c.val, r.f.val]
      pure (.qshlWide r.a r.b (.lit r.lit))
    | 2 => do
      zeros [r.f.val, r.sc.val, r.mn.val, r.ms.val, r.ix.val, r.xfn.val, r.ord.val, r.rnd.val, r.fmt.val, r.e.val, r.d.val]
      pure (.qshlWide r.a r.b (.ext r.c r.imm))
    | _ => do
      zeros [r.c.val, r.f.val, r.imm.toNat, r.sc.val, r.mn.val, r.ms.val, r.ix.val, r.xfn.val, r.ord.val, r.rnd.val, r.fmt.val, r.e.val, r.d.val]
      pure (.qshlWide r.a r.b (.long r.lit))
  | 4 =>
    match r.l.val with
    | 0 => do
      zeros [r.f.val]
      pure (.qshr r.a r.b r.c)
    | 1 => do
      zeros [r.c.val, r.f.val]
      pure (.qshrWide r.a r.b (.lit r.lit))
    | 2 => do
      zeros [r.f.val, r.sc.val, r.mn.val, r.ms.val, r.ix.val, r.xfn.val, r.ord.val, r.rnd.val, r.fmt.val, r.e.val, r.d.val]
      pure (.qshrWide r.a r.b (.ext r.c r.imm))
    | _ => do
      zeros [r.c.val, r.f.val, r.imm.toNat, r.sc.val, r.mn.val, r.ms.val, r.ix.val, r.xfn.val, r.ord.val, r.rnd.val, r.fmt.val, r.e.val, r.d.val]
      pure (.qshrWide r.a r.b (.long r.lit))
  | 8 =>
    match r.l.val with
    | 0 => do
      zeros [r.c.val, r.f.val]
      pure (.kmov r.a r.b)
    | 2 => do
      zeros [r.c.val, r.f.val, r.sc.val, r.mn.val, r.ms.val, r.imm.toNat, r.ix.val, r.xfn.val, r.ord.val, r.rnd.val, r.fmt.val, r.e.val, r.d.val]
      pure (.kmovExt r.a r.b)
    | _ => .error .lengthClass
  | 9 =>
    match r.l.val with
    | 0 => do
      zeros [r.f.val]
      pure (.kstep r.a r.b r.c)
    | 2 => do
      zeros [r.f.val, r.sc.val, r.mn.val, r.ms.val, r.ix.val, r.xfn.val, r.ord.val, r.rnd.val, r.fmt.val, r.e.val, r.d.val]
      pure (.kstepExt r.a r.b r.c r.imm)
    | _ => .error .lengthClass
  | 10 =>
    match r.l.val with
    | 0 => do
      zeros [r.f.val]
      pure (.kplace r.a r.b r.c)
    | 2 => do
      zeros [r.f.val, r.sc.val, r.mn.val, r.ms.val, r.ix.val, r.xfn.val, r.ord.val, r.rnd.val, r.fmt.val, r.e.val, r.d.val]
      pure (.kplaceExt r.a r.b r.c r.imm)
    | _ => .error .lengthClass
  | 11 =>
    match r.l.val with
    | 0 => do
      zeros [r.f.val]
      pure (.kfit r.a r.b r.c)
    | 2 => do
      zeros [r.f.val, r.sc.val, r.mn.val, r.ms.val, r.ix.val, r.xfn.val, r.ord.val, r.rnd.val, r.fmt.val, r.e.val, r.d.val]
      pure (.kfitExt r.a r.b r.c r.imm)
    | _ => .error .lengthClass
  | 12 =>
    match r.l.val with
    | 0 => do
      zeros [r.f.val]
      pure (.kcut r.a r.b r.c)
    | 2 => do
      zeros [r.f.val, r.sc.val, r.mn.val, r.ms.val, r.ix.val, r.xfn.val, r.ord.val, r.rnd.val, r.fmt.val, r.e.val, r.d.val]
      pure (.kcutExt r.a r.b r.c r.imm)
    | _ => .error .lengthClass
  | 13 =>
    match r.l.val with
    | 0 => do
      zeros [r.f.val]
      pure (.kmask r.a r.b r.c)
    | 2 => do
      zeros [r.f.val, r.sc.val, r.mn.val, r.ms.val, r.ix.val, r.xfn.val, r.ord.val, r.rnd.val, r.fmt.val, r.e.val, r.d.val]
      pure (.kmaskExt r.a r.b r.c r.imm)
    | _ => .error .lengthClass
  | 14 =>
    match r.l.val with
    | 0 => do
      zeros [r.c.val, r.f.val]
      pure (.klock r.a r.b)
    | 2 => do
      zeros [r.c.val, r.f.val, r.sc.val, r.mn.val, r.ms.val, r.imm.toNat, r.ix.val, r.xfn.val, r.ord.val, r.rnd.val, r.fmt.val, r.e.val, r.d.val]
      pure (.klockExt r.a r.b)
    | _ => .error .lengthClass
  | 15 =>
    match r.l.val with
    | 0 => do
      zeros [r.f.val]
      pure (.kopen r.a r.b r.c)
    | 2 => do
      zeros [r.f.val, r.sc.val, r.mn.val, r.ms.val, r.imm.toNat, r.ix.val, r.xfn.val, r.ord.val, r.rnd.val, r.fmt.val, r.e.val, r.d.val]
      pure (.kopenExt r.a r.b r.c)
    | _ => .error .lengthClass
  | _ => .error .opcode

def opcodes3 (r : Raw) : Except Illegal Instr :=
  match r.op.val % 16 with
  | 0 =>
    match r.l.val with
    | 0 => do
      zeros [r.c.val, r.f.val]
      pure (.kcur r.a r.b)
    | _ => .error .lengthClass
  | 1 =>
    match r.l.val with
    | 0 => do
      zeros [r.c.val, r.f.val]
      pure (.kbase r.a r.b)
    | _ => .error .lengthClass
  | 2 =>
    match r.l.val with
    | 0 => do
      zeros [r.c.val, r.f.val]
      pure (.ktop r.a r.b)
    | _ => .error .lengthClass
  | 3 =>
    match r.l.val with
    | 0 => do
      zeros [r.c.val, r.f.val]
      pure (.klen r.a r.b)
    | _ => .error .lengthClass
  | 4 =>
    match r.l.val with
    | 0 => do
      zeros [r.c.val, r.f.val]
      pure (.kperm r.a r.b)
    | _ => .error .lengthClass
  | 5 =>
    match r.l.val with
    | 0 => do
      zeros [r.c.val, r.f.val]
      pure (.ktag r.a r.b)
    | _ => .error .lengthClass
  | 6 =>
    match r.l.val with
    | 0 => do
      zeros [r.f.val]
      pure (.kinside r.a r.b r.c)
    | _ => .error .lengthClass
  | 7 =>
    match r.l.val with
    | 0 => do
      zeros [r.c.val, r.f.val]
      pure (.kplain r.a r.b)
    | _ => .error .lengthClass
  | _ => .error .opcode

def opcodes4 (r : Raw) : Except Illegal Instr :=
  match r.op.val % 16 with
  | 0 =>
    match r.l.val with
    | 0 => do
      zeros [r.a.val]
      pure (.j (jmpOff r.b r.c r.f))
    | 2 => do
      zeros [r.a.val, r.b.val, r.c.val, r.f.val, r.sc.val, r.mn.val, r.ms.val, r.ix.val, r.xfn.val, r.ord.val, r.rnd.val, r.fmt.val, r.e.val, r.d.val]
      pure (.jExt r.imm)
    | _ => .error .lengthClass
  | 1 =>
    match r.l.val with
    | 0 => pure (.jal r.a (jmpOff r.b r.c r.f))
    | 2 => do
      zeros [r.b.val, r.c.val, r.f.val, r.sc.val, r.mn.val, r.ms.val, r.ix.val, r.xfn.val, r.ord.val, r.rnd.val, r.fmt.val, r.e.val, r.d.val]
      pure (.jalExt r.a r.imm)
    | _ => .error .lengthClass
  | 2 =>
    match r.l.val with
    | 0 => do
      zeros [r.a.val, r.c.val, r.f.val]
      pure (.jr r.b)
    | _ => .error .lengthClass
  | 3 =>
    match r.l.val with
    | 0 => do
      zeros [r.c.val, r.f.val]
      pure (.jalr r.a r.b)
    | _ => .error .lengthClass
  | 4 =>
    match r.l.val with
    | 0 => do
      zeros [r.a.val, r.c.val, r.f.val]
      pure (.ret r.b)
    | _ => .error .lengthClass
  | 5 =>
    match r.l.val with
    | 0 => pure (.beq r.a r.b (brOff r.c r.f))
    | 2 => do
      zeros [r.c.val, r.f.val, r.sc.val, r.mn.val, r.ms.val, r.ix.val, r.xfn.val, r.ord.val, r.rnd.val, r.fmt.val, r.e.val, r.d.val]
      pure (.beqExt r.a r.b r.imm)
    | _ => .error .lengthClass
  | 6 =>
    match r.l.val with
    | 0 => pure (.bne r.a r.b (brOff r.c r.f))
    | 2 => do
      zeros [r.c.val, r.f.val, r.sc.val, r.mn.val, r.ms.val, r.ix.val, r.xfn.val, r.ord.val, r.rnd.val, r.fmt.val, r.e.val, r.d.val]
      pure (.bneExt r.a r.b r.imm)
    | _ => .error .lengthClass
  | 7 =>
    match r.l.val with
    | 0 => pure (.blt r.a r.b (brOff r.c r.f))
    | 2 => do
      zeros [r.c.val, r.f.val, r.sc.val, r.mn.val, r.ms.val, r.ix.val, r.xfn.val, r.ord.val, r.rnd.val, r.fmt.val, r.e.val, r.d.val]
      pure (.bltExt r.a r.b r.imm)
    | _ => .error .lengthClass
  | 8 =>
    match r.l.val with
    | 0 => pure (.bge r.a r.b (brOff r.c r.f))
    | 2 => do
      zeros [r.c.val, r.f.val, r.sc.val, r.mn.val, r.ms.val, r.ix.val, r.xfn.val, r.ord.val, r.rnd.val, r.fmt.val, r.e.val, r.d.val]
      pure (.bgeExt r.a r.b r.imm)
    | _ => .error .lengthClass
  | 9 =>
    match r.l.val with
    | 0 => pure (.bltn r.a r.b (brOff r.c r.f))
    | 2 => do
      zeros [r.c.val, r.f.val, r.sc.val, r.mn.val, r.ms.val, r.ix.val, r.xfn.val, r.ord.val, r.rnd.val, r.fmt.val, r.e.val, r.d.val]
      pure (.bltnExt r.a r.b r.imm)
    | _ => .error .lengthClass
  | 10 =>
    match r.l.val with
    | 0 => pure (.bgen r.a r.b (brOff r.c r.f))
    | 2 => do
      zeros [r.c.val, r.f.val, r.sc.val, r.mn.val, r.ms.val, r.ix.val, r.xfn.val, r.ord.val, r.rnd.val, r.fmt.val, r.e.val, r.d.val]
      pure (.bgenExt r.a r.b r.imm)
    | _ => .error .lengthClass
  | 11 =>
    match r.l.val with
    | 2 => do
      zeros [r.b.val, r.c.val, r.sc.val, r.mn.val, r.ms.val, r.ix.val, r.xfn.val, r.ord.val, r.rnd.val, r.fmt.val, r.e.val, r.d.val]
      let cond ← MaskCond.ofCode r.f
      pure (.bm r.a cond r.imm)
    | _ => .error .lengthClass
  | 12 =>
    match r.l.val with
    | 0 => do
      zeros [r.c.val, r.f.val]
      pure (.kenter r.a r.b)
    | _ => .error .lengthClass
  | 13 =>
    match r.l.val with
    | 2 => do
      zeros [r.f.val, r.sc.val, r.mn.val, r.ms.val, r.imm.toNat, r.ix.val, r.ord.val, r.rnd.val, r.fmt.val, r.e.val]
      let evict ← boolOfXfn r.xfn
      pure (.ctxSave r.d r.a r.b r.c evict)
    | _ => .error .lengthClass
  | 14 =>
    match r.l.val with
    | 2 => do
      zeros [r.f.val, r.sc.val, r.mn.val, r.ms.val, r.imm.toNat, r.ix.val, r.xfn.val, r.ord.val, r.rnd.val, r.fmt.val, r.e.val]
      pure (.ctxRest r.d r.a r.b r.c)
    | _ => .error .lengthClass
  | 15 =>
    match r.l.val with
    | 0 => do
      zeros [r.a.val, r.c.val, r.f.val]
      pure (.eret r.b)
    | _ => .error .lengthClass
  | _ => .error .opcode

def opcodes5 (r : Raw) : Except Illegal Instr :=
  match r.op.val % 16 with
  | 0 =>
    match r.l.val with
    | 2 => do
      zeros [r.f.val, r.sc.val, r.mn.val, r.ms.val, r.imm.toNat, r.ix.val, r.ord.val, r.rnd.val, r.fmt.val, r.e.val, r.d.val]
      let pin ← Pin.ofCode r.xfn
      pure (.start r.a r.b r.c pin)
    | _ => .error .lengthClass
  | 1 =>
    match r.l.val with
    | 0 => do
      zeros [r.c.val, r.f.val]
      pure (.join r.a r.b)
    | _ => .error .lengthClass
  | 2 =>
    match r.l.val with
    | 0 => do
      zeros [r.b.val, r.c.val, r.f.val]
      pure (.halt r.a)
    | _ => .error .lengthClass
  | 3 =>
    match r.l.val with
    | 2 => do
      zeros [r.f.val, r.sc.val, r.mn.val, r.ms.val, r.ix.val, r.xfn.val, r.ord.val, r.rnd.val, r.fmt.val, r.e.val]
      pure (.spawn r.a r.b r.c r.d r.imm)
    | _ => .error .lengthClass
  | 4 =>
    match r.l.val with
    | 0 => do
      zeros [r.a.val, r.b.val, r.c.val, r.f.val]
      pure .yield
    | _ => .error .lengthClass
  | 5 =>
    match r.l.val with
    | 2 => do
      zeros [r.a.val, r.b.val, r.c.val, r.f.val, r.mn.val, r.ms.val, r.imm.toNat, r.ix.val, r.xfn.val, r.ord.val, r.rnd.val, r.fmt.val, r.e.val, r.d.val]
      pure (.bar (Scope.ofCode r.sc))
    | _ => .error .lengthClass
  | 6 =>
    match r.l.val with
    | 0 => do
      zeros [r.b.val, r.c.val, r.f.val]
      pure (.semSig r.a)
    | _ => .error .lengthClass
  | 7 =>
    match r.l.val with
    | 0 => do
      zeros [r.b.val, r.c.val, r.f.val]
      pure (.semWait r.a)
    | _ => .error .lengthClass
  | 8 =>
    match r.l.val with
    | 0 => do
      zeros [r.b.val, r.c.val]
      let quad ← boolOfF r.f
      pure (.fwdPut r.a quad)
    | _ => .error .lengthClass
  | 9 =>
    match r.l.val with
    | 0 => do
      zeros [r.b.val, r.c.val, r.f.val]
      pure (.fwdGet r.a)
    | _ => .error .lengthClass
  | 10 =>
    match r.l.val with
    | 0 => do
      zeros [r.a.val, r.b.val, r.c.val]
      pure (.trap r.f)
    | 2 => do
      zeros [r.a.val, r.b.val, r.c.val, r.f.val, r.sc.val, r.mn.val, r.ms.val, r.ix.val, r.xfn.val, r.ord.val, r.rnd.val, r.fmt.val, r.e.val, r.d.val]
      pure (.trapExt r.imm)
    | _ => .error .lengthClass
  | 11 =>
    match r.l.val with
    | 0 => do
      zeros [r.c.val, r.f.val]
      pure (.srd r.a r.b)
    | _ => .error .lengthClass
  | 12 =>
    match r.l.val with
    | 0 => do
      zeros [r.c.val, r.f.val]
      pure (.swr r.a r.b)
    | _ => .error .lengthClass
  | 13 =>
    match r.l.val with
    | 0 => do
      zeros [r.a.val, r.b.val, r.c.val, r.f.val]
      pure .ifence
    | _ => .error .lengthClass
  | 14 =>
    match r.l.val with
    | 0 => do
      zeros [r.a.val, r.c.val, r.f.val]
      pure (.hret r.b)
    | _ => .error .lengthClass
  | _ => .error .opcode

def opcodes6 (r : Raw) : Except Illegal Instr :=
  match r.op.val % 16 with
  | 0 =>
    match r.l.val with
    | 0 => do
      let fmt ← Fmt.ofCode r.f
      pure (.vadd r.a r.b r.c fmt)
    | 2 => do
      zeros [r.sc.val, r.imm.toNat, r.xfn.val, r.ord.val, r.d.val]
      let sat ← boolOfF r.f
      let x ← VecX.ofRaw r
      pure (.vaddExt r.a r.b r.c sat x)
    | _ => .error .lengthClass
  | 1 =>
    match r.l.val with
    | 0 => do
      let fmt ← Fmt.ofCode r.f
      pure (.vsub r.a r.b r.c fmt)
    | 2 => do
      zeros [r.sc.val, r.imm.toNat, r.xfn.val, r.ord.val, r.d.val]
      let sat ← boolOfF r.f
      let x ← VecX.ofRaw r
      pure (.vsubExt r.a r.b r.c sat x)
    | _ => .error .lengthClass
  | 2 =>
    match r.l.val with
    | 0 => do
      let fmt ← Fmt.ofCode r.f
      pure (.vmul r.a r.b r.c fmt)
    | 2 => do
      zeros [r.sc.val, r.imm.toNat, r.xfn.val, r.ord.val, r.d.val]
      let sat ← boolOfF r.f
      let x ← VecX.ofRaw r
      pure (.vmulExt r.a r.b r.c sat x)
    | _ => .error .lengthClass
  | 3 =>
    match r.l.val with
    | 0 => do
      let fmt ← Fmt.ofCode r.f
      pure (.vfma r.a r.b r.c fmt)
    | 2 => do
      zeros [r.f.val, r.sc.val, r.imm.toNat, r.xfn.val, r.ord.val, r.d.val]
      let x ← VecX.ofRaw r
      pure (.vfmaExt r.a r.b r.c x)
    | _ => .error .lengthClass
  | 4 =>
    match r.l.val with
    | 0 => do
      let fmt ← Fmt.ofCode r.f
      pure (.vmin r.a r.b r.c fmt)
    | 2 => do
      zeros [r.f.val, r.sc.val, r.imm.toNat, r.xfn.val, r.ord.val, r.d.val]
      let x ← VecX.ofRaw r
      pure (.vminExt r.a r.b r.c x)
    | _ => .error .lengthClass
  | 5 =>
    match r.l.val with
    | 0 => do
      let fmt ← Fmt.ofCode r.f
      pure (.vmax r.a r.b r.c fmt)
    | 2 => do
      zeros [r.f.val, r.sc.val, r.imm.toNat, r.xfn.val, r.ord.val, r.d.val]
      let x ← VecX.ofRaw r
      pure (.vmaxExt r.a r.b r.c x)
    | _ => .error .lengthClass
  | 6 =>
    match r.l.val with
    | 0 => do
      zeros [r.c.val]
      let fmt ← Fmt.ofCode r.f
      pure (.vabs r.a r.b fmt)
    | 2 => do
      zeros [r.c.val, r.sc.val, r.imm.toNat, r.xfn.val, r.ord.val, r.d.val]
      let sat ← boolOfF r.f
      let x ← VecX.ofRaw r
      pure (.vabsExt r.a r.b sat x)
    | _ => .error .lengthClass
  | 7 =>
    match r.l.val with
    | 0 => do
      zeros [r.c.val]
      let fmt ← Fmt.ofCode r.f
      pure (.vneg r.a r.b fmt)
    | 2 => do
      zeros [r.c.val, r.sc.val, r.imm.toNat, r.xfn.val, r.ord.val, r.d.val]
      let sat ← boolOfF r.f
      let x ← VecX.ofRaw r
      pure (.vnegExt r.a r.b sat x)
    | _ => .error .lengthClass
  | 8 =>
    match r.l.val with
    | 0 => do
      let fmt ← Fmt.ofCode r.f
      pure (.vdiv r.a r.b r.c fmt)
    | 2 => do
      zeros [r.f.val, r.sc.val, r.imm.toNat, r.xfn.val, r.ord.val, r.d.val]
      let x ← VecX.ofRaw r
      pure (.vdivExt r.a r.b r.c x)
    | _ => .error .lengthClass
  | 9 =>
    match r.l.val with
    | 0 => do
      zeros [r.c.val]
      let fmt ← Fmt.ofCode r.f
      pure (.vsqrt r.a r.b fmt)
    | 2 => do
      zeros [r.c.val, r.f.val, r.sc.val, r.imm.toNat, r.xfn.val, r.ord.val, r.d.val]
      let x ← VecX.ofRaw r
      pure (.vsqrtExt r.a r.b x)
    | _ => .error .lengthClass
  | 10 =>
    match r.l.val with
    | 0 => do
      zeros [r.c.val]
      let fmt ← Fmt.ofCode r.f
      pure (.vrsqrt r.a r.b fmt)
    | 2 => do
      zeros [r.c.val, r.f.val, r.sc.val, r.imm.toNat, r.xfn.val, r.ord.val, r.d.val]
      let x ← VecX.ofRaw r
      pure (.vrsqrtExt r.a r.b x)
    | _ => .error .lengthClass
  | 11 =>
    match r.l.val with
    | 0 => do
      zeros [r.c.val]
      let fmt ← Fmt.ofCode r.f
      pure (.vexp r.a r.b fmt)
    | 2 => do
      zeros [r.c.val, r.f.val, r.sc.val, r.imm.toNat, r.xfn.val, r.ord.val, r.d.val]
      let x ← VecX.ofRaw r
      pure (.vexpExt r.a r.b x)
    | _ => .error .lengthClass
  | 12 =>
    match r.l.val with
    | 0 => do
      zeros [r.c.val]
      let fmt ← Fmt.ofCode r.f
      pure (.vlog r.a r.b fmt)
    | 2 => do
      zeros [r.c.val, r.f.val, r.sc.val, r.imm.toNat, r.xfn.val, r.ord.val, r.d.val]
      let x ← VecX.ofRaw r
      pure (.vlogExt r.a r.b x)
    | _ => .error .lengthClass
  | 13 =>
    match r.l.val with
    | 0 => do
      zeros [r.c.val]
      let fmt ← Fmt.ofCode r.f
      pure (.vsig r.a r.b fmt)
    | 2 => do
      zeros [r.c.val, r.f.val, r.sc.val, r.imm.toNat, r.xfn.val, r.ord.val, r.d.val]
      let x ← VecX.ofRaw r
      pure (.vsigExt r.a r.b x)
    | _ => .error .lengthClass
  | 14 =>
    match r.l.val with
    | 0 => do
      zeros [r.c.val]
      let fmt ← Fmt.ofCode r.f
      pure (.vtanh r.a r.b fmt)
    | 2 => do
      zeros [r.c.val, r.f.val, r.sc.val, r.imm.toNat, r.xfn.val, r.ord.val, r.d.val]
      let x ← VecX.ofRaw r
      pure (.vtanhExt r.a r.b x)
    | _ => .error .lengthClass
  | 15 =>
    match r.l.val with
    | 0 => do
      zeros [r.c.val, r.f.val]
      pure (.vaddc r.a r.b)
    | 2 => do
      zeros [r.c.val, r.f.val, r.sc.val, r.imm.toNat, r.xfn.val, r.ord.val, r.d.val]
      let x ← VecX.ofRaw r
      pure (.vaddcExt r.a r.b x)
    | _ => .error .lengthClass
  | _ => .error .opcode

def opcodes7 (r : Raw) : Except Illegal Instr :=
  match r.op.val % 16 with
  | 0 =>
    match r.l.val with
    | 0 => do
      let fmt ← Fmt.ofCode r.f
      pure (.vand r.a r.b r.c fmt)
    | 2 => do
      zeros [r.f.val, r.sc.val, r.imm.toNat, r.xfn.val, r.ord.val, r.d.val]
      let x ← VecX.ofRaw r
      pure (.vandExt r.a r.b r.c x)
    | _ => .error .lengthClass
  | 1 =>
    match r.l.val with
    | 0 => do
      let fmt ← Fmt.ofCode r.f
      pure (.vor r.a r.b r.c fmt)
    | 2 => do
      zeros [r.f.val, r.sc.val, r.imm.toNat, r.xfn.val, r.ord.val, r.d.val]
      let x ← VecX.ofRaw r
      pure (.vorExt r.a r.b r.c x)
    | _ => .error .lengthClass
  | 2 =>
    match r.l.val with
    | 0 => do
      let fmt ← Fmt.ofCode r.f
      pure (.vxor r.a r.b r.c fmt)
    | 2 => do
      zeros [r.f.val, r.sc.val, r.imm.toNat, r.xfn.val, r.ord.val, r.d.val]
      let x ← VecX.ofRaw r
      pure (.vxorExt r.a r.b r.c x)
    | _ => .error .lengthClass
  | 3 =>
    match r.l.val with
    | 0 => do
      let fmt ← Fmt.ofCode r.f
      pure (.vshl r.a r.b r.c fmt)
    | 2 => do
      zeros [r.f.val, r.sc.val, r.imm.toNat, r.xfn.val, r.ord.val, r.d.val]
      let x ← VecX.ofRaw r
      pure (.vshlExt r.a r.b r.c x)
    | _ => .error .lengthClass
  | 4 =>
    match r.l.val with
    | 0 => do
      let fmt ← Fmt.ofCode r.f
      pure (.vshr r.a r.b r.c fmt)
    | 2 => do
      zeros [r.f.val, r.sc.val, r.imm.toNat, r.xfn.val, r.ord.val, r.d.val]
      let x ← VecX.ofRaw r
      pure (.vshrExt r.a r.b r.c x)
    | _ => .error .lengthClass
  | 5 =>
    match r.l.val with
    | 0 => do
      let fmt ← Fmt.ofCode r.f
      pure (.vsra r.a r.b r.c fmt)
    | 2 => do
      zeros [r.f.val, r.sc.val, r.imm.toNat, r.xfn.val, r.ord.val, r.d.val]
      let x ← VecX.ofRaw r
      pure (.vsraExt r.a r.b r.c x)
    | _ => .error .lengthClass
  | 6 =>
    match r.l.val with
    | 0 => do
      let fmt ← Fmt.ofCode r.f
      pure (.vsel r.a r.b r.c fmt)
    | 2 => do
      zeros [r.f.val, r.sc.val, r.imm.toNat, r.xfn.val, r.ord.val, r.d.val]
      let x ← VecX.ofRaw r
      pure (.vselExt r.a r.b r.c x)
    | _ => .error .lengthClass
  | 7 =>
    match r.l.val with
    | 0 => do
      zeros [r.c.val]
      let fmt ← Fmt.ofCode r.f
      pure (.vmov r.a r.b fmt)
    | 2 => do
      zeros [r.c.val, r.f.val, r.sc.val, r.imm.toNat, r.xfn.val, r.ord.val, r.d.val]
      let x ← VecX.ofRaw r
      pure (.vmovExt r.a r.b x)
    | _ => .error .lengthClass
  | 8 =>
    match r.l.val with
    | 0 => do
      let fmt ← Fmt.ofCode r.f
      pure (.vdot r.a r.b r.c fmt)
    | 2 => do
      zeros [r.f.val, r.sc.val, r.imm.toNat, r.xfn.val, r.ord.val, r.d.val]
      let x ← VecX.ofRaw r
      pure (.vdotExt r.a r.b r.c x)
    | _ => .error .lengthClass
  | 9 =>
    match r.l.val with
    | 2 => do
      zeros [r.c.val, r.sc.val, r.imm.toNat, r.ord.val, r.d.val]
      let src ← Fmt.ofXfn r.xfn
      let x ← VecX.ofRaw r
      pure (.vcvt r.a r.b r.f src x)
    | _ => .error .lengthClass
  | 10 =>
    match r.l.val with
    | 2 => do
      zeros [r.c.val, r.sc.val, r.imm.toNat, r.ord.val]
      let kind ← PackKind.ofCode r.xfn
      let x ← VecX.ofRaw r
      pure (.vpack r.a r.d r.b kind r.f x)
    | _ => .error .lengthClass
  | 11 =>
    match r.l.val with
    | 2 => do
      zeros [r.c.val, r.sc.val, r.imm.toNat, r.ord.val]
      let kind ← PackKind.ofCode r.xfn
      let x ← VecX.ofRaw r
      pure (.vunpk r.a r.d r.b kind r.f x)
    | _ => .error .lengthClass
  | 12 =>
    match r.l.val with
    | 2 => do
      zeros [r.sc.val, r.imm.toNat, r.xfn.val, r.ord.val, r.d.val]
      let cond ← CmpCond.ofCode r.f
      let x ← VecX.ofRaw r
      pure (.vcmp r.a r.b r.c cond x)
    | _ => .error .lengthClass
  | 13 =>
    match r.l.val with
    | 2 => do
      zeros [r.sc.val, r.mn.val, r.ms.val, r.imm.toNat, r.ix.val, r.xfn.val, r.ord.val, r.rnd.val, r.fmt.val, r.e.val, r.d.val]
      let op ← MaskOp.ofCode r.f
      pure (.mskl r.a r.b r.c op)
    | _ => .error .lengthClass
  | 14 =>
    match r.l.val with
    | 2 => do
      zeros [r.c.val, r.sc.val, r.mn.val, r.ms.val, r.imm.toNat, r.ix.val, r.xfn.val, r.ord.val, r.rnd.val, r.fmt.val, r.e.val, r.d.val]
      let op ← MaskProbe.ofCode r.f
      pure (.mskp r.a r.b op)
    | _ => .error .lengthClass
  | 15 =>
    match r.l.val with
    | 1 => do
      zeros [r.b.val, r.c.val, r.f.val]
      pure (.msks r.a r.lit)
    | 3 => do
      zeros [r.b.val, r.c.val, r.sc.val, r.mn.val, r.ms.val, r.imm.toNat, r.ix.val, r.xfn.val, r.ord.val, r.rnd.val, r.fmt.val, r.e.val, r.d.val]
      let op ← MaskSet.ofCode r.f
      pure (.msksExt r.a r.lit op)
    | _ => .error .lengthClass
  | _ => .error .opcode

def opcodes8 (r : Raw) : Except Illegal Instr :=
  match r.op.val % 16 with
  | 0 =>
    match r.l.val with
    | 2 => do
      zeros [r.c.val, r.sc.val, r.imm.toNat, r.xfn.val, r.ord.val, r.d.val]
      let op ← RedOp.ofCode r.f
      let x ← VecX.ofRaw r
      pure (.vred r.a r.b op x)
    | _ => .error .lengthClass
  | 1 =>
    match r.l.val with
    | 2 => do
      zeros [r.sc.val, r.imm.toNat, r.xfn.val, r.ord.val]
      let op ← ScanOp.ofCode r.f
      let x ← VecX.ofRaw r
      pure (.vscan r.a r.b r.c r.d op x)
    | _ => .error .lengthClass
  | 2 =>
    match r.l.val with
    | 0 => do
      let fmt ← Fmt.ofCode r.f
      pure (.vbcast r.a r.b r.c fmt)
    | 2 => do
      zeros [r.f.val, r.sc.val, r.xfn.val, r.ord.val, r.d.val]
      let x ← VecX.ofRaw r
      pure (.vbcastExt r.a r.b r.c r.imm x)
    | _ => .error .lengthClass
  | 3 =>
    match r.l.val with
    | 0 => do
      let fmt ← Fmt.ofCode r.f
      pure (.vperm r.a r.b r.c fmt)
    | 2 => do
      zeros [r.f.val, r.sc.val, r.imm.toNat, r.xfn.val, r.ord.val, r.d.val]
      let x ← VecX.ofRaw r
      pure (.vpermExt r.a r.b r.c x)
    | _ => .error .lengthClass
  | 4 =>
    match r.l.val with
    | 0 => do
      zeros [r.c.val]
      let fmt ← Fmt.ofCode r.f
      pure (.vsort r.a r.b fmt)
    | 2 => do
      zeros [r.c.val, r.sc.val, r.imm.toNat, r.xfn.val, r.ord.val, r.d.val]
      let desc ← boolOfF r.f
      let x ← VecX.ofRaw r
      pure (.vsortExt r.a r.b desc x)
    | _ => .error .lengthClass
  | 5 =>
    match r.l.val with
    | 0 => do
      let fmt ← Fmt.ofCode r.f
      pure (.vmerge r.a r.b r.c fmt)
    | 2 => do
      zeros [r.sc.val, r.imm.toNat, r.xfn.val, r.ord.val]
      let desc ← boolOfF r.f
      let x ← VecX.ofRaw r
      pure (.vmergeExt r.a r.b r.c r.d desc x)
    | _ => .error .lengthClass
  | 6 =>
    match r.l.val with
    | 0 => do
      zeros [r.c.val]
      let fmt ← Fmt.ofCode r.f
      pure (.vidx r.a r.b fmt)
    | 2 => do
      zeros [r.c.val, r.f.val, r.sc.val, r.xfn.val, r.ord.val, r.d.val]
      let x ← VecX.ofRaw r
      pure (.vidxExt r.a r.b r.imm x)
    | _ => .error .lengthClass
  | 7 =>
    match r.l.val with
    | 0 => do
      zeros [r.b.val]
      let fmt ← Fmt.ofCode r.f
      pure (.vsplat r.a r.c fmt)
    | 1 => do
      zeros [r.b.val, r.c.val]
      let fmt ← Fmt.ofCode r.f
      pure (.vsplatWide r.a (.lit r.lit fmt))
    | 2 => do
      zeros [r.b.val, r.f.val, r.sc.val, r.xfn.val, r.ord.val, r.d.val]
      let x ← VecX.ofRaw r
      pure (.vsplatWide r.a (.ext r.c r.imm x))
    | _ => do
      zeros [r.b.val, r.c.val, r.f.val, r.imm.toNat, r.sc.val, r.xfn.val, r.ord.val, r.d.val]
      let x ← VecX.ofRaw r
      pure (.vsplatWide r.a (.long r.lit x))
  | 8 =>
    match r.l.val with
    | 0 => do
      zeros [r.b.val, r.c.val]
      let fmt ← Fmt.ofCode r.f
      pure (.vrand r.a fmt)
    | 2 => do
      zeros [r.b.val, r.c.val, r.f.val, r.sc.val, r.imm.toNat, r.xfn.val, r.ord.val, r.d.val]
      let x ← VecX.ofRaw r
      pure (.vrandExt r.a x)
    | _ => .error .lengthClass
  | 9 =>
    match r.l.val with
    | 0 => do
      let fmt ← Fmt.ofCode r.f
      pure (.vkeep r.a r.b r.c fmt)
    | 2 => do
      zeros [r.f.val, r.sc.val, r.imm.toNat, r.xfn.val, r.ord.val, r.d.val]
      let x ← VecX.ofRaw r
      pure (.vkeepExt r.a r.b r.c x)
    | _ => .error .lengthClass
  | 10 =>
    match r.l.val with
    | 0 => do
      let fmt ← Fmt.ofCode r.f
      pure (.vphx r.a r.b r.c fmt)
    | 2 => do
      zeros [r.sc.val, r.xfn.val, r.ord.val, r.d.val]
      let word ← word4Of r.f
      let x ← VecX.ofRaw r
      pure (.vphxExt r.a r.b r.c word r.imm x)
    | _ => .error .lengthClass
  | 11 =>
    match r.l.val with
    | 0 => do
      zeros [r.f.val]
      pure (.vrope r.a r.b r.c)
    | 2 => do
      zeros [r.sc.val, r.imm.toNat, r.xfn.val, r.ord.val]
      let half ← boolOfF r.f
      let x ← VecX.ofRaw r
      pure (.vropeExt r.a r.b r.c r.d half x)
    | _ => .error .lengthClass
  | 12 =>
    match r.l.val with
    | 0 => do
      let fmt ← Fmt.ofCode r.f
      pure (.vins r.a r.b r.c fmt)
    | 2 => do
      zeros [r.f.val, r.sc.val, r.xfn.val, r.ord.val, r.d.val]
      let x ← VecX.ofRaw r
      pure (.vinsExt r.a r.b r.c r.imm x)
    | _ => .error .lengthClass
  | 13 =>
    match r.l.val with
    | 0 => do
      let fmt ← Fmt.ofCode r.f
      pure (.vext r.a r.b r.c fmt)
    | 2 => do
      zeros [r.f.val, r.sc.val, r.xfn.val, r.ord.val, r.d.val]
      let x ← VecX.ofRaw r
      pure (.vextExt r.a r.b r.c r.imm x)
    | _ => .error .lengthClass
  | _ => .error .opcode

def opcodes9 (r : Raw) : Except Illegal Instr :=
  match r.op.val % 16 with
  | 0 =>
    match r.l.val with
    | 0 => do
      if r.f.val = 12 then pure () else .error .format
      pure (.madd r.a r.b r.c)
    | 2 => do
      zeros [r.f.val, r.sc.val, r.imm.toNat, r.xfn.val, r.ord.val]
      let x ← VecX.ofRaw r
      pure (.maddExt r.a r.b r.c r.d x)
    | _ => .error .lengthClass
  | 1 =>
    match r.l.val with
    | 0 => do
      if r.f.val = 12 then pure () else .error .format
      pure (.msub r.a r.b r.c)
    | 2 => do
      zeros [r.f.val, r.sc.val, r.imm.toNat, r.xfn.val, r.ord.val]
      let x ← VecX.ofRaw r
      pure (.msubExt r.a r.b r.c r.d x)
    | _ => .error .lengthClass
  | 2 =>
    match r.l.val with
    | 0 => do
      if r.f.val = 12 then pure () else .error .format
      pure (.mmul r.a r.b r.c)
    | 2 => do
      zeros [r.f.val, r.sc.val, r.imm.toNat, r.xfn.val, r.ord.val, r.d.val]
      let x ← VecX.ofRaw r
      pure (.mmulExt r.a r.b r.c x)
    | _ => .error .lengthClass
  | 3 =>
    match r.l.val with
    | 0 => do
      if r.f.val = 12 then pure () else .error .format
      pure (.mscl r.a r.b r.c)
    | 2 => do
      zeros [r.f.val, r.sc.val, r.imm.toNat, r.xfn.val, r.ord.val, r.d.val]
      let x ← VecX.ofRaw r
      pure (.msclExt r.a r.b r.c x)
    | _ => .error .lengthClass
  | 4 =>
    match r.l.val with
    | 0 => do
      zeros [r.c.val]
      if r.f.val = 12 then pure () else .error .format
      pure (.mexp r.a r.b)
    | 2 => do
      zeros [r.c.val, r.f.val, r.sc.val, r.imm.toNat, r.xfn.val, r.ord.val, r.d.val]
      let x ← VecX.ofRaw r
      pure (.mexpExt r.a r.b x)
    | _ => .error .lengthClass
  | 5 =>
    match r.l.val with
    | 0 => do
      zeros [r.c.val]
      if r.f.val = 12 then pure () else .error .format
      pure (.mrelu r.a r.b)
    | 2 => do
      zeros [r.c.val, r.f.val, r.sc.val, r.imm.toNat, r.xfn.val, r.ord.val, r.d.val]
      let x ← VecX.ofRaw r
      pure (.mreluExt r.a r.b x)
    | _ => .error .lengthClass
  | 6 =>
    match r.l.val with
    | 0 => do
      zeros [r.c.val]
      if r.f.val = 12 then pure () else .error .format
      pure (.msig r.a r.b)
    | 2 => do
      zeros [r.c.val, r.f.val, r.sc.val, r.imm.toNat, r.xfn.val, r.ord.val, r.d.val]
      let x ← VecX.ofRaw r
      pure (.msigExt r.a r.b x)
    | _ => .error .lengthClass
  | 7 =>
    match r.l.val with
    | 2 => do
      zeros [r.sc.val, r.imm.toNat, r.ord.val, r.d.val]
      let form ← CollForm.ofCode r.f
      let half ← boolOfXfn r.xfn
      let x ← VecX.ofRaw r
      pure (.mcoll r.a r.b r.c form half x)
    | _ => .error .lengthClass
  | 8 =>
    match r.l.val with
    | 0 => do
      zeros [r.f.val]
      pure (.mfrom r.a r.b r.c)
    | 2 => do
      zeros [r.f.val, r.sc.val, r.imm.toNat, r.xfn.val, r.ord.val, r.d.val]
      let x ← VecX.ofRaw r
      pure (.mfromExt r.a r.b r.c x)
    | _ => .error .lengthClass
  | 9 =>
    match r.l.val with
    | 0 => do
      zeros [r.c.val]
      if r.f.val = 12 then pure () else .error .format
      pure (.mmov r.a r.b)
    | 2 => do
      zeros [r.c.val, r.f.val, r.sc.val, r.imm.toNat, r.xfn.val, r.ord.val, r.d.val]
      let x ← VecX.ofRaw r
      pure (.mmovExt r.a r.b x)
    | _ => .error .lengthClass
  | _ => .error .opcode

noncomputable def opcodesA (r : Raw) : Except Illegal Instr :=
  match r.op.val % 16 with
  | 0 =>
    match r.l.val with
    | 0 => do
      let kind ← Kind.ofC r.c
      pure (.ld r.a r.b kind r.f)
    | 2 => do
      zeros [r.mn.val, r.ms.val, r.ix.val, r.xfn.val, r.rnd.val, r.fmt.val, r.e.val, r.d.val]
      let kind ← Kind.ofF r.f
      pure (.ldExt r.a r.b kind (MemX.ofRaw r))
    | _ => .error .lengthClass
  | 1 =>
    match r.l.val with
    | 0 => do
      let kind ← Kind.ofC r.c
      pure (.st r.a r.b kind r.f)
    | 2 => do
      zeros [r.mn.val, r.ms.val, r.ix.val, r.xfn.val, r.rnd.val, r.fmt.val, r.e.val, r.d.val]
      let kind ← Kind.ofF r.f
      pure (.stExt r.a r.b kind (MemX.ofRaw r))
    | _ => .error .lengthClass
  | 2 =>
    match r.l.val with
    | 0 => do
      zeros [r.c.val]
      pure (.cld r.a r.b r.f)
    | 2 => do
      zeros [r.f.val, r.mn.val, r.ms.val, r.ix.val, r.xfn.val, r.rnd.val, r.fmt.val, r.e.val, r.d.val]
      pure (.cldExt r.a r.b (MemX.ofRaw r))
    | _ => .error .lengthClass
  | 3 =>
    match r.l.val with
    | 0 => do
      zeros [r.c.val]
      pure (.cst r.a r.b r.f)
    | 2 => do
      zeros [r.f.val, r.mn.val, r.ms.val, r.ix.val, r.xfn.val, r.rnd.val, r.fmt.val, r.e.val, r.d.val]
      pure (.cstExt r.a r.b (MemX.ofRaw r))
    | _ => .error .lengthClass
  | 4 =>
    match r.l.val with
    | 0 => do
      zeros [r.c.val]
      pure (.vld r.a r.b r.f)
    | 2 => do
      zeros [r.f.val, r.ix.val, r.xfn.val, r.rnd.val, r.fmt.val, r.e.val, r.d.val]
      pure (.vldExt r.a r.b (MaskSel.ofRaw r) (MemX.ofRaw r))
    | _ => .error .lengthClass
  | 5 =>
    match r.l.val with
    | 0 => do
      zeros [r.c.val]
      pure (.vst r.a r.b r.f)
    | 2 => do
      zeros [r.f.val, r.ix.val, r.xfn.val, r.rnd.val, r.fmt.val, r.e.val, r.d.val]
      pure (.vstExt r.a r.b (MaskSel.ofRaw r) (MemX.ofRaw r))
    | _ => .error .lengthClass
  | 6 =>
    match r.l.val with
    | 2 => do
      zeros [r.f.val, r.ix.val, r.xfn.val, r.rnd.val, r.fmt.val, r.e.val, r.d.val]
      pure (.vgath r.a r.b (MaskSel.ofRaw r) (MemX.ofRaw r))
    | _ => .error .lengthClass
  | 7 =>
    match r.l.val with
    | 2 => do
      zeros [r.f.val, r.ix.val, r.xfn.val, r.rnd.val, r.fmt.val, r.e.val, r.d.val]
      pure (.vscat r.a r.b (MaskSel.ofRaw r) (MemX.ofRaw r))
    | _ => .error .lengthClass
  | 8 =>
    match r.l.val with
    | 0 => do
      zeros [r.c.val]
      pure (.eld r.a r.b r.f)
    | 2 => do
      zeros [r.f.val, r.ix.val, r.xfn.val, r.rnd.val, r.fmt.val, r.e.val, r.d.val]
      pure (.eldExt r.a r.b (MaskSel.ofRaw r) (MemX.ofRaw r))
    | _ => .error .lengthClass
  | 9 =>
    match r.l.val with
    | 0 => do
      zeros [r.c.val]
      pure (.est r.a r.b r.f)
    | 2 => do
      zeros [r.f.val, r.ix.val, r.xfn.val, r.rnd.val, r.fmt.val, r.e.val, r.d.val]
      pure (.estExt r.a r.b (MaskSel.ofRaw r) (MemX.ofRaw r))
    | _ => .error .lengthClass
  | 10 =>
    match r.l.val with
    | 2 => do
      zeros [r.f.val, r.mn.val, r.ms.val, r.ix.val, r.rnd.val, r.fmt.val, r.e.val]
      let op ← AmoOp.ofXfn r.xfn
      pure (.amo r.a r.b r.d op (narrowOf r.xfn) (MemX.ofRaw r))
    | _ => .error .lengthClass
  | 11 =>
    match r.l.val with
    | 2 => do
      zeros [r.f.val, r.mn.val, r.ms.val, r.ix.val, r.rnd.val, r.fmt.val, r.e.val]
      let narrow ← casNarrow r.xfn
      pure (.cas r.a r.b r.d narrow (MemX.ofRaw r))
    | _ => .error .lengthClass
  | 12 =>
    match r.l.val with
    | 2 => do
      zeros [r.f.val, r.mn.val, r.ms.val, r.ix.val, r.xfn.val, r.rnd.val, r.fmt.val, r.e.val]
      pure (.ccas r.a r.b r.d (MemX.ofRaw r))
    | _ => .error .lengthClass
  | 13 =>
    match r.l.val with
    | 2 => do
      zeros [r.a.val, r.b.val, r.c.val, r.f.val, r.mn.val, r.ms.val, r.imm.toNat, r.ix.val, r.xfn.val, r.ord.val, r.rnd.val, r.fmt.val, r.e.val, r.d.val]
      pure (.fence (Scope.ofCode r.sc))
    | _ => .error .lengthClass
  | _ => .error .opcode

noncomputable def opcodesB (r : Raw) : Except Illegal Instr :=
  match r.op.val % 16 with
  | 0 =>
    match r.l.val with
    | 2 => do
      zeros [r.c.val, r.f.val, r.sc.val, r.mn.val, r.ms.val, r.ix.val, r.xfn.val, r.ord.val, r.rnd.val, r.fmt.val, r.e.val, r.d.val]
      let off ← stashOff r.imm
      pure (.stashMap r.a r.b off (stashLen r.imm))
    | _ => .error .lengthClass
  | 1 =>
    match r.l.val with
    | 0 => do
      zeros [r.b.val, r.c.val, r.f.val]
      pure (.stashUnmap r.a)
    | 2 => do
      zeros [r.a.val, r.b.val, r.c.val, r.f.val, r.sc.val, r.mn.val, r.ms.val, r.imm.toNat, r.ix.val, r.ord.val, r.rnd.val, r.fmt.val, r.e.val, r.d.val]
      if r.xfn.val = 1 then pure () else .error .function
      pure .stashUnmapExt
    | _ => .error .lengthClass
  | 2 =>
    match r.l.val with
    | 0 => do
      zeros [r.b.val, r.c.val, r.f.val]
      pure (.stashWb r.a)
    | 2 => do
      zeros [r.a.val, r.b.val, r.c.val, r.f.val, r.sc.val, r.mn.val, r.ms.val, r.imm.toNat, r.ix.val, r.ord.val, r.rnd.val, r.fmt.val, r.e.val, r.d.val]
      if r.xfn.val = 1 then pure () else .error .function
      pure .stashWbExt
    | _ => .error .lengthClass
  | 3 =>
    match r.l.val with
    | 2 => do
      zeros [r.f.val, r.sc.val, r.mn.val, r.ms.val, r.imm.toNat, r.ix.val, r.xfn.val, r.ord.val, r.rnd.val, r.fmt.val, r.e.val, r.d.val]
      pure (.stashAp r.a r.b r.c)
    | _ => .error .lengthClass
  | 4 =>
    match r.l.val with
    | 2 => do
      zeros [r.f.val, r.sc.val, r.mn.val, r.ms.val, r.imm.toNat, r.ix.val, r.ord.val, r.rnd.val, r.fmt.val, r.e.val, r.d.val]
      let ch ← chOfXfn r.xfn
      pure (.copy r.a r.b r.c ch (flagOfXfn r.xfn))
    | _ => .error .lengthClass
  | 5 =>
    match r.l.val with
    | 0 => do
      zeros [r.b.val, r.c.val, r.f.val]
      pure (.copyWait r.a)
    | 2 => do
      zeros [r.c.val, r.f.val, r.sc.val, r.mn.val, r.ms.val, r.ix.val, r.xfn.val, r.ord.val, r.rnd.val, r.fmt.val, r.e.val]
      pure (.copyWaitExt r.d r.a r.b r.imm)
    | _ => .error .lengthClass
  | 8 =>
    match r.l.val with
    | 2 => do
      zeros [r.b.val, r.f.val, r.sc.val, r.mn.val, r.ms.val, r.ix.val, r.xfn.val, r.ord.val, r.rnd.val, r.fmt.val, r.e.val]
      pure (.valloc r.a r.d r.c r.imm)
    | _ => .error .lengthClass
  | 9 =>
    match r.l.val with
    | 0 => do
      zeros [r.c.val, r.f.val]
      pure (.vdup r.a r.b)
    | 2 => do
      zeros [r.c.val, r.f.val, r.sc.val, r.mn.val, r.ms.val, r.imm.toNat, r.ix.val, r.xfn.val, r.ord.val, r.rnd.val, r.fmt.val, r.e.val, r.d.val]
      pure (.vdupExt r.a r.b)
    | _ => .error .lengthClass
  | 10 =>
    match r.l.val with
    | 0 => do
      zeros [r.f.val]
      pure (.vsplit r.a r.b r.c)
    | 2 => do
      zeros [r.f.val, r.sc.val, r.mn.val, r.ms.val, r.ix.val, r.xfn.val, r.ord.val, r.rnd.val, r.fmt.val, r.e.val, r.d.val]
      pure (.vsplitExt r.a r.b r.c r.imm)
    | _ => .error .lengthClass
  | 11 =>
    match r.l.val with
    | 0 => do
      zeros [r.f.val]
      pure (.vnarrow r.a r.b r.c)
    | 2 => do
      zeros [r.f.val, r.sc.val, r.mn.val, r.ms.val, r.ix.val, r.xfn.val, r.ord.val, r.rnd.val, r.fmt.val, r.e.val, r.d.val]
      pure (.vnarrowExt r.a r.b r.c r.imm)
    | _ => .error .lengthClass
  | 12 =>
    match r.l.val with
    | 0 => do
      zeros [r.a.val, r.c.val, r.f.val]
      pure (.vdrop r.b)
    | 2 => do
      zeros [r.a.val, r.c.val, r.f.val, r.sc.val, r.mn.val, r.ms.val, r.imm.toNat, r.ix.val, r.xfn.val, r.ord.val, r.rnd.val, r.fmt.val, r.e.val, r.d.val]
      pure (.vdropExt r.b)
    | _ => .error .lengthClass
  | 13 =>
    match r.l.val with
    | 0 => do
      zeros [r.c.val, r.f.val]
      pure (.vpark r.a r.b)
    | 2 => do
      zeros [r.c.val, r.f.val, r.sc.val, r.mn.val, r.ms.val, r.imm.toNat, r.ix.val, r.xfn.val, r.ord.val, r.rnd.val, r.fmt.val, r.e.val, r.d.val]
      pure (.vparkExt r.a r.b)
    | _ => .error .lengthClass
  | 14 =>
    match r.l.val with
    | 0 => do
      zeros [r.c.val, r.f.val]
      pure (.vtake r.a r.b)
    | 2 => do
      zeros [r.c.val, r.f.val, r.sc.val, r.mn.val, r.ms.val, r.imm.toNat, r.ix.val, r.xfn.val, r.ord.val, r.rnd.val, r.fmt.val, r.e.val, r.d.val]
      pure (.vtakeExt r.a r.b)
    | _ => .error .lengthClass
  | _ => .error .opcode

noncomputable def opcodesC (r : Raw) : Except Illegal Instr :=
  match r.op.val % 16 with
  | 0 =>
    match r.l.val with
    | 2 => do
      zeros [r.c.val, r.f.val, r.sc.val, r.mn.val, r.ms.val, r.imm.toNat, r.ix.val, r.xfn.val, r.ord.val, r.rnd.val, r.fmt.val, r.e.val, r.d.val]
      pure (.pmLook r.a r.b)
    | _ => .error .lengthClass
  | 1 =>
    match r.l.val with
    | 2 => do
      zeros [r.a.val, r.f.val, r.sc.val, r.mn.val, r.ms.val, r.ix.val, r.xfn.val, r.ord.val, r.rnd.val, r.fmt.val, r.e.val, r.d.val]
      let i ← descOf r.imm
      pure (.pmFill r.b r.c i)
    | _ => .error .lengthClass
  | 2 =>
    match r.l.val with
    | 2 => do
      zeros [r.f.val, r.sc.val, r.mn.val, r.ms.val, r.ix.val, r.xfn.val, r.ord.val, r.rnd.val, r.fmt.val]
      let n ← descOf r.imm
      pure (.kvApp r.a r.b r.c r.d r.e n)
    | _ => .error .lengthClass
  | 4 =>
    match r.l.val with
    | 2 => do
      zeros [r.f.val, r.sc.val, r.mn.val, r.ms.val, r.imm.toNat, r.ix.val, r.xfn.val, r.ord.val, r.rnd.val, r.fmt.val, r.e.val]
      pure (.cairnLook r.a r.b r.c r.d)
    | _ => .error .lengthClass
  | 5 =>
    match r.l.val with
    | 2 => do
      zeros [r.f.val, r.sc.val, r.mn.val, r.ms.val, r.imm.toNat, r.ix.val, r.xfn.val, r.ord.val, r.rnd.val, r.fmt.val, r.e.val]
      pure (.cairnIns r.a r.b r.c r.d)
    | _ => .error .lengthClass
  | 6 =>
    match r.l.val with
    | 2 => do
      zeros [r.b.val, r.f.val, r.sc.val, r.mn.val, r.ms.val, r.imm.toNat, r.ix.val, r.xfn.val, r.ord.val, r.rnd.val, r.fmt.val, r.e.val]
      pure (.cairnRel r.a r.c r.d)
    | _ => .error .lengthClass
  | 7 =>
    match r.l.val with
    | 2 => do
      zeros [r.f.val, r.sc.val, r.mn.val, r.ms.val, r.imm.toNat, r.ix.val, r.xfn.val, r.ord.val, r.rnd.val, r.fmt.val, r.e.val]
      pure (.admRsv r.a r.b r.c r.d)
    | _ => .error .lengthClass
  | 8 =>
    match r.l.val with
    | 2 => do
      zeros [r.c.val, r.f.val, r.sc.val, r.mn.val, r.ms.val, r.imm.toNat, r.ix.val, r.xfn.val, r.ord.val, r.rnd.val, r.fmt.val, r.e.val, r.d.val]
      pure (.admEnd r.a r.b)
    | _ => .error .lengthClass
  | 10 =>
    match r.l.val with
    | 2 => do
      zeros [r.f.val, r.sc.val, r.mn.val, r.ms.val, r.imm.toNat, r.ix.val, r.xfn.val, r.rnd.val, r.fmt.val, r.e.val]
      pure (.msgSend r.a r.b r.c r.d (Order.ofCode r.ord))
    | _ => .error .lengthClass
  | 11 =>
    match r.l.val with
    | 2 => do
      zeros [r.c.val, r.f.val, r.sc.val, r.mn.val, r.ms.val, r.imm.toNat, r.ix.val, r.xfn.val, r.ord.val, r.rnd.val, r.fmt.val, r.e.val, r.d.val]
      pure (.mig r.a r.b)
    | _ => .error .lengthClass
  | 12 =>
    match r.l.val with
    | 2 => do
      zeros [r.b.val, r.c.val, r.f.val, r.sc.val, r.mn.val, r.ms.val, r.imm.toNat, r.ix.val, r.xfn.val, r.ord.val, r.rnd.val, r.fmt.val, r.e.val, r.d.val]
      pure (.migRet r.a)
    | _ => .error .lengthClass
  | _ => .error .opcode

noncomputable def opcodesD (r : Raw) : Except Illegal Instr :=
  match r.op.val % 16 with
  | 0 =>
    match r.l.val with
    | 2 => do
      zeros [r.a.val, r.f.val, r.sc.val, r.mn.val, r.ms.val, r.ix.val, r.xfn.val, r.ord.val, r.rnd.val, r.fmt.val, r.e.val, r.d.val]
      let n ← descOf r.imm
      pure (.mxLdw n r.b r.c)
    | _ => .error .lengthClass
  | 1 =>
    match r.l.val with
    | 0 => do
      zeros [r.a.val, r.b.val, r.c.val, r.f.val]
      pure .mxSwap
    | 2 => do
      zeros [r.a.val, r.b.val, r.c.val, r.f.val, r.sc.val, r.mn.val, r.ms.val, r.ix.val, r.ord.val, r.rnd.val, r.fmt.val, r.e.val, r.d.val]
      let n ← descOf r.imm
      let ch ← chOfXfn r.xfn
      pure (.mxSwapExt n ch (flagOfXfn r.xfn))
    | _ => .error .lengthClass
  | 2 =>
    match r.l.val with
    | 2 => do
      zeros [r.sc.val, r.mn.val, r.ms.val, r.ix.val, r.ord.val, r.rnd.val, r.fmt.val, r.e.val, r.d.val]
      let n ← descOf r.imm
      let z ← zOfF r.f
      let blk ← blkOfXfn r.xfn
      pure (.mxStr r.a r.b r.c n z (moBit r.f) blk)
    | _ => .error .lengthClass
  | 3 =>
    match r.l.val with
    | 2 => do
      zeros [r.c.val, r.sc.val, r.mn.val, r.ms.val, r.ix.val, r.ord.val, r.rnd.val, r.fmt.val, r.e.val, r.d.val]
      let z ← boolOfF r.f
      let blk ← blkOfXfn r.xfn
      pure (.mxGstr r.a r.b (desc3N r.imm) (desc3M r.imm) (desc3P r.imm) z blk)
    | _ => .error .lengthClass
  | 4 =>
    match r.l.val with
    | 2 => do
      zeros [r.sc.val, r.mn.val, r.ms.val, r.imm.toNat, r.ix.val, r.xfn.val, r.ord.val, r.rnd.val, r.fmt.val, r.e.val, r.d.val]
      let mo ← moOfF r.f
      pure (.accRd r.a r.b r.c mo)
    | _ => .error .lengthClass
  | 5 =>
    match r.l.val with
    | 2 => do
      zeros [r.sc.val, r.mn.val, r.ms.val, r.imm.toNat, r.ix.val, r.xfn.val, r.ord.val, r.rnd.val, r.fmt.val, r.e.val, r.d.val]
      let mo ← moOfF r.f
      pure (.accWr r.a r.b r.c mo)
    | _ => .error .lengthClass
  | 6 =>
    match r.l.val with
    | 0 => do
      zeros [r.b.val, r.c.val, r.f.val]
      pure (.accClr r.a)
    | 2 => do
      zeros [r.b.val, r.c.val, r.f.val, r.sc.val, r.mn.val, r.ms.val, r.imm.toNat, r.ix.val, r.ord.val, r.rnd.val, r.fmt.val, r.e.val, r.d.val]
      let mask ← maskOfXfn r.xfn
      pure (.accClrExt r.a mask)
    | _ => .error .lengthClass
  | 8 =>
    match r.l.val with
    | 2 => do
      zeros [r.c.val, r.f.val, r.sc.val, r.mn.val, r.ms.val, r.imm.toNat, r.ix.val, r.xfn.val, r.ord.val, r.rnd.val, r.fmt.val, r.e.val, r.d.val]
      pure (.epLoad r.a r.b)
    | _ => .error .lengthClass
  | 9 =>
    match r.l.val with
    | 2 => do
      zeros [r.sc.val, r.mn.val, r.ms.val, r.ix.val, r.xfn.val, r.ord.val, r.fmt.val, r.e.val]
      let n ← descOf r.imm
      let mo ← moOfF r.f
      pure (.epRun r.a r.b r.c r.d n mo (rndOf r.rnd))
    | _ => .error .lengthClass
  | 10 =>
    match r.l.val with
    | 0 => do
      zeros [r.b.val, r.c.val, r.f.val]
      pure (.epWait r.a)
    | _ => .error .lengthClass
  | _ => .error .opcode

noncomputable def opcodesE (r : Raw) : Except Illegal Instr :=
  match r.op.val % 16 with
  | 0 =>
    match r.l.val with
    | 2 => do
      zeros [r.f.val, r.sc.val, r.mn.val, r.ms.val, r.ix.val, r.xfn.val, r.ord.val, r.rnd.val, r.fmt.val, r.e.val]
      let n ← descOf r.imm
      pure (.smpPen r.a r.b r.c r.d n)
    | _ => .error .lengthClass
  | 1 =>
    match r.l.val with
    | 2 => do
      zeros [r.b.val, r.f.val, r.sc.val, r.mn.val, r.ms.val, r.ix.val, r.xfn.val, r.ord.val, r.rnd.val, r.fmt.val, r.e.val, r.d.val]
      let n ← descOf r.imm
      pure (.smpTemp r.a r.c n)
    | _ => .error .lengthClass
  | 2 =>
    match r.l.val with
    | 2 => do
      zeros [r.c.val, r.f.val, r.sc.val, r.mn.val, r.ms.val, r.ix.val, r.xfn.val, r.ord.val, r.rnd.val, r.fmt.val, r.e.val]
      let n ← descOf r.imm
      pure (.smpGum r.a r.b r.d n)
    | _ => .error .lengthClass
  | 3 =>
    match r.l.val with
    | 2 => do
      zeros [r.b.val, r.c.val, r.f.val, r.mn.val, r.ms.val, r.ix.val, r.xfn.val, r.ord.val, r.rnd.val, r.fmt.val, r.e.val]
      let n ← descOf r.imm
      pure (.smpTop r.a r.d n (Scope.ofCode r.sc))
    | _ => .error .lengthClass
  | 4 =>
    match r.l.val with
    | 2 => do
      zeros [r.f.val, r.mn.val, r.ms.val, r.ix.val, r.xfn.val, r.ord.val, r.rnd.val, r.fmt.val, r.e.val]
      let n ← descOf r.imm
      pure (.smpTopp r.a r.b r.c r.d n (Scope.ofCode r.sc))
    | _ => .error .lengthClass
  | 5 =>
    match r.l.val with
    | 2 => do
      zeros [r.f.val, r.sc.val, r.mn.val, r.ms.val, r.imm.toNat, r.ix.val, r.xfn.val, r.ord.val, r.rnd.val, r.fmt.val, r.e.val, r.d.val]
      pure (.smpStep r.a r.b r.c)
    | _ => .error .lengthClass
  | 6 =>
    match r.l.val with
    | 2 => do
      zeros [r.f.val, r.sc.val, r.mn.val, r.ms.val, r.imm.toNat, r.ix.val, r.xfn.val, r.ord.val, r.rnd.val, r.fmt.val, r.e.val, r.d.val]
      pure (.smpDraft r.a r.b r.c)
    | _ => .error .lengthClass
  | 7 =>
    match r.l.val with
    | 2 => do
      zeros [r.f.val, r.sc.val, r.mn.val, r.ms.val, r.imm.toNat, r.ix.val, r.xfn.val, r.ord.val, r.rnd.val, r.fmt.val, r.e.val, r.d.val]
      pure (.smpVer r.a r.b r.c)
    | _ => .error .lengthClass
  | 8 =>
    match r.l.val with
    | 2 => do
      zeros [r.c.val, r.mn.val, r.ms.val, r.imm.toNat, r.ix.val, r.xfn.val, r.ord.val, r.rnd.val, r.e.val, r.d.val]
      let op ← SumOp.ofCode r.f
      let fmt ← Fmt.ofCode r.fmt
      pure (.sumRed r.a r.b op fmt (Scope.ofCode r.sc))
    | _ => .error .lengthClass
  | 9 =>
    match r.l.val with
    | 2 => do
      zeros [r.c.val, r.f.val, r.mn.val, r.ms.val, r.imm.toNat, r.ix.val, r.xfn.val, r.ord.val, r.rnd.val, r.fmt.val, r.e.val, r.d.val]
      pure (.sumBc r.a r.b (Scope.ofCode r.sc))
    | _ => .error .lengthClass
  | 10 =>
    match r.l.val with
    | 2 => do
      zeros [r.c.val, r.f.val, r.sc.val, r.mn.val, r.ms.val, r.ix.val, r.xfn.val, r.ord.val, r.rnd.val, r.fmt.val, r.e.val, r.d.val]
      let k ← mapOf r.imm
      pure (.tokMap r.a r.b k)
    | _ => .error .lengthClass
  | 11 =>
    match r.l.val with
    | 2 => do
      zeros [r.f.val, r.sc.val, r.mn.val, r.ms.val, r.imm.toNat, r.ix.val, r.xfn.val, r.ord.val, r.rnd.val, r.fmt.val, r.e.val, r.d.val]
      pure (.tokBind r.a r.b r.c)
    | _ => .error .lengthClass
  | _ => .error .opcode

/-- The instruction that the fields name, before the limits of `Instr.check` (R194). -/
noncomputable def decodeRaw (r : Raw) : Except Illegal Instr :=
  match r.op.val / 16 with
  | 0 => opcodes0 r
  | 1 => opcodes1 r
  | 2 => opcodes2 r
  | 3 => opcodes3 r
  | 4 => opcodes4 r
  | 5 => opcodes5 r
  | 6 => opcodes6 r
  | 7 => opcodes7 r
  | 8 => opcodes8 r
  | 9 => opcodes9 r
  | 10 => opcodesA r
  | 11 => opcodesB r
  | 12 => opcodesC r
  | 13 => opcodesD r
  | 14 => opcodesE r
  | _ => .error .opcode

/-! ### From bytes -/

/-- Bytes of an instruction of each length class (R178). -/
def classBytes (l : Fin 4) : Nat :=
  match l.val with
  | 0 => 4 | 1 => 12 | 2 => 12 | _ => 20

/-- One little-endian word (R178) and the bytes after it. -/
def takeWord : List Byte → Option (Nat × List Byte)
  | b0 :: b1 :: b2 :: b3 :: rest =>
    some (b0.toNat + 256 * b1.toNat + 65536 * b2.toNat + 16777216 * b3.toNat, rest)
  | _ => none

/-- The base word (R179). -/
def Raw.ofBase (w : Nat) : Raw :=
  { l := Fin.ofNat 4 w, op := Fin.ofNat 256 (w / 4), a := Fin.ofNat 64 (w / 1024), b := Fin.ofNat 64 (w / 65536),
    c := Fin.ofNat 64 (w / 4194304), f := Fin.ofNat 16 (w / 268435456) }

/-- The extended words (R180, R181). -/
def Raw.addExt (r : Raw) (w1 w2 : Nat) : Raw :=
  { r with
    imm := BitVec.ofNat 24 w1, ms := Fin.ofNat 16 (w1 / 16777216), mn := Fin.ofNat 2 (w1 / 268435456),
    sc := Fin.ofNat 8 (w1 / 536870912), d := Fin.ofNat 64 w2, e := Fin.ofNat 64 (w2 / 64),
    fmt := Fin.ofNat 16 (w2 / 4096), rnd := Fin.ofNat 8 (w2 / 65536), ord := Fin.ofNat 4 (w2 / 524288),
    xfn := Fin.ofNat 512 (w2 / 2097152), ix := Fin.ofNat 4 (w2 / 1073741824) }

/-- The literal words (R178). -/
def Raw.addLit (r : Raw) (lo hi : Nat) : Raw := { r with lit := BitVec.ofNat 64 (lo + 4294967296 * hi) }

/-- The fields of the instruction at the head of a byte sequence, and the bytes after it. -/
def Raw.ofBytes (bs : List Byte) : Option (Raw × List Byte) := do
  let (w, s) ← takeWord bs
  let r := Raw.ofBase w
  match r.l.val with
  | 0 => pure (r, s)
  | 1 =>
    let (lo, s) ← takeWord s
    let (hi, s) ← takeWord s
    pure (r.addLit lo hi, s)
  | 2 =>
    let (w1, s) ← takeWord s
    let (w2, s) ← takeWord s
    pure (r.addExt w1 w2, s)
  | _ =>
    let (w1, s) ← takeWord s
    let (w2, s) ← takeWord s
    let (lo, s) ← takeWord s
    let (hi, s) ← takeWord s
    pure ((r.addExt w1 w2).addLit lo hi, s)

/-- The decoder: the instruction at the head of a byte sequence and the bytes after it, or why there is none. -/
noncomputable def decode (bs : List Byte) : Except Illegal (Instr × List Byte) :=
  match Raw.ofBytes bs with
  | none => .error .truncated
  | some (r, rest) =>
    match decodeRaw r with
    | .error e => .error e
    | .ok i =>
      match i.check with
      | some e => .error e
      | none => .ok (i, rest)

/-- The low `n` bytes of a number, lowest first (R4). -/
def bytesOfNat : Nat → Nat → List Byte
  | 0, _ => []
  | n + 1, x => BitVec.ofNat 8 x :: bytesOfNat n (x / 256)

/-- The instruction the decoder reads from the bits of an opcode-table row: `nbits` bits of `w`, then zeros up to the
longest instruction. -/
noncomputable def decodeTableWord (nbits w : Nat) : Option Instr :=
  match decode (bytesOfNat 20 (w % 2 ^ nbits)) with
  | .ok (i, _) => some i
  | .error _ => none

/-! ### The encoder -/

/-- The fields of an instruction; an event has none. -/
def Instr.toRaw : Instr → Option Raw
  | .add a b c => some { l := 0, op := 0x01, a, b, c }
  | .addWide a b (.ext c imm) => some { l := 2, op := 0x01, a, b, c, imm }
  | .addWide a b (.lit v) => some { l := 1, op := 0x01, a, b, lit := v }
  | .addWide a b (.long v) => some { l := 3, op := 0x01, a, b, lit := v }
  | .sub a b c => some { l := 0, op := 0x02, a, b, c }
  | .subWide a b (.ext c imm) => some { l := 2, op := 0x02, a, b, c, imm }
  | .subWide a b (.lit v) => some { l := 1, op := 0x02, a, b, lit := v }
  | .subWide a b (.long v) => some { l := 3, op := 0x02, a, b, lit := v }
  | .mul a b c => some { l := 0, op := 0x03, a, b, c }
  | .mulWide a b (.ext c imm) => some { l := 2, op := 0x03, a, b, c, imm }
  | .mulWide a b (.lit v) => some { l := 1, op := 0x03, a, b, lit := v }
  | .mulWide a b (.long v) => some { l := 3, op := 0x03, a, b, lit := v }
  | .mulh a b c => some { l := 0, op := 0x04, a, b, c }
  | .mulhWide a b (.ext c imm) => some { l := 2, op := 0x04, a, b, c, imm }
  | .mulhWide a b (.lit v) => some { l := 1, op := 0x04, a, b, lit := v }
  | .mulhWide a b (.long v) => some { l := 3, op := 0x04, a, b, lit := v }
  | .mulhn a b c => some { l := 0, op := 0x05, a, b, c }
  | .mulhnWide a b (.ext c imm) => some { l := 2, op := 0x05, a, b, c, imm }
  | .mulhnWide a b (.lit v) => some { l := 1, op := 0x05, a, b, lit := v }
  | .mulhnWide a b (.long v) => some { l := 3, op := 0x05, a, b, lit := v }
  | .div a b c => some { l := 0, op := 0x06, a, b, c }
  | .divWide a b (.ext c imm) => some { l := 2, op := 0x06, a, b, c, imm }
  | .divWide a b (.lit v) => some { l := 1, op := 0x06, a, b, lit := v }
  | .divWide a b (.long v) => some { l := 3, op := 0x06, a, b, lit := v }
  | .divn a b c => some { l := 0, op := 0x07, a, b, c }
  | .divnWide a b (.ext c imm) => some { l := 2, op := 0x07, a, b, c, imm }
  | .divnWide a b (.lit v) => some { l := 1, op := 0x07, a, b, lit := v }
  | .divnWide a b (.long v) => some { l := 3, op := 0x07, a, b, lit := v }
  | .rem a b c => some { l := 0, op := 0x08, a, b, c }
  | .remWide a b (.ext c imm) => some { l := 2, op := 0x08, a, b, c, imm }
  | .remWide a b (.lit v) => some { l := 1, op := 0x08, a, b, lit := v }
  | .remWide a b (.long v) => some { l := 3, op := 0x08, a, b, lit := v }
  | .remn a b c => some { l := 0, op := 0x09, a, b, c }
  | .remnWide a b (.ext c imm) => some { l := 2, op := 0x09, a, b, c, imm }
  | .remnWide a b (.lit v) => some { l := 1, op := 0x09, a, b, lit := v }
  | .remnWide a b (.long v) => some { l := 3, op := 0x09, a, b, lit := v }
  | .and a b c => some { l := 0, op := 0x0A, a, b, c }
  | .andWide a b (.ext c imm) => some { l := 2, op := 0x0A, a, b, c, imm }
  | .andWide a b (.lit v) => some { l := 1, op := 0x0A, a, b, lit := v }
  | .andWide a b (.long v) => some { l := 3, op := 0x0A, a, b, lit := v }
  | .or a b c => some { l := 0, op := 0x0B, a, b, c }
  | .orWide a b (.ext c imm) => some { l := 2, op := 0x0B, a, b, c, imm }
  | .orWide a b (.lit v) => some { l := 1, op := 0x0B, a, b, lit := v }
  | .orWide a b (.long v) => some { l := 3, op := 0x0B, a, b, lit := v }
  | .xor a b c => some { l := 0, op := 0x0C, a, b, c }
  | .xorWide a b (.ext c imm) => some { l := 2, op := 0x0C, a, b, c, imm }
  | .xorWide a b (.lit v) => some { l := 1, op := 0x0C, a, b, lit := v }
  | .xorWide a b (.long v) => some { l := 3, op := 0x0C, a, b, lit := v }
  | .shl a b c => some { l := 0, op := 0x0D, a, b, c }
  | .shlWide a b (.ext c imm) => some { l := 2, op := 0x0D, a, b, c, imm }
  | .shlWide a b (.lit v) => some { l := 1, op := 0x0D, a, b, lit := v }
  | .shlWide a b (.long v) => some { l := 3, op := 0x0D, a, b, lit := v }
  | .shr a b c => some { l := 0, op := 0x0E, a, b, c }
  | .shrWide a b (.ext c imm) => some { l := 2, op := 0x0E, a, b, c, imm }
  | .shrWide a b (.lit v) => some { l := 1, op := 0x0E, a, b, lit := v }
  | .shrWide a b (.long v) => some { l := 3, op := 0x0E, a, b, lit := v }
  | .sra a b c => some { l := 0, op := 0x0F, a, b, c }
  | .sraWide a b (.ext c imm) => some { l := 2, op := 0x0F, a, b, c, imm }
  | .sraWide a b (.lit v) => some { l := 1, op := 0x0F, a, b, lit := v }
  | .sraWide a b (.long v) => some { l := 3, op := 0x0F, a, b, lit := v }
  | .rotl a b c => some { l := 0, op := 0x10, a, b, c }
  | .rotlWide a b (.ext c imm) => some { l := 2, op := 0x10, a, b, c, imm }
  | .rotlWide a b (.lit v) => some { l := 1, op := 0x10, a, b, lit := v }
  | .rotlWide a b (.long v) => some { l := 3, op := 0x10, a, b, lit := v }
  | .slt a b c => some { l := 0, op := 0x11, a, b, c }
  | .sltWide a b (.ext c imm) => some { l := 2, op := 0x11, a, b, c, imm }
  | .sltWide a b (.lit v) => some { l := 1, op := 0x11, a, b, lit := v }
  | .sltWide a b (.long v) => some { l := 3, op := 0x11, a, b, lit := v }
  | .sltn a b c => some { l := 0, op := 0x12, a, b, c }
  | .sltnWide a b (.ext c imm) => some { l := 2, op := 0x12, a, b, c, imm }
  | .sltnWide a b (.lit v) => some { l := 1, op := 0x12, a, b, lit := v }
  | .sltnWide a b (.long v) => some { l := 3, op := 0x12, a, b, lit := v }
  | .seq a b c => some { l := 0, op := 0x13, a, b, c }
  | .seqWide a b (.ext c imm) => some { l := 2, op := 0x13, a, b, c, imm }
  | .seqWide a b (.lit v) => some { l := 1, op := 0x13, a, b, lit := v }
  | .seqWide a b (.long v) => some { l := 3, op := 0x13, a, b, lit := v }
  | .sne a b c => some { l := 0, op := 0x14, a, b, c }
  | .sneWide a b (.ext c imm) => some { l := 2, op := 0x14, a, b, c, imm }
  | .sneWide a b (.lit v) => some { l := 1, op := 0x14, a, b, lit := v }
  | .sneWide a b (.long v) => some { l := 3, op := 0x14, a, b, lit := v }
  | .min a b c => some { l := 0, op := 0x15, a, b, c }
  | .minWide a b (.ext c imm) => some { l := 2, op := 0x15, a, b, c, imm }
  | .minWide a b (.lit v) => some { l := 1, op := 0x15, a, b, lit := v }
  | .minWide a b (.long v) => some { l := 3, op := 0x15, a, b, lit := v }
  | .max a b c => some { l := 0, op := 0x16, a, b, c }
  | .maxWide a b (.ext c imm) => some { l := 2, op := 0x16, a, b, c, imm }
  | .maxWide a b (.lit v) => some { l := 1, op := 0x16, a, b, lit := v }
  | .maxWide a b (.long v) => some { l := 3, op := 0x16, a, b, lit := v }
  | .minn a b c => some { l := 0, op := 0x17, a, b, c }
  | .minnWide a b (.ext c imm) => some { l := 2, op := 0x17, a, b, c, imm }
  | .minnWide a b (.lit v) => some { l := 1, op := 0x17, a, b, lit := v }
  | .minnWide a b (.long v) => some { l := 3, op := 0x17, a, b, lit := v }
  | .maxn a b c => some { l := 0, op := 0x18, a, b, c }
  | .maxnWide a b (.ext c imm) => some { l := 2, op := 0x18, a, b, c, imm }
  | .maxnWide a b (.lit v) => some { l := 1, op := 0x18, a, b, lit := v }
  | .maxnWide a b (.long v) => some { l := 3, op := 0x18, a, b, lit := v }
  | .clz a b => some { l := 0, op := 0x19, a, b }
  | .clzExt a b w => some { l := 2, op := 0x19, a, b, xfn := w.code }
  | .ctz a b => some { l := 0, op := 0x1A, a, b }
  | .ctzExt a b w => some { l := 2, op := 0x1A, a, b, xfn := w.code }
  | .popc a b => some { l := 0, op := 0x1B, a, b }
  | .popcExt a b w => some { l := 2, op := 0x1B, a, b, xfn := w.code }
  | .bswap a b => some { l := 0, op := 0x1C, a, b }
  | .bswapExt a b w => some { l := 2, op := 0x1C, a, b, xfn := w.code }
  | .qadd a b c => some { l := 0, op := 0x20, a, b, c }
  | .qaddWide a b (.ext c imm) => some { l := 2, op := 0x20, a, b, c, imm }
  | .qaddWide a b (.lit v) => some { l := 1, op := 0x20, a, b, lit := v }
  | .qaddWide a b (.long v) => some { l := 3, op := 0x20, a, b, lit := v }
  | .qsub a b c => some { l := 0, op := 0x21, a, b, c }
  | .qsubWide a b (.ext c imm) => some { l := 2, op := 0x21, a, b, c, imm }
  | .qsubWide a b (.lit v) => some { l := 1, op := 0x21, a, b, lit := v }
  | .qsubWide a b (.long v) => some { l := 3, op := 0x21, a, b, lit := v }
  | .qmul a b c => some { l := 0, op := 0x22, a, b, c }
  | .qmulWide a b (.ext c imm) => some { l := 2, op := 0x22, a, b, c, imm }
  | .qmulWide a b (.lit v) => some { l := 1, op := 0x22, a, b, lit := v }
  | .qmulWide a b (.long v) => some { l := 3, op := 0x22, a, b, lit := v }
  | .qshl a b c => some { l := 0, op := 0x23, a, b, c }
  | .qshlWide a b (.ext c imm) => some { l := 2, op := 0x23, a, b, c, imm }
  | .qshlWide a b (.lit v) => some { l := 1, op := 0x23, a, b, lit := v }
  | .qshlWide a b (.long v) => some { l := 3, op := 0x23, a, b, lit := v }
  | .qshr a b c => some { l := 0, op := 0x24, a, b, c }
  | .qshrWide a b (.ext c imm) => some { l := 2, op := 0x24, a, b, c, imm }
  | .qshrWide a b (.lit v) => some { l := 1, op := 0x24, a, b, lit := v }
  | .qshrWide a b (.long v) => some { l := 3, op := 0x24, a, b, lit := v }
  | .kmov a b => some { l := 0, op := 0x28, a, b }
  | .kmovExt a b => some { l := 2, op := 0x28, a, b }
  | .kstep a b c => some { l := 0, op := 0x29, a, b, c }
  | .kstepExt a b c imm => some { l := 2, op := 0x29, a, b, c, imm }
  | .kplace a b c => some { l := 0, op := 0x2A, a, b, c }
  | .kplaceExt a b c imm => some { l := 2, op := 0x2A, a, b, c, imm }
  | .kfit a b c => some { l := 0, op := 0x2B, a, b, c }
  | .kfitExt a b c imm => some { l := 2, op := 0x2B, a, b, c, imm }
  | .kcut a b c => some { l := 0, op := 0x2C, a, b, c }
  | .kcutExt a b c imm => some { l := 2, op := 0x2C, a, b, c, imm }
  | .kmask a b c => some { l := 0, op := 0x2D, a, b, c }
  | .kmaskExt a b c imm => some { l := 2, op := 0x2D, a, b, c, imm }
  | .klock a b => some { l := 0, op := 0x2E, a, b }
  | .klockExt a b => some { l := 2, op := 0x2E, a, b }
  | .kopen a b c => some { l := 0, op := 0x2F, a, b, c }
  | .kopenExt a b c => some { l := 2, op := 0x2F, a, b, c }
  | .kcur a b => some { l := 0, op := 0x30, a, b }
  | .kbase a b => some { l := 0, op := 0x31, a, b }
  | .ktop a b => some { l := 0, op := 0x32, a, b }
  | .klen a b => some { l := 0, op := 0x33, a, b }
  | .kperm a b => some { l := 0, op := 0x34, a, b }
  | .ktag a b => some { l := 0, op := 0x35, a, b }
  | .kinside a b c => some { l := 0, op := 0x36, a, b, c }
  | .kplain a b => some { l := 0, op := 0x37, a, b }
  | .j off => some { l := 0, op := 0x40, b := jmpB off, c := jmpC off, f := jmpF off }
  | .jExt off => some { l := 2, op := 0x40, imm := off }
  | .jal a off => some { l := 0, op := 0x41, a, b := jmpB off, c := jmpC off, f := jmpF off }
  | .jalExt a off => some { l := 2, op := 0x41, a, imm := off }
  | .jr b => some { l := 0, op := 0x42, b }
  | .jalr a b => some { l := 0, op := 0x43, a, b }
  | .ret b => some { l := 0, op := 0x44, b }
  | .beq a b off => some { l := 0, op := 0x45, a, b, c := brC off, f := brF off }
  | .beqExt a b off => some { l := 2, op := 0x45, a, b, imm := off }
  | .bne a b off => some { l := 0, op := 0x46, a, b, c := brC off, f := brF off }
  | .bneExt a b off => some { l := 2, op := 0x46, a, b, imm := off }
  | .blt a b off => some { l := 0, op := 0x47, a, b, c := brC off, f := brF off }
  | .bltExt a b off => some { l := 2, op := 0x47, a, b, imm := off }
  | .bge a b off => some { l := 0, op := 0x48, a, b, c := brC off, f := brF off }
  | .bgeExt a b off => some { l := 2, op := 0x48, a, b, imm := off }
  | .bltn a b off => some { l := 0, op := 0x49, a, b, c := brC off, f := brF off }
  | .bltnExt a b off => some { l := 2, op := 0x49, a, b, imm := off }
  | .bgen a b off => some { l := 0, op := 0x4A, a, b, c := brC off, f := brF off }
  | .bgenExt a b off => some { l := 2, op := 0x4A, a, b, imm := off }
  | .bm m cond off => some { l := 2, op := 0x4B, a := m, f := cond.code, imm := off }
  | .kenter a b => some { l := 0, op := 0x4C, a, b }
  | .ctxSave d a b c evict => some { l := 2, op := 0x4D, d, a, b, c, xfn := bitXfn evict }
  | .ctxRest d a b c => some { l := 2, op := 0x4E, d, a, b, c }
  | .eret b => some { l := 0, op := 0x4F, b }
  | .start a b c pin => some { l := 2, op := 0x50, a, b, c, xfn := pin.code }
  | .join a b => some { l := 0, op := 0x51, a, b }
  | .halt a => some { l := 0, op := 0x52, a }
  | .spawn a b c d imm => some { l := 2, op := 0x53, a, b, c, d, imm }
  | .yield => some { l := 0, op := 0x54 }
  | .bar sc => some { l := 2, op := 0x55, sc := sc.code }
  | .semSig sem => some { l := 0, op := 0x56, a := sem }
  | .semWait sem => some { l := 0, op := 0x57, a := sem }
  | .fwdPut a quad => some { l := 0, op := 0x58, a, f := bitF quad }
  | .fwdGet a => some { l := 0, op := 0x59, a }
  | .trap n => some { l := 0, op := 0x5A, f := n }
  | .trapExt n => some { l := 2, op := 0x5A, imm := n }
  | .srd a sr => some { l := 0, op := 0x5B, a, b := sr }
  | .swr sr b => some { l := 0, op := 0x5C, a := sr, b }
  | .ifence => some { l := 0, op := 0x5D }
  | .hret b => some { l := 0, op := 0x5E, b }
  | .vadd a b c fmt => some { l := 0, op := 0x60, a, b, c, f := fmt.code }
  | .vaddExt a b c sat x =>
    some { l := 2, op := 0x60, a, b, c, f := bitF sat, fmt := x.fmt.code, rnd := rndCode x.rnd, mn := x.mask.negCode, ms := x.mask.reg, ix := x.index.ix, e := x.index.disp }
  | .vsub a b c fmt => some { l := 0, op := 0x61, a, b, c, f := fmt.code }
  | .vsubExt a b c sat x =>
    some { l := 2, op := 0x61, a, b, c, f := bitF sat, fmt := x.fmt.code, rnd := rndCode x.rnd, mn := x.mask.negCode, ms := x.mask.reg, ix := x.index.ix, e := x.index.disp }
  | .vmul a b c fmt => some { l := 0, op := 0x62, a, b, c, f := fmt.code }
  | .vmulExt a b c sat x =>
    some { l := 2, op := 0x62, a, b, c, f := bitF sat, fmt := x.fmt.code, rnd := rndCode x.rnd, mn := x.mask.negCode, ms := x.mask.reg, ix := x.index.ix, e := x.index.disp }
  | .vfma a b c fmt => some { l := 0, op := 0x63, a, b, c, f := fmt.code }
  | .vfmaExt a b c x =>
    some { l := 2, op := 0x63, a, b, c, fmt := x.fmt.code, rnd := rndCode x.rnd, mn := x.mask.negCode, ms := x.mask.reg, ix := x.index.ix, e := x.index.disp }
  | .vmin a b c fmt => some { l := 0, op := 0x64, a, b, c, f := fmt.code }
  | .vminExt a b c x =>
    some { l := 2, op := 0x64, a, b, c, fmt := x.fmt.code, rnd := rndCode x.rnd, mn := x.mask.negCode, ms := x.mask.reg, ix := x.index.ix, e := x.index.disp }
  | .vmax a b c fmt => some { l := 0, op := 0x65, a, b, c, f := fmt.code }
  | .vmaxExt a b c x =>
    some { l := 2, op := 0x65, a, b, c, fmt := x.fmt.code, rnd := rndCode x.rnd, mn := x.mask.negCode, ms := x.mask.reg, ix := x.index.ix, e := x.index.disp }
  | .vabs a b fmt => some { l := 0, op := 0x66, a, b, f := fmt.code }
  | .vabsExt a b sat x =>
    some { l := 2, op := 0x66, a, b, f := bitF sat, fmt := x.fmt.code, rnd := rndCode x.rnd, mn := x.mask.negCode, ms := x.mask.reg, ix := x.index.ix, e := x.index.disp }
  | .vneg a b fmt => some { l := 0, op := 0x67, a, b, f := fmt.code }
  | .vnegExt a b sat x =>
    some { l := 2, op := 0x67, a, b, f := bitF sat, fmt := x.fmt.code, rnd := rndCode x.rnd, mn := x.mask.negCode, ms := x.mask.reg, ix := x.index.ix, e := x.index.disp }
  | .vdiv a b c fmt => some { l := 0, op := 0x68, a, b, c, f := fmt.code }
  | .vdivExt a b c x =>
    some { l := 2, op := 0x68, a, b, c, fmt := x.fmt.code, rnd := rndCode x.rnd, mn := x.mask.negCode, ms := x.mask.reg, ix := x.index.ix, e := x.index.disp }
  | .vsqrt a b fmt => some { l := 0, op := 0x69, a, b, f := fmt.code }
  | .vsqrtExt a b x =>
    some { l := 2, op := 0x69, a, b, fmt := x.fmt.code, rnd := rndCode x.rnd, mn := x.mask.negCode, ms := x.mask.reg, ix := x.index.ix, e := x.index.disp }
  | .vrsqrt a b fmt => some { l := 0, op := 0x6A, a, b, f := fmt.code }
  | .vrsqrtExt a b x =>
    some { l := 2, op := 0x6A, a, b, fmt := x.fmt.code, rnd := rndCode x.rnd, mn := x.mask.negCode, ms := x.mask.reg, ix := x.index.ix, e := x.index.disp }
  | .vexp a b fmt => some { l := 0, op := 0x6B, a, b, f := fmt.code }
  | .vexpExt a b x =>
    some { l := 2, op := 0x6B, a, b, fmt := x.fmt.code, rnd := rndCode x.rnd, mn := x.mask.negCode, ms := x.mask.reg, ix := x.index.ix, e := x.index.disp }
  | .vlog a b fmt => some { l := 0, op := 0x6C, a, b, f := fmt.code }
  | .vlogExt a b x =>
    some { l := 2, op := 0x6C, a, b, fmt := x.fmt.code, rnd := rndCode x.rnd, mn := x.mask.negCode, ms := x.mask.reg, ix := x.index.ix, e := x.index.disp }
  | .vsig a b fmt => some { l := 0, op := 0x6D, a, b, f := fmt.code }
  | .vsigExt a b x =>
    some { l := 2, op := 0x6D, a, b, fmt := x.fmt.code, rnd := rndCode x.rnd, mn := x.mask.negCode, ms := x.mask.reg, ix := x.index.ix, e := x.index.disp }
  | .vtanh a b fmt => some { l := 0, op := 0x6E, a, b, f := fmt.code }
  | .vtanhExt a b x =>
    some { l := 2, op := 0x6E, a, b, fmt := x.fmt.code, rnd := rndCode x.rnd, mn := x.mask.negCode, ms := x.mask.reg, ix := x.index.ix, e := x.index.disp }
  | .vaddc a b => some { l := 0, op := 0x6F, a, b }
  | .vaddcExt a b x =>
    some { l := 2, op := 0x6F, a, b, fmt := x.fmt.code, rnd := rndCode x.rnd, mn := x.mask.negCode, ms := x.mask.reg, ix := x.index.ix, e := x.index.disp }
  | .vand a b c fmt => some { l := 0, op := 0x70, a, b, c, f := fmt.code }
  | .vandExt a b c x =>
    some { l := 2, op := 0x70, a, b, c, fmt := x.fmt.code, rnd := rndCode x.rnd, mn := x.mask.negCode, ms := x.mask.reg, ix := x.index.ix, e := x.index.disp }
  | .vor a b c fmt => some { l := 0, op := 0x71, a, b, c, f := fmt.code }
  | .vorExt a b c x =>
    some { l := 2, op := 0x71, a, b, c, fmt := x.fmt.code, rnd := rndCode x.rnd, mn := x.mask.negCode, ms := x.mask.reg, ix := x.index.ix, e := x.index.disp }
  | .vxor a b c fmt => some { l := 0, op := 0x72, a, b, c, f := fmt.code }
  | .vxorExt a b c x =>
    some { l := 2, op := 0x72, a, b, c, fmt := x.fmt.code, rnd := rndCode x.rnd, mn := x.mask.negCode, ms := x.mask.reg, ix := x.index.ix, e := x.index.disp }
  | .vshl a b c fmt => some { l := 0, op := 0x73, a, b, c, f := fmt.code }
  | .vshlExt a b c x =>
    some { l := 2, op := 0x73, a, b, c, fmt := x.fmt.code, rnd := rndCode x.rnd, mn := x.mask.negCode, ms := x.mask.reg, ix := x.index.ix, e := x.index.disp }
  | .vshr a b c fmt => some { l := 0, op := 0x74, a, b, c, f := fmt.code }
  | .vshrExt a b c x =>
    some { l := 2, op := 0x74, a, b, c, fmt := x.fmt.code, rnd := rndCode x.rnd, mn := x.mask.negCode, ms := x.mask.reg, ix := x.index.ix, e := x.index.disp }
  | .vsra a b c fmt => some { l := 0, op := 0x75, a, b, c, f := fmt.code }
  | .vsraExt a b c x =>
    some { l := 2, op := 0x75, a, b, c, fmt := x.fmt.code, rnd := rndCode x.rnd, mn := x.mask.negCode, ms := x.mask.reg, ix := x.index.ix, e := x.index.disp }
  | .vsel a b c fmt => some { l := 0, op := 0x76, a, b, c, f := fmt.code }
  | .vselExt a b c x =>
    some { l := 2, op := 0x76, a, b, c, fmt := x.fmt.code, rnd := rndCode x.rnd, mn := x.mask.negCode, ms := x.mask.reg, ix := x.index.ix, e := x.index.disp }
  | .vmov a b fmt => some { l := 0, op := 0x77, a, b, f := fmt.code }
  | .vmovExt a b x =>
    some { l := 2, op := 0x77, a, b, fmt := x.fmt.code, rnd := rndCode x.rnd, mn := x.mask.negCode, ms := x.mask.reg, ix := x.index.ix, e := x.index.disp }
  | .vdot a b c fmt => some { l := 0, op := 0x78, a, b, c, f := fmt.code }
  | .vdotExt a b c x =>
    some { l := 2, op := 0x78, a, b, c, fmt := x.fmt.code, rnd := rndCode x.rnd, mn := x.mask.negCode, ms := x.mask.reg, ix := x.index.ix, e := x.index.disp }
  | .vcvt a b part src x =>
    some { l := 2, op := 0x79, a, b, f := part, xfn := src.xfnCode, fmt := x.fmt.code, rnd := rndCode x.rnd, mn := x.mask.negCode, ms := x.mask.reg, ix := x.index.ix, e := x.index.disp }
  | .vpack a d b kind part x =>
    some { l := 2, op := 0x7A, a, d, b, f := part, xfn := kind.code, fmt := x.fmt.code, rnd := rndCode x.rnd, mn := x.mask.negCode, ms := x.mask.reg, ix := x.index.ix, e := x.index.disp }
  | .vunpk a d b kind part x =>
    some { l := 2, op := 0x7B, a, d, b, f := part, xfn := kind.code, fmt := x.fmt.code, rnd := rndCode x.rnd, mn := x.mask.negCode, ms := x.mask.reg, ix := x.index.ix, e := x.index.disp }
  | .vcmp a b c cond x =>
    some { l := 2, op := 0x7C, a, b, c, f := cond.code, fmt := x.fmt.code, rnd := rndCode x.rnd, mn := x.mask.negCode, ms := x.mask.reg, ix := x.index.ix, e := x.index.disp }
  | .mskl a b c op => some { l := 2, op := 0x7D, a, b, c, f := op.code }
  | .mskp a b op => some { l := 2, op := 0x7E, a, b, f := op.code }
  | .msks a lit => some { l := 1, op := 0x7F, a, lit }
  | .msksExt a lit op => some { l := 3, op := 0x7F, a, lit, f := op.code }
  | .vred a b op x =>
    some { l := 2, op := 0x80, a, b, f := op.code, fmt := x.fmt.code, rnd := rndCode x.rnd, mn := x.mask.negCode, ms := x.mask.reg, ix := x.index.ix, e := x.index.disp }
  | .vscan a b c d op x =>
    some { l := 2, op := 0x81, a, b, c, d, f := op.code, fmt := x.fmt.code, rnd := rndCode x.rnd, mn := x.mask.negCode, ms := x.mask.reg, ix := x.index.ix, e := x.index.disp }
  | .vbcast a b c fmt => some { l := 0, op := 0x82, a, b, c, f := fmt.code }
  | .vbcastExt a b c imm x =>
    some { l := 2, op := 0x82, a, b, c, imm, fmt := x.fmt.code, rnd := rndCode x.rnd, mn := x.mask.negCode, ms := x.mask.reg, ix := x.index.ix, e := x.index.disp }
  | .vperm a b c fmt => some { l := 0, op := 0x83, a, b, c, f := fmt.code }
  | .vpermExt a b c x =>
    some { l := 2, op := 0x83, a, b, c, fmt := x.fmt.code, rnd := rndCode x.rnd, mn := x.mask.negCode, ms := x.mask.reg, ix := x.index.ix, e := x.index.disp }
  | .vsort a b fmt => some { l := 0, op := 0x84, a, b, f := fmt.code }
  | .vsortExt a b desc x =>
    some { l := 2, op := 0x84, a, b, f := bitF desc, fmt := x.fmt.code, rnd := rndCode x.rnd, mn := x.mask.negCode, ms := x.mask.reg, ix := x.index.ix, e := x.index.disp }
  | .vmerge a b c fmt => some { l := 0, op := 0x85, a, b, c, f := fmt.code }
  | .vmergeExt a b c d desc x =>
    some { l := 2, op := 0x85, a, b, c, d, f := bitF desc, fmt := x.fmt.code, rnd := rndCode x.rnd, mn := x.mask.negCode, ms := x.mask.reg, ix := x.index.ix, e := x.index.disp }
  | .vidx a b fmt => some { l := 0, op := 0x86, a, b, f := fmt.code }
  | .vidxExt a b imm x =>
    some { l := 2, op := 0x86, a, b, imm, fmt := x.fmt.code, rnd := rndCode x.rnd, mn := x.mask.negCode, ms := x.mask.reg, ix := x.index.ix, e := x.index.disp }
  | .vsplat a c fmt => some { l := 0, op := 0x87, a, c, f := fmt.code }
  | .vsplatWide a (.ext c imm x) =>
    some { l := 2, op := 0x87, a, c, imm, fmt := x.fmt.code, rnd := rndCode x.rnd, mn := x.mask.negCode, ms := x.mask.reg, ix := x.index.ix, e := x.index.disp }
  | .vsplatWide a (.lit v fmt) => some { l := 1, op := 0x87, a, f := fmt.code, lit := v }
  | .vsplatWide a (.long v x) =>
    some { l := 3, op := 0x87, a, lit := v, fmt := x.fmt.code, rnd := rndCode x.rnd, mn := x.mask.negCode, ms := x.mask.reg, ix := x.index.ix, e := x.index.disp }
  | .vrand a fmt => some { l := 0, op := 0x88, a, f := fmt.code }
  | .vrandExt a x =>
    some { l := 2, op := 0x88, a, fmt := x.fmt.code, rnd := rndCode x.rnd, mn := x.mask.negCode, ms := x.mask.reg, ix := x.index.ix, e := x.index.disp }
  | .vkeep a b c fmt => some { l := 0, op := 0x89, a, b, c, f := fmt.code }
  | .vkeepExt a b c x =>
    some { l := 2, op := 0x89, a, b, c, fmt := x.fmt.code, rnd := rndCode x.rnd, mn := x.mask.negCode, ms := x.mask.reg, ix := x.index.ix, e := x.index.disp }
  | .vphx a b c fmt => some { l := 0, op := 0x8A, a, b, c, f := fmt.code }
  | .vphxExt a b c word imm x =>
    some { l := 2, op := 0x8A, a, b, c, imm, f := word4 word, fmt := x.fmt.code, rnd := rndCode x.rnd, mn := x.mask.negCode, ms := x.mask.reg, ix := x.index.ix, e := x.index.disp }
  | .vrope a b c => some { l := 0, op := 0x8B, a, b, c }
  | .vropeExt a b c d half x =>
    some { l := 2, op := 0x8B, a, b, c, d, f := bitF half, fmt := x.fmt.code, rnd := rndCode x.rnd, mn := x.mask.negCode, ms := x.mask.reg, ix := x.index.ix, e := x.index.disp }
  | .vins a b c fmt => some { l := 0, op := 0x8C, a, b, c, f := fmt.code }
  | .vinsExt a b c imm x =>
    some { l := 2, op := 0x8C, a, b, c, imm, fmt := x.fmt.code, rnd := rndCode x.rnd, mn := x.mask.negCode, ms := x.mask.reg, ix := x.index.ix, e := x.index.disp }
  | .vext a b c fmt => some { l := 0, op := 0x8D, a, b, c, f := fmt.code }
  | .vextExt a b c imm x =>
    some { l := 2, op := 0x8D, a, b, c, imm, fmt := x.fmt.code, rnd := rndCode x.rnd, mn := x.mask.negCode, ms := x.mask.reg, ix := x.index.ix, e := x.index.disp }
  | .madd a b c => some { l := 0, op := 0x90, a, b, c, f := 12 }
  | .maddExt a b c d x =>
    some { l := 2, op := 0x90, a, b, c, d, fmt := x.fmt.code, rnd := rndCode x.rnd, mn := x.mask.negCode, ms := x.mask.reg, ix := x.index.ix, e := x.index.disp }
  | .msub a b c => some { l := 0, op := 0x91, a, b, c, f := 12 }
  | .msubExt a b c d x =>
    some { l := 2, op := 0x91, a, b, c, d, fmt := x.fmt.code, rnd := rndCode x.rnd, mn := x.mask.negCode, ms := x.mask.reg, ix := x.index.ix, e := x.index.disp }
  | .mmul a b c => some { l := 0, op := 0x92, a, b, c, f := 12 }
  | .mmulExt a b c x =>
    some { l := 2, op := 0x92, a, b, c, fmt := x.fmt.code, rnd := rndCode x.rnd, mn := x.mask.negCode, ms := x.mask.reg, ix := x.index.ix, e := x.index.disp }
  | .mscl a b c => some { l := 0, op := 0x93, a, b, c, f := 12 }
  | .msclExt a b c x =>
    some { l := 2, op := 0x93, a, b, c, fmt := x.fmt.code, rnd := rndCode x.rnd, mn := x.mask.negCode, ms := x.mask.reg, ix := x.index.ix, e := x.index.disp }
  | .mexp a b => some { l := 0, op := 0x94, a, b, f := 12 }
  | .mexpExt a b x =>
    some { l := 2, op := 0x94, a, b, fmt := x.fmt.code, rnd := rndCode x.rnd, mn := x.mask.negCode, ms := x.mask.reg, ix := x.index.ix, e := x.index.disp }
  | .mrelu a b => some { l := 0, op := 0x95, a, b, f := 12 }
  | .mreluExt a b x =>
    some { l := 2, op := 0x95, a, b, fmt := x.fmt.code, rnd := rndCode x.rnd, mn := x.mask.negCode, ms := x.mask.reg, ix := x.index.ix, e := x.index.disp }
  | .msig a b => some { l := 0, op := 0x96, a, b, f := 12 }
  | .msigExt a b x =>
    some { l := 2, op := 0x96, a, b, fmt := x.fmt.code, rnd := rndCode x.rnd, mn := x.mask.negCode, ms := x.mask.reg, ix := x.index.ix, e := x.index.disp }
  | .mcoll a b c form half x =>
    some { l := 2, op := 0x97, a, b, c, f := form.code, xfn := bitXfn half, fmt := x.fmt.code, rnd := rndCode x.rnd, mn := x.mask.negCode, ms := x.mask.reg, ix := x.index.ix, e := x.index.disp }
  | .mfrom a b c => some { l := 0, op := 0x98, a, b, c }
  | .mfromExt a b c x =>
    some { l := 2, op := 0x98, a, b, c, fmt := x.fmt.code, rnd := rndCode x.rnd, mn := x.mask.negCode, ms := x.mask.reg, ix := x.index.ix, e := x.index.disp }
  | .mmov a b => some { l := 0, op := 0x99, a, b, f := 12 }
  | .mmovExt a b x =>
    some { l := 2, op := 0x99, a, b, fmt := x.fmt.code, rnd := rndCode x.rnd, mn := x.mask.negCode, ms := x.mask.reg, ix := x.index.ix, e := x.index.disp }
  | .ld a b kind off => some { l := 0, op := 0xA0, a, b, c := kind.codeC, f := off }
  | .ldExt a b kind x =>
    some { l := 2, op := 0xA0, a, b, f := kind.codeF, c := x.index, imm := x.imm, sc := x.scope.code, ord := x.order.code }
  | .st a b kind off => some { l := 0, op := 0xA1, a, b, c := kind.codeC, f := off }
  | .stExt a b kind x =>
    some { l := 2, op := 0xA1, a, b, f := kind.codeF, c := x.index, imm := x.imm, sc := x.scope.code, ord := x.order.code }
  | .cld a b off => some { l := 0, op := 0xA2, a, b, f := off }
  | .cldExt a b x =>
    some { l := 2, op := 0xA2, a, b, c := x.index, imm := x.imm, sc := x.scope.code, ord := x.order.code }
  | .cst a b off => some { l := 0, op := 0xA3, a, b, f := off }
  | .cstExt a b x =>
    some { l := 2, op := 0xA3, a, b, c := x.index, imm := x.imm, sc := x.scope.code, ord := x.order.code }
  | .vld a b off => some { l := 0, op := 0xA4, a, b, f := off }
  | .vldExt a b m x =>
    some { l := 2, op := 0xA4, a, b, mn := m.negCode, ms := m.reg, c := x.index, imm := x.imm, sc := x.scope.code, ord := x.order.code }
  | .vst a b off => some { l := 0, op := 0xA5, a, b, f := off }
  | .vstExt a b m x =>
    some { l := 2, op := 0xA5, a, b, mn := m.negCode, ms := m.reg, c := x.index, imm := x.imm, sc := x.scope.code, ord := x.order.code }
  | .vgath a b m x =>
    some { l := 2, op := 0xA6, a, b, mn := m.negCode, ms := m.reg, c := x.index, imm := x.imm, sc := x.scope.code, ord := x.order.code }
  | .vscat a b m x =>
    some { l := 2, op := 0xA7, a, b, mn := m.negCode, ms := m.reg, c := x.index, imm := x.imm, sc := x.scope.code, ord := x.order.code }
  | .eld a b off => some { l := 0, op := 0xA8, a, b, f := off }
  | .eldExt a b m x =>
    some { l := 2, op := 0xA8, a, b, mn := m.negCode, ms := m.reg, c := x.index, imm := x.imm, sc := x.scope.code, ord := x.order.code }
  | .est a b off => some { l := 0, op := 0xA9, a, b, f := off }
  | .estExt a b m x =>
    some { l := 2, op := 0xA9, a, b, mn := m.negCode, ms := m.reg, c := x.index, imm := x.imm, sc := x.scope.code, ord := x.order.code }
  | .amo a b d op narrow x =>
    some { l := 2, op := 0xAA, a, b, d, xfn := amoXfn op narrow, c := x.index, imm := x.imm, sc := x.scope.code, ord := x.order.code }
  | .cas a b d narrow x =>
    some { l := 2, op := 0xAB, a, b, d, xfn := casXfn narrow, c := x.index, imm := x.imm, sc := x.scope.code, ord := x.order.code }
  | .ccas a b d x =>
    some { l := 2, op := 0xAC, a, b, d, c := x.index, imm := x.imm, sc := x.scope.code, ord := x.order.code }
  | .fence sc => some { l := 2, op := 0xAD, sc := sc.code }
  | .stashMap w b off len => some { l := 2, op := 0xB0, a := w, b, imm := stashImm off len }
  | .stashUnmap w => some { l := 0, op := 0xB1, a := w }
  | .stashUnmapExt => some { l := 2, op := 0xB1, xfn := 1 }
  | .stashWb w => some { l := 0, op := 0xB2, a := w }
  | .stashWbExt => some { l := 2, op := 0xB2, xfn := 1 }
  | .stashAp a b c => some { l := 2, op := 0xB3, a, b, c }
  | .copy a b c ch land => some { l := 2, op := 0xB4, a, b, c, xfn := chXfn ch land }
  | .copyWait ch => some { l := 0, op := 0xB5, a := ch }
  | .copyWaitExt d ch b imm => some { l := 2, op := 0xB5, d, a := ch, b, imm }
  | .valloc a d c imm => some { l := 2, op := 0xB8, a, d, c, imm }
  | .vdup a b => some { l := 0, op := 0xB9, a, b }
  | .vdupExt a b => some { l := 2, op := 0xB9, a, b }
  | .vsplit a b c => some { l := 0, op := 0xBA, a, b, c }
  | .vsplitExt a b c imm => some { l := 2, op := 0xBA, a, b, c, imm }
  | .vnarrow a b c => some { l := 0, op := 0xBB, a, b, c }
  | .vnarrowExt a b c imm => some { l := 2, op := 0xBB, a, b, c, imm }
  | .vdrop b => some { l := 0, op := 0xBC, b }
  | .vdropExt b => some { l := 2, op := 0xBC, b }
  | .vpark k b => some { l := 0, op := 0xBD, a := k, b }
  | .vparkExt k b => some { l := 2, op := 0xBD, a := k, b }
  | .vtake a k => some { l := 0, op := 0xBE, a, b := k }
  | .vtakeExt a k => some { l := 2, op := 0xBE, a, b := k }
  | .pmLook a b => some { l := 2, op := 0xC0, a, b }
  | .pmFill b c i => some { l := 2, op := 0xC1, b, c, imm := descImm i }
  | .kvApp a b c d e n => some { l := 2, op := 0xC2, a, b, c, d, e, imm := descImm n }
  | .cairnLook a b c d => some { l := 2, op := 0xC4, a, b, c, d }
  | .cairnIns a b c d => some { l := 2, op := 0xC5, a, b, c, d }
  | .cairnRel a c d => some { l := 2, op := 0xC6, a, c, d }
  | .admRsv a b c d => some { l := 2, op := 0xC7, a, b, c, d }
  | .admEnd a b => some { l := 2, op := 0xC8, a, b }
  | .msgSend a b c d ord => some { l := 2, op := 0xCA, a, b, c, d, ord := ord.code }
  | .mig a b => some { l := 2, op := 0xCB, a, b }
  | .migRet a => some { l := 2, op := 0xCC, a }
  | .mxLdw n b c => some { l := 2, op := 0xD0, b, c, imm := descImm n }
  | .mxSwap => some { l := 0, op := 0xD1 }
  | .mxSwapExt n ch waits => some { l := 2, op := 0xD1, xfn := chXfn ch waits, imm := descImm n }
  | .mxStr a b c n z mo blk =>
    some { l := 2, op := 0xD2, a, b, c, imm := descImm n, f := zmoF z mo, xfn := blkXfn blk }
  | .mxGstr a b n m p z blk =>
    some { l := 2, op := 0xD3, a, b, imm := desc3Imm n m p, f := bitF z, xfn := blkXfn blk }
  | .accRd a b c mo => some { l := 2, op := 0xD4, a, b, c, f := moF mo }
  | .accWr a b c mo => some { l := 2, op := 0xD5, a, b, c, f := moF mo }
  | .accClr a => some { l := 0, op := 0xD6, a }
  | .accClrExt a mask => some { l := 2, op := 0xD6, a, xfn := maskXfn mask }
  | .epLoad a b => some { l := 2, op := 0xD8, a, b }
  | .epRun a b c d n mo rnd =>
    some { l := 2, op := 0xD9, a, b, c, d, imm := descImm n, f := moF mo, rnd := rndCode rnd }
  | .epWait a => some { l := 0, op := 0xDA, a }
  | .smpPen a b c d n => some { l := 2, op := 0xE0, a, b, c, d, imm := descImm n }
  | .smpTemp a c n => some { l := 2, op := 0xE1, a, c, imm := descImm n }
  | .smpGum a b d n => some { l := 2, op := 0xE2, a, b, d, imm := descImm n }
  | .smpTop a d n sc => some { l := 2, op := 0xE3, a, d, imm := descImm n, sc := sc.code }
  | .smpTopp a b c d n sc => some { l := 2, op := 0xE4, a, b, c, d, imm := descImm n, sc := sc.code }
  | .smpStep a b c => some { l := 2, op := 0xE5, a, b, c }
  | .smpDraft a b c => some { l := 2, op := 0xE6, a, b, c }
  | .smpVer a b c => some { l := 2, op := 0xE7, a, b, c }
  | .sumRed a b op fmt sc => some { l := 2, op := 0xE8, a, b, f := op.code, fmt := fmt.code, sc := sc.code }
  | .sumBc a b sc => some { l := 2, op := 0xE9, a, b, sc := sc.code }
  | .tokMap a b k => some { l := 2, op := 0xEA, a, b, imm := mapImm k }
  | .tokBind a b c => some { l := 2, op := 0xEB, a, b, c }
  | .fetchServe _ => none
  | .operationComplete _ _ => none
  | .barrierComplete _ _ _ _ => none
  | .fwdHoldComplete _ _ => none
  | .launchAdmit _ _ _ => none
  | .teamComplete _ => none
  | .grantRound _ => none
  | .weightRestore _ _ _ => none
  | .sliceBoundary _ _ => none
  | .contextPreempt _ _ => none
  | .spawnArrival _ => none
  | .trapNoticeRun _ => none
  | .completionNotice _ _ => none
  | .messageRun _ => none
  | .copyDelivery _ _ => none
  | .moraineFree _ _ => none
  | .scrub _ => none
  | .coveredAllocation _ _ => none
  | .epilogueRow _ => none
  | .doorbell _ _ _ => none
  | .intakeEntry _ => none
  | .stampRetry _ => none
  | .intakeSlotAssign _ => none
  | .placementExchange _ _ => none
  | .nop _ _ => none
  | .launch _ _ => none
  | .wait _ _ => none
  | .waitSatisfied _ _ => none
  | .signal _ _ => none
  | .queueFence _ _ => none
  | .bind _ _ => none
  | .swap _ _ => none
  | .unbind _ _ => none
  | .bias _ _ => none
  | .sample _ _ => none
  | .domcfg _ _ => none
  | .qcfgWrite _ _ => none
  | .registerWrite _ _ _ => none
  | .eventWrite _ => none
  | .eventReply _ _ => none
  | .intakeWindowWrite _ _ _ => none
  | .segmentWindowAccess _ _ _ _ => none
  | .hostMemAccess _ _ _ => none
  | .shootdownTranslation _ _ _ => none
  | .shootdownRights _ _ => none
  | .shootdownComplete => none
  | .pageMove _ => none
  | .pageIn _ => none
  | .keyCreate _ => none
  | .keyDestroy _ => none
  | .keyQuery _ => none
  | .packageReset _ => none
  | .firmwareUpdate _ _ _ => none
  | .firmwareDieUpdate _ => none
  | .preset _ => none
  | .launchTimeLimit _ => none
  | .functionLevelReset _ => none
  | .meridianInterval _ _ => none
  | .hbmPatrol _ _ => none
  | .linkCrcError _ => none
  | .getVersion => none
  | .getCapabilities => none
  | .negotiateAlgorithms _ => none
  | .getDigests => none
  | .getCertificate _ _ _ => none
  | .challenge _ _ => none
  | .getMeasurements _ => none
  | .keyExchange _ => none
  | .finish _ => none
  | .heartbeat _ => none
  | .keyUpdate _ => none
  | .endSession _ => none
  | .setCertificate _ _ _ => none
  | .setkey _ _ _ => none
  | .genkey _ _ => none
  | .dropkey _ _ => none
  | .hostVisibility _ => none

/-- The base word (R179). -/
def Raw.baseWord (r : Raw) : Nat :=
  r.l.val + 4 * r.op.val + 1024 * r.a.val + 65536 * r.b.val + 4194304 * r.c.val + 268435456 * r.f.val
/-- Extended word 1 (R180). -/
def Raw.extWord1 (r : Raw) : Nat :=
  r.imm.toNat + 16777216 * r.ms.val + 268435456 * r.mn.val + 536870912 * r.sc.val
/-- Extended word 2 (R181). -/
def Raw.extWord2 (r : Raw) : Nat :=
  r.d.val + 64 * r.e.val + 4096 * r.fmt.val + 65536 * r.rnd.val + 524288 * r.ord.val + 2097152 * r.xfn.val +
    1073741824 * r.ix.val

/-- The words of the fields, in ascending address order (R178). -/
def Raw.words (r : Raw) : List Nat :=
  match r.l.val with
  | 0 => [r.baseWord]
  | 1 => [r.baseWord, r.lit.toNat % 4294967296, r.lit.toNat / 4294967296]
  | 2 => [r.baseWord, r.extWord1, r.extWord2]
  | _ => [r.baseWord, r.extWord1, r.extWord2, r.lit.toNat % 4294967296, r.lit.toNat / 4294967296]

/-- The bytes of a list of words (R178). -/
def wordBytes : List Nat → List Byte
  | [] => []
  | w :: ws => bytesOfNat 4 w ++ wordBytes ws

/-- The words of an instruction: none for an event. -/
def encode (i : Instr) : List Nat :=
  match i.toRaw with
  | some r => r.words
  | none => []

/-- The bytes of an instruction in memory. -/
def encodeBytes (i : Instr) : List Byte := wordBytes (encode i)

/-- The first word, which the illegal-instruction trap reports (R253); 0 for an event. -/
def Instr.firstWord (i : Instr) : Nat :=
  match i.toRaw with
  | some r => r.baseWord
  | none => 0

/-- The length of an instruction in bytes (R178); 0 for an event. -/
def Instr.bytes (i : Instr) : Nat :=
  match i.toRaw with
  | some r => classBytes r.l
  | none => 0

end Sys2Proof
end

