-- ==== Sys2Proof/Config.lean ====
section
/-!
DEFINITION. What one package fixes, and the free values: constants without a body, so that no proof can lean on a
value the spec leaves open.
-/

namespace Sys2Proof

/-- The scheduler of the model: which agent moves at a step. Free: the spec fixes no interleaving (R21, R156). -/
opaque Config.nextTurn : Nat → Turn

/-- A free number for the step counter: choices the spec leaves open (R134, R160, R162, R400, R429). -/
opaque Config.choice : Nat → Nat

/-- The key that the trust block drew for its n-th create (R429); it never leaves the block. -/
opaque Config.contextKey : Nat → BitVec 256

/-- The key pair of a key identifier that no owner has set (R458); that of identifier 0 is the device's own (R430). -/
opaque Config.unsetKey : Nat → BitVec 512

/-- Bytes of the sealed image of a core (R425): the firmware fixes its layout, and its key is the supervisor's own. -/
opaque Config.teamImage : Nat → List Byte

/-- Where a draw's uniform value needs 25 bits, its FP32 value is the upper of its two neighbours (R119 states none). -/
opaque Config.uniformUp : BitVec 32 → Bool

/-- An arrival queue holds one entry more than this (R308 gives no size). -/
opaque Config.inboxRoom : Nat

/-- The micro-kernel trap entry of the firmware (R241). -/
opaque Config.trapEntry : Cap
/-- The notice entry of the firmware (R438). -/
opaque Config.noticeEntry : Cap
/-- The firmware's data capability, `c5` of a notice run (R438). -/
opaque Config.noticeData : Cap

/-- A firmware service is installed for a trap cause, in place of the default service (R242). -/
opaque Config.serviceInstalled : Nat → Bool
/-- The header of the code object whose `.text` stands at an address under a generation sets ABI; the device reads no header
(R367, R378, R401). -/
opaque Config.objectAbi : Nat → Nat → Bool
/-- The stash offsets of the queues of the route at an address in an object of a generation, in the order of their `.queue`
lines, which the images follow; no byte of the route holds it (R213). -/
opaque Config.declaredQueues : Nat → Nat → List Nat

/-- Tree nodes that the package has room for (R404 gives no number). -/
opaque Config.treeNodes : Nat

/-- The Alauz certificate chain of slot 0 (R456). -/
opaque Config.deviceChain : List Byte
/-- The device identity key, which never leaves the trust block, and the numbers drawn for its signature of a message (R456). -/
opaque Config.identityKey : Nat
opaque Config.signDraw : List Byte → Nat → Nat
/-- The device's ephemeral key of a session, and the verify data that follow from a requester's share (R456). -/
opaque Config.shareKey : Nat → Nat
opaque Config.sessionMac : Nat → BitVec 768 → BitVec 384
/-- The trust block configuration measured by index 0x01: fuse version and root key digest (R457). -/
opaque Config.fuseDigest : BitVec 384
/-- The digest of an image by its number (R431, R457). -/
opaque Config.imageDigest : Nat → BitVec 384
/-- A key pair drawn by the trust block for an owner identifier (R458). -/
opaque Config.ownerKey : Nat → BitVec 512

/-- The bytes of HBM in the package: device physical addresses from here up name no storage (R1). -/
def Config.hbmBytes : Nat := 1536 * 1073741824

/-- What a byte of memory that nothing has written reads as. The spec gives no contents after power-on: DESIGN CHOICE,
unsafe, log 2. -/
def Config.unwritten : Byte := 0

end Sys2Proof
end

