-- ==== Sys2Proof/Machine/State.lean ====
section
/-!
DEFINITION. The state of the machine: everything the spec gives the package and what it holds of its host, as plain
data. `INVENTORY.md` lists each field with its rule and its reset value.
-/

namespace Sys2Proof.Machine

abbrev VReg := BitVec 2048
abbrev EReg := BitVec 4096

/-! ### Traps, waits and contexts -/

/-- A trap: cause code and `%trapinfo` (R253), and the rights that the access needed, which the supervisor finds by
repeating the checks (R419). -/
structure Trap where
  cause : Nat
  info : Nat
  rights : Nat
deriving DecidableEq, Repr, Inhabited

/-- Why the machine stops. -/
inductive Fault
  /-- Raised by an access whose translation names a device physical address above the 1,536 GiB of the package's HBM
  (R1): the spec says no storage is there and gives no outcome. Safe: the model stops. -/
  | noStorage (address : Nat)
deriving DecidableEq, Repr, Inhabited

/-- Why an instruction has no meaning. -/
inductive Refusal
  /-- Raised by an arm of `exec` for an instruction that has no meaning yet. Safe: the model stops. -/
  | notModelled (mnemonic : String)
deriving DecidableEq, Repr, Inhabited

/-- What a context is (R24, R28, R33, R42, R427). -/
inductive CtxKind
  | leader
  | helper (leader : Nat)
  | pitch (pitch input output : Nat)
  | spawned
  | system
deriving DecidableEq, Repr, Inhabited

/-- Where a context stands (R14, R241, R248, R311). -/
inductive Status
  | free
  | live
  | trapped
  | stopped
  | away
deriving DecidableEq, Repr, Inhabited

/-- The fast handler a context runs (R73, R245), with its return point. -/
inductive Handler
  | none
  | refill (key : BitVec 128) (back : Cap)
  | upcall (back : Cap)
deriving DecidableEq, Repr, Inhabited

/-- What a context has arrived with at the barrier network of a scope (R11, R333). -/
inductive Joined
  | bar (sc : Scope)
  | red (a b : Reg) (op : SumOp) (fmt : Fmt) (sc : Scope)
  | bc (a b : Reg) (sc : Scope)
  | top (a d : Reg) (n : Nat) (sc : Scope)
  | topp (a b c d : Reg) (n : Nat) (sc : Scope)
deriving DecidableEq, Repr, Inhabited

/-- What a context out of the rotation waits for (R14, R16, R49). -/
inductive Wait
  | none
  | plain                                     -- an operation that has taken effect and completes later
  | join (handle : BitVec 64)
  | helpers                                   -- a `halt` that waits for helpers (R31)
  | semaphore (sem : Nat)
  | arrived (j : Joined)                      -- a barrier or collective arrival (R11, R333)
  | fwdPut (quad : Bool) (value : BitVec 64)  -- a full target register, and what goes into it (R49)
  | fwdGet (dst : Reg)                        -- its own empty register (R49)
  | channel (ch : Nat)                        -- a busy channel (R128) or its end (R296)
  | transfer (ch number : Nat)                -- the end of this transfer of a channel (R320)
  | point (ch : Nat) (bytes : Nat)            -- `%wpN` at or above a threshold (R296)
  | line (va : Nat)                           -- a line that a channel owns (R130)
  | fence (sc : Scope)
  | acks                                      -- earlier messages and transfers, before a release or full send (R167)
  | ownAck (msg : Nat)                        -- the acknowledgement of this message (R167)
  | inbox (core : Nat)                        -- a full arrival queue (R308)
  | spawn (req : Nat) (dst args : Reg)        -- the answer to a spawn request: its destination and argument run (R33)
  | job                                       -- the current epilogue job (R329 to R331)
  | landing                                   -- copies that land in the shadow plane (R318)
  | engine                                    -- earlier instructions of the core for the matrix array and its kin (R352)
  | ifence                                    -- an `ifence` that completes after the context's transfers (R160, R175)
  | covered (base granules : Nat) (dst status : Reg)   -- claimed granules still in scrub (R358)
  | page (ticket : Nat) (word : Option Nat)   -- a page under service, and the word whose fetch needs it (R420)
  | scrubbed (va : Nat)                       -- a page or granule still in scrub (R155)
  | ending (exit : BitVec 64)                 -- an `eret` with END of a leader that waits for helpers (R31, R244)
  | freePage (domain : Nat)                   -- an allocation on an empty scrubbed free list (R155)
  | boundary (slot : Nat)                     -- a `ctx.save` of a context that completes an operation first (R52)
  | visible                                   -- its stores to host-homed memory, after a full store (R167)
deriving DecidableEq, Repr, Inhabited

/-- A call that runs an inline child (R34): the caller's code capability after the `spawn`, and its destination. -/
structure InlineCall where
  back : Cap
  dst : Reg
deriving DecidableEq, Repr, Inhabited

/-- A fetched and decoded copy of a word, with the generation of the leaf it was filled under (R160, R411). -/
structure CodeCopy where
  word : BitVec 32
  gen : BitVec 32
deriving DecidableEq, Repr, Inhabited

/-- A context (R54): the state it owns, and where it stands. -/
structure Context where
  status : Status := .free
  kind : CtxKind := .leader
  uid : Nat := 0                              -- the model's own name of the context
  serial : Nat := 0                           -- start serial of a helper, as its handle holds it (R28)
  code : Cap := Cap.null                      -- the code capability; its cursor is the pc (R218)
  regs : SMap Cap := []                       -- c1 to c63 (R55)
  shadow : SMap Cap := []                     -- h0 to h7 (R73)
  handler : Handler := .none
  refilled : Option (BitVec 128 × Nat) := none  -- key and pc of the lookup that the refill handler has returned to (R146)
  emptied : Bool := false                     -- its position map was emptied under the refill handler that it runs (R53)
  calls : List InlineCall := []               -- inline-call depth is the length (R34)
  nv : Nat := 0
  ne : Nat := 0
  v : SMap VReg := []
  e : SMap EReg := []
  m : SMap (BitVec 64) := []                  -- m1 to m15 (R67)
  round : BitVec 5 := 0                       -- R76
  covmode : BitVec 4 := 0                     -- R77
  flushcnt : BitVec 32 := 0                   -- R80
  trapcause : BitVec 8 := 0
  trappc : BitVec 80 := 0
  trapinfo : BitVec 64 := 0
  needs : Nat := 0                            -- rights that the access of its last trap needed (R419)
  gens : SMap (BitVec 128) := []              -- lane generators that have moved from their seeds (R117)
  seed : BitVec 64 := 0
  birth : Nat := 0
  born : CtxId := ⟨0, 0⟩                      -- the core and slot of the seed word (R117)
  ordinal : Nat := 0                          -- of a leader (R24)
  wait : Wait := .none
  holding : Bool := false                     -- its instruction is held and completes before a save (R52)
  owed : Option Trap := none                  -- a route fault that it takes at its next boundary (R44)
  recorded : Bool := false                    -- trapped, with a notice that the supervisor has recorded and not served (R435)
  denied : Bool := false                      -- its service was denied while it was away (R423)
  readyAt : Nat := 0                          -- the first cycle it may issue in (R15, R237)
  fetched : Bool := false                     -- its next instruction has been delivered (R14)
  fetchSince : Nat := 0                       -- the cycle of its fetch request (R20)
  copies : SMap CodeCopy := []
  gen : BitVec 32 := 0                        -- %gen of the instruction that runs (R78)
  pin : Pin := .none                          -- the engine it holds pinned (R32)
  home : Option CtxId := none                 -- the home slot of a migrated context (R311)
  ticket : Nat := 0                           -- blocked on this ticket (R420)
  notices : List Nat := []                    -- completion notices to take (R421)
  upcalled : List Nat := []                   -- tickets it received an upcall for (R421)
  sent : List (Nat × Nat) := []               -- messages not yet acknowledged, oldest first: number, destination (R166)
  failures : List (Nat × Nat × Nat) := []     -- failed acknowledgements in order of S: and the condition (R309)
  own : Option Nat := none                    -- a full send that has gone out and waits for its acknowledgement (R167)
  sealed : Option (BitVec 32) := none         -- the key that its saves in swaps are sealed under (R424)
  preempt : Bool := false                     -- its pre-emption is pending (R252)
  grantsem : Bool := false                    -- a signal has completed its wait (R46)
  transfers : List (Nat × Nat) := []          -- copies it issued: channel and transfer number (R166)
deriving DecidableEq, Repr, Inhabited

/-! ### Cores -/

/-- A helper record of a leader (R29). -/
structure HelperRecord where
  leader : Nat
  slot : Nat
  serial : Nat
  exit : Option (BitVec 64)
deriving DecidableEq, Repr, Inhabited

/-- A cached translation (R411): the leaf entry and the page bits of its level. -/
structure Translation where
  page : Nat                                  -- VA >> bits
  bits : Nat                                  -- 16, 21 or 30
  entry : BitVec 128
  leafAt : Option Nat                         -- device physical address of the leaf entry; none for a reply
deriving DecidableEq, Repr, Inhabited

/-- The states of a sector of a stash window (R124); one that is present keeps the translation that it was filled or covered
under, through which it is written back (R126, R416). -/
inductive Sector
  | absent
  | clean (leaf : Translation)
  | dirty (leaf : Translation)
deriving DecidableEq, Repr, Inhabited

/-- A stash window (R122). -/
structure Window where
  offset : Nat                                -- 4 KiB units
  length : Nat                                -- 4 KiB units
  base : Nat                                  -- virtual
  ld : Bool
  st : Bool
  lc : Bool
  sc : Bool
  sectors : SMap Sector                       -- absent where not listed
deriving DecidableEq, Repr, Inhabited

/-- Where a transfer writes (R128). -/
inductive CopyDest
  | global (cap : Cap)
  | land (offset : Nat)
deriving DecidableEq, Repr, Inhabited

/-- A copy transfer (R128 to R133). -/
structure Transfer where
  number : Nat                                -- the order of copy issues in S (R131)
  owner : Nat                                 -- the context that issued it
  src : Cap
  dst : CopyDest
  length : Nat
  ldReg : Reg                                 -- the registers its faults name
  stReg : Reg
deriving DecidableEq, Repr, Inhabited

/-- A copy channel (R128): its pointer, its transfer, a recorded fault and whether the last one stopped. -/
structure Channel where
  wp : Nat := 0
  xfer : Option Transfer := none
  fault : Option Trap := none
  stopped : Bool := false
  last : Nat := 0                             -- the number of the last transfer
  landed : Option (Nat × Nat) := none         -- offset and length of the last landing
  asked : Option Nat := none                  -- the ticket of a walk that its next piece waits for (R132, R398)
deriving DecidableEq, Repr, Inhabited

/-- An entry of the position map buffer (R145, R301). -/
structure PmEntry where
  key : BitVec 128
  cap : Cap
  owner : Nat                                 -- the context that filled it, on a basecamp core
deriving DecidableEq, Repr, Inhabited

/-- An epilogue job (R330). -/
structure Job where
  number : Nat
  context : Nat
  team : Nat
  domain : Nat
  tile : Nat
  moment : Bool
  desc : BitVec 512
  baseTag : Bool
  scaleTag : Bool
  o0 : Nat
  o1 : Nat
  first : Nat
  count : Nat
  next : Nat                                  -- rows done
  scalars : List (BitVec 32)
  bases : List Cap
  rm : Rm
  sat : Bool
  ftz : Bool
deriving DecidableEq, Repr, Inhabited

/-- The epilogue processor (R327 to R332, R355). -/
structure Epilogue where
  program : List (BitVec 16) := []
  job : Option Job := none
  jobs : Nat := 0                             -- jobs started since admission
  rows : Nat := 0                             -- rows completed by the last job
  clamp : Bool := false
  flush : Nat := 0
  fault : Option Trap := none
  asked : Option Nat := none                  -- the ticket of a walk that the job's next row waits for (R398)
  served : List Nat := []                     -- contexts that have taken the flush count and flag (R331)
  gens : SMap (BitVec 128) := []
  seed : BitVec 64 := 0
deriving DecidableEq, Repr, Inhabited

/-- A pitch record (R36). -/
structure PitchRec where
  entry : Nat
  inq : Nat
  outq : Option Nat
  width : Nat
  cls : Nat
  pin : Pin
deriving DecidableEq, Repr, Inhabited

/-- The route instance of a core (R36 to R44). -/
structure Route where
  pitches : List PitchRec := []
  running : Bool := false
  taken : SMap Nat := []                      -- by stash offset of the queue record (R39)
  reserved : SMap Nat := []
  released : List (Nat × Nat) := []           -- queue and item, released out of order (R43)
  committed : List (Nat × Nat) := []
deriving DecidableEq, Repr, Inhabited

/-- A message (R308): number, sender, destination and what it carries. -/
structure Message where
  number : Nat
  package : Nat                               -- the sender's package
  sender : CtxId
  uid : Nat
  team : Nat
  handler : Cap
  args : List Cap
deriving DecidableEq, Repr, Inhabited

/-- A spawn request (R33). -/
structure SpawnReq where
  number : Nat
  sender : CtxId
  uid : Nat
  team : Nat
  code : Cap
  args : List Cap
deriving DecidableEq, Repr, Inhabited

/-- What arrives at a system context (R241, R308, R33). -/
inductive Arrival
  | notice (slot cause : Nat) (pc info : Nat)
  | message (m : Message)
  | spawn (r : SpawnReq)
deriving DecidableEq, Repr, Inhabited

/-- An arrival in its queue: the cycle of the core in which it arrived, and the core it came from (R252). -/
structure Posted where
  cycle : Nat
  source : Nat
  what : Arrival
deriving DecidableEq, Repr, Inhabited

/-- What a system context runs (R309, R438). -/
inductive Run
  | idle
  | notice (slot : Nat)
  | message (m : Message)
deriving DecidableEq, Repr, Inhabited

/-- A grant as a protection lookaside buffer holds it (R413, R414). -/
structure Grant where
  domain : Nat
  page : Nat
  pages : Nat
  rights : Nat                                -- RIGHTS: 1 LD, 2 ST, 4 EX, 8 AT
deriving DecidableEq, Repr, Inhabited

/-- An instruction for the matrix array, the accumulators or the epilogue processor that is held (R318, R320, R330, R351,
R352). -/
structure Held where
  slot : Nat
  number : Nat                                -- the latest number given when it issued
  keeps : Bool                                -- it completes before its context is saved
  fills : Bool                                -- it fills the shadow plane
  parameters : Option (List (BitVec 32) × List Cap) := none  -- what an `ep.run` has read
  awaits : Option Nat := none                 -- the transfer that an `mx.swap` waits for
  lost : Bool := false                        -- that transfer has stopped part way
  reach : List Nat := []                      -- granules of virtual memory that it has checked and may still access (R164)
deriving DecidableEq, Repr, Inhabited

/-- A core, main or basecamp (R10, R54). -/
structure Core where
  slots : SMap Context := []
  cycle : Nat := 0                            -- cycles since package reset; %cycle is this number modulo 2^64 (R78)
  last : Nat := 11                            -- the slot that issued most recently (R15)
  team : Option Nat := none
  vb : Nat := 0
  sb : Nat := 0
  cb : Nat := 0
  fwd : SMap (BitVec 65) := []                -- %fwd of each slot: FULL in bit 64 (R48, R80)
  acc : SMap (BitVec 4096) := []              -- row r of tile t at 128 t + r (R68)
  active : List Host.Cell := []               -- active plane, bytes that are not 0
  activeTag : Nat × Nat := (0, 0)
  staging : List Host.Cell := []              -- staging bytes that are not 0; [0, 0xA000) is the shadow plane (R318)
  shadowTag : Nat × Nat := (0, 0)
  stash : List Host.Cell := []                -- stash bytes that are not 0
  stashTags : List Nat := []                  -- granules of the stash whose tag is 1
  windows : SMap Window := []
  sems : SMap Nat := []
  semq : SMap (List Nat) := []                -- slots that wait, first in first (R46)
  channels : SMap Channel := []
  parks : SMap Cap := []
  posmap : SMap PmEntry := []
  vocab : SMap (List (BitVec 32)) := []
  ep : Epilogue := {}
  records : List HelperRecord := []
  serial : Nat := 0                           -- start serial (R28, R437)
  births : SMap Nat := []                     -- contexts started in each slot since admission (R117)
  route : Route := {}
  held : List Held := []                      -- in issue order (R352)
  rounded : Bool := false                     -- the grant round of this cycle has been held (R41)
  inbox : List Posted := []
  run : Run := .idle
  trapOpen : Bool := false                    -- a system trap that has not ended (R241)
  grants : List Grant := []
  boundary : Nat := 0                         -- the step of the latest kernel boundary (R134)
  started : Bool := true                      -- its die's image was verified (R431)
deriving DecidableEq, Repr, Inhabited

/-! ### Memory -/

/-- Memory: device physical bytes below 2^64 and host physical bytes above, in canonical form; the granules whose tag is
1; the key identifier under which each sector was last written (R430); the key pairs that owners have installed (R458). -/
structure Memory where
  cells : List Host.Cell := []
  tags : List Nat := []
  keys : SMap Nat := []
  owners : SMap (BitVec 512) := []
deriving DecidableEq, Repr, Inhabited

/-- A write, with what it replaced: its step, the event it is part of, where it was, the bytes there before it, and the granules it touched whose tag
was 1 before it. A stable copy may still hold them (R134, R161). -/
structure OldWrite where
  step : Nat
  event : Nat                                 -- writes of one event have one number
  address : Nat
  bytes : List Byte
  tagged : List Nat
deriving DecidableEq, Repr, Inhabited

/-- A device write to host-homed memory that the host does not see yet (R172). -/
structure PendingStore where
  uid : Nat
  team : Option Nat
  key : Nat                                   -- the key identifier of its leaf
  address : Nat
  bytes : List Byte
  tags : List Nat                             -- of the granules that it covers some of, those whose tag becomes 1
  release : Bool
deriving DecidableEq, Repr, Inhabited

/-! ### Teams, domains and pools -/

/-- A context as `ctx.save` left it (R250, R427): beside its image, the parts of its state that the image numbers or counts
but does not hold. -/
structure Saved where
  core : Nat
  handle : BitVec 32
  counter : BitVec 32
  out : Bool                                  -- saved with evict and not yet restored (R27)
  context : Context
deriving DecidableEq, Repr, Inhabited

/-- A team admitted on the package (R22 to R27, R399). -/
structure Team where
  uid : Nat
  ident : BitVec 32
  func : Nat
  domain : Nat
  queue : Nat
  entry : Nat
  tag : BitVec 32
  flags : Nat                                 -- CMPL bit 9 and IRQ bit 10 of the entry
  cores : List Nat
  quota : Nat
  nv : Nat
  ne : Nat
  vb : Nat
  sb : Nat
  cb : Nat
  text : Nat
  textlen : Nat
  gen : BitVec 32
  entryOff : Nat
  upcall : Option Nat
  refill : Option Nat
  route : Nat
  seed : BitVec 64
  podset : List Nat
  binding : Option (Nat × BitVec 32)          -- index and GEN at admission (R405)
  descs : SMap (BitVec 512)
  descTags : SMap Nat                         -- bit 0 BASE, bit 1 SBASE
  resident : Bool
  ended : Option Nat                          -- cause of the first context ended with END (R242)
  saved : List Saved                          -- the last save under each key
  images : SMap Core                          -- swapped core images (R425)
  away : List (CtxId × Context)               -- contexts swapped out with the team (R424)
  places : List Nat                           -- while away, where the swap area holds the images of its cores (R424)
  keys : List (BitVec 32)                     -- key handles of its contexts (R429)
  admitted : Nat                              -- the package's time at admission (R448)
  draws : Nat                                 -- draw of its islands over this slice, in 100 mW times intervals (R51)
  intervals : Nat                             -- Meridian intervals of this slice (R51)
  slice : Nat                                 -- length of its slice in microseconds (R51)
  entered : Nat                               -- the package's time at the start of its slice (R51)
  ran : Bool                                  -- it has run in this round (R51)
  sequence : Nat                              -- admission order on the package
deriving DecidableEq, Repr, Inhabited

/-- A launch taken in and not yet admitted (R393). -/
structure Pending where
  queue : Nat
  entry : Nat
  agent : Nat                                 -- quad of the placement agent that holds it
  moves : Nat
  cores : Nat                                 -- CSCOUNT, or 0 for a fixed core set
deriving DecidableEq, Repr, Inhabited

/-- A granule of a covered pool (R136, R142, R357). -/
inductive GranuleState
  | free                                      -- never allocated
  | covered (count : Nat)
  | zero (step : Nat)                         -- count 0 since this step, not yet freed by Moraine
  | scrub                                     -- freed, in scrub
  | ready                                     -- scrubbed, on the free list (R154)
  | retired                                   -- its frame goes to no free list (R453)
deriving DecidableEq, Repr, Inhabited

structure Granule where
  state : GranuleState
  claimed : Bool
deriving DecidableEq, Repr, Inhabited

/-- A page of a KV pool: its reference count, or where it stands without one (R149, R154). -/
inductive KvPage
  | free                                      -- never allocated
  | counted (n : Nat)
  | scrub
  | ready                                     -- scrubbed, on the free list (R154)
  | retired                                   -- its frame goes to no free list (R453)
deriving DecidableEq, Repr, Inhabited

/-- A node of a Cairn tree (R303): the tokens of a stored prefix of whole blocks and its page for each layer. -/
structure CairnNode where
  tokens : List (BitVec 32)
  pages : List Nat                            -- VA[79:16], one a layer
deriving DecidableEq, Repr, Inhabited

/-- A Cairn tree (R303, R404). -/
structure Cairn where
  ident : Nat
  domain : Nat
  layers : Nat
  logp : Nat
  capacity : Nat
  nodes : List CairnNode
deriving DecidableEq, Repr, Inhabited

/-- A step held by a draft (R349). -/
structure HeldStep where
  token : BitVec 32
  state : BitVec 2048                         -- the record as this step leaves it
  scratch : List (Nat × BitVec 16)            -- halfwords it writes, last first
deriving DecidableEq, Repr, Inhabited

/-- A row held by a draft (R349). -/
structure HeldRow where
  position : Nat
  layer : Nat
deriving DecidableEq, Repr, Inhabited

/-- A draft of a sequence slot (R348 to R350). -/
structure Draft where
  slot : Nat
  steps : List HeldStep                       -- oldest first
  rows : List HeldRow
deriving DecidableEq, Repr, Inhabited

/-- A protection domain (R407, R413, R441). -/
structure Domain where
  func : Option Nat := none
  seqBase : Nat := 0
  seqCount : Nat := 0
  bindBase : Nat := 0
  bindCount : Nat := 0
  gbase : BitVec 64 := 0
  gcnt : BitVec 64 := 0
  keyid : BitVec 64 := 0
  fring : BitVec 64 := 0
  flog2 : BitVec 64 := 0
  fprod : BitVec 64 := 0
  fcons : BitVec 64 := 0
  kvbase : BitVec 64 := 0
  kvpages : BitVec 64 := 0
  covbase : BitVec 64 := 0
  covgran : BitVec 64 := 0
  pages : SMap KvPage := []                   -- by page of the pool, free where not listed
  granules : SMap Granule := []               -- by granule of the pool, free where not listed
  reserved : SMap Nat := []                   -- Q of each sequence slot that holds a reservation (R152)
  drafts : List Draft := []
  trees : List Cairn := []
deriving DecidableEq, Repr, Inhabited

/-- What the scrub engine holds (R154): the storage, what it rejoins, and how far it has come. -/
inductive ScrubWhat
  | kv (domain page : Nat)
  | granule (domain index : Nat)
  | frame (domain address : Nat)              -- a moved frame (R417)
  | ring (domain address ticket : Nat)        -- a frame taken for a page-in (R419)
deriving DecidableEq, Repr, Inhabited

structure ScrubItem where
  what : ScrubWhat
  asked : Option Nat                          -- the ticket of a zeroing posted to the driver (R398)
deriving DecidableEq, Repr, Inhabited

/-! ### Queues, functions, events -/

/-- A command taken in and not yet retired (R391, R395). -/
structure Command where
  entry : Nat
  words : BitVec 1024
  started : Bool
  busy : Bool                                 -- it has started and waits (WAIT, LAUNCH, SWAP, UNBIND)
  mark : Nat                                  -- the names given when a SWAP or UNBIND started (R405, R406)
  asked : Option Nat                          -- the ticket of a walk that one of its accesses waits for (R398)
deriving DecidableEq, Repr, Inhabited

/-- A host queue (R386 to R396). -/
structure Queue where
  cfg : BitVec 128 := 0
  ring : Nat := 0
  cring : Nat := 0
  log2 : Nat := 0
  clog2 : Nat := 0
  consumed : Nat := 0
  cpos : Nat := 0
  fenced : Nat := 0
  gen : BitVec 32 := 0
  current : Nat := 0                          -- the current copy of the QCB
  bell : Nat := 0                             -- the latest accepted doorbell value
  retries : Nat := 0
  parked : Bool := false
  slot : Bool := false                        -- holds an intake slot (R392)
  since : Nat := 0                            -- entries taken in since the last QCB update (R388)
  stamped : Option Nat := none                -- an entry whose stamp did not match, in retry (R391)
  offered : Option (BitVec 1024) := none      -- an entry of the intake window that waits for a slot (R392, R398)
  commands : List Command := []
deriving DecidableEq, Repr, Inhabited

/-- An event for the host (R422), without its stamp. -/
structure HostEvent where
  cause : Nat
  detail : Nat
  ticket : Nat
  domain : Nat
  address : Nat
deriving DecidableEq, Repr, Inhabited

/-- A function (R384, R423, R448). -/
structure Func where
  fseg : BitVec 64 := 0
  flen : BitVec 64 := 0
  fmode : BitVec 64 := 0
  fevr : BitVec 64 := 0
  fdrop : BitVec 32 := 0
  fevhead : BitVec 64 := 0
  flimit : BitVec 64 := 0
  posted : Nat := 0                           -- events written to the ring
  events : List HostEvent := []               -- events that wait for room
  page : Nat := 0                             -- intake window page (R398, R407)
deriving DecidableEq, Repr, Inhabited

/-- What a page service is for (R419 to R422). -/
inductive TicketKind
  | evicted (backing : Nat)
  | driver
  | walk
  | zeroing
deriving DecidableEq, Repr, Inhabited

/-- A page under service (R420). -/
structure Ticket where
  number : Nat
  kind : TicketKind
  func : Nat
  domain : Nat
  page : Nat                                  -- VA[79:16], or the frame for zeroing
  parked : List Nat                           -- queues whose WAIT is parked on it (R392, R423)
  asked : Bool                                -- it has posted that the frame ring is empty (R419)
deriving DecidableEq, Repr, Inhabited

/-- A shootdown in progress (R415, R416). -/
inductive Shootdown
  | pages (host : Bool) (page count : Nat)
  | rights (host : Bool) (domain : Nat)
  | move (request : BitVec 128)               -- a page move that MOVEREQ has committed (R417)
deriving DecidableEq, Repr, Inhabited

/-- A voltage-frequency island that Meridian sets (R443 to R446). -/
structure Island where
  state : Nat := 0
  power : BitVec 16 := 0                      -- PWR, units of 100 mW
  temp : BitVec 8 := 25                       -- TEMP; no reset value given: DESIGN CHOICE, log 3
  clock : BitVec 10 := 700                    -- FMHZ, the clock of the island in MHz
  weights : List Nat := [16, 16, 16, 16]      -- W0 to W3 as Meridian set them last (R446)
  zeroed : List (Nat × Nat) := []             -- classes whose W is 0, with the intervals they have been (R45)
  restored : List (Nat × Nat) := []           -- class weights restored since the last interval (R45)
deriving DecidableEq, Repr, Inhabited

/-- A key of the trust block's store (R429, R436). -/
structure ContextKey where
  handle : BitVec 32
  serial : Nat                                -- which create drew it
  counter : BitVec 32
  spent : Bool
deriving DecidableEq, Repr, Inhabited

/-- A session of the SPDM responder (R456). -/
structure Session where
  finished : Bool                             -- FINISH has completed: it is secured
  generation : Nat                            -- key updates so far
deriving DecidableEq, Repr, Inhabited

/-- The SPDM responder (R456 to R458). -/
structure Spdm where
  version : Bool := false                     -- GET_VERSION answered
  capable : Bool := false
  agreed : Bool := false                      -- algorithms negotiated
  sessions : SMap Session := []               -- open sessions
  opened : Nat := 0                           -- sessions opened so far
  share : BitVec 768 := 0                     -- the requester's share of the latest key exchange
  chain1 : Option (List Byte) := none         -- the operator chain of slot 1
  response : List Byte := []                  -- the last response
  error : Bool := false                       -- the last response was an error response
  transcript : List Byte := []
deriving DecidableEq, Repr, Inhabited

/-- The firmware of a die (R431 to R433); die 8 is the I/O die. -/
structure DieImage where
  main : Nat := 0                             -- numbers of the images that run
  base : Nat := 0
  vmin : Nat := 0
  vmax : Nat := 0
  halted : Bool := false                      -- its image failed verification at package reset (R431)
deriving DecidableEq, Repr, Inhabited

/-- An update in progress (R432, R455). -/
structure Update where
  addr : BitVec 64 := 0
  stat : Nat := 0
  die : Nat := 0
  image : Nat := 0
  vmin : Nat := 0
  vmax : Nat := 0
  bundle : List Nat := []                     -- the dies that it replaces (R433)
deriving DecidableEq, Repr, Inhabited

/-- An interrupt raised (R389): function and vector. -/
structure Interrupt where
  func : Nat
  vector : Nat
deriving DecidableEq, Repr, Inhabited

/-- A partition reset that has begun and is not complete (R449, R450): what its event tells, what it does with queues and
sequence slots, and how far it has come. -/
structure Reset where
  func : Nat
  reason : Nat
  address : Nat
  domain : Nat
  replay : Bool
  keepSeq : Bool
  slots : Option (List (Nat × Nat))           -- domain and slot of the records still to be ended; none before it comes to them
  asked : Option Nat                          -- the ticket of a walk that it waits for (R398)
deriving DecidableEq, Repr, Inhabited

/-! ### The machine -/

/-- The machine. -/
structure State where
  turn : Turn                                 -- who moves next (the model's own, log 1)
  serial : Nat                                -- the step counter that indexes the free values (the model's own, log 1)
  cores : SMap Core                           -- cores that differ from `Core.atReset`
  memory : Memory
  history : List OldWrite                     -- newest first
  pending : List PendingStore
  translations : List Translation
  teams : List Team
  launches : List Pending
  domains : SMap Domain
  queues : SMap Queue
  funcs : SMap Func
  rounds : SMap Nat                           -- round-robin position of each home core (R392)
  scrub : List ScrubItem
  tickets : List Ticket
  shootdowns : List Shootdown
  resets : List Reset                         -- in the order in which they began
  islands : SMap Island
  keys : List ContextKey
  creates : Nat                               -- keys drawn so far
  trust : BitVec 64                           -- STATUS and RHANDLE (R429)
  rcount : BitVec 32
  ptroot : BitVec 64
  swapbase : BitVec 64
  swaplen : BitVec 64
  sddone : Nat
  sdlow : BitVec 64                           -- the low doubleword written to SDREQ (R415)
  movelow : BitVec 64                         -- the low doubleword written to MOVEREQ (R417)
  capw : BitVec 64
  slice : BitVec 64
  optab : SMap (BitVec 64)                    -- rows written since reset; R445 elsewhere
  prdone : Nat
  pkgw : Nat
  tmax : BitVec 8
  cecnt : Nat
  uecnt : Nat
  stalewr : Nat
  lretry : Nat
  poison : List Nat                           -- poisoned sectors, device physical address / 64 (R453)
  poisoned : List Nat                         -- frames that have poisoned a sector before
  retired : List Nat                          -- frames that go to no free list
  spdm : Spdm
  dies : SMap DieImage
  update : Update
  interrupts : List Interrupt
  outbox : List (Nat × Nat × Message)         -- messages that left the package: package, core, message (R168)
  hostRead : List Byte                        -- what the host's last read returned
  hostPoison : Bool                           -- it returned poison (R453)
  pkg : BitVec 8                              -- %pkg (R78)
  names : Nat                                 -- names given to contexts and teams so far; below 4096 are system contexts
  messages : Nat                              -- messages, spawn requests and transfers numbered so far
  time : Nat                                  -- Meridian intervals of 64 µs since package reset (R446, R448)
deriving DecidableEq, Repr

/-- The code capability of an idle system context: the spec gives its registers no reset value: DESIGN CHOICE, log 3.
All of [0, 65535 × 2^63), LD, ST, LC, SC, EX, AT, GL and SY, cursor 0. -/
def systemCode : Cap := ⟨true, BitVec.ofNat 128 (255 * 2 ^ 118 + 63 * 2 ^ 112 + 65535 * 2 ^ 96)⟩

/-- The system context of a core at reset: slot 11, eight vector registers, no moment registers (R25). -/
def Context.systemAtReset (core : Nat) : Context :=
  { status := .live, kind := .system, uid := core, code := systemCode, nv := 8, ne := 0, born := ⟨core, 11⟩ }

/-- A core at package reset: no team, slots 0 to 10 free, the pool boundaries of a basecamp core as R82 fixes them, of a
main core 0 (DESIGN CHOICE, log 3). -/
def Core.atReset (core : Nat) : Core :=
  if core < 1152 then { slots := [(11, Context.systemAtReset core)] }
  else { slots := [(11, Context.systemAtReset core)], vb := 68, sb := 84, cb := 120 }

/-- The machine right after package reset. -/
def State.reset : State where
  turn := .issue 0
  serial := 0
  cores := []
  memory := {}
  history := []
  pending := []
  translations := []
  teams := []
  launches := []
  domains := []
  queues := []
  funcs := []
  rounds := []
  scrub := []
  tickets := []
  shootdowns := []
  resets := []
  islands := []
  keys := []
  creates := 0
  trust := 0
  rcount := 0
  ptroot := 0
  swapbase := 0
  swaplen := 0
  sddone := 0
  sdlow := 0
  movelow := 0
  capw := 4200
  slice := 2000
  optab := []
  prdone := 0
  pkgw := 0
  tmax := 25
  cecnt := 0
  uecnt := 0
  stalewr := 0
  lretry := 0
  poison := []
  poisoned := []
  retired := []
  spdm := {}
  dies := []
  update := {}
  interrupts := []
  outbox := []
  hostRead := []
  hostPoison := false
  pkg := 0
  names := 4096
  messages := 0
  time := 0

end Sys2Proof.Machine
end

