-- ==== Sys2Proof/Machine/Maps.lean ====
section
/-!
DEFINITION. The sorted maps, byte lists and integer readings that every other file uses.
-/

namespace Sys2Proof.Machine

/-! ### Sorted maps -/

/-- The entry of key `k`. -/
def look {α : Type} : SMap α → Nat → Option α
  | [], _ => none
  | (j, v) :: rest, k => if j = k then some v else look rest k

/-- The map with `v` at `k`. -/
def put {α : Type} : SMap α → Nat → α → SMap α
  | [], k, v => [(k, v)]
  | (j, w) :: rest, k, v =>
    if j = k then (k, v) :: rest else if j < k then (j, w) :: put rest k v else (k, v) :: (j, w) :: rest

/-- The map without `k`. -/
def drop {α : Type} : SMap α → Nat → SMap α
  | [], _ => []
  | (j, w) :: rest, k => if j = k then drop rest k else (j, w) :: drop rest k

/-- The entry of key `k`, or `d`. -/
def lookD {α : Type} (m : SMap α) (k : Nat) (d : α) : α := (look m k).getD d

/-- The map with `v` at `k`, where an entry equal to `d` is not listed. -/
def putD {α : Type} [DecidableEq α] (m : SMap α) (k : Nat) (v d : α) : SMap α := if v = d then drop m k else put m k v

/-! ### Sorted lists of numbers -/

def insertNat : List Nat → Nat → List Nat
  | [], k => [k]
  | j :: rest, k => if j = k then j :: rest else if j < k then j :: insertNat rest k else k :: j :: rest

def removeNat : List Nat → Nat → List Nat
  | [], _ => []
  | j :: rest, k => if j = k then removeNat rest k else j :: removeNat rest k

def memNat : List Nat → Nat → Bool
  | [], _ => false
  | j :: rest, k => if j = k then true else memNat rest k

/-! ### Numbers and bytes -/

/-- The value of little-endian bytes (R4). -/
def natOfBytes : List Byte → Nat
  | [] => 0
  | b :: rest => b.toNat + 256 * natOfBytes rest

/-- `n` little-endian bytes of a number. -/
def bytesOf : Nat → Nat → List Byte
  | 0, _ => []
  | n + 1, x => BitVec.ofNat 8 x :: bytesOf n (x / 256)

/-- Bits [hi:lo] of a number. -/
def field (x hi lo : Nat) : Nat := x / 2 ^ lo % 2 ^ (hi + 1 - lo)

/-- Bit `i` of a number. -/
def bit (x i : Nat) : Bool := x / 2 ^ i % 2 == 1

/-- The number with bits [hi:lo] replaced by `v`. -/
def setField (x hi lo v : Nat) : Nat :=
  x - field x hi lo * 2 ^ lo + v % 2 ^ (hi + 1 - lo) * 2 ^ lo

/-- An integer modulo `2 ^ w`. -/
def wrap (w : Nat) (x : Int) : Nat := (x % (2 ^ w : Int)).toNat

/-- A number below `2 ^ w` read as signed. -/
def signed (w x : Nat) : Int := if x < 2 ^ (w - 1) then x else (x : Int) - (2 ^ w : Nat)

/-- `x` sign-extended from 24 bits (R186). -/
def imm24 (x : BitVec 24) : Int := x.toInt

def ceilDiv (a b : Nat) : Nat := (a + b - 1) / b

/-- The numbers `a`, `a + 1`, …, of which there are `n`. -/
def upFrom (a : Nat) : Nat → List Nat
  | 0 => []
  | n + 1 => a :: upFrom (a + 1) n

/-- The position of the first element that satisfies `p`. -/
def firstAt {α : Type} (p : α → Bool) : List α → Option Nat
  | [] => none
  | x :: rest => if p x then some 0 else (firstAt p rest).map (· + 1)

/-- The list with position `i` replaced. -/
def setAt {α : Type} : List α → Nat → α → List α
  | [], _, _ => []
  | _ :: rest, 0, v => v :: rest
  | x :: rest, i + 1, v => x :: setAt rest i v

/-- The list without position `i`. -/
def removeAt {α : Type} : List α → Nat → List α
  | [], _ => []
  | _ :: rest, 0 => rest
  | x :: rest, i + 1 => x :: removeAt rest i

/-- All of a list's checks, in order: the first error. -/
def forAll {α ε : Type} (f : α → Except ε Unit) : List α → Except ε Unit
  | [] => .ok ()
  | x :: rest => match f x with
    | .ok _ => forAll f rest
    | .error e => .error e

end Sys2Proof.Machine
end

