-- ==== Sys2Proof/Machine/Caps.lean ====
section
/-!
DEFINITION. Capabilities: their fields, the decode of their bounds, the check of a dereference and the change of a
cursor (R55 to R60, R226).
-/

namespace Sys2Proof.Machine

/-! ### Permission bits, by their place above bit 118 (R56) -/

def permLD : Nat := 1
def permST : Nat := 2
def permEX : Nat := 4
def permLC : Nat := 8
def permSC : Nat := 16
def permAT : Nat := 32
def permSY : Nat := 64
def permGL : Nat := 128
def permVW : Nat := 256
def permSL : Nat := 512

/-! ### Fields (R55) -/

def capAddr (c : Cap) : Nat := field c.bits.toNat 79 0
def capDist (c : Cap) : Nat := field c.bits.toNat 95 80
def capLen (c : Cap) : Nat := field c.bits.toNat 111 96
def capExp (c : Cap) : Nat := field c.bits.toNat 117 112
def capPerms (c : Cap) : Nat := field c.bits.toNat 127 118

/-- A capability value from its fields. -/
def makeCap (tag : Bool) (perms e l dist a : Nat) : Cap :=
  ⟨tag, BitVec.ofNat 128 (perms % 1024 * 2 ^ 118 + e % 64 * 2 ^ 112 + l % 65536 * 2 ^ 96 + dist % 65536 * 2 ^ 80 +
    a % 2 ^ 80)⟩

/-- All bits of `need` stand in P. -/
def hasPerm (c : Cap) (need : Nat) : Bool := (capPerms c).land need == need

def isSealed (c : Cap) : Bool := hasPerm c permSL

/-- A tagged view (R56, R138). -/
def isView (c : Cap) : Bool := c.tag && hasPerm c permVW

/-- `CapBounds` (R57); `none` is EMPTY. -/
def capBounds (c : Cap) : Option (Nat × Nat) :=
  let e := capExp c
  let u := capAddr c / 2 ^ e
  if u < capDist c then none
  else
    let base := (u - capDist c) * 2 ^ e
    let top := base + capLen c * 2 ^ e
    if top > 2 ^ 80 then none else some (base, top)

/-- Sub-causes of the capability fault (R79). -/
inductive Sub
  | tag | seal | perm | bounds | align
deriving DecidableEq, Repr

def Sub.code : Sub → Nat
  | .tag => 1 | .seal => 2 | .perm => 3 | .bounds => 4 | .align => 5

/-- `CapCheck` (R58): the first check that fails. -/
def capCheck (c : Cap) (addr : Int) (size perms : Nat) : Option Sub :=
  if !c.tag then some .tag
  else if isSealed c then some .seal
  else if !hasPerm c perms then some .perm
  else match capBounds c with
    | none => some .bounds
    | some (base, top) =>
      if addr < base ∨ addr + size > top ∨ addr + size > (2 ^ 80 : Nat) then some .bounds else none

/-- Change of a cursor to `a` (R59). -/
def withCursor (c : Cap) (a : Nat) : Cap :=
  let a := a % 2 ^ 80
  match capBounds c with
  | none => makeCap false (capPerms c) (capExp c) (capLen c) (capDist c) a
  | some (base, _) =>
    let e := capExp c
    if base ≤ a ∧ a < base + 2 ^ (e + 16) then
      makeCap c.tag (capPerms c) e (capLen c) (a / 2 ^ e - base / 2 ^ e) a
    else makeCap false (capPerms c) e (capLen c) (capDist c) a

/-- The cursor `a` stands in the representable window (R57). -/
def inWindow (c : Cap) (a : Nat) : Bool :=
  match capBounds c with
  | none => false
  | some (base, _) => base ≤ a && a < base + 2 ^ (capExp c + 16)

/-- The smallest exponent that bounds [a, a + n) outward (R226), with its bounds. -/
def fitFrom (a n : Nat) : Nat → Nat → Option (Nat × Nat × Nat)
  | 0, _ => none
  | fuel + 1, e =>
    let lo := a / 2 ^ e * 2 ^ e
    let hi := ceilDiv (a + n) (2 ^ e) * 2 ^ e
    if (hi - lo) / 2 ^ e ≤ 65535 ∧ hi ≤ 2 ^ 80 then some (e, lo, hi) else fitFrom a n fuel (e + 1)

def fit (a n : Nat) : Option (Nat × Nat × Nat) := fitFrom a n 64 0

/-- A tagged capability bounded exactly to [base, base + len), or nothing when none bounds it exactly (R57). -/
def exactCap (perms base len : Nat) : Option Cap :=
  match fit base len with
  | some (e, lo, hi) =>
    if lo = base ∧ hi = base + len then some (makeCap true perms e ((hi - lo) / 2 ^ e) 0 base) else none
  | none => none

/-- A capability of the machine's own making: [base, base + len) with `perms`, untagged null when none bounds it. -/
def boundedCap (perms base len : Nat) : Cap := (exactCap perms base len).getD Cap.null

/-- The seal bit cleared or set, the tag kept (R227, R233). -/
def withSeal (c : Cap) (s : Bool) : Cap :=
  makeCap c.tag ((capPerms c % 512) + (if s then 512 else 0)) (capExp c) (capLen c) (capDist c) (capAddr c)

def untagged (c : Cap) : Cap := ⟨false, c.bits⟩

/-- `inner`'s bounds and permissions lie within `outer`'s. -/
def boundsWithin (inner outer : Nat × Nat) : Bool := outer.1 ≤ inner.1 && inner.2 ≤ outer.2

end Sys2Proof.Machine
end

