-- ==== Sys2Proof/Machine/Base.lean ====
section
/-!
DEFINITION. Who runs, the registers of a context, and the coverage that its views hold: the accessors every meaning
goes through.
-/

namespace Sys2Proof.Machine

/-! ### What a meaning can end in -/

/-- Why an operation does not go on to its next state in the ordinary way. -/
inductive Stop
  /-- A trap is raised; it is delivered from the state before the instruction (R241). -/
  | trap (t : Trap)
  /-- The context leaves the rotation with nothing done, and issues again when the condition holds. -/
  | hold (w : Wait)
  /-- The instruction has a next state of its own (it ends its context, or moves it). -/
  | done (s : State)
  /-- A poisoned sector was read (R453): its key identifier and virtual address. -/
  | poison (key va : Nat)
  /-- A walk is posted to the driver (R398): page, rights needed, and the word whose fetch needs it. -/
  | walk (page rights : Nat) (word : Option Nat)
  /-- The machine stops. -/
  | fault (f : Fault)

/-- A part of a meaning: it reads and changes the state, or stops. -/
abbrev Act (α : Type) := StateT State (Except Stop) α

def stop {α : Type} (e : Stop) : Act α := fun _ => .error e

/-- `Trap(cause, info)` (R217). -/
def raise {α : Type} (cause info : Nat) : Act α := stop (.trap ⟨cause, info, 0⟩)

/-- Raise unless the condition holds. -/
def require (ok : Bool) (cause info : Nat) : Act Unit := if ok then pure () else raise cause info

def hold {α : Type} (w : Wait) : Act α := stop (.hold w)

/-! ### Trap causes (R253) -/

def causeIllegal : Nat := 0x01
def causeFetch : Nat := 0x02
def causeCapability : Nat := 0x03
def causeWindow : Nat := 0x04
def causePrivilege : Nat := 0x05
def causeExecution : Nat := 0x06
def causeEngine : Nat := 0x07
def causeSemaphore : Nat := 0x08
def causeRoute : Nat := 0x09
def causeDescriptor : Nat := 0x0A
def causeScale : Nat := 0x0B
def causeVariance : Nat := 0x0C
def causeStashMap : Nat := 0x0D
def causeView : Nat := 0x0E
def causeWidening : Nat := 0x0F
def causePositionMap : Nat := 0x10
def causeCopy : Nat := 0x11
def causeStable : Nat := 0x12
def causeTranslation : Nat := 0x13
def causePosition : Nat := 0x14
def causeMessage : Nat := 0x15
def causeMigration : Nat := 0x16
def causeSoftware : Nat := 0x17

/-- `%trapinfo` of a capability fault (R79). -/
def capInfo (reg : Nat) (sub : Sub) : Nat := reg * 8 + sub.code

def raiseCap {α : Type} (reg : Nat) (sub : Sub) : Act α := raise causeCapability (capInfo reg sub)

/-- Raise the capability fault when a check has failed. -/
def checked (reg : Nat) : Option Sub → Act Unit
  | none => pure ()
  | some sub => raiseCap reg sub

/-- `%trapinfo` of the view and stash-map faults: a number below the condition (R253). -/
def condInfo (low condition : Nat) : Nat := condition * 256 + low

def raiseView {α : Type} (reg : Reg) (condition : Nat) : Act α := raise causeView (condInfo reg.val condition)

/-! ### Cores and contexts -/

def coreOf (s : State) (c : Nat) : Core := (look s.cores c).getD (Core.atReset c)

def setCore (s : State) (c : Nat) (k : Core) : State := { s with cores := put s.cores c k }

def onCore (s : State) (c : Nat) (f : Core → Core) : State := setCore s c (f (coreOf s c))

def ctxOf (s : State) (id : CtxId) : Context := (look (coreOf s id.core).slots id.slot).getD {}

def setCtx (s : State) (id : CtxId) (x : Context) : State :=
  onCore s id.core fun k => { k with slots := put k.slots id.slot x }

def onCtx (s : State) (id : CtxId) (f : Context → Context) : State := setCtx s id (f (ctxOf s id))

/-- The context that issues: the slot that the selector of the core in turn took last (R15). -/
def who (s : State) : CtxId :=
  match s.turn with
  | .issue c => ⟨c, (coreOf s c).last⟩
  | .event _ => ⟨0, 11⟩

def me (s : State) : Context := ctxOf s (who s)

def myCore (s : State) : Core := coreOf s (who s).core

def isBasecamp (core : Nat) : Bool := core ≥ 1152

/-- Issued on a basecamp core. -/
def onBasecamp (s : State) : Bool := isBasecamp (who s).core

/-- A slot that no context holds. -/
def slotFree (k : Core) (slot : Nat) : Bool :=
  match look k.slots slot with
  | none => true
  | some x => x.status == .free

/-- The lowest free user slot (R28). -/
def lowestFree (k : Core) : Option Nat := (upFrom 0 11).find? (slotFree k)

/-- The message that a system context runs; none while a trap of its own has not ended, when it is in its trap entry. -/
def messageRun (k : Core) : Option Message :=
  match k.run with
  | .message m => if k.trapOpen then none else some m
  | .idle | .notice _ => none

/-- The system context holds its privilege except while it runs a message (R309); in its trap entry too (DEDUCED, log 114). -/
def privileged (s : State) : Bool := (who s).slot == 11 && (messageRun (myCore s)).isNone

/-- The team a context belongs to: that of its core, of its home core when it has migrated, of the message it runs. The system
context belongs to none otherwise, whatever team is resident, and `%team` reads 0 there (DESIGN CHOICE, log 106). -/
def teamUidOf (s : State) (id : CtxId) : Option Nat :=
  let k := coreOf s id.core
  if id.slot == 11 then (messageRun k).map (·.team)
  else if isBasecamp id.core then
    match (ctxOf s id).home with
    | some h => (coreOf s h.core).team
    | none => none
  else k.team

def teamBy (s : State) (uid : Nat) : Option Team := s.teams.find? (·.uid == uid)

def teamOf (s : State) (id : CtxId) : Option Team := (teamUidOf s id).bind (teamBy s)

def onTeam (s : State) (uid : Nat) (f : Team → Team) : State :=
  { s with teams := s.teams.map fun t => if t.uid == uid then f t else t }

def domainOf (s : State) (d : Nat) : Domain := lookD s.domains d {}

def onDomain (s : State) (d : Nat) (f : Domain → Domain) : State :=
  { s with domains := put s.domains d (f (domainOf s d)) }

def funcOf (s : State) (f : Nat) : Func := lookD s.funcs f {}

def onFunc (s : State) (f : Nat) (g : Func → Func) : State := { s with funcs := put s.funcs f (g (funcOf s f)) }

def queueOf (s : State) (q : Nat) : Queue := lookD s.queues q {}

def onQueue (s : State) (q : Nat) (f : Queue → Queue) : State := { s with queues := put s.queues q (f (queueOf s q)) }

/-- A fresh name for a context or a team. -/
def freshName (s : State) : Nat × State := (s.names + 1, { s with names := s.names + 1 })

/-- A fresh number for a message, a request or a transfer. -/
def freshNumber (s : State) : Nat × State := (s.messages + 1, { s with messages := s.messages + 1 })

/-- A choice below `n` that the spec leaves open, the `i`-th of this step. -/
def pick (s : State) (i n : Nat) : Nat := Config.choice (s.serial * 2 ^ 64 + i) % n

/-! ### Special bits of a context -/

def Handler.active : Handler → Bool
  | .none => false
  | .refill _ _ | .upcall _ => true

/-- A register of a context: `c0` reads null, and inside a fast handler 56 to 63 name the shadow set (R73, R217). -/
def regOf (x : Context) (n : Nat) : Cap :=
  if n = 0 then Cap.null
  else if x.handler.active ∧ 56 ≤ n then lookD x.shadow (n - 56) Cap.null
  else lookD x.regs n Cap.null

/-- The context with register `n` holding `v`, whatever it held. -/
def putReg (x : Context) (n : Nat) (v : Cap) : Context :=
  if n = 0 then x
  else if x.handler.active ∧ 56 ≤ n then { x with shadow := putD x.shadow (n - 56) v Cap.null }
  else { x with regs := putD x.regs n v Cap.null }

/-- `Reg(n)` of the issuing context. -/
def reg (s : State) (n : Reg) : Cap := regOf (me s) n.val

/-- Bits [63:0] of a register (R61). -/
def reg64 (s : State) (n : Reg) : BitVec 64 := (reg s n).bits.truncate 64

/-- Change the issuing context. -/
def onMe (s : State) (f : Context → Context) : State := onCtx s (who s) f

/-! ### Coverage (R136, R137) -/

def granuleSize : Nat := 65536

/-- The domain whose covered pool holds granule number `g` of virtual memory. -/
def coverDomain (s : State) (g : Nat) : Option Nat :=
  (s.domains.find? fun (_, d) => d.covbase.toNat ≤ g && g < d.covbase.toNat + d.covgran.toNat).map (·.1)

def granuleAt (d : Domain) (i : Nat) : Granule := lookD d.granules i ⟨.free, false⟩

def setGranule (s : State) (dom i : Nat) (g : Granule) : State :=
  onDomain s dom fun d => { d with granules := putD d.granules i g ⟨.free, false⟩ }

/-- The claim of `n` granules of a domain from `base` on. -/
def claimGranules (s : State) (dom base n : Nat) (claimed : Bool) : State :=
  (upFrom base n).foldl (fun s i => setGranule s dom i { granuleAt (domainOf s dom) i with claimed := claimed }) s

/-- What an allocation that waits has claimed is withheld no more (R358). -/
def dropClaim (s : State) (x : Context) : State :=
  match x.wait with
  | .covered base n _ _ =>
    match coverDomain s base with
    | some dom => claimGranules s dom (base - (domainOf s dom).covbase.toNat) n false
    | none => s
  | _ => s

/-- The granules a range intersects, as numbers of virtual memory. -/
def granulesOf (base top : Nat) : List Nat :=
  if base < top then upFrom (base / granuleSize) ((top - 1) / granuleSize + 1 - base / granuleSize) else []

/-- The coverage count of a granule; `none` where it is not covered. -/
def coverCount (s : State) (g : Nat) : Option Nat :=
  match coverDomain s g with
  | none => none
  | some dom =>
    match (granuleAt (domainOf s dom) (g - (domainOf s dom).covbase.toNat)).state with
    | .covered n => some n
    | .free | .zero _ | .scrub | .ready | .retired => none

/-- One view less over a granule. -/
def uncover (s : State) (g : Nat) : State :=
  match coverDomain s g with
  | none => s
  | some dom =>
    let i := g - (domainOf s dom).covbase.toNat
    let r := granuleAt (domainOf s dom) i
    match r.state with
    | .covered n => setGranule s dom i { r with state := if n ≤ 1 then .zero s.serial else .covered (n - 1) }
    | .free | .zero _ | .scrub | .ready | .retired => s

/-- One view more over a granule. -/
def cover (s : State) (g : Nat) : State :=
  match coverDomain s g with
  | none => s
  | some dom =>
    let i := g - (domainOf s dom).covbase.toNat
    let r := granuleAt (domainOf s dom) i
    match r.state with
    | .covered n => setGranule s dom i { r with state := .covered (n + 1) }
    | .free | .zero _ | .scrub | .ready | .retired => s

/-- A view vanishes: every granule it intersected loses 1 (R137). -/
def dropView (s : State) (v : Cap) : State :=
  if isView v then
    match capBounds v with
    | some (base, top) => (granulesOf base top).foldl uncover s
    | none => s
  else s

/-! ### Register writes (R217, R138) -/

/-- `WriteCap(n, v)` in a context: a view in the register is dropped first, and a view written to `c0` is dropped. -/
def writeCapIn (s : State) (id : CtxId) (n : Nat) (v : Cap) : State :=
  if n = 0 then dropView s v
  else onCtx (dropView s (regOf (ctxOf s id) n)) id fun x => putReg x n v

/-- `WriteInt(n, x, w)` in a context. -/
def writeIntIn (s : State) (id : CtxId) (n : Nat) (w x : Nat) : State :=
  if n = 0 then s else writeCapIn s id n (Cap.plain (BitVec.ofNat 128 (x % 2 ^ w)))

def writeCap (n : Reg) (v : Cap) (s : State) : State := writeCapIn s (who s) n.val v

def writeInt (n : Reg) (w x : Nat) (s : State) : State := writeIntIn s (who s) n.val w x

/-- Every view of a context is dropped (R138). -/
def dropViewsOf (s : State) (x : Context) : State :=
  (x.regs ++ x.shadow).foldl (fun s e => dropView s e.2) s

/-- Every view of a context is dropped, and its registers are without them (R138). -/
def clearViews (s : State) (id : CtxId) : State :=
  onCtx (dropViewsOf s (ctxOf s id)) id fun x =>
    { x with regs := x.regs.filter fun e => !isView e.2, shadow := x.shadow.filter fun e => !isView e.2 }

/-- The views among some values are dropped. -/
def dropAll (s : State) (vs : List Cap) : State := vs.foldl dropView s

/-! ### The program counter (R218) -/

def pc (s : State) : Nat := capAddr (me s).code

/-- The code capability with its cursor at `pc + d`. -/
def codeAt (s : State) (d : Int) : Cap := withCursor (me s).code (wrap 80 ((pc s : Int) + d))

/-- pc := NextPC. -/
def advance (len : Nat) (s : State) : State := onMe s fun x => { x with code := codeAt s len }

/-! ### Engines and pins (R32) -/

/-- The engine is pinned by a live context other than `slot`. -/
def pinnedByOther (k : Core) (slot : Nat) (p : Pin) : Bool :=
  k.slots.any fun (n, x) => n != slot && x.status != .free && x.pin == p

/-- The engine-ownership check of an instruction for engine `p`. -/
def checkEngine (p : Pin) : Act Unit := do
  let s ← get
  require (!pinnedByOther (myCore s) (who s).slot p) causeEngine p.num

/-! ### Issue order of the matrix instructions (R316, R352) -/

/-- The entry of a slot among the instructions held. -/
def standing (k : Core) (slot : Nat) : Option Held := k.held.find? (·.slot == slot)

/-- An instruction that a slot issued stands behind one that issued before it. -/
def behind (k : Core) (slot : Nat) : Bool :=
  match k.held with
  | [] => false
  | h :: _ => h.slot != slot

def leaveHeld (slot : Nat) (k : Core) : Core := { k with held := k.held.filter (·.slot != slot) }

/-! ### Windows (R63) -/

def checkV (n : Nat) : Act Unit := do
  let s ← get
  require (n < (me s).nv) causeWindow (n * 2)

def checkE (n : Nat) : Act Unit := do
  let s ← get
  require (n < (me s).ne) causeWindow (n * 2 + 1)

end Sys2Proof.Machine
end

