-- ==== Sys2Proof/Machine/Crypto.lean ====
section
/-!
DEFINITION. AES-256-GCM, which seals a context image (R428), and AES-256-XTS, which memory is encrypted with (R430). The spec
names the ciphers; their steps are those of the published standards (PRESUMED, log 12).
-/

namespace Sys2Proof.Machine.Seal

/-! ### Bytes of GF(2^8) -/

def double (b : Byte) : Byte := (b <<< 1) ^^^ (if b.getLsbD 7 then 0x1B else 0)

def timesFrom : Nat → Byte → Byte → Byte
  | 0, _, _ => 0
  | n + 1, a, b => (if b.getLsbD 0 then a else 0) ^^^ timesFrom n (double a) (b >>> 1)

def times (a b : Byte) : Byte := timesFrom 8 a b

def square (a : Byte) : Byte := times a a

/-- The 254th power: the inverse, and 0 for 0. -/
def invert (a : Byte) : Byte :=
  let p2 := square a
  let p3 := times p2 a
  let p12 := square (square p3)
  let p15 := times p12 p3
  let p240 := square (square (square (square p15)))
  times p240 (times p12 p2)

def substitute (a : Byte) : Byte :=
  let x := invert a
  x ^^^ x.rotateLeft 1 ^^^ x.rotateLeft 2 ^^^ x.rotateLeft 3 ^^^ x.rotateLeft 4 ^^^ 0x63

/-! ### The block cipher -/

def xorBytes (a b : List Byte) : List Byte := List.zipWith (· ^^^ ·) a b

/-- The next word of the key schedule, from the words so far, newest first. -/
def nextWord (i : Nat) (rcon : Byte) (ws : List (List Byte)) : List Byte :=
  let last := ws.headD []
  let t :=
    if i % 8 = 0 then xorBytes ((last.drop 1 ++ last.take 1).map substitute) [rcon, 0, 0, 0]
    else if i % 8 = 4 then last.map substitute
    else last
  xorBytes (ws.getD 7 []) t

def expandFrom : Nat → Nat → Byte → List (List Byte) → List (List Byte)
  | 0, _, _, ws => ws
  | n + 1, i, rcon, ws => expandFrom n (i + 1) (if i % 8 = 0 then double rcon else rcon) (nextWord i rcon ws :: ws)

def chunks (n : Nat) : Nat → List Byte → List (List Byte)
  | 0, _ => []
  | k + 1, bs => bs.take n :: chunks n k (bs.drop n)

/-- The fifteen round keys. -/
def roundKeys (key : List Byte) : List (List Byte) :=
  chunks 16 15 (expandFrom 52 8 1 (chunks 4 8 key).reverse).reverse.flatten

def shiftRows (b : List Byte) : List Byte :=
  (upFrom 0 16).map fun i => b.getD ((i / 4 + i % 4) % 4 * 4 + i % 4) 0

def mixColumn (c : List Byte) : List Byte :=
  (upFrom 0 4).map fun i =>
    double (c.getD i 0) ^^^ times 3 (c.getD ((i + 1) % 4) 0) ^^^ c.getD ((i + 2) % 4) 0 ^^^ c.getD ((i + 3) % 4) 0

def mixColumns (b : List Byte) : List Byte := ((chunks 4 4 b).map mixColumn).flatten

def rounds : List (List Byte) → List Byte → List Byte
  | [], b => b
  | [k], b => xorBytes (shiftRows (b.map substitute)) k
  | k :: ks, b => rounds ks (xorBytes (mixColumns (shiftRows (b.map substitute))) k)

def encryptBlock (keys : List (List Byte)) (b : List Byte) : List Byte :=
  rounds keys.tail (xorBytes b (keys.headD []))

/-! ### The inverse cipher -/

def unsubstitute (a : Byte) : Byte := invert (a.rotateLeft 1 ^^^ a.rotateLeft 3 ^^^ a.rotateLeft 6 ^^^ 0x05)

def unshiftRows (b : List Byte) : List Byte :=
  (upFrom 0 16).map fun i => b.getD ((i / 4 + 4 - i % 4) % 4 * 4 + i % 4) 0

def unmixColumn (c : List Byte) : List Byte :=
  (upFrom 0 4).map fun i =>
    times 14 (c.getD i 0) ^^^ times 11 (c.getD ((i + 1) % 4) 0) ^^^ times 13 (c.getD ((i + 2) % 4) 0) ^^^
      times 9 (c.getD ((i + 3) % 4) 0)

def unmixColumns (b : List Byte) : List Byte := ((chunks 4 4 b).map unmixColumn).flatten

/-- The rounds undone, from the last key but one down to the first. -/
def unrounds : List (List Byte) → List Byte → List Byte
  | [], b => b
  | [k], b => xorBytes ((unshiftRows b).map unsubstitute) k
  | k :: ks, b => unrounds ks (unmixColumns (xorBytes ((unshiftRows b).map unsubstitute) k))

def decryptBlock (keys : List (List Byte)) (b : List Byte) : List Byte :=
  let ks := keys.reverse
  unrounds ks.tail (xorBytes b (ks.headD []))

/-! ### The tweakable mode of a sector -/

/-- The tweak of the next block. -/
def nextTweak (t : List Byte) : List Byte :=
  let x := natOfBytes t
  bytesOf 16 ((2 * x % 2 ^ 128).xor (if x < 2 ^ 127 then 0 else 0x87))

/-- The blocks of a data unit under their tweaks. -/
def tweaked (f : List Byte → List Byte) : List Byte → List (List Byte) → List Byte
  | _, [] => []
  | t, b :: rest => xorBytes (f (xorBytes b t)) t ++ tweaked f (nextTweak t) rest

/-- The tweak of the sector at a device physical address, under the second half of a key pair. -/
def firstTweak (pair : BitVec 512) (address : Nat) : List Byte :=
  encryptBlock (roundKeys ((bytesOf 64 pair.toNat).drop 32)) (bytesOf 16 address)

def sectorKeys (pair : BitVec 512) : List (List Byte) := roundKeys ((bytesOf 64 pair.toNat).take 32)

/-- A sector's ciphertext under a key pair. -/
def encryptSector (pair : BitVec 512) (address : Nat) (text : List Byte) : List Byte :=
  tweaked (encryptBlock (sectorKeys pair)) (firstTweak pair address) (chunks 16 4 text)

/-- The text that a sector's ciphertext has under a key pair. -/
def decryptSector (pair : BitVec 512) (address : Nat) (ct : List Byte) : List Byte :=
  tweaked (decryptBlock (sectorKeys pair)) (firstTweak pair address) (chunks 16 4 ct)

/-! ### Galois counter mode -/

def ofBytes (bs : List Byte) : BitVec 128 := BitVec.ofNat 128 (natOfBytes bs.reverse)
def toBytes (x : BitVec 128) : List Byte := (bytesOf 16 x.toNat).reverse

def multiplyFrom (x : BitVec 128) : Nat → BitVec 128 → BitVec 128 → BitVec 128
  | 0, z, _ => z
  | n + 1, z, v =>
    multiplyFrom x n (if x.getLsbD n then z ^^^ v else z)
      (if v.getLsbD 0 then (v >>> 1) ^^^ (BitVec.ofNat 128 (0xE1 * 2 ^ 120)) else v >>> 1)

def multiply (x y : BitVec 128) : BitVec 128 := multiplyFrom x 128 0 y

/-- Blocks of 16 bytes, the last padded with zeros. -/
def blocks (bs : List Byte) : List (List Byte) :=
  (chunks 16 (ceilDiv bs.length 16) bs).map fun b => b ++ List.replicate (16 - b.length) 0

def hash (h : BitVec 128) (aad ct : List Byte) : BitVec 128 :=
  let lens := BitVec.ofNat 128 (8 * aad.length * 2 ^ 64 + 8 * ct.length)
  let y := (blocks aad ++ blocks ct).foldl (fun y b => multiply (y ^^^ ofBytes b) h) 0
  multiply (y ^^^ lens) h

def counterBlock (iv : List Byte) (n : Nat) : List Byte := iv ++ (bytesOf 4 n).reverse

/-- The text combined with the key stream from counter `n` on. -/
def stream (keys : List (List Byte)) (iv : List Byte) : Nat → List (List Byte) → List Byte
  | _, [] => []
  | n, b :: rest => xorBytes b (encryptBlock keys (counterBlock iv n)) ++ stream keys iv (n + 1) rest

def pieces16 (bs : List Byte) : List (List Byte) := chunks 16 (ceilDiv bs.length 16) bs

def tagOf (keys : List (List Byte)) (iv aad ct : List Byte) : List Byte :=
  let h := ofBytes (encryptBlock keys (List.replicate 16 0))
  xorBytes (toBytes (hash h aad ct)) (encryptBlock keys (counterBlock iv 1))

/-- Ciphertext and tag. -/
def encrypt (key : BitVec 256) (iv aad text : List Byte) : List Byte :=
  let keys := roundKeys (bytesOf 32 key.toNat)
  let ct := stream keys iv 2 (pieces16 text)
  ct ++ tagOf keys iv aad ct

/-- The text of a ciphertext whose tag stands. -/
def decrypt (key : BitVec 256) (iv aad ct tag : List Byte) : Option (List Byte) :=
  let keys := roundKeys (bytesOf 32 key.toNat)
  if tagOf keys iv aad ct = tag then some (stream keys iv 2 (pieces16 ct)) else none

end Sys2Proof.Machine.Seal
end

