-- ==== Sys2Proof/Machine/Phys.lean ====
section
/-!
DEFINITION. Physical memory: bytes in canonical form, the tags of its granules, the key identifier of each sector, and
the stores to host-homed memory that the host does not see yet (R62, R120, R172, R430). Device physical addresses stand
below 2^64; host physical address h stands at 2^64 + h.
-/

namespace Sys2Proof.Machine

/-! ### Cells in canonical form -/

/-- The byte at `a`, where unlisted addresses read `d`. -/
def cellGet (d : Byte) : List Host.Cell → Nat → Byte
  | [], _ => d
  | (j, v) :: rest, a => if j = a then v else cellGet d rest a

/-- The cells without `a`. -/
def cellDrop : List Host.Cell → Nat → List Host.Cell
  | [], _ => []
  | (j, v) :: rest, a => if j = a then cellDrop rest a else (j, v) :: cellDrop rest a

/-- The cells with `v` at `a`, sorted by address. -/
def cellSet : List Host.Cell → Nat → Byte → List Host.Cell
  | [], a, v => [(a, v)]
  | (j, w) :: rest, a, v =>
    if j = a then (a, v) :: rest else if j < a then (j, w) :: cellSet rest a v else (a, v) :: (j, w) :: rest

/-- The cells with `v` at `a`, listed only when it differs from `d`. -/
def cellPut (d : Byte) (cells : List Host.Cell) (a : Nat) (v : Byte) : List Host.Cell :=
  if v = d then cellDrop cells a else cellSet cells a v

/-- Addresses above `lo`, strictly rising, and no entry equal to `d`. -/
def cellsAbove (d : Byte) : Option Nat → List Host.Cell → Bool
  | _, [] => true
  | lo, (j, v) :: rest =>
    (match lo with
      | none => true
      | some l => l < j) && v != d && cellsAbove d (some j) rest

/-- The canonical form of cells whose unlisted addresses read `d`. -/
def cellsWf (d : Byte) (cells : List Host.Cell) : Bool := cellsAbove d none cells

def getBytes (d : Byte) (cells : List Host.Cell) (a : Nat) : Nat → List Byte
  | 0 => []
  | n + 1 => cellGet d cells a :: getBytes d cells (a + 1) n

def putBytes (d : Byte) (cells : List Host.Cell) (a : Nat) : List Byte → List Host.Cell
  | [] => cells
  | b :: rest => putBytes d (cellPut d cells a b) (a + 1) rest

/-! ### Memory -/

/-- One byte of memory. -/
def Memory.byte (m : Memory) (a : Nat) : Byte := cellGet Config.unwritten m.cells a

/-- The canonical form: addresses strictly rise and no entry equals what an unlisted address reads as. -/
def Memory.wf (m : Memory) : Bool := cellsWf Config.unwritten m.cells

def Memory.bytes (m : Memory) (a n : Nat) : List Byte := getBytes Config.unwritten m.cells a n

def hostBase : Nat := 2 ^ 64

/-- The key identifier a device sector was last written under. -/
def Memory.keyAt (m : Memory) (a : Nat) : Option Nat := look m.keys (a / 64)

/-- The key pair of an identifier: that of its owner, else a free value (R430, R458, log 17). -/
def Memory.keyPair (m : Memory) (id : Nat) : BitVec 512 := (look m.owners id).getD (Config.unsetKey id)

/-- The sector that holds `a` was last written under another key identifier (R430). -/
def Memory.foreign (m : Memory) (key a : Nat) : Bool :=
  match m.keyAt a with
  | none => false
  | some j => a < hostBase && j != key

/-- Text of the sector at `a` as it reads under key pair `new`, written under `old` (R430). -/
def reread (old new : BitVec 512) (a : Nat) (text : List Byte) : List Byte :=
  if old = new then text else (Seal.decryptSector new a (Seal.encryptSector old a text)).take 64

/-- A sector's bytes as they read under `key`. -/
def Memory.sectorUnder (m : Memory) (key sector : Nat) : List Byte :=
  let raw := m.bytes (sector * 64) 64
  match m.keyAt (sector * 64) with
  | none => raw
  | some j => if j = key then raw else reread (m.keyPair j) (m.keyPair key) (sector * 64) raw

/-- `n` bytes of one sector as they read under `key`. -/
def Memory.readKeyed (m : Memory) (key a n : Nat) : List Byte :=
  if m.foreign key a then ((m.sectorUnder key (a / 64)).drop (a % 64)).take n else m.bytes a n

/-- Granule numbers that an access touches. -/
def touched (a n : Nat) : List Nat := if n = 0 then [] else upFrom (a / 16) ((a + n - 1) / 16 + 1 - a / 16)

def setTags (tags : List Nat) (tag : Bool) (gs : List Nat) : List Nat :=
  gs.foldl (fun t g => if tag then insertNat t g else removeNat t g) tags

/-- The granules that a store of `n` bytes with one tag sets to 1 (R62). -/
def taggedBy (tag : Bool) (a n : Nat) : List Nat := if tag then touched a n else []

/-- Bytes written to one sector under `key`: a sector that held another key is read under the new one first. The tags of granules
that the write does not touch stay (DESIGN CHOICE, log 17). -/
def Memory.writeKeyed (m : Memory) (key a : Nat) (bs : List Byte) (tag : Bool) : Memory :=
  let cells :=
    if m.foreign key a then putBytes Config.unwritten m.cells (a / 64 * 64) (m.sectorUnder key (a / 64)) else m.cells
  { m with
    cells := putBytes Config.unwritten cells a bs
    tags := setTags m.tags tag (touched a bs.length)
    keys := if a < hostBase then put m.keys (a / 64) key else m.keys }

/-- The key pair of an identifier changes: a sector written under the old one reads under the new one as R430 gives, with its
tags as they stood (DESIGN CHOICE, log 17). -/
def Memory.changeKey (m : Memory) (id : Nat) (pair : Option (BitVec 512)) : Memory :=
  let next := { m with owners := match pair with
    | some k => put m.owners id k
    | none => drop m.owners id }
  let again (n : Memory) (i : Nat) : Memory :=
    let text := reread (m.keyPair id) (next.keyPair id) (i * 64) (m.bytes (i * 64) 64)
    { n with cells := putBytes Config.unwritten n.cells (i * 64) text }
  ((m.keys.filter (·.2 == id)).map (·.1)).foldl again next

/-! ### Stores to host-homed memory (R172) -/

/-- Replace the bytes of `old` (at `a`) that `new` (at `b`) covers. -/
def patch (a : Nat) (old : List Byte) (b : Nat) (new : List Byte) : List Byte :=
  match old with
  | [] => []
  | x :: rest =>
    (if b ≤ a then (new[a - b]?).getD x else x) :: patch (a + 1) rest b new

/-- Bytes at `a` as the device sees them: what the host sees, under the stores on their way. -/
def throughPending (ps : List PendingStore) (a : Nat) (bs : List Byte) : List Byte :=
  ps.foldl (fun bs p => patch a bs p.address p.bytes) bs

/-- The tag of granule `g` as the device sees it. -/
def tagThroughPending (ps : List PendingStore) (g : Nat) (t : Bool) : Bool :=
  ps.foldl (fun t p => if (touched p.address p.bytes.length).contains g then p.tags.contains g else t) t

/-! ### Physical accesses of the machine -/

/-- What `n` bytes held before a write under `key` is kept for stable copies (R134). -/
def remember (s : State) (key a n : Nat) : State :=
  { s with history := ⟨s.serial, s.history.length, a, throughPending s.pending a (s.memory.readKeyed key a n),
      (touched a n).filter fun g => tagThroughPending s.pending g (memNat s.memory.tags g)⟩ :: s.history }

/-- The writes kept since there were `n` of them are one event. -/
def oneEvent (n : Nat) (s : State) : State :=
  let new := s.history.length - n
  { s with history := ((s.history.take new).map fun h => { h with event := n }) ++ s.history.drop new }

/-- Bytes reach memory inside one sector; a write that covers the sector clears its poison (R453). -/
def physPut (s : State) (key a : Nat) (bs : List Byte) (tag : Bool) : State :=
  { s with
    memory := s.memory.writeKeyed key a bs tag
    poison := if bs.length = 64 then removeNat s.poison (a / 64) else s.poison }

/-- A write of bytes inside one sector; host-homed memory keeps no stable copies. -/
def physWrite (s : State) (key a : Nat) (bs : List Byte) (tag : Bool) : State :=
  physPut { s with history := if a < hostBase then (remember s key a bs.length).history else s.history } key a bs tag

/-- Pieces of a range that lie in one sector each. -/
def piecesFrom : Nat → Nat → Nat → List (Nat × Nat)
  | 0, _, _ => []
  | fuel + 1, a, n =>
    if n = 0 then []
    else
      let m := min n (64 - a % 64)
      (a, m) :: piecesFrom fuel (a + m) (n - m)

def pieces (a n : Nat) : List (Nat × Nat) := piecesFrom (n / 64 + 2) a n

/-- A write of any length under `key`, sector by sector. -/
def physWriteAll (s : State) (key a : Nat) (bs : List Byte) : State :=
  (pieces a bs.length).foldl (fun s (p, n) => physWrite s key p ((bs.drop (p - a)).take n) false) s

/-- A read of any length under `key`. -/
def physReadAll (s : State) (key a n : Nat) : List Byte :=
  ((pieces a n).map fun (p, m) => s.memory.readKeyed key p m).flatten

/-- A read of `n` bytes under `key` as the device sees them. -/
def seenAt (s : State) (key a n : Nat) : List Byte := throughPending s.pending a (physReadAll s key a n)

/-- The tag of a granule as it reads under `key`; free where the sector was written under another key pair (log 17). -/
def physTag (s : State) (key a : Nat) : Bool :=
  if s.memory.foreign key a && s.memory.keyPair ((s.memory.keyAt a).getD key) != s.memory.keyPair key then pick s a 2 == 1
  else memNat s.memory.tags (a / 16)

/-- Bytes that the host writes inside one sector: a device sector keeps its key identifier (log 4), and one that has none
stays without, so that it reads as these bytes under every key (DESIGN CHOICE, log 104). -/
def hostPut (s : State) (a : Nat) (bs : List Byte) : State :=
  { s with
    memory := { s.memory with
      cells := putBytes Config.unwritten s.memory.cells a bs
      tags := setTags s.memory.tags false (touched a bs.length) }
    poison := if bs.length = 64 then removeNat s.poison (a / 64) else s.poison }

/-- A write of the host inside one sector. -/
def hostWrite (s : State) (a : Nat) (bs : List Byte) : State :=
  hostPut (remember s ((s.memory.keyAt a).getD 0) a bs.length) a bs

/-- What is left of an earlier store on its way when a later one is visible before it: its bytes where they meet, and the tags
of the granules that the later one covers some of (R62). -/
def patchStore (a : Nat) (bs : List Byte) (ts : List Nat) (q : PendingStore) : PendingStore :=
  let mine := touched q.address q.bytes.length
  { q with
    bytes := patch q.address q.bytes a bs
    tags := q.tags.filter (fun g => !(touched a bs.length).contains g) ++ ts.filter mine.contains }

/-- The tags of some granules become 1. -/
def raiseTags (ts : List Nat) (s : State) : State := { s with memory := { s.memory with tags := setTags s.memory.tags true ts } }

/-- A pending store becomes visible to the host; stores made before it that it covers take its bytes. -/
def makeVisible (s : State) (i : Nat) : State :=
  match s.pending[i]? with
  | none => s
  | some p =>
    let earlier := (s.pending.take i).map (patchStore p.address p.bytes p.tags)
    let t := { s with pending := earlier ++ s.pending.drop (i + 1) }
    raiseTags p.tags ((pieces p.address p.bytes.length).foldl
      (fun t (a, n) => physPut t p.key a ((p.bytes.drop (a - p.address)).take n) false) t)

/-- Every pending store that satisfies `p` becomes visible, oldest first. -/
def makeAllVisible (p : PendingStore → Bool) : Nat → State → State
  | 0, s => s
  | fuel + 1, s =>
    match firstAt p s.pending with
    | none => s
    | some i => makeAllVisible p fuel (makeVisible s i)

/-- Stores on their way that a visible write covers take its bytes. -/
def patchPending (s : State) (a : Nat) (bs : List Byte) (tag : Bool) : State :=
  { s with pending := s.pending.map (patchStore a bs (taggedBy tag a bs.length)) }

/-- A store to host-homed memory that is visible to the host at once. -/
def visibleStore (s : State) (key a : Nat) (bs : List Byte) (tag : Bool) : State :=
  physPut (patchPending (remember s key a bs.length) a bs tag) key a bs tag

/-- The four granules of a sector, with their tags, reach memory, and clear its poison; `visible` for host-homed memory. -/
def putSector (s : State) (visible : Bool) (key a : Nat) (gs : List (List Byte × Bool)) : State :=
  let granule (s : State) (e : (List Byte × Bool) × Nat) : State :=
    let at' := a + 16 * e.2
    physPut (if visible then patchPending s at' e.1.1 e.1.2 else s) key at' e.1.1 e.1.2
  let t := gs.zipIdx.foldl granule s
  { t with poison := removeNat t.poison (a / 64) }

/-- Such a write of an access. -/
def coverSector (s : State) (visible : Bool) (key a : Nat) (gs : List (List Byte × Bool)) : State :=
  putSector (remember s key a 64) visible key a gs

end Sys2Proof.Machine
end

