-- ==== Sys2Proof/Machine/Access.lean ====
section
/-!
DEFINITION. From a checked virtual address to memory: the trust aperture and the stash aperture, stash windows, lines
that a copy channel owns, grants, the page table walk, segments, stable pages and host-homed memory (R121 to R135,
R171, R385, R409 to R414, R429).
-/

namespace Sys2Proof.Machine

/-- On whose behalf an access is made. -/
structure Actor where
  core : Nat                     -- whose lookaside buffer, stable copies and, for a context, windows serve it
  served : Bool                  -- a context of that core: its stash windows and aperture serve it
  team : Option Nat              -- the team it is made for
  uid : Nat                      -- the context, for the visibility of its stores to the host (R172)
  sy : Bool                      -- through a capability with SY (R414, R429)
  reg : Nat                      -- the register that a capability fault names
  fetchWord : Option Nat         -- a fetch, and the index of the word it fetches
  release : Option Nat           -- an ordered access: how many stores stood on their way when it issued (R167)

def rightLD : Nat := 1
def rightST : Nat := 2
def rightEX : Nat := 4
def rightAT : Nat := 8
def rightAtomic : Nat := 11

def writes (rights : Nat) : Bool := rights.land rightST != 0

/-! ### The trust block's key store (R429) -/

def keyKnown (s : State) (h : BitVec 32) : Bool := s.keys.any (·.handle == h)

def keyBy (s : State) (h : BitVec 32) : Option ContextKey := s.keys.find? (·.handle == h)

def trustStatus (s : State) : Nat := field s.trust.toNat 39 32

def setTrust (s : State) (status : Nat) (handle : Nat) : State :=
  { s with trust := BitVec.ofNat 64 (status * 2 ^ 32 + handle) }

/-- A handle that no key of the store has, and that is not 0, searched upward from a free value. -/
def freshHandle (s : State) : Nat → Nat → Nat
  | 0, h => h
  | fuel + 1, h =>
    if h % 2 ^ 32 = 0 ∨ keyKnown s (BitVec.ofNat 32 h) then freshHandle s fuel (h + 1) else h % 2 ^ 32

/-- Create under handle `h` (R429). -/
def createKey (s : State) (h : BitVec 32) : State :=
  if s.keys.length ≥ 65536 then setTrust s 1 (field s.trust.toNat 31 0)
  else
    setTrust { s with keys := s.keys ++ [⟨h, s.creates, 0, false⟩], creates := s.creates + 1 } 0 h.toNat

def destroyKey (s : State) (h : BitVec 32) : State :=
  if keyKnown s h then
    setTrust { s with keys := s.keys.filter (·.handle != h) } 0 (field s.trust.toNat 31 0)
  else setTrust s 2 (field s.trust.toNat 31 0)

def queryKey (s : State) (h : BitVec 32) : State :=
  match keyBy s h with
  | some k => { setTrust s 0 h.toNat with rcount := k.counter }
  | none => setTrust s 2 (field s.trust.toNat 31 0)

/-- An 8-byte store to offset 0 of the trust aperture. -/
def trustCommand (s : State) (w : Nat) : State :=
  let op := field w 7 0
  if field w 31 8 ≠ 0 then setTrust s 3 (field s.trust.toNat 31 0)
  else if op = 1 then createKey s (BitVec.ofNat 32 (freshHandle s (s.keys.length + 3) (pick s 0 (2 ^ 32))))
  else if op = 2 then destroyKey s (BitVec.ofNat 32 (field w 63 32))
  else if op = 3 then queryKey s (BitVec.ofNat 32 (field w 63 32))
  else setTrust s 3 (field s.trust.toNat 31 0)

def trustBase : Nat := 2 ^ 80 - 2 ^ 22
def apertureBase : Nat := 2 ^ 80 - 2 ^ 21

/-- A byte of the trust aperture: STATUS and RHANDLE at 0x08, RCOUNT at 0x10, 0 elsewhere. -/
def trustByte (s : State) (o : Nat) : Byte :=
  if 8 ≤ o ∧ o < 16 then BitVec.ofNat 8 (s.trust.toNat / 256 ^ (o - 8))
  else if 16 ≤ o ∧ o < 20 then BitVec.ofNat 8 (s.rcount.toNat / 256 ^ (o - 16))
  else 0

/-! ### The page table (R409 to R411) -/

/-- Index position and width of each level, from the root down. -/
def levels : List (Nat × Nat) := [(65, 15), (52, 13), (39, 13), (30, 9), (21, 9), (16, 5)]

def leafPA (e : Nat) : Nat := field e 111 64
def leafKey (e : Nat) : Nat := field e 31 16
def leafGen (e : Nat) : Nat := field e 63 32
def leafHM (e : Nat) : Bool := bit e 7
def leafXP (e : Nat) : Bool := bit e 4
def leafHB (e : Nat) : Bool := bit e 3
def leafStable (e : Nat) : Bool := bit e 2

/-- A malformed leaf for a page of `2 ^ shift` bytes. -/
def badLeaf (e shift : Nat) : Bool :=
  field e 15 8 != 0 || (leafGen e != 0 && !leafXP e) || shift > 30 || (leafHM e && leafHB e) ||
    (if leafHM e then leafPA e * 65536 % 2 ^ shift != 0 else leafPA e % 2 ^ shift != 0)

/-- A malformed table entry, where the next table has `size` bytes; `size` 0 when no level follows. -/
def badTable (e size : Nat) : Bool :=
  field e 63 1 != 0 || field e 127 112 != 0 || size == 0 || leafPA e % size != 0

/-- The end of a walk: a leaf with its page bits and its place, or the entry that fails it. -/
inductive Walk
  | leaf (t : Translation)
  | fails (entry : Nat)
deriving DecidableEq, Repr

/-- [a, a + n) and [b, b + m) have a byte in common. -/
def meet (a n b m : Nat) : Bool := a < b + m && b < a + n

/-- An entry of a page table, as the device sees it (R411). -/
def tableEntry (s : State) (a : Nat) : Nat := natOfBytes (seenAt s 0 a 16)

/-- The walk of `va` from a table at `table`, one entry a level, where the entry at an address is as `entry` gives it. -/
def walkFrom (entry : Nat → Nat) (va : Nat) : List (Nat × Nat) → Nat → Walk
  | [], _ => .fails 0
  | (shift, width) :: rest, table =>
    let a := table + 16 * (va / 2 ^ shift % 2 ^ width)
    let e := entry a
    if !bit e 0 then .fails e
    else if bit e 1 then
      if badLeaf e shift then .fails e else .leaf ⟨va / 2 ^ shift, shift, BitVec.ofNat 128 e, some a⟩
    else if badTable e (match rest with
        | [] => 0
        | (_, w) :: _ => 16 * 2 ^ w) then .fails e
    else walkFrom entry va rest (leafPA e)

/-- Some address of a list lies in a poisoned sector. -/
def anyPoison (s : State) (as : List Nat) : Bool := !s.poison.isEmpty && as.any fun a => memNat s.poison (a / 64)

def rootTable (s : State) : Nat := s.ptroot.toNat / 2 ^ 19 * 2 ^ 19 % 2 ^ 48

def walk (s : State) (va : Nat) : Walk := walkFrom (tableEntry s) va levels (rootTable s)

/-- Entries that differ in nothing but AC and DT. -/
def sameLeaf (a b : Nat) : Bool := a - field a 6 5 * 32 == b - field b 6 5 * 32

def sameTranslation (a b : Translation) : Bool :=
  a.page == b.page && a.bits == b.bits && sameLeaf a.entry.toNat b.entry.toNat

/-- The cached translations of an address. -/
def cachedFor (s : State) (va : Nat) : List Translation := s.translations.filter fun t => va / 2 ^ t.bits == t.page

/-- The address that a translation gives, with host memory from 2^64 up. -/
def placeOf (t : Translation) (va : Nat) : Nat :=
  let e := t.entry.toNat
  (if leafHM e then hostBase + leafPA e * 65536 else leafPA e) + va % 2 ^ t.bits

/-- What the walker's atomic on the leaf leaves in its low byte: AC, and DT for a write; nothing where they are set, where the
leaf is another one now, and where the driver supplied it. -/
def leafMark (s : State) (t : Translation) (write : Bool) : Option (Nat × Byte) :=
  t.leafAt.bind fun a =>
    let e := tableEntry s a
    if !sameLeaf e t.entry.toNat ∨ (bit e 5 ∧ (bit e 6 ∨ !write)) then none
    else some (a, BitVec.ofNat 8 ((field e 7 0).lor (if write then 96 else 32)))

/-- A write of an engine to a page table, whose copies in windows have been given up. -/
def tableWrite (s : State) (a : Nat) (bs : List Byte) : State := physWrite (patchPending s a bs false) 0 a bs false

/-- The walker's atomic on the leaf. -/
def markLeaf (s : State) (t : Translation) (write : Bool) : State :=
  match leafMark s t write with
  | some (a, b) => tableWrite s a [b]
  | none => s

/-- What a translation found is kept for later accesses. -/
def cacheTranslation (s : State) (t : Translation) : State :=
  if s.translations.any (sameTranslation t) then s else { s with translations := t :: s.translations }

/-- The function that a team's accesses are made for. -/
def funcOfTeam (s : State) (team : Option Nat) : Option Nat := (team.bind (teamBy s)).map (·.func)

/-- A function posts its walks to its driver (R398). -/
def postsWalks (s : State) (f : Option Nat) : Bool := f.any fun f => bit (funcOf s f).fmode.toNat 1

/-- The function of an actor does. -/
def walksPosted (s : State) (a : Actor) : Bool := postsWalks s (funcOfTeam s a.team)

/-- The rights that a failed access needed, with bit 4 where its capability exempts it from the grants (R414). -/
def needsOf (a : Actor) (rights : Nat) : Nat := rights + (if a.sy then 16 else 0)

def failTranslation {α : Type} (a : Actor) (va rights : Nat) : Act α :=
  match a.fetchWord with
  | some i => stop (.trap ⟨causeFetch, 6 + 8 * i, needsOf a rights⟩)
  | none => stop (.trap ⟨causeTranslation, va / 65536, needsOf a rights⟩)

/-- Where an access lands. -/
structure Place where
  pa : Nat
  key : Nat
  stable : Bool
  hostHomed : Bool
  leaf : Translation
deriving Repr

/-! ### Stash windows (R122 to R126) -/

def windowHolds (w : Window) (va : Nat) : Bool := w.base ≤ va && va < w.base + w.length * 4096

def windowAt (k : Core) (va : Nat) : Option (Nat × Window) := k.windows.find? fun (_, w) => windowHolds w va

def sectorOf (w : Window) (va : Nat) : Nat := (va - w.base) / 64

def sectorState (w : Window) (i : Nat) : Sector := lookD w.sectors i .absent

def setSector (k : Core) (num i : Nat) (st : Sector) : Core :=
  match look k.windows num with
  | none => k
  | some w => { k with windows := put k.windows num { w with sectors := putD w.sectors i st .absent } }

/-- The stash byte that window address `va` stands for, from the start of the stash region. -/
def stashOf (w : Window) (va : Nat) : Nat := w.offset * 4096 + (va - w.base)

def stashBytes (k : Core) (o n : Nat) : List Byte := getBytes 0 k.stash o n

def stashPut (k : Core) (o : Nat) (bs : List Byte) (tag : Bool) : Core :=
  { k with stash := putBytes 0 k.stash o bs, stashTags := setTags k.stashTags tag (touched o bs.length) }

def Sector.isDirty : Sector → Bool
  | .dirty _ => true
  | .absent | .clean _ => false

/-- The translation of a sector that is present. -/
def Sector.leaf? : Sector → Option Translation
  | .absent => none
  | .clean t | .dirty t => some t

/-- The sector stands for some of a physical range. -/
def sectorMeets (w : Window) (pa n : Nat) (e : Nat × Sector) : Bool :=
  e.2.leaf?.any fun t => meet pa n (placeOf t (w.base + 64 * e.1)) 64

/-- The sectors of a window that stand for some of a physical range. -/
def sectorsAt (w : Window) (pa n : Nat) : List Nat := (w.sectors.filter (sectorMeets w pa n)).map (·.1)

/-- An entry of a page table as it was written last: in a Dirty sector of a window, or in memory. -/
def latestEntry (s : State) (a : Nat) : Nat :=
  let held (k : Core) (w : Window) : Option Nat :=
    (w.sectors.find? fun e => e.2.isDirty && sectorMeets w a 16 e).map fun e =>
      natOfBytes (stashBytes k (stashOf w (w.base + 64 * e.1 + a % 64)) 16)
  (s.cores.findSome? fun e => e.2.windows.findSome? fun v => held e.2 v.2).getD (tableEntry s a)

/-- The translations that an access of `va` for a function may use: those cached, and what a walk of the device's finds, where
the function does not post its walks (R162, R398). -/
def leavesOf (s : State) (f : Option Nat) (va : Nat) : List Translation :=
  if postsWalks s f then cachedFor s va
  else match walkFrom (latestEntry s) va levels (rootTable s) with
    | .leaf t => t :: cachedFor s va
    | .fails _ => cachedFor s va

/-- A store is on its way to the host; one that covers a sector of the device's storage clears its poison (R453). -/
def onItsWay (s : State) (p : PendingStore) : State :=
  { s with
    pending := s.pending ++ [p]
    poison := if p.bytes.length = 64 then removeNat s.poison (p.address / 64) else s.poison }

/-- A store of one piece at its place: host-homed memory sees it later (R172). -/
def storeAt (s : State) (p : Place) (a : Actor) (bs : List Byte) (tag : Bool) : State :=
  if p.hostHomed then
    onItsWay (remember s p.key p.pa bs.length) ⟨a.uid, a.team, p.key, p.pa, bs, taggedBy tag p.pa bs.length, a.release.isSome⟩
  else physWrite s p.key p.pa bs tag

/-- The name under which the machine itself acts: no context and no team has it. -/
def machineUid : Nat := 4095

def placeFor (t : Translation) (va : Nat) : Place :=
  let e := t.entry.toNat
  ⟨placeOf t va, leafKey e, leafStable e, leafHM e || leafHB e, t⟩

/-- The four granules of a Dirty sector with the tags that the window holds for them. -/
def heldGranules (k : Core) (w : Window) (va : Nat) : List (List Byte × Bool) :=
  [0, 1, 2, 3].map fun g =>
    (stashBytes k (stashOf w (va + 16 * g)) 16, memNat k.stashTags (stashOf w (va + 16 * g) / 16))

/-- The function that a core works for. -/
def coreFunc (s : State) (core : Nat) : Option Nat := funcOfTeam s (coreOf s core).team

/-! ### Lines that a channel owns (R129, R130) -/

/-- The destination range of a transfer that still has to be delivered, as lines [first, last). -/
def ownedLines (ch : Channel) : Option (Nat × Nat) :=
  match ch.xfer with
  | none => none
  | some x =>
    match x.dst with
    | .land _ => none
    | .global c =>
      if ch.wp < x.length then some ((capAddr c + ch.wp) / 256, (capAddr c + x.length + 255) / 256) else none

def ownsLine (ch : Channel) (line : Nat) : Bool :=
  match ownedLines ch with
  | none => false
  | some (first, last) => first ≤ line && line < last

/-- Some channel of the package owns the line of `va`. -/
def lineOwned (s : State) (va : Nat) : Bool :=
  s.cores.any fun (_, k) => k.channels.any fun (_, ch) => ownsLine ch (va / 256)

/-- A copy channel owns a line of the physical range. -/
def physicalOwned (s : State) (pa n : Nat) : Bool :=
  s.cores.any fun (c, k) => k.channels.any fun (_, ch) => match ownedLines ch with
    | none => false
    | some (first, last) => (upFrom first (last - first)).any fun l =>
        (leavesOf s (coreFunc s c) (l * 256)).any fun t => meet pa n (placeOf t (l * 256)) 256

/-! ### Write-backs and recalls (R125, R126) -/

/-- The window of a Dirty sector of a core, and the leaf through which it is written back. -/
def backLeaf (s : State) (core num i : Nat) : Option (Window × Translation) :=
  (look (coreOf s core).windows num).bind fun w => match sectorState w i with
    | .dirty t => some (w, t)
    | .absent | .clean _ => none

/-- Sectors that the windows of the package list: no chain of sectors, each the entry of the next one's leaf, is longer. -/
def sectorCount (s : State) : Nat := (s.cores.map fun e => (e.2.windows.map fun v => v.2.sectors.length).sum).sum

/-- Some sector that the windows hold of a physical range has the property. -/
def anySectorAt (s : State) (pa n : Nat) (p : Nat → Nat → Nat → Bool) : Bool :=
  s.cores.any fun (c, k) => k.windows.any fun (num, w) => (sectorsAt w pa n).any (p c num)

/-- The write-back of a sector would mark an entry whose line a channel owns, or which a window holds whose own write-back
waits. -/
def heldWithin : Nat → State → Nat → Nat → Nat → Bool
  | 0, _, _, _, _ => false
  | fuel + 1, s, core, num, i =>
    (backLeaf s core num i).any fun e => (leafMark s e.2 true).any fun m =>
      physicalOwned s m.1 16 || anySectorAt s m.1 16 (heldWithin fuel s)

/-- The write-back of a sector waits (R130). -/
def backHeld (s : State) (core num i : Nat) : Bool := heldWithin (sectorCount s) s core num i

/-- A Dirty sector is written back through the leaf that it holds, one store, each granule with the tag the window holds for it
(R126, R416); `before` comes first to the entry of that leaf. -/
def writeBackBy (before : Nat → State → State) (s : State) (core num i : Nat) : State :=
  let s := match (backLeaf s core num i).bind fun e => leafMark s e.2 true with
    | some (a, _) => before a s
    | none => s
  match backLeaf s core num i with
  | none => s
  | some (w, t) =>
    let va := w.base + i * 64
    let p := placeFor t va
    onCore (coverSector (markLeaf s t true) p.hostHomed p.key p.pa (heldGranules (coreOf s core) w va)) core fun k =>
      setSector k num i (.clean t)

/-- A window gives up a sector to another agent, which reads or writes it (R125). One whose write-back waits stays. -/
def giveBy (back : State → Nat → Nat → Nat → State) (write : Bool) (core num : Nat) (s : State) (i : Nat) : State :=
  if backHeld s core num i then s
  else
    let s := back s core num i
    if write && (backLeaf s core num i).isNone then onCore s core fun k => setSector k num i .absent else s

/-- The windows of a core give up what they hold of a physical range. -/
def recallBy (back : State → Nat → Nat → Nat → State) (pa n : Nat) (write : Bool) (s : State) (c : Nat) : State :=
  (coreOf s c).windows.foldl (fun s (num, w) => (sectorsAt w pa n).foldl (giveBy back write c num) s) s

/-- A sector is written back; the windows that hold the entry of its leaf give that up first, and so on. -/
def writeBackWithin : Nat → State → Nat → Nat → Nat → State
  | 0 => writeBackBy fun _ s => s
  | fuel + 1 => writeBackBy fun a s => (s.cores.map (·.1)).foldl (recallBy (writeBackWithin fuel) a 16 true) s

def writeBack (s : State) (core num i : Nat) : State := writeBackWithin (sectorCount s) s core num i

/-- Every core's windows give up what they hold of a physical range. -/
def recallAll (s : State) (pa n : Nat) (write : Bool) : State :=
  (s.cores.map (·.1)).foldl (recallBy writeBack pa n write) s

/-- What a window holds of a physical range waits to be written back. -/
def rangeHeld (s : State) (pa n : Nat) : Bool := anySectorAt s pa n (backHeld s)

/-- Another agent reads or writes the sector of `va`: the windows of one core give it up. -/
def recallFrom (s : State) (va : Nat) (write : Bool) (core : Nat) : State :=
  match windowAt (coreOf s core) va with
  | none => s
  | some (num, w) => giveBy writeBack write core num s (sectorOf w va)

/-- The cores whose windows do not serve an actor. -/
def othersOf (s : State) (a : Actor) : List Nat := (s.cores.map (·.1)).filter fun c => !(a.served && c == a.core)

/-- The windows of every core but those of the actor's own core give the sector up. -/
def giveUp (s : State) (a : Actor) (va : Nat) (write : Bool) : State :=
  (othersOf s a).foldl (fun s c => recallFrom s va write c) s

/-- The sector of `va` in one of them waits to be written back. -/
def sectorHeld (s : State) (a : Actor) (va : Nat) : Bool :=
  (othersOf s a).any fun c => match windowAt (coreOf s c) va with
    | none => false
    | some (num, w) => backHeld s c num (sectorOf w va)

/-- An actor comes to the sector of `va`, which the other windows give up first. -/
def comeTo (a : Actor) (va : Nat) (write : Bool) : Act Unit := do
  let s ← get
  if sectorHeld s a va then hold (.line va)
  set (giveUp s a va write)

/-- A `.sys` store of the machine's own (R395): the windows give the range up first. -/
def sysStore (s : State) (a : Nat) (bs : List Byte) : State :=
  let s := recallAll s a bs.length true
  let s := remember s ((s.memory.keyAt a).getD 0) a bs.length
  (pieces a bs.length).foldl (fun s (p, n) => hostPut s p ((bs.drop (p - a)).take n)) (patchPending s a bs false)

/-- An agent of the machine's own waits before it comes to a physical range: a channel owns some of it (R130), or what a window
holds of it waits. -/
def blocked (s : State) (pa n : Nat) : Bool := physicalOwned s pa n || rangeHeld s pa n

/-- An agent of the machine's own comes to a physical range, for the access of `va`: no storage is there (R1), or it waits, or
the windows give it up (R125). -/
def approach (pa n va : Nat) (write : Bool) : Act Unit := fun s =>
  if pa < hostBase ∧ pa + n > Config.hbmBytes then .error (.fault (.noStorage pa))
  else if blocked s pa n then .error (.hold (.line va))
  else .ok ((), recallAll s pa n write)

/-- It comes to a range that it does not write whole: poison there is met (R453). -/
def reach (pa n va : Nat) (write : Bool) : Act Unit := do
  approach pa n va write
  let s ← get
  if pa < hostBase && anyPoison s ((pieces pa n).map (·.1)) then stop (.poison ((s.memory.keyAt pa).getD 0) va)

/-! ### Translation (R411) -/

/-- A walker comes to each entry of the walk of `va` in turn. -/
def reachWalk (va : Nat) : List (Nat × Nat) → Nat → Act Unit
  | [], _ => pure ()
  | (shift, width) :: rest, table => do
    let a := table + 16 * (va / 2 ^ shift % 2 ^ width)
    reach a 16 va false
    let e := tableEntry (← get) a
    if bit e 0 && !bit e 1 then reachWalk va rest (leafPA e)

/-- The state in which a walk of `va` reads its entries, or why it cannot. -/
def walked (s : State) (va : Nat) : Except Stop State := (reachWalk va levels (rootTable s) s).map (·.2)

/-- A walk, chosen freely against the cached leaves that differ from what it finds (R162). -/
def freshOrCached (a : Actor) (va rights : Nat) : Act Translation := fun s =>
  let cached := cachedFor s va
  match walk s va with
  | .leaf t =>
    match cached.filter fun c => !sameTranslation c t with
    | [] => .ok (t, s)
    | others => .ok ((t :: others).getD (pick s va (others.length + 1)) t, s)
  | .fails _ =>
    match cached with
    | [] => failTranslation a va rights s
    | others =>
      match others[pick s va (others.length + 1)]? with
      | some t => .ok (t, s)
      | none => failTranslation a va rights s

/-- The walker's mark on the leaf of an access, which comes to the entry first, and the translation that is kept (R411). -/
def useLeaf (t : Translation) (va : Nat) (write : Bool) : Act Unit := do
  match leafMark (← get) t write with
  | some (at', _) => reach at' 16 va true
  | none => pure ()
  modify fun s => markLeaf (cacheTranslation s t) t write

/-- A cached leaf, one of several by a free choice; nothing where none is cached. -/
def cachedLeaf (s : State) (va : Nat) : Option Translation :=
  match cachedFor s va with
  | [] => none
  | t :: rest => some ((t :: rest).getD (if rest.isEmpty then 0 else pick s va (rest.length + 1)) t)

/-- The translation that an access uses: a cached leaf or a fresh walk; where the two differ, either (R162, R411). A walk
that cannot read its entries leaves the cached ones. -/
def translate (a : Actor) (va rights : Nat) : Act Translation := fun s =>
  if walksPosted s a then
    match cachedLeaf s va with
    | none => .error (.walk (va / 65536) rights a.fetchWord)
    | some t => .ok (t, s)
  else
    match walked s va with
    | .ok t => freshOrCached a va rights t
    | .error e =>
      match cachedLeaf s va with
      | none => .error e
      | some t => .ok (t, s)

/-! ### Grants and segments (R385, R413, R414) -/

def grantTable (d : Domain) : Nat := d.gbase.toNat / 32 * 32 % 2 ^ 48

/-- Entry `i` of a domain's grant table. -/
def grantEntry (s : State) (dom i : Nat) : Grant :=
  let e := natOfBytes (seenAt s 0 (grantTable (domainOf s dom) + 32 * i) 32)
  ⟨dom, field e 63 0, field e 127 64, field e 131 128⟩

def grantCovers (g : Grant) (page : Nat) : Bool := g.page ≤ page && page < g.page + g.pages

/-- Binary search of [lo, hi) for the entry that covers a page. -/
def grantSearch (s : State) (dom page : Nat) : Nat → Nat → Nat → Option Grant
  | 0, _, _ => none
  | fuel + 1, lo, hi =>
    if lo < hi then
      let mid := (lo + hi) / 2
      let g := grantEntry s dom mid
      if grantCovers g page then some g
      else if page < g.page then grantSearch s dom page fuel lo mid
      else grantSearch s dom page fuel (mid + 1) hi
    else none

/-- A core comes to each entry that the search of a page reads. -/
def reachGrants (dom page va : Nat) : Nat → Nat → Nat → Act Unit
  | 0, _, _ => pure ()
  | fuel + 1, lo, hi =>
    if lo < hi then do
      let mid := (lo + hi) / 2
      reach (grantTable (domainOf (← get) dom) + 32 * mid) 32 va false
      let g := grantEntry (← get) dom mid
      if grantCovers g page then pure ()
      else if page < g.page then reachGrants dom page va fuel lo mid
      else reachGrants dom page va fuel (mid + 1) hi
    else pure ()

def grantHas (g : Grant) (rights : Nat) : Bool := g.rights.land rights == rights

def freshGrant (s : State) (dom page : Nat) : Option Grant :=
  grantSearch s dom page 14 0 (min 4096 (domainOf s dom).gcnt.toNat)

/-- The grant check of one page: buffered grants or a search; where the two disagree, either (R162). -/
def grantFor (s : State) (core dom page rights : Nat) : Bool :=
  let buffered := (coreOf s core).grants.filter fun g => g.domain == dom && grantCovers g page
  let fresh := match freshGrant s dom page with
    | some g => grantHas g rights
    | none => false
  if buffered.isEmpty then fresh
  else if buffered.any (grantHas · rights) = fresh then fresh
  else if pick s page 2 = 0 then fresh else !fresh

/-- Keep a grant in the core's lookaside buffer of 64. -/
def keepGrant (s : State) (core dom page : Nat) : State :=
  match freshGrant s dom page with
  | none => s
  | some g =>
    if (coreOf s core).grants.contains g then s
    else onCore s core fun k => { k with grants := (g :: k.grants).take 64 }

/-- The state in which the search of a page reads its entries, or why it cannot. -/
def searched (s : State) (dom page va : Nat) : Except Stop State :=
  (reachGrants dom page va 14 0 (min 4096 (domainOf s dom).gcnt.toNat) s).map (·.2)

/-- The check of R414. An access that is not made for a team, or through SY, is not checked. A search that cannot read its
entries leaves the grants of the lookaside buffer. -/
def checkGrant (a : Actor) (va rights : Nat) : Act Unit := fun s =>
  match a.team.bind (teamBy s) with
  | none => .ok ((), s)
  | some t =>
    if a.sy then .ok ((), s)
    else
      match searched s t.domain (va / 65536) va with
      | .ok s =>
        if grantFor s a.core t.domain (va / 65536) rights then .ok ((), keepGrant s a.core t.domain (va / 65536))
        else failTranslation a va rights s
      | .error e =>
        let held := (coreOf s a.core).grants.filter fun g => g.domain == t.domain && grantCovers g (va / 65536)
        if held.isEmpty then .error e
        else if held.any (grantHas · rights) then .ok ((), s)
        else failTranslation a va rights s

def segBase (f : Func) : Nat := f.fseg.toNat / 2 ^ 21 * 2 ^ 21 % 2 ^ 48
def segLen (f : Func) : Nat := f.flen.toNat / 2 ^ 21 * 2 ^ 21 % 2 ^ 48

/-- The segment check of a team of a VF, on device physical addresses (R385); the accesses of a queue's commands are made
for no team. -/
def inSegment (s : State) (team : Option Nat) (pa n : Nat) : Bool :=
  match funcOfTeam s team with
  | none => true
  | some f =>
    if f = 0 ∨ pa ≥ hostBase ∨ team = some machineUid then true
    else segBase (funcOf s f) ≤ pa && pa + n ≤ segBase (funcOf s f) + segLen (funcOf s f)

/-- Translation, segment, executable and stable-write checks of an access inside one page, and the walker's marks. -/
def locate (a : Actor) (va n rights : Nat) : Act Place := do
  let t ← translate a va rights
  let s ← get
  let e := t.entry.toNat
  let pa := placeOf t va
  if !inSegment s a.team pa n then failTranslation a va rights
  if pa < hostBase ∧ pa + n > Config.hbmBytes then stop (.fault (.noStorage pa))
  match a.fetchWord with
  | some i => require (leafXP e) causeFetch (7 + 8 * i)
  | none => pure ()
  require (!(writes rights && leafStable e)) causeStable (va / 65536)
  useLeaf t va (writes rights)
  pure (placeFor t va)

/-! ### Storage in scrub (R142, R154) -/

/-- A page or granule in scrub or on a free list: no access reaches it until it is allocated. -/
def pageWithheld : KvPage → Bool
  | .scrub => true
  | .ready => true
  | .retired => true
  | .free => false
  | .counted _ => false

def granuleWithheld : GranuleState → Bool
  | .scrub => true
  | .ready => true
  | .retired => true
  | .free => false
  | .zero _ => false
  | .covered _ => false

/-- The page or granule of `va` has been released and is not allocated again. -/
def inScrub (s : State) (va : Nat) : Bool :=
  let page := va / 65536
  s.domains.any fun (_, d) =>
    (d.kvbase.toNat ≤ page && page < d.kvbase.toNat + d.kvpages.toNat &&
      pageWithheld (lookD d.pages (page - d.kvbase.toNat) .free)) ||
    (d.covbase.toNat ≤ page && page < d.covbase.toNat + d.covgran.toNat &&
      granuleWithheld (granuleAt d (page - d.covbase.toNat)).state)

/-! ### One access inside one sector -/

/-- The writes since the kernel boundary of a core, newest first (R134). -/
def writesSince (s : State) (core : Nat) : List OldWrite := s.history.filter fun h => h.step ≥ (coreOf s core).boundary

/-- The numbers of newest writes that may be undone: no event is undone in part. -/
def cutsFrom : Option Nat → Nat → List OldWrite → List Nat
  | _, n, [] => [n]
  | last, n, h :: rest => (if last = some h.event then [] else [n]) ++ cutsFrom (some h.event) (n + 1) rest

/-- Bytes at `a` and the tag of its granule before the writes `hs`, newest first. -/
def undone (hs : List OldWrite) (a : Nat) (v : List Byte × Bool) : List Byte × Bool :=
  hs.foldl (fun v h =>
    (patch a v.1 h.address h.bytes,
      if (touched h.address h.bytes.length).contains (a / 16) then memNat h.tagged (a / 16) else v.2)) v

/-- The writes that a load of a core does not see where its page is stable: those after one point since the core's kernel
boundary, the same for all of the load (R134, R161); `i` numbers the choice. -/
def unseenWrites (s : State) (core i : Nat) : List OldWrite :=
  let hs := writesSince s core
  let cuts := cutsFrom none 0 hs
  hs.take (cuts.getD (pick s i cuts.length) 0)

/-- Bytes of memory at a place, with the tag of the first granule; on a stable page, without the writes `unseen`. -/
def loadAt (p : Place) (va n : Nat) (unseen : List OldWrite) : Act (List Byte × Bool) := fun s =>
  if p.pa < hostBase ∧ memNat s.poison (p.pa / 64) then .error (.poison p.key va)
  else
    let bs := s.memory.readKeyed p.key p.pa n
    let t := physTag s p.key p.pa
    let v := if p.hostHomed then (throughPending s.pending p.pa bs, tagThroughPending s.pending (p.pa / 16) t) else (bs, t)
    .ok (if p.stable then undone unseen p.pa v else v, s)

/-- An Absent sector of a window is filled: its bytes and its four tags (R124). The translation of the sector. -/
def fillSector (a : Actor) (num : Nat) (w : Window) (va : Nat) : Act Translation := do
  match (sectorState w (sectorOf w va)).leaf? with
  | some t => pure t
  | none =>
    let base := va / 64 * 64
    comeTo a base false
    let p ← locate a base 64 rightLD
    let granule (g : Nat) : Act Unit := do
      let (bs, t) ← loadAt { p with pa := p.pa + 16 * g } (base + 16 * g) 16 []
      modify fun s => onCore s a.core fun k => stashPut k (stashOf w (base + 16 * g)) bs t
    [0, 1, 2, 3].forM granule
    modify fun s => onCore s a.core fun k => setSector k num (sectorOf w va) (.clean p.leaf)
    pure p.leaf

/-- A store that covers a whole Absent sector fills nothing, and is translated as a store (R124, R416). The translation of the
sector. -/
def coverAbsent (a : Actor) (w : Window) (va rights : Nat) : Act Translation := do
  match (sectorState w (sectorOf w va)).leaf? with
  | some t => pure t
  | none =>
    let p ← locate a va 64 rights
    pure p.leaf

/-- The access set of a window as a second check (R123). -/
def checkWindow (a : Actor) (w : Window) (rights : Nat) : Act Unit :=
  if (rights.land rightLD != 0 && !w.ld) || (writes rights && !w.st) then raiseCap a.reg .perm else pure ()

/-- An access to the stash aperture (R127): the byte of the stash region it reaches. -/
def apertureByte (a : Actor) (va n rights : Nat) : Act Nat := do
  if !a.served then failTranslation a va 0
  checkGrant a va rights
  let k := coreOf (← get) a.core
  let o := va - apertureBase
  if isBasecamp a.core then raise causeStashMap (condInfo 0 11)
  if o + n > (k.sb - k.vb) * 4096 then raise causeStashMap (condInfo 0 12)
  match k.windows.find? fun (_, w) => o < (w.offset + w.length) * 4096 && w.offset * 4096 < o + n with
  | some (num, _) => raise causeStashMap (condInfo num 8)
  | none => pure o

/-- The checks before any cache is consulted: the grants, then the line's owner and scrub. -/
def beforeCaches (a : Actor) (va rights : Nat) : Act Unit := do
  checkGrant a va rights
  let s ← get
  if lineOwned s va then hold (.line va)
  if inScrub s va then hold (.scrubbed va)

/-- An ordered store waits for the stores of its context to host-homed memory that stood on their way when it issued (R167). -/
def behindStores (s : State) (a : Actor) : Bool := a.release.any fun n => (s.pending.take n).any (·.uid == a.uid)

/-- A store or an atomic leaves the sector of a window Dirty (R124); a stable page takes none, through a window either (R135). -/
def dirtySector (a : Actor) (num : Nat) (w : Window) (va : Nat) (t : Translation) : Act Unit := do
  require (!leafStable t.entry.toNat) causeStable (va / 65536)
  comeTo a va true
  modify fun s => onCore s a.core fun k => setSector k num (sectorOf w va) (.dirty t)

/-- What a window serves of a present sector; of a stable page, without the writes `unseen` (R134, R161). -/
def windowLoad (k : Core) (w : Window) (t : Translation) (va n : Nat) (unseen : List OldWrite) : List Byte × Bool :=
  let v := (stashBytes k (stashOf w va) n, memNat k.stashTags (stashOf w va / 16))
  if leafStable t.entry.toNat then undone unseen (placeOf t va) v else v

/-- A read of `n` bytes inside one sector, and the tag of the granule it starts in. An atomic leaves the sector of a window
Dirty, whatever it then writes (R124). -/
def readPieceOf (unseen : List OldWrite) (a : Actor) (va n rights : Nat) : Act (List Byte × Bool) := do
  if va ≥ apertureBase then
    let o ← apertureByte a va n rights
    let k := coreOf (← get) a.core
    pure (stashBytes k o n, memNat k.stashTags (o / 16))
  else if va ≥ trustBase then
    if !a.sy then raiseCap a.reg .perm
    let s ← get
    pure ((upFrom (va - trustBase) n).map (trustByte s), false)
  else
    beforeCaches a va rights
    let s ← get
    match if a.served then windowAt (coreOf s a.core) va else none with
    | some (num, w) =>
      checkWindow a w rights
      let t ← fillSector a num w va
      if writes rights then dirtySector a num w va t
      let v := windowLoad (coreOf (← get) a.core) w t va n unseen
      pure (v.1, v.2 && w.lc)
    | none =>
      comeTo a va false
      let p ← locate a va n rights
      loadAt p va n unseen

def readPiece (a : Actor) (va n rights : Nat) : Act (List Byte × Bool) := do
  readPieceOf (unseenWrites (← get) a.core va) a va n rights

/-- A write inside one sector; its granules take the tag `tag`. -/
def writePiece (a : Actor) (va : Nat) (bs : List Byte) (tag : Bool) (rights : Nat) : Act Unit := do
  if va ≥ apertureBase then
    let o ← apertureByte a va bs.length rights
    modify fun s => onCore s a.core fun k => stashPut k o bs tag
  else if va ≥ trustBase then
    if !a.sy then raiseCap a.reg .perm
    modify fun s =>
      if va = trustBase ∧ bs.length = 8 ∧ rights = rightST then trustCommand s (natOfBytes bs) else s
  else
    beforeCaches a va rights
    let s ← get
    match if a.served then windowAt (coreOf s a.core) va else none with
    | some (num, w) =>
      checkWindow a w rights
      if tag ∧ !w.sc then raiseCap a.reg .perm
      let t ← if bs.length < 64 then fillSector a num w va else coverAbsent a w va rights
      dirtySector a num w va t
      if behindStores s a then hold .visible
      modify fun s => onCore s a.core fun k => stashPut k (stashOf w va) bs tag
    | none =>
      comeTo a va true
      let p ← locate a va bs.length rights
      if !p.hostHomed && behindStores s a then hold .visible
      modify fun s => storeAt s p a bs tag

/-- Parts of a sector that cover it whole, each an event of its own, written past the actor's window: they clear its poison
(R453). -/
def writeWhole (a : Actor) (sec : Nat) (parts : List (Nat × List Byte × Bool)) : Act Unit := do
  beforeCaches a sec rightST
  comeTo a sec true
  let p ← locate a sec 64 rightST
  if !p.hostHomed && behindStores (← get) a then hold .visible
  modify fun s =>
    let s := parts.foldl (fun s e => storeAt s { p with pa := p.pa + (e.1 - sec) } a e.2.1 e.2.2) s
    { s with poison := removeNat s.poison (p.pa / 64) }

/-! ### Accesses of any length -/

/-- A read of a range, sector by sector. -/
def readPieces (unseen : List OldWrite) (a : Actor) (rights : Nat) : List (Nat × Nat) → Act (List Byte)
  | [] => pure []
  | (va, n) :: rest => do
    let (bs, _) ← readPieceOf unseen a va n rights
    let more ← readPieces unseen a rights rest
    pure (bs ++ more)

/-- A read of a range is one load: from stable pages it returns what they held at one point (R161). -/
def readRange (a : Actor) (va n : Nat) : Act (List Byte) := do
  readPieces (unseenWrites (← get) a.core va) a rightLD (pieces va n)

/-- A write of a range, sector by sector; it clears the tags it touches (R62). -/
def writePieces (a : Actor) (rights : Nat) : List (Nat × Nat) → List Byte → Act Unit
  | [], _ => pure ()
  | (va, n) :: rest, bs => do
    writePiece a va (bs.take n) false rights
    writePieces a rights rest (bs.drop n)

def writeRange (a : Actor) (va : Nat) (bs : List Byte) : Act Unit := writePieces a rightST (pieces va bs.length) bs

/-! ### Accesses of the machine's own for a function (R398) -/

/-- A team of no one, in whose name the machine makes accesses for a function. -/
def blankTeam (f dom : Nat) : Team where
  uid := machineUid
  ident := 0
  func := f
  domain := dom
  queue := 0
  entry := 0
  tag := 0
  flags := 0
  cores := []
  quota := 0
  nv := 0
  ne := 0
  vb := 0
  sb := 0
  cb := 0
  text := 0
  textlen := 0
  gen := 0
  entryOff := 0
  upcall := none
  refill := none
  route := 0
  seed := 0
  podset := []
  binding := none
  descs := []
  descTags := []
  resident := false
  ended := none
  saved := []
  images := []
  away := []
  places := []
  keys := []
  admitted := 0
  draws := 0
  intervals := 0
  slice := 0
  entered := 0
  ran := false
  sequence := 0

/-- The engine of a core that reads and writes the tables of a domain: no grant is asked of it (R335, R403). -/
def tableActor (core : Nat) : Actor := ⟨core, false, some machineUid, machineUid, true, 0, none, none⟩

def withoutBlank (s : State) : State := { s with teams := s.teams.filter (·.uid != machineUid) }

/-- The machine acts for a function and a domain, as `tableActor` does: its walks are those of the function. -/
def inName {α : Type} (f dom : Nat) (m : Act α) : Act α := fun s =>
  match m { s with teams := blankTeam f dom :: s.teams } with
  | .ok (v, t) => .ok (v, withoutBlank t)
  | .error e => .error e

end Sys2Proof.Machine
end

