-- ==== Sys2Proof/Machine/Pools.lean ====
section
/-!
DEFINITION. KV pages and their counts, the scrub queue, sequence records and sequence maps (R143 to R155, R303 to R307,
R335).
-/

namespace Sys2Proof.Machine

/-! ### Pages of a KV pool -/

/-- Where page number `page` of virtual memory stands in a domain's KV pool. -/
def kvIndex (d : Domain) (page : Nat) : Option Nat :=
  if d.kvbase.toNat ≤ page ∧ page < d.kvbase.toNat + d.kvpages.toNat then some (page - d.kvbase.toNat) else none

def kvPage (d : Domain) (i : Nat) : KvPage := lookD d.pages i .free

def setKvPage (s : State) (dom i : Nat) (p : KvPage) : State :=
  onDomain s dom fun d => { d with pages := putD d.pages i p .free }

/-- Reference count of a page (R149). -/
def kvCount (d : Domain) (i : Nat) : Nat :=
  match kvPage d i with
  | .counted n => n
  | .free | .scrub | .ready | .retired => 0

/-- One reference more. -/
def raiseCount (s : State) (dom i : Nat) : State := setKvPage s dom i (.counted (kvCount (domainOf s dom) i + 1))

/-- One reference less; a page whose count reaches 0 goes to scrub (R154). A page without a count, which only map entries that
software has doubled can name, goes to scrub again (DESIGN CHOICE, log 86). -/
def lowerCount (s : State) (dom i : Nat) : State :=
  let n := kvCount (domainOf s dom) i
  if n ≤ 1 then
    { setKvPage s dom i .scrub with scrub := s.scrub ++ [⟨.kv dom i, none⟩] }
  else setKvPage s dom i (.counted (n - 1))

/-- Pages with a count of 1 or more. -/
def countedPages (d : Domain) : Nat :=
  (d.pages.filter fun (_, p) => match p with
    | .counted _ => true
    | .free | .scrub | .ready | .retired => false).length

/-- Pages on no free list for good (R453). -/
def retiredPages (d : Domain) : Nat := (d.pages.filter fun (_, p) => decide (p = .retired)).length

/-- The sum of every slot's reservation. -/
def reservedPages (d : Domain) : Nat := d.reserved.foldl (fun n e => n + e.2) 0

/-- Unreserved pages: those free and those in scrub, less the reservations (R152). -/
def unreserved (d : Domain) : Nat := d.kvpages.toNat - countedPages d - retiredPages d - reservedPages d

/-- The page can be allocated. -/
def pageReady : KvPage → Bool
  | .free => true
  | .ready => true
  | .counted _ | .scrub | .retired => false

/-- The first free page at or after `i`, cyclically. -/
def findFree (d : Domain) : Nat → Nat → Option Nat
  | 0, _ => none
  | fuel + 1, i =>
    let i := i % d.kvpages.toNat
    if pageReady (kvPage d i) then some i else findFree d fuel (i + 1)

/-- A page of the scrubbed free list: which one is a free choice. -/
def freePage (s : State) (dom : Nat) : Option Nat :=
  let d := domainOf s dom
  if d.kvpages.toNat = 0 then none else findFree d (d.pages.length + 1) (pick s 1 d.kvpages.toNat)

/-- The capability of a sequence map entry over page `page` of virtual memory (R144). -/
def pageCap (page : Nat) : Cap := boundedCap (permLD + permST) (page * 65536) 65536

/-! ### Sequence records (R335) -/

/-- A record: 2,048 bits, and the tags of its sixteen granules. -/
structure Rec where
  bits : Nat
  tags : Nat
deriving Repr

def Rec.field (r : Rec) (hi lo : Nat) : Nat := Machine.field r.bits hi lo
def Rec.set (r : Rec) (hi lo v : Nat) : Rec := { r with bits := setField r.bits hi lo v }
/-- A capability field that starts at byte `o`. -/
def Rec.cap (r : Rec) (o : Nat) : Cap := ⟨bit r.tags (o / 16), BitVec.ofNat 128 (Machine.field r.bits (8 * o + 127) (8 * o))⟩

def Rec.state (r : Rec) : Nat := r.field 1 0
def Rec.draft (r : Rec) : Bool := r.field 2 2 == 1
def Rec.satf (r : Rec) : Bool := r.field 3 3 == 1
def Rec.upe (r : Rec) : Bool := r.field 4 4 == 1
def Rec.depth (r : Rec) : Nat := r.field 15 8
def Rec.gen (r : Rec) : Nat := r.field 31 16
def Rec.nl (r : Rec) : Nat := r.field 39 32 + 1
def Rec.logp (r : Rec) : Nat := r.field 43 40
def Rec.mapSlot (r : Rec) : Nat := r.field 47 44
def Rec.root (r : Rec) : Nat := r.field 74 64
def Rec.bound (r : Rec) : Bool := r.field 75 75 == 1
def Rec.mb (r : Rec) : Nat := r.field 127 96
def Rec.pos (r : Rec) : Nat := r.field 159 128
def Rec.rlen (r : Rec) : Nat := r.field 191 160
def Rec.matched (r : Rec) : Nat := r.field 223 192
def Rec.q (r : Rec) : Nat := r.field 255 224
def Rec.ntok (r : Rec) : Nat := r.field 287 256
def Rec.step (r : Rec) : Nat := r.field 319 288
def Rec.errcnt (r : Rec) : Nat := r.field 351 320
def Rec.dec (r : Rec) : Nat := r.field 383 352
def Rec.seed (r : Rec) : Nat := r.field 447 384
def Rec.fq (r : Rec) : Nat := r.field 511 448
def Rec.qreg (r : Rec) (i : Nat) : Nat := r.field (512 + 16 * i + 15) (512 + 16 * i)
def Rec.map (r : Rec) : Cap := r.cap 80
def Rec.scr (r : Rec) : Cap := r.cap 96
def Rec.pen (r : Rec) : Cap := r.cap 112
def Rec.tok (r : Rec) : Cap := r.cap 128
def Rec.ovl (r : Rec) : Cap := r.cap 144

/-- A sequence key (R145). -/
structure Key where
  seq : Nat
  gen : Nat
  layer : Nat
  block : Nat
  clean : Bool                   -- its reserved bits are 0
deriving Repr

def keyOf (x : Nat) : Key :=
  ⟨field x 19 0, field x 35 20, field x 43 36, field x 79 48, field x 127 80 == 0 && field x 47 44 == 0⟩

/-- An engine that works for a team: its accesses pass the grants of the team's domain. -/
def engineActor (core : Nat) (team : Option Nat) : Actor := ⟨core, false, team, machineUid, false, 0, none, none⟩

/-- The engine that acts for the issuing context. -/
def myEngine (s : State) : Actor :=
  ⟨(who s).core, false, teamUidOf s (who s), (me s).uid, privileged s, 0, none, none⟩

/-- The domain of the issuing context's team. -/
def myDomain (s : State) : Nat :=
  match teamOf s (who s) with
  | some t => t.domain
  | none => 0

def recordAt (s : State) (dom slot : Nat) : Nat := (domainOf s dom).seqBase + 256 * slot

/-- The pieces of a range, one a granule. -/
def granulesFrom (va : Nat) (n : Nat) : List Nat := (upFrom 0 n).map fun i => va + 16 * i

def readGranules (a : Actor) : List Nat → Act (List (Nat × Bool))
  | [] => pure []
  | va :: rest => do
    let (bs, t) ← readPiece a va 16 rightLD
    let more ← readGranules a rest
    pure ((natOfBytes bs, t) :: more)

def joinGranules : List (Nat × Bool) → Nat × Nat
  | [] => (0, 0)
  | (x, t) :: rest =>
    let (xs, ts) := joinGranules rest
    (x + 2 ^ 128 * xs, (if t then 1 else 0) + 2 * ts)

/-- Read the record of a sequence slot. -/
def readRecord (a : Actor) (dom slot : Nat) : Act Rec := do
  let s ← get
  let gs ← readGranules a (granulesFrom (recordAt s dom slot) 16)
  let (bits, tags) := joinGranules gs
  pure ⟨bits, tags⟩

/-- Write the parts of a record that instructions change: bits [639:0], and OVL. The reservation is kept beside it. -/
def writeRecord (a : Actor) (dom slot : Nat) (r : Rec) : Act Unit := do
  let s ← get
  let base := recordAt s dom slot
  writeRange a base (bytesOf 80 r.bits)
  writePiece a (base + 144) (bytesOf 16 (field r.bits 1279 1152)) (bit r.tags 9) rightST
  modify fun s => onDomain s dom fun d => { d with reserved := putD d.reserved slot r.q 0 }

/-- The record with OVL replaced. -/
def Rec.setOvl (r : Rec) (c : Cap) : Rec :=
  { bits := setField r.bits 1279 1152 c.bits.toNat
    tags := setField r.tags 9 9 (if c.tag then 1 else 0) }

/-- The slot exists in the domain's table (R407). -/
def slotKnown (s : State) (dom slot : Nat) : Bool := slot < (domainOf s dom).seqCount

/-! ### Sequence maps (R144) -/

/-- Address of the entry for (layer, block), checked through MAP; a refusal is a capability fault with REG 0 (log 9). -/
def mapEntryAt (r : Rec) (l b perm : Nat) : Act Nat := do
  let va := capAddr r.map + 16 * (l * r.mb + b)
  checked 0 (capCheck r.map va 16 perm)
  pure va

def readMap (a : Actor) (r : Rec) (l b : Nat) : Act Cap := do
  let va ← mapEntryAt r l b permLD
  let (bs, t) ← readPiece a va 16 rightLD
  pure ⟨t, BitVec.ofNat 128 (natOfBytes bs)⟩

def writeMap (a : Actor) (r : Rec) (l b : Nat) (c : Cap) : Act Unit := do
  let va ← mapEntryAt r l b permST
  writePiece a va (bytesOf 16 c.bits.toNat) c.tag rightST

def isNull (c : Cap) : Bool := c == Cap.null

/-- The page of a map entry: a page capability bounds it, wherever its cursor stands (R143). Of an entry that software
made neither null nor a page capability it is the page of its address (log 92). -/
def pageOfEntry (e : Cap) : Nat :=
  match capBounds e with
  | some (base, _) => base / 65536
  | none => capAddr e / 65536

/-- The page a map entry references, as an index into the domain's pool. -/
def entryPage (s : State) (dom : Nat) (c : Cap) : Option Nat := kvIndex (domainOf s dom) (pageOfEntry c)

/-- Null one entry of the map and lower its page's count. -/
def releaseEntry (a : Actor) (dom : Nat) (r : Rec) (l b : Nat) : Act Unit := do
  let c ← readMap a r l b
  if isNull c then pure ()
  else
    writeMap a r l b Cap.null
    modify fun s => match entryPage s dom c with
      | some i => lowerCount s dom i
      | none => s

def releaseEntries (a : Actor) (dom : Nat) (r : Rec) : List (Nat × Nat) → Act Unit
  | [] => pure ()
  | (l, b) :: rest => do
    releaseEntry a dom r l b
    releaseEntries a dom r rest

/-- Every (layer, block) pair. -/
def layerBlocks (nl blocks : Nat) : List (Nat × Nat) :=
  (upFrom 0 nl).flatMap fun l => (upFrom 0 blocks).map fun b => (l, b)

def dropDraft (s : State) (dom slot : Nat) : State :=
  onDomain s dom fun d => { d with drafts := d.drafts.filter (·.slot != slot) }

/-- End a sequence (R307): its entries, its draft and its reservation go, and the generation advances. -/
def endSequence (a : Actor) (dom slot : Nat) (r : Rec) : Act Nat := do
  releaseEntries a dom r (layerBlocks r.nl r.mb)
  let gen := (r.gen + 1) % 65536
  let cleared := ((r.set 31 16 gen).set 1 0 0).set 255 224 0
  let cleared := ((cleared.set 2 2 0).set 15 8 0).setOvl Cap.null
  writeRecord a dom slot cleared
  modify fun s => dropDraft s dom slot
  pure gen

/-! ### Drafts (R349) -/

def draftOf (s : State) (dom slot : Nat) : Option Draft := (domainOf s dom).drafts.find? (·.slot == slot)

def setDraft (s : State) (dom : Nat) (d : Draft) : State :=
  onDomain s dom fun x => { x with drafts := d :: x.drafts.filter (·.slot != d.slot) }

end Sys2Proof.Machine
end

