-- ==== Sys2Proof/Machine/HostRings.lean ====
section
/-!
DEFINITION. What the device keeps and writes for the host: the queue control block, completion records, interrupts and
the events of a function (R386 to R389, R395, R422).
-/

namespace Sys2Proof.Machine

/-! ### Fields of QCFG (R386) -/

def qcfgEnable (c : BitVec 128) : Bool := bit c.toNat 26
def qcfgLoc (c : BitVec 128) : Nat := field c.toNat 45 45
def qcfgHome (c : BitVec 128) : Nat := field c.toNat 44 34
def qcfgVec (c : BitVec 128) : Nat := field c.toNat 33 28
def qcfgSample (c : BitVec 128) : Bool := bit c.toNat 27
def qcfgFunc (c : BitVec 128) : Nat := field c.toNat 22 16
def qcfgDomain (c : BitVec 128) : Nat := field c.toNat 15 0
def qcfgQcb (c : BitVec 128) : Nat := field c.toNat 127 64

/-- A location of a queue: host memory, or the function's segment (R386); the PF has none, so its offsets count from 0
(log 10). -/
def ringPlace (s : State) (cfg : BitVec 128) (addr : Nat) : Nat :=
  if qcfgLoc cfg = 0 then hostBase + addr
  else if qcfgFunc cfg = 0 then addr else segBase (funcOf s (qcfgFunc cfg)) + addr

/-- A read of the machine's own for the host, through the stores on their way. -/
def ownRead (s : State) (a n : Nat) : Nat :=
  natOfBytes (throughPending s.pending a (s.memory.bytes a n))

/-- Such a read by an engine that comes to the range first (R125, R130, R453). -/
def ringRead (a n : Nat) : Act Nat := do
  reach a n 0 false
  pure (ownRead (← get) a n)

/-- The I/O die runs: the host's link and the queues work (R431). -/
def linkRuns (s : State) : Bool := !(lookD s.dies 8 {}).halted

/-! ### The queue control block (R387, R388) -/

def copyAt (s : State) (q i : Nat) : Nat :=
  let cfg := (queueOf s q).cfg
  ringPlace s cfg (qcfgQcb cfg) + 64 * i

/-- Copy `i` of a queue's QCB stands in a poisoned sector. -/
def copyPoisoned (s : State) (q i : Nat) : Bool :=
  let a := copyAt s q i
  a < hostBase && anyPoison s ((pieces a 64).map (·.1))

/-- Copy `i` of a queue's QCB; a read of a poisoned one returns nothing (R453). -/
def readCopy (s : State) (q i : Nat) : Nat := if copyPoisoned s q i then 0 else ownRead s (copyAt s q i) 64

def copyGen (x : Nat) : Nat := field x 479 448

def copyValid (x : Nat) : Bool :=
  field x 511 480 == 2 ^ 32 - 1 - copyGen x && field x 127 11 == 0 && field x 0 0 == 0

/-- `a` is greater than `b` (R388). -/
def genGreater (a b : Nat) : Bool :=
  let d := (a + 2 ^ 32 - b) % 2 ^ 32
  1 ≤ d && d < 2 ^ 31

/-- The current copy of a queue's QCB, with its number. -/
def currentCopy (s : State) (q : Nat) : Option (Nat × Nat) :=
  let c0 := readCopy s q 0
  let c1 := readCopy s q 1
  match copyValid c0, copyValid c1 with
  | true, true => if genGreater (copyGen c1) (copyGen c0) then some (1, c1) else some (0, c0)
  | true, false => some (0, c0)
  | false, true => some (1, c1)
  | false, false => none

/-- The queue as its home core takes it from a copy. -/
def queueFrom (q : Queue) (n x : Nat) : Queue :=
  { q with
    current := n, gen := BitVec.ofNat 32 (copyGen x), fenced := field x 447 384, consumed := field x 383 320
    cpos := field x 319 256, cring := field x 255 192, ring := field x 191 128, clog2 := field x 10 6
    log2 := field x 5 1, since := 0 }

/-- A QCB update: the copy that is not current is written, its last doubleword last (R388). -/
def updateQcb (s : State) (n : Nat) : State :=
  let q := queueOf s n
  let gen := (q.gen.toNat + 1) % 2 ^ 32
  let at' := copyAt s n (1 - q.current)
  let body := q.log2 * 2 + q.clog2 * 2 ^ 6 + q.ring * 2 ^ 128 + q.cring * 2 ^ 192 + q.cpos * 2 ^ 256 +
    q.consumed * 2 ^ 320 + q.fenced * 2 ^ 384
  let s := sysStore s at' (bytesOf 56 body)
  let s := sysStore s (at' + 56) (bytesOf 8 (gen + (2 ^ 32 - 1 - gen) * 2 ^ 32))
  onQueue s n fun q => { q with gen := BitVec.ofNat 32 gen, current := 1 - q.current, since := 0 }

/-- No channel owns what the home core writes for a queue: its QCB and its next completion record (R130). -/
def queueClear (s : State) (n : Nat) : Bool :=
  let q := queueOf s n
  !blocked s (copyAt s n 0) 128 &&
    !blocked s (ringPlace s q.cfg (q.cring + 16 * (q.cpos % 2 ^ q.clog2))) 16

/-! ### Retirement (R389, R395) -/

def commandOf (q : Queue) (entry : Nat) : Option Command := q.commands.find? (·.entry == entry)

def commandTag (c : Command) : Nat := field c.words.toNat 63 32
def commandCmpl (c : Command) : Bool := bit c.words.toNat 9
def commandIrq (c : Command) : Bool := bit c.words.toNat 10
def commandBar (c : Command) : Bool := bit c.words.toNat 8
def commandOpc (c : Command) : Nat := field c.words.toNat 7 0

/-- Write the completion record of a command and raise its interrupt. -/
def completeCommand (s : State) (n : Nat) (c : Command) (status : Nat) : State :=
  if commandCmpl c then
    let q := queueOf s n
    let a := ringPlace s q.cfg (q.cring + 16 * (q.cpos % 2 ^ q.clog2))
    let s := sysStore s a (bytesOf 16 (c.entry + 1 + status * 2 ^ 64 + commandTag c * 2 ^ 96))
    let s := onQueue s n fun q => { q with cpos := q.cpos + 1 }
    if commandIrq c then { s with interrupts := s.interrupts ++ [⟨qcfgFunc q.cfg, qcfgVec q.cfg⟩] } else s
  else s

/-- The queue still needs its intake slot (R392). -/
def needsSlot (q : Queue) : Bool := q.commands.any fun c => !c.started || commandOpc c == 2

/-- A queue after a change of its commands: it gives its slot up when its need of it ends (R392). -/
def keepSlot (old new : Queue) : Queue := { new with slot := new.slot && (needsSlot new || !needsSlot old) }

/-- A command retires with a status; a FENCE updates the QCB before it does (R388, R396). -/
def retire (s : State) (n entry status : Nat) : State :=
  match commandOf (queueOf s n) entry with
  | none => s
  | some c =>
    let s := if commandOpc c = 4 then updateQcb s n else s
    let s := completeCommand s n c status
    onQueue s n fun q => keepSlot q { q with commands := q.commands.filter (·.entry != entry) }

/-! ### Events (R422) -/

/-- An event joins those that wait to be written to the function's ring. -/
def postEvent (s : State) (f : Nat) (e : HostEvent) : State :=
  onFunc s f fun x => { x with events := x.events ++ [e] }

def saturate32 (n : Nat) : Nat := min n (2 ^ 32 - 1)

def countDrop (s : State) (f : Nat) : State :=
  onFunc s f fun x => { x with fdrop := BitVec.ofNat 32 (saturate32 (x.fdrop.toNat + 1)) }

/-! ### Tickets (R420) -/

/-- A ticket value that is not 0 and not outstanding, searched upward from a free value. -/
def freshTicket (s : State) : Nat → Nat → Nat
  | 0, t => t
  | fuel + 1, t =>
    if t % 2 ^ 32 = 0 ∨ s.tickets.any (·.number == t % 2 ^ 32) then freshTicket s fuel (t + 1) else t % 2 ^ 32

def newTicket (s : State) : Nat := freshTicket s (s.tickets.length + 2) (pick s 2 (2 ^ 32))

/-- The ticket of a page under service for a purpose: one for each page of the package (R420). -/
def ticketFor (s : State) (page : Nat) (walks : Bool) : Option Ticket :=
  s.tickets.find? fun t => t.page == page && t.kind != .zeroing && ((t.kind == .walk) == walks)

end Sys2Proof.Machine
end

