-- ==== Sys2Proof/Machine/Tickets.lean ====
section
/-!
DEFINITION. Tickets: a walk that is posted to the driver, and what the end of a service does to the contexts that wait for it
or were told of it (R398, R420, R421, R435).
-/

namespace Sys2Proof.Machine

/-! ### Contexts under a ticket (R420, R421) -/

/-- The trap registers of a context (R79). -/
def setTrapRegs (t : Trap) (x : Context) : Context :=
  { x with
    trapcause := BitVec.ofNat 8 t.cause, trappc := BitVec.ofNat 80 (capAddr x.code)
    trapinfo := BitVec.ofNat 64 t.info, needs := t.rights }

/-- The context is ready again: the wait for its next fetch begins in this cycle of its core (R16, R20). -/
def awake (k : Core) (x : Context) : Context := { x with wait := .none, fetchSince := k.cycle }

/-- Nothing of a service stands against the context any more: no ticket, no recorded notice, no denial (R420, R423, R435). -/
def unserved (x : Context) : Context := { x with ticket := 0, recorded := false, denied := false }

/-- The page of a translation fault, or of a fetch fault with sub-cause 6. -/
def faultPage (x : Context) : Option Nat :=
  if x.trapcause.toNat = causeTranslation then some x.trapinfo.toNat
  else if x.trapcause.toNat = causeFetch ∧ field x.trapinfo.toNat 2 0 = 6 then
    some ((x.trappc.toNat + 4 * field x.trapinfo.toNat 5 3) / 65536)
  else none

/-- A trapped context of a core resumes at its trapping instruction. One whose pre-emption is pending, or whose fault is not of
a page, stays trapped: the supervisor serves it, once it is restored, or again (R252, R382, R435). -/
def resumeTrapped (k : Core) (x : Context) : Context :=
  if x.preempt || (faultPage x).isNone then { x with ticket := 0, recorded := true }
  else { awake k (unserved x) with status := .live, code := withCursor x.code x.trappc.toNat }

/-- The context waits for ticket `n`, out of the rotation (R420). -/
def waitsFor (n : Nat) (x : Context) : Bool :=
  match x.wait with
  | .page t _ => t == n
  | _ => false

/-- A service completes for one context: one that waits for it resumes, another that was told of it takes a notice (R421). -/
def serviceDone (n : Nat) (k : Core) (x : Context) : Context :=
  let told := x.upcalled.contains n
  let x := { x with upcalled := x.upcalled.filter (· != n) }
  if x.status = .trapped ∧ x.ticket = n ∧ n ≠ 0 then resumeTrapped k x
  else if waitsFor n x then awake k x
  else if told ∧ x.status ≠ .free ∧ x.status ≠ .away then { x with notices := x.notices ++ [n] }
  else x

/-- The fault that a walk answered as failing raises in a context that waits for it. -/
def walkTrap (page : Nat) (x : Context) : Trap :=
  match x.wait with
  | .page _ (some i) => ⟨causeFetch, 6 + 8 * i, x.needs⟩
  | _ => ⟨causeTranslation, page, x.needs⟩

/-- The service that a context waits for has ended while it stands stopped, or away from its slot: its wait is over, and where
the service was denied it goes on as denied (R420, R423). -/
def waitEnded (t : Ticket) (denied : Bool) (x : Context) : Context :=
  let y := if denied ∧ t.kind = .walk then setTrapRegs (walkTrap t.page x) x else x
  { y with wait := .none, denied := denied }

/-- A service ends for a context that `ctx.save.evict` has saved, or that is away with its team and has been denied: one that
is trapped on it the supervisor serves again once it is restored (R435). -/
def savedDone (t : Ticket) (denied : Bool) (x : Context) : Context :=
  let told := x.upcalled.contains t.number
  let x := { x with upcalled := x.upcalled.filter (· != t.number) }
  if x.status = .trapped ∧ x.ticket = t.number ∧ t.number ≠ 0 then { x with ticket := 0, recorded := true, denied := denied }
  else if waitsFor t.number x then waitEnded t denied x
  else if told ∧ !denied then { x with notices := x.notices ++ [t.number] }
  else x

/-- Change every context that `ctx.save.evict` has saved. -/
def onSaved (f : Context → Context) (s : State) : State :=
  { s with teams := s.teams.map fun t =>
      { t with saved := t.saved.map fun e => if e.out then { e with context := f e.context } else e } }

/-- Change every context of the package that stands in a slot, or away from its cores with its team. -/
def onAllContexts (f : Core → Context → Context) (s : State) : State :=
  { s with
    cores := s.cores.map fun (c, k) => (c, { k with slots := k.slots.map fun (i, x) => (i, f k x) })
    teams := s.teams.map fun t => { t with away := t.away.map fun (i, x) => (i, f (coreOf s i.core) x) } }

/-- No context counts as told of ticket `n` any more: it is over, and its number may name another (R420, R421). -/
def forgetTicket (n : Nat) (s : State) : State :=
  let forget (x : Context) : Context := { x with upcalled := x.upcalled.filter (· != n) }
  let s := onAllContexts (fun _ => forget) s
  { s with teams := s.teams.map fun t => { t with saved := t.saved.map fun e => { e with context := forget e.context } } }

/-! ### Tickets begin and end -/

/-- A ticket for a page, shared when one is outstanding. -/
def ticketOn (s : State) (kind : TicketKind) (f dom page : Nat) (parked : List Nat) : Nat × State :=
  match ticketFor s page (kind == .walk) with
  | some t => (t.number, s)
  | none =>
    let n := newTicket s
    (n, { s with tickets := s.tickets ++ [⟨n, kind, f, dom, page, parked, false⟩] })

/-- A walk is posted to the driver as an event of cause 0x02, once for each page. -/
def postWalk (s : State) (f dom page rights : Nat) : Nat × State :=
  match ticketFor s page true with
  | some t => (t.number, s)
  | none =>
    let (n, s) := ticketOn s .walk f dom page []
    (n, postEvent s f ⟨2, rights, n, dom, page * 65536⟩)

/-- Nothing waits for a ticket any more whose walk has been answered. -/
def answerAsked (s : State) (n : Nat) : State :=
  let clear (a : Option Nat) : Option Nat := if a = some n then none else a
  let core (e : Nat × Core) : Nat × Core := (e.1, { e.2 with
    channels := e.2.channels.map fun (c, ch) => (c, { ch with asked := clear ch.asked })
    ep := { e.2.ep with asked := clear e.2.ep.asked } })
  { s with
    cores := s.cores.map core
    teams := s.teams.map fun u => { u with images := u.images.map core }
    queues := s.queues.map fun (q, x) =>
      (q, { x with commands := x.commands.map fun c => { c with asked := clear c.asked } })
    resets := s.resets.map fun r => { r with asked := clear r.asked } }

/-- A service completes (R421). -/
def completeService (s : State) (t : Ticket) : State :=
  forgetTicket t.number (onSaved (savedDone t false) (onAllContexts (serviceDone t.number)
    (answerAsked { s with tickets := s.tickets.filter (·.number != t.number) } t.number)))

/-- A ticket is dropped without an answer: what waits for it goes on and issues its access again. -/
def cancelTicket (s : State) (t : Ticket) : State := completeService (forgetTicket t.number s) t

/-! ### Classification of a fault (R419) -/

/-- What the supervisor finds by repeating the checks. -/
inductive Finding
  | present
  | denial
  | unmapped
  | evicted (backing : Nat)
  | driver
deriving DecidableEq, Repr

/-- The entry that ends a walk: its address, its value and its index position. -/
def lastEntry (s : State) (va : Nat) : List (Nat × Nat) → Nat → Nat × Nat × Nat
  | [], table => (table, 0, 0)
  | (shift, width) :: rest, table =>
    let a := table + 16 * (va / 2 ^ shift % 2 ^ width)
    let e := tableEntry s a
    if !bit e 0 || bit e 1 || badTable e (match rest with
        | [] => 0
        | (_, w) :: _ => 16 * 2 ^ w) then (a, e, shift)
    else lastEntry s va rest (leafPA e)

def endOfWalk (s : State) (va : Nat) : Nat × Nat × Nat := lastEntry s va levels (rootTable s)

/-- The entry is a leaf that is not valid: of the last level, or with LEAF set at a level that has leaves (R410). -/
def absentLeaf (e shift : Nat) : Bool := !bit e 0 && (shift == 16 || (bit e 1 && (shift == 21 || shift == 30)))

/-- The classes of a page that a walk does not find, where FMODE bit 2 leaves it to the device. -/
def absentClass (e shift : Nat) : Finding :=
  if !absentLeaf e shift then .unmapped
  else if field e 113 112 = 1 then .evicted (leafPA e * 65536)
  else if field e 113 112 = 2 then .driver
  else .unmapped

/-- The class of a fault on a page, by the rights that the access needed and by what a walk of it finds. -/
def findingOf (s : State) (f dom page needs : Nat) (w : Walk) : Finding :=
  let va := page * 65536
  let granted := bit needs 4 || (match freshGrant s dom page with
    | some g => grantHas g (needs % 16)
    | none => false)
  if !granted then .denial
  else
    match w with
    | .leaf t =>
      let pa := placeOf t va
      if f ≠ 0 ∧ pa < hostBase ∧ !(segBase (funcOf s f) ≤ pa && pa + 65536 ≤ segBase (funcOf s f) + segLen (funcOf s f)) then
        .denial
      else .present
    | .fails _ =>
      let (_, e, shift) := endOfWalk s va
      if bit (funcOf s f).fmode.toNat 2 then .driver
      else if postsWalks s (some f) then .unmapped
      else absentClass e shift

/-- The walk that the supervisor repeats for a function: on the device, or, where the function posts its walks, what its driver
has answered and is still cached (DEDUCED, log 113). -/
def walkAgain (s : State) (f va : Nat) : Walk :=
  if postsWalks s (some f) then
    match cachedLeaf s va with
    | some t => .leaf t
    | none => .fails 0
  else walk s va

/-- The class by the supervisor's own walk. -/
def classify (s : State) (f dom page needs : Nat) : Finding :=
  findingOf s f dom page needs (walkAgain s f (page * 65536))

/-- The service that the page of a translation fault takes, where it takes one. -/
def servedKind (s : State) (f dom : Nat) (t : Trap) : Option TicketKind :=
  if t.cause ≠ causeTranslation then none
  else match classify s f dom t.info t.rights with
    | .evicted b => some (.evicted b)
    | .driver => some .driver
    | .present | .denial | .unmapped => none

/-- The ticket of a page under service: an outstanding one, or a new one whose service starts (R419, R420); the queues `parked`
have a WAIT parked on it (R392, R423). -/
def startService (s : State) (kind : TicketKind) (f dom page needs : Nat) (parked : List Nat) : Nat × State :=
  match ticketFor s page false with
  | some t =>
    (t.number, { s with tickets := s.tickets.map fun u =>
      if u.number == t.number then { u with parked := u.parked ++ parked.filter fun q => !u.parked.contains q } else u })
  | none =>
    let (n, s) := ticketOn s kind f dom page parked
    if kind = .driver then (n, postEvent s f ⟨3, needs % 16, n, dom, page * 65536⟩) else (n, s)

/-- No WAIT of a queue is parked any more. -/
def unpark (q : Nat) (s : State) : State :=
  { s with tickets := s.tickets.map fun t => { t with parked := t.parked.filter (· != q) } }

end Sys2Proof.Machine
end

