-- ==== Sys2Proof/Machine/Partition.lean ====
section
/-!
DEFINITION. The end of a team on its cores, acknowledgements, and the reset of a partition (R27, R138, R309, R449,
R450).
-/

namespace Sys2Proof.Machine

/-! ### Acknowledgements (R166, R309) -/

/-- The context named `uid`, wherever it stands. -/
def contextByUid (s : State) (uid : Nat) : Option CtxId :=
  s.cores.findSome? fun (c, k) => (k.slots.find? fun (_, x) => x.uid == uid).map fun e => ⟨c, e.1⟩

/-- Change the context named `uid`, on a core or swapped out with its team. -/
def onUid (s : State) (uid : Nat) (f : Context → Context) : State :=
  match contextByUid s uid with
  | some id => onCtx s id f
  | none =>
    { s with teams := s.teams.map fun t =>
        { t with
          away := t.away.map fun (i, x) => (i, if x.uid == uid then f x else x)
          saved := t.saved.map fun e => if e.out && e.context.uid == uid then { e with context := f e.context } else e } }

/-- The acknowledgement of message `m` returns to a sender on this package; a failed one carries its condition. -/
def acknowledge (s : State) (m : Message) (failed : Option Nat) : State :=
  if m.package ≠ s.pkg.toNat then s
  else onUid s m.uid fun x =>
    { x with
      sent := x.sent.filter (·.1 != m.number)
      failures := match failed with
        | none => x.failures
        | some c => x.failures ++ (x.sent.filter (·.1 == m.number)).map fun e => (e.1, e.2, c) }

/-! ### A core without its team -/

/-- A kernel boundary on a core: its stable copies go (R134). -/
def kernelBoundary (s : State) (c : Nat) : State := onCore s c fun k => { k with boundary := s.serial + 1 }

/-- Every Dirty sector of a core's windows is written back, one after the other. -/
def writeBackAll (s : State) (c : Nat) : State :=
  (coreOf s c).windows.foldl
    (fun s (num, w) => w.sectors.foldl (fun s (i, _) => writeBack s c num i) s) s

/-- The state of a core that outlives its team. -/
def bareCore (c : Nat) (k : Core) : Core :=
  let b := Core.atReset c
  { b with
    slots := k.slots.filter fun (n, _) => n == 11
    cycle := k.cycle, last := k.last, inbox := k.inbox, run := k.run, trapOpen := k.trapOpen, grants := k.grants
    boundary := k.boundary, started := k.started, rounded := k.rounded }

/-- The contexts of a team on a core: all user slots of a main core, those from the team's cores on a basecamp core. -/
def teamSlots (s : State) (t : Team) (c : Nat) : List (Nat × Context) :=
  (coreOf s c).slots.filter fun (n, x) =>
    n != 11 && (if isBasecamp c then (match x.home with
      | some h => t.cores.contains h.core
      | none => false) else (coreOf s c).team == some t.uid)

/-- The parked views of a core are dropped. -/
def dropParked (s : State) (c : Nat) : State := (coreOf s c).parks.foldl (fun s e => dropView s e.2) s

/-- A context vanishes from its slot: its views are dropped, what it has claimed is free, its place among the instructions held
and its position map entries on a basecamp core go. -/
def discardContext (s : State) (id : CtxId) : State :=
  let x := ctxOf s id
  onCore (dropClaim (dropViewsOf s x) x) id.core fun k =>
    { leaveHeld id.slot k with
      slots := drop k.slots id.slot
      posmap := if isBasecamp id.core then k.posmap.filter fun (_, e) => e.owner != x.uid else k.posmap }

/-- The messages of a team among some arrivals. -/
def messagesOf (uid : Nat) (inbox : List Posted) : List Message :=
  inbox.filterMap fun a => match a.what with
    | .message m => if m.team == uid then some m else none
    | .notice _ _ _ _ | .spawn _ => none

/-- A message is lost: the views that it carries are dropped, and it returns a failed acknowledgement (R138, R309, R450). -/
def loseMessage (s : State) (m : Message) : State := acknowledge (dropAll s m.args) m (some 1)

/-- The arrivals that belong to a team are dropped, its messages lost. -/
def dropArrivals (s : State) (uid c : Nat) : State :=
  let keep (a : Posted) : Bool := match a.what with
    | .notice _ _ _ _ => (coreOf s c).team != some uid
    | .message m => m.team != uid
    | .spawn r => r.team != uid
  let lost := messagesOf uid (coreOf s c).inbox
  let s := onCore s c fun k => { k with inbox := k.inbox.filter keep }
  lost.foldl loseMessage s

/-- The system context of a core is idle: its views are dropped, what its wait has claimed is free, and nothing of what it ran
is left, a trap of its own among it (R138, R309, R438). -/
def clearRun (s : State) (c : Nat) : State :=
  let id : CtxId := ⟨c, 11⟩
  let s := onCtx (clearViews (dropClaim s (ctxOf s id)) id) id fun x => { x with wait := .none, holding := false, calls := [] }
  onCore s c fun k => { leaveHeld 11 k with run := .idle, trapOpen := false }

/-- What a system context runs is abandoned: a message returns a failed acknowledgement with a condition (R241, R309). -/
def abandonRun (s : State) (c condition : Nat) : State :=
  match (coreOf s c).run with
  | .message m => acknowledge (clearRun s c) m (some condition)
  | .notice _ | .idle => clearRun s c

/-- The system context of a core runs something for a team. -/
def runsFor (s : State) (uid c : Nat) : Bool :=
  match (coreOf s c).run with
  | .message m => m.team == uid
  | .notice _ => (coreOf s c).team == some uid
  | .idle => false

/-- What a system context runs for a team that is discarded is abandoned. -/
def abandonRunOf (s : State) (uid c : Nat) : State := if runsFor s uid c then abandonRun s c 1 else s

/-- A team leaves one of its cores for good. -/
def clearTeamCore (t : Team) (s : State) (c : Nat) : State :=
  if (coreOf s c).team = some t.uid then
    let s := writeBackAll (dropParked s c) c
    let s := (teamSlots s t c).foldl (fun s e => discardContext s ⟨c, e.1⟩) s
    let s := dropArrivals (abandonRunOf s t.uid c) t.uid c
    kernelBoundary (onCore s c (bareCore c)) c
  else dropArrivals (abandonRunOf s t.uid c) t.uid c

/-- A team's migrated contexts leave a basecamp core. -/
def clearMigrated (t : Team) (s : State) (c : Nat) : State :=
  (teamSlots s t c).foldl (fun s e => discardContext s ⟨c, e.1⟩) s

/-- The keys of a team are destroyed (R429). -/
def destroyKeys (s : State) (t : Team) : State :=
  { s with keys := s.keys.filter fun k => !t.keys.contains k.handle }

def basecampCores (s : State) : List Nat := (s.cores.map (·.1)).filter isBasecamp

/-- A team leaves the package: its contexts, engines, parked views and keys go; its stores reach the host (R172, R395). -/
def removeTeam (s : State) (t : Team) : State :=
  let s := makeAllVisible (fun p => p.team == some t.uid) s.pending.length s
  let s := t.away.foldl (fun s e => dropViewsOf s e.2) s
  let s := (t.saved.filter (·.out)).foldl (fun s e => dropViewsOf s e.context) s
  let s := t.images.foldl (fun s (e : Nat × Core) => e.2.parks.foldl (fun s p => dropView s p.2) s) s
  let s := t.images.foldl (fun s (e : Nat × Core) => (messagesOf t.uid e.2.inbox).foldl loseMessage s) s
  let s := (basecampCores s).foldl (clearMigrated t) s
  let s := t.cores.foldl (clearTeamCore t) s
  { destroyKeys s t with teams := s.teams.filter (·.uid != t.uid) }

/-! ### Partition reset (R449, R450) -/

def domainsOf (s : State) (f : Nat) : List Nat :=
  (s.domains.filter fun (_, d) => d.func == some f).map (·.1)

/-- The queues of a partition, disabled ones too (R439). -/
def queuesOf (s : State) (f : Nat) : List Nat := (s.queues.filter fun (_, q) => qcfgFunc q.cfg == f).map (·.1)

/-- Step 5: started commands retire with status 9, the others are discarded. -/
def abortQueue (s : State) (n : Nat) : State :=
  let started := ((queueOf s n).commands.filter (·.started)).map (·.entry)
  let s := started.foldl (fun s e => retire s n e 9) s
  onQueue (unpark n s) n fun q =>
    { q with commands := [], slot := false, parked := false, retries := 0, stamped := none, offered := none }

/-- ENABLE becomes 0: nothing of the queue starts any more, and its admitted launches run on and retire (R386; DESIGN CHOICE,
log 117). -/
def disableQueue (s : State) (n : Nat) : State :=
  onQueue s n fun q => { q with cfg := BitVec.ofNat 128 (setField q.cfg.toNat 26 26 0) }

/-- Step 6: replay from FENCED, or disable. A disabled queue recovers its copy when it is enabled (R388). -/
def recoverQueue (replay : Bool) (s : State) (n : Nat) : State :=
  if !qcfgEnable (queueOf s n).cfg then s
  else if replay then
    let s := recallAll s (copyAt s n 0) 128 false
    match currentCopy s n with
    | some (i, x) =>
      onQueue s n fun q =>
        let q := queueFrom q i x
        { q with consumed := q.fenced }
    | none => postEvent (disableQueue s n) (qcfgFunc (queueOf s n).cfg) ⟨1, n, 0, qcfgDomain (queueOf s n).cfg, 0⟩
  else disableQueue s n

/-- A copy of the queue's QCB is poisoned under the device's own identifier. -/
def deviceCopyPoisoned (s : State) (n : Nat) : Bool :=
  [0, 1].any fun i => copyPoisoned s n i && (s.memory.keyAt (copyAt s n i)).getD 0 == 0

/-- The cores of a die: its compute die and its two base dies. -/
def dieCores (d : Nat) : List Nat := upFrom (144 * d) 144 ++ upFrom (1152 + 64 * d) 64

/-- The cores of a die do not start. -/
def holdDie (s : State) (d : Nat) : State := (dieCores d).foldl (fun s c => onCore s c fun k => { k with started := false }) s

/-- Memory as package reset leaves it: its bytes, which read as R430 gives without the owners' keys. -/
def Memory.forgetOwners (m : Memory) : Memory := (m.owners.map (·.1)).foldl (fun n id => n.changeKey id none) m

/-- The machine after package reset, with memory kept (R453): every register and engine as at reset, and the keys of
sectors with the bytes they belong to. -/
def packageRestart (s : State) : State :=
  { State.reset with
    turn := s.turn, serial := s.serial, memory := s.memory.forgetOwners, poison := s.poison
    names := s.names, messages := s.messages, creates := s.creates, pkg := s.pkg, dies := s.dies }

/-- The package resets because of poison: a die whose image has failed does not start now either (R431, log 97). -/
def poisonRestart (s : State) : State :=
  ((upFrom 0 8).filter fun d => (lookD s.dies d {}).halted).foldl holdDie (packageRestart s)

/-! #### The steps that reach the records of sequences (R398, R450) -/

/-- Change the reset of a partition that began first. -/
def onReset (f : Nat) (g : Reset → Reset) (s : State) : State :=
  match firstAt (fun r : Reset => r.func == f) s.resets with
  | none => s
  | some i => { s with resets := (s.resets.take i) ++ ((s.resets[i]?).map g).toList ++ s.resets.drop (i + 1) }

/-- The reset of a partition that began first. -/
def resetOf (s : State) (f : Nat) : Option Reset := s.resets.find? (·.func == f)

/-- A reset works on one record of a domain, in the name of its function: the state to go on from, or the one in which it stands,
because its walk is posted, its page is under service or a line is owned. A record that cannot be reached stays as it is (DESIGN CHOICE, log 103). -/
def resetAccess (f dom : Nat) (m : Act Unit) (s : State) : Except State State :=
  match inName f dom m s with
  | .ok (_, t) => .ok t
  | .error (.walk page rights _) =>
    let (n, t) := postWalk s f dom page rights
    .error (onReset f (fun r => { r with asked := some n }) t)
  | .error (.hold _) => .error s
  | .error (.poison key _) => if key = 0 then .error (poisonRestart s) else .ok s
  | .error (.trap t) =>
    match servedKind s f dom t with
    | some kind =>
      let (n, u) := startService s kind f dom t.info t.rights []
      .error (onReset f (fun r => { r with asked := some n }) u)
    | none => .ok s
  | .error (.fault _) | .error (.done _) => .ok s

/-- Step 3: the drafts of a partition's domains are discarded, and their records show none (log 11). -/
def closeDrafts (f : Nat) : List (Nat × Draft) → State → Except State State
  | [], s => .ok s
  | (dom, d) :: rest, s => do
    let a := tableActor 0
    let t ← resetAccess f dom (do
      let r ← readRecord a dom d.slot
      writeRecord a dom d.slot (((r.set 2 2 0).set 15 8 0).setOvl Cap.null)) s
    closeDrafts f rest (dropDraft t dom d.slot)

/-- Step 4: every slot that is not FREE is ended as `adm.end` would end it. -/
def endSlots (f : Nat) : List (Nat × Nat) → State → Except State State
  | [], s => .ok s
  | (dom, slot) :: rest, s => do
    let a := tableActor 0
    let t ← resetAccess f dom (do
      let r ← readRecord a dom slot
      if r.state = 0 then pure ()
      else
        let _ ← endSequence a dom slot r
        pure ()) s
    endSlots f rest (onReset f (fun r => { r with slots := some rest }) t)

/-- The drafts of a partition's domains. -/
def draftsOf (s : State) (f : Nat) : List (Nat × Draft) :=
  (domainsOf s f).flatMap fun d => (domainOf s d).drafts.map fun x => (d, x)

/-- The sequence slots of a partition's domains. -/
def slotsOf (s : State) (f : Nat) : List (Nat × Nat) :=
  (domainsOf s f).flatMap fun d => (upFrom 0 (domainOf s d).seqCount).map fun i => (d, i)

/-- The record that a reset waits for is not reached: it goes on without it. -/
def skipRecord (r : Reset) (s : State) : State :=
  let s := onReset r.func (fun r => { r with asked := none }) s
  match draftsOf s r.func with
  | (dom, d) :: _ => dropDraft s dom d.slot
  | [] => onReset r.func (fun r => { r with slots := r.slots.map (·.drop 1) }) s

/-! #### The beginning and the end of a reset -/

/-- Steps 1 and 2: the partition's teams are discarded, and its pending launches. -/
def discardTeams (s : State) (f : Nat) : State :=
  let qs := queuesOf s f
  let s := (s.teams.filter (·.func == f)).foldl removeTeam s
  { s with launches := s.launches.filter fun p => !qs.contains p.queue }

/-- A channel owns what a reset still writes or reads for a queue: its QCB, or the completion records of its started commands
(R130). -/
def queueOwned (s : State) (n : Nat) : Bool :=
  let q := queueOf s n
  blocked s (copyAt s n 0) 128 ||
    (upFrom 0 (q.commands.filter fun c => c.started && commandCmpl c).length).any fun i =>
      blocked s (ringPlace s q.cfg (q.cring + 16 * ((q.cpos + i) % 2 ^ q.clog2))) 16

/-- Steps 5 to 7. Tickets of the function end without an answer, but for zeroing that the driver has not answered (R398). -/
def endReset (r : Reset) (s : State) : State :=
  let qs := queuesOf s r.func
  let s := qs.foldl abortQueue s
  let s := qs.foldl (recoverQueue r.replay) s
  let s := (s.tickets.filter fun t => t.func == r.func && t.kind != .zeroing).foldl cancelTicket s
  let i := (firstAt (fun x : Reset => x.func == r.func) s.resets).getD 0
  postEvent { s with prdone := min (s.prdone + 1) (2 ^ 32 - 1), resets := removeAt s.resets i } r.func
    ⟨7, r.reason, 0, r.domain, r.address⟩

/-- A reset goes as far as it can. One whose recovery reads poison of the device's own identifier resets the package (R453). -/
def continueReset (r : Reset) (s : State) : State :=
  let f := r.func
  let steps : Except State State := do
    let s ← closeDrafts f (draftsOf s f) s
    let left := match (resetOf s f).bind (·.slots) with
      | some l => l
      | none => if r.keepSeq then [] else slotsOf s f
    endSlots f left (onReset f (fun r => { r with slots := some left }) s)
  match steps with
  | .error t => t
  | .ok t =>
    if (queuesOf t f).any (queueOwned t) then t
    else if r.replay && (queuesOf t f).any (fun n => qcfgEnable (queueOf t n).cfg && deviceCopyPoisoned t n) then poisonRestart t
    else endReset r t

/-- The reset of partition `f` that began first goes on, unless a posted walk of it is still to be answered. -/
def settleReset (s : State) (f : Nat) : State :=
  match resetOf s f with
  | none => s
  | some r => if r.asked.any fun n => s.tickets.any (·.number == n) then s else continueReset r s

/-- Every reset that has begun goes on. -/
def settleResets (s : State) : State := ((s.resets.map (·.func)).eraseDups).foldl settleReset s

/-- The reset of partition `f` with a reason, an address and a domain: its teams are gone at once, and it goes on as far as it
can, behind an earlier reset of the partition that is not complete. -/
def partitionReset (s : State) (f reason addr dom : Nat) (replay keepSeq : Bool) : State :=
  let s := discardTeams s f
  settleReset { s with resets := s.resets ++ [⟨f, reason, addr, dom, replay, keepSeq, none, none⟩] } f

end Sys2Proof.Machine
end

