-- ==== Sys2Proof/Machine/Routes.lean ====
section
/-!
DEFINITION. Queue records of a route in the stash, and what a pitch helper's halt does to them (R36 to R39, R43).
-/

namespace Sys2Proof.Machine

/-- The queue record at a stash offset in 16-byte units (R37). -/
def queueRecord (k : Core) (q : Nat) : Nat := natOfBytes (stashBytes k (16 * q) 16)

def queueHead (r : Nat) : Nat := field r 31 0
def queueTail (r : Nat) : Nat := field r 63 32
def queueDepth (r : Nat) : Nat := field r 111 96
def queueItem (r : Nat) : Nat := field r 119 112
def queuePresent (r : Nat) : Nat := (queueTail r + 2 ^ 32 - queueHead r) % 2 ^ 32
def queueReservedBits (r : Nat) : Bool := field r 127 120 == 0 && field r 95 64 == 0

def taken (k : Core) (q : Nat) : Nat := lookD k.route.taken q 0
def reservedItems (k : Core) (q : Nat) : Nat := lookD k.route.reserved q 0

/-- Stash byte of item `n` of the queue at `q`. -/
def itemAt (k : Core) (q n : Nat) : Nat :=
  let r := queueRecord k q
  16 * q + 16 + (n % queueDepth r) * (queueItem r * 16)

def storeHead (k : Core) (q v : Nat) : Core := stashPut k (16 * q) (bytesOf 4 v) false
def storeTail (k : Core) (q v : Nat) : Core := stashPut k (16 * q + 4) (bytesOf 4 v) false

/-- HEAD passes every released item at the head. -/
def releaseHead (q : Nat) : Nat → Core → Core
  | 0, k => k
  | fuel + 1, k =>
    let h := queueHead (queueRecord k q)
    if k.route.released.contains (q, h) then
      let r := k.route
      let k := { k with route :=
        { r with released := r.released.filter (· != (q, h)), taken := putD r.taken q (taken k q - 1) 0 } }
      releaseHead q fuel (storeHead k q ((h + 1) % 2 ^ 32))
    else k

/-- TAIL passes every committed item at the tail. -/
def commitTail (q : Nat) : Nat → Core → Core
  | 0, k => k
  | fuel + 1, k =>
    let t := queueTail (queueRecord k q)
    if k.route.committed.contains (q, t) then
      let r := k.route
      let k := { k with route :=
        { r with committed := r.committed.filter (· != (q, t)), reserved := putD r.reserved q (reservedItems k q - 1) 0 } }
      commitTail q fuel (storeTail k q ((t + 1) % 2 ^ 32))
    else k

/-- A pitch helper halts: its input item is released and its output item committed (R43). -/
def finishItem (k : Core) (pitch input output : Nat) : Core :=
  match k.route.pitches[pitch]? with
  | none => k
  | some p =>
    let k := { k with route := { k.route with released := (p.inq, input) :: k.route.released } }
    let k := releaseHead p.inq k.route.released.length k
    match p.outq with
    | none => k
    | some o =>
      let k := { k with route := { k.route with committed := (o, output) :: k.route.committed } }
      commitTail o k.route.committed.length k

end Sys2Proof.Machine
end

