-- ==== Sys2Proof/Machine/Ops.lean ====
section
/-!
DEFINITION. The operations that meanings share: how a meaning becomes an outcome, taking a trap and returning from one,
the life of a context, and fast handlers (R16, R24 to R35, R73, R241 to R246).
-/

namespace Sys2Proof.Machine

/-! ### Taking a trap (R241) -/

/-- The function whose partition a core works for (R449). -/
def partitionOf (s : State) (core : Nat) : Option Nat := funcOfTeam s (coreOf s core).team

/-- The firmware of one core starts again (R449); the views of its system context are dropped (R138). -/
def restartFirmware (s : State) (c : Nat) : State :=
  onCore (dropViewsOf s (ctxOf s ⟨c, 11⟩)) c fun k =>
    { k with slots := put k.slots 11 (Context.systemAtReset c), run := .idle, trapOpen := false }

/-- The trap entry of a system context abandons the run in which its trap arose, and the trap ends with it (R241). -/
def endTrapEntry (s : State) (c : Nat) : State := abandonRun s c (0x100 + (ctxOf s ⟨c, 11⟩).trapcause.toNat)

/-- A trap in the system context: it enters the trap entry, and the trap is open until it ends, by `eret` or by the abandoning of
the run in which it arose; a trap taken before that resets the partition (R241, R449). -/
def systemTrap (t : Trap) (s : State) (c : Nat) : State :=
  let entered := onCtx s ⟨c, 11⟩ fun x =>
    { setTrapRegs t x with code := Config.trapEntry, wait := .none, holding := false }
  let entered := onCore entered c (leaveHeld 11)
  if (coreOf s c).trapOpen then
    let restarted := restartFirmware (endTrapEntry entered c) c
    match partitionOf s c with
    | some f => partitionReset restarted f 3 0 0 true false
    | none => restarted
  else onCore entered c fun k => { k with trapOpen := true }

/-- Where an arrival stands among those of its cycle: the local core first, then by source core (R252). -/
def sourceRank (core : Nat) (p : Posted) : Nat := if p.source = core then 0 else p.source + 1

/-- The context that sent an arrival; a trap notice is the core's own. -/
def senderOf : Arrival → Option Nat
  | .notice _ _ _ _ => none
  | .message m => some m.uid
  | .spawn r => some r.uid

/-- An arrival joins a queue in the order of R252, behind what the same context sent before it (R169). -/
def insertPosted (core : Nat) (p : Posted) : List Posted → List Posted
  | [] => [p]
  | q :: rest =>
    if p.cycle = q.cycle ∧ sourceRank core p < sourceRank core q ∧
        (q :: rest).all (fun r => senderOf r.what = none ∨ senderOf r.what ≠ senderOf p.what) then p :: q :: rest
    else q :: insertPosted core p rest

/-- An arrival joins the queue of a core in the cycle that the core is in. -/
def postArrival (s : State) (core source : Nat) (a : Arrival) : State :=
  onCore s core fun k => { k with inbox := insertPosted core ⟨k.cycle, source, a⟩ k.inbox }

/-- A trap in a user context: it is trapped, and a notice joins the arrivals of its core's system context. -/
def userTrap (t : Trap) (s : State) (id : CtxId) : State :=
  let pc := capAddr (ctxOf s id).code
  let s := onCtx s id fun x => { setTrapRegs t x with status := .trapped, wait := .none, holding := false }
  postArrival (onCore s id.core (leaveHeld id.slot)) id.core id.core (.notice id.slot t.cause pc t.info)

/-- Taking a trap, from the state before the trapping instruction. -/
def deliverTrapTo (t : Trap) (s : State) (id : CtxId) : State :=
  if id.slot = 11 then systemTrap t s id.core else userTrap t s id

def deliverTrap (t : Trap) (s : State) : State := deliverTrapTo t s (who s)

/-- A trap whose raising also changes the state: a recorded fault is cleared as it is raised (R132, R309). -/
def raiseFrom {α : Type} (t : Trap) (s : State) : Act α := stop (.done (deliverTrap t s))

/-! ### Poison and posted walks (R398, R453) -/

/-- A poisoned sector was read for a function: its partition is reset, or the package under key identifier 0. -/
def poisonReset (s : State) (key va f dom : Nat) : State :=
  if key = 0 then poisonRestart s
  else partitionReset s f 4 (va / 64 * 64) dom true false

/-! ### From a meaning to an outcome -/

/-- The function that a context works for. -/
def partitionOfCtx (s : State) (id : CtxId) : Nat := (funcOfTeam s (teamUidOf s id)).getD 0

def myFunc (s : State) : Nat := partitionOfCtx s (who s)

/-- An instruction held on this wait is a memory access: it completes before its context is saved (R52, R314). -/
def mustComplete : Wait → Bool
  | .line _ => true
  | .scrubbed _ => true
  | .freePage _ => true
  | .visible => true
  | _ => false

/-- The outcome of a meaning of the issuing context. -/
def finish (m : Act Unit) (s : State) : Host.Outcome State Fault Refusal :=
  match m s with
  | .ok (_, t) => .next t
  | .error (.trap t) => .next (deliverTrap t s)
  | .error (.hold w) => .next (onMe s fun x => { x with wait := w, holding := mustComplete w })
  | .error (.done t) => .next t
  | .error (.poison key va) => .next (poisonReset s key va (myFunc s) (myDomain s))
  | .error (.walk page rights word) =>
    let (n, t) := postWalk s (myFunc s) (myDomain s) page rights
    .next (onMe t fun x => { x with wait := .page n word, needs := rights })
  | .error (.fault f) => .fault f

/-- A fixed-latency instruction of `len` bytes that changes the state by `f` and goes on. -/
def fixed (len : Nat) (f : State → State) (s : State) : Host.Outcome State Fault Refusal := .next (advance len (f s))

/-- A fixed-latency instruction of `len` bytes that may trap. -/
def quick (len : Nat) (m : Act Unit) (s : State) : Host.Outcome State Fault Refusal :=
  finish (do m; modify (advance len)) s

/-- The context leaves the rotation until its operation completes (R16). -/
def outOfRotation (s : State) : State := onMe s fun x => { x with wait := .plain }

/-- A variable-latency instruction of `len` bytes: its effect is placed at its issue. -/
def slow (len : Nat) (m : Act Unit) (s : State) : Host.Outcome State Fault Refusal :=
  finish (do m; modify (advance len); modify outOfRotation) s

/-- An instruction that cannot go on keeps its place among those that its core has issued; `note` records what it has found
at its issue. -/
def joinHeld (keeps fills : Bool) (note : Held → Held) (s : State) : State :=
  onCore s (who s).core fun k =>
    match standing k (who s).slot with
    | some _ => { k with held := k.held.map fun h => if h.slot = (who s).slot then note h else h }
    | none => { k with held := k.held ++ [note { slot := (who s).slot, number := s.messages, keeps, fills }] }

/-- Held in its place, on a wait; `keeps`: it completes before its context is saved (R351). -/
def standHeld (keeps fills : Bool) (note : Held → Held) (w : Wait) (s : State) : State :=
  onMe (joinHeld keeps fills note s) fun x => { x with wait := w, holding := keeps || mustComplete w }

/-- The granules that an instruction which stops here has checked: `checks` repeats its checks, as far as each part gets. -/
def checkedGranules (checks : List (Act (List Nat))) (s : State) : List Nat :=
  checks.flatMap fun m => match m s with
    | .ok (gs, _) => gs
    | .error _ => []

/-- An instruction that is held keeps the granules that it has checked (R164). -/
def withReach (gs : List Nat) (h : Held) : Held := { h with reach := h.reach ++ gs.filter fun g => !h.reach.contains g }

/-- A matrix, accumulator or epilogue instruction of `len` bytes: it acts in the issue order of its core (R316, R324,
R352). -/
def ordered (keeps fills : Bool) (len : Nat) (m : Act Unit) (s : State) (checks : List (Act (List Nat)) := []) :
    Host.Outcome State Fault Refusal :=
  let whole : Act Unit := do
    m
    modify (advance len)
    modify outOfRotation
    modify fun s => onCore s (who s).core (leaveHeld (who s).slot)
  match whole s with
  | .error (.hold w) => .next (standHeld keeps fills (withReach (checkedGranules checks s)) w s)
  | .error (.walk page rights word) =>
    finish (fun _ => .error (.walk page rights word)) (joinHeld keeps fills (withReach (checkedGranules checks s)) s)
  | _ => finish whole s

/-- The pin of its engine is checked at an instruction's issue, and not again while it is held (R32). -/
def checkPin (p : Pin) : Act Unit := do
  let s ← get
  match standing (myCore s) (who s).slot with
  | some _ => pure ()
  | none => checkEngine p

/-- An instruction waits for those that its core issued before it. -/
def takeTurn : Act Unit := do
  let s ← get
  if behind (myCore s) (who s).slot then hold .engine

/-- An action for another context, or for a function: a walk that it needs is posted to that function, and the issuing context
waits for it; poison that it meets resets that function's partition (R398, R453). -/
def onBehalf {α : Type} (f dom : Nat) (m : Act α) : Act α := fun s =>
  match m s with
  | .error (.walk page rights _) =>
    let (n, t) := postWalk s f dom page rights
    .error (.done (onMe t fun x => { x with wait := .page n none, needs := rights }))
  | .error (.poison key va) => .error (.done (poisonReset s key va f dom))
  | r => r

/-- The outcome of an event that works for a function: one that cannot go on leaves the state as it was. -/
def finishEvent (f dom : Nat) (m : Act Unit) (s : State) : Host.Outcome State Fault Refusal :=
  match m s with
  | .ok (_, t) => .next t
  | .error (.done t) => .next t
  | .error (.trap _) => .next s
  | .error (.hold _) => .next s
  | .error (.poison key va) => .next (poisonReset s key va f dom)
  | .error (.walk page rights _) => .next (postWalk s f dom page rights).2
  | .error (.fault e) => .fault e

/-- The outcome of an event that waits for a posted walk: the ticket is recorded where it waits (R398). -/
def finishAsking (f dom : Nat) (m : Act Unit) (ask : Nat → State → State) (s : State) : Host.Outcome State Fault Refusal :=
  match m s with
  | .error (.walk page rights _) =>
    let (n, t) := postWalk s f dom page rights
    .next (ask n t)
  | _ => finishEvent f dom m s

/-! ### Contexts come and go (R25, R28 to R31) -/

def setPerms : Nat := permLD + permEX + permGL

/-- The code capability over a team's `.text` with its cursor at an offset (R218, R400). -/
def teamCode (t : Team) (off : Nat) : Cap := withCursor (boundedCap setPerms t.text t.textlen) (t.text + off)

/-- The state of a new context (R25): code, `c1` to `c5` and `c6` are given by its kind. -/
def newContext (t : Team) (kind : CtxKind) (uid : Nat) (code : Cap) (args : List Cap) (c5 c6 : Nat) (id : CtxId)
    (birth : Nat) : Context :=
  let x : Context :=
    { status := .live, kind := kind, uid := uid, code := code, nv := t.nv, ne := t.ne, seed := t.seed, birth := birth
      born := id }
  let x := putReg (putReg (putReg (putReg x 1 (args.getD 0 Cap.null)) 2 (args.getD 1 Cap.null)) 3
    (args.getD 2 Cap.null)) 4 (args.getD 3 Cap.null)
  putReg (putReg x 5 (Cap.plain (BitVec.ofNat 128 c5))) 6 (Cap.plain (BitVec.ofNat 128 c6))

/-- Leaders of a team. -/
def leaderCount (t : Team) : Nat := t.cores.length * t.quota

/-- The position of a core in its core set, counted in ascending number (R24). -/
def corePosition (t : Team) (core : Nat) : Nat := (t.cores.filter (· < core)).length

/-- The ordinal of the leader that started in `slot` of `core` (R24). -/
def ordinalOf (t : Team) (core slot : Nat) : Nat := corePosition t core * t.quota + slot

/-- Place a context in a slot and count the birth (R117). -/
def placeContext (s : State) (t : Team) (kind : CtxKind) (id : CtxId) (code : Cap) (args : List Cap) (c5 c6 : Nat) :
    State :=
  let (uid, s) := freshName s
  let birth := lookD (coreOf s id.core).births id.slot 0
  let s := setCtx s id (newContext t kind uid code args c5 c6 id birth)
  onCore s id.core fun k => { k with births := putD k.births id.slot ((birth + 1) % 65536) 0 }

/-- The context that holds a slot, by its name. -/
def slotOfUid (k : Core) (uid : Nat) : Option Nat := (k.slots.find? fun (_, x) => x.uid == uid).map (·.1)

/-- The records of a leader. -/
def recordsOf (k : Core) (uid : Nat) : List HelperRecord := k.records.filter (·.leader == uid)

/-- The exit value of a helper reaches its record, which its leader and its handle name: the slot that it started in, and its
serial (R28, R30). -/
def deliverExit (k : Core) (leader : Nat) (x : Context) (exit : BitVec 64) : Core :=
  { k with records := k.records.map fun r =>
      if r.leader == leader && r.slot == x.born.slot && r.serial == x.serial && r.exit.isNone then { r with exit := some exit }
      else r }

/-- The core where a context's home slot is. -/
def homeOf (x : Context) (id : CtxId) : CtxId := x.home.getD id

/-- A context ends: its views are dropped, its exit value is delivered, its item is finished, its slots become free
(R29 to R32, R43, R138). -/
def endContext (s : State) (id : CtxId) (exit : BitVec 64) : State :=
  let x := ctxOf s id
  let home := homeOf x id
  let s := discardContext s id
  onCore s home.core fun k =>
    let k := { k with slots := drop k.slots home.slot }
    match x.kind with
    | .leader => { k with records := k.records.filter (·.leader != x.uid) }
    | .helper l => deliverExit k l x exit
    | .pitch p i o => finishItem k p i o
    | .spawned | .system => k

/-- A leader still has a helper that has not halted. -/
def helpersLive (s : State) (id : CtxId) : Bool :=
  (recordsOf (coreOf s id.core) (ctxOf s id).uid).any (·.exit.isNone)

/-! ### Return from a trap (R244, R245) -/

/-- The domain that a context works for. -/
def domainOfCtx (s : State) (id : CtxId) : Nat := ((teamOf s id).map (·.domain)).getD 0

/-- A word of code of a context, read by the supervisor on its behalf; none where a check of the read fails. -/
def codeWord (id : CtxId) (va : Nat) : Act (Option Nat) := fun s =>
  match readPieceOf [] ⟨id.core, false, teamUidOf s id, machineUid, true, 0, none, none⟩ va 4 rightLD s with
  | .ok ((bs, _), t) => .ok (some (natOfBytes bs), t)
  | .error (.trap _) => .ok (none, s)
  | .error e => .error e

/-- Length of the instruction at `pc` of a context, by the length class of its first word (R178); of one that cannot be read any
more, 4 (DESIGN CHOICE, log 115). -/
def lengthAt (id : CtxId) (pc : Nat) : Act Nat := do
  match ← codeWord id pc with
  | none => pure 4
  | some w => pure (classBytes (Fin.ofNat 4 w))

/-- Where the trap of a context resumes: at `%trappc`, or after that instruction. -/
def trapReturn (id : CtxId) (skip : Bool) : Act Nat := do
  let pc := (ctxOf (← get) id).trappc.toNat
  if skip then
    let n ← lengthAt id pc
    pure (pc + n)
  else pure pc

/-- Where a context resumes: a stopped one where it stands, a trapped one where its trap returns. -/
def resumeCode (id : CtxId) (skip : Bool) : Act Cap := do
  let x := ctxOf (← get) id
  if x.status = .stopped then pure x.code
  else
    let pc ← trapReturn id skip
    pure (withCursor x.code pc)

/-- Entry into the upcall prologue (R245): the return point, the shadow registers and the new code. -/
def enterUpcall (t : Team) (entry : Nat) (back : Cap) (h : List Nat) (x : Context) : Context :=
  let x := { x with handler := .upcall back, code := teamCode t entry, status := .live, wait := .none }
  (upFrom 0 h.length).foldl
    (fun x i => { x with shadow := putD x.shadow i (Cap.plain (BitVec.ofNat 128 (h.getD i 0))) Cap.null }) x

/-- Drop the views that writes to the shadow registers of an upcall would hide. -/
def dropShadow (s : State) (id : CtxId) (n : Nat) : State :=
  (upFrom 0 n).foldl (fun s i => dropView s (lookD (ctxOf s id).shadow i Cap.null)) s

/-- The exit value of a context that a trap ends (R244). -/
def trapExit (x : Context) : BitVec 64 := BitVec.ofNat 64 (2 ^ 63 + x.trapcause.toNat)

/-- The first context of a launch that a trap ends is recorded with its cause (R242). -/
def recordEnded (s : State) (uid : Nat) (cause : Nat) : State :=
  onTeam s uid fun t => if t.ended.isNone then { t with ended := some cause } else t

/-- End a trapped or stopped context as though it halted; a leader waits for its helpers (R31). -/
def endTrapped (s : State) (id : CtxId) : State :=
  let x := ctxOf s id
  let s := match teamUidOf s id with
    | some uid => recordEnded s uid x.trapcause.toNat
    | none => s
  if x.kind = .leader ∧ helpersLive s id then
    onCtx s id fun x => { x with status := .live, wait := .ending (trapExit x) }
  else endContext s id (trapExit x)

/-- The context has been ended and waits for its helpers. -/
def isEnding : Wait → Bool
  | .ending _ => true
  | _ => false

/-- A context goes on at a code capability; a wait that it was stopped in goes on too (R52). -/
def resumed (k : Core) (code : Cap) (x : Context) : Context :=
  { unserved x with status := .live, code := code, fetchSince := k.cycle }

/-- The team's upcall entry, where the context can take an upcall. -/
def upcallFor (s : State) (id : CtxId) : Option (Team × Nat) :=
  if (ctxOf s id).handler.active then none
  else (teamOf s id).bind fun t => t.upcall.map fun e => (t, e)

/-- The upcall of a service: cause, pc, information and ticket. -/
def serviceUpcall (s : State) (id : CtxId) (t : Team) (entry n : Nat) : State :=
  let x := ctxOf s id
  onCtx (dropShadow s id 4) id fun x' =>
    awake (coreOf s id.core) (enterUpcall t entry (withCursor x.code x.trappc.toNat)
      [x.trapcause.toNat, x.trappc.toNat, x.trapinfo.toNat, n] { unserved x' with fetched := false })

/-- A denial, or an unmapped page: an upcall with ticket 0, or the context ends; an instruction that it held leaves its place. -/
def denyContext (s : State) (id : CtxId) : State :=
  let s := onCore s id.core (leaveHeld id.slot)
  match upcallFor s id with
  | some (t, e) => serviceUpcall s id t e 0
  | none => endTrapped (onCtx s id fun x => { x with status := .trapped, wait := .none, denied := false }) id

/-- A stopped context goes on, as denied where its service was denied while it stood (R423). -/
def resumeUser (s : State) (id : CtxId) (code : Cap) : State :=
  if (ctxOf s id).status = .stopped ∧ (ctxOf s id).denied = true then denyContext s id
  else onCtx s id (resumed (coreOf s id.core) code)

/-- `eret` on a user slot (R244). -/
def eretUser (id : CtxId) (fin upc skip : Bool) : Act Unit := do
  let s ← get
  let x := ctxOf s id
  require (x.status == .trapped || x.status == .stopped) causeExecution 9
  require (!(skip && x.status == .stopped)) causeExecution 9
  let entry := (teamOf s id).bind (·.upcall)
  require (!(upc && entry.isNone)) causeExecution 9
  require (!(skip && x.trapcause.toNat == causeFetch)) causeExecution 9
  require (!(upc && x.handler.active)) causeExecution 8
  if x.preempt then pure ()
  else if fin then set (endTrapped s id)
  else
    let code ← onBehalf (partitionOfCtx s id) (domainOfCtx s id) (resumeCode id skip)
    match if upc then (teamOf s id).bind fun t => t.upcall.map fun e => (t, e) else none with
    | some (t, e) =>
      let h := [x.trapcause.toNat, x.trappc.toNat, x.trapinfo.toNat]
      modify fun s => onCtx (dropShadow s id 3) id fun y =>
        awake (coreOf s id.core) (enterUpcall t e code h (unserved y))
    | none => modify fun s => resumeUser s id code

/-- `eret` on the system context's own trap, under its code capability as it stands (DESIGN CHOICE, log 96). -/
def eretSystem (skip : Bool) : Act Unit := do
  let s ← get
  let x := me s
  require (!(skip && x.trapcause.toNat == causeFetch)) causeExecution 9
  let pc ← onBehalf (partitionOfCtx s (who s)) (domainOfCtx s (who s)) (trapReturn (who s) skip)
  let s ← get
  stop (.done (onCore (onMe s fun x => { x with code := withCursor x.code pc }) (who s).core fun k => { k with trapOpen := false }))

/-- The return from a trap, by the control word of R244. -/
def eretBody (w : Nat) : Act Unit := do
  let s ← get
  let slot := field w 3 0
  let skip := bit w 4
  let upc := bit w 5
  let fin := bit w 6
  require (field w 63 7 == 0 && !(fin && upc) && !(slot == 11 && (fin || upc)) && slot ≤ 11) causeExecution 9
  if slot = 11 then eretSystem skip else eretUser ⟨(who s).core, slot⟩ fin upc skip

/-! ### The refill handler (R146, R245) -/

/-- A position-map miss: the context enters the refill handler, or faults. -/
def missedLookup (key : BitVec 128) : Act Unit := do
  let s ← get
  let x := me s
  require (!x.handler.active) causePositionMap 1
  match teamOf s (who s) with
  | none => raise causePositionMap 2
  | some t =>
    match t.refill with
    | none => raise causePositionMap 2
    | some entry =>
      if x.refilled = some (key, pc s) then
        raiseFrom ⟨causePositionMap, 3, 0⟩ (onMe s fun x => { x with refilled := none })
      stop (.done (onMe (dropShadow s (who s) 1) fun x =>
        { x with
          handler := .refill key x.code, emptied := false, code := teamCode t entry
          shadow := putD x.shadow 0 (Cap.plain key) Cap.null }))

/-! ### Code targets (R232) -/

/-- The checks of a jump through a register. -/
def checkCode (n : Reg) : Act Unit := do
  let c := reg (← get) n
  checked n.val
    (if !c.tag then some .tag
      else if isSealed c then some .seal
      else if !hasPerm c permEX then some .perm
      else if capAddr c % 4 ≠ 0 then some .align
      else none)

/-- The argument run `cC` to `cC+3`; C = 0 passes four nulls (R234). -/
def argNumbers (c : Reg) : List Nat := if c.val = 0 then [0, 0, 0, 0] else upFrom c.val 4

def arguments (s : State) (c : Reg) : List Cap := (argNumbers c).map (regOf (me s))

/-- Views among the arguments of a context leave their registers (R28, R139). -/
def moveViewsIn (s : State) (id : CtxId) (c : Reg) : State :=
  (argNumbers c).foldl
    (fun s n => if isView (regOf (ctxOf s id) n) then onCtx s id fun x => putReg x n Cap.null else s) s

def moveViews (s : State) (c : Reg) : State := moveViewsIn s (who s) c

end Sys2Proof.Machine
end

