-- ==== Sys2Proof/Machine/Operands.lean ====
section
/-!
DEFINITION. Operand forms: the second operand, branch targets, memory addresses, indexed registers, lanes and masks
(R186, R188, R189, R192, R193).
-/

namespace Sys2Proof.Machine

/-! ### The second operand (R186) -/

/-- Bytes of an instruction whose second operand has this form. -/
def opLength : Op2 → Nat
  | .ext _ _ => 12 | .lit _ => 12 | .long _ => 20

def opReg (s : State) (c : Reg) (imm : BitVec 24) : BitVec 64 := reg64 s c + imm.signExtend 64

def op2 (s : State) : Op2 → BitVec 64
  | .ext c imm => opReg s c imm
  | .lit v => v
  | .long v => v

/-- The second operand of the 128-bit instructions (R223). -/
def opReg128 (s : State) (c : Reg) (imm : BitVec 24) : BitVec 128 := (reg s c).bits + imm.signExtend 128

def op2Wide (s : State) : Op2 → BitVec 128
  | .ext c imm => opReg128 s c imm
  | .lit v => v.signExtend 128
  | .long v => v.signExtend 128

/-! ### Branch targets (R193) -/

/-- pc := pc + 4 × offset, under R59. -/
def jumpBy (off : Int) (s : State) : State := onMe s fun x => { x with code := codeAt s (4 * off) }

/-! ### Indexed operands (R64, R188) -/

/-- The register number that an indexed field reaches: `cN` read as signed, plus the six-bit displacement. -/
def indexed (s : State) (n : Reg) (k : Fin 64) : Int := (reg64 s n).toInt + signed 6 k.val

/-- A window fault on a register index (R63, R64). -/
def windowInfo (moment : Bool) (i : Int) : Nat := wrap 64 (2 * i + if moment then 1 else 0)

def inWindowV (i : Int) : Act Nat := do
  let s ← get
  require (0 ≤ i && i < (me s).nv) causeWindow (windowInfo false i)
  pure i.toNat

def inWindowE (i : Int) : Act Nat := do
  let s ← get
  require (0 ≤ i && i < (me s).ne) causeWindow (windowInfo true i)
  pure i.toNat

/-- The register numbers that fields A, B and C reach. -/
def fieldA (s : State) (x : Index) (a : Reg) : Int := match x with
  | .opA k => indexed s a k
  | .none | .opB _ | .opC _ => a.val

def fieldB (s : State) (x : Index) (b : Reg) : Int := match x with
  | .opB k => indexed s b k
  | .none | .opA _ | .opC _ => b.val

def fieldC (s : State) (x : Index) (c : Reg) : Int := match x with
  | .opC k => indexed s c k
  | .none | .opA _ | .opB _ => c.val

/-! ### Masks and lanes (R67, R189) -/

/-- A mask register: `m0` is all ones. -/
def maskReg (x : Context) (n : Nat) : BitVec 64 := if n = 0 then BitVec.allOnes 64 else lookD x.m n 0

def putMask (n : Nat) (v : BitVec 64) (s : State) : State :=
  if n = 0 then s else onMe s fun x => { x with m := putD x.m n v 0 }

/-- The lanes that an instruction acts on, as 64 bits. -/
def acting (s : State) (m : MaskSel) : BitVec 64 :=
  let v := maskReg (me s) m.reg.val
  if m.neg then ~~~v else v

def laneActs (mask : BitVec 64) (i : Nat) : Bool := mask.getLsbD i

/-- The lanes in ascending order. -/
def lanes : List Nat := upFrom 0 64

/-! ### Vector and moment registers (R65, R66) -/

def vreg (x : Context) (n : Nat) : VReg := lookD x.v n 0
def ereg (x : Context) (n : Nat) : EReg := lookD x.e n 0

def putV (n : Nat) (v : VReg) (s : State) : State := onMe s fun x => { x with v := putD x.v n v 0 }
def putE (n : Nat) (v : EReg) (s : State) : State := onMe s fun x => { x with e := putD x.e n v 0 }

/-- Lane `i` of a vector register: 32 bits. -/
def lane (v : VReg) (i : Nat) : BitVec 32 := v.extractLsb' (32 * i) 32

/-- Bits of a number of `n` elements of `w` bits each, element 0 lowest. -/
def packElems (w : Nat) : List Nat → Nat
  | [] => 0
  | x :: rest => x % 2 ^ w + 2 ^ w * packElems w rest

/-- A vector register from its 64 lanes. -/
def fromLanes (ls : List Nat) : VReg := BitVec.ofNat 2048 (packElems 32 ls)

/-- Element `j` of width `w` (R65). -/
def elem (v : VReg) (w j : Nat) : Nat := v.toNat / 2 ^ (w * j) % 2 ^ w

/-- Mean and variance of lane `i` of a moment register. -/
def momentMean (e : EReg) (i : Nat) : BitVec 32 := e.extractLsb' (64 * i) 32
def momentVar (e : EReg) (i : Nat) : BitVec 32 := e.extractLsb' (64 * i + 32) 32

/-- A moment register from its 64 (mean, variance) pairs. -/
def fromMoments (ls : List (Nat × Nat)) : EReg :=
  BitVec.ofNat 4096 (packElems 64 (ls.map fun (m, v) => m % 2 ^ 32 + 2 ^ 32 * (v % 2 ^ 32)))

/-! ### Memory operands (R192, R283) -/

/-- Bytes of an access of each kind. -/
def kindSize : Kind → Nat
  | .n8 => 1 | .n16 => 2 | .n32 => 4 | .n64 => 8 | .s8 => 1 | .s16 => 2 | .s32 => 4

/-- What a load of each kind fills the register with. -/
def kindExtend (k : Kind) (x : Nat) : Nat :=
  match k with
  | .n8 | .n16 | .n32 | .n64 => x
  | .s8 => wrap 64 (signed 8 x)
  | .s16 => wrap 64 (signed 16 x)
  | .s32 => wrap 64 (signed 32 x)

/-- The address of class 0b00: cursor plus scaled offset. -/
def shortAddr (s : State) (b : Reg) (off : Fin 16) (size : Nat) : Int := capAddr (reg s b) + off.val * size

/-- The address of class 0b10: cursor, byte offset and scaled index. -/
def longAddr (s : State) (b : Reg) (x : MemX) (size : Nat) : Int :=
  capAddr (reg s b) + imm24 x.imm + size * (reg64 s x.index).toInt

end Sys2Proof.Machine
end

