-- ==== Sys2Proof/Machine/Flags.lean ====
section
/-!
DEFINITION. Conditions and flags: the branch conditions, the mask conditions, the rounding and covariance control of a
context, the sticky clamp flag and the flush count (R76, R77, R80, R229, R230).
-/

namespace Sys2Proof.Machine

/-! ### Conditions -/

def boolNat (b : Bool) : Nat := if b then 1 else 0

def condEq (x y : BitVec 64) : Bool := x == y
def condNe (x y : BitVec 64) : Bool := x != y
def condLt (x y : BitVec 64) : Bool := x.toInt < y.toInt
def condGe (x y : BitVec 64) : Bool := y.toInt ≤ x.toInt
def condLtn (x y : BitVec 64) : Bool := x.toNat < y.toNat
def condGen (x y : BitVec 64) : Bool := y.toNat ≤ x.toNat

def maskCond (c : MaskCond) (m : BitVec 64) : Bool :=
  match c with
  | .any => m != 0
  | .all => m == BitVec.allOnes 64
  | .none => m == 0

/-! ### `%round` (R76) -/

def rmOf : Nat → Rm
  | 0 => .rne | 1 => .rtz | 2 => .rup | 3 => .rdn | 4 => .rna | 5 => .sto | _ => .odd

def roundMode (x : Context) : Rm := rmOf (field x.round.toNat 2 0)
def roundSat (x : Context) : Bool := bit x.round.toNat 3
def roundFtz (x : Context) : Bool := bit x.round.toNat 4

/-- The mode an instruction rounds under: its own, or `%round`'s where its field is 7 (R92). -/
def modeOf (x : Context) : Option Rm → Rm
  | some r => r
  | none => roundMode x

/-! ### `%covmode` (R77) -/

def covMode (x : Context) : Nat := field x.covmode.toNat 1 0
def covClamp (x : Context) : Bool := bit x.covmode.toNat 2

/-- The sticky clamp flag is set. -/
def setClamped (clamped : Bool) (s : State) : State :=
  if clamped then onMe s fun x => { x with covmode := x.covmode ||| 8 } else s

/-! ### `%flushcnt` (R80) -/

def addFlushes (n : Nat) (s : State) : State :=
  onMe s fun x => { x with flushcnt := BitVec.ofNat 32 (min (x.flushcnt.toNat + n) (2 ^ 32 - 1)) }

end Sys2Proof.Machine
end

