-- ==== Sys2Proof/Machine/Control.lean ====
section
/-!
DEFINITION. Branches, jumps, execution control, semaphores, forwarding, software traps and fast-handler return (R229 to
R240, R246, R247, R249).
-/

namespace Sys2Proof.Machine

/-! ### Branches and jumps (R229 to R233) -/

/-- A conditional branch of `len` bytes. -/
def branch (cond : BitVec 64 → BitVec 64 → Bool) (len : Nat) (a b : Reg) (off : Int) (s : State) :
    Host.Outcome State Fault Refusal :=
  .next (if cond (reg64 s a) (reg64 s b) then jumpBy off s else advance len s)

def execBeq (a b : Reg) (off : BitVec 10) (s : State) : Host.Outcome State Fault Refusal := branch condEq 4 a b off.toInt s
def execBeqExt (a b : Reg) (off : BitVec 24) (s : State) : Host.Outcome State Fault Refusal :=
  branch condEq 12 a b off.toInt s
def execBne (a b : Reg) (off : BitVec 10) (s : State) : Host.Outcome State Fault Refusal := branch condNe 4 a b off.toInt s
def execBneExt (a b : Reg) (off : BitVec 24) (s : State) : Host.Outcome State Fault Refusal :=
  branch condNe 12 a b off.toInt s
def execBlt (a b : Reg) (off : BitVec 10) (s : State) : Host.Outcome State Fault Refusal := branch condLt 4 a b off.toInt s
def execBltExt (a b : Reg) (off : BitVec 24) (s : State) : Host.Outcome State Fault Refusal :=
  branch condLt 12 a b off.toInt s
def execBge (a b : Reg) (off : BitVec 10) (s : State) : Host.Outcome State Fault Refusal := branch condGe 4 a b off.toInt s
def execBgeExt (a b : Reg) (off : BitVec 24) (s : State) : Host.Outcome State Fault Refusal :=
  branch condGe 12 a b off.toInt s
def execBltn (a b : Reg) (off : BitVec 10) (s : State) : Host.Outcome State Fault Refusal :=
  branch condLtn 4 a b off.toInt s
def execBltnExt (a b : Reg) (off : BitVec 24) (s : State) : Host.Outcome State Fault Refusal :=
  branch condLtn 12 a b off.toInt s
def execBgen (a b : Reg) (off : BitVec 10) (s : State) : Host.Outcome State Fault Refusal :=
  branch condGen 4 a b off.toInt s
def execBgenExt (a b : Reg) (off : BitVec 24) (s : State) : Host.Outcome State Fault Refusal :=
  branch condGen 12 a b off.toInt s

def execBm (m : Reg) (cond : MaskCond) (off : BitVec 24) (s : State) : Host.Outcome State Fault Refusal :=
  .next (if maskCond cond (maskReg (me s) m.val) then jumpBy off.toInt s else advance 12 s)

/-- The link: the code capability with cursor NextPC. -/
def link (a : Reg) (len : Nat) (s : State) : State := writeCap a (codeAt s len) s

def execJ (off : BitVec 16) (s : State) : Host.Outcome State Fault Refusal := .next (jumpBy off.toInt s)
def execJExt (off : BitVec 24) (s : State) : Host.Outcome State Fault Refusal := .next (jumpBy off.toInt s)
def execJal (a : Reg) (off : BitVec 16) (s : State) : Host.Outcome State Fault Refusal :=
  .next (jumpBy off.toInt (link a 4 s))
def execJalExt (a : Reg) (off : BitVec 24) (s : State) : Host.Outcome State Fault Refusal :=
  .next (jumpBy off.toInt (link a 12 s))

/-- The code capability is replaced. -/
def setCode (c : Cap) (s : State) : State := onMe s fun x => { x with code := c }

/-- A jump through `cB`, with a link for `jalr`. -/
def jumpReg (linked : Option Reg) (b : Reg) : Act Unit := do
  let t := reg (← get) b
  checkCode b
  modify fun s => setCode t (match linked with
    | some a => link a 4 s
    | none => s)

def execJr (b : Reg) (s : State) : Host.Outcome State Fault Refusal := finish (jumpReg none b) s
def execJalr (a b : Reg) (s : State) : Host.Outcome State Fault Refusal := finish (jumpReg (some a) b) s
def execRet (b : Reg) (s : State) : Host.Outcome State Fault Refusal := finish (jumpReg none b) s

/-- Entry into code through a sealed capability (R233). -/
def enterSealed (a b : Reg) : Act Unit := do
  let t := reg (← get) b
  checked b.val
    (if !t.tag then some .tag
      else if !isSealed t then some .seal
      else if !hasPerm t permEX then some .perm
      else if capAddr t % 4 ≠ 0 then some .align
      else none)
  modify fun s => setCode (withSeal t false) (link a 4 s)

def execKenter (a b : Reg) (s : State) : Host.Outcome State Fault Refusal := finish (enterSealed a b) s

/-! ### Helpers (R28 to R31, R234, R235) -/

def isLeader (x : Context) : Bool := x.kind == .leader

/-- A pitch helper or a spawned context. -/
def isPitchOrSpawned (x : Context) : Bool :=
  match x.kind with
  | .pitch _ _ _ => true
  | .spawned => true
  | .leader => false
  | .helper _ => false
  | .system => false

/-- `start` and `join` are a leader's (R234, R235). -/
def requireLeader (notLeader : Nat) : Act Unit := do
  let x := me (← get)
  require (!isPitchOrSpawned x) causeExecution 10
  require (isLeader x) causeExecution notLeader

/-- The engine is pinned by a live context of the core. -/
def enginePinned (k : Core) (p : Pin) : Bool := k.slots.any fun (_, x) => x.status != .free && x.pin == p

/-- The matrix array and the epilogue processor do not exist on a basecamp core. -/
def engineAbsent (core : Nat) (p : Pin) : Bool := isBasecamp core && (p == .mx || p == .ep)

/-- Handle of a helper (R28). -/
def handleOf (serial slot : Nat) : Nat := serial * 65536 + slot

/-- A helper starts in the free slot `slot` of the issuing core. -/
def startHelper (t : Team) (slot : Nat) (b c : Reg) (pin : Pin) (s : State) : Nat × State :=
  let id := who s
  let x := me s
  let code := reg s b
  let args := arguments s c
  let serial := ((coreOf s id.core).serial + 1) % 65536
  let s := moveViews s c
  let s := placeContext s t (.helper x.uid) ⟨id.core, slot⟩ code args x.ordinal (leaderCount t)
  let s := onCtx s ⟨id.core, slot⟩ fun y => { y with serial := serial, pin := pin, fetchSince := (coreOf s id.core).cycle }
  let s := onCore s id.core fun k =>
    { k with serial := serial, records := k.records ++ [⟨x.uid, slot, serial, none⟩] }
  (handleOf serial slot, s)

def startBody (a b c : Reg) (pin : Pin) : Act Unit := do
  requireLeader 3
  checkCode b
  let s ← get
  let k := myCore s
  match lowestFree k, teamOf s (who s) with
  | some slot, some t =>
    if (recordsOf k (me s).uid).length ≥ 10 then modify (writeInt a 64 (wrap 64 (-1)))
    else if pin ≠ .none ∧ enginePinned k pin then modify (writeInt a 64 (wrap 64 (-2)))
    else if engineAbsent (who s).core pin then modify (writeInt a 64 (wrap 64 (-3)))
    else
      let (h, s) := startHelper t slot b c pin s
      set (writeInt a 64 h s)
  | none, _ => modify (writeInt a 64 (wrap 64 (-1)))
  | some _, none => modify (writeInt a 64 (wrap 64 (-1)))

def execStart (a b c : Reg) (pin : Pin) (s : State) : Host.Outcome State Fault Refusal := quick 12 (startBody a b c pin) s

/-- The record that a handle names. -/
def recordFor (k : Core) (leader : Nat) (h : BitVec 64) : Option HelperRecord :=
  (recordsOf k leader).find? fun r => handleOf r.serial r.slot == h.toNat

def joinBody (a b : Reg) : Act Unit := do
  requireLeader 3
  let s ← get
  match recordFor (myCore s) (me s).uid (reg64 s b) with
  | none => raise causeExecution 4
  | some r =>
    match r.exit with
    | none => hold (.join (reg64 s b))
    | some e =>
      modify fun s => writeInt a 64 e.toNat (onCore s (who s).core fun k => { k with records := k.records.filter (· != r) })

def execJoin (a b : Reg) (s : State) : Host.Outcome State Fault Refusal := slow 4 (joinBody a b) s

/-- A run of the system context ends (R309, R438); a `halt` in its trap entry abandons the run in which its trap arose (R241, log
114). -/
def endRun (s : State) : State :=
  let c := (who s).core
  if (coreOf s c).trapOpen then endTrapEntry s c
  else
    match (coreOf s c).run with
    | .message m => acknowledge (clearRun s c) m none
    | .notice _ | .idle => clearRun s c

/-- A `halt` inside an inline child returns to the caller (R34). -/
def returnInline (f : InlineCall) (rest : List InlineCall) (exit : BitVec 64) (s : State) : State :=
  writeInt f.dst 64 (2 * exit.toNat + 1) (onMe s fun x => { x with code := f.back, calls := rest })

def haltBody (a : Reg) : Act Unit := do
  let s ← get
  let exit := reg64 s a
  match if (who s).slot = 11 && (myCore s).trapOpen then [] else (me s).calls with
  | f :: rest => set (returnInline f rest exit s)
  | [] =>
    if (who s).slot = 11 then set (endRun s)
    else if isLeader (me s) ∧ helpersLive s (who s) then hold .helpers
    else set (endContext s (who s) exit)

def execHalt (a : Reg) (s : State) : Host.Outcome State Fault Refusal := finish (haltBody a) s

/-! ### Remote spawn (R33, R34, R236) -/

/-- The core is in the core set of the issuing context's team. -/
def inCoreSet (s : State) (core : Nat) : Bool :=
  match teamOf s (who s) with
  | some t => t.cores.contains core
  | none => false

/-- The request joins the arrivals of the target's system context, and the caller waits for its answer, out of the
rotation. -/
def sendSpawn (target : Nat) (a b c : Reg) (s : State) : State :=
  let (n, s) := freshNumber s
  let r : SpawnReq := ⟨n, who s, (me s).uid, (teamUidOf s (who s)).getD 0, reg s b, arguments s c⟩
  onMe (postArrival s target (who s).core (.spawn r)) fun x => { x with wait := .spawn n a c }

/-- The caller `id` runs the child inline: the arguments move to `c1` to `c4` and the depth rises; the call returns after
the `spawn`. -/
def runInline (s : State) (id : CtxId) (code : Cap) (args : List Cap) (dst from' : Reg) : State :=
  let s := moveViewsIn s id from'
  let s := (upFrom 0 4).foldl (fun s i => writeCapIn s id (i + 1) (args.getD i Cap.null)) s
  onCtx s id fun x =>
    { x with
      code := code, calls := ⟨withCursor x.code (wrap 80 (capAddr x.code + 12)), dst⟩ :: x.calls, wait := .plain }

/-- The caller `id` has its answer: the views that its child has leave its registers, and it goes on (R33, R138). -/
def takeAnswer (s : State) (id : CtxId) (v : Nat) (dst from' : Reg) : State :=
  onCtx (writeIntIn (moveViewsIn s id from') id dst.val 64 v) id fun x =>
    { x with code := withCursor x.code (wrap 80 (capAddr x.code + 12)), wait := .plain }

def spawnBody (a b c d : Reg) (imm : BitVec 24) : Act Unit := do
  let s ← get
  let target : Int := (reg64 s d).toNat + imm24 imm
  require (0 ≤ target && inCoreSet s target.toNat) causeExecution 5
  checkCode b
  set (sendSpawn target.toNat a b c s)

def execSpawn (a b c d : Reg) (imm : BitVec 24) (s : State) : Host.Outcome State Fault Refusal :=
  finish (spawnBody a b c d imm) s

/-! ### Yield, barriers, semaphores, forwarding (R237 to R240) -/

/-- The next instruction issues 16 cycles later in place of 8 (R237). -/
def execYield (s : State) : Host.Outcome State Fault Refusal :=
  fixed 4 (fun s => onMe s fun x => { x with readyAt := x.readyAt + 8 }) s

/-- The checks of a barrier or collective arrival (R238). -/
def checkArrival (sc : Scope) : Act Unit := do
  let s ← get
  requireLeader 1
  require (!(onBasecamp s && sc != .lane && sc != .core)) causeExecution 2

/-- The arrival is recorded; the instance completes for every member at once (R11). -/
def arriveAt (j : Joined) : Act Unit := hold (.arrived j)

def barBody (sc : Scope) : Act Unit := do
  checkArrival sc
  if sc = .lane then modify (advance 12) else arriveAt (.bar sc)

def execBar (sc : Scope) (s : State) : Host.Outcome State Fault Refusal := finish (barBody sc) s

/-- The migration fault of an instruction that needs state of a resident team (R313), among the last of its checks (R254, log
55). -/
def needResident : Act Unit := do
  let s ← get
  require (!onBasecamp s) causeMigration 7

/-- A signal completes the first waiter, or raises the count (R46). -/
def signalSem (n : Nat) : Act Unit := do
  let s ← get
  let c := (who s).core
  let k := coreOf s c
  match lookD k.semq n [] with
  | w :: rest =>
    set (onCore s c fun k =>
      { k with
        semq := putD k.semq n rest []
        slots := match look k.slots w with
          | some x => put k.slots w { x with code := withCursor x.code (capAddr x.code + 4), wait := .plain }
          | none => k.slots })
  | [] =>
    let v := lookD k.sems n 0
    require (v < 65535) causeSemaphore n
    set (onCore s c fun k => { k with sems := putD k.sems n (v + 1) 0 })

/-- A wait takes a unit, or joins the queue of waiters. -/
def waitSem (n : Nat) : Act Unit := do
  let s ← get
  let c := (who s).core
  let k := coreOf s c
  let v := lookD k.sems n 0
  if v > 0 then set (onCore s c fun k => { k with sems := putD k.sems n (v - 1) 0 })
  else
    let queued := onCore s c fun k => { k with semq := putD k.semq n (lookD k.semq n [] ++ [(who s).slot]) [] }
    stop (.done (onMe queued fun x => { x with wait := .semaphore n }))

def semSignal (sem : Reg) : Act Unit := do
  needResident
  signalSem sem.val

def semWait (sem : Reg) : Act Unit := do
  needResident
  waitSem sem.val

def execSemSig (sem : Reg) (s : State) : Host.Outcome State Fault Refusal := quick 4 (semSignal sem) s
def execSemWait (sem : Reg) (s : State) : Host.Outcome State Fault Refusal := slow 4 (semWait sem) s

/-- `%fwd` of a slot: FULL in bit 64 (R80). -/
def fwdOf (k : Core) (slot : Nat) : BitVec 65 := lookD k.fwd slot 0

def fwdFull (v : BitVec 65) : Bool := v.getLsbD 64

def setFwd (slot : Nat) (v : BitVec 65) (k : Core) : Core := { k with fwd := putD k.fwd slot v 0 }

/-- The register a `fwd.put` writes (R49). -/
def fwdTarget (id : CtxId) (quad : Bool) : CtxId :=
  if quad then ⟨id.core / 4 * 4 + (id.core % 4 + 1) % 4, id.slot⟩ else ⟨id.core, (id.slot + 1) % 11⟩

/-- The put fills an empty register; `none` while it is full. -/
def putFwd (s : State) (id : CtxId) (quad : Bool) (v : BitVec 64) : Option State :=
  let t := fwdTarget id quad
  if fwdFull (fwdOf (coreOf s t.core) t.slot) then none
  else some (onCore s t.core (setFwd t.slot (BitVec.ofNat 65 (2 ^ 64 + v.toNat))))

/-- The get empties a full register, whose value it reads; `none` while it is empty. -/
def takeFwd (s : State) (id : CtxId) : Option (Nat × State) :=
  let v := fwdOf (coreOf s id.core) id.slot
  if fwdFull v then
    some (v.toNat % 2 ^ 64, onCore s id.core (setFwd id.slot (BitVec.ofNat 65 (v.toNat % 2 ^ 64))))
  else none

def fwdPutBody (a : Reg) (quad : Bool) : Act Unit := do
  let s ← get
  let id := who s
  require (id.slot ≠ 11 && !(quad && isBasecamp id.core) && (!quad || inCoreSet s (fwdTarget id quad).core))
    causeExecution 7
  match putFwd s id quad (reg64 s a) with
  | some t => set t
  | none => hold (.fwdPut quad (reg64 s a))

def fwdGetBody (a : Reg) : Act Unit := do
  let s ← get
  require ((who s).slot ≠ 11) causeExecution 7
  match takeFwd s (who s) with
  | some (v, t) => set (writeInt a 64 v t)
  | none => hold (.fwdGet a)

def execFwdPut (a : Reg) (quad : Bool) (s : State) : Host.Outcome State Fault Refusal := quick 4 (fwdPutBody a quad) s
def execFwdGet (a : Reg) (s : State) : Host.Outcome State Fault Refusal := quick 4 (fwdGetBody a) s

/-! ### Software traps, handler return and `ifence` (R246, R247, R249) -/

def execTrap (n : Fin 16) (s : State) : Host.Outcome State Fault Refusal := finish (raise causeSoftware n.val) s
def execTrapExt (n : BitVec 24) (s : State) : Host.Outcome State Fault Refusal := finish (raise causeSoftware n.toNat) s

/-- The return point of a fast handler. -/
def returnPoint : Handler → Option Cap
  | .none => none
  | .refill _ back => some back
  | .upcall back => some back

/-- The lookup that a return from the context's handler goes back to, where it is the refill handler (R146). -/
def refilledBy (x : Context) : Option (BitVec 128 × Nat) :=
  match x.handler with
  | .refill key back => some (key, capAddr back)
  | .none => x.refilled
  | .upcall _ => x.refilled

/-- The position map buffer is left empty for a context: no refill handler has served its lookup, nor does the one that it
runs (R53, R145). -/
def mapEmptied (x : Context) : Context :=
  { x with
    refilled := none
    emptied := match x.handler with
      | .refill _ _ => true
      | .none | .upcall _ => false }

def hretBody (b : Reg) : Act Unit := do
  let s ← get
  match returnPoint (me s).handler with
  | none => raise causeExecution 8
  | some back =>
    if b.val = 0 then
      set (onMe s fun x => { x with
        code := back, handler := .none, emptied := false, refilled := if x.emptied then none else refilledBy x })
    else
      checkCode b
      let t := reg s b
      set (onMe s fun x => { x with code := t, handler := .none, emptied := false })

def execHret (b : Reg) (s : State) : Host.Outcome State Fault Refusal := finish (hretBody b) s

/-- The context leaves the rotation; its fetched and decoded copies go as the `ifence` completes, after the transfers that
the context has issued (R160, R175). -/
def execIfence (s : State) : Host.Outcome State Fault Refusal := finish (hold .ifence) s

/-- An `ifence` of the context completes. -/
def finishIfence (s : State) (id : CtxId) : State :=
  onCtx s id fun x =>
    { awake (coreOf s id.core) x with copies := [], code := withCursor x.code (wrap 80 (capAddr x.code + 4)) }

/-! ### Return from a trap (R244) -/

/-- Privileged instructions (R244, R250). -/
def requirePrivilege (opcode : Nat) : Act Unit := do
  let s ← get
  require (privileged s) causePrivilege opcode

def eretInstr (b : Reg) : Act Unit := do
  requirePrivilege 0x4F
  eretBody (reg64 (← get) b).toNat

def execEret (b : Reg) (s : State) : Host.Outcome State Fault Refusal := quick 4 (eretInstr b) s

/-! ### Special registers (R74 to R80, R248) -/

def dieOf (core : Nat) : Nat := if isBasecamp core then (core - 1152) / 64 else core / 144
def quadOf (core : Nat) : Nat := if isBasecamp core then 0x3F else core / 4 % 36

/-- The value `srd` reads. -/
def readSpecial (s : State) (n : Nat) : Nat :=
  let id := who s
  let x := me s
  let k := myCore s
  match n with
  | 0x00 => x.round.toNat
  | 0x01 => x.covmode.toNat
  | 0x02 => x.flushcnt.toNat
  | 0x08 => id.slot
  | 0x09 => id.core
  | 0x0A => quadOf id.core
  | 0x0B => dieOf id.core
  | 0x0C => s.pkg.toNat
  | 0x0D => ((teamOf s id).map (·.ident.toNat)).getD 0
  | 0x0E => x.gen.toNat
  | 0x0F => k.cycle % 2 ^ 64
  | 0x10 => x.trapcause.toNat
  | 0x11 => x.trappc.toNat
  | 0x12 => x.trapinfo.toNat
  | 0x18 => ((look k.channels 0).map (·.wp)).getD 0
  | 0x19 => ((look k.channels 1).map (·.wp)).getD 0
  | 0x1A => ((look k.channels 2).map (·.wp)).getD 0
  | 0x1B => ((look k.channels 3).map (·.wp)).getD 0
  | 0x1C => if id.slot = 11 then 0 else (fwdOf k id.slot).toNat
  | 0x20 => k.vb
  | 0x21 => k.sb
  | 0x22 => k.cb
  | _ => 0

def execSrd (a sr : Reg) (s : State) : Host.Outcome State Fault Refusal :=
  fixed 4 (fun s => writeInt a 128 (readSpecial s sr.val) s) s

/-- Who may write a special register (R74). -/
inductive Writer
  | anyone | system | restore | noone
deriving DecidableEq, Repr

def writerOf : Nat → Writer
  | 0x00 => .anyone | 0x01 => .anyone | 0x02 => .anyone
  | 0x10 => .system | 0x11 => .system | 0x12 => .system
  | 0x1C => .restore
  | _ => .noone

/-- A write of `x` to special register `n` by a context that may make it; `none` where a field refuses the value. -/
def writeSpecial (s : State) (n x : Nat) : Option State :=
  let lo := x % 2 ^ 64
  match n with
  | 0x00 => if lo / 32 ≠ 0 ∨ lo % 8 = 7 then none else some (onMe s fun c => { c with round := BitVec.ofNat 5 lo })
  | 0x01 => if lo / 16 ≠ 0 then none else some (onMe s fun c => { c with covmode := BitVec.ofNat 4 lo })
  | 0x02 => some (onMe s fun c => { c with flushcnt := BitVec.ofNat 32 lo })
  | 0x10 => if 0x17 < lo % 256 then none else some (onMe s fun c => { c with trapcause := BitVec.ofNat 8 lo })
  | 0x11 => some (onMe s fun c => { c with trappc := BitVec.ofNat 80 x })
  | 0x12 => some (onMe s fun c => { c with trapinfo := BitVec.ofNat 64 lo })
  | 0x1C =>
    let slot := field x 71 68
    if slot > 10 ∨ field x 127 72 ≠ 0 ∨ field x 67 65 ≠ 0 ∨ !slotFree (myCore s) slot then none
    else some (onCore s (who s).core (setFwd slot (BitVec.ofNat 65 x)))
  | _ => none

def swrBody (sr b : Reg) (word : Nat) : Act Unit := do
  let s ← get
  let w := writerOf sr.val
  require (w == .anyone || privileged s) causePrivilege sr.val
  match writeSpecial s sr.val (reg s b).bits.toNat with
  | some t => set t
  | none => raise causeIllegal word

def execSwr (sr b : Reg) (s : State) : Host.Outcome State Fault Refusal :=
  quick 4 (swrBody sr b (Instr.firstWord (.swr sr b))) s

end Sys2Proof.Machine
end

