-- ==== Sys2Proof/Machine/LoadStore.lean ====
section
/-!
DEFINITION. Loads, stores, vector and moment accesses, gather and scatter, atomics and fences (R158, R159, R166, R167,
R283 to R292). Every one is a variable-latency operation; its events are placed at its issue.
-/

namespace Sys2Proof.Machine

/-! ### The form of an access -/

/-- The scope and ordering of class 0b00. -/
def plainX : MemX := ⟨0, 0, .lane, .plain⟩

def toHost (x : MemX) : Bool := x.scope == .host || x.scope == .sys

/-- Ordered release or full at host scope (R167). -/
def hostRelease (x : MemX) : Bool := toHost x && (x.order == .release || x.order == .full)

/-- The actor of an access through `cB`. -/
def memActor (s : State) (b : Reg) (x : MemX) : Actor :=
  ⟨(who s).core, true, teamUidOf s (who s), (me s).uid, hasPerm (reg s b) permSY, b.val, none,
    if hostRelease x then some s.pending.length else none⟩

/-- A store that carries full leaves the rotation until it is visible to the host (R167). -/
def afterAccess (x : MemX) (s : State) : State :=
  if x.order = .full then onMe s fun c => { c with wait := .visible } else outOfRotation s

/-- A memory instruction of `len` bytes. -/
def access (len : Nat) (x : MemX) (m : Act Unit) (s : State) : Host.Outcome State Fault Refusal :=
  finish (do m; modify (advance len); modify (afterAccess x)) s

/-- The capability check of an access through `cB`, and its alignment (R58, R283). -/
def checkAccess (b : Reg) (va : Int) (size perms align : Nat) : Act Unit := do
  checked b.val (capCheck (reg (← get) b) va size perms)
  if va % align ≠ 0 then raiseCap b.val .align

/-! ### Scalar and capability accesses (R286) -/

def loadBody (a b : Reg) (kind : Kind) (va : Int) (x : MemX) : Act Unit := do
  checkAccess b va (kindSize kind) permLD 1
  let bs ← readRange (memActor (← get) b x) va.toNat (kindSize kind)
  modify (writeInt a 64 (kindExtend kind (natOfBytes bs)))

def storeBody (a b : Reg) (kind : Kind) (va : Int) (x : MemX) : Act Unit := do
  checkAccess b va (kindSize kind) permST 1
  let s ← get
  writeRange (memActor s b x) va.toNat (bytesOf (kindSize kind) (reg s a).bits.toNat)

/-- The tag a capability load returns through `cB`. -/
def loadedTag (s : State) (b : Reg) (t : Bool) : Bool := t && hasPerm (reg s b) permLC

def capLoadBody (a b : Reg) (va : Int) (x : MemX) : Act Unit := do
  checkAccess b va 16 permLD 16
  let s ← get
  let (bs, t) ← readPiece (memActor s b x) va.toNat 16 rightLD
  modify (writeCap a ⟨loadedTag s b t, BitVec.ofNat 128 (natOfBytes bs)⟩)

/-- A capability store of `v` through `c` is refused (R62). -/
def storeRefused (c v : Cap) : Bool :=
  v.tag && (!hasPerm c permSC || (!hasPerm v permGL && !hasPerm c permSY))

def capStoreBody (a b : Reg) (va : Int) (x : MemX) : Act Unit := do
  checkAccess b va 16 permST 16
  let s ← get
  let v := reg s a
  if isView v then raiseView a 1
  if storeRefused (reg s b) v then raiseCap b.val .perm
  writePiece (memActor s b x) va.toNat (bytesOf 16 v.bits.toNat) v.tag rightST

def execLd (a b : Reg) (kind : Kind) (off : Fin 16) (s : State) : Host.Outcome State Fault Refusal :=
  access 4 plainX (loadBody a b kind (shortAddr s b off (kindSize kind)) plainX) s
def execLdExt (a b : Reg) (kind : Kind) (x : MemX) (s : State) : Host.Outcome State Fault Refusal :=
  access 12 x (loadBody a b kind (longAddr s b x (kindSize kind)) x) s
def execSt (a b : Reg) (kind : Kind) (off : Fin 16) (s : State) : Host.Outcome State Fault Refusal :=
  access 4 plainX (storeBody a b kind (shortAddr s b off (kindSize kind)) plainX) s
def execStExt (a b : Reg) (kind : Kind) (x : MemX) (s : State) : Host.Outcome State Fault Refusal :=
  access 12 x (storeBody a b kind (longAddr s b x (kindSize kind)) x) s
def execCld (a b : Reg) (off : Fin 16) (s : State) : Host.Outcome State Fault Refusal :=
  access 4 plainX (capLoadBody a b (shortAddr s b off 16) plainX) s
def execCldExt (a b : Reg) (x : MemX) (s : State) : Host.Outcome State Fault Refusal :=
  access 12 x (capLoadBody a b (longAddr s b x 16) x) s
def execCst (a b : Reg) (off : Fin 16) (s : State) : Host.Outcome State Fault Refusal :=
  access 4 plainX (capStoreBody a b (shortAddr s b off 16) plainX) s
def execCstExt (a b : Reg) (x : MemX) (s : State) : Host.Outcome State Fault Refusal :=
  access 12 x (capStoreBody a b (longAddr s b x 16) x) s

/-! ### Lane accesses (R158, R287, R288) -/

/-- The capability and alignment checks of the acting lanes, before any event: lane by lane, so that the lowest lane that fails
names the fault (DESIGN CHOICE, log 111). -/
def checkLanes (b : Reg) (size perms : Nat) : List (Nat × Int) → Act Unit
  | [] => pure ()
  | (_, va) :: rest => do
    checkAccess b va size perms 4
    checkLanes b size perms rest

/-- The lanes that act, with their addresses, ascending. -/
def laneAddrs (mask : BitVec 64) (at' : Nat → Int) : List (Nat × Int) :=
  (lanes.filter (laneActs mask)).map fun i => (i, at' i)

/-- Load `size` bytes for each lane, after the lanes that have read already, each with its address. -/
def loadLanesAfter (a : Actor) (size : Nat) (read : List (Int × Nat)) : List (Nat × Int) → Act (List (Nat × Nat))
  | [] => pure []
  | (i, va) :: rest => do
    let v ← match read.find? (·.1 == va) with
      | some e => pure e.2
      | none => do
        let bs ← readRange a va.toNat size
        pure (natOfBytes bs)
    let more ← loadLanesAfter a size ((va, v) :: read) rest
    pure ((i, v) :: more)

/-- Load `size` bytes for each lane: the lanes with what they read. Lanes that read the same byte read it at the same address,
and return the same (R158). -/
def loadLanes (a : Actor) (size : Nat) (ls : List (Nat × Int)) : Act (List (Nat × Nat)) := loadLanesAfter a size [] ls

/-- Lanes that store some byte of the sector at `sec`. -/
def lanesOn (size sec : Nat) (ls : List (Nat × Int)) : List (Nat × Int) := ls.filter fun l => meet sec 64 l.2.toNat size

/-- The lanes cover every byte of the sector at `sec`, which lies below the apertures (R124, R453). -/
def wholeSector (size : Nat) (ls : List (Nat × Int)) (sec : Nat) : Bool :=
  sec < trustBase && (upFrom sec 64).all fun b => ls.any fun l => l.2.toNat ≤ b && b < l.2.toNat + size

/-- What the lanes store of the sector at `sec`, in their order. -/
def sectorParts (size : Nat) (val : Nat → Nat) (ls : List (Nat × Int)) (sec : Nat) : List (Nat × List Byte × Bool) :=
  (lanesOn size sec ls).map fun l =>
    let first := max l.2.toNat sec
    (first, ((bytesOf size (val l.1)).drop (first - l.2.toNat)).take (sec + 64 - first), false)

/-- The sector at `sec` after the lanes that cover it: where two meet, the higher lane's value stands (R158). -/
def sectorAfter (size : Nat) (val : Nat → Nat) (ls : List (Nat × Int)) (sec : Nat) : List Byte :=
  ls.foldl (fun bs l => patch sec bs l.2.toNat (bytesOf size (val l.1))) (List.replicate 64 0)

/-- The lanes store a sector that they cover whole: one of a window without a fill. -/
def storeSector (a : Actor) (size : Nat) (val : Nat → Nat) (all : List (Nat × Int)) (sec : Nat) : Act Unit := do
  if a.served && (windowAt (coreOf (← get) a.core) sec).isSome then writePiece a sec (sectorAfter size val all sec) false rightST
  else writeWhole a sec (sectorParts size val all sec)

/-- Store one piece of lane `i`: the first lane of a sector that the lanes cover whole stores for all of them. -/
def storePiece (a : Actor) (size : Nat) (val : Nat → Nat) (all : List (Nat × Int)) (i : Nat) (va at' n : Nat) : Act Unit := do
  let sec := at' / 64 * 64
  if wholeSector size all sec then
    if (lanesOn size sec all).head?.map (·.1) = some i then storeSector a size val all sec
  else writePiece a at' (((bytesOf size (val i)).drop (at' - va)).take n) false rightST

def storePiecesOf (a : Actor) (size : Nat) (val : Nat → Nat) (all : List (Nat × Int)) (i va : Nat) :
    List (Nat × Nat) → Act Unit
  | [] => pure ()
  | (at', n) :: rest => do
    storePiece a size val all i va at' n
    storePiecesOf a size val all i va rest

/-- Store the lanes in order. -/
def storeLanes (a : Actor) (size : Nat) (val : Nat → Nat) (all : List (Nat × Int)) : List (Nat × Int) → Act Unit
  | [] => pure ()
  | (i, va) :: rest => do
    storePiecesOf a size val all i va.toNat (pieces va.toNat size)
    storeLanes a size val all rest

/-- The value loaded for a lane, or what the lane holds. -/
def loadedLane (ls : List (Nat × Nat)) (old : Nat → Nat) (i : Nat) : Nat := ((ls.find? (·.1 == i)).map (·.2)).getD (old i)

/-- 64 elements of `w` bits, from a function of the lane. -/
def ofLanes (w : Nat) (f : Nat → Nat) : Nat := packElems w (lanes.map f)

def vecLoad (a b : Reg) (mask : BitVec 64) (at' : Nat → Int) (x : MemX) : Act Unit := do
  checkV a.val
  let ls := laneAddrs mask at'
  checkLanes b 4 permLD ls
  let s ← get
  let got ← loadLanes (memActor s b x) 4 ls
  modify (putV a.val (BitVec.ofNat 2048 (ofLanes 32 (loadedLane got fun i => (lane (vreg (me s) a.val) i).toNat))))

def vecStore (a b : Reg) (mask : BitVec 64) (at' : Nat → Int) (x : MemX) : Act Unit := do
  checkV a.val
  let ls := laneAddrs mask at'
  checkLanes b 4 permST ls
  let s ← get
  storeLanes (memActor s b x) 4 (fun i => (lane (vreg (me s) a.val) i).toNat) ls ls

/-- The 64 bits of lane `i` of a moment register. -/
def momentBits (e : EReg) (i : Nat) : Nat := (e.extractLsb' (64 * i) 64).toNat

def momLoad (a b : Reg) (mask : BitVec 64) (at' : Nat → Int) (x : MemX) : Act Unit := do
  checkE a.val
  let ls := laneAddrs mask at'
  checkLanes b 8 permLD ls
  let s ← get
  let got ← loadLanes (memActor s b x) 8 ls
  modify (putE a.val (BitVec.ofNat 4096 (ofLanes 64 (loadedLane got (momentBits (ereg (me s) a.val))))))

def momStore (a b : Reg) (mask : BitVec 64) (at' : Nat → Int) (x : MemX) : Act Unit := do
  checkE a.val
  let ls := laneAddrs mask at'
  checkLanes b 8 permST ls
  let s ← get
  storeLanes (memActor s b x) 8 (momentBits (ereg (me s) a.val)) ls ls

/-- Lane `i` of a vector access of `size` bytes a lane at `va`. -/
def strided (va : Int) (size i : Nat) : Int := va + size * i

/-- Lane `i` of a gather or scatter (R288). -/
def gathered (s : State) (b : Reg) (x : MemX) (i : Nat) : Int :=
  capAddr (reg s b) + imm24 x.imm + 4 * (lane (vreg (me s) x.index.val) i).toInt

def execVld (a b : Reg) (off : Fin 16) (s : State) : Host.Outcome State Fault Refusal :=
  access 4 plainX (vecLoad a b (BitVec.allOnes 64) (strided (shortAddr s b off 256) 4) plainX) s
def execVldExt (a b : Reg) (m : MaskSel) (x : MemX) (s : State) : Host.Outcome State Fault Refusal :=
  access 12 x (vecLoad a b (acting s m) (strided (longAddr s b x 256) 4) x) s
def execVst (a b : Reg) (off : Fin 16) (s : State) : Host.Outcome State Fault Refusal :=
  access 4 plainX (vecStore a b (BitVec.allOnes 64) (strided (shortAddr s b off 256) 4) plainX) s
def execVstExt (a b : Reg) (m : MaskSel) (x : MemX) (s : State) : Host.Outcome State Fault Refusal :=
  access 12 x (vecStore a b (acting s m) (strided (longAddr s b x 256) 4) x) s
def execVgath (a b : Reg) (m : MaskSel) (x : MemX) (s : State) : Host.Outcome State Fault Refusal :=
  access 12 x (do checkV a.val; checkV x.index.val; vecLoad a b (acting s m) (gathered s b x) x) s
def execVscat (a b : Reg) (m : MaskSel) (x : MemX) (s : State) : Host.Outcome State Fault Refusal :=
  access 12 x (do checkV a.val; checkV x.index.val; vecStore a b (acting s m) (gathered s b x) x) s
def execEld (a b : Reg) (off : Fin 16) (s : State) : Host.Outcome State Fault Refusal :=
  access 4 plainX (momLoad a b (BitVec.allOnes 64) (strided (shortAddr s b off 512) 8) plainX) s
def execEldExt (a b : Reg) (m : MaskSel) (x : MemX) (s : State) : Host.Outcome State Fault Refusal :=
  access 12 x (momLoad a b (acting s m) (strided (longAddr s b x 512) 8) x) s
def execEst (a b : Reg) (off : Fin 16) (s : State) : Host.Outcome State Fault Refusal :=
  access 4 plainX (momStore a b (BitVec.allOnes 64) (strided (shortAddr s b off 512) 8) plainX) s
def execEstExt (a b : Reg) (m : MaskSel) (x : MemX) (s : State) : Host.Outcome State Fault Refusal :=
  access 12 x (momStore a b (acting s m) (strided (longAddr s b x 512) 8) x) s

/-! ### Atomics (R289 to R291) -/

/-- The new value of a location of `w` bits (R289). -/
def amoResult (op : AmoOp) (w m y : Nat) : Nat :=
  match op with
  | .swap => y
  | .add => (m + y) % 2 ^ w
  | .and => m.land y
  | .or => m.lor y
  | .xor => m.xor y
  | .min => if signed w m ≤ signed w y then m else y
  | .max => if signed w y ≤ signed w m then m else y
  | .minn => min m y
  | .maxn => max m y

def atomicPerms : Nat := permLD + permST + permAT

/-- Bytes of an atomic's location. -/
def atomicSize (narrow : Bool) : Nat := if narrow then 4 else 8

/-- The low `n` bytes of a register. -/
def lowBytes (s : State) (r : Reg) (n : Nat) : Nat := (reg64 s r).toNat % 256 ^ n

def amoBody (a b d : Reg) (op : AmoOp) (n : Nat) (x : MemX) : Act Unit := do
  let s ← get
  let va := longAddr s b x n
  checkAccess b va n atomicPerms n
  let (bs, _) ← readPiece (memActor s b x) va.toNat n rightAtomic
  let m := natOfBytes bs
  writePiece (memActor s b x) va.toNat (bytesOf n (amoResult op (8 * n) m (lowBytes s d n))) false rightAtomic
  modify (writeInt a 64 m)

def casBody (a b d : Reg) (n : Nat) (x : MemX) : Act Unit := do
  let s ← get
  let va := longAddr s b x n
  checkAccess b va n atomicPerms n
  let (bs, _) ← readPiece (memActor s b x) va.toNat n rightAtomic
  let m := natOfBytes bs
  if m = lowBytes s a n then writePiece (memActor s b x) va.toNat (bytesOf n (lowBytes s d n)) false rightAtomic
  modify (writeInt a 64 m)

def ccasBody (a b d : Reg) (x : MemX) : Act Unit := do
  let s ← get
  let va := longAddr s b x 16
  checkAccess b va 16 atomicPerms 16
  let v := reg s d
  if isView v then raiseView d 1
  let (bs, t) ← readPiece (memActor s b x) va.toNat 16 rightAtomic
  let old : Cap := ⟨loadedTag s b t, BitVec.ofNat 128 (natOfBytes bs)⟩
  if old = reg s a then
    if storeRefused (reg s b) v then raiseCap b.val .perm
    writePiece (memActor s b x) va.toNat (bytesOf 16 v.bits.toNat) v.tag rightAtomic
  modify (writeCap a old)

def execAmo (a b d : Reg) (op : AmoOp) (narrow : Bool) (x : MemX) (s : State) : Host.Outcome State Fault Refusal :=
  access 12 x (amoBody a b d op (atomicSize narrow) x) s
def execCas (a b d : Reg) (narrow : Bool) (x : MemX) (s : State) : Host.Outcome State Fault Refusal :=
  access 12 x (casBody a b d (atomicSize narrow) x) s
def execCcas (a b d : Reg) (x : MemX) (s : State) : Host.Outcome State Fault Refusal := access 12 x (ccasBody a b d x) s

/-! ### Fences (R166, R292, R309) -/

/-- A transfer has neither delivered its last piece nor stopped. -/
def transferLive (s : State) (n : Nat) : Bool :=
  s.cores.any fun (_, k) => k.channels.any fun (_, ch) => match ch.xfer with
    | some x => x.number == n
    | none => false

/-- The destination word of a message lies in the extent of a scope around core `c` (R7). -/
def scopeCovers (s : State) (c : Nat) (sc : Scope) (dest : Nat) : Bool :=
  let core := dest % 65536
  let here := dest / 65536 % 256 == s.pkg.toNat
  match sc with
  | .lane => false
  | .core => here && core == c
  | .quad => here && (core == c || (!isBasecamp core && !isBasecamp c && core / 4 == c / 4))
  | .die => here && dieOf core == dieOf c
  | .pkg => here
  | .pod => true
  | .host => here
  | .sys => true

/-- What a fence of scope `sc` by the context `id` still waits for. -/
def fenceWaits (s : State) (id : CtxId) (sc : Scope) : Bool :=
  let x := ctxOf s id
  x.transfers.any (fun t => transferLive s t.2) || x.sent.any (fun m => scopeCovers s id.core sc m.2) ||
    ((sc == .host || sc == .sys) && s.pending.any (·.uid == x.uid))

/-- The first failed acknowledgement that satisfies `p` is raised, and cleared; the others stay (R309). -/
def raiseFailure (p : Nat × Nat × Nat → Bool) : Act Unit := do
  let s ← get
  match (me s).failures.find? p with
  | none => pure ()
  | some f =>
    raiseFrom ⟨causeMessage, f.2.2, 0⟩ (onMe s fun x => { x with failures := x.failures.filter (· != f) })

def fenceBody (sc : Scope) : Act Unit := do
  let s ← get
  if fenceWaits s (who s) sc then hold (.fence sc)
  raiseFailure fun f => scopeCovers s (who s).core sc f.2.1
  modify fun s => onMe s fun x => { x with transfers := [] }

def execFence (sc : Scope) (s : State) : Host.Outcome State Fault Refusal := slow 12 (fenceBody sc) s

end Sys2Proof.Machine
end

