-- ==== Sys2Proof/Machine/StashCopy.lean ====
section
/-!
DEFINITION. Stash control and copy channels at their issue (R122 to R133, R293 to R296). The deliveries of a transfer are
events of their own.
-/

namespace Sys2Proof.Machine

/-! ### Stash windows (R123, R126, R293, R294) -/

def raiseStash {α : Type} (w condition : Nat) : Act α := raise causeStashMap (condInfo w condition)

/-- The queues of a core's route, as (stash byte, bytes). -/
def routeQueues (k : Core) : List (Nat × Nat) :=
  (k.route.pitches.flatMap fun p => p.inq :: p.outq.toList).map fun q =>
    let r := queueRecord k q
    (16 * q, 16 + queueDepth r * (queueItem r * 16))

/-- Units of 4 KiB in the stash region. -/
def stashUnits (k : Core) : Nat := k.sb - k.vb

/-- The first condition of R123 that fails, by its number in R294. -/
def mapRefusal (k : Core) (c : Cap) (w off len : Nat) : Option Nat :=
  let base := capAddr c
  if (look k.windows w).isSome then some 1
  else if len < 1 ∨ len > 512 then some 2
  else if off + len > stashUnits k then some 3
  else if k.windows.any (fun (_, x) => meet off len x.offset x.length) ∨
      (routeQueues k).any (fun q => meet (off * 4096) (len * 4096) q.1 q.2) then some 4
  else if base % 256 ≠ 0 then some 5
  else if k.windows.any (fun (_, x) => meet base (len * 4096) x.base (x.length * 4096)) then some 6
  else if (capCheck c base (len * 4096) permLD).isSome then some 7
  else none

def stashMapBody (w b : Reg) (off len : Nat) : Act Unit := do
  let s ← get
  if onBasecamp s then raiseStash w.val 11
  let c := reg s b
  match mapRefusal (myCore s) c w.val off len with
  | some cond => raiseStash w.val cond
  | none =>
    let win : Window :=
      { offset := off, length := len, base := capAddr c, ld := hasPerm c permLD, st := hasPerm c permST
        lc := hasPerm c permLC, sc := hasPerm c permSC, sectors := [] }
    set (onCore s (who s).core fun k => { k with windows := put k.windows w.val win })

def execStashMap (w b : Reg) (off len : Fin 1024) (s : State) : Host.Outcome State Fault Refusal :=
  quick 12 (stashMapBody w b off.val len.val) s

/-- The Dirty sectors of some windows: address, window and sector. -/
def dirtySectors (ws : List (Nat × Window)) : List (Nat × Nat × Nat) :=
  ws.flatMap fun (num, w) =>
    (w.sectors.filter fun (_, st) => st.isDirty).map fun (i, _) => (w.base + 64 * i, num, i)

def insertSector (x : Nat × Nat × Nat) : List (Nat × Nat × Nat) → List (Nat × Nat × Nat)
  | [] => [x]
  | y :: rest => if x.1 < y.1 then x :: y :: rest else y :: insertSector x rest

/-- In ascending address order (R126). -/
def sortSectors (xs : List (Nat × Nat × Nat)) : List (Nat × Nat × Nat) := xs.foldl (fun l x => insertSector x l) []

/-- Write sectors back, each once the line of its leaf's entry is free. -/
def writeBackSectors (c : Nat) : List (Nat × Nat × Nat) → Act Unit
  | [] => pure ()
  | (va, num, i) :: rest => do
    let s ← get
    if backHeld s c num i then hold (.line va)
    set (writeBack s c num i)
    writeBackSectors c rest

/-- Write back, and for `stash.unmap` remove, the windows named: the write-backs of one instruction are in ascending address
order. -/
def flushWindows (remove : Bool) (c : Nat) (ws : List (Nat × Window)) : Act Unit := do
  writeBackSectors c (sortSectors (dirtySectors ws))
  if remove then
    modify fun s => onCore s c fun k => { k with windows := ws.foldl (fun m w => drop m w.1) k.windows }

def flushOne (remove : Bool) (w : Reg) : Act Unit := do
  let s ← get
  if onBasecamp s then raiseStash w.val 11
  match look (myCore s).windows w.val with
  | none => raiseStash w.val 9
  | some win => flushWindows remove (who s).core [(w.val, win)]

def flushAll (remove : Bool) : Act Unit := do
  let s ← get
  if onBasecamp s then raiseStash 0 11
  flushWindows remove (who s).core (myCore s).windows

def execStashUnmap (w : Reg) (s : State) : Host.Outcome State Fault Refusal := slow 4 (flushOne true w) s
def execStashUnmapExt (s : State) : Host.Outcome State Fault Refusal := slow 12 (flushAll true) s
def execStashWb (w : Reg) (s : State) : Host.Outcome State Fault Refusal := slow 4 (flushOne false w) s
def execStashWbExt (s : State) : Host.Outcome State Fault Refusal := slow 12 (flushAll false) s

/-- A capability over the stash aperture. -/
def apertureCap (a b c : Reg) : Act Unit := do
  let s ← get
  if onBasecamp s then raiseStash 0 11
  let o := (reg64 s b).toNat
  let n := (reg64 s c).toNat
  let ok := o % 16 == 0 && n % 16 == 0 && n ≥ 16 && o + n ≤ stashUnits (myCore s) * 4096
  match if ok then exactCap (permLD + permST) (apertureBase + o) n else none with
  | none => raiseStash 0 10
  | some v => set (writeCap a v s)

def execStashAp (a b c : Reg) (s : State) : Host.Outcome State Fault Refusal := quick 12 (apertureCap a b c) s

/-! ### Copy channels (R128, R129, R132, R295, R296) -/

def channelOf (k : Core) (ch : Nat) : Channel := lookD k.channels ch {}

def setChannel (s : State) (c ch : Nat) (x : Channel) : State :=
  onCore s c fun k => { k with channels := put k.channels ch x }

/-- The transfer of a channel stops at its pointer and the channel records the fault; an instruction that waits for that
transfer finds it stopped (R132, R320). -/
def stopIn (k : Core) (ch : Nat) (t : Trap) : Core :=
  let c := channelOf k ch
  { k with
    channels := put k.channels ch { c with xfer := none, fault := some t, stopped := true, asked := none }
    held := k.held.map fun h => if c.xfer.any (fun x => h.awaits = some x.number) then { h with lost := true } else h }

def channelPin : Nat → Pin
  | 0 => .ch0 | 1 => .ch1 | 2 => .ch2 | _ => .ch3

def raiseCopy {α : Type} (ch condition : Nat) : Act α := raise causeCopy (condInfo ch condition)

/-- A recorded fault is raised, and its record cleared. -/
def raiseRecorded (ch : Nat) : Act Unit := do
  let s ← get
  let c := (who s).core
  match (channelOf (myCore s) ch).fault with
  | none => pure ()
  | some t => raiseFrom t (setChannel s c ch { channelOf (coreOf s c) ch with fault := none })

/-- Bytes of the staging region (R81). -/
def stagingSize (k : Core) : Nat := (512 - k.cb) * 4096

/-- The checks of a copy issue, in the order of R295. -/
def checkCopy (a b c : Reg) (ch : Nat) (land : Bool) : Act Unit := do
  let s ← get
  let n := (reg64 s c).toNat
  let src := reg s b
  let dst := reg s a
  if !land then checked a.val (capCheck dst (capAddr dst) n permST)
  checked b.val (capCheck src (capAddr src) n permLD)
  checkEngine (channelPin ch)
  needResident
  raiseRecorded ch
  if n % 16 ≠ 0 ∨ n < 16 ∨ n > 2 ^ 20 ∨ capAddr src % 16 ≠ 0 then raiseCopy ch 1
  if !land ∧ capAddr dst % 16 ≠ 0 then raiseCopy ch 1
  let o := (reg64 s a).toNat
  if land ∧ (o % 16 ≠ 0 ∨ o + n > stagingSize (myCore s)) then raiseCopy ch 2

/-- The first line of a range that some channel owns. -/
def ownedIn (s : State) (a n : Nat) : Option Nat :=
  ((upFrom (a / 256) ((a + n - 1) / 256 + 1 - a / 256)).map (· * 256)).find? (lineOwned s)

/-- The transfer starts: its pointer is 0 and its destination lines are owned. -/
def startCopy (a b c : Reg) (ch : Nat) (land : Bool) (s : State) : State :=
  let n := (reg64 s c).toNat
  let o := (reg64 s a).toNat
  let (number, s) := freshNumber s
  let x : Transfer :=
    { number := number, owner := (me s).uid, src := reg s b, dst := if land then .land o else .global (reg s a)
      length := n, ldReg := b, stReg := a }
  let s := setChannel s (who s).core ch
    { wp := 0, xfer := some x, fault := none, stopped := false, last := number
      landed := if land then some (o, n) else none }
  onMe s fun x => { x with transfers := x.transfers ++ [(ch, number)] }

def copyBody (a b c : Reg) (ch : Nat) (land : Bool) : Act Unit := do
  checkCopy a b c ch land
  let s ← get
  if (channelOf (myCore s) ch).xfer.isSome then hold (.channel ch)
  if !land then
    match ownedIn s (capAddr (reg s a)) (reg64 s c).toNat with
    | some va => hold (.line va)
    | none => pure ()
  modify (startCopy a b c ch land)

def execCopy (a b c : Reg) (ch : Fin 4) (land : Bool) (s : State) : Host.Outcome State Fault Refusal :=
  slow 12 (copyBody a b c ch.val land) s

/-- A wait for the end of the current transfer. -/
def copyWaitBody (ch : Nat) : Act Unit := do
  checkEngine (channelPin ch)
  needResident
  let s ← get
  if (channelOf (myCore s) ch).xfer.isSome then hold (.channel ch)
  raiseRecorded ch

/-- A wait for the pointer, which it then reads. -/
def copyPointBody (d : Reg) (ch : Nat) (b : Reg) (imm : BitVec 24) : Act Unit := do
  checkEngine (channelPin ch)
  needResident
  let s ← get
  let x := channelOf (myCore s) ch
  let t := (reg64 s b).toNat + imm24 imm
  if x.wp < t then
    if x.xfer.isSome then hold (.point ch t.toNat)
    raiseRecorded ch
  modify (writeInt d 64 x.wp)

def execCopyWait (ch : Reg) (s : State) : Host.Outcome State Fault Refusal := slow 4 (copyWaitBody ch.val) s
def execCopyWaitExt (d ch b : Reg) (imm : BitVec 24) (s : State) : Host.Outcome State Fault Refusal :=
  slow 12 (copyPointBody d ch.val b imm) s

end Sys2Proof.Machine
end

