-- ==== Sys2Proof/Machine/Views.lean ====
section
/-!
DEFINITION. The view instructions (R136 to R141, R297 to R299, R357, R358). The allocation of claimed granules is an event
of its own.
-/

namespace Sys2Proof.Machine

/-- Register `b` holds a view, with these bounds. -/
def viewBounds (b : Reg) : Act (Nat × Nat) := do
  let v := reg (← get) b
  if !isView v then raiseView b 7
  match capBounds v with
  | some x => pure x
  | none => raiseView b 7

def raiseWiden {α : Type} (b : Reg) : Act α := raise causeWidening b.val

/-- The exact capability over [base, base + n) with the permissions of `v`. -/
def exactView (b : Reg) (v : Cap) (base n : Nat) : Act Cap :=
  match exactCap (capPerms v) base n with
  | some c => pure c
  | none => raiseView b 9

/-- A count of some granule would pass 65,535 (R140). -/
def checkCounts (b : Reg) (gs : List Nat) : Act Unit := do
  let s ← get
  let full (g : Nat) : Bool := match coverCount s g with
    | some n => n ≥ 65535
    | none => false
  if gs.any full then raiseView b 4

def dupBody (a b : Reg) : Act Unit := do
  let (base, top) ← viewBounds b
  checkCounts b (granulesOf base top)
  let s ← get
  let v := reg s b
  set (writeCap a v ((granulesOf base top).foldl cover s))

/-- The view is split at `x`: the lower part stays in `cB`. -/
def splitBody (a b : Reg) (d : BitVec 64) : Act Unit := do
  let (base, top) ← viewBounds b
  let v := reg (← get) b
  let x : Int := capAddr v + d.toInt
  if x ≤ base ∨ x ≥ top then raiseWiden b
  let x := x.toNat
  let low ← exactView b v base (x - base)
  let high ← exactView b v x (top - x)
  let shared := if x % granuleSize = 0 then [] else [x / granuleSize]
  checkCounts b shared
  let s ← get
  let s := shared.foldl cover s
  set (writeCap a high (onMe s fun c => putReg c b.val low))

/-- The view is narrowed to [a, a + n). -/
def narrowBody (a b : Reg) (n : Nat) : Act Unit := do
  let (base, top) ← viewBounds b
  let v := reg (← get) b
  let lo := capAddr v
  if n = 0 ∨ lo < base ∨ lo + n > top then raiseWiden b
  let new ← exactView b v lo n
  let s ← get
  let kept := granulesOf lo (lo + n)
  let s := ((granulesOf base top).filter fun g => !kept.contains g).foldl uncover s
  if a = b then set (onMe s fun c => putReg c a.val new)
  else set (writeCap a new (onMe s fun c => putReg c b.val Cap.null))

def dropBody (b : Reg) : Act Unit := do
  let _ ← viewBounds b
  modify (writeCap b Cap.null)

/-- The view moves from a register into an empty park slot. -/
def parkBody (k b : Reg) : Act Unit := do
  let _ ← viewBounds b
  needResident
  let s ← get
  if (look (myCore s).parks k.val).isSome then raiseView b 5
  let v := reg s b
  let s := onMe s fun c => putReg c b.val Cap.null
  set (onCore s (who s).core fun x => { x with parks := put x.parks k.val v })

/-- The view moves out of a park slot; the view fault of an empty one names A, the only register of the instruction (DESIGN
CHOICE, log 112). -/
def takeBody (a k : Reg) : Act Unit := do
  needResident
  let s ← get
  match look (myCore s).parks k.val with
  | none => raiseView a 6
  | some v => set (writeCap a v (onCore s (who s).core fun x => { x with parks := drop x.parks k.val }))

def execVdup (a b : Reg) (s : State) : Host.Outcome State Fault Refusal := slow 4 (dupBody a b) s
def execVdupExt (a b : Reg) (s : State) : Host.Outcome State Fault Refusal := slow 12 (dupBody a b) s
def execVsplit (a b c : Reg) (s : State) : Host.Outcome State Fault Refusal := slow 4 (splitBody a b (opReg s c 0)) s
def execVsplitExt (a b c : Reg) (imm : BitVec 24) (s : State) : Host.Outcome State Fault Refusal :=
  slow 12 (splitBody a b (opReg s c imm)) s
def execVnarrow (a b c : Reg) (s : State) : Host.Outcome State Fault Refusal :=
  slow 4 (narrowBody a b (opReg s c 0).toNat) s
def execVnarrowExt (a b c : Reg) (imm : BitVec 24) (s : State) : Host.Outcome State Fault Refusal :=
  slow 12 (narrowBody a b (opReg s c imm).toNat) s
def execVdrop (b : Reg) (s : State) : Host.Outcome State Fault Refusal := slow 4 (dropBody b) s
def execVdropExt (b : Reg) (s : State) : Host.Outcome State Fault Refusal := slow 12 (dropBody b) s
def execVpark (k b : Reg) (s : State) : Host.Outcome State Fault Refusal := quick 4 (parkBody k b) s
def execVparkExt (k b : Reg) (s : State) : Host.Outcome State Fault Refusal := quick 12 (parkBody k b) s
def execVtake (a k : Reg) (s : State) : Host.Outcome State Fault Refusal := quick 4 (takeBody a k) s
def execVtakeExt (a k : Reg) (s : State) : Host.Outcome State Fault Refusal := quick 12 (takeBody a k) s

/-! ### Covered allocation (R298, R358) -/

/-- The granule may be claimed: free or in scrub, and withheld from no claim. -/
def claimable (d : Domain) (i : Nat) : Bool :=
  let g := granuleAt d i
  !g.claimed && (match g.state with
    | .free => true
    | .zero _ => true
    | .scrub => true
    | .ready => true
    | .retired => false
    | .covered _ => false)

/-- The lowest run of `n` claimable granules below `size`, where `run` granules before `i` are claimable. -/
def claimRun (d : Domain) (size n : Nat) : Nat → Nat → Nat → Option Nat
  | 0, _, _ => none
  | fuel + 1, i, run =>
    if run = n then some (i - n)
    else if i < size then claimRun d size n fuel (i + 1) (if claimable d i then run + 1 else 0)
    else none

/-- Status 1 or 2: nothing is allocated. -/
def allocFails (a d : Reg) (status : Nat) : Act Unit := modify fun s => writeInt d 64 status (writeCap a Cap.null s)

def allocBody (a d : Reg) (n : Nat) : Act Unit := do
  let s ← get
  if n % granuleSize ≠ 0 ∨ n < granuleSize ∨ n > 2 ^ 32 - granuleSize then allocFails a d 1
  else
    let dom := myDomain s
    let x := domainOf s dom
    let size := x.covgran.toNat
    let count := n / granuleSize
    match if (teamOf s (who s)).isSome then claimRun x size count (size + 1) 0 0 else none with
    | none => allocFails a d 2
    | some i =>
      stop (.done (onMe (claimGranules s dom i count true) fun c =>
        { c with wait := .covered (x.covbase.toNat + i) count a d }))

def execValloc (a d c : Reg) (imm : BitVec 24) (s : State) : Host.Outcome State Fault Refusal :=
  slow 12 (allocBody a d (opReg s c imm).toNat) s

end Sys2Proof.Machine
end

