-- ==== Sys2Proof/Machine/Descriptors.lean ====
section
/-!
DEFINITION. Tensor descriptors: their fields, when they are valid, and where their elements and scales lie (R69 to R72).
-/

namespace Sys2Proof.Machine

/-- A descriptor: its 512 bits and the tags of BASE and SBASE. -/
structure Desc where
  bits : Nat
  baseTag : Bool
  scaleTag : Bool
deriving DecidableEq, Repr

def Desc.base (d : Desc) : Cap := ⟨d.baseTag, BitVec.ofNat 128 (field d.bits 127 0)⟩
def Desc.sbase (d : Desc) : Cap := ⟨d.scaleTag, BitVec.ofNat 128 (field d.bits 255 128)⟩
def Desc.size (d : Desc) (i : Nat) : Nat := field d.bits (287 + 32 * i) (256 + 32 * i)
def Desc.stride (d : Desc) (i : Nat) : Nat := if i = 0 then 1 else field d.bits (383 + 32 * i) (352 + 32 * i)
def Desc.fmtCode (d : Desc) : Nat := field d.bits 483 480
def Desc.sk (d : Desc) : Nat := field d.bits 485 484
def Desc.rank (d : Desc) : Nat := field d.bits 487 486
def Desc.blk (d : Desc) : Nat := field d.bits 489 488
def Desc.tileRows (d : Desc) : Nat := 2 ^ field d.bits 492 490

/-- The format of a code; codes above 12 have none. -/
def fmtOf (n : Nat) : Option Fmt :=
  [Fmt.f32, .bf16, .f16, .e4m3, .e5m2, .e2m1, .lns6, .s8, .s16, .s32, .n8, .s4, .mo][n]?

def Desc.fmt (d : Desc) : Fmt := (fmtOf d.fmtCode).getD .f32

/-- The limits of R71. -/
def Desc.valid (d : Desc) : Bool :=
  field d.bits 511 496 == 0 && d.fmtCode ≤ 12 && d.sk != 3 && d.blk ≤ 1 && ((d.blk == 1) == (d.sk != 0)) &&
    (d.sk != 1 || [3, 4, 5].contains d.fmtCode) && (d.sk != 2 || [3, 5, 6].contains d.fmtCode) &&
    [0, 1, 2, 3].all (fun i => if i ≤ d.rank then d.size i ≥ 1 else d.size i == 1 && (i == 0 || d.stride i == 0)) &&
    (d.blk == 0 || d.size 0 % 32 == 0)

/-- Descriptor `n` of a team. -/
def teamDesc (t : Team) (n : Nat) : Desc :=
  let tags := lookD t.descTags n 0
  ⟨(lookD t.descs n 0).toNat, bit tags 0, bit tags 1⟩

/-- Descriptor `n` of the issuing context's team; a context without a team has none. -/
def descOf (s : State) (n : Nat) : Desc :=
  match teamOf s (who s) with
  | some t => teamDesc t n
  | none => ⟨0, false, false⟩

def raiseDesc {α : Type} (n : Nat) : Act α := raise causeDescriptor n

/-- A valid descriptor that passes `ok`, or the descriptor fault. -/
def needDesc (n : Nat) (ok : Desc → Bool) : Act Desc := do
  let d := descOf (← get) n
  require (d.valid && ok d) causeDescriptor n
  pure d

/-- A position in a tensor. -/
structure Pos where
  i0 : Nat
  i1 : Nat
  i2 : Nat
  i3 : Nat

def Desc.holds (d : Desc) (p : Pos) : Bool :=
  p.i0 < d.size 0 && p.i1 < d.size 1 && p.i2 < d.size 2 && p.i3 < d.size 3

/-- Element offset (R72). -/
def Desc.offset (d : Desc) (p : Pos) : Nat := p.i0 + p.i1 * d.stride 1 + p.i2 * d.stride 2 + p.i3 * d.stride 3

/-- Byte address of an element, and its bytes. -/
def Desc.place (d : Desc) (p : Pos) : Nat × Nat :=
  let w := d.fmt.width
  if w = 4 then (capAddr d.base + d.offset p / 2, 1) else (capAddr d.base + d.offset p * (w / 8), w / 8)

/-- Scale index (R72). -/
def Desc.scaleIndex (d : Desc) (p : Pos) : Nat :=
  p.i0 / 32 + d.size 0 / 32 * (p.i1 + d.size 1 * (p.i2 + d.size 2 * p.i3))

/-- Byte address of a block's scale, and its bytes. -/
def Desc.scalePlace (d : Desc) (p : Pos) : Nat × Nat :=
  if d.sk = 1 then (capAddr d.sbase + d.scaleIndex p, 1) else (capAddr d.sbase + 4 * d.scaleIndex p, 4)

/-- The engine that reads or writes through a descriptor's capability. -/
def descActor (s : State) (c : Cap) : Actor := { myEngine s with sy := hasPerm c permSY }

/-- Read `n` bytes at `va` through a capability of a descriptor. -/
def readThrough (c : Cap) (va n : Nat) : Act Nat := do
  checked 0 (capCheck c va n permLD)
  let bs ← readRange (descActor (← get) c) va n
  pure (natOfBytes bs)

/-- The raw bits of an element: a four-bit element is the nibble of its offset's parity (R65, R72). -/
def readElement (d : Desc) (p : Pos) : Act Nat := do
  let (va, n) := d.place p
  let x ← readThrough d.base va n
  pure (if d.fmt.width = 4 then (if d.offset p % 2 = 0 then x % 16 else x / 16) else x)

def readScale (d : Desc) (p : Pos) : Act Nat := do
  let (va, n) := d.scalePlace p
  readThrough d.sbase va n

/-- A position moved along dimension 0. -/
def Pos.along (p : Pos) (k : Nat) : Pos := { p with i0 := p.i0 + k }

/-- `n` elements from a position on along dimension 0, `none` past the end of the dimension (or of the tensor). -/
def readElements (d : Desc) (p : Pos) : Nat → Act (List (Option Nat))
  | 0 => pure []
  | n + 1 => do
    let x ← if d.holds p then (do let v ← readElement d p; pure (some v)) else pure none
    let more ← readElements d (p.along 1) n
    pure (x :: more)

end Sys2Proof.Machine
end

