-- ==== Sys2Proof/Machine/Kv.lean ====
section
/-!
DEFINITION. The position map, appends to KV pages, Cairn and admission (R143 to R155, R300 to R307, R357).
-/

namespace Sys2Proof.Machine

/-! ### The position map (R145, R146, R300, R301) -/

/-- A hit of a key in a core's buffer: the lowest entry, on a basecamp core among those the context filled. -/
def mapHit (s : State) (key : BitVec 128) : Option Cap :=
  ((myCore s).posmap.find? fun (_, e) => e.key == key && (!onBasecamp s || e.owner == (me s).uid)).map (·.2.cap)

def lookBody (a b : Reg) : Act Unit := do
  let s ← get
  let key := (reg s b).bits
  match if (keyOf key.toNat).clean then mapHit s key else none with
  | none => missedLookup key
  | some c => set (writeCap a c (onMe s fun x => { x with refilled := none }))

def execPmLook (a b : Reg) (s : State) : Host.Outcome State Fault Refusal := quick 12 (lookBody a b) s

/-- A capability bounded to exactly one page of the domain's KV pool. -/
def wholePage (s : State) (dom : Nat) (c : Cap) : Bool :=
  match capBounds c with
  | none => false
  | some (base, top) =>
    base % 65536 == 0 && top == base + 65536 && (kvIndex (domainOf s dom) (base / 65536)).isSome

def fillBody (b c : Reg) (i : Nat) : Act Unit := do
  let s ← get
  if c.val = 0 then set (onCore s (who s).core fun k => { k with posmap := drop k.posmap i })
  else
    let key := (reg s b).bits
    let cap := reg s c
    require ((keyOf key.toNat).clean && cap.tag && wholePage s (myDomain s) cap) causePositionMap 4
    set (onCore s (who s).core fun k => { k with posmap := put k.posmap i ⟨key, cap, (me s).uid⟩ })

def execPmFill (b c : Reg) (i : Fin 256) (s : State) : Host.Outcome State Fault Refusal := quick 12 (fillBody b c i.val) s

/-! ### Pages for an append (R148, R150, R155) -/

/-- Take a page of the scrubbed free list, counted once; while the list is empty the instruction waits. -/
def takePage (dom : Nat) : Act Nat := do
  let s ← get
  match freePage s dom with
  | none => hold (.freePage dom)
  | some i =>
    set (setKvPage s dom i (.counted 1))
    pure ((domainOf s dom).kvbase.toNat + i)

/-- The entries that name a (sequence, layer, block) leave the buffers of the team's cores (R150). -/
def forgetBlock (s : State) (team : Option Nat) (seq l b : Nat) : State :=
  let named (e : PmEntry) : Bool := let k := keyOf e.key.toNat; k.seq == seq && k.layer == l && k.block == b
  let ofTeam (e : PmEntry) : Bool := match contextByUid s e.owner with
    | some id => teamUidOf s id == team
    | none => false
  { s with
    cores := s.cores.map fun (c, k) =>
      if isBasecamp c then (c, { k with posmap := k.posmap.filter fun (_, e) => !(named e && ofTeam e) })
      else if k.team == team then (c, { k with posmap := k.posmap.filter fun (_, e) => !named e })
      else (c, k) }

/-- Copy-on-write of the page at `old` (R150): the new page's address. -/
def copyOnWrite (a : Actor) (dom slot : Nat) (r : Rec) (l b old : Nat) : Act Nat := do
  let page ← takePage dom
  let bs ← readRange a (old * 65536) 65536
  writeRange a (page * 65536) bs
  writeMap a r l b (pageCap page)
  modify fun s => forgetBlock (match kvIndex (domainOf s dom) old with
    | some i => lowerCount s dom i
    | none => s) a.team slot l b
  pure page

/-- How an append finds its page. -/
inductive Append
  | exhausted
  | at (status page : Nat) (used : Bool)

/-- The page an append to (layer, block) writes, with allocation or copy-on-write (R148, R150, R302). -/
def pageForAppend (a : Actor) (dom slot : Nat) (r : Rec) (l b : Nat) (hit : Option Cap) : Act Append := do
  let e ← match hit with
    | some c => pure c
    | none => readMap a r l b
  let s ← get
  let shared := match entryPage s dom e with
    | some i => kvCount (domainOf s dom) i > 1
    | none => false
  if (isNull e || shared) && r.q == 0 then pure .exhausted
  else if isNull e then
    let page ← takePage dom
    writeMap a r l b (pageCap page)
    pure (.at 1 page true)
  else if shared then
    let page ← copyOnWrite a dom slot r l b (pageOfEntry e)
    pure (.at 2 page true)
  else pure (.at 0 (pageOfEntry e) false)

/-- The bytes of a run of vector registers. -/
def runBytes (s : State) (first k w : Nat) : List Byte :=
  ((upFrom first k).flatMap fun n => bytesOf 256 (vreg (me s) n).toNat).take w

/-- The rows of a position held by an open draft (R349). -/
def holdRow (a : Actor) (dom slot : Nat) (r : Rec) (l p w : Nat) (kRow vRow : List Byte) : Act Unit := do
  if p < r.pos ∨ p - r.pos > 7 then pure ()
  else
    let va := capAddr r.ovl + 2 * ((p - r.pos) * r.nl + l) * w
    checked 0 (capCheck r.ovl va (2 * w) permST)
    writeRange a va kRow
    writeRange a (va + w) vRow
    modify fun s => match draftOf s dom slot with
      | some d => setDraft s dom { d with rows := d.rows.filter (· != ⟨p, l⟩) ++ [⟨p, l⟩] }
      | none => setDraft s dom ⟨slot, [], [⟨p, l⟩]⟩

/-- Write the two rows of a position into its page (R143). -/
def writeRows (a : Actor) (page p w : Nat) (kRow vRow : List Byte) : Act Unit := do
  let o := p % (32768 / w) * w
  writeRange a (page * 65536 + o) kRow
  writeRange a (page * 65536 + 32768 + o) vRow

/-- The package counts an append with a stale generation (R147, R454). -/
def countStale (s : State) : State := { s with stalewr := min (s.stalewr + 1) (2 ^ 64 - 1) }

/-- One append: its status (R302). -/
def appendRows (key : Key) (keyBits : BitVec 128) (p w : Nat) (kRow vRow : List Byte) : Act Nat := do
  let s ← get
  let dom := myDomain s
  let a := myEngine s
  if !slotKnown s dom key.seq then
    modify countStale
    pure 5
  else
    let r ← readRecord a dom key.seq
    let b := p / (32768 / w)
    if key.gen ≠ r.gen then
      modify countStale
      pure 5
    else if r.state ≠ 2 ∨ 32768 / w ≠ 2 ^ r.logp ∨ key.layer ≥ r.nl then pure 7
    else if p = 2 ^ 32 - 1 then pure 4
    else if p ≥ r.rlen then pure 3
    else if r.draft then
      holdRow a dom key.seq r key.layer p w kRow vRow
      pure 6
    else
      let hit := mapHit s (BitVec.ofNat 128 (setField keyBits.toNat 79 48 b))
      match ← pageForAppend a dom key.seq r key.layer b hit with
      | .exhausted => pure 8
      | .at status page used =>
        writeRows a page p w kRow vRow
        let r := if used then r.set 255 224 (r.q - 1) else r
        writeRecord a dom key.seq (r.set 159 128 (max r.pos (p + 1)))
        pure status

/-- Row width in bytes of a KV descriptor. -/
def rowWidth (d : Desc) : Nat := d.size 0 * d.fmt.width / 8

def kvDesc (d : Desc) : Bool :=
  d.rank == 0 && d.sk == 0 && d.size 0 * d.fmt.width % 8 == 0 && [64, 128, 256, 512, 1024, 2048, 4096].contains (rowWidth d)

def checkRun (first : Nat) : List Nat → Act Unit
  | [] => pure ()
  | i :: rest => do
    checkV (first + i)
    checkRun first rest

def kvAppBody (a b c d e : Reg) (n : Nat) : Act Unit := do
  checkV d.val
  checkV e.val
  let x ← needDesc n kvDesc
  let w := rowWidth x
  let k := max 1 (w / 256)
  checkRun d.val (upFrom 0 k)
  checkRun e.val (upFrom 0 k)
  let s ← get
  let key := keyOf (reg s b).bits.toNat
  require key.clean causePositionMap 4
  let p := field (reg64 s c).toNat 31 0
  let status ← appendRows key (reg s b).bits p w (runBytes s d.val k w) (runBytes s e.val k w)
  modify (writeInt a 64 status)

def execKvApp (a b c d e : Reg) (n : Fin 256) (s : State) : Host.Outcome State Fault Refusal :=
  slow 12 (kvAppBody a b c d e n.val) s

/-! ### Cairn (R303 to R305) -/

def treeOf (s : State) (ident : Nat) : Option Cairn :=
  if (teamOf s (who s)).isSome then (domainOf s (myDomain s)).trees.find? (·.ident == ident) else none

def setTree (s : State) (t : Cairn) : State :=
  onDomain s (myDomain s) fun d => { d with trees := d.trees.map fun u => if u.ident == t.ident then t else u }

/-- The count of tokens and the tree identifier of `cD`. -/
def tokenCount (s : State) (d : Reg) : Nat := field (reg64 s d).toNat 31 0
def treeIdent (s : State) (d : Reg) : Nat := field (reg64 s d).toNat 63 32

/-- The tokens at the cursor of `cC` (R303). -/
def readTokens (c : Reg) (n : Nat) : Act (List (BitVec 32)) := do
  let s ← get
  let a := { myEngine s with sy := hasPerm (reg s c) permSY, reg := c.val }
  let bs ← readRange a (capAddr (reg s c)) (4 * n)
  pure ((upFrom 0 n).map fun i => BitVec.ofNat 32 (natOfBytes ((bs.drop (4 * i)).take 4)))

/-- The key of a whole sequence: LAYER, BLOCK and reserved bits are 0, or the position-map fault. -/
def wholeKey (bits : Nat) : Act Key := do
  let key := keyOf bits
  require (key.clean && key.layer == 0 && key.block == 0) causePositionMap 4
  pure key

def sequenceKey (b : Reg) : Act Key := do wholeKey (reg (← get) b).bits.toNat

/-- The record of a key: nothing when the slot is out of the table or the generation is stale (R407). -/
def sequenceRecord (key : Key) : Act (Option Rec) := do
  let s ← get
  if !slotKnown s (myDomain s) key.seq then pure none
  else
    let r ← readRecord (myEngine s) (myDomain s) key.seq
    pure (if r.gen = key.gen then some r else none)

def commonPrefix : List (BitVec 32) → List (BitVec 32) → Nat
  | x :: xs, y :: ys => if x = y then commonPrefix xs ys + 1 else 0
  | _, _ => 0

/-- Tokens in one block of a tree. -/
def treeBlock (t : Cairn) : Nat := 2 ^ t.logp

/-- The longest prefix that the tree holds, at most n - 1 (R304). -/
def matchLength (t : Cairn) (toks : List (BitVec 32)) : Nat :=
  min (t.nodes.foldl (fun m x => max m (commonPrefix x.tokens toks)) 0) (toks.length - 1)

/-- The nodes that may serve block `b` of a match of `m` tokens. -/
def nodesFor (t : Cairn) (toks : List (BitVec 32)) (m b : Nat) : List CairnNode :=
  let need := min m ((b + 1) * treeBlock t)
  t.nodes.filter fun x => x.tokens.length == (b + 1) * treeBlock t && x.tokens.take need == toks.take need

/-- The pages of block `b`: one of the nodes that may serve it. -/
def pagesFor (s : State) (t : Cairn) (toks : List (BitVec 32)) (m b : Nat) : List Nat :=
  let found := nodesFor t toks m b
  let i := if found.length ≤ 1 then 0 else pick s b found.length
  match found[i]? with
  | some x => x.pages
  | none => []

/-- One reference more on each page would pass 65,535. -/
def overflows (s : State) (dom : Nat) (pages : List Nat) : Bool :=
  pages.any fun p => match kvIndex (domainOf s dom) p with
    | some i => kvCount (domainOf s dom) i + (pages.filter (· == p)).length > 65535
    | none => false

def raisePages (s : State) (dom : Nat) (pages : List Nat) : State :=
  pages.foldl (fun s p => match kvIndex (domainOf s dom) p with
    | some i => raiseCount s dom i
    | none => s) s

def lowerPages (s : State) (dom : Nat) (pages : List Nat) : State :=
  pages.foldl (fun s p => match kvIndex (domainOf s dom) p with
    | some i => lowerCount s dom i
    | none => s) s

/-- The map entries of a block, one page a layer. -/
def writeBlock (a : Actor) (r : Rec) (b : Nat) : Nat → List Nat → Act Unit
  | _, [] => pure ()
  | l, p :: rest => do
    writeMap a r l b (pageCap p)
    writeBlock a r b (l + 1) rest

def writeBlocks (a : Actor) (r : Rec) : Nat → List (List Nat) → Act Unit
  | _, [] => pure ()
  | b, ps :: rest => do
    writeBlock a r b 0 ps
    writeBlocks a r (b + 1) rest

def statusWord (status low : Nat) : Nat := status * 2 ^ 32 + low

/-- The match of a prompt: the status and M; of statuses 4 and 5, 5 comes first (DESIGN CHOICE, log 99). -/
def cairnMatch (t : Cairn) (key : Key) (r : Rec) (toks : List (BitVec 32)) : Act Nat := do
  let s ← get
  let dom := myDomain s
  let m := matchLength t toks
  let blocks := ceilDiv m (treeBlock t)
  let pages := (upFrom 0 blocks).map (pagesFor s t toks m)
  if blocks > r.mb then pure (statusWord 5 m)
  else if overflows s dom pages.flatten then pure (statusWord 4 m)
  else
    let a := myEngine s
    writeBlocks a r 0 pages
    modify fun s => raisePages s dom pages.flatten
    writeRecord a dom key.seq ((((r.set 223 192 m).set 43 40 t.logp).set 39 32 (t.layers - 1)).set 1 0 1)
    pure (statusWord 0 m)

def cairnLookBody (a b c d : Reg) : Act Unit := do
  let s ← get
  let n := tokenCount s d
  checked c.val (capCheck (reg s c) (capAddr (reg s c)) (4 * n) permLD)
  let status ← match treeOf s (treeIdent s d) with
    | none => pure (statusWord 3 0)
    | some t => do
      let key ← sequenceKey b
      match ← sequenceRecord key with
      | none => pure (statusWord 2 0)
      | some r =>
        if r.state ≠ 0 then pure (statusWord 1 0)
        else
          let toks ← readTokens c n
          cairnMatch t key r toks
  modify (writeInt a 64 status)

/-- The blocks of a prefix that the tree does not hold. -/
def missingBlocks (t : Cairn) (toks : List (BitVec 32)) (blocks : Nat) : List Nat :=
  (upFrom 0 blocks).filter fun b => !t.nodes.any (·.tokens == toks.take ((b + 1) * treeBlock t))

/-- The pages of a block in the sequence's map, one a layer; nothing when one is null. The entry of a block past the map's MB is
read where its number places it, as another layer's or past the map (DESIGN CHOICE, log 109). -/
def blockPages (a : Actor) (r : Rec) (b : Nat) : List Nat → Act (Option (List Nat))
  | [] => pure (some [])
  | l :: rest => do
    let c ← readMap a r l b
    if isNull c then pure none
    else
      let more ← blockPages a r b rest
      pure (more.map (pageOfEntry c :: ·))

def newNodes (a : Actor) (t : Cairn) (r : Rec) (toks : List (BitVec 32)) : List Nat → Act (Option (List CairnNode))
  | [] => pure (some [])
  | b :: rest => do
    match ← blockPages a r b (upFrom 0 t.layers) with
    | none => pure none
    | some ps =>
      let more ← newNodes a t r toks rest
      pure (more.map (⟨toks.take ((b + 1) * treeBlock t), ps⟩ :: ·))

/-- The insertion of a prefix: its status (R305), the first of 6, 7 and 4 that applies (DESIGN CHOICE, log 99). -/
def cairnInsert (t : Cairn) (r : Rec) (toks : List (BitVec 32)) (blocks : Nat) : Act Nat := do
  let s ← get
  let missing := missingBlocks t toks blocks
  if missing.isEmpty then pure 1
  else
    match ← newNodes (myEngine s) t r toks missing with
    | none => pure 6
    | some nodes =>
      let pages := nodes.flatMap (·.pages)
      if t.nodes.length + nodes.length > t.capacity then pure 7
      else if overflows s (myDomain s) pages then pure 4
      else
        modify fun s => raisePages (setTree s { t with nodes := t.nodes ++ nodes }) (myDomain s) pages
        pure 0

def cairnInsBody (a b c d : Reg) : Act Unit := do
  let s ← get
  let n := tokenCount s d
  checked c.val (capCheck (reg s c) (capAddr (reg s c)) (4 * n) permLD)
  let status ← match treeOf s (treeIdent s d) with
    | none => pure (statusWord 3 0)
    | some t => do
      let key ← sequenceKey b
      let blocks := n / treeBlock t
      let whole := blocks * treeBlock t
      match ← sequenceRecord key with
      | none => pure (statusWord 2 whole)
      | some r =>
        if r.state ≠ 2 then pure (statusWord 10 whole)
        else
          let toks ← readTokens c whole
          let st ← cairnInsert t r toks blocks
          pure (statusWord st whole)
  modify (writeInt a 64 status)

/-- The release of the deepest block of a stored prefix: its status (R305). -/
def cairnRelease (t : Cairn) (toks : List (BitVec 32)) : Act Nat := do
  match t.nodes.find? (·.tokens == toks) with
  | none => pure 8
  | some x =>
    if t.nodes.any fun y => y.tokens.length > toks.length && y.tokens.take toks.length == toks then pure 2
    else
      modify fun s => lowerPages (setTree s { t with nodes := t.nodes.filter (· != x) }) (myDomain s) x.pages
      pure 0

def cairnRelBody (a c d : Reg) : Act Unit := do
  let s ← get
  let n := tokenCount s d
  checked c.val (capCheck (reg s c) (capAddr (reg s c)) (4 * n) permLD)
  let status ← match treeOf s (treeIdent s d) with
    | none => pure 3
    | some t =>
      if n = 0 ∨ n % treeBlock t ≠ 0 then pure 9
      else do
        let toks ← readTokens c n
        cairnRelease t toks
  modify (writeInt a 64 (statusWord status 0))

def execCairnLook (a b c d : Reg) (s : State) : Host.Outcome State Fault Refusal := slow 12 (cairnLookBody a b c d) s
def execCairnIns (a b c d : Reg) (s : State) : Host.Outcome State Fault Refusal := slow 12 (cairnInsBody a b c d) s
def execCairnRel (a c d : Reg) (s : State) : Host.Outcome State Fault Refusal := slow 12 (cairnRelBody a c d) s

/-! ### Admission (R152, R306, R307) -/

/-- Pages that a sequence needs (R152); none where it has matched more than it reserves (DESIGN CHOICE, log 100). -/
def pagesNeeded (nl p lp ln m : Nat) : Nat := nl * (ceilDiv (lp + ln) p - m / p)

/-- The parameters of `adm.rsv` are refused, reserved bits of the low doubleword too, before the pages are counted (DESIGN
CHOICE, log 100). -/
def rsvRefused (r : Rec) (lp ln x : Nat) : Bool :=
  let p := field x 11 8
  lp == 0 || lp + ln > 2 ^ 32 - 1 || field x 63 12 != 0 || p < 3 || p > 9 || ceilDiv (lp + ln) (2 ^ p) > r.mb ||
    (r.state == 1 && (p != r.logp || field x 7 0 + 1 != r.nl))

/-- The reservation of a sequence: its status (R306). -/
def reserve (key : Key) (r : Rec) (lp ln x : Nat) : Act Nat := do
  let s ← get
  let dom := myDomain s
  let m := if r.state = 0 then 0 else r.matched
  let logp := field x 11 8
  let q := pagesNeeded (field x 7 0 + 1) (2 ^ logp) lp ln m
  if r.state = 2 then pure 1
  else if rsvRefused r lp ln x then pure 3
  else if q > unreserved (domainOf s dom) then pure 4
  else
    let r := ((r.set 255 224 q).set 191 160 (lp + ln)).set 159 128 m
    writeRecord (myEngine s) dom key.seq (((r.set 43 40 logp).set 39 32 (field x 7 0)).set 1 0 2)
    pure 0

def admRsvBody (a b c d : Reg) : Act Unit := do
  let key ← sequenceKey b
  let s ← get
  let status ← match ← sequenceRecord key with
    | none => pure 2
    | some r => reserve key r (field (reg64 s c).toNat 31 0) (field (reg64 s c).toNat 63 32) (reg64 s d).toNat
  modify (writeInt a 64 status)

def admEndBody (a b : Reg) : Act Unit := do
  let key ← sequenceKey b
  let s ← get
  let status ← match ← sequenceRecord key with
    | none => pure (statusWord 2 0)
    | some r =>
      if r.state = 0 then pure (statusWord 1 0)
      else do
        let gen ← endSequence (myEngine s) (myDomain s) key.seq r
        pure (statusWord 0 gen)
  modify (writeInt a 64 status)

def execAdmRsv (a b c d : Reg) (s : State) : Host.Outcome State Fault Refusal := slow 12 (admRsvBody a b c d) s
def execAdmEnd (a b : Reg) (s : State) : Host.Outcome State Fault Refusal := slow 12 (admEndBody a b) s

end Sys2Proof.Machine
end

