-- ==== Sys2Proof/Machine/Random.lean ====
section
/-!
DEFINITION. The random generators: the lane generators of a context, their seeds, and reproducible draws (R116 to R118).
-/

namespace Sys2Proof.Machine

def golden : BitVec 64 := 0x9E3779B97F4A7C15

/-- SplitMix64 (R117): the value and the next state. -/
def splitMix (x : BitVec 64) : BitVec 64 × BitVec 64 :=
  let x := x + golden
  let z := (x ^^^ (x >>> 30)) * 0xBF58476D1CE4E5B9
  let z := (z ^^^ (z >>> 27)) * 0x94D049BB133111EB
  (z ^^^ (z >>> 31), x)

/-- The seed word of a generator (R117). -/
def seedWord (birth core slot lane : Nat) : Nat := birth * 2 ^ 21 + core * 2 ^ 10 + slot * 2 ^ 6 + lane

/-- The first state of a generator, w0 lowest (R117). -/
def seedGen (seed : BitVec 64) (birth core slot lane : Nat) : BitVec 128 :=
  let x := seed ^^^ (BitVec.ofNat 64 (seedWord birth core slot lane) * golden)
  let (p0, x) := splitMix x
  let (p1, _) := splitMix x
  let w := p1 ++ p0
  if w = 0 then 1 else w

/-- One advance of xoshiro128++ (R116): the draw and the new state. -/
def advanceGen (w : BitVec 128) : BitVec 32 × BitVec 128 :=
  let w0 := w.extractLsb' 0 32
  let w1 := w.extractLsb' 32 32
  let w2 := w.extractLsb' 64 32
  let w3 := w.extractLsb' 96 32
  let g := (w0 + w3).rotateLeft 7 + w0
  let t := w1 <<< 9
  let w2 := w2 ^^^ w0
  let w3 := w3 ^^^ w1
  let w1 := w1 ^^^ w2
  let w0 := w0 ^^^ w3
  let w2 := w2 ^^^ t
  let w3 := w3.rotateLeft 11
  (g, w3 ++ w2 ++ w1 ++ w0)

/-! ### The lane generators of a context -/

def laneSeed (x : Context) (i : Nat) : BitVec 128 := seedGen x.seed x.birth x.born.core x.born.slot i

def laneGen (x : Context) (i : Nat) : BitVec 128 := lookD x.gens i (laneSeed x i)

/-- The context with the generator of lane `i` in a state. -/
def setLaneGen (x : Context) (i : Nat) (w : BitVec 128) : Context := { x with gens := putD x.gens i w (laneSeed x i) }

/-- What rounds and draws: a computation that may advance lane generators. -/
abbrev Draws (α : Type) := StateM Context α

/-- One draw of the generator of lane `i`. -/
def drawLane (i : Nat) : Draws (BitVec 32) := do
  let (g, w) := advanceGen (laneGen (← get) i)
  modify fun x => setLaneGen x i w
  pure g

/-! ### Philox4x32-10 (R118) -/

/-- The rounds: `n` are left. -/
def philoxRounds : Nat → BitVec 32 → BitVec 32 → BitVec 32 → BitVec 32 → BitVec 32 → BitVec 32 → List (BitVec 32)
  | 0, _, _, w0, w1, w2, w3 => [w0, w1, w2, w3]
  | n + 1, k0, k1, w0, w1, w2, w3 =>
    let p0 := 0xD2511F53 * w0.toNat
    let p1 := 0xCD9E8D57 * w2.toNat
    philoxRounds n (k0 + 0x9E3779B9) (k1 + 0xBB67AE85) (BitVec.ofNat 32 (p1 / 2 ^ 32) ^^^ w1 ^^^ k0)
      (BitVec.ofNat 32 p1) (BitVec.ofNat 32 (p0 / 2 ^ 32) ^^^ w3 ^^^ k1) (BitVec.ofNat 32 p0)

/-- The four words of a draw, by key and counter. -/
def philox (key : BitVec 64) (w0 w1 w2 w3 : Nat) : List (BitVec 32) :=
  philoxRounds 10 (key.truncate 32) ((key >>> 32).truncate 32) (BitVec.ofNat 32 w0) (BitVec.ofNat 32 w1)
    (BitVec.ofNat 32 w2) (BitVec.ofNat 32 w3)

/-- Word `i` of a draw. -/
def philoxWord (key : BitVec 64) (w0 w1 w2 w3 i : Nat) : BitVec 32 := (philox key w0 w1 w2 w3).getD i 0

end Sys2Proof.Machine
end

