-- ==== Sys2Proof/Machine/Numbers.lean ====
section
/-!
DEFINITION. Numbers: the element formats, exact arithmetic on their values, and rounding under the seven modes (R83 to
R98).
-/

namespace Sys2Proof.Machine

/-! ### Values -/

/-- A value: not a number, an infinity, or (−1)^neg × m × 2^e. -/
inductive Number
  | nan
  | inf (neg : Bool)
  | fin (neg : Bool) (m : Nat) (e : Int)
deriving DecidableEq, Repr, Inhabited

def Number.zero : Number := .fin false 0 0
def Number.one : Number := .fin false 1 0

/-- `m` at exponent `e`, as a multiple of 2^k where k ≤ e. -/
def scaleTo (m : Nat) (e k : Int) : Nat := m * 2 ^ (e - k).toNat

/-- The signed multiple. -/
def signedTo (neg : Bool) (m : Nat) (e k : Int) : Int := if neg then -(scaleTo m e k : Int) else scaleTo m e k

/-- An integer times 2^e; an exact zero sum takes the sign `z` (R85). -/
def Number.ofInt (x : Int) (e : Int) (z : Bool) : Number := if x = 0 then .fin z 0 0 else .fin (x < 0) x.natAbs e

def Number.isNan : Number → Bool
  | .nan => true
  | .inf _ => false
  | .fin _ _ _ => false

def Number.isFinite : Number → Bool
  | .fin _ _ _ => true
  | .nan => false
  | .inf _ => false

/-- The value is zero, of either sign. -/
def Number.isZero : Number → Bool
  | .fin _ m _ => m == 0
  | .nan => false
  | .inf _ => false

def Number.negate : Number → Number
  | .nan => .nan
  | .inf s => .inf (!s)
  | .fin s m e => .fin (!s) m e

def Number.abs : Number → Number
  | .nan => .nan
  | .inf _ => .inf false
  | .fin _ m e => .fin false m e

/-- The exact sum; `rdn` gives an exact zero sum its sign (R85). -/
def Number.add (rdn : Bool) : Number → Number → Number
  | .nan, _ => .nan
  | _, .nan => .nan
  | .inf s, .inf t => if s = t then .inf s else .nan
  | .inf s, .fin _ _ _ => .inf s
  | .fin _ _ _, .inf t => .inf t
  | .fin s m e, .fin t n f =>
    if m = 0 ∧ n = 0 then .fin (if s = t then s else rdn) 0 0
    else
      let k := min e f
      .ofInt (signedTo s m e k + signedTo t n f k) k rdn

def Number.sub (rdn : Bool) (x y : Number) : Number := x.add rdn y.negate

/-- The exact product. -/
def Number.mul : Number → Number → Number
  | .nan, _ => .nan
  | _, .nan => .nan
  | .inf s, .inf t => .inf (s != t)
  | .inf s, .fin t n _ => if n = 0 then .nan else .inf (s != t)
  | .fin s m _, .inf t => if m = 0 then .nan else .inf (s != t)
  | .fin s m e, .fin t n f => .fin (s != t) (m * n) (e + f)

/-- A positive quotient `m / n` times 2^e, exact or with 256 bits and a last bit that stands for the rest (log 60). -/
def ratio (neg : Bool) (m n : Nat) (e : Int) : Number :=
  let k := 256 + Nat.log2 n
  let q := m * 2 ^ k / n
  if m * 2 ^ k % n = 0 then .fin neg q (e - k) else .fin neg (2 * q + 1) (e - k - 1)

/-- The quotient (R261). -/
def Number.div : Number → Number → Number
  | .nan, _ => .nan
  | _, .nan => .nan
  | .inf _, .inf _ => .nan
  | .inf s, .fin t _ _ => .inf (s != t)
  | .fin s _ _, .inf t => .fin (s != t) 0 0
  | .fin s m e, .fin t n f =>
    if n = 0 then (if m = 0 then .nan else .inf (s != t))
    else if m = 0 then .fin (s != t) 0 0
    else ratio (s != t) m n (e - f)

/-- The order of two values; nothing with a NaN. −0 and +0 are equal. -/
def Number.compare : Number → Number → Option Ordering
  | .nan, _ => none
  | _, .nan => none
  | .inf s, .inf t => some (if s = t then .eq else if s then .lt else .gt)
  | .inf s, .fin _ _ _ => some (if s then .lt else .gt)
  | .fin _ _ _, .inf t => some (if t then .gt else .lt)
  | .fin s m e, .fin t n f =>
    let k := min e f
    let a := signedTo s m e k
    let b := signedTo t n f k
    some (if a < b then .lt else if a = b then .eq else .gt)

def Number.less (x y : Number) : Bool := x.compare y == some .lt

/-! ### Formats (R83, R84, R89) -/

def Fmt.isInt : Fmt → Bool
  | .s8 | .s16 | .s32 | .n8 | .s4 => true
  | .f32 | .bf16 | .f16 | .e4m3 | .e5m2 | .e2m1 | .lns6 | .mo => false

/-- A floating-point format: exponent bits, fraction bits, and the greatest finite magnitude as an encoding. -/
structure FloatFmt where
  width : Nat
  ebits : Nat
  fbits : Nat
  top : Nat
  hasInf : Bool
  canon : Nat
deriving DecidableEq, Repr

def binary32 : FloatFmt := ⟨32, 8, 23, 0x7F7FFFFF, true, 0x7FC00000⟩
def bfloat16 : FloatFmt := ⟨16, 8, 7, 0x7F7F, true, 0x7FC0⟩
def binary16 : FloatFmt := ⟨16, 5, 10, 0x7BFF, true, 0x7E00⟩
def fp8e4m3 : FloatFmt := ⟨8, 4, 3, 0x7E, false, 0x7F⟩
def fp8e5m2 : FloatFmt := ⟨8, 5, 2, 0x7B, true, 0x7E⟩
def fp4e2m1 : FloatFmt := ⟨4, 2, 1, 7, false, 0⟩

def floatFmt : Fmt → Option FloatFmt
  | .f32 => some binary32
  | .bf16 => some bfloat16
  | .f16 => some binary16
  | .e4m3 => some fp8e4m3
  | .e5m2 => some fp8e5m2
  | .e2m1 => some fp4e2m1
  | .lns6 | .s8 | .s16 | .s32 | .n8 | .s4 | .mo => none

def FloatFmt.bias (f : FloatFmt) : Int := 2 ^ (f.ebits - 1) - 1

/-- The value of a magnitude: exponent field and fraction (R84). -/
def FloatFmt.magnitude (f : FloatFmt) (x : Nat) : Nat × Int :=
  let ex := x / 2 ^ f.fbits
  let fr := x % 2 ^ f.fbits
  if ex = 0 then (fr, 1 - f.bias - f.fbits) else (fr + 2 ^ f.fbits, (ex : Int) - f.bias - f.fbits)

def FloatFmt.value (f : FloatFmt) (x : Nat) : Number :=
  let x := x % 2 ^ f.width
  let neg := x / 2 ^ (f.width - 1) == 1
  let mag := x % 2 ^ (f.width - 1)
  if mag ≤ f.top then
    let (m, e) := f.magnitude mag
    .fin neg m e
  else if f.hasInf && mag == f.top + 1 then .inf neg
  else .nan

/-- The significands of T (R87), in units of 2^−23. -/
def lnsTable : Nat → Nat
  | 0 => 0x800000 | 1 => 0x9837F0 | 2 => 0xB504F3 | _ => 0xD744FD

/-- The magnitude of a code P with P − 16 = 4n + f. -/
def lnsMagnitude (p : Int) : Nat × Int := (lnsTable ((p - 16) % 4).toNat, (p - 16) / 4 - 23)

def lnsValue (x : Nat) : Number :=
  let code := x % 32
  let neg := bit x 5
  if x % 256 ≥ 64 then .nan
  else if code = 0 then (if neg then .nan else .zero)
  else
    let (m, e) := lnsMagnitude code
    .fin neg m e

/-- An element of an integer format. -/
def intValue (f : Fmt) (x : Nat) : Int :=
  match f with
  | .n8 => (x % 256 : Nat)
  | .s4 => signed 4 (x % 16)
  | .s8 => signed 8 (x % 256)
  | .s16 => signed 16 (x % 65536)
  | .s32 | .f32 | .bf16 | .f16 | .e4m3 | .e5m2 | .e2m1 | .lns6 | .mo => signed 32 (x % 2 ^ 32)

/-- Value(x): the exact value of an encoding (R256). NaV is not a number. -/
def valueOf (f : Fmt) (x : Nat) : Number :=
  match floatFmt f with
  | some g => g.value x
  | none => if f = .lns6 then lnsValue x else .ofInt (intValue f x) 0 false

/-- The range of an integer format. -/
def intRange : Fmt → Int × Int
  | .s4 => (-8, 7)
  | .s8 => (-128, 127)
  | .n8 => (0, 255)
  | .s16 => (-32768, 32767)
  | .s32 | .f32 | .bf16 | .f16 | .e4m3 | .e5m2 | .e2m1 | .lns6 | .mo => (-2147483648, 2147483647)

def clampInt (f : Fmt) (x : Int) : Int := max (intRange f).1 (min (intRange f).2 x)

/-! ### Rounding to a neighbour (R92, R93) -/

/-- Of the neighbours at `lo` and `lo + 1` units, the upper is taken; `num / den` is how far the magnitude stands above
the lower. -/
def takesUpper (mode : Rm) (neg odd : Bool) (num den : Nat) (g : BitVec 32) : Bool :=
  if num = 0 then false
  else match mode with
    | .rne => 2 * num > den || (2 * num == den && odd)
    | .rtz => false
    | .rup => !neg
    | .rdn => neg
    | .rna => 2 * num ≥ den
    | .sto => g.toNat < num * 2 ^ 32 / den
    | .odd => !odd

/-- The multiple of 2^q that `m` × 2^e rounds to. -/
def roundUnits (mode : Rm) (neg : Bool) (m : Nat) (e q : Int) (g : BitVec 32) : Nat :=
  let num := m * 2 ^ (e - q).toNat
  let den := 2 ^ (q - e).toNat
  let lo := num / den
  if takesUpper mode neg (lo % 2 == 1) (num % den) den g then lo + 1 else lo

/-- The overflow is to infinity, not to the greatest finite magnitude (R94). -/
def overflowsUp (mode : Rm) (neg : Bool) : Bool :=
  match mode with
  | .rne | .rna | .sto => true
  | .rup => !neg
  | .rdn => neg
  | .rtz | .odd => false

/-- How a result is rounded: the mode, FTZ, and whether a narrowing conversion saturates (R91, R94, R95). -/
structure Rounding where
  mode : Rm
  ftz : Bool := false
  sat : Bool := false
deriving DecidableEq, Repr

def FloatFmt.signBit (f : FloatFmt) (neg : Bool) : Nat := if neg then 2 ^ (f.width - 1) else 0

/-- An infinity, or what the format has in its place (R94, R96). -/
def FloatFmt.infinity (f : FloatFmt) (neg : Bool) : Nat := if f.hasInf then f.signBit neg + (f.top + 1) else f.canon

/-- FTZ acts on FP32, BF16 and FP16 (R95). -/
def FloatFmt.flushes (f : FloatFmt) : Bool := f.width ≥ 16

/-- A finite value rounded to a floating-point format. -/
def FloatFmt.round (f : FloatFmt) (r : Rounding) (neg : Bool) (m : Nat) (e : Int) (g : BitVec 32) : Nat :=
  if m = 0 then f.signBit neg
  else
    let q := max (Nat.log2 m + e) (1 - f.bias) - f.fbits
    let k := roundUnits r.mode neg m e q g
    let mag : Int := ((q + f.fbits + f.bias - 1) * 2 ^ f.fbits) + k
    if mag > f.top then
      if f.width = 4 ∨ r.sat ∨ !overflowsUp r.mode neg then f.signBit neg + f.top else f.infinity neg
    else if r.ftz && f.flushes && k < 2 ^ f.fbits then f.signBit neg
    else f.signBit neg + mag.toNat

/-! ### LNS6 (R98) -/

/-- The greatest code, unbounded, whose magnitude is at most that of `m` × 2^e. -/
def lnsFloor (m : Nat) (e : Int) : Int :=
  let n : Int := Nat.log2 m + e
  let atMost (f : Nat) : Bool :=
    let k := min e (n - 23)
    scaleTo (lnsTable f) (n - 23) k ≤ scaleTo m e k
  16 + 4 * n + (if atMost 3 then 3 else if atMost 2 then 2 else if atMost 1 then 1 else 0)

def lnsRound (r : Rounding) (neg : Bool) (m : Nat) (e : Int) (g : BitVec 32) : Nat :=
  if m = 0 then 0
  else
    let lo := (max 0 (lnsFloor m e)).toNat
    let (a, ea) := if lo = 0 then (0, 0) else lnsMagnitude lo
    let (b, eb) := lnsMagnitude (lo + 1)
    let k := min e (min ea eb)
    let num := scaleTo m e k - scaleTo a ea k
    let den := scaleTo b eb k - scaleTo a ea k
    let code := if takesUpper r.mode neg (lo % 2 == 1) num den g then lo + 1 else lo
    let sign := if neg then 32 else 0
    if code = 0 then 0
    else if code > 31 then (if !r.sat && overflowsUp r.mode neg then 32 else sign + 31)
    else sign + code

/-! ### RoundTo (R92 to R98) -/

/-- A value in a format, as its bits; `g` is the draw of a stochastic rounding. -/
def encodeTo (f : Fmt) (r : Rounding) (g : BitVec 32) (x : Number) : Nat :=
  match floatFmt f with
  | some h =>
    match x with
    | .nan => h.canon
    | .inf s => if r.sat then h.signBit s + h.top else h.infinity s
    | .fin s m e => h.round r s m e g
  | none =>
    if f = .lns6 then
      match x with
      | .nan => 32
      | .inf s => if r.sat then (if s then 63 else 31) else 32
      | .fin s m e => lnsRound r s m e g
    else
      let w := Fmt.width f
      match x with
      | .nan => 0
      | .inf s => wrap w (if s then (intRange f).1 else (intRange f).2)
      | .fin s m e =>
        let k := roundUnits r.mode s m e 0 g
        wrap w (clampInt f (if s then -(k : Int) else k))

/-- The rounding draws: mode 5 takes one draw of the lane's generator (R93); a NaN or an infinity takes one too (log 88). -/
def roundIn (f : Fmt) (r : Rounding) (lane : Nat) (x : Number) : Draws Nat := do
  let g ← if r.mode = .sto then drawLane lane else pure 0
  pure (encodeTo f r g x)

/-- To FP32 under RNE, with FTZ or without. -/
def rne32 (ftz : Bool) (x : Number) : Nat := encodeTo .f32 { mode := .rne, ftz := ftz } 0 x

def f32 (x : Nat) : Number := valueOf .f32 x

/-- One step of moment arithmetic: the value rounded to FP32 under RNE (R106). -/
def stepped (ftz : Bool) (x : Number) : Number := f32 (rne32 ftz x)

/-! ### Conversions (R96, R97) -/

/-- The destination holds every value of the source: the conversion is exact and is not narrowing. -/
def holdsAll : Fmt → Fmt → Bool
  | .f32, d => d == .f32
  | .bf16, d => d == .bf16 || d == .f32
  | .f16, d => d == .f16 || d == .f32
  | .e4m3, d => [Fmt.e4m3, .f32, .bf16, .f16].contains d
  | .e5m2, d => [Fmt.e5m2, .f32, .bf16, .f16].contains d
  | .e2m1, d => [Fmt.e2m1, .f32, .bf16, .f16, .e4m3, .e5m2].contains d
  | .lns6, d => d == .lns6 || d == .f32
  | .s8, d => [Fmt.s8, .s16, .s32, .f32, .bf16, .f16].contains d
  | .n8, d => [Fmt.n8, .s16, .s32, .f32, .bf16, .f16].contains d
  | .s16, d => [Fmt.s16, .s32, .f32].contains d
  | .s32, d => d == .s32
  | .s4, d => [Fmt.s4, .s8, .s16, .s32, .f32, .bf16, .f16, .e4m3, .e5m2].contains d
  | .mo, d => d == .mo

/-- A conversion to E4M3 or E5M2 of a finite non-zero value whose result is zero (R97). -/
def flushedBy (d : Fmt) (x : Number) (bits : Nat) : Bool :=
  (d == .e4m3 || d == .e5m2) && x.isFinite && !x.isZero && bits % 128 == 0

/-- Convert one element of `src` to `d`: an exact conversion ignores the mode and draws nothing (R96), and FTZ acts on its
result (R95). -/
def convertIn (src d : Fmt) (r : Rounding) (lane : Nat) (x : Number) : Draws Nat :=
  if holdsAll src d then pure (encodeTo d { mode := .rne, ftz := r.ftz } 0 x) else roundIn d r lane x

end Sys2Proof.Machine
end

