-- ==== Sys2Proof/Machine/Elementary.lean ====
section
/-!
DEFINITION. The functions whose exact value is rounded once: roots, exponential, logarithm, sigmoid, hyperbolic tangent,
sine, cosine, the normal distribution and its inverse, and uniform draws (R106, R111, R114, R119, R261, R278). An
irrational value stands as a number of 200 bits or more whose last bit stands for the rest, so that one rounding of it
is the rounding of the exact value (log 60).
-/

namespace Sys2Proof.Machine

/-- A value that the true one lies just above in magnitude: a last bit stands for the rest. -/
def sticky : Number → Number
  | .nan => .nan
  | .inf s => .inf s
  | .fin s m e => .fin s (2 * m + 1) (e - 1)

/-- A magnitude that the true one lies just below. -/
def justBelow (neg : Bool) (m : Nat) (e : Int) : Number := .fin neg (m * 2 ^ 300 - 1) (e - 300)

/-- Values beyond every rounding boundary of every format. -/
def hugeNum : Number := .fin false 3 1600
def tinyNum : Number := .fin false 3 (-1600)

/-! ### Fixed-point reals -/

/-- Fraction bits of the fixed-point reals. -/
def prec : Nat := 400

def fixOne : Int := 2 ^ prec

/-- `m` × 2^e as a fixed-point real. -/
def toFix (neg : Bool) (m : Nat) (e : Int) : Int :=
  let k := e + prec
  let v : Int := m * 2 ^ k.toNat / 2 ^ (-k).toNat
  if neg then -v else v

def fixMul (a b : Int) : Int := a * b / 2 ^ prec

/-- A fixed-point real that stands for an irrational value. -/
def ofFix (v : Int) : Number := sticky (.fin (v < 0) v.natAbs (-prec))

/-- Σ of r^n / n! from term `n` on. -/
def expSeries : Nat → Int → Nat → Int → Int → Int
  | 0, _, _, _, acc => acc
  | fuel + 1, r, n, term, acc =>
    let term := fixMul term r / n
    expSeries fuel r (n + 1) term (acc + term)

/-- Σ of z^(2n+1) / (2n+1): the inverse hyperbolic tangent of z. -/
def atanhSeries : Nat → Int → Nat → Int → Int → Int
  | 0, _, _, _, acc => acc
  | fuel + 1, z2, n, power, acc => atanhSeries fuel z2 (n + 2) (fixMul power z2) (acc + power / n)

def atanhFix (z : Int) : Int := atanhSeries 140 (fixMul z z) 1 z 0

def ln2Fix : Int := 2 * atanhFix (fixOne / 3)

/-- e^x as (E, k): the value is E × 2^(k − prec), with E in [1, 2) of a unit. -/
def expFix (x : Int) : Int × Int :=
  let k := x / ln2Fix
  (expSeries 110 (x - k * ln2Fix) 1 fixOne fixOne, k)

/-- e^x as a number, before its rest is marked. -/
def expValue (x : Int) : Number :=
  let (v, k) := expFix x
  .fin false v.toNat (k - prec)

/-! ### Integer square root -/

/-- The greatest number whose square is at most `n`, from bit `i` down. -/
def rootFrom : Nat → Nat → Nat → Nat
  | 0, r, _ => r
  | i + 1, r, n => rootFrom i (if (r + 2 ^ i) * (r + 2 ^ i) ≤ n then r + 2 ^ i else r) n

def isqrt (n : Nat) : Nat := rootFrom (Nat.log2 n / 2 + 1) 0 n

/-! ### π -/

/-- Fraction bits of π and of angles. -/
def anglePrec : Nat := 700

/-- Σ of (−1)^n / ((2n+1) k^(2n+1)), from `power` = 2^anglePrec / k on. -/
def atanSeries : Nat → Nat → Nat → Int → Int → Int
  | 0, _, _, _, acc => acc
  | fuel + 1, k2, n, power, acc => atanSeries fuel k2 (n + 2) (-(power / k2)) (acc + power / n)

def atanInverse (k : Nat) : Int := atanSeries 170 (k * k) 1 (2 ^ anglePrec / k) 0

def piFix : Int := 16 * atanInverse 5 - 4 * atanInverse 239

/-! ### Finite arguments other than zero -/

/-- |m × 2^e| is greater than `limit`. -/
def exceeds (m : Nat) (e : Int) (limit : Nat) : Bool := Number.less (.fin false limit 0) (.fin false m e)

def expOf (neg : Bool) (m : Nat) (e : Int) : Number :=
  if exceeds m e 1000 then (if neg then tinyNum else hugeNum) else sticky (expValue (toFix neg m e))

def expm1Of (neg : Bool) (m : Nat) (e : Int) : Number :=
  if neg && exceeds m e 100 then justBelow true 1 0
  else if exceeds m e 1000 then hugeNum
  else sticky ((expValue (toFix neg m e)).sub false .one)

/-- The natural logarithm of m × 2^e, m > 0. -/
def lnOf (m : Nat) (e : Int) : Number :=
  let n := Nat.log2 m
  let n := if m * m ≥ 2 ^ (2 * n + 1) then n + 1 else n
  let z : Int := ((m : Int) - 2 ^ n) * 2 ^ prec / (m + 2 ^ n)
  let k := e + n
  if m = 2 ^ n ∧ k = 0 then .zero else ofFix (k * ln2Fix + 2 * atanhFix z)

def sigOf (neg : Bool) (m : Nat) (e : Int) : Number :=
  if !neg && exceeds m e 100 then justBelow false 1 0
  else if exceeds m e 1000 then tinyNum
  else Number.one.div (Number.one.add false (expValue (toFix (!neg) m e)))

def tanhOf (neg : Bool) (m : Nat) (e : Int) : Number :=
  if exceeds m e 80 then justBelow neg 1 0
  else if Nat.log2 m + e < -40 then justBelow neg m e
  else
    let t := expValue (2 * toFix false m e)
    let q := (t.sub false .one).div (t.add false .one)
    if neg then q.negate else q

/-- The square root of m × 2^e, m > 0. -/
def sqrtOf (m : Nat) (e : Int) : Number :=
  let (m, e) := if e % 2 = 0 then (m, e) else (2 * m, e - 1)
  let r := isqrt m
  if r * r = m then .fin false r (e / 2) else sticky (.fin false (isqrt (m * 2 ^ 520)) (e / 2 - 260))

def rsqrtOf (m : Nat) (e : Int) : Number :=
  let (m, e) := if e % 2 = 0 then (m, e) else (2 * m, e - 1)
  let r := isqrt m
  if r * r = m ∧ r = 2 ^ Nat.log2 r then .fin false 1 (-(Nat.log2 r) - e / 2)
  else
    let k := 300 + Nat.log2 m
    sticky (.fin false (isqrt (2 ^ (2 * k) / m)) (-k - e / 2))

/-! ### The functions, special values included (R261) -/

/-- A function by its values at a NaN (a NaN), at an infinity, at zero and elsewhere. -/
def byCases (atInf : Bool → Number) (atZero : Bool → Number) (f : Bool → Nat → Int → Number) : Number → Number
  | .nan => .nan
  | .inf s => atInf s
  | .fin s m e => if m = 0 then atZero s else f s m e

def sqrtNum : Number → Number :=
  byCases (fun s => if s then .nan else .inf false) (fun s => .fin s 0 0)
    (fun s m e => if s then .nan else sqrtOf m e)
def rsqrtNum : Number → Number :=
  byCases (fun s => if s then .nan else .zero) (fun s => .inf s) (fun s m e => if s then .nan else rsqrtOf m e)
def expNum : Number → Number := byCases (fun s => if s then .zero else .inf false) (fun _ => .one) expOf
def expm1Num : Number → Number :=
  byCases (fun s => if s then .fin true 1 0 else .inf false) (fun s => .fin s 0 0) expm1Of
def lnNum : Number → Number :=
  byCases (fun s => if s then .nan else .inf false) (fun _ => .inf true) (fun s m e => if s then .nan else lnOf m e)
def sigNum : Number → Number := byCases (fun s => if s then .zero else .one) (fun _ => .fin false 1 (-1)) sigOf
def tanhNum : Number → Number := byCases (fun s => .fin s 1 0) (fun s => .fin s 0 0) tanhOf

/-! ### Sine and cosine (R278) -/

/-- Σ of the alternating series of sine or cosine: terms by r² / (n (n + 1)). -/
def trigSeries : Nat → Int → Nat → Int → Int → Int
  | 0, _, _, _, acc => acc
  | fuel + 1, r2, n, term, acc =>
    trigSeries fuel r2 (n + 2) (-(term * r2 / 2 ^ anglePrec / (n * (n + 1)))) (acc + term)

/-- The quadrant of an angle and the rest, in [−π/4, π/4]. -/
def reduceAngle (x : Int) : Nat × Int :=
  let q := (2 * x + piFix / 2) / piFix
  ((q % 4).toNat, x - q * piFix / 2)

def sinFix (r : Int) : Int := trigSeries 75 (r * r / 2 ^ anglePrec) 2 r 0
def cosFix (r : Int) : Int := trigSeries 75 (r * r / 2 ^ anglePrec) 1 (2 ^ anglePrec) 0

def ofAngle (v : Int) : Number := sticky (.fin (v < 0) v.natAbs (-anglePrec))

/-- (cos x, sin x) of m × 2^e, m > 0. -/
def cosSinOf (neg : Bool) (m : Nat) (e : Int) : Number × Number :=
  if Nat.log2 m + e < -60 then (justBelow false 1 0, justBelow neg m e)
  else
    let k := e + anglePrec
    let x : Int := m * 2 ^ k.toNat / 2 ^ (-k).toNat
    let (q, r) := reduceAngle (if neg then -x else x)
    match q with
    | 0 => (ofAngle (cosFix r), ofAngle (sinFix r))
    | 1 => (ofAngle (-sinFix r), ofAngle (cosFix r))
    | 2 => (ofAngle (-cosFix r), ofAngle (-sinFix r))
    | _ => (ofAngle (sinFix r), ofAngle (-cosFix r))

/-- (cos x, sin x). -/
def cosSin : Number → Number × Number
  | .nan => (.nan, .nan)
  | .inf _ => (.nan, .nan)
  | .fin s m e => if m = 0 then (.one, .fin s 0 0) else cosSinOf s m e

/-! ### The normal distribution (R111, R114) -/

/-- √(2π) as a fixed-point real. -/
def sqrtTwoPi : Int := isqrt ((2 * piFix * 2 ^ (2 * prec) / 2 ^ anglePrec).toNat)

/-- The density at a fixed-point real. -/
def densityFix (a : Int) : Int :=
  let (v, k) := expFix (-(fixMul a a) / 2)
  v * 2 ^ prec / 2 ^ (-k).toNat / sqrtTwoPi

/-- Σ of a^(2n+1) / (2n+1)!!. -/
def normalSeries : Nat → Int → Nat → Int → Int → Int
  | 0, _, _, _, acc => acc
  | fuel + 1, a2, n, term, acc => normalSeries fuel a2 (n + 2) (fixMul term a2 / n) (acc + term)

/-- The distribution function at a fixed-point real in [−8, 8]. -/
def normalFix (a : Int) : Int := fixOne / 2 + fixMul (densityFix a) (normalSeries 290 (fixMul a a) 3 a 0)

/-- α_i = −8 + i/64. -/
def alphaFix (i : Nat) : Int := ((i : Int) - 512) * 2 ^ (prec - 6)

/-- Entry `i` of TΦ and of Tφ (R111). -/
def tableNormal (i : Nat) : Number := f32 (rne32 false (ofFix (normalFix (alphaFix i))))
def tableDensity (i : Nat) : Number := f32 (rne32 false (ofFix (densityFix (alphaFix i))))

/-- The greatest multiple of the last unit whose distribution function is at most `w`, bit by bit. -/
def quantileFrom : Nat → Int → Int → Int
  | 0, z, _ => z
  | i + 1, z, w =>
    let t := z + 2 ^ (prec - 120 + i)
    quantileFrom i (if normalFix t ≤ w then t else z) w

/-- NormInv of m × 2^e in (0, 1). -/
def normInvOf (m : Nat) (e : Int) : Number :=
  let u := toFix false m e
  let low := 2 * u < fixOne
  let z := quantileFrom 123 0 (if low then fixOne - u else u)
  if 2 * u = fixOne then .zero else sticky (.fin low z.toNat (-prec))

/-! ### Uniform draws (R119) -/

/-- U(g), exactly. -/
def uniformNum (g : BitVec 32) : Number := .fin false (2 * (g.toNat / 256) + 1) (-25)

/-- U(g) as FP32: exact where FP32 holds it; elsewhere the spec states no FP32 value, and one of its two neighbours in
(0, 1) stands for it (log 61). -/
def uniformBits (g : BitVec 32) : Nat :=
  let n := g.toNat / 256
  if n < 2 ^ 23 then rne32 false (uniformNum g)
  else rne32 false (.fin false (if Config.uniformUp g && n != 2 ^ 24 - 1 then n + 1 else n) (-24))

/-- NormInv(U(g)). -/
def normalDraw (g : BitVec 32) : Number := normInvOf (2 * (g.toNat / 256) + 1) (-25)

end Sys2Proof.Machine
end

