-- ==== Sys2Proof/Machine/Vector.lean ====
section
/-!
DEFINITION. Element-wise vector arithmetic, bit operations, conversions, block packing, placement, random draws and
rotary position (R255 to R268, R273, R276 to R278). Every instruction here is fixed-latency.
-/

namespace Sys2Proof.Machine

/-! ### Registers, rounding and elements -/

/-- The extended fields that class 0b00 stands for. -/
def shortX (f : Fmt) : VecX := ⟨f, none, .all, .none⟩

/-- The rounding of an arithmetic result (R91, R94, R95). -/
def roundingOf (x : Context) (rnd : Option Rm) : Rounding := { mode := modeOf x rnd, ftz := roundFtz x }

/-- The rounding of a conversion: a narrowing one saturates under SAT. -/
def conversionOf (x : Context) (rnd : Option Rm) (narrow : Bool) : Rounding :=
  { roundingOf x rnd with sat := narrow && roundSat x }

/-- Run a computation that draws from the generators of the issuing context. -/
def runDraws {α : Type} (m : Draws α) : Act α := do
  let s ← get
  let (v, x) := m.run (me s)
  set (onMe s fun _ => x)
  pure v

/-- The lane that holds element `j` of width `w` (R256). -/
def laneOf (w j : Nat) : Nat := j / (32 / w)

/-- Values of elements in ascending order: `f` where the element's lane acts, else the old one. -/
def elemValues (acts : Nat → Bool) (old : Nat → Nat) (f : Nat → Draws Nat) : List Nat → Draws (List Nat)
  | [] => pure []
  | j :: rest => do
    let x ← if acts j then f j else pure (old j)
    let more ← elemValues acts old f rest
    pure (x :: more)

/-- A register whose elements of width `w` that satisfy `acts` take new values. -/
def newElems (w : Nat) (acts : Nat → Bool) (v : VReg) (f : Nat → Draws Nat) : Draws VReg := do
  let xs ← elemValues acts (elem v w) f (upFrom 0 (2048 / w))
  pure (BitVec.ofNat 2048 (packElems w xs))

/-- Register `a` takes new elements in its acting lanes. -/
def elementwise (w a : Nat) (mask : BitVec 64) (f : Nat → Draws Nat) : Act Unit := do
  let s ← get
  let v ← runDraws (newElems w (fun j => laneActs mask (laneOf w j)) (vreg (me s) a) f)
  modify (putV a v)

def regA (a : Reg) (x : Index) : Act Nat := do inWindowV (fieldA (← get) x a)
def regB (b : Reg) (x : Index) : Act Nat := do inWindowV (fieldB (← get) x b)
def regC (c : Reg) (x : Index) : Act Nat := do inWindowV (fieldC (← get) x c)

/-- What one element becomes: by format, rounding, lane, and the elements of B, C and A. -/
abbrev ElemOp := Fmt → Rounding → Nat → Nat → Nat → Nat → Draws Nat

/-- An instruction on B and C. Of several registers outside the window the fault names the first of A (for `vaddc` then A + 1), B,
C and D (DESIGN CHOICE, log 98). -/
def binaryBody (a b c : Reg) (x : VecX) (op : ElemOp) : Act Unit := do
  let a ← regA a x.index
  let b ← regB b x.index
  let c ← regC c x.index
  let s ← get
  let k := me s
  let w := x.fmt.width
  elementwise w a (acting s x.mask) fun j =>
    op x.fmt (roundingOf k x.rnd) (laneOf w j) (elem (vreg k b) w j) (elem (vreg k c) w j) (elem (vreg k a) w j)

/-- An instruction on B alone. -/
def unaryBody (a b : Reg) (x : VecX) (op : ElemOp) : Act Unit := do
  let a ← regA a x.index
  let b ← regB b x.index
  let s ← get
  let k := me s
  let w := x.fmt.width
  elementwise w a (acting s x.mask) fun j =>
    op x.fmt (roundingOf k x.rnd) (laneOf w j) (elem (vreg k b) w j) 0 (elem (vreg k a) w j)

/-! ### Element-wise arithmetic (R261, R262) -/

/-- An exact result of the values, rounded once; the flag is RDN's, for an exact zero sum. -/
def floatOp (g : Bool → Number → Number → Number → Number) : ElemOp := fun f r lane x y z =>
  roundIn f r lane (g (r.mode == .rdn) (valueOf f x) (valueOf f y) (valueOf f z))

/-- r mod 2^w, or r clamped to the format's range. -/
def intResult (f : Fmt) (sat : Bool) (r : Int) : Nat := wrap f.width (if sat then clampInt f r else r)

def intOp (sat : Bool) (g : Int → Int → Int) : ElemOp := fun f _ _ x y _ =>
  pure (intResult f sat (g (intValue f x) (intValue f y)))

/-- By the kind of the format. -/
def eitherOp (i f : ElemOp) : ElemOp := fun fmt => if fmt.isInt then i fmt else f fmt

/-- A result that is exact on encodings. -/
def exactOp (g : Fmt → Nat → Nat → Nat) : ElemOp := fun f _ _ x y _ => pure (g f x y)

/-- Canonical NaN of a floating-point format. -/
def canonNan (f : Fmt) : Nat := encodeTo f { mode := .rne } 0 .nan

/-- Sign of an encoding of width `w`. -/
def signOf (w x : Nat) : Bool := bit x (w - 1)

def floatAbs (f : Fmt) (x : Nat) : Nat := if (valueOf f x).isNan then canonNan f else x % 2 ^ (f.width - 1)

def floatNeg (f : Fmt) (x : Nat) : Nat :=
  if (valueOf f x).isNan then canonNan f else (x + 2 ^ (f.width - 1)) % 2 ^ f.width

/-- −0 below +0 (R261). -/
def floatLess (f : Fmt) (x y : Nat) : Bool :=
  match (valueOf f x).compare (valueOf f y) with
  | some .lt => true
  | some .eq => signOf f.width x && !signOf f.width y
  | some .gt => false
  | none => false

def eitherNan (f : Fmt) (x y : Nat) : Bool := (valueOf f x).isNan || (valueOf f y).isNan

def floatMin (f : Fmt) (x y : Nat) : Nat := if eitherNan f x y then canonNan f else if floatLess f y x then y else x
def floatMax (f : Fmt) (x y : Nat) : Nat := if eitherNan f x y then canonNan f else if floatLess f x y then y else x

def opAdd (sat : Bool) : ElemOp := eitherOp (intOp sat (· + ·)) (floatOp fun rdn x y _ => x.add rdn y)
def opSub (sat : Bool) : ElemOp := eitherOp (intOp sat (· - ·)) (floatOp fun rdn x y _ => x.sub rdn y)
def opMul (sat : Bool) : ElemOp := eitherOp (intOp sat (· * ·)) (floatOp fun _ x y _ => x.mul y)
def opFma : ElemOp := floatOp fun rdn x y z => z.add rdn (x.mul y)
def opMin : ElemOp := eitherOp (intOp false min) (exactOp floatMin)
def opMax : ElemOp := eitherOp (intOp false max) (exactOp floatMax)
def opAbs (sat : Bool) : ElemOp := eitherOp (intOp sat fun x _ => (x.natAbs : Int)) (exactOp fun f x _ => floatAbs f x)
def opNeg (sat : Bool) : ElemOp := eitherOp (intOp sat fun x _ => -x) (exactOp fun f x _ => floatNeg f x)
def opDiv : ElemOp := floatOp fun _ x y _ => x.div y
def opSqrt : ElemOp := floatOp fun _ x _ _ => sqrtNum x
def opRsqrt : ElemOp := floatOp fun _ x _ _ => rsqrtNum x
def opExp : ElemOp := floatOp fun _ x _ _ => expNum x
def opLog : ElemOp := floatOp fun _ x _ _ => lnNum x
def opSig : ElemOp := floatOp fun _ x _ _ => sigNum x
def opTanh : ElemOp := floatOp fun _ x _ _ => tanhNum x

def execVadd (a b c : Reg) (fmt : Fmt) (s : State) : Host.Outcome State Fault Refusal :=
  quick 4 (binaryBody a b c (shortX fmt) (opAdd false)) s
def execVaddExt (a b c : Reg) (sat : Bool) (x : VecX) (s : State) : Host.Outcome State Fault Refusal :=
  quick 12 (binaryBody a b c x (opAdd sat)) s
def execVsub (a b c : Reg) (fmt : Fmt) (s : State) : Host.Outcome State Fault Refusal :=
  quick 4 (binaryBody a b c (shortX fmt) (opSub false)) s
def execVsubExt (a b c : Reg) (sat : Bool) (x : VecX) (s : State) : Host.Outcome State Fault Refusal :=
  quick 12 (binaryBody a b c x (opSub sat)) s
def execVmul (a b c : Reg) (fmt : Fmt) (s : State) : Host.Outcome State Fault Refusal :=
  quick 4 (binaryBody a b c (shortX fmt) (opMul false)) s
def execVmulExt (a b c : Reg) (sat : Bool) (x : VecX) (s : State) : Host.Outcome State Fault Refusal :=
  quick 12 (binaryBody a b c x (opMul sat)) s
def execVfma (a b c : Reg) (fmt : Fmt) (s : State) : Host.Outcome State Fault Refusal :=
  quick 4 (binaryBody a b c (shortX fmt) opFma) s
def execVfmaExt (a b c : Reg) (x : VecX) (s : State) : Host.Outcome State Fault Refusal :=
  quick 12 (binaryBody a b c x opFma) s
def execVmin (a b c : Reg) (fmt : Fmt) (s : State) : Host.Outcome State Fault Refusal :=
  quick 4 (binaryBody a b c (shortX fmt) opMin) s
def execVminExt (a b c : Reg) (x : VecX) (s : State) : Host.Outcome State Fault Refusal :=
  quick 12 (binaryBody a b c x opMin) s
def execVmax (a b c : Reg) (fmt : Fmt) (s : State) : Host.Outcome State Fault Refusal :=
  quick 4 (binaryBody a b c (shortX fmt) opMax) s
def execVmaxExt (a b c : Reg) (x : VecX) (s : State) : Host.Outcome State Fault Refusal :=
  quick 12 (binaryBody a b c x opMax) s
def execVabs (a b : Reg) (fmt : Fmt) (s : State) : Host.Outcome State Fault Refusal :=
  quick 4 (unaryBody a b (shortX fmt) (opAbs false)) s
def execVabsExt (a b : Reg) (sat : Bool) (x : VecX) (s : State) : Host.Outcome State Fault Refusal :=
  quick 12 (unaryBody a b x (opAbs sat)) s
def execVneg (a b : Reg) (fmt : Fmt) (s : State) : Host.Outcome State Fault Refusal :=
  quick 4 (unaryBody a b (shortX fmt) (opNeg false)) s
def execVnegExt (a b : Reg) (sat : Bool) (x : VecX) (s : State) : Host.Outcome State Fault Refusal :=
  quick 12 (unaryBody a b x (opNeg sat)) s
def execVdiv (a b c : Reg) (fmt : Fmt) (s : State) : Host.Outcome State Fault Refusal :=
  quick 4 (binaryBody a b c (shortX fmt) opDiv) s
def execVdivExt (a b c : Reg) (x : VecX) (s : State) : Host.Outcome State Fault Refusal :=
  quick 12 (binaryBody a b c x opDiv) s
def execVsqrt (a b : Reg) (fmt : Fmt) (s : State) : Host.Outcome State Fault Refusal :=
  quick 4 (unaryBody a b (shortX fmt) opSqrt) s
def execVsqrtExt (a b : Reg) (x : VecX) (s : State) : Host.Outcome State Fault Refusal :=
  quick 12 (unaryBody a b x opSqrt) s
def execVrsqrt (a b : Reg) (fmt : Fmt) (s : State) : Host.Outcome State Fault Refusal :=
  quick 4 (unaryBody a b (shortX fmt) opRsqrt) s
def execVrsqrtExt (a b : Reg) (x : VecX) (s : State) : Host.Outcome State Fault Refusal :=
  quick 12 (unaryBody a b x opRsqrt) s
def execVexp (a b : Reg) (fmt : Fmt) (s : State) : Host.Outcome State Fault Refusal :=
  quick 4 (unaryBody a b (shortX fmt) opExp) s
def execVexpExt (a b : Reg) (x : VecX) (s : State) : Host.Outcome State Fault Refusal :=
  quick 12 (unaryBody a b x opExp) s
def execVlog (a b : Reg) (fmt : Fmt) (s : State) : Host.Outcome State Fault Refusal :=
  quick 4 (unaryBody a b (shortX fmt) opLog) s
def execVlogExt (a b : Reg) (x : VecX) (s : State) : Host.Outcome State Fault Refusal :=
  quick 12 (unaryBody a b x opLog) s
def execVsig (a b : Reg) (fmt : Fmt) (s : State) : Host.Outcome State Fault Refusal :=
  quick 4 (unaryBody a b (shortX fmt) opSig) s
def execVsigExt (a b : Reg) (x : VecX) (s : State) : Host.Outcome State Fault Refusal :=
  quick 12 (unaryBody a b x opSig) s
def execVtanh (a b : Reg) (fmt : Fmt) (s : State) : Host.Outcome State Fault Refusal :=
  quick 4 (unaryBody a b (shortX fmt) opTanh) s
def execVtanhExt (a b : Reg) (x : VecX) (s : State) : Host.Outcome State Fault Refusal :=
  quick 12 (unaryBody a b x opTanh) s

/-! ### Compensated addition (R263) -/

/-- (t, c): the new sum and the new compensation of a lane, under RNE without FTZ. -/
def compensated (s c x : Nat) : Nat × Nat :=
  let sum := (f32 s).add false (f32 x)
  let t := rne32 false sum
  let err := if (f32 t).isFinite then sum.sub false (f32 t) else .zero
  (t, rne32 false ((f32 c).add false err))

def vaddcBody (a b : Reg) (x : VecX) : Act Unit := do
  let a ← regA a x.index
  let n ← inWindowV (a + 1)
  let b ← regB b x.index
  let s ← get
  let k := me s
  let at' (j : Nat) : Nat × Nat := compensated (elem (vreg k a) 32 j) (elem (vreg k n) 32 j) (elem (vreg k b) 32 j)
  elementwise 32 a (acting s x.mask) fun j => pure (at' j).1
  elementwise 32 n (acting s x.mask) fun j => pure (at' j).2

def execVaddc (a b : Reg) (s : State) : Host.Outcome State Fault Refusal := quick 4 (vaddcBody a b (shortX .f32)) s
def execVaddcExt (a b : Reg) (x : VecX) (s : State) : Host.Outcome State Fault Refusal := quick 12 (vaddcBody a b x) s

/-! ### Bits, shifts, selection and moves (R264) -/

/-- All 32 bits of each lane, whatever the format. -/
def wholeLanes (x : VecX) : VecX := { x with fmt := .s32 }

def opAnd : ElemOp := exactOp fun _ x y => x.land y
def opOr : ElemOp := exactOp fun _ x y => x.lor y
def opXor : ElemOp := exactOp fun _ x y => x.xor y
def opMove : ElemOp := exactOp fun _ x _ => x
/-- The low log2(w) bits of the shift count. -/
def shiftCount (f : Fmt) (y : Nat) : Nat := y % f.width
def opShl : ElemOp := exactOp fun f x y => x * 2 ^ shiftCount f y
def opShr : ElemOp := exactOp fun f x y => x / 2 ^ shiftCount f y
def opSra : ElemOp := exactOp fun f x y => wrap f.width (signed f.width x / (2 ^ shiftCount f y : Nat))

def execVand (a b c : Reg) (fmt : Fmt) (s : State) : Host.Outcome State Fault Refusal :=
  quick 4 (binaryBody a b c (wholeLanes (shortX fmt)) opAnd) s
def execVandExt (a b c : Reg) (x : VecX) (s : State) : Host.Outcome State Fault Refusal :=
  quick 12 (binaryBody a b c (wholeLanes x) opAnd) s
def execVor (a b c : Reg) (fmt : Fmt) (s : State) : Host.Outcome State Fault Refusal :=
  quick 4 (binaryBody a b c (wholeLanes (shortX fmt)) opOr) s
def execVorExt (a b c : Reg) (x : VecX) (s : State) : Host.Outcome State Fault Refusal :=
  quick 12 (binaryBody a b c (wholeLanes x) opOr) s
def execVxor (a b c : Reg) (fmt : Fmt) (s : State) : Host.Outcome State Fault Refusal :=
  quick 4 (binaryBody a b c (wholeLanes (shortX fmt)) opXor) s
def execVxorExt (a b c : Reg) (x : VecX) (s : State) : Host.Outcome State Fault Refusal :=
  quick 12 (binaryBody a b c (wholeLanes x) opXor) s
def execVshl (a b c : Reg) (fmt : Fmt) (s : State) : Host.Outcome State Fault Refusal :=
  quick 4 (binaryBody a b c (shortX fmt) opShl) s
def execVshlExt (a b c : Reg) (x : VecX) (s : State) : Host.Outcome State Fault Refusal :=
  quick 12 (binaryBody a b c x opShl) s
def execVshr (a b c : Reg) (fmt : Fmt) (s : State) : Host.Outcome State Fault Refusal :=
  quick 4 (binaryBody a b c (shortX fmt) opShr) s
def execVshrExt (a b c : Reg) (x : VecX) (s : State) : Host.Outcome State Fault Refusal :=
  quick 12 (binaryBody a b c x opShr) s
def execVsra (a b c : Reg) (fmt : Fmt) (s : State) : Host.Outcome State Fault Refusal :=
  quick 4 (binaryBody a b c (shortX fmt) opSra) s
def execVsraExt (a b c : Reg) (x : VecX) (s : State) : Host.Outcome State Fault Refusal :=
  quick 12 (binaryBody a b c x opSra) s
def execVmov (a b : Reg) (fmt : Fmt) (s : State) : Host.Outcome State Fault Refusal :=
  quick 4 (unaryBody a b (wholeLanes (shortX fmt)) opMove) s
def execVmovExt (a b : Reg) (x : VecX) (s : State) : Host.Outcome State Fault Refusal :=
  quick 12 (unaryBody a b (wholeLanes x) opMove) s

/-- Every lane is written: from B where the selector acts, else from C. -/
def vselBody (a b c : Reg) (x : VecX) : Act Unit := do
  let a ← regA a x.index
  let b ← regB b x.index
  let c ← regC c x.index
  let s ← get
  let k := me s
  elementwise 32 a (BitVec.allOnes 64) fun j =>
    pure (elem (vreg k (if laneActs (acting s x.mask) j then b else c)) 32 j)

def execVsel (a b c : Reg) (fmt : Fmt) (s : State) : Host.Outcome State Fault Refusal :=
  quick 4 (vselBody a b c (shortX fmt)) s
def execVselExt (a b c : Reg) (x : VecX) (s : State) : Host.Outcome State Fault Refusal := quick 12 (vselBody a b c x) s

/-! ### Packed dot product (R105, R265) -/

/-- An exact block sum: an exact zero is +0 (R103). -/
def sumProducts : List (Number × Number) → Number
  | [] => .zero
  | (x, y) :: rest => (x.mul y).add false (sumProducts rest)

def plusZero (x : Number) : Number := if x.isZero then .zero else x

/-- The elements of lane `i`. -/
def laneElems (w i : Nat) : List Nat := upFrom (i * (32 / w)) (32 / w)

def dotLane (f : Fmt) (r : Rounding) (u v : VReg) (i acc : Nat) : Draws Nat :=
  let w := f.width
  if f.isInt then
    let sum := ((laneElems w i).map fun j => intValue f (elem u w j) * intValue f (elem v w j)).sum
    pure (wrap 32 (clampInt .s32 (intValue .s32 acc + sum)))
  else
    let sum := plusZero (sumProducts ((laneElems w i).map fun j => (valueOf f (elem u w j), valueOf f (elem v w j))))
    roundIn .f32 r i ((f32 acc).add (r.mode == .rdn) sum)

def vdotBody (a b c : Reg) (x : VecX) : Act Unit := do
  let a ← regA a x.index
  let b ← regB b x.index
  let c ← regC c x.index
  let s ← get
  let k := me s
  elementwise 32 a (acting s x.mask) fun i =>
    dotLane x.fmt (roundingOf k x.rnd) (vreg k b) (vreg k c) i (elem (vreg k a) 32 i)

def execVdot (a b c : Reg) (fmt : Fmt) (s : State) : Host.Outcome State Fault Refusal :=
  quick 4 (vdotBody a b c (shortX fmt)) s
def execVdotExt (a b c : Reg) (x : VecX) (s : State) : Host.Outcome State Fault Refusal := quick 12 (vdotBody a b c x) s

/-! ### Conversion (R97, R266) -/

/-- The source element of destination element `j`; none where it is not converted. -/
def convertedFrom (ws wd part j : Nat) : Option Nat :=
  if ws ≤ wd then some (part * (2048 / wd) + j)
  else
    let n := 2048 / ws
    if part * n ≤ j ∧ j < part * n + n then some (j - part * n) else none

/-- Acting lanes of `v` in which some converted element was flushed (R97). -/
def flushedLanes (d : Fmt) (mask : BitVec 64) (src : Nat → Option Number) (v : VReg) : Nat :=
  let w := d.width
  (lanes.filter fun i => laneActs mask i && (laneElems w i).any fun j => match src j with
    | some x => flushedBy d x (elem v w j)
    | none => false).length

def vcvtBody (a b : Reg) (part : Nat) (src : Fmt) (x : VecX) : Act Unit := do
  let a ← regA a x.index
  let b ← regB b x.index
  let s ← get
  let k := me s
  let d := x.fmt
  let from' (j : Nat) : Option Number :=
    (convertedFrom src.width d.width part j).map fun i => valueOf src (elem (vreg k b) src.width i)
  let r := conversionOf k x.rnd (!holdsAll src d)
  elementwise d.width a (acting s x.mask) fun j => match from' j with
    | some v => convertIn src d r (laneOf d.width j) v
    | none => pure (elem (vreg k a) d.width j)
  modify fun t => addFlushes (flushedLanes d (acting s x.mask) from' (vreg (me t) a)) t

def execVcvt (a b : Reg) (part : Fin 16) (src : Fmt) (x : VecX) (s : State) : Host.Outcome State Fault Refusal :=
  quick 12 (vcvtBody a b part.val src x) s

/-! ### Block scales (R99 to R102, R267, R268) -/

/-- The value of an E8M0 byte. -/
def e8m0 (e : Nat) : Number := if e % 256 = 255 then .nan else .fin false 1 ((e % 256 : Nat) - 127)

/-- The greatest magnitude of a list of finite values. -/
def greatest (xs : List Number) : Number := xs.foldl (fun m x => if m.less x.abs then x.abs else m) .zero

/-- floor(log2) of a positive finite value. -/
def floorLog2 : Number → Int
  | .fin _ m e => Nat.log2 m + e
  | .nan => 0
  | .inf _ => 0

/-- emax of an OCP element format. -/
def mxEmax : Fmt → Int
  | .e4m3 => 8
  | .e5m2 => 15
  | .f32 | .bf16 | .f16 | .e2m1 | .lns6 | .s8 | .s16 | .s32 | .n8 | .s4 | .mo => 2

/-- The scale byte of a block (R100). -/
def mxScale (f : Fmt) (xs : List Number) : Nat :=
  if xs.any (!·.isFinite) then 255
  else
    let m := greatest xs
    if m.isZero then 0 else (max 0 (min 254 (floorLog2 m - mxEmax f + 127))).toNat

/-- What every element of a block with a NaN or an infinity is written as. -/
def mxNan : Fmt → Nat
  | .e4m3 => 0x7F
  | .e5m2 => 0x7E
  | .f32 | .bf16 | .f16 | .e2m1 | .lns6 | .s8 | .s16 | .s32 | .n8 | .s4 | .mo => 7

/-- Q of an SC format (R102). -/
def scLimit : Fmt → Number
  | .e4m3 => .fin false 448 0
  | .lns6 => .fin false (lnsTable 3) (-20)
  | .f32 | .bf16 | .f16 | .e5m2 | .e2m1 | .s8 | .s16 | .s32 | .n8 | .s4 | .mo => .fin false 6 0

/-- The FP32 scale of an SC block of finite values: 1.0 where the quotient is zero or subnormal. -/
def scScale (f : Fmt) (xs : List Number) : Nat :=
  let q := rne32 false ((greatest xs).div (scLimit f))
  if q < 0x800000 then 0x3F800000 else q

/-- A scale that raises the scale trap (R101): negative, ±0, infinite or NaN. -/
def badScale (x : Nat) : Bool := x = 0 || x ≥ 0x7F800000

/-- `%trapinfo` of the scale trap (R101). -/
def scaleInfo (where' desc index : Nat) : Nat := where' + desc * 256 + index * 65536

/-- The scale of each block and one element of it: (scale encoding, its value). -/
def blockScale (kind : PackKind) (f : Fmt) (xs : List Number) : Nat × Number :=
  match kind with
  | .mx => (mxScale f xs, e8m0 (mxScale f xs))
  | .sc => (scScale f xs, f32 (scScale f xs))

/-- One element of a block: divided by the scale and rounded, always saturating (R100, R102). -/
def quantised (kind : PackKind) (f : Fmt) (r : Rounding) (scale : Nat × Number) (lane : Nat) (x : Number) : Draws Nat :=
  if kind = .mx ∧ scale.1 = 255 then pure (mxNan f) else roundIn f { r with sat := true } lane (x.div scale.2)

/-- The FP32 elements of block `b` of a register. -/
def blockValues (v : VReg) (b : Nat) : List Number := (upFrom (32 * b) 32).map fun j => f32 (elem v 32 j)

/-- A register with element `j` of width `w` replaced. -/
def setElem (v : VReg) (w j x : Nat) : VReg :=
  BitVec.ofNat 2048 (setField v.toNat (w * j + w - 1) (w * j) x)

/-- Write the scales of both blocks to `vD`. -/
def putScales (d : Nat) (w first : Nat) (s0 s1 : Nat) (s : State) : State :=
  putV d (setElem (setElem (vreg (me s) d) w first s0) w (first + 1) s1) s

def vpackBody (a d b : Reg) (kind : PackKind) (part : Nat) (x : VecX) : Act Unit := do
  let a ← regA a x.index
  let b ← regB b x.index
  checkV d.val
  let s ← get
  let k := me s
  let f := x.fmt
  let blocks := [blockValues (vreg k b) 0, blockValues (vreg k b) 1]
  match if kind = .sc then firstAt (fun xs : List Number => xs.any (!·.isFinite)) blocks else none with
  | some i => raise causeScale (scaleInfo 1 0 (2 * part + i))
  | none => pure ()
  let s0 := blockScale kind f (blocks.getD 0 [])
  let s1 := blockScale kind f (blocks.getD 1 [])
  let scale (j : Nat) : Nat × Number := if j < 32 then s0 else s1
  let source (j : Nat) : Option Number :=
    if 64 * part ≤ j ∧ j < 64 * part + 64 then some (f32 (elem (vreg k b) 32 (j - 64 * part))) else none
  elementwise f.width a (BitVec.allOnes 64) fun j => match source j with
    | some v => quantised kind f (roundingOf k x.rnd) (scale (j - 64 * part)) (laneOf f.width j) v
    | none => pure (elem (vreg k a) f.width j)
  modify fun t => addFlushes (flushedLanes f (BitVec.allOnes 64) source (vreg (me t) a)) t
  modify (putScales d.val (if kind = .mx then 8 else 32) (2 * part) s0.1 s1.1)

def execVpack (a d b : Reg) (kind : PackKind) (part : Fin 16) (x : VecX) (s : State) :
    Host.Outcome State Fault Refusal := quick 12 (vpackBody a d b kind part.val x) s

/-- Scale `i` of a register, as its encoding and its value. -/
def registerScale (kind : PackKind) (v : VReg) (i : Nat) : Nat × Number :=
  match kind with
  | .mx => (elem v 8 i, e8m0 (elem v 8 i))
  | .sc => (elem v 32 i, f32 (elem v 32 i))

/-- Some lane of block `b` acts. -/
def blockActs (mask : BitVec 64) (b : Nat) : Bool := (upFrom (32 * b) 32).any (laneActs mask)

def vunpkBody (a d b : Reg) (kind : PackKind) (part : Nat) (x : VecX) : Act Unit := do
  let a ← regA a x.index
  let b ← regB b x.index
  checkV d.val
  let s ← get
  let k := me s
  let f := x.fmt
  let scale (i : Nat) : Nat × Number := registerScale kind (vreg k d.val) (2 * part + i)
  let bad (i : Nat) : Bool := kind == .sc && blockActs (acting s x.mask) i && badScale (scale i).1
  match [0, 1].find? bad with
  | some i => raise causeScale (scaleInfo 1 0 (2 * part + i))
  | none => pure ()
  elementwise 32 a (acting s x.mask) fun j =>
    roundIn .f32 (roundingOf k x.rnd) j
      ((valueOf f (elem (vreg k b) f.width (64 * part + j))).mul (scale (j / 32)).2)

def execVunpk (a d b : Reg) (kind : PackKind) (part : Fin 16) (x : VecX) (s : State) :
    Host.Outcome State Fault Refusal := quick 12 (vunpkBody a d b kind part.val x) s

/-! ### Placement (R273) -/

/-- k: the index of an element. -/
def elemIndex (s : State) (c : Reg) (imm : BitVec 24) (w : Nat) : Nat :=
  wrap 64 ((reg64 s c).toNat + imm24 imm) % (2048 / w)

def vbcastBody (a b c : Reg) (imm : BitVec 24) (x : VecX) : Act Unit := do
  let a ← regA a x.index
  let b ← regB b x.index
  let s ← get
  let w := x.fmt.width
  elementwise w a (acting s x.mask) fun _ => pure (elem (vreg (me s) b) w (elemIndex s c imm w))

def vpermBody (a b c : Reg) (x : VecX) : Act Unit := do
  let a ← regA a x.index
  let b ← regB b x.index
  let c ← regC c x.index
  let s ← get
  let w := x.fmt.width
  elementwise w a (acting s x.mask) fun j =>
    pure (elem (vreg (me s) b) w (elem (vreg (me s) c) w j % (2048 / w)))

/-- Every element in an acting lane takes the low bits of a value. -/
def splatBody (a : Reg) (v : BitVec 64) (x : VecX) : Act Unit := do
  let a ← regA a x.index
  let s ← get
  elementwise x.fmt.width a (acting s x.mask) fun _ => pure v.toNat

def vinsBody (a b c : Reg) (imm : BitVec 24) (x : VecX) : Act Unit := do
  let a ← regA a x.index
  let s ← get
  let w := x.fmt.width
  let k := elemIndex s c imm w
  if laneActs (acting s x.mask) (laneOf w k) then
    modify (putV a (setElem (vreg (me s) a) w k (reg s b).bits.toNat))

/-- What `vext` writes: extended by the sign for the signed formats. -/
def extended (f : Fmt) (x : Nat) : Nat :=
  match f with
  | .s8 | .s16 | .s32 | .s4 => wrap 64 (intValue f x)
  | .n8 | .f32 | .bf16 | .f16 | .e4m3 | .e5m2 | .e2m1 | .lns6 | .mo => x

def vextBody (a b c : Reg) (imm : BitVec 24) (x : VecX) : Act Unit := do
  let b ← regB b x.index
  let s ← get
  let w := x.fmt.width
  modify (writeInt a 64 (extended x.fmt (elem (vreg (me s) b) w (elemIndex s c imm w))))

def vidxBody (a b : Reg) (imm : BitVec 24) (x : VecX) : Act Unit := do
  let a ← regA a x.index
  let s ← get
  elementwise x.fmt.width a (acting s x.mask) fun j => pure (wrap 64 ((reg64 s b).toNat + imm24 imm + j))

def execVbcast (a b c : Reg) (fmt : Fmt) (s : State) : Host.Outcome State Fault Refusal :=
  quick 4 (vbcastBody a b c 0 (shortX fmt)) s
def execVbcastExt (a b c : Reg) (imm : BitVec 24) (x : VecX) (s : State) : Host.Outcome State Fault Refusal :=
  quick 12 (vbcastBody a b c imm x) s
def execVperm (a b c : Reg) (fmt : Fmt) (s : State) : Host.Outcome State Fault Refusal :=
  quick 4 (vpermBody a b c (shortX fmt)) s
def execVpermExt (a b c : Reg) (x : VecX) (s : State) : Host.Outcome State Fault Refusal :=
  quick 12 (vpermBody a b c x) s
def execVidx (a b : Reg) (fmt : Fmt) (s : State) : Host.Outcome State Fault Refusal :=
  quick 4 (vidxBody a b 0 (shortX fmt)) s
def execVidxExt (a b : Reg) (imm : BitVec 24) (x : VecX) (s : State) : Host.Outcome State Fault Refusal :=
  quick 12 (vidxBody a b imm x) s
def execVsplat (a c : Reg) (fmt : Fmt) (s : State) : Host.Outcome State Fault Refusal :=
  quick 4 (splatBody a (opReg s c 0) (shortX fmt)) s

/-- Bytes and parts of the other forms of `vsplat`. -/
def splatLength : SplatX → Nat
  | .ext _ _ _ => 12
  | .lit _ _ => 12
  | .long _ _ => 20

def splatValue (s : State) : SplatX → BitVec 64
  | .ext c imm _ => opReg s c imm
  | .lit v _ => v
  | .long v _ => v

def splatFields : SplatX → VecX
  | .ext _ _ x => x
  | .lit _ f => shortX f
  | .long _ x => x

def execVsplatWide (a : Reg) (w : SplatX) (s : State) : Host.Outcome State Fault Refusal :=
  quick (splatLength w) (splatBody a (splatValue s w) (splatFields w)) s
def execVins (a b c : Reg) (fmt : Fmt) (s : State) : Host.Outcome State Fault Refusal :=
  quick 4 (vinsBody a b c 0 (shortX fmt)) s
def execVinsExt (a b c : Reg) (imm : BitVec 24) (x : VecX) (s : State) : Host.Outcome State Fault Refusal :=
  quick 12 (vinsBody a b c imm x) s
def execVext (a b c : Reg) (fmt : Fmt) (s : State) : Host.Outcome State Fault Refusal :=
  quick 4 (vextBody a b c 0 (shortX fmt)) s
def execVextExt (a b c : Reg) (imm : BitVec 24) (x : VecX) (s : State) : Host.Outcome State Fault Refusal :=
  quick 12 (vextBody a b c imm x) s

/-! ### Random draws and drop-out (R276, R277) -/

/-- A draw as it is written: the raw word, or its uniform value. -/
def drawBits (f : Fmt) (g : BitVec 32) : Nat := if f = .s32 then g.toNat else uniformBits g

def vrandBody (a : Reg) (x : VecX) : Act Unit := do
  let a ← regA a x.index
  let s ← get
  elementwise 32 a (acting s x.mask) fun i => do
    let g ← drawLane i
    pure (drawBits x.fmt g)

def vkeepBody (a b c : Reg) (x : VecX) : Act Unit := do
  let a ← regA a x.index
  let b ← regB b x.index
  let s ← get
  let t := field (reg s c).bits.toNat 32 0
  let w := x.fmt.width
  elementwise w a (acting s x.mask) fun j => do
    let g ← drawLane (laneOf w j)
    pure (if g.toNat < t then elem (vreg (me s) b) w j else 0)

def vphxBody (a b c : Reg) (word : Nat) (imm : BitVec 24) (x : VecX) : Act Unit := do
  let a ← regA a x.index
  let s ← get
  let v := (reg s c).bits.toNat
  elementwise 32 a (acting s x.mask) fun i =>
    pure (drawBits x.fmt (philoxWord (reg64 s b) i (field v 31 0) (field v 33 32) imm.toNat word))

def execVrand (a : Reg) (fmt : Fmt) (s : State) : Host.Outcome State Fault Refusal := quick 4 (vrandBody a (shortX fmt)) s
def execVrandExt (a : Reg) (x : VecX) (s : State) : Host.Outcome State Fault Refusal := quick 12 (vrandBody a x) s
def execVkeep (a b c : Reg) (fmt : Fmt) (s : State) : Host.Outcome State Fault Refusal :=
  quick 4 (vkeepBody a b c (shortX fmt)) s
def execVkeepExt (a b c : Reg) (x : VecX) (s : State) : Host.Outcome State Fault Refusal :=
  quick 12 (vkeepBody a b c x) s
def execVphx (a b c : Reg) (fmt : Fmt) (s : State) : Host.Outcome State Fault Refusal :=
  quick 4 (vphxBody a b c 0 0 (shortX fmt)) s
def execVphxExt (a b c : Reg) (word : Fin 4) (imm : BitVec 24) (x : VecX) (s : State) :
    Host.Outcome State Fault Refusal := quick 12 (vphxBody a b c word.val imm x) s

/-! ### Rotary position (R278) -/

/-- First lane of the pair that holds lane `j`. -/
def pairFirst (half : Bool) (j : Nat) : Nat := if half then j % 32 else j / 2 * 2

def pairSecond (half : Bool) (first : Nat) : Nat := if half then first + 32 else first + 1

/-- The value of lane `j` of a rotated pair, before its rounding. -/
def rotated (rdn : Bool) (cs sn x y : Number) (isFirst : Bool) : Number :=
  if isFirst then (x.mul cs).sub rdn (y.mul sn) else (x.mul sn).add rdn (y.mul cs)

def vropeBody (a b c d : Reg) (half : Bool) (x : VecX) : Act Unit := do
  let a ← regA a x.index
  let b ← regB b x.index
  checkV d.val
  let s ← get
  let k := me s
  let p := field (reg s c).bits.toNat 31 0
  let mask := acting s x.mask
  let firsts := lanes.filter fun j => pairFirst half j == j && laneActs mask j
  match firsts with
  | i :: _ => require (p < 2 ^ 26) causePosition i
  | [] => pure ()
  let r := roundingOf k x.rnd
  let lane (n j : Nat) : Number := f32 (elem (vreg k n) 32 j)
  let pairs := BitVec.ofNat 64 (packElems 1 (lanes.map fun j => boolNat (firsts.contains (pairFirst half j))))
  elementwise 32 a pairs fun j =>
    let i := pairFirst half j
    let (co, si) := cosSin ((Number.fin false p 0).mul (lane d.val i))
    roundIn .f32 r j (rotated (r.mode == .rdn) (stepped r.ftz co) (stepped r.ftz si) (lane b i)
      (lane b (pairSecond half i)) (j == i))

def execVrope (a b c : Reg) (s : State) : Host.Outcome State Fault Refusal :=
  quick 4 (vropeBody a b c 0 false (shortX .f32)) s
def execVropeExt (a b c d : Reg) (half : Bool) (x : VecX) (s : State) : Host.Outcome State Fault Refusal :=
  quick 12 (vropeBody a b c d half x) s

end Sys2Proof.Machine
end

