-- ==== Sys2Proof/Machine/Lanes.lean ====
section
/-!
DEFINITION. Comparisons, masks, reductions, scans and sorts (R104, R269 to R272, R274, R275). Every instruction here is
fixed-latency.
-/

namespace Sys2Proof.Machine

/-! ### Comparison (R269) -/

/-- The order of two FP32 or INT32 lanes; nothing with a NaN. -/
def compareLanes (f : Fmt) (x y : Nat) : Option Ordering := (valueOf f x).compare (valueOf f y)

def condHolds (c : CmpCond) (o : Option Ordering) : Bool :=
  match c with
  | .eq => o == some .eq
  | .ne => o != some .eq
  | .lt => o == some .lt
  | .le => o == some .lt || o == some .eq
  | .gt => o == some .gt
  | .ge => o == some .gt || o == some .eq
  | .uno => o == none
  | .ord => o != none

/-- Bits of a mask from a function of the lane. -/
def maskOf (f : Nat → Bool) : BitVec 64 := BitVec.ofNat 64 (packElems 1 (lanes.map fun i => boolNat (f i)))

def vcmpBody (a b c : Reg) (cond : CmpCond) (x : VecX) : Act Unit := do
  let b ← regB b x.index
  let c ← regC c x.index
  let s ← get
  let k := me s
  let old := maskReg k a.val
  let mask := acting s x.mask
  modify (putMask a.val (maskOf fun i =>
    if laneActs mask i then condHolds cond (compareLanes x.fmt (elem (vreg k b) 32 i) (elem (vreg k c) 32 i))
    else old.getLsbD i))

def execVcmp (a b c : Reg) (cond : CmpCond) (x : VecX) (s : State) : Host.Outcome State Fault Refusal :=
  quick 12 (vcmpBody a b c cond x) s

/-! ### Whole masks (R270) -/

def maskOp (op : MaskOp) (x y : BitVec 64) : BitVec 64 :=
  match op with
  | .and => x &&& y
  | .or => x ||| y
  | .xor => x ^^^ y
  | .andn => x &&& ~~~y
  | .not => ~~~x

def setBits (m : BitVec 64) : List Nat := lanes.filter (laneActs m)

def maskProbe (p : MaskProbe) (m : BitVec 64) : Nat :=
  match p with
  | .popc => (setBits m).length
  | .first => (setBits m).headD 64
  | .last => (setBits m).getLastD 64

def maskSet (op : MaskSet) (old lit : BitVec 64) : BitVec 64 :=
  match op with
  | .set => lit
  | .or => old ||| lit
  | .and => old &&& lit
  | .andn => old &&& ~~~lit

def execMskl (a b c : Reg) (op : MaskOp) (s : State) : Host.Outcome State Fault Refusal :=
  fixed 12 (fun s => putMask a.val (maskOp op (maskReg (me s) b.val) (maskReg (me s) c.val)) s) s
def execMskp (a b : Reg) (op : MaskProbe) (s : State) : Host.Outcome State Fault Refusal :=
  fixed 12 (fun s => writeInt a 64 (maskProbe op (maskReg (me s) b.val)) s) s
def execMsks (a : Reg) (lit : BitVec 64) (s : State) : Host.Outcome State Fault Refusal :=
  fixed 12 (putMask a.val lit) s
def execMsksExt (a : Reg) (lit : BitVec 64) (op : MaskSet) (s : State) : Host.Outcome State Fault Refusal :=
  fixed 20 (fun s => putMask a.val (maskSet op (maskReg (me s) a.val) lit) s) s

/-! ### Reductions (R104, R271) -/

/-- An item of the tree: FP32 bits, and the lane of its lowest present element; none where it is absent. -/
abbrev TreeItem := Option (Nat × Nat)

/-- Item 2i plus item 2i + 1, rounded; a lone child passes unchanged. -/
def addItems (r : Rounding) : TreeItem → TreeItem → Draws TreeItem
  | none, y => pure y
  | x, none => pure x
  | some (x, i), some (y, _) => do
    let z ← roundIn .f32 r i ((f32 x).add (r.mode == .rdn) (f32 y))
    pure (some (z, i))

/-- One level of the tree. -/
def treeLevel (r : Rounding) : List TreeItem → Draws (List TreeItem)
  | x :: y :: rest => do
    let z ← addItems r x y
    let more ← treeLevel r rest
    pure (z :: more)
  | xs => pure xs

/-- Every level, from the lowest up. -/
def treeSum (r : Rounding) : Nat → List TreeItem → Draws (List TreeItem)
  | 0, xs => pure xs
  | n + 1, xs => do
    let ys ← treeLevel r xs
    treeSum r n ys

/-- An element widened exactly to FP32. -/
def widened (f : Fmt) (x : Nat) : Nat := if f = .f32 then x else encodeTo .f32 { mode := .rne } 0 (valueOf f x)

/-- The elements of acting lanes, with their indices. -/
def presentElems (f : Fmt) (mask : BitVec 64) (v : VReg) : List (Nat × Nat) :=
  ((upFrom 0 (2048 / f.width)).filter fun j => laneActs mask (laneOf f.width j)).map fun j => (j, elem v f.width j)

/-- An absent root gives +0. -/
def rootBits (xs : List TreeItem) : Nat := ((xs.headD none).map (·.1)).getD 0

def floatSum (f : Fmt) (r : Rounding) (mask : BitVec 64) (v : VReg) : Draws Nat := do
  let item (j : Nat) : TreeItem :=
    if laneActs mask (laneOf f.width j) then some (widened f (elem v f.width j), laneOf f.width j) else none
  let xs ← treeSum r 8 ((upFrom 0 (2048 / f.width)).map item)
  pure (rootBits xs)

def intSum (f : Fmt) (xs : List (Nat × Nat)) : Nat := wrap 64 ((xs.map fun e => intValue f e.2).sum)

/-- The greater or lesser of a list by `better`; none of an empty one. -/
def bestOf {α : Type} (better : α → α → Bool) : List α → Option α
  | [] => none
  | x :: rest => match bestOf better rest with
    | none => some x
    | some y => if better y x then some y else some x

/-- The greatest or least float: the canonical NaN with any NaN, −0 below +0. -/
def floatBest (f : Fmt) (greater : Bool) (xs : List (Nat × Nat)) : Nat :=
  if xs.any fun e => (valueOf f e.2).isNan then canonNan .f32
  else
    match bestOf (fun y x : Nat × Nat => if greater then floatLess f x.2 y.2 else floatLess f y.2 x.2) xs with
    | none => 0
    | some e => widened f e.2

def intBest (f : Fmt) (greater : Bool) (xs : List (Nat × Nat)) : Nat :=
  match bestOf (fun y x : Nat × Nat =>
      if greater then intValue f x.2 < intValue f y.2 else intValue f y.2 < intValue f x.2) xs with
  | none => 0
  | some e => wrap 64 (intValue f e.2)

/-- A total order of values in which any NaN is greater than every number, and −0 equals +0 (R271, R274). -/
def keyLess (f : Fmt) (x y : Nat) : Bool :=
  if (valueOf f y).isNan then !(valueOf f x).isNan else (valueOf f x).less (valueOf f y)

/-- The index of the greatest or least value, the lowest on equality. -/
def bestIndex (f : Fmt) (greater : Bool) (xs : List (Nat × Nat)) : Nat :=
  match bestOf (fun y x : Nat × Nat => if greater then keyLess f x.2 y.2 else keyLess f y.2 x.2) xs with
  | none => 2 ^ 64 - 1
  | some e => e.1

def reduce (op : RedOp) (f : Fmt) (r : Rounding) (mask : BitVec 64) (v : VReg) : Draws Nat :=
  let xs := presentElems f mask v
  match op with
  | .sum => if f.isInt then pure (intSum f xs) else floatSum f r mask v
  | .max => pure (if f.isInt then intBest f true xs else floatBest f true xs)
  | .min => pure (if f.isInt then intBest f false xs else floatBest f false xs)
  | .argmax => pure (bestIndex f true xs)
  | .argmin => pure (bestIndex f false xs)

def vredBody (a b : Reg) (op : RedOp) (x : VecX) : Act Unit := do
  let b ← regB b x.index
  let s ← get
  let k := me s
  let v ← runDraws (reduce op x.fmt (roundingOf k x.rnd) (acting s x.mask) (vreg k b))
  modify (writeInt a 64 v)

def execVred (a b : Reg) (op : RedOp) (x : VecX) (s : State) : Host.Outcome State Fault Refusal :=
  quick 12 (vredBody a b op x) s

/-! ### Scans (R272) -/

/-- The running value after one more lane. -/
def scanStep (op : ScanOp) (f : Fmt) (r : Rounding) (lane acc x : Nat) : Draws Nat :=
  match op, f.isInt with
  | .imax, true => pure (wrap 32 (max (intValue .s32 acc) (intValue .s32 x)))
  | .imax, false => pure (floatMax .f32 acc x)
  | _, true => pure ((acc + x) % 2 ^ 32)
  | _, false => roundIn .f32 r lane ((f32 acc).add (r.mode == .rdn) (f32 x))

/-- The lanes of the result in ascending order, and the final value. -/
def scanLanes (op : ScanOp) (f : Fmt) (r : Rounding) (mask : BitVec 64) (old v : VReg) :
    Nat → List Nat → Draws (List Nat × Nat)
  | acc, [] => pure ([], acc)
  | acc, i :: rest =>
    if laneActs mask i then do
      let next ← scanStep op f r i acc (elem v 32 i)
      let (more, final) ← scanLanes op f r mask old v next rest
      pure ((if op = .xsum then acc else next) :: more, final)
    else do
      let (more, final) ← scanLanes op f r mask old v acc rest
      pure (elem old 32 i :: more, final)

def vscanBody (a b c d : Reg) (op : ScanOp) (x : VecX) : Act Unit := do
  let a ← regA a x.index
  let b ← regB b x.index
  let s ← get
  let k := me s
  let start := field (reg s c).bits.toNat 31 0
  let (xs, final) ← runDraws
    (scanLanes op x.fmt (roundingOf k x.rnd) (acting s x.mask) (vreg k a) (vreg k b) start lanes)
  modify fun t => writeInt d 32 final (putV a (fromLanes xs) t)

def execVscan (a b c d : Reg) (op : ScanOp) (x : VecX) (s : State) : Host.Outcome State Fault Refusal :=
  quick 12 (vscanBody a b c d op x) s

/-! ### Sorting (R274, R275) -/

/-- A pair: value and index. -/
abbrev SortPair := Nat × Nat

/-- The order of pairs, for one direction. -/
def pairBefore (f : Fmt) (desc : Bool) (p q : SortPair) : Bool :=
  if keyLess f p.1 q.1 then !desc
  else if keyLess f q.1 p.1 then desc
  else if intValue .s32 p.2 = intValue .s32 q.2 then p.1 < q.1
  else intValue .s32 p.2 < intValue .s32 q.2

def insertPair (f : Fmt) (desc : Bool) (p : SortPair) : List SortPair → List SortPair
  | [] => [p]
  | q :: rest => if pairBefore f desc q p then q :: insertPair f desc p rest else p :: q :: rest

def sortPairs (f : Fmt) (desc : Bool) (xs : List SortPair) : List SortPair := xs.foldr (insertPair f desc) []

/-- The 64 pairs of two registers. -/
def pairsOf (k : Context) (v i : Nat) : List SortPair := lanes.map fun j => (elem (vreg k v) 32 j, elem (vreg k i) 32 j)

def putPairs (v i : Nat) (ps : List SortPair) (s : State) : State :=
  putV i (fromLanes (ps.map (·.2))) (putV v (fromLanes (ps.map (·.1))) s)

def vsortBody (a b : Reg) (desc : Bool) (x : VecX) : Act Unit := do
  let a ← regA a x.index
  let b ← regB b x.index
  let s ← get
  set (putPairs a b (sortPairs x.fmt desc (pairsOf (me s) a b)) s)

def vmergeBody (a b c d : Reg) (desc : Bool) (x : VecX) : Act Unit := do
  let a ← regA a x.index
  let b ← regB b x.index
  let c ← regC c x.index
  checkV d.val
  let s ← get
  let ps := sortPairs x.fmt desc (pairsOf (me s) a b ++ pairsOf (me s) c d.val)
  set (putPairs c d.val (ps.drop 64) (putPairs a b (ps.take 64) s))

def execVsort (a b : Reg) (fmt : Fmt) (s : State) : Host.Outcome State Fault Refusal :=
  quick 4 (vsortBody a b false (shortX fmt)) s
def execVsortExt (a b : Reg) (desc : Bool) (x : VecX) (s : State) : Host.Outcome State Fault Refusal :=
  quick 12 (vsortBody a b desc x) s
def execVmerge (a b c : Reg) (fmt : Fmt) (s : State) : Host.Outcome State Fault Refusal :=
  quick 4 (vmergeBody a b c 0 false (shortX fmt)) s
def execVmergeExt (a b c d : Reg) (desc : Bool) (x : VecX) (s : State) : Host.Outcome State Fault Refusal :=
  quick 12 (vmergeBody a b c d desc x) s

end Sys2Proof.Machine
end

