-- ==== Sys2Proof/Machine/Moments.lean ====
section
/-!
DEFINITION. Moment arithmetic, step by step, and the moment instructions (R90, R106 to R115, R279 to R282). Every
instruction here is fixed-latency.
-/

namespace Sys2Proof.Machine

/-! ### Pairs and variances (R90, R115) -/

/-- A moment pair, as FP32 encodings. -/
structure Pair where
  mean : Nat
  var : Nat
deriving DecidableEq, Repr

def pairAt (e : EReg) (i : Nat) : Pair := ⟨(momentMean e i).toNat, (momentVar e i).toNat⟩

/-- A variance that is NaN, or negative and not zero. -/
def negativeVar (x : Nat) : Bool := (f32 x).isNan || (bit x 31 && !(f32 x).isZero)

/-- How moment steps go: FTZ and CLAMP. -/
structure MomentMode where
  ftz : Bool
  clamp : Bool
deriving DecidableEq, Repr

/-- A moment computation: whether a variance has been clamped, or no result where CLAMP = 0 refuses one. -/
abbrev Mom (α : Type) := StateT Bool Option α

/-- A variance where it is found: kept, refused, or replaced by +0 with the flag set. -/
def takeVar (clamp : Bool) (x : Nat) : Mom Nat :=
  if negativeVar x then (if clamp then fun _ => some (0, true) else fun _ => none) else pure x

/-! ### The steps (R107 to R112) -/

def plusStep (m : MomentMode) (x y : Number) : Number := stepped m.ftz (x.add false y)
def minusStep (m : MomentMode) (x y : Number) : Number := stepped m.ftz (x.sub false y)
def timesStep (m : MomentMode) (x y : Number) : Number := stepped m.ftz (x.mul y)

/-- Doubling and halving, steps of their own (R106). -/
def twiceStep (m : MomentMode) (x : Number) : Number := timesStep m (.fin false 1 1) x
def halfStep (m : MomentMode) (x : Number) : Number := timesStep m (.fin false 1 (-1)) x

/-- ρ of an addition, by `%covmode`.MODE and the register (R107). -/
def rhoOf (mode : Nat) (reg : Number) : Number :=
  match mode with
  | 0 => .zero
  | 1 => .one
  | 2 => .fin true 1 0
  | _ =>
    if Number.one.less reg then .one
    else if reg.less (.fin true 1 0) then .fin true 1 0
    else reg

/-- Mean and variance of a sum with correlation ρ. -/
def addMoments (m : MomentMode) (sub : Bool) (rho : Number) (ma va mb vb : Number) : Number × Number :=
  let rho := if sub then rho.negate else rho
  let mu := if sub then minusStep m ma mb else plusStep m ma mb
  let t := plusStep m va vb
  let var :=
    if rho.isZero then t
    else
      let s := stepped m.ftz (sqrtNum (timesStep m va vb))
      if rho.compare .one = some .eq then plusStep m t (twiceStep m s)
      else if rho.compare (.fin true 1 0) = some .eq then minusStep m t (twiceStep m s)
      else plusStep m t (twiceStep m (timesStep m rho s))
  (mu, var)

def mulMoments (m : MomentMode) (ma va mb vb : Number) : Number × Number :=
  let x := timesStep m va vb
  let y := timesStep m (timesStep m ma ma) vb
  let z := timesStep m (timesStep m mb mb) va
  (timesStep m ma mb, plusStep m (plusStep m x y) z)

def scaleMoments (m : MomentMode) (k ma va : Number) : Number × Number :=
  (timesStep m k ma, timesStep m (timesStep m k k) va)

def expMoments (m : MomentMode) (ma va : Number) : Number × Number :=
  (stepped m.ftz (expNum (plusStep m ma (halfStep m va))),
    timesStep m (stepped m.ftz (expm1Num va)) (stepped m.ftz (expNum (plusStep m (twiceStep m ma) va))))

/-- Tab (R111); of a NaN it is a NaN. -/
def lookTable (m : MomentMode) (density : Bool) (alpha : Number) : Number :=
  let entry (i : Nat) : Number := if density then tableDensity i else tableNormal i
  if alpha.isNan then .nan
  else if !alpha.less (.fin false 8 0) then (if density then .zero else .one)
  else if alpha.less (.fin true 8 0) then .zero
  else
    let x := (alpha.add false (.fin false 8 0)).mul (.fin false 64 0)
    match x with
    | .nan => .nan
    | .inf _ => .nan
    | .fin _ n e =>
      let j := scaleTo n e (min e 0) / 2 ^ (-(min e 0)).toNat
      let f := minusStep m x (.fin false j 0)
      plusStep m (entry j) (timesStep m f (minusStep m (entry (j + 1)) (entry j)))

/-- The greater of a mean and +0; of −0 and +0 it is +0. -/
def positivePart (x : Number) : Number :=
  if x.isNan then x else if Number.zero.less x then x else .zero

def reluMoments (m : MomentMode) (ma va : Number) : Number × Number :=
  let s := stepped m.ftz (sqrtNum va)
  if s.isZero then (stepped m.ftz (positivePart ma), .zero)
  else
    let alpha := stepped m.ftz (ma.div s)
    let p := lookTable m false alpha
    let d := lookTable m true alpha
    let mu := plusStep m (timesStep m ma p) (timesStep m s d)
    let q := plusStep m (timesStep m (plusStep m (timesStep m ma ma) va) p) (timesStep m (timesStep m ma s) d)
    (mu, minusStep m q (timesStep m mu mu))

/-- π/8 in FP32. -/
def k8 : Number := f32 0x3EC90FDB

def sigMoments (m : MomentMode) (ma va : Number) : Number × Number :=
  let kappa := stepped m.ftz (rsqrtNum (plusStep m (timesStep m va k8) .one))
  let mu := stepped m.ftz (sigNum (timesStep m kappa ma))
  let g := timesStep m mu (minusStep m .one mu)
  (mu, timesStep m (timesStep m g g) (timesStep m va (timesStep m kappa kappa)))

/-- The pair of an operation: its final variance is examined (R115). -/
def finishPair (m : MomentMode) (r : Number × Number) : Mom Pair := do
  let v ← takeVar m.clamp (rne32 false r.2)
  pure ⟨rne32 false r.1, v⟩

/-- An operation on one pair. -/
def onePair (m : MomentMode) (f : Number → Number → Number × Number) (a : Pair) : Mom Pair := do
  let va ← takeVar m.clamp a.var
  finishPair m (f (f32 a.mean) (f32 va))

/-- An operation on two pairs. -/
def twoPairs (m : MomentMode) (f : Number → Number → Number → Number → Number × Number) (a b : Pair) : Mom Pair := do
  let va ← takeVar m.clamp a.var
  let vb ← takeVar m.clamp b.var
  finishPair m (f (f32 a.mean) (f32 va) (f32 b.mean) (f32 vb))

/-- A pair moved bit for bit, its variance examined. -/
def movedPair (clamp : Bool) (a : Pair) : Mom Pair := do
  let v ← takeVar clamp a.var
  pure ⟨a.mean, v⟩

/-! ### Moment instructions (R279 to R281) -/

def momentMode (x : Context) : MomentMode := ⟨roundFtz x, covClamp x⟩

def indexA (a : Reg) (x : Index) : Act Nat := do inWindowE (fieldA (← get) x a)
def indexB (b : Reg) (x : Index) : Act Nat := do inWindowE (fieldB (← get) x b)
def indexC (c : Reg) (x : Index) : Act Nat := do inWindowE (fieldC (← get) x c)

/-- The acting lanes in ascending order: their results and whether one was clamped, or the lowest lane refused. -/
def eachLane {α : Type} (f : Nat → Mom α) : List Nat → Bool → Except Nat (List (Nat × α) × Bool)
  | [], clamped => .ok ([], clamped)
  | i :: rest, clamped =>
    match f i false with
    | none => .error i
    | some (x, hit) => match eachLane f rest (clamped || hit) with
      | .error j => .error j
      | .ok (more, c) => .ok ((i, x) :: more, c)

/-- The negative-variance fault of a lane. -/
def raiseVariance {α : Type} (lane : Nat) : Act α := raise causeVariance lane

/-- Register `a` takes new pairs in its acting lanes, or the instruction faults and writes nothing. -/
def pairwise (a : Nat) (mask : BitVec 64) (f : Nat → Mom Pair) : Act Unit := do
  match eachLane f (lanes.filter (laneActs mask)) false with
  | .error i => raiseVariance i
  | .ok (rs, clamped) =>
    let s ← get
    let old := ereg (me s) a
    let value (i : Nat) : Pair := ((rs.find? (·.1 == i)).map (·.2)).getD (pairAt old i)
    set (setClamped clamped (putE a (fromMoments (lanes.map fun i => ((value i).mean, (value i).var))) s))

/-- An instruction on one moment register. -/
def momentBody (a b : Reg) (x : VecX) (f : MomentMode → Number → Number → Number × Number) : Act Unit := do
  let a ← indexA a x.index
  let b ← indexB b x.index
  let s ← get
  let m := momentMode (me s)
  pairwise a (acting s x.mask) fun i => onePair m (f m) (pairAt (ereg (me s) b) i)

/-- An instruction on two. -/
def momentsBody (a b c : Reg) (x : VecX)
    (f : MomentMode → Number → Number → Number → Number → Number × Number) : Act Unit := do
  let a ← indexA a x.index
  let b ← indexB b x.index
  let c ← indexC c x.index
  let s ← get
  let m := momentMode (me s)
  pairwise a (acting s x.mask) fun i => twoPairs m (f m) (pairAt (ereg (me s) b) i) (pairAt (ereg (me s) c) i)

/-- ρ of the issuing context with register `d`. -/
def myRho (s : State) (d : Reg) : Number := rhoOf (covMode (me s)) (f32 (field (reg s d).bits.toNat 31 0))

def maddBody (a b c d : Reg) (sub : Bool) (x : VecX) : Act Unit := do
  let s ← get
  momentsBody a b c x fun m => addMoments m sub (myRho s d)

/-- FP32 in the low bits of a register. -/
def constOf (s : State) (c : Reg) : Number := f32 (field (reg s c).bits.toNat 31 0)

def msclBody (a b c : Reg) (x : VecX) : Act Unit := do
  let s ← get
  momentBody a b x fun m => scaleMoments m (constOf s c)

def mmovBody (a b : Reg) (x : VecX) : Act Unit := do
  let a ← indexA a x.index
  let b ← indexB b x.index
  let s ← get
  pairwise a (acting s x.mask) fun i => movedPair (covClamp (me s)) (pairAt (ereg (me s) b) i)

def mfromBody (a b c : Reg) (x : VecX) : Act Unit := do
  let a ← indexA a x.index
  let b ← regB b x.index
  let c ← regC c x.index
  let s ← get
  pairwise a (acting s x.mask) fun i =>
    movedPair (covClamp (me s)) ⟨elem (vreg (me s) b) 32 i, elem (vreg (me s) c) 32 i⟩

def momX : VecX := shortX .mo

def execMadd (a b c : Reg) (s : State) : Host.Outcome State Fault Refusal := quick 4 (maddBody a b c 0 false momX) s
def execMaddExt (a b c d : Reg) (x : VecX) (s : State) : Host.Outcome State Fault Refusal :=
  quick 12 (maddBody a b c d false x) s
def execMsub (a b c : Reg) (s : State) : Host.Outcome State Fault Refusal := quick 4 (maddBody a b c 0 true momX) s
def execMsubExt (a b c d : Reg) (x : VecX) (s : State) : Host.Outcome State Fault Refusal :=
  quick 12 (maddBody a b c d true x) s
def execMmul (a b c : Reg) (s : State) : Host.Outcome State Fault Refusal :=
  quick 4 (momentsBody a b c momX mulMoments) s
def execMmulExt (a b c : Reg) (x : VecX) (s : State) : Host.Outcome State Fault Refusal :=
  quick 12 (momentsBody a b c x mulMoments) s
def execMscl (a b c : Reg) (s : State) : Host.Outcome State Fault Refusal := quick 4 (msclBody a b c momX) s
def execMsclExt (a b c : Reg) (x : VecX) (s : State) : Host.Outcome State Fault Refusal :=
  quick 12 (msclBody a b c x) s
def execMexp (a b : Reg) (s : State) : Host.Outcome State Fault Refusal := quick 4 (momentBody a b momX expMoments) s
def execMexpExt (a b : Reg) (x : VecX) (s : State) : Host.Outcome State Fault Refusal :=
  quick 12 (momentBody a b x expMoments) s
def execMrelu (a b : Reg) (s : State) : Host.Outcome State Fault Refusal := quick 4 (momentBody a b momX reluMoments) s
def execMreluExt (a b : Reg) (x : VecX) (s : State) : Host.Outcome State Fault Refusal :=
  quick 12 (momentBody a b x reluMoments) s
def execMsig (a b : Reg) (s : State) : Host.Outcome State Fault Refusal := quick 4 (momentBody a b momX sigMoments) s
def execMsigExt (a b : Reg) (x : VecX) (s : State) : Host.Outcome State Fault Refusal :=
  quick 12 (momentBody a b x sigMoments) s
def execMmov (a b : Reg) (s : State) : Host.Outcome State Fault Refusal := quick 4 (mmovBody a b momX) s
def execMmovExt (a b : Reg) (x : VecX) (s : State) : Host.Outcome State Fault Refusal := quick 12 (mmovBody a b x) s
def execMfrom (a b c : Reg) (s : State) : Host.Outcome State Fault Refusal := quick 4 (mfromBody a b c (shortX .f32)) s
def execMfromExt (a b c : Reg) (x : VecX) (s : State) : Host.Outcome State Fault Refusal :=
  quick 12 (mfromBody a b c x) s

/-! ### Collapse (R114, R282) -/

/-- The FP32 value of a form, from a pair whose variance has been read. -/
def collapsed (m : MomentMode) (form : CollForm) (k : Number) (g : BitVec 32) (p : Pair) : Nat :=
  let s := stepped m.ftz (sqrtNum (f32 p.var))
  match form with
  | .mean => p.mean
  | .var => p.var
  | .std => rne32 false s
  | .ksig => rne32 m.ftz ((f32 p.mean).add false (timesStep m k s))
  | .samp => rne32 m.ftz ((f32 p.mean).add false (timesStep m s (stepped m.ftz (normalDraw g))))

/-- One destination element: the sample draw before the rounding draw. To FP32 it moves bit for bit (log 89). -/
def collapseLane (m : MomentMode) (form : CollForm) (f : Fmt) (r : Rounding) (k : Number) (src dest : Nat) (p : Pair) :
    Draws Nat := do
  let g ← if form = .samp then drawLane src else pure 0
  let v := collapsed m form k g p
  if f = .f32 then pure v else roundIn f r dest (f32 v)

/-- The source lane of destination element `j`, if it takes one. -/
def collapseSource (f : Fmt) (half : Bool) (j : Nat) : Option Nat :=
  let h := if f = .f32 then 0 else if half then 64 else 0
  if h ≤ j ∧ j < h + 64 then some (j - h) else none

/-- A fault names the source lane of the variance (log 91). -/
def mcollBody (a b c : Reg) (form : CollForm) (half : Bool) (x : VecX) : Act Unit := do
  let a ← regA a x.index
  let b ← indexB b x.index
  let s ← get
  let k := me s
  let m := momentMode k
  let f := x.fmt
  let w := f.width
  let mask := acting s x.mask
  let sources := ((upFrom 0 (2048 / w)).filter fun j => laneActs mask (laneOf w j)).filterMap (collapseSource f half)
  match eachLane (fun i => movedPair m.clamp (pairAt (ereg k b) i)) sources false with
  | .error i => raiseVariance i
  | .ok (ps, clamped) =>
    let pair (i : Nat) : Pair := ((ps.find? (·.1 == i)).map (·.2)).getD ⟨0, 0⟩
    elementwise w a mask fun j => match collapseSource f half j with
      | some i => collapseLane m form f (conversionOf k x.rnd true) (constOf s c) i (laneOf w j) (pair i)
      | none => pure (elem (vreg k a) w j)
    modify (setClamped clamped)

def execMcoll (a b c : Reg) (form : CollForm) (half : Bool) (x : VecX) (s : State) :
    Host.Outcome State Fault Refusal := quick 12 (mcollBody a b c form half x) s

end Sys2Proof.Machine
end

