-- ==== Sys2Proof/Machine/Matrix.lean ====
section
/-!
DEFINITION. The matrix array and the accumulator tiles: the weight planes, streaming, and row moves (R68, R88, R103,
R113, R315 to R326). An instruction takes its place in the issue order of its core when it issues, and does its work when
those before it have done theirs.
-/

namespace Sys2Proof.Machine

/-! ### Formats of the array (R317) -/

/-- K of a plane format; 0 for a code that is no plane format. -/
def planeDepth : Nat → Nat
  | 1 | 2 => 128
  | 3 | 4 | 6 | 7 | 10 => 256
  | 5 | 11 => 512
  | _ => 0

/-- The stream formats that a plane format accepts; in moment mode 12, over a float plane. -/
def streamAccepted (plane stream : Nat) (mo : Bool) : Bool :=
  if mo then stream == 12 && 1 ≤ plane && plane ≤ 6
  else
    match plane with
    | 1 | 2 => stream == 1 || stream == 2
    | 3 | 4 => stream == 3 || stream == 4
    | 5 => stream == 5
    | 6 => stream == 6
    | 7 | 10 => stream == 7 || stream == 10
    | 11 => stream == 11
    | _ => false

/-- The tile elements are INT32. -/
def integerPlane (plane : Nat) : Bool := plane == 7 || plane == 10 || plane == 11

/-! ### Planes (R318) -/

def shadowBytes : Nat := 0xA000

/-- The 256 bytes of column `j`, elements placed as in a vector register. -/
def planeColumn (plane : List Host.Cell) (j : Nat) : VReg :=
  BitVec.ofNat 2048 (natOfBytes (getBytes 0 plane (256 * j) 256))

/-- Byte of the scale of block `b` of column `j`, and its bytes. -/
def planeScaleAt (sk j b : Nat) : Nat × Nat := if sk = 1 then (0x8000 + 16 * j + b, 1) else (0x8000 + 4 * (16 * j + b), 4)

def planeScaleBits (plane : List Host.Cell) (sk j b : Nat) : Nat :=
  let (a, n) := planeScaleAt sk j b
  natOfBytes (getBytes 0 plane a n)

/-- The value of a scale: E8M0 under MX, FP32 under SC, 1 without scales. -/
def scaleValue (sk x : Nat) : Number := if sk = 1 then e8m0 x else if sk = 2 then f32 x else .one

/-- What a block wholly outside the tensor takes as its scale (R319). -/
def outsideScale (sk : Nat) : Nat := if sk = 1 then 0x7F else 0x3F800000

/-! ### Shared checks -/

/-- Opcodes 0xD0 to 0xDA are illegal on a basecamp core (R316). -/
def needMain (r : Raw) : Act Unit := do
  let s ← get
  require (!onBasecamp s) causeIllegal r.baseWord

/-- The origin of a tensor operand (R319). -/
def origin (s : State) (b c : Reg) : Pos :=
  let x := (reg64 s b).toNat
  let y := (reg64 s c).toNat
  ⟨field x 31 0, field x 63 32, field y 31 0, field y 63 32⟩

/-- A position moved along dimension 1. -/
def Pos.down (p : Pos) (k : Nat) : Pos := { p with i1 := p.i1 + k }

/-- The row of a position lies within SIZE1 to SIZE3. -/
def Desc.holdsRow (d : Desc) (p : Pos) : Bool := d.holds { p with i0 := 0 }

/-- CapCheck of the elements of a row that lie in the tensor. -/
def checkElements (d : Desc) (perm : Nat) : List Pos → Act Unit
  | [] => pure ()
  | p :: rest => do
    if d.holds p then
      let (va, n) := d.place p
      checked 0 (capCheck d.base va n perm)
    checkElements d perm rest

/-- CapCheck of the scales of blocks that lie in the tensor. -/
def checkScales (d : Desc) (perm : Nat) : List Pos → Act Unit
  | [] => pure ()
  | p :: rest => do
    if d.holds p then
      let (va, n) := d.scalePlace p
      checked 0 (capCheck d.sbase va n perm)
    checkScales d perm rest

/-- Elements and scales of a tensor that an instruction reads. -/
structure Reads where
  desc : Desc
  elements : List Pos
  scales : List Pos

def Reads.check (r : Reads) : Act Unit := do
  checkElements r.desc permLD r.elements
  checkScales r.desc permLD r.scales

/-- The granules of virtual memory that they lie in (R164). -/
def Reads.granules (r : Reads) : List Nat :=
  let places := (r.elements.filter r.desc.holds).map r.desc.place ++ (r.scales.filter r.desc.holds).map r.desc.scalePlace
  (places.flatMap fun (a, n) => [a / granuleSize, (a + n - 1) / granuleSize]).eraseDups

/-- The positions of a row of `k` elements. -/
def rowPlaces (p : Pos) (k : Nat) : List Pos := (upFrom 0 k).map p.along

/-- The first positions of a row's blocks; none where the tensor has no scales. -/
def blockPlaces (d : Desc) (p : Pos) (k : Nat) : List Pos :=
  if d.sk = 0 then [] else (upFrom 0 (k / 32)).map fun b => p.along (32 * b)

/-- The scales at some positions: nothing outside the tensor. -/
def readScales (d : Desc) : List Pos → Act (List (Pos × Option Nat))
  | [] => pure []
  | p :: rest => do
    let x ← if d.holds p then (do let v ← readScale d p; pure (some v)) else pure none
    let more ← readScales d rest
    pure ((p, x) :: more)

/-- The least number of a list. -/
def leastOf : List Nat → Option Nat
  | [] => none
  | x :: rest => match leastOf rest with
    | none => some x
    | some y => some (min x y)

/-- The scale trap of the lowest failing scale index (R101). -/
def trapScales (n : Nat) (bad : List Nat) : Act Unit :=
  match leastOf bad with
  | some z => raise causeScale (scaleInfo 0 n z)
  | none => pure ()

/-- The indices of the scales read that an SC tensor refuses. -/
def badIndices (d : Desc) (xs : List (Pos × Option Nat)) : List Nat :=
  if d.sk = 2 then
    xs.filterMap fun (p, x) => match x with
      | some v => if badScale v then some (d.scaleIndex p) else none
      | none => none
  else []

/-- The elements of a row, 0 where they lie outside. -/
def readRow (d : Desc) (p : Pos) (k : Nat) : Act (List Nat) := do
  let xs ← readElements d p k
  pure (xs.map (·.getD 0))

/-! ### Accumulator rows (R68, R324) -/

/-- Row `t` of tile `a`. -/
def accRow (k : Core) (a t : Nat) : BitVec 4096 := lookD k.acc (128 * a + t) 0

def accElem (row : BitVec 4096) (j : Nat) : Nat := row.toNat / 2 ^ (32 * j) % 2 ^ 32

def columns : List Nat := upFrom 0 128

def setAccRow (a t : Nat) (row : BitVec 4096) (k : Core) : Core := { k with acc := putD k.acc (128 * a + t) row 0 }

/-- A row from its 128 elements. -/
def rowOf (xs : List Nat) : BitVec 4096 := BitVec.ofNat 4096 (packElems 32 xs)

/-- The tiles a program reads: its own, and the variance tile where it holds `ldacc.v` (R328). -/
def programReads (e : Epilogue) (j : Job) (tile : Nat) : Bool :=
  e.program.any fun h => h.toNat / 2048 == 1 && tile == j.tile + h.toNat % 4

/-- The current job still has to read a row of these blocks of a tile. -/
def jobReads (k : Core) (tile : Nat) (blocks : List Nat) : Bool :=
  match k.ep.job with
  | none => false
  | some j =>
    programReads k.ep j tile &&
      (upFrom (j.first + j.next) (min (j.first + j.count) 128 - (j.first + j.next))).any fun t => blocks.contains (t / 16)

/-- A writer of a tile's row blocks waits for the row reads of an earlier job (R324). -/
def waitForJob (tile : Nat) (blocks : List Nat) : Act Unit := do
  let s ← get
  if jobReads (myCore s) tile blocks then hold .job else pure ()

/-! ### Filling and exchanging planes (R319, R320) -/

/-- The transfer lands in the shadow plane. -/
def landsInShadow (x : Transfer) : Bool :=
  match x.dst with
  | .land o => meet o x.length 0 shadowBytes
  | .global _ => false

/-- The transfer was issued before the instruction of `slot`. -/
def issuedBefore (k : Core) (slot : Nat) (x : Transfer) : Bool :=
  match standing k slot with
  | some h => x.number ≤ h.number
  | none => true

/-- A landing into the shadow plane that was issued before the instruction of `slot` is still being delivered (R318). -/
def landing (k : Core) (slot : Nat) : Bool :=
  k.channels.any fun (_, ch) => match ch.xfer with
    | some x => landsInShadow x && issuedBefore k slot x
    | none => false

/-- A landing into the shadow plane delivers after an `mx.ldw` that was issued before it (R318). -/
def landsLater (k : Core) (x : Transfer) : Bool :=
  landsInShadow x && k.held.any fun h => h.fills && h.number < x.number

/-- Read the columns of a tensor, one event each. -/
def readColumns (d : Desc) (p : Pos) (k : Nat) : List Nat → Act (List (List Nat))
  | [] => pure []
  | j :: rest => do
    let xs ← readRow d (p.down j) k
    let more ← readColumns d p k rest
    pure (xs :: more)

/-- The image of columns numbered from `j`, over the staging bytes. -/
def putColumns (w : Nat) : Nat → List (List Nat) → List Host.Cell → List Host.Cell
  | _, [], m => m
  | j, xs :: rest, m => putColumns w (j + 1) rest (putBytes 0 m (256 * j) (bytesOf 256 (packElems w xs)))

/-- The image of the scales, column by column. -/
def putPlaneScales (sk blocks : Nat) : Nat → List (Option Nat) → List Host.Cell → List Host.Cell
  | _, [], m => m
  | i, x :: rest, m =>
    let (a, n) := planeScaleAt sk (i / blocks) (i % blocks)
    putPlaneScales sk blocks (i + 1) rest (putBytes 0 m a (bytesOf n (x.getD (outsideScale sk))))

/-- What an `mx.ldw` reads, checked. -/
def ldwReads (r : Raw) (n : Nat) (b c : Reg) : Act Reads := do
  needMain r
  let p := origin (← get) b c
  let d ← needDesc n fun d => planeDepth d.fmtCode != 0 && (d.blk == 0 || p.i0 % 32 == 0)
  let k := planeDepth d.fmtCode
  let reads : Reads := ⟨d, columns.flatMap fun j => rowPlaces (p.down j) k, columns.flatMap fun j => blockPlaces d (p.down j) k⟩
  reads.check
  pure reads

def mxLdwBody (r : Raw) (n : Nat) (b c : Reg) : Act Unit := do
  let reads ← ldwReads r n b c
  checkPin .mx
  takeTurn
  let s ← get
  if landing (myCore s) (who s).slot then hold .landing
  let p := origin s b c
  let d := reads.desc
  let k := planeDepth d.fmtCode
  let scales ← readScales d reads.scales
  trapScales n (badIndices d scales)
  let cols ← readColumns d p k columns
  modify fun s => onCore s (who s).core fun x =>
    { x with
      staging := putPlaneScales d.sk (k / 32) 0 (scales.map (·.2)) (putColumns d.fmt.width 0 cols x.staging)
      shadowTag := (d.fmtCode, d.sk) }

def execMxLdw (n : Fin 256) (b c : Reg) (s : State) : Host.Outcome State Fault Refusal :=
  let r : Raw := { l := 2, op := 0xD0, b, c }
  ordered true true 12 (mxLdwBody r n.val b c) s [do let x ← ldwReads r n.val b c; pure x.granules]

/-- The planes change places; the new active plane takes a tag. -/
def exchange (tag : Nat × Nat) (k : Core) : Core :=
  { k with
    active := k.staging.filter fun e => e.1 < shadowBytes
    staging := k.active ++ k.staging.filter fun e => !(e.1 < shadowBytes)
    activeTag := tag, shadowTag := k.activeTag }

def mxSwapBody (r : Raw) : Act Unit := do
  needMain r
  checkPin .mx
  takeTurn
  modify fun s => onCore s (who s).core fun k => exchange k.shadowTag k

/-- The SC scales of an image that are refused, by 16j + b. -/
def badPlaneScales (plane : List Host.Cell) (fmt sk : Nat) : List Nat :=
  if sk = 2 then
    columns.flatMap fun j => ((upFrom 0 (planeDepth fmt / 32)).filter fun b =>
      badScale (planeScaleBits plane 2 j b)).map (16 * j + ·)
  else []

/-- The transfer of a channel that was its current one when the instruction of `slot` issued, and whether it has stopped part
way. -/
def awaited (k : Core) (slot ch : Nat) : Nat × Bool :=
  match (standing k slot).bind fun h => h.awaits.map fun n => (n, h.lost) with
  | some w => w
  | none => ((channelOf k ch).last, (channelOf k ch).stopped)

/-- Such an instruction waits in its place. -/
def awaitTransfer (n : Nat) (lost : Bool) (h : Held) : Held := { h with awaits := some n, lost := lost }

def mxSwapExtBody (r : Raw) (n ch : Nat) (waits : Bool) : Act Unit := do
  needMain r
  let d ← needDesc n fun d => planeDepth d.fmtCode != 0
  checkPin .mx
  let s ← get
  let (number, lost) := awaited (myCore s) (who s).slot ch
  if behind (myCore s) (who s).slot then stop (.done (standHeld false false (awaitTransfer number lost) .engine s))
  if waits ∧ (channelOf (myCore s) ch).xfer.any (·.number == number) then
    stop (.done (standHeld false false (awaitTransfer number lost) (.transfer ch number) s))
  trapScales n (badPlaneScales (myCore s).staging d.fmtCode d.sk)
  if waits ∧ lost then raiseCopy ch 3
  modify fun s => onCore s (who s).core (exchange (d.fmtCode, d.sk))

def execMxSwap (s : State) : Host.Outcome State Fault Refusal := ordered false false 4 (mxSwapBody { l := 0, op := 0xD1 }) s
def execMxSwapExt (n : Fin 256) (ch : Fin 4) (waits : Bool) (s : State) : Host.Outcome State Fault Refusal :=
  ordered false false 12 (mxSwapExtBody { l := 2, op := 0xD1 } n.val ch.val waits) s

/-! ### Block sums (R88, R103, R113) -/

/-- A product of two LNS6 elements, in the log domain (R88). -/
def logProduct (x w : Nat) : Number :=
  if (lnsValue x).isNan || (lnsValue w).isNan then .nan
  else if (lnsValue x).isZero || (lnsValue w).isZero then .zero
  else
    let (m, e) := lnsMagnitude (((x % 32 + w % 32 : Nat) : Int) - 16)
    .fin (bit x 5 != bit w 5) m e

def elementProduct (fx fw : Fmt) (x w : Nat) : Number :=
  if fx = .lns6 ∧ fw = .lns6 then logProduct x w else (valueOf fx x).mul (valueOf fw w)

def sumNumbers (xs : List Number) : Number := xs.foldl (Number.add false) .zero

/-- The exact sum of a block, an exact zero as +0, times its scales. -/
def blockSum (products : List Number) (scale : Number) : Number := (plusZero (sumNumbers products)).mul scale

/-- One block added to a tile element: the one rounding. -/
def addBlock (acc : Nat) (sum : Number) : Nat := rne32 false ((f32 acc).add false sum)

/-- An integer block added to a tile element, saturating. -/
def addIntBlock (acc : Nat) (sum : Int) : Nat := wrap 32 (clampInt .s32 (intValue .s32 acc + sum))

/-- What a plane holds, for the streams through it. -/
structure Plane where
  fmt : Nat
  sk : Nat
  bytes : List Host.Cell

def activePlane (k : Core) : Plane := ⟨k.activeTag.1, k.activeTag.2, k.active⟩

def Plane.format (w : Plane) : Fmt := (fmtOf w.fmt).getD .f32

/-- Weight k of column j. -/
def Plane.weight (w : Plane) (col : VReg) (k : Nat) : Nat := elem col w.format.width k

def Plane.scale (w : Plane) (j b : Nat) : Number := scaleValue w.sk (planeScaleBits w.bytes w.sk j b)

/-- A term of a streamed row: its position along K and its element. -/
abbrev Term := Nat × Nat

/-- The terms of block `b`. -/
def blockTerms (ts : List Term) (b : Nat) : List Term := ts.filter fun t => t.1 / 32 == b

/-- A tile element after a row of ordinary elements: `sx` gives the stream's block scales. -/
def streamed (w : Plane) (f : Fmt) (ts : List Term) (sx : Nat → Number) (j acc : Nat) : Nat :=
  let col := planeColumn w.bytes j
  (upFrom 0 (planeDepth w.fmt / 32)).foldl (fun acc b =>
    if integerPlane w.fmt then
      addIntBlock acc ((blockTerms ts b).map fun t => intValue f t.2 * intValue w.format (w.weight col t.1)).sum
    else
      addBlock acc (blockSum ((blockTerms ts b).map fun t => elementProduct f w.format t.2 (w.weight col t.1))
        ((sx b).mul (w.scale j b)))) acc

/-- A tile element after a row of moment pairs: the means (R322). -/
def streamedMean (w : Plane) (ts : List Term) (j acc : Nat) : Nat :=
  let col := planeColumn w.bytes j
  (upFrom 0 (planeDepth w.fmt / 32)).foldl (fun acc b =>
    addBlock acc (blockSum ((blockTerms ts b).map fun t =>
      (valueOf w.format (w.weight col t.1)).mul (f32 (t.2 % 2 ^ 32))) (w.scale j b))) acc

/-- The variances, with the square of each weight exact. -/
def streamedVar (w : Plane) (ts : List Term) (j acc : Nat) : Nat :=
  let col := planeColumn w.bytes j
  (upFrom 0 (planeDepth w.fmt / 32)).foldl (fun acc b =>
    addBlock acc (blockSum ((blockTerms ts b).map fun t =>
      let v := valueOf w.format (w.weight col t.1)
      (v.mul v).mul (f32 (t.2 / 2 ^ 32))) ((w.scale j b).mul (w.scale j b)))) acc

/-! ### Streaming (R321 to R323) -/

/-- A row of a tile takes new elements, from 0 or from its old ones. -/
def streamInto (tile t : Nat) (z : Bool) (f : Nat → Nat → Nat) (k : Core) : Core :=
  let old := accRow k tile t
  setAccRow tile t (rowOf (columns.map fun j => f j (if z then 0 else accElem old j))) k

/-- The effect of one streamed row. -/
def streamRow (w : Plane) (f : Fmt) (tile t : Nat) (z mo : Bool) (ts : List Term) (sx : Nat → Number) (k : Core) : Core :=
  if mo then streamInto (tile + 1) t z (streamedVar w ts) (streamInto tile t z (streamedMean w ts) k)
  else streamInto tile t z (streamed w f ts sx) k

/-- The block scales of one row of a stream. -/
def rowScale (d : Desc) (xs : List (Pos × Option Nat)) (blocks r b : Nat) : Number :=
  match xs[r * blocks + b]? with
  | some (_, some v) => scaleValue d.sk v
  | some (_, none) => .one
  | none => .one

/-- Read and apply the rows held, numbered from `i` among them. -/
def streamRows (w : Plane) (d : Desc) (p : Pos) (tile first : Nat) (z mo : Bool) (sx : Nat → Nat → Number) :
    Nat → List Nat → Act Unit
  | _, [] => pure ()
  | i, r :: rest => do
    let xs ← readRow d (p.down r) (planeDepth w.fmt)
    let ts := (upFrom 0 xs.length).zip xs
    modify fun s => onCore s (who s).core (streamRow w d.fmt tile (first + r) z mo ts (sx i))
    streamRows w d p tile first z mo sx (i + 1) rest

/-- The scales of the plane that a stream of rows uses are checked before anything changes (R101); the trap names them by
the descriptor of the stream and 16j + b (log 87). -/
def checkPlaneScales (w : Plane) (n : Nat) (rows : Bool) : Act Unit :=
  trapScales n (if rows then badPlaneScales w.bytes w.fmt w.sk else [])

/-- The formats of a stream suit some plane. -/
def streamable (stream : Nat) (mo : Bool) : Bool := (upFrom 1 11).any fun w => streamAccepted w stream mo

/-- What the array asks of a stream's descriptor whatever its planes hold (R321). -/
def streamGood (p : Pos) (mo : Bool) (blk : Nat) (d : Desc) : Bool :=
  streamable d.fmtCode mo && (d.blk == 0 || p.i0 % 32 == 0) && 16 * blk + d.tileRows ≤ 128

/-- The issuing context's instruction has its turn, or stands behind others of its core. -/
def myTurn (s : State) : Bool := !behind (myCore s) (who s).slot

/-- The stream rows of a tensor from `p` on that lie within it. -/
def streamedRows (d : Desc) (p : Pos) : List Nat := (upFrom 0 d.tileRows).filter fun r => d.holdsRow (p.down r)

/-- What an `mx.str` reads, checked. The plane that it streams through, and so what it reads, stands when its turn has come. -/
def strReads (r : Raw) (b c : Reg) (n : Nat) (mo : Bool) (blk : Nat) : Act Reads := do
  needMain r
  let s ← get
  let p := origin s b c
  let w := activePlane (myCore s)
  let d ← needDesc n fun d => (!myTurn s || streamAccepted w.fmt d.fmtCode mo) && streamGood p mo blk d
  let rows := if myTurn s then streamedRows d p else []
  let k := planeDepth w.fmt
  let reads : Reads := ⟨d, rows.flatMap fun r => rowPlaces (p.down r) k, rows.flatMap fun r => blockPlaces d (p.down r) k⟩
  reads.check
  pure reads

def mxStrBody (r : Raw) (a b c : Reg) (n : Nat) (z mo : Bool) (blk : Nat) : Act Unit := do
  let reads ← strReads r b c n mo blk
  checkPin .mx
  takeTurn
  let s ← get
  let p := origin s b c
  let w := activePlane (myCore s)
  let d := reads.desc
  let k := planeDepth w.fmt
  let rows := streamedRows d p
  waitForJob a.val (upFrom blk (ceilDiv d.tileRows 16))
  if mo then waitForJob (a.val + 1) (upFrom blk (ceilDiv d.tileRows 16))
  let scales ← readScales d reads.scales
  trapScales n (badIndices d scales)
  checkPlaneScales w n (!rows.isEmpty)
  streamRows w d p a.val (16 * blk) z mo (fun i b => rowScale d scales (k / 32) i b) 0 rows

def execMxStr (a b c : Reg) (n : Fin 256) (z mo : Bool) (blk : Fin 8) (s : State) : Host.Outcome State Fault Refusal :=
  let r : Raw := { l := 2, op := 0xD2, a, b, c, f := zmoF z mo }
  ordered true false 12 (mxStrBody r a b c n.val z mo blk.val) s
    [do let x ← strReads r b c n.val mo blk.val; pure x.granules]

/-- Element `e` of a rank-0 tensor. -/
def lineAt (e : Nat) : Pos := ⟨e, 0, 0, 0⟩

/-- The elements numbered `es` of a rank-0 tensor. -/
def readAt (d : Desc) : List Nat → Act (List Nat)
  | [] => pure []
  | e :: rest => do
    let x ← readElement d (lineAt e)
    let more ← readAt d rest
    pure (x :: more)

/-- The pointers are in range and do not decrease (R323). -/
def pointersGood (limit : Nat) : List Int → Bool
  | [] => true
  | [x] => 0 ≤ x && x ≤ limit
  | x :: y :: rest => 0 ≤ x && x ≤ y && pointersGood limit (y :: rest)

/-- The entries of a sparse row as terms: those that fall on the plane. -/
def sparseTerms (k i0 : Nat) (vals idxs : List Nat) : List Term :=
  (vals.zip idxs).filterMap fun (v, x) =>
    let at' := intValue .s32 x - (i0 : Int)
    if 0 ≤ at' ∧ at' < k then some (at'.toNat, v) else none

/-- Read and apply the rows of a sparse matrix: (row, first entry, entries). -/
def sparseRows (w : Plane) (dn dm : Desc) (i0 tile first : Nat) (z : Bool) : List (Nat × Nat × Nat) → Act Unit
  | [] => pure ()
  | (r, e, count) :: rest => do
    let idxs ← readAt dm (upFrom e count)
    let vals ← readAt dn (upFrom e count)
    let ts := sparseTerms (planeDepth w.fmt) i0 vals idxs
    modify fun s => onCore s (who s).core (streamRow w dn.fmt tile (first + r) z false ts fun _ => .one)
    sparseRows w dn dm i0 tile first z rest

def indexDesc (d : Desc) : Bool := d.rank == 0 && d.fmtCode == 9

/-- The descriptors of an `mx.gstr`, and the rows of pointers that it streams. -/
structure Sparse where
  vals : Desc
  idxs : Desc
  ptrs : Desc
  row0 : Nat
  rows : List Nat

/-- The pointers that are read: those of the rows, and the one after the last. -/
def Sparse.pointers (x : Sparse) : List Nat := if x.rows.isEmpty then [] else upFrom x.row0 (x.rows.length + 1)

/-- The checks of an `mx.gstr` up to those of its pointers. -/
def gstrReads (r : Raw) (b : Reg) (n m q blk : Nat) : Act Sparse := do
  needMain r
  let s ← get
  let w := activePlane (myCore s)
  let dn ← needDesc n fun d => d.rank == 0 && d.sk == 0 &&
    (if myTurn s then streamAccepted w.fmt d.fmtCode false else streamable d.fmtCode false)
  let dm ← needDesc m indexDesc
  let dp ← needDesc q fun d => indexDesc d && 16 * blk + d.tileRows ≤ 128
  let row0 := field (reg64 s b).toNat 63 32
  let x : Sparse := ⟨dn, dm, dp, row0, (upFrom 0 dp.tileRows).filter fun r => row0 + r + 1 < dp.size 0⟩
  checkElements dp permLD (x.pointers.map lineAt)
  pure x

/-- The entries between some pointers. -/
def entriesOf (ps : List Int) : List Pos :=
  (upFrom (ps.headD 0).toNat (ps.getLastD 0 - ps.headD 0).toNat).map lineAt

/-- The pointers, read, and the checks of the entries that they give. -/
def gstrPointers (q : Nat) (x : Sparse) : Act (List Int) := do
  let raw ← readAt x.ptrs x.pointers
  let ps := raw.map (intValue .s32)
  require (pointersGood (min (x.vals.size 0) (x.idxs.size 0)) ps && (ps.getLastD 0 - ps.headD 0).toNat ≤ 4096)
    causeDescriptor q
  checkElements x.idxs permLD (entriesOf ps)
  checkElements x.vals permLD (entriesOf ps)
  pure ps

def mxGstrBody (r : Raw) (a b : Reg) (n m q : Nat) (z : Bool) (blk : Nat) : Act Unit := do
  let x ← gstrReads r b n m q blk
  checkPin .mx
  takeTurn
  let s ← get
  let w := activePlane (myCore s)
  let i0 := field (reg64 s b).toNat 31 0
  waitForJob a.val (upFrom blk (ceilDiv x.ptrs.tileRows 16))
  let ps ← gstrPointers q x
  checkPlaneScales w n (!x.rows.isEmpty)
  let start (r : Nat) : Nat := (ps.getD r 0).toNat
  sparseRows w x.vals x.idxs i0 a.val (16 * blk) z (x.rows.map fun r => (r, start r, start (r + 1) - start r))

/-- The granules that an `mx.gstr` has checked: those of its pointers, and, once its turn has come, those of its entries. -/
def gstrChecks (r : Raw) (b : Reg) (n m q blk : Nat) : List (Act (List Nat)) :=
  [do
    let x ← gstrReads r b n m q blk
    pure (Reads.granules ⟨x.ptrs, x.pointers.map lineAt, []⟩),
  do
    let x ← gstrReads r b n m q blk
    takeTurn
    let ps ← gstrPointers q x
    pure (Reads.granules ⟨x.idxs, entriesOf ps, []⟩ ++ Reads.granules ⟨x.vals, entriesOf ps, []⟩)]

def execMxGstr (a b : Reg) (n m p : Fin 256) (z : Bool) (blk : Fin 8) (s : State) : Host.Outcome State Fault Refusal :=
  let r : Raw := { l := 2, op := 0xD3, a, b, f := bitF z }
  ordered true false 12 (mxGstrBody r a b n.val m.val p.val z blk.val) s (gstrChecks r b n.val m.val p.val blk.val)

/-! ### Row moves and clears (R325, R326) -/

/-- The tile row that a register names. -/
def tileRow (s : State) (c : Reg) : Nat := (reg64 s c).toNat % 128

/-- The halves of a row as lanes of two vector registers. -/
def lowHalf (row : BitVec 4096) : VReg := row.extractLsb' 0 2048
def highHalf (row : BitVec 4096) : VReg := row.extractLsb' 2048 2048

def accRdBody (r : Raw) (a b c : Reg) : Act Unit := do
  needMain r
  checkV a.val
  checkV (a.val + 1)
  takeTurn
  let s ← get
  let row := accRow (myCore s) b.val (tileRow s c)
  set (putV (a.val + 1) (highHalf row) (putV a.val (lowHalf row) s))

/-- The pairs of a row, the variances examined in column order. -/
def rowPairs (clamp : Bool) (means vars : BitVec 4096) : Except Nat (List (Nat × Pair) × Bool) :=
  eachLane (fun j => movedPair clamp ⟨accElem means j, accElem vars j⟩) columns false

def accRdMoBody (r : Raw) (a b c : Reg) : Act Unit := do
  needMain r
  checkE a.val
  checkE (a.val + 1)
  takeTurn
  let s ← get
  let t := tileRow s c
  match rowPairs (covClamp (me s)) (accRow (myCore s) b.val t) (accRow (myCore s) (b.val + 1) t) with
  | .error j => raiseVariance j
  | .ok (ps, clamped) =>
    let pairs := ps.map fun e => (e.2.mean, e.2.var)
    set (setClamped clamped
      (putE (a.val + 1) (fromMoments (pairs.drop 64)) (putE a.val (fromMoments (pairs.take 64)) s)))

def accWrBody (r : Raw) (a b c : Reg) : Act Unit := do
  needMain r
  checkV b.val
  checkV (b.val + 1)
  takeTurn
  let s ← get
  let t := tileRow s c
  waitForJob a.val [t / 16]
  set (onCore s (who s).core (setAccRow a.val t (vreg (me s) (b.val + 1) ++ vreg (me s) b.val)))

def accWrMoBody (r : Raw) (a b c : Reg) : Act Unit := do
  needMain r
  checkE b.val
  checkE (b.val + 1)
  takeTurn
  let s ← get
  let t := tileRow s c
  waitForJob a.val [t / 16]
  waitForJob (a.val + 1) [t / 16]
  let pair (j : Nat) : Pair := pairAt (ereg (me s) (if j < 64 then b.val else b.val + 1)) (j % 64)
  let means := rowOf (columns.map fun j => (pair j).mean)
  let vars := rowOf (columns.map fun j => (pair j).var)
  set (onCore s (who s).core fun k => setAccRow (a.val + 1) t vars (setAccRow a.val t means k))

def execAccRd (a b c : Reg) (mo : Bool) (s : State) : Host.Outcome State Fault Refusal :=
  ordered true false 12 ((if mo then accRdMoBody else accRdBody) { l := 2, op := 0xD4, a, b, c, f := moF mo } a b c) s
def execAccWr (a b c : Reg) (mo : Bool) (s : State) : Host.Outcome State Fault Refusal :=
  ordered true false 12 ((if mo then accWrMoBody else accWrBody) { l := 2, op := 0xD5, a, b, c, f := moF mo } a b c) s

/-- The row blocks of a mask. -/
def maskBlocks (mask : Nat) : List Nat := (upFrom 0 8).filter (bit mask)

/-- Every element of some row blocks of a tile becomes +0. -/
def clearBlocks (tile : Nat) (blocks : List Nat) (k : Core) : Core :=
  { k with acc := k.acc.filter fun (n, _) => !(n / 128 == tile && blocks.contains (n % 128 / 16)) }

def accClrBody (r : Raw) (a : Reg) (mask : Nat) : Act Unit := do
  needMain r
  takeTurn
  waitForJob a.val (maskBlocks mask)
  modify fun s => onCore s (who s).core (clearBlocks a.val (maskBlocks mask))

def execAccClr (a : Reg) (s : State) : Host.Outcome State Fault Refusal :=
  ordered true false 4 (accClrBody { l := 0, op := 0xD6, a } a 255) s
def execAccClrExt (a : Reg) (mask : Fin 256) (s : State) : Host.Outcome State Fault Refusal :=
  ordered true false 12 (accClrBody { l := 2, op := 0xD6, a } a mask.val) s

end Sys2Proof.Machine
end

