-- ==== Sys2Proof/Machine/Epilogue.lean ====
section
/-!
DEFINITION. The epilogue processor: its programs, its jobs, and the row that a job processes at one event (R214, R327 to
R332, R355, R356).
-/

namespace Sys2Proof.Machine

/-! ### Epilogue instructions (R327, R328) -/

def epOp (h : Nat) : Nat := field h 15 11
def epYD (h : Nat) : Nat := field h 10 8
def epYA (h : Nat) : Nat := field h 7 5
def epYB (h : Nat) : Nat := field h 4 2
def epM (h : Nat) : Nat := field h 1 0

/-- Which fields an operation uses: YD, YA, YB. -/
def epUses (op m : Nat) : Bool × Bool × Bool :=
  match op with
  | 0x01 => (true, false, false)
  | 0x02 | 0x03 | 0x04 | 0x05 | 0x06 | 0x07 => (true, true, true)
  | 0x08 | 0x09 | 0x0A | 0x0B | 0x0C | 0x0D => (true, true, false)
  | 0x0E | 0x0F => (true, true, true)
  | 0x10 => (true, false, true)
  | 0x11 | 0x12 => (true, true, false)
  | 0x13 => (true, true, true)
  | 0x14 => (true, true, m == 3)
  | 0x15 => (false, true, true)
  | _ => (false, false, false)

/-- The greatest modifier an operation takes. -/
def epMostM (op : Nat) : Nat := if op = 0x14 then 3 else if op = 0x01 ∨ op = 0x10 ∨ op = 0x15 then 1 else 0

/-- The operation reads a moment pair that YA names. -/
def readsPair (op m : Nat) : Bool := op == 0x11 || op == 0x12 || op == 0x13 || op == 0x14 || (op == 0x15 && m == 1)

/-- The operation writes a moment pair that YD names. -/
def writesPair (op : Nat) : Bool := op == 0x11 || op == 0x12 || op == 0x13

/-- A halfword is a legal epilogue instruction. -/
def epLegal (h : Nat) : Bool :=
  let op := epOp h
  let (d, a, b) := epUses op (epM h)
  op ≤ 0x15 && epM h ≤ epMostM op && (d || epYD h == 0) && (a || epYA h == 0) && (b || epYB h == 0) &&
    (op != 0x10 || epYB h ≤ 3) && (!readsPair op (epM h) || epYA h % 2 == 0) && (!writesPair op || epYD h % 2 == 0)

/-- The halfwords a row runs: those before the first `end`. -/
def epActive (p : List (BitVec 16)) : List (BitVec 16) := p.takeWhile fun h => epOp h.toNat != 0

/-! ### Loading a program (R329) -/

/-- The halfwords of a block, from its bytes. -/
def halfwords (n : Nat) (bs : List Byte) : List (BitVec 16) :=
  (upFrom 0 n).map fun i => BitVec.ofNat 16 (natOfBytes ((bs.drop (2 * i)).take 2))

/-- The status of a program: the first illegal halfword. -/
def programStatus (p : List (BitVec 16)) : Nat :=
  match firstAt (fun h : BitVec 16 => !epLegal h.toNat) p with
  | some i => 1 + i
  | none => 0

/-- The engine that reads through a register's capability. -/
def regActor (s : State) (n : Reg) : Actor := { descActor s (reg s n) with reg := n.val }

def epLoadBody (r : Raw) (a b : Reg) : Act Unit := do
  needMain r
  let s ← get
  let p := reg s b
  checked b.val (capCheck p (capAddr p) 4 permLD)
  checkPin .ep
  takeTurn
  if (myCore s).ep.job.isSome then hold .job
  let header ← readRange (regActor s b) (capAddr p) 4
  let word := natOfBytes header
  let count := word % 128
  if word ≥ 128 ∨ count = 0 ∨ count > 64 then modify (writeInt a 64 0x100)
  else
    checked b.val (capCheck p (capAddr p) (4 + 2 * count) permLD)
    let bs ← readRange (regActor s b) (capAddr p + 4) (2 * count)
    let prog := halfwords count bs
    if programStatus prog = 0 then
      modify fun s => onCore s (who s).core fun k => { k with ep := { k.ep with program := prog } }
    modify (writeInt a 64 (programStatus prog))

def execEpLoad (a b : Reg) (s : State) : Host.Outcome State Fault Refusal :=
  ordered false false 12 (epLoadBody { l := 2, op := 0xD8, a, b } a b) s

/-! ### Starting a job (R330) -/

def Job.out (j : Job) : Desc := ⟨j.desc.toNat, j.baseTag, j.scaleTag⟩

/-- The rows of a job. -/
def jobRows (first count : Nat) : List Nat := upFrom first (min (first + min count 128) 128 - first)

/-- The output format and origin obey R330. -/
def outputGood (d : Desc) (o0 : Nat) : Bool :=
  (d.fmtCode ≤ 10 || d.fmtCode == 12) && d.sk ≤ 1 && (d.sk == 0 || o0 % 32 == 0)

/-- Every store of a program suits the output format. -/
def storesGood (p : List (BitVec 16)) (fmt : Nat) : Bool :=
  p.all fun h => epOp h.toNat != 0x15 || ((epM h.toNat == 1) == (fmt == 12))

/-- The place of column 0 of a row in plane `k` of the output. -/
def outPlace (o0 o1 first t k : Nat) : Pos := ⟨o0, o1 + (t - first), k, 0⟩

/-- The output planes that a program stores to. -/
def storePlanes (p : List (BitVec 16)) : List Nat :=
  (p.filter fun h => epOp h.toNat == 0x15).map fun h => epYB h.toNat

/-- Where an `ldb` reads: its base and its address for row `t`. -/
def biasAt (bases : List Cap) (h t : Nat) : Cap × Nat :=
  let c := bases.getD (epYB h) Cap.null
  (c, (capAddr c + if epM h = 1 then 512 * t else 0) % 2 ^ 80)

/-- CapCheck of every range that the program's loads will use. -/
def checkBiases (d : Reg) (bases : List Cap) : List (Nat × Nat) → Act Unit
  | [] => pure ()
  | (h, t) :: rest => do
    let (c, va) := biasAt bases h t
    checked d.val (capCheck c va 512 permLD)
    checkBiases d bases rest

/-- The parameter block: scalars and bases; with D = 0, +0 and null. -/
def epParameters (d : Reg) : Act (List (BitVec 32) × List Cap) := do
  let s ← get
  if d.val = 0 then pure (List.replicate 8 0, List.replicate 4 Cap.null)
  else
    let va := capAddr (reg s d)
    let bs ← readRange (regActor s d) va 32
    let gs ← readGranules (regActor s d) (granulesFrom (va + 32) 4)
    pure ((upFrom 0 8).map fun i => BitVec.ofNat 32 (natOfBytes ((bs.drop (4 * i)).take 4)),
      gs.map fun (x, t) => ⟨t, BitVec.ofNat 128 x⟩)

/-- The parameters of an `ep.run`, read when it issued. -/
def issueParameters (d : Reg) : Act (List (BitVec 32) × List Cap) := do
  let s ← get
  match (standing (myCore s) (who s).slot).bind (·.parameters) with
  | some ps => pure ps
  | none => epParameters d

/-- Such an instruction waits in its place. -/
def withParameters (ps : List (BitVec 32) × List Cap) (h : Held) : Held := { h with parameters := some ps }

/-- The job's processor as it starts: a job without rows has ended (R331, R332, R355). -/
def startJob (j : Job) (e : Epilogue) : Epilogue :=
  { e with
    job := if (jobRows j.first j.count).isEmpty then none else some j
    jobs := e.jobs + 1, rows := 0, clamp := false, flush := 0, served := [] }

/-- The start of a job. Its output check looks at the `st` and `st.mo` before the program's end, its search for `ldacc.v` at all
of the program (DESIGN CHOICE, log 102). -/
def epRunBody (r : Raw) (a b c d : Reg) (n : Nat) (mo : Bool) (rnd : Option Rm) : Act Unit := do
  needMain r
  let x ← needDesc n fun _ => true
  let s ← get
  let p := reg s d
  if d.val ≠ 0 then
    checked d.val (capCheck p (capAddr p) 96 (permLD + permLC))
    if capAddr p % 16 ≠ 0 then raiseCap d.val .align
  checkPin .ep
  let ps ← issueParameters d
  let s ← get
  if behind (myCore s) (who s).slot then stop (.done (standHeld false false (withParameters ps) .engine s))
  if (myCore s).ep.job.isSome then stop (.done (standHeld false false (withParameters ps) .job s))
  let (scalars, bases) := ps
  let whole := (myCore s).ep.program
  require (mo || !whole.any fun h => epOp h.toNat == 1 && epM h.toNat == 1) causeIllegal r.baseWord
  let prog := epActive whole
  let o0 := field (reg64 s b).toNat 31 0
  let o1 := field (reg64 s b).toNat 63 32
  let first := field (reg64 s c).toNat 6 0
  let count := field (reg64 s c).toNat 15 8
  require (outputGood x o0 && storesGood prog x.fmtCode) causeDescriptor n
  let rows := jobRows first count
  let places := rows.flatMap fun t => (storePlanes prog).map fun k => outPlace o0 o1 first t k
  checkElements x permST (places.flatMap fun q => rowPlaces q 128)
  checkScales x permST (places.flatMap fun q => blockPlaces x q 128)
  checkBiases d bases
    ((prog.filter fun h => epOp h.toNat == 0x10).flatMap fun h => rows.map fun t => (h.toNat, t))
  let team := (teamUidOf s (who s)).getD 0
  let k := me s
  let job : Job :=
    { number := (myCore s).ep.jobs + 1, context := k.uid, team := team, domain := myDomain s, tile := a.val, moment := mo
      desc := BitVec.ofNat 512 x.bits, baseTag := x.baseTag, scaleTag := x.scaleTag, o0 := o0, o1 := o1, first := first
      count := count, next := 0, scalars := scalars, bases := bases, rm := modeOf k rnd, sat := roundSat k
      ftz := roundFtz k }
  modify fun s => onCore s (who s).core fun k => { k with ep := startJob job k.ep }

def execEpRun (a b c d : Reg) (n : Fin 256) (mo : Bool) (rnd : Option Rm) (s : State) :
    Host.Outcome State Fault Refusal :=
  ordered false false 12 (epRunBody { l := 2, op := 0xD9, a, b, c, f := moF mo } a b c d n.val mo rnd) s

/-! ### Waiting for a job (R331) -/

/-- The flag and the count of the last job reach the issuing context, once. -/
def takeJob (s : State) : State :=
  let e := (myCore s).ep
  if e.served.contains (me s).uid then s
  else
    let s := addFlushes e.flush (setClamped e.clamp s)
    onCore s (who s).core fun k => { k with ep := { k.ep with served := (me s).uid :: k.ep.served } }

def epWaitBody (r : Raw) (a : Reg) : Act Unit := do
  needMain r
  checkPin .ep
  takeTurn
  let s ← get
  let e := (myCore s).ep
  if e.job.isSome then hold .job
  match e.fault with
  | some t => raiseFrom t (onCore s (who s).core fun k => { k with ep := { k.ep with fault := none } })
  | none =>
    if e.jobs = 0 then set (writeInt a 64 0 s)
    else set (writeInt a 64 e.rows (takeJob s))

def execEpWait (a : Reg) (s : State) : Host.Outcome State Fault Refusal :=
  ordered false false 4 (epWaitBody { l := 0, op := 0xDA, a } a) s

/-! ### Column generators (R332) -/

/-- What draws from the job generators. -/
abbrev ColumnDraws (α : Type) := StateM (SMap (BitVec 128)) α

def columnSeed (core : Nat) (e : Epilogue) (j : Nat) : BitVec 128 := seedGen e.seed 0 core (12 + j / 64) (j % 64)

def drawColumn (seed : Nat → BitVec 128) (j : Nat) : ColumnDraws (BitVec 32) := do
  let m ← get
  let (g, w) := advanceGen (lookD m j (seed j))
  set (putD m j w (seed j))
  pure g

/-- A rounded element of column `j`. -/
def roundColumn (seed : Nat → BitVec 128) (f : Fmt) (r : Rounding) (j : Nat) (x : Number) : ColumnDraws Nat := do
  let g ← if r.mode = .sto then drawColumn seed j else pure 0
  pure (encodeTo f r g x)

def eachColumn (f : Nat → ColumnDraws Nat) : List Nat → ColumnDraws (List Nat)
  | [] => pure []
  | j :: rest => do
    let x ← f j
    let more ← eachColumn f rest
    pure (x :: more)

/-! ### The operations on a row (R328) -/

/-- What a job carries through a row: `y0` to `y7`, the generators, the clamp flag and the flush count. -/
structure RowRun where
  y : List (List Nat)
  gens : SMap (BitVec 128)
  clamp : Bool
  flush : Nat

def RowRun.row (x : RowRun) (i : Nat) : List Nat := x.y.getD i []
def RowRun.at (x : RowRun) (i j : Nat) : Nat := (x.row i).getD j 0
def RowRun.setRow (x : RowRun) (i : Nat) (r : List Nat) : RowRun := { x with y := setAt x.y i r }

/-- The exact result of an operation that rounds: yA, yB, the scalar and yD. -/
def epExact (op : Nat) (rdn : Bool) (a b k d : Number) : Option Number :=
  match op with
  | 0x02 => some (a.add rdn b)
  | 0x03 => some (a.sub rdn b)
  | 0x04 => some (a.mul b)
  | 0x05 => some (d.add rdn (a.mul b))
  | 0x0A => some (expNum a)
  | 0x0B => some (sigNum a)
  | 0x0C => some (tanhNum a)
  | 0x0D => some (rsqrtNum a)
  | 0x0E => some (a.mul k)
  | 0x0F => some (a.add rdn k)
  | _ => none

/-- The result of an operation that does not round. -/
def epChoice (op a b : Nat) : Nat :=
  match op with
  | 0x06 => floatMax .f32 a b
  | 0x07 => floatMin .f32 a b
  | 0x09 => floatMax .f32 a 0
  | _ => a

def collFormOf : Nat → CollForm
  | 0 => .mean | 1 => .var | 2 => .std | _ => .ksig

def jobScalar (j : Job) (h : Nat) : Nat := (j.scalars.getD (epYB h) 0).toNat

def jobMoments (j : Job) : MomentMode := ⟨j.ftz, true⟩

/-- A row of pairs, each computed under CLAMP = 1, and whether one was clamped. -/
def pairRow {α : Type} (f : Nat → Mom α) : List (Option (α × Bool)) := columns.map fun i => f i false

def anyClamped {α : Type} (ps : List (Option (α × Bool))) : Bool := ps.any fun p => match p with
  | some (_, hit) => hit
  | none => false

/-- The moment operation of an instruction. -/
def epMoments (j : Job) (h : Nat) (m v : Number) : Number × Number :=
  match epOp h with
  | 0x11 => reluMoments (jobMoments j) m v
  | 0x12 => sigMoments (jobMoments j) m v
  | _ => scaleMoments (jobMoments j) (f32 (jobScalar j h)) m v

/-- The pair of column `i` that YA names. -/
def RowRun.pair (x : RowRun) (h i : Nat) : Pair := ⟨x.at (epYA h) i, x.at (epYA h + 1) i⟩

/-- `mrelu`, `msig` and `mscl`. -/
def runMoments (j : Job) (h : Nat) (x : RowRun) : RowRun :=
  let ps := pairRow fun i => onePair (jobMoments j) (epMoments j h) (x.pair h i)
  let pick (f : Pair → Nat) : List Nat := ps.map fun p => match p with
    | some (q, _) => f q
    | none => 0
  { (x.setRow (epYD h) (pick (·.mean))).setRow (epYD h + 1) (pick (·.var)) with clamp := x.clamp || anyClamped ps }

/-- `mcoll`. -/
def runCollapse (j : Job) (h : Nat) (x : RowRun) : RowRun :=
  let ps := pairRow fun i => movedPair true (x.pair h i)
  let out := ps.map fun p => match p with
    | some (q, _) => collapsed (jobMoments j) (collFormOf (epM h)) (f32 (jobScalar j h)) 0 q
    | none => 0
  { x.setRow (epYD h) out with clamp := x.clamp || anyClamped ps }

/-- `ldacc` and `ldacc.v`. -/
def runLoadAcc (k : Core) (j : Job) (t h : Nat) (x : RowRun) : RowRun :=
  let row := accRow k (j.tile + epM h) t
  if epM h = 1 then
    let ps := pairRow fun i => takeVar true (accElem row i)
    let out := ps.map fun p => match p with
      | some (v, _) => v
      | none => 0
    { x.setRow (epYD h) out with clamp := x.clamp || anyClamped ps }
  else x.setRow (epYD h) (columns.map (accElem row))

/-- The operations that touch no memory. -/
def runOp (k : Core) (seed : Nat → BitVec 128) (j : Job) (t h : Nat) (x : RowRun) : RowRun :=
  let op := epOp h
  if op = 0x01 then runLoadAcc k j t h x
  else if op = 0x14 then runCollapse j h x
  else if writesPair op then runMoments j h x
  else
    let r : Rounding := { mode := j.rm, ftz := j.ftz }
    let num (i c : Nat) : Number := f32 (x.at i c)
    let (out, gens) := (eachColumn (fun c =>
      match epExact op (j.rm == .rdn) (num (epYA h) c) (num (epYB h) c) (f32 (jobScalar j h)) (num (epYD h) c) with
      | some v => roundColumn seed .f32 r c v
      | none => pure (epChoice op (x.at (epYA h) c) (x.at (epYB h) c))) columns).run x.gens
    { x.setRow (epYD h) out with gens := gens }

/-! ### Stores and loads of a row (R330, R356) -/

/-- The engine of a job. -/
def jobActor (core : Nat) (j : Job) (c : Cap) : Actor :=
  ⟨core, false, some j.team, j.context, hasPerm c permSY, 0, none, none⟩

/-- The store of one element: a four-bit element leaves the other nibble of its byte. -/
def storeElement (a : Actor) (d : Desc) (p : Pos) (x : Nat) : Act Unit := do
  let (va, n) := d.place p
  checked a.reg (capCheck d.base va n permST)
  if d.fmt.width = 4 then
    let (old, _) ← readPiece a va 1 rightST
    let o := natOfBytes old
    writeRange a va (bytesOf 1 (if d.offset p % 2 = 0 then o / 16 * 16 + x % 16 else o % 16 + x % 16 * 16))
  else writeRange a va (bytesOf n x)

def storeScale (a : Actor) (d : Desc) (p : Pos) (x : Nat) : Act Unit := do
  let (va, n) := d.scalePlace p
  checked a.reg (capCheck d.sbase va n permST)
  writeRange a va (bytesOf n x)

/-- The columns of a row that are stored. -/
def storedColumns (d : Desc) (p : Pos) : List Nat := columns.filter fun c => d.holds (p.along c)

/-- The values of block `b` among the columns stored. -/
def columnBlock (row : List Nat) (b : Nat) : List Number := ((row.drop (32 * b)).take 32).map f32

/-- An element of a row as the output format holds it; an FP32 element stays as it is, bit for bit (log 89). -/
def convertColumn (seed : Nat → BitVec 128) (j : Job) (row : List Nat) (c : Nat) : ColumnDraws Nat :=
  let d := j.out
  let f := d.fmt
  let r : Rounding := { mode := j.rm, ftz := j.ftz }
  let v := f32 (row.getD c 0)
  if d.sk = 1 then
    let s := mxScale f (columnBlock row (c / 32))
    if s = 255 then pure (mxNan f) else roundColumn seed f { r with sat := true } c (v.div (e8m0 s))
  else if f = .f32 then pure (row.getD c 0)
  else roundColumn seed f { r with sat := j.sat } c v

/-- The element stores of a run in column order; under MX, a block's scale before its elements. -/
def storeActs (core : Nat) (j : Job) (p : Pos) (row : List Nat) (cs : List (Nat × Nat)) : List (Act Unit) :=
  let d := j.out
  cs.flatMap fun (c, x) =>
    let element := storeElement (jobActor core j d.base) d (p.along c) x
    if d.sk = 1 ∧ c % 32 = 0 then
      [storeScale (jobActor core j d.sbase) d (p.along c) (mxScale d.fmt (columnBlock row (c / 32))), element]
    else [element]

/-- Run stores one after another; those before one that stops have taken effect. -/
def runStores : List (Act Unit) → State → Except (Stop × State) State
  | [], s => .ok s
  | a :: rest, s =>
    match a s with
    | .ok (_, t) => runStores rest t
    | .error e => .error (e, s)

/-- How a row ends. -/
inductive RowEnd
  | done (x : RowRun) (s : State)
  | faulted (t : Trap) (x : RowRun) (s : State)
  | stopped (e : Stop)

/-- A stop inside a row: a trap ends the job there, anything else leaves the row to a later event. -/
def rowStop (e : Stop) (x : RowRun) (s : State) : RowEnd :=
  match e with
  | .trap t => .faulted t x s
  | .hold w => .stopped (.hold w)
  | .done t => .stopped (.done t)
  | .poison key va => .stopped (.poison key va)
  | .walk page rights word => .stopped (.walk page rights word)
  | .fault f => .stopped (.fault f)

/-- What a `st` or `st.mo` stores of a row: (column, element), and the run after its conversions. A column outside the sizes is
neither read for the clamp flag nor converted, so it draws and counts nothing (DESIGN CHOICE, log 102). -/
def convertRow (seed : Nat → BitVec 128) (j : Job) (h : Nat) (cs : List Nat) (x : RowRun) : List (Nat × Nat) × RowRun :=
  if epM h = 1 then
    let ps := pairRow fun i => movedPair true (x.pair h i)
    let out := ps.map fun p => match p with
      | some (q, _) => q.mean + 2 ^ 32 * q.var
      | none => 0
    (cs.map fun c => (c, out.getD c 0),
      { x with clamp := x.clamp || anyClamped (cs.map fun c => ps.getD c none) })
  else
    let row := x.row (epYA h)
    let (out, gens) := (eachColumn (convertColumn seed j row) cs).run x.gens
    let es := cs.zip out
    let flushed := (es.filter fun (c, e) => flushedBy j.out.fmt (f32 (row.getD c 0)) e).length
    (es, { x with gens := gens, flush := min (x.flush + flushed) (2 ^ 32 - 1) })

/-- The 512 bytes of an `ldb` as 128 values. -/
def loadBias (core : Nat) (j : Job) (h t : Nat) : Act (List Nat) := do
  let (c, va) := biasAt j.bases h t
  checked 0 (capCheck c va 512 permLD)
  let bs ← readRange (jobActor core j c) va 512
  pure (columns.map fun i => natOfBytes ((bs.drop (4 * i)).take 4))

/-- The halfwords of a program on row `t`, in order. -/
def runRow (core : Nat) (seed : Nat → BitVec 128) (j : Job) (t : Nat) : List (BitVec 16) → RowRun → State → RowEnd
  | [], x, s => .done x s
  | w :: rest, x, s =>
    let h := w.toNat
    if epOp h = 0x10 then
      match loadBias core j h t s with
      | .ok (row, s') => runRow core seed j t rest (x.setRow (epYD h) row) s'
      | .error e => rowStop e x s
    else if epOp h = 0x15 then
      let p := outPlace j.o0 j.o1 j.first t (epYB h)
      let (es, x') := convertRow seed j h (storedColumns j.out p) x
      match runStores (storeActs core j p (x.row (epYA h)) es) s with
      | .ok s' => runRow core seed j t rest x' s'
      | .error (e, s') => rowStop e x' s'
    else runRow core seed j t rest (runOp (coreOf s core) seed j t h x) s

/-! ### The row event -/

/-- A row is complete; after the last one the job has ended. -/
def rowDone (j : Job) (x : RowRun) (e : Epilogue) : Epilogue :=
  let more := j.next + 1 < (jobRows j.first j.count).length
  { e with
    job := if more then some { j with next := j.next + 1 } else none
    asked := none, rows := j.next + 1, clamp := x.clamp, flush := x.flush, gens := x.gens }

/-- A fault stops the job at this row, and is recorded: the flag and the count stay as the rows before left them. -/
def rowFaulted (t : Trap) (x : RowRun) (e : Epilogue) : Epilogue :=
  { e with job := none, fault := some t, gens := x.gens, asked := none }

def execEpilogueRow (core : Nat) (s : State) : Host.Outcome State Fault Refusal :=
  let e := (coreOf s core).ep
  match e.job with
  | none => .next s
  | some j =>
    let start : RowRun := ⟨List.replicate 8 (List.replicate 128 0), e.gens, e.clamp, e.flush⟩
    match runRow core (columnSeed core e) j (j.first + j.next) (epActive e.program) start s with
    | .done x s' => .next (onCore s' core fun k => { k with ep := rowDone j x k.ep })
    | .faulted t x s' => .next (onCore s' core fun k => { k with ep := rowFaulted t x k.ep })
    | .stopped stop =>
      finishAsking ((funcOfTeam s (some j.team)).getD 0) j.domain (fun _ => .error stop)
        (fun n s => onCore s core fun k => { k with ep := { k.ep with asked := some n } }) s

end Sys2Proof.Machine
end

