-- ==== Sys2Proof/Machine/Sampler.lean ====
section
/-!
DEFINITION. The sampler, the token unit, drawn instructions, drafts, and the arrivals of collectives (R333 to R350, R353,
R459). The collectives complete at the event of their barrier network.
-/

namespace Sys2Proof.Machine

/-! ### Shards (R459) -/

def shardDesc (d : Desc) : Bool := d.fmtCode == 0 && d.sk == 0 && d.rank == 0

/-- The positions of a shard's logits. -/
def shardPlaces (d : Desc) : List Pos := (upFrom 0 (d.size 0)).map lineAt

/-- Token of logit `i`. -/
def tokenId (base i : Nat) : Nat := (base + i) % 2 ^ 32

def shardBase (s : State) (d : Reg) : Nat := field (reg64 s d).toNat 31 0

/-- A shard's descriptor with its element checks. -/
def needShard (n perm : Nat) : Act Desc := do
  let d ← needDesc n shardDesc
  checkElements d perm (shardPlaces d)
  pure d

/-- A result of the sampler: FP32 under RNE without FTZ. -/
def rounded (x : Number) : Number := stepped false x

/-- Each logit in ascending order: read, and written where `f` gives a new value. -/
def eachLogit (d : Desc) (f : Nat → Nat → Option Nat) : List Nat → Act Unit
  | [] => pure ()
  | i :: rest => do
    let x ← readElement d (lineAt i)
    match f i x with
    | none => pure ()
    | some y => do
      let s ← get
      storeElement (descActor s d.base) d (lineAt i) y
    eachLogit d f rest

/-! ### Records and statuses (R338) -/

/-- Status 2 or 3 of a key, or its record. -/
def admitted (key : Key) : Act (Except Nat Rec) := do
  match ← sequenceRecord key with
  | none => pure (.error 2)
  | some r => pure (if r.state = 2 then .ok r else .error 3)

/-- The sequence is bound to the issuing core. -/
def boundHere (s : State) (r : Rec) : Bool := r.bound && r.root == (who s).core

/-- σ (R341). -/
def sigmaOf (r : Rec) : Nat := (r.step + r.depth) % 2 ^ 32

/-- The engine that acts through a capability of the record. -/
def recordActor (s : State) (c : Cap) : Actor := descActor s c

def openDraft (s : State) (slot : Nat) : Draft := (draftOf s (myDomain s) slot).getD ⟨slot, [], []⟩

/-- Steps of a draft that took a token. -/
def heldCount (d : Draft) (v : Nat) : Nat := (d.steps.filter fun h => h.token.toNat == v).length

/-! ### Penalties, temperature and noise (R339 to R341) -/

/-- One penalised logit. -/
def penalised (alpha beta rho : Number) (n x : Nat) : Nat :=
  let y := rounded ((rounded ((f32 x).sub false alpha)).sub false (rounded (beta.mul (.ofInt n 0 false))))
  rne32 false (if Number.zero.less y then y.div rho else y.mul rho)

/-- The penalty counters of a shard's tokens; nothing where PEN refuses one. -/
def readCounters (c : Cap) (held : Nat → Nat) : List Nat → Act (Option (List Int))
  | [] => pure (some [])
  | v :: rest => do
    let va := capAddr c + 2 * v
    if (capCheck c va 2 permLD).isSome then pure none
    else
      let s ← get
      let bs ← readRange (recordActor s c) va 2
      let more ← readCounters c held rest
      pure (more.map ((signed 16 (natOfBytes bs) + held v) :: ·))

/-- The counter of a token holds at 32,767 (R344). -/
def heldAt (n : Int) : Int := min n 32767

def smpPenBody (a b c d : Reg) (n : Nat) : Act Unit := do
  let x ← needShard n (permLD + permST)
  needResident
  let key ← sequenceKey b
  let s ← get
  let v := (reg s c).bits.toNat
  let alpha := f32 (field v 31 0)
  let beta := f32 (field v 63 32)
  let rho := f32 (field v 95 64)
  let base := shardBase s d
  let status ← match ← admitted key with
    | .error st => pure st
    | .ok r => do
      if alpha.isNan || beta.isNan || rho.isNan || rho.less .one then pure 1
      else
        let held := heldCount (openDraft s key.seq)
        match ← readCounters r.pen (if r.draft then held else fun _ => 0) ((upFrom 0 (x.size 0)).map (tokenId base)) with
        | none => pure 9
        | some ns =>
          eachLogit x (fun i y =>
            let n := heldAt (ns.getD i 0)
            if 0 < n then some (penalised alpha beta rho n.toNat y) else none) (upFrom 0 (x.size 0))
          pure 0
  modify (writeInt a 64 status)

def execSmpPen (a b c d : Reg) (n : Fin 256) (s : State) : Host.Outcome State Fault Refusal :=
  slow 12 (smpPenBody a b c d n.val) s

/-- T is positive and finite. -/
def goodTemperature (t : Number) : Bool := t.isFinite && Number.zero.less t

def smpTempBody (a c : Reg) (n : Nat) : Act Unit := do
  let x ← needShard n (permLD + permST)
  needResident
  let s ← get
  let t := f32 (field (reg64 s c).toNat 31 0)
  if goodTemperature t then
    eachLogit x (fun _ y => some (rne32 false ((f32 y).div t))) (upFrom 0 (x.size 0))
    modify (writeInt a 64 0)
  else modify (writeInt a 64 1)

def execSmpTemp (a c : Reg) (n : Fin 256) (s : State) : Host.Outcome State Fault Refusal :=
  slow 12 (smpTempBody a c n.val) s

/-- The noise of a draw. -/
def gumbel (g : BitVec 32) : Number := rounded (lnNum (rounded (lnNum (uniformNum g)).negate)).negate

/-- One logit with its noise. -/
def noisy (seed : BitVec 64) (sigma v x : Nat) : Nat :=
  rne32 false ((f32 x).add false (gumbel (philoxWord seed (v % 64) sigma 0 (v / 64) 0)))

def smpGumBody (a b d : Reg) (n : Nat) : Act Unit := do
  let x ← needShard n (permLD + permST)
  needResident
  let key ← sequenceKey b
  let s ← get
  let base := shardBase s d
  let status ← match ← admitted key with
    | .error st => pure st
    | .ok r => do
      eachLogit x (fun i y => some (noisy (BitVec.ofNat 64 r.seed) (sigmaOf r) (tokenId base i) y)) (upFrom 0 (x.size 0))
      pure 0
  modify (writeInt a 64 status)

def execSmpGum (a b d : Reg) (n : Fin 256) (s : State) : Host.Outcome State Fault Refusal :=
  slow 12 (smpGumBody a b d n.val) s

/-! ### Arrivals of collectives (R316, R333) -/

def sumRedBody (a b : Reg) (op : SumOp) (fmt : Fmt) (sc : Scope) : Act Unit := do
  checkArrival sc
  arriveAt (.red a b op fmt sc)

def sumBcBody (a b : Reg) (sc : Scope) : Act Unit := do
  checkArrival sc
  arriveAt (.bc a b sc)

def smpTopBody (a d : Reg) (n : Nat) (sc : Scope) : Act Unit := do
  checkArrival sc
  let _ ← needShard n permLD
  needResident
  arriveAt (.top a d n sc)

def smpToppBody (a b c d : Reg) (n : Nat) (sc : Scope) : Act Unit := do
  checkArrival sc
  let _ ← needShard n permLD
  needResident
  let _ ← sequenceKey b
  arriveAt (.topp a b c d n sc)

def execSumRed (a b : Reg) (op : SumOp) (fmt : Fmt) (sc : Scope) (s : State) : Host.Outcome State Fault Refusal :=
  finish (sumRedBody a b op fmt sc) s
def execSumBc (a b : Reg) (sc : Scope) (s : State) : Host.Outcome State Fault Refusal := finish (sumBcBody a b sc) s
def execSmpTop (a d : Reg) (n : Fin 256) (sc : Scope) (s : State) : Host.Outcome State Fault Refusal :=
  finish (smpTopBody a d n.val sc) s
def execSmpTopp (a b c d : Reg) (n : Fin 256) (sc : Scope) (s : State) : Host.Outcome State Fault Refusal :=
  finish (smpToppBody a b c d n.val sc) s

/-! ### The tournament and the nucleus (R342, R343) -/

/-- A token of a shard: its identifier and its logit. -/
abbrev Logit := Nat × Nat

/-- `x` is beaten by `y`: NaN ranks below every number, and equal logits go to the lower identifier. -/
def beatenBy (x y : Logit) : Bool :=
  let a := f32 x.2
  let b := f32 y.2
  if a.isNan && b.isNan then y.1 < x.1
  else if a.isNan then true
  else if b.isNan then false
  else if a.less b then true
  else !b.less a && y.1 < x.1

def winner (xs : List Logit) : Nat := ((bestOf (fun y x => beatenBy x y) xs).map (·.1)).getD 0

/-- The greatest logit, NaN as −∞. -/
def greatestLogit (xs : List Logit) : Number :=
  xs.foldl (fun m x => if m.less (f32 x.2) then f32 x.2 else m) (.inf true)

/-- e_v. -/
def weightOf (m : Number) (x : Nat) : Nat :=
  let v := f32 x
  if v.isNan then 0
  else if v.compare m = some .eq then 0x3F800000
  else rne32 false (expNum (rounded (v.sub false m)))

/-- Insert by e descending, ties to the lower identifier. -/
def insertWeight (x : Logit) : List Logit → List Logit
  | [] => [x]
  | y :: rest => if y.2 < x.2 ∨ (y.2 = x.2 ∧ x.1 < y.1) then x :: y :: rest else y :: insertWeight x rest

/-- The running sums C_1, C_2, … after `c`. -/
def runningSums : Nat → List Logit → List Nat
  | _, [] => []
  | c, x :: rest =>
    let c := rne32 false ((f32 c).add false (f32 x.2))
    c :: runningSums c rest

/-- p clamped to [0, 1], a NaN as 0. -/
def clampP (p : Number) : Number :=
  if p.isNan then .zero else if p.less .zero then .zero else if Number.one.less p then .one else p

/-- The draw from the nucleus, as `cA`. -/
def nucleus (p : Number) (g : BitVec 32) (xs : List Logit) : Nat :=
  let m := greatestLogit xs
  if m = .inf true then 2 ^ 32 + (leastOf (xs.map (·.1))).getD 0
  else
    let order := (xs.map fun x => (x.1, weightOf m x.2)).foldl (fun l x => insertWeight x l) []
    let cs := runningSums 0 order
    let t := rne32 false ((clampP p).mul (f32 (cs.getLastD 0)))
    let c := (firstAt (fun x : Nat => !(f32 x).less (f32 t)) cs).getD (cs.length - 1)
    let tau := rne32 false ((uniformNum g).mul (f32 (cs.getD c 0)))
    let k := (firstAt (fun x : Nat => (f32 tau).less (f32 x)) (cs.take (c + 1))).getD c
    (c + 1) * 2 ^ 32 + (order.getD k (0, 0)).1

/-! ### Vocabulary maps and binding (R336, R337) -/

def unmapped : BitVec 32 := 0xFFFFFFFF

/-- A map slot of a core: every entry of an empty slot is unmapped. -/
def vocabOf (k : Core) (slot : Nat) : List (BitVec 32) := lookD k.vocab slot (List.replicate 32 unmapped)

/-- Some entry equals a later one. -/
def repeats : List (BitVec 32) → Bool
  | [] => false
  | x :: rest => rest.contains x || repeats rest

def mapStatus (m : List (BitVec 32)) : Nat :=
  let missing := ((upFrom 0 10) ++ [26, 27]).any fun i => m.getD i 0 == unmapped
  let extra := [29, 30, 31].any fun i => m.getD i 0 != unmapped
  if missing || extra then 3 else if repeats (m.filter (· != unmapped)) then 2 else 0

def tokMapBody (a b : Reg) (k : Nat) : Act Unit := do
  let s ← get
  let c := reg s b
  checked b.val (capCheck c (capAddr c) 128 permLD)
  needResident
  let bs ← readRange (regActor s b) (capAddr c) 128
  let m := (upFrom 0 32).map fun i => BitVec.ofNat 32 (natOfBytes ((bs.drop (4 * i)).take 4))
  if mapStatus m = 0 then modify fun s => onCore s (who s).core fun x => { x with vocab := put x.vocab k m }
  modify (writeInt a 64 (mapStatus m))

def execTokMap (a b : Reg) (k : Fin 16) (s : State) : Host.Outcome State Fault Refusal :=
  slow 12 (tokMapBody a b k.val) s

/-- BUSY of the decoder. -/
def decBusy (dec : Nat) : Bool := bit dec 4

/-- Entries of a forced queue. -/
def fqCount (fq : Nat) : Nat := field fq 2 0

def tokBindBody (a b c : Reg) : Act Unit := do
  needResident
  let key ← sequenceKey b
  let s ← get
  let slot := field (reg64 s c).toNat 3 0
  let status ← match ← admitted key with
    | .error st => pure st
    | .ok r => do
      if r.draft || decBusy r.dec || fqCount r.fq != 0 then pure 7
      else
        writeRecord (myEngine s) (myDomain s) key.seq (((r.set 74 64 (who s).core).set 47 44 slot).set 75 75 1)
        pure 0
  modify (writeInt a 64 status)

def execTokBind (a b c : Reg) (s : State) : Host.Outcome State Fault Refusal := slow 12 (tokBindBody a b c) s

/-! ### The decoder's state (R335, R353) -/

/-- What drawn instructions work on. -/
structure Drawn where
  opc : Nat
  busy : Bool
  argi : Nat
  qsel : Nat
  ival : Nat
  ndig : Nat
  count : Nat                                 -- of the entries in FQ
  fq : List Nat                               -- its six role codes, entry 0 first
  q : List Int
  satf : Bool
  errs : Nat                                  -- errors counted in this step
  ran : Bool                                  -- an instruction executed in this step
  scratch : List (Nat × BitVec 16)            -- halfwords written in this step, last first

/-- The state that a record holds. -/
def drawnOf (r : Rec) : Drawn :=
  let d := r.dec
  { opc := field d 3 0, busy := decBusy d, argi := field d 6 5, qsel := field d 9 7, ival := field d 24 10
    ndig := field d 27 25, count := fqCount r.fq
    fq := (upFrom 0 6).map fun i => field r.fq (4 * i + 7) (4 * i + 4)
    q := (upFrom 0 8).map fun i => signed 16 (r.qreg i), satf := r.satf, errs := 0, ran := false, scratch := [] }

def packDec (x : Drawn) : Nat :=
  x.opc + boolNat x.busy * 2 ^ 4 + x.argi * 2 ^ 5 + x.qsel * 2 ^ 7 + x.ival * 2 ^ 10 + x.ndig * 2 ^ 25

def packFq (x : Drawn) : Nat := x.count + 2 ^ 4 * packElems 4 x.fq

/-- The record with a state. -/
def drawnInto (x : Drawn) (r : Rec) : Rec :=
  let r := ((r.set 383 352 (packDec x)).set 511 448 (packFq x)).set 3 3 (boolNat x.satf)
  let r := r.set 639 512 (packElems 16 (x.q.map (wrap 16)))
  r.set 351 320 (min (r.errcnt + x.errs) (2 ^ 32 - 1))

/-- The role of a role code of FQ, as an entry of the map (R353). -/
def roleEntry (code : Nat) : Nat := if code < 10 then code else if code = 10 then 28 else 27

/-- The entry of the map that a token has. -/
def roleOf (m : List (BitVec 32)) (t : Nat) : Option Nat :=
  if t = 2 ^ 32 - 1 then none else firstAt (fun x : BitVec 32 => x.toNat == t) (m.take 29)

/-! ### Drawn instructions (R345, R347) -/

/-- An operand kind. -/
inductive Arg
  | q | i
deriving DecidableEq

def drawnArgs : Nat → List Arg
  | 0 => [.q, .i] | 7 => [.q, .i] | 11 => [.q, .i] | 12 => [.q, .i]
  | 8 => [.q] | 13 => [.q]
  | 15 => []
  | _ => [.q, .q]

def qAt (x : Drawn) (i : Nat) : Int := x.q.getD i 0

def setQ (x : Drawn) (i : Nat) (v : Int) : Drawn := { x with q := setAt x.q i v }

/-- Sat: clamps, and sets SATF when it clamps. -/
def satQ (x : Drawn) (i : Nat) (v : Int) : Drawn :=
  let x := setQ x i (max (-32768) (min 32767 v))
  if v < -32768 ∨ 32767 < v then { x with satf := true } else x

def divQ (x : Drawn) (d : Nat) (b : Int) : Drawn :=
  let a := qAt x d
  if b = 0 then { setQ x d (if 0 < a then 32767 else if a < 0 then -32768 else 0) with satf := true }
  else satQ x d (a.tdiv b)

def remQ (x : Drawn) (d : Nat) (b : Int) : Drawn :=
  let a := qAt x d
  if b = 0 then { setQ x d 0 with satf := true } else setQ x d (a - b * a.tdiv b)

/-- Decimal digits, most significant first. -/
def digitsOf : Nat → Nat → List Nat
  | 0, _ => []
  | fuel + 1, n => if n < 10 then [n] else digitsOf fuel (n / 10) ++ [n % 10]

/-- `emit`: nothing where the minus role is needed and unmapped. -/
def emitQ (m : List (BitVec 32)) (x : Drawn) (d : Nat) : Option Drawn :=
  let a := qAt x d
  if a < 0 ∧ m.getD 28 unmapped = unmapped then none
  else
    let roles := (if a < 0 then [10] else []) ++ digitsOf 6 a.natAbs
    some { x with count := roles.length, fq := (roles ++ List.replicate 6 0).take 6 }

def orderQ (a b : Int) : Int := if a < b then -1 else if a = b then 0 else 1

/-- Halfword `imm` of scratch: what this step or an earlier draft step wrote, else memory. -/
def scratchWord (c : Cap) (held : List (Nat × BitVec 16)) (imm : Nat) : Act Int := do
  match held.find? (·.1 == imm) with
  | some (_, v) => pure v.toInt
  | none => do
    let s ← get
    let bs ← readRange (recordActor s c) (capAddr c + 2 * imm) 2
    pure (signed 16 (natOfBytes bs))

/-- SCR refuses the window, or the halfword lies beyond it. -/
def scratchRefused (c : Cap) (imm : Nat) : Bool := (capCheck c (capAddr c) 256 (permLD + permST)).isSome || imm > 127

/-- An access that a drawn instruction makes: one that would trap is an error of the instruction (R254). -/
def attempt {α : Type} (m : Act α) : Act (Option α) := fun s =>
  match m s with
  | .ok (x, t) => .ok (some x, t)
  | .error (.trap _) => .ok (none, s)
  | .error (.hold w) => .error (.hold w)
  | .error (.done t) => .error (.done t)
  | .error (.poison k va) => .error (.poison k va)
  | .error (.walk p r i) => .error (.walk p r i)
  | .error (.fault f) => .error (.fault f)

/-- The effect of the instruction in OPC with its operands; nothing where its execution is an error. `held` are the
scratch halfwords that earlier draft steps wrote. -/
def drawnEffect (c : Cap) (m : List (BitVec 32)) (held : List (Nat × BitVec 16)) (x : Drawn) (qs : Nat) :
    Act (Option Drawn) := do
  let d := x.qsel
  let a := qAt x d
  let b := qAt x qs
  match x.opc with
  | 0 => pure (some (setQ x d x.ival))
  | 1 => pure (some (setQ x d b))
  | 2 => pure (some (satQ x d (a + b)))
  | 3 => pure (some (satQ x d (a - b)))
  | 4 => pure (some (satQ x d (a * b)))
  | 5 => pure (some (divQ x d b))
  | 6 => pure (some (remQ x d b))
  | 7 => pure (some (satQ x d (a + x.ival)))
  | 8 => pure (some (satQ x d (-a)))
  | 9 => pure (some (setQ x d (min a b)))
  | 10 => pure (some (setQ x d (max a b)))
  | 11 =>
    if scratchRefused c x.ival then pure none
    else
      let v ← attempt (scratchWord c (x.scratch ++ held) x.ival)
      pure (v.map (setQ x d))
  | 12 =>
    if scratchRefused c x.ival then pure none
    else pure (some { x with scratch := (x.ival, BitVec.ofInt 16 a) :: x.scratch })
  | 13 => pure (emitQ m x d)
  | 14 => pure (some (setQ x d (orderQ a b)))
  | _ => pure (some { x with satf := false })

/-- An error (R346): its role goes into entry COUNT of FQ (R353). -/
def drawnError (x : Drawn) : Drawn :=
  { x with count := x.count + 1, fq := setAt x.fq x.count 11, errs := x.errs + 1, busy := false }

/-- Execute, and go idle. -/
def execute (c : Cap) (m : List (BitVec 32)) (held : List (Nat × BitVec 16)) (x : Drawn) (qs : Nat) : Act Drawn := do
  match ← drawnEffect c m held x qs with
  | some y => pure { y with busy := false, ran := true }
  | none => pure (drawnError { x with ran := true })

/-- An idle decoder takes a token: an opcode role begins an instruction. -/
def beginDrawn (c : Cap) (m : List (BitVec 32)) (held : List (Nat × BitVec 16)) (role : Option Nat) (x : Drawn) :
    Act Drawn := do
  match role with
  | some o =>
    if 10 ≤ o ∧ o < 26 then
      let x := { x with opc := o - 10, argi := 0, ival := 0, ndig := 0, busy := true }
      if drawnArgs (o - 10) = [] then execute c m held x 0 else pure x
    else pure x
  | none => pure x

/-- A busy decoder takes a token as an operand: what it becomes, the second register operand, and whether the token
is handled again. -/
def takeOperand (role : Option Nat) (x : Drawn) : Drawn × Nat × Bool :=
  match (drawnArgs x.opc)[x.argi]? with
  | some .q =>
    match role with
    | some d =>
      if d < 8 then
        ({ x with qsel := if x.argi = 0 then d else x.qsel, argi := x.argi + 1 }, d, false)
      else if d < 10 then (drawnError x, 0, false)
      else (drawnError x, 0, true)
    | none => (drawnError x, 0, true)
  | some .i =>
    match role with
    | some d =>
      if d < 10 then
        if x.ndig = 5 ∨ x.ival * 10 + d > 32767 then (drawnError x, 0, false)
        else ({ x with ival := x.ival * 10 + d, ndig := x.ndig + 1 }, 0, false)
      else if d = 26 ∧ 1 ≤ x.ndig then ({ x with argi := x.argi + 1 }, 0, false)
      else (drawnError x, 0, true)
    | none => (drawnError x, 0, true)
  | none => (drawnError x, 0, true)

/-- The decoder takes a drawn token (R346). -/
def feed (c : Cap) (m : List (BitVec 32)) (held : List (Nat × BitVec 16)) (t : Nat) (x : Drawn) : Act Drawn := do
  let role := roleOf m t
  if x.busy then
    let (y, qs, again) := takeOperand role x
    if again then beginDrawn c m held role y
    else if y.busy ∧ y.argi = (drawnArgs y.opc).length then execute c m held y qs
    else pure y
  else beginDrawn c m held role x

/-- A forced step pops FQ: entries 1 to 5 move down one place, and entry 5 becomes 0 (R353). -/
def popFq (x : Drawn) : Drawn := { x with count := x.count - 1, fq := x.fq.drop 1 ++ [0] }

/-! ### `smp.step` (R344, R349) -/

/-- Fields that a held step leaves behind: NTOK, STEP, ERRCNT, DEC, FQ, the q registers and SATF. -/
def heldInto (r : Rec) (state : Nat) : Rec :=
  let r := (r.set 319 256 (field state 319 256)).set 383 320 (field state 383 320)
  ((r.set 511 448 (field state 511 448)).set 639 512 (field state 639 512)).set 3 3 (field state 3 3)

/-- The record as the last held step leaves it. -/
def heldRecord (r : Rec) (d : Draft) : Rec :=
  match d.steps.getLast? with
  | some h => heldInto r h.state.toNat
  | none => r

/-- The scratch halfwords of held steps, last first. -/
def heldScratch (d : Draft) : List (Nat × BitVec 16) := (d.steps.reverse).flatMap (·.scratch)

/-- Statuses 4 to 7 of a step. -/
def stepStatus (s : State) (r held : Rec) : Option Nat :=
  if !boundHere s r then some 4
  else if held.ntok = 2 ^ 32 - 1 then some 6
  else if held.ntok ≥ r.rlen then some 5
  else if r.draft && r.depth ≥ 8 then some 7
  else none

def tokenAt (r : Rec) (n : Nat) : Nat := capAddr r.tok + 4 * n
def counterAt (r : Rec) (t : Nat) : Nat := capAddr r.pen + 2 * t

/-- TOK and PEN permit a step's accesses. -/
def stepPermitted (r : Rec) (n t : Nat) : Bool :=
  (capCheck r.tok (tokenAt r n) 4 permST).isNone && (capCheck r.pen (counterAt r t) 2 (permLD + permST)).isNone

/-- A token is appended and its counter raised, holding at 32,767. -/
def commitToken (r : Rec) (n t : Nat) : Act Unit := do
  let s ← get
  checked 0 (capCheck r.tok (tokenAt r n) 4 permST)
  writeRange (recordActor s r.tok) (tokenAt r n) (bytesOf 4 t)
  checked 0 (capCheck r.pen (counterAt r t) 2 (permLD + permST))
  let bs ← readRange (recordActor s r.pen) (counterAt r t) 2
  writeRange (recordActor s r.pen) (counterAt r t) (bytesOf 2 (wrap 16 (heldAt (signed 16 (natOfBytes bs) + 1))))

/-- Halfwords reach the scratch window, oldest first. -/
def commitScratch (c : Cap) : List (Nat × BitVec 16) → Act Unit
  | [] => pure ()
  | (i, v) :: rest => do
    commitScratch c rest
    let s ← get
    writeRange (recordActor s c) (capAddr c + 2 * i) (bytesOf 2 v.toNat)

/-- The result word of a step that ran. -/
def stepWord (status t : Nat) (r : Rec) (x : Drawn) : Nat :=
  t + status * 2 ^ 32 + boolNat (x.count != 0) * 2 ^ 40 + boolNat (x.errs != 0 && r.upe) * 2 ^ 41 +
    boolNat x.satf * 2 ^ 42 + boolNat x.ran * 2 ^ 43

/-- A step: the result word. A forced role that the bound map slot leaves unmapped gives the token 0xFFFF_FFFF (DESIGN CHOICE,
log 118). -/
def stepSequence (key : Key) (r : Rec) (token : Nat) : Act Nat := do
  let s ← get
  let dom := myDomain s
  let draft := openDraft s key.seq
  let held := if r.draft then heldRecord r draft else r
  match stepStatus s r held with
  | some st => pure (st * 2 ^ 32)
  | none =>
    let m := vocabOf (myCore s) r.mapSlot
    let x := drawnOf held
    let forced := x.count != 0
    let t := if forced then (m.getD (roleEntry (x.fq.headD 0)) unmapped).toNat else token
    if !stepPermitted r held.ntok t then pure (9 * 2 ^ 32)
    else
      let y ← if forced then pure (popFq x)
        else feed r.scr m (if r.draft then heldScratch draft else []) t x
      let next := drawnInto y ((held.set 287 256 (held.ntok + 1)).set 319 288 (held.step + 1))
      if r.draft then
        writeRecord (myEngine s) dom key.seq (r.set 15 8 (r.depth + 1))
        modify fun s => setDraft s dom
          { draft with steps := draft.steps ++ [⟨BitVec.ofNat 32 t, BitVec.ofNat 2048 next.bits, y.scratch⟩] }
        pure (stepWord 1 t r y)
      else
        commitToken r held.ntok t
        match ← attempt (commitScratch r.scr y.scratch) with
        | some () => do
          writeRecord (myEngine s) dom key.seq next
          pure (stepWord 0 t r y)
        | none => do
          let z := drawnError { y with q := x.q, satf := x.satf, scratch := [] }
          writeRecord (myEngine s) dom key.seq
            (drawnInto z ((held.set 287 256 (held.ntok + 1)).set 319 288 (held.step + 1)))
          pure (stepWord 0 t r z)

/-- `smp.step` for the bits of a key and a token: the key is that of a whole sequence (R303). -/
def stepKey (bits token : Nat) : Act Nat := do
  let key ← wholeKey bits
  match ← admitted key with
  | .error st => pure (st * 2 ^ 32)
  | .ok r => stepSequence key r token

def smpStepBody (a b c : Reg) : Act Unit := do
  needResident
  let s ← get
  let v ← stepKey (reg s b).bits.toNat (field (reg64 s c).toNat 31 0)
  modify (writeInt a 64 v)

def execSmpStep (a b c : Reg) (s : State) : Host.Outcome State Fault Refusal := slow 12 (smpStepBody a b c) s

/-! ### Drafts (R348, R350) -/

/-- Bytes of a row: 32,768 / P. -/
def draftRow (r : Rec) : Nat := 32768 / 2 ^ r.logp

def smpDraftBody (a b c : Reg) : Act Unit := do
  let s ← get
  let ovl := reg s c
  if isView ovl then raiseView c 1
  needResident
  let key ← sequenceKey b
  let status ← match ← admitted key with
    | .error st => pure st
    | .ok r => do
      if !boundHere s r then pure 4
      else if r.draft then pure 7
      else if (capCheck ovl (capAddr ovl) (16 * r.nl * draftRow r) (permLD + permST)).isSome then pure 9
      else
        writeRecord (myEngine s) (myDomain s) key.seq (((r.setOvl ovl).set 2 2 1).set 15 8 0)
        modify fun s => setDraft s (myDomain s) ⟨key.seq, [], []⟩
        pure 0
  modify (writeInt a 64 status)

def execSmpDraft (a b c : Reg) (s : State) : Host.Outcome State Fault Refusal := slow 12 (smpDraftBody a b c) s

/-- The tokens and scratch writes of accepted steps take effect in order, from position `n`. -/
def acceptSteps (r : Rec) : Nat → List HeldStep → Act Unit
  | _, [] => pure ()
  | n, h :: rest => do
    commitToken r n h.token.toNat
    commitScratch r.scr h.scratch
    acceptSteps r (n + 1) rest

/-- The block of a position. -/
def blockOf (r : Rec) (p : Nat) : Nat := p / 2 ^ r.logp

/-- (layer, block) pairs of rows that need a page of the reservation. -/
def draftPages (a : Actor) (dom : Nat) (r : Rec) : List HeldRow → List (Nat × Nat) → Act (List (Nat × Nat))
  | [], found => pure found
  | h :: rest, found => do
    let at' := (h.layer, blockOf r h.position)
    if found.contains at' then draftPages a dom r rest found
    else
      let e ← readMap a r h.layer (blockOf r h.position)
      let s ← get
      let shared := match entryPage s dom e with
        | some i => kvCount (domainOf s dom) i > 1
        | none => false
      draftPages a dom r rest (if isNull e || shared then at' :: found else found)

/-- One held row is read from the overlay and written into its page: the record after it. -/
def acceptRow (a : Actor) (dom slot : Nat) (ovl : Cap) (pos : Nat) (r : Rec) (h : HeldRow) : Act Rec := do
  let w := draftRow r
  let va := capAddr ovl + 2 * ((h.position - pos) * r.nl + h.layer) * w
  checked 0 (capCheck ovl va (2 * w) permLD)
  let kRow ← readRange a va w
  let vRow ← readRange a (va + w) w
  match ← pageForAppend a dom slot r h.layer (blockOf r h.position) none with
  | .exhausted => pure r
  | .at _ page used => do
    writeRows a page h.position w kRow vRow
    let r := if used then r.set 255 224 (r.q - 1) else r
    pure (r.set 159 128 (max r.pos (h.position + 1)))

def acceptRows (a : Actor) (dom slot : Nat) (ovl : Cap) (pos : Nat) : Rec → List HeldRow → Act Rec
  | r, [] => pure r
  | r, h :: rest => do
    let r ← acceptRow a dom slot ovl pos r h
    acceptRows a dom slot ovl pos r rest

/-- The draft of a slot is closed. -/
def closeDraft (r : Rec) : Rec := ((r.set 2 2 0).set 15 8 0).setOvl Cap.null

/-- `smp.ver` on a record: its status. -/
def verifyDraft (key : Key) (r : Rec) (word : Nat) : Act Nat := do
  let s ← get
  let dom := myDomain s
  let a := word % 16
  if !boundHere s r then pure 4
  else if word / 16 ≠ 0 then pure 1
  else if !r.draft then pure 7
  else if a > r.depth then pure 8
  else
    let draft := openDraft s key.seq
    let steps := draft.steps.take a
    let last := heldRecord r { draft with steps := steps }
    let rows := if a = 0 then [] else draft.rows.filter fun h => h.position < last.ntok
    let needed ← draftPages (myEngine s) dom r rows []
    if needed.length > r.q then pure 10
    else
      acceptSteps r r.ntok steps
      let done ← acceptRows (myEngine s) dom key.seq r.ovl r.pos last rows
      writeRecord (myEngine s) dom key.seq (closeDraft done)
      modify fun s => dropDraft s dom key.seq
      pure 0

def smpVerBody (a b c : Reg) : Act Unit := do
  needResident
  let key ← sequenceKey b
  let s ← get
  let word := (reg64 s c).toNat
  let status ← match ← admitted key with
    | .error st => pure st
    | .ok r => verifyDraft key r word
  modify (writeInt a 64 status)

def execSmpVer (a b c : Reg) (s : State) : Host.Outcome State Fault Refusal := slow 12 (smpVerBody a b c) s

end Sys2Proof.Machine
end

