-- ==== Sys2Proof/Machine/Fetch.lean ====
section
/-!
DEFINITION. The barrel and instruction fetch: which slot issues, what it fetches, and what a fetch unit delivers (R14,
R15, R20, R160, R195, R218).
-/

namespace Sys2Proof.Machine

/-! ### The issue selector -/

/-- The system context has work: a run, or a trap of its own that has not ended. -/
def systemBusy (k : Core) : Bool := k.trapOpen || k.run != .idle

/-- A context is ready (R14); the system context only while it has work. One that is being pre-empted goes on with the access
that it has begun (R52). -/
def ready (k : Core) (slot : Nat) (x : Context) : Bool :=
  x.status == .live && x.wait == .none && (!x.preempt || x.holding) && x.fetched && (slot != 11 || systemBusy k)

/-- It is ready and its turn interval has passed (R15, R237). -/
def eligible (k : Core) (slot : Nat) : Bool :=
  match look k.slots slot with
  | none => false
  | some x => ready k slot x && x.readyAt ≤ k.cycle

/-- The rotation from the slot after the one that issued last. -/
def rotation (last : Nat) : List Nat := (upFrom 1 12).map fun i => (last + i) % 12

/-- The slot that issues in this cycle. -/
def select (k : Core) : Option Nat := if k.started then (rotation k.last).find? (eligible k) else none

/-- The lookup that the refill handler has returned to, while the context still stands at it or in a handler (R146). -/
def stillAt (x : Context) : Option (BitVec 128 × Nat) :=
  match x.refilled with
  | some (key, at') => if x.handler.active || at' == capAddr x.code then some (key, at') else none
  | none => none

/-- A slot issues: it is the last to have issued, its turn interval begins, and its next instruction is to be fetched. -/
def issueSlot (s : State) (c slot : Nat) : State :=
  let k := coreOf s c
  let s := onCore s c fun k => { k with last := slot }
  onCtx s ⟨c, slot⟩ fun x =>
    { x with readyAt := k.cycle + 8, fetched := false, fetchSince := k.cycle, holding := false, refilled := stillAt x }

/-! ### Fetch -/

/-- The fetches of a context are made for its team, under the grants that EX needs. -/
def fetchActorOf (s : State) (id : CtxId) (word : Nat) : Actor :=
  ⟨id.core, false, teamUidOf s id, (ctxOf s id).uid, hasPerm (ctxOf s id).code permSY, 0, some word, none⟩

def fetchActor (s : State) (word : Nat) : Actor := fetchActorOf s (who s) word

/-- A word as memory gives it now, of a stable page too (R160), with the generation of the leaf that its line is filled under
(R411). -/
def freshWord (i va : Nat) : Act CodeCopy := do
  let s ← get
  let a := fetchActor s i
  if va ≥ trustBase then
    let (bs, _) ← readPiece a va 4 rightEX
    pure ⟨BitVec.ofNat 32 (natOfBytes bs), 0⟩
  else
    beforeCaches a va rightEX
    comeTo a va false
    let p ← locate a va 4 rightEX
    let (bs, _) ← loadAt p va 4 []
    pure ⟨BitVec.ofNat 32 (natOfBytes bs), BitVec.ofNat 32 (leafGen p.leaf.entry.toNat)⟩

/-- Word `i` of the instruction at the program counter (R195, R218): from memory, or from a copy that the context still
holds where it differs (R160). -/
def fetchWord (i : Nat) : Act CodeCopy := do
  let s ← get
  let va := pc s + 4 * i
  match capCheck (me s).code va 4 permEX with
  | some sub => raise causeFetch (sub.code + 8 * i)
  | none => pure ()
  let fresh ← freshWord i va
  match look (me s).copies va with
  | none => pure fresh
  | some old => pure (if old = fresh then fresh else if pick s va 2 = 0 then fresh else old)

def fetchWords : List Nat → Act (List Byte)
  | [] => pure []
  | i :: rest => do
    let w ← fetchWord i
    let more ← fetchWords rest
    pure (bytesOf 4 w.word.toNat ++ more)

/-- Every word of the instruction at the program counter, as its L field asks; `%gen` becomes the generation that its first
word was filled under (R78, R411). -/
def fetchBytes : Act (List Byte) := do
  let w ← fetchWord 0
  let more ← fetchWords (upFrom 1 (classBytes (Fin.ofNat 4 w.word.toNat) / 4 - 1))
  modify fun s => onMe s fun x => { x with gen := w.gen }
  pure (bytesOf 4 w.word.toNat ++ more)

/-- The first word of fetched bytes. -/
def firstWordOf (bs : List Byte) : Nat := natOfBytes (bs.take 4)

/-- The instruction that is fetched again is held in its place, and completes before its context is saved (R351). -/
def keepsPlace (s : State) : Bool := (standing (myCore s) (who s).slot).any (·.keeps)

/-- Fetch and decode: the instruction and the state after the fetch, or the outcome of a fetch that fails (R194). -/
noncomputable def fetchInstr (s : State) : Instr × State ⊕ Host.Outcome State Fault Refusal :=
  match fetchBytes s with
  | .ok (bs, t) =>
    match decode bs with
    | .ok (i, _) => .inl (i, t)
    | .error _ => .inr (finish (raise causeIllegal (firstWordOf bs)) t)
  | .error (.hold w) => .inr (.next (onMe s fun x => { x with wait := w, holding := keepsPlace s }))
  | .error e => .inr (finish (stop e) s)

/-! ### The fetch unit (R20) -/

/-- The cores of a fetch unit: quads 0 to 287, then one unit for each basecamp core. -/
def unitCores (unit : Nat) : List Nat := if unit < 288 then upFrom (4 * unit) 4 else [1152 + (unit - 288)]

/-- A request of a context: where it stands, the program counter it asks for, the generation that its line is filled under
(R378, R411), and its waiting time. -/
structure FetchRequest where
  id : CtxId
  pc : Nat
  gen : Option Nat
  waited : Nat

/-- Copies of the words of the line at `va` under a translation, as the device sees them. -/
def lineCopies (s : State) (t : Translation) (va : Nat) : SMap CodeCopy :=
  let line := va / 256 * 256
  let e := t.entry.toNat
  (upFrom 0 64).map fun i =>
    let pa := placeOf t (line + 4 * i)
    (line + 4 * i,
      ⟨BitVec.ofNat 32 (natOfBytes (throughPending s.pending pa (s.memory.readKeyed (leafKey e) pa 4))),
        BitVec.ofNat 32 (leafGen e)⟩)

/-- The fill of the line at `va` for a context, as an access of it: its translation and the copies of its words. A line is
filled only from a page that may be executed, which no channel owns and no poison is in (R130, R411, R453). -/
def fillLine (id : CtxId) (va : Nat) : Act (Translation × SMap CodeCopy) := do
  let line := va / 256 * 256
  let s ← get
  if lineOwned s line then hold (.line line)
  if inScrub s line then hold (.scrubbed line)
  let p ← locate (fetchActorOf s id 0) line 256 rightEX
  reach p.pa 256 line false
  pure (p.leaf, lineCopies (← get) p.leaf va)

/-- The generation that a line is filled under for a context; none where it is not filled. -/
def lineGen (s : State) (id : CtxId) (va : Nat) : Option Nat :=
  match fillLine id va s with
  | .ok (l, _) => some (leafGen l.1.entry.toNat)
  | .error _ => none

/-- The requests of a fetch unit. -/
def fetchRequests (s : State) (unit : Nat) : List FetchRequest :=
  (unitCores unit).flatMap fun c =>
    let k := coreOf s c
    (k.slots.filter fun (n, x) =>
      x.status == .live && x.wait == .none && !x.fetched && (n != 11 || systemBusy k)).map fun (n, x) =>
      ⟨⟨c, n⟩, capAddr x.code, lineGen s ⟨c, n⟩ (capAddr x.code), k.cycle - x.fetchSince⟩

/-- The request that is served: one that has waited 32 cycles or more before all younger ones, the oldest first; else the
lowest counter. -/
def betterRequest (a b : FetchRequest) : Bool :=
  if (a.waited ≥ 32 ∨ b.waited ≥ 32) ∧ a.waited ≠ b.waited then a.waited > b.waited else a.pc < b.pc

def bestRequest : List FetchRequest → Option FetchRequest
  | [] => none
  | r :: rest => match bestRequest rest with
    | none => some r
    | some b => if betterRequest b r then some b else some r

/-- Deliver copies to one context. -/
def deliverLine (copies : SMap CodeCopy) (s : State) (id : CtxId) : State :=
  onCtx s id fun x =>
    { x with fetched := true, copies := copies.foldl (fun m e => put m e.1 e.2) x.copies }

/-- One delivery of a fetch unit: every context that waits for the same program counter under the same generation receives
it. A line that is not filled delivers nothing: the context's own access meets what stands in the way. -/
def serveFetch (s : State) (unit : Nat) : State :=
  match bestRequest (fetchRequests s unit) with
  | none => s
  | some r =>
    let ids := ((fetchRequests s unit).filter fun q => q.pc == r.pc && q.gen == r.gen).map (·.id)
    match fillLine r.id r.pc s with
    | .error _ => ids.foldl (deliverLine []) s
    | .ok (l, t) => ids.foldl (deliverLine l.2) t

end Sys2Proof.Machine
end

