-- ==== Sys2Proof/Machine/Messages.lean ====
section
/-!
DEFINITION. Active messages at their sender, and migration to and from the basecamp cores (R166 to R169, R308 to R313,
R412).
-/

namespace Sys2Proof.Machine

/-! ### Sends (R308 to R310) -/

def raiseMessage {α : Type} (condition : Nat) : Act α := raise causeMessage condition

/-- The destination word names a core of the team, on a package of its pod set. -/
def reachable (s : State) (dest : Nat) : Bool :=
  match teamOf s (who s) with
  | none => false
  | some t => dest < 2 ^ 24 && t.cores.contains (dest % 65536) && (dest / 65536 == s.pkg.toNat ||
      t.podset.contains (dest / 65536))

/-- The conditions 1, 2 and 3 of R310, in this order where several hold (DESIGN CHOICE, log 107). -/
def checkSend (b c d : Reg) : Act Unit := do
  let s ← get
  let dest := (reg64 s d).toNat
  let h := reg s b
  if !reachable s dest then raiseMessage 1
  if !(h.tag && isSealed h && hasPerm h permEX) then raiseMessage 2
  if dest / 65536 ≠ s.pkg.toNat ∧ (arguments s c).any isView then raiseMessage 3

/-- The arrival queue of a core has no room. -/
def inboxFull (k : Core) : Bool := !(k.inbox.length ≤ Config.inboxRoom)

/-- The message goes out: accepted by the arrival queue of a core, or on its way to another package. -/
def sendMessage (b c d : Reg) (s : State) : Nat × State :=
  let dest := (reg64 s d).toNat
  let here := dest / 65536 = s.pkg.toNat
  let args := arguments s c
  let (n, s) := freshNumber s
  let m : Message :=
    { number := n, package := s.pkg.toNat, sender := who s, uid := (me s).uid, team := (teamUidOf s (who s)).getD 0
      handler := reg s b, args := if here then args else args.map untagged }
  let s := onMe (moveViews s c) fun x => { x with sent := x.sent ++ [(n, dest)] }
  if here then (n, postArrival s (dest % 65536) (who s).core (.message m))
  else (n, { s with outbox := s.outbox ++ [(dest / 65536, dest % 65536, m)] })

/-- Earlier messages and transfers of the context that a release or full send waits for (R167). -/
def sendsPending (s : State) (id : CtxId) : Bool :=
  !(ctxOf s id).sent.isEmpty || (ctxOf s id).transfers.any fun t => transferLive s t.2

/-- A full send that has gone out: its own acknowledgement decides, and a failed one is raised at the send, although its message
was accepted (DESIGN CHOICE, log 110). -/
def ownAnswered (a : Reg) (n : Nat) : Act Unit := do
  let s ← get
  if (me s).sent.any (·.1 == n) then hold (.ownAck n)
  let s := onMe s fun x => { x with own := none }
  match (me s).failures.find? (·.1 == n) with
  | some f =>
    raiseFrom ⟨causeMessage, f.2.2, 0⟩ (onMe s fun x => { x with failures := x.failures.filter (· != f) })
  | none => set (writeInt a 64 0 s)

def sendBody (a b c d : Reg) (ord : Order) : Act Unit := do
  let s ← get
  match (me s).own with
  | some n => ownAnswered a n
  | none =>
    checkSend b c d
    if ord ≠ .plain then
      if sendsPending s (who s) then hold .acks
      raiseFailure fun _ => true
    let dest := (reg64 s d).toNat
    if dest / 65536 = s.pkg.toNat ∧ inboxFull (coreOf s (dest % 65536)) then hold (.inbox (dest % 65536))
    let (n, t) := sendMessage b c d s
    if ord = .full then stop (.done (onMe t fun x => { x with own := some n, wait := .ownAck n }))
    set (writeInt a 64 0 t)

def execMsgSend (a b c d : Reg) (ord : Order) (s : State) : Host.Outcome State Fault Refusal :=
  slow 12 (sendBody a b c d ord) s

/-! ### Migration (R311 to R313) -/

def raiseMigration {α : Type} (condition : Nat) : Act α := raise causeMigration condition

/-- The basecamp core that serves a device physical address (R412). -/
def servingCore (pa : Nat) : Nat :=
  let g := field pa 47 16
  let sigma := (field g 3 0).xor (field g 12 9)
  1152 + 64 * (sigma / 2) + 32 * (sigma % 2) + field g 8 4

/-- What stands in the home slot of a context that has migrated: its kind counts there still (R40). -/
def awayFrom (x : Context) : Context := { status := .away, uid := machineUid, kind := x.kind }

/-- The issuing context leaves its slot: its home slot stays reserved, a basecamp slot becomes free. -/
def leaveSlot (s : State) (id : CtxId) : State :=
  onCore s id.core fun k =>
    if isBasecamp id.core then
      { k with
        slots := drop k.slots id.slot
        posmap := k.posmap.filter fun (_, e) => e.owner != (ctxOf s id).uid }
    else { k with slots := put k.slots id.slot (awayFrom (ctxOf s id)) }

/-- The context stands in another slot, its position map empty, out of the rotation until its move completes (R53). -/
def arriveIn (s : State) (x : Context) (id : CtxId) (home : Option CtxId) : State :=
  setCtx s id
    { mapEmptied x with
      home := home, wait := .plain, fetched := false, fetchSince := (coreOf s id.core).cycle
      readyAt := (coreOf s id.core).cycle }

/-- The issuing context moves to `target`, with its status written. -/
def moveTo (target : CtxId) (s : State) : State :=
  let id := who s
  let x := me s
  arriveIn (leaveSlot s id) x target (some (homeOf x id))

def checkMigration (b : Reg) : Act Place := do
  let s ← get
  let c := reg s b
  checked b.val (capCheck c (capAddr c) 1 permLD)
  if isLeader (me s) ∨ (who s).slot = 11 then raiseMigration 1
  if (me s).pin ≠ .none then raiseMigration 2
  let a : Actor := { memActor s b plainX with served := false }
  checkGrant a (capAddr c) rightLD
  let p ← locate a (capAddr c) 1 rightLD
  if p.hostHomed then raiseMigration 3
  pure p

/-- The move of a context, to the lowest free user slot of its target (DESIGN CHOICE, log 101). -/
def migBody (a b : Reg) : Act Unit := do
  let p ← checkMigration b
  let s ← get
  let target := servingCore p.pa
  if target = (who s).core then set (writeInt a 64 0 s)
  else
    match lowestFree (coreOf s target) with
    | none => set (writeInt a 64 1 s)
    | some slot => stop (.done (moveTo ⟨target, slot⟩ (advance 12 (writeInt a 64 0 s))))

/-- The return of a migrated context. One that has no home raises condition 6, a leader and a system context too, whom
condition 1 would fit as well (DESIGN CHOICE, log 108). -/
def migRetBody (a : Reg) : Act Unit := do
  let s ← get
  match (me s).home with
  | none => raiseMigration 6
  | some home =>
    let s := advance 12 (writeInt a 64 0 s)
    stop (.done (arriveIn (leaveSlot s (who s)) (me s) home none))

def execMig (a b : Reg) (s : State) : Host.Outcome State Fault Refusal := slow 12 (migBody a b) s
def execMigRet (a : Reg) (s : State) : Host.Outcome State Fault Refusal := slow 12 (migRetBody a) s

end Sys2Proof.Machine
end

