-- ==== Sys2Proof/Machine/Barriers.lean ====
section
/-!
DEFINITION. The members of a barrier or collective instance, and an instance that is complete: its arrivals are no longer
withdrawn (R9, R11, R12, R24, R52).
-/

namespace Sys2Proof.Machine

/-! ### Members (R9, R24) -/

/-- A core lies in the extent of a barrier network. -/
def inExtent (sc : Scope) (extent core : Nat) : Bool :=
  match sc with
  | .core => core == extent
  | .quad => !isBasecamp core && core / 4 == extent
  | .die => dieOf core == extent
  | .pkg | .pod => true
  | .lane | .host | .sys => false

/-- A member of an instance on this package: its team, its place and its ordinal. -/
structure Member where
  team : Team
  id : CtxId
  ordinal : Nat

/-- The leaders of a team in an extent, in the order of their ordinals. -/
def leadersIn (s : State) (t : Team) (sc : Scope) (extent : Nat) : List Member :=
  (t.cores.filter (inExtent sc extent)).flatMap fun c =>
    ((coreOf s c).slots.filter fun (_, x) => x.status != .free && isLeader x && (coreOf s c).team == some t.uid).map
      fun (n, x) => ⟨t, ⟨c, n⟩, x.ordinal⟩

/-- A leader of the team that is saved and not restored counts as a member that has not arrived (R27). -/
def savedLeader (t : Team) (sc : Scope) (extent : Nat) : Bool :=
  t.saved.any fun e => e.out && isLeader e.context && inExtent sc extent e.core

/-- The teams of an instance: one, or at pod scope every team of its identifier. -/
def instanceTeams (s : State) (uid : Nat) (sc : Scope) : List Team :=
  match teamBy s uid with
  | none => []
  | some t => if sc = .pod then s.teams.filter (·.ident == t.ident) else [t]

def joinedScope : Joined → Scope
  | .bar sc => sc
  | .red _ _ _ _ sc => sc
  | .bc _ _ sc => sc
  | .top _ _ _ sc => sc
  | .topp _ _ _ _ _ sc => sc

/-- What a context has arrived with at an instance of scope `sc`. -/
def arrivedWith (sc : Scope) (x : Context) : Option Joined :=
  match x.wait with
  | .arrived j => if joinedScope j = sc then some j else none
  | _ => none

/-! ### A complete instance (R11, R12) -/

/-- The number of the extent of a scope that holds a core. -/
def extentOf (sc : Scope) (core : Nat) : Nat :=
  match sc with
  | .core => core
  | .quad => core / 4
  | .die => dieOf core
  | .lane | .pkg | .pod | .host | .sys => 0

/-- Every member of an instance of a package has arrived. At pod scope other packages decide too, so nothing here is
complete before its completion event (log 30). -/
def instanceComplete (s : State) (team : Nat) (sc : Scope) (extent : Nat) : Bool :=
  sc != .pod && (instanceTeams s team sc).all (fun t => t.resident && !savedLeader t sc extent) &&
    ((instanceTeams s team sc).flatMap fun t => leadersIn s t sc extent).all fun m => (arrivedWith sc (ctxOf s m.id)).isSome

/-- The context has arrived at an instance that is complete. -/
def hasCompleted (s : State) (id : CtxId) : Bool :=
  match (ctxOf s id).wait, teamUidOf s id with
  | .arrived j, some uid => instanceComplete s uid (joinedScope j) (extentOf (joinedScope j) id.core)
  | _, _ => false

/-! ### Standing at a boundary (R52, R314, R351) -/

/-- No operation of the context has to complete before it stands at an instruction boundary. -/
def atBoundary (x : Context) : Bool :=
  !x.holding && match x.wait with
  | .plain => false
  | .spawn _ _ _ => false
  | .visible => false
  | _ => true

/-- The context stands at an instruction boundary, and no arrival of it belongs to a complete instance. -/
def standsAt (s : State) (id : CtxId) : Bool := atBoundary (ctxOf s id) && !hasCompleted s id

end Sys2Proof.Machine
end

