-- ==== Sys2Proof/Machine/System.lean ====
section
/-!
DEFINITION. A context at an instruction boundary, its sealed image, and the save and restore of one (R52, R250, R314,
R351, R426 to R428, R434 to R436).
-/

namespace Sys2Proof.Machine

/-! ### Settling the operation in progress (R52, R314, R351) -/

/-- What an abandoned wait held is given back, and an instruction that is held leaves its place. -/
def giveBack (s : State) (id : CtxId) : State :=
  let s := onCore s id.core (leaveHeld id.slot)
  match (ctxOf s id).wait with
  | .semaphore n =>
    onCore s id.core fun k => { k with semq := putD k.semq n ((lookD k.semq n []).filter (· != id.slot)) [] }
  | _ => dropClaim s (ctxOf s id)

/-- A wait that pre-emption does not abandon: for an acknowledgement (R52), for a page under service (R420), and that of a
context which has been ended. -/
def staysWaiting : Wait → Bool
  | .acks => true
  | .ownAck _ => true
  | .page _ _ => true
  | .ending _ => true
  | _ => false

/-- The context as pre-emption settles it (R52, R314). -/
def settled (x : Context) : Context :=
  { x with wait := if staysWaiting x.wait then x.wait else .none, preempt := false, holding := false }

/-- Pre-emption stops a live context at its boundary, and leaves a trapped one trapped (R252). -/
def stopContext (s : State) (id : CtxId) : State :=
  onCtx (giveBack s id) id fun x =>
    let y := settled x
    if y.status = .live then { y with status := .stopped } else y

/-! ### The image (R426, R427) -/

/-- Numbers with their sizes in bytes, one after the other. -/
def layOut : List (Nat × Nat) → List Byte
  | [] => []
  | (n, x) :: rest => bytesOf n x ++ layOut rest

/-- The 72 capability slots of an image. -/
def imageCaps (x : Context) : List Cap :=
  (upFrom 1 63).map (fun i => lookD x.regs i Cap.null) ++ (upFrom 0 8).map (fun i => lookD x.shadow i Cap.null) ++ [x.code]

def tagBits : List Cap → Nat
  | [] => 0
  | c :: rest => (if c.tag then 1 else 0) + 2 * tagBits rest

def kindCode : CtxKind → Nat
  | .leader => 0
  | .helper _ => 1
  | .pitch _ _ _ => 2
  | .spawned => 3
  | .system => 0

/-- The fields of 0x558 and 0x540 that a kind fills: leader slot, pitch index, input item and output item. -/
def kindFields (k : Core) : CtxKind → Nat × Nat × Nat × Nat
  | .helper l => ((slotOfUid k l).getD 0, 0, 0, 0)
  | .pitch p i o => (0, p, i, o)
  | .leader => (0, 0, 0, 0)
  | .spawned => (0, 0, 0, 0)
  | .system => (0, 0, 0, 0)

/-- The ticket that the context is blocked on, trapped or with an access that it has issued again; 0 for none (R420, R426). -/
def blockedOn (x : Context) : Nat :=
  match x.wait with
  | .page n _ => n
  | _ => x.ticket

/-- The context waits for acknowledgements (R52). -/
def waitsForAcks (x : Context) : Bool :=
  match x.wait with
  | .acks => true
  | .ownAck _ => true
  | _ => false

/-- The plaintext up to the stash units. -/
def imageState (k : Core) (x : Context) : List Byte :=
  let caps := imageCaps x
  let (leader, pitch, input, output) := kindFields k x.kind
  let home := x.home.getD ⟨0, 0⟩
  layOut (caps.map fun c => (16, c.bits.toNat)) ++ bytesOf 16 (tagBits caps) ++
    layOut ((upFrom 1 15).map fun i => (8, (lookD x.m i 0).toNat)) ++
    layOut [(8, x.round.toNat + x.covmode.toNat * 2 ^ 8 + x.calls.length * 2 ^ 16 + x.flushcnt.toNat * 2 ^ 32),
      (8, x.trapcause.toNat), (8, x.trapinfo.toNat), (16, x.trappc.toNat),
      (16, ((returnPoint x.handler).getD Cap.null).bits.toNat), (8, blockedOn x + output * 2 ^ 32),
      (8, home.core + home.slot * 2 ^ 12), (8, x.sent.length + if waitsForAcks x then 2 ^ 32 else 0),
      (8, kindCode x.kind + x.pin.num * 4 + pitch * 2 ^ 5 + leader * 2 ^ 8 + input * 2 ^ 32)] ++
    layOut ((upFrom 0 64).map fun i => (16, (laneGen x i).toNat)) ++
    layOut ((upFrom 0 x.nv).map fun i => (256, (vreg x i).toNat)) ++
    layOut ((upFrom 0 x.ne).map fun i => (512, (ereg x i).toNat))

/-- Bytes of ciphertext of an image (R250). -/
def imageLength (nv ne units : Nat) : Nat := 2400 + 256 * nv + 512 * ne + 4096 * units

def imageMagic : Nat := 0x53455843

/-- The header of an image. -/
def imageHeader (x : Context) (team slot handle counter off units : Nat) : Nat :=
  imageMagic + counter * 2 ^ 32 + handle * 2 ^ 64 + team * 2 ^ 96 + x.nv * 2 ^ 128 + x.ne * 2 ^ 136 + slot * 2 ^ 144 +
    (if x.status = .trapped then 2 ^ 152 else 0) + (if x.handler.active then 2 ^ 153 else 0) +
    (if x.home.isSome then 2 ^ 154 else 0) + (if blockedOn x ≠ 0 then 2 ^ 155 else 0) + off * 2 ^ 160 + units * 2 ^ 176 +
    x.gen.toNat * 2 ^ 192 + imageLength x.nv x.ne units * 2 ^ 224

/-- The 96-bit initialisation vector of an image (R428). -/
def imageIv (handle counter : Nat) : List Byte := bytesOf 4 handle ++ bytesOf 4 counter ++ bytesOf 4 0

/-- The number at bytes [o, o + n) of a plaintext. -/
def numberAt (p : List Byte) (o n : Nat) : Nat := natOfBytes ((p.drop o).take n)

/-- Entries from a list of values, where one equal to `d` is not listed. -/
def listed {α : Type} [DecidableEq α] (first : Nat) (d : α) (xs : List α) : SMap α :=
  (xs.zipIdx.filter fun e => decide (e.1 ≠ d)).map fun e => (e.2 + first, e.1)

/-- The kind that an image names, in the core where it is restored. -/
def kindFrom (k : Core) (p : List Byte) : CtxKind :=
  let w := numberAt p 0x558 8
  match field w 1 0 with
  | 0 => .leader
  | 1 => .helper (((look k.slots (field w 11 8)).map (·.uid)).getD 0)
  | 2 => .pitch (field w 7 5) (field w 63 32) (numberAt p 0x544 4)
  | _ => .spawned

def pinFrom (p : List Byte) : Pin :=
  match field (numberAt p 0x558 8) 4 2 with
  | 1 => .mx | 2 => .ep | 4 => .ch0 | 5 => .ch1 | 6 => .ch2 | 7 => .ch3 | _ => .none

/-- The context that a plaintext describes, over what the machine kept of it (R250, R427). -/
def contextFrom (base : Context) (hdr : Nat) (p : List Byte) : Context :=
  let cap (i : Nat) : Cap := ⟨bit (numberAt p 0x480 16) i, BitVec.ofNat 128 (numberAt p (16 * i) 16)⟩
  let misc := numberAt p 0x508 8
  let nv := field hdr 135 128
  let ne := field hdr 143 136
  let home := numberAt p 0x548 8
  let x : Context :=
    { base with
      status := if bit hdr 152 then .trapped else .stopped, code := cap 71
      regs := listed 1 Cap.null ((upFrom 0 63).map cap), shadow := listed 0 Cap.null ((upFrom 63 8).map cap)
      m := listed 1 0 ((upFrom 0 15).map fun i => BitVec.ofNat 64 (numberAt p (0x490 + 8 * i) 8))
      round := BitVec.ofNat 5 misc, covmode := BitVec.ofNat 4 (misc / 2 ^ 8), flushcnt := BitVec.ofNat 32 (misc / 2 ^ 32)
      trapcause := BitVec.ofNat 8 (numberAt p 0x510 1), trapinfo := BitVec.ofNat 64 (numberAt p 0x518 8)
      trappc := BitVec.ofNat 80 (numberAt p 0x520 10), ticket := numberAt p 0x540 4
      home := if bit hdr 154 then some ⟨field home 10 0, field home 15 12⟩ else none
      gen := BitVec.ofNat 32 (field hdr 223 192), pin := pinFrom p, nv := nv, ne := ne
      v := listed 0 0 ((upFrom 0 nv).map fun i => BitVec.ofNat 2048 (numberAt p (0x960 + 256 * i) 256))
      e := listed 0 0 ((upFrom 0 ne).map fun i => BitVec.ofNat 4096 (numberAt p (0x960 + 256 * nv + 512 * i) 512))
      fetched := false, copies := [] }
  (upFrom 0 64).foldl (fun x i => setLaneGen x i (BitVec.ofNat 128 (numberAt p (0x560 + 16 * i) 16))) x

/-! ### `ctx.save` (R250) -/

/-- The launch whose contexts a slot of a core holds: that of the core, or of the home of the context in it. -/
def residentTeam (s : State) (id : CtxId) : Option Team := teamOf s id

/-- The record of a save: what the image numbers but does not hold, and the key's counter (R436). It takes the place of the
earlier record under its key, but for one of a context that is out (R27). -/
def recordSave (s : State) (id : CtxId) (handle counter : Nat) (evict : Bool) : State :=
  let h := BitVec.ofNat 32 handle
  let e : Saved := ⟨id.core, h, BitVec.ofNat 32 counter, evict, ctxOf s id⟩
  let s := { s with keys := s.keys.map fun k =>
    if k.handle == h then { k with counter := BitVec.ofNat 32 counter, spent := false } else k }
  match teamUidOf s id with
  | none => s
  | some uid => onTeam s uid fun t =>
      { t with
        saved := t.saved.filter (fun e => e.handle != h || e.out) ++ [e]
        keys := if t.keys.contains h then t.keys else t.keys ++ [h] }

/-- The slot of an evicted context becomes free; its views go with it. -/
def evictSlot (s : State) (id : CtxId) : State :=
  let uid := (ctxOf s id).uid
  onCore s id.core fun k =>
    { k with
      slots := drop k.slots id.slot
      posmap := if isBasecamp id.core then k.posmap.filter fun (_, e) => e.owner != uid else k.posmap }

/-- The sealed image of a context that stands at its boundary. -/
def sealedImage (s : State) (id : CtxId) (key handle counter off units : Nat) : List Byte :=
  let x := ctxOf s id
  let ident := ((teamOf s id).map (·.ident.toNat)).getD 0
  let hdr := bytesOf 64 (imageHeader x ident id.slot handle counter off units)
  let text := imageState (coreOf s (homeOf x id).core) x ++ stashBytes (coreOf s id.core) (4096 * off) (4096 * units)
  hdr ++ Seal.encrypt (Config.contextKey key) (imageIv handle counter) hdr text

/-- Write the sealed image of a context. -/
def writeImage (a : Reg) (id : CtxId) (key handle counter off units : Nat) : Act Unit := do
  let s ← get
  writeRange (memActor s a plainX) (capAddr (reg s a)) (sealedImage s id key handle counter off units)

/-- The notice of a slot. -/
def noticeOf (slot : Nat) (p : Posted) : Bool :=
  match p.what with
  | .notice n _ _ _ => n == slot
  | .message _ => false
  | .spawn _ => false

/-- A trap notice that still waits for the context of a slot is recorded with it (R435). -/
def recordNotice (s : State) (id : CtxId) : State :=
  if (coreOf s id.core).inbox.any (noticeOf id.slot) then
    onCtx (onCore s id.core fun k => { k with inbox := k.inbox.filter fun p => !noticeOf id.slot p }) id fun x =>
      { x with recorded := true }
  else s

/-- A saved context that stays is stopped, a trapped one too, which stands at its trapping instruction: its notice belongs to
the image (R250, R435). -/
def stayStopped (x : Context) : Context := if x.status = .trapped then { unserved x with status := .stopped } else x

/-- The steps of a save once its operands stand; the result is its status. -/
def saveContext (a : Reg) (id : CtxId) (handle counter off units : Nat) (evict : Bool) : Act Nat := do
  let s ← get
  if slotFree (coreOf s id.core) id.slot || (ctxOf s id).status == .away then pure 1
  else
    match keyBy s (BitVec.ofNat 32 handle) with
    | none => pure 2
    | some key =>
      if counter ≤ key.counter.toNat then pure 3
      else
        if (ctxOf s id).status = .live ∧ !standsAt s id then
          stop (.done (onMe (onCtx s id fun x => { x with preempt := true }) fun x => { x with wait := .boundary id.slot }))
        writeImage a id key.serial handle counter off units
        modify fun s =>
          let s := recordSave (stopContext (recordNotice s id) id) id handle counter evict
          if evict then evictSlot s id else onCtx s id stayStopped
        pure 0

def ctxSaveBody (d a b c : Reg) (evict : Bool) : Act Unit := do
  requirePrivilege 0x4D
  let s ← get
  let w := (reg s b).bits.toNat
  let id : CtxId := ⟨(who s).core, field w 3 0⟩
  let off := field w 25 16
  let units := field w 73 64
  let (nv, ne) := match residentTeam s id with
    | some t => (t.nv, t.ne)
    | none => (0, 0)
  checked a.val (capCheck (reg s a) (capAddr (reg s a)) (64 + imageLength nv ne units + 16) permST)
  let word := ({ l := 2, op := 0x4D, a := a, b := b, c := c } : Raw).baseWord
  require (id.slot ≤ 10 && units ≤ 512 && field w 127 74 == 0 && field w 31 26 == 0 && field w 15 4 == 0)
    causeIllegal word
  if off + units > stashUnits (myCore s) then raiseStash 0 3
  let st ← saveContext a id (field (reg s c).bits.toNat 31 0) (field w 63 32) off units evict
  modify (writeInt d 64 st)

def execCtxSave (d a b c : Reg) (evict : Bool) (s : State) : Host.Outcome State Fault Refusal :=
  slow 12 (ctxSaveBody d a b c evict) s

/-! ### `ctx.rest` (R250) -/

/-- The team of the core, or of the home core that a migrated image names. -/
def restoreTeam (s : State) (core hdr : Nat) (p : List Byte) : Option Team :=
  let at' := if bit hdr 154 then field (numberAt p 0x548 8) 10 0 else core
  (coreOf s at').team.bind (teamBy s)

/-- The save that the image came from, if the machine still has its record. -/
def savedFor (t : Team) (handle counter : Nat) : Option Saved :=
  t.saved.find? fun e => e.handle.toNat == handle && e.counter.toNat == counter

/-- A restored context and its ticket. One that stands trapped on a service that has ended is served again (R421, R423, R435);
one that waits, of which the machine has no record, waits as its image says (R52, R426). -/
def rejoined (s : State) (kept : Option Saved) (acks : Bool) (x : Context) : Context :=
  let stands := (kept.map fun e => blockedOn e.context).getD x.ticket = x.ticket ∧ s.tickets.any (·.number == x.ticket)
  let ticket := if stands then x.ticket else 0
  { x with
    ticket := if x.status = .trapped then ticket else 0
    recorded := x.status == .trapped && (x.recorded || (x.ticket != 0 && ticket == 0))
    wait := if kept.isSome then x.wait
      else if acks then .acks
      else if x.status ≠ .trapped ∧ ticket ≠ 0 then .page ticket none
      else .none }

/-- An empty position map buffer: no refill handler has filled it for a lookup of the core's contexts (R53, R145, R146). -/
def emptyMap (k : Core) : Core := { k with posmap := [], slots := k.slots.map fun (n, x) => (n, mapEmptied x) }

/-- The context and its stash units take their places; the key's counter is spent (R436) and the position map buffer is
empty (R53, R145). -/
def placeRestored (s : State) (t : Team) (id : CtxId) (hdr : Nat) (p : List Byte) (handle counter : Nat) : State :=
  let off := field hdr 175 160
  let units := field hdr 191 176
  let (name, s) := freshName s
  let base : Context := match savedFor t handle counter with
    | some e => settled e.context
    | none =>
      { kind := kindFrom (coreOf s id.core) p, uid := name, seed := t.seed, born := id, ordinal := ordinalOf t id.core id.slot }
  let now := (coreOf s id.core).cycle
  let h := BitVec.ofNat 32 handle
  let s := { s with keys := s.keys.map fun k => if k.handle == h then { k with spent := true } else k }
  let x := rejoined s (savedFor t handle counter) (bit (numberAt p 0x550 8) 32) (contextFrom base hdr p)
  let s := setCtx s id { x with readyAt := now, fetchSince := now }
  let s := onTeam s t.uid fun t => { t with saved := t.saved.filter fun e => e.handle != h || e.counter.toNat != counter }
  onCore s id.core fun k =>
    emptyMap (stashPut k (4096 * off) ((p.drop (imageLength t.nv t.ne 0)).take (4096 * units)) false)

/-- The steps of a restore once its header has been read; the result is its status. -/
def restoreContext (a : Reg) (id : CtxId) (handle hdr : Nat) : Act Nat := do
  let s ← get
  let counter := field hdr 63 32
  let len := field hdr 255 224
  let units := field hdr 191 176
  if !slotFree (coreOf s id.core) id.slot then pure 1
  else
    match keyBy s (BitVec.ofNat 32 handle) with
    | none => pure 2
    | some key =>
      if counter ≠ key.counter.toNat ∨ key.spent then pure 3
      else if field hdr 31 0 ≠ imageMagic ∨ len ≠ imageLength (field hdr 135 128) (field hdr 143 136) units then pure 4
      else
        let at' := capAddr (reg s a)
        checked a.val (capCheck (reg s a) at' (64 + len + 16) permLD)
        let body ← readRange (memActor s a plainX) (at' + 64) (len + 16)
        match Seal.decrypt (Config.contextKey key.serial) (imageIv handle counter) (bytesOf 64 hdr) (body.take len)
          (body.drop len) with
        | none => pure 4
        | some p =>
          let s ← get
          match restoreTeam s id.core hdr p with
          | none => pure 5
          | some t =>
            if field hdr 127 96 ≠ t.ident.toNat ∨ field hdr 135 128 ≠ t.nv ∨ field hdr 143 136 ≠ t.ne then pure 5
            else
              if field hdr 175 160 + units > stashUnits (coreOf s id.core) then raiseStash 0 3
              if pinFrom p ≠ .none ∧ enginePinned (coreOf s id.core) (pinFrom p) then pure 6
              else
                set (placeRestored s t id hdr p handle counter)
                pure 0

def ctxRestBody (d a b c : Reg) : Act Unit := do
  requirePrivilege 0x4E
  let s ← get
  let w := (reg s b).bits.toNat
  let word := ({ l := 2, op := 0x4E, a := a, b := b, c := c } : Raw).baseWord
  require (field w 3 0 ≤ 10 && field w 127 4 == 0) causeIllegal word
  let at' := capAddr (reg s a)
  checked a.val (capCheck (reg s a) at' 64 permLD)
  let hdr ← readRange (memActor s a plainX) at' 64
  let st ← restoreContext a ⟨(who s).core, field w 3 0⟩ (field (reg s c).bits.toNat 31 0) (natOfBytes hdr)
  modify (writeInt d 64 st)

def execCtxRest (d a b c : Reg) (s : State) : Host.Outcome State Fault Refusal := slow 12 (ctxRestBody d a b c) s

end Sys2Proof.Machine
end

