-- ==== Sys2Proof/Machine/Execution.lean ====
section
/-!
DEFINITION. The events of the barrel, the routes and the slices: fetch delivery, completion of an operation and of a
forwarding hold, grant rounds, pre-emption, spawn arrivals, copy deliveries, covered allocation and Moraine (R14 to R20,
R33, R35 to R53, R129 to R133, R142, R252, R357, R358).
-/

namespace Sys2Proof.Machine

/-! ### Fetch, completion and forwarding (R16, R20, R49) -/

def execFetchServe (unit : Nat) (s : State) : Host.Outcome State Fault Refusal := .next (serveFetch s unit)

/-- What a context waits for has come about. -/
def waitOver (s : State) (id : CtxId) : Bool :=
  let x := ctxOf s id
  let k := coreOf s id.core
  match x.wait with
  | .none => false
  | .plain => true
  | .join h => match recordFor k x.uid h with
    | some r => r.exit.isSome
    | none => true
  | .helpers => !helpersLive s id
  | .semaphore _ => false
  | .arrived _ => false
  | .fwdPut _ _ => false
  | .fwdGet _ => false
  | .channel ch => (channelOf k ch).xfer.isNone
  | .transfer ch n => !(channelOf k ch).xfer.any (·.number == n)
  | .point ch n => (channelOf k ch).xfer.isNone || (channelOf k ch).wp ≥ n
  | .line va => !lineOwned s va
  | .fence sc => !fenceWaits s id sc
  | .acks => !sendsPending s id
  | .ownAck m => !x.sent.any (·.1 == m)
  | .inbox c => !inboxFull (coreOf s c)
  | .spawn _ _ _ => false
  | .job => true
  | .landing => true
  | .engine => !behind k id.slot
  | .ifence => !x.transfers.any fun t => transferLive s t.2
  | .covered _ _ _ _ => false
  | .page t _ => !s.tickets.any (·.number == t)
  | .scrubbed va => !inScrub s va
  | .ending _ => !helpersLive s id
  | .freePage d => (freePage s d).isSome
  | .boundary n => (ctxOf s ⟨id.core, n⟩).status != .live || standsAt s ⟨id.core, n⟩
  | .visible => !s.pending.any (·.uid == x.uid)

/-- What another package answers to a message: nothing, or the condition of a failure (R309); free (log 30). -/
def remoteAnswer (s : State) (message : Nat) : Option Nat :=
  let c := pick s message 0x118
  if c = 1 ∨ 0x100 < c then some c else none

/-- The acknowledgements that other packages owe a waiting context return. -/
def remoteAcks (s : State) (id : CtxId) : State :=
  let here (e : Nat × Nat) : Bool := e.2 / 65536 == s.pkg.toNat
  onCtx s id fun x => { x with
    sent := x.sent.filter here
    failures := x.failures ++ (x.sent.filter fun e => !here e).filterMap fun e =>
      (remoteAnswer s e.1).map fun c => (e.1, e.2, c) }

/-- A context whose operation is complete is ready again; one that has been ended leaves its slot (R16, R31). One whose
operation is not hears from other packages. -/
def execOperationComplete (core slot : Nat) (s : State) : Host.Outcome State Fault Refusal :=
  let id : CtxId := ⟨core, slot⟩
  if (ctxOf s id).status = .live then
    if waitOver s id then
      match (ctxOf s id).wait with
      | .ending exit => .next (endContext s id exit)
      | .ifence => .next (finishIfence s id)
      | _ => .next (onCtx s id (awake (coreOf s core)))
    else if (ctxOf s id).sent.all fun e => e.2 / 65536 == s.pkg.toNat then .next s
    else .next (remoteAcks s id)
  else .next s

/-- A context leaves its wait and goes on after an instruction of `len` bytes. -/
def goOn (s : State) (id : CtxId) (len : Nat) : State :=
  onCtx s id fun x => { awake (coreOf s id.core) x with code := withCursor x.code (capAddr x.code + len) }

def execFwdHoldComplete (core slot : Nat) (s : State) : Host.Outcome State Fault Refusal :=
  let id : CtxId := ⟨core, slot⟩
  if (ctxOf s id).status = .live then
    match (ctxOf s id).wait with
    | .fwdPut quad v =>
      match putFwd s id quad v with
      | some t => .next (goOn t id 4)
      | none => .next s
    | .fwdGet a =>
      match takeFwd s id with
      | some (v, t) => .next (goOn (writeIntIn t id a.val 64 v) id 4)
      | none => .next s
    | _ => .next s
  else .next s

/-! ### Meridian's weights (R41, R443, R445) -/

/-- OPTAB at reset: FMHZ and the four weights of each state. -/
def optabReset : List (Nat × Nat × Nat × Nat × Nat) :=
  [(700, 16, 16, 16, 16), (700, 12, 16, 16, 16), (650, 8, 14, 16, 16), (600, 6, 12, 14, 16), (550, 4, 10, 12, 16),
    (500, 3, 8, 10, 16), (400, 2, 6, 8, 16), (300, 1, 4, 6, 16)]

def optabWord (r : Nat × Nat × Nat × Nat × Nat) : Nat :=
  r.1 + r.2.1 * 2 ^ 10 + r.2.2.1 * 2 ^ 15 + r.2.2.2.1 * 2 ^ 20 + r.2.2.2.2 * 2 ^ 25

/-- Row `n` of OPTAB. -/
def optabRow (s : State) (n : Nat) : Nat :=
  match look s.optab n with
  | some w => w.toNat
  | none => optabWord (optabReset.getD n (700, 16, 16, 16, 16))

def islandOf (s : State) (i : Nat) : Island := lookD s.islands i {}

/-- The island of a core. -/
def islandOfCore (core : Nat) : Nat :=
  if isBasecamp core then 352 + 8 * ((core - 1152) / 32) + (core - 1152) % 32 / 4 else core / 4

/-- The weight of an energy class on an island, as Meridian set it last (R41, R45, R446). -/
def weightOf' (s : State) (island cls : Nat) : Nat :=
  let x := islandOf s island
  if x.zeroed.any (·.1 == cls) then 0
  else match x.restored.find? (·.1 == cls) with
    | some e => e.2
    | none => x.weights.getD cls 0

/-- A class weight that was 0 is restored to at least 1 (R45). -/
def execWeightRestore (island cls weight : Nat) (s : State) : Host.Outcome State Fault Refusal :=
  let x := islandOf s island
  if x.zeroed.any (·.1 == cls) ∧ 1 ≤ weight ∧ weight ≤ 16 then
    let y := { x with
      zeroed := x.zeroed.filter (·.1 != cls), restored := x.restored.filter (·.1 != cls) ++ [(cls, weight)] }
    .next { s with islands := put s.islands island y }
  else .next s

/-! ### Grant rounds (R40 to R44) -/

def availItems (k : Core) (q : Nat) : Nat := queuePresent (queueRecord k q) - taken k q
def heldItems (k : Core) (q : Nat) : Nat := queuePresent (queueRecord k q) + reservedItems k q

/-- Pitch helpers of pitch `p` that are live: in the slots of a core, or migrated from them (R40, R311). -/
def liveHelpers (k : Core) (p : Nat) : Nat :=
  (k.slots.filter fun (_, x) => x.status != .free && (match x.kind with
    | .pitch q _ _ => q == p
    | .leader | .helper _ | .spawned | .system => false)).length

/-- The pitch is eligible (R40). -/
def pitchEligible (k : Core) (w : List Nat) (p : Nat) (r : PitchRec) : Bool :=
  availItems k r.inq ≥ 1 &&
    (match r.outq with
      | none => true
      | some o => heldItems k o < queueDepth (queueRecord k o)) &&
    liveHelpers k p < r.width && w.getD r.cls 0 ≥ 1 && (r.pin == .none || !enginePinned k r.pin)

/-- The score of a pitch (R41). -/
def pitchScore (k : Core) (w : List Nat) (r : PitchRec) : Int :=
  let fin := availItems k r.inq * 65536 / queueDepth (queueRecord k r.inq)
  let fout := match r.outq with
    | none => 0
    | some o => heldItems k o * 65536 / queueDepth (queueRecord k o)
  (w.getD r.cls 0 : Int) * (65536 + fin - fout)

/-- The eligible pitch of the greatest score, ties to the lower index. -/
def bestPitch (k : Core) (w : List Nat) : Option (Nat × PitchRec) :=
  (k.route.pitches.zipIdx.foldl
    (fun best (r, p) =>
      if pitchEligible k w p r then
        let score := pitchScore k w r
        match best with
        | none => some (score, p, r)
        | some b => if score > b.1 then some (score, p, r) else best
      else best) none).map (·.2)

/-- A capability over item `n` of a queue, through the stash aperture. -/
def itemCap (k : Core) (q n perms : Nat) : Cap :=
  boundedCap perms (apertureBase + itemAt k q n) (queueItem (queueRecord k q) * 16)

/-- A grant of pitch `p` to a slot (R42). An item is numbered modulo 2^32 before its place is taken modulo DEPTH (DESIGN CHOICE,
log 105). -/
def grantPitch (t : Team) (s : State) (id : CtxId) (p : Nat) (r : PitchRec) : State :=
  let k := coreOf s id.core
  let n := (queueHead (queueRecord k r.inq) + taken k r.inq) % 2 ^ 32
  let o := match r.outq with
    | none => 0
    | some q => (queueTail (queueRecord k q) + reservedItems k q) % 2 ^ 32
  let out := match r.outq with
    | none => Cap.null
    | some q => itemCap k q o permST
  let args := [itemCap k r.inq n permLD, out, Cap.plain (BitVec.ofNat 128 n), Cap.plain (BitVec.ofNat 128 p)]
  let s := placeContext s t (.pitch p n o) id (teamCode t r.entry) args 0 0
  let s := onCtx s id fun x => { x with pin := r.pin, fetchSince := k.cycle, readyAt := k.cycle }
  onCore s id.core fun k =>
    let route := k.route
    let route := { route with taken := putD route.taken r.inq (taken k r.inq + 1) 0 }
    { k with route := match r.outq with
        | none => route
        | some q => { route with reserved := putD route.reserved q (reservedItems k q + 1) 0 } }

/-- Grants to the free slots in ascending order, until no pitch is eligible. -/
def grantSlots (t : Team) (w : List Nat) (core : Nat) : List Nat → State → State
  | [], s => s
  | slot :: rest, s =>
    match bestPitch (coreOf s core) w with
    | none => s
    | some (p, r) => grantSlots t w core rest (grantPitch t s ⟨core, slot⟩ p r)

/-- The first queue record of the route that is bad (R44): its pitch and its place. -/
def badQueue (k : Core) : Option (Nat × Nat) :=
  k.route.pitches.zipIdx.findSome? fun (r, p) =>
    ((r.inq :: r.outq.toList).find? fun q =>
      let rec' := queueRecord k q
      queuePresent rec' > queueDepth rec' || !queueReservedBits rec').map fun q => (p, q)

/-- The route stops on the core, and its lowest live leader takes the route fault: at once where it stands at a boundary, else
at its next one. -/
def routeFault (s : State) (core p q : Nat) : State :=
  let s := onCore s core fun k => { k with route := { k.route with running := false } }
  let t : Trap := ⟨causeRoute, p + q * 2 ^ 16, 0⟩
  match ((coreOf s core).slots.filter fun (n, x) =>
      n != 11 && x.status != .free && isLeader x && !isEnding x.wait).head? with
  | none => s
  | some (n, x) =>
    if x.status = .live ∧ standsAt s ⟨core, n⟩ then deliverTrapTo t (giveBack s ⟨core, n⟩) ⟨core, n⟩
    else onCtx s ⟨core, n⟩ fun x => { x with owed := some t }

/-- A route fault that a context owes is taken at its boundary. -/
def takeOwed (s : State) (id : CtxId) : Option State :=
  match (ctxOf s id).owed with
  | none => none
  | some t => if (ctxOf s id).holding then none else some (deliverTrapTo t (onCtx s id fun x => { x with owed := none }) id)

/-- A grant round (R41); with no slot free it reads no queue record (R44). -/
def grantRound (core : Nat) (s : State) : State :=
  let k := coreOf s core
  match k.team.bind (teamBy s) with
  | none => s
  | some t =>
    let free := (upFrom 0 11).filter (slotFree k)
    if k.route.running && !free.isEmpty then
      match badQueue k with
      | some (p, q) => routeFault s core p q
      | none => grantSlots t ((upFrom 0 4).map (weightOf' s (islandOfCore core))) core free s
    else s

/-- The grant round of a cycle whose number is a multiple of 64: one in each such cycle, before anything issues (R35, R41). -/
def pendingRound (core : Nat) (s : State) : State :=
  if (coreOf s core).cycle % 64 = 0 ∧ (coreOf s core).rounded = false then
    grantRound core (onCore s core fun k => { k with rounded := true })
  else s

def execGrantRound (core : Nat) (s : State) : Host.Outcome State Fault Refusal := .next (pendingRound core s)

/-! ### Pre-emption and slices (R51 to R53, R424, R425) -/

/-- A context stops at its boundary, or its pre-emption stays pending (R52, R252). -/
def execContextPreempt (core slot : Nat) (s : State) : Host.Outcome State Fault Refusal :=
  let id : CtxId := ⟨core, slot⟩
  let x := ctxOf s id
  if slot > 10 then .next s
  else if x.status = .live ∧ standsAt s id then .next (stopContext s id)
  else if x.status = .live ∨ x.status = .trapped then .next (onCtx s id fun x => { x with preempt := true })
  else .next s

/-- Every context of a team, on the cores of its core set and on basecamp cores. -/
def teamContexts (s : State) (t : Team) : List (CtxId × Context) :=
  (t.cores ++ basecampCores s).flatMap fun c => (teamSlots s t c).map fun (n, x) => (⟨c, n⟩, x)

/-- A Dirty sector of a core's windows waits to be written back. -/
def windowHeld (s : State) (c : Nat) : Bool :=
  (coreOf s c).windows.any fun (num, w) => w.sectors.any fun (i, _) => backHeld s c num i

/-- The windows of a core with every sector Absent (R126). -/
def emptyWindows (k : Core) : Core :=
  { k with windows := k.windows.map fun (n, w) => (n, { w with sectors := [] }) }

/-- An arrival waits with the saved state of a team that leaves (R309). -/
def heldWith (uid : Nat) (a : Posted) : Bool :=
  match a.what with
  | .notice _ _ _ _ => true
  | .message m => m.team == uid
  | .spawn r => r.team == uid

/-- One core of a team that leaves: its image, and the core without the team. -/
def leaveCore (uid : Nat) (s : State) (c : Nat) : State :=
  let k := emptyWindows (coreOf s c)
  let image := { k with posmap := [], held := [], inbox := k.inbox.filter (heldWith uid) }
  let s := onTeam s uid fun t => { t with images := put t.images c image }
  onCore s c fun k => { bareCore c k with inbox := k.inbox.filter fun a => !heldWith uid a }

/-- The length of a team's next slice, in whole microseconds (R51). A slice in which no Meridian interval ends has no draw, and
the next one has the full length (log 65). -/
def nextSlice (s : State) (t : Team) : Nat :=
  let full := field s.slice.toNat 16 0
  let n := ((t.cores.map (· / 4)).eraseDups).length
  let share := 10 * t.intervals * field s.capw.toNat 15 0 * n
  if 288 * t.draws ≤ share then full else max (full / 2) (full * share / (288 * t.draws))

/-- The slice of a team has lasted its length, as far as whole intervals tell (R51, log 65). -/
def sliceOver (s : State) (t : Team) : Bool := (s.time - t.entered + 1) * 64 ≥ t.slice

/-- A team starts its next slice: the figure of the last one gives its length (R51). -/
def newSlice (s : State) (t : Team) : Team :=
  { t with slice := nextSlice s t, draws := 0, intervals := 0, entered := s.time, ran := true }

/-- The context as its image holds it. -/
def swapped (x : Context) : Context := mapEmptied { settled x with fetched := false, copies := [] }

/-! #### The swap area (R424, R425) -/

def swapLen (s : State) : Nat := field s.swaplen.toNat 47 21 * 2 ^ 21

def swapBase (s : State) : Nat := field s.swapbase.toNat 47 21 * 2 ^ 21

/-- Swap area of one core. -/
def swapUnit : Nat := 3 * 2 ^ 20

/-- The places for the images of `n` cores that no team away from its cores has. -/
def swapPlaces (s : State) (n : Nat) : List Nat :=
  let used := s.teams.flatMap fun t => if t.resident then [] else t.places
  (((upFrom 0 (swapLen s / swapUnit)).map fun i => swapBase s + swapUnit * i).filter fun a => !used.contains a).take n

/-- The place of the image of a core among those of its team. -/
def placeOfCore (t : Team) (places : List Nat) (core : Nat) : Nat := places.getD (corePosition t core) 0

/-- Some of the places for images waits for an agent that comes to it (R130). -/
def placesBlocked (s : State) (places : List Nat) : Bool := places.any fun a => blocked s a swapUnit

/-- The windows give up what they hold of the places for images (R125). -/
def recallPlaces (write : Bool) (places : List Nat) (s : State) : State :=
  places.foldl (fun s a => recallAll s a swapUnit write) s

/-- The context has no key of its own that the store holds. -/
def keyless (s : State) (x : Context) : Bool := x.status != .away && (x.sealed.bind (keyBy s)).isNone

/-- The key store has room for the keys that a team's contexts still need (R424, R429). -/
def keysFit (s : State) (t : Team) : Bool :=
  s.keys.length + ((teamContexts s t).filter fun e => keyless s e.2).length ≤ 65536

/-- The team can leave its cores now: every context stands at a boundary, no job runs, no system context works for it, nothing
that is to be written waits, and each context can have its key. -/
def canLeave (s : State) (t : Team) : Bool :=
  t.resident &&
    (teamContexts s t).all (fun (id, x) =>
      (x.status != .live || standsAt s id) && (coreOf s id.core).run != .notice id.slot) &&
    t.cores.all (fun c => (coreOf s c).ep.job.isNone && (coreOf s c).run == .idle && !(coreOf s c).trapOpen &&
      !windowHeld s c) && keysFit s t && !placesBlocked s (swapPlaces s t.cores.length)

/-- The key of a context's own: a new one where it has none that the store still holds (R424, R429). -/
def ownKey (s : State) (t : Team) (id : CtxId) : State :=
  match (ctxOf s id).sealed.bind (keyBy s) with
  | some _ => s
  | none =>
    let h := BitVec.ofNat 32 (freshHandle s (s.keys.length + 3) (pick s (id.core * 16 + id.slot) (2 ^ 32)))
    onTeam (onCtx (createKey s h) id fun x => { x with sealed := some h }) t.uid fun u => { u with keys := u.keys ++ [h] }

/-- A context is saved under its own key, with a counter one above the recorded one; its image goes to the swap area. -/
def sealSwapped (t : Team) (places : List Nat) (s : State) (id : CtxId) : State :=
  if (ctxOf s id).status = .away then s
  else
    let s := ownKey s t id
    match (ctxOf s id).sealed.bind (keyBy s) with
    | none => s
    | some k =>
      let home := homeOf (ctxOf s id) id
      let counter := k.counter.toNat + 1
      let image := sealedImage s id k.serial k.handle.toNat counter 0 0
      let s := physWriteAll s 0 (placeOfCore t places home.core + 2 ^ 15 * home.slot) image
      { s with keys := s.keys.map fun x =>
          if x.handle == k.handle then { x with counter := BitVec.ofNat 32 counter, spent := false } else x }

/-- The sealed image of a core, whose bytes are the firmware's (log 71), stands after the images of eleven contexts. -/
def sealTeamImage (t : Team) (places : List Nat) (s : State) (c : Nat) : State :=
  physWriteAll s 0 (placeOfCore t places c + 11 * 2 ^ 15)
    ((Config.teamImage (s.serial * 2 ^ 16 + c)).take (swapUnit - 11 * 2 ^ 15))

/-- The image of a context has been restored: its key's counter is spent (R436). -/
def spendKey (s : State) (x : Context) : State :=
  { s with keys := s.keys.map fun k => if x.sealed = some k.handle then { k with spent := true } else k }

/-- A team leaves its cores for the swap area, in the order of R424. The notice of a trapped context that has migrated is
recorded with it (R435); those of the team's own cores stand in their images. -/
def swapOut (s : State) (t : Team) : State :=
  let ids := (teamContexts s t).map (·.1)
  let places := swapPlaces s t.cores.length
  let s := ids.foldl (fun s id => onCtx (giveBack s id) id swapped) s
  let s := (ids.filter fun id => isBasecamp id.core).foldl recordNotice s
  let s := recallPlaces true places (t.cores.foldl writeBackAll s)
  let s := ids.foldl (sealSwapped t places) s
  let s := t.cores.foldl (sealTeamImage t places) s
  let kept := ids.map fun id => (id, ctxOf s id)
  let s := (ids.filter fun id => isBasecamp id.core).foldl
    (fun s id => onCore s id.core fun k =>
      { k with
        slots := put k.slots id.slot (awayFrom (ctxOf s id))
        posmap := k.posmap.filter fun (_, e) => e.owner != (ctxOf s id).uid }) s
  let s := t.cores.foldl (leaveCore t.uid) s
  onTeam s t.uid fun u => { u with resident := false, away := kept, places := places }

/-- One core of a team that returns; what belongs to the core itself stays. -/
def enterCore (t : Team) (s : State) (c : Nat) : State :=
  match look t.images c with
  | none => s
  | some image =>
    kernelBoundary (onCore s c fun k =>
      { image with
        slots := k.slots, cycle := k.cycle, rounded := k.rounded, last := k.last, inbox := image.inbox ++ k.inbox
        run := k.run, trapOpen := k.trapOpen, grants := k.grants, boundary := k.boundary, started := k.started }) c

/-- A context as `ctx.rest` gives it from its image in the swap area, over what came to it while it was away; `none` where its
image does not verify (R250, R424). -/
def fromImage (s : State) (t : Team) (e : CtxId × Context) : Option Context :=
  if e.2.status = .away then some e.2
  else (e.2.sealed.bind (keyBy s)).bind fun key =>
    let home := homeOf e.2 e.1
    let at' := placeOfCore t t.places home.core + 2 ^ 15 * home.slot
    let len := imageLength t.nv t.ne 0
    let hdr := physReadAll s 0 at' 64
    (Seal.decrypt (Config.contextKey key.serial) (imageIv key.handle.toNat key.counter.toNat) hdr
      (physReadAll s 0 (at' + 64) len) (physReadAll s 0 (at' + 64 + len) 16)).map fun p =>
        { contextFrom e.2 (natOfBytes hdr) p with status := e.2.status, code := e.2.code, ticket := e.2.ticket }

/-- A context returns to its slot. -/
def enterSlot (s : State) (e : CtxId × Context) : State :=
  setCtx (spendKey s e.2) e.1
    { e.2 with fetchSince := (coreOf s e.1.core).cycle, readyAt := (coreOf s e.1.core).cycle }

/-- A context whose service was denied while it was away goes on as denied (R423). -/
def denyReturned (s : State) (e : CtxId × Context) : State :=
  if (ctxOf s e.1).status = .live ∧ (ctxOf s e.1).denied = true then denyContext s e.1 else s

/-- A team returns to its cores: the team image first, then each context (R424). -/
def swapIn (s : State) (t : Team) : State :=
  let s := recallPlaces false t.places s
  let back := t.away.map fun e => (e.1, (fromImage s t e).getD e.2)
  let s := t.cores.foldl (enterCore t) s
  let s := back.foldl denyReturned (back.foldl enterSlot s)
  onTeam s t.uid fun u => { u with resident := true, away := [], images := [], places := [] }

/-- The ranges of the swap area that the images of a team fill. -/
def imageRanges (t : Team) : List (Nat × Nat) :=
  (t.away.filter fun e => e.2.status != .away).map (fun e =>
    let home := homeOf e.2 e.1
    (placeOfCore t t.places home.core + 2 ^ 15 * home.slot, 64 + imageLength t.nv t.ne 0 + 16)) ++
  t.places.map fun a => (a + 11 * 2 ^ 15, swapUnit - 11 * 2 ^ 15)

/-- A poisoned sector in the images of a team (R453). -/
def poisonedImage (s : State) (t : Team) : Option Nat :=
  (s.poison.find? fun p => (imageRanges t).any fun r => meet (64 * p) 64 r.1 r.2).map (64 * ·)

/-- Every core of a team is without one, nothing owns its images, and they verify, or cannot be read for poison. -/
def canEnter (s : State) (t : Team) : Bool :=
  !t.resident && t.cores.all (fun c => (coreOf s c).team.isNone) && !placesBlocked s t.places &&
    ((poisonedImage s t).isSome || t.away.all fun e => (fromImage (recallPlaces false t.places s) t e).isSome)

/-- Poison in a team's images ends its return: they have no virtual address, and 0 is reported (R449, R453). -/
def poisonedReturn (s : State) (t : Team) (a : Nat) : State :=
  poisonReset s ((s.memory.keyAt a).getD 0) 0 t.func t.domain

/-- The swap area holds what the teams away from their cores need (R424). -/
def swapFits (s : State) : Bool :=
  ((s.teams.filter fun t => !t.resident).map fun t => t.cores.length * swapUnit).sum ≤ swapLen s

/-! #### Rounds (R51) -/

def leaveAll : List Nat → State → Option State
  | [], s => some s
  | uid :: rest, s =>
    match teamBy s uid with
    | none => none
    | some t =>
      if canLeave s t ∧ sliceOver s t then leaveAll rest (onTeam (swapOut s t) uid (newSlice s)) else none

/-- When every admitted team has run, a new round begins. -/
def newRound (s : State) : State :=
  if s.teams.all (·.ran) then { s with teams := s.teams.map fun t => { t with ran := false } } else s

/-- Two teams use a core both. -/
def shareCore (t u : Team) : Bool := t.cores.any u.cores.contains

/-- A team that has run in this round runs again only where no team that has not waits for one of its cores. -/
def mayRun (s : State) (t : Team) : Bool :=
  !t.ran || !s.teams.any fun u => u.uid != t.uid && !u.resident && !u.ran && shareCore t u

/-- Teams whose slice is over and that stay start their next slice. -/
def stayAll : List Nat → State → Option State
  | [], s => some s
  | uid :: rest, s =>
    match teamBy s uid with
    | none => none
    | some t =>
      if t.resident then (if sliceOver s t then stayAll rest (onTeam s uid (newSlice s)) else none) else stayAll rest s

def enterAll : List Nat → State → Option State
  | [], s => some s
  | uid :: rest, s =>
    match teamBy s uid with
    | none => none
    | some t =>
      if !mayRun s t then none
      else if t.resident then enterAll rest s
      else if canEnter s t then
        match poisonedImage s t with
        | some a => some (poisonedReturn s t a)
        | none => enterAll rest (onTeam (swapIn s t) uid fun u => { u with entered := s.time })
      else none

/-- A slice boundary: the teams named first leave their cores; of the others, those that are away return and those that stay
start their next slice. -/
def execSliceBoundary (leave enter : List Nat) (s : State) : Host.Outcome State Fault Refusal :=
  match (leaveAll leave s).bind (stayAll enter) with
  | none => .next s
  | some t =>
    if swapFits t then
      match enterAll enter (newRound t) with
      | some u => .next u
      | none => .next s
    else .next s

/-! ### Arrivals at a system context (R33, R241, R309) -/

/-- The arrival can be taken now: a message or a request of a team that is away waits for it. -/
def takeable (k : Core) (a : Posted) : Bool :=
  match a.what with
  | .notice _ _ _ _ => true
  | .message m => k.team == some m.team
  | .spawn r => k.team == some r.team

/-- The first arrival that can be taken, with its place, when the system context is idle. -/
def nextArrival (k : Core) : Option (Nat × Arrival) :=
  if k.run = .idle ∧ !k.trapOpen then
    match firstAt (takeable k) k.inbox with
    | none => none
    | some i => (k.inbox[i]?).map fun a => (i, a.what)
  else none

def takeArrival (s : State) (core i : Nat) : State := onCore s core fun k => { k with inbox := removeAt k.inbox i }

/-- The child of a request takes a slot, and its caller has the answer (R33). -/
def placeChild (s : State) (t : Team) (core slot : Nat) (r : SpawnReq) (caller : CtxId) (dst from' : Reg) : State :=
  let s := placeContext s t .spawned ⟨core, slot⟩ r.code r.args (r.sender.core * 16 + r.sender.slot) 0
  let now := (coreOf s core).cycle
  takeAnswer (onCtx s ⟨core, slot⟩ fun x => { x with fetchSince := now, readyAt := now }) caller (2 * slot) dst from'

/-- The caller runs the child itself, or traps where its calls are as deep as they may be (R34). -/
def callChild (s : State) (r : SpawnReq) (caller : CtxId) (dst from' : Reg) : State :=
  if (ctxOf s caller).calls.length ≥ 255 then deliverTrapTo ⟨causeExecution, 6, 0⟩ s caller
  else runInline s caller r.code r.args dst from'

/-- The child takes the lowest free slot; without one the caller runs it inline. -/
def answerSpawn (s : State) (core : Nat) (r : SpawnReq) : State :=
  match contextByUid s r.uid with
  | none => s
  | some caller =>
    match (ctxOf s caller).wait with
    | .spawn _ dst from' =>
      match lowestFree (coreOf s core), teamBy s r.team with
      | some slot, some t => placeChild s t core slot r caller dst from'
      | none, _ => callChild s r caller dst from'
      | some _, none => callChild s r caller dst from'
    | _ => s

/-- The rotation comes to the system context in this cycle (R15). -/
def systemTurn (k : Core) : Bool :=
  k.started && (look k.slots 11).any (fun x => x.readyAt ≤ k.cycle) &&
    ((rotation k.last).takeWhile (· != 11)).all fun n => !eligible k n

/-- The system context has issued, and the core's cycle is over. -/
def spendTurn (s : State) (core : Nat) : State :=
  let now := (coreOf s core).cycle
  onCore (onCtx s ⟨core, 11⟩ fun x => { x with readyAt := now + 8 }) core fun k =>
    { k with last := 11, cycle := now + 1, rounded := false }

/-- A request is taken by the system context as the instruction that issues in this cycle, after the cycle's grant round
(R33, R35). -/
def execSpawnArrival (core : Nat) (s : State) : Host.Outcome State Fault Refusal :=
  match if systemTurn (coreOf s core) then nextArrival (coreOf s core) else none with
  | some (i, .spawn r) => .next (spendTurn (answerSpawn (takeArrival (pendingRound core s) core i) core r) core)
  | some (_, .notice _ _ _ _) => .next s
  | some (_, .message _) => .next s
  | none => .next s

/-! ### Copy deliveries (R129 to R133) -/

/-- The state in which only the copies that issued before transfer `n` own lines (R131). -/
def withoutOwners (n : Nat) (s : State) : State :=
  { s with cores := s.cores.map fun (c, k) =>
      (c, { k with channels := k.channels.map fun (i, ch) => (i, { ch with xfer := ch.xfer.filter (·.number < n) }) }) }

/-- The state with the channels of another. -/
def withOwners (from' s : State) : State :=
  from'.cores.foldl (fun s (c, k) => onCore s c fun x => { x with channels := k.channels }) s

/-- The line of `va` is owned by a channel whose copy issued before transfer `n` (R131). -/
def ownedBefore (s : State) (n va : Nat) : Bool :=
  s.cores.any fun (_, k) => k.channels.any fun (_, ch) => ownsLine ch (va / 256) && (match ch.xfer with
    | some x => x.number < n
    | none => false)

/-- The end of the piece that starts at `wp`. -/
def pieceEnd (x : Transfer) (wp : Nat) : Nat :=
  match x.dst with
  | .global c => min x.length ((capAddr c + wp) / 256 * 256 + 256 - capAddr c)
  | .land _ => min x.length (wp + 256)

/-- The engine of a channel, reading or writing through a capability of the transfer. -/
def copyActor (s : State) (core : Nat) (x : Transfer) (c : Cap) (r : Reg) : Actor :=
  ⟨core, false, (coreOf s core).team, x.owner, hasPerm c permSY, r.val, none, none⟩

/-- Granules written in order, a whole sector at a time where they cover one. -/
def writeGranules (a : Actor) : Nat → Nat → List (Nat × Bool) → Act Unit
  | 0, _, _ => pure ()
  | fuel + 1, va, gs =>
    match gs with
    | [] => pure ()
    | g :: rest => do
      if va % 64 = 0 ∧ 4 ≤ gs.length ∧ va < trustBase then
        writeWhole a va ((gs.take 4).zipIdx.map fun e => (va + 16 * e.2, bytesOf 16 e.1.1, e.1.2))
        writeGranules a fuel (va + 64) (gs.drop 4)
      else
        writePiece a va (bytesOf 16 g.1) g.2 rightST
        writeGranules a fuel (va + 16) rest

/-- The delivery of one piece: its source granules are read, then its destination granules are written. -/
def deliverPiece (core : Nat) (x : Transfer) (wp n : Nat) : Act Unit := do
  let s ← get
  let before := s.history.length
  let granules ← readGranules (copyActor s core x x.src x.ldReg) (granulesFrom (capAddr x.src + wp) (n / 16))
  match x.dst with
  | .land o =>
    modify fun s => onCore s core fun k =>
      { k with staging := putBytes 0 k.staging (o + wp) (granules.flatMap fun g => bytesOf 16 g.1) }
  | .global c =>
    let keep := hasPerm x.src permLC && hasPerm c permSC
    writeGranules (copyActor s core x c x.stReg) granules.length (capAddr c + wp) (granules.map fun g => (g.1, g.2 && keep))
  modify (oneEvent before)

/-- The channel after its pointer has reached `wp`. -/
def reached (ch : Channel) (x : Transfer) (wp : Nat) : Channel :=
  { ch with wp := wp, xfer := if wp ≥ x.length then none else some x, asked := none }

/-- The context that issued a transfer has been pre-empted: it is stopped, or saved and out of its slot (R52). -/
def copyPaused (s : State) (owner : Nat) : Bool :=
  match contextByUid s owner with
  | some id => (ctxOf s id).status == .stopped
  | none => s.teams.any fun t => t.saved.any fun e => e.out && e.context.uid == owner

def execCopyDelivery (core : Nat) (ch : Fin 4) (s : State) : Host.Outcome State Fault Refusal :=
  let c := channelOf (coreOf s core) ch.val
  match c.xfer with
  | none => .next s
  | some x =>
    let stop' := pieceEnd x c.wp
    let lines := (pieces (capAddr x.src + c.wp) (stop' - c.wp)).map (·.1)
    if copyPaused s x.owner || lines.any (ownedBefore s x.number) || landsLater (coreOf s core) x then .next s
    else
      match deliverPiece core x c.wp (stop' - c.wp) (withoutOwners x.number s) with
      | .ok (_, t) => .next (setChannel (withOwners s t) core ch.val (reached c x stop'))
      | .error (.trap t) => .next (onCore s core fun k => stopIn k ch.val t)
      | .error e =>
        finishAsking ((funcOfTeam s (coreOf s core).team).getD 0)
          (((coreOf s core).team.bind (teamBy s)).map (·.domain) |>.getD 0) (fun _ => .error e)
          (fun n s => setChannel s core ch.val { channelOf (coreOf s core) ch.val with asked := some n }) s

/-! ### Covered pools (R142, R164, R357, R358) -/

/-- A range of bytes meets granule number `g`. -/
def rangeMeets (g base n : Nat) : Bool := base < (g + 1) * granuleSize && g * granuleSize < base + n

/-- The core's channels, its epilogue job or an instruction that it holds may still reach the granule. -/
def coreReaches (g : Nat) (k : Core) : Bool :=
  k.ep.job.isSome || k.held.any (·.reach.contains g) ||
    k.channels.any fun (_, ch) => match ch.xfer with
      | none => false
      | some x => rangeMeets g (capAddr x.src) x.length || (match x.dst with
        | .global c => rangeMeets g (capAddr c) x.length
        | .land _ => false)

/-- A transfer, an epilogue job or a held instruction whose checks passed at issue may still reach the granule, that of a team
away from its cores too (R164). -/
def stillReached (s : State) (g : Nat) : Bool :=
  s.cores.any (fun (_, k) => coreReaches g k) || s.teams.any fun t => t.images.any fun (_, k) => coreReaches g k

/-- The granules whose counts fell to 0 in one event are freed in ascending order (R357). -/
def lowerFirst (d : Domain) (granule step : Nat) : Bool :=
  d.granules.any fun (i, r) => i < granule && r.state == .zero step

/-- Moraine frees a granule whose count is 0; it goes to scrub. -/
def execMoraineFree (domain granule : Nat) (s : State) : Host.Outcome State Fault Refusal :=
  let d := domainOf s domain
  let r := granuleAt d granule
  match r.state with
  | .zero step =>
    if stillReached s (d.covbase.toNat + granule) || lowerFirst d granule step then .next s
    else
      .next { setGranule s domain granule { r with state := .scrub } with
        scrub := s.scrub ++ [⟨.granule domain granule, none⟩] }
  | .free | .covered _ | .scrub | .ready | .retired => .next s

def viewPerms : Nat := permLD + permST + permAT + permVW

/-- The granule can be allocated: it never was, or it has been scrubbed. -/
def granuleFree : GranuleState → Bool
  | .free => true
  | .ready => true
  | .covered _ => false
  | .zero _ => false
  | .scrub => false
  | .retired => false

/-- A claimed granule has left its pool for good (R453). -/
def claimLost (d : Domain) (i n : Nat) : Bool := (upFrom i n).any fun j => (granuleAt d j).state == .retired

/-- Every claimed granule has been scrubbed: the counts become 1 and the view is written. Where one has been retired, the
instruction issues and claims again (log 97). -/
def execCoveredAllocation (core slot : Nat) (s : State) : Host.Outcome State Fault Refusal :=
  let id : CtxId := ⟨core, slot⟩
  let x := ctxOf s id
  match x.wait with
  | .covered base n dst status =>
    match coverDomain s base with
    | none => .next s
    | some dom =>
      let i := base - (domainOf s dom).covbase.toNat
      if claimLost (domainOf s dom) i n then .next (onCtx (dropClaim s x) id fun y => { y with wait := .none })
      else if x.status = .live ∧ (upFrom i n).all (fun j => granuleFree (granuleAt (domainOf s dom) j).state) then
        let s := (upFrom i n).foldl (fun s j => setGranule s dom j ⟨.covered 1, false⟩) s
        let v := boundedCap viewPerms (base * granuleSize) (n * granuleSize)
        .next (goOn (writeIntIn (writeCapIn s id dst.val v) id status.val 64 0) id 12)
      else .next s
  | _ => .next s

/-! ### Host visibility (R172) -/

/-- A pending store becomes visible to the host; an ordered one only after the earlier stores of its context (R167). -/
def execHostVisibility (index : Nat) (s : State) : Host.Outcome State Fault Refusal :=
  match s.pending[index]? with
  | none => .next s
  | some p =>
    if p.release ∧ (s.pending.take index).any (·.uid == p.uid) then .next s else .next (makeVisible s index)

end Sys2Proof.Machine
end

