-- ==== Sys2Proof/Machine/Translation.lean ====
section
/-!
DEFINITION. Events over pages and frames: the service of faults, shootdowns, page moves, scrub, page-in, and a function's
event ring with its replies (R154, R242, R398, R414 to R423, R430, R453).
-/

namespace Sys2Proof.Machine

/-! ### Copies of a range (R125, R154, R416) -/

/-- The sectors of a window that lie in [va, va + n), with their numbers. -/
def sectorsIn (w : Window) (va n : Nat) : List Nat :=
  (w.sectors.map (·.1)).filter fun i => va ≤ w.base + 64 * i && w.base + 64 * i < va + n

/-- The windows of one core write back and give up what they hold of [va, va + n). -/
def recallCore (va n : Nat) (s : State) (c : Nat) : State :=
  (coreOf s c).windows.foldl (fun s (num, w) => (sectorsIn w va n).foldl (giveBy writeBack true c num) s) s

def recallRange (s : State) (va n : Nat) : State := (s.cores.map (·.1)).foldl (recallCore va n) s

/-- What a window holds of [va, va + n) waits to be written back. -/
def windowsHeld (s : State) (va n : Nat) : Bool :=
  s.cores.any fun (c, k) => k.windows.any fun (num, w) => (sectorsIn w va n).any (backHeld s c num)

/-- Lines of [va, va + n) that a channel owns, or that wait for one. -/
def rangeOwned (s : State) (va n : Nat) : Bool :=
  windowsHeld s va n ||
    s.cores.any fun (_, k) => k.channels.any fun (_, ch) => match ownedLines ch with
      | none => false
      | some (first, last) => first * 256 < va + n && va < last * 256

/-- The cached translation maps some of [va, va + n). -/
def mapsSome (va n : Nat) (t : Translation) : Bool :=
  t.page * 2 ^ t.bits < va + n && va < (t.page + 1) * 2 ^ t.bits

/-- A physical address that a translation gives to some address of [va, va + n). -/
def placedBy (va n a : Nat) (t : Translation) : Bool :=
  let at' := placeOf t (t.page * 2 ^ t.bits)
  at' ≤ a && a < at' + 2 ^ t.bits && va ≤ t.page * 2 ^ t.bits + (a - at') && t.page * 2 ^ t.bits + (a - at') < va + n

/-- Stable copies of [va, va + n) go (R416). -/
def dropStable (s : State) (va n : Nat) : State :=
  let ts := s.translations.filter (mapsSome va n)
  { s with history := s.history.filter fun h => !ts.any (placedBy va n h.address) }

/-- Fetched and decoded copies of [va, va + n) go. -/
def dropFetched (s : State) (va n : Nat) : State :=
  { s with cores := s.cores.map fun (c, k) =>
      (c, { k with slots := k.slots.map fun (i, x) =>
        (i, { x with copies := x.copies.filter fun (a, _) => a < va || va + n ≤ a }) }) }

/-! ### Shootdown (R415, R416) -/

/-- A request of the host needs the I/O die (R431). -/
def requestShootdown (fromHost : Bool) (r : Shootdown) (s : State) : State :=
  if fromHost && !linkRuns s then s else { s with shootdowns := s.shootdowns ++ [r] }

def execShootdownTranslation (fromHost : Bool) (page count : Nat) (s : State) : Host.Outcome State Fault Refusal :=
  .next (if count = 0 then s else requestShootdown fromHost (.pages fromHost page count) s)

def execShootdownRights (fromHost : Bool) (domain : Nat) (s : State) : Host.Outcome State Fault Refusal :=
  .next (requestShootdown fromHost (.rights fromHost domain) s)

/-- The doublewords of SDREQ have been written: a request with reserved bits or of a reserved kind is dropped (R415). -/
def commitShootdown (s : State) (request : Nat) : State :=
  let kind := field request 114 112
  let count := field request 95 64
  if field request 127 115 ≠ 0 then s
  else if kind = 0 then (if count = 0 then s else requestShootdown true (.pages true (field request 63 0) count) s)
  else if kind = 1 then requestShootdown true (.rights true (field request 111 96)) s
  else s

/-- A transfer that runs, an epilogue job or a held matrix instruction may still reach [va, va + n) (R416, item 4). -/
def rangeBusy (s : State) (va n : Nat) : Bool :=
  windowsHeld s va n ||
    s.cores.any fun (_, k) =>
      k.ep.job.isSome || k.held.any (fun h => h.reach.any fun g => meet va n (g * granuleSize) granuleSize) ||
        k.channels.any fun (_, ch) => match ch.xfer with
          | none => false
          | some x => !copyPaused s x.owner && (meet va n (capAddr x.src) x.length || (match x.dst with
            | .global c => meet va n (capAddr c) x.length
            | .land _ => false))

/-- A shootdown or a move of the host's is complete. -/
def countDone (s : State) (fromHost : Bool) : State :=
  if fromHost then { s with sddone := (s.sddone + 1) % 2 ^ 64 } else s

/-- What is cached of a range goes; Dirty copies are written back through the old translation. -/
def shootRange (s : State) (va n : Nat) : State :=
  let s := dropFetched (dropStable (recallRange s va n) va n) va n
  { s with translations := s.translations.filter fun t => !mapsSome va n t }

/-! ### Frames (R154, R430, R453) -/

/-- The sectors of a 64 KiB frame. -/
def frameSectors (pa : Nat) : List Nat := (upFrom 0 1024).map fun i => pa + 64 * i

/-- Zeros with zero tags are written to a frame under a key identifier; after zeroing by the driver too (R398, R430). -/
def zeroFrame (s : State) (key pa : Nat) : State :=
  (frameSectors pa).foldl (fun s a => physPut s key a (List.replicate 64 0) false) s

def frameOf (pa : Nat) : Nat := pa / 65536 * 65536

/-- The first poisoned sector of a frame, by its offset. -/
def framePoison (s : State) (pa : Nat) : Option Nat := (upFrom 0 1024).findSome? fun i =>
  if memNat s.poison (pa / 64 + i) then some (64 * i) else none

/-- A frame lies where there is no storage (R1). -/
def beyondStorage (pa : Nat) : Bool := pa + 65536 > Config.hbmBytes

/-- The function that a domain is assigned to. -/
def funcOfDomain (s : State) (d : Nat) : Nat := ((domainOf s d).func).getD 0

/-- The domain whose pools or grants hold a page (the spec names none for a moved frame: DEDUCED, log 40). -/
def domainOfPage (s : State) (page : Nat) : Nat :=
  ((s.domains.find? fun (d, x) =>
    (kvIndex x page).isSome || (x.covbase.toNat ≤ page && page < x.covbase.toNat + x.covgran.toNat) ||
      (freshGrant s d page).isSome).map (·.1)).getD 0

/-! ### Page moves (R417) -/

/-- One sector of a frame with its four tags is copied to another frame and key identifier. -/
def moveSector (old new : Nat) (src dst : Nat) (s : State) (i : Nat) : State :=
  let a := src + 64 * i
  putSector s false new (dst + 64 * i)
    ([0, 16, 32, 48].map fun o => (s.memory.readKeyed old (a + o) 16, physTag s old (a + o)))

/-- The engine that moves a page comes to the old frame, the new one and the leaf. -/
def reachMove (t : Translation) (va pa : Nat) : Act Unit := do
  approach (leafPA t.entry.toNat) 65536 va false
  approach pa 65536 va true
  match t.leafAt with
  | some a => reach a 16 va true
  | none => pure ()

/-- The walk of a page for a function, which the driver answers where the function posts its walks (R398). -/
def walkFor (f page : Nat) : Act Walk := fun s =>
  if postsWalks s (some f) then
    match cachedLeaf s (page * 65536) with
    | none => .error (.walk page 0 none)
    | some t => .ok (.leaf t, s)
  else (walked s (page * 65536)).map fun s => (walk s (page * 65536), s)

/-- The page of a leaf moves to a new frame, and its translations and stable copies with it; of a leaf that the driver supplied,
those alone. -/
def movePage (s : State) (t : Translation) (page pa key : Nat) : State :=
  let e := t.entry.toNat
  let src := leafPA e
  let va := page * 65536
  let s := makeAllVisible (fun p => src ≤ p.address && p.address < src + 65536) s.pending.length (recallRange s va 65536)
  let s := (upFrom 0 1024).foldl (moveSector (leafKey e) key src pa) s
  let new (e : Nat) : Nat := setField (setField e 111 64 pa) 31 16 key
  let s := match t.leafAt with
    | some a => tableWrite s a (bytesOf 16 (new (tableEntry s a)))
    | none => s
  { s with
    history := s.history.map fun h =>
      if src ≤ h.address ∧ h.address < src + 65536 then { h with address := h.address - src + pa } else h
    translations := s.translations.map fun c =>
      if c.bits = 16 ∧ c.page = page then { c with entry := BitVec.ofNat 128 (new c.entry.toNat) } else c
    scrub := s.scrub ++ [⟨.frame (domainOfPage s page) src, none⟩] }

/-- A page move that no earlier request of the host stands before; `ends` counts it as complete. One that meets poison resets
the partition (R453) and has ended too (log 94). -/
def performMove (request : BitVec 128) (ends : State → State) (s : State) : Host.Outcome State Fault Refusal :=
  let page := field request.toNat 63 0
  let pa := field request.toNat 111 64
  let new := field request.toNat 127 112
  let va := page * 65536
  let dom := domainOfPage s page
  let f := funcOfDomain s dom
  match walkFor f page s with
  | .error e => finishEvent f dom (fun _ => .error e) s
  | .ok (w, s) =>
    match w with
    | .fails _ => .next (ends s)
    | .leaf t =>
      let e := t.entry.toNat
      if t.bits ≠ 16 ∨ leafHM e ∨ new > 4095 then .next (ends s)
      else if rangeOwned s va 65536 then .next s
      else if beyondStorage (leafPA e) then .fault (.noStorage (leafPA e))
      else if beyondStorage pa then .fault (.noStorage pa)
      else match framePoison s (leafPA e) with
        | some o => .next (poisonReset (ends s) (leafKey e) (va + o) f dom)
        | none =>
          match reachMove t va pa s with
          | .error e => finishEvent f dom (fun _ => .error e) s
          | .ok (_, s) => .next (ends (movePage s t page pa (if new = 0 then leafKey e else new)))

/-- The request is the host's. -/
def ofHost : Shootdown → Bool
  | .pages host _ _ => host
  | .rights host _ => host
  | .move _ => true

/-- A page move that the host requests now: it waits for the requests written before it (R415, R417). -/
def execPageMove (request : BitVec 128) (s : State) : Host.Outcome State Fault Refusal :=
  if !linkRuns s || s.shootdowns.any ofHost then .next s else performMove request (countDone · true) s

/-! ### Requests complete in their order (R415) -/

def execShootdownComplete (s : State) : Host.Outcome State Fault Refusal :=
  match s.shootdowns with
  | [] => .next s
  | .pages host page count :: rest =>
    let va := page * 65536
    let n := count * 65536
    if rangeBusy s va n then .next s
    else .next (countDone (shootRange { s with shootdowns := rest } va n) host)
  | .rights host dom :: rest =>
    let s := { s with
      shootdowns := rest
      cores := s.cores.map fun (c, k) => (c, { k with grants := k.grants.filter (·.domain != dom) }) }
    .next (countDone s host)
  | .move request :: rest => performMove request (fun s => countDone { s with shootdowns := rest } true) s

/-! ### Contexts under a ticket (R420, R421) -/

/-- The parked WAIT of a queue is denied: it retires with status 5 (the spec gives no number: DESIGN CHOICE, log 44). -/
def denyParked (s : State) (q : Nat) : State :=
  match (queueOf s q).commands.find? fun c => c.started && commandOpc c == 2 with
  | some c => retire s q c.entry 5
  | none => s

/-- The contexts that wait on a ticket, trapped or out of the rotation. -/
def waitersOf (s : State) (n : Nat) : List (CtxId × Context) :=
  s.cores.flatMap fun (c, k) =>
    (k.slots.filter fun (_, x) =>
      (x.status == .trapped && x.ticket == n && n != 0) || waitsFor n x).map fun (i, x) => (⟨c, i⟩, x)

/-- Transfers and the job of a core that wait for a ticket stop, and record the fault (R132, R330). -/
def stopAskedIn (n : Nat) (t : Trap) (k : Core) : Core :=
  let k := (k.channels.filter fun e => e.2.asked == some n).foldl (fun k e => stopIn k e.1 t) k
  { k with ep := if k.ep.asked = some n then { k.ep with job := none, fault := some t, asked := none } else k.ep }

/-- The commands that wait for a ticket, with their queues. -/
def askedCommands (s : State) (n : Nat) : List (Nat × Nat) :=
  s.queues.flatMap fun (q, x) => (x.commands.filter fun c => c.asked == some n).map fun c => (q, c.entry)

/-- What waits for a service that has failed, beside contexts, stops: transfers, jobs, and commands, which retire with status 5
(R132, R330, R394); a reset goes on without the record that it could not reach (log 103). -/
def stopAsked (s : State) (t : Ticket) : State :=
  let trap : Trap := ⟨causeTranslation, t.page, 0⟩
  let stop (e : Nat × Core) : Nat × Core := (e.1, stopAskedIn t.number trap e.2)
  let s := { s with cores := s.cores.map stop, teams := s.teams.map fun u => { u with images := u.images.map stop } }
  let s := (askedCommands s t.number).foldl (fun s e => retire s e.1 e.2 5) s
  (s.resets.filter fun r => r.asked == some t.number).foldl (fun s r => skipRecord r s) s

/-- Change every context that is away from its cores with its team. -/
def onAway (f : Context → Context) (s : State) : State :=
  { s with teams := s.teams.map fun t => { t with away := t.away.map fun (i, x) => (i, f x) } }

/-- The service of a cause that is no page fault: an upcall with its three values, or the end of the context (R242). -/
def otherTrap (s : State) (id : CtxId) : State :=
  let x := ctxOf s id
  match upcallFor s id with
  | some (t, e) =>
    onCtx (dropShadow s id 3) id fun y =>
      awake (coreOf s id.core) (enterUpcall t e (withCursor x.code x.trappc.toNat)
        [x.trapcause.toNat, x.trappc.toNat, x.trapinfo.toNat] { unserved y with fetched := false })
  | none => endTrapped (onCtx s id unserved) id

/-- What a trapped context waits for has been denied: it is treated as denied where it trapped on a page, else as any other
trapped context; one whose pre-emption is pending, once it is restored (R252, R420, R423). -/
def denyTrapped (s : State) (id : CtxId) : State :=
  if (ctxOf s id).preempt then onCtx s id fun x => { x with ticket := 0, recorded := true, denied := true }
  else if (faultPage (ctxOf s id)).isSome then denyContext (onCtx s id unserved) id
  else otherTrap s id

/-- A waiting context is treated as denied, a stopped one as it goes on. The system context, which takes no upcall and is not
ended, takes the fault of its walk (DESIGN CHOICE, log 116). -/
def denyWaiter (t : Ticket) (s : State) (e : CtxId × Context) : State :=
  if e.2.status = .stopped then onCtx s e.1 (waitEnded t true)
  else if e.2.status = .trapped then denyTrapped s e.1
  else if e.1.slot = 11 then deliverTrapTo (walkTrap t.page e.2) s e.1
  else denyContext (if t.kind = .walk then onCtx s e.1 (setTrapRegs (walkTrap t.page e.2)) else s) e.1

/-- Every waiting context is treated as denied (R423), those away from their slots when they return. -/
def denyService (s : State) (t : Ticket) : State :=
  let s := { s with tickets := s.tickets.filter (·.number != t.number) }
  let s := onAway (savedDone t true) (onSaved (savedDone t true) s)
  forgetTicket t.number (t.parked.foldl denyParked ((waitersOf s t.number).foldl (denyWaiter t) (stopAsked s t)))

/-- A walk that a context waits for has failed: it raises its fault, or, where it stands stopped, issues its access again. -/
def failWaiter (t : Ticket) (s : State) (e : CtxId × Context) : State :=
  if e.2.status = .trapped then denyTrapped s e.1
  else
    let s := onCtx s e.1 fun x => { x with wait := .none }
    if e.2.status = .stopped then s else deliverTrapTo (walkTrap t.page e.2) s e.1

/-- A posted walk that found no leaf fails (R411). -/
def failWalk (s : State) (t : Ticket) : State :=
  let again (x : Context) : Context := if waitsFor t.number x then waitEnded t false x else x
  let s := stopAsked { s with tickets := s.tickets.filter (·.number != t.number) } t
  forgetTicket t.number ((waitersOf s t.number).foldl (failWaiter t) (onAway again (onSaved again s)))

/-- A context whose page is under service (R420). -/
def awaitService (s : State) (id : CtxId) (n : Nat) : State :=
  if (ctxOf s id).upcalled.contains n then
    onCtx s id fun x =>
      { unserved x with status := .live, wait := .page n none, code := withCursor x.code x.trappc.toNat }
  else
    match upcallFor s id with
    | some (t, e) => onCtx (serviceUpcall s id t e n) id fun x => { x with upcalled := x.upcalled ++ [n] }
    | none => onCtx s id fun x => { unserved x with ticket := n }

/-- The supervisor comes to the page table entries and the grants that its checks of a page read (R125, R130, R453); where the
function posts its walks, it reads no table. -/
def repeatChecks (f dom page : Nat) : Act Unit := do
  if !postsWalks (← get) (some f) then
    reachWalk (page * 65536) levels (rootTable (← get))
  reachGrants dom page (page * 65536) 14 0 (min 4096 (domainOf (← get) dom).gcnt.toNat)

/-- What the supervisor does with a context that trapped on a page, by what it found (R419). -/
def servePage (id : CtxId) (t : Team) (page : Nat) (found : Finding) (s : State) : State :=
  let service (kind : TicketKind) : State :=
    let (n, s) := startService s kind t.func t.domain page (ctxOf s id).needs []
    awaitService s id n
  match found with
  | .present => onCtx s id (resumeTrapped (coreOf s id.core))
  | .denial | .unmapped => denyContext s id
  | .evicted b => service (.evicted b)
  | .driver => service .driver

/-- The service of a page fault of a trapped context (R419). -/
def serveFault (id : CtxId) (t : Team) (page : Nat) : Act Unit := do
  repeatChecks t.func t.domain page
  modify fun s => servePage id t page (classify s t.func t.domain page (ctxOf s id).needs) s

/-! ### A call into an unloaded object (R379, R382) -/

/-- `cld c14, [c15 + 0]`, of class 0b00. -/
def reloadWord : Nat := 0x000F3A88

/-- `kenter` with B = 14, whatever its A. -/
def entersC14 (w : Nat) : Bool := field w 9 0 == 0x130 && field w 31 16 == 14

/-- The call sequence of a context that a fetch fault with sub-cause 7 trapped in an unloaded object: its `cld`, where the link
in `c31` (log 93) stands after that sequence. -/
def staleCall (id : CtxId) : Act (Option Cap) := do
  let x := ctxOf (← get) id
  let link := regOf x 31
  let a := capAddr link
  if x.trapcause.toNat = causeFetch ∧ field x.trapinfo.toNat 2 0 = 7 ∧ 8 ≤ a then do
    let reload ← codeWord id (a - 8)
    let enter ← codeWord id (a - 4)
    pure (if reload = some reloadWord ∧ enter.any entersC14 then some (withCursor link (a - 8)) else none)
  else pure none

/-- The service of every other cause (R242): the call is made again (R379), or an upcall, or the end of the context. -/
def serveTrap (id : CtxId) : Act Unit := do
  match ← staleCall id with
  | some code =>
    modify fun s => onCtx s id fun x => { awake (coreOf s id.core) (unserved x) with status := .live, code := code }
  | none => modify fun s => otherTrap s id

/-- The supervisor's own service of a trapped context; of one whose service was denied while it was away, as denied (R423). -/
def defaultService (id : CtxId) : Act Unit := do
  let s ← get
  let x := ctxOf s id
  match if x.status = .trapped then teamOf s id else none with
  | none => pure ()
  | some t =>
    if x.denied then set (denyTrapped (onCtx s id fun x => { x with denied := false }) id)
    else match faultPage x with
      | some page => serveFault id t page
      | none => serveTrap id

/-! ### Runs of a system context (R242, R309, R419, R438) -/

/-- The registers of a run: `c1` to `c4` and `c5`. -/
def runRegisters (s : State) (core : Nat) (args : List Cap) (c5 : Cap) : State :=
  let s := (upFrom 0 4).foldl (fun s i => writeCapIn s ⟨core, 11⟩ (i + 1) (args.getD i Cap.null)) s
  writeCapIn s ⟨core, 11⟩ 5 c5

/-- The system context starts a run at a code capability, with no call of an earlier one. -/
def startRun (s : State) (core : Nat) (run : Run) (code : Cap) (args : List Cap) (c5 : Cap) : State :=
  let s := runRegisters s core args c5
  let s := onCore s core fun k => { k with run := run }
  onCtx s ⟨core, 11⟩ fun x =>
    { x with code := code, wait := .none, calls := [], fetched := false, fetchSince := (coreOf s core).cycle }

def plainNat (n : Nat) : Cap := Cap.plain (BitVec.ofNat 128 n)

/-- The notice of a trapped context is taken and served: by an installed service of the firmware, or by the supervisor's own,
which waits for what owns a line that it reads, and for a walk that it posts. -/
def serveNotice (take : State → State) (core slot cause pc info : Nat) (s : State) : Host.Outcome State Fault Refusal :=
  let id : CtxId := ⟨core, slot⟩
  let args := [plainNat slot, plainNat cause, plainNat pc, plainNat info]
  if Config.serviceInstalled cause then .next (startRun (take s) core (.notice slot) Config.noticeEntry args Config.noticeData)
  else
    let taken (s : State) : State := runRegisters (take s) core args Config.noticeData
    finishAsking (partitionOfCtx s id) (domainOfCtx s id) (do modify taken; defaultService id)
      (fun n s => onCtx (taken s) id fun x => { x with ticket := n }) s

/-- The supervisor's own service of a context is put off: its pre-emption is pending, and `eret` would resume nothing (R252). -/
def putOff (cause : Nat) (x : Context) : Bool := x.preempt && !Config.serviceInstalled cause

/-- A trapped context of a core whose notice the supervisor has recorded (R435). -/
def recordedTrap (k : Core) : Option (Nat × Context) :=
  k.slots.find? fun (n, x) => n != 11 && x.status == .trapped && x.recorded && !putOff x.trapcause.toNat x

/-- The trap entry of a core's system context stands in a run. -/
def inTrapEntry (k : Core) : Bool := k.trapOpen && k.run != .idle

/-- The system context takes a trap notice: one that it has recorded, else the next that is queued. In its trap entry it abandons
its run first (R241). -/
def execTrapNoticeRun (core : Nat) (s : State) : Host.Outcome State Fault Refusal :=
  let k := coreOf s core
  if inTrapEntry k then .next (endTrapEntry s core)
  else match if k.run = .idle ∧ !k.trapOpen then recordedTrap k else none with
  | some (slot, x) =>
    serveNotice (fun s => onCtx s ⟨core, slot⟩ fun x => { x with recorded := false }) core slot x.trapcause.toNat
      x.trappc.toNat x.trapinfo.toNat s
  | none =>
    match nextArrival k with
    | some (i, .notice slot cause pc info) =>
      if putOff cause (ctxOf s ⟨core, slot⟩) then .next s
      else serveNotice (fun s => takeArrival s core i) core slot cause pc info s
    | some (_, .message _) => .next s
    | some (_, .spawn _) => .next s
    | none => .next s

/-- `c5` of a message run (R309). -/
def senderWord (m : Message) : Nat := m.package * 2 ^ 24 + m.sender.core * 2 ^ 4 + m.sender.slot

/-- A queued message is taken; its run starts at the handler. In its trap entry the system context abandons its run first
(R241). -/
def execMessageRun (core : Nat) (s : State) : Host.Outcome State Fault Refusal :=
  if inTrapEntry (coreOf s core) then .next (endTrapEntry s core)
  else match nextArrival (coreOf s core) with
  | some (i, .message m) =>
    .next (startRun (takeArrival s core i) core (.message m) (withSeal m.handler false) m.args (plainNat (senderWord m)))
  | some (_, .notice _ _ _ _) => .next s
  | some (_, .spawn _) => .next s
  | none => .next s

/-- A context takes a completion notice at its instruction boundary, outside a fast handler (R421); an instruction that holds
its place among those of its core goes on first (R352). -/
def execCompletionNotice (core slot : Nat) (s : State) : Host.Outcome State Fault Refusal :=
  let id : CtxId := ⟨core, slot⟩
  let x := ctxOf s id
  match x.notices, (teamOf s id).bind fun t => t.upcall.map fun e => (t, e) with
  | n :: rest, some (t, e) =>
    if x.status = .live ∧ x.wait = .none ∧ !x.holding ∧ !x.handler.active ∧ slot < 11 ∧
        (standing (coreOf s core) slot).isNone then
      .next (onCtx (dropShadow s id 4) id fun y =>
        awake (coreOf s core) (enterUpcall t e x.code [0, 0, 0, n] { y with notices := rest, fetched := false }))
    else .next s
  | _, _ => .next s

/-! ### Page-in and scrub (R154, R398, R419) -/

/-- The device comes to the backing, the frame and the leaf of a page. -/
def reachPageIn (t : Ticket) (frame backing : Nat) : Act Unit := do
  let va := t.page * 65536
  approach (hostBase + backing) 65536 va false
  approach frame 65536 va true
  reachWalk va levels (rootTable (← get))
  reach (endOfWalk (← get) va).1 16 va true

/-- The page is read from its backing, its leaf is written valid and its service completes. -/
def finishPageIn (s : State) (t : Ticket) (frame backing : Nat) : State :=
  let key := (domainOf s t.domain).keyid.toNat
  let va := t.page * 65536
  let bytes (i : Nat) : List Byte :=
    let a := hostBase + backing + 64 * i
    throughPending s.pending a (s.memory.bytes a 64)
  let s := (upFrom 0 1024).foldl (fun s i => physPut s key (frame + 64 * i) (bytes i) false) s
  let (a, e, shift) := endOfWalk s va
  let s := if absentLeaf e shift then
      tableWrite s a (bytesOf 16 (setField (setField (setField e 1 0 3) 111 64 frame) 31 16 key))
    else s
  completeService s t

/-- The place of the next entry of a domain's frame ring (R413): its entries are frame addresses (DEDUCED, log 41). -/
def ringPlaceOf (d : Domain) : Nat := field d.fring.toNat 47 3 * 8 + 8 * (d.fcons.toNat % 2 ^ field d.flog2.toNat 3 0)

def ringEmpty (d : Domain) : Bool := d.fprod == d.fcons

/-- The ring is empty: one event asks for frames. -/
def askFrames (s : State) (t : Ticket) : State :=
  if t.asked then s
  else
    postEvent { s with tickets := s.tickets.map fun u => if u.number == t.number then { u with asked := true } else u }
      t.func ⟨6, 0, 0, t.domain, 0⟩

/-- The device pages in: it takes a frame, scrubs it, reads the backing and writes the leaf. For a function that has begun to post
its walks it does not: what waits issues its access again (R398). -/
def execPageIn (ticket : Nat) (s : State) : Host.Outcome State Fault Refusal :=
  match s.tickets.find? (·.number == ticket) with
  | none => .next s
  | some t =>
    match t.kind with
    | .evicted backing =>
      if s.scrub.any (fun i => match i.what with
          | .ring _ _ n => n == ticket
          | .kv _ _ | .granule _ _ | .frame _ _ => false) then .next s
      else if postsWalks s (some t.func) then .next (cancelTicket s t)
      else if ringEmpty (domainOf s t.domain) then .next (askFrames s t)
      else
        match ringRead (ringPlaceOf (domainOf s t.domain)) 8 s with
        | .error e => finishEvent t.func t.domain (fun _ => .error e) s
        | .ok (frame, u) =>
          let u := onDomain u t.domain fun d => { d with fcons := d.fcons + 1 }
          if beyondStorage frame then .fault (.noStorage frame)
          else if bit (funcOf u t.func).fmode.toNat 3 then
            .next { u with scrub := u.scrub ++ [⟨.ring t.domain frame ticket, none⟩] }
          else
            match reachPageIn t frame backing u with
            | .error e => finishEvent t.func t.domain (fun _ => .error e) s
            | .ok (_, u) => .next (finishPageIn (zeroFrame u (domainOf u t.domain).keyid.toNat frame) t frame backing)
    | .driver => .next s
    | .walk => .next s
    | .zeroing => .next s

/-- Domain of what is scrubbed, and its virtual address or its frame. -/
def scrubPlace (s : State) : ScrubWhat → Nat × (Nat ⊕ Nat)
  | .kv d p => (d, .inl (((domainOf s d).kvbase.toNat + p) * 65536))
  | .granule d g => (d, .inl (((domainOf s d).covbase.toNat + g) * 65536))
  | .frame d a => (d, .inr a)
  | .ring d a _ => (d, .inr a)

/-- The frame that the scrub engine writes: that of a virtual address by a walk for the domain's function, which marks the leaf
as one for a write does (R398, R411). -/
def scrubFrame (f dom : Nat) : Nat ⊕ Nat → Act Nat
  | .inr pa => pure pa
  | .inl va => inName f dom (do
      let t ← translate (tableActor 0) va rightST
      useLeaf t va true
      pure (placeOf t va))

/-- The storage rejoins its pool, or is reported; a frame that has poisoned twice goes to no free list (R453). -/
def rejoin (s : State) (what : ScrubWhat) (frame : Nat) : State :=
  let gone := s.retired.contains frame
  match what with
  | .kv d p => setKvPage s d p (if gone then .retired else .ready)
  | .granule d g =>
    setGranule s d g { granuleAt (domainOf s d) g with state := if gone then .retired else .ready }
  | .frame d a => if gone then s else postEvent s (funcOfDomain s d) ⟨5, 0, 0, d, a⟩
  | .ring _ a n =>
    match s.tickets.find? (·.number == n) with
    | some t => (match t.kind with
        | .evicted b => finishPageIn s t a b
        | .driver | .walk | .zeroing => s)
    | none => s

/-- The zeroing of a frame is asked of the driver. -/
def askZeroing (s : State) (i : Nat) (it : ScrubItem) (f dom frame : Nat) : State :=
  let n := newTicket s
  let s := { s with
    tickets := s.tickets ++ [⟨n, .zeroing, f, dom, frame, [], false⟩]
    scrub := setAt s.scrub i { it with asked := some n } }
  postEvent s f ⟨4, 0, n, dom, frame⟩

/-- The engine comes to the storage of a scrub item, and to what a page-in needs that waits for it. -/
def reachScrub (it : ScrubItem) (va : Option Nat) (pa : Nat) : Act Unit := do
  match va with
  | some a => modify fun s => dropStable (recallRange s a 65536) a 65536
  | none => pure ()
  match it.what with
  | .ring _ a n =>
    match (← get).tickets.find? (·.number == n) with
    | some t => (match t.kind with
        | .evicted b => reachPageIn t a b
        | .driver | .walk | .zeroing => approach pa 65536 0 true)
    | none => approach pa 65536 0 true
  | .kv _ _ | .granule _ _ | .frame _ _ => approach pa 65536 (va.getD 0) true

/-- The scrub of one piece of storage: recall, zeros, the pool's key identifier, and its return. Storage that no translation
places stays in the queue until one does (DESIGN CHOICE, log 95). -/
def execScrub (item : Nat) (s : State) : Host.Outcome State Fault Refusal :=
  match s.scrub[item]? with
  | none => .next s
  | some it =>
    let (dom, where') := scrubPlace s it.what
    let f := funcOfDomain s dom
    let key := (domainOf s dom).keyid.toNat
    let va := where'.getLeft?
    if va.any fun a => rangeOwned s a 65536 then .next s
    else match scrubFrame f dom where' s with
    | .error e => finishEvent f dom (fun _ => .error e) s
    | .ok (pa, t) =>
      if beyondStorage pa then .fault (.noStorage pa)
      else
        match reachScrub it va pa t with
        | .error e => finishEvent f dom (fun _ => .error e) s
        | .ok (_, recalled) =>
          let done := rejoin { zeroFrame recalled key pa with scrub := removeAt s.scrub item } it.what pa
          if bit (funcOf s f).fmode.toNat 3 then
            match it.asked with
            | none => .next (askZeroing recalled item it f dom pa)
            | some n => if s.tickets.any (·.number == n) then .next s else .next done
          else .next done

/-! ### Events and replies (R422, R423) -/

/-- The fields of an event below its stamp. -/
def eventWord (e : HostEvent) : Nat :=
  e.cause % 2 ^ 8 + e.detail % 2 ^ 32 * 2 ^ 8 + e.ticket % 2 ^ 32 * 2 ^ 64 + e.domain % 2 ^ 16 * 2 ^ 96 +
    e.address % 2 ^ 80 * 2 ^ 112

/-- The oldest event is written once there is room, its stamp last. -/
def execEventWrite (func : Nat) (s : State) : Host.Outcome State Fault Refusal :=
  let f := funcOf s func
  let depth := 2 ^ field f.fevr.toNat 5 1
  match f.events with
  | [] => .next s
  | e :: rest =>
    if linkRuns s ∧ bit f.fevr.toNat 0 ∧ f.posted < f.fevhead.toNat + depth then
      let a := hostBase + field f.fevr.toNat 63 6 * 64 + 32 * (f.posted % depth)
      if blocked s a 32 then .next s
      else
        let s := sysStore s a (bytesOf 24 (eventWord e))
        let s := sysStore s (a + 24) (bytesOf 8 (f.posted + 1))
        .next (onFunc s func fun x => { x with events := rest, posted := x.posted + 1 })
    else .next s

/-- The leaf of a reply is used as the result of the walk (R411). -/
def answerWalk (s : State) (t : Ticket) (leaf level : Nat) : State :=
  let bits := [16, 21, 30].getD level 16
  if bit leaf 0 ∧ bit leaf 1 ∧ !badLeaf leaf bits then
    completeService (cacheTranslation s ⟨t.page * 65536 / 2 ^ bits, bits, BitVec.ofNat 128 leaf, none⟩) t
  else failWalk s t

/-- A reply of the driver to a ticket of its function. -/
def execEventReply (func : Nat) (reply : BitVec 256) (s : State) : Host.Outcome State Fault Refusal :=
  let r := reply.toNat
  let result := field r 231 224
  let level := field r 129 128
  if !linkRuns s then .next s
  else match s.tickets.find? fun t => t.number == field r 223 192 && t.func == func with
  | none => .next (countDrop s func)
  | some t =>
    if field r 191 130 ≠ 0 ∨ field r 255 232 ≠ 0 ∨ result > 1 then .next (countDrop s func)
    else
      match t.kind with
      | .evicted _ => if result = 1 then .next (denyService s t) else .next (completeService s t)
      | .walk =>
        if result = 1 then .next (denyService s t)
        else if level = 3 then .next (countDrop s func)
        else .next (answerWalk s t (field r 127 0) level)
      | .driver => if result = 1 then .next (denyService s t) else .next (completeService s t)
      | .zeroing =>
        let s := { s with tickets := s.tickets.filter (·.number != t.number) }
        if result = 0 then .next s
        else .next { s with scrub := s.scrub.map fun i => if i.asked == some t.number then { i with asked := none } else i }

end Sys2Proof.Machine
end

