-- ==== Sys2Proof/Machine/Queues.lean ====
section
/-!
DEFINITION. Host queues: doorbells, intake and its slots, and the commands that are not about launches or bindings
(R173, R386 to R398, R407).
-/

namespace Sys2Proof.Machine

/-! ### Accesses of a command (R394) -/

def queueCfg (s : State) (q : Nat) : BitVec 128 := (queueOf s q).cfg
def queueDomain (s : State) (q : Nat) : Nat := qcfgDomain (queueCfg s q)
def queueFunc (s : State) (q : Nat) : Nat := qcfgFunc (queueCfg s q)
def queueHome (s : State) (q : Nat) : Nat := qcfgHome (queueCfg s q)

/-- The engine of a queue: its accesses pass the grants of the queue's domain. -/
def queueActor (s : State) (q : Nat) : Actor := engineActor (queueHome s q) (some machineUid)

/-- What an access of a command comes to. -/
inductive Access (α : Type)
  | got (v : α) (s : State)
  | refused                                   -- the domain does not permit it, or nothing is mapped there
  | wait (s : State)                          -- it is tried again from this state
  | walk (ticket : Nat) (s : State)           -- its walk is posted to the driver (R398)
  | halt (f : Fault)

/-- The stores a command made, those of a step in a system context too, are visible to the host as it retires (R395). -/
def showStores (s : State) : State :=
  makeAllVisible (fun p => p.team == some machineUid || (p.uid == machineUid && p.team == none)) s.pending.length s

/-- A page that a command needs is not there: its service starts, or the command is refused (R392, R419). -/
def missingPage {α : Type} (s : State) (q : Nat) (t : Trap) (parked : List Nat) : Access α :=
  let f := queueFunc s q
  let dom := queueDomain s q
  match servedKind s f dom t with
  | some kind => .wait (startService s kind f dom t.info t.rights parked).2
  | none => if t.cause = causeTranslation ∧ classify s f dom t.info t.rights = .present then .wait s else .refused

/-- An access in the name of a queue. -/
def queueAccess {α : Type} (s : State) (q : Nat) (parked : List Nat) (m : Actor → Act α) : Access α :=
  let f := queueFunc s q
  let dom := queueDomain s q
  match m (queueActor s q) { s with teams := blankTeam f dom :: s.teams } with
  | .ok (v, t) => .got v (withoutBlank (showStores t))
  | .error (.trap t) => missingPage s q t parked
  | .error (.hold _) => .wait s
  | .error (.done t) => .wait (withoutBlank t)
  | .error (.poison key va) => .wait (poisonReset s key va f dom)
  | .error (.walk page rights _) =>
    let (n, t) := postWalk s f dom page rights
    .walk n t
  | .error (.fault e) => .halt e

/-- The command of an entry waits for a ticket's walk. -/
def askCommand (q entry n : Nat) (s : State) : State :=
  onQueue s q fun x => { x with
    commands := x.commands.map fun (c : Command) => if c.entry == entry then { c with asked := some n } else c }

/-- A refused access retires its command with status 5 (the spec gives no number: DESIGN CHOICE, log 44). -/
def onAccess {α : Type} (s : State) (q entry : Nat) (r : Access α)
    (k : α → State → Host.Outcome State Fault Refusal) : Host.Outcome State Fault Refusal :=
  match r with
  | .got v t => k v t
  | .refused => .next (retire s q entry 5)
  | .wait t => .next t
  | .walk n t => .next (askCommand q entry n t)
  | .halt f => .fault f

/-! ### Ranges that a domain grants (R394, R400) -/

/-- Grants with the rights cover the pages [page, last], entry by entry. -/
def grantedFrom (s : State) (dom rights last : Nat) : Nat → Nat → Bool
  | 0, _ => false
  | fuel + 1, page =>
    if page > last then true
    else
      match freshGrant s dom page with
      | none => false
      | some g => grantHas g rights && grantedFrom s dom rights last fuel (max (page + 1) (g.page + g.pages))

/-- The domain grants every page of [base, base + len). -/
def rangeGranted (s : State) (dom base len rights : Nat) : Bool :=
  len == 0 || grantedFrom s dom rights ((base + len - 1) / 65536) 4098 (base / 65536)

/-- A core comes to the grant table of a domain, for the range at `va`. -/
def reachTable (dom va : Nat) : Act Unit := do
  let d := domainOf (← get) dom
  reach (grantTable d) (32 * min 4096 d.gcnt.toNat) va false

/-! ### Start of a command (R394, R395) -/

/-- The queue is served: it is enabled, no reset of its partition is under way, the home core and the I/O die run their firmware,
and no channel owns what the home core writes (R386, R450). -/
def homeRuns (s : State) (q : Nat) : Bool :=
  qcfgEnable (queueCfg s q) && (resetOf s (queueFunc s q)).isNone && (coreOf s (queueHome s q)).started && linkRuns s &&
    queueClear s q

/-- The command may start (R395): every earlier one has started, none of WAIT, FENCE and BIAS is left before it, and
with BAR, or as a FENCE, it is the oldest. -/
def mayStart (q : Queue) (c : Command) : Bool :=
  let earlier := q.commands.filter (·.entry < c.entry)
  !c.started && earlier.all (·.started) &&
    earlier.all (fun e => commandOpc e != 2 && commandOpc e != 4 && commandOpc e != 8) &&
    ((!commandBar c && commandOpc c != 4) || earlier.isEmpty)

/-- The payload bits of an opcode that are not reserved. -/
def usedBits : Nat → List (Nat × Nat)
  | 1 => [(143, 64)]
  | 2 => [(143, 64), (145, 144), (255, 192)]
  | 3 => [(143, 64), (144, 144), (255, 192)]
  | 4 => [(143, 64), (255, 192)]
  | 5 => [(79, 64), (207, 80), (215, 208), (219, 216), (255, 224)]
  | 6 => [(79, 64), (207, 80)]
  | 7 => [(79, 64)]
  | 8 => [(143, 64), (175, 144), (176, 176)]
  | 9 => [(127, 64), (159, 128), (255, 176)]
  | 10 => [(79, 64), (86, 80), (92, 87), (175, 96), (196, 176), (287, 208), (303, 288)]
  | _ => []

def commandField (c : Command) (hi lo : Nat) : Nat := field c.words.toNat hi lo

/-- Bits [143:64]: the address of most commands. -/
def commandAddr (c : Command) : Nat := commandField c 143 64

/-- Addresses and ranges of the payload. -/
def goodPayload (c : Command) : Bool :=
  match commandOpc c with
  | 1 => commandAddr c % 256 == 0
  | 2 => commandAddr c % 8 == 0 && commandField c 145 144 != 3
  | 3 => commandAddr c % 8 == 0
  | 4 => commandAddr c % 8 == 0
  | 5 => 3 ≤ commandField c 219 216 && commandField c 219 216 ≤ 9
  | 8 => commandAddr c % 65536 == 0 && commandField c 175 144 != 0
  | 9 => commandField c 255 176 % 8 == 0
  | 10 =>
    commandField c 86 80 ≤ 64 && commandField c 175 96 % 256 == 0 && commandField c 287 208 % 64 == 0 &&
      1 ≤ commandField c 196 176 && commandField c 196 176 ≤ 2 ^ 20 && commandField c 303 288 ≤ 4096
  | _ => true

/-- The entry is well formed (R389, R394). -/
def goodCommand (c : Command) : Bool :=
  commandOpc c ≤ 10 && commandField c 31 11 == 0 && goodPayload c &&
    field ((usedBits (commandOpc c)).foldl (fun x (hi, lo) => setField x hi lo 0) c.words.toNat) 959 64 == 0

/-- Change a command. -/
def onCommand (s : State) (q entry : Nat) (f : Command → Command) : State :=
  onQueue s q fun x =>
    keepSlot x { x with commands := x.commands.map fun (c : Command) => if c.entry == entry then f c else c }

def startCommand (s : State) (q entry : Nat) : State :=
  onCommand s q entry fun c => { c with started := true, busy := true }

/-- The command of an entry, where its opcode is `opc` and it may start now; a malformed one retires with status 1. -/
def begin' (s : State) (q entry : Nat) (opc : Nat → Bool) (k : Command → Host.Outcome State Fault Refusal) :
    Host.Outcome State Fault Refusal :=
  match commandOf (queueOf s q) entry with
  | none => .next s
  | some c =>
    if opc (commandOpc c) && mayStart (queueOf s q) c && homeRuns s q then
      if goodCommand c then k c else .next (retire s q entry 1)
    else .next s

/-- A command that has started and is not complete, where its home core runs. -/
def busyCommand (s : State) (q entry opc : Nat) : Option Command :=
  match commandOf (queueOf s q) entry with
  | none => none
  | some c => if c.started && c.busy && commandOpc c == opc && homeRuns s q then some c else none

/-! ### Doorbells and intake (R388 to R392) -/

def queueDepth' (q : Queue) : Nat := 2 ^ q.log2

/-- Intake reads the ring of this queue itself (R398). -/
def readsRing (s : State) (q : Nat) : Bool := !bit (funcOf s (queueFunc s q)).fmode.toNat 0

/-- A doorbell; a slot that the queue has not used yet stays while there is something to take in. -/
def execDoorbell (func queue : Nat) (count : BitVec 64) (s : State) : Host.Outcome State Fault Refusal :=
  let q := queueOf s queue
  let t := count.toNat
  if !linkRuns s then .next s
  else if qcfgFunc q.cfg ≠ func ∨ !qcfgEnable q.cfg ∨ t < q.consumed ∨ t > q.consumed + queueDepth' q then
    .next (countDrop s func)
  else
    let reads := readsRing s queue
    .next (onQueue s queue fun q =>
      { q with
        bell := t, parked := false, stamped := none, retries := 0
        slot := q.slot && (needsSlot q || (q.consumed < t && reads)) })

def intakeSlots : Nat := 16

/-- The queue wants an intake slot: for entries of its ring, or for one that the intake window offers (R392, R398). -/
def wantsSlot (s : State) (q : Nat) : Bool :=
  let x := queueOf s q
  qcfgEnable x.cfg && !x.slot && ((!x.parked && x.consumed < x.bell && readsRing s q) || x.offered.isSome) && homeRuns s q

/-- The queues of a home core. -/
def homeQueues (s : State) (core : Nat) : List Nat :=
  (s.queues.filter fun (_, q) => qcfgHome q.cfg == core && qcfgEnable q.cfg).map (·.1)

def heldSlots (s : State) (core : Nat) : Nat :=
  ((homeQueues s core).filter fun q => (queueOf s q).slot).length

/-- The entry's place in the ring. -/
def entryAt (s : State) (q n : Nat) : Nat :=
  let x := queueOf s q
  ringPlace s x.cfg (x.ring + 128 * (n % queueDepth' x))

/-- The entry's stamp matches: it is taken in, and the QCB is updated at least every 16 entries. -/
def takeEntry (s : State) (q : Nat) (words : Nat) : State :=
  let n := (queueOf s q).consumed
  let s := onQueue s q fun x =>
    { x with
      commands := x.commands ++ [⟨n, BitVec.ofNat 1024 words, false, false, 0, none⟩], consumed := n + 1
      since := x.since + 1, stamped := none, retries := 0, offered := none }
  if (queueOf s q).since ≥ 16 then updateQcb s q else s

/-- The entry that the intake window offers is taken in. -/
def takeOffered (s : State) (q : Nat) : State :=
  match (queueOf s q).offered with
  | some entry => takeEntry s q entry.toNat
  | none => s

/-- A free intake slot goes to the next waiting queue in order of queue number. -/
def execIntakeSlotAssign (core : Nat) (s : State) : Host.Outcome State Fault Refusal :=
  let waiting := (homeQueues s core).filter (wantsSlot s)
  let from' := lookD s.rounds core 0
  let next := match waiting.find? (from' < ·) with
    | some q => some q
    | none => waiting.head?
  match next with
  | none => .next s
  | some q =>
    if heldSlots s core < intakeSlots ∧ (coreOf s core).started then
      .next (takeOffered { onQueue s q (fun x => { x with slot := true }) with rounds := put s.rounds core q } q)
    else .next s

def stampOf (words : Nat) : Nat := field words 1023 960

/-- Intake may read the ring now. -/
def intakeReady (s : State) (q : Nat) : Bool :=
  let x := queueOf s q
  qcfgEnable x.cfg && !x.parked && x.slot && x.consumed < x.bell && readsRing s q && homeRuns s q

/-- The next entry is read where it stands; one with another stamp is left to `late` (R391). -/
def readEntry (queue : Nat) (late : State → State) : Act Unit := do
  let s ← get
  let n := (queueOf s queue).consumed
  let words ← ringRead (entryAt s queue n) 128
  modify fun s => if stampOf words = (n + 1) % 2 ^ 64 then takeEntry s queue words else late s

def execIntakeEntry (queue : Nat) (s : State) : Host.Outcome State Fault Refusal :=
  let late (s : State) : State := onQueue s queue fun q => { q with stamped := some q.consumed, retries := 0 }
  if intakeReady s queue ∧ (queueOf s queue).stamped = none then
    finishEvent (queueFunc s queue) (queueDomain s queue) (readEntry queue late) s
  else .next s

/-- The queue parks until its next doorbell write. -/
def park (s : State) (q : Nat) : State :=
  updateQcb (onQueue s q fun x => { x with parked := true, stamped := none, retries := 0, slot := needsSlot x }) q

/-- A retry of a stamp; the 64th that fails parks the queue. -/
def execStampRetry (queue : Nat) (s : State) : Host.Outcome State Fault Refusal :=
  let q := queueOf s queue
  let late (s : State) : State :=
    if q.retries + 1 < 64 then onQueue s queue fun q => { q with retries := q.retries + 1 } else park s queue
  if intakeReady s queue ∧ q.stamped = some q.consumed then
    finishEvent (queueFunc s queue) (queueDomain s queue) (readEntry queue late) s
  else .next s

/-- A STAMP write to the intake window submits an entry (R398); where its queue holds no intake slot, it waits for the turn
of the queue. -/
def execIntakeWindowWrite (func queue : Nat) (entry : BitVec 1024) (s : State) : Host.Outcome State Fault Refusal :=
  let q := queueOf s queue
  let f := funcOf s func
  if bit f.fmode.toNat 0 ∧ queue / 64 = f.page ∧ qcfgFunc q.cfg = func ∧ qcfgEnable q.cfg ∧ homeRuns s queue then
    if stampOf entry.toNat = (q.consumed + 1) % 2 ^ 64 then
      let s := onQueue s queue fun q => { q with offered := some entry }
      .next (if q.slot then takeOffered s queue else s)
    else .next (countDrop s func)
  else .next s

/-! ### NOP, WAIT, SIGNAL and FENCE (R394, R396) -/

/-- NOP, and every opcode that names no command. -/
def execNop (queue entry : Nat) (s : State) : Host.Outcome State Fault Refusal :=
  begin' s queue entry (fun o => o == 0 || o > 10) fun _ => .next (retire s queue entry 0)

def execWait (queue entry : Nat) (s : State) : Host.Outcome State Fault Refusal :=
  begin' s queue entry (· == 2) fun _ => .next (startCommand s queue entry)

/-- The condition of a WAIT. -/
def waitMet (c : Command) (v : Nat) : Bool :=
  match commandField c 145 144 with
  | 0 => v ≥ commandField c 255 192
  | 1 => v == commandField c 255 192
  | _ => v != commandField c 255 192

/-- A read of a WAIT's signal; the first that meets its condition completes it. -/
def execWaitSatisfied (queue entry : Nat) (s : State) : Host.Outcome State Fault Refusal :=
  match busyCommand s queue entry 2 with
  | none => .next s
  | some c =>
    onAccess s queue entry (queueAccess s queue [queue] fun a => readRange a (commandAddr c) 8) fun bs t =>
      if waitMet c (natOfBytes bs) then .next (retire t queue entry 0) else .next t

/-- One 8-byte store, or one atomic addition modulo 2^64. -/
def signalAct (c : Command) (a : Actor) : Act Unit :=
  let va := commandAddr c
  let v := commandField c 255 192
  if commandField c 144 144 = 0 then writePiece a va (bytesOf 8 v) false rightST
  else do
    let (bs, _) ← readPiece a va 8 rightAtomic
    writePiece a va (bytesOf 8 (natOfBytes bs + v)) false rightAtomic

def execSignal (queue entry : Nat) (s : State) : Host.Outcome State Fault Refusal :=
  begin' s queue entry (· == 3) fun c =>
    onAccess s queue entry (queueAccess s queue [] (signalAct c)) fun _ t => .next (retire t queue entry 0)

/-- The store of a FENCE, where its address is not 0. -/
def fenceAct (c : Command) (a : Actor) : Act Unit :=
  if commandAddr c = 0 then pure () else writePiece a (commandAddr c) (bytesOf 8 (commandField c 255 192)) false rightST

def execQueueFence (queue entry : Nat) (s : State) : Host.Outcome State Fault Refusal :=
  begin' s queue entry (· == 4) fun c =>
    onAccess s queue entry (queueAccess s queue [] (fenceAct c)) fun _ t =>
      .next (retire (onQueue t queue fun q => { q with fenced := entry + 1 }) queue entry 0)

/-! ### BIAS (R173, R394) -/

/-- A sector with another translation. -/
def Sector.under (f : Translation → Translation) : Sector → Sector
  | .absent => .absent
  | .clean t => .clean (f t)
  | .dirty t => .dirty (f t)

/-- Every translation that the package keeps, cached or with a sector of a window. -/
def onTranslations (f : Translation → Translation) (s : State) : State :=
  { s with
    translations := s.translations.map f
    cores := s.cores.map fun (c, k) => (c, { k with windows := k.windows.map fun (n, w) =>
      (n, { w with sectors := w.sectors.map fun (i, x) => (i, x.under f) }) }) }

/-- The translation is one by a given leaf; of one that the driver supplied, for its page. -/
def sharesLeaf (t c : Translation) : Bool :=
  c.leafAt == t.leafAt && (c.leafAt.isSome || (c.page == t.page && c.bits == t.bits))

/-- A leaf takes a bias, and the translations kept of it; of one that the driver supplied, those alone. -/
def setBias (s : State) (t : Translation) (host : Bool) : State :=
  let hb := if host then 1 else 0
  let s := match t.leafAt with
    | some a =>
      let s := recallAll s a 16 true
      tableWrite s a (bytesOf 16 (setField (tableEntry s a) 3 3 hb))
    | none => s
  onTranslations (fun c =>
    if sharesLeaf t c then { c with entry := BitVec.ofNat 128 (setField c.entry.toNat 3 3 hb) } else c) s

/-- One flip of the page of a leaf: the device's copies go, or its stores on their way reach memory. -/
def flipBias (s : State) (t : Translation) (host : Bool) : State :=
  let va := t.page * 2 ^ t.bits
  let n := 2 ^ t.bits
  let pa := placeOf t va
  let s := if host then dropStable (recallRange s va n) va n
    else makeAllVisible (fun p => pa ≤ p.address && p.address < pa + n) s.pending.length s
  setBias s t host

/-- The leaf's entry, where it has one, waits before it is written (R130). -/
def entryBlocked (s : State) (t : Translation) : Bool := t.leafAt.any fun a => blocked s a 16

/-- The next page of a BIAS. -/
def biasPage (s : State) (queue entry : Nat) (c : Command) : Host.Outcome State Fault Refusal :=
  let page := commandAddr c / 65536 + c.mark
  let dom := queueDomain s queue
  let f := queueFunc s queue
  let host := commandField c 176 176 == 1
  let on (s : State) : Host.Outcome State Fault Refusal :=
    if c.mark + 1 ≥ commandField c 175 144 then .next (retire s queue entry 0)
    else .next (onCommand s queue entry fun c => { c with started := true, busy := true, mark := c.mark + 1 })
  match walkFor f page s with
  | .error e => finishAsking f dom (fun _ => .error e) (askCommand queue entry) s
  | .ok (w, s) =>
    match w, findingOf s f dom page 0 w with
    | .leaf t, .present =>
      if leafHM t.entry.toNat ∨ leafHB t.entry.toNat = host then on s
      else if rangeOwned s (t.page * 2 ^ t.bits) (2 ^ t.bits) || entryBlocked s t then .next s
      else on (flipBias s t host)
    | _, .evicted b => .next (startService s (.evicted b) f dom page 0 []).2
    | _, .driver => .next (startService s .driver f dom page 0 []).2
    | _, .present => .next (retire s queue entry 5)
    | _, .denial => .next (retire s queue entry 5)
    | _, .unmapped => .next (retire s queue entry 5)

/-- One flip of a BIAS, which starts at its first. -/
def execBias (queue entry : Nat) (s : State) : Host.Outcome State Fault Refusal :=
  match busyCommand s queue entry 8 with
  | some c => biasPage s queue entry c
  | none => begin' s queue entry (· == 8) (biasPage s queue entry)

/-! ### SAMPLE (R397) -/

/-- The system context of a core runs an action as a message of the queue's pseudo-team. -/
def inSystemContext {α : Type} (core : Nat) (m : Act α) : Act α := fun s =>
  let k := coreOf s core
  let asked : Message := ⟨0, s.pkg.toNat, ⟨core, 11⟩, core, machineUid, Cap.null, []⟩
  let s' := { onCore s core (fun k => { k with last := 11, run := .message asked }) with turn := .issue core }
  match m s' with
  | .ok (v, t) => .ok (v, { onCore t core (fun x => { x with last := k.last, run := k.run }) with turn := s.turn })
  | .error e => .error e

/-- The root core of a key's sequence; the home core where the key names no slot. -/
def rootCore (s : State) (q : Nat) (key : Key) (a : Actor) : Act Nat := do
  if slotKnown s (queueDomain s q) key.seq then
    let r ← readRecord a (queueDomain s q) key.seq
    pure r.root
  else pure (queueHome s q)

/-- The step, and the store of its result word. A key that names no whole sequence faults in the step (R303), which refuses
the command. -/
def sampleAct (s : State) (q : Nat) (c : Command) (a : Actor) : Act Nat := do
  let core ← rootCore s q (keyOf (commandField c 127 64)) a
  if (coreOf (← get) core).run ≠ .idle then hold .plain
  let v ← inSystemContext core (stepKey (commandField c 127 64) (commandField c 159 128))
  writePiece a (commandField c 255 176) (bytesOf 8 v) false rightST
  pure v

def sampleStatus (v : Nat) : Nat := if field v 39 32 = 0 then 0 else 0x100 + field v 39 32

def execSample (queue entry : Nat) (s : State) : Host.Outcome State Fault Refusal :=
  begin' s queue entry (· == 9) fun c =>
    if qcfgSample (queueCfg s queue) ∧ bit (funcOf s (queueFunc s queue)).fmode.toNat 4 then
      onAccess s queue entry (queueAccess s queue [] (sampleAct s queue c)) fun v t =>
        .next (retire t queue entry (sampleStatus v))
    else .next (retire s queue entry 1)

/-! ### DOMCFG (R407) -/

/-- A word of a domain's tables as the PF's machine reads it; 0 where nothing is mapped. A page that is served stops it. -/
def tableWord (va : Nat) : Act Nat := fun s =>
  match readRange (tableActor 0) va 8 s with
  | .ok (bs, t) => .ok (natOfBytes bs, t)
  | .error (.trap t) => if (servedKind s 0 0 t).isSome then .error (.trap t) else .ok (0, s)
  | .error e => .error e

/-- Some word of the table has the property, of those at `at' i` from the first on. -/
def someWord (at' : Nat → Nat) (p : Nat → Bool) : Nat → Nat → Act Bool
  | 0, _ => pure false
  | n + 1, i => do
    let w ← tableWord (at' i)
    if p w then pure true else someWord at' p n (i + 1)

/-- A binding record of the domain is VALID. -/
def someBinding (d : Domain) : Act Bool := someWord (fun i => d.bindBase + 64 * i + 24) (bit · 0) d.bindCount 0

/-- A sequence slot of the domain is ADMITTED. -/
def someAdmitted (d : Domain) : Act Bool := someWord (fun i => d.seqBase + 256 * i) (fun w => field w 1 0 == 2) d.seqCount 0

/-- A team is admitted in the domain; the name under which a queue's command works is none. -/
def domainHasTeam (s : State) (dom : Nat) : Bool := s.teams.any fun t => t.domain == dom && t.uid != machineUid

def configureDomain (s : State) (c : Command) : State :=
  let f := commandField c 86 80
  let s := onDomain s (commandField c 79 64) fun d =>
    { d with
      func := some f, seqBase := commandField c 175 96, seqCount := commandField c 196 176
      bindBase := commandField c 287 208, bindCount := commandField c 303 288 }
  onFunc s f fun x => { x with page := commandField c 92 87 }

/-- The tables that a DOMCFG names are granted to the queue's domain, to be read and written (R394; the rights are DEDUCED,
log 44). -/
def tablesGranted (s : State) (dom : Nat) (c : Command) : Bool :=
  rangeGranted s dom (commandField c 175 96) (256 * commandField c 196 176) (rightLD + rightST) &&
    rangeGranted s dom (commandField c 287 208) (64 * commandField c 303 288) (rightLD + rightST)

/-- The status of a DOMCFG and its effect. -/
def domcfgAct (dom : Nat) (c : Command) : Act Nat := do
  reachTable dom (commandField c 175 96)
  let s ← get
  let d := domainOf s (commandField c 79 64)
  if !tablesGranted s dom c then pure 5
  else if domainHasTeam s (commandField c 79 64) then pure 11
  else if ← someBinding d then pure 11
  else if ← someAdmitted d then pure 11
  else do
    modify fun s => configureDomain s c
    pure 0

def execDomcfg (queue entry : Nat) (s : State) : Host.Outcome State Fault Refusal :=
  begin' s queue entry (· == 10) fun c =>
    if queueFunc s queue ≠ 0 then .next (retire s queue entry 1)
    else
      onAccess s queue entry (queueAccess s queue [] fun _ => domcfgAct (queueDomain s queue) c) fun v t =>
        .next (retire t queue entry v)

end Sys2Proof.Machine
end

