-- ==== Sys2Proof/Machine/Bindings.lean ====
section
/-!
DEFINITION. Bindings: seed specs, and the commands BIND, SWAP and UNBIND (R401, R403 to R406,
R442).
-/

namespace Sys2Proof.Machine

/-! ### Seeds (R400, R401) -/

/-- The rights that a capability's permissions amount to (R413). -/
def rightsOfPerms (p : Nat) : Nat :=
  (if p.land (permLD + permLC) ≠ 0 then rightLD else 0) + (if p.land (permST + permSC) ≠ 0 then rightST else 0) +
    (if p.land permEX ≠ 0 then rightEX else 0) + (if p.land permAT ≠ 0 then rightAT else 0)

def seedPerm (x : Nat) : Nat := field x 127 118
def seedLen (x : Nat) : Nat := field x 117 80
def seedBase (x : Nat) : Nat := field x 79 0

/-- The register that a seed spec gives; nothing where it is refused. -/
def seedCap (x : Nat) : Option Cap :=
  if seedPerm x = 0 then
    if seedLen x ≠ 0 ∨ field x 79 64 ≠ 0 then none else some (Cap.plain (BitVec.ofNat 128 (seedBase x)))
  else if (seedPerm x).land (permSY + permVW + permSL) ≠ 0 then none
  else exactCap (seedPerm x) (seedBase x) (seedLen x)

/-- The seed's range is granted by the domain under the rights of its permissions. -/
def seedGranted (s : State) (dom x : Nat) : Bool :=
  seedPerm x == 0 || rangeGranted s dom (seedBase x) (seedLen x) (rightsOfPerms (seedPerm x))

/-- A weights seed: its permissions lie within LD, LC and GL (R404). -/
def weightsCap (s : State) (dom x : Nat) : Option Cap :=
  if (seedPerm x).land (1023 - (permLD + permLC + permGL)) = 0 ∧ seedGranted s dom x then seedCap x else none

/-! ### Binding records (R403) -/

/-- A binding record. -/
structure Binding where
  valid : Bool
  gen : Nat
  tree : Nat
  weights : Cap
deriving Repr

def bindingAt (s : State) (dom idx : Nat) : Nat := (domainOf s dom).bindBase + 64 * idx

def treeIdOf (dom idx : Nat) : Nat := dom * 65536 + idx

def readBinding (core dom idx : Nat) : Act Binding := do
  let s ← get
  let gs ← readGranules (tableActor core) (granulesFrom (bindingAt s dom idx) 4)
  let (bits, tags) := joinGranules gs
  pure ⟨bit bits 192, field bits 191 160, field bits 159 128, ⟨bit tags 0, BitVec.ofNat 128 bits⟩⟩

/-- A record is written whole. -/
def writeBinding (core dom idx : Nat) (b : Binding) : Act Unit := do
  let s ← get
  let va := bindingAt s dom idx
  let a := tableActor core
  writePiece a va (bytesOf 16 b.weights.bits.toNat) b.weights.tag rightST
  writePiece a (va + 16) (bytesOf 48 (b.tree + b.gen * 2 ^ 32 + (if b.valid then 2 ^ 64 else 0))) false rightST

/-- The record of an index below BCOUNT. -/
def bindingOf (core dom idx : Nat) : Act (Option Binding) := do
  let s ← get
  if idx < (domainOf s dom).bindCount then
    let b ← readBinding core dom idx
    pure (some b)
  else pure none

/-- The record of an index, where it is VALID. -/
def validBinding (core dom idx : Nat) : Act (Option Binding) := do
  match ← bindingOf core dom idx with
  | some b => pure (if b.valid then some b else none)
  | none => pure none

/-- Teams admitted with a binding, named no later than `mark`. -/
def boundTeams (s : State) (dom idx mark : Nat) : Bool :=
  s.teams.any fun t => t.domain == dom && t.uid ≤ mark && (match t.binding with
    | some (i, _) => i == idx
    | none => false)

/-! ### Trees -/

/-- The nodes of every tree, against the room for them. -/
def nodesHeld (s : State) : Nat := (s.domains.map fun (_, d) => (d.trees.map (·.capacity)).sum).sum

def treeIn (d : Domain) (ident : Nat) : Option Cairn := d.trees.find? (·.ident == ident)

def addTree (s : State) (dom : Nat) (t : Cairn) : State :=
  onDomain s dom fun d => { d with trees := d.trees.filter (·.ident != t.ident) ++ [t] }

/-- Every node of a tree releases its pages. -/
def releaseTree (s : State) (dom ident : Nat) : State :=
  match treeIn (domainOf s dom) ident with
  | none => s
  | some t => addTree (lowerPages s dom (t.nodes.flatMap (·.pages))) dom { t with nodes := [] }

def removeTree (s : State) (dom ident : Nat) : State :=
  onDomain (releaseTree s dom ident) dom fun d => { d with trees := d.trees.filter (·.ident != ident) }

/-! ### BIND (R404) -/

def commandIndex (c : Command) : Nat := commandField c 79 64
def commandSeed (c : Command) : Nat := commandField c 207 80

/-- The status of a BIND: its checks in the order of their numbers. -/
def bindAct (core dom : Nat) (c : Command) : Act Nat := do
  reachTable dom (seedBase (commandSeed c))
  let s ← get
  let idx := commandIndex c
  match weightsCap s dom (commandSeed c) with
  | none => pure 5
  | some w =>
    match ← bindingOf core dom idx with
    | none => pure 7
    | some b =>
      if b.valid then pure 7
      else if nodesHeld s + commandField c 255 224 > Config.treeNodes then pure 10
      else do
        let tree := treeIdOf dom idx
        writeBinding core dom idx ⟨true, 0, tree, w⟩
        modify fun s => addTree s dom
          ⟨tree, dom, commandField c 215 208 + 1, commandField c 219 216, commandField c 255 224, []⟩
        pure 0

def execBind (queue entry : Nat) (s : State) : Host.Outcome State Fault Refusal :=
  begin' s queue entry (· == 5) fun c =>
    onAccess s queue entry (queueAccess s queue [] fun _ => bindAct (queueHome s queue) (queueDomain s queue) c)
      fun v t => .next (retire t queue entry v)

/-! ### SWAP (R405) -/

/-- The event of a SWAP: the new weights and generation, and the tree without its nodes. -/
def swapAct (core dom : Nat) (c : Command) : Act Nat := do
  reachTable dom (seedBase (commandSeed c))
  let s ← get
  match weightsCap s dom (commandSeed c) with
  | none => pure 5
  | some w =>
    match ← validBinding core dom (commandIndex c) with
    | none => pure 7
    | some b =>
      writeBinding core dom (commandIndex c) { b with gen := (b.gen + 1) % 2 ^ 32, weights := w }
      modify fun s => releaseTree s dom b.tree
      pure 0

/-- A SWAP starts with its event, and retires once the teams admitted before it have retired. -/
def execSwap (queue entry : Nat) (s : State) : Host.Outcome State Fault Refusal :=
  let dom := queueDomain s queue
  match busyCommand s queue entry 6 with
  | some c => if boundTeams s dom (commandIndex c) c.mark then .next s else .next (retire s queue entry 0)
  | none =>
    begin' s queue entry (· == 6) fun c =>
      onAccess s queue entry (queueAccess s queue [] fun _ => swapAct (queueHome s queue) dom c) fun v t =>
        if v ≠ 0 then .next (retire t queue entry v)
        else .next (onCommand t queue entry fun c => { c with started := true, busy := true, mark := t.names })

/-! ### UNBIND (R406) -/

/-- The end of an UNBIND: the tree goes, and the record is not VALID. -/
def unbindAct (core dom : Nat) (c : Command) : Act Nat := do
  match ← validBinding core dom (commandIndex c) with
  | none => pure 7
  | some b =>
    writeBinding core dom (commandIndex c) { b with valid := false, weights := Cap.null }
    modify fun s => removeTree s dom b.tree
    pure 0

/-- An UNBIND starts on a VALID binding, and completes once every team admitted with it has retired. -/
def execUnbind (queue entry : Nat) (s : State) : Host.Outcome State Fault Refusal :=
  let dom := queueDomain s queue
  let core := queueHome s queue
  match busyCommand s queue entry 7 with
  | some c =>
    if boundTeams s dom (commandIndex c) s.names then .next s
    else
      onAccess s queue entry (queueAccess s queue [] fun _ => unbindAct core dom c) fun v t =>
        .next (retire t queue entry v)
  | none =>
    begin' s queue entry (· == 7) fun c =>
      onAccess s queue entry (queueAccess s queue [] fun _ => validBinding core dom (commandIndex c)) fun b t =>
        match b with
        | none => .next (retire t queue entry 7)
        | some _ => .next (startCommand t queue entry)

/-- An UNBIND of the binding has started (R406). -/
def unbinding (s : State) (dom idx : Nat) : Bool :=
  s.queues.any fun (_, q) => qcfgDomain q.cfg == dom &&
    q.commands.any fun c => commandOpc c == 7 && c.started && commandIndex c == idx

end Sys2Proof.Machine
end

