-- ==== Sys2Proof/Machine/Capability.lean ====
section
/-!
DEFINITION. Capability derivation and inspection (R224 to R228). Every instruction here is fixed-latency.
-/

namespace Sys2Proof.Machine

/-- Write the result of a derivation from `cB`: a view moves, and leaves its source register (R138). -/
def moveInto (a b : Reg) (v : Cap) (s : State) : State :=
  if isView v then
    if a = b then onMe s fun x => putReg x a.val v
    else writeCap a v (onMe s fun x => putReg x b.val Cap.null)
  else writeCap a v s

/-- The tag of a result from a sealed source stays only when nothing has changed (R225). -/
def sealedRule (src res : Cap) : Cap := if src.tag && isSealed src && res != src then untagged res else res

/-- A change of the cursor of `cB` to `new` (R59, R225). -/
def moveCursor (a b : Reg) (new : Nat) : Act Unit := do
  let src := reg (← get) b
  let new := new % 2 ^ 80
  if isView src ∧ !inWindow src new then raiseView b 8
  modify (moveInto a b (sealedRule src (withCursor src new)))

/-- The bounds [cursor, cursor + n) on `cB`, rounded outward or exact (R226). -/
def setBounds (exact : Bool) (a b : Reg) (n : BitVec 64) : Act Unit := do
  let src := reg (← get) b
  match fit (capAddr src) n.toNat with
  | none => raiseCap b.val .bounds
  | some (e, lo, hi) =>
    if exact ∧ (lo ≠ capAddr src ∨ hi ≠ capAddr src + n.toNat) then raiseCap b.val .bounds
    let inside := match capBounds src with
      | none => false
      | some outer => boundsWithin (lo, hi) outer
    if src.tag ∧ !isSealed src ∧ !inside then raiseCap b.val .bounds
    if isView src then raiseView b 3
    let v := makeCap src.tag (capPerms src) e ((hi - lo) / 2 ^ e) (capAddr src / 2 ^ e - lo / 2 ^ e) (capAddr src)
    modify (writeCap a (sealedRule src v))

/-- P AND mask, with SL kept (R224). -/
def maskPerms (a b : Reg) (mask : BitVec 64) : Act Unit := do
  let src := reg (← get) b
  if isView src ∧ !bit mask.toNat 8 then raiseView b 2
  let p := (capPerms src).land ((mask.toNat % 1024).lor permSL)
  let v := makeCap src.tag p (capExp src) (capLen src) (capDist src) (capAddr src)
  modify (moveInto a b (sealedRule src v))

/-- SL := 1; a sealed source is given unchanged (R225). -/
def lockCap (a b : Reg) : Act Unit := do
  let src := reg (← get) b
  if isView src then raiseView b 3
  modify (writeCap a (withSeal src true))

/-- SL := 0 under the authority of `cC` (R227). -/
def openCap (a b c : Reg) : Act Unit := do
  let s ← get
  let auth := reg s c
  checked c.val
    (if !auth.tag then some .tag
      else if isSealed auth then some .seal
      else if !hasPerm auth permSY then some .perm
      else none)
  let src := reg s b
  if isView src then raiseView b 3
  modify (writeCap a (withSeal src false))

def copyCap (a b : Reg) (s : State) : State := moveInto a b (reg s b) s

def execKmov (a b : Reg) (s : State) : Host.Outcome State Fault Refusal := fixed 4 (copyCap a b) s
def execKmovExt (a b : Reg) (s : State) : Host.Outcome State Fault Refusal := fixed 12 (copyCap a b) s

def stepTo (s : State) (b c : Reg) (imm : BitVec 24) : Nat :=
  wrap 80 ((capAddr (reg s b) : Int) + (opReg s c imm).toInt)

def execKstep (a b c : Reg) (s : State) : Host.Outcome State Fault Refusal :=
  quick 4 (moveCursor a b (stepTo s b c 0)) s
def execKstepExt (a b c : Reg) (imm : BitVec 24) (s : State) : Host.Outcome State Fault Refusal :=
  quick 12 (moveCursor a b (stepTo s b c imm)) s

def placeTo (s : State) (c : Reg) (imm : BitVec 24) : Nat := wrap 80 ((capAddr (reg s c) : Int) + imm24 imm)

def execKplace (a b c : Reg) (s : State) : Host.Outcome State Fault Refusal := quick 4 (moveCursor a b (placeTo s c 0)) s
def execKplaceExt (a b c : Reg) (imm : BitVec 24) (s : State) : Host.Outcome State Fault Refusal :=
  quick 12 (moveCursor a b (placeTo s c imm)) s

def execKfit (a b c : Reg) (s : State) : Host.Outcome State Fault Refusal :=
  quick 4 (setBounds false a b (opReg s c 0)) s
def execKfitExt (a b c : Reg) (imm : BitVec 24) (s : State) : Host.Outcome State Fault Refusal :=
  quick 12 (setBounds false a b (opReg s c imm)) s
def execKcut (a b c : Reg) (s : State) : Host.Outcome State Fault Refusal := quick 4 (setBounds true a b (opReg s c 0)) s
def execKcutExt (a b c : Reg) (imm : BitVec 24) (s : State) : Host.Outcome State Fault Refusal :=
  quick 12 (setBounds true a b (opReg s c imm)) s
def execKmask (a b c : Reg) (s : State) : Host.Outcome State Fault Refusal := quick 4 (maskPerms a b (opReg s c 0)) s
def execKmaskExt (a b c : Reg) (imm : BitVec 24) (s : State) : Host.Outcome State Fault Refusal :=
  quick 12 (maskPerms a b (opReg s c imm)) s
def execKlock (a b : Reg) (s : State) : Host.Outcome State Fault Refusal := quick 4 (lockCap a b) s
def execKlockExt (a b : Reg) (s : State) : Host.Outcome State Fault Refusal := quick 12 (lockCap a b) s
def execKopen (a b c : Reg) (s : State) : Host.Outcome State Fault Refusal := quick 4 (openCap a b c) s
def execKopenExt (a b c : Reg) (s : State) : Host.Outcome State Fault Refusal := quick 12 (openCap a b c) s

/-! ### Inspection (R228) -/

/-- An integer read off `cB`. -/
def inspect (f : Cap → Nat) (w : Nat) (a b : Reg) (s : State) : Host.Outcome State Fault Refusal :=
  fixed 4 (fun s => writeInt a w (f (reg s b)) s) s

def baseOf (c : Cap) : Nat := ((capBounds c).map (·.1)).getD 0
def topOf (c : Cap) : Nat := ((capBounds c).map (·.2)).getD 0

/-- C's bounds and permissions lie within B's (R228). -/
def insideOf (b c : Cap) : Bool :=
  match capBounds b, capBounds c with
  | some ob, some ib => b.tag && c.tag && !isSealed b && boundsWithin ib ob && (capPerms c).land (capPerms b) == capPerms c
  | none, _ => false
  | some _, none => false

def execKcur (a b : Reg) (s : State) : Host.Outcome State Fault Refusal := inspect capAddr 80 a b s
def execKbase (a b : Reg) (s : State) : Host.Outcome State Fault Refusal := inspect baseOf 80 a b s
def execKtop (a b : Reg) (s : State) : Host.Outcome State Fault Refusal := inspect topOf 81 a b s
def execKlen (a b : Reg) (s : State) : Host.Outcome State Fault Refusal :=
  inspect (fun c => topOf c - baseOf c) 81 a b s
def execKperm (a b : Reg) (s : State) : Host.Outcome State Fault Refusal := inspect capPerms 10 a b s
def execKtag (a b : Reg) (s : State) : Host.Outcome State Fault Refusal := inspect (fun c => boolNat c.tag) 1 a b s
def execKinside (a b c : Reg) (s : State) : Host.Outcome State Fault Refusal :=
  fixed 4 (fun s => writeInt a 1 (boolNat (insideOf (reg s b) (reg s c))) s) s

/-- Reg(B) with TAG 0; a view source raises the view fault. -/
def plainCopy (a b : Reg) : Act Unit := do
  let src := reg (← get) b
  if isView src then raiseView b 2
  modify (writeInt a 128 src.bits.toNat)

def execKplain (a b : Reg) (s : State) : Host.Outcome State Fault Refusal := quick 4 (plainCopy a b) s

end Sys2Proof.Machine
end

