-- ==== Sys2Proof/Machine/Collectives.lean ====
section
/-!
DEFINITION. The completion of a barrier or collective instance (R9 to R13, R24, R104, R333, R334, R342, R343).
-/

namespace Sys2Proof.Machine

def joinedKind : Joined → CollKind
  | .bar _ => .bar
  | .red _ _ op fmt _ => .red op fmt
  | .bc _ _ _ => .bc
  | .top _ _ _ _ => .top
  | .topp _ _ _ _ _ _ => .topp

/-- The operand of an arrival: `cB` of a reduction or broadcast, p of a nucleus draw. -/
def joinedOperand (x : Context) : Joined → BitVec 128
  | .bar _ => 0
  | .red _ b _ _ _ => (regOf x b.val).bits
  | .bc _ b _ => (regOf x b.val).bits
  | .top _ _ _ _ => 0
  | .topp _ _ c _ _ _ => (regOf x c.val).bits

/-- The shard of an arrival: descriptor number and base register. -/
def joinedShard : Joined → Option (Nat × Reg)
  | .bar _ => none
  | .red _ _ _ _ _ => none
  | .bc _ _ _ => none
  | .top _ d n _ => some (n, d)
  | .topp _ _ _ d n _ => some (n, d)

/-- A member with what it brings. -/
structure Present where
  member : Member
  joined : Joined

/-- Every member, when each has arrived. -/
def allPresent (s : State) (sc : Scope) : List Member → Option (List Present)
  | [] => some []
  | m :: rest =>
    match arrivedWith sc (ctxOf s m.id), allPresent s sc rest with
    | some j, some ps => some (⟨m, j⟩ :: ps)
    | _, _ => none

/-! ### The pairwise tree (R104, R334) -/

def pairLevel {α : Type} (f : α → α → α) : List α → List α
  | x :: y :: rest => f x y :: pairLevel f rest
  | xs => xs

/-- The root of the tree over a list; absent leaves stand after its end. -/
def pairTree {α : Type} (f : α → α → α) : Nat → List α → Option α
  | 0, xs => xs.head?
  | fuel + 1, xs => if xs.length ≤ 1 then xs.head? else pairTree f fuel (pairLevel f xs)

def addF32 (x y : Nat) : Nat := rne32 false ((f32 x).add false (f32 y))

/-- A value and an index: the greater value, NaN greatest; ties to the lower index, then to the first. -/
def betterPair (less : Nat → Nat → Bool) (a b : Nat) : Nat :=
  let va := a % 2 ^ 32
  let vb := b % 2 ^ 32
  if less va vb then b
  else if less vb va then a
  else if intValue .s32 (b / 2 ^ 32) < intValue .s32 (a / 2 ^ 32) then b
  else a

def intLess (x y : Nat) : Bool := intValue .s32 x < intValue .s32 y

/-- The result of a reduction over the operands in rank order. -/
def reduceAll (op : SumOp) (fmt : Fmt) (xs : List Nat) : Nat :=
  let low := xs.map (· % 2 ^ 32)
  let ints := low.map (intValue .s32)
  let indexed := low.map fun x => (0, x)
  match op with
  | .sum => if fmt = .f32 then (pairTree addF32 low.length low).getD 0 else wrap 64 (clampInt .s32 ints.sum)
  | .max => if fmt = .f32 then floatBest .f32 true indexed else intBest .s32 true indexed
  | .min => if fmt = .f32 then floatBest .f32 false indexed else intBest .s32 false indexed
  | .argmax => (pairTree (betterPair (if fmt = .f32 then keyLess .f32 else intLess)) xs.length xs).getD 0
  | .or => xs.foldl Nat.lor 0

/-! ### Reading a member's record and shard -/

/-- The engine that acts for a context. -/
def engineFor (s : State) (id : CtxId) : Actor :=
  ⟨id.core, false, teamUidOf s id, (ctxOf s id).uid, false, 0, none, none⟩

/-- The draw that a member's key gives (R343); nothing when it is stale or its slot is not ADMITTED. -/
def memberDraw (m : Member) (b : Reg) : Act (Option (BitVec 32)) := do
  let s ← get
  let key := keyOf (regOf (ctxOf s m.id) b.val).bits.toNat
  if slotKnown s m.team.domain key.seq then
    let r ← readRecord (engineFor s m.id) m.team.domain key.seq
    pure (if r.gen = key.gen ∧ r.state = 2 then some (philoxWord (BitVec.ofNat 64 r.seed) 0 (sigmaOf r) 1 0 0) else none)
  else pure none

def readLogits (a : Actor) (d : Desc) (base : Nat) : List Nat → Act (List Logit)
  | [] => pure []
  | i :: rest => do
    let (va, n) := d.place (lineAt i)
    checked 0 (capCheck d.base va n permLD)
    let bs ← readRange a va n
    let more ← readLogits a d base rest
    pure ((tokenId base i, natOfBytes bs) :: more)

/-- The logits of one member. -/
def memberLogits (p : Present) : Act (List Logit) := do
  match joinedShard p.joined with
  | none => pure []
  | some (n, r) => do
    let s ← get
    let d := teamDesc p.member.team n
    let base := field (regOf (ctxOf s p.member.id) r.val).bits.toNat 31 0
    readLogits { engineFor s p.member.id with sy := hasPerm d.base permSY } d base (upFrom 0 (d.size 0))

/-- The logits of every member of this package, or the member whose read stops. -/
def gatherLogits : List Present → State → Except (CtxId × Stop) (List Logit × State)
  | [], s => .ok ([], s)
  | p :: rest, s =>
    match memberLogits p s with
    | .error e => .error (p.member.id, e)
    | .ok (xs, t) =>
      match gatherLogits rest t with
      | .error e => .error e
      | .ok (ys, u) => .ok (xs ++ ys, u)

/-- A member's read stops: its arrival is withdrawn where it traps or waits for a page. -/
def memberStops (s : State) (id : CtxId) (e : Stop) : Host.Outcome State Fault Refusal :=
  let f := (funcOfTeam s (teamUidOf s id)).getD 0
  let dom := ((teamOf s id).map (·.domain)).getD 0
  match e with
  | .trap t => .next (deliverTrapTo t s id)
  | .hold _ => .next s
  | .done t => .next t
  | .poison key va => .next (poisonReset s key va f dom)
  | .walk page rights word =>
    let (n, t) := postWalk s f dom page rights
    .next (onCtx t id fun x => { x with wait := .page n word, needs := rights })
  | .fault e => .fault e

/-! ### The result (R333) -/

def allOnes : Nat := 2 ^ 64 - 1

/-- Every kind is the same. -/
def agree : List CollKind → Bool
  | [] => true
  | k :: rest => rest.all (· == k)

/-- A member on this package or another, as its rank orders it: package, ordinal, operand, and the draw its key would
give. -/
structure Ranked where
  package : Nat
  ordinal : Nat
  operand : BitVec 128
  present : Option Present
  draw : Option (BitVec 32)

def rankBefore (a b : Ranked) : Bool := a.package < b.package || (a.package == b.package && a.ordinal < b.ordinal)

def insertRank (a : Ranked) : List Ranked → List Ranked
  | [] => [a]
  | b :: rest => if rankBefore a b then a :: b :: rest else b :: insertRank a rest

/-- The members of an instance by rank. -/
def ranked (s : State) (ps : List Present) (remote : List RemoteMember) : List Ranked :=
  let here := ps.map fun p =>
    (⟨s.pkg.toNat, p.member.ordinal, joinedOperand (ctxOf s p.member.id) p.joined, some p, none⟩ : Ranked)
  let there := remote.map fun m => (⟨m.package, m.ordinal, m.operand, none, m.draw⟩ : Ranked)
  (here ++ there).foldl (fun l a => insertRank a l) []

/-- The register that receives the result, and the number of bits written. -/
def joinedDest : Joined → Option (Reg × Nat)
  | .bar _ => none
  | .red a _ _ _ _ => some (a, 64)
  | .bc a _ _ => some (a, 128)
  | .top a _ _ _ => some (a, 64)
  | .topp a _ _ _ _ _ => some (a, 64)

/-- A member leaves the instance: its result is written and its pc moves on. -/
def release (v : Nat) (s : State) (p : Present) : State :=
  let id := p.member.id
  let s := match joinedDest p.joined with
    | some (a, w) => writeIntIn s id a.val w v
    | none => s
  onCtx s id fun x => { awake (coreOf s id.core) x with code := withCursor x.code (wrap 80 (capAddr x.code + 12)) }

def releaseAll (v : Nat) (ps : List Present) (s : State) : State := ps.foldl (release v) s

/-- The logits of members on other packages. -/
def remoteLogits (remote : List RemoteMember) : List Logit :=
  remote.flatMap fun m => m.logits.map fun (t, x) => (t, x.toNat)

/-- A sampler collective over the logits of all members. -/
def sampleAll (ps : List Present) (remote : List RemoteMember) (result : List Logit → Nat) (s : State) :
    Host.Outcome State Fault Refusal :=
  match gatherLogits ps s with
  | .error (id, e) => memberStops s id e
  | .ok (xs, t) => .next (releaseAll (result (xs ++ remoteLogits remote)) ps t)

/-- The nucleus draw with the parameters of the member of lowest rank. -/
def nucleusAll (ps : List Present) (remote : List RemoteMember) (first : Ranked) (s : State) :
    Host.Outcome State Fault Refusal :=
  let p := f32 (field first.operand.toNat 31 0)
  match first.present with
  | none =>
    match first.draw with
    | some g => sampleAll ps remote (nucleus p g) s
    | none => .next (releaseAll allOnes ps s)
  | some q =>
    match q.joined with
    | .topp _ b _ _ _ _ =>
      match memberDraw q.member b s with
      | .error e => memberStops s q.member.id e
      | .ok (none, t) => .next (releaseAll allOnes ps t)
      | .ok (some g, t) => sampleAll ps remote (nucleus p g) t
    | .bar _ => .next s
    | .red _ _ _ _ _ => .next s
    | .bc _ _ _ => .next s
    | .top _ _ _ _ => .next s

/-- The outcome of a complete instance. -/
def completeInstance (ps : List Present) (remote : List RemoteMember) (s : State) : Host.Outcome State Fault Refusal :=
  let order := ranked s ps remote
  if !agree (ps.map (fun p => joinedKind p.joined) ++ remote.map (·.kind)) then .next (releaseAll allOnes ps s)
  else
    match ps, order with
    | p :: _, first :: _ =>
      match joinedKind p.joined with
      | .bar => .next (releaseAll 0 ps s)
      | .red op fmt => .next (releaseAll (reduceAll op fmt (order.map fun r => r.operand.toNat % 2 ^ 64)) ps s)
      | .bc => .next (releaseAll first.operand.toNat ps s)
      | .top => sampleAll ps remote winner s
      | .topp => nucleusAll ps remote first s
    | _, _ => .next s

/-- The instance completes when every member has arrived; `remote` are the arrivals of the other packages. -/
def execBarrierComplete (team : Nat) (scope : Scope) (extent : Nat) (remote : List RemoteMember) (s : State) :
    Host.Outcome State Fault Refusal :=
  let teams := instanceTeams s team scope
  let members := teams.flatMap fun t => leadersIn s t scope extent
  if teams.any (savedLeader · scope extent) || (scope != .pod && !remote.isEmpty) || members.isEmpty ||
      teams.any (!·.resident) then .next s
  else
    match allPresent s scope members with
    | none => .next s
    | some ps => completeInstance ps remote s

end Sys2Proof.Machine
end

