-- ==== Sys2Proof/Machine/Launch.lean ====
section
/-!
DEFINITION. Launches: the block and its checks, placement, admission and the end of a team (R22 to R27, R36 to R39, R69,
R82, R213, R393, R399 to R402).
-/

namespace Sys2Proof.Machine

/-! ### What a launch reads (R399) -/

/-- A launch as it is read: the block, and what it points to; nothing where the domain does not let it be read. -/
structure LaunchData where
  block : Nat
  bitmap : Option Nat
  header : Option Nat                          -- of the route descriptor
  records : Option (List Nat)                  -- its pitch records
  images : Option (List (Nat × Nat))           -- its queue record images, with their stash offsets
  descs : Option (List (Nat × Bool))           -- the granules of the tensor table
  packages : Option Nat
  binding : Option Binding
  gen : Option Nat                             -- GEN of the leaf that maps the page of TEXT
deriving Repr

def LaunchData.get (d : LaunchData) (hi lo : Nat) : Nat := field d.block hi lo
def LaunchData.fixedSet (d : LaunchData) : Bool := d.get 731 731 == 0
def LaunchData.count (d : LaunchData) : Nat := d.get 730 720
def LaunchData.text (d : LaunchData) : Nat := d.get 79 0
def LaunchData.textLen (d : LaunchData) : Nat := d.get 111 80
def LaunchData.index (d : LaunchData) : Nat := d.get 127 112
def LaunchData.objTab (d : LaunchData) : Nat := d.get 207 128
def LaunchData.objCnt (d : LaunchData) : Nat := d.get 223 208
def LaunchData.tensors (d : LaunchData) : Nat := d.get 335 256
def LaunchData.route (d : LaunchData) : Nat := d.get 463 384
def LaunchData.refill (d : LaunchData) : Nat := d.get 495 464
def LaunchData.upcall (d : LaunchData) : Nat := d.get 639 608
def LaunchData.bitmapAt (d : LaunchData) : Nat := d.get 719 640
def LaunchData.quota (d : LaunchData) : Nat := d.get 735 732
def LaunchData.nv (d : LaunchData) : Nat := d.get 742 736
def LaunchData.ne (d : LaunchData) : Nat := d.get 747 743
def LaunchData.podset (d : LaunchData) : Nat := d.get 847 768
def LaunchData.vb (d : LaunchData) : Nat := d.get 857 848
def LaunchData.sb (d : LaunchData) : Nat := d.get 867 858
def LaunchData.cb (d : LaunchData) : Nat := d.get 877 868
def LaunchData.seed (d : LaunchData) (i : Nat) : Nat := d.get (1663 + 128 * i) (1536 + 128 * i)

/-- An access whose refusal is no refusal of the command. -/
def Access.orNone {α : Type} (s : State) : Access α → Access (Option α)
  | .got v t => .got (some v) t
  | .refused => .got none s
  | .wait t => .wait t
  | .walk n t => .walk n t
  | .halt f => .halt f

def Access.bind {α β : Type} (r : Access α) (k : α → State → Access β) : Access β :=
  match r with
  | .got v t => k v t
  | .refused => .refused
  | .wait t => .wait t
  | .walk n t => .walk n t
  | .halt f => .halt f

/-- A read of the launch, where it is wanted. -/
def wanted {α : Type} (s : State) (q : Nat) (want : Bool) (m : Actor → Act α) : Access (Option α) :=
  if want then (queueAccess s q [] m).orNone s else .got none s

def readNat (a : Actor) (va n : Nat) : Act Nat := do
  let bs ← readRange a va n
  pure (natOfBytes bs)

/-- 16-byte words at `va`. -/
def readWords16 (a : Actor) (va : Nat) (n : Nat) : Act (List Nat) := do
  let bs ← readRange a va (16 * n)
  pure ((upFrom 0 n).map fun i => natOfBytes ((bs.drop (16 * i)).take 16))

/-- The engine of a PIN code (R36). -/
def pinOf (x : Nat) : Pin :=
  match x with
  | 1 => .mx | 2 => .ep | 4 => .ch0 | 5 => .ch1 | 6 => .ch2 | 7 => .ch3 | _ => .none

/-- A pitch record (R36). -/
def pitchOf (x : Nat) : PitchRec :=
  { entry := field x 63 0, inq := field x 79 64
    outq := if field x 95 80 = 0xFFFF then none else some (field x 95 80)
    width := field x 99 96, cls := field x 101 100
    pin := pinOf (field x 104 102) }

/-- The queues that the pitches of a route name, each once. -/
def namedQueues (ps : List PitchRec) : List Nat := (ps.flatMap fun p => p.inq :: p.outq.toList).eraseDups

/-- The queues of a route in the order of their images: as they were declared, where that order names each once and all that
the pitches name; else by first appearance (R213; a free value, log 43). -/
def queueOrder (d : LaunchData) (ps : List PitchRec) : List Nat :=
  let order := Config.declaredQueues d.route (d.gen.getD 0)
  if order.Nodup ∧ (namedQueues ps).all order.contains then order else namedQueues ps

/-- Everything a launch reads, with its block in hand. -/
def readLaunch (s : State) (q block : Nat) : Access LaunchData :=
  let d : LaunchData := ⟨block, none, none, none, none, none, none, none, none⟩
  let dom := queueDomain s q
  (wanted s q true fun _ => reachTable dom d.text).bind fun _ s =>
  (wanted s q true fun a => translate a d.text rightEX).bind fun leaf s =>
  let d := { d with gen := leaf.map fun t => leafGen t.entry.toNat }
  (wanted s q d.fixedSet fun a => readNat a d.bitmapAt 144).bind fun bitmap s =>
  (wanted s q (d.route != 0) fun a => readNat a d.route 16).bind fun header s =>
  let pitches := field (header.getD 0) 3 0
  (wanted s q header.isSome fun a => readWords16 a (d.route + 16) pitches).bind fun records s =>
  let queues := queueOrder d ((records.getD []).map pitchOf)
  (wanted s q records.isSome fun a => readWords16 a (d.route + 16 + 16 * pitches) queues.length).bind fun images s =>
  (wanted s q (d.tensors != 0) fun a => readGranules a (granulesFrom d.tensors 1024)).bind fun descs s =>
  (wanted s q (d.podset != 0) fun a => readNat a d.podset 32).bind fun packages s =>
  (wanted s q (d.index != 0xFFFF) fun _ => validBinding (queueHome s q) dom d.index).bind fun binding s =>
  .got { d with
    bitmap := bitmap, header := header, records := records, images := images.map fun is => queues.zip is, descs := descs
    packages := packages, binding := binding.join } s

/-! ### The checks (R23, R38, R82, R400) -/

/-- Reserved bits, alignments, offsets and the exactness of TEXT (status 1). -/
def blockSound (d : LaunchData) : Bool :=
  let offset (o : Nat) : Bool := o % 4 == 0 && o < d.textLen
  d.get 1535 896 == 0 && d.get 895 878 == 0 && d.get 767 748 == 0 && d.get 511 496 == 0 && d.get 383 368 == 0 &&
    (!d.fixedSet || d.bitmapAt % 16 == 0) && d.text % 4 == 0 && d.tensors % 64 == 0 && d.objTab % 16 == 0 &&
    d.route % 16 == 0 && (d.fixedSet || (d.count % 4 == 0 && 4 ≤ d.count && d.count ≤ 1152)) &&
    offset (d.get 367 336) && (d.upcall == 0xFFFFFFFF || offset d.upcall) &&
    (d.refill == 0xFFFFFFFF || offset d.refill) && (exactCap setPerms d.text d.textLen).isSome

/-- The cores of a bitmap. -/
def bitmapCores (b : Nat) : List Nat := (upFrom 0 1152).filter (bit b)

/-- The core set exists (status 2). -/
def coresSound (d : LaunchData) : Bool :=
  if d.fixedSet then (match d.bitmap with
    | some b => !(bitmapCores b).isEmpty
    | none => true)
  else d.count ≤ 144 || d.count % 144 == 0

/-- Windows, boundaries and quota (status 3). -/
def poolsSound (d : LaunchData) : Bool :=
  d.nv % 8 == 0 && d.nv ≤ 64 && d.ne % 4 == 0 && d.ne ≤ 16 && 1 ≤ d.quota && d.quota ≤ 11 &&
    11 * (d.nv * 256 + d.ne * 512) ≤ 4096 * d.vb && d.vb ≤ d.sb && d.cb ≥ d.sb + 16 && d.cb + 32 ≤ 512

/-- The fields of a pitch record stand in their ranges. -/
def pitchSound (textLen x : Nat) : Bool :=
  field x 127 105 == 0 && field x 104 102 != 3 && 1 ≤ field x 99 96 && field x 99 96 ≤ 11 && field x 63 0 % 4 == 0 &&
    field x 63 0 < textLen

/-- The stash bytes of a queue: its record and its items. -/
def queueSpan (q image : Nat) : Nat × Nat := (16 * q, 16 * q + 16 + queueDepth image * queueItem image * 16)

def imageSound (stash q image : Nat) : Bool :=
  queueReservedBits image && 1 ≤ queueDepth image && queueDepth image ≤ 1024 && 1 ≤ queueItem image &&
    queueItem image ≤ 16 && (queueSpan q image).2 ≤ stash

def spansApart : List (Nat × Nat) → Bool
  | [] => true
  | (a, b) :: rest => rest.all (fun (c, d) => b ≤ c || d ≤ a) && spansApart rest

/-- The route passes R38 (status 4); one that cannot be read is for status 5. -/
def routeSound (d : LaunchData) : Bool :=
  if d.route = 0 then true
  else
    match d.header, d.records, d.images with
    | some h, some rs, some is =>
      let ps := rs.map pitchOf
      let outs := ps.filterMap (·.outq)
      h / 16 == 0 && 1 ≤ field h 3 0 && field h 3 0 ≤ 8 && rs.all (pitchSound d.textLen) &&
        is.all (fun (q, i) => imageSound ((d.sb - d.vb) * 4096) q i) &&
        spansApart (is.map fun (q, i) => queueSpan q i) &&
        decide (ps.map (·.inq)).Nodup && decide outs.Nodup && ps.all fun p => p.outq != some p.inq
    | _, _, _ => true

/-- The seeds that give `c1` to `c4`. -/
def seedsSound (s : State) (dom : Nat) (d : LaunchData) : Bool :=
  (upFrom 0 4).all fun i => (seedCap (d.seed i)).isSome && seedGranted s dom (d.seed i)

/-- Every range is granted and read, and every seed is given (status 5). -/
def rangesSound (s : State) (dom : Nat) (d : LaunchData) : Bool :=
  rangeGranted s dom d.text d.textLen rightEX &&
    (!d.fixedSet || d.bitmap.isSome) && (d.route == 0 || (d.header.isSome && d.records.isSome && d.images.isSome)) &&
    (d.tensors == 0 || d.descs.isSome) && (d.podset == 0 || d.packages.isSome) &&
    (d.objTab == 0 || (rangeGranted s dom d.objTab (16 * d.objCnt) rightLD &&
      (exactCap (permLD + permLC + permGL) d.objTab (16 * d.objCnt)).isSome)) &&
    seedsSound s dom d

/-- The binding is there and no UNBIND of it has started (status 7). -/
def bindingSound (s : State) (dom : Nat) (d : LaunchData) : Bool :=
  d.index == 0xFFFF || (d.binding.isSome && !unbinding s dom d.index)

/-- The first status of R400 that refuses a launch. -/
def launchStatus (s : State) (dom : Nat) (d : LaunchData) : Nat :=
  if !blockSound d then 1
  else if !coresSound d then 2
  else if !poolsSound d then 3
  else if !routeSound d then 4
  else if !rangesSound s dom d then 5
  else if s.teams.any (fun t => t.ident.toNat == d.get 607 576) then 6
  else if !bindingSound s dom d then 7
  else if d.gen ≠ some (d.get 255 224) then 8
  else 0

/-! ### LAUNCH (R393, R400) -/

/-- A relocatable launch joins those pending at the agent of its home core's quad. -/
def addPending (s : State) (q entry : Nat) (d : LaunchData) : State :=
  if d.fixedSet ∨ s.launches.any (fun p => p.queue == q && p.entry == entry) then s
  else { s with launches := s.launches ++ [⟨q, entry, queueHome s q / 4, 0, d.count⟩] }

def dropPending (s : State) (q entry : Nat) : State :=
  { s with launches := s.launches.filter fun p => !(p.queue == q && p.entry == entry) }

/-- The launch as its command names it; a block that cannot be read is refused with status 1. -/
def launchOf (s : State) (q : Nat) (c : Command) : Access LaunchData :=
  (queueAccess s q [] fun a => readNat a (commandAddr c) 256).bind fun b s => readLaunch s q b

/-- A core can take a launch: no team is resident on it, and its die runs and is not under update. -/
def coreFree (s : State) (c : Nat) : Bool :=
  (coreOf s c).team.isNone && (coreOf s c).started && !(s.update.stat == 1 && s.update.die == dieOf c)

/-- The cores of a bitmap that names only cores that exist. -/
def LaunchData.fixedCores (d : LaunchData) : List Nat := bitmapCores (d.bitmap.getD 0)

/-- The launch writes its queue record images to the stash of a core (R213). -/
def putImages (d : LaunchData) (k : Core) : Core :=
  (d.images.getD []).foldl (fun k (q, i) => stashPut k (16 * q) (bytesOf 16 i) false) k

/-- A launch on free cores that the checks of R38 or later ones refuse has written its images before (R213). -/
def spoilStashes (s : State) (d : LaunchData) (status : Nat) : State :=
  if 4 ≤ status ∧ d.fixedSet ∧ d.fixedCores.all (coreFree s) then
    d.fixedCores.foldl (fun s c => onCore s c (putImages d)) s
  else s

/-- The checks of a LAUNCH; one that passes waits for its admission. -/
def execLaunch (queue entry : Nat) (s : State) : Host.Outcome State Fault Refusal :=
  match commandOf (queueOf s queue) entry with
  | none => .next s
  | some c =>
    if commandOpc c ≠ 1 ∨ c.started ∨ !homeRuns s queue then .next s
    else
      let now := mayStart (queueOf s queue) c
      let refuse (s : State) (st : Nat) : Host.Outcome State Fault Refusal :=
        if now then .next (retire (dropPending s queue entry) queue entry st) else .next s
      if !goodCommand c then refuse s 1
      else
        match launchOf s queue c with
        | .refused => refuse s 1
        | .wait t => .next t
        | .walk n t => .next (askCommand queue entry n t)
        | .halt f => .fault f
        | .got d t =>
          match launchStatus t (queueDomain t queue) d with
          | 0 => .next (addPending t queue entry d)
          | st => if now then refuse (spoilStashes t d st) st else .next t

/-! ### Placement (R393) -/

/-- The load of an agent. -/
def agentLoad (s : State) (quad : Nat) : Nat := ((s.launches.filter (·.agent == quad)).map (·.cores)).sum

/-- Quads that trade: neighbours in the 6 × 6 grid of their die, or agents 0 of neighbouring dies. -/
def neighbours (a b : Nat) : Bool :=
  let p := a % 36
  let q := b % 36
  if a / 36 = b / 36 then
    (p / 6 == q / 6 && (p % 6 + 1 == q % 6 || q % 6 + 1 == p % 6)) || (p % 6 == q % 6 && (p / 6 + 1 == q / 6 || q / 6 + 1 == p / 6))
  else p == 0 && q == 0 && (a / 36 + 1 == b / 36 || b / 36 + 1 == a / 36)

/-- The oldest launches of `a` move to `b` while the cores moved stay within `room`. -/
def movePending (a b room : Nat) : List Pending → List Pending
  | [] => []
  | p :: rest =>
    if p.agent = a ∧ p.moves < 64 then
      if p.cores ≤ room then { p with agent := b, moves := p.moves + 1 } :: movePending a b (room - p.cores) rest
      else p :: rest
    else p :: movePending a b room rest

/-- One trade: the agent with the greater load gives. -/
def trade (s : State) (a b : Nat) : State :=
  let la := agentLoad s a
  let lb := agentLoad s b
  if la > lb + 4 then { s with launches := movePending a b ((la - lb) / 2) s.launches }
  else if lb > la + 4 then { s with launches := movePending b a ((lb - la) / 2) s.launches }
  else s

def execPlacementExchange (first second : Nat) (s : State) : Host.Outcome State Fault Refusal :=
  if first < 288 ∧ second < 288 ∧ neighbours first second then .next (trade s first second) else .next s

/-! ### Admission (R22 to R26, R400 to R402) -/

/-- Strictly rising numbers. -/
def rising : List Nat → Bool
  | a :: b :: rest => a < b && rising (b :: rest)
  | _ => true

/-- A placement of `n` cores: whole quads of one die, or whole dies. -/
def goodPlace (place : List Nat) (n : Nat) : Bool :=
  rising place && place.length == n && place.all (· < 1152) &&
    (if n ≤ 144 then place.all fun c =>
        c / 144 == place.headD 0 / 144 && (upFrom (c / 4 * 4) 4).all place.contains
      else place.all fun c => (upFrom (c / 144 * 144) 144).all place.contains)

/-- Two admitted teams want a core in common. -/
def shares (a b : List Nat) : Bool := a.any b.contains

/-- The swap area has room for every team that would be sliced, this one among them (R424). -/
def slicesFit (s : State) (cores : List Nat) : Bool :=
  let sets := cores :: s.teams.map (·.cores)
  let sliced := sets.zipIdx.filter fun (a, i) => sets.zipIdx.any fun (b, j) => i != j && shares a b
  !(s.teams.any fun t => shares cores t.cores) || (sliced.map fun e => e.1.length * swapUnit).sum ≤ swapLen s

/-- Descriptors and their tags from the granules of a tensor table (R69). -/
def descsFrom (gs : List (Nat × Bool)) : SMap (BitVec 512) × SMap Nat :=
  let entry (i : Nat) : BitVec 512 :=
    BitVec.ofNat 512 (joinGranules ((gs.drop (4 * i)).take 4)).1
  let tags (i : Nat) : Nat := field (joinGranules ((gs.drop (4 * i)).take 4)).2 1 0
  (((upFrom 0 256).map fun i => (i, entry i)).filter fun e => e.2 != 0,
    ((upFrom 0 256).map fun i => (i, tags i)).filter fun e => e.2 != 0)

def optOffset (x : Nat) : Option Nat := if x = 0xFFFFFFFF then none else some x

/-- The packages of a PODSET. -/
def packagesOf (x : Nat) : List Nat := (upFrom 0 256).filter (bit x)

/-- The team that a launch makes. -/
def teamFrom (s : State) (q : Nat) (c : Command) (d : LaunchData) (cores : List Nat) (uid : Nat) : Team :=
  let descs := descsFrom (d.descs.getD [])
  { blankTeam (queueFunc s q) (queueDomain s q) with
    uid := uid, ident := BitVec.ofNat 32 (d.get 607 576), queue := q, entry := c.entry
    tag := BitVec.ofNat 32 (commandTag c), flags := field c.words.toNat 10 9 * 2 ^ 9, cores := cores
    quota := d.quota, nv := d.nv, ne := d.ne, vb := d.vb, sb := d.sb, cb := d.cb, text := d.text, textlen := d.textLen
    gen := BitVec.ofNat 32 (d.get 255 224), entryOff := d.get 367 336, upcall := optOffset d.upcall
    refill := optOffset d.refill, route := d.route, seed := BitVec.ofNat 64 (d.get 575 512)
    podset := if d.podset = 0 then [] else packagesOf (d.packages.getD 0)
    binding := if d.index = 0xFFFF then none else some (d.index, BitVec.ofNat 32 ((d.binding.map (·.gen)).getD 0))
    descs := descs.1, descTags := descs.2, resident := true, admitted := s.time, slice := field s.slice.toNat 16 0
    entered := s.time, sequence := uid }

/-- `c3` of a launch with an object table: the table's capability, with LD, LC and GL (DESIGN CHOICE, log 42), where the code object's header sets ABI, else the seed. No
launch block and nothing that the device reads holds that header: a free value (R367, R369, R401; log 42). -/
def tableSeed (d : LaunchData) (seed : Cap) : Cap :=
  let table := boundedCap (permLD + permLC + permGL) d.objTab (16 * d.objCnt)
  if seed = table then table else if Config.objectAbi d.text (d.gen.getD 0) then table else seed

/-- `c1` to `c4` of its leaders (R365, R401). -/
def seedsOf (d : LaunchData) : List Cap :=
  let plain (i : Nat) : Cap := (seedCap (d.seed i)).getD Cap.null
  [plain 0,
    if d.index = 0xFFFF then plain 1 else (d.binding.map (·.weights)).getD Cap.null,
    if d.objTab = 0 then plain 2 else tableSeed d (plain 2),
    plain 3]

/-- A core takes a launch: its engines start empty, its boundaries, route and queue records are set (R26, R82, R213). -/
def admitCore (t : Team) (d : LaunchData) (s : State) (c : Nat) : State :=
  let ps := (d.records.getD []).map pitchOf
  let k := bareCore c (coreOf s c)
  let k := { k with
    team := some t.uid, vb := t.vb, sb := t.sb, cb := t.cb
    slots := k.slots.map fun (n, x) => (n, { x with copies := [] })
    ep := { k.ep with seed := t.seed }
    route := { pitches := ps, running := d.route != 0 } }
  kernelBoundary (setCore s c (putImages d k)) c

/-- The leaders of one core. -/
def admitLeaders (t : Team) (seeds : List Cap) (s : State) (c : Nat) : State :=
  (upFrom 0 t.quota).foldl
    (fun s i =>
      let s := placeContext s t .leader ⟨c, i⟩ (teamCode t t.entryOff) seeds (ordinalOf t c i) (leaderCount t)
      onCtx s ⟨c, i⟩ fun x => { x with
        ordinal := ordinalOf t c i, fetchSince := (coreOf s c).cycle, readyAt := (coreOf s c).cycle })
    s

/-- The launch becomes resident on every core of its core set. -/
def admitLaunch (s : State) (q : Nat) (c : Command) (d : LaunchData) (cores : List Nat) : State :=
  let (uid, s) := freshName s
  let t := teamFrom s q c d cores uid
  let s := { s with teams := s.teams ++ [t] }
  let s := cores.foldl (admitCore t d) s
  let s := cores.foldl (admitLeaders t (seedsOf d)) s
  startCommand (dropPending s q c.entry) q c.entry

/-- Admission of a launch on the cores it names, or on the cores its agent chooses. -/
def execLaunchAdmit (queue entry : Nat) (place : List Nat) (s : State) : Host.Outcome State Fault Refusal :=
  begin' s queue entry (· == 1) fun c =>
    match launchOf s queue c with
    | .refused => .next s
    | .wait t => .next t
    | .walk n t => .next (askCommand queue entry n t)
    | .halt f => .fault f
    | .got d t =>
      let cores := if d.fixedSet then d.fixedCores else place
      let pended := d.fixedSet || t.launches.any fun p => p.queue == queue && p.entry == entry
      if launchStatus t (queueDomain t queue) d = 0 ∧ pended ∧ (d.fixedSet ∨ goodPlace place d.count) ∧
          cores.all (coreFree t) ∧ slicesFit t cores then .next (admitLaunch t queue c d cores)
      else .next t

/-! ### The end of a team (R27) -/

/-- No context of the team is left, and nothing it issued is unfinished. -/
def teamDone (s : State) (t : Team) : Bool :=
  t.resident && (teamContexts s t).all (fun (_, x) => x.status == .free) && !t.saved.any (·.out) &&
    t.cores.all fun c =>
      let k := coreOf s c
      k.records.isEmpty && k.ep.job.isNone && k.channels.all (fun (_, ch) => ch.xfer.isNone) &&
        (match k.run with
          | .message m => m.team != t.uid
          | .notice _ => false
          | .idle => true)

def launchResult (t : Team) : Nat :=
  match t.ended with
  | some cause => 0x200 + cause
  | none => 0

/-- The team ends, once nothing that its end writes waits: its stores reach the host, its cores are bare, and its LAUNCH retires. -/
def execTeamComplete (team : Nat) (s : State) : Host.Outcome State Fault Refusal :=
  match teamBy s team with
  | none => .next s
  | some t =>
    if teamDone s t && queueClear s t.queue && !t.cores.any (windowHeld s) then
      let s := makeAllVisible (fun p => p.team == some t.uid) s.pending.length s
      .next (retire (removeTeam s t) t.queue t.entry (launchResult t))
    else .next s

end Sys2Proof.Machine
end

