-- ==== Sys2Proof/Machine/HostPort.lean ====
section
/-!
DEFINITION. What the host reaches on the link: queue and function registers, a function's segment window, CXL.mem, and
the trust block's key store (R171, R174, R383 to R388, R398, R408, R413, R423, R429, R441, R444, R448, R453, R455).
-/

namespace Sys2Proof.Machine

/-! ### QCFG (R386, R388) -/

/-- The fields of QCFG that are no reserved bits. -/
def qcfgMask (v : Nat) : Nat := setField (setField v 63 46 0) 25 23 0

def enableOff (v : Nat) : Nat := setField v 26 26 0

/-- Queues other than `q` that have HSAMP set. -/
def samplers (s : State) (q : Nat) : Nat := (s.queues.filter fun (n, x) => n != q && qcfgSample x.cfg).length

/-- The number of no queue: a launch of a queue that has been enabled anew retires in none. -/
def noQueue : Nat := 4096

/-- What a queue took in before it is enabled anew is forgotten: its commands, parked and pending, and the entries under which its
launches would retire (DESIGN CHOICE, log 117). -/
def forgetCommands (q : Nat) (s : State) : State :=
  let s := onQueue (unpark q s) q fun x => { x with commands := [] }
  { s with
    launches := s.launches.filter (·.queue != q)
    teams := s.teams.map fun t => if t.queue = q then { t with queue := noQueue } else t }

/-- ENABLE is set: the current copy of the QCB is used; without one the queue stays disabled. -/
def enableQueue (s : State) (q v : Nat) : State :=
  let s := onQueue (forgetCommands q s) q fun x => { x with cfg := BitVec.ofNat 128 v }
  let s := recallAll s (copyAt s q 0) 128 false
  match [0, 1].find? (copyPoisoned s q), currentCopy s q with
  | some i, _ => poisonReset s ((s.memory.keyAt (copyAt s q i)).getD 0) (copyAt s q i) (queueFunc s q) (queueDomain s q)
  | none, some (i, x) =>
    onQueue s q fun y =>
      let y := queueFrom y i x
      { y with bell := y.consumed, retries := 0, parked := false, slot := false, stamped := none, offered := none }
  | none, none => postEvent (disableQueue s q) (queueFunc s q) ⟨1, q, 0, queueDomain s q, 0⟩

/-- A channel owns the QCB that a value of QCFG names: the home core does not come to it yet (R130). -/
def qcbOwned (s : State) (q v : Nat) : Bool :=
  let t := onQueue s q fun x => { x with cfg := BitVec.ofNat 128 v }
  blocked t (copyAt t q 0) 128

/-- A write of QCFG by the PF. -/
def execQcfgWrite (queue : Nat) (value : BitVec 128) (s : State) : Host.Outcome State Fault Refusal :=
  let old := (queueCfg s queue).toNat
  let v := qcfgMask value.toNat
  let v := if bit v 27 ∧ samplers s queue ≥ 16 then setField v 27 27 0 else v
  let cfg := BitVec.ofNat 128 v
  if !linkRuns s ∨ queue > 4095 ∨ qcfgHome cfg > 1151 ∨ qcfgFunc cfg > 64 ∨ qcfgQcb cfg % 128 ≠ 0 then .next s
  else if bit old 26 then
    if enableOff old ≠ enableOff v then .next s
    else if bit v 26 then .next s
    else .next (disableQueue s queue)
  else if bit v 26 then .next (if qcbOwned s queue v then s else enableQueue s queue v)
  else .next (onQueue s queue fun x => { x with cfg := cfg })

/-! ### Registers (R384, R408, R413, R423, R441, R444, R448, R455) -/

def funcHasTeam (s : State) (f : Nat) : Bool := s.teams.any (·.func == f)
def funcHasQueue (s : State) (f : Nat) : Bool := s.queues.any fun (_, q) => qcfgFunc q.cfg == f && qcfgEnable q.cfg

/-- A write to a segment register of a function in use is ignored. -/
def segmentFixed (s : State) (f : Nat) : Bool := f != 0 && (funcHasTeam s f || funcHasQueue s f)

/-- The registers of a function, at their offsets in its block (DEDUCED, log 45). -/
def writeFunction (s : State) (f o : Nat) (v : BitVec 64) : State :=
  let segment : BitVec 64 := BitVec.ofNat 64 (field v.toNat 47 21 * 2 ^ 21)
  match o with
  | 0 => if segmentFixed s f then s else onFunc s f fun x => { x with fseg := segment }
  | 8 => if segmentFixed s f then s else onFunc s f fun x => { x with flen := segment }
  | 16 => if funcHasTeam s f then s else onFunc s f fun x => { x with fmode := BitVec.ofNat 64 (field v.toNat 4 0) }
  | 24 => onFunc s f fun x => { x with fevr := v }
  | _ => s

/-- The package registers: three that keep their values while a team is admitted, and the two requests, which the write of
their high doubleword commits (R408, R415, R417). -/
def writePackage (s : State) (o : Nat) (v : BitVec 64) : State :=
  let n := v.toNat
  let still := s.teams.isEmpty
  match o with
  | 0x800 => if still then { s with ptroot := BitVec.ofNat 64 (field n 47 19 * 2 ^ 19) } else s
  | 0x810 => { s with sdlow := v }
  | 0x818 => commitShootdown s (v ++ s.sdlow).toNat
  | 0x828 => if still then { s with swapbase := BitVec.ofNat 64 (field n 47 21 * 2 ^ 21) } else s
  | 0x830 => if still then { s with swaplen := BitVec.ofNat 64 (field n 47 21 * 2 ^ 21) } else s
  | 0x840 => { s with movelow := v }
  | 0x848 => { s with shootdowns := s.shootdowns ++ [.move (v ++ s.movelow)] }
  | _ => s

/-- An OPTAB row keeps the limits: weights, frequency, and frequencies that never rise with the state. -/
def optabSound (s : State) (row n : Nat) : Bool :=
  let f := field n 9 0
  (upFrom 0 4).all (fun i => 1 ≤ field n (14 + 5 * i) (10 + 5 * i) && field n (14 + 5 * i) (10 + 5 * i) ≤ 16) &&
    f % 50 == 0 && 200 ≤ f && f ≤ 700 && (row == 0 || f ≤ field (optabRow s (row - 1)) 9 0) &&
    (row == 7 || field (optabRow s (row + 1)) 9 0 ≤ f)

/-- The operator's registers; a write that breaks a limit is ignored. -/
def writeOperator (s : State) (o : Nat) (v : BitVec 64) : State :=
  let n := v.toNat
  if o = 0x4000 then
    if 1000 ≤ field n 15 0 ∧ field n 15 0 ≤ 4200 then { s with capw := BitVec.ofNat 64 (field n 15 0) } else s
  else if o = 0x4008 then
    if 100 ≤ field n 16 0 ∧ field n 16 0 ≤ 100000 then { s with slice := BitVec.ofNat 64 (field n 16 0) } else s
  else if o = 0x4030 then
    if n % 4096 = 0 then { s with update := { s.update with addr := v } } else s
  else if 0x4400 ≤ o ∧ o < 0x4440 ∧ o % 8 = 0 then
    let row := (o - 0x4400) / 8
    if s.teams.isEmpty ∧ optabSound s row (field n 29 0) then
      { s with optab := put s.optab row (BitVec.ofNat 64 (field n 29 0)) }
    else s
  else s

/-- The register block of a domain. -/
def writeDomain (s : State) (d o : Nat) (v : BitVec 64) : State :=
  let n := v.toNat
  match o with
  | 0x00 => onDomain s d fun x => { x with gbase := BitVec.ofNat 64 (field n 47 5 * 2 ^ 5) }
  | 0x08 =>
    if field n 12 0 ≤ 4096 then onDomain s d fun x => { x with gcnt := BitVec.ofNat 64 (field n 12 0) } else s
  | 0x10 =>
    if 1 ≤ field n 15 0 ∧ field n 15 0 ≤ 4095 then
      onDomain s d fun x => { x with keyid := BitVec.ofNat 64 (field n 15 0) }
    else s
  | 0x18 => onDomain s d fun x => { x with fring := BitVec.ofNat 64 (field n 47 3 * 2 ^ 3) }
  | 0x20 =>
    if 4 ≤ field n 3 0 ∧ field n 3 0 ≤ 12 then onDomain s d fun x => { x with flog2 := BitVec.ofNat 64 (field n 3 0) }
    else s
  | 0x28 => onDomain s d fun x => { x with fprod := v }
  | _ => s

/-- A sequence slot of the domain is not FREE. -/
def someSlot (d : Domain) : Act Bool := someWord (fun i => d.seqBase + 256 * i) (fun w => field w 1 0 != 0) d.seqCount 0

/-- The capacity block of a domain (R441). -/
def setCapacity (s : State) (d o : Nat) (v : BitVec 64) : State :=
  let low : BitVec 64 := BitVec.ofNat 64 (field v.toNat 31 0)
  match o with
  | 0x00 => onDomain s d fun x => { x with kvbase := v }
  | 0x08 => onDomain s d fun x => { x with kvpages := low }
  | 0x10 => onDomain s d fun x => { x with covbase := v }
  | 0x18 => onDomain s d fun x => { x with covgran := low }
  | _ => s

/-- A write to it is ignored while the domain is in use. -/
def capacityAct (d o : Nat) (v : BitVec 64) : Act Unit := do
  let x := domainOf (← get) d
  if !domainHasTeam (← get) d then
    if !(← someBinding x) then
      if !(← someSlot x) then
        modify fun s => setCapacity s d o v

/-- The write: it waits for what its reads wait for, and for a page that is under service. -/
def writeCapacity (d o : Nat) (v : BitVec 64) (s : State) : Host.Outcome State Fault Refusal :=
  match inName 0 d (capacityAct d o v) s with
  | .error (.trap t) => match servedKind s 0 d t with
    | some kind => .next (startService s kind 0 d t.info t.rights []).2
    | none => .next s
  | .error e => finishEvent 0 d (fun _ => .error e) s
  | .ok (_, t) => .next t

/-- A write of the PF to a register of BAR0. -/
def writeRegister (s : State) (o : Nat) (v : BitVec 64) : State :=
  if 0x800 ≤ o ∧ o < 0x850 then writePackage s o v
  else if 0x1000 ≤ o ∧ o < 0x1000 + 64 * 65 then writeFunction s ((o - 0x1000) / 64) ((o - 0x1000) % 64) v
  else if 0x4000 ≤ o ∧ o < 0x5000 then writeOperator s o v
  else if 0x6000 ≤ o ∧ o < 0x6000 + 16 * 65 ∧ o % 16 = 0 then
    onFunc s ((o - 0x6000) / 16) fun x => { x with flimit := BitVec.ofNat 64 (field v.toNat 31 0) }
  else if 0x800000 ≤ o ∧ o < 0xC00000 then writeDomain s ((o - 0x800000) / 64) ((o - 0x800000) % 64) v
  else s

/-- A write to a register without a behaviour of its own: FEVHEAD by its function, every other by the PF. -/
def execRegisterWrite (func offset : Nat) (value : BitVec 64) (s : State) : Host.Outcome State Fault Refusal :=
  if !linkRuns s then .next s
  else if func ≤ 64 ∧ offset = 0x20000 + 64 * func then .next (onFunc s func fun x => { x with fevhead := value })
  else if func ≠ 0 then .next s
  else if 0xC00000 ≤ offset ∧ offset < 0xE00000 then
    writeCapacity ((offset - 0xC00000) / 32) ((offset - 0xC00000) % 32) value s
  else .next (writeRegister s offset value)

/-! ### Host accesses to memory (R171, R174, R385, R453) -/

/-- A read of the host: its bytes, or poison. -/
def hostLoad (s : State) (pa n : Nat) : State :=
  let bad := pa < hostBase && (pieces pa n).any fun e => memNat s.poison (e.1 / 64)
  { s with hostRead := if bad then [] else s.memory.bytes pa n, hostPoison := bad }

def hostStore (s : State) (pa : Nat) (bs : List Byte) : State :=
  (pieces pa bs.length).foldl (fun s (p, n) => hostWrite s p ((bs.drop (p - pa)).take n)) s

/-- An access of the host to a physical range: the device's copies are recalled first. -/
def hostAccess (s : State) (pa size : Nat) (data : Option (List Byte)) : Host.Outcome State Fault Refusal :=
  let n := match data with
    | some bs => bs.length
    | none => size
  if blocked s pa n then .next s
  else
    let s := recallAll s pa n data.isSome
    match data with
    | some bs => .next (hostStore s pa bs)
    | none => .next (hostLoad s pa n)

/-- A host access through BAR4 of a VF. -/
def execSegmentWindowAccess (func offset size : Nat) (data : Option (List (BitVec 8))) (s : State) :
    Host.Outcome State Fault Refusal :=
  let f := funcOf s func
  let n := match data with
    | some bs => bs.length
    | none => size
  if !linkRuns s ∨ func = 0 ∨ func > 64 then .next s
  else if offset + n ≤ segLen f ∧ offset < segLen f then
    if segBase f + offset + n ≤ Config.hbmBytes then hostAccess s (segBase f + offset) size data else .next s
  else match data with
    | some _ => .next s
    | none => .next { s with hostRead := List.replicate n 255, hostPoison := false }

/-- A host access to device memory over CXL.mem, or to the host's own memory, which stands at 2^64 and above. -/
def execHostMemAccess (address size : Nat) (data : Option (List (BitVec 8))) (s : State) :
    Host.Outcome State Fault Refusal :=
  let n := match data with
    | some bs => bs.length
    | none => size
  if address ≥ hostBase ∨ (linkRuns s ∧ address + n ≤ Config.hbmBytes) then hostAccess s address size data else .next s

/-! ### The key store (R429) -/

/-- A create that returns the handle `handle`. -/
def execKeyCreate (handle : BitVec 32) (s : State) : Host.Outcome State Fault Refusal :=
  if handle = 0 ∨ keyKnown s handle then .next s else .next (createKey s handle)

def execKeyDestroy (handle : BitVec 32) (s : State) : Host.Outcome State Fault Refusal := .next (destroyKey s handle)

def execKeyQuery (handle : BitVec 32) (s : State) : Host.Outcome State Fault Refusal := .next (queryKey s handle)

end Sys2Proof.Machine
end

