-- ==== Sys2Proof/Machine/Operator.lean ====
section
/-!
DEFINITION. What an operator does and sees: partition resets, launch limits, Meridian, errors of storage and link, package
reset and firmware updates (R431 to R433, R443 to R455).
-/

namespace Sys2Proof.Machine

/-! ### Partition resets (R448, R449) -/

/-- A write of PRESET by the PF. -/
def execPreset (value : BitVec 64) (s : State) : Host.Outcome State Fault Refusal :=
  let v := value.toNat
  if !linkRuns s ∨ field v 63 9 ≠ 0 ∨ field v 6 0 > 64 then .next s
  else .next (partitionReset s (field v 6 0) 1 0 0 (bit v 7) (bit v 8))

/-- A launch that is still unretired after its function's limit resets the partition. -/
def execLaunchTimeLimit (team : Nat) (s : State) : Host.Outcome State Fault Refusal :=
  match teamBy s team with
  | none => .next s
  | some t =>
    let limit := field (funcOf s t.func).flimit.toNat 31 0
    if limit ≠ 0 ∧ (s.time - t.admitted + 1) * 64 ≥ 1000 * limit then
      .next (partitionReset s t.func 2 0 t.domain true false)
    else .next s

def execFunctionLevelReset (func : Nat) (s : State) : Host.Outcome State Fault Refusal :=
  if func ≤ 64 ∧ linkRuns s then .next (partitionReset s func 5 0 0 false false) else .next s

/-! ### Meridian (R443 to R446, R454) -/

def quadIslands : List Nat := upFrom 0 288
def baseIslands : List Nat := upFrom 352 128

/-- The value that a list of (island, value) gives an island. -/
def reading (xs : List (Nat × Nat)) (i d : Nat) : Nat :=
  match xs.find? (·.1 == i) with
  | some e => e.2
  | none => d

/-- PWR of an island, and its TEMP, as their registers hold what the sensors read (R444). -/
def powerOf (power : List (Nat × Nat)) (i : Nat) : Nat := min (reading power i 0) 65535
def tempOf (temp : List (Nat × Nat)) (x : Island) (i : Nat) : Nat := min (reading temp i x.temp.toNat) 255

/-- The draw of some islands, in units of 100 mW. -/
def drawOf (power : List (Nat × Nat)) (is : List Nat) : Nat := (is.map fun i => powerOf power i).sum

/-- The next state of an island: `beyond` is P > CAPW, `under` is P ≤ CAPW − 100, `above` is a draw over its kind's mean. -/
def nextState (state temp : Nat) (beyond under above : Bool) : Nat :=
  if temp ≥ 105 ∨ (beyond ∧ above) then min (state + 1) 7
  else if under ∧ temp < 95 then state - 1
  else state

/-- W0 of an island at state 7 that is still too hot is 0, for at most 15 intervals of 64 µs at a time (R45). -/
def nextZeroed (state temp : Nat) (zeroed : List (Nat × Nat)) : List (Nat × Nat) :=
  if state = 7 ∧ temp ≥ 105 then
    match zeroed.find? (·.1 == 0) with
    | none => [(0, 1)]
    | some e => if e.2 < 15 then [(0, e.2 + 1)] else []
  else []

/-- Meridian acts on one island: its state, and the weights and the clock that OPTAB gives that state. -/
def moveIsland (power temp : List (Nat × Nat)) (beyond under : Bool) (kind : List Nat) (s : State) (i : Nat) : State :=
  let x := islandOf s i
  let t := tempOf temp x i
  let p := powerOf power i
  let n := nextState x.state t beyond under (decide (p * kind.length > drawOf power kind))
  let row := optabRow s n
  let y : Island :=
    { state := n, power := BitVec.ofNat 16 p, temp := BitVec.ofNat 8 t, clock := BitVec.ofNat 10 (field row 9 0)
      weights := (upFrom 0 4).map fun k => field row (14 + 5 * k) (10 + 5 * k), zeroed := nextZeroed x.state t x.zeroed
      restored := [] }
  { s with islands := put s.islands i y }

/-- The readings of an island that Meridian sets no state on. -/
def readIsland (power temp : List (Nat × Nat)) (s : State) (i : Nat) : State :=
  let x := islandOf s i
  let y : Island := { x with power := BitVec.ofNat 16 (powerOf power i), temp := BitVec.ofNat 8 (tempOf temp x i) }
  { s with islands := put s.islands i y }

/-- The quad islands of a team's core set. -/
def teamIslands (t : Team) : List Nat := (t.cores.map (· / 4)).eraseDups

/-- Meridian's interval of 64 µs: the draw and the temperature of each island are what its sensors read. An interval that a
slice boundary cuts counts whole for the teams resident at its end (the spec does not divide it: DESIGN CHOICE, log 65). -/
def execMeridianInterval (power temperature : List (Nat × Nat)) (s : State) : Host.Outcome State Fault Refusal :=
  let total := drawOf power (upFrom 0 512)
  let cap := 10 * field s.capw.toNat 15 0
  let beyond := decide (total > cap)
  let under := decide (total + 1000 ≤ cap)
  let s := quadIslands.foldl (moveIsland power temperature beyond under quadIslands) s
  let s := baseIslands.foldl (moveIsland power temperature beyond under baseIslands) s
  let s := (upFrom 288 64 ++ upFrom 480 32).foldl (readIsland power temperature) s
  .next { s with
    pkgw := min (total / 10) 65535
    tmax := BitVec.ofNat 8 (((upFrom 0 512).map fun i => (islandOf s i).temp.toNat).foldl max 0)
    time := s.time + 1
    teams := s.teams.map fun t =>
      if t.resident then { t with draws := t.draws + drawOf power (teamIslands t), intervals := t.intervals + 1 } else t }

/-! ### Errors of storage and link (R452 to R454) -/

def counted (n k : Nat) : Nat := min (n + k) (2 ^ 64 - 1)

/-- A page stands in a frame, by a translation that a function may use of it. -/
def standsIn (s : State) (f : Option Nat) (frame page : Nat) : Bool :=
  (leavesOf s f (page * 65536)).any fun t => frameOf (placeOf t (page * 65536)) == frame

/-- What the free lists of a domain hold of a frame leaves them for good (R453). -/
def retireFrame (frame : Nat) (s : State) (dom : Nat) : State :=
  let d := domainOf s dom
  let kv := (upFrom 0 d.kvpages.toNat).filter fun i =>
    pageReady (kvPage d i) && standsIn s d.func frame (d.kvbase.toNat + i)
  let cov := (upFrom 0 d.covgran.toNat).filter fun i =>
    granuleFree (granuleAt d i).state && standsIn s d.func frame (d.covbase.toNat + i)
  cov.foldl (fun s i => setGranule s dom i { granuleAt (domainOf s dom) i with state := .retired })
    (kv.foldl (fun s i => setKvPage s dom i .retired) s)

/-- A sector is poisoned. Under key identifier 0 the package resets, where nothing was written under an identifier too
(DESIGN CHOICE, log 97); a frame's second time retires it. -/
def poisonSector (s : State) (sector : Nat) : State :=
  let frame := frameOf (64 * sector)
  let again := s.poisoned.contains frame
  let s := { s with
    uecnt := counted s.uecnt 1, poison := insertNat s.poison sector, poisoned := insertNat s.poisoned frame
    retired := if again then insertNat s.retired frame else s.retired }
  let s : State := if again then (s.domains.map (·.1)).foldl (retireFrame frame) (postEvent s 0 ⟨8, 0, 0, 0, frame⟩) else s
  if (s.memory.keyAt (64 * sector)).getD 0 = 0 then poisonRestart s else s

/-- State of partition `f` in L2, a pool region, a tile, a plane or a core's registers is lost: the partition resets with reason
4 (R449, R452). -/
def loseState (s : State) (f : Nat) : State :=
  partitionReset { s with uecnt := counted s.uecnt 1 } f 4 0 0 true false

/-- What is corrected, sectors of HBM and how many errors of the other protected storage; and what is not, sectors of HBM and
the partitions whose state was lost (R452, log 48). -/
def execHbmPatrol (corrected : List Nat × Nat) (uncorrected : List Nat × List Nat) (s : State) :
    Host.Outcome State Fault Refusal :=
  let bad := uncorrected.1.filter fun p => 64 * p + 64 ≤ Config.hbmBytes && !memNat s.poison p
  let s := bad.foldl poisonSector { s with cecnt := counted s.cecnt (corrected.1.length + corrected.2) }
  .next ((uncorrected.2.filter (· ≤ 64)).foldl loseState s)

/-- A flit is replayed; when the link is retrained, the error was uncorrectable. -/
def execLinkCrcError (retrain : Bool) (s : State) : Host.Outcome State Fault Refusal :=
  .next { s with lretry := counted s.lretry 1, uecnt := if retrain then counted s.uecnt 1 else s.uecnt }

/-! ### Firmware (R431 to R433, R455) -/

/-- A die whose image fails verification does not start. -/
def startDie (verified : List Nat) (s : State) (d : Nat) : State :=
  let ok := verified.contains d
  let s := { s with dies := put s.dies d { lookD s.dies d {} with halted := !ok } }
  if ok then s else holdDie s d

/-- Package reset: every image is verified; `verified` lists the dies whose images pass. -/
def execPackageReset (verified : List Nat) (s : State) : Host.Outcome State Fault Refusal :=
  let s := (upFrom 0 8).foldl (startDie verified) (packageRestart s)
  .next { s with dies := put s.dies 8 { lookD s.dies 8 {} with halted := !verified.contains 8 } }

/-- Two ranges of mailbox versions share one. -/
def rangesMeet (a b c d : Nat) : Bool := max a c ≤ min b d

/-- A write of FWLEN starts an update with a bundle for `dies`, or it is refused before any die is touched: its range of
versions must meet that of every die that it does not replace (R433, log 67). -/
def execFirmwareUpdate (_length : BitVec 64) (versions : Nat × Nat) (dies : List Nat) (s : State) :
    Host.Outcome State Fault Refusal :=
  if !linkRuns s ∨ s.update.stat = 1 then .next s
  else
    let bundle := (upFrom 0 9).filter dies.contains
    let meets := ((upFrom 0 9).filter (!dies.contains ·)).all fun d =>
      rangesMeet versions.1 versions.2 (lookD s.dies d {}).vmin (lookD s.dies d {}).vmax
    let u := { s.update with
      die := bundle.headD 0, image := s.update.image + 1, vmin := versions.1, vmax := versions.2, bundle := bundle }
    .next { s with update := { u with stat := if !meets then 3 else if bundle.isEmpty then 2 else 1 } }

/-- A team is resident on a core of the die, or one of its contexts has migrated to it. -/
def usesDie (s : State) (d : Nat) (t : Team) : Bool :=
  t.resident && (t.cores.any (dieOf · == d) || (teamContexts s t).any fun e => dieOf e.1.core == d)

/-- The die's cores run nothing for anyone. -/
def dieIdle (s : State) (d : Nat) : Bool :=
  s.cores.all fun (c, k) => dieOf c != d || (k.run == .idle && !k.trapOpen)

/-- The die's image is replaced and its cores start again. -/
def replaceImage (s : State) (d : Nat) : State :=
  let u := s.update
  let s := { s with dies := put s.dies d ⟨u.image, u.image, u.vmin, u.vmax, false⟩ }
  if d < 8 then
    ((s.cores.map (·.1)).filter (dieOf · == d)).foldl
      (fun s c => onCore (restartFirmware s c) c fun k => { k with started := true }) s
  else s

/-- The teams of a die leave their cores, whatever is left of their slices (R432). -/
def vacate : List Nat → State → Option State
  | [], s => some s
  | uid :: rest, s =>
    match teamBy s uid with
    | none => none
    | some t => if canLeave s t then vacate rest (swapOut s t) else none

/-- They return. -/
def reinstate : List Nat → State → Option State
  | [], s => some s
  | uid :: rest, s =>
    match teamBy s uid with
    | none => none
    | some t =>
      if canEnter s t then
        match poisonedImage s t with
        | some a => some (poisonedReturn s t a)
        | none => reinstate rest (swapIn s t)
      else none

/-- An update after a die: the next die of its bundle, or its end. -/
def nextDie (u : Update) (verified : Bool) : Update :=
  if !verified then { u with stat := 4 }
  else match u.bundle.filter (u.die < ·) with
    | [] => { u with stat := 2 }
    | d :: _ => { u with die := d }

/-- The next die of an update: its teams leave, its image is verified and started, and they return. -/
def execFirmwareDieUpdate (verified : Bool) (s : State) : Host.Outcome State Fault Refusal :=
  let d := s.update.die
  let uids := (s.teams.filter (usesDie s d)).map (·.uid)
  if s.update.stat ≠ 1 ∨ (d < 8 ∧ !dieIdle s d) then .next s
  else
    match vacate (if d < 8 then uids else []) s with
    | none => .next s
    | some t =>
      if !swapFits t then .next s
      else
        let t := if verified then replaceImage t d else t
        match reinstate (if d < 8 then uids else []) { t with update := nextDie t.update verified } with
        | some r => .next r
        | none => .next s

end Sys2Proof.Machine
end

