-- ==== Sys2Proof/Machine/Scalar.lean ====
section
/-!
DEFINITION. Integer arithmetic (R220 to R223). Every instruction here is fixed-latency.
-/

namespace Sys2Proof.Machine

/-! ### Results (R221) -/

def aluAdd (x y : BitVec 64) : BitVec 64 := x + y
def aluSub (x y : BitVec 64) : BitVec 64 := x - y
def aluMul (x y : BitVec 64) : BitVec 64 := x * y
def aluMulh (x y : BitVec 64) : BitVec 64 := BitVec.ofNat 64 (wrap 64 (x.toInt * y.toInt / 2 ^ 64))
def aluMulhn (x y : BitVec 64) : BitVec 64 := BitVec.ofNat 64 (x.toNat * y.toNat / 2 ^ 64)
def aluDiv (x y : BitVec 64) : BitVec 64 := if y = 0 then BitVec.allOnes 64 else BitVec.ofInt 64 (x.toInt.tdiv y.toInt)
def aluDivn (x y : BitVec 64) : BitVec 64 := if y = 0 then BitVec.allOnes 64 else BitVec.ofNat 64 (x.toNat / y.toNat)
def aluRem (x y : BitVec 64) : BitVec 64 := if y = 0 then x else BitVec.ofInt 64 (x.toInt.tmod y.toInt)
def aluRemn (x y : BitVec 64) : BitVec 64 := if y = 0 then x else BitVec.ofNat 64 (x.toNat % y.toNat)
def aluAnd (x y : BitVec 64) : BitVec 64 := x &&& y
def aluOr (x y : BitVec 64) : BitVec 64 := x ||| y
def aluXor (x y : BitVec 64) : BitVec 64 := x ^^^ y
def aluShl (x y : BitVec 64) : BitVec 64 := x <<< (y.toNat % 64)
def aluShr (x y : BitVec 64) : BitVec 64 := x >>> (y.toNat % 64)
def aluSra (x y : BitVec 64) : BitVec 64 := x.sshiftRight (y.toNat % 64)
def aluRotl (x y : BitVec 64) : BitVec 64 := x.rotateLeft (y.toNat % 64)
def aluSlt (x y : BitVec 64) : BitVec 64 := BitVec.ofNat 64 (boolNat (condLt x y))
def aluSltn (x y : BitVec 64) : BitVec 64 := BitVec.ofNat 64 (boolNat (condLtn x y))
def aluSeq (x y : BitVec 64) : BitVec 64 := BitVec.ofNat 64 (boolNat (condEq x y))
def aluSne (x y : BitVec 64) : BitVec 64 := BitVec.ofNat 64 (boolNat (condNe x y))
def aluMin (x y : BitVec 64) : BitVec 64 := if condLt y x then y else x
def aluMax (x y : BitVec 64) : BitVec 64 := if condLt x y then y else x
def aluMinn (x y : BitVec 64) : BitVec 64 := if condLtn y x then y else x
def aluMaxn (x y : BitVec 64) : BitVec 64 := if condLtn x y then y else x

/-- WriteInt(A, f(Reg(B), y), 64). -/
def alu (f : BitVec 64 → BitVec 64 → BitVec 64) (a b : Reg) (y : BitVec 64) (s : State) : State :=
  writeInt a 64 (f (reg64 s b) y).toNat s

/-- The class 0b00 form: the second operand is `cC`. -/
def aluShort (f : BitVec 64 → BitVec 64 → BitVec 64) (a b c : Reg) (s : State) : Host.Outcome State Fault Refusal :=
  fixed 4 (fun s => alu f a b (opReg s c 0) s) s

/-- The other forms. -/
def aluWide (f : BitVec 64 → BitVec 64 → BitVec 64) (a b : Reg) (o : Op2) (s : State) :
    Host.Outcome State Fault Refusal :=
  fixed (opLength o) (fun s => alu f a b (op2 s o) s) s

def execAdd (a b c : Reg) (s : State) : Host.Outcome State Fault Refusal := aluShort aluAdd a b c s
def execAddWide (a b : Reg) (o : Op2) (s : State) : Host.Outcome State Fault Refusal := aluWide aluAdd a b o s
def execSub (a b c : Reg) (s : State) : Host.Outcome State Fault Refusal := aluShort aluSub a b c s
def execSubWide (a b : Reg) (o : Op2) (s : State) : Host.Outcome State Fault Refusal := aluWide aluSub a b o s
def execMul (a b c : Reg) (s : State) : Host.Outcome State Fault Refusal := aluShort aluMul a b c s
def execMulWide (a b : Reg) (o : Op2) (s : State) : Host.Outcome State Fault Refusal := aluWide aluMul a b o s
def execMulh (a b c : Reg) (s : State) : Host.Outcome State Fault Refusal := aluShort aluMulh a b c s
def execMulhWide (a b : Reg) (o : Op2) (s : State) : Host.Outcome State Fault Refusal := aluWide aluMulh a b o s
def execMulhn (a b c : Reg) (s : State) : Host.Outcome State Fault Refusal := aluShort aluMulhn a b c s
def execMulhnWide (a b : Reg) (o : Op2) (s : State) : Host.Outcome State Fault Refusal := aluWide aluMulhn a b o s
def execDiv (a b c : Reg) (s : State) : Host.Outcome State Fault Refusal := aluShort aluDiv a b c s
def execDivWide (a b : Reg) (o : Op2) (s : State) : Host.Outcome State Fault Refusal := aluWide aluDiv a b o s
def execDivn (a b c : Reg) (s : State) : Host.Outcome State Fault Refusal := aluShort aluDivn a b c s
def execDivnWide (a b : Reg) (o : Op2) (s : State) : Host.Outcome State Fault Refusal := aluWide aluDivn a b o s
def execRem (a b c : Reg) (s : State) : Host.Outcome State Fault Refusal := aluShort aluRem a b c s
def execRemWide (a b : Reg) (o : Op2) (s : State) : Host.Outcome State Fault Refusal := aluWide aluRem a b o s
def execRemn (a b c : Reg) (s : State) : Host.Outcome State Fault Refusal := aluShort aluRemn a b c s
def execRemnWide (a b : Reg) (o : Op2) (s : State) : Host.Outcome State Fault Refusal := aluWide aluRemn a b o s
def execAnd (a b c : Reg) (s : State) : Host.Outcome State Fault Refusal := aluShort aluAnd a b c s
def execAndWide (a b : Reg) (o : Op2) (s : State) : Host.Outcome State Fault Refusal := aluWide aluAnd a b o s
def execOr (a b c : Reg) (s : State) : Host.Outcome State Fault Refusal := aluShort aluOr a b c s
def execOrWide (a b : Reg) (o : Op2) (s : State) : Host.Outcome State Fault Refusal := aluWide aluOr a b o s
def execXor (a b c : Reg) (s : State) : Host.Outcome State Fault Refusal := aluShort aluXor a b c s
def execXorWide (a b : Reg) (o : Op2) (s : State) : Host.Outcome State Fault Refusal := aluWide aluXor a b o s
def execShl (a b c : Reg) (s : State) : Host.Outcome State Fault Refusal := aluShort aluShl a b c s
def execShlWide (a b : Reg) (o : Op2) (s : State) : Host.Outcome State Fault Refusal := aluWide aluShl a b o s
def execShr (a b c : Reg) (s : State) : Host.Outcome State Fault Refusal := aluShort aluShr a b c s
def execShrWide (a b : Reg) (o : Op2) (s : State) : Host.Outcome State Fault Refusal := aluWide aluShr a b o s
def execSra (a b c : Reg) (s : State) : Host.Outcome State Fault Refusal := aluShort aluSra a b c s
def execSraWide (a b : Reg) (o : Op2) (s : State) : Host.Outcome State Fault Refusal := aluWide aluSra a b o s
def execRotl (a b c : Reg) (s : State) : Host.Outcome State Fault Refusal := aluShort aluRotl a b c s
def execRotlWide (a b : Reg) (o : Op2) (s : State) : Host.Outcome State Fault Refusal := aluWide aluRotl a b o s
def execSlt (a b c : Reg) (s : State) : Host.Outcome State Fault Refusal := aluShort aluSlt a b c s
def execSltWide (a b : Reg) (o : Op2) (s : State) : Host.Outcome State Fault Refusal := aluWide aluSlt a b o s
def execSltn (a b c : Reg) (s : State) : Host.Outcome State Fault Refusal := aluShort aluSltn a b c s
def execSltnWide (a b : Reg) (o : Op2) (s : State) : Host.Outcome State Fault Refusal := aluWide aluSltn a b o s
def execSeq (a b c : Reg) (s : State) : Host.Outcome State Fault Refusal := aluShort aluSeq a b c s
def execSeqWide (a b : Reg) (o : Op2) (s : State) : Host.Outcome State Fault Refusal := aluWide aluSeq a b o s
def execSne (a b c : Reg) (s : State) : Host.Outcome State Fault Refusal := aluShort aluSne a b c s
def execSneWide (a b : Reg) (o : Op2) (s : State) : Host.Outcome State Fault Refusal := aluWide aluSne a b o s
def execMin (a b c : Reg) (s : State) : Host.Outcome State Fault Refusal := aluShort aluMin a b c s
def execMinWide (a b : Reg) (o : Op2) (s : State) : Host.Outcome State Fault Refusal := aluWide aluMin a b o s
def execMax (a b c : Reg) (s : State) : Host.Outcome State Fault Refusal := aluShort aluMax a b c s
def execMaxWide (a b : Reg) (o : Op2) (s : State) : Host.Outcome State Fault Refusal := aluWide aluMax a b o s
def execMinn (a b c : Reg) (s : State) : Host.Outcome State Fault Refusal := aluShort aluMinn a b c s
def execMinnWide (a b : Reg) (o : Op2) (s : State) : Host.Outcome State Fault Refusal := aluWide aluMinn a b o s
def execMaxn (a b c : Reg) (s : State) : Host.Outcome State Fault Refusal := aluShort aluMaxn a b c s
def execMaxnWide (a b : Reg) (o : Op2) (s : State) : Host.Outcome State Fault Refusal := aluWide aluMaxn a b o s

/-! ### Counts and byte reversal (R222) -/

def widthBits : BitWidth → Nat
  | .w64 => 64 | .w32 => 32 | .w16 => 16

/-- Leading zeros of the low `w` bits. -/
def countLeading : Nat → Nat → Nat
  | 0, _ => 0
  | w + 1, x => if bit x w then 0 else countLeading w x + 1

/-- Trailing zeros of the low `w` bits, from bit `i` up. -/
def countTrailing : Nat → Nat → Nat → Nat
  | 0, _, _ => 0
  | n + 1, i, x => if bit x i then 0 else countTrailing n (i + 1) x + 1

def countOnes : Nat → Nat → Nat
  | 0, _ => 0
  | w + 1, x => countOnes w x + boolNat (bit x w)

def resClz (w x : Nat) : Nat := countLeading w x
def resCtz (w x : Nat) : Nat := countTrailing w 0 x
def resPopc (w x : Nat) : Nat := countOnes w x
def resBswap (w x : Nat) : Nat := natOfBytes (bytesOf (w / 8) x).reverse

/-- A one-operand result on the low `w` bits of `cB`. -/
def unary (f : Nat → Nat → Nat) (len w : Nat) (a b : Reg) (s : State) : Host.Outcome State Fault Refusal :=
  fixed len (fun s => writeInt a 64 (f w ((reg64 s b).toNat % 2 ^ w)) s) s

def execClz (a b : Reg) (s : State) : Host.Outcome State Fault Refusal := unary resClz 4 64 a b s
def execClzExt (a b : Reg) (w : BitWidth) (s : State) : Host.Outcome State Fault Refusal := unary resClz 12 (widthBits w) a b s
def execCtz (a b : Reg) (s : State) : Host.Outcome State Fault Refusal := unary resCtz 4 64 a b s
def execCtzExt (a b : Reg) (w : BitWidth) (s : State) : Host.Outcome State Fault Refusal := unary resCtz 12 (widthBits w) a b s
def execPopc (a b : Reg) (s : State) : Host.Outcome State Fault Refusal := unary resPopc 4 64 a b s
def execPopcExt (a b : Reg) (w : BitWidth) (s : State) : Host.Outcome State Fault Refusal := unary resPopc 12 (widthBits w) a b s
def execBswap (a b : Reg) (s : State) : Host.Outcome State Fault Refusal := unary resBswap 4 64 a b s
def execBswapExt (a b : Reg) (w : BitWidth) (s : State) : Host.Outcome State Fault Refusal := unary resBswap 12 (widthBits w) a b s

/-! ### 128-bit arithmetic (R223) -/

def quadAdd (x y : BitVec 128) : BitVec 128 := x + y
def quadSub (x y : BitVec 128) : BitVec 128 := x - y
def quadMul (x y : BitVec 128) : BitVec 128 := x * y
def quadShl (x y : BitVec 128) : BitVec 128 := x <<< (y.toNat % 128)
def quadShr (x y : BitVec 128) : BitVec 128 := x >>> (y.toNat % 128)

/-- WriteInt(A, f(Reg(B)[127:0], y), 128). -/
def quad (f : BitVec 128 → BitVec 128 → BitVec 128) (a b : Reg) (y : BitVec 128) (s : State) : State :=
  writeInt a 128 (f (reg s b).bits y).toNat s

def quadShort (f : BitVec 128 → BitVec 128 → BitVec 128) (a b c : Reg) (s : State) :
    Host.Outcome State Fault Refusal :=
  fixed 4 (fun s => quad f a b (opReg128 s c 0) s) s

def quadWide (f : BitVec 128 → BitVec 128 → BitVec 128) (a b : Reg) (o : Op2) (s : State) :
    Host.Outcome State Fault Refusal :=
  fixed (opLength o) (fun s => quad f a b (op2Wide s o) s) s

def execQadd (a b c : Reg) (s : State) : Host.Outcome State Fault Refusal := quadShort quadAdd a b c s
def execQaddWide (a b : Reg) (o : Op2) (s : State) : Host.Outcome State Fault Refusal := quadWide quadAdd a b o s
def execQsub (a b c : Reg) (s : State) : Host.Outcome State Fault Refusal := quadShort quadSub a b c s
def execQsubWide (a b : Reg) (o : Op2) (s : State) : Host.Outcome State Fault Refusal := quadWide quadSub a b o s
def execQmul (a b c : Reg) (s : State) : Host.Outcome State Fault Refusal := quadShort quadMul a b c s
def execQmulWide (a b : Reg) (o : Op2) (s : State) : Host.Outcome State Fault Refusal := quadWide quadMul a b o s
def execQshl (a b c : Reg) (s : State) : Host.Outcome State Fault Refusal := quadShort quadShl a b c s
def execQshlWide (a b : Reg) (o : Op2) (s : State) : Host.Outcome State Fault Refusal := quadWide quadShl a b o s
def execQshr (a b c : Reg) (s : State) : Host.Outcome State Fault Refusal := quadShort quadShr a b c s
def execQshrWide (a b : Reg) (o : Op2) (s : State) : Host.Outcome State Fault Refusal := quadWide quadShr a b o s

end Sys2Proof.Machine
end

