-- ==== Sys2Proof/Machine/Ecdsa.lean ====
section
/-!
DEFINITION. The curve P-384 and ECDSA over it with SHA-384, which the spec names for signatures and key exchange (R1, R431,
R456); its text is the published standard's (PRESUMED, log 46).
-/

namespace Sys2Proof.Machine

def curvePrime : Nat := 2 ^ 384 - 2 ^ 128 - 2 ^ 96 + 2 ^ 32 - 1
def curveOrder : Nat :=
  0xFFFFFFFFFFFFFFFFFFFFFFFFFFFFFFFFFFFFFFFFFFFFFFFFC7634D81F4372DDF581A0DB248B0A77AECEC196ACCC52973

/-- The base point. -/
def curveBase : Nat × Nat :=
  (0xAA87CA22BE8B05378EB1C71EF320AD746E1D3B628BA79B9859F741E082542A385502F25DBF55296C3A545E3872760AB7,
    0x3617DE4A96262C6F5D9E98BF9292DC29F8F41DBD289A147CE9DA3113B5F0B8C00A60B1CE1D7E819D7A431D7C90EA0E5F)

/-- `a ^ e` modulo `m`, for `e` of at most as many bits as there is fuel. -/
def powMod (m : Nat) : Nat → Nat → Nat → Nat
  | 0, _, _ => 1
  | fuel + 1, a, e => (if e % 2 = 1 then a else 1) * powMod m fuel (a * a % m) (e / 2) % m

/-- The inverse modulo a prime below `2 ^ 384`. -/
def invMod (m a : Nat) : Nat := powMod m 384 (a % m) (m - 2)

def subMod (a b : Nat) : Nat := (a + curvePrime - b % curvePrime) % curvePrime

/-- The sum of two points, `none` at infinity. -/
def addPoint : Option (Nat × Nat) → Option (Nat × Nat) → Option (Nat × Nat)
  | none, q => q
  | p, none => p
  | some (x, y), some (u, v) =>
    if x = u ∧ (y + v) % curvePrime = 0 then none
    else
      let slope :=
        if x = u then subMod (3 * x * x) 3 * invMod curvePrime (2 * y) else subMod v y * invMod curvePrime (subMod u x)
      let w := subMod (subMod (slope * slope) x) u
      some (w, subMod (slope * subMod x w) y)

/-- `k` times a point, for `k` of at most as many bits as there is fuel. -/
def mulPoint : Nat → Nat → Option (Nat × Nat) → Option (Nat × Nat)
  | 0, _, _ => none
  | fuel + 1, k, p => addPoint (if k % 2 = 1 then p else none) (mulPoint fuel (k / 2) (addPoint p p))

/-- The public point of a private number. -/
def publicPoint (d : Nat) : Option (Nat × Nat) := mulPoint 384 (d % curveOrder) (some curveBase)

/-- The signature of a digest `e` with private key `d` and the number `k` drawn for it; none where the standard has another
number drawn. -/
def ecdsaSign (d e k : Nat) : Option (Nat × Nat) :=
  match publicPoint k with
  | none => none
  | some (x, _) =>
    let r := x % curveOrder
    let t := invMod curveOrder k * ((e + r * d) % curveOrder) % curveOrder
    if r = 0 ∨ t = 0 then none else some (r, t)

/-- Two numbers as 48 bytes each, in the order of the standard. -/
def curveBytes (p : Nat × Nat) : List Byte := (bytesOf 48 p.1).reverse ++ (bytesOf 48 p.2).reverse

/-- ECDSA with SHA-384 over a message; the numbers that are drawn come from `draw`, one after another. -/
def ecdsaSha384 (d : Nat) (draw : Nat → Nat) (message : List Byte) : List Byte :=
  curveBytes (((upFrom 0 4).findSome? fun i => ecdsaSign d (natOfBytes (sha384 message).reverse) (draw i)).getD (0, 0))

end Sys2Proof.Machine
end

