-- ==== Sys2Proof/Machine/Trust.lean ====
section
/-!
DEFINITION. The trust block's SPDM responder: identity, measurements, secured sessions and owner keys (R456 to R458). The
spec names the requests and the algorithms; the order of the first three requests and the bytes of a response's payload
are the model's (PRESUMED, log 46).
-/

namespace Sys2Proof.Machine

/-! ### Responses -/

def onSpdm (s : State) (f : Spdm → Spdm) : State := { s with spdm := f s.spdm }

/-- A response. -/
def answer (s : State) (bs : List Byte) : Host.Outcome State Fault Refusal :=
  .next (onSpdm s fun r => { r with response := bs, error := false, transcript := r.transcript ++ bs })

/-- An error response: it changes nothing else. -/
def errorResponse (s : State) : Host.Outcome State Fault Refusal :=
  .next (onSpdm s fun r => { r with response := [], error := true })

/-! ### The connection (R456) -/

/-- Version 1.3; what was agreed before is agreed anew. -/
def execGetVersion (s : State) : Host.Outcome State Fault Refusal :=
  answer (onSpdm s fun r => { r with version := true, capable := false, agreed := false, transcript := [] }) (bytesOf 2 0x1300)

/-- Certificates, challenge, signed measurements, encryption, authentication, key exchange, heartbeat, key update and
certificate setting; no mutual authentication, pre-shared keys or chunks. -/
def capabilityFlags : Nat := 2 ^ 1 + 2 ^ 2 + 2 ^ 4 + 2 ^ 6 + 2 ^ 7 + 2 ^ 9 + 2 ^ 13 + 2 ^ 14 + 2 ^ 19

def execGetCapabilities (s : State) : Host.Outcome State Fault Refusal :=
  if s.spdm.version then answer (onSpdm s fun r => { r with capable := true, agreed := false }) (bytesOf 4 capabilityFlags)
  else errorResponse s

/-- The algorithms of the device. -/
def deviceAlgorithms : List SpdmAlgorithm := [.ecdsaP384, .sha384, .ecdheP384, .aes256Gcm]

def algorithmCode : SpdmAlgorithm → Nat
  | .ecdsaP384 => 0 | .sha384 => 1 | .ecdheP384 => 2 | .aes256Gcm => 3 | .other => 4

/-- The four algorithms are fixed where the requester offers each of them. -/
def execNegotiateAlgorithms (offered : List SpdmAlgorithm) (s : State) : Host.Outcome State Fault Refusal :=
  if s.spdm.capable ∧ deviceAlgorithms.all offered.contains then
    answer (onSpdm s fun r => { r with agreed := true }) (deviceAlgorithms.map fun a => BitVec.ofNat 8 (algorithmCode a))
  else errorResponse s

/-! ### Identity (R456) -/

/-- The certificate chain of a slot. -/
def chainOf (s : State) (slot : Nat) : Option (List Byte) :=
  match slot with
  | 0 => some Config.deviceChain
  | 1 => s.spdm.chain1
  | _ => none

def execGetDigests (s : State) : Host.Outcome State Fault Refusal :=
  if s.spdm.agreed then answer s ([0, 1].flatMap fun i => match chainOf s i with
    | some c => sha384 c
    | none => [])
  else errorResponse s

def execGetCertificate (slot offset length : Nat) (s : State) : Host.Outcome State Fault Refusal :=
  match chainOf s slot with
  | some c => if s.spdm.agreed ∧ offset < c.length then answer s ((c.drop offset).take length) else errorResponse s
  | none => errorResponse s

/-- A signature of the device identity key over the transcript and the bytes given. -/
def signature (s : State) (bs : List Byte) : List Byte :=
  let message := s.spdm.transcript ++ bs
  ecdsaSha384 Config.identityKey (Config.signDraw message) message

def execChallenge (slot : Nat) (nonce : BitVec 256) (s : State) : Host.Outcome State Fault Refusal :=
  match chainOf s slot with
  | some c =>
    if s.spdm.agreed then
      let body := sha384 c ++ bytesOf 32 nonce.toNat
      answer s (body ++ signature s body)
    else errorResponse s
  | none => errorResponse s

/-! ### Measurements (R457) -/

/-- A digest of the model's own constants, as bytes. -/
def digestBytes (x : BitVec 384) : List Byte := bytesOf 48 x.toNat

/-- The digest of an image: of its main-core, basecamp and I/O parts. -/
def imageBytes (image part : Nat) : List Byte := digestBytes (Config.imageDigest (3 * image + part))

/-- The greatest mailbox version that two dies hold (R433). -/
def mailboxVersion (s : State) (d e : Nat) : Nat := min (lookD s.dies d {}).vmax (lookD s.dies e {}).vmax

/-- The versions of every pair of dies, in die order. -/
def mailboxBytes (s : State) : List Byte :=
  (upFrom 0 9).flatMap fun d => ((upFrom 0 9).filter (d < ·)).flatMap fun e => bytesOf 4 (mailboxVersion s d e)

/-- FSEG, FLEN and FMODE of every function, in function order. -/
def segmentBytes (s : State) : List Byte :=
  (upFrom 0 65).flatMap fun f =>
    let x := funcOf s f
    bytesOf 8 x.fseg.toNat ++ bytesOf 8 x.flen.toNat ++ bytesOf 8 x.fmode.toNat

/-- The measurement of an index. -/
def measurement (s : State) (index : Nat) : Option (List Byte) :=
  if index = 0x01 then some (digestBytes Config.fuseDigest)
  else if 0x10 ≤ index ∧ index < 0x18 then some (imageBytes (lookD s.dies (index - 0x10) {}).main 0)
  else if 0x20 ≤ index ∧ index < 0x28 then some (imageBytes (lookD s.dies (index - 0x20) {}).base 1)
  else if index = 0x30 then some (imageBytes (lookD s.dies 8 {}).main 2)
  else if index = 0x40 then some (sha384 (mailboxBytes s))
  else if index = 0x41 then some (sha384 (segmentBytes s))
  else none

def measuredIndices : List Nat := 0x01 :: upFrom 0x10 8 ++ upFrom 0x20 8 ++ [0x30, 0x40, 0x41]

/-- What a request for measurements asks: index 0 their number, and 0xFF all of them. -/
def measurements (s : State) (index : Nat) : Option (List Byte) :=
  if index = 0 then some [BitVec.ofNat 8 measuredIndices.length]
  else if index = 0xFF then some (measuredIndices.flatMap fun i => (measurement s i).getD [])
  else measurement s index

/-- A request names an index; a signed one a certificate slot and a nonce too, and its response carries the nonce and a
signature (R456, log 46). -/
def execGetMeasurements (request : Nat × Option (Nat × BitVec 256)) (s : State) : Host.Outcome State Fault Refusal :=
  match s.spdm.agreed, measurements s request.1, request.2 with
  | true, some m, none => answer s m
  | true, some m, some (slot, nonce) =>
    if (chainOf s slot).isSome then
      let body := m ++ bytesOf 32 nonce.toNat
      answer s (body ++ signature s body)
    else errorResponse s
  | _, _, _ => errorResponse s

/-! ### Sessions (R456) -/

/-- A session that FINISH has completed. -/
def secured (s : State) (session : Nat) : Bool :=
  match look s.spdm.sessions session with
  | some x => x.finished
  | none => false

/-- A key exchange opens a session. -/
def execKeyExchange (share : BitVec 768) (s : State) : Host.Outcome State Fault Refusal :=
  if s.spdm.agreed then
    let id := s.spdm.opened + 1
    let body := bytesOf 4 id ++ curveBytes ((publicPoint (Config.shareKey id)).getD (0, 0))
    answer (onSpdm s fun r => { r with sessions := put r.sessions id ⟨false, 0⟩, opened := id, share := share })
      (body ++ signature s (bytesOf 96 share.toNat ++ body))
  else errorResponse s

/-- FINISH completes the latest session, where the requester's verification data match. -/
def execFinish (verify : BitVec 384) (s : State) : Host.Outcome State Fault Refusal :=
  let id := s.spdm.opened
  match look s.spdm.sessions id with
  | some x =>
    if !x.finished ∧ verify = Config.sessionMac id s.spdm.share then
      answer (onSpdm s fun r => { r with sessions := put r.sessions id { x with finished := true } }) []
    else errorResponse s
  | none => errorResponse s

def execHeartbeat (session : Nat) (s : State) : Host.Outcome State Fault Refusal :=
  if secured s session then answer s [] else errorResponse s

/-- The keys of a session move to their next generation. -/
def execKeyUpdate (session : Nat) (s : State) : Host.Outcome State Fault Refusal :=
  match look s.spdm.sessions session with
  | some x =>
    if x.finished then
      answer (onSpdm s fun r => { r with sessions := put r.sessions session { x with generation := x.generation + 1 } }) []
    else errorResponse s
  | none => errorResponse s

def execEndSession (session : Nat) (s : State) : Host.Outcome State Fault Refusal :=
  if secured s session then answer (onSpdm s fun r => { r with sessions := drop r.sessions session }) []
  else errorResponse s

/-- Slot 1 takes an operator chain within a secured session. -/
def execSetCertificate (session slot : Nat) (chain : List (BitVec 8)) (s : State) : Host.Outcome State Fault Refusal :=
  if secured s session ∧ slot = 1 then answer (onSpdm s fun r => { r with chain1 := some chain }) [] else errorResponse s

/-! ### Owner keys (R430, R458) -/

/-- The request is accepted: a secured session, and an identifier in [1, 4095] that is no domain's KEYID. -/
def keyAccepted (s : State) (session id : Nat) : Bool :=
  secured s session && 1 ≤ id && id ≤ 4095 && !s.domains.any fun (_, d) => d.keyid.toNat == id

/-- The key of an identifier changes: what is stored stays as it is, and is read under the new key (R430). -/
def rekey (s : State) (id : Nat) (key : Option (BitVec 512)) : State := { s with memory := s.memory.changeKey id key }

def execSetkey (session identifier : Nat) (key : BitVec 512) (s : State) : Host.Outcome State Fault Refusal :=
  if keyAccepted s session identifier then answer (rekey s identifier (some key)) [] else errorResponse s

/-- The trust block draws a key pair. -/
def execGenkey (session identifier : Nat) (s : State) : Host.Outcome State Fault Refusal :=
  if keyAccepted s session identifier then answer (rekey s identifier (some (Config.ownerKey s.serial))) []
  else errorResponse s

def execDropkey (session identifier : Nat) (s : State) : Host.Outcome State Fault Refusal :=
  if keyAccepted s session identifier then answer (rekey s identifier none) [] else errorResponse s

end Sys2Proof.Machine
end

