-- ==== Sys2Proof/Machine/Dispatch.lean ====
section
/-!
DEFINITION. The dispatch of an instruction or event to its meaning: one arm for each constructor.
-/

namespace Sys2Proof.Machine

def exec (i : Instr) (s : State) : Host.Outcome State Fault Refusal :=
  match i with
  | .add a b c => Sys2Proof.Machine.execAdd a b c s
  | .addWide a b o => Sys2Proof.Machine.execAddWide a b o s
  | .sub a b c => Sys2Proof.Machine.execSub a b c s
  | .subWide a b o => Sys2Proof.Machine.execSubWide a b o s
  | .mul a b c => Sys2Proof.Machine.execMul a b c s
  | .mulWide a b o => Sys2Proof.Machine.execMulWide a b o s
  | .mulh a b c => Sys2Proof.Machine.execMulh a b c s
  | .mulhWide a b o => Sys2Proof.Machine.execMulhWide a b o s
  | .mulhn a b c => Sys2Proof.Machine.execMulhn a b c s
  | .mulhnWide a b o => Sys2Proof.Machine.execMulhnWide a b o s
  | .div a b c => Sys2Proof.Machine.execDiv a b c s
  | .divWide a b o => Sys2Proof.Machine.execDivWide a b o s
  | .divn a b c => Sys2Proof.Machine.execDivn a b c s
  | .divnWide a b o => Sys2Proof.Machine.execDivnWide a b o s
  | .rem a b c => Sys2Proof.Machine.execRem a b c s
  | .remWide a b o => Sys2Proof.Machine.execRemWide a b o s
  | .remn a b c => Sys2Proof.Machine.execRemn a b c s
  | .remnWide a b o => Sys2Proof.Machine.execRemnWide a b o s
  | .and a b c => Sys2Proof.Machine.execAnd a b c s
  | .andWide a b o => Sys2Proof.Machine.execAndWide a b o s
  | .or a b c => Sys2Proof.Machine.execOr a b c s
  | .orWide a b o => Sys2Proof.Machine.execOrWide a b o s
  | .xor a b c => Sys2Proof.Machine.execXor a b c s
  | .xorWide a b o => Sys2Proof.Machine.execXorWide a b o s
  | .shl a b c => Sys2Proof.Machine.execShl a b c s
  | .shlWide a b o => Sys2Proof.Machine.execShlWide a b o s
  | .shr a b c => Sys2Proof.Machine.execShr a b c s
  | .shrWide a b o => Sys2Proof.Machine.execShrWide a b o s
  | .sra a b c => Sys2Proof.Machine.execSra a b c s
  | .sraWide a b o => Sys2Proof.Machine.execSraWide a b o s
  | .rotl a b c => Sys2Proof.Machine.execRotl a b c s
  | .rotlWide a b o => Sys2Proof.Machine.execRotlWide a b o s
  | .slt a b c => Sys2Proof.Machine.execSlt a b c s
  | .sltWide a b o => Sys2Proof.Machine.execSltWide a b o s
  | .sltn a b c => Sys2Proof.Machine.execSltn a b c s
  | .sltnWide a b o => Sys2Proof.Machine.execSltnWide a b o s
  | .seq a b c => Sys2Proof.Machine.execSeq a b c s
  | .seqWide a b o => Sys2Proof.Machine.execSeqWide a b o s
  | .sne a b c => Sys2Proof.Machine.execSne a b c s
  | .sneWide a b o => Sys2Proof.Machine.execSneWide a b o s
  | .min a b c => Sys2Proof.Machine.execMin a b c s
  | .minWide a b o => Sys2Proof.Machine.execMinWide a b o s
  | .max a b c => Sys2Proof.Machine.execMax a b c s
  | .maxWide a b o => Sys2Proof.Machine.execMaxWide a b o s
  | .minn a b c => Sys2Proof.Machine.execMinn a b c s
  | .minnWide a b o => Sys2Proof.Machine.execMinnWide a b o s
  | .maxn a b c => Sys2Proof.Machine.execMaxn a b c s
  | .maxnWide a b o => Sys2Proof.Machine.execMaxnWide a b o s
  | .clz a b => Sys2Proof.Machine.execClz a b s
  | .clzExt a b w => Sys2Proof.Machine.execClzExt a b w s
  | .ctz a b => Sys2Proof.Machine.execCtz a b s
  | .ctzExt a b w => Sys2Proof.Machine.execCtzExt a b w s
  | .popc a b => Sys2Proof.Machine.execPopc a b s
  | .popcExt a b w => Sys2Proof.Machine.execPopcExt a b w s
  | .bswap a b => Sys2Proof.Machine.execBswap a b s
  | .bswapExt a b w => Sys2Proof.Machine.execBswapExt a b w s
  | .qadd a b c => Sys2Proof.Machine.execQadd a b c s
  | .qaddWide a b o => Sys2Proof.Machine.execQaddWide a b o s
  | .qsub a b c => Sys2Proof.Machine.execQsub a b c s
  | .qsubWide a b o => Sys2Proof.Machine.execQsubWide a b o s
  | .qmul a b c => Sys2Proof.Machine.execQmul a b c s
  | .qmulWide a b o => Sys2Proof.Machine.execQmulWide a b o s
  | .qshl a b c => Sys2Proof.Machine.execQshl a b c s
  | .qshlWide a b o => Sys2Proof.Machine.execQshlWide a b o s
  | .qshr a b c => Sys2Proof.Machine.execQshr a b c s
  | .qshrWide a b o => Sys2Proof.Machine.execQshrWide a b o s
  | .kmov a b => Sys2Proof.Machine.execKmov a b s
  | .kmovExt a b => Sys2Proof.Machine.execKmovExt a b s
  | .kstep a b c => Sys2Proof.Machine.execKstep a b c s
  | .kstepExt a b c imm => Sys2Proof.Machine.execKstepExt a b c imm s
  | .kplace a b c => Sys2Proof.Machine.execKplace a b c s
  | .kplaceExt a b c imm => Sys2Proof.Machine.execKplaceExt a b c imm s
  | .kfit a b c => Sys2Proof.Machine.execKfit a b c s
  | .kfitExt a b c imm => Sys2Proof.Machine.execKfitExt a b c imm s
  | .kcut a b c => Sys2Proof.Machine.execKcut a b c s
  | .kcutExt a b c imm => Sys2Proof.Machine.execKcutExt a b c imm s
  | .kmask a b c => Sys2Proof.Machine.execKmask a b c s
  | .kmaskExt a b c imm => Sys2Proof.Machine.execKmaskExt a b c imm s
  | .klock a b => Sys2Proof.Machine.execKlock a b s
  | .klockExt a b => Sys2Proof.Machine.execKlockExt a b s
  | .kopen a b c => Sys2Proof.Machine.execKopen a b c s
  | .kopenExt a b c => Sys2Proof.Machine.execKopenExt a b c s
  | .kcur a b => Sys2Proof.Machine.execKcur a b s
  | .kbase a b => Sys2Proof.Machine.execKbase a b s
  | .ktop a b => Sys2Proof.Machine.execKtop a b s
  | .klen a b => Sys2Proof.Machine.execKlen a b s
  | .kperm a b => Sys2Proof.Machine.execKperm a b s
  | .ktag a b => Sys2Proof.Machine.execKtag a b s
  | .kinside a b c => Sys2Proof.Machine.execKinside a b c s
  | .kplain a b => Sys2Proof.Machine.execKplain a b s
  | .j off => Sys2Proof.Machine.execJ off s
  | .jExt off => Sys2Proof.Machine.execJExt off s
  | .jal a off => Sys2Proof.Machine.execJal a off s
  | .jalExt a off => Sys2Proof.Machine.execJalExt a off s
  | .jr b => Sys2Proof.Machine.execJr b s
  | .jalr a b => Sys2Proof.Machine.execJalr a b s
  | .ret b => Sys2Proof.Machine.execRet b s
  | .beq a b off => Sys2Proof.Machine.execBeq a b off s
  | .beqExt a b off => Sys2Proof.Machine.execBeqExt a b off s
  | .bne a b off => Sys2Proof.Machine.execBne a b off s
  | .bneExt a b off => Sys2Proof.Machine.execBneExt a b off s
  | .blt a b off => Sys2Proof.Machine.execBlt a b off s
  | .bltExt a b off => Sys2Proof.Machine.execBltExt a b off s
  | .bge a b off => Sys2Proof.Machine.execBge a b off s
  | .bgeExt a b off => Sys2Proof.Machine.execBgeExt a b off s
  | .bltn a b off => Sys2Proof.Machine.execBltn a b off s
  | .bltnExt a b off => Sys2Proof.Machine.execBltnExt a b off s
  | .bgen a b off => Sys2Proof.Machine.execBgen a b off s
  | .bgenExt a b off => Sys2Proof.Machine.execBgenExt a b off s
  | .bm m cond off => Sys2Proof.Machine.execBm m cond off s
  | .kenter a b => Sys2Proof.Machine.execKenter a b s
  | .ctxSave d a b c evict => Sys2Proof.Machine.execCtxSave d a b c evict s
  | .ctxRest d a b c => Sys2Proof.Machine.execCtxRest d a b c s
  | .eret b => Sys2Proof.Machine.execEret b s
  | .start a b c pin => Sys2Proof.Machine.execStart a b c pin s
  | .join a b => Sys2Proof.Machine.execJoin a b s
  | .halt a => Sys2Proof.Machine.execHalt a s
  | .spawn a b c d imm => Sys2Proof.Machine.execSpawn a b c d imm s
  | .yield => Sys2Proof.Machine.execYield s
  | .bar sc => Sys2Proof.Machine.execBar sc s
  | .semSig sem => Sys2Proof.Machine.execSemSig sem s
  | .semWait sem => Sys2Proof.Machine.execSemWait sem s
  | .fwdPut a quad => Sys2Proof.Machine.execFwdPut a quad s
  | .fwdGet a => Sys2Proof.Machine.execFwdGet a s
  | .trap n => Sys2Proof.Machine.execTrap n s
  | .trapExt n => Sys2Proof.Machine.execTrapExt n s
  | .srd a sr => Sys2Proof.Machine.execSrd a sr s
  | .swr sr b => Sys2Proof.Machine.execSwr sr b s
  | .ifence => Sys2Proof.Machine.execIfence s
  | .hret b => Sys2Proof.Machine.execHret b s
  | .vadd a b c fmt => Sys2Proof.Machine.execVadd a b c fmt s
  | .vaddExt a b c sat x => Sys2Proof.Machine.execVaddExt a b c sat x s
  | .vsub a b c fmt => Sys2Proof.Machine.execVsub a b c fmt s
  | .vsubExt a b c sat x => Sys2Proof.Machine.execVsubExt a b c sat x s
  | .vmul a b c fmt => Sys2Proof.Machine.execVmul a b c fmt s
  | .vmulExt a b c sat x => Sys2Proof.Machine.execVmulExt a b c sat x s
  | .vfma a b c fmt => Sys2Proof.Machine.execVfma a b c fmt s
  | .vfmaExt a b c x => Sys2Proof.Machine.execVfmaExt a b c x s
  | .vmin a b c fmt => Sys2Proof.Machine.execVmin a b c fmt s
  | .vminExt a b c x => Sys2Proof.Machine.execVminExt a b c x s
  | .vmax a b c fmt => Sys2Proof.Machine.execVmax a b c fmt s
  | .vmaxExt a b c x => Sys2Proof.Machine.execVmaxExt a b c x s
  | .vabs a b fmt => Sys2Proof.Machine.execVabs a b fmt s
  | .vabsExt a b sat x => Sys2Proof.Machine.execVabsExt a b sat x s
  | .vneg a b fmt => Sys2Proof.Machine.execVneg a b fmt s
  | .vnegExt a b sat x => Sys2Proof.Machine.execVnegExt a b sat x s
  | .vdiv a b c fmt => Sys2Proof.Machine.execVdiv a b c fmt s
  | .vdivExt a b c x => Sys2Proof.Machine.execVdivExt a b c x s
  | .vsqrt a b fmt => Sys2Proof.Machine.execVsqrt a b fmt s
  | .vsqrtExt a b x => Sys2Proof.Machine.execVsqrtExt a b x s
  | .vrsqrt a b fmt => Sys2Proof.Machine.execVrsqrt a b fmt s
  | .vrsqrtExt a b x => Sys2Proof.Machine.execVrsqrtExt a b x s
  | .vexp a b fmt => Sys2Proof.Machine.execVexp a b fmt s
  | .vexpExt a b x => Sys2Proof.Machine.execVexpExt a b x s
  | .vlog a b fmt => Sys2Proof.Machine.execVlog a b fmt s
  | .vlogExt a b x => Sys2Proof.Machine.execVlogExt a b x s
  | .vsig a b fmt => Sys2Proof.Machine.execVsig a b fmt s
  | .vsigExt a b x => Sys2Proof.Machine.execVsigExt a b x s
  | .vtanh a b fmt => Sys2Proof.Machine.execVtanh a b fmt s
  | .vtanhExt a b x => Sys2Proof.Machine.execVtanhExt a b x s
  | .vaddc a b => Sys2Proof.Machine.execVaddc a b s
  | .vaddcExt a b x => Sys2Proof.Machine.execVaddcExt a b x s
  | .vand a b c fmt => Sys2Proof.Machine.execVand a b c fmt s
  | .vandExt a b c x => Sys2Proof.Machine.execVandExt a b c x s
  | .vor a b c fmt => Sys2Proof.Machine.execVor a b c fmt s
  | .vorExt a b c x => Sys2Proof.Machine.execVorExt a b c x s
  | .vxor a b c fmt => Sys2Proof.Machine.execVxor a b c fmt s
  | .vxorExt a b c x => Sys2Proof.Machine.execVxorExt a b c x s
  | .vshl a b c fmt => Sys2Proof.Machine.execVshl a b c fmt s
  | .vshlExt a b c x => Sys2Proof.Machine.execVshlExt a b c x s
  | .vshr a b c fmt => Sys2Proof.Machine.execVshr a b c fmt s
  | .vshrExt a b c x => Sys2Proof.Machine.execVshrExt a b c x s
  | .vsra a b c fmt => Sys2Proof.Machine.execVsra a b c fmt s
  | .vsraExt a b c x => Sys2Proof.Machine.execVsraExt a b c x s
  | .vsel a b c fmt => Sys2Proof.Machine.execVsel a b c fmt s
  | .vselExt a b c x => Sys2Proof.Machine.execVselExt a b c x s
  | .vmov a b fmt => Sys2Proof.Machine.execVmov a b fmt s
  | .vmovExt a b x => Sys2Proof.Machine.execVmovExt a b x s
  | .vdot a b c fmt => Sys2Proof.Machine.execVdot a b c fmt s
  | .vdotExt a b c x => Sys2Proof.Machine.execVdotExt a b c x s
  | .vcvt a b part src x => Sys2Proof.Machine.execVcvt a b part src x s
  | .vpack a d b kind part x => Sys2Proof.Machine.execVpack a d b kind part x s
  | .vunpk a d b kind part x => Sys2Proof.Machine.execVunpk a d b kind part x s
  | .vcmp a b c cond x => Sys2Proof.Machine.execVcmp a b c cond x s
  | .mskl a b c op => Sys2Proof.Machine.execMskl a b c op s
  | .mskp a b op => Sys2Proof.Machine.execMskp a b op s
  | .msks a lit => Sys2Proof.Machine.execMsks a lit s
  | .msksExt a lit op => Sys2Proof.Machine.execMsksExt a lit op s
  | .vred a b op x => Sys2Proof.Machine.execVred a b op x s
  | .vscan a b c d op x => Sys2Proof.Machine.execVscan a b c d op x s
  | .vbcast a b c fmt => Sys2Proof.Machine.execVbcast a b c fmt s
  | .vbcastExt a b c imm x => Sys2Proof.Machine.execVbcastExt a b c imm x s
  | .vperm a b c fmt => Sys2Proof.Machine.execVperm a b c fmt s
  | .vpermExt a b c x => Sys2Proof.Machine.execVpermExt a b c x s
  | .vsort a b fmt => Sys2Proof.Machine.execVsort a b fmt s
  | .vsortExt a b desc x => Sys2Proof.Machine.execVsortExt a b desc x s
  | .vmerge a b c fmt => Sys2Proof.Machine.execVmerge a b c fmt s
  | .vmergeExt a b c d desc x => Sys2Proof.Machine.execVmergeExt a b c d desc x s
  | .vidx a b fmt => Sys2Proof.Machine.execVidx a b fmt s
  | .vidxExt a b imm x => Sys2Proof.Machine.execVidxExt a b imm x s
  | .vsplat a c fmt => Sys2Proof.Machine.execVsplat a c fmt s
  | .vsplatWide a w => Sys2Proof.Machine.execVsplatWide a w s
  | .vrand a fmt => Sys2Proof.Machine.execVrand a fmt s
  | .vrandExt a x => Sys2Proof.Machine.execVrandExt a x s
  | .vkeep a b c fmt => Sys2Proof.Machine.execVkeep a b c fmt s
  | .vkeepExt a b c x => Sys2Proof.Machine.execVkeepExt a b c x s
  | .vphx a b c fmt => Sys2Proof.Machine.execVphx a b c fmt s
  | .vphxExt a b c word imm x => Sys2Proof.Machine.execVphxExt a b c word imm x s
  | .vrope a b c => Sys2Proof.Machine.execVrope a b c s
  | .vropeExt a b c d half x => Sys2Proof.Machine.execVropeExt a b c d half x s
  | .vins a b c fmt => Sys2Proof.Machine.execVins a b c fmt s
  | .vinsExt a b c imm x => Sys2Proof.Machine.execVinsExt a b c imm x s
  | .vext a b c fmt => Sys2Proof.Machine.execVext a b c fmt s
  | .vextExt a b c imm x => Sys2Proof.Machine.execVextExt a b c imm x s
  | .madd a b c => Sys2Proof.Machine.execMadd a b c s
  | .maddExt a b c d x => Sys2Proof.Machine.execMaddExt a b c d x s
  | .msub a b c => Sys2Proof.Machine.execMsub a b c s
  | .msubExt a b c d x => Sys2Proof.Machine.execMsubExt a b c d x s
  | .mmul a b c => Sys2Proof.Machine.execMmul a b c s
  | .mmulExt a b c x => Sys2Proof.Machine.execMmulExt a b c x s
  | .mscl a b c => Sys2Proof.Machine.execMscl a b c s
  | .msclExt a b c x => Sys2Proof.Machine.execMsclExt a b c x s
  | .mexp a b => Sys2Proof.Machine.execMexp a b s
  | .mexpExt a b x => Sys2Proof.Machine.execMexpExt a b x s
  | .mrelu a b => Sys2Proof.Machine.execMrelu a b s
  | .mreluExt a b x => Sys2Proof.Machine.execMreluExt a b x s
  | .msig a b => Sys2Proof.Machine.execMsig a b s
  | .msigExt a b x => Sys2Proof.Machine.execMsigExt a b x s
  | .mcoll a b c form half x => Sys2Proof.Machine.execMcoll a b c form half x s
  | .mfrom a b c => Sys2Proof.Machine.execMfrom a b c s
  | .mfromExt a b c x => Sys2Proof.Machine.execMfromExt a b c x s
  | .mmov a b => Sys2Proof.Machine.execMmov a b s
  | .mmovExt a b x => Sys2Proof.Machine.execMmovExt a b x s
  | .ld a b kind off => Sys2Proof.Machine.execLd a b kind off s
  | .ldExt a b kind x => Sys2Proof.Machine.execLdExt a b kind x s
  | .st a b kind off => Sys2Proof.Machine.execSt a b kind off s
  | .stExt a b kind x => Sys2Proof.Machine.execStExt a b kind x s
  | .cld a b off => Sys2Proof.Machine.execCld a b off s
  | .cldExt a b x => Sys2Proof.Machine.execCldExt a b x s
  | .cst a b off => Sys2Proof.Machine.execCst a b off s
  | .cstExt a b x => Sys2Proof.Machine.execCstExt a b x s
  | .vld a b off => Sys2Proof.Machine.execVld a b off s
  | .vldExt a b m x => Sys2Proof.Machine.execVldExt a b m x s
  | .vst a b off => Sys2Proof.Machine.execVst a b off s
  | .vstExt a b m x => Sys2Proof.Machine.execVstExt a b m x s
  | .vgath a b m x => Sys2Proof.Machine.execVgath a b m x s
  | .vscat a b m x => Sys2Proof.Machine.execVscat a b m x s
  | .eld a b off => Sys2Proof.Machine.execEld a b off s
  | .eldExt a b m x => Sys2Proof.Machine.execEldExt a b m x s
  | .est a b off => Sys2Proof.Machine.execEst a b off s
  | .estExt a b m x => Sys2Proof.Machine.execEstExt a b m x s
  | .amo a b d op narrow x => Sys2Proof.Machine.execAmo a b d op narrow x s
  | .cas a b d narrow x => Sys2Proof.Machine.execCas a b d narrow x s
  | .ccas a b d x => Sys2Proof.Machine.execCcas a b d x s
  | .fence sc => Sys2Proof.Machine.execFence sc s
  | .stashMap w b off len => Sys2Proof.Machine.execStashMap w b off len s
  | .stashUnmap w => Sys2Proof.Machine.execStashUnmap w s
  | .stashUnmapExt => Sys2Proof.Machine.execStashUnmapExt s
  | .stashWb w => Sys2Proof.Machine.execStashWb w s
  | .stashWbExt => Sys2Proof.Machine.execStashWbExt s
  | .stashAp a b c => Sys2Proof.Machine.execStashAp a b c s
  | .copy a b c ch land => Sys2Proof.Machine.execCopy a b c ch land s
  | .copyWait ch => Sys2Proof.Machine.execCopyWait ch s
  | .copyWaitExt d ch b imm => Sys2Proof.Machine.execCopyWaitExt d ch b imm s
  | .valloc a d c imm => Sys2Proof.Machine.execValloc a d c imm s
  | .vdup a b => Sys2Proof.Machine.execVdup a b s
  | .vdupExt a b => Sys2Proof.Machine.execVdupExt a b s
  | .vsplit a b c => Sys2Proof.Machine.execVsplit a b c s
  | .vsplitExt a b c imm => Sys2Proof.Machine.execVsplitExt a b c imm s
  | .vnarrow a b c => Sys2Proof.Machine.execVnarrow a b c s
  | .vnarrowExt a b c imm => Sys2Proof.Machine.execVnarrowExt a b c imm s
  | .vdrop b => Sys2Proof.Machine.execVdrop b s
  | .vdropExt b => Sys2Proof.Machine.execVdropExt b s
  | .vpark k b => Sys2Proof.Machine.execVpark k b s
  | .vparkExt k b => Sys2Proof.Machine.execVparkExt k b s
  | .vtake a k => Sys2Proof.Machine.execVtake a k s
  | .vtakeExt a k => Sys2Proof.Machine.execVtakeExt a k s
  | .pmLook a b => Sys2Proof.Machine.execPmLook a b s
  | .pmFill b c e => Sys2Proof.Machine.execPmFill b c e s
  | .kvApp a b c d e n => Sys2Proof.Machine.execKvApp a b c d e n s
  | .cairnLook a b c d => Sys2Proof.Machine.execCairnLook a b c d s
  | .cairnIns a b c d => Sys2Proof.Machine.execCairnIns a b c d s
  | .cairnRel a c d => Sys2Proof.Machine.execCairnRel a c d s
  | .admRsv a b c d => Sys2Proof.Machine.execAdmRsv a b c d s
  | .admEnd a b => Sys2Proof.Machine.execAdmEnd a b s
  | .msgSend a b c d ord => Sys2Proof.Machine.execMsgSend a b c d ord s
  | .mig a b => Sys2Proof.Machine.execMig a b s
  | .migRet a => Sys2Proof.Machine.execMigRet a s
  | .mxLdw n b c => Sys2Proof.Machine.execMxLdw n b c s
  | .mxSwap => Sys2Proof.Machine.execMxSwap s
  | .mxSwapExt n ch waits => Sys2Proof.Machine.execMxSwapExt n ch waits s
  | .mxStr a b c n z mo blk => Sys2Proof.Machine.execMxStr a b c n z mo blk s
  | .mxGstr a b n m p z blk => Sys2Proof.Machine.execMxGstr a b n m p z blk s
  | .accRd a b c mo => Sys2Proof.Machine.execAccRd a b c mo s
  | .accWr a b c mo => Sys2Proof.Machine.execAccWr a b c mo s
  | .accClr a => Sys2Proof.Machine.execAccClr a s
  | .accClrExt a mask => Sys2Proof.Machine.execAccClrExt a mask s
  | .epLoad a b => Sys2Proof.Machine.execEpLoad a b s
  | .epRun a b c d n mo rnd => Sys2Proof.Machine.execEpRun a b c d n mo rnd s
  | .epWait a => Sys2Proof.Machine.execEpWait a s
  | .smpPen a b c d n => Sys2Proof.Machine.execSmpPen a b c d n s
  | .smpTemp a c n => Sys2Proof.Machine.execSmpTemp a c n s
  | .smpGum a b d n => Sys2Proof.Machine.execSmpGum a b d n s
  | .smpTop a d n sc => Sys2Proof.Machine.execSmpTop a d n sc s
  | .smpTopp a b c d n sc => Sys2Proof.Machine.execSmpTopp a b c d n sc s
  | .smpStep a b c => Sys2Proof.Machine.execSmpStep a b c s
  | .smpDraft a b c => Sys2Proof.Machine.execSmpDraft a b c s
  | .smpVer a b c => Sys2Proof.Machine.execSmpVer a b c s
  | .sumRed a b op fmt sc => Sys2Proof.Machine.execSumRed a b op fmt sc s
  | .sumBc a b sc => Sys2Proof.Machine.execSumBc a b sc s
  | .tokMap a b k => Sys2Proof.Machine.execTokMap a b k s
  | .tokBind a b c => Sys2Proof.Machine.execTokBind a b c s
  | .fetchServe unit => Sys2Proof.Machine.execFetchServe unit s
  | .operationComplete core slot => Sys2Proof.Machine.execOperationComplete core slot s
  | .barrierComplete team scope extent remote => Sys2Proof.Machine.execBarrierComplete team scope extent remote s
  | .fwdHoldComplete core slot => Sys2Proof.Machine.execFwdHoldComplete core slot s
  | .launchAdmit queue entry place => Sys2Proof.Machine.execLaunchAdmit queue entry place s
  | .teamComplete team => Sys2Proof.Machine.execTeamComplete team s
  | .grantRound core => Sys2Proof.Machine.execGrantRound core s
  | .weightRestore island cls weight => Sys2Proof.Machine.execWeightRestore island cls weight s
  | .sliceBoundary leave enter => Sys2Proof.Machine.execSliceBoundary leave enter s
  | .contextPreempt core slot => Sys2Proof.Machine.execContextPreempt core slot s
  | .spawnArrival core => Sys2Proof.Machine.execSpawnArrival core s
  | .trapNoticeRun core => Sys2Proof.Machine.execTrapNoticeRun core s
  | .completionNotice core slot => Sys2Proof.Machine.execCompletionNotice core slot s
  | .messageRun core => Sys2Proof.Machine.execMessageRun core s
  | .copyDelivery core ch => Sys2Proof.Machine.execCopyDelivery core ch s
  | .moraineFree domain granule => Sys2Proof.Machine.execMoraineFree domain granule s
  | .scrub item => Sys2Proof.Machine.execScrub item s
  | .coveredAllocation core slot => Sys2Proof.Machine.execCoveredAllocation core slot s
  | .epilogueRow core => Sys2Proof.Machine.execEpilogueRow core s
  | .doorbell func queue count => Sys2Proof.Machine.execDoorbell func queue count s
  | .intakeEntry queue => Sys2Proof.Machine.execIntakeEntry queue s
  | .stampRetry queue => Sys2Proof.Machine.execStampRetry queue s
  | .intakeSlotAssign core => Sys2Proof.Machine.execIntakeSlotAssign core s
  | .placementExchange first second => Sys2Proof.Machine.execPlacementExchange first second s
  | .nop queue entry => Sys2Proof.Machine.execNop queue entry s
  | .launch queue entry => Sys2Proof.Machine.execLaunch queue entry s
  | .wait queue entry => Sys2Proof.Machine.execWait queue entry s
  | .waitSatisfied queue entry => Sys2Proof.Machine.execWaitSatisfied queue entry s
  | .signal queue entry => Sys2Proof.Machine.execSignal queue entry s
  | .queueFence queue entry => Sys2Proof.Machine.execQueueFence queue entry s
  | .bind queue entry => Sys2Proof.Machine.execBind queue entry s
  | .swap queue entry => Sys2Proof.Machine.execSwap queue entry s
  | .unbind queue entry => Sys2Proof.Machine.execUnbind queue entry s
  | .bias queue entry => Sys2Proof.Machine.execBias queue entry s
  | .sample queue entry => Sys2Proof.Machine.execSample queue entry s
  | .domcfg queue entry => Sys2Proof.Machine.execDomcfg queue entry s
  | .qcfgWrite queue value => Sys2Proof.Machine.execQcfgWrite queue value s
  | .registerWrite func offset value => Sys2Proof.Machine.execRegisterWrite func offset value s
  | .eventWrite func => Sys2Proof.Machine.execEventWrite func s
  | .eventReply func reply => Sys2Proof.Machine.execEventReply func reply s
  | .intakeWindowWrite func queue entry => Sys2Proof.Machine.execIntakeWindowWrite func queue entry s
  | .segmentWindowAccess func offset size data => Sys2Proof.Machine.execSegmentWindowAccess func offset size data s
  | .hostMemAccess address size data => Sys2Proof.Machine.execHostMemAccess address size data s
  | .shootdownTranslation fromHost page count => Sys2Proof.Machine.execShootdownTranslation fromHost page count s
  | .shootdownRights fromHost domain => Sys2Proof.Machine.execShootdownRights fromHost domain s
  | .shootdownComplete => Sys2Proof.Machine.execShootdownComplete s
  | .pageMove request => Sys2Proof.Machine.execPageMove request s
  | .pageIn ticket => Sys2Proof.Machine.execPageIn ticket s
  | .keyCreate handle => Sys2Proof.Machine.execKeyCreate handle s
  | .keyDestroy handle => Sys2Proof.Machine.execKeyDestroy handle s
  | .keyQuery handle => Sys2Proof.Machine.execKeyQuery handle s
  | .packageReset verified => Sys2Proof.Machine.execPackageReset verified s
  | .firmwareUpdate length versions dies => Sys2Proof.Machine.execFirmwareUpdate length versions dies s
  | .firmwareDieUpdate verified => Sys2Proof.Machine.execFirmwareDieUpdate verified s
  | .preset value => Sys2Proof.Machine.execPreset value s
  | .launchTimeLimit team => Sys2Proof.Machine.execLaunchTimeLimit team s
  | .functionLevelReset func => Sys2Proof.Machine.execFunctionLevelReset func s
  | .meridianInterval power temperature => Sys2Proof.Machine.execMeridianInterval power temperature s
  | .hbmPatrol corrected uncorrected => Sys2Proof.Machine.execHbmPatrol corrected uncorrected s
  | .linkCrcError retrain => Sys2Proof.Machine.execLinkCrcError retrain s
  | .getVersion => Sys2Proof.Machine.execGetVersion s
  | .getCapabilities => Sys2Proof.Machine.execGetCapabilities s
  | .negotiateAlgorithms offered => Sys2Proof.Machine.execNegotiateAlgorithms offered s
  | .getDigests => Sys2Proof.Machine.execGetDigests s
  | .getCertificate slot offset length => Sys2Proof.Machine.execGetCertificate slot offset length s
  | .challenge slot nonce => Sys2Proof.Machine.execChallenge slot nonce s
  | .getMeasurements request => Sys2Proof.Machine.execGetMeasurements request s
  | .keyExchange share => Sys2Proof.Machine.execKeyExchange share s
  | .finish verify => Sys2Proof.Machine.execFinish verify s
  | .heartbeat session => Sys2Proof.Machine.execHeartbeat session s
  | .keyUpdate session => Sys2Proof.Machine.execKeyUpdate session s
  | .endSession session => Sys2Proof.Machine.execEndSession session s
  | .setCertificate session slot chain => Sys2Proof.Machine.execSetCertificate session slot chain s
  | .setkey session identifier key => Sys2Proof.Machine.execSetkey session identifier key s
  | .genkey session identifier => Sys2Proof.Machine.execGenkey session identifier s
  | .dropkey session identifier => Sys2Proof.Machine.execDropkey session identifier s
  | .hostVisibility index => Sys2Proof.Machine.execHostVisibility index s

end Sys2Proof.Machine
end

