-- ==== Sys2Proof/Machine/Step.lean ====
section
/-!
DEFINITION. One step of the machine: the agent whose turn it is moves, and the next turn is a free choice (log 1). And
a state whose next step fetches a given instruction.
-/

namespace Sys2Proof.Machine

/-- After a step: the core in turn has spent a cycle, which has had its grant round, the resets that have begun go on (R450), and
the next agent is chosen. -/
def passTurn (before after : State) : State :=
  let t := settleResets (match before.turn with
    | .issue c => onCore after c fun k => { k with cycle := k.cycle + 1, rounded := false }
    | .event _ => after)
  { t with turn := Config.nextTurn before.serial, serial := before.serial + 1 }

/-- The outcome of a step, with the turn passed on. -/
def afterStep (before : State) : Host.Outcome State Fault Refusal → Host.Outcome State Fault Refusal
  | .next t => .next (passTurn before t)
  | .fault f => .fault f
  | .refused r => .refused r

/-- A slot that has been selected issues: it takes the route fault that it owes (R44), or it fetches and runs an instruction. -/
noncomputable def issueFrom (c slot : Nat) (s : State) : Host.Outcome State Fault Refusal :=
  match takeOwed s ⟨c, slot⟩ with
  | some t => .next t
  | none =>
    match fetchInstr (issueSlot s c slot) with
    | .inl (i, t) => exec i t
    | .inr o => o

/-- One cycle of a core's issue selector, after the grant round of the cycle (R35, R41). -/
noncomputable def issue (c : Nat) (s : State) : Host.Outcome State Fault Refusal :=
  let t := pendingRound c s
  match select (coreOf t c) with
  | none => .next t
  | some slot => issueFrom c slot t

/-- One step. An instruction that is no event does not stand as a turn of its own. -/
noncomputable def step (s : State) : Host.Outcome State Fault Refusal :=
  afterStep s (match s.turn with
    | .issue c => issue c s
    | .event e => if e.isEvent then exec e s else .next s)

/-! ### A state that fetches a given instruction next -/

/-- The virtual address, and the device physical address, of the instruction. -/
def placedVA : Nat := 0x10000
def placedPA : Nat := 0x100000

/-- The team that the instruction runs in. -/
def placedTeam : Team :=
  { uid := 1, ident := 0, func := 0, domain := 0, queue := 0, entry := 0, tag := 0, flags := 0, cores := [0], quota := 1
    nv := 64, ne := 16, vb := 68, sb := 100, cb := 480, text := placedVA, textlen := 0x1000, gen := 0, entryOff := 0
    upcall := none, refill := none, route := 0, seed := 0, podset := [], binding := none, descs := [], descTags := []
    resident := true, ended := none, saved := [], images := [], away := [], places := [], keys := [], admitted := 0, draws := 0
    intervals := 0, slice := 2000, entered := 0, ran := false, sequence := 0 }

/-- Its leader in slot 0 of core 0, whose next instruction has been delivered. -/
def placedLeader : Context :=
  { newContext placedTeam .leader 4097 (teamCode placedTeam 0) [] 0 1 ⟨0, 0⟩ 0 with fetched := true }

/-- The main core that holds it. -/
def placedCore : Core :=
  { Core.atReset 0 with
    slots := [(0, placedLeader), (11, Context.systemAtReset 0)], team := some 1, vb := 68, sb := 100, cb := 480
    births := [(0, 1)] }

/-- The page table, the grant table and the instruction, as (device physical address, bytes). -/
def placedMemory (bytes : List Byte) : List (Nat × List Byte) :=
  let table (pa : Nat) : List Byte := bytesOf 16 (1 + pa * 2 ^ 64)
  [(0x0, table 0x80000), (0x80000, table 0xA0000), (0xA0000, table 0xC0000), (0xC0000, table 0xC2000),
    (0xC2000, table 0xC4000), (0xC4010, bytesOf 16 (0x33 + placedPA * 2 ^ 64)),
    (0xC6000, bytesOf 32 (1 + 2 ^ 64 + 5 * 2 ^ 128)), (placedPA, bytes)]

/-- `s` with an instruction where the next step fetches: a launch has placed a leader whose code it is (log 5). -/
def State.withFetchWord (s : State) (nbits w : Nat) : State :=
  let m := placedMemory (bytesOfNat 20 (w % 2 ^ nbits))
  let s := m.foldl (fun s e => physWriteAll s 0 e.1 e.2) { s with poison := [] }
  { s with
    turn := .issue 0, cores := [(0, placedCore)], teams := [placedTeam], translations := [], ptroot := 0
    domains := [(0, { gbase := 0xC6000, gcnt := 1 })], funcs := [], names := max s.names 4097 }

end Sys2Proof.Machine
end

