-- ==== Sys2Proof/Certificates/Slice0/Obligations.lean ====
section
/-!
DEFINITION. The statements for the provers, from the numbered rules of the spec.
-/

namespace Sys2Proof.Claims
end Sys2Proof.Claims

open Sys2Proof Sys2Proof.Machine Sys2Proof.Claims

/-! ### Integer arithmetic -/

namespace Sys2Proof.Claims

/-- A two-operand integer instruction: its class 0b00 form, its other forms, and its result. -/
structure AluRow where
  short : Reg → Reg → Reg → Instr
  wide : Reg → Reg → Op2 → Instr
  result : BitVec 64 → BitVec 64 → BitVec 64

/-- The table of R221, each result written from the rule's own words. -/
def aluRows : List AluRow :=
  [⟨.add, .addWide, fun x y => x + y⟩, ⟨.sub, .subWide, fun x y => x - y⟩,
    ⟨.mul, .mulWide, fun x y => BitVec.ofNat 64 (x.toNat * y.toNat)⟩,
    ⟨.mulh, .mulhWide, fun x y => (x.signExtend 128 * y.signExtend 128).extractLsb' 64 64⟩,
    ⟨.mulhn, .mulhnWide, fun x y => (x.zeroExtend 128 * y.zeroExtend 128).extractLsb' 64 64⟩,
    ⟨.div, .divWide, fun x y => if y = 0 then BitVec.ofInt 64 (-1) else x.sdiv y⟩,
    ⟨.divn, .divnWide, fun x y => if y = 0 then BitVec.ofNat 64 (2 ^ 64 - 1) else x.udiv y⟩,
    ⟨.rem, .remWide, fun x y => if y = 0 then x else x - y * x.sdiv y⟩,
    ⟨.remn, .remnWide, fun x y => if y = 0 then x else x - y * x.udiv y⟩,
    ⟨.and, .andWide, fun x y => x &&& y⟩, ⟨.or, .orWide, fun x y => x ||| y⟩, ⟨.xor, .xorWide, fun x y => x ^^^ y⟩,
    ⟨.shl, .shlWide, fun x y => BitVec.ofNat 64 (x.toNat * 2 ^ (y.toNat % 64))⟩,
    ⟨.shr, .shrWide, fun x y => BitVec.ofNat 64 (x.toNat / 2 ^ (y.toNat % 64))⟩,
    ⟨.sra, .sraWide, fun x y => BitVec.ofInt 64 (x.toInt / 2 ^ (y.toNat % 64))⟩,
    ⟨.rotl, .rotlWide, fun x y => x <<< (y.toNat % 64) ||| x >>> (64 - y.toNat % 64)⟩,
    ⟨.slt, .sltWide, fun x y => if x.toInt < y.toInt then 1 else 0⟩,
    ⟨.sltn, .sltnWide, fun x y => if x.toNat < y.toNat then 1 else 0⟩,
    ⟨.seq, .seqWide, fun x y => if x = y then 1 else 0⟩, ⟨.sne, .sneWide, fun x y => if x = y then 0 else 1⟩,
    ⟨.min, .minWide, fun x y => BitVec.ofInt 64 (min x.toInt y.toInt)⟩,
    ⟨.max, .maxWide, fun x y => BitVec.ofInt 64 (max x.toInt y.toInt)⟩,
    ⟨.minn, .minnWide, fun x y => BitVec.ofNat 64 (min x.toNat y.toNat)⟩,
    ⟨.maxn, .maxnWide, fun x y => BitVec.ofNat 64 (max x.toNat y.toNat)⟩]

/-- A one-operand integer instruction: its class 0b00 form, its class 0b10 form, and its result on `w` bits. -/
structure CountRow where
  short : Reg → Reg → Instr
  ext : Reg → Reg → BitWidth → Instr
  result : Nat → Nat → Nat

/-- Bit `i` of a number is 1. -/
def isOne (x i : Nat) : Bool := x.testBit i

/-- The table of R222: the number of bits above the highest one, below the lowest one, of ones; the bytes reversed. -/
def countRows : List CountRow :=
  [⟨.clz, .clzExt, fun w x => (((List.range w).reverse).takeWhile fun i => !isOne x i).length⟩,
    ⟨.ctz, .ctzExt, fun w x => ((List.range w).takeWhile fun i => !isOne x i).length⟩,
    ⟨.popc, .popcExt, fun w x => ((List.range w).filter fun i => isOne x i).length⟩,
    ⟨.bswap, .bswapExt, fun w x => ((List.range (w / 8)).map fun i => x / 256 ^ i % 256 * 256 ^ (w / 8 - 1 - i)).sum⟩]

/-- A 128-bit instruction: its forms and its result. -/
structure QuadRow where
  short : Reg → Reg → Reg → Instr
  wide : Reg → Reg → Op2 → Instr
  result : BitVec 128 → BitVec 128 → BitVec 128

/-- The table of R223. -/
def quadRows : List QuadRow :=
  [⟨.qadd, .qaddWide, fun x y => x + y⟩, ⟨.qsub, .qsubWide, fun x y => x - y⟩,
    ⟨.qmul, .qmulWide, fun x y => BitVec.ofNat 128 (x.toNat * y.toNat)⟩,
    ⟨.qshl, .qshlWide, fun x y => BitVec.ofNat 128 (x.toNat * 2 ^ (y.toNat % 128))⟩,
    ⟨.qshr, .qshrWide, fun x y => BitVec.ofNat 128 (x.toNat / 2 ^ (y.toNat % 128))⟩]

/-- The second operand of an integer instruction (R186): `cC` plus the sign-extended IMM24, or the literal. -/
def secondOperand (s : State) : Op2 → BitVec 64
  | .ext c imm => BitVec.ofInt 64 ((reg64 s c).toInt + imm.toInt)
  | .lit v => v
  | .long v => v

/-- The second operand of a 128-bit instruction (R223). -/
def secondOperandWide (s : State) : Op2 → BitVec 128
  | .ext c imm => BitVec.ofInt 128 ((reg s c).bits.toInt + imm.toInt)
  | .lit v => v.signExtend 128
  | .long v => v.signExtend 128

/-- Length in bytes of an instruction with this second operand (R178). -/
def formBytes : Op2 → Nat
  | .ext _ _ => 12
  | .lit _ => 12
  | .long _ => 20

/-- Width of a `.n32` or `.n16` suffix (R222). -/
def suffixWidth : BitWidth → Nat
  | .w64 => 64
  | .w32 => 32
  | .w16 => 16

end Sys2Proof.Claims

/-- R220, R221: every two-operand integer instruction, in all its forms and on all operands, writes the result that the
table gives and goes on; none traps. -/
def Obligations.IntegerResults : Prop :=
  ∀ r ∈ aluRows, ∀ (a b c : Reg) (o : Op2) (s : State),
    exec (r.short a b c) s = .next (advance 4 (writeInt a 64 (r.result (reg64 s b) (reg64 s c)).toNat s)) ∧
      exec (r.wide a b o) s =
        .next (advance (formBytes o) (writeInt a 64 (r.result (reg64 s b) (secondOperand s o)).toNat s))

/-- R222: the counts and the byte reversal, of every width, on all operands. -/
def Sys2Proof.Claims.CountResults : Prop :=
  ∀ r ∈ countRows, ∀ (a b : Reg) (w : BitWidth) (s : State),
    exec (r.short a b) s = .next (advance 4 (writeInt a 64 (r.result 64 (reg64 s b).toNat) s)) ∧
      exec (r.ext a b w) s =
        .next (advance 12 (writeInt a 64
          (r.result (suffixWidth w) ((reg64 s b).toNat % 2 ^ suffixWidth w)) s))

/-- R223: the 128-bit instructions, in all their forms. -/
def Sys2Proof.Claims.QuadResults : Prop :=
  ∀ r ∈ quadRows, ∀ (a b c : Reg) (o : Op2) (s : State),
    exec (r.short a b c) s = .next (advance 4 (writeInt a 128 (r.result (reg s b).bits (reg s c).bits).toNat s)) ∧
      exec (r.wide a b o) s =
        .next (advance (formBytes o) (writeInt a 128 (r.result (reg s b).bits (secondOperandWide s o)).toNat s))

/-! ### Capabilities -/

namespace Sys2Proof.Claims

/-- An exponent qualifies for the bounds [a, a + n) (R226). -/
def Qualifies (a n e : Nat) : Prop :=
  let lo := a / 2 ^ e * 2 ^ e
  let hi := ceilDiv (a + n) (2 ^ e) * 2 ^ e
  (hi - lo) / 2 ^ e ≤ 65535 ∧ hi ≤ 2 ^ 80

/-- The source of a cursor change may move to `new`: only a view must stay in its representable window (R138). -/
def CursorMay (src : Cap) (new : Nat) : Prop := isView src = true → inWindow src new = true

/-- The result of a derivation on `src`: a tagged sealed source loses its tag when the result differs (R225). -/
def derived (src res : Cap) : Cap := if src.tag = true ∧ isSealed src = true ∧ res ≠ src then ⟨false, res.bits⟩ else res

/-- Cursor of `cB` plus the signed second operand (R224). -/
def steppedTo (s : State) (b : Reg) (y : BitVec 64) : Nat := (((capAddr (reg s b) : Int) + y.toInt) % (2 ^ 80 : Nat)).toNat

/-- A and C of `kplace` (R224). -/
def placedAt (s : State) (c : Reg) (imm : BitVec 24) : Nat :=
  (((capAddr (reg s c) : Int) + imm.toInt) % (2 ^ 80 : Nat)).toNat

/-- What `kfit` and `kcut` need of their source, the length and the bounds found (R225, R226). -/
def BoundsMay (exact : Bool) (src : Cap) (n e lo hi : Nat) : Prop :=
  isView src = false ∧ fit (capAddr src) n = some (e, lo, hi) ∧
    (exact = true → lo = capAddr src ∧ hi = capAddr src + n) ∧
    (src.tag = true → isSealed src = false →
      ∃ base top, capBounds src = some (base, top) ∧ base ≤ lo ∧ hi ≤ top)

/-- `Reg(B) with E, DIST, L` of R226. -/
def boundedTo (src : Cap) (e lo hi : Nat) : Cap :=
  makeCap src.tag (capPerms src) e ((hi - lo) / 2 ^ e) (capAddr src / 2 ^ e - lo / 2 ^ e) (capAddr src)

/-- P := P AND mask, SL kept. -/
def masked (src : Cap) (mask : BitVec 64) : Cap :=
  makeCap src.tag ((capPerms src).land ((mask.toNat % 1024).lor 512)) (capExp src) (capLen src) (capDist src) (capAddr src)

/-- A tagged, unsealed capability with SY: what `kopen` requires of its authority (R227). -/
def Authority (c : Cap) : Prop := c.tag = true ∧ isSealed c = false ∧ hasPerm c permSY = true

end Sys2Proof.Claims

/-- R57: the bounds that the fields E, DIST, L and A of a capability give, whatever its tag; none where they reach below address
0 or above 2^80; and its representable window. -/
def Sys2Proof.Claims.BoundsDecode : Prop :=
  ∀ c : Cap,
    let n := c.bits.toNat
    let unit : Nat := 2 ^ (n / 2 ^ 112 % 2 ^ 6)
    let base : Int := ((n % 2 ^ 80 / unit : Nat) - (n / 2 ^ 80 % 2 ^ 16 : Nat) : Int) * unit
    let top : Int := base + ((n / 2 ^ 96 % 2 ^ 16 * unit : Nat) : Int)
    (base < 0 ∨ (2 ^ 80 : Nat) < top → capBounds c = none ∧ ∀ a, inWindow c a = false) ∧
      (0 ≤ base → top ≤ (2 ^ 80 : Nat) → capBounds c = some (base.toNat, top.toNat) ∧
        ∀ a : Nat, inWindow c a = true ↔ base ≤ a ∧ (a : Int) < base + ((2 ^ 16 * unit : Nat) : Int))

/-- R226: `fit` finds the smallest exponent that qualifies, and the bounds it gives; it finds none when none qualifies. -/
def Sys2Proof.Claims.FitIsSmallest : Prop :=
  (∀ a n e lo hi, fit a n = some (e, lo, hi) ↔
    e ≤ 63 ∧ Qualifies a n e ∧ (∀ e' < e, ¬ Qualifies a n e') ∧ lo = a / 2 ^ e * 2 ^ e ∧
      hi = ceilDiv (a + n) (2 ^ e) * 2 ^ e) ∧
  (∀ a n, fit a n = none ↔ ∀ e ≤ 63, ¬ Qualifies a n e)

/-- R57, R58: a dereference passes exactly when the capability is tagged and unsealed, holds every permission named, and
the access lies within its bounds and below 2^80; the first check that fails, in this order, is the one reported. -/
def Obligations.CapCheckOrder : Prop :=
  ∀ (c : Cap) (addr : Int) (size perms : Nat),
    (capCheck c addr size perms = some .tag ↔ c.tag = false) ∧
    (capCheck c addr size perms = some .seal ↔ c.tag = true ∧ hasPerm c permSL = true) ∧
    (capCheck c addr size perms = some .perm ↔ c.tag = true ∧ hasPerm c permSL = false ∧ hasPerm c perms = false) ∧
    (capCheck c addr size perms = none ↔
      c.tag = true ∧ hasPerm c permSL = false ∧ hasPerm c perms = true ∧
        ∃ base top, capBounds c = some (base, top) ∧ (base : Int) ≤ addr ∧ addr + size ≤ top ∧
          addr + size ≤ (2 ^ 80 : Nat)) ∧
    capCheck c addr size perms ≠ some .align

/-- R59: the change of a cursor keeps the bounds of a capability whose cursor stays in its representable window, and
clears the tag of any other; every other field of the capability stays, and the cursor is the new one. -/
def Sys2Proof.Claims.CursorChange : Prop :=
  ∀ (c : Cap) (a : Nat), a < 2 ^ 80 →
    capAddr (withCursor c a) = a ∧ capPerms (withCursor c a) = capPerms c ∧ capExp (withCursor c a) = capExp c ∧
      capLen (withCursor c a) = capLen c ∧
      (inWindow c a = true → capBounds (withCursor c a) = capBounds c ∧ (withCursor c a).tag = c.tag) ∧
      (inWindow c a = false → (withCursor c a).tag = false)

/-- R224, R225: `kmov`, `kstep`, `kplace` and `kmask` in both forms, on every source but a view that the rule turns
away: the derived value goes to `cA`, moved when it is a view. -/
def Sys2Proof.Claims.CapabilityMoves : Prop :=
  ∀ (a b c : Reg) (imm : BitVec 24) (s : State),
    exec (.kmov a b) s = .next (advance 4 (moveInto a b (reg s b) s)) ∧
    exec (.kmovExt a b) s = .next (advance 12 (moveInto a b (reg s b) s)) ∧
    (CursorMay (reg s b) (steppedTo s b (reg64 s c)) →
      exec (.kstep a b c) s = .next (advance 4
        (moveInto a b (derived (reg s b) (withCursor (reg s b) (steppedTo s b (reg64 s c)))) s))) ∧
    (CursorMay (reg s b) (steppedTo s b (secondOperand s (.ext c imm))) →
      exec (.kstepExt a b c imm) s = .next (advance 12
        (moveInto a b (derived (reg s b) (withCursor (reg s b) (steppedTo s b (secondOperand s (.ext c imm))))) s))) ∧
    (CursorMay (reg s b) (placedAt s c 0) →
      exec (.kplace a b c) s = .next (advance 4
        (moveInto a b (derived (reg s b) (withCursor (reg s b) (placedAt s c 0))) s))) ∧
    (CursorMay (reg s b) (placedAt s c imm) →
      exec (.kplaceExt a b c imm) s = .next (advance 12
        (moveInto a b (derived (reg s b) (withCursor (reg s b) (placedAt s c imm))) s))) ∧
    ((isView (reg s b) = true → (reg64 s c).getLsbD 8 = true) →
      exec (.kmask a b c) s = .next (advance 4 (moveInto a b (derived (reg s b) (masked (reg s b) (reg64 s c))) s))) ∧
    ((isView (reg s b) = true → (secondOperand s (.ext c imm)).getLsbD 8 = true) →
      exec (.kmaskExt a b c imm) s = .next (advance 12
        (moveInto a b (derived (reg s b) (masked (reg s b) (secondOperand s (.ext c imm)))) s)))

/-- R225 to R227: `kfit` and `kcut` on bounds that the rule accepts, `klock` of a source that is no view, and `kopen`
under an authority. -/
def Sys2Proof.Claims.CapabilityBounds : Prop :=
  ∀ (a b c : Reg) (imm : BitVec 24) (s : State) (e lo hi : Nat),
    (BoundsMay false (reg s b) (reg64 s c).toNat e lo hi →
      exec (.kfit a b c) s = .next (advance 4 (writeCap a (derived (reg s b) (boundedTo (reg s b) e lo hi)) s))) ∧
    (BoundsMay false (reg s b) (secondOperand s (.ext c imm)).toNat e lo hi →
      exec (.kfitExt a b c imm) s =
        .next (advance 12 (writeCap a (derived (reg s b) (boundedTo (reg s b) e lo hi)) s))) ∧
    (BoundsMay true (reg s b) (reg64 s c).toNat e lo hi →
      exec (.kcut a b c) s = .next (advance 4 (writeCap a (derived (reg s b) (boundedTo (reg s b) e lo hi)) s))) ∧
    (BoundsMay true (reg s b) (secondOperand s (.ext c imm)).toNat e lo hi →
      exec (.kcutExt a b c imm) s =
        .next (advance 12 (writeCap a (derived (reg s b) (boundedTo (reg s b) e lo hi)) s))) ∧
    (isView (reg s b) = false →
      exec (.klock a b) s = .next (advance 4 (writeCap a (withSeal (reg s b) true) s)) ∧
      exec (.klockExt a b) s = .next (advance 12 (writeCap a (withSeal (reg s b) true) s))) ∧
    (isView (reg s b) = false → Authority (reg s c) →
      exec (.kopen a b c) s = .next (advance 4 (writeCap a (withSeal (reg s b) false) s)) ∧
      exec (.kopenExt a b c) s = .next (advance 12 (writeCap a (withSeal (reg s b) false) s)))

/-- R228: the readings of a capability, by the width the table gives each. -/
def Obligations.CapabilityReadings : Prop :=
  ∀ (a b c : Reg) (s : State),
    exec (.kcur a b) s = .next (advance 4 (writeInt a 80 (capAddr (reg s b)) s)) ∧
    exec (.kperm a b) s = .next (advance 4 (writeInt a 10 (capPerms (reg s b)) s)) ∧
    exec (.ktag a b) s = .next (advance 4 (writeInt a 1 (if (reg s b).tag = true then 1 else 0) s)) ∧
    (∀ base top, capBounds (reg s b) = some (base, top) →
      exec (.kbase a b) s = .next (advance 4 (writeInt a 80 base s)) ∧
      exec (.ktop a b) s = .next (advance 4 (writeInt a 81 top s)) ∧
      exec (.klen a b) s = .next (advance 4 (writeInt a 81 (top - base) s))) ∧
    (capBounds (reg s b) = none →
      exec (.kbase a b) s = .next (advance 4 (writeInt a 80 0 s)) ∧
      exec (.ktop a b) s = .next (advance 4 (writeInt a 81 0 s)) ∧
      exec (.klen a b) s = .next (advance 4 (writeInt a 81 0 s))) ∧
    ((reg s b).tag = true → (reg s c).tag = true → isSealed (reg s b) = false →
      (∃ base top lo hi, capBounds (reg s b) = some (base, top) ∧ capBounds (reg s c) = some (lo, hi) ∧
        base ≤ lo ∧ hi ≤ top) →
      (∀ i < 10, (capPerms (reg s c)).testBit i = true → (capPerms (reg s b)).testBit i = true) →
      exec (.kinside a b c) s = .next (advance 4 (writeInt a 1 1 s))) ∧
    ((reg s b).tag = false ∨ (reg s c).tag = false ∨ isSealed (reg s b) = true ∨ capBounds (reg s b) = none ∨
        capBounds (reg s c) = none ∨
        (∃ base top lo hi, capBounds (reg s b) = some (base, top) ∧ capBounds (reg s c) = some (lo, hi) ∧
          (lo < base ∨ top < hi)) ∨
        (∃ i < 10, (capPerms (reg s c)).testBit i = true ∧ (capPerms (reg s b)).testBit i = false) →
      exec (.kinside a b c) s = .next (advance 4 (writeInt a 1 0 s))) ∧
    (isView (reg s b) = false → exec (.kplain a b) s = .next (advance 4 (writeInt a 128 (reg s b).bits.toNat s))) ∧
    (isView (reg s b) = true → exec (.kplain a b) s = .next (deliverTrap ⟨causeView, 2 * 256 + b.val, 0⟩ s))

/-! ### Branches, jumps and control -/

namespace Sys2Proof.Claims

/-- A conditional branch: its two forms and when it is taken. -/
structure BranchRow where
  short : Reg → Reg → BitVec 10 → Instr
  ext : Reg → Reg → BitVec 24 → Instr
  taken : BitVec 64 → BitVec 64 → Prop

/-- The table of R229. -/
def branchRows : List BranchRow :=
  [⟨.beq, .beqExt, fun x y => x = y⟩, ⟨.bne, .bneExt, fun x y => x ≠ y⟩,
    ⟨.blt, .bltExt, fun x y => x.toInt < y.toInt⟩, ⟨.bge, .bgeExt, fun x y => x.toInt ≥ y.toInt⟩,
    ⟨.bltn, .bltnExt, fun x y => x.toNat < y.toNat⟩, ⟨.bgen, .bgenExt, fun x y => x.toNat ≥ y.toNat⟩]

/-- When `bm` is taken (R230). -/
def bmTaken (v : BitVec 64) : MaskCond → Prop
  | .any => v ≠ 0
  | .all => v = BitVec.allOnes 64
  | .none => v = 0

/-- The code capability with its cursor `d` bytes from the pc (R59). -/
def codeMoved (s : State) (d : Int) : Cap := withCursor (me s).code (((pc s : Int) + d) % (2 ^ 80 : Nat)).toNat

/-- The issuing context runs on from the code capability `c`. -/
def runsFrom (c : Cap) (s : State) : State := onMe s fun x => { x with code := c }

/-- What a jump through a register requires (R232). -/
def JumpTarget (c : Cap) : Prop := c.tag = true ∧ isSealed c = false ∧ hasPerm c permEX = true ∧ capAddr c % 4 = 0

/-- What `kenter` requires (R233). -/
def SealedEntry (c : Cap) : Prop := c.tag = true ∧ isSealed c = true ∧ hasPerm c permEX = true ∧ capAddr c % 4 = 0

end Sys2Proof.Claims

/-- R229, R230: a branch moves the pc by four times its offset when it is taken, and to the next instruction when not;
it changes nothing else. -/
def Sys2Proof.Claims.Branches : Prop :=
  (∀ r ∈ branchRows, ∀ (a b : Reg) (s : State),
    (∀ off : BitVec 10,
      (r.taken (reg64 s a) (reg64 s b) → exec (r.short a b off) s = .next (runsFrom (codeMoved s (4 * off.toInt)) s)) ∧
      (¬ r.taken (reg64 s a) (reg64 s b) → exec (r.short a b off) s = .next (runsFrom (codeMoved s 4) s))) ∧
    (∀ off : BitVec 24,
      (r.taken (reg64 s a) (reg64 s b) → exec (r.ext a b off) s = .next (runsFrom (codeMoved s (4 * off.toInt)) s)) ∧
      (¬ r.taken (reg64 s a) (reg64 s b) → exec (r.ext a b off) s = .next (runsFrom (codeMoved s 12) s)))) ∧
  ∀ (m : Reg) (cond : MaskCond) (off : BitVec 24) (s : State),
    (bmTaken (maskReg (me s) m.val) cond → exec (.bm m cond off) s = .next (runsFrom (codeMoved s (4 * off.toInt)) s)) ∧
    (¬ bmTaken (maskReg (me s) m.val) cond → exec (.bm m cond off) s = .next (runsFrom (codeMoved s 12) s))

/-- R231 to R233: jumps, their links, and entry through a sealed capability. -/
def Sys2Proof.Claims.Jumps : Prop :=
  ∀ (a b : Reg) (off : BitVec 16) (far : BitVec 24) (s : State),
    exec (.j off) s = .next (runsFrom (codeMoved s (4 * off.toInt)) s) ∧
    exec (.jExt far) s = .next (runsFrom (codeMoved s (4 * far.toInt)) s) ∧
    exec (.jal a off) s = .next (jumpBy off.toInt (writeCap a (codeMoved s 4) s)) ∧
    exec (.jalExt a far) s = .next (jumpBy far.toInt (writeCap a (codeMoved s 12) s)) ∧
    (JumpTarget (reg s b) →
      exec (.jr b) s = .next (runsFrom (reg s b) s) ∧ exec (.ret b) s = .next (runsFrom (reg s b) s) ∧
      exec (.jalr a b) s = .next (runsFrom (reg s b) (writeCap a (codeMoved s 4) s))) ∧
    (SealedEntry (reg s b) →
      exec (.kenter a b) s = .next (runsFrom (withSeal (reg s b) false) (writeCap a (codeMoved s 4) s)))

/-- R217, R218: where the program counter stands after an instruction of `n` bytes and after a jump, modulo 2^80. -/
def Sys2Proof.Claims.ProgramCounterMoves : Prop :=
  ∀ (s : State) (n : Nat) (off : Int),
    pc (advance n s) = (pc s + n) % 2 ^ 80 ∧ (pc (jumpBy off s) : Int) = ((pc s : Int) + 4 * off) % (2 ^ 80 : Nat)

/-! ### Helpers, remote spawn and the life of a context -/

namespace Sys2Proof.Claims

/-- The issuing context leaves the rotation until its operation completes (R16). -/
def removed (s : State) : State := onMe s fun x => { x with wait := .plain }

/-- The issuing context is held on `w`; a memory access that is held completes before its context is saved (R52). -/
def heldOn (w : Wait) (s : State) : State := onMe s fun x => { x with wait := w, holding := mustComplete w }

/-- The record leaves the core of the issuing context. -/
def withoutRecord (r : HelperRecord) (s : State) : State :=
  onCore s (who s).core fun k => { k with records := k.records.filter (· != r) }

/-- What `start` needs, beside a target that a jump may take (R234). -/
def MayStart (s : State) (b : Reg) (pin : Pin) (t : Team) (slot : Nat) : Prop :=
  (me s).kind = .leader ∧ JumpTarget (reg s b) ∧ lowestFree (myCore s) = some slot ∧ teamOf s (who s) = some t ∧
    (recordsOf (myCore s) (me s).uid).length < 10 ∧ (pin = .none ∨ enginePinned (myCore s) pin = false) ∧
    ¬ (isBasecamp (who s).core = true ∧ (pin = .mx ∨ pin = .ep))

/-- The core that a `spawn` names is in the core set (R236). -/
def SpawnTarget (s : State) (d : Reg) (imm : BitVec 24) (core : Nat) : Prop :=
  ((reg64 s d).toNat : Int) + imm.toInt = core ∧ ∃ t, teamOf s (who s) = some t ∧ core ∈ t.cores

end Sys2Proof.Claims

/-- R28 to R31, R234, R235: `start` places a helper in the lowest free slot and gives its handle, or says why it did
not: no slot or ten records, an engine that is pinned, an engine that the core does not have; `join` takes the exit value of a helper that has halted, and its record goes. -/
def Sys2Proof.Claims.HelpersStartAndJoin : Prop :=
  ∀ (a b c : Reg) (pin : Pin) (s : State) (t : Team) (slot : Nat),
    (MayStart s b pin t slot →
      exec (.start a b c pin) s =
        .next (advance 12 (writeInt a 64 (startHelper t slot b c pin s).1 (startHelper t slot b c pin s).2))) ∧
    ((me s).kind = .leader → JumpTarget (reg s b) →
      lowestFree (myCore s) = none ∨ (teamOf s (who s) = some t ∧ 10 ≤ (recordsOf (myCore s) (me s).uid).length) →
      exec (.start a b c pin) s = .next (advance 12 (writeInt a 64 (2 ^ 64 - 1) s))) ∧
    ((me s).kind = .leader → JumpTarget (reg s b) → lowestFree (myCore s) = some slot → teamOf s (who s) = some t →
      (recordsOf (myCore s) (me s).uid).length < 10 → pin ≠ .none →
      (enginePinned (myCore s) pin = true →
        exec (.start a b c pin) s = .next (advance 12 (writeInt a 64 (2 ^ 64 - 2) s))) ∧
      (enginePinned (myCore s) pin = false → isBasecamp (who s).core = true → pin = .mx ∨ pin = .ep →
        exec (.start a b c pin) s = .next (advance 12 (writeInt a 64 (2 ^ 64 - 3) s)))) ∧
    ((∃ l, (me s).kind = .helper l) ∨ (me s).kind = .system →
      exec (.start a b c pin) s = .next (deliverTrap ⟨causeExecution, 3, 0⟩ s)) ∧
    ((∃ p i o, (me s).kind = .pitch p i o) ∨ (me s).kind = .spawned →
      exec (.start a b c pin) s = .next (deliverTrap ⟨causeExecution, 10, 0⟩ s)) ∧
    (∀ r e, (me s).kind = .leader → recordFor (myCore s) (me s).uid (reg64 s b) = some r → r.exit = some e →
      exec (.join a b) s = .next (removed (advance 4 (writeInt a 64 e.toNat (withoutRecord r s)))))

/-- R25, R28: the context that `start` places: live in its slot, with the leader's argument registers, its own pin,
the leader's ordinal and the number of leaders, and no other register set; the handle is its serial and its slot. -/
def Sys2Proof.Claims.NewHelper : Prop :=
  ∀ (t : Team) (slot : Nat) (b c : Reg) (pin : Pin) (s : State), slot ≠ (who s).slot →
    let x := ctxOf (startHelper t slot b c pin s).2 ⟨(who s).core, slot⟩
    (startHelper t slot b c pin s).1 = ((myCore s).serial + 1) % 65536 * 65536 + slot ∧
      x.status = .live ∧ x.kind = .helper (me s).uid ∧ x.code = reg s b ∧ x.pin = pin ∧ x.nv = t.nv ∧ x.ne = t.ne ∧
      x.seed = t.seed ∧ x.wait = .none ∧ x.v = [] ∧ x.e = [] ∧ x.m = [] ∧ x.round = 0 ∧ x.covmode = 0 ∧ x.flushcnt = 0 ∧
      (∀ i < 4, regOf x (i + 1) = (arguments s c).getD i Cap.null) ∧
      regOf x 5 = Cap.plain (BitVec.ofNat 128 (me s).ordinal) ∧
      regOf x 6 = Cap.plain (BitVec.ofNat 128 (leaderCount t)) ∧ ∀ i, 7 ≤ i → i < 64 → regOf x i = Cap.null

/-- R30, R31, R34, R309, R438: `halt` returns from an inline child, ends a run of the system context, or ends the
context with its exit value; a leader does so once its helpers have halted. In the trap entry of the system context it abandons
the run in which the trap arose (the model's reading, log 114). -/
def Sys2Proof.Claims.Halts : Prop :=
  ∀ (a : Reg) (s : State),
    ((who s).slot = 11 → (myCore s).trapOpen = false → (me s).calls = [] → exec (.halt a) s = .next (endRun s)) ∧
    ((who s).slot = 11 → (myCore s).trapOpen = true → exec (.halt a) s = .next (endTrapEntry s (who s).core)) ∧
    (∀ f rest, (me s).calls = f :: rest → ¬ ((who s).slot = 11 ∧ (myCore s).trapOpen = true) →
      exec (.halt a) s =
        .next (writeInt f.dst 64 (2 * (reg64 s a).toNat + 1) (onMe s fun x => { x with code := f.back, calls := rest }))) ∧
    ((who s).slot ≠ 11 → (me s).calls = [] → ((me s).kind = .leader → helpersLive s (who s) = false) →
      exec (.halt a) s = .next (endContext s (who s) (reg64 s a))) ∧
    ((who s).slot ≠ 11 → (me s).calls = [] → (me s).kind = .leader → helpersLive s (who s) = true →
      exec (.halt a) s = .next (heldOn .helpers s))

/-- R33, R236: a `spawn` to a core of the core set sends its request to that core's system context, where it joins the
arrivals, and waits for the answer; one to another core traps, and sends nothing. -/
def Sys2Proof.Claims.RemoteSpawn : Prop :=
  ∀ (a b c d : Reg) (imm : BitVec 24) (s : State),
    (∀ core, SpawnTarget s d imm core → JumpTarget (reg s b) →
      exec (.spawn a b c d imm) s =
        .next (onMe
          (postArrival { s with messages := s.messages + 1 } core (who s).core
            (.spawn ⟨s.messages + 1, who s, (me s).uid, (teamUidOf s (who s)).getD 0, reg s b, arguments s c⟩))
          fun x => { x with wait := .spawn (s.messages + 1) a c })) ∧
    ((∀ core, ¬ SpawnTarget s d imm core) →
      exec (.spawn a b c d imm) s = .next (deliverTrap ⟨causeExecution, 5, 0⟩ s))

/-! ### Barriers, semaphores, forwarding, handlers -/

namespace Sys2Proof.Claims

/-- A barrier arrival is allowed (R238): a leader's, and on a basecamp core of lane or core scope. -/
def MayArrive (s : State) (sc : Scope) : Prop :=
  (me s).kind = .leader ∧ (isBasecamp (who s).core = true → sc = .lane ∨ sc = .core)

/-- The context that waits first on semaphore `n` goes on after its `sem.wait` (R46). -/
def wakeFirst (n w : Nat) (rest : List Nat) (x : Context) (s : State) : State :=
  onCore s (who s).core fun k =>
    { k with
      semq := putD k.semq n rest []
      slots := put k.slots w { x with code := withCursor x.code (capAddr x.code + 4), wait := .plain } }

/-- The register that a `fwd.put` fills: of the next slot, or of the same slot of the next core of the quad (R49). -/
def forwardsTo (s : State) (quad : Bool) : CtxId :=
  if quad = true then ⟨(who s).core - (who s).core % 4 + ((who s).core + 1) % 4, (who s).slot⟩
  else ⟨(who s).core, if (who s).slot = 10 then 0 else (who s).slot + 1⟩

/-- FULL of a forwarding register. -/
def isFull (v : BitVec 65) : Bool := v.getLsbD 64

end Sys2Proof.Claims

/-- R46, R237 to R240: `yield`, a lane barrier, the arrival at a wider one, and the semaphores. -/
def Sys2Proof.Claims.BarriersAndSemaphores : Prop :=
  ∀ (sc : Scope) (sem : Reg) (s : State),
    exec .yield s = .next (advance 4 (onMe s fun x => { x with readyAt := x.readyAt + 8 })) ∧
    (MayArrive s .lane → exec (.bar .lane) s = .next (advance 12 s)) ∧
    (sc ≠ .lane → MayArrive s sc → exec (.bar sc) s = .next (heldOn (.arrived (.bar sc)) s)) ∧
    (isBasecamp (who s).core = false →
      (lookD (myCore s).semq sem.val [] = [] → lookD (myCore s).sems sem.val 0 < 65535 →
        exec (.semSig sem) s = .next (advance 4 (onCore s (who s).core fun k =>
          { k with sems := putD k.sems sem.val (lookD (myCore s).sems sem.val 0 + 1) 0 }))) ∧
      (∀ w rest x, lookD (myCore s).semq sem.val [] = w :: rest → look (myCore s).slots w = some x →
        exec (.semSig sem) s = .next (advance 4 (wakeFirst sem.val w rest x s))) ∧
      (0 < lookD (myCore s).sems sem.val 0 →
        exec (.semWait sem) s = .next (removed (advance 4 (onCore s (who s).core fun k =>
          { k with sems := putD k.sems sem.val (lookD (myCore s).sems sem.val 0 - 1) 0 })))) ∧
      (lookD (myCore s).sems sem.val 0 = 0 →
        exec (.semWait sem) s = .next (onMe (onCore s (who s).core fun k =>
          { k with semq := putD k.semq sem.val (lookD (myCore s).semq sem.val [] ++ [(who s).slot]) [] })
            fun x => { x with wait := .semaphore sem.val })))

/-- R48, R49: a forwarding put fills an empty register, a get empties a full one into `cA`; on the other state each
holds. -/
def Sys2Proof.Claims.Forwarding : Prop :=
  ∀ (a : Reg) (quad : Bool) (s : State), (who s).slot < 11 →
    (quad = true → isBasecamp (who s).core = false ∧
      ∃ t, teamOf s (who s) = some t ∧ (forwardsTo s quad).core ∈ t.cores) →
    (isFull (fwdOf (coreOf s (forwardsTo s quad).core) (forwardsTo s quad).slot) = false →
      exec (.fwdPut a quad) s = .next (advance 4 (onCore s (forwardsTo s quad).core
        (setFwd (forwardsTo s quad).slot (BitVec.ofNat 65 (2 ^ 64 + (reg64 s a).toNat)))))) ∧
    (isFull (fwdOf (coreOf s (forwardsTo s quad).core) (forwardsTo s quad).slot) = true →
      exec (.fwdPut a quad) s = .next (heldOn (.fwdPut quad (reg64 s a)) s)) ∧
    (isFull (fwdOf (myCore s) (who s).slot) = true →
      exec (.fwdGet a) s = .next (advance 4 (writeInt a 64 ((fwdOf (myCore s) (who s).slot).toNat % 2 ^ 64)
        (onCore s (who s).core (setFwd (who s).slot (BitVec.ofNat 65 ((fwdOf (myCore s) (who s).slot).toNat % 2 ^ 64))))))) ∧
    (isFull (fwdOf (myCore s) (who s).slot) = false →
      exec (.fwdGet a) s = .next (heldOn (.fwdGet a) s))

/-! ### Traps and their return, special registers -/

/-- R146, R160, R246, R247, R249: a software trap is taken; `hret` leaves a fast handler, and one that leaves the refill
handler for the lookup that missed is known to have run for its key, unless the position map buffer has been emptied since (R53,
R145); `ifence` leaves the rotation until the transfers that
the context issued have ended, and completes without the copies fetched before it. -/
def Sys2Proof.Claims.TrapsAndHandlers : Prop :=
  ∀ (b : Reg) (n : Fin 16) (m : BitVec 24) (s : State),
    exec (.trap n) s = .next (deliverTrap ⟨causeSoftware, n.val, 0⟩ s) ∧
    exec (.trapExt m) s = .next (deliverTrap ⟨causeSoftware, m.toNat, 0⟩ s) ∧
    exec .ifence s = .next (heldOn .ifence s) ∧
    ((me s).status = .live → (∀ t ∈ (me s).transfers, transferLive s t.2 = false) →
      exec (.operationComplete (who s).core (who s).slot) (heldOn .ifence s) = .next (onMe s fun x => { x with
        wait := .none, holding := false, fetchSince := (myCore s).cycle, copies := []
        code := withCursor x.code ((capAddr x.code + 4) % 2 ^ 80) })) ∧
    (∀ key back, (me s).handler = .refill key back →
      exec (.hret 0) s =
        .next (onMe s fun x => { x with
          code := back, handler := .none, emptied := false
          refilled := if x.emptied = true then none else some (key, capAddr back) })) ∧
    (∀ back, (me s).handler = .upcall back →
      exec (.hret 0) s = .next (onMe s fun x => { x with
        code := back, handler := .none, emptied := false, refilled := if x.emptied = true then none else x.refilled })) ∧
    (b ≠ 0 → (me s).handler.active = true → JumpTarget (reg s b) →
      exec (.hret b) s = .next (onMe s fun x => { x with code := reg s b, handler := .none, emptied := false }))

/-- R241: a trap of a user context leaves it trapped where it stands, with the cause, the pc and the information in its
trap registers, and puts a notice among the arrivals of its core's system context; a trap of the system context enters
the firmware's trap entry, over what it runs, and one that it takes before that trap has ended starts the firmware of its core
again and resets the partition of its team with reason 3. Of a user trap nothing else of the context changes, and no other
context does. That the run stands until the trap entry ends is the model's reading (log 19). -/
def Obligations.TrapEntry : Prop :=
  ∀ (cause info rights : Nat) (s : State),
    (∀ core slot, slot ≠ 11 →
      let id : CtxId := ⟨core, slot⟩
      let t := deliverTrapTo ⟨cause, info, rights⟩ s id
      ctxOf t id = { ctxOf s id with
        trapcause := BitVec.ofNat 8 cause, trappc := BitVec.ofNat 80 (capAddr (ctxOf s id).code)
        trapinfo := BitVec.ofNat 64 info, needs := rights, status := .trapped, wait := .none, holding := false } ∧
      (coreOf t core).inbox = insertPosted core
        ⟨(coreOf s core).cycle, core, .notice slot cause (capAddr (ctxOf s id).code) info⟩ (coreOf s core).inbox ∧
      (∀ other, other ≠ id → ctxOf t other = ctxOf s other) ∧ t.memory = s.memory) ∧
    (∀ core, (coreOf s core).trapOpen = false →
      let id : CtxId := ⟨core, 11⟩
      let t := deliverTrapTo ⟨cause, info, rights⟩ s id
      (ctxOf t id).code = Config.trapEntry ∧ (ctxOf t id).trapcause = BitVec.ofNat 8 cause ∧
        (ctxOf t id).trappc = BitVec.ofNat 80 (capAddr (ctxOf s id).code) ∧
        (ctxOf t id).trapinfo = BitVec.ofNat 64 info ∧ (coreOf t core).trapOpen = true ∧
        (coreOf t core).run = (coreOf s core).run ∧ t.memory = s.memory) ∧
    (∀ core f, (coreOf s core).trapOpen = true → partitionOf s core = some f →
      ∃ u, deliverTrapTo ⟨cause, info, rights⟩ s ⟨core, 11⟩ = partitionReset u f 3 0 0 true false ∧
        (coreOf u core).trapOpen = false ∧ (coreOf u core).run = .idle ∧
        look (coreOf u core).slots 11 = some (Context.systemAtReset core))

namespace Sys2Proof.Claims

/-- The control word of `eret`: slot, SKIP, UPC and END (R244). -/
def controlWord (slot : Nat) (skip upc fin : Bool) : Nat :=
  slot + (if skip = true then 16 else 0) + (if upc = true then 32 else 0) + (if fin = true then 64 else 0)

/-- A user slot that `eret` may act on (R244): trapped, or stopped when no SKIP is asked; not a fetch fault to skip. -/
def MayReturn (x : Context) (skip : Bool) : Prop :=
  (x.status = .trapped ∨ (x.status = .stopped ∧ skip = false)) ∧ (skip = true → x.trapcause.toNat ≠ causeFetch)

/-- The trap of a context returns `n` bytes behind its trapping instruction, and the state is `t` once that has been read: with
SKIP the length of that instruction, else 0 (R244). -/
def PassesTrap (s : State) (id : CtxId) (skip : Bool) (n : Nat) (t : State) : Prop :=
  if skip = true then lengthAt id (ctxOf s id).trappc.toNat s = .ok (n, t) else n = 0 ∧ t = s

/-- Where a trap return resumes a context: a stopped one where it stands. -/
def resumesAt (x : Context) (n : Nat) : Cap := if x.status = .stopped then x.code else withCursor x.code (x.trappc.toNat + n)

/-- The special registers that every context may read, by number (R74 to R80). -/
def specialRows (s : State) : List (Nat × Nat) :=
  [(0x00, (me s).round.toNat), (0x01, (me s).covmode.toNat), (0x02, (me s).flushcnt.toNat), (0x08, (who s).slot),
    (0x09, (who s).core), (0x0C, s.pkg.toNat), (0x0E, (me s).gen.toNat), (0x0F, (myCore s).cycle % 2 ^ 64),
    (0x10, (me s).trapcause.toNat), (0x11, (me s).trappc.toNat), (0x12, (me s).trapinfo.toNat), (0x20, (myCore s).vb),
    (0x21, (myCore s).sb), (0x22, (myCore s).cb)]

/-- A pointer register reads how far its channel has come (R80). -/
def pointerOf (k : Core) (ch : Nat) : Nat :=
  match look k.channels ch with
  | some c => c.wp
  | none => 0

end Sys2Proof.Claims

/-- R244, R423: `eret` resumes a trapped or stopped context, at its instruction or after it, a stopped one whose service was
denied while it stood as denied; it starts the upcall prologue of its team; it ends the context; on the system context it
closes its own trap. The length by which SKIP passes an instruction (logs 23 and 115), and the code capability under which the system
context goes on (log 96), are the model's reading. -/
def Obligations.ReturnFromTrap : Prop :=
  ∀ (b : Reg) (s : State), privileged s = true →
    (∀ slot skip n t, slot < 11 → (reg64 s b).toNat = controlWord slot skip false false →
      let id : CtxId := ⟨(who s).core, slot⟩
      MayReturn (ctxOf s id) skip → (ctxOf s id).preempt = false → PassesTrap s id skip n t →
      (¬ ((ctxOf t id).status = .stopped ∧ (ctxOf t id).denied = true) →
        exec (.eret b) s = .next (advance 4 (onCtx t id fun x =>
          { x with
            status := .live, code := resumesAt (ctxOf s id) n, fetchSince := (coreOf t id.core).cycle
            ticket := 0, recorded := false, denied := false }))) ∧
      ((ctxOf s id).status = .stopped → (ctxOf s id).denied = true →
        exec (.eret b) s = .next (advance 4 (denyContext s id)))) ∧
    (∀ slot skip n u t e, slot < 11 → (reg64 s b).toNat = controlWord slot skip true false →
      let id : CtxId := ⟨(who s).core, slot⟩
      MayReturn (ctxOf s id) skip → (ctxOf s id).preempt = false → (ctxOf s id).handler.active = false →
      teamOf s id = some t → t.upcall = some e → PassesTrap s id skip n u →
      exec (.eret b) s = .next (advance 4 (onCtx (dropShadow u id 3) id fun y => awake (coreOf u id.core)
        (enterUpcall t e (resumesAt (ctxOf s id) n)
          [(ctxOf s id).trapcause.toNat, (ctxOf s id).trappc.toNat, (ctxOf s id).trapinfo.toNat]
          { y with ticket := 0, recorded := false, denied := false })))) ∧
    (∀ slot, slot < 11 → (reg64 s b).toNat = controlWord slot false false true →
      let id : CtxId := ⟨(who s).core, slot⟩
      MayReturn (ctxOf s id) false → (ctxOf s id).preempt = false →
      exec (.eret b) s = .next (advance 4 (endTrapped s id))) ∧
    (∀ skip n t, (reg64 s b).toNat = controlWord 11 skip false false →
      (skip = true → (me s).trapcause.toNat ≠ causeFetch) → PassesTrap s (who s) skip n t →
      exec (.eret b) s = .next (onCore (onMe t fun x => { x with code := withCursor x.code ((me s).trappc.toNat + n) })
        (who t).core fun k => { k with trapOpen := false }))

/-- R244, R248, R250: outside its privilege `eret`, `ctx.save` and `ctx.rest` take the privilege fault, which names the opcode,
and `swr` of `%trapcause`, `%trappc`, `%trapinfo` or `%fwd` the one that names the register; they have no other effect. -/
def Sys2Proof.Claims.PrivilegeFaults : Prop :=
  ∀ (a b c d : Reg) (evict : Bool) (s : State), privileged s = false →
    exec (.eret b) s = .next (deliverTrap ⟨causePrivilege, 0x4F, 0⟩ s) ∧
    exec (.ctxSave d a b c evict) s = .next (deliverTrap ⟨causePrivilege, 0x4D, 0⟩ s) ∧
    exec (.ctxRest d a b c) s = .next (deliverTrap ⟨causePrivilege, 0x4E, 0⟩ s) ∧
    (∀ sr : Reg, sr.val = 0x10 ∨ sr.val = 0x11 ∨ sr.val = 0x12 ∨ sr.val = 0x1C →
      exec (.swr sr b) s = .next (deliverTrap ⟨causePrivilege, sr.val, 0⟩ s))

/-- R74 to R80: what `srd` reads, and what `swr` writes where the context may write and the value fits the register. -/
def Obligations.SpecialRegisters : Prop :=
  ∀ (a b : Reg) (s : State),
    (∀ r ∈ specialRows s, ∀ sr : Reg, sr.val = r.1 →
      exec (.srd a sr) s = .next (advance 4 (writeInt a 128 r.2 s))) ∧
    (∀ ch : Fin 4, ∀ sr : Reg, sr.val = 0x18 + ch.val →
      exec (.srd a sr) s = .next (advance 4 (writeInt a 128 (pointerOf (myCore s) ch.val) s))) ∧
    ((who s).slot ≠ 11 →
      exec (.srd a 0x1C) s = .next (advance 4 (writeInt a 128 (fwdOf (myCore s) (who s).slot).toNat s))) ∧
    ((who s).slot = 11 → exec (.srd a 0x1C) s = .next (advance 4 (writeInt a 128 0 s))) ∧
    (∀ t, teamOf s (who s) = some t → exec (.srd a 0x0D) s = .next (advance 4 (writeInt a 128 t.ident.toNat s))) ∧
    (isBasecamp (who s).core = false →
      exec (.srd a 0x0A) s = .next (advance 4 (writeInt a 128 ((who s).core / 4 % 36) s)) ∧
      exec (.srd a 0x0B) s = .next (advance 4 (writeInt a 128 ((who s).core / 144) s))) ∧
    (isBasecamp (who s).core = true →
      exec (.srd a 0x0A) s = .next (advance 4 (writeInt a 128 0x3F s)) ∧
      exec (.srd a 0x0B) s = .next (advance 4 (writeInt a 128 (((who s).core - 1152) / 64) s))) ∧
    ((reg64 s b).toNat < 32 → (reg64 s b).toNat % 8 ≠ 7 →
      exec (.swr 0x00 b) s = .next (advance 4 (onMe s fun x => { x with round := BitVec.ofNat 5 (reg64 s b).toNat }))) ∧
    ((reg64 s b).toNat < 16 →
      exec (.swr 0x01 b) s =
        .next (advance 4 (onMe s fun x => { x with covmode := BitVec.ofNat 4 (reg64 s b).toNat }))) ∧
    exec (.swr 0x02 b) s =
      .next (advance 4 (onMe s fun x => { x with flushcnt := BitVec.ofNat 32 (reg64 s b).toNat })) ∧
    (privileged s = true →
      ((reg64 s b).toNat % 256 ≤ 0x17 → exec (.swr 0x10 b) s =
        .next (advance 4 (onMe s fun x => { x with trapcause := BitVec.ofNat 8 (reg64 s b).toNat }))) ∧
      (0x17 < (reg64 s b).toNat % 256 → exec (.swr 0x10 b) s =
        .next (deliverTrap ⟨causeIllegal, Instr.firstWord (.swr 0x10 b), 0⟩ s)) ∧
      exec (.swr 0x11 b) s =
        .next (advance 4 (onMe s fun x => { x with trappc := BitVec.ofNat 80 (reg s b).bits.toNat })) ∧
      exec (.swr 0x12 b) s = .next (advance 4 (onMe s fun x => { x with trapinfo := reg64 s b })) ∧
      (∀ slot v : Nat, slot < 11 → v < 2 ^ 65 → (reg s b).bits.toNat = v + slot * 2 ^ 68 →
        slotFree (myCore s) slot = true →
        exec (.swr 0x1C b) s = .next (advance 4 (onCore s (who s).core (setFwd slot (BitVec.ofNat 65 v))))))

namespace Sys2Proof.Claims

/-- The control words of `ctx.save` and `ctx.rest` and what they name (R250). -/
structure SaveRequest where
  slot : Nat
  off : Nat
  counter : Nat
  units : Nat

/-- The request stands in `cB`, and its fields are within their limits. -/
def SaveRequest.stands (r : SaveRequest) (s : State) (b : Reg) : Prop :=
  r.slot < 11 ∧ r.off < 1024 ∧ r.counter < 2 ^ 32 ∧ r.units ≤ 512 ∧ r.off + r.units ≤ stashUnits (myCore s) ∧
    (reg s b).bits.toNat = r.slot + r.off * 2 ^ 16 + r.counter * 2 ^ 32 + r.units * 2 ^ 64

/-- Registers of the context's launch, by which the image is sized. -/
def windowsOf (s : State) (id : CtxId) : Nat × Nat :=
  match teamOf s id with
  | some t => (t.nv, t.ne)
  | none => (0, 0)

/-- The image may be written: the slot holds a context at its boundary, the key stands and its counter is lower. -/
def MaySave (s : State) (id : CtxId) (handle counter : Nat) (key : ContextKey) : Prop :=
  slotFree (coreOf s id.core) id.slot = false ∧ (ctxOf s id).status ≠ .away ∧
    keyBy s (BitVec.ofNat 32 handle) = some key ∧ key.counter.toNat < counter ∧
    ((ctxOf s id).status = .live → standsAt s id = true)

/-- The header of an image that a key opens and a core can take (R250, R436). -/
structure ImageHeader where
  counter : Nat
  nv : Nat
  ne : Nat
  units : Nat
  off : Nat
  team : Nat
  value : Nat

/-- The header's number has these fields, with the length that they give. -/
def ImageHeader.stands (h : ImageHeader) : Prop :=
  field h.value 31 0 = imageMagic ∧ field h.value 63 32 = h.counter ∧ field h.value 127 96 = h.team ∧
    field h.value 135 128 = h.nv ∧ field h.value 143 136 = h.ne ∧ field h.value 175 160 = h.off ∧
    field h.value 191 176 = h.units ∧ field h.value 255 224 = imageLength h.nv h.ne h.units

end Sys2Proof.Claims

/-- R250, R426, R436: `ctx.save` writes the sealed image of a context, records its counter and stops it, or empties its
slot when it evicts; `ctx.rest` opens an image under its key and places the context; each then says 0. -/
def Sys2Proof.Claims.ContextImages : Prop :=
  ∀ (a b c d : Reg) (evict : Bool) (s : State), privileged s = true →
    (∀ (r : SaveRequest) (key : ContextKey) (t : State), r.stands s b →
      let id : CtxId := ⟨(who s).core, r.slot⟩
      let handle := (reg s c).bits.toNat % 2 ^ 32
      MaySave s id handle r.counter key →
      capCheck (reg s a) (capAddr (reg s a)) (80 + imageLength (windowsOf s id).1 (windowsOf s id).2 r.units) permST = none →
      writeImage a id key.serial handle r.counter r.off r.units s = .ok ((), t) →
      let u := recordSave (stopContext (recordNotice t id) id) id handle r.counter evict
      let stays (x : Context) : Context :=
        if x.status = .trapped then { x with status := .stopped, ticket := 0, recorded := false, denied := false } else x
      exec (.ctxSave d a b c evict) s =
        .next (removed (advance 12 (writeInt d 64 0 (if evict = true then evictSlot u id else onCtx u id stays))))) ∧
    (∀ (slot : Nat) (h : ImageHeader) (key : ContextKey) (t : Team) (bs body p : List Byte) (s1 s2 : State),
      slot < 11 → (reg s b).bits.toNat = slot → natOfBytes bs = h.value → h.stands →
      let id : CtxId := ⟨(who s).core, slot⟩
      let handle := (reg s c).bits.toNat % 2 ^ 32
      let va := capAddr (reg s a)
      capCheck (reg s a) va 64 permLD = none → readRange (memActor s a plainX) va 64 s = .ok (bs, s1) →
      slotFree (coreOf s1 id.core) slot = true → keyBy s1 (BitVec.ofNat 32 handle) = some key →
      h.counter = key.counter.toNat → key.spent = false →
      capCheck (reg s1 a) (capAddr (reg s1 a)) (80 + imageLength h.nv h.ne h.units) permLD = none →
      readRange (memActor s1 a plainX) (capAddr (reg s1 a) + 64) (imageLength h.nv h.ne h.units + 16) s1 =
        .ok (body, s2) →
      Seal.decrypt (Config.contextKey key.serial) (imageIv handle h.counter) (bytesOf 64 h.value)
        (body.take (imageLength h.nv h.ne h.units)) (body.drop (imageLength h.nv h.ne h.units)) = some p →
      restoreTeam s2 id.core h.value p = some t → h.team = t.ident.toNat → h.nv = t.nv → h.ne = t.ne →
      h.off + h.units ≤ stashUnits (coreOf s2 id.core) →
      (pinFrom p = .none ∨ enginePinned (coreOf s2 id.core) (pinFrom p) = false) →
      exec (.ctxRest d a b c) s =
        .next (removed (advance 12 (writeInt d 64 0 (placeRestored s2 t id h.value p handle h.counter)))))

/-- R428, R434: the cipher opens what it sealed: decryption under the same key, vector and header gives the plaintext
back. -/
def Sys2Proof.Claims.SealOpens : Prop :=
  ∀ (key : BitVec 256) (iv aad text : List Byte),
    Seal.decrypt key iv aad ((Seal.encrypt key iv aad text).take text.length)
      ((Seal.encrypt key iv aad text).drop text.length) = some text

/-! ### The barrel, routes, slices and barriers -/

namespace Sys2Proof.Claims

/-- The member `m` has arrived at the instance with `j`. -/
def Arrived (s : State) (sc : Scope) (m : Member) (j : Joined) : Prop :=
  (ctxOf s m.id).wait = .arrived j ∧ joinedScope j = sc

/-- The teams whose leaders are members of an instance of team `t`: at pod scope every team of its identifier (R24). -/
def teamsAt (s : State) (t : Team) (sc : Scope) : List Team :=
  if sc = .pod then s.teams.filter fun u => u.ident == t.ident else [t]

/-- The instance of a team at a scope and extent may complete: its teams are on their cores, no leader of them is saved, and
its members here are `ps`, which all have arrived; `remote`, at pod scope alone, are those of other packages (R11, R24,
R27). -/
def InstanceFull (s : State) (t : Team) (sc : Scope) (extent : Nat) (ps : List Present) (remote : List RemoteMember) : Prop :=
  teamBy s t.uid = some t ∧ (∀ u ∈ teamsAt s t sc, u.resident = true ∧ savedLeader u sc extent = false) ∧
    ((teamsAt s t sc).flatMap fun u => leadersIn s u sc extent) = ps.map (·.member) ∧ ps ≠ [] ∧
    (∀ p ∈ ps, Arrived s sc p.member p.joined) ∧ (sc ≠ .pod → remote = [])

/-- Every member has arrived with the kind `k`. -/
def AllOf (k : CollKind) (ps : List Present) (remote : List RemoteMember) : Prop :=
  (∀ p ∈ ps, joinedKind p.joined = k) ∧ ∀ m ∈ remote, m.kind = k

/-- Members by rank: by package, then by ordinal (R333). -/
def ByRank (rs : List Ranked) : Prop :=
  rs.Pairwise fun a b => a.package < b.package ∨ (a.package = b.package ∧ a.ordinal ≤ b.ordinal)

/-- The rank of a logit in the tournament: any NaN below every number, −0 equal to +0 (R342). -/
def logitKey (x : Nat) : Int :=
  let magnitude : Nat := x % 2 ^ 31
  if 0x7F800000 < magnitude then -(2 ^ 31 : Nat) else if x / 2 ^ 31 % 2 = 0 then magnitude else -(magnitude : Int)

/-- `v` wins: its logit is the greatest, and no lower identifier has an equal one (R342). -/
def Wins (xs : List Logit) (v : Nat) : Prop :=
  ∃ x, (v, x) ∈ xs ∧ ∀ e ∈ xs, logitKey e.2 < logitKey x ∨ (logitKey e.2 = logitKey x ∧ v ≤ e.1)

/-- The registers that a nucleus draw of this package names: the key's, and the member's own operand. -/
def drawKeyOf : Joined → Option Reg
  | .topp _ b _ _ _ _ => some b
  | _ => none

/-- p within [0, 1], a NaN as 0 (R343). -/
def unitOf (p : Number) : Number :=
  if p.isNan = true ∨ p.less .zero = true then .zero else if Number.one.less p = true then .one else p

/-- e of a token under the greatest logit `m` (R343). -/
def expWeight (m : Number) (x : Nat) : Nat :=
  if (f32 x).isNan = true then 0
  else if (f32 x).compare m = some .eq then 0x3F800000
  else rne32 false (expNum (f32 (rne32 false ((f32 x).sub false m))))

/-- The tokens of a nucleus draw with their weights, by weight descending, ties to the lower identifier, and the running
sums of the weights (R343). -/
structure Nucleus (m : Number) (xs : List Logit) (order : List Logit) (sums : List Nat) : Prop where
  tokens : order.Perm (xs.map fun e => (e.1, expWeight m e.2))
  ordered : order.Pairwise fun a b => b.2 < a.2 ∨ (a.2 = b.2 ∧ a.1 ≤ b.1)
  length : sums.length = order.length
  sum : ∀ k < sums.length, sums.getD k 0 =
    rne32 false ((f32 (if k = 0 then 0 else sums.getD (k - 1) 0)).add false (f32 (order.getD k (0, 0)).2))

end Sys2Proof.Claims

/-- R14, R20, R125: a fetch unit serves the best request: the contexts that wait for its pc under its generation have their
instruction, and every other context stands; memory changes only as the fill of the line does. -/
def Sys2Proof.Claims.FetchDelivery : Prop :=
  ∀ (unit : Nat) (s : State),
    (fetchRequests s unit = [] → exec (.fetchServe unit) s = .next s) ∧
    (∀ r, bestRequest (fetchRequests s unit) = some r →
      ∃ t, exec (.fetchServe unit) s = .next t ∧ (ctxOf t r.id).fetched = true ∧
        (∀ e, fillLine r.id r.pc s = .error e → t.memory = s.memory) ∧
        (∀ l u, fillLine r.id r.pc s = .ok (l, u) → t.memory = u.memory) ∧
        ∀ id, (∀ q ∈ fetchRequests s unit, q.id = id → q.pc ≠ r.pc ∨ q.gen ≠ r.gen) → ctxOf t id = ctxOf s id)

/-- R16, R31, R49, R160: an operation that is over returns its context to the rotation, an `ifence` when the transfers that its
context issued have ended, and a forwarding hold completes when its register lets it. -/
def Sys2Proof.Claims.OperationsComplete : Prop :=
  ∀ (core slot : Nat) (s : State), (ctxOf s ⟨core, slot⟩).status = .live →
    (waitOver s ⟨core, slot⟩ = true → (∀ e, (ctxOf s ⟨core, slot⟩).wait ≠ .ending e) →
      (ctxOf s ⟨core, slot⟩).wait ≠ .ifence →
      exec (.operationComplete core slot) s =
        .next (onCtx s ⟨core, slot⟩ fun x => { x with wait := .none, fetchSince := (coreOf s core).cycle })) ∧
    ((ctxOf s ⟨core, slot⟩).wait = .ifence → (∀ t ∈ (ctxOf s ⟨core, slot⟩).transfers, transferLive s t.2 = false) →
      exec (.operationComplete core slot) s = .next (onCtx s ⟨core, slot⟩ fun x => { x with
        wait := .none, fetchSince := (coreOf s core).cycle, copies := []
        code := withCursor x.code ((capAddr x.code + 4) % 2 ^ 80) })) ∧
    (∀ e, (ctxOf s ⟨core, slot⟩).wait = .ending e → helpersLive s ⟨core, slot⟩ = false →
      exec (.operationComplete core slot) s = .next (endContext s ⟨core, slot⟩ e)) ∧
    (∀ quad v t, (ctxOf s ⟨core, slot⟩).wait = .fwdPut quad v → putFwd s ⟨core, slot⟩ quad v = some t →
      exec (.fwdHoldComplete core slot) s = .next (goOn t ⟨core, slot⟩ 4)) ∧
    (∀ a v t, (ctxOf s ⟨core, slot⟩).wait = .fwdGet a → takeFwd s ⟨core, slot⟩ = some (v, t) →
      exec (.fwdHoldComplete core slot) s = .next (goOn (writeIntIn t ⟨core, slot⟩ a.val 64 v) ⟨core, slot⟩ 4))

/-- R11, R333, R342, R343: when every member of an instance, at pod scope those of other packages too, has arrived with the same
kind, all are released together: a barrier writes nothing, a reduction gives its result over the operands in rank order, a
broadcast the operand of the lowest rank, a tournament the token whose logit wins, a nucleus draw its token under the key and
p of the lowest rank, and all ones where that key does not stand; members that disagree all receive all ones. -/
def Sys2Proof.Claims.BarrierCompletes : Prop :=
  ∀ (s : State) (t : Team) (sc : Scope) (extent : Nat) (ps : List Present) (remote : List RemoteMember),
    InstanceFull s t sc extent ps remote →
    let completes (u : State) : Prop := exec (.barrierComplete t.uid sc extent remote) s = .next u
    ByRank (ranked s ps remote) ∧ (ranked s ps remote).length = ps.length + remote.length ∧
    (AllOf .bar ps remote → completes (releaseAll 0 ps s)) ∧
    (∀ op fmt, AllOf (.red op fmt) ps remote →
      completes (releaseAll (reduceAll op fmt ((ranked s ps remote).map fun r => r.operand.toNat % 2 ^ 64)) ps s)) ∧
    (∀ first rest, AllOf .bc ps remote → ranked s ps remote = first :: rest →
      completes (releaseAll first.operand.toNat ps s)) ∧
    (∀ xs u v, AllOf .top ps remote → gatherLogits ps s = .ok (xs, u) → Wins (xs ++ remoteLogits remote) v →
      completes (releaseAll v ps u)) ∧
    (∀ first rest, AllOf .topp ps remote → ranked s ps remote = first :: rest →
      let p := f32 (first.operand.toNat % 2 ^ 32)
      (first.present = none →
        (first.draw = none → completes (releaseAll (2 ^ 64 - 1) ps s)) ∧
        ∀ g xs u, first.draw = some g → gatherLogits ps s = .ok (xs, u) →
          completes (releaseAll (nucleus p g (xs ++ remoteLogits remote)) ps u)) ∧
      ∀ q b, first.present = some q → drawKeyOf q.joined = some b →
        (∀ u, memberDraw q.member b s = .ok (none, u) → completes (releaseAll (2 ^ 64 - 1) ps u)) ∧
        ∀ g xs u w, memberDraw q.member b s = .ok (some g, u) → gatherLogits ps u = .ok (xs, w) →
          completes (releaseAll (nucleus p g (xs ++ remoteLogits remote)) ps w)) ∧
    ((∃ k ∈ ps.map (fun p => joinedKind p.joined), ∃ k' ∈ ps.map (fun p => joinedKind p.joined) ++ remote.map (·.kind),
        k ≠ k') →
      completes (releaseAll (2 ^ 64 - 1) ps s))

/-- R343: the nucleus draw. Where no logit is a number above −infinity it gives the lowest identifier, with c = 1; else the tokens
stand by weight, c is the smallest k whose sum reaches RNE(p * C_V), and the token drawn the first up to c whose sum exceeds
tau, or that of c. -/
def Sys2Proof.Claims.NucleusDraw : Prop :=
  ∀ (p : Number) (g : BitVec 32) (xs : List Logit), xs ≠ [] →
    ((∀ e ∈ xs, (f32 e.2).isNan = true ∨ f32 e.2 = .inf true) →
      ∃ v ∈ xs.map (·.1), (∀ e ∈ xs, v ≤ e.1) ∧ nucleus p g xs = 2 ^ 32 + v) ∧
    ((∃ e ∈ xs, (f32 e.2).isNan = false ∧ f32 e.2 ≠ .inf true) →
      ∃ top ∈ xs, (∀ e ∈ xs, logitKey e.2 ≤ logitKey top.2) ∧
        ∃ order sums, Nucleus (f32 top.2) xs order sums ∧
          let bound := f32 (rne32 false ((unitOf p).mul (f32 (sums.getLastD 0))))
          ∀ c < sums.length, (f32 (sums.getD c 0)).less bound = false →
            (∀ j < c, (f32 (sums.getD j 0)).less bound = true) →
            let tau := f32 (rne32 false ((uniformNum g).mul (f32 (sums.getD c 0))))
            (∀ k ≤ c, tau.less (f32 (sums.getD k 0)) = true → (∀ j < k, tau.less (f32 (sums.getD j 0)) = false) →
              nucleus p g xs = (c + 1) * 2 ^ 32 + (order.getD k (0, 0)).1) ∧
            ((∀ k ≤ c, tau.less (f32 (sums.getD k 0)) = false) →
              nucleus p g xs = (c + 1) * 2 ^ 32 + (order.getD c (0, 0)).1))

/-- R40 to R45: a grant round of a running route gives the free slots to its pitches, once in a cycle whose number is a
multiple of 64, and reads no queue where no slot is free; a class weight that was 0 is restored. -/
def Sys2Proof.Claims.GrantRounds : Prop :=
  (∀ (core : Nat) (s : State) (t : Team), (coreOf s core).team.bind (teamBy s) = some t →
    (coreOf s core).route.running = true → (coreOf s core).cycle % 64 = 0 → (coreOf s core).rounded = false →
    (badQueue (coreOf s core) = none → (∃ slot < 11, slotFree (coreOf s core) slot = true) →
      exec (.grantRound core) s = .next (grantSlots t ((upFrom 0 4).map (weightOf' s (islandOfCore core))) core
        ((upFrom 0 11).filter (slotFree (coreOf s core))) (onCore s core fun k => { k with rounded := true }))) ∧
    ((∀ slot < 11, slotFree (coreOf s core) slot = false) →
      exec (.grantRound core) s = .next (onCore s core fun k => { k with rounded := true }))) ∧
  (∀ (core : Nat) (s : State), (coreOf s core).cycle % 64 ≠ 0 ∨ (coreOf s core).rounded = true →
    exec (.grantRound core) s = .next s) ∧
  ∀ (island cls weight : Nat) (s : State), (islandOf s island).zeroed.any (·.1 == cls) = true → 1 ≤ weight →
    weight ≤ 16 →
    ∃ t, exec (.weightRestore island cls weight) s = .next t ∧ weightOf' t island cls = weight ∧
      (∀ i, i ≠ island → islandOf t i = islandOf s i) ∧ t.memory = s.memory

/-- R51, R52, R252, R424: a pre-emption stops a context that stands at its boundary and stays pending on another; at a
slice boundary the teams named leave their cores, of the others those that stay start their next slice, and those that are
away enter theirs, in the round that then runs. -/
def Sys2Proof.Claims.SlicesAndPreemption : Prop :=
  (∀ (core slot : Nat) (s : State), slot < 11 →
    ((ctxOf s ⟨core, slot⟩).status = .live → standsAt s ⟨core, slot⟩ = true →
      ∃ t, exec (.contextPreempt core slot) s = .next t ∧ (ctxOf t ⟨core, slot⟩).status = .stopped ∧
        (ctxOf t ⟨core, slot⟩).regs = (ctxOf s ⟨core, slot⟩).regs ∧
        (ctxOf t ⟨core, slot⟩).code = (ctxOf s ⟨core, slot⟩).code ∧ t.memory = s.memory) ∧
    ((ctxOf s ⟨core, slot⟩).status = .live → standsAt s ⟨core, slot⟩ = false →
      exec (.contextPreempt core slot) s = .next (onCtx s ⟨core, slot⟩ fun x => { x with preempt := true }))) ∧
  ∀ (leave enter : List Nat) (s r t u : State), leaveAll leave s = some r → stayAll enter r = some t →
    swapFits t = true → enterAll enter (newRound t) = some u → exec (.sliceBoundary leave enter) s = .next u

namespace Sys2Proof.Claims

/-- A spawn request that the system context of a core takes in this cycle: `u` is the state in which it acts, after the
cycle's grant round; the caller waits for the answer in `dst` (R33, R35). -/
def SpawnTaken (s : State) (core : Nat) (r : SpawnReq) (u : State) (caller : CtxId) (dst args : Reg) : Prop :=
  systemTurn (coreOf s core) = true ∧
    (∃ i, nextArrival (coreOf s core) = some (i, .spawn r) ∧ u = takeArrival (pendingRound core s) core i) ∧
    contextByUid u r.uid = some caller ∧ ∃ n, (ctxOf u caller).wait = .spawn n dst args

/-- The instruction that follows the one a context stands at, of twelve bytes. -/
def afterSpawn (x : Context) : Cap := withCursor x.code ((capAddr x.code + 12) % 2 ^ 80)

end Sys2Proof.Claims

/-- R25, R33 to R35: a spawn request that arrives takes the lowest free user slot of its core; without one the caller runs the
child inline, or traps where its calls are 255 deep. The child has the state that R25 gives it, with its caller's core and slot
in `c5`; the caller goes on with twice the slot's number in its register, or at the child's code with the child's arguments. -/
def Sys2Proof.Claims.SpawnArrivals : Prop :=
  (∀ (k : Core) (slot : Nat), lowestFree k = some slot ↔
    slot < 11 ∧ slotFree k slot = true ∧ ∀ j < slot, slotFree k j = false) ∧
  (∀ (core : Nat) (s u : State) (r : SpawnReq) (caller : CtxId) (dst args : Reg), SpawnTaken s core r u caller dst args →
    (∀ slot t, lowestFree (coreOf u core) = some slot → teamBy u r.team = some t →
      exec (.spawnArrival core) s = .next (spendTurn (placeChild u t core slot r caller dst args) core)) ∧
    (lowestFree (coreOf u core) = none → (ctxOf u caller).calls.length < 255 →
      exec (.spawnArrival core) s = .next (spendTurn (runInline u caller r.code r.args dst args) core)) ∧
    (lowestFree (coreOf u core) = none → 255 ≤ (ctxOf u caller).calls.length →
      exec (.spawnArrival core) s = .next (spendTurn (deliverTrapTo ⟨causeExecution, 6, 0⟩ u caller) core))) ∧
  (∀ (core slot : Nat) (u : State) (t : Team) (r : SpawnReq) (caller : CtxId) (dst args : Reg), slot < 11 →
    caller ≠ ⟨core, slot⟩ →
    let y := placeChild u t core slot r caller dst args
    let x := ctxOf y ⟨core, slot⟩
    x.status = .live ∧ x.kind = .spawned ∧ x.code = r.code ∧ x.wait = .none ∧ x.pin = .none ∧ x.nv = t.nv ∧ x.ne = t.ne ∧
      (∀ i < 4, regOf x (i + 1) = r.args.getD i Cap.null) ∧
      regOf x 5 = Cap.plain (BitVec.ofNat 128 (r.sender.core * 16 + r.sender.slot)) ∧
      (∀ i, 7 ≤ i → i < 64 → regOf x i = Cap.null) ∧
      (ctxOf y caller).wait = .plain ∧ (ctxOf y caller).code = afterSpawn (ctxOf u caller) ∧
      (dst ≠ 0 → regOf (ctxOf y caller) dst.val = Cap.plain (BitVec.ofNat 128 (2 * slot)))) ∧
  ∀ (u : State) (caller : CtxId) (r : SpawnReq) (dst args : Reg),
    let x := ctxOf (runInline u caller r.code r.args dst args) caller
    x.code = r.code ∧ x.calls = ⟨afterSpawn (ctxOf u caller), dst⟩ :: (ctxOf u caller).calls ∧ x.wait = .plain ∧
      ∀ i < 4, regOf x (i + 1) = r.args.getD i Cap.null

/-- R129 to R133, R320: a channel delivers its next piece, and its pointer moves to the end of the piece; a transfer that
faults stops and records its fault, which the swaps that wait for that transfer keep. -/
def Sys2Proof.Claims.CopyDeliveries : Prop :=
  ∀ (core : Nat) (ch : Fin 4) (s : State) (x : Transfer), (channelOf (coreOf s core) ch.val).xfer = some x →
    let c := channelOf (coreOf s core) ch.val
    copyPaused s x.owner = false → landsLater (coreOf s core) x = false →
    (∀ l ∈ pieces (capAddr x.src + c.wp) (pieceEnd x c.wp - c.wp), ownedBefore s x.number l.1 = false) →
    (∀ t, deliverPiece core x c.wp (pieceEnd x c.wp - c.wp) (withoutOwners x.number s) = .ok ((), t) →
      exec (.copyDelivery core ch) s = .next (setChannel (withOwners s t) core ch.val (reached c x (pieceEnd x c.wp)))) ∧
    (∀ e, deliverPiece core x c.wp (pieceEnd x c.wp - c.wp) (withoutOwners x.number s) = .error (.trap e) →
      exec (.copyDelivery core ch) s = .next (onCore s core fun k => { k with
        channels := put k.channels ch.val { c with xfer := none, fault := some e, stopped := true, asked := none }
        held := k.held.map fun h => if h.awaits = some x.number then { h with lost := true } else h }))

/-- R142, R357, R358: Moraine sends a granule whose count is 0 to scrub; a covered allocation completes when its
granules are free, each with count 1, and the view and the status 0 are written. -/
def Sys2Proof.Claims.CoveredStorage : Prop :=
  (∀ (domain granule step : Nat) (s : State), (granuleAt (domainOf s domain) granule).state = .zero step →
    stillReached s ((domainOf s domain).covbase.toNat + granule) = false →
    lowerFirst (domainOf s domain) granule step = false →
    ∃ t, exec (.moraineFree domain granule) s = .next t ∧ (granuleAt (domainOf t domain) granule).state = .scrub ∧
      t.scrub = s.scrub ++ [⟨.granule domain granule, none⟩] ∧ t.memory = s.memory) ∧
  ∀ (core slot base n dom : Nat) (dst status : Reg) (s : State), (ctxOf s ⟨core, slot⟩).status = .live →
    (ctxOf s ⟨core, slot⟩).wait = .covered base n dst status → coverDomain s base = some dom →
    (∀ j ∈ upFrom (base - (domainOf s dom).covbase.toNat) n,
      (granuleAt (domainOf s dom) j).state = .free ∨ (granuleAt (domainOf s dom) j).state = .ready) →
    exec (.coveredAllocation core slot) s =
      .next (goOn (writeIntIn (writeCapIn
        ((upFrom (base - (domainOf s dom).covbase.toNat) n).foldl (fun s j => setGranule s dom j ⟨.covered 1, false⟩) s)
        ⟨core, slot⟩ dst.val (boundedCap viewPerms (base * 65536) (n * 65536))) ⟨core, slot⟩ status.val 64 0)
        ⟨core, slot⟩ 12)

/-- R167, R172: a store on its way becomes visible to the host: it leaves the list, its bytes stand at its address, and memory
outside the sectors it covers stands; an ordered one waits for the earlier stores of its context. -/
def Sys2Proof.Claims.HostVisibility : Prop :=
  ∀ (i : Nat) (s : State) (p : PendingStore), s.pending[i]? = some p →
    ((p.release = true → ∀ q ∈ s.pending.take i, q.uid ≠ p.uid) →
      ∃ t, exec (.hostVisibility i) s = .next t ∧ t.pending.length + 1 = s.pending.length ∧
        (∀ k < p.bytes.length, t.memory.byte (p.address + k) = p.bytes.getD k 0) ∧
        ∀ a, (∀ k < p.bytes.length, (p.address + k) / 64 ≠ a / 64) → t.memory.byte a = s.memory.byte a) ∧
    (p.release = true → (∃ q ∈ s.pending.take i, q.uid = p.uid) → exec (.hostVisibility i) s = .next s)

/-! ### Vector instructions -/

namespace Sys2Proof.Claims

/-- A register index reaches vector register `n` of the context's window (R63, R64). -/
def InV (s : State) (i : Int) (n : Nat) : Prop := 0 ≤ i ∧ i < (me s).nv ∧ i.toNat = n

/-- The register numbers that fields A, B and C of a lane instruction reach (R188). -/
def ReachA (s : State) (a : Reg) (x : VecX) (n : Nat) : Prop := InV s (fieldA s x.index a) n
def ReachB (s : State) (b : Reg) (x : VecX) (n : Nat) : Prop := InV s (fieldB s x.index b) n
def ReachC (s : State) (c : Reg) (x : VecX) (n : Nat) : Prop := InV s (fieldC s x.index c) n

/-- A plain register field in the window. -/
def Plain (s : State) (r : Reg) : Prop := r.val < (me s).nv

/-- A computation that may draw: its value, and the state with the generators it moved. -/
def drawn {α : Type} (m : Draws α) (s : State) : α × State := ((m.run (me s)).1, onMe s fun _ => (m.run (me s)).2)

/-- Register `a` takes new elements of width `w` in the lanes of `mask`. -/
def elemsAfter (a w : Nat) (mask : BitVec 64) (f : Nat → Draws Nat) (s : State) : State :=
  let r := drawn (newElems w (fun j => laneActs mask (laneOf w j)) (vreg (me s) a) f) s
  putV a r.1 r.2

/-- The same, and the instruction of `len` bytes is over. -/
def lanesAfter (len a w : Nat) (mask : BitVec 64) (f : Nat → Draws Nat) (s : State) : State :=
  advance len (elemsAfter a w mask f s)

/-- The elements of an instruction on B and C. -/
def onElems (op : ElemOp) (f : Fmt) (rnd : Option Rm) (s : State) (a b c j : Nat) : Draws Nat :=
  op f (roundingOf (me s) rnd) (laneOf f.width j) (elem (vreg (me s) b) f.width j) (elem (vreg (me s) c) f.width j)
    (elem (vreg (me s) a) f.width j)

/-- The elements of an instruction on B alone. -/
def onElem (op : ElemOp) (f : Fmt) (rnd : Option Rm) (s : State) (a b j : Nat) : Draws Nat :=
  op f (roundingOf (me s) rnd) (laneOf f.width j) (elem (vreg (me s) b) f.width j) 0 (elem (vreg (me s) a) f.width j)

/-- A lane instruction on B and C; `bits` where it acts on whole lanes whatever the format (R264). -/
structure BinaryRow where
  short : Reg → Reg → Reg → Fmt → Instr
  ext : Reg → Reg → Reg → VecX → Instr
  bits : Bool
  op : ElemOp

def binaryRows : List BinaryRow :=
  [⟨.vadd, fun a b c x => .vaddExt a b c false x, false, opAdd false⟩,
    ⟨.vsub, fun a b c x => .vsubExt a b c false x, false, opSub false⟩,
    ⟨.vmul, fun a b c x => .vmulExt a b c false x, false, opMul false⟩, ⟨.vfma, .vfmaExt, false, opFma⟩,
    ⟨.vmin, .vminExt, false, opMin⟩, ⟨.vmax, .vmaxExt, false, opMax⟩, ⟨.vdiv, .vdivExt, false, opDiv⟩,
    ⟨.vand, .vandExt, true, opAnd⟩, ⟨.vor, .vorExt, true, opOr⟩, ⟨.vxor, .vxorExt, true, opXor⟩,
    ⟨.vshl, .vshlExt, false, opShl⟩, ⟨.vshr, .vshrExt, false, opShr⟩, ⟨.vsra, .vsraExt, false, opSra⟩]

structure UnaryRow where
  short : Reg → Reg → Fmt → Instr
  ext : Reg → Reg → VecX → Instr
  bits : Bool
  op : ElemOp

def unaryRows : List UnaryRow :=
  [⟨.vabs, fun a b x => .vabsExt a b false x, false, opAbs false⟩,
    ⟨.vneg, fun a b x => .vnegExt a b false x, false, opNeg false⟩, ⟨.vsqrt, .vsqrtExt, false, opSqrt⟩,
    ⟨.vrsqrt, .vrsqrtExt, false, opRsqrt⟩, ⟨.vexp, .vexpExt, false, opExp⟩, ⟨.vlog, .vlogExt, false, opLog⟩,
    ⟨.vsig, .vsigExt, false, opSig⟩, ⟨.vtanh, .vtanhExt, false, opTanh⟩, ⟨.vmov, .vmovExt, true, opMove⟩]

/-- The range of an integer format (R87). -/
def lowest (f : Fmt) : Int := if f = .n8 then 0 else -(2 ^ (f.width - 1) : Nat)
def highest (f : Fmt) : Int := if f = .n8 then 255 else (2 ^ (f.width - 1) : Nat) - 1

/-- The format whose elements a row acts on. -/
def rowFmt (bits : Bool) (f : Fmt) : Fmt := if bits = true then .s32 else f

end Sys2Proof.Claims

/-- R255 to R264: the element-wise instructions on two sources: every element in an acting lane of `vA` becomes the
result of the table's operation on the elements of `vB`, `vC` and `vA`; nothing else of `vA` changes. -/
def Sys2Proof.Claims.VectorBinary : Prop :=
  (∀ r ∈ binaryRows, ∀ (a b c : Reg) (fmt : Fmt) (s : State), Plain s a → Plain s b → Plain s c →
    exec (r.short a b c fmt) s = .next (lanesAfter 4 a.val (rowFmt r.bits fmt).width (BitVec.allOnes 64)
      (onElems r.op (rowFmt r.bits fmt) none s a.val b.val c.val) s)) ∧
  (∀ r ∈ binaryRows, ∀ (a b c : Reg) (x : VecX) (s : State) (na nb nc : Nat), ReachA s a x na → ReachB s b x nb →
    ReachC s c x nc →
    exec (r.ext a b c x) s = .next (lanesAfter 12 na (rowFmt r.bits x.fmt).width (acting s x.mask)
      (onElems r.op (rowFmt r.bits x.fmt) x.rnd s na nb nc) s)) ∧
  ∀ (a b c : Reg) (x : VecX) (s : State) (na nb nc : Nat), ReachA s a x na → ReachB s b x nb → ReachC s c x nc →
    exec (.vaddExt a b c true x) s = .next (lanesAfter 12 na x.fmt.width (acting s x.mask)
      (onElems (opAdd true) x.fmt x.rnd s na nb nc) s) ∧
    exec (.vsubExt a b c true x) s = .next (lanesAfter 12 na x.fmt.width (acting s x.mask)
      (onElems (opSub true) x.fmt x.rnd s na nb nc) s) ∧
    exec (.vmulExt a b c true x) s = .next (lanesAfter 12 na x.fmt.width (acting s x.mask)
      (onElems (opMul true) x.fmt x.rnd s na nb nc) s)

/-- R255 to R264: the element-wise instructions on one source. -/
def Sys2Proof.Claims.VectorUnary : Prop :=
  (∀ r ∈ unaryRows, ∀ (a b : Reg) (fmt : Fmt) (s : State), Plain s a → Plain s b →
    exec (r.short a b fmt) s = .next (lanesAfter 4 a.val (rowFmt r.bits fmt).width (BitVec.allOnes 64)
      (onElem r.op (rowFmt r.bits fmt) none s a.val b.val) s)) ∧
  (∀ r ∈ unaryRows, ∀ (a b : Reg) (x : VecX) (s : State) (na nb : Nat), ReachA s a x na → ReachB s b x nb →
    exec (r.ext a b x) s = .next (lanesAfter 12 na (rowFmt r.bits x.fmt).width (acting s x.mask)
      (onElem r.op (rowFmt r.bits x.fmt) x.rnd s na nb) s)) ∧
  ∀ (a b : Reg) (x : VecX) (s : State) (na nb : Nat), ReachA s a x na → ReachB s b x nb →
    exec (.vabsExt a b true x) s = .next (lanesAfter 12 na x.fmt.width (acting s x.mask)
      (onElem (opAbs true) x.fmt x.rnd s na nb) s) ∧
    exec (.vnegExt a b true x) s = .next (lanesAfter 12 na x.fmt.width (acting s x.mask)
      (onElem (opNeg true) x.fmt x.rnd s na nb) s)

/-- R189, R256: what new elements do to a register when none is drawn: each element in an acting lane is the new one,
every other element stands, and the generators do not move. -/
def Sys2Proof.Claims.ActingLanes : Prop :=
  ∀ (w : Nat) (acts : Nat → Bool) (v : VReg) (g : Nat → Nat) (x : Context),
    w ∈ [4, 8, 16, 32] → (∀ j, g j < 2 ^ w) →
    ((newElems w acts v fun j => pure (g j)).run x).2 = x ∧
      ∀ j < 2048 / w, elem ((newElems w acts v fun j => pure (g j)).run x).1 w j =
        if acts j = true then g j else elem v w j

/-- R87, R261: the integer results of the lane instructions: exact, and then kept modulo 2^w or clamped to the format's
range under `.sat`. -/
def Sys2Proof.Claims.IntegerLanes : Prop :=
  ∀ (f : Fmt) (r : Rounding) (lane x y z : Nat) (sat : Bool) (k : Context), f.isInt = true →
    let kept (v : Int) : Nat :=
      if sat = true then ((max (lowest f) (min (highest f) v)) % (2 ^ f.width : Nat)).toNat else (v % (2 ^ f.width : Nat)).toNat
    (opAdd sat f r lane x y z).run k = (kept (intValue f x + intValue f y), k) ∧
    (opSub sat f r lane x y z).run k = (kept (intValue f x - intValue f y), k) ∧
    (opMul sat f r lane x y z).run k = (kept (intValue f x * intValue f y), k) ∧
    (opNeg sat f r lane x y z).run k = (kept (-intValue f x), k) ∧
    (opMin f r lane x y z).run k = ((min (intValue f x) (intValue f y) % (2 ^ f.width : Nat)).toNat, k) ∧
    (opMax f r lane x y z).run k = ((max (intValue f x) (intValue f y) % (2 ^ f.width : Nat)).toNat, k)

namespace Sys2Proof.Claims

/-- A new vector register for `vA` from its lanes, and the instruction of `len` bytes is over. -/
def newV (len a : Nat) (v : VReg) (s : State) : State := advance len (putV a v s)

/-- The index of an element: `cC` plus IMM24, modulo the elements of a register (R273). -/
def indexOf (s : State) (c : Reg) (imm : BitVec 24) (f : Fmt) : Nat :=
  (((reg64 s c).toNat + imm.toInt) % (2 ^ 64 : Nat)).toNat % (2048 / f.width)

/-- The value and the fields of `vsplat` outside class 0b00. -/
def splatSource (s : State) : SplatX → BitVec 64
  | .ext c imm _ => BitVec.ofInt 64 ((reg64 s c).toInt + imm.toInt)
  | .lit v _ => v
  | .long v _ => v

/-- The format, the lanes and the register of `vsplat` outside class 0b00. -/
def splatX : SplatX → VecX
  | .ext _ _ x => x
  | .lit _ f => ⟨f, none, .all, .none⟩
  | .long _ x => x

end Sys2Proof.Claims

/-- R264, R273: selection and placement, in both forms: `vsel` takes `vB` where the selector acts and `vC` elsewhere;
`vbcast` one element of `vB` for every lane; `vperm` the element that `vC` names; `vidx` and `vsplat` numbers; `vins`
one element; `vext` gives one to `cA`. -/
def Obligations.VectorPlacement : Prop :=
  (∀ (a b c : Reg) (fmt : Fmt) (s : State), Plain s a → Plain s b →
    (Plain s c → exec (.vsel a b c fmt) s = .next (lanesAfter 4 a.val 32 (BitVec.allOnes 64)
      (fun j => pure (elem (vreg (me s) b.val) 32 j)) s)) ∧
    exec (.vbcast a b c fmt) s = .next (lanesAfter 4 a.val fmt.width (BitVec.allOnes 64)
      (fun _ => pure (elem (vreg (me s) b.val) fmt.width (indexOf s c 0 fmt))) s) ∧
    (Plain s c → exec (.vperm a b c fmt) s = .next (lanesAfter 4 a.val fmt.width (BitVec.allOnes 64)
      (fun j => pure (elem (vreg (me s) b.val) fmt.width (elem (vreg (me s) c.val) fmt.width j % (2048 / fmt.width)))) s)) ∧
    exec (.vext a b c fmt) s =
      .next (advance 4 (writeInt a 64 (extended fmt (elem (vreg (me s) b.val) fmt.width (indexOf s c 0 fmt))) s))) ∧
  (∀ (a b c : Reg) (fmt : Fmt) (s : State), Plain s a →
    exec (.vidx a b fmt) s = .next (lanesAfter 4 a.val fmt.width (BitVec.allOnes 64)
      (fun j => pure (((reg64 s b).toNat + j) % 2 ^ 64)) s) ∧
    exec (.vsplat a c fmt) s = .next (lanesAfter 4 a.val fmt.width (BitVec.allOnes 64)
      (fun _ => pure (reg64 s c).toNat) s) ∧
    exec (.vins a b c fmt) s =
      .next (newV 4 a.val (setElem (vreg (me s) a.val) fmt.width (indexOf s c 0 fmt) (reg s b).bits.toNat) s)) ∧
  (∀ (a b c : Reg) (imm : BitVec 24) (x : VecX) (s : State) (na nb nc : Nat),
    (ReachA s a x na → ReachB s b x nb → ReachC s c x nc →
      exec (.vselExt a b c x) s = .next (lanesAfter 12 na 32 (BitVec.allOnes 64)
        (fun j => pure (elem (vreg (me s) (if laneActs (acting s x.mask) j = true then nb else nc)) 32 j)) s) ∧
      exec (.vpermExt a b c x) s = .next (lanesAfter 12 na x.fmt.width (acting s x.mask)
        (fun j => pure (elem (vreg (me s) nb) x.fmt.width
          (elem (vreg (me s) nc) x.fmt.width j % (2048 / x.fmt.width)))) s)) ∧
    (ReachA s a x na → ReachB s b x nb →
      exec (.vbcastExt a b c imm x) s = .next (lanesAfter 12 na x.fmt.width (acting s x.mask)
        (fun _ => pure (elem (vreg (me s) nb) x.fmt.width (indexOf s c imm x.fmt))) s)) ∧
    (ReachA s a x na →
      exec (.vidxExt a b imm x) s = .next (lanesAfter 12 na x.fmt.width (acting s x.mask)
        (fun j => pure (((reg64 s b).toNat + imm.toInt + j) % (2 ^ 64 : Nat)).toNat) s) ∧
      (laneActs (acting s x.mask) (laneOf x.fmt.width (indexOf s c imm x.fmt)) = true →
        exec (.vinsExt a b c imm x) s = .next (newV 12 na
          (setElem (vreg (me s) na) x.fmt.width (indexOf s c imm x.fmt) (reg s b).bits.toNat) s)) ∧
      (laneActs (acting s x.mask) (laneOf x.fmt.width (indexOf s c imm x.fmt)) = false →
        exec (.vinsExt a b c imm x) s = .next (advance 12 s))) ∧
    (ReachB s b x nb →
      exec (.vextExt a b c imm x) s = .next (advance 12 (writeInt a 64
        (extended x.fmt (elem (vreg (me s) nb) x.fmt.width (indexOf s c imm x.fmt))) s)))) ∧
  ∀ (a : Reg) (w : SplatX) (s : State) (na : Nat), ReachA s a (splatX w) na →
    exec (.vsplatWide a w) s = .next (lanesAfter (match w with
        | .ext _ _ _ => 12
        | .lit _ _ => 12
        | .long _ _ => 20) na (splatX w).fmt.width (acting s (splatX w).mask)
      (fun _ => pure (splatSource s w).toNat) s)

namespace Sys2Proof.Claims

/-- `vaddc` on registers `a`, a + 1 and `b`: the sums, then the compensations (R263). -/
def compensatedTo (a b : Nat) (mask : BitVec 64) (s : State) : State :=
  let pair (j : Nat) : Nat × Nat :=
    compensated (elem (vreg (me s) a) 32 j) (elem (vreg (me s) (a + 1)) 32 j) (elem (vreg (me s) b) 32 j)
  elemsAfter (a + 1) 32 mask (fun j => pure (pair j).2) (elemsAfter a 32 mask (fun j => pure (pair j).1) s)

/-- The dot products of `vB` and `vC` on `vA` (R265). -/
def dotted (f : Fmt) (rnd : Option Rm) (s : State) (a b c i : Nat) : Draws Nat :=
  dotLane f (roundingOf (me s) rnd) (vreg (me s) b) (vreg (me s) c) i (elem (vreg (me s) a) 32 i)

/-- The element of `vB` that destination element `j` of a conversion takes, as a value (R266). -/
def convertSource (s : State) (part : Nat) (src dst : Fmt) (b j : Nat) : Option Number :=
  (convertedFrom src.width dst.width part j).map fun i => valueOf src (elem (vreg (me s) b) src.width i)

/-- The two blocks of `vB` (R267). -/
def packBlock (s : State) (b i : Nat) : List Number := blockValues (vreg (me s) b) i

/-- The element of `vB` that destination element `j` of part `part` takes. -/
def packSource (s : State) (part b j : Nat) : Option Number :=
  if 64 * part ≤ j ∧ j < 64 * part + 64 then some (f32 (elem (vreg (me s) b) 32 (j - 64 * part))) else none

/-- Elements taken where the source has one and kept elsewhere; the flushed lanes count in `%flushcnt` (R97). -/
def flushingElems (a : Nat) (f : Fmt) (mask : BitVec 64) (src : Nat → Option Number) (g : Nat → Number → Draws Nat)
    (s : State) : State :=
  let t := elemsAfter a f.width mask (fun j => match src j with
    | some v => g j v
    | none => pure (elem (vreg (me s) a) f.width j)) s
  addFlushes (flushedLanes f mask src (vreg (me t) a)) t

end Sys2Proof.Claims

/-- R263, R265 to R268: compensated addition, packed dot products, conversions, and the packing and unpacking of scaled
blocks, on every value but a scale that the rule turns away. -/
def Sys2Proof.Claims.VectorConversions : Prop :=
  (∀ (a b c : Reg) (fmt : Fmt) (s : State), Plain s a → Plain s b →
    (a.val + 1 < (me s).nv → exec (.vaddc a b) s = .next (advance 4 (compensatedTo a.val b.val (BitVec.allOnes 64) s))) ∧
    (Plain s c → exec (.vdot a b c fmt) s =
      .next (lanesAfter 4 a.val 32 (BitVec.allOnes 64) (dotted fmt none s a.val b.val c.val) s))) ∧
  ∀ (a b c d : Reg) (x : VecX) (s : State) (na nb nc : Nat), ReachA s a x na → ReachB s b x nb →
    (na + 1 < (me s).nv → exec (.vaddcExt a b x) s = .next (advance 12 (compensatedTo na nb (acting s x.mask) s))) ∧
    (ReachC s c x nc → exec (.vdotExt a b c x) s =
      .next (lanesAfter 12 na 32 (acting s x.mask) (dotted x.fmt x.rnd s na nb nc) s)) ∧
    (∀ (part : Fin 16) (src : Fmt), exec (.vcvt a b part src x) s =
      .next (advance 12 (flushingElems na x.fmt (acting s x.mask) (convertSource s part.val src x.fmt nb)
        (fun j v => convertIn src x.fmt (conversionOf (me s) x.rnd (!holdsAll src x.fmt)) (laneOf x.fmt.width j) v) s))) ∧
    (∀ (part : Fin 16) (kind : PackKind), Plain s d →
      ((kind = .sc → ∀ i < 2, ∀ v ∈ packBlock s nb i, v.isFinite = true) →
        exec (.vpack a d b kind part x) s =
          .next (advance 12 (putScales d.val (if kind = .mx then 8 else 32) (2 * part.val)
            (blockScale kind x.fmt (packBlock s nb 0)).1 (blockScale kind x.fmt (packBlock s nb 1)).1
            (flushingElems na x.fmt (BitVec.allOnes 64) (packSource s part.val nb)
              (fun j v => quantised kind x.fmt (roundingOf (me s) x.rnd)
                (blockScale kind x.fmt (packBlock s nb (if j - 64 * part.val < 32 then 0 else 1)))
                (laneOf x.fmt.width j) v) s)))) ∧
      ((kind = .sc → ∀ i < 2, blockActs (acting s x.mask) i = true →
          badScale (elem (vreg (me s) d.val) 32 (2 * part.val + i)) = false) →
        exec (.vunpk a d b kind part x) s = .next (lanesAfter 12 na 32 (acting s x.mask)
          (fun j => roundIn .f32 (roundingOf (me s) x.rnd) j
            ((valueOf x.fmt (elem (vreg (me s) nb) x.fmt.width (64 * part.val + j))).mul
              (registerScale kind (vreg (me s) d.val) (2 * part.val + j / 32)).2)) s)))

namespace Sys2Proof.Claims

/-- A draw as the format writes it (R119, R276). -/
def asDrawn (f : Fmt) (g : BitVec 32) : Nat := if f = .s32 then g.toNat else uniformBits g

/-- `vkeep`: an element is kept when its lane's draw is below the threshold (R277). -/
def keptBelow (s : State) (c : Reg) (f : Fmt) (b j : Nat) : Draws Nat := do
  let g ← drawLane (laneOf f.width j)
  pure (if g.toNat < (reg s c).bits.toNat % 2 ^ 33 then elem (vreg (me s) b) f.width j else 0)

/-- The counter words and the word chosen of a reproducible draw (R118, R276). -/
def phx (s : State) (b c : Reg) (imm word i : Nat) : BitVec 32 :=
  philoxWord (reg64 s b) i ((reg s c).bits.toNat % 2 ^ 32) ((reg s c).bits.toNat / 2 ^ 32 % 4) imm word

/-- The lanes that `vrope` writes: both of a pair whose first lane acts (R278). -/
def ropeLanes (half : Bool) (mask : BitVec 64) : List Nat :=
  lanes.filter fun j => pairFirst half j == j && laneActs mask j

/-- The mask of those pairs. -/
def ropeMask (half : Bool) (mask : BitVec 64) : BitVec 64 :=
  BitVec.ofNat 64 (packElems 1 (lanes.map fun j => boolNat ((ropeLanes half mask).contains (pairFirst half j))))

/-- The rotated value of lane `j` (R278). -/
def roped (half : Bool) (rnd : Option Rm) (s : State) (p b d j : Nat) : Draws Nat :=
  let r := roundingOf (me s) rnd
  let i := pairFirst half j
  let cs := cosSin ((Number.fin false p 0).mul (f32 (elem (vreg (me s) d) 32 i)))
  roundIn .f32 r j (rotated (r.mode == .rdn) (stepped r.ftz cs.1) (stepped r.ftz cs.2) (f32 (elem (vreg (me s) b) 32 i))
    (f32 (elem (vreg (me s) b) 32 (pairSecond half i))) (j == i))

end Sys2Proof.Claims

/-- R116 to R119, R276 to R278: random draws, drop-out, reproducible draws and rotary position; a position below 2^26. -/
def Sys2Proof.Claims.VectorDraws : Prop :=
  (∀ (a b c : Reg) (fmt : Fmt) (s : State), Plain s a →
    exec (.vrand a fmt) s = .next (lanesAfter 4 a.val 32 (BitVec.allOnes 64)
      (fun i => do let g ← drawLane i; pure (asDrawn fmt g)) s) ∧
    (Plain s b → exec (.vkeep a b c fmt) s =
      .next (lanesAfter 4 a.val fmt.width (BitVec.allOnes 64) (keptBelow s c fmt b.val) s)) ∧
    exec (.vphx a b c fmt) s = .next (lanesAfter 4 a.val 32 (BitVec.allOnes 64)
      (fun i => pure (asDrawn fmt (phx s b c 0 0 i))) s) ∧
    (Plain s b → (reg s c).bits.toNat % 2 ^ 32 < 2 ^ 26 →
      exec (.vrope a b c) s = .next (lanesAfter 4 a.val 32 (ropeMask false (BitVec.allOnes 64))
        (roped false none s ((reg s c).bits.toNat % 2 ^ 32) b.val 0) s))) ∧
  ∀ (a b c d : Reg) (word : Fin 4) (imm : BitVec 24) (half : Bool) (x : VecX) (s : State) (na nb : Nat),
    ReachA s a x na →
    exec (.vrandExt a x) s = .next (lanesAfter 12 na 32 (acting s x.mask)
      (fun i => do let g ← drawLane i; pure (asDrawn x.fmt g)) s) ∧
    (ReachB s b x nb → exec (.vkeepExt a b c x) s =
      .next (lanesAfter 12 na x.fmt.width (acting s x.mask) (keptBelow s c x.fmt nb) s)) ∧
    exec (.vphxExt a b c word imm x) s = .next (lanesAfter 12 na 32 (acting s x.mask)
      (fun i => pure (asDrawn x.fmt (phx s b c imm.toNat word.val i))) s) ∧
    (ReachB s b x nb → Plain s d →
      ((reg s c).bits.toNat % 2 ^ 32 < 2 ^ 26 ∨ ropeLanes half (acting s x.mask) = []) →
      exec (.vropeExt a b c d half x) s = .next (lanesAfter 12 na 32 (ropeMask half (acting s x.mask))
        (roped half x.rnd s ((reg s c).bits.toNat % 2 ^ 32) nb d.val) s))

/-! ### Masks, reductions, scans and sorts -/

/-- R269, R270: a comparison writes the acting bits of its mask and keeps the others; the operations on whole masks. -/
def Sys2Proof.Claims.Masks : Prop :=
  (∀ (a b c : Reg) (cond : CmpCond) (x : VecX) (s : State) (nb nc : Nat), ReachB s b x nb → ReachC s c x nc →
    exec (.vcmp a b c cond x) s = .next (advance 12 (putMask a.val (maskOf fun i =>
      if laneActs (acting s x.mask) i = true then
        condHolds cond (compareLanes x.fmt (elem (vreg (me s) nb) 32 i) (elem (vreg (me s) nc) 32 i))
      else (maskReg (me s) a.val).getLsbD i) s))) ∧
  ∀ (a b c : Reg) (lit : BitVec 64) (s : State),
    let x := maskReg (me s) b.val
    let y := maskReg (me s) c.val
    exec (.mskl a b c .and) s = .next (advance 12 (putMask a.val (x &&& y) s)) ∧
    exec (.mskl a b c .or) s = .next (advance 12 (putMask a.val (x ||| y) s)) ∧
    exec (.mskl a b c .xor) s = .next (advance 12 (putMask a.val (x ^^^ y) s)) ∧
    exec (.mskl a b c .andn) s = .next (advance 12 (putMask a.val (x &&& ~~~y) s)) ∧
    exec (.mskl a b c .not) s = .next (advance 12 (putMask a.val (~~~x) s)) ∧
    exec (.mskp a b .popc) s =
      .next (advance 12 (writeInt a 64 ((List.range 64).filter fun i => x.getLsbD i).length s)) ∧
    (∀ i < 64, x.getLsbD i = true → (∀ j < i, x.getLsbD j = false) →
      exec (.mskp a b .first) s = .next (advance 12 (writeInt a 64 i s))) ∧
    (∀ i < 64, x.getLsbD i = true → (∀ j, i < j → x.getLsbD j = false) →
      exec (.mskp a b .last) s = .next (advance 12 (writeInt a 64 i s))) ∧
    (x = 0 → exec (.mskp a b .first) s = .next (advance 12 (writeInt a 64 64 s)) ∧
      exec (.mskp a b .last) s = .next (advance 12 (writeInt a 64 64 s))) ∧
    exec (.msks a lit) s = .next (advance 12 (putMask a.val lit s)) ∧
    exec (.msksExt a lit .set) s = .next (advance 20 (putMask a.val lit s)) ∧
    exec (.msksExt a lit .or) s = .next (advance 20 (putMask a.val (maskReg (me s) a.val ||| lit) s)) ∧
    exec (.msksExt a lit .and) s = .next (advance 20 (putMask a.val (maskReg (me s) a.val &&& lit) s)) ∧
    exec (.msksExt a lit .andn) s = .next (advance 20 (putMask a.val (maskReg (me s) a.val &&& ~~~lit) s))

namespace Sys2Proof.Claims

/-- The value key of R274. Of FP32: −infinity, the negative numbers, −0 = +0, the positive numbers, +infinity, every NaN;
of INT32 the signed value. -/
def sortKey (f : Fmt) (x : Nat) : Int :=
  let magnitude : Nat := x % 2 ^ 31
  if f = .f32 then
    if 0x7F800000 < magnitude then 2 ^ 31 else if x / 2 ^ 31 = 0 then magnitude else -(magnitude : Int)
  else if x / 2 ^ 31 = 0 then x else (x : Int) - (2 ^ 32 : Nat)

/-- A 32-bit index read signed. -/
def signedIndex (i : Nat) : Int := if i / 2 ^ 31 = 0 then i else (i : Int) - (2 ^ 32 : Nat)

/-- The pair `p` may stand before `q` (R274): by the value key, the lesser first, or the greater under `.desc`; on equal keys
the lower signed index, and on equal indices the lower raw value, in both directions. -/
def Precedes (f : Fmt) (desc : Bool) (p q : SortPair) : Prop :=
  (if desc = true then sortKey f q.1 < sortKey f p.1 else sortKey f p.1 < sortKey f q.1) ∨
    (sortKey f p.1 = sortKey f q.1 ∧
      (signedIndex p.2 < signedIndex q.2 ∨ (signedIndex p.2 = signedIndex q.2 ∧ p.1 ≤ q.1)))

end Sys2Proof.Claims

/-- R271, R272, R274, R275: reductions, scans and sorts, in all their forms. -/
def Sys2Proof.Claims.ReductionsAndSorts : Prop :=
  (∀ (a b : Reg) (op : RedOp) (x : VecX) (s : State) (nb : Nat), ReachB s b x nb →
    exec (.vred a b op x) s = .next (advance 12 (writeInt a 64
      (drawn (reduce op x.fmt (roundingOf (me s) x.rnd) (acting s x.mask) (vreg (me s) nb)) s).1
      (drawn (reduce op x.fmt (roundingOf (me s) x.rnd) (acting s x.mask) (vreg (me s) nb)) s).2))) ∧
  (∀ (a b c d : Reg) (op : ScanOp) (x : VecX) (s : State) (na nb : Nat), ReachA s a x na → ReachB s b x nb →
    let r := drawn (scanLanes op x.fmt (roundingOf (me s) x.rnd) (acting s x.mask) (vreg (me s) na) (vreg (me s) nb)
      ((reg s c).bits.toNat % 2 ^ 32) lanes) s
    exec (.vscan a b c d op x) s =
      .next (advance 12 (writeInt d 32 r.1.2 (putV na (fromLanes r.1.1) r.2)))) ∧
  (∀ (a b c : Reg) (fmt : Fmt) (s : State), Plain s a → Plain s b →
    exec (.vsort a b fmt) s =
      .next (advance 4 (putPairs a.val b.val (sortPairs fmt false (pairsOf (me s) a.val b.val)) s)) ∧
    (Plain s c →
      let ps := sortPairs fmt false (pairsOf (me s) a.val b.val ++ pairsOf (me s) c.val 0)
      exec (.vmerge a b c fmt) s =
        .next (advance 4 (putPairs c.val 0 (ps.drop 64) (putPairs a.val b.val (ps.take 64) s))))) ∧
  ∀ (a b c d : Reg) (desc : Bool) (x : VecX) (s : State) (na nb nc : Nat), ReachA s a x na → ReachB s b x nb →
    exec (.vsortExt a b desc x) s =
      .next (advance 12 (putPairs na nb (sortPairs x.fmt desc (pairsOf (me s) na nb)) s)) ∧
    (ReachC s c x nc → Plain s d →
      let ps := sortPairs x.fmt desc (pairsOf (me s) na nb ++ pairsOf (me s) nc d.val)
      exec (.vmergeExt a b c d desc x) s =
        .next (advance 12 (putPairs nc d.val (ps.drop 64) (putPairs na nb (ps.take 64) s))))

/-- R274: a sort of 32-bit values and indices gives the same pairs in the order of the rule: by value, any NaN greatest and −0
equal to +0, in the direction asked; equal values by signed index, then by raw bits. -/
def Obligations.SortIsOrdered : Prop :=
  ∀ (f : Fmt) (desc : Bool) (ps : List SortPair), f = .f32 ∨ f = .s32 → (∀ p ∈ ps, p.1 < 2 ^ 32 ∧ p.2 < 2 ^ 32) →
    (sortPairs f desc ps).Perm ps ∧ (sortPairs f desc ps).Pairwise (Precedes f desc)

/-! ### Moment instructions -/

namespace Sys2Proof.Claims

/-- A register index reaches moment register `n` of the context's window (R63, R64). -/
def InE (s : State) (i : Int) (n : Nat) : Prop := 0 ≤ i ∧ i < (me s).ne ∧ i.toNat = n

/-- In each acting lane the computation gives the pair `g`, having clamped a variance where `hit` says so. -/
def GivesPairs (mask : BitVec 64) (f : Nat → Mom Pair) (g : Nat → Pair) (hit : Nat → Bool) : Prop :=
  ∀ i < 64, laneActs mask i = true → f i false = some (g i, hit i)

/-- Moment register `a` takes the pairs `g` in the acting lanes and keeps the others; a clamped variance is recorded in
`%covmode` (R115). -/
def pairsInto (a : Nat) (mask : BitVec 64) (g : Nat → Pair) (hit : Nat → Bool) (s : State) : State :=
  let new (i : Nat) : Pair := if laneActs mask i = true then g i else pairAt (ereg (me s) a) i
  setClamped (lanes.any fun i => laneActs mask i && hit i)
    (putE a (fromMoments (lanes.map fun i => ((new i).mean, (new i).var))) s)

/-- What a moment instruction of `len` bytes does with the computation `f`: it writes every acting lane, or where a lane
meets a negative variance it faults with the lowest such lane and writes none (R115). -/
def MomentOutcome (i : Instr) (len a : Nat) (mask : BitVec 64) (f : Nat → Mom Pair) (s : State) : Prop :=
  (∀ g hit, GivesPairs mask f g hit → exec i s = .next (advance len (pairsInto a mask g hit s))) ∧
  ∀ j < 64, laneActs mask j = true → f j false = none → (∀ k < j, laneActs mask k = true → f k false ≠ none) →
    exec i s = .next (deliverTrap ⟨causeVariance, j, 0⟩ s)

/-- One pair of a moment register. -/
def pairOf (s : State) (n i : Nat) : Pair := pairAt (ereg (me s) n) i

/-- The moment instructions on two registers (R107, R108): their forms and their steps. -/
structure MomentsRow where
  short : Reg → Reg → Reg → Instr
  ext : Reg → Reg → Reg → Reg → VecX → Instr
  steps : State → Reg → MomentMode → Number → Number → Number → Number → Number × Number

def momentsRows : List MomentsRow :=
  [⟨.madd, .maddExt, fun s d m => addMoments m false (myRho s d)⟩,
    ⟨.msub, .msubExt, fun s d m => addMoments m true (myRho s d)⟩,
    ⟨.mmul, fun a b c _ x => .mmulExt a b c x, fun _ _ m => mulMoments m⟩]

/-- The moment instructions on one register (R110 to R113). -/
structure MomentRow where
  short : Reg → Reg → Instr
  ext : Reg → Reg → VecX → Instr
  steps : MomentMode → Number → Number → Number × Number

def momentRows : List MomentRow :=
  [⟨.mexp, .mexpExt, expMoments⟩, ⟨.mrelu, .mreluExt, reluMoments⟩, ⟨.msig, .msigExt, sigMoments⟩]

/-- All 64 lanes. -/
def allLanes : BitVec 64 := BitVec.allOnes 64

end Sys2Proof.Claims

/-- R106 to R115, R279 to R281: the moment instructions, in all their forms, on every value: the steps of the table in
each acting lane, or the fault of the lowest lane that meets a negative variance. -/
def Sys2Proof.Claims.MomentArithmetic : Prop :=
  (∀ r ∈ momentsRows, ∀ (a b c d : Reg) (x : VecX) (s : State),
    (a.val < (me s).ne → b.val < (me s).ne → c.val < (me s).ne →
      MomentOutcome (r.short a b c) 4 a.val allLanes (fun i => twoPairs (momentMode (me s)) (r.steps s 0 (momentMode (me s)))
        (pairOf s b.val i) (pairOf s c.val i)) s) ∧
    ∀ na nb nc, InE s (fieldA s x.index a) na → InE s (fieldB s x.index b) nb → InE s (fieldC s x.index c) nc →
      MomentOutcome (r.ext a b c d x) 12 na (acting s x.mask) (fun i => twoPairs (momentMode (me s))
        (r.steps s d (momentMode (me s))) (pairOf s nb i) (pairOf s nc i)) s) ∧
  (∀ r ∈ momentRows, ∀ (a b : Reg) (x : VecX) (s : State),
    (a.val < (me s).ne → b.val < (me s).ne →
      MomentOutcome (r.short a b) 4 a.val allLanes
        (fun i => onePair (momentMode (me s)) (r.steps (momentMode (me s))) (pairOf s b.val i)) s) ∧
    ∀ na nb, InE s (fieldA s x.index a) na → InE s (fieldB s x.index b) nb →
      MomentOutcome (r.ext a b x) 12 na (acting s x.mask)
        (fun i => onePair (momentMode (me s)) (r.steps (momentMode (me s))) (pairOf s nb i)) s) ∧
  ∀ (a b c : Reg) (x : VecX) (s : State),
    (a.val < (me s).ne → b.val < (me s).ne →
      MomentOutcome (.mscl a b c) 4 a.val allLanes (fun i => onePair (momentMode (me s))
        (scaleMoments (momentMode (me s)) (constOf s c)) (pairOf s b.val i)) s ∧
      MomentOutcome (.mmov a b) 4 a.val allLanes (fun i => movedPair (covClamp (me s)) (pairOf s b.val i)) s) ∧
    (a.val < (me s).ne → Plain s b → Plain s c →
      MomentOutcome (.mfrom a b c) 4 a.val allLanes (fun i => movedPair (covClamp (me s))
        ⟨elem (vreg (me s) b.val) 32 i, elem (vreg (me s) c.val) 32 i⟩) s) ∧
    ∀ na nb nc, InE s (fieldA s x.index a) na →
      (InE s (fieldB s x.index b) nb →
        MomentOutcome (.msclExt a b c x) 12 na (acting s x.mask) (fun i => onePair (momentMode (me s))
          (scaleMoments (momentMode (me s)) (constOf s c)) (pairOf s nb i)) s ∧
        MomentOutcome (.mmovExt a b x) 12 na (acting s x.mask)
          (fun i => movedPair (covClamp (me s)) (pairOf s nb i)) s) ∧
      (ReachB s b x nb → ReachC s c x nc →
        MomentOutcome (.mfromExt a b c x) 12 na (acting s x.mask) (fun i => movedPair (covClamp (me s))
          ⟨elem (vreg (me s) nb) 32 i, elem (vreg (me s) nc) 32 i⟩) s)

/-- R115: what a variance operand does: one that is not negative stands; a NaN or a negative one is replaced by +0 and
recorded under CLAMP, and refused without it. -/
def Sys2Proof.Claims.NegativeVariance : Prop :=
  ∀ (clamp : Bool) (v : BitVec 32) (was : Bool),
    (negativeVar v.toNat = true ↔ (f32 v.toNat).isNan = true ∨ (v.getLsbD 31 = true ∧ v ≠ 0x80000000)) ∧
    (negativeVar v.toNat = false → takeVar clamp v.toNat was = some (v.toNat, was)) ∧
    (negativeVar v.toNat = true → takeVar true v.toNat was = some (0, true) ∧ takeVar false v.toNat was = none)

/-- R114, R282: a collapse of pairs that are not negative: each destination element in an acting lane that has a source
lane takes the form's value, the sample drawn before the rounding; the others stand. -/
def Sys2Proof.Claims.MomentCollapse : Prop :=
  ∀ (a b c : Reg) (form : CollForm) (half : Bool) (x : VecX) (s : State) (na nb : Nat) (g : Nat → Pair)
    (hit : Nat → Bool), ReachA s a x na → InE s (fieldB s x.index b) nb →
    let takes (j : Nat) : Bool := laneActs (acting s x.mask) (laneOf x.fmt.width j)
    (∀ j < 2048 / x.fmt.width, takes j = true → ∀ i, collapseSource x.fmt half j = some i →
      movedPair (covClamp (me s)) (pairOf s nb i) false = some (g i, hit i)) →
    exec (.mcoll a b c form half x) s = .next (advance 12 (setClamped
      ((List.range (2048 / x.fmt.width)).any fun j => takes j && ((collapseSource x.fmt half j).any hit))
      (elemsAfter na x.fmt.width (acting s x.mask) (fun j => match collapseSource x.fmt half j with
        | some i => collapseLane (momentMode (me s)) form x.fmt (conversionOf (me s) x.rnd true) (constOf s c) i
            (laneOf x.fmt.width j) (g i)
        | none => pure (elem (vreg (me s) na) x.fmt.width j)) s)))

/-! ### Stash windows and copy channels -/

namespace Sys2Proof.Claims

/-- Two ranges share a number. -/
def Meets (a n b m : Nat) : Prop := a < b + m ∧ b < a + n

/-- What `stash.map` needs (R123): a number not in use, one to 512 units inside the region, apart from the other windows
and from the route's queues, and a destination that is aligned, apart from the others and inside the capability. -/
def MapMay (s : State) (w b : Reg) (off len : Nat) : Prop :=
  look (myCore s).windows w.val = none ∧ 1 ≤ len ∧ len ≤ 512 ∧ off + len ≤ stashUnits (myCore s) ∧
    (∀ x ∈ (myCore s).windows, ¬ Meets off len x.2.offset x.2.length) ∧
    (∀ q ∈ routeQueues (myCore s), ¬ Meets (off * 4096) (len * 4096) q.1 q.2) ∧
    capAddr (reg s b) % 256 = 0 ∧
    (∀ x ∈ (myCore s).windows, ¬ Meets (capAddr (reg s b)) (len * 4096) x.2.base (x.2.length * 4096)) ∧
    capCheck (reg s b) (capAddr (reg s b)) (len * 4096) permLD = none

/-- The window that `stash.map` makes: its access set is the capability's, and every sector is Absent (R123, R124). -/
def newWindow (s : State) (b : Reg) (off len : Nat) : Window :=
  { offset := off, length := len, base := capAddr (reg s b), ld := hasPerm (reg s b) permLD
    st := hasPerm (reg s b) permST, lc := hasPerm (reg s b) permLC, sc := hasPerm (reg s b) permSC, sectors := [] }

/-- The issuing core's windows become `ws`. -/
def withWindows (ws : SMap Window) (s : State) : State := onCore s (who s).core fun k => { k with windows := ws }

/-- No sector of the window is Dirty. -/
def Settled (w : Window) : Prop := ∀ e ∈ w.sectors, e.2.isDirty = false

/-- The variable-latency instruction of `len` bytes is over, from the state its effect left. -/
def slowly (len : Nat) (s : State) : State := removed (advance len s)

/-- What a copy needs of its operands, in the order of R295. -/
structure CopyMay (s : State) (a b c : Reg) (ch : Fin 4) (land : Bool) : Prop where
  resident : isBasecamp (who s).core = false
  stores : land = false → capCheck (reg s a) (capAddr (reg s a)) (reg64 s c).toNat permST = none
  loads : capCheck (reg s b) (capAddr (reg s b)) (reg64 s c).toNat permLD = none
  engine : pinnedByOther (myCore s) (who s).slot (channelPin ch.val) = false
  noRecord : (channelOf (myCore s) ch.val).fault = none
  size : (reg64 s c).toNat % 16 = 0 ∧ 16 ≤ (reg64 s c).toNat ∧ (reg64 s c).toNat ≤ 2 ^ 20
  aligned : capAddr (reg s b) % 16 = 0 ∧ (land = false → capAddr (reg s a) % 16 = 0)
  fits : land = true → (reg64 s a).toNat % 16 = 0 ∧ (reg64 s a).toNat + (reg64 s c).toNat ≤ stagingSize (myCore s)
  owned : land = false → ownedIn s (capAddr (reg s a)) (reg64 s c).toNat = none

/-- The point that a `copy.wait` with a register waits for (R296). -/
def copyPoint (s : State) (b : Reg) (imm : BitVec 24) : Int := (reg64 s b).toNat + imm.toInt

end Sys2Proof.Claims

/-- R122 to R127, R293, R294: a window is mapped where the conditions hold and faults with the first that fails; windows
are written back and removed, at once where no sector is Dirty; the aperture capability of an allowed range. -/
def Obligations.StashWindows : Prop :=
  (∀ (w b : Reg) (off len : Fin 1024) (s : State), isBasecamp (who s).core = false →
    (MapMay s w b off.val len.val → exec (.stashMap w b off len) s =
      .next (advance 12 (withWindows (put (myCore s).windows w.val (newWindow s b off.val len.val)) s))) ∧
    (∀ cond, mapRefusal (myCore s) (reg s b) w.val off.val len.val = some cond →
      exec (.stashMap w b off len) s = .next (deliverTrap ⟨causeStashMap, condInfo w.val cond, 0⟩ s))) ∧
  (∀ (w : Reg) (win : Window) (s : State), isBasecamp (who s).core = false →
    look (myCore s).windows w.val = some win →
    (∀ t, flushWindows true (who s).core [(w.val, win)] s = .ok ((), t) →
      exec (.stashUnmap w) s = .next (slowly 4 t)) ∧
    (∀ t, flushWindows false (who s).core [(w.val, win)] s = .ok ((), t) →
      exec (.stashWb w) s = .next (slowly 4 t)) ∧
    (Settled win → exec (.stashUnmap w) s = .next (slowly 4 (withWindows (drop (myCore s).windows w.val) s)) ∧
      exec (.stashWb w) s = .next (slowly 4 s))) ∧
  (∀ (s t : State), isBasecamp (who s).core = false →
    (flushWindows true (who s).core (myCore s).windows s = .ok ((), t) → exec .stashUnmapExt s = .next (slowly 12 t)) ∧
    (flushWindows false (who s).core (myCore s).windows s = .ok ((), t) → exec .stashWbExt s = .next (slowly 12 t)) ∧
    ((∀ e ∈ (myCore s).windows, Settled e.2) → exec .stashWbExt s = .next (slowly 12 s)) ∧
    ((myCore s).windows = [] → exec .stashUnmapExt s = .next (slowly 12 s))) ∧
  ∀ (a b c : Reg) (s : State) (v : Cap), isBasecamp (who s).core = false →
    (reg64 s b).toNat % 16 = 0 → (reg64 s c).toNat % 16 = 0 → 16 ≤ (reg64 s c).toNat →
    (reg64 s b).toNat + (reg64 s c).toNat ≤ stashUnits (myCore s) * 4096 →
    exactCap (permLD + permST) (apertureBase + (reg64 s b).toNat) (reg64 s c).toNat = some v →
    exec (.stashAp a b c) s = .next (advance 12 (writeCap a v s))

/-- R128 to R132, R295, R296: a copy starts on an idle channel and waits for a busy one; a wait for its end, or for its
pointer, goes on when that has come; a recorded fault is raised there and cleared. -/
def Sys2Proof.Claims.CopyIssue : Prop :=
  ∀ (a b c d : Reg) (ch : Fin 4) (land : Bool) (imm : BitVec 24) (s : State),
    (CopyMay s a b c ch land →
      ((channelOf (myCore s) ch.val).xfer = none →
        exec (.copy a b c ch land) s = .next (slowly 12 (startCopy a b c ch.val land s))) ∧
      ((channelOf (myCore s) ch.val).xfer ≠ none →
        exec (.copy a b c ch land) s = .next (heldOn (.channel ch.val) s))) ∧
    (∀ r : Reg, isBasecamp (who s).core = false → pinnedByOther (myCore s) (who s).slot (channelPin r.val) = false →
      let x := channelOf (myCore s) r.val
      (x.xfer = none → x.fault = none → exec (.copyWait r) s = .next (slowly 4 s)) ∧
      (x.xfer ≠ none → exec (.copyWait r) s = .next (heldOn (.channel r.val) s)) ∧
      (∀ t, x.xfer = none → x.fault = some t →
        exec (.copyWait r) s = .next (deliverTrap t (setChannel s (who s).core r.val { x with fault := none }))) ∧
      (copyPoint s b imm ≤ x.wp ∨ (x.xfer = none ∧ x.fault = none) →
        exec (.copyWaitExt d r b imm) s = .next (slowly 12 (writeInt d 64 x.wp s))) ∧
      (x.wp < copyPoint s b imm → x.xfer ≠ none → exec (.copyWaitExt d r b imm) s =
        .next (heldOn (.point r.val (copyPoint s b imm).toNat) s)))

/-! ### Views -/

namespace Sys2Proof.Claims

/-- Register `b` holds a view over [base, top). -/
def Holds (s : State) (b : Reg) (base top : Nat) : Prop :=
  isView (reg s b) = true ∧ capBounds (reg s b) = some (base, top)

/-- No granule of the list is covered by 65,535 views (R140). -/
def RoomFor (s : State) (gs : List Nat) : Prop := ∀ g ∈ gs, ∀ n, coverCount s g = some n → n < 65535

/-- The register's number holds `v` in the issuing context, with nothing dropped: the view it held moves (R139). -/
def place (r : Reg) (v : Cap) (s : State) : State := onMe s fun x => putReg x r.val v

/-- The granules that only the lower or only the upper part of a split at `x` does not reach: the one they share. -/
def sharedGranule (x : Nat) : List Nat := if x % 65536 = 0 then [] else [x / 65536]

/-- A split at `x`: the lower part stays in `cB`, the upper part goes to `cA`, and a shared granule gains 1 (R139). -/
def splitAt (a b : Reg) (x : Nat) (low high : Cap) (s : State) : State :=
  writeCap a high (place b low ((sharedGranule x).foldl cover s))

/-- A narrowing: the granules outside the new range lose 1, and the view moves to `cA` (R140). -/
def narrowTo (a b : Reg) (base top lo n : Nat) (new : Cap) (s : State) : State :=
  let t := ((granulesOf base top).filter fun g => !(granulesOf lo (lo + n)).contains g).foldl uncover s
  if a = b then place a new t else writeCap a new (place b Cap.null t)

/-- The two parts of a split. -/
def Parts (s : State) (b : Reg) (base top x : Nat) (low high : Cap) : Prop :=
  base < x ∧ x < top ∧ exactCap (capPerms (reg s b)) base (x - base) = some low ∧
    exactCap (capPerms (reg s b)) x (top - x) = some high

/-- The length of a narrowing is inside the view. -/
def Narrows (s : State) (b : Reg) (base top n : Nat) (new : Cap) : Prop :=
  0 < n ∧ base ≤ capAddr (reg s b) ∧ capAddr (reg s b) + n ≤ top ∧
    exactCap (capPerms (reg s b)) (capAddr (reg s b)) n = some new

/-- The park slot of the issuing core becomes `v`, or empty. -/
def parked (k : Reg) (v : Option Cap) (s : State) : State :=
  onCore s (who s).core fun x => { x with parks := match v with
    | some c => put x.parks k.val c
    | none => drop x.parks k.val }

end Sys2Proof.Claims

/-- R136 to R141, R297: the view instructions in both forms: a copy adds a view over every granule; a split and a
narrowing keep the counts right; a drop removes one; a view moves into an empty park slot and out of a full one. -/
def Obligations.Views : Prop :=
  ∀ (a b c k : Reg) (imm : BitVec 24) (s : State),
    (∀ base top, Holds s b base top →
      (RoomFor s (granulesOf base top) →
        exec (.vdup a b) s = .next (slowly 4 (writeCap a (reg s b) ((granulesOf base top).foldl cover s))) ∧
        exec (.vdupExt a b) s = .next (slowly 12 (writeCap a (reg s b) ((granulesOf base top).foldl cover s)))) ∧
      (∀ x low high, Parts s b base top x low high → RoomFor s (sharedGranule x) →
        ((x : Int) = capAddr (reg s b) + (reg64 s c).toInt →
          exec (.vsplit a b c) s = .next (slowly 4 (splitAt a b x low high s))) ∧
        ((x : Int) = capAddr (reg s b) + (secondOperand s (.ext c imm)).toInt →
          exec (.vsplitExt a b c imm) s = .next (slowly 12 (splitAt a b x low high s)))) ∧
      (∀ new, Narrows s b base top (reg64 s c).toNat new →
        exec (.vnarrow a b c) s =
          .next (slowly 4 (narrowTo a b base top (capAddr (reg s b)) (reg64 s c).toNat new s))) ∧
      (∀ new, Narrows s b base top (secondOperand s (.ext c imm)).toNat new →
        exec (.vnarrowExt a b c imm) s = .next (slowly 12
          (narrowTo a b base top (capAddr (reg s b)) (secondOperand s (.ext c imm)).toNat new s))) ∧
      exec (.vdrop b) s = .next (slowly 4 (writeCap b Cap.null s)) ∧
      exec (.vdropExt b) s = .next (slowly 12 (writeCap b Cap.null s)) ∧
      (isBasecamp (who s).core = false → look (myCore s).parks k.val = none →
        exec (.vpark k b) s = .next (advance 4 (parked k (some (reg s b)) (place b Cap.null s))) ∧
        exec (.vparkExt k b) s = .next (advance 12 (parked k (some (reg s b)) (place b Cap.null s))))) ∧
    (∀ v, isBasecamp (who s).core = false → look (myCore s).parks k.val = some v →
      exec (.vtake a k) s = .next (advance 4 (writeCap a v (parked k none s))) ∧
      exec (.vtakeExt a k) s = .next (advance 12 (writeCap a v (parked k none s))))

/-- R298, R358: an allocation of a bad length gives null and status 1, one that no run of granules serves null and status
2; one that a run serves claims its granules and waits for them to be free. -/
def Sys2Proof.Claims.CoveredClaims : Prop :=
  ∀ (a d c : Reg) (imm : BitVec 24) (s : State),
    let n := (secondOperand s (.ext c imm)).toNat
    let x := domainOf s (myDomain s)
    (n % 65536 ≠ 0 ∨ n = 0 ∨ 2 ^ 32 ≤ n →
      exec (.valloc a d c imm) s = .next (slowly 12 (writeInt d 64 1 (writeCap a Cap.null s)))) ∧
    (n % 65536 = 0 → 0 < n → n < 2 ^ 32 →
      (∀ i, i + n / 65536 ≤ x.covgran.toNat → ∃ j, i ≤ j ∧ j < i + n / 65536 ∧ claimable x j = false) →
      exec (.valloc a d c imm) s = .next (slowly 12 (writeInt d 64 2 (writeCap a Cap.null s)))) ∧
    (∀ i, n % 65536 = 0 → 0 < n → n < 2 ^ 32 → (teamOf s (who s)).isSome = true → i + n / 65536 ≤ x.covgran.toNat →
      (∀ j, i ≤ j → j < i + n / 65536 → claimable x j = true) →
      (∀ i' < i, ∃ j, i' ≤ j ∧ j < i' + n / 65536 ∧ claimable x j = false) →
      exec (.valloc a d c imm) s = .next (onMe (claimGranules s (myDomain s) i (n / 65536) true) fun y =>
        { y with wait := .covered (x.covbase.toNat + i) (n / 65536) a d }))

/-! ### Memory instructions -/

namespace Sys2Proof.Claims

/-- An access of `len` bytes has issued: one that carries full order waits until its stores are visible to the host
(R167), any other until it completes (R16). -/
def accessed (len : Nat) (x : MemX) (s : State) : State :=
  if x.order = .full then onMe (advance len s) fun c => { c with wait := .visible } else slowly len s

/-- The instruction raises the capability fault of register `b` with this sub-cause (R79). -/
def CapFaults (i : Instr) (b : Reg) (sub : Sub) (s : State) : Prop :=
  exec i s = .next (deliverTrap ⟨causeCapability, b.val * 8 + sub.code, 0⟩ s)

/-- What a load fills its register with: zeros or copies of the sign above the bytes read (R286). -/
def filled (kind : Kind) (x : Nat) : Nat :=
  match kind with
  | .n8 => x
  | .n16 => x
  | .n32 => x
  | .n64 => x
  | .s8 => ((BitVec.ofNat 8 x).signExtend 64).toNat
  | .s16 => ((BitVec.ofNat 16 x).signExtend 64).toNat
  | .s32 => ((BitVec.ofNat 32 x).signExtend 64).toNat

/-- A scalar load at `va`. -/
def Loads (i : Instr) (len : Nat) (a b : Reg) (kind : Kind) (va : Int) (x : MemX) (s : State) : Prop :=
  (∀ sub, capCheck (reg s b) va (kindSize kind) permLD = some sub → CapFaults i b sub s) ∧
  ∀ bs t, capCheck (reg s b) va (kindSize kind) permLD = none →
    readRange (memActor s b x) va.toNat (kindSize kind) s = .ok (bs, t) →
    exec i s = .next (accessed len x (writeInt a 64 (filled kind (natOfBytes bs)) t))

/-- A scalar store at `va`: the low bytes of `cA`. -/
def Stores (i : Instr) (len : Nat) (a b : Reg) (kind : Kind) (va : Int) (x : MemX) (s : State) : Prop :=
  (∀ sub, capCheck (reg s b) va (kindSize kind) permST = some sub → CapFaults i b sub s) ∧
  ∀ t, capCheck (reg s b) va (kindSize kind) permST = none →
    writeRange (memActor s b x) va.toNat (bytesOf (kindSize kind) (reg s a).bits.toNat) s = .ok ((), t) →
    exec i s = .next (accessed len x t)

/-- A capability load at `va`: the tag comes only through LC (R62). -/
def CapLoads (i : Instr) (len : Nat) (a b : Reg) (va : Int) (x : MemX) (s : State) : Prop :=
  (∀ sub, capCheck (reg s b) va 16 permLD = some sub → CapFaults i b sub s) ∧
  (capCheck (reg s b) va 16 permLD = none → va % 16 ≠ 0 → CapFaults i b .align s) ∧
  ∀ bs tag t, capCheck (reg s b) va 16 permLD = none → va % 16 = 0 →
    readPiece (memActor s b x) va.toNat 16 rightLD s = .ok ((bs, tag), t) →
    exec i s = .next (accessed len x
      (writeCap a ⟨tag && hasPerm (reg s b) permLC, BitVec.ofNat 128 (natOfBytes bs)⟩ t))

/-- A store of `v` through the capability `c` is allowed (R62): a tagged value needs SC, and one that is not global SY. -/
def MayStoreCap (c v : Cap) : Prop :=
  v.tag = true → hasPerm c permSC = true ∧ (hasPerm v permGL = true ∨ hasPerm c permSY = true)

/-- A capability store at `va`: a view is never stored (R140). -/
def CapStores (i : Instr) (len : Nat) (a b : Reg) (va : Int) (x : MemX) (s : State) : Prop :=
  (∀ sub, capCheck (reg s b) va 16 permST = some sub → CapFaults i b sub s) ∧
  (capCheck (reg s b) va 16 permST = none → va % 16 ≠ 0 → CapFaults i b .align s) ∧
  (capCheck (reg s b) va 16 permST = none → va % 16 = 0 → isView (reg s a) = true →
    exec i s = .next (deliverTrap ⟨causeView, condInfo a.val 1, 0⟩ s)) ∧
  (capCheck (reg s b) va 16 permST = none → va % 16 = 0 → isView (reg s a) = false → ¬ MayStoreCap (reg s b) (reg s a) →
    CapFaults i b .perm s) ∧
  ∀ t, capCheck (reg s b) va 16 permST = none → va % 16 = 0 → MayStoreCap (reg s b) (reg s a) →
    isView (reg s a) = false →
    writePiece (memActor s b x) va.toNat (bytesOf 16 (reg s a).bits.toNat) (reg s a).tag rightST s = .ok ((), t) →
    exec i s = .next (accessed len x t)

end Sys2Proof.Claims

/-- R62, R140, R158, R192, R283, R286: scalar and capability loads and stores, in both forms: the capability check first, then
the alignment of a capability access, then the access; a failed check has no other effect. -/
def Obligations.ScalarAccesses : Prop :=
  ∀ (a b : Reg) (kind : Kind) (off : Fin 16) (x : MemX) (s : State),
    Loads (.ld a b kind off) 4 a b kind (capAddr (reg s b) + off.val * kindSize kind) plainX s ∧
    Loads (.ldExt a b kind x) 12 a b kind (longAddr s b x (kindSize kind)) x s ∧
    Stores (.st a b kind off) 4 a b kind (capAddr (reg s b) + off.val * kindSize kind) plainX s ∧
    Stores (.stExt a b kind x) 12 a b kind (longAddr s b x (kindSize kind)) x s ∧
    CapLoads (.cld a b off) 4 a b (capAddr (reg s b) + off.val * 16) plainX s ∧
    CapLoads (.cldExt a b x) 12 a b (longAddr s b x 16) x s ∧
    CapStores (.cst a b off) 4 a b (capAddr (reg s b) + off.val * 16) plainX s ∧
    CapStores (.cstExt a b x) 12 a b (longAddr s b x 16) x s

namespace Sys2Proof.Claims

/-- Every acting lane passes the check of its `size` bytes and is aligned to 4 (R287). -/
def LanesMay (s : State) (b : Reg) (mask : BitVec 64) (at' : Nat → Int) (size perms : Nat) : Prop :=
  ∀ i < 64, laneActs mask i = true → capCheck (reg s b) (at' i) size perms = none ∧ at' i % 4 = 0

/-- What a lane access of a capability register raises: the lowest acting lane that fails decides. -/
def LanesFault (i : Instr) (b : Reg) (mask : BitVec 64) (at' : Nat → Int) (size perms : Nat) (s : State) : Prop :=
  ∀ j < 64, laneActs mask j = true →
    (∀ k < j, laneActs mask k = true → capCheck (reg s b) (at' k) size perms = none ∧ at' k % 4 = 0) →
    (∀ sub, capCheck (reg s b) (at' j) size perms = some sub → CapFaults i b sub s) ∧
    (capCheck (reg s b) (at' j) size perms = none → at' j % 4 ≠ 0 → CapFaults i b .align s)

/-- A vector load: the acting lanes are loaded, the others stand. -/
def VecLoads (i : Instr) (len : Nat) (a b : Reg) (mask : BitVec 64) (at' : Nat → Int) (x : MemX) (s : State) : Prop :=
  LanesFault i b mask at' 4 permLD s ∧
  ∀ got t, LanesMay s b mask at' 4 permLD → loadLanes (memActor s b x) 4 (laneAddrs mask at') s = .ok (got, t) →
    exec i s = .next (accessed len x (putV a.val (fromLanes (lanes.map fun j =>
      match got.find? (·.1 == j) with
      | some v => v.2
      | none => (lane (vreg (me s) a.val) j).toNat)) t))

/-- A vector store: the acting lanes are stored, in ascending order. -/
def VecStores (i : Instr) (len : Nat) (a b : Reg) (mask : BitVec 64) (at' : Nat → Int) (x : MemX) (s : State) : Prop :=
  LanesFault i b mask at' 4 permST s ∧
  ∀ t, LanesMay s b mask at' 4 permST →
    storeLanes (memActor s b x) 4 (fun j => (lane (vreg (me s) a.val) j).toNat) (laneAddrs mask at')
      (laneAddrs mask at') s = .ok ((), t) →
    exec i s = .next (accessed len x t)

/-- A moment load: eight bytes a lane. -/
def MomLoads (i : Instr) (len : Nat) (a b : Reg) (mask : BitVec 64) (at' : Nat → Int) (x : MemX) (s : State) : Prop :=
  LanesFault i b mask at' 8 permLD s ∧
  ∀ got t, LanesMay s b mask at' 8 permLD → loadLanes (memActor s b x) 8 (laneAddrs mask at') s = .ok (got, t) →
    exec i s = .next (accessed len x (putE a.val (BitVec.ofNat 4096 (packElems 64 (lanes.map fun j =>
      match got.find? (·.1 == j) with
      | some v => v.2
      | none => momentBits (ereg (me s) a.val) j))) t))

/-- A moment store. -/
def MomStores (i : Instr) (len : Nat) (a b : Reg) (mask : BitVec 64) (at' : Nat → Int) (x : MemX) (s : State) : Prop :=
  LanesFault i b mask at' 8 permST s ∧
  ∀ t, LanesMay s b mask at' 8 permST →
    storeLanes (memActor s b x) 8 (momentBits (ereg (me s) a.val)) (laneAddrs mask at') (laneAddrs mask at') s =
      .ok ((), t) →
    exec i s = .next (accessed len x t)

/-- The address of a lane of a gather or scatter: the cursor, IMM24 and four times the signed lane of `vI` (R288). -/
def gatherAddr (s : State) (b : Reg) (x : MemX) (i : Nat) : Int :=
  capAddr (reg s b) + x.imm.toInt + 4 * (lane (vreg (me s) x.index.val) i).toInt

end Sys2Proof.Claims

/-- R158, R287, R288: vector and moment loads and stores, gather and scatter, in all their forms, with registers inside
the window. -/
def Obligations.LaneAccesses : Prop :=
  ∀ (a b : Reg) (m : MaskSel) (off : Fin 16) (x : MemX) (s : State),
    (Plain s a →
      VecLoads (.vld a b off) 4 a b allLanes (fun i => capAddr (reg s b) + off.val * 256 + 4 * i) plainX s ∧
      VecLoads (.vldExt a b m x) 12 a b (acting s m) (fun i => longAddr s b x 256 + 4 * i) x s ∧
      VecStores (.vst a b off) 4 a b allLanes (fun i => capAddr (reg s b) + off.val * 256 + 4 * i) plainX s ∧
      VecStores (.vstExt a b m x) 12 a b (acting s m) (fun i => longAddr s b x 256 + 4 * i) x s ∧
      (Plain s x.index → VecLoads (.vgath a b m x) 12 a b (acting s m) (gatherAddr s b x) x s ∧
        VecStores (.vscat a b m x) 12 a b (acting s m) (gatherAddr s b x) x s)) ∧
    (a.val < (me s).ne →
      MomLoads (.eld a b off) 4 a b allLanes (fun i => capAddr (reg s b) + off.val * 512 + 8 * i) plainX s ∧
      MomLoads (.eldExt a b m x) 12 a b (acting s m) (fun i => longAddr s b x 512 + 8 * i) x s ∧
      MomStores (.est a b off) 4 a b allLanes (fun i => capAddr (reg s b) + off.val * 512 + 8 * i) plainX s ∧
      MomStores (.estExt a b m x) 12 a b (acting s m) (fun i => longAddr s b x 512 + 8 * i) x s)

namespace Sys2Proof.Claims

/-- The new value of a location of `w` bits that holds `m`, with operand `y` (R289). -/
def atomicValue (op : AmoOp) (w m y : Nat) : Nat :=
  match op with
  | .swap => y
  | .add => (m + y) % 2 ^ w
  | .and => m &&& y
  | .or => m ||| y
  | .xor => m ^^^ y
  | .min => if (BitVec.ofNat w y).toInt < (BitVec.ofNat w m).toInt then y else m
  | .max => if (BitVec.ofNat w y).toInt > (BitVec.ofNat w m).toInt then y else m
  | .minn => min m y
  | .maxn => max m y

/-- The low `n` bytes of a register. -/
def lowOf (s : State) (r : Reg) (n : Nat) : Nat := (reg s r).bits.toNat % 2 ^ (8 * n)

/-- An atomic of `n` bytes at `va` may go on. -/
def AtomicMay (s : State) (b : Reg) (va : Int) (n : Nat) : Prop :=
  capCheck (reg s b) va n (permLD + permST + permAT) = none ∧ va % n = 0

/-- What it raises otherwise. -/
def AtomicFaults (i : Instr) (s : State) (b : Reg) (va : Int) (n : Nat) : Prop :=
  (∀ sub, capCheck (reg s b) va n (permLD + permST + permAT) = some sub → CapFaults i b sub s) ∧
  (capCheck (reg s b) va n (permLD + permST + permAT) = none → va % n ≠ 0 → CapFaults i b .align s)

end Sys2Proof.Claims

/-- R289 to R291: the atomics: an `amo` writes the value of its operation and gives the old one; a `cas` and a `ccas`
write only where the old value is the one expected. -/
def Obligations.Atomics : Prop :=
  ∀ (a b d : Reg) (op : AmoOp) (narrow : Bool) (x : MemX) (s : State),
    let n := if narrow = true then 4 else 8
    let va := longAddr s b x n
    let actor := memActor s b x
    AtomicFaults (.amo a b d op narrow x) s b va n ∧ AtomicFaults (.cas a b d narrow x) s b va n ∧
    AtomicFaults (.ccas a b d x) s b (longAddr s b x 16) 16 ∧
    (∀ bs tag t u, AtomicMay s b va n → readPiece actor va.toNat n rightAtomic s = .ok ((bs, tag), t) →
      (writePiece actor va.toNat (bytesOf n (atomicValue op (8 * n) (natOfBytes bs) (lowOf s d n))) false rightAtomic t =
          .ok ((), u) →
        exec (.amo a b d op narrow x) s = .next (accessed 12 x (writeInt a 64 (natOfBytes bs) u))) ∧
      (natOfBytes bs = lowOf s a n →
        writePiece actor va.toNat (bytesOf n (lowOf s d n)) false rightAtomic t = .ok ((), u) →
        exec (.cas a b d narrow x) s = .next (accessed 12 x (writeInt a 64 (natOfBytes bs) u))) ∧
      (natOfBytes bs ≠ lowOf s a n →
        exec (.cas a b d narrow x) s = .next (accessed 12 x (writeInt a 64 (natOfBytes bs) t)))) ∧
    (∀ bs tag t u, AtomicMay s b (longAddr s b x 16) 16 → isView (reg s d) = false →
      readPiece actor (longAddr s b x 16).toNat 16 rightAtomic s = .ok ((bs, tag), t) →
      let old : Cap := ⟨tag && hasPerm (reg s b) permLC, BitVec.ofNat 128 (natOfBytes bs)⟩
      (old ≠ reg s a → exec (.ccas a b d x) s = .next (accessed 12 x (writeCap a old t))) ∧
      (old = reg s a → MayStoreCap (reg s b) (reg s d) →
        writePiece actor (longAddr s b x 16).toNat (bytesOf 16 (reg s d).bits.toNat) (reg s d).tag rightAtomic t =
          .ok ((), u) →
        exec (.ccas a b d x) s = .next (accessed 12 x (writeCap a old u))))

/-- R166, R292, R309: a fence waits while anything before it is under way in its scope, raises a failure of a message of
its scope and clears it, and otherwise goes on. -/
def Sys2Proof.Claims.Fences : Prop :=
  ∀ (sc : Scope) (s : State),
    (fenceWaits s (who s) sc = true → exec (.fence sc) s = .next (heldOn (.fence sc) s)) ∧
    (fenceWaits s (who s) sc = false →
      (∀ f ∈ (me s).failures, scopeCovers s (who s).core sc f.2.1 = false) →
      exec (.fence sc) s = .next (slowly 12 (onMe s fun x => { x with transfers := [] }))) ∧
    (∀ f earlier later, fenceWaits s (who s) sc = false → (me s).failures = earlier ++ f :: later →
      (∀ g ∈ earlier, scopeCovers s (who s).core sc g.2.1 = false) → scopeCovers s (who s).core sc f.2.1 = true →
      exec (.fence sc) s = .next (deliverTrap ⟨causeMessage, f.2.2, 0⟩
        (onMe s fun x => { x with failures := x.failures.filter (· != f) })))

/-! ### The position map, KV pages, Cairn and admission -/

namespace Sys2Proof.Claims

/-- The key in `cB` (R145). -/
def keyIn (s : State) (b : Reg) : Key := keyOf (reg s b).bits.toNat

/-- A key that names a whole sequence (R303). -/
def SequenceKey (s : State) (b : Reg) : Prop :=
  (keyIn s b).clean = true ∧ (keyIn s b).layer = 0 ∧ (keyIn s b).block = 0

/-- The entry of the issuing core's map buffer becomes `e`, or empty. -/
def withEntry (i : Nat) (e : Option PmEntry) (s : State) : State :=
  onCore s (who s).core fun k => { k with posmap := match e with
    | some x => put k.posmap i x
    | none => drop k.posmap i }

/-- The row width in bytes and the registers that a row takes (R302). -/
def rowBytes (x : Desc) : Nat := x.size 0 * x.fmt.width / 8
def rowRegs (x : Desc) : Nat := max 1 (rowBytes x / 256)

/-- What `kv.app` needs of its operands: the runs inside the window, a KV descriptor, a clean key (R302). -/
structure KvMay (s : State) (b d e : Reg) (n : Nat) (x : Desc) : Prop where
  runs : d.val + rowRegs x ≤ (me s).nv ∧ e.val + rowRegs x ≤ (me s).nv
  desc : Machine.descOf s n = x ∧ x.valid = true ∧ kvDesc x = true
  key : (keyIn s b).clean = true

/-- The status goes to `cA`, and the instruction is over. -/
def answered (len : Nat) (a : Reg) (status : Nat) (s : State) : State := slowly len (writeInt a 64 status s)

/-- The position that is appended. -/
def positionIn (s : State) (c : Reg) : Nat := (reg64 s c).toNat % 2 ^ 32

end Sys2Proof.Claims

/-- R145, R146, R245, R300, R301: a lookup that hits gives the page's capability; one that misses enters the refill
handler of the team, or faults where the rule says so; a fill writes or empties its entry. -/
def Sys2Proof.Claims.PositionMap : Prop :=
  ∀ (a b c : Reg) (i : Fin 256) (s : State),
    (∀ v, (keyIn s b).clean = true → mapHit s (reg s b).bits = some v →
      exec (.pmLook a b) s = .next (advance 12 (writeCap a v (onMe s fun x => { x with refilled := none })))) ∧
    ((keyIn s b).clean = false ∨ mapHit s (reg s b).bits = none →
      (∀ t entry, (me s).handler = .none → teamOf s (who s) = some t → t.refill = some entry →
        (me s).refilled ≠ some ((reg s b).bits, capAddr (me s).code) →
        exec (.pmLook a b) s = .next (onMe (dropShadow s (who s) 1) fun x => { x with
          handler := .refill (reg s b).bits x.code, emptied := false, code := teamCode t entry,
          shadow := putD x.shadow 0 (Cap.plain (reg s b).bits) Cap.null })) ∧
      ((me s).handler.active = true →
        exec (.pmLook a b) s = .next (deliverTrap ⟨causePositionMap, 1, 0⟩ s)) ∧
      ((me s).handler = .none → (∀ t, teamOf s (who s) = some t → t.refill = none) →
        exec (.pmLook a b) s = .next (deliverTrap ⟨causePositionMap, 2, 0⟩ s)) ∧
      (∀ t entry, (me s).handler = .none → teamOf s (who s) = some t → t.refill = some entry →
        (me s).refilled = some ((reg s b).bits, capAddr (me s).code) →
        exec (.pmLook a b) s =
          .next (deliverTrap ⟨causePositionMap, 3, 0⟩ (onMe s fun x => { x with refilled := none })))) ∧
    exec (.pmFill b 0 i) s = .next (advance 12 (withEntry i.val none s)) ∧
    (c ≠ 0 → (keyIn s b).clean = true → (reg s c).tag = true → wholePage s (myDomain s) (reg s c) = true →
      exec (.pmFill b c i) s =
        .next (advance 12 (withEntry i.val (some ⟨(reg s b).bits, reg s c, (me s).uid⟩) s))) ∧
    (c ≠ 0 → (keyIn s b).clean = false ∨ (reg s c).tag = false ∨ wholePage s (myDomain s) (reg s c) = false →
      exec (.pmFill b c i) s = .next (deliverTrap ⟨causePositionMap, 4, 0⟩ s))

/-- R143 to R151, R302: an append gives its status: 5 for a slot that is unknown or a stale generation, which is counted;
then 7, 4 and 3 for what the record refuses; else the status of the append itself, which writes the rows. -/
def Sys2Proof.Claims.KvAppends : Prop :=
  ∀ (a b c d e : Reg) (n : Fin 256) (s : State) (x : Desc), KvMay s b d e n.val x →
    let key := keyIn s b
    let p := positionIn s c
    let block := 32768 / rowBytes x
    (∀ status t, appendRows key (reg s b).bits p (rowBytes x) (runBytes s d.val (rowRegs x) (rowBytes x))
        (runBytes s e.val (rowRegs x) (rowBytes x)) s = .ok (status, t) →
      exec (.kvApp a b c d e n) s = .next (answered 12 a status t)) ∧
    ((domainOf s (myDomain s)).seqCount ≤ key.seq →
      exec (.kvApp a b c d e n) s = .next (answered 12 a 5 (countStale s))) ∧
    (∀ r t, key.seq < (domainOf s (myDomain s)).seqCount →
      readRecord (myEngine s) (myDomain s) key.seq s = .ok (r, t) →
      (r.gen ≠ key.gen → exec (.kvApp a b c d e n) s = .next (answered 12 a 5 (countStale t))) ∧
      (r.gen = key.gen → r.state ≠ 2 ∨ block ≠ 2 ^ r.logp ∨ r.nl ≤ key.layer →
        exec (.kvApp a b c d e n) s = .next (answered 12 a 7 t)) ∧
      (r.gen = key.gen → r.state = 2 → block = 2 ^ r.logp → key.layer < r.nl →
        (p = 2 ^ 32 - 1 → exec (.kvApp a b c d e n) s = .next (answered 12 a 4 t)) ∧
        (p ≠ 2 ^ 32 - 1 → r.rlen ≤ p → exec (.kvApp a b c d e n) s = .next (answered 12 a 3 t))))

/-- R149 to R154: the counts of pages: one reference more, and one less, which sends a page without references to
scrub; no other page of the domain changes. -/
def Sys2Proof.Claims.PageCounts : Prop :=
  ∀ (s : State) (dom i : Nat),
    kvCount (domainOf (raiseCount s dom i) dom) i = kvCount (domainOf s dom) i + 1 ∧
    (2 ≤ kvCount (domainOf s dom) i →
      kvCount (domainOf (lowerCount s dom i) dom) i = kvCount (domainOf s dom) i - 1 ∧
        (lowerCount s dom i).scrub = s.scrub) ∧
    (kvCount (domainOf s dom) i ≤ 1 →
      kvPage (domainOf (lowerCount s dom i) dom) i = .scrub ∧
        (lowerCount s dom i).scrub = s.scrub ++ [⟨.kv dom i, none⟩]) ∧
    ∀ j, j ≠ i → kvPage (domainOf (raiseCount s dom i) dom) j = kvPage (domainOf s dom) j ∧
      kvPage (domainOf (lowerCount s dom i) dom) j = kvPage (domainOf s dom) j

namespace Sys2Proof.Claims

/-- The token count and the tree of `cD` (R303). -/
def countIn (s : State) (d : Reg) : Nat := (reg64 s d).toNat % 2 ^ 32
def treeIn (s : State) (d : Reg) : Option Cairn := treeOf s ((reg64 s d).toNat / 2 ^ 32)

/-- The token list of a Cairn instruction may be read. -/
def TokensMay (s : State) (c d : Reg) : Prop :=
  capCheck (reg s c) (capAddr (reg s c)) (4 * countIn s d) permLD = none

/-- A status in the upper half and a count in the lower. -/
def pairWord (status low : Nat) : Nat := status * 2 ^ 32 + low

end Sys2Proof.Claims

/-- R303 to R305: the Cairn instructions: an unknown tree gives status 3 before the key is examined; a stale key 2; a
slot in the wrong state 1 or 10; else the outcome of the match, the insertion or the release. -/
def Sys2Proof.Claims.CairnInstructions : Prop :=
  ∀ (a b c d : Reg) (s : State), TokensMay s c d →
    (treeIn s d = none →
      exec (.cairnLook a b c d) s = .next (answered 12 a (pairWord 3 0) s) ∧
      exec (.cairnIns a b c d) s = .next (answered 12 a (pairWord 3 0) s) ∧
      exec (.cairnRel a c d) s = .next (answered 12 a (pairWord 3 0) s)) ∧
    ∀ tree, treeIn s d = some tree →
      (SequenceKey s b → ∀ found t, sequenceRecord (keyIn s b) s = .ok (found, t) →
        let whole := countIn s d / 2 ^ tree.logp * 2 ^ tree.logp
        (found = none →
          exec (.cairnLook a b c d) s = .next (answered 12 a (pairWord 2 0) t) ∧
          exec (.cairnIns a b c d) s = .next (answered 12 a (pairWord 2 whole) t)) ∧
        (∀ r, found = some r → r.state ≠ 0 →
          exec (.cairnLook a b c d) s = .next (answered 12 a (pairWord 1 0) t)) ∧
        (∀ r, found = some r → r.state ≠ 2 →
          exec (.cairnIns a b c d) s = .next (answered 12 a (pairWord 10 whole) t)) ∧
        (∀ r toks u status v, found = some r → r.state = 0 → readTokens c (countIn s d) t = .ok (toks, u) →
          cairnMatch tree (keyIn s b) r toks u = .ok (status, v) →
          exec (.cairnLook a b c d) s = .next (answered 12 a status v)) ∧
        (∀ r toks u status v, found = some r → r.state = 2 → readTokens c whole t = .ok (toks, u) →
          cairnInsert tree r toks (countIn s d / 2 ^ tree.logp) u = .ok (status, v) →
          exec (.cairnIns a b c d) s = .next (answered 12 a (pairWord status whole) v))) ∧
      (countIn s d = 0 ∨ countIn s d % 2 ^ tree.logp ≠ 0 →
        exec (.cairnRel a c d) s = .next (answered 12 a (pairWord 9 0) s)) ∧
      (∀ toks t status u, countIn s d ≠ 0 → countIn s d % 2 ^ tree.logp = 0 →
        readTokens c (countIn s d) s = .ok (toks, t) → cairnRelease tree toks t = .ok (status, u) →
        exec (.cairnRel a c d) s = .next (answered 12 a (pairWord status 0) u))

namespace Sys2Proof.Claims

/-- Parameters that a reservation refuses (R306): no prompt, a length past 2^32 - 1, reserved bits, a block size outside
8 to 512 tokens, more blocks than the map holds, or geometry that differs from the match's. -/
def ReserveRefused (r : Rec) (lp ln x : Nat) : Prop :=
  let p := x / 256 % 16
  lp = 0 ∨ 2 ^ 32 - 1 < lp + ln ∨ x / 2 ^ 12 ≠ 0 ∨ p < 3 ∨ 9 < p ∨ r.mb < (lp + ln + 2 ^ p - 1) / 2 ^ p ∨
    (r.state = 1 ∧ (p ≠ r.logp ∨ x % 256 + 1 ≠ r.nl))

/-- Pages that the sequence needs: layers times the blocks that the match does not fill (R152). -/
def pagesWanted (r : Rec) (lp ln x : Nat) : Nat :=
  let m := if r.state = 0 then 0 else r.matched
  (x % 256 + 1) * ((lp + ln + 2 ^ (x / 256 % 16) - 1) / 2 ^ (x / 256 % 16) - m / 2 ^ (x / 256 % 16))

/-- The record of an admitted sequence (R306). -/
def admittedRecord (r : Rec) (lp ln x : Nat) : Rec :=
  ((((((r.set 255 224 (pagesWanted r lp ln x)).set 191 160 (lp + ln)).set 159 128
    (if r.state = 0 then 0 else r.matched)).set 43 40 (x / 256 % 16)).set 39 32 (x % 256)).set 1 0 2)

end Sys2Proof.Claims

/-- R152, R306, R307: a reservation is refused by its first failing condition, or writes the admitted record; the end of
a sequence releases it and gives its new generation. -/
def Sys2Proof.Claims.Admission : Prop :=
  ∀ (a b c d : Reg) (s : State), SequenceKey s b → ∀ found t, sequenceRecord (keyIn s b) s = .ok (found, t) →
    let lp := (reg64 s c).toNat % 2 ^ 32
    let ln := (reg64 s c).toNat / 2 ^ 32
    let x := (reg64 s d).toNat
    (found = none → exec (.admRsv a b c d) s = .next (answered 12 a 2 t) ∧
      exec (.admEnd a b) s = .next (answered 12 a (pairWord 2 0) t)) ∧
    ∀ r, found = some r →
      (r.state = 2 → exec (.admRsv a b c d) s = .next (answered 12 a 1 t)) ∧
      (r.state ≠ 2 → ReserveRefused r lp ln x → exec (.admRsv a b c d) s = .next (answered 12 a 3 t)) ∧
      (r.state ≠ 2 → ¬ ReserveRefused r lp ln x → unreserved (domainOf t (myDomain t)) < pagesWanted r lp ln x →
        exec (.admRsv a b c d) s = .next (answered 12 a 4 t)) ∧
      (∀ u, r.state ≠ 2 → ¬ ReserveRefused r lp ln x → pagesWanted r lp ln x ≤ unreserved (domainOf t (myDomain t)) →
        writeRecord (myEngine t) (myDomain t) (keyIn s b).seq (admittedRecord r lp ln x) t = .ok ((), u) →
        exec (.admRsv a b c d) s = .next (answered 12 a 0 u)) ∧
      (r.state = 0 → exec (.admEnd a b) s = .next (answered 12 a (pairWord 1 0) t)) ∧
      (∀ gen u, r.state ≠ 0 → endSequence (myEngine s) (myDomain s) (keyIn s b).seq r t = .ok (gen, u) →
        exec (.admEnd a b) s = .next (answered 12 a gen u))

/-! ### Messages and migration -/

namespace Sys2Proof.Claims

/-- A message may be sent (R308, R310): to a core of the team, through a sealed executable handler, no view leaving the
package. -/
def SendMay (s : State) (b c d : Reg) : Prop :=
  (∃ t, teamOf s (who s) = some t ∧ (reg64 s d).toNat < 2 ^ 24 ∧ (reg64 s d).toNat % 65536 ∈ t.cores ∧
    ((reg64 s d).toNat / 65536 = s.pkg.toNat ∨ (reg64 s d).toNat / 65536 ∈ t.podset)) ∧
  (reg s b).tag = true ∧ isSealed (reg s b) = true ∧ hasPerm (reg s b) permEX = true ∧
  ((reg64 s d).toNat / 65536 = s.pkg.toNat ∨ ∀ v ∈ arguments s c, isView v = false)

/-- The destination has room. -/
def RoomAt (s : State) (d : Reg) : Prop :=
  (reg64 s d).toNat / 65536 = s.pkg.toNat → (coreOf s ((reg64 s d).toNat % 65536)).inbox.length ≤ Config.inboxRoom

/-- What a migration needs (R311): the line may be read, the context is no leader and pins no engine, and the page is not
homed on the host. -/
structure MigrateMay (s : State) (b : Reg) (p : Place) (t : State) : Prop where
  cap : capCheck (reg s b) (capAddr (reg s b)) 1 permLD = none
  kind : (me s).kind ≠ .leader ∧ (who s).slot ≠ 11
  pin : (me s).pin = .none
  place : ∃ u, checkGrant { memActor s b plainX with served := false } (capAddr (reg s b)) rightLD s = .ok ((), u) ∧
    locate { memActor s b plainX with served := false } (capAddr (reg s b)) 1 rightLD u = .ok (p, t)
  home : p.hostHomed = false

end Sys2Proof.Claims

/-- R166 to R168, R308, R310: a plain send goes out and gives 0; a release or full send first waits for what the context
has sent and copied; a full send then waits for its own acknowledgement. -/
def Sys2Proof.Claims.MessageSends : Prop :=
  ∀ (a b c d : Reg) (ord : Order) (s : State),
    ((me s).own = none → SendMay s b c d → RoomAt s d →
      (ord = .plain →
        exec (.msgSend a b c d ord) s = .next (answered 12 a 0 (sendMessage b c d s).2)) ∧
      (ord ≠ .plain → sendsPending s (who s) = true →
        exec (.msgSend a b c d ord) s = .next (heldOn .acks s)) ∧
      (ord = .release → sendsPending s (who s) = false → (me s).failures = [] →
        exec (.msgSend a b c d ord) s = .next (answered 12 a 0 (sendMessage b c d s).2)) ∧
      (ord = .full → sendsPending s (who s) = false → (me s).failures = [] →
        exec (.msgSend a b c d ord) s = .next (onMe (sendMessage b c d s).2 fun x =>
          { x with own := some (sendMessage b c d s).1, wait := .ownAck (sendMessage b c d s).1 }))) ∧
    (∀ n, (me s).own = some n → (∀ m ∈ (me s).sent, m.1 ≠ n) → (∀ f ∈ (me s).failures, f.1 ≠ n) →
      exec (.msgSend a b c d ord) s = .next (answered 12 a 0 (onMe s fun x => { x with own := none })))

/-- R311 to R313: a migration to the core that serves the line: 0 without a move when it is the issuing core, 1 when that
core has no free slot, else the context goes on there, its home slot reserved; `mig.ret` brings it back. -/
def Sys2Proof.Claims.Migration : Prop :=
  ∀ (a b : Reg) (s : State),
    (∀ p t, MigrateMay s b p t →
      (servingCore p.pa = (who t).core → exec (.mig a b) s = .next (answered 12 a 0 t)) ∧
      (servingCore p.pa ≠ (who t).core → lowestFree (coreOf t (servingCore p.pa)) = none →
        exec (.mig a b) s = .next (answered 12 a 1 t)) ∧
      (∀ slot, servingCore p.pa ≠ (who t).core → lowestFree (coreOf t (servingCore p.pa)) = some slot →
        exec (.mig a b) s = .next (moveTo ⟨servingCore p.pa, slot⟩ (advance 12 (writeInt a 64 0 t))))) ∧
    (∀ home, (me s).home = some home →
      exec (.migRet a) s = .next (arriveIn (leaveSlot (advance 12 (writeInt a 64 0 s)) (who s))
        (me (advance 12 (writeInt a 64 0 s))) home none)) ∧
    ((me s).home = none → exec (.migRet a) s = .next (deliverTrap ⟨causeMigration, 6, 0⟩ s))

/-! ### The matrix array and the accumulator tiles -/

namespace Sys2Proof.Claims

/-- The elements at these positions that lie in the tensor may be accessed. -/
def ElementsMay (d : Desc) (perm : Nat) (ps : List Pos) : Prop :=
  ∀ p ∈ ps, d.holds p = true → capCheck d.base (d.place p).1 (d.place p).2 perm = none

/-- The scales of the blocks at these positions that lie in the tensor may be accessed. -/
def ScalesMay (d : Desc) (perm : Nat) (ps : List Pos) : Prop :=
  ∀ p ∈ ps, d.holds p = true → capCheck d.sbase (d.scalePlace p).1 (d.scalePlace p).2 perm = none

/-- A valid descriptor of the issuing team. -/
def HasDesc (s : State) (n : Nat) (d : Desc) : Prop := Machine.descOf s n = d ∧ d.valid = true

/-- The core has a matrix array and an epilogue processor, and this engine is not another context's. -/
def EngineFree (s : State) (p : Pin) : Prop :=
  isBasecamp (who s).core = false ∧ pinnedByOther (myCore s) (who s).slot p = false

/-- No instruction that the core issued earlier is still held (R316, R352). -/
def InTurn (s : State) : Prop := behind (myCore s) (who s).slot = false

/-- The instruction of `len` bytes is over, from the state its effect left, and leaves its place in the issue order. -/
def inOrder (len : Nat) (s : State) : State :=
  onCore (slowly len s) (who s).core (leaveHeld (who s).slot)

/-- The status goes to `cA`, and the instruction is over. -/
def answeredInOrder (len : Nat) (a : Reg) (status : Nat) (s : State) : State := inOrder len (writeInt a 64 status s)

/-- No row read of the current job is due in these row blocks of the tile (R324). -/
def NoJobReads (s : State) (tile : Nat) (blocks : List Nat) : Prop := jobReads (myCore s) tile blocks = false

/-- The issuing core changes by `f`. -/
def coreBy (f : Core → Core) (s : State) : State := onCore s (who s).core f

/-- The blocks of scales that a weight load reads, and its columns. -/
def weightBlocks (d : Desc) (p : Pos) : List Pos := columns.flatMap fun j => blockPlaces d (p.down j) (planeDepth d.fmtCode)
def weightPlaces (d : Desc) (p : Pos) : List Pos := columns.flatMap fun j => rowPlaces (p.down j) (planeDepth d.fmtCode)

/-- What `mx.ldw` needs (R316, R319). -/
structure LoadMay (s : State) (n : Nat) (b c : Reg) (d : Desc) : Prop where
  desc : HasDesc s n d ∧ planeDepth d.fmtCode ≠ 0 ∧ (d.blk = 0 ∨ (origin s b c).i0 % 32 = 0)
  elements : ElementsMay d permLD (weightPlaces d (origin s b c))
  scales : ScalesMay d permLD (weightBlocks d (origin s b c))
  engine : EngineFree s .mx ∧ InTurn s
  landed : landing (myCore s) (who s).slot = false

/-- The weights and scales that were read, in the shadow plane (R318, R319). -/
def filledPlane (d : Desc) (scales : List (Pos × Option Nat)) (cols : List (List Nat)) (k : Core) : Core :=
  { k with
    staging := putPlaneScales d.sk (planeDepth d.fmtCode / 32) 0 (scales.map (·.2))
      (putColumns d.fmt.width 0 cols k.staging)
    shadowTag := (d.fmtCode, d.sk) }

/-- The row blocks that a stream writes. -/
def writtenBlocks (d : Desc) (blk : Nat) : List Nat := upFrom blk (ceilDiv d.tileRows 16)

/-- The scales of the active plane may be used (R101). -/
def PlaneScalesGood (s : State) : Prop :=
  badPlaneScales (myCore s).active (myCore s).activeTag.1 (myCore s).activeTag.2 = []

/-- What `mx.str` needs (R101, R316, R317, R321). -/
structure StreamMay (s : State) (a b c : Reg) (n : Nat) (mo : Bool) (blk : Nat) (d : Desc) : Prop where
  desc : HasDesc s n d ∧ streamAccepted (activePlane (myCore s)).fmt d.fmtCode mo = true ∧
    (d.blk = 0 ∨ (origin s b c).i0 % 32 = 0) ∧ 16 * blk + d.tileRows ≤ 128
  elements : ElementsMay d permLD ((streamedRows d (origin s b c)).flatMap fun r =>
    rowPlaces ((origin s b c).down r) (planeDepth (activePlane (myCore s)).fmt))
  scales : ScalesMay d permLD ((streamedRows d (origin s b c)).flatMap fun r =>
    blockPlaces d ((origin s b c).down r) (planeDepth (activePlane (myCore s)).fmt))
  engine : EngineFree s .mx ∧ InTurn s
  plane : streamedRows d (origin s b c) ≠ [] → PlaneScalesGood s
  tile : NoJobReads s a.val (writtenBlocks d blk) ∧ (mo = true → NoJobReads s (a.val + 1) (writtenBlocks d blk))

/-- The rows of a sparse stream and the pointers they read (R323). -/
def sparseRowsOf (s : State) (b : Reg) (dp : Desc) : List Nat :=
  (upFrom 0 dp.tileRows).filter fun r => (reg64 s b).toNat / 2 ^ 32 + r + 1 < dp.size 0
def pointersOf (s : State) (b : Reg) (dp : Desc) : List Nat :=
  if sparseRowsOf s b dp = [] then [] else upFrom ((reg64 s b).toNat / 2 ^ 32) ((sparseRowsOf s b dp).length + 1)

/-- What `mx.gstr` needs before it reads its pointers (R323). -/
structure SparseMay (s : State) (a b : Reg) (n m q blk : Nat) (dn dm dp : Desc) : Prop where
  values : HasDesc s n dn ∧ dn.rank = 0 ∧ dn.sk = 0 ∧
    streamAccepted (activePlane (myCore s)).fmt dn.fmtCode false = true
  indices : HasDesc s m dm ∧ dm.rank = 0 ∧ dm.fmtCode = 9
  pointers : HasDesc s q dp ∧ dp.rank = 0 ∧ dp.fmtCode = 9 ∧ 16 * blk + dp.tileRows ≤ 128
  elements : ElementsMay dp permLD ((pointersOf s b dp).map lineAt)
  engine : EngineFree s .mx ∧ InTurn s
  plane : sparseRowsOf s b dp ≠ [] → PlaneScalesGood s
  tile : NoJobReads s a.val (writtenBlocks dp blk)

/-- First entry and number of entries that the pointers name. -/
def firstEntry (ps : List Int) : Nat := (ps.headD 0).toNat
def entryCount (ps : List Int) : Nat := (ps.getLastD 0 - ps.headD 0).toNat

/-- The pointers and entries may be used. -/
def EntriesMay (dn dm : Desc) (ps : List Int) : Prop :=
  pointersGood (min (dn.size 0) (dm.size 0)) ps = true ∧ entryCount ps ≤ 4096 ∧
    ElementsMay dm permLD ((upFrom (firstEntry ps) (entryCount ps)).map lineAt) ∧
    ElementsMay dn permLD ((upFrom (firstEntry ps) (entryCount ps)).map lineAt)

end Sys2Proof.Claims

/-- R101, R315 to R323: the matrix array: a weight load fills the shadow plane; a swap exchanges the planes; a stream
and a sparse stream read their rows and add them to the tile, in the order of the rows. An instruction stands behind
those that its core issued before it; a swap that waits for a channel waits for the transfer that was its current one when
it issued, and where that stopped part way it faults. That the bytes of the shadow plane which a load's format does not use keep what
they held, and that a sparse stream takes its rows from the pointer descriptor, is the model's reading (log 74). So is
when a held instruction reads its operands (log 59). -/
def Obligations.MatrixArray : Prop :=
  (∀ (n : Fin 256) (b c : Reg) (s : State) (d : Desc), LoadMay s n.val b c d → ∀ scales cols t u,
    readScales d (weightBlocks d (origin s b c)) s = .ok (scales, t) → badIndices d scales = [] →
    readColumns d (origin s b c) (planeDepth d.fmtCode) columns t = .ok (cols, u) →
    exec (.mxLdw n b c) s = .next (inOrder 12 (coreBy (filledPlane d scales cols) u))) ∧
  (∀ s : State, EngineFree s .mx →
    (InTurn s → exec .mxSwap s = .next (inOrder 4 (coreBy (fun k => exchange k.shadowTag k) s))) ∧
    (¬ InTurn s → exec .mxSwap s = .next (standHeld false false id .engine s)) ∧
    ∀ (n : Fin 256) (ch : Fin 4) (waits : Bool) (d : Desc), HasDesc s n.val d → planeDepth d.fmtCode ≠ 0 →
      let w := awaited (myCore s) (who s).slot ch.val
      let moves := (channelOf (myCore s) ch.val).xfer.any (·.number == w.1)
      (¬ InTurn s →
        exec (.mxSwapExt n ch waits) s = .next (standHeld false false (awaitTransfer w.1 w.2) .engine s)) ∧
      (InTurn s → waits = true → moves = true →
        exec (.mxSwapExt n ch waits) s =
          .next (standHeld false false (awaitTransfer w.1 w.2) (.transfer ch.val w.1) s)) ∧
      (InTurn s → badPlaneScales (myCore s).staging d.fmtCode d.sk = [] →
        ((waits = true → moves = false ∧ w.2 = false) →
          exec (.mxSwapExt n ch waits) s = .next (inOrder 12 (coreBy (exchange (d.fmtCode, d.sk)) s))) ∧
        (waits = true → moves = false → w.2 = true →
          exec (.mxSwapExt n ch waits) s = .next (deliverTrap ⟨causeCopy, condInfo ch.val 3, 0⟩ s)))) ∧
  (∀ (a b c : Reg) (n : Fin 256) (z mo : Bool) (blk : Fin 8) (s : State) (d : Desc),
    StreamMay s a b c n.val mo blk.val d → ∀ scales t u,
    let w := activePlane (myCore s)
    readScales d ((streamedRows d (origin s b c)).flatMap fun r =>
      blockPlaces d ((origin s b c).down r) (planeDepth w.fmt)) s = .ok (scales, t) → badIndices d scales = [] →
    streamRows w d (origin s b c) a.val (16 * blk.val) z mo (fun i j => rowScale d scales (planeDepth w.fmt / 32) i j) 0
      (streamedRows d (origin s b c)) t = .ok ((), u) →
    exec (.mxStr a b c n z mo blk) s = .next (inOrder 12 u)) ∧
  ∀ (a b : Reg) (n m q : Fin 256) (z : Bool) (blk : Fin 8) (s : State) (dn dm dp : Desc),
    SparseMay s a b n.val m.val q.val blk.val dn dm dp → ∀ ptrs t u,
    readAt dp (pointersOf s b dp) s = .ok (ptrs, t) →
    let ps := ptrs.map (intValue .s32)
    EntriesMay dn dm ps →
    sparseRows (activePlane (myCore s)) dn dm ((reg64 s b).toNat % 2 ^ 32) a.val (16 * blk.val) z
      ((sparseRowsOf s b dp).map fun r => (r, (ps.getD r 0).toNat, (ps.getD (r + 1) 0).toNat - (ps.getD r 0).toNat)) t =
        .ok ((), u) →
    exec (.mxGstr a b n m q z blk) s = .next (inOrder 12 u)

namespace Sys2Proof.Claims

/-- The row of a tile that `cC` names (R325). -/
def rowOfTile (s : State) (tile : Nat) (c : Reg) : BitVec 4096 := accRow (myCore s) tile ((reg64 s c).toNat % 128)

/-- The 128 pairs that two vector rows hold. -/
def pairsOfRows (means vars : BitVec 4096) (j : Nat) : Pair := ⟨accElem means j, accElem vars j⟩

/-- The pair of column `j` of two moment registers. -/
def columnPair (s : State) (b : Reg) (j : Nat) : Pair :=
  if j < 64 then pairOf s b.val j else pairOf s (b.val + 1) (j - 64)

/-- A row of 128 elements. -/
def elementsRow (f : Nat → Nat) : BitVec 4096 := rowOf ((List.range 128).map f)

end Sys2Proof.Claims

/-- R68, R324 to R326: row moves between tiles and registers, as FP32 lanes or as moment pairs, and clears. -/
def Sys2Proof.Claims.AccumulatorRows : Prop :=
  ∀ (a b c : Reg) (mask : Fin 256) (s : State), isBasecamp (who s).core = false → InTurn s →
    (a.val + 1 < (me s).nv →
      exec (.accRd a b c false) s = .next (inOrder 12 (putV (a.val + 1) ((rowOfTile s b.val c).extractLsb' 2048 2048)
        (putV a.val ((rowOfTile s b.val c).extractLsb' 0 2048) s)))) ∧
    (∀ (g : Nat → Pair) (hit : Nat → Bool), a.val + 1 < (me s).ne →
      (∀ j < 128, movedPair (covClamp (me s)) (pairsOfRows (rowOfTile s b.val c) (rowOfTile s (b.val + 1) c) j) false =
        some (g j, hit j)) →
      exec (.accRd a b c true) s = .next (inOrder 12 (setClamped ((List.range 128).any hit)
        (putE (a.val + 1) (fromMoments (lanes.map fun i => ((g (64 + i)).mean, (g (64 + i)).var)))
          (putE a.val (fromMoments (lanes.map fun i => ((g i).mean, (g i).var))) s))))) ∧
    (∀ t, t = (reg64 s c).toNat % 128 → NoJobReads s a.val [t / 16] →
      (b.val + 1 < (me s).nv →
        exec (.accWr a b c false) s = .next (inOrder 12 (coreBy
          (setAccRow a.val t (vreg (me s) (b.val + 1) ++ vreg (me s) b.val)) s))) ∧
      (b.val + 1 < (me s).ne → NoJobReads s (a.val + 1) [t / 16] →
        exec (.accWr a b c true) s = .next (inOrder 12 (coreBy (fun k =>
          setAccRow (a.val + 1) t (elementsRow fun j => (columnPair s b j).var)
            (setAccRow a.val t (elementsRow fun j => (columnPair s b j).mean) k)) s)))) ∧
    (NoJobReads s a.val (maskBlocks 255) →
      exec (.accClr a) s = .next (inOrder 4 (coreBy (clearBlocks a.val (List.range 8)) s))) ∧
    (NoJobReads s a.val (maskBlocks mask.val) →
      exec (.accClrExt a mask) s = .next (inOrder 12 (coreBy
        (clearBlocks a.val ((List.range 8).filter fun i => mask.val.testBit i)) s)))

/-- R326: a clear zeroes exactly the rows of its row blocks. -/
def Sys2Proof.Claims.ClearedRows : Prop :=
  ∀ (tile tile' t : Nat) (blocks : List Nat) (k : Core), t < 128 →
    accRow (clearBlocks tile blocks k) tile' t = if tile' = tile ∧ t / 16 ∈ blocks then 0 else accRow k tile' t

/-! ### The epilogue processor -/

namespace Sys2Proof.Claims

/-- The program of the block at the cursor of `cB` (R329): its header has been read. -/
def HeaderRead (s : State) (b : Reg) (word : Nat) (t : State) : Prop :=
  capCheck (reg s b) (capAddr (reg s b)) 4 permLD = none ∧ EngineFree s .ep ∧ InTurn s ∧ (myCore s).ep.job = none ∧
    ∃ bs, readRange (regActor s b) (capAddr (reg s b)) 4 s = .ok (bs, t) ∧ natOfBytes bs = word

/-- The operands of `ep.run`. -/
def outOrigin (s : State) (b : Reg) : Nat × Nat := ((reg64 s b).toNat % 2 ^ 32, (reg64 s b).toNat / 2 ^ 32)
def firstRow (s : State) (c : Reg) : Nat := (reg64 s c).toNat % 128
def rowCount (s : State) (c : Reg) : Nat := (reg64 s c).toNat / 256 % 256

/-- The program's active halfwords, and the places and loads of the rows that it will run over. -/
def activeProgram (s : State) : List (BitVec 16) := epActive (myCore s).ep.program
def runRowsOf (s : State) (c : Reg) : List Nat := jobRows (firstRow s c) (rowCount s c)
def runPlaces (s : State) (b c : Reg) : List Pos :=
  (runRowsOf s c).flatMap fun t => (storePlanes (activeProgram s)).map fun k =>
    outPlace (outOrigin s b).1 (outOrigin s b).2 (firstRow s c) t k
def runLoads (s : State) (c : Reg) : List (Nat × Nat) :=
  ((activeProgram s).filter fun h => epOp h.toNat == 0x10).flatMap fun h => (runRowsOf s c).map fun t => (h.toNat, t)

/-- What the issue of `ep.run` needs (R330): a valid descriptor, a parameter block that may be read, and the engine. -/
structure RunIssues (s : State) (d : Reg) (n : Nat) (x : Desc) : Prop where
  desc : HasDesc s n x
  block : d ≠ 0 → capCheck (reg s d) (capAddr (reg s d)) 96 (permLD + permLC) = none ∧ capAddr (reg s d) % 16 = 0
  engine : EngineFree s .ep

/-- What `ep.run` needs when its turn has come (R316, R330). -/
structure RunMay (s : State) (b c d : Reg) (n : Nat) (mo : Bool) (x : Desc) (bases : List Cap) : Prop where
  output : outputGood x (outOrigin s b).1 = true ∧ storesGood (activeProgram s) x.fmtCode = true
  idle : InTurn s ∧ (myCore s).ep.job = none
  moment : mo = true ∨ ∀ h ∈ (myCore s).ep.program, ¬ (epOp h.toNat = 1 ∧ epM h.toNat = 1)
  elements : ElementsMay x permST ((runPlaces s b c).flatMap fun q => rowPlaces q 128)
  scales : ScalesMay x permST ((runPlaces s b c).flatMap fun q => blockPlaces x q 128)
  loads : ∀ l ∈ runLoads s c, capCheck (biasAt bases l.1 l.2).1 (biasAt bases l.1 l.2).2 512 permLD = none

/-- The job that `ep.run` starts (R330). -/
def newJob (s : State) (a b c : Reg) (x : Desc) (mo : Bool) (rnd : Option Rm) (scalars : List (BitVec 32))
    (bases : List Cap) : Job :=
  { number := (myCore s).ep.jobs + 1, context := (me s).uid, team := (teamUidOf s (who s)).getD 0
    domain := myDomain s, tile := a.val, moment := mo, desc := BitVec.ofNat 512 x.bits, baseTag := x.baseTag
    scaleTag := x.scaleTag, o0 := (outOrigin s b).1, o1 := (outOrigin s b).2, first := firstRow s c
    count := rowCount s c, next := 0, scalars := scalars, bases := bases, rm := modeOf (me s) rnd
    sat := roundSat (me s), ftz := roundFtz (me s) }

/-- The epilogue processor of a core changes by `f`. -/
def epBy (core : Nat) (f : Epilogue → Epilogue) (s : State) : State := onCore s core fun k => { k with ep := f k.ep }

/-- How a row starts: eight rows of +0 (R327). -/
def freshRow (e : Epilogue) : RowRun := ⟨List.replicate 8 (List.replicate 128 0), e.gens, e.clamp, e.flush⟩

end Sys2Proof.Claims

/-- R327 to R332, R355: a program is loaded, or its first illegal halfword is reported; a job starts with its
parameters, read when it issued; a wait gives the rows of a finished job, its flag and count, once to each context; each
row event runs the program on one row, and a fault ends the job there. What the clamp flag, the generators and the row
count hold after a row that faults is the model's choice (log 18), and so is what halfwords after `end` and columns that are not
stored count for (log 102). That the parameter block is aligned (log 76), and
when a held instruction reads what it does not read at issue (log 59), is its reading. -/
def Obligations.EpilogueProcessor : Prop :=
  (∀ (a b : Reg) (s t : State) (word : Nat), HeaderRead s b word t →
    (128 ≤ word ∨ word % 128 = 0 ∨ 64 < word % 128 →
      exec (.epLoad a b) s = .next (answeredInOrder 12 a 0x100 t)) ∧
    (∀ bs u, 1 ≤ word → word ≤ 64 → capCheck (reg s b) (capAddr (reg s b)) (4 + 2 * word) permLD = none →
      readRange (regActor s b) (capAddr (reg s b) + 4) (2 * word) t = .ok (bs, u) →
      (programStatus (halfwords word bs) = 0 → exec (.epLoad a b) s =
        .next (answeredInOrder 12 a 0 (epBy (who u).core (fun e => { e with program := halfwords word bs }) u))) ∧
      (programStatus (halfwords word bs) ≠ 0 →
        exec (.epLoad a b) s = .next (answeredInOrder 12 a (programStatus (halfwords word bs)) u)))) ∧
  (∀ (a b c d : Reg) (n : Fin 256) (mo : Bool) (rnd : Option Rm) (s t : State) (x : Desc) (scalars : List (BitVec 32))
    (bases : List Cap), RunIssues s d n.val x → issueParameters d s = .ok ((scalars, bases), t) →
    (RunMay s b c d n.val mo x bases → exec (.epRun a b c d n mo rnd) s =
      .next (inOrder 12 (epBy (who t).core (startJob (newJob s a b c x mo rnd scalars bases)) t))) ∧
    (InTurn s → (myCore s).ep.job ≠ none → exec (.epRun a b c d n mo rnd) s =
      .next (standHeld false false (withParameters (scalars, bases)) .job t))) ∧
  (∀ (a : Reg) (s : State), EngineFree s .ep → InTurn s →
    ((myCore s).ep.job ≠ none → exec (.epWait a) s = .next (standHeld false false id .job s)) ∧
    (∀ f, (myCore s).ep.job = none → (myCore s).ep.fault = some f →
      exec (.epWait a) s = .next (deliverTrap f (epBy (who s).core (fun e => { e with fault := none }) s))) ∧
    ((myCore s).ep.job = none → (myCore s).ep.fault = none →
      ((myCore s).ep.jobs = 0 → exec (.epWait a) s = .next (answeredInOrder 4 a 0 s)) ∧
      ((myCore s).ep.jobs ≠ 0 → exec (.epWait a) s = .next (answeredInOrder 4 a (myCore s).ep.rows (takeJob s))))) ∧
  ∀ (core : Nat) (s : State) (j : Job), (coreOf s core).ep.job = some j →
    let e := (coreOf s core).ep
    let run := runRow core (columnSeed core e) j (j.first + j.next) (epActive e.program) (freshRow e) s
    (∀ x t, run = .done x t → exec (.epilogueRow core) s = .next (epBy core (rowDone j x) t)) ∧
    (∀ f x t, run = .faulted f x t → exec (.epilogueRow core) s = .next (epBy core (rowFaulted f x) t))

/-! ### The sampler -/

namespace Sys2Proof.Claims

/-- A shard's descriptor, its elements accessible (R459). -/
def ShardMay (s : State) (n perm : Nat) (x : Desc) : Prop :=
  HasDesc s n x ∧ shardDesc x = true ∧ ElementsMay x perm (shardPlaces x)

/-- A key that names a sequence: its record, or the status 2 or 3 (R338). -/
def Found (s : State) (b : Reg) (found : Except Nat Rec) (t : State) : Prop :=
  SequenceKey s b ∧ admitted (keyIn s b) s = .ok (found, t)

/-- The logits of a shard, and the token of each. -/
def shardIndices (x : Desc) : List Nat := List.range (x.size 0)
def tokenOf (s : State) (d : Reg) (i : Nat) : Nat := ((reg64 s d).toNat % 2 ^ 32 + i) % 2 ^ 32

/-- FP32 fields of `cC`. -/
def f32Field (s : State) (c : Reg) (i : Nat) : Number := f32 ((reg s c).bits.toNat / 2 ^ (32 * i) % 2 ^ 32)

/-- Penalty parameters that the rule refuses (R339). -/
def BadPenalty (s : State) (c : Reg) : Prop :=
  (f32Field s c 0).isNan = true ∨ (f32Field s c 1).isNan = true ∨ (f32Field s c 2).isNan = true ∨
    (f32Field s c 2).less .one = true

/-- The counts that a draft holds beside the counters. -/
def heldCounts (s : State) (r : Rec) (slot v : Nat) : Nat :=
  if r.draft = true then heldCount (openDraft s slot) v else 0

end Sys2Proof.Claims

/-- R316, R338 to R341, R459: penalties, temperature and noise over a shard: each logit in ascending order, or the status
that the parameters or the key give. That a count with the steps of a draft holds at 32,767 is the model's reading
(log 77). -/
def Obligations.SamplerShards : Prop :=
  ∀ (a b c d : Reg) (n : Fin 256) (s : State) (x : Desc), isBasecamp (who s).core = false →
    ShardMay s n.val (permLD + permST) x →
    (∀ u, goodTemperature (f32Field s c 0) = true →
      eachLogit x (fun _ y => some (rne32 false ((f32 y).div (f32Field s c 0)))) (shardIndices x) s = .ok ((), u) →
      exec (.smpTemp a c n) s = .next (answered 12 a 0 u)) ∧
    (goodTemperature (f32Field s c 0) = false → exec (.smpTemp a c n) s = .next (answered 12 a 1 s)) ∧
    ∀ found t, Found s b found t →
      (∀ st, found = .error st → exec (.smpPen a b c d n) s = .next (answered 12 a st t) ∧
        exec (.smpGum a b d n) s = .next (answered 12 a st t)) ∧
      (∀ r, found = .ok r → BadPenalty s c → exec (.smpPen a b c d n) s = .next (answered 12 a 1 t)) ∧
      (∀ r counts v, found = .ok r → ¬ BadPenalty s c →
        readCounters r.pen (heldCounts s r (keyIn s b).seq) ((shardIndices x).map (tokenOf s d)) t = .ok (counts, v) →
        (counts = none → exec (.smpPen a b c d n) s = .next (answered 12 a 9 v)) ∧
        (∀ ns u, counts = some ns →
          eachLogit x (fun i y => if 0 < min (ns.getD i 0) 32767 then
              some (penalised (f32Field s c 0) (f32Field s c 1) (f32Field s c 2) (min (ns.getD i 0) 32767).toNat y)
            else none) (shardIndices x) v = .ok ((), u) →
          exec (.smpPen a b c d n) s = .next (answered 12 a 0 u))) ∧
      (∀ r u, found = .ok r →
        eachLogit x (fun i y => some (noisy (BitVec.ofNat 64 r.seed) (sigmaOf r) (tokenOf s d i) y)) (shardIndices x) t =
          .ok ((), u) →
        exec (.smpGum a b d n) s = .next (answered 12 a 0 u))

/-- R316, R333, R342, R343: a leader's arrival at a collective is recorded, and the instruction waits for the others. -/
def Sys2Proof.Claims.CollectiveArrivals : Prop :=
  ∀ (a b c d : Reg) (n : Fin 256) (op : SumOp) (fmt : Fmt) (sc : Scope) (s : State), MayArrive s sc →
    exec (.sumRed a b op fmt sc) s = .next (heldOn (.arrived (.red a b op fmt sc)) s) ∧
    exec (.sumBc a b sc) s = .next (heldOn (.arrived (.bc a b sc)) s) ∧
    ∀ x, isBasecamp (who s).core = false → ShardMay s n.val permLD x →
      exec (.smpTop a d n sc) s = .next (heldOn (.arrived (.top a d n.val sc)) s) ∧
      (SequenceKey s b →
        exec (.smpTopp a b c d n sc) s = .next (heldOn (.arrived (.topp a b c d n.val sc)) s))

namespace Sys2Proof.Claims

/-- The 32 token identifiers of a vocabulary map (R336). -/
def mapFrom (bs : List Byte) : List (BitVec 32) :=
  (List.range 32).map fun i => BitVec.ofNat 32 (natOfBytes ((bs.drop (4 * i)).take 4))

/-- Map slot `k` of the issuing core takes a map. -/
def withMap (k : Nat) (m : List (BitVec 32)) (s : State) : State := coreBy (fun x => { x with vocab := put x.vocab k m }) s

/-- A record whose decoder is in the middle of something cannot be bound (R337). -/
def Unsettled (r : Rec) : Prop := r.draft = true ∨ decBusy r.dec = true ∨ fqCount r.fq ≠ 0

/-- The record bound to the issuing core with a map slot (R337). -/
def boundRecord (s : State) (c : Reg) (r : Rec) : Rec :=
  ((r.set 74 64 (who s).core).set 47 44 ((reg64 s c).toNat % 16)).set 75 75 1

/-- What a draft's overlay must be (R348). -/
def OverlayMay (s : State) (c : Reg) (r : Rec) : Prop :=
  capCheck (reg s c) (capAddr (reg s c)) (16 * r.nl * draftRow r) (permLD + permST) = none

/-- The record with its draft open (R348). -/
def draftedRecord (s : State) (c : Reg) (r : Rec) : Rec := ((r.setOvl (reg s c)).set 2 2 1).set 15 8 0

end Sys2Proof.Claims

/-- R336, R337: a vocabulary map is taken when it is good; a sequence is bound to its core when it is settled. -/
def Sys2Proof.Claims.VocabularyMaps : Prop :=
  ∀ (a b c : Reg) (k : Fin 16) (s : State), isBasecamp (who s).core = false →
    (∀ bs t, capCheck (reg s b) (capAddr (reg s b)) 128 permLD = none →
      readRange (regActor s b) (capAddr (reg s b)) 128 s = .ok (bs, t) →
      (mapStatus (mapFrom bs) = 0 →
        exec (.tokMap a b k) s = .next (answered 12 a 0 (withMap k.val (mapFrom bs) t))) ∧
      (mapStatus (mapFrom bs) ≠ 0 →
        exec (.tokMap a b k) s = .next (answered 12 a (mapStatus (mapFrom bs)) t))) ∧
    ∀ found t, Found s b found t →
      (∀ st, found = .error st → exec (.tokBind a b c) s = .next (answered 12 a st t)) ∧
      (∀ r, found = .ok r → Unsettled r → exec (.tokBind a b c) s = .next (answered 12 a 7 t)) ∧
      (∀ r u, found = .ok r → ¬ Unsettled r →
        writeRecord (myEngine s) (myDomain s) (keyIn s b).seq (boundRecord s c r) t = .ok ((), u) →
        exec (.tokBind a b c) s = .next (answered 12 a 0 u))

/-- R344 to R350: a step takes a token or a forced one and gives its word; a draft opens over its overlay; a
verification accepts steps of a draft and closes it. -/
def Sys2Proof.Claims.DrawnSteps : Prop :=
  ∀ (a b c : Reg) (s : State), isBasecamp (who s).core = false → ∀ found t, Found s b found t →
    (∀ st, found = .error st → exec (.smpStep a b c) s = .next (answered 12 a (st * 2 ^ 32) t) ∧
      exec (.smpVer a b c) s = .next (answered 12 a st t) ∧
      (isView (reg s c) = false → exec (.smpDraft a b c) s = .next (answered 12 a st t))) ∧
    ∀ r, found = .ok r →
      (∀ v u, stepSequence (keyIn s b) r ((reg64 s c).toNat % 2 ^ 32) t = .ok (v, u) →
        exec (.smpStep a b c) s = .next (answered 12 a v u)) ∧
      (r.bound = false ∨ r.root ≠ (who t).core →
        exec (.smpStep a b c) s = .next (answered 12 a (4 * 2 ^ 32) t)) ∧
      (∀ st u, verifyDraft (keyIn s b) r (reg64 s c).toNat t = .ok (st, u) →
        exec (.smpVer a b c) s = .next (answered 12 a st u)) ∧
      (isView (reg s c) = false →
        (boundHere s r = false → exec (.smpDraft a b c) s = .next (answered 12 a 4 t)) ∧
        (boundHere s r = true → r.draft = true → exec (.smpDraft a b c) s = .next (answered 12 a 7 t)) ∧
        (boundHere s r = true → r.draft = false → ¬ OverlayMay s c r →
          exec (.smpDraft a b c) s = .next (answered 12 a 9 t)) ∧
        (∀ u, boundHere s r = true → r.draft = false → OverlayMay s c r →
          writeRecord (myEngine s) (myDomain s) (keyIn s b).seq (draftedRecord s c r) t = .ok ((), u) →
          exec (.smpDraft a b c) s = .next (answered 12 a 0 (setDraft u (myDomain u) ⟨(keyIn s b).seq, [], []⟩))))

/-- R345, R347: the effect of each of the sixteen drawn instructions: moves, saturating sums, differences, products and
quotients, with SATF set exactly where a result is clamped or a divisor is 0; remainders, minima, maxima and comparisons; the
halfwords of scratch, which a step's own stores and those of earlier draft steps stand before; and the roles of a number that
is emitted. -/
def Obligations.DrawnArithmetic : Prop :=
  ∀ (x : Drawn) (c : Cap) (m : List (BitVec 32)) (held : List (Nat × BitVec 16)) (qs : Nat) (s : State),
    x.q.length = 8 → x.qsel < 8 → (∀ v ∈ x.q, -32768 ≤ v ∧ v ≤ 32767) →
    let a := qAt x x.qsel
    let b := qAt x qs
    let clamped (v : Int) : Drawn :=
      { x with q := x.q.set x.qsel (max (-32768) (min 32767 v)), satf := x.satf || decide (v < -32768 ∨ 32767 < v) }
    let gets (v : Int) : Drawn := { x with q := x.q.set x.qsel v }
    let refused := capCheck c (capAddr c) 256 (permLD + permST) ≠ none ∨ 127 < x.ival
    let written := (x.scratch ++ held).find? fun e => e.1 == x.ival
    (x.opc = 0 → drawnEffect c m held x qs s = .ok (some (gets x.ival), s)) ∧
    (x.opc = 1 → drawnEffect c m held x qs s = .ok (some (gets b), s)) ∧
    (x.opc = 2 → drawnEffect c m held x qs s = .ok (some (clamped (a + b)), s)) ∧
    (x.opc = 3 → drawnEffect c m held x qs s = .ok (some (clamped (a - b)), s)) ∧
    (x.opc = 4 → drawnEffect c m held x qs s = .ok (some (clamped (a * b)), s)) ∧
    (x.opc = 5 → b ≠ 0 → drawnEffect c m held x qs s = .ok (some (clamped (a.tdiv b)), s)) ∧
    (x.opc = 5 → b = 0 → drawnEffect c m held x qs s = .ok (some
      { gets (if 0 < a then 32767 else if a < 0 then -32768 else 0) with satf := true }, s)) ∧
    (x.opc = 6 → b ≠ 0 → drawnEffect c m held x qs s = .ok (some (gets (a.tmod b)), s)) ∧
    (x.opc = 6 → b = 0 → drawnEffect c m held x qs s = .ok (some { gets 0 with satf := true }, s)) ∧
    (x.opc = 7 → drawnEffect c m held x qs s = .ok (some (clamped (a + x.ival)), s)) ∧
    (x.opc = 8 → drawnEffect c m held x qs s = .ok (some (clamped (-a)), s)) ∧
    (x.opc = 9 → drawnEffect c m held x qs s = .ok (some (gets (min a b)), s)) ∧
    (x.opc = 10 → drawnEffect c m held x qs s = .ok (some (gets (max a b)), s)) ∧
    (x.opc = 11 ∨ x.opc = 12 → refused → drawnEffect c m held x qs s = .ok (none, s)) ∧
    (x.opc = 11 → ¬ refused →
      (∀ i v, written = some (i, v) → drawnEffect c m held x qs s = .ok (some (gets v.toInt), s)) ∧
      (written = none →
        (∀ bs t, readRange (recordActor s c) (capAddr c + 2 * x.ival) 2 s = .ok (bs, t) → natOfBytes bs < 2 ^ 16 →
          drawnEffect c m held x qs s = .ok (some (gets (BitVec.ofNat 16 (natOfBytes bs)).toInt), t)) ∧
        ∀ e, readRange (recordActor s c) (capAddr c + 2 * x.ival) 2 s = .error (.trap e) →
          drawnEffect c m held x qs s = .ok (none, s))) ∧
    (x.opc = 12 → ¬ refused →
      drawnEffect c m held x qs s = .ok (some { x with scratch := (x.ival, BitVec.ofInt 16 a) :: x.scratch }, s)) ∧
    (x.opc = 13 →
      (a < 0 → m.getD 28 0xFFFFFFFF = 0xFFFFFFFF → drawnEffect c m held x qs s = .ok (none, s)) ∧
      (0 ≤ a ∨ m.getD 28 0xFFFFFFFF ≠ 0xFFFFFFFF →
        let roles := (if a < 0 then [10] else []) ++ (if a = 0 then [0] else (Nat.digits 10 a.natAbs).reverse)
        drawnEffect c m held x qs s =
          .ok (some { x with count := roles.length, fq := (roles ++ List.replicate 6 0).take 6 }, s))) ∧
    (x.opc = 14 → drawnEffect c m held x qs s = .ok (some (gets (if a < b then -1 else if a = b then 0 else 1)), s)) ∧
    (x.opc = 15 → drawnEffect c m held x qs s = .ok (some { x with satf := false }, s))

/-! ### Runs of a system context -/

namespace Sys2Proof.Claims

/-- A number in a register. -/
def numberCap (n : Nat) : Cap := Cap.plain (BitVec.ofNat 128 n)

/-- The upcall entry of a context's team. -/
def UpcallOf (s : State) (id : CtxId) (t : Team) (e : Nat) : Prop := teamOf s id = some t ∧ t.upcall = some e

end Sys2Proof.Claims

/-- R241, R242, R309, R420, R421, R435: the first arrival that a core's idle system context can take: a message runs at
its handler, with the sender in `c5`; a trap notice runs at the firmware's service, or is served by the supervisor, the
notices that it has recorded of restored contexts first; a context takes a completion notice as an upcall of its team,
where no instruction of it holds a place among its core's matrix and epilogue instructions (R352). A trap entry in a run
abandons that run before anything else is taken (the model's reading, log 19), and a message of it is acknowledged as failed with
the cause.
Whether the firmware has a service for a cause, and its entries, are free (log 68). -/
def Obligations.SystemContextRuns : Prop :=
  ∀ (core i : Nat) (s : State),
    (∀ m, nextArrival (coreOf s core) = some (i, .message m) →
      exec (.messageRun core) s = .next (startRun (takeArrival s core i) core (.message m) (withSeal m.handler false)
        m.args (numberCap (m.package * 2 ^ 24 + m.sender.core * 2 ^ 4 + m.sender.slot)))) ∧
    (∀ m, (coreOf s core).run = .message m → (coreOf s core).trapOpen = true →
      let ended := acknowledge (clearRun s core) m (some (0x100 + (ctxOf s ⟨core, 11⟩).trapcause.toNat))
      exec (.messageRun core) s = .next ended ∧ exec (.trapNoticeRun core) s = .next ended) ∧
    (∀ slot x, (coreOf s core).run = .idle → (coreOf s core).trapOpen = false →
      recordedTrap (coreOf s core) = some (slot, x) →
      let taken := onCtx s ⟨core, slot⟩ fun y => { y with recorded := false }
      let values := [numberCap slot, numberCap x.trapcause.toNat, numberCap x.trappc.toNat, numberCap x.trapinfo.toNat]
      (Config.serviceInstalled x.trapcause.toNat = true →
        exec (.trapNoticeRun core) s =
          .next (startRun taken core (.notice slot) Config.noticeEntry values Config.noticeData)) ∧
      (Config.serviceInstalled x.trapcause.toNat = false →
        ∀ u, defaultService ⟨core, slot⟩ (runRegisters taken core values Config.noticeData) = .ok ((), u) →
        exec (.trapNoticeRun core) s = .next u)) ∧
    (∀ slot cause at' info, nextArrival (coreOf s core) = some (i, .notice slot cause at' info) →
      recordedTrap (coreOf s core) = none →
      (Config.serviceInstalled cause = true →
        exec (.trapNoticeRun core) s = .next (startRun (takeArrival s core i) core (.notice slot) Config.noticeEntry
          [numberCap slot, numberCap cause, numberCap at', numberCap info] Config.noticeData)) ∧
      (Config.serviceInstalled cause = false → (ctxOf s ⟨core, slot⟩).preempt = false →
        ∀ u, defaultService ⟨core, slot⟩ (runRegisters (takeArrival s core i) core
          [numberCap slot, numberCap cause, numberCap at', numberCap info] Config.noticeData) = .ok ((), u) →
        exec (.trapNoticeRun core) s = .next u)) ∧
    ∀ slot n rest t e, slot < 11 → (ctxOf s ⟨core, slot⟩).notices = n :: rest → UpcallOf s ⟨core, slot⟩ t e →
      (ctxOf s ⟨core, slot⟩).status = .live → (ctxOf s ⟨core, slot⟩).wait = .none →
      (ctxOf s ⟨core, slot⟩).holding = false → (ctxOf s ⟨core, slot⟩).handler = .none →
      standing (coreOf s core) slot = none →
      exec (.completionNotice core slot) s = .next (onCtx (dropShadow s ⟨core, slot⟩ 4) ⟨core, slot⟩ fun y =>
        awake (coreOf s core)
          (enterUpcall t e (ctxOf s ⟨core, slot⟩).code [0, 0, 0, n] { y with notices := rest, fetched := false }))

/-! ### Host queues -/

namespace Sys2Proof.Claims

/-- A command of the queue that may start now, on a home core that runs (R394, R395), and is well formed. -/
def Starts (s : State) (q entry opc : Nat) (c : Command) : Prop :=
  commandOf (queueOf s q) entry = some c ∧ commandOpc c = opc ∧ mayStart (queueOf s q) c = true ∧ homeRuns s q = true ∧
    goodCommand c = true

/-- A command that may start now, and is malformed (R394). -/
def Malformed (s : State) (q entry opc : Nat) (c : Command) : Prop :=
  commandOf (queueOf s q) entry = some c ∧ commandOpc c = opc ∧ mayStart (queueOf s q) c = true ∧ homeRuns s q = true ∧
    goodCommand c = false

/-- A command that has started and is not complete, on a home core that runs. -/
def Busy (s : State) (q entry opc : Nat) (c : Command) : Prop :=
  commandOf (queueOf s q) entry = some c ∧ commandOpc c = opc ∧ c.started = true ∧ c.busy = true ∧ homeRuns s q = true

/-- The doorbell's value is one the queue accepts (R390). -/
def BellGood (s : State) (func q t : Nat) : Prop :=
  qcfgFunc (queueOf s q).cfg = func ∧ qcfgEnable (queueOf s q).cfg = true ∧ (queueOf s q).consumed ≤ t ∧
    t ≤ (queueOf s q).consumed + 2 ^ (queueOf s q).log2

/-- Intake may read the queue's next entry, whose 1024 bits in the ring are `words` (R391, R392). -/
def NextEntry (s : State) (q words : Nat) (t : State) : Prop :=
  intakeReady s q = true ∧ ringRead (entryAt s q (queueOf s q).consumed) 128 s = .ok (words, t)

/-- The stamp of an entry: its number plus one (R391). -/
def StampGood (s : State) (q words : Nat) : Prop := words / 2 ^ 960 % 2 ^ 64 = ((queueOf s q).consumed + 1) % 2 ^ 64

/-- The queue that waits first for a slot of its home core, after the one served last (R392). -/
def NextInLine (s : State) (core q : Nat) : Prop :=
  let waiting := (homeQueues s core).filter (wantsSlot s)
  waiting.find? (fun n => lookD s.rounds core 0 < n) = some q ∨
    (waiting.find? (fun n => lookD s.rounds core 0 < n) = none ∧ waiting.head? = some q)

/-- A QCFG value in its limits: no reserved bit, a main core as its home, a function, an aligned QCB (R386). -/
def CfgGood (v : Nat) : Prop :=
  qcfgMask v = v ∧ qcfgHome (BitVec.ofNat 128 v) ≤ 1151 ∧ qcfgFunc (BitVec.ofNat 128 v) ≤ 64 ∧
    qcfgQcb (BitVec.ofNat 128 v) % 128 = 0

end Sys2Proof.Claims

/-- R386 to R392, R398: a doorbell is taken or counted as dropped; slots go round; an entry whose stamp is right is
taken in, another is tried again up to 64 times before the queue parks; an entry written to the intake window is taken
in where its queue holds a slot, and waits for one otherwise; QCFG enables and disables. What a halted I/O die does not
take is the model's reading (log 67). -/
def Obligations.QueueIntake : Prop :=
  (∀ (func q : Nat) (t : BitVec 64) (s : State), linkRuns s = true →
    (BellGood s func q t.toNat → exec (.doorbell func q t) s = .next (onQueue s q fun x =>
      { x with bell := t.toNat, parked := false, stamped := none, retries := 0,
               slot := x.slot && (needsSlot x || (decide (x.consumed < t.toNat) && readsRing s q)) })) ∧
    (¬ BellGood s func q t.toNat → exec (.doorbell func q t) s = .next (countDrop s func))) ∧
  (∀ (core q : Nat) (s : State), NextInLine s core q → heldSlots s core < 16 → (coreOf s core).started = true →
    exec (.intakeSlotAssign core) s =
      .next (takeOffered { onQueue s q (fun x => { x with slot := true }) with rounds := put s.rounds core q } q)) ∧
  (∀ (q words : Nat) (s t : State), NextEntry s q words t →
    ((queueOf s q).stamped = none →
      (StampGood s q words → exec (.intakeEntry q) s = .next (takeEntry t q words)) ∧
      (¬ StampGood s q words → exec (.intakeEntry q) s =
        .next (onQueue t q fun x => { x with stamped := some x.consumed, retries := 0 }))) ∧
    ((queueOf s q).stamped = some (queueOf s q).consumed →
      (StampGood s q words → exec (.stampRetry q) s = .next (takeEntry t q words)) ∧
      (¬ StampGood s q words → (queueOf s q).retries < 63 → exec (.stampRetry q) s =
        .next (onQueue t q fun x => { x with retries := x.retries + 1 })) ∧
      (¬ StampGood s q words → 63 ≤ (queueOf s q).retries → exec (.stampRetry q) s = .next (park t q)))) ∧
  (∀ (func q : Nat) (entry : BitVec 1024) (s : State), bit (funcOf s func).fmode.toNat 0 = true →
    q / 64 = (funcOf s func).page → qcfgFunc (queueOf s q).cfg = func → qcfgEnable (queueOf s q).cfg = true →
    homeRuns s q = true →
    (StampGood s q entry.toNat →
      let offered := onQueue s q fun x => { x with offered := some entry }
      ((queueOf s q).slot = true →
        exec (.intakeWindowWrite func q entry) s = .next (takeEntry offered q entry.toNat)) ∧
      ((queueOf s q).slot = false → exec (.intakeWindowWrite func q entry) s = .next offered)) ∧
    (¬ StampGood s q entry.toNat → exec (.intakeWindowWrite func q entry) s = .next (countDrop s func))) ∧
  ∀ (q : Nat) (v : BitVec 128) (s : State), linkRuns s = true → q ≤ 4095 → CfgGood v.toNat →
    (v.toNat.testBit 27 = true → samplers s q < 16) →
    (qcfgEnable (queueOf s q).cfg = false →
      (v.toNat.testBit 26 = true → qcbOwned s q v.toNat = false →
        exec (.qcfgWrite q v) s = .next (enableQueue s q v.toNat)) ∧
      (v.toNat.testBit 26 = false → exec (.qcfgWrite q v) s = .next (onQueue s q fun x => { x with cfg := v }))) ∧
    (qcfgEnable (queueOf s q).cfg = true → v.toNat.testBit 26 = false →
      (queueOf s q).cfg.toNat = v.toNat + 2 ^ 26 → exec (.qcfgWrite q v) s = .next (disableQueue s q))

namespace Sys2Proof.Claims

/-- What a SIGNAL and a FENCE write, and where (R394). -/
def addressOf (c : Command) : Nat := c.words.toNat / 2 ^ 64 % 2 ^ 80
def dataOf (c : Command) : Nat := c.words.toNat / 2 ^ 192 % 2 ^ 64

/-- The condition of a WAIT (R396). -/
def waitHolds (c : Command) (v : Nat) : Prop :=
  match c.words.toNat / 2 ^ 144 % 4 with
  | 0 => dataOf c ≤ v
  | 1 => v = dataOf c
  | _ => v ≠ dataOf c



/-- The domain of a DOMCFG, and its new registers. -/
def configured (c : Command) (s : State) : State :=
  let x := c.words.toNat
  onFunc (onDomain s (x / 2 ^ 64 % 2 ^ 16) fun d => { d with
    func := some (x / 2 ^ 80 % 2 ^ 7), seqBase := x / 2 ^ 96 % 2 ^ 80, seqCount := x / 2 ^ 176 % 2 ^ 21,
    bindBase := x / 2 ^ 208 % 2 ^ 80, bindCount := x / 2 ^ 288 % 2 ^ 16 })
    (x / 2 ^ 80 % 2 ^ 7) fun f => { f with page := x / 2 ^ 87 % 2 ^ 6 }

/-- Pages of a BIAS, and the one that is next. -/
def biasNext (c : Command) : Nat := addressOf c / 65536 + c.mark
def biasHost (c : Command) : Bool := (c.words.toNat).testBit 176

/-- A page of a BIAS is done: the command goes on to the next, or retires with 0 (R173). -/
def biasOn (q entry : Nat) (c : Command) (s : State) : State :=
  if c.mark + 1 ≥ c.words.toNat / 2 ^ 144 % 2 ^ 32 then retire s q entry 0
  else onCommand s q entry fun x => { x with started := true, busy := true, mark := x.mark + 1 }

/-- SAMPLE is permitted to the queue and its function (R397). -/
def SampleMay (s : State) (q : Nat) : Prop :=
  qcfgSample (queueOf s q).cfg = true ∧ (funcOf s (queueFunc s q)).fmode.toNat.testBit 4 = true

end Sys2Proof.Claims

/-- The event that is a command's start, by its opcode (R394). -/
noncomputable def startOf (opc q entry : Nat) : Instr :=
  match opc with
  | 2 => .wait q entry
  | 3 => .signal q entry
  | 4 => .queueFence q entry
  | 5 => .bind q entry
  | 6 => .swap q entry
  | 7 => .unbind q entry
  | 8 => .bias q entry
  | 9 => .sample q entry
  | 10 => .domcfg q entry
  | _ => .nop q entry

/-- What a DOMCFG finds of the domain that it names, and its status (R394, R407). -/
def Configures (c : Command) (dom : Nat) (s t : State) : Prop :=
  let x := c.words.toNat / 2 ^ 64 % 2 ^ 16
  (tablesGranted t dom c = false → domcfgAct dom c s = .ok (5, t)) ∧
  (tablesGranted t dom c = true →
    (domainHasTeam t x = true → domcfgAct dom c s = .ok (11, t)) ∧
    (domainHasTeam t x = false →
      (∀ u, someBinding (domainOf t x) t = .ok (true, u) → domcfgAct dom c s = .ok (11, u)) ∧
      ∀ u, someBinding (domainOf t x) t = .ok (false, u) → ∀ held v, someAdmitted (domainOf t x) u = .ok (held, v) →
        domcfgAct dom c s = .ok (if held = true then (11, v) else (0, configured c v))))

/-- R173, R388, R394 to R397, R407: the commands of a queue: each that may start does its work in the queue's name and
retires with its status; a malformed one retires with status 1; a refused access with status 5, the model's own (log
44). -/
def Sys2Proof.Claims.QueueCommands : Prop :=
  ∀ (q entry : Nat) (c : Command) (s : State),
    (Starts s q entry 0 c → exec (.nop q entry) s = .next (retire s q entry 0)) ∧
    (∀ opc, opc ≠ 1 → Malformed s q entry opc c → exec (startOf opc q entry) s = .next (retire s q entry 1)) ∧
    (Starts s q entry 2 c → exec (.wait q entry) s = .next (startCommand s q entry)) ∧
    (Busy s q entry 2 c → ∀ bs t,
      queueAccess s q [q] (fun a => readRange a (addressOf c) 8) = .got bs t →
      (waitHolds c (natOfBytes bs) → exec (.waitSatisfied q entry) s = .next (retire t q entry 0)) ∧
      (¬ waitHolds c (natOfBytes bs) → exec (.waitSatisfied q entry) s = .next t)) ∧
    (Busy s q entry 2 c →
      queueAccess s q [q] (fun a => readRange a (addressOf c) 8) = .refused →
      exec (.waitSatisfied q entry) s = .next (retire s q entry 5)) ∧
    (Starts s q entry 3 c → ∀ t,
      (c.words.toNat.testBit 144 = false →
        queueAccess s q [] (fun a => writePiece a (addressOf c) (bytesOf 8 (dataOf c)) false rightST) = .got () t →
        exec (.signal q entry) s = .next (retire t q entry 0)) ∧
      (c.words.toNat.testBit 144 = true →
        queueAccess s q [] (fun a => do
          let (bs, _) ← readPiece a (addressOf c) 8 rightAtomic
          writePiece a (addressOf c) (bytesOf 8 (natOfBytes bs + dataOf c)) false rightAtomic) = .got () t →
        exec (.signal q entry) s = .next (retire t q entry 0)) ∧
      (c.words.toNat.testBit 144 = false →
        queueAccess s q [] (fun a => writePiece a (addressOf c) (bytesOf 8 (dataOf c)) false rightST) = .refused →
        exec (.signal q entry) s = .next (retire s q entry 5))) ∧
    (Starts s q entry 4 c → ∀ t,
      (addressOf c ≠ 0 →
        (queueAccess s q [] (fun a => writePiece a (addressOf c) (bytesOf 8 (dataOf c)) false rightST) = .got () t →
          exec (.queueFence q entry) s = .next (retire (onQueue t q fun x => { x with fenced := entry + 1 }) q entry 0)) ∧
        (queueAccess s q [] (fun a => writePiece a (addressOf c) (bytesOf 8 (dataOf c)) false rightST) = .refused →
          exec (.queueFence q entry) s = .next (retire s q entry 5))) ∧
      (addressOf c = 0 → queueAccess s q [] (fun _ => pure ()) = .got () t →
        exec (.queueFence q entry) s = .next (retire (onQueue t q fun x => { x with fenced := entry + 1 }) q entry 0))) ∧
    (∀ status, commandOf (queueOf s q) entry = some c → commandOpc c = 4 →
      retire s q entry status = onQueue (completeCommand (updateQcb s q) q c status) q fun x =>
        let y := { x with commands := x.commands.filter (·.entry != entry) }
        { y with slot := y.slot && (needsSlot y || !needsSlot x) }) ∧
    ((Starts s q entry 8 c ∧ (∀ x, ¬ Busy s q entry 8 x)) ∨ Busy s q entry 8 c →
      ∀ w u, walkFor (queueFunc s q) (biasNext c) s = .ok (w, u) →
      let finding := findingOf u (queueFunc s q) (queueDomain s q) (biasNext c) 0 w
      (∀ l, w = .leaf l → finding = .present →
        (leafHM l.entry.toNat = true ∨ leafHB l.entry.toNat = biasHost c →
          exec (.bias q entry) s = .next (biasOn q entry c u)) ∧
        (leafHM l.entry.toNat = false → leafHB l.entry.toNat ≠ biasHost c →
          rangeOwned u (l.page * 2 ^ l.bits) (2 ^ l.bits) = false → entryBlocked u l = false →
          exec (.bias q entry) s = .next (biasOn q entry c (flipBias u l (biasHost c))))) ∧
      (finding = .denial ∨ finding = .unmapped →
        exec (.bias q entry) s = .next (retire u q entry 5))) ∧
    (Starts s q entry 9 c →
      (¬ SampleMay s q → exec (.sample q entry) s = .next (retire s q entry 1)) ∧
      (SampleMay s q → queueAccess s q [] (sampleAct s q c) = .refused →
        exec (.sample q entry) s = .next (retire s q entry 5)) ∧
      (∀ v t, SampleMay s q → queueAccess s q [] (sampleAct s q c) = .got v t →
        exec (.sample q entry) s =
          .next (retire t q entry (if v / 2 ^ 32 % 2 ^ 8 = 0 then 0 else 0x100 + v / 2 ^ 32 % 2 ^ 8)))) ∧
    (Starts s q entry 10 c →
      (queueFunc s q ≠ 0 → exec (.domcfg q entry) s = .next (retire s q entry 1)) ∧
      (queueFunc s q = 0 →
        (∀ v t, queueAccess s q [] (fun _ => domcfgAct (queueDomain s q) c) = .got v t →
          exec (.domcfg q entry) s = .next (retire t q entry v)) ∧
        (queueAccess s q [] (fun _ => domcfgAct (queueDomain s q) c) = .refused →
          exec (.domcfg q entry) s = .next (retire s q entry 5)))) ∧
    ∀ dom t, reachTable dom (c.words.toNat / 2 ^ 96 % 2 ^ 80) s = .ok ((), t) → Configures c dom s t

/-- R403 to R406: BIND writes its record and makes its tree; SWAP starts with its event and retires when the teams bound
before it have gone; UNBIND starts on a valid binding and ends it when every team bound to it has gone. -/
def Sys2Proof.Claims.BindingCommands : Prop :=
  ∀ (q entry : Nat) (c : Command) (s : State),
    let dom := queueDomain s q
    let core := queueHome s q
    (Starts s q entry 5 c →
      (∀ v t, queueAccess s q [] (fun _ => bindAct core dom c) = .got v t →
        exec (.bind q entry) s = .next (retire t q entry v)) ∧
      (queueAccess s q [] (fun _ => bindAct core dom c) = .refused →
        exec (.bind q entry) s = .next (retire s q entry 5))) ∧
    (Starts s q entry 6 c → (∀ x, ¬ Busy s q entry 6 x) →
      (∀ v t, queueAccess s q [] (fun _ => swapAct core dom c) = .got v t →
        (v ≠ 0 → exec (.swap q entry) s = .next (retire t q entry v)) ∧
        (v = 0 → exec (.swap q entry) s =
          .next (onCommand t q entry fun x => { x with started := true, busy := true, mark := t.names }))) ∧
      (queueAccess s q [] (fun _ => swapAct core dom c) = .refused →
        exec (.swap q entry) s = .next (retire s q entry 5))) ∧
    (Busy s q entry 6 c → boundTeams s dom (commandIndex c) c.mark = false →
      exec (.swap q entry) s = .next (retire s q entry 0)) ∧
    (Starts s q entry 7 c → (∀ x, ¬ Busy s q entry 7 x) →
      ∀ b t, queueAccess s q [] (fun _ => validBinding core dom (commandIndex c)) = .got b t →
      (b = none → exec (.unbind q entry) s = .next (retire t q entry 7)) ∧
      (b ≠ none → exec (.unbind q entry) s = .next (startCommand t q entry))) ∧
    (Busy s q entry 7 c → boundTeams s dom (commandIndex c) s.names = false →
      ∀ v t, queueAccess s q [] (fun _ => unbindAct core dom c) = .got v t →
      exec (.unbind q entry) s = .next (retire t q entry v))

namespace Sys2Proof.Claims

/-- A LAUNCH that has not started, its block and what it points to read (R393, R399). -/
def LaunchRead (s : State) (q entry : Nat) (c : Command) (d : LaunchData) (t : State) : Prop :=
  commandOf (queueOf s q) entry = some c ∧ commandOpc c = 1 ∧ c.started = false ∧ homeRuns s q = true ∧
    goodCommand c = true ∧ launchOf s q c = .got d t

/-- Quads that trade with each other (R393). -/
def Trades (a b : Nat) : Prop := a < 288 ∧ b < 288 ∧ neighbours a b = true

/-- What a seed spec gives its register (R401): plain data where its permissions are 0, else a tagged capability with these
permissions, bounded exactly to [BASE, BASE + LEN), with cursor BASE. -/
def SeedGives (spec : Nat) (c : Cap) : Prop :=
  (spec / 2 ^ 118 % 2 ^ 10 = 0 → c = Cap.plain (BitVec.ofNat 128 (spec % 2 ^ 64))) ∧
    (spec / 2 ^ 118 % 2 ^ 10 ≠ 0 → c.tag = true ∧ capPerms c = spec / 2 ^ 118 % 2 ^ 10 ∧ capAddr c = spec % 2 ^ 80 ∧
      capBounds c = some (spec % 2 ^ 80, spec % 2 ^ 80 + spec / 2 ^ 80 % 2 ^ 38))

/-- `c1` to `c4` of the leaders of a launch (R401). Whether the code object's header says ABI 1 is free (log 42). -/
structure SeedsStand (d : LaunchData) (x : Context) : Prop where
  first : SeedGives (d.seed 0) (regOf x 1)
  second : (d.index = 0xFFFF → SeedGives (d.seed 1) (regOf x 2)) ∧
    (d.index ≠ 0xFFFF → ∃ b, d.binding = some b ∧ regOf x 2 = b.weights)
  third : (d.objTab = 0 → SeedGives (d.seed 2) (regOf x 3)) ∧
    (d.objTab ≠ 0 → SeedGives (d.seed 2) (regOf x 3) ∨
      ((regOf x 3).tag = true ∧ capAddr (regOf x 3) = d.objTab ∧
        capBounds (regOf x 3) = some (d.objTab, d.objTab + 16 * d.objCnt)))
  fourth : SeedGives (d.seed 3) (regOf x 4)

/-- The leader that stands in slot `i` of core `k`, of a team on `cores` (R24, R25): live at the entry of the launch's code, its
ordinal in `c5`, the number of leaders in `c6`, and nothing else set. -/
structure LeaderStands (d : LaunchData) (cores : List Nat) (k i : Nat) (x : Context) : Prop where
  stands : x.status = .live ∧ x.kind = .leader ∧ x.wait = .none ∧ x.pin = .none
  code : x.code = withCursor (boundedCap (permLD + permEX + permGL) d.text d.textLen) (d.text + d.get 367 336)
  seeds : SeedsStand d x
  numbered : x.ordinal = (cores.filter (· < k)).length * d.quota + i ∧ regOf x 5 = Cap.plain (BitVec.ofNat 128 x.ordinal) ∧
    regOf x 6 = Cap.plain (BitVec.ofNat 128 (cores.length * d.quota))
  null : (∀ n, 7 ≤ n → n < 64 → regOf x n = Cap.null) ∧ x.shadow = []
  windows : x.nv = d.nv ∧ x.ne = d.ne ∧ x.v = [] ∧ x.e = [] ∧ x.m = []
  fresh : x.round = 0 ∧ x.covmode = 0 ∧ x.flushcnt = 0 ∧ x.calls = [] ∧ x.handler = .none

/-- A launch has been admitted on `cores` (R24 to R26, R82): each of them has the boundaries of the launch and its leaders in
slots 0 to QUOTA - 1, every other user slot is free, and semaphores, forwarding registers, helper records and map slots are
empty. -/
structure AdmittedOn (d : LaunchData) (cores : List Nat) (y : State) : Prop where
  boundaries : ∀ k ∈ cores, (coreOf y k).vb = d.vb ∧ (coreOf y k).sb = d.sb ∧ (coreOf y k).cb = d.cb
  leaders : ∀ k ∈ cores, ∀ i < d.quota, LeaderStands d cores k i (ctxOf y ⟨k, i⟩)
  others : ∀ k ∈ cores, ∀ i, d.quota ≤ i → i < 11 → slotFree (coreOf y k) i = true
  engines : ∀ k ∈ cores, (coreOf y k).sems = [] ∧ (coreOf y k).fwd = [] ∧ (coreOf y k).records = [] ∧ (coreOf y k).vocab = []

end Sys2Proof.Claims

/-- R22 to R27, R82, R213, R393, R399 to R402, R242: a LAUNCH is checked, and refused with its first failing status or kept
for placement, its queue record images written to free cores before the checks of R38; agents trade pending launches; a
launch that may be admitted becomes a team: on each core of its set the boundaries of the launch and QUOTA live leaders, at the
entry, with the four seeds, their ordinals and their number; a team whose contexts and engines are done ends, and its
LAUNCH retires with its result. The permissions of an object table that stands in `c3`, and whether one does (log 42), are the
model's choice. The order of the images is a free value (log 43); the statuses of what the rules do not number (log 62) are
the model's reading. -/
def Obligations.Launches : Prop :=
  (∀ (q entry : Nat) (c : Command) (d : LaunchData) (s t : State), LaunchRead s q entry c d t →
    (launchStatus t (queueDomain t q) d = 0 → exec (.launch q entry) s = .next (addPending t q entry d)) ∧
    (launchStatus t (queueDomain t q) d ≠ 0 → mayStart (queueOf s q) c = true →
      exec (.launch q entry) s =
        .next (retire (dropPending (spoilStashes t d (launchStatus t (queueDomain t q) d)) q entry) q entry
          (launchStatus t (queueDomain t q) d))) ∧
    (∀ place, let cores := if d.fixedSet = true then bitmapCores (d.bitmap.getD 0) else place
      mayStart (queueOf s q) c = true → launchStatus t (queueDomain t q) d = 0 →
      (d.fixedSet = true ∨
        (goodPlace place d.count = true ∧ ∃ p ∈ t.launches, p.queue = q ∧ p.entry = entry)) →
      (∀ k ∈ cores, coreFree t k = true) → slicesFit t cores = true →
      exec (.launchAdmit q entry place) s = .next (admitLaunch t q c d cores))) ∧
  (∀ (t : State) (q : Nat) (c : Command) (d : LaunchData) (cores : List Nat), cores.Nodup →
    launchStatus t (queueDomain t q) d = 0 → AdmittedOn d cores (admitLaunch t q c d cores)) ∧
  (∀ (a b : Nat) (s : State), Trades a b →
    (agentLoad s b + 4 < agentLoad s a → exec (.placementExchange a b) s =
      .next { s with launches := movePending a b ((agentLoad s a - agentLoad s b) / 2) s.launches }) ∧
    (agentLoad s a ≤ agentLoad s b + 4 → agentLoad s b ≤ agentLoad s a + 4 →
      exec (.placementExchange a b) s = .next s)) ∧
  (∀ (q entry : Nat) (c : Command) (s : State), Malformed s q entry 1 c →
    exec (.launch q entry) s = .next (retire (dropPending s q entry) q entry 1)) ∧
  ∀ (uid : Nat) (t : Team) (s : State), teamBy s uid = some t → teamDone s t = true → queueClear s t.queue = true →
    (∀ k ∈ t.cores, windowHeld s k = false) →
    let seen := makeAllVisible (fun p => p.team == some t.uid) s.pending.length s
    (t.ended = none → exec (.teamComplete uid) s = .next (retire (removeTeam seen t) t.queue t.entry 0)) ∧
    (∀ cause, t.ended = some cause →
      exec (.teamComplete uid) s = .next (retire (removeTeam seen t) t.queue t.entry (0x200 + cause)))

/-! ### Pages, frames and events -/

namespace Sys2Proof.Claims

/-- A page move that is carried out from state `u`, where its walk is done and the device has come to the frames and the leaf
(R125, R417): a 64 KiB leaf in device memory, frames that exist and hold no poison, and a key identifier in range. -/
structure MoveMay (s : State) (page pa new : Nat) (l : Translation) (t u : State) : Prop where
  found : walkFor (funcOfDomain s (domainOfPage s page)) page s = .ok (.leaf l, t)
  leaf : l.bits = 16 ∧ leafHM l.entry.toNat = false ∧ new ≤ 4095 ∧ rangeOwned t (page * 65536) 65536 = false
  frames : beyondStorage (leafPA l.entry.toNat) = false ∧ beyondStorage pa = false ∧
    framePoison t (leafPA l.entry.toNat) = none
  reached : reachMove l (page * 65536) pa t = .ok ((), u)

/-- The page has moved. -/
def moved (page pa new : Nat) (l : Translation) (t : State) : State :=
  movePage t l page pa (if new = 0 then leafKey l.entry.toNat else new)

/-- The request's three fields. -/
def moveRequest (page pa new : Nat) : BitVec 128 := BitVec.ofNat 128 (page + pa * 2 ^ 64 + new * 2 ^ 112)

/-- Storage in scrub that the device zeroes itself, at a virtual address `va` of its pool or at a frame, with its domain and the
frame that is written once its translation stands (R154). -/
def ScrubMay (s : State) (i : Nat) (it : ScrubItem) (dom : Nat) (va : Option Nat) (pa : Nat) (t : State) : Prop :=
  ∃ place : Nat ⊕ Nat, s.scrub[i]? = some it ∧ scrubPlace s it.what = (dom, place) ∧ va = place.getLeft? ∧
    (∀ a, va = some a → rangeOwned s a 65536 = false) ∧ scrubFrame (funcOfDomain s dom) dom place s = .ok (pa, t) ∧
    bit (funcOf s (funcOfDomain s dom)).fmode.toNat 3 = false ∧ beyondStorage pa = false

/-- The ticket that a driver's reply names; its RESULT and its level. -/
def replyTicket (r : BitVec 256) : Nat := r.toNat / 2 ^ 192 % 2 ^ 32
def replyResult (r : BitVec 256) : Nat := r.toNat / 2 ^ 224 % 2 ^ 8
def replyLevel (r : BitVec 256) : Nat := r.toNat / 2 ^ 128 % 4

/-- A reply without reserved bits to a ticket of its function. -/
def Replies (s : State) (func : Nat) (r : BitVec 256) (t : Ticket) : Prop :=
  (s.tickets.find? fun x => x.number == replyTicket r && x.func == func) = some t ∧ r.toNat / 2 ^ 130 % 2 ^ 62 = 0 ∧
    r.toNat / 2 ^ 232 = 0 ∧ replyResult r ≤ 1

end Sys2Proof.Claims

/-- R154, R414 to R423: shootdowns are queued and completed in order; a page moves; an evicted page is read into a frame
of its domain's ring; storage in scrub is zeroed and rejoins its pool; events are written while there is room; replies
complete, deny or answer the service of their ticket. What a frame ring, a leaf or an event ring needs of the windows comes
first, and a line that a channel owns is waited for (R125, R130). The entries of a frame ring (log 41), the answers to replies that
the rules do not settle (log 73), the function and the domain of a page that is moved (log 40) and when a shootdown may complete
(log 72) are the model's reading; that storage which no translation places stays in scrub (log 95) is its choice. -/
def Obligations.PageService : Prop :=
  ∀ s : State,
    (∀ (host : Bool) (page count dom : Nat),
      ((host = true → linkRuns s = true) →
        (0 < count → exec (.shootdownTranslation host page count) s =
          .next { s with shootdowns := s.shootdowns ++ [.pages host page count] }) ∧
        exec (.shootdownRights host dom) s = .next { s with shootdowns := s.shootdowns ++ [.rights host dom] }) ∧
      exec (.shootdownTranslation host page 0) s = .next s ∧
      ∀ rest, (s.shootdowns = .pages host page count :: rest → rangeBusy s (page * 65536) (count * 65536) = false →
          exec .shootdownComplete s =
            .next (countDone (shootRange { s with shootdowns := rest } (page * 65536) (count * 65536)) host)) ∧
        (s.shootdowns = .rights host dom :: rest → exec .shootdownComplete s =
          .next (countDone { s with
            shootdowns := rest,
            cores := s.cores.map fun (c, k) => (c, { k with grants := k.grants.filter (·.domain != dom) }) } host))) ∧
    (∀ page pa new l t u, page < 2 ^ 64 → pa < 2 ^ 48 → MoveMay s page pa new l t u →
      (linkRuns s = true → (∀ r ∈ s.shootdowns, ofHost r = false) →
        exec (.pageMove (moveRequest page pa new)) s = .next (countDone (moved page pa new l u) true)) ∧
      ∀ rest, s.shootdowns = .move (moveRequest page pa new) :: rest →
        exec .shootdownComplete s = .next (countDone { moved page pa new l u with shootdowns := rest } true)) ∧
    (∀ n t b, s.tickets.find? (·.number == n) = some t → t.kind = .evicted b →
      (∀ i ∈ s.scrub, ∀ d a, i.what ≠ .ring d a n) →
      (bit (funcOf s t.func).fmode.toNat 1 = true → exec (.pageIn n) s = .next (cancelTicket s t)) ∧
      (bit (funcOf s t.func).fmode.toNat 1 = false → ringEmpty (domainOf s t.domain) = true →
        exec (.pageIn n) s = .next (askFrames s t)) ∧
      (∀ frame v, bit (funcOf s t.func).fmode.toNat 1 = false → ringEmpty (domainOf s t.domain) = false →
        ringRead (ringPlaceOf (domainOf s t.domain)) 8 s = .ok (frame, v) → beyondStorage frame = false →
        let u := onDomain v t.domain fun d => { d with fcons := d.fcons + 1 }
        (bit (funcOf u t.func).fmode.toNat 3 = true → exec (.pageIn n) s =
          .next { u with scrub := u.scrub ++ [⟨.ring t.domain frame n, none⟩] }) ∧
        (bit (funcOf u t.func).fmode.toNat 3 = false → ∀ w, reachPageIn t frame b u = .ok ((), w) →
          exec (.pageIn n) s =
            .next (finishPageIn (zeroFrame w (domainOf w t.domain).keyid.toNat frame) t frame b)))) ∧
    (∀ i it dom va pa v u, ScrubMay s i it dom va pa v → reachScrub it va pa v = .ok ((), u) →
      exec (.scrub i) s = .next (rejoin { zeroFrame u (domainOf s dom).keyid.toNat pa with
        scrub := removeAt s.scrub i } it.what pa)) ∧
    (∀ func e rest, linkRuns s = true → (funcOf s func).events = e :: rest → bit (funcOf s func).fevr.toNat 0 = true →
      let depth := 2 ^ field (funcOf s func).fevr.toNat 5 1
      let slot := hostBase + field (funcOf s func).fevr.toNat 63 6 * 64 + 32 * ((funcOf s func).posted % depth)
      (funcOf s func).posted < (funcOf s func).fevhead.toNat + depth →
      (blocked s slot 32 = true → exec (.eventWrite func) s = .next s) ∧
      (blocked s slot 32 = false → exec (.eventWrite func) s = .next (onFunc
        (sysStore (sysStore s slot (bytesOf 24 (eventWord e))) (slot + 24) (bytesOf 8 ((funcOf s func).posted + 1))) func
        fun x => { x with events := rest, posted := x.posted + 1 }))) ∧
    ∀ func r t, linkRuns s = true → Replies s func r t →
      (t.kind = .driver ∨ (∃ b, t.kind = .evicted b) → replyResult r = 0 → exec (.eventReply func r) s = .next (completeService s t)) ∧
      (t.kind = .driver ∨ t.kind = .walk ∨ (∃ b, t.kind = .evicted b) → replyResult r = 1 → exec (.eventReply func r) s = .next (denyService s t)) ∧
      (t.kind = .walk → replyResult r = 0 → replyLevel r ≠ 3 →
        exec (.eventReply func r) s = .next (answerWalk s t (r.toNat % 2 ^ 128) (replyLevel r))) ∧
      (t.kind = .zeroing → replyResult r = 0 → exec (.eventReply func r) s =
        .next { s with tickets := s.tickets.filter (·.number != t.number) })

/-! ### What the host reaches -/

namespace Sys2Proof.Claims

/-- A host access to a physical range: what the device holds of it is recalled, then the bytes are read or written
(R171); a read of a poisoned sector returns CXL poison (R453). -/
def hostReads (pa n : Nat) (s : State) : State :=
  let t := recallAll s pa n false
  let bad : Bool := pa < hostBase && (List.range n).any fun k => memNat t.poison ((pa + k) / 64)
  { t with hostRead := if bad = true then [] else t.memory.bytes pa n, hostPoison := bad }
def hostWrites (pa : Nat) (bs : List Byte) (s : State) : State := hostStore (recallAll s pa bs.length true) pa bs

/-- The registers of a function that a write reaches whatever runs, with their offsets in its block and what a write of `v`
leaves (R384, R448). -/
def segmentRegisters (v : Nat) : List (Nat × (Func → Func)) :=
  let units := BitVec.ofNat 64 (v / 2 ^ 21 % 2 ^ 27 * 2 ^ 21)
  [(0, fun f => { f with fseg := units }), (8, fun f => { f with flen := units })]

/-- The registers of a domain (R413): offset, what a write of `v` must be, and what it leaves. -/
def domainRegisters (v : Nat) : List (Nat × Prop × (Domain → Domain)) :=
  [(0x00, True, fun d => { d with gbase := BitVec.ofNat 64 (v / 2 ^ 5 % 2 ^ 43 * 2 ^ 5) }),
    (0x08, v % 2 ^ 13 ≤ 4096, fun d => { d with gcnt := BitVec.ofNat 64 (v % 2 ^ 13) }),
    (0x10, 1 ≤ v % 2 ^ 16 ∧ v % 2 ^ 16 ≤ 4095, fun d => { d with keyid := BitVec.ofNat 64 (v % 2 ^ 16) }),
    (0x18, True, fun d => { d with fring := BitVec.ofNat 64 (v / 2 ^ 3 % 2 ^ 45 * 2 ^ 3) }),
    (0x20, 4 ≤ v % 2 ^ 4 ∧ v % 2 ^ 4 ≤ 12, fun d => { d with flog2 := BitVec.ofNat 64 (v % 2 ^ 4) }),
    (0x28, True, fun d => { d with fprod := BitVec.ofNat 64 v })]

/-- The capacity block of a domain (R441). -/
def capacityRegisters (v : Nat) : List (Nat × (Domain → Domain)) :=
  [(0x00, fun d => { d with kvbase := BitVec.ofNat 64 v }), (0x08, fun d => { d with kvpages := BitVec.ofNat 64 (v % 2 ^ 32) }),
    (0x10, fun d => { d with covbase := BitVec.ofNat 64 v }), (0x18, fun d => { d with covgran := BitVec.ofNat 64 (v % 2 ^ 32) })]

/-- A row of OPTAB within its limits (R444): weights in [1, 16], a frequency that is a multiple of 50 in [200, 700], and
frequencies that do not rise with the state. -/
def OptabKeeps (s : State) (row v : Nat) : Prop :=
  (∀ i < 4, 1 ≤ v / 2 ^ (10 + 5 * i) % 2 ^ 5 ∧ v / 2 ^ (10 + 5 * i) % 2 ^ 5 ≤ 16) ∧ v % 2 ^ 10 % 50 = 0 ∧
    200 ≤ v % 2 ^ 10 ∧ v % 2 ^ 10 ≤ 700 ∧ (0 < row → v % 2 ^ 10 ≤ optabRow s (row - 1) % 2 ^ 10) ∧
    (row < 7 → optabRow s (row + 1) % 2 ^ 10 ≤ v % 2 ^ 10)

/-- No team of a function is admitted; none of its queues is enabled. -/
def NoTeams (s : State) (f : Nat) : Prop := ∀ t ∈ s.teams, t.func ≠ f
def NoQueues (s : State) (f : Nat) : Prop := ∀ q ∈ s.queues, qcfgFunc q.2.cfg = f → qcfgEnable q.2.cfg = false

/-- The state in which the PF's machine reads the tables of domain `d` (R441). -/
def pfReads (s : State) (d : Nat) : State := { s with teams := blankTeam 0 d :: s.teams }

/-- The trust block's STATUS and RHANDLE (R429). -/
def trustWord (status handle : Nat) : BitVec 64 := BitVec.ofNat 64 (status * 2 ^ 32 + handle)

end Sys2Proof.Claims

/-- R171, R384, R385, R398, R408, R413, R415, R417, R424, R429, R441, R444, R448, R455: a function's own register and the PF's:
segments and modes, the root table and the swap area, the registers and the capacity block of a domain, limits, the operator's
registers, and the requests for a shootdown and a page move, each with when a write is ignored; accesses to a segment and to
device memory, which read and write; the keys that the trust block creates, destroys
and reports. The offsets of a function's registers (log 45), what is ignored (log 64) and the record of what the host
read (log 82) are the model's. -/
def Obligations.HostPort : Prop :=
  ∀ s : State,
    (∀ (func : Nat) (v : BitVec 64), linkRuns s = true → func ≤ 64 →
      exec (.registerWrite func (0x20000 + 64 * func) v) s = .next (onFunc s func fun x => { x with fevhead := v })) ∧
    (∀ (func offset : Nat) (v : BitVec 64), func ≠ 0 → offset ≠ 0x20000 + 64 * func →
      exec (.registerWrite func offset v) s = .next s) ∧
    (∀ (f : Nat) (v : BitVec 64), linkRuns s = true → f ≤ 64 →
      (∀ r ∈ segmentRegisters v.toNat,
        (f = 0 ∨ (NoTeams s f ∧ NoQueues s f) →
          exec (.registerWrite 0 (0x1000 + 64 * f + r.1) v) s = .next (onFunc s f r.2)) ∧
        (f ≠ 0 → ¬ (NoTeams s f ∧ NoQueues s f) → exec (.registerWrite 0 (0x1000 + 64 * f + r.1) v) s = .next s)) ∧
      (NoTeams s f → exec (.registerWrite 0 (0x1000 + 64 * f + 16) v) s =
        .next (onFunc s f fun x => { x with fmode := BitVec.ofNat 64 (v.toNat % 2 ^ 5) })) ∧
      (¬ NoTeams s f → exec (.registerWrite 0 (0x1000 + 64 * f + 16) v) s = .next s) ∧
      exec (.registerWrite 0 (0x1000 + 64 * f + 24) v) s = .next (onFunc s f fun x => { x with fevr := v }) ∧
      exec (.registerWrite 0 (0x6000 + 16 * f) v) s =
        .next (onFunc s f fun x => { x with flimit := BitVec.ofNat 64 (v.toNat % 2 ^ 32) })) ∧
    (∀ v : BitVec 64, linkRuns s = true →
      (s.teams = [] →
        exec (.registerWrite 0 0x800 v) s =
          .next { s with ptroot := BitVec.ofNat 64 (v.toNat / 2 ^ 19 % 2 ^ 29 * 2 ^ 19) } ∧
        exec (.registerWrite 0 0x828 v) s =
          .next { s with swapbase := BitVec.ofNat 64 (v.toNat / 2 ^ 21 % 2 ^ 27 * 2 ^ 21) } ∧
        exec (.registerWrite 0 0x830 v) s =
          .next { s with swaplen := BitVec.ofNat 64 (v.toNat / 2 ^ 21 % 2 ^ 27 * 2 ^ 21) }) ∧
      (s.teams ≠ [] → exec (.registerWrite 0 0x800 v) s = .next s ∧ exec (.registerWrite 0 0x828 v) s = .next s ∧
        exec (.registerWrite 0 0x830 v) s = .next s) ∧
      (v.toNat % 4096 = 0 →
        exec (.registerWrite 0 0x4030 v) s = .next { s with update := { s.update with addr := v } }) ∧
      ∀ row < 8,
        (s.teams = [] → OptabKeeps s row v.toNat → exec (.registerWrite 0 (0x4400 + 8 * row) v) s =
          .next { s with optab := put s.optab row (BitVec.ofNat 64 (v.toNat % 2 ^ 30)) }) ∧
        (s.teams ≠ [] ∨ ¬ OptabKeeps s row v.toNat → exec (.registerWrite 0 (0x4400 + 8 * row) v) s = .next s)) ∧
    (∀ (d : Nat) (v : BitVec 64), linkRuns s = true → d < 2 ^ 16 →
      (∀ r ∈ domainRegisters v.toNat,
        (r.2.1 → exec (.registerWrite 0 (0x800000 + 64 * d + r.1) v) s = .next (onDomain s d r.2.2)) ∧
        (¬ r.2.1 → exec (.registerWrite 0 (0x800000 + 64 * d + r.1) v) s = .next s)) ∧
      ∀ r ∈ capacityRegisters v.toNat,
        (domainHasTeam s d = true → (∀ t ∈ s.teams, t.uid ≠ machineUid) →
          exec (.registerWrite 0 (0xC00000 + 32 * d + r.1) v) s = .next s) ∧
        (domainHasTeam s d = false → ∀ bound t, someBinding (domainOf s d) (pfReads s d) = .ok (bound, t) →
          (bound = true → exec (.registerWrite 0 (0xC00000 + 32 * d + r.1) v) s = .next (withoutBlank t)) ∧
          (bound = false → ∀ held u, someSlot (domainOf s d) t = .ok (held, u) →
            exec (.registerWrite 0 (0xC00000 + 32 * d + r.1) v) s =
              .next (withoutBlank (if held = true then u else onDomain u d r.2))))) ∧
    (∀ v : BitVec 64, linkRuns s = true →
      (1000 ≤ v.toNat % 2 ^ 16 → v.toNat % 2 ^ 16 ≤ 4200 →
        exec (.registerWrite 0 0x4000 v) s = .next { s with capw := BitVec.ofNat 64 (v.toNat % 2 ^ 16) }) ∧
      (100 ≤ v.toNat % 2 ^ 17 → v.toNat % 2 ^ 17 ≤ 100000 →
        exec (.registerWrite 0 0x4008 v) s = .next { s with slice := BitVec.ofNat 64 (v.toNat % 2 ^ 17) }) ∧
      exec (.registerWrite 0 0x810 v) s = .next { s with sdlow := v } ∧
      (v.toNat / 2 ^ 48 = 0 → 0 < v.toNat % 2 ^ 32 → exec (.registerWrite 0 0x818 v) s =
        .next { s with shootdowns := s.shootdowns ++ [.pages true s.sdlow.toNat (v.toNat % 2 ^ 32)] }) ∧
      (v.toNat / 2 ^ 48 = 1 → exec (.registerWrite 0 0x818 v) s =
        .next { s with shootdowns := s.shootdowns ++ [.rights true (v.toNat / 2 ^ 32 % 2 ^ 16)] }) ∧
      (2 ≤ v.toNat / 2 ^ 48 → exec (.registerWrite 0 0x818 v) s = .next s) ∧
      exec (.registerWrite 0 0x840 v) s = .next { s with movelow := v } ∧
      exec (.registerWrite 0 0x848 v) s = .next { s with shootdowns := s.shootdowns ++ [.move (v ++ s.movelow)] }) ∧
    (∀ func offset size, linkRuns s = true → 1 ≤ func → func ≤ 64 →
      let f := funcOf s func
      (offset < segLen f → offset + size ≤ segLen f → segBase f + offset + size ≤ Config.hbmBytes →
        blocked s (segBase f + offset) size = false →
        exec (.segmentWindowAccess func offset size none) s = .next (hostReads (segBase f + offset) size s)) ∧
      (segLen f ≤ offset → exec (.segmentWindowAccess func offset size none) s =
        .next { s with hostRead := List.replicate size 255, hostPoison := false }) ∧
      ∀ bs : List Byte,
        (offset < segLen f → offset + bs.length ≤ segLen f → segBase f + offset + bs.length ≤ Config.hbmBytes →
          blocked s (segBase f + offset) bs.length = false →
          exec (.segmentWindowAccess func offset size (some bs)) s = .next (hostWrites (segBase f + offset) bs s)) ∧
        (segLen f ≤ offset → exec (.segmentWindowAccess func offset size (some bs)) s = .next s)) ∧
    (∀ a size, hostBase ≤ a ∨ (linkRuns s = true ∧ a + size ≤ Config.hbmBytes) → blocked s a size = false →
      exec (.hostMemAccess a size none) s = .next (hostReads a size s)) ∧
    (∀ a size bs, hostBase ≤ a ∨ (linkRuns s = true ∧ a + bs.length ≤ Config.hbmBytes) →
      blocked s a bs.length = false →
      exec (.hostMemAccess a size (some bs)) s = .next (hostWrites a bs s)) ∧
    (∀ h : BitVec 32, h ≠ 0 → (∀ k ∈ s.keys, k.handle ≠ h) → s.keys.length < 65536 →
      exec (.keyCreate h) s = .next { s with
        keys := s.keys ++ [⟨h, s.creates, 0, false⟩], creates := s.creates + 1, trust := trustWord 0 h.toNat }) ∧
    ∀ h : BitVec 32,
      ((∀ k ∈ s.keys, k.handle ≠ h) →
        exec (.keyDestroy h) s = .next { s with trust := trustWord 2 (s.trust.toNat % 2 ^ 32) } ∧
        exec (.keyQuery h) s = .next { s with trust := trustWord 2 (s.trust.toNat % 2 ^ 32) }) ∧
      (∀ k, s.keys.find? (·.handle == h) = some k →
        exec (.keyDestroy h) s = .next { s with
          keys := s.keys.filter (·.handle != h), trust := trustWord 0 (s.trust.toNat % 2 ^ 32) } ∧
        exec (.keyQuery h) s = .next { s with trust := trustWord 0 h.toNat, rcount := k.counter })

/-! ### Operator and trust -/

namespace Sys2Proof.Claims

/-- The state that Meridian gives an island (R446): hotter than 105 °C, or above the mean of its kind while the package is
over its cap, one step down in speed; cool and well under the cap, one step up. -/
def meridianState (old temp : Nat) (beyond under above : Bool) : Nat :=
  if 105 ≤ temp ∨ (beyond = true ∧ above = true) then min (old + 1) 7
  else if under = true ∧ temp < 95 then old - 1 else old

/-- What the registers of an island read: its draw and its temperature (R444). -/
def drawn' (power : List (Nat × Nat)) (i : Nat) : Nat := min (reading power i 0) 65535
def warmth (temp : List (Nat × Nat)) (s : State) (i : Nat) : Nat := min (reading temp i (islandOf s i).temp.toNat) 255

/-- The sum of the draws of some islands. -/
def drawSum (power : List (Nat × Nat)) (is : List Nat) : Nat := (is.map (drawn' power)).sum

/-- The islands that Meridian sets a state on, by kind: those of the quads and those of the base dies (R444, R446). -/
def meridianKinds : List (List Nat) := [List.range 288, List.range' 352 128]

/-- The frame of a sector of HBM. -/
def frameAt (sector : Nat) : Nat := sector / 1024 * 65536

/-- The sector is poisoned, and counted (R452, R453). -/
def withPoison (corrected sector : Nat) (s : State) : State :=
  { s with
    cecnt := min (s.cecnt + corrected) (2 ^ 64 - 1), uecnt := min (s.uecnt + 1) (2 ^ 64 - 1)
    poison := insertNat s.poison sector, poisoned := insertNat s.poisoned (frameAt sector) }

/-- Steps 3 and 4 of the reset `r` go through at once from `b`, where its partition's teams are gone (R450): `t` once its drafts are
discarded, `u` once its sequences have ended. No channel owns what it still writes, and no copy of a QCB that it recovers is
poisoned under the device's own identifier. -/
structure ResetRuns (r : Reset) (b t u : State) : Prop where
  drafts : closeDrafts r.func (draftsOf b r.func) b = .ok t
  stands : resetOf t r.func = some r
  slots :
    let left := if r.keepSeq = true then [] else slotsOf t r.func
    endSlots r.func left (onReset r.func (fun r => { r with slots := some left }) t) = .ok u
  clear : ∀ q ∈ queuesOf u r.func, queueOwned u q = false ∧
    (r.replay = true → qcfgEnable (queueOf u q).cfg = true → deviceCopyPoisoned u q = false)

/-- The reset as it begins. -/
def freshReset (f reason addr dom : Nat) (replay keep : Bool) : Reset := ⟨f, reason, addr, dom, replay, keep, none, none⟩

/-- The partition's teams and pending launches are gone, and every other team stands on its cores as it stood (R450, steps 1 and
2). -/
structure TeamsGone (s : State) (f : Nat) (y : State) : Prop where
  gone : ∀ t ∈ y.teams, t.func ≠ f
  others : ∀ t ∈ s.teams, t.func ≠ f → (∀ o ∈ s.teams, o.func = f → o.uid ≠ t.uid) →
    ∃ o ∈ y.teams, o.uid = t.uid ∧ o.func = t.func ∧ o.cores = t.cores ∧ o.resident = t.resident ∧ o.ended = t.ended
  launches : ∀ p ∈ y.launches, p.queue ∉ queuesOf s f

/-- What the last steps of the reset `r` leave (R449, R450): one reset more in PRDONE, its event last of the function's, no command
in its queues, and each queue disabled without replay; with it a queue that still runs takes entries again from where its last
fence stood. -/
structure ResetEnds (r : Reset) (u y : State) : Prop where
  counted : y.prdone = min (u.prdone + 1) (2 ^ 32 - 1)
  event : (funcOf y r.func).events.getLast? = some ⟨7, r.reason, 0, r.domain, r.address⟩
  queues : ∀ q ∈ queuesOf u r.func, (queueOf y q).commands = [] ∧
    (r.replay = false → qcfgEnable (queueOf y q).cfg = false) ∧
    (r.replay = true → qcfgEnable (queueOf y q).cfg = true → (queueOf y q).consumed = (queueOf y q).fenced)

/-- FENCED of a copy of a QCB (R387). -/
def fencedOf (copy : Nat) : Nat := copy / 2 ^ 384 % 2 ^ 64

/-- What survives a package reset that poison causes: memory, without the owners' keys, and which sectors are poisoned
(R453). -/
def RestartedBy (s t : State) : Prop :=
  t.memory = s.memory.forgetOwners ∧ t.poison = s.poison ∧ t.teams = [] ∧ t.queues = [] ∧ t.domains = [] ∧ t.keys = [] ∧
    t.launches = [] ∧ t.translations = [] ∧ t.ptroot = 0

/-- The dies that a bundle replaces, in their order (R432, R433). -/
def bundleOf (dies : List Nat) : List Nat := (List.range 9).filter dies.contains

/-- The next die of an update has no one on it. -/
def DieReady (s : State) (d : Nat) : Prop :=
  s.update.stat = 1 ∧ s.update.die = d ∧ (d < 8 → dieIdle s d = true) ∧ (s.teams.filter (usesDie s d)) = [] ∧
    swapFits s = true

end Sys2Proof.Claims

/-- R431 to R433, R443 to R455: resets of a partition by the operator, by a launch's time limit and by a function-level
reset, and what a reset that goes through at once leaves: the teams of the partition gone and all others standing, PRDONE, its
event, and its queues disabled, or with replay at the FENCED of the QCB copy that they recover; Meridian's interval, on the islands
of the quads and of the base dies, with W0 at 0 for at most 15 intervals at a time on one that stays too hot; errors of storage and link; a sector that is
poisoned, its second time in a frame and its reset of the package under key identifier 0; what reads poison and what clears it;
package reset; a firmware update, die by die. The mean that an
island is compared with (log 65), the event that brings errors outside HBM (log 48), the identifier of a sector that was never
written and which pages stand in a frame (log 97), how a reset reaches the records of a function whose driver walks (log 103), the count of a retrained link
(log 66) and the status of an empty bundle (log 67) are the model's. -/
def Obligations.OperatorEvents : Prop :=
  ∀ s : State,
    (∀ func : Nat, func ≤ 64 → linkRuns s = true →
      exec (.functionLevelReset func) s = .next (partitionReset s func 5 0 0 false false) ∧
      ∀ replay keep : Bool,
        exec (.preset (BitVec.ofNat 64 (func + (if replay = true then 128 else 0) + (if keep = true then 256 else 0)))) s =
          .next (partitionReset s func 1 0 0 replay keep)) ∧
    (∀ uid t, teamBy s uid = some t → (funcOf s t.func).flimit.toNat % 2 ^ 32 ≠ 0 →
      1000 * ((funcOf s t.func).flimit.toNat % 2 ^ 32) ≤ 64 * (s.time - t.admitted + 1) →
      exec (.launchTimeLimit uid) s = .next (partitionReset s t.func 2 0 t.domain true false)) ∧
    (∀ f reason addr dom replay keep, (∀ r ∈ s.resets, r.func ≠ f) →
      let r := freshReset f reason addr dom replay keep
      let b := { discardTeams s f with resets := s.resets ++ [r] }
      TeamsGone s f (discardTeams s f) ∧
      (∀ t u, ResetRuns r b t u →
        partitionReset s f reason addr dom replay keep = endReset r u ∧ ResetEnds r u (endReset r u)) ∧
      (draftsOf b f = [] → keep = true ∨ slotsOf b f = [] → (∀ q ∈ queuesOf b f, queueOwned b q = false ∧
          (replay = true → qcfgEnable (queueOf b q).cfg = true → deviceCopyPoisoned b q = false)) →
        TeamsGone s f (partitionReset s f reason addr dom replay keep) ∧
          ResetEnds r s (partitionReset s f reason addr dom replay keep))) ∧
    (∀ q, qcfgEnable (queueOf s q).cfg = true →
      qcfgEnable (queueOf (recoverQueue false s q) q).cfg = false ∧
      let r := recallAll s (copyAt s q 0) 128 false
      (∀ i copy, currentCopy r q = some (i, copy) →
        (queueOf (recoverQueue true s q) q).consumed = fencedOf copy ∧
          (queueOf (recoverQueue true s q) q).fenced = fencedOf copy) ∧
      (currentCopy r q = none → qcfgEnable (queueOf (recoverQueue true s q) q).cfg = false)) ∧
    (∀ power temp, ∃ t, exec (.meridianInterval power temp) s = .next t ∧ t.time = s.time + 1 ∧
      t.memory = s.memory ∧ t.cores = s.cores ∧ t.pkgw = min (drawSum power (List.range 512) / 10) 65535 ∧
      ∀ kind ∈ meridianKinds, ∀ i ∈ kind, (islandOf t i).temp.toNat = warmth temp s i ∧ (islandOf t i).power.toNat = drawn' power i ∧
        (islandOf t i).state = meridianState (islandOf s i).state (warmth temp s i)
          (decide (10 * (s.capw.toNat % 2 ^ 16) < drawSum power (List.range 512)))
          (decide (drawSum power (List.range 512) + 1000 ≤ 10 * (s.capw.toNat % 2 ^ 16)))
          (decide (drawSum power kind < drawn' power i * kind.length)) ∧
        ((islandOf s i).state = 7 → 105 ≤ warmth temp s i →
          ((∀ e ∈ (islandOf s i).zeroed, e.1 ≠ 0) → weightOf' t i 0 = 0) ∧
          ∀ e, (islandOf s i).zeroed.find? (·.1 == 0) = some e →
            (e.2 < 15 → weightOf' t i 0 = 0) ∧ (15 ≤ e.2 → (islandOf t i).zeroed = [])) ∧
        let row := optabRow s (islandOf t i).state
        (islandOf t i).clock.toNat = row % 2 ^ 10 ∧ (islandOf t i).weights =
          [row / 2 ^ 10 % 2 ^ 5, row / 2 ^ 15 % 2 ^ 5, row / 2 ^ 20 % 2 ^ 5, row / 2 ^ 25 % 2 ^ 5]) ∧
    (∀ good n, exec (.hbmPatrol (good, n) ([], [])) s =
      .next { s with cecnt := min (s.cecnt + (good.length + n)) (2 ^ 64 - 1) }) ∧
    (∀ good n f, f ≤ 64 → exec (.hbmPatrol (good, n) ([], [f])) s = .next (partitionReset { s with
      cecnt := min (s.cecnt + (good.length + n)) (2 ^ 64 - 1), uecnt := min (s.uecnt + 1) (2 ^ 64 - 1) }
        f 4 0 0 true false)) ∧
    (∀ good n p, 64 * p + 64 ≤ Config.hbmBytes → memNat s.poison p = false →
      let marked := withPoison (good.length + n) p s
      let again := postEvent { marked with retired := insertNat s.retired (frameAt p) } 0 ⟨8, 0, 0, 0, frameAt p⟩
      let inFrame (d : Nat) (page : Nat) : Prop := standsIn s (domainOf s d).func (frameAt p) page = true
      (∀ key, key ≠ 0 → s.memory.keyAt (64 * p) = some key →
        (frameAt p ∉ s.poisoned → exec (.hbmPatrol (good, n) ([p], [])) s = .next marked) ∧
        (frameAt p ∈ s.poisoned → ∃ t, exec (.hbmPatrol (good, n) ([p], [])) s = .next t ∧
          t = { again with domains := t.domains } ∧ ∀ d ∈ s.domains.map (·.1),
            (∀ i < (domainOf s d).kvpages.toNat, pageReady (kvPage (domainOf s d) i) = true →
              inFrame d ((domainOf s d).kvbase.toNat + i) → kvPage (domainOf t d) i = .retired) ∧
            ∀ i < (domainOf s d).covgran.toNat, granuleFree (granuleAt (domainOf s d) i).state = true →
              inFrame d ((domainOf s d).covbase.toNat + i) → (granuleAt (domainOf t d) i).state = .retired)) ∧
      (s.memory.keyAt (64 * p) = some 0 ∨ s.memory.keyAt (64 * p) = none →
        ∃ t, exec (.hbmPatrol (good, n) ([p], [])) s = .next t ∧ RestartedBy marked t)) ∧
    (∀ (m : Act Unit) key va, m s = .error (.poison key va) →
      (key ≠ 0 → finish m s = .next (partitionReset s (myFunc s) 4 (va / 64 * 64) (myDomain s) true false)) ∧
      (key = 0 → ∃ t, finish m s = .next t ∧ RestartedBy s t)) ∧
    (∀ (p : Place) va n, p.pa < hostBase → memNat s.poison (p.pa / 64) = true →
      loadAt p va n [] s = .error (.poison p.key va)) ∧
    (∀ key a bs tag, a % 64 = 0 → bs.length = 64 → memNat (physPut s key a bs tag).poison (a / 64) = false) ∧
    exec (.linkCrcError false) s = .next { s with lretry := min (s.lretry + 1) (2 ^ 64 - 1) } ∧
    exec (.linkCrcError true) s = .next { s with
      lretry := min (s.lretry + 1) (2 ^ 64 - 1), uecnt := min (s.uecnt + 1) (2 ^ 64 - 1) } ∧
    (∀ verified, ∃ t, exec (.packageReset verified) s = .next t ∧ t.memory = s.memory.forgetOwners ∧
      t.memory.keys = s.memory.keys ∧ t.memory.tags = s.memory.tags ∧ t.teams = [] ∧ t.queues = [] ∧
      t.domains = [] ∧ t.keys = [] ∧ t.ptroot = 0 ∧ t.capw = 4200 ∧ t.slice = 2000 ∧
      (∀ d < 9, (lookD t.dies d {}).halted = !verified.contains d) ∧
      ∀ c < 1664, (coreOf t c).started = verified.contains (dieOf c) ∧ (coreOf t c).team = none) ∧
    (∀ (len : BitVec 64) (lo hi : Nat) (dies : List Nat), linkRuns s = true → s.update.stat ≠ 1 →
      let next (stat : Nat) : State := { s with update := { s.update with
        stat := stat, die := (bundleOf dies).headD 0, image := s.update.image + 1, vmin := lo, vmax := hi
        bundle := bundleOf dies } }
      ((∀ d < 9, d ∉ dies → max lo (lookD s.dies d {}).vmin ≤ min hi (lookD s.dies d {}).vmax) →
        exec (.firmwareUpdate len (lo, hi) dies) s = .next (next (if bundleOf dies = [] then 2 else 1))) ∧
      ((∃ d < 9, d ∉ dies ∧ min hi (lookD s.dies d {}).vmax < max lo (lookD s.dies d {}).vmin) →
        exec (.firmwareUpdate len (lo, hi) dies) s = .next (next 3))) ∧
    ∀ d, DieReady s d →
      (exec (.firmwareDieUpdate false) s = .next { s with update := { s.update with stat := 4 } }) ∧
      (∀ n rest, s.update.bundle.filter (d < ·) = n :: rest → exec (.firmwareDieUpdate true) s =
        .next { replaceImage s d with update := { s.update with die := n } }) ∧
      (s.update.bundle.filter (d < ·) = [] → exec (.firmwareDieUpdate true) s =
        .next { replaceImage s d with update := { s.update with stat := 2 } })

namespace Sys2Proof.Claims

/-- The responder answers: the response stands, and joins the transcript. -/
def answered' (bs : List Byte) (s : State) : State :=
  onSpdm s fun r => { r with response := bs, error := false, transcript := r.transcript ++ bs }

/-- The responder refuses: an error response, and nothing else changes. -/
def refused (s : State) : State := onSpdm s fun r => { r with response := [], error := true }

/-- A session that FINISH has completed. -/
def Secured (s : State) (n : Nat) : Prop := ∃ x, look s.spdm.sessions n = some x ∧ x.finished = true

/-- An owner key may change: in a secured session, for an identifier in [1, 4095] that is no domain's (R458). -/
def KeyMay (s : State) (session id : Nat) : Prop :=
  Secured s session ∧ 1 ≤ id ∧ id ≤ 4095 ∧ ∀ e ∈ s.domains, e.2.keyid.toNat ≠ id

end Sys2Proof.Claims

/-- R456 to R458: the requests of the SPDM responder: what needs the connection, what needs a secured session, and what
each changes; a challenge is signed by the identity key under ECDSA with SHA-384; a refused request changes nothing but the
response. The order of the first three requests and the bytes of the payloads are the model's (log 46). -/
def Obligations.TrustRequests : Prop :=
  ∀ s : State,
    (∃ t, exec .getVersion s = .next t ∧ t.spdm.version = true ∧ t.spdm.error = false ∧ t.memory = s.memory) ∧
    (s.spdm.version = true →
      ∃ t, exec .getCapabilities s = .next t ∧ t.spdm.capable = true ∧ t.spdm.error = false) ∧
    (s.spdm.version = false → exec .getCapabilities s = .next (refused s)) ∧
    (∀ offered, s.spdm.capable = true → (∀ a ∈ [SpdmAlgorithm.ecdsaP384, .sha384, .ecdheP384, .aes256Gcm], a ∈ offered) →
      ∃ t, exec (.negotiateAlgorithms offered) s = .next t ∧ t.spdm.agreed = true ∧ t.spdm.error = false) ∧
    (s.spdm.agreed = true →
      (∃ t, exec .getDigests s = .next t ∧ t.spdm.error = false ∧
        t.spdm.response.take 48 = sha384 Config.deviceChain) ∧
      (∀ slot offset n chain, chainOf s slot = some chain → offset < chain.length →
        exec (.getCertificate slot offset n) s = .next (answered' ((chain.drop offset).take n) s)) ∧
      (∀ slot chain nonce, chainOf s slot = some chain →
        let body := sha384 chain ++ bytesOf 32 nonce.toNat
        let message := s.spdm.transcript ++ body
        ∃ t, exec (.challenge slot nonce) s = .next t ∧ t.spdm.error = false ∧
          t.spdm.response = body ++ ecdsaSha384 Config.identityKey (Config.signDraw message) message) ∧
      (∀ index m, index ≠ 0 → index ≠ 0xFF → measurement s index = some m →
        exec (.getMeasurements (index, none)) s = .next (answered' m s) ∧
        ∀ slot chain nonce, chainOf s slot = some chain →
          ∃ t, exec (.getMeasurements (index, some (slot, nonce))) s = .next t ∧ t.spdm.error = false ∧
            t.spdm.response.take (m.length + 32) = m ++ bytesOf 32 nonce.toNat) ∧
      (∀ share, ∃ t, exec (.keyExchange share) s = .next t ∧ t.spdm.opened = s.spdm.opened + 1 ∧
        look t.spdm.sessions (s.spdm.opened + 1) = some ⟨false, 0⟩ ∧ t.spdm.share = share)) ∧
    (∀ x, look s.spdm.sessions s.spdm.opened = some x → x.finished = false →
      exec (.finish (Config.sessionMac s.spdm.opened s.spdm.share)) s = .next (answered' []
        (onSpdm s fun r => { r with sessions := put r.sessions s.spdm.opened { x with finished := true } }))) ∧
    ∀ n, (Secured s n →
        exec (.heartbeat n) s = .next (answered' [] s) ∧
        exec (.endSession n) s = .next (answered' [] (onSpdm s fun r => { r with sessions := drop r.sessions n })) ∧
        (∀ x, look s.spdm.sessions n = some x → exec (.keyUpdate n) s = .next (answered' []
          (onSpdm s fun r => { r with sessions := put r.sessions n { x with generation := x.generation + 1 } }))) ∧
        ∀ chain, exec (.setCertificate n 1 chain) s =
          .next (answered' [] (onSpdm s fun r => { r with chain1 := some chain }))) ∧
      (¬ Secured s n → ∀ slot chain id key,
        exec (.heartbeat n) s = .next (refused s) ∧ exec (.endSession n) s = .next (refused s) ∧
        exec (.keyUpdate n) s = .next (refused s) ∧ exec (.setCertificate n slot chain) s = .next (refused s) ∧
        exec (.setkey n id key) s = .next (refused s) ∧ exec (.genkey n id) s = .next (refused s) ∧
        exec (.dropkey n id) s = .next (refused s)) ∧
      ∀ id key, KeyMay s n id →
        exec (.setkey n id key) s = .next (answered' [] (rekey s id (some key))) ∧
        exec (.genkey n id) s = .next (answered' [] (rekey s id (some (Config.ownerKey s.serial)))) ∧
        exec (.dropkey n id) s = .next (answered' [] (rekey s id none))

/-! ### Registers, frames, steps and invariants -/

namespace Sys2Proof.Claims

/-- Everything stands but the issuing context and the counts of covered granules. -/
structure OthersStand (s t : State) : Prop where
  machine : t = { s with cores := t.cores, domains := t.domains }
  contexts : ∀ id, id ≠ who s → ctxOf t id = ctxOf s id
  cores : ∀ c, coreOf t c = { coreOf s c with slots := (coreOf t c).slots }

/-- An instruction that writes capability register `a` alone: every other register, the mask, vector and moment
registers, the rounding, coverage and trap registers, the generators and memory stand; the counts of covered granules
stand where `a` held no view. -/
structure RegisterFrameOf (a : Reg) (s t : State) : Prop extends OthersStand s t where
  context : me t = { me s with regs := (me t).regs, shadow := (me t).shadow, code := (me t).code }
  registers : ∀ n : Reg, n ≠ a → reg t n = reg s n
  coverage : isView (reg s a) = false → t.domains = s.domains

/-- An instruction that writes vector register `a` alone and may draw. -/
structure VectorFrameOf (a : Nat) (s t : State) : Prop extends OthersStand s t where
  coverage : t.domains = s.domains
  context : me t = { me s with v := (me t).v, gens := (me t).gens, code := (me t).code }
  registers : ∀ n, n ≠ a → vreg (me t) n = vreg (me s) n

/-- An instruction that writes moment register `a` alone, and CLAMPED of `%covmode`. -/
structure MomentFrameOf (a : Nat) (s t : State) : Prop extends OthersStand s t where
  coverage : t.domains = s.domains
  context : me t = { me s with e := (me t).e, covmode := (me t).covmode, code := (me t).code }
  registers : ∀ n, n ≠ a → ereg (me t) n = ereg (me s) n

/-- The integer, 128-bit and capability-reading instructions with their destination: those that write `cA` and neither
trap nor touch memory. -/
inductive WritesOnly : Instr → Reg → Prop
  | two (r : AluRow) (h : r ∈ aluRows) (a b c : Reg) : WritesOnly (r.short a b c) a
  | twoWide (r : AluRow) (h : r ∈ aluRows) (a b : Reg) (o : Op2) : WritesOnly (r.wide a b o) a
  | one (r : CountRow) (h : r ∈ countRows) (a b : Reg) : WritesOnly (r.short a b) a
  | oneExt (r : CountRow) (h : r ∈ countRows) (a b : Reg) (w : BitWidth) : WritesOnly (r.ext a b w) a
  | quad (r : QuadRow) (h : r ∈ quadRows) (a b c : Reg) : WritesOnly (r.short a b c) a
  | quadWide (r : QuadRow) (h : r ∈ quadRows) (a b : Reg) (o : Op2) : WritesOnly (r.wide a b o) a
  | cursor (a b : Reg) : WritesOnly (.kcur a b) a
  | perms (a b : Reg) : WritesOnly (.kperm a b) a
  | tag (a b : Reg) : WritesOnly (.ktag a b) a
  | base (a b : Reg) : WritesOnly (.kbase a b) a
  | top (a b : Reg) : WritesOnly (.ktop a b) a
  | length (a b : Reg) : WritesOnly (.klen a b) a
  | inside (a b c : Reg) : WritesOnly (.kinside a b c) a

end Sys2Proof.Claims

/-- R217, R55: what a register reads after a write: the value written, any other register as before; `c0` reads null and
a write to it has no effect on any register. -/
def Obligations.RegisterWrites : Prop :=
  ∀ (n m : Reg) (v : Cap) (w x : Nat) (s : State),
    (n ≠ 0 → reg (writeCap n v s) n = v ∧ reg (writeInt n w x s) n = Cap.plain (BitVec.ofNat 128 (x % 2 ^ w))) ∧
    (m ≠ n → reg (writeCap n v s) m = reg s m ∧ reg (writeInt n w x s) m = reg s m) ∧
    reg s 0 = Cap.null ∧ reg (writeCap 0 v s) m = reg s m ∧ writeInt 0 w x s = s

/-- The frames of the register instructions: what an integer, 128-bit, capability-reading, vector or moment instruction
leaves unchanged. The registers that each writes are those of its rule (R221 to R223, R228, R256, R279). -/
def Obligations.RegisterFrames : Prop :=
  (∀ i a, WritesOnly i a → ∀ s t, exec i s = .next t → RegisterFrameOf a s t) ∧
  (∀ r ∈ binaryRows, ∀ (a b c : Reg) (fmt : Fmt) (x : VecX) (s t : State),
    (Plain s a → Plain s b → Plain s c → exec (r.short a b c fmt) s = .next t → VectorFrameOf a.val s t) ∧
    ∀ na nb nc, ReachA s a x na → ReachB s b x nb → ReachC s c x nc → exec (r.ext a b c x) s = .next t →
      VectorFrameOf na s t) ∧
  (∀ r ∈ unaryRows, ∀ (a b : Reg) (fmt : Fmt) (x : VecX) (s t : State),
    (Plain s a → Plain s b → exec (r.short a b fmt) s = .next t → VectorFrameOf a.val s t) ∧
    ∀ na nb, ReachA s a x na → ReachB s b x nb → exec (r.ext a b x) s = .next t → VectorFrameOf na s t) ∧
  ∀ (a : Nat) (mask : BitVec 64) (g : Nat → Pair) (hit : Nat → Bool) (n : Nat) (s : State),
    MomentFrameOf a s (advance n (pairsInto a mask g hit s))

namespace Sys2Proof.Claims

/-- Every leaf that an access at `va`, or the fill of its sector, may use: those cached and the one a walk finds (R411). -/
def mayUse (s : State) (va : Nat) : List Translation :=
  [va, va / 64 * 64].flatMap fun v => cachedFor s v ++ (match walk s v with
    | .leaf t => [t]
    | .fails _ => [])

/-- No window that would have to give the sector of `va` up holds it Dirty (R125). -/
def Quiet (s : State) (a : Actor) (va : Nat) : Prop :=
  ∀ v ∈ [va, va / 64 * 64], ∀ c, (a.served = true → c ≠ a.core) → ∀ num w w', (num, w) ∈ (coreOf s c).windows →
    (num, w') ∈ (coreOf s c).windows → windowHolds w v = true → (sectorState w' (sectorOf w v)).isDirty = false

/-- The places of the entries that a walk of `va` reads, from a table on (R409). -/
def walkEntries (s : State) (va : Nat) : List (Nat × Nat) → Nat → List Nat
  | [], _ => []
  | (shift, width) :: rest, table =>
    let a := table + 16 * (va / 2 ^ shift % 2 ^ width)
    let e := tableEntry s a
    a :: (if bit e 0 && !bit e 1 then walkEntries s va rest (leafPA e) else [])

/-- The tables that an access at `va` may come to: the entries of its walks and of the leaves it may use, and the grant table
of its team's domain. -/
def tablesOf (s : State) (a : Actor) (va : Nat) : List (Nat × Nat) :=
  ([va, va / 64 * 64].flatMap fun v => (walkEntries s v levels (rootTable s)).map fun p => (p, 16)) ++
    ((mayUse s va).flatMap fun t => t.leafAt.toList.map fun p => (p, 16)) ++
    ((a.team.bind (teamBy s)).toList.map fun t =>
      (grantTable (domainOf s t.domain), 32 * min 4096 (domainOf s t.domain).gcnt.toNat))

/-- No window holds a Dirty sector that stands, by the translation it was filled under, for some of these tables (R125). -/
def TablesQuiet (s : State) (a : Actor) (va : Nat) : Prop :=
  ∀ c num w w', (num, w) ∈ (coreOf s c).windows → (num, w') ∈ (coreOf s c).windows → ∀ e ∈ w.sectors,
    (sectorState w' e.1).isDirty = true → ∀ t, e.2.leaf? = some t → ∀ p ∈ tablesOf s a va,
      ¬ Meets p.1 p.2 (placeOf t (w.base + 64 * e.1)) 64

/-- Byte `x` lies in no sector that holds a leaf entry the access may use, whose AC and DT it may set (R411). -/
def OffLeaves (s : State) (va x : Nat) : Prop := ∀ t ∈ mayUse s va, ∀ a, t.leafAt = some a → x / 64 ≠ a / 64

/-- Byte `x` lies outside the `n` bytes stored at `va` and outside the sector where they stand (R430). -/
def OffStore (s : State) (va n x : Nat) : Prop :=
  ∀ t ∈ mayUse s va, x / 64 ≠ placeOf t va / 64 ∧ ¬ (placeOf t va ≤ x ∧ x < placeOf t va + n)

end Sys2Proof.Claims

/-- R124, R125, R410, R411, R430: the frame of memory: where no window holds the sector, or the tables that the access reads,
Dirty, a read of a piece changes no byte outside the leaf entries it marks; a write changes no byte outside those and the bytes stored, each address
computed by the translation that the access uses; within the sector stored to, bytes read under the leaf's key
identifier stand. A scalar access inside one sector changes memory as its one piece does, and what follows it changes
none. -/
def Obligations.MemoryFrames : Prop :=
  ∀ (a : Actor) (va rights : Nat) (s : State), Quiet s a va → TablesQuiet s a va →
    (∀ n r t, va % 64 + n ≤ 64 → readPiece a va n rights s = .ok (r, t) →
      ∀ x, OffLeaves s va x → t.memory.byte x = s.memory.byte x) ∧
    (∀ bs tag t, va % 64 + bs.length ≤ 64 → writePiece a va bs tag rights s = .ok ((), t) →
      (∀ x, OffLeaves s va x → OffStore s va bs.length x → t.memory.byte x = s.memory.byte x) ∧
      ∀ pa key, (∀ tr ∈ mayUse s va, placeOf tr va = pa ∧ leafKey tr.entry.toNat = key) → pa % 64 + bs.length ≤ 64 →
        ∀ x, OffLeaves s va x → x < pa ∨ pa + bs.length ≤ x →
          t.memory.readKeyed key x 1 = s.memory.readKeyed key x 1) ∧
    (∀ n, 0 < n → va % 64 + n ≤ 64 → pieces va n = [(va, n)]) ∧
    ∀ len (x : MemX) (b : Reg) (v : Nat) (t : State),
      (accessed len x t).memory = t.memory ∧ (accessed len x (writeInt b 64 v t)).memory = t.memory

namespace Sys2Proof.Claims

/-- The bytes of instruction words. -/
def wordsOf (ws : List Nat) : List Byte := ws.flatMap fun w => (List.range 4).map fun i => BitVec.ofNat 8 (w / 256 ^ i)

/-- The words decode to the instruction and nothing is left. -/
def Decodes (ws : List Nat) (i : Instr) : Prop := decode (wordsOf ws) = .ok (i, [])

end Sys2Proof.Claims

/-- R178 to R192: worked encodings of the spec, and words written out from its tables, decode to the instruction they
stand for. -/
def Sys2Proof.Claims.DecodeWords : Prop :=
  Decodes [0x00000E1D, 0x3F800000, 0x00000000] (.vsplatWide 3 (.lit 0x3F800000 .f32)) ∧
  Decodes [0x00031EAA, 0x00000008, 0x00200009] (.amo 7 3 9 .add false ⟨0, 8, .lane, .plain⟩) ∧
  Decodes [0x000002B6, 0x80000000, 0x00000000] (.fence .pkg) ∧
  Decodes [0x0595530A, 0x00000003, 0x00000308] (.kvApp 20 21 22 8 12 3) ∧
  Decodes [0x030A0F2A, 0x00000000, 0x0010000D] (.msgSend 3 10 12 13 .release) ∧
  Decodes [0x0009132E, 0x00000000, 0x00000000] (.mig 4 9) ∧
  Decodes [4 + 1024 * 5 + 65536 * 6 + 4194304 * 7] (.add 5 6 7)

/-- R194: encodings that no instruction has are refused. -/
def Sys2Proof.Claims.IllegalWords : Prop :=
  (∀ rest, ∃ e, decode (wordsOf [0x00000000] ++ rest) = .error e) ∧
  (∃ e, decode (wordsOf [0xF0000004]) = .error e) ∧
  ∀ bs : List Byte, bs.length < 4 → ∃ e, decode bs = .error e

/-- R178 to R192: for every well-formed instruction that has an encoding, the decoder reads the instruction back from its
words with every operand, whatever bytes follow, and leaves them. -/
def Obligations.EncodingRoundTrip : Prop :=
  ∀ (i : Instr) (rest : List Byte), i.wf = true → i.isEvent = false → decode (encodeBytes i ++ rest) = .ok (i, rest)

namespace Sys2Proof.Claims

/-- An outcome of a step, with the turn passed on: the core in turn spends a cycle, the resets of partitions that have begun go on
(R450), the next agent is a free choice, the step is counted (log 1). -/
def passed (s : State) : Host.Outcome State Fault Refusal → Host.Outcome State Fault Refusal
  | .next t =>
    let u := settleResets (match s.turn with
      | .issue c => onCore t c fun k => { k with cycle := k.cycle + 1, rounded := false }
      | .event _ => t)
    .next { u with turn := Config.nextTurn s.serial, serial := s.serial + 1 }
  | .fault f => .fault f
  | .refused r => .refused r

end Sys2Proof.Claims

/-- R14, R15, R21, R35, R41, R44, R194, R218: a step of an issuing core does the grant round that is due in the cycle, then
fetches at the program counter of the slot selected and runs the instruction that the bytes decode to; bytes that decode
to none take the illegal-instruction trap; a slot that owes a route fault takes it; with no eligible slot the cycle is
idle; a step of an event runs it. That the agents move in any order (log 1), and where in its cycle a grant round and an
owed route fault come (log 70), is the model's reading. -/
def Obligations.StepRunsDecoded : Prop :=
  ∀ s : State,
    (∀ c slot, s.turn = .issue c →
      let r := pendingRound c s
      let f := fetchBytes (issueSlot r c slot)
      select (coreOf r c) = some slot →
      (∀ t, takeOwed r ⟨c, slot⟩ = some t → step s = passed s (.next t)) ∧
      (takeOwed r ⟨c, slot⟩ = none →
        (∀ bs t i rest, f = .ok (bs, t) → decode bs = .ok (i, rest) → step s = passed s (exec i t)) ∧
        (∀ bs t e, f = .ok (bs, t) → decode bs = .error e →
          step s = passed s (.next (deliverTrap ⟨causeIllegal, natOfBytes (bs.take 4), 0⟩ t))) ∧
        (∀ w, f = .error (.hold w) →
          step s = passed s (.next (onMe (issueSlot r c slot) fun x => { x with
            wait := w, holding := (standing (coreOf r c) slot).any (·.keeps) }))) ∧
        ∀ e, f = .error e → (∀ w, e ≠ .hold w) → step s = passed s (finish (stop e) (issueSlot r c slot)))) ∧
    (∀ c, s.turn = .issue c → select (coreOf (pendingRound c s) c) = none →
      step s = passed s (.next (pendingRound c s))) ∧
    ∀ e, s.turn = .event e → e.isEvent = true → step s = passed s (exec e s)

namespace Sys2Proof.Claims

/-- Slot `n` of a core is ready and its turn interval has passed (R14, R15). -/
def MayIssue (k : Core) (n : Nat) : Prop :=
  ∃ x, look k.slots n = some x ∧ x.status = .live ∧ x.wait = .none ∧ (x.preempt = false ∨ x.holding = true) ∧
    x.fetched = true ∧
    x.readyAt ≤ k.cycle ∧ (n = 11 → k.trapOpen = true ∨ k.run ≠ .idle)

end Sys2Proof.Claims

/-- R14, R15: the selector takes the first slot that may issue, in rotation after the one that issued last, and none only
where none may; the slot that issued may not issue again for eight cycles. -/
def Sys2Proof.Claims.BarrelSelection : Prop :=
  (∀ (k : Core) (n : Nat), k.started = true → (select k = some n ↔
    ∃ d, 1 ≤ d ∧ d ≤ 12 ∧ (k.last + d) % 12 = n ∧ MayIssue k n ∧
      ∀ d', 1 ≤ d' → d' < d → ¬ MayIssue k ((k.last + d') % 12))) ∧
  ∀ (s : State) (c slot : Nat), (ctxOf (issueSlot s c slot) ⟨c, slot⟩).readyAt = (coreOf s c).cycle + 8 ∧
    (coreOf (issueSlot s c slot) c).last = slot

/-- R25, R67, R82, R384, R386, R408, R413, R441, R444, R445: what package reset leaves, where the spec states the
value. -/
def Sys2Proof.Claims.ResetState : Prop :=
  let s := State.reset
  s.ptroot = 0 ∧ s.swapbase = 0 ∧ s.swaplen = 0 ∧ s.sddone = 0 ∧ s.capw = 4200 ∧ s.slice = 2000 ∧ s.teams = [] ∧
  (∀ n row, optabReset[n]? = some row → optabRow s n = row.1 + row.2.1 * 2 ^ 10 + row.2.2.1 * 2 ^ 15 +
    row.2.2.2.1 * 2 ^ 20 + row.2.2.2.2 * 2 ^ 25) ∧
  (∀ f, (funcOf s f).fseg = 0 ∧ (funcOf s f).flen = 0 ∧ (funcOf s f).fmode = 0 ∧ (funcOf s f).fevr = 0 ∧
    (funcOf s f).fdrop = 0) ∧
  (∀ q, (queueOf s q).cfg = 0) ∧
  (∀ d, (domainOf s d).kvbase = 0 ∧ (domainOf s d).kvpages = 0 ∧ (domainOf s d).covbase = 0 ∧
    (domainOf s d).covgran = 0 ∧ (domainOf s d).gbase = 0 ∧ (domainOf s d).gcnt = 0 ∧ (domainOf s d).keyid = 0) ∧
  (∀ i, (islandOf s i).state = 0 ∧ (islandOf s i).power = 0 ∧ (islandOf s i).clock = 700) ∧
  (∀ c, 1152 ≤ c → (coreOf s c).vb = 68 ∧ (coreOf s c).sb = 84 ∧ (coreOf s c).cb = 120) ∧
  ∀ c, (ctxOf s ⟨c, 11⟩).kind = .system ∧ (ctxOf s ⟨c, 11⟩).nv = 8 ∧ (ctxOf s ⟨c, 11⟩).ne = 0

namespace Sys2Proof.Claims

/-- The canonical form of memory, said directly: addresses rise strictly and no listed byte is one that an unlisted
address reads as. -/
def Canonical (m : Memory) : Prop :=
  m.cells.Pairwise (fun p q => p.1 < q.1) ∧ ∀ p ∈ m.cells, p.2 ≠ Config.unwritten

end Sys2Proof.Claims

/-- The memory at reset is in canonical form, and the Bool test of the form says what it should. -/
def Sys2Proof.Claims.ResetCanonical : Prop :=
  Canonical State.reset.memory ∧ ∀ m : Memory, m.wf = true ↔ Canonical m

/-- Every step keeps memory in canonical form, from every state: equal memories stay equal data. -/
def Obligations.MemoryStaysCanonical : Prop :=
  ∀ s t : State, Canonical s.memory → step s = .next t → Canonical t.memory

/-! ### Statements that gather several -/

/-- R222, R223: the counts, the byte reversal and the 128-bit instructions, in all their forms. -/
def Obligations.CountAndQuadResults : Prop := Claims.CountResults ∧ Claims.QuadResults

/-- R57, R59, R226: the bounds that a capability decodes to, the smallest exponent that fits, and what a change of cursor
keeps. -/
def Obligations.BoundsAndCursors : Prop := Claims.BoundsDecode ∧ Claims.FitIsSmallest ∧ Claims.CursorChange

/-- R224 to R227: moves, steps, placements, masks, bounds, locks and their opening, in all their forms. -/
def Obligations.CapabilityDerivations : Prop := Claims.CapabilityMoves ∧ Claims.CapabilityBounds

/-- R217, R218, R229 to R233: branches, jumps, links and sealed entry, and where the program counter stands. -/
def Obligations.BranchesAndJumps : Prop := Claims.Branches ∧ Claims.Jumps ∧ Claims.ProgramCounterMoves

/-- R25, R28 to R31, R234, R235: `start` and `join`, and the context that a start places. -/
def Obligations.Helpers : Prop := Claims.HelpersStartAndJoin ∧ Claims.NewHelper

/-- R30 to R34, R236, R309: `halt` in each of its cases, `spawn`, and the arrival of its request. Where an inline call
keeps its return point is the model's reading (log 16). -/
def Obligations.HaltsAndSpawns : Prop := Claims.Halts ∧ Claims.RemoteSpawn ∧ Claims.SpawnArrivals

/-- R46, R48, R49, R237 to R240: yield, barrier arrivals, semaphores and forwarding registers. That a get leaves the
value bits of the register it empties is the model's reading (log 24). -/
def Obligations.SharedHardware : Prop := Claims.BarriersAndSemaphores ∧ Claims.Forwarding

/-- R244 to R249: software traps, the return of a fast handler, `ifence`, and the privilege faults. -/
def Obligations.SoftwareTraps : Prop := Claims.TrapsAndHandlers ∧ Claims.PrivilegeFaults

/-- R250, R426, R428, R434, R436: context images, and that the cipher opens what it sealed. The steps of the cipher are
the published standard's (log 12), and the order of the checks and of the parts kept is the model's reading (logs 29,
79). -/
def Obligations.SealedImages : Prop := Claims.ContextImages ∧ Claims.SealOpens

/-- R14 to R16, R20, R31, R49: the selector, a fetch unit's delivery, and operations that complete. That a waiting
context stands at its instruction (log 49), and what it keeps of a fetched line (log 53), is the model's reading. -/
def Obligations.BarrelAndFetch : Prop := Claims.BarrelSelection ∧ Claims.FetchDelivery ∧ Claims.OperationsComplete

/-- R11, R316, R333, R342, R343: arrivals at collectives and barriers, and their completion, with the draw from a nucleus. That an instance reads its
shards when it completes is the model's reading (log 56). -/
def Obligations.Collectives : Prop := Claims.CollectiveArrivals ∧ Claims.BarrierCompletes ∧ Claims.NucleusDraw

/-- R40 to R45, R51, R52, R252, R424: grant rounds, restored weights, pre-emption and slice boundaries. When a slice has
lasted, and the length of the next one where no interval ended, is the model's choice (log 65); where the images stand in
the swap area is its reading (log 71). -/
def Obligations.GrantsAndSlices : Prop := Claims.GrantRounds ∧ Claims.SlicesAndPreemption

/-- R128 to R133, R295, R296: copies start, wait, deliver and fault. That a stopped context's transfers pause (log 39),
and that a copy waits for owned lines at its issue (log 58), is the model's reading. -/
def Obligations.CopyChannels : Prop := Claims.CopyIssue ∧ Claims.CopyDeliveries

/-- R142, R149 to R154, R298, R357, R358: covered granules and KV pages: claims, completion, counts and their return. That a
page without a count which is lowered goes to scrub again (log 86), and what a claim does whose granule is retired (log 97), are
the model's choice. -/
def Obligations.CountedStorage : Prop := Claims.CoveredStorage ∧ Claims.CoveredClaims ∧ Claims.PageCounts

/-- R166, R167, R172, R292, R309: fences, and when stores become visible to the host. Which recorded failure a fence
raises (log 35), and where the stores on their way stand (log 84), is the model's reading. -/
def Obligations.FencesAndVisibility : Prop := Claims.Fences ∧ Claims.HostVisibility

/-- R255 to R264: the element-wise instructions on two sources and on one, in all their forms. That a minimum or a maximum
flushes no subnormal is the model's choice (log 90). -/
def Obligations.VectorLanes : Prop := Claims.VectorBinary ∧ Claims.VectorUnary

/-- R87, R189, R256, R261: which elements change, and the integer results. -/
def Obligations.LaneResults : Prop := Claims.ActingLanes ∧ Claims.IntegerLanes

/-- R116 to R119, R263, R265 to R268, R276 to R278: compensated addition, dot products, conversions, packing, draws and
rotary position. That a NaN or an infinity draws too in mode 5 (log 88), and the neighbour that stands for a uniform
value which FP32 does not hold (log 61), is the model's choice. That an exact conversion draws nothing is its reading
(log 26). -/
def Obligations.VectorConversionsAndDraws : Prop := Claims.VectorConversions ∧ Claims.VectorDraws

/-- R269 to R272, R274, R275: comparisons, mask operations, reductions, scans and sorts. That a single acting lane is
carried unchanged is the model's reading (log 25). -/
def Obligations.MasksAndReductions : Prop := Claims.Masks ∧ Claims.ReductionsAndSorts

/-- R106 to R115, R279 to R282: the moment instructions, negative variances and collapses. That a mean or a variance
moves to FP32 bit for bit (log 89) is the model's choice. That -0
is not negative (log 27), what a table step gives on a NaN (log 28) and the lane that a collapse names (log 91) are its
reading. -/
def Obligations.Moments : Prop := Claims.MomentArithmetic ∧ Claims.NegativeVariance ∧ Claims.MomentCollapse

/-- R143 to R151, R245, R300 to R302: the position map and the append of a position. What an entry of a map that refuses
access raises is the model's reading (log 9). -/
def Obligations.PagesOfSequences : Prop := Claims.PositionMap ∧ Claims.KvAppends

/-- R152, R303 to R307: the Cairn instructions, reservations and the end of a sequence. That a match is counted in
tokens (log 38), and the words below a status (log 57), are the model's reading. Which status comes first where the rules order
none, and what reserved bits and a negative number of pages give (logs 99, 100), are its choice. -/
def Obligations.PrefixesAndAdmission : Prop := Claims.CairnInstructions ∧ Claims.Admission

/-- R166 to R168, R308, R310 to R313: messages, and contexts that migrate. That a full send waits for its own number's
acknowledgement is the model's reading (log 58), and that a context moves to the lowest free slot its choice (log 101). -/
def Obligations.MessagesAndMigration : Prop := Claims.MessageSends ∧ Claims.Migration

/-- R68, R324 to R326: row moves and clears of the accumulator tiles. -/
def Obligations.Accumulators : Prop := Claims.AccumulatorRows ∧ Claims.ClearedRows

/-- R336, R337, R344 to R350: vocabulary maps, bindings, steps, drafts and verification. The corners of a step and of a
verification that the rules leave open are the model's reading (log 77). -/
def Obligations.TokenUnit : Prop := Claims.VocabularyMaps ∧ Claims.DrawnSteps

/-- R173, R394 to R397, R403 to R407: the commands of a queue. The statuses of a malformed payload and of a record or
room that fails (log 63) and of a refused access (log 44) are the model's where the rules give none. -/
def Obligations.HostCommands : Prop := Claims.QueueCommands ∧ Claims.BindingCommands

/-- R178 to R194: worked encodings decode to their instruction; encodings of none are refused. -/
def Obligations.Decoding : Prop := Claims.DecodeWords ∧ Claims.IllegalWords

/-- The values that package reset leaves where the spec states them, and the canonical form of memory at reset. -/
def Obligations.Reset : Prop := Claims.ResetState ∧ Claims.ResetCanonical
end

