-- ==== Sys2Proof/Laws/Encoding.lean ====
section
/-!
SUPPORT. The codes of the encoded fields and their decoders agree, and the bytes of an instruction's fields give the
fields back. The per-instruction round trips of `Sys2Proof.Laws.PerInstr` cite these.
-/

namespace Sys2Proof

/-! ### Enumerated fields -/

theorem Fmt.ofCode_code (f : Fmt) : Fmt.ofCode f.code = .ok f := by cases f <;> rfl
theorem Fmt.ofXfn_code (f : Fmt) : Fmt.ofXfn f.xfnCode = .ok f := by cases f <;> rfl
theorem rndOf_code (r : Option Rm) : rndOf (rndCode r) = r := by
  rcases r with _ | m
  · rfl
  · cases m <;> rfl
theorem Scope.ofCode_code (c : Scope) : Scope.ofCode c.code = c := by cases c <;> rfl
theorem Order.ofCode_code (o : Order) : Order.ofCode o.code = o := by cases o <;> rfl
theorem Pin.ofCode_code (p : Pin) : Pin.ofCode p.code = .ok p := by cases p <;> rfl
theorem BitWidth.ofCode_code (w : BitWidth) : BitWidth.ofCode w.code = .ok w := by cases w <;> rfl
theorem Kind.ofC_code (k : Kind) : Kind.ofC k.codeC = .ok k := by cases k <;> rfl
theorem Kind.ofF_code (k : Kind) : Kind.ofF k.codeF = .ok k := by cases k <;> rfl
theorem MaskCond.ofCode_code (c : MaskCond) : MaskCond.ofCode c.code = .ok c := by cases c <;> rfl
theorem PackKind.ofCode_code (k : PackKind) : PackKind.ofCode k.code = .ok k := by cases k <;> rfl
theorem CmpCond.ofCode_code (c : CmpCond) : CmpCond.ofCode c.code = .ok c := by cases c <;> rfl
theorem MaskOp.ofCode_code (o : MaskOp) : MaskOp.ofCode o.code = .ok o := by cases o <;> rfl
theorem MaskProbe.ofCode_code (o : MaskProbe) : MaskProbe.ofCode o.code = .ok o := by cases o <;> rfl
theorem MaskSet.ofCode_code (o : MaskSet) : MaskSet.ofCode o.code = .ok o := by cases o <;> rfl
theorem RedOp.ofCode_code (o : RedOp) : RedOp.ofCode o.code = .ok o := by cases o <;> rfl
theorem ScanOp.ofCode_code (o : ScanOp) : ScanOp.ofCode o.code = .ok o := by cases o <;> rfl
theorem CollForm.ofCode_code (o : CollForm) : CollForm.ofCode o.code = .ok o := by cases o <;> rfl
theorem SumOp.ofCode_code (o : SumOp) : SumOp.ofCode o.code = .ok o := by cases o <;> rfl
theorem AmoOp.ofXfn_code (o : AmoOp) (n : Bool) : AmoOp.ofXfn (amoXfn o n) = .ok o := by cases o <;> cases n <;> rfl
theorem narrowOf_code (o : AmoOp) (n : Bool) : narrowOf (amoXfn o n) = n := by cases o <;> cases n <;> rfl
theorem casNarrow_code (n : Bool) : casNarrow (casXfn n) = .ok n := by cases n <;> rfl

/-! ### One bit, and packed groups -/

theorem boolOfF_bit (x : Bool) : boolOfF (bitF x) = .ok x := by cases x <;> rfl
theorem boolOfXfn_bit (x : Bool) : boolOfXfn (bitXfn x) = .ok x := by cases x <;> rfl
theorem moOfF_mo (x : Bool) : moOfF (moF x) = .ok x := by cases x <;> rfl
theorem moBit_zmo (z m : Bool) : moBit (zmoF z m) = m := by cases z <;> cases m <;> rfl
theorem zOfF_zmo (z m : Bool) : zOfF (zmoF z m) = .ok z := by cases z <;> cases m <;> rfl
theorem word4Of_word4 (w : Fin 4) : word4Of (word4 w) = .ok w := by revert w; decide
theorem chOfXfn_ch (c : Fin 4) (b : Bool) : chOfXfn (chXfn c b) = .ok c := by revert c b; decide
theorem flagOfXfn_ch (c : Fin 4) (b : Bool) : flagOfXfn (chXfn c b) = b := by revert c b; decide
theorem blkOfXfn_blk (k : Fin 8) : blkOfXfn (blkXfn k) = .ok k := by revert k; decide
theorem maskOfXfn_mask (m : Fin 256) : maskOfXfn (maskXfn m) = .ok m := by
  have h := m.isLt
  have : (maskXfn m).val = m.val := Nat.mod_eq_of_lt (Nat.lt_trans h (by decide))
  unfold maskOfXfn; rw [this, if_pos h]; exact congrArg _ (Fin.ext (Nat.mod_eq_of_lt h))
theorem descOf_desc (n : Fin 256) : descOf (descImm n) = .ok n := by
  have h := n.isLt
  have : (descImm n).toNat = n.val := Nat.mod_eq_of_lt (Nat.lt_trans h (by decide))
  unfold descOf; rw [this, if_pos h]; exact congrArg _ (Fin.ext (Nat.mod_eq_of_lt h))
theorem mapOf_map (n : Fin 16) : mapOf (mapImm n) = .ok n := by
  have h := n.isLt
  have : (mapImm n).toNat = n.val := Nat.mod_eq_of_lt (Nat.lt_trans h (by decide))
  unfold mapOf; rw [this, if_pos h]; exact congrArg _ (Fin.ext (Nat.mod_eq_of_lt h))
theorem desc3_toNat (n m p : Fin 256) : (desc3Imm n m p).toNat = n.val + 256 * m.val + 65536 * p.val := by
  have := n.isLt; have := m.isLt; have := p.isLt
  exact Nat.mod_eq_of_lt (by omega)
theorem desc3N_desc3 (n m p : Fin 256) : desc3N (desc3Imm n m p) = n := by
  have := n.isLt
  unfold desc3N; rw [desc3_toNat]; ext; simp only [Fin.ofNat]; omega
theorem desc3M_desc3 (n m p : Fin 256) : desc3M (desc3Imm n m p) = m := by
  have := n.isLt; have := m.isLt
  unfold desc3M; rw [desc3_toNat]; ext; simp only [Fin.ofNat]; omega
theorem desc3P_desc3 (n m p : Fin 256) : desc3P (desc3Imm n m p) = p := by
  have := n.isLt; have := m.isLt; have := p.isLt
  unfold desc3P; rw [desc3_toNat]; ext; simp only [Fin.ofNat]; omega
theorem stash_toNat (o l : Fin 1024) : (stashImm o l).toNat = o.val + 1024 * l.val := by
  have := o.isLt; have := l.isLt
  exact Nat.mod_eq_of_lt (by omega)
theorem stashOff_stash (o l : Fin 1024) : stashOff (stashImm o l) = .ok o := by
  have := o.isLt; have := l.isLt
  unfold stashOff; rw [stash_toNat, if_pos (by omega)]
  congr 1; ext; simp only [Fin.ofNat]; omega
theorem stashLen_stash (o l : Fin 1024) : stashLen (stashImm o l) = l := by
  have := o.isLt; have := l.isLt
  unfold stashLen; rw [stash_toNat]; ext; simp only [Fin.ofNat]; omega
theorem jmpOff_jmp (o : BitVec 16) : jmpOff (jmpB o) (jmpC o) (jmpF o) = o := by
  have := o.isLt
  apply BitVec.eq_of_toNat_eq
  simp only [jmpOff, jmpB, jmpC, jmpF, Fin.ofNat, BitVec.toNat_ofNat]; omega
theorem brOff_br (o : BitVec 10) : brOff (brC o) (brF o) = o := by
  have := o.isLt
  apply BitVec.eq_of_toNat_eq
  simp only [brOff, brC, brF, Fin.ofNat, BitVec.toNat_ofNat]; omega

/-! ### Masks, indexing and the memory fields -/

theorem MaskSel.ofRaw_eq (r : Raw) (x : MaskSel) (h : r.mn = x.negCode) (k : r.ms = x.reg) : MaskSel.ofRaw r = x := by
  unfold MaskSel.ofRaw; rw [h, k]; cases x with | mk n g => cases n <;> rfl
theorem Index.ofRaw_eq (r : Raw) (x : Index) (h : r.ix = x.ix) (k : r.e = x.disp) : Index.ofRaw r = .ok x := by
  unfold Index.ofRaw; rw [h, k]; cases x <;> rfl
theorem VecX.ofRaw_eq (r : Raw) (x : VecX) (h1 : r.fmt = x.fmt.code) (h2 : r.rnd = rndCode x.rnd)
    (h3 : r.mn = x.mask.negCode) (h4 : r.ms = x.mask.reg) (h5 : r.ix = x.index.ix) (h6 : r.e = x.index.disp) :
    VecX.ofRaw r = .ok x := by
  unfold VecX.ofRaw
  rw [Index.ofRaw_eq r _ h5 h6, MaskSel.ofRaw_eq r _ h3 h4, h1, h2, Fmt.ofCode_code, rndOf_code]
  rfl
theorem MemX.ofRaw_eq (r : Raw) (x : MemX) (h1 : r.c = x.index) (h2 : r.imm = x.imm) (h3 : r.sc = x.scope.code)
    (h4 : r.ord = x.order.code) : MemX.ofRaw r = x := by
  unfold MemX.ofRaw; rw [h1, h2, h3, h4, Scope.ofCode_code, Order.ofCode_code]

/-! ### The opcode map by its rows -/

theorem decodeRaw0 (r : Raw) (h : r.op.val / 16 = 0) : decodeRaw r = opcodes0 r := by unfold decodeRaw; rw [h]; rfl
theorem decodeRaw1 (r : Raw) (h : r.op.val / 16 = 1) : decodeRaw r = opcodes1 r := by unfold decodeRaw; rw [h]; rfl
theorem decodeRaw2 (r : Raw) (h : r.op.val / 16 = 2) : decodeRaw r = opcodes2 r := by unfold decodeRaw; rw [h]; rfl
theorem decodeRaw3 (r : Raw) (h : r.op.val / 16 = 3) : decodeRaw r = opcodes3 r := by unfold decodeRaw; rw [h]; rfl
theorem decodeRaw4 (r : Raw) (h : r.op.val / 16 = 4) : decodeRaw r = opcodes4 r := by unfold decodeRaw; rw [h]; rfl
theorem decodeRaw5 (r : Raw) (h : r.op.val / 16 = 5) : decodeRaw r = opcodes5 r := by unfold decodeRaw; rw [h]; rfl
theorem decodeRaw6 (r : Raw) (h : r.op.val / 16 = 6) : decodeRaw r = opcodes6 r := by unfold decodeRaw; rw [h]; rfl
theorem decodeRaw7 (r : Raw) (h : r.op.val / 16 = 7) : decodeRaw r = opcodes7 r := by unfold decodeRaw; rw [h]; rfl
theorem decodeRaw8 (r : Raw) (h : r.op.val / 16 = 8) : decodeRaw r = opcodes8 r := by unfold decodeRaw; rw [h]; rfl
theorem decodeRaw9 (r : Raw) (h : r.op.val / 16 = 9) : decodeRaw r = opcodes9 r := by unfold decodeRaw; rw [h]; rfl
theorem decodeRawA (r : Raw) (h : r.op.val / 16 = 10) : decodeRaw r = opcodesA r := by unfold decodeRaw; rw [h]; rfl
theorem decodeRawB (r : Raw) (h : r.op.val / 16 = 11) : decodeRaw r = opcodesB r := by unfold decodeRaw; rw [h]; rfl
theorem decodeRawC (r : Raw) (h : r.op.val / 16 = 12) : decodeRaw r = opcodesC r := by unfold decodeRaw; rw [h]; rfl
theorem decodeRawD (r : Raw) (h : r.op.val / 16 = 13) : decodeRaw r = opcodesD r := by unfold decodeRaw; rw [h]; rfl
theorem decodeRawE (r : Raw) (h : r.op.val / 16 = 14) : decodeRaw r = opcodesE r := by unfold decodeRaw; rw [h]; rfl

/-! ### Bytes -/

/-- The fields of extended words 1 and 2 are 0. -/
def Raw.noExt (r : Raw) : Bool :=
  r.sc == 0 && r.mn == 0 && r.ms == 0 && r.imm == 0 && r.ix == 0 && r.xfn == 0 && r.ord == 0 && r.rnd == 0 &&
    r.fmt == 0 && r.e == 0 && r.d == 0

/-- Every field that the length class does not carry is 0 (R182). -/
def Raw.fits (r : Raw) : Bool :=
  match r.l.val with
  | 0 => r.noExt && r.lit == 0
  | 1 => r.noExt
  | 2 => r.lit == 0
  | _ => true

theorem takeWord_word (w : Nat) (rest : List Byte) (h : w < 4294967296) :
    takeWord (bytesOfNat 4 w ++ rest) = some (w, rest) := by
  simp only [bytesOfNat, List.cons_append, List.nil_append, takeWord, BitVec.toNat_ofNat]
  congr 2; omega

theorem Raw.baseWord_lt (r : Raw) : r.baseWord < 4294967296 := by
  have := r.l.isLt; have := r.op.isLt; have := r.a.isLt; have := r.b.isLt; have := r.c.isLt; have := r.f.isLt
  unfold Raw.baseWord; omega
theorem Raw.extWord1_lt (r : Raw) : r.extWord1 < 4294967296 := by
  have := r.imm.isLt; have := r.ms.isLt; have := r.mn.isLt; have := r.sc.isLt
  unfold Raw.extWord1; omega
theorem Raw.extWord2_lt (r : Raw) : r.extWord2 < 4294967296 := by
  have := r.d.isLt; have := r.e.isLt; have := r.fmt.isLt; have := r.rnd.isLt; have := r.ord.isLt
  have := r.xfn.isLt; have := r.ix.isLt
  unfold Raw.extWord2; omega

/-- The base word gives its fields back. -/
theorem Raw.ofBase_baseWord (r : Raw) :
    Raw.ofBase r.baseWord = { l := r.l, op := r.op, a := r.a, b := r.b, c := r.c, f := r.f } := by
  have := r.l.isLt; have := r.op.isLt; have := r.a.isLt; have := r.b.isLt; have := r.c.isLt; have := r.f.isLt
  unfold Raw.ofBase Raw.baseWord
  congr 1 <;> ext <;> simp only [Fin.ofNat] <;> omega

/-- The extended words give their fields back, whatever the base fields. -/
theorem Raw.addExt_words (r q : Raw) :
    q.addExt r.extWord1 r.extWord2 =
      { q with
        imm := r.imm, ms := r.ms, mn := r.mn, sc := r.sc, d := r.d, e := r.e, fmt := r.fmt, rnd := r.rnd
        ord := r.ord, xfn := r.xfn, ix := r.ix } := by
  have := r.imm.isLt; have := r.ms.isLt; have := r.mn.isLt; have := r.sc.isLt
  have := r.d.isLt; have := r.e.isLt; have := r.fmt.isLt; have := r.rnd.isLt; have := r.ord.isLt
  have := r.xfn.isLt; have := r.ix.isLt
  unfold Raw.addExt Raw.extWord1 Raw.extWord2
  congr 1
  case e_imm => apply BitVec.eq_of_toNat_eq; simp only [BitVec.toNat_ofNat]; omega
  all_goals ext; simp only [Fin.ofNat]; omega

theorem Raw.addLit_words (r q : Raw) :
    q.addLit (r.lit.toNat % 4294967296) (r.lit.toNat / 4294967296) = { q with lit := r.lit } := by
  have := r.lit.isLt
  unfold Raw.addLit
  congr 1; apply BitVec.eq_of_toNat_eq; simp only [BitVec.toNat_ofNat]; omega

theorem Raw.noExt_zero (r : Raw) (h : r.noExt = true) :
    r.sc = 0 ∧ r.mn = 0 ∧ r.ms = 0 ∧ r.imm = 0 ∧ r.ix = 0 ∧ r.xfn = 0 ∧ r.ord = 0 ∧ r.rnd = 0 ∧ r.fmt = 0 ∧ r.e = 0 ∧
      r.d = 0 := by
  simpa [Raw.noExt, and_assoc] using h

theorem Raw.lit_lo (r : Raw) : r.lit.toNat % 4294967296 < 4294967296 := Nat.mod_lt _ (by decide)
theorem Raw.lit_hi (r : Raw) : r.lit.toNat / 4294967296 < 4294967296 := by have := r.lit.isLt; omega

theorem takeWord_cons (w : Nat) (ws : List Nat) (rest : List Byte) (h : w < 4294967296) :
    takeWord (wordBytes (w :: ws) ++ rest) = some (w, wordBytes ws ++ rest) := by
  rw [wordBytes, List.append_assoc]; exact takeWord_word w _ h

/-- Reading the fields of each length class, from words within 32 bits. -/
theorem Raw.ofBytes_class0 (w : Nat) (rest : List Byte) (h : w < 4294967296) (hl : (Raw.ofBase w).l.val = 0) :
    Raw.ofBytes (wordBytes [w] ++ rest) = some (Raw.ofBase w, rest) := by
  unfold Raw.ofBytes
  rw [takeWord_cons _ _ _ h]
  simp only [Option.bind_eq_bind, Option.bind_some, hl]
  rfl

theorem Raw.ofBytes_class1 (w lo hi : Nat) (rest : List Byte) (h : w < 4294967296) (h1 : lo < 4294967296)
    (h2 : hi < 4294967296) (hl : (Raw.ofBase w).l.val = 1) :
    Raw.ofBytes (wordBytes [w, lo, hi] ++ rest) = some ((Raw.ofBase w).addLit lo hi, rest) := by
  unfold Raw.ofBytes
  rw [takeWord_cons _ _ _ h]
  simp only [Option.bind_eq_bind, Option.bind_some, hl, takeWord_cons _ _ _ h1, takeWord_cons _ _ _ h2]
  rfl

theorem Raw.ofBytes_class2 (w w1 w2 : Nat) (rest : List Byte) (h : w < 4294967296) (h1 : w1 < 4294967296)
    (h2 : w2 < 4294967296) (hl : (Raw.ofBase w).l.val = 2) :
    Raw.ofBytes (wordBytes [w, w1, w2] ++ rest) = some ((Raw.ofBase w).addExt w1 w2, rest) := by
  unfold Raw.ofBytes
  rw [takeWord_cons _ _ _ h]
  simp only [Option.bind_eq_bind, Option.bind_some, hl, takeWord_cons _ _ _ h1, takeWord_cons _ _ _ h2]
  rfl

theorem Raw.ofBytes_class3 (w w1 w2 lo hi : Nat) (rest : List Byte) (h : w < 4294967296) (h1 : w1 < 4294967296)
    (h2 : w2 < 4294967296) (h3 : lo < 4294967296) (h4 : hi < 4294967296) (hl : (Raw.ofBase w).l.val = 3) :
    Raw.ofBytes (wordBytes [w, w1, w2, lo, hi] ++ rest) =
      some (((Raw.ofBase w).addExt w1 w2).addLit lo hi, rest) := by
  unfold Raw.ofBytes
  rw [takeWord_cons _ _ _ h]
  simp only [Option.bind_eq_bind, Option.bind_some, hl, takeWord_cons _ _ _ h1, takeWord_cons _ _ _ h2,
    takeWord_cons _ _ _ h3, takeWord_cons _ _ _ h4]
  rfl

/-- The words of an instruction, as bytes, give its fields back and leave what follows them. -/
theorem Raw.ofBytes_words (r : Raw) (rest : List Byte) (h : r.fits = true) :
    Raw.ofBytes (wordBytes r.words ++ rest) = some (r, rest) := by
  have hb := Raw.ofBase_baseWord r
  have hl : (Raw.ofBase r.baseWord).l = r.l := by rw [hb]
  have hx := Raw.addExt_words r (Raw.ofBase r.baseWord)
  match hk : r.l with
  | 0 =>
    have hw : r.words = [r.baseWord] := by unfold Raw.words; rw [hk]; rfl
    rw [hw, Raw.ofBytes_class0 _ _ r.baseWord_lt (by rw [hl, hk]; rfl), hb]
    simp only [Raw.fits, hk, Fin.val_zero] at h
    obtain ⟨h, h'⟩ := Bool.and_eq_true_iff.1 h
    have := Raw.noExt_zero _ h
    cases r; simp_all
  | 1 =>
    have hw : r.words = [r.baseWord, r.lit.toNat % 4294967296, r.lit.toNat / 4294967296] := by
      unfold Raw.words; rw [hk]; rfl
    rw [hw, Raw.ofBytes_class1 _ _ _ _ r.baseWord_lt r.lit_lo r.lit_hi (by rw [hl, hk]; rfl), Raw.addLit_words, hb]
    simp only [Raw.fits, hk, Fin.val_one] at h
    have := Raw.noExt_zero _ h
    cases r; simp_all
  | 2 =>
    have hw : r.words = [r.baseWord, r.extWord1, r.extWord2] := by unfold Raw.words; rw [hk]; rfl
    rw [hw, Raw.ofBytes_class2 _ _ _ _ r.baseWord_lt r.extWord1_lt r.extWord2_lt (by rw [hl, hk]; rfl), hx, hb]
    simp only [Raw.fits, hk, Fin.val_two] at h
    have := beq_iff_eq.1 h
    cases r; simp_all
  | 3 =>
    have hw : r.words =
        [r.baseWord, r.extWord1, r.extWord2, r.lit.toNat % 4294967296, r.lit.toNat / 4294967296] := by
      unfold Raw.words; rw [hk]; rfl
    rw [hw, Raw.ofBytes_class3 _ _ _ _ _ _ r.baseWord_lt r.extWord1_lt r.extWord2_lt r.lit_lo r.lit_hi
      (by rw [hl, hk]; rfl), Raw.addLit_words, hx, hb]

end Sys2Proof
end

