-- ==== Sys2Proof/Laws/Maps.lean ====
section
/-!
SUPPORT. The sorted maps: what is read after a write or a removal, and that their keys stay in rising order.
-/

namespace Sys2Proof.Machine

set_option Elab.async false

@[simp] theorem look_nil {α : Type} (k : Nat) : look ([] : SMap α) k = none := rfl

@[simp] theorem look_put_same {α : Type} (m : SMap α) (k : Nat) (v : α) : look (put m k v) k = some v := by
  induction m with
  | nil => simp [put, look]
  | cons e rest ih =>
    obtain ⟨j, w⟩ := e
    unfold put
    split
    · simp [look]
    · split
      · simp [look, *]
      · simp [look]

theorem look_put_other {α : Type} (m : SMap α) (k j : Nat) (v : α) (h : j ≠ k) : look (put m k v) j = look m j := by
  induction m with
  | nil => simp [put, look, Ne.symm h]
  | cons e rest ih =>
    obtain ⟨i, w⟩ := e
    unfold put
    split
    next hi => subst hi; simp [look, Ne.symm h]
    next hi =>
      split
      · simp [look, ih]
      · simp [look, Ne.symm h]

theorem look_put {α : Type} (m : SMap α) (k j : Nat) (v : α) : look (put m k v) j = if j = k then some v else look m j := by
  split
  next h => rw [h, look_put_same]
  next h => exact look_put_other m k j v h

@[simp] theorem look_drop_same {α : Type} (m : SMap α) (k : Nat) : look (drop m k) k = none := by
  induction m with
  | nil => rfl
  | cons e rest ih =>
    obtain ⟨j, w⟩ := e
    unfold drop
    split
    · exact ih
    · simp [look, *]

theorem look_drop_other {α : Type} (m : SMap α) (k j : Nat) (h : j ≠ k) : look (drop m k) j = look m j := by
  induction m with
  | nil => rfl
  | cons e rest ih =>
    obtain ⟨i, w⟩ := e
    unfold drop
    split
    next hi => subst hi; simp [look, Ne.symm h, ih]
    next hi => simp [look, ih]

theorem look_drop {α : Type} (m : SMap α) (k j : Nat) : look (drop m k) j = if j = k then none else look m j := by
  split
  next h => rw [h, look_drop_same]
  next h => exact look_drop_other m k j h

@[simp] theorem lookD_nil {α : Type} (k : Nat) (d : α) : lookD ([] : SMap α) k d = d := rfl

@[simp] theorem lookD_put_same {α : Type} (m : SMap α) (k : Nat) (v d : α) : lookD (put m k v) k d = v := by
  simp [lookD]

theorem lookD_put_other {α : Type} (m : SMap α) (k j : Nat) (v d : α) (h : j ≠ k) :
    lookD (put m k v) j d = lookD m j d := by simp [lookD, look_put_other m k j v h]

@[simp] theorem lookD_putD_same {α : Type} [DecidableEq α] (m : SMap α) (k : Nat) (v d : α) :
    lookD (putD m k v d) k d = v := by
  unfold putD lookD
  split <;> simp [*]

theorem lookD_putD_other {α : Type} [DecidableEq α] (m : SMap α) (k j : Nat) (v d e : α) (h : j ≠ k) :
    lookD (putD m k v d) j e = lookD m j e := by
  unfold putD lookD
  split
  · rw [look_drop_other m k j h]
  · rw [look_put_other m k j v h]

theorem lookD_putD {α : Type} [DecidableEq α] (m : SMap α) (k j : Nat) (v d : α) :
    lookD (putD m k v d) j d = if j = k then v else lookD m j d := by
  split
  next h => rw [h, lookD_putD_same]
  next h => exact lookD_putD_other m k j v d d h

/-! ### Lists of numbers -/

theorem memNat_iff (l : List Nat) (k : Nat) : memNat l k = true ↔ k ∈ l := by
  induction l with
  | nil => simp [memNat]
  | cons j rest ih =>
    unfold memNat
    split
    next h => simp [h]
    next h => simp [ih, Ne.symm h]

theorem mem_insertNat (l : List Nat) (k j : Nat) : j ∈ insertNat l k ↔ j = k ∨ j ∈ l := by
  induction l with
  | nil => simp [insertNat]
  | cons i rest ih =>
    unfold insertNat
    split
    next h => subst h; simp
    next h =>
      split
      · simp [ih, or_left_comm]
      · simp

theorem mem_removeNat (l : List Nat) (k j : Nat) : j ∈ removeNat l k ↔ j ≠ k ∧ j ∈ l := by
  induction l with
  | nil => simp [removeNat]
  | cons i rest ih =>
    unfold removeNat
    split
    next h =>
      subst h
      simp only [ih, List.mem_cons]
      tauto
    next h =>
      simp only [List.mem_cons, ih]
      constructor
      · rintro (rfl | ⟨a, b⟩)
        · exact ⟨h, .inl rfl⟩
        · exact ⟨a, .inr b⟩
      · rintro ⟨a, rfl | b⟩
        · exact .inl rfl
        · exact .inr ⟨a, b⟩

theorem mem_upFrom (a n k : Nat) : k ∈ upFrom a n ↔ a ≤ k ∧ k < a + n := by
  induction n generalizing a with
  | zero => simp [upFrom]
  | succ n ih =>
    simp only [upFrom, List.mem_cons, ih]
    omega

@[simp] theorem length_upFrom (a n : Nat) : (upFrom a n).length = n := by
  induction n generalizing a with
  | zero => rfl
  | succ n ih => simp [upFrom, ih]

@[simp] theorem length_bytesOf (n x : Nat) : (bytesOf n x).length = n := by
  induction n generalizing x with
  | zero => rfl
  | succ n ih => simp [bytesOf, ih]

theorem natOfBytes_lt (bs : List Byte) : natOfBytes bs < 256 ^ bs.length := by
  induction bs with
  | nil => simp [natOfBytes]
  | cons b rest ih =>
    simp only [natOfBytes, List.length_cons, pow_succ]
    have := b.isLt
    omega

theorem natOfBytes_bytesOf (n x : Nat) : natOfBytes (bytesOf n x) = x % 256 ^ n := by
  induction n generalizing x with
  | zero => simp [bytesOf, natOfBytes, Nat.mod_one]
  | succ n ih =>
    have h : x % 256 ^ (n + 1) = x % 256 + 256 * (x / 256 % 256 ^ n) := by rw [pow_succ', Nat.mod_mul]
    simp only [bytesOf, natOfBytes, ih, BitVec.toNat_ofNat, h]

end Sys2Proof.Machine
end

