-- ==== Sys2Proof/Laws/State.lean ====
section
/-!
SUPPORT. The fields that each update of the state leaves alone, one lemma for each field and update, and the state at
reset.
-/

namespace Sys2Proof.Machine

set_option Elab.async false

/-! ### `setCore` -/

@[simp] theorem setCore_turn (s : State) (c : Nat) (k : Core) : (setCore s c k).turn = s.turn := rfl
@[simp] theorem setCore_serial (s : State) (c : Nat) (k : Core) : (setCore s c k).serial = s.serial := rfl
@[simp] theorem setCore_memory (s : State) (c : Nat) (k : Core) : (setCore s c k).memory = s.memory := rfl
@[simp] theorem setCore_history (s : State) (c : Nat) (k : Core) : (setCore s c k).history = s.history := rfl
@[simp] theorem setCore_pending (s : State) (c : Nat) (k : Core) : (setCore s c k).pending = s.pending := rfl
@[simp] theorem setCore_translations (s : State) (c : Nat) (k : Core) : (setCore s c k).translations = s.translations := rfl
@[simp] theorem setCore_teams (s : State) (c : Nat) (k : Core) : (setCore s c k).teams = s.teams := rfl
@[simp] theorem setCore_launches (s : State) (c : Nat) (k : Core) : (setCore s c k).launches = s.launches := rfl
@[simp] theorem setCore_domains (s : State) (c : Nat) (k : Core) : (setCore s c k).domains = s.domains := rfl
@[simp] theorem setCore_queues (s : State) (c : Nat) (k : Core) : (setCore s c k).queues = s.queues := rfl
@[simp] theorem setCore_funcs (s : State) (c : Nat) (k : Core) : (setCore s c k).funcs = s.funcs := rfl
@[simp] theorem setCore_rounds (s : State) (c : Nat) (k : Core) : (setCore s c k).rounds = s.rounds := rfl
@[simp] theorem setCore_scrub (s : State) (c : Nat) (k : Core) : (setCore s c k).scrub = s.scrub := rfl
@[simp] theorem setCore_tickets (s : State) (c : Nat) (k : Core) : (setCore s c k).tickets = s.tickets := rfl
@[simp] theorem setCore_shootdowns (s : State) (c : Nat) (k : Core) : (setCore s c k).shootdowns = s.shootdowns := rfl
@[simp] theorem setCore_resets (s : State) (c : Nat) (k : Core) : (setCore s c k).resets = s.resets := rfl
@[simp] theorem setCore_islands (s : State) (c : Nat) (k : Core) : (setCore s c k).islands = s.islands := rfl
@[simp] theorem setCore_keys (s : State) (c : Nat) (k : Core) : (setCore s c k).keys = s.keys := rfl
@[simp] theorem setCore_creates (s : State) (c : Nat) (k : Core) : (setCore s c k).creates = s.creates := rfl
@[simp] theorem setCore_trust (s : State) (c : Nat) (k : Core) : (setCore s c k).trust = s.trust := rfl
@[simp] theorem setCore_rcount (s : State) (c : Nat) (k : Core) : (setCore s c k).rcount = s.rcount := rfl
@[simp] theorem setCore_ptroot (s : State) (c : Nat) (k : Core) : (setCore s c k).ptroot = s.ptroot := rfl
@[simp] theorem setCore_swapbase (s : State) (c : Nat) (k : Core) : (setCore s c k).swapbase = s.swapbase := rfl
@[simp] theorem setCore_swaplen (s : State) (c : Nat) (k : Core) : (setCore s c k).swaplen = s.swaplen := rfl
@[simp] theorem setCore_sddone (s : State) (c : Nat) (k : Core) : (setCore s c k).sddone = s.sddone := rfl
@[simp] theorem setCore_sdlow (s : State) (c : Nat) (k : Core) : (setCore s c k).sdlow = s.sdlow := rfl
@[simp] theorem setCore_movelow (s : State) (c : Nat) (k : Core) : (setCore s c k).movelow = s.movelow := rfl
@[simp] theorem setCore_capw (s : State) (c : Nat) (k : Core) : (setCore s c k).capw = s.capw := rfl
@[simp] theorem setCore_slice (s : State) (c : Nat) (k : Core) : (setCore s c k).slice = s.slice := rfl
@[simp] theorem setCore_optab (s : State) (c : Nat) (k : Core) : (setCore s c k).optab = s.optab := rfl
@[simp] theorem setCore_prdone (s : State) (c : Nat) (k : Core) : (setCore s c k).prdone = s.prdone := rfl
@[simp] theorem setCore_pkgw (s : State) (c : Nat) (k : Core) : (setCore s c k).pkgw = s.pkgw := rfl
@[simp] theorem setCore_tmax (s : State) (c : Nat) (k : Core) : (setCore s c k).tmax = s.tmax := rfl
@[simp] theorem setCore_cecnt (s : State) (c : Nat) (k : Core) : (setCore s c k).cecnt = s.cecnt := rfl
@[simp] theorem setCore_uecnt (s : State) (c : Nat) (k : Core) : (setCore s c k).uecnt = s.uecnt := rfl
@[simp] theorem setCore_stalewr (s : State) (c : Nat) (k : Core) : (setCore s c k).stalewr = s.stalewr := rfl
@[simp] theorem setCore_lretry (s : State) (c : Nat) (k : Core) : (setCore s c k).lretry = s.lretry := rfl
@[simp] theorem setCore_poison (s : State) (c : Nat) (k : Core) : (setCore s c k).poison = s.poison := rfl
@[simp] theorem setCore_poisoned (s : State) (c : Nat) (k : Core) : (setCore s c k).poisoned = s.poisoned := rfl
@[simp] theorem setCore_retired (s : State) (c : Nat) (k : Core) : (setCore s c k).retired = s.retired := rfl
@[simp] theorem setCore_spdm (s : State) (c : Nat) (k : Core) : (setCore s c k).spdm = s.spdm := rfl
@[simp] theorem setCore_dies (s : State) (c : Nat) (k : Core) : (setCore s c k).dies = s.dies := rfl
@[simp] theorem setCore_update (s : State) (c : Nat) (k : Core) : (setCore s c k).update = s.update := rfl
@[simp] theorem setCore_interrupts (s : State) (c : Nat) (k : Core) : (setCore s c k).interrupts = s.interrupts := rfl
@[simp] theorem setCore_outbox (s : State) (c : Nat) (k : Core) : (setCore s c k).outbox = s.outbox := rfl
@[simp] theorem setCore_hostRead (s : State) (c : Nat) (k : Core) : (setCore s c k).hostRead = s.hostRead := rfl
@[simp] theorem setCore_hostPoison (s : State) (c : Nat) (k : Core) : (setCore s c k).hostPoison = s.hostPoison := rfl
@[simp] theorem setCore_pkg (s : State) (c : Nat) (k : Core) : (setCore s c k).pkg = s.pkg := rfl
@[simp] theorem setCore_names (s : State) (c : Nat) (k : Core) : (setCore s c k).names = s.names := rfl
@[simp] theorem setCore_messages (s : State) (c : Nat) (k : Core) : (setCore s c k).messages = s.messages := rfl
@[simp] theorem setCore_time (s : State) (c : Nat) (k : Core) : (setCore s c k).time = s.time := rfl

/-! ### `onCore` -/

@[simp] theorem onCore_turn (s : State) (c : Nat) (f : Core → Core) : (onCore s c f).turn = s.turn := rfl
@[simp] theorem onCore_serial (s : State) (c : Nat) (f : Core → Core) : (onCore s c f).serial = s.serial := rfl
@[simp] theorem onCore_memory (s : State) (c : Nat) (f : Core → Core) : (onCore s c f).memory = s.memory := rfl
@[simp] theorem onCore_history (s : State) (c : Nat) (f : Core → Core) : (onCore s c f).history = s.history := rfl
@[simp] theorem onCore_pending (s : State) (c : Nat) (f : Core → Core) : (onCore s c f).pending = s.pending := rfl
@[simp] theorem onCore_translations (s : State) (c : Nat) (f : Core → Core) : (onCore s c f).translations = s.translations := rfl
@[simp] theorem onCore_teams (s : State) (c : Nat) (f : Core → Core) : (onCore s c f).teams = s.teams := rfl
@[simp] theorem onCore_launches (s : State) (c : Nat) (f : Core → Core) : (onCore s c f).launches = s.launches := rfl
@[simp] theorem onCore_domains (s : State) (c : Nat) (f : Core → Core) : (onCore s c f).domains = s.domains := rfl
@[simp] theorem onCore_queues (s : State) (c : Nat) (f : Core → Core) : (onCore s c f).queues = s.queues := rfl
@[simp] theorem onCore_funcs (s : State) (c : Nat) (f : Core → Core) : (onCore s c f).funcs = s.funcs := rfl
@[simp] theorem onCore_rounds (s : State) (c : Nat) (f : Core → Core) : (onCore s c f).rounds = s.rounds := rfl
@[simp] theorem onCore_scrub (s : State) (c : Nat) (f : Core → Core) : (onCore s c f).scrub = s.scrub := rfl
@[simp] theorem onCore_tickets (s : State) (c : Nat) (f : Core → Core) : (onCore s c f).tickets = s.tickets := rfl
@[simp] theorem onCore_shootdowns (s : State) (c : Nat) (f : Core → Core) : (onCore s c f).shootdowns = s.shootdowns := rfl
@[simp] theorem onCore_resets (s : State) (c : Nat) (f : Core → Core) : (onCore s c f).resets = s.resets := rfl
@[simp] theorem onCore_islands (s : State) (c : Nat) (f : Core → Core) : (onCore s c f).islands = s.islands := rfl
@[simp] theorem onCore_keys (s : State) (c : Nat) (f : Core → Core) : (onCore s c f).keys = s.keys := rfl
@[simp] theorem onCore_creates (s : State) (c : Nat) (f : Core → Core) : (onCore s c f).creates = s.creates := rfl
@[simp] theorem onCore_trust (s : State) (c : Nat) (f : Core → Core) : (onCore s c f).trust = s.trust := rfl
@[simp] theorem onCore_rcount (s : State) (c : Nat) (f : Core → Core) : (onCore s c f).rcount = s.rcount := rfl
@[simp] theorem onCore_ptroot (s : State) (c : Nat) (f : Core → Core) : (onCore s c f).ptroot = s.ptroot := rfl
@[simp] theorem onCore_swapbase (s : State) (c : Nat) (f : Core → Core) : (onCore s c f).swapbase = s.swapbase := rfl
@[simp] theorem onCore_swaplen (s : State) (c : Nat) (f : Core → Core) : (onCore s c f).swaplen = s.swaplen := rfl
@[simp] theorem onCore_sddone (s : State) (c : Nat) (f : Core → Core) : (onCore s c f).sddone = s.sddone := rfl
@[simp] theorem onCore_sdlow (s : State) (c : Nat) (f : Core → Core) : (onCore s c f).sdlow = s.sdlow := rfl
@[simp] theorem onCore_movelow (s : State) (c : Nat) (f : Core → Core) : (onCore s c f).movelow = s.movelow := rfl
@[simp] theorem onCore_capw (s : State) (c : Nat) (f : Core → Core) : (onCore s c f).capw = s.capw := rfl
@[simp] theorem onCore_slice (s : State) (c : Nat) (f : Core → Core) : (onCore s c f).slice = s.slice := rfl
@[simp] theorem onCore_optab (s : State) (c : Nat) (f : Core → Core) : (onCore s c f).optab = s.optab := rfl
@[simp] theorem onCore_prdone (s : State) (c : Nat) (f : Core → Core) : (onCore s c f).prdone = s.prdone := rfl
@[simp] theorem onCore_pkgw (s : State) (c : Nat) (f : Core → Core) : (onCore s c f).pkgw = s.pkgw := rfl
@[simp] theorem onCore_tmax (s : State) (c : Nat) (f : Core → Core) : (onCore s c f).tmax = s.tmax := rfl
@[simp] theorem onCore_cecnt (s : State) (c : Nat) (f : Core → Core) : (onCore s c f).cecnt = s.cecnt := rfl
@[simp] theorem onCore_uecnt (s : State) (c : Nat) (f : Core → Core) : (onCore s c f).uecnt = s.uecnt := rfl
@[simp] theorem onCore_stalewr (s : State) (c : Nat) (f : Core → Core) : (onCore s c f).stalewr = s.stalewr := rfl
@[simp] theorem onCore_lretry (s : State) (c : Nat) (f : Core → Core) : (onCore s c f).lretry = s.lretry := rfl
@[simp] theorem onCore_poison (s : State) (c : Nat) (f : Core → Core) : (onCore s c f).poison = s.poison := rfl
@[simp] theorem onCore_poisoned (s : State) (c : Nat) (f : Core → Core) : (onCore s c f).poisoned = s.poisoned := rfl
@[simp] theorem onCore_retired (s : State) (c : Nat) (f : Core → Core) : (onCore s c f).retired = s.retired := rfl
@[simp] theorem onCore_spdm (s : State) (c : Nat) (f : Core → Core) : (onCore s c f).spdm = s.spdm := rfl
@[simp] theorem onCore_dies (s : State) (c : Nat) (f : Core → Core) : (onCore s c f).dies = s.dies := rfl
@[simp] theorem onCore_update (s : State) (c : Nat) (f : Core → Core) : (onCore s c f).update = s.update := rfl
@[simp] theorem onCore_interrupts (s : State) (c : Nat) (f : Core → Core) : (onCore s c f).interrupts = s.interrupts := rfl
@[simp] theorem onCore_outbox (s : State) (c : Nat) (f : Core → Core) : (onCore s c f).outbox = s.outbox := rfl
@[simp] theorem onCore_hostRead (s : State) (c : Nat) (f : Core → Core) : (onCore s c f).hostRead = s.hostRead := rfl
@[simp] theorem onCore_hostPoison (s : State) (c : Nat) (f : Core → Core) : (onCore s c f).hostPoison = s.hostPoison := rfl
@[simp] theorem onCore_pkg (s : State) (c : Nat) (f : Core → Core) : (onCore s c f).pkg = s.pkg := rfl
@[simp] theorem onCore_names (s : State) (c : Nat) (f : Core → Core) : (onCore s c f).names = s.names := rfl
@[simp] theorem onCore_messages (s : State) (c : Nat) (f : Core → Core) : (onCore s c f).messages = s.messages := rfl
@[simp] theorem onCore_time (s : State) (c : Nat) (f : Core → Core) : (onCore s c f).time = s.time := rfl

/-! ### `setCtx` -/

@[simp] theorem setCtx_turn (s : State) (id : CtxId) (x : Context) : (setCtx s id x).turn = s.turn := rfl
@[simp] theorem setCtx_serial (s : State) (id : CtxId) (x : Context) : (setCtx s id x).serial = s.serial := rfl
@[simp] theorem setCtx_memory (s : State) (id : CtxId) (x : Context) : (setCtx s id x).memory = s.memory := rfl
@[simp] theorem setCtx_history (s : State) (id : CtxId) (x : Context) : (setCtx s id x).history = s.history := rfl
@[simp] theorem setCtx_pending (s : State) (id : CtxId) (x : Context) : (setCtx s id x).pending = s.pending := rfl
@[simp] theorem setCtx_translations (s : State) (id : CtxId) (x : Context) : (setCtx s id x).translations = s.translations := rfl
@[simp] theorem setCtx_teams (s : State) (id : CtxId) (x : Context) : (setCtx s id x).teams = s.teams := rfl
@[simp] theorem setCtx_launches (s : State) (id : CtxId) (x : Context) : (setCtx s id x).launches = s.launches := rfl
@[simp] theorem setCtx_domains (s : State) (id : CtxId) (x : Context) : (setCtx s id x).domains = s.domains := rfl
@[simp] theorem setCtx_queues (s : State) (id : CtxId) (x : Context) : (setCtx s id x).queues = s.queues := rfl
@[simp] theorem setCtx_funcs (s : State) (id : CtxId) (x : Context) : (setCtx s id x).funcs = s.funcs := rfl
@[simp] theorem setCtx_rounds (s : State) (id : CtxId) (x : Context) : (setCtx s id x).rounds = s.rounds := rfl
@[simp] theorem setCtx_scrub (s : State) (id : CtxId) (x : Context) : (setCtx s id x).scrub = s.scrub := rfl
@[simp] theorem setCtx_tickets (s : State) (id : CtxId) (x : Context) : (setCtx s id x).tickets = s.tickets := rfl
@[simp] theorem setCtx_shootdowns (s : State) (id : CtxId) (x : Context) : (setCtx s id x).shootdowns = s.shootdowns := rfl
@[simp] theorem setCtx_resets (s : State) (id : CtxId) (x : Context) : (setCtx s id x).resets = s.resets := rfl
@[simp] theorem setCtx_islands (s : State) (id : CtxId) (x : Context) : (setCtx s id x).islands = s.islands := rfl
@[simp] theorem setCtx_keys (s : State) (id : CtxId) (x : Context) : (setCtx s id x).keys = s.keys := rfl
@[simp] theorem setCtx_creates (s : State) (id : CtxId) (x : Context) : (setCtx s id x).creates = s.creates := rfl
@[simp] theorem setCtx_trust (s : State) (id : CtxId) (x : Context) : (setCtx s id x).trust = s.trust := rfl
@[simp] theorem setCtx_rcount (s : State) (id : CtxId) (x : Context) : (setCtx s id x).rcount = s.rcount := rfl
@[simp] theorem setCtx_ptroot (s : State) (id : CtxId) (x : Context) : (setCtx s id x).ptroot = s.ptroot := rfl
@[simp] theorem setCtx_swapbase (s : State) (id : CtxId) (x : Context) : (setCtx s id x).swapbase = s.swapbase := rfl
@[simp] theorem setCtx_swaplen (s : State) (id : CtxId) (x : Context) : (setCtx s id x).swaplen = s.swaplen := rfl
@[simp] theorem setCtx_sddone (s : State) (id : CtxId) (x : Context) : (setCtx s id x).sddone = s.sddone := rfl
@[simp] theorem setCtx_sdlow (s : State) (id : CtxId) (x : Context) : (setCtx s id x).sdlow = s.sdlow := rfl
@[simp] theorem setCtx_movelow (s : State) (id : CtxId) (x : Context) : (setCtx s id x).movelow = s.movelow := rfl
@[simp] theorem setCtx_capw (s : State) (id : CtxId) (x : Context) : (setCtx s id x).capw = s.capw := rfl
@[simp] theorem setCtx_slice (s : State) (id : CtxId) (x : Context) : (setCtx s id x).slice = s.slice := rfl
@[simp] theorem setCtx_optab (s : State) (id : CtxId) (x : Context) : (setCtx s id x).optab = s.optab := rfl
@[simp] theorem setCtx_prdone (s : State) (id : CtxId) (x : Context) : (setCtx s id x).prdone = s.prdone := rfl
@[simp] theorem setCtx_pkgw (s : State) (id : CtxId) (x : Context) : (setCtx s id x).pkgw = s.pkgw := rfl
@[simp] theorem setCtx_tmax (s : State) (id : CtxId) (x : Context) : (setCtx s id x).tmax = s.tmax := rfl
@[simp] theorem setCtx_cecnt (s : State) (id : CtxId) (x : Context) : (setCtx s id x).cecnt = s.cecnt := rfl
@[simp] theorem setCtx_uecnt (s : State) (id : CtxId) (x : Context) : (setCtx s id x).uecnt = s.uecnt := rfl
@[simp] theorem setCtx_stalewr (s : State) (id : CtxId) (x : Context) : (setCtx s id x).stalewr = s.stalewr := rfl
@[simp] theorem setCtx_lretry (s : State) (id : CtxId) (x : Context) : (setCtx s id x).lretry = s.lretry := rfl
@[simp] theorem setCtx_poison (s : State) (id : CtxId) (x : Context) : (setCtx s id x).poison = s.poison := rfl
@[simp] theorem setCtx_poisoned (s : State) (id : CtxId) (x : Context) : (setCtx s id x).poisoned = s.poisoned := rfl
@[simp] theorem setCtx_retired (s : State) (id : CtxId) (x : Context) : (setCtx s id x).retired = s.retired := rfl
@[simp] theorem setCtx_spdm (s : State) (id : CtxId) (x : Context) : (setCtx s id x).spdm = s.spdm := rfl
@[simp] theorem setCtx_dies (s : State) (id : CtxId) (x : Context) : (setCtx s id x).dies = s.dies := rfl
@[simp] theorem setCtx_update (s : State) (id : CtxId) (x : Context) : (setCtx s id x).update = s.update := rfl
@[simp] theorem setCtx_interrupts (s : State) (id : CtxId) (x : Context) : (setCtx s id x).interrupts = s.interrupts := rfl
@[simp] theorem setCtx_outbox (s : State) (id : CtxId) (x : Context) : (setCtx s id x).outbox = s.outbox := rfl
@[simp] theorem setCtx_hostRead (s : State) (id : CtxId) (x : Context) : (setCtx s id x).hostRead = s.hostRead := rfl
@[simp] theorem setCtx_hostPoison (s : State) (id : CtxId) (x : Context) : (setCtx s id x).hostPoison = s.hostPoison := rfl
@[simp] theorem setCtx_pkg (s : State) (id : CtxId) (x : Context) : (setCtx s id x).pkg = s.pkg := rfl
@[simp] theorem setCtx_names (s : State) (id : CtxId) (x : Context) : (setCtx s id x).names = s.names := rfl
@[simp] theorem setCtx_messages (s : State) (id : CtxId) (x : Context) : (setCtx s id x).messages = s.messages := rfl
@[simp] theorem setCtx_time (s : State) (id : CtxId) (x : Context) : (setCtx s id x).time = s.time := rfl

/-! ### `onCtx` -/

@[simp] theorem onCtx_turn (s : State) (id : CtxId) (f : Context → Context) : (onCtx s id f).turn = s.turn := rfl
@[simp] theorem onCtx_serial (s : State) (id : CtxId) (f : Context → Context) : (onCtx s id f).serial = s.serial := rfl
@[simp] theorem onCtx_memory (s : State) (id : CtxId) (f : Context → Context) : (onCtx s id f).memory = s.memory := rfl
@[simp] theorem onCtx_history (s : State) (id : CtxId) (f : Context → Context) : (onCtx s id f).history = s.history := rfl
@[simp] theorem onCtx_pending (s : State) (id : CtxId) (f : Context → Context) : (onCtx s id f).pending = s.pending := rfl
@[simp] theorem onCtx_translations (s : State) (id : CtxId) (f : Context → Context) : (onCtx s id f).translations = s.translations := rfl
@[simp] theorem onCtx_teams (s : State) (id : CtxId) (f : Context → Context) : (onCtx s id f).teams = s.teams := rfl
@[simp] theorem onCtx_launches (s : State) (id : CtxId) (f : Context → Context) : (onCtx s id f).launches = s.launches := rfl
@[simp] theorem onCtx_domains (s : State) (id : CtxId) (f : Context → Context) : (onCtx s id f).domains = s.domains := rfl
@[simp] theorem onCtx_queues (s : State) (id : CtxId) (f : Context → Context) : (onCtx s id f).queues = s.queues := rfl
@[simp] theorem onCtx_funcs (s : State) (id : CtxId) (f : Context → Context) : (onCtx s id f).funcs = s.funcs := rfl
@[simp] theorem onCtx_rounds (s : State) (id : CtxId) (f : Context → Context) : (onCtx s id f).rounds = s.rounds := rfl
@[simp] theorem onCtx_scrub (s : State) (id : CtxId) (f : Context → Context) : (onCtx s id f).scrub = s.scrub := rfl
@[simp] theorem onCtx_tickets (s : State) (id : CtxId) (f : Context → Context) : (onCtx s id f).tickets = s.tickets := rfl
@[simp] theorem onCtx_shootdowns (s : State) (id : CtxId) (f : Context → Context) : (onCtx s id f).shootdowns = s.shootdowns := rfl
@[simp] theorem onCtx_resets (s : State) (id : CtxId) (f : Context → Context) : (onCtx s id f).resets = s.resets := rfl
@[simp] theorem onCtx_islands (s : State) (id : CtxId) (f : Context → Context) : (onCtx s id f).islands = s.islands := rfl
@[simp] theorem onCtx_keys (s : State) (id : CtxId) (f : Context → Context) : (onCtx s id f).keys = s.keys := rfl
@[simp] theorem onCtx_creates (s : State) (id : CtxId) (f : Context → Context) : (onCtx s id f).creates = s.creates := rfl
@[simp] theorem onCtx_trust (s : State) (id : CtxId) (f : Context → Context) : (onCtx s id f).trust = s.trust := rfl
@[simp] theorem onCtx_rcount (s : State) (id : CtxId) (f : Context → Context) : (onCtx s id f).rcount = s.rcount := rfl
@[simp] theorem onCtx_ptroot (s : State) (id : CtxId) (f : Context → Context) : (onCtx s id f).ptroot = s.ptroot := rfl
@[simp] theorem onCtx_swapbase (s : State) (id : CtxId) (f : Context → Context) : (onCtx s id f).swapbase = s.swapbase := rfl
@[simp] theorem onCtx_swaplen (s : State) (id : CtxId) (f : Context → Context) : (onCtx s id f).swaplen = s.swaplen := rfl
@[simp] theorem onCtx_sddone (s : State) (id : CtxId) (f : Context → Context) : (onCtx s id f).sddone = s.sddone := rfl
@[simp] theorem onCtx_sdlow (s : State) (id : CtxId) (f : Context → Context) : (onCtx s id f).sdlow = s.sdlow := rfl
@[simp] theorem onCtx_movelow (s : State) (id : CtxId) (f : Context → Context) : (onCtx s id f).movelow = s.movelow := rfl
@[simp] theorem onCtx_capw (s : State) (id : CtxId) (f : Context → Context) : (onCtx s id f).capw = s.capw := rfl
@[simp] theorem onCtx_slice (s : State) (id : CtxId) (f : Context → Context) : (onCtx s id f).slice = s.slice := rfl
@[simp] theorem onCtx_optab (s : State) (id : CtxId) (f : Context → Context) : (onCtx s id f).optab = s.optab := rfl
@[simp] theorem onCtx_prdone (s : State) (id : CtxId) (f : Context → Context) : (onCtx s id f).prdone = s.prdone := rfl
@[simp] theorem onCtx_pkgw (s : State) (id : CtxId) (f : Context → Context) : (onCtx s id f).pkgw = s.pkgw := rfl
@[simp] theorem onCtx_tmax (s : State) (id : CtxId) (f : Context → Context) : (onCtx s id f).tmax = s.tmax := rfl
@[simp] theorem onCtx_cecnt (s : State) (id : CtxId) (f : Context → Context) : (onCtx s id f).cecnt = s.cecnt := rfl
@[simp] theorem onCtx_uecnt (s : State) (id : CtxId) (f : Context → Context) : (onCtx s id f).uecnt = s.uecnt := rfl
@[simp] theorem onCtx_stalewr (s : State) (id : CtxId) (f : Context → Context) : (onCtx s id f).stalewr = s.stalewr := rfl
@[simp] theorem onCtx_lretry (s : State) (id : CtxId) (f : Context → Context) : (onCtx s id f).lretry = s.lretry := rfl
@[simp] theorem onCtx_poison (s : State) (id : CtxId) (f : Context → Context) : (onCtx s id f).poison = s.poison := rfl
@[simp] theorem onCtx_poisoned (s : State) (id : CtxId) (f : Context → Context) : (onCtx s id f).poisoned = s.poisoned := rfl
@[simp] theorem onCtx_retired (s : State) (id : CtxId) (f : Context → Context) : (onCtx s id f).retired = s.retired := rfl
@[simp] theorem onCtx_spdm (s : State) (id : CtxId) (f : Context → Context) : (onCtx s id f).spdm = s.spdm := rfl
@[simp] theorem onCtx_dies (s : State) (id : CtxId) (f : Context → Context) : (onCtx s id f).dies = s.dies := rfl
@[simp] theorem onCtx_update (s : State) (id : CtxId) (f : Context → Context) : (onCtx s id f).update = s.update := rfl
@[simp] theorem onCtx_interrupts (s : State) (id : CtxId) (f : Context → Context) : (onCtx s id f).interrupts = s.interrupts := rfl
@[simp] theorem onCtx_outbox (s : State) (id : CtxId) (f : Context → Context) : (onCtx s id f).outbox = s.outbox := rfl
@[simp] theorem onCtx_hostRead (s : State) (id : CtxId) (f : Context → Context) : (onCtx s id f).hostRead = s.hostRead := rfl
@[simp] theorem onCtx_hostPoison (s : State) (id : CtxId) (f : Context → Context) : (onCtx s id f).hostPoison = s.hostPoison := rfl
@[simp] theorem onCtx_pkg (s : State) (id : CtxId) (f : Context → Context) : (onCtx s id f).pkg = s.pkg := rfl
@[simp] theorem onCtx_names (s : State) (id : CtxId) (f : Context → Context) : (onCtx s id f).names = s.names := rfl
@[simp] theorem onCtx_messages (s : State) (id : CtxId) (f : Context → Context) : (onCtx s id f).messages = s.messages := rfl
@[simp] theorem onCtx_time (s : State) (id : CtxId) (f : Context → Context) : (onCtx s id f).time = s.time := rfl

/-! ### `onMe` -/

@[simp] theorem onMe_turn (s : State) (f : Context → Context) : (onMe s f).turn = s.turn := rfl
@[simp] theorem onMe_serial (s : State) (f : Context → Context) : (onMe s f).serial = s.serial := rfl
@[simp] theorem onMe_memory (s : State) (f : Context → Context) : (onMe s f).memory = s.memory := rfl
@[simp] theorem onMe_history (s : State) (f : Context → Context) : (onMe s f).history = s.history := rfl
@[simp] theorem onMe_pending (s : State) (f : Context → Context) : (onMe s f).pending = s.pending := rfl
@[simp] theorem onMe_translations (s : State) (f : Context → Context) : (onMe s f).translations = s.translations := rfl
@[simp] theorem onMe_teams (s : State) (f : Context → Context) : (onMe s f).teams = s.teams := rfl
@[simp] theorem onMe_launches (s : State) (f : Context → Context) : (onMe s f).launches = s.launches := rfl
@[simp] theorem onMe_domains (s : State) (f : Context → Context) : (onMe s f).domains = s.domains := rfl
@[simp] theorem onMe_queues (s : State) (f : Context → Context) : (onMe s f).queues = s.queues := rfl
@[simp] theorem onMe_funcs (s : State) (f : Context → Context) : (onMe s f).funcs = s.funcs := rfl
@[simp] theorem onMe_rounds (s : State) (f : Context → Context) : (onMe s f).rounds = s.rounds := rfl
@[simp] theorem onMe_scrub (s : State) (f : Context → Context) : (onMe s f).scrub = s.scrub := rfl
@[simp] theorem onMe_tickets (s : State) (f : Context → Context) : (onMe s f).tickets = s.tickets := rfl
@[simp] theorem onMe_shootdowns (s : State) (f : Context → Context) : (onMe s f).shootdowns = s.shootdowns := rfl
@[simp] theorem onMe_resets (s : State) (f : Context → Context) : (onMe s f).resets = s.resets := rfl
@[simp] theorem onMe_islands (s : State) (f : Context → Context) : (onMe s f).islands = s.islands := rfl
@[simp] theorem onMe_keys (s : State) (f : Context → Context) : (onMe s f).keys = s.keys := rfl
@[simp] theorem onMe_creates (s : State) (f : Context → Context) : (onMe s f).creates = s.creates := rfl
@[simp] theorem onMe_trust (s : State) (f : Context → Context) : (onMe s f).trust = s.trust := rfl
@[simp] theorem onMe_rcount (s : State) (f : Context → Context) : (onMe s f).rcount = s.rcount := rfl
@[simp] theorem onMe_ptroot (s : State) (f : Context → Context) : (onMe s f).ptroot = s.ptroot := rfl
@[simp] theorem onMe_swapbase (s : State) (f : Context → Context) : (onMe s f).swapbase = s.swapbase := rfl
@[simp] theorem onMe_swaplen (s : State) (f : Context → Context) : (onMe s f).swaplen = s.swaplen := rfl
@[simp] theorem onMe_sddone (s : State) (f : Context → Context) : (onMe s f).sddone = s.sddone := rfl
@[simp] theorem onMe_sdlow (s : State) (f : Context → Context) : (onMe s f).sdlow = s.sdlow := rfl
@[simp] theorem onMe_movelow (s : State) (f : Context → Context) : (onMe s f).movelow = s.movelow := rfl
@[simp] theorem onMe_capw (s : State) (f : Context → Context) : (onMe s f).capw = s.capw := rfl
@[simp] theorem onMe_slice (s : State) (f : Context → Context) : (onMe s f).slice = s.slice := rfl
@[simp] theorem onMe_optab (s : State) (f : Context → Context) : (onMe s f).optab = s.optab := rfl
@[simp] theorem onMe_prdone (s : State) (f : Context → Context) : (onMe s f).prdone = s.prdone := rfl
@[simp] theorem onMe_pkgw (s : State) (f : Context → Context) : (onMe s f).pkgw = s.pkgw := rfl
@[simp] theorem onMe_tmax (s : State) (f : Context → Context) : (onMe s f).tmax = s.tmax := rfl
@[simp] theorem onMe_cecnt (s : State) (f : Context → Context) : (onMe s f).cecnt = s.cecnt := rfl
@[simp] theorem onMe_uecnt (s : State) (f : Context → Context) : (onMe s f).uecnt = s.uecnt := rfl
@[simp] theorem onMe_stalewr (s : State) (f : Context → Context) : (onMe s f).stalewr = s.stalewr := rfl
@[simp] theorem onMe_lretry (s : State) (f : Context → Context) : (onMe s f).lretry = s.lretry := rfl
@[simp] theorem onMe_poison (s : State) (f : Context → Context) : (onMe s f).poison = s.poison := rfl
@[simp] theorem onMe_poisoned (s : State) (f : Context → Context) : (onMe s f).poisoned = s.poisoned := rfl
@[simp] theorem onMe_retired (s : State) (f : Context → Context) : (onMe s f).retired = s.retired := rfl
@[simp] theorem onMe_spdm (s : State) (f : Context → Context) : (onMe s f).spdm = s.spdm := rfl
@[simp] theorem onMe_dies (s : State) (f : Context → Context) : (onMe s f).dies = s.dies := rfl
@[simp] theorem onMe_update (s : State) (f : Context → Context) : (onMe s f).update = s.update := rfl
@[simp] theorem onMe_interrupts (s : State) (f : Context → Context) : (onMe s f).interrupts = s.interrupts := rfl
@[simp] theorem onMe_outbox (s : State) (f : Context → Context) : (onMe s f).outbox = s.outbox := rfl
@[simp] theorem onMe_hostRead (s : State) (f : Context → Context) : (onMe s f).hostRead = s.hostRead := rfl
@[simp] theorem onMe_hostPoison (s : State) (f : Context → Context) : (onMe s f).hostPoison = s.hostPoison := rfl
@[simp] theorem onMe_pkg (s : State) (f : Context → Context) : (onMe s f).pkg = s.pkg := rfl
@[simp] theorem onMe_names (s : State) (f : Context → Context) : (onMe s f).names = s.names := rfl
@[simp] theorem onMe_messages (s : State) (f : Context → Context) : (onMe s f).messages = s.messages := rfl
@[simp] theorem onMe_time (s : State) (f : Context → Context) : (onMe s f).time = s.time := rfl

/-! ### `advance` -/

@[simp] theorem advance_turn (n : Nat) (s : State) : (advance n s).turn = s.turn := rfl
@[simp] theorem advance_serial (n : Nat) (s : State) : (advance n s).serial = s.serial := rfl
@[simp] theorem advance_memory (n : Nat) (s : State) : (advance n s).memory = s.memory := rfl
@[simp] theorem advance_history (n : Nat) (s : State) : (advance n s).history = s.history := rfl
@[simp] theorem advance_pending (n : Nat) (s : State) : (advance n s).pending = s.pending := rfl
@[simp] theorem advance_translations (n : Nat) (s : State) : (advance n s).translations = s.translations := rfl
@[simp] theorem advance_teams (n : Nat) (s : State) : (advance n s).teams = s.teams := rfl
@[simp] theorem advance_launches (n : Nat) (s : State) : (advance n s).launches = s.launches := rfl
@[simp] theorem advance_domains (n : Nat) (s : State) : (advance n s).domains = s.domains := rfl
@[simp] theorem advance_queues (n : Nat) (s : State) : (advance n s).queues = s.queues := rfl
@[simp] theorem advance_funcs (n : Nat) (s : State) : (advance n s).funcs = s.funcs := rfl
@[simp] theorem advance_rounds (n : Nat) (s : State) : (advance n s).rounds = s.rounds := rfl
@[simp] theorem advance_scrub (n : Nat) (s : State) : (advance n s).scrub = s.scrub := rfl
@[simp] theorem advance_tickets (n : Nat) (s : State) : (advance n s).tickets = s.tickets := rfl
@[simp] theorem advance_shootdowns (n : Nat) (s : State) : (advance n s).shootdowns = s.shootdowns := rfl
@[simp] theorem advance_resets (n : Nat) (s : State) : (advance n s).resets = s.resets := rfl
@[simp] theorem advance_islands (n : Nat) (s : State) : (advance n s).islands = s.islands := rfl
@[simp] theorem advance_keys (n : Nat) (s : State) : (advance n s).keys = s.keys := rfl
@[simp] theorem advance_creates (n : Nat) (s : State) : (advance n s).creates = s.creates := rfl
@[simp] theorem advance_trust (n : Nat) (s : State) : (advance n s).trust = s.trust := rfl
@[simp] theorem advance_rcount (n : Nat) (s : State) : (advance n s).rcount = s.rcount := rfl
@[simp] theorem advance_ptroot (n : Nat) (s : State) : (advance n s).ptroot = s.ptroot := rfl
@[simp] theorem advance_swapbase (n : Nat) (s : State) : (advance n s).swapbase = s.swapbase := rfl
@[simp] theorem advance_swaplen (n : Nat) (s : State) : (advance n s).swaplen = s.swaplen := rfl
@[simp] theorem advance_sddone (n : Nat) (s : State) : (advance n s).sddone = s.sddone := rfl
@[simp] theorem advance_sdlow (n : Nat) (s : State) : (advance n s).sdlow = s.sdlow := rfl
@[simp] theorem advance_movelow (n : Nat) (s : State) : (advance n s).movelow = s.movelow := rfl
@[simp] theorem advance_capw (n : Nat) (s : State) : (advance n s).capw = s.capw := rfl
@[simp] theorem advance_slice (n : Nat) (s : State) : (advance n s).slice = s.slice := rfl
@[simp] theorem advance_optab (n : Nat) (s : State) : (advance n s).optab = s.optab := rfl
@[simp] theorem advance_prdone (n : Nat) (s : State) : (advance n s).prdone = s.prdone := rfl
@[simp] theorem advance_pkgw (n : Nat) (s : State) : (advance n s).pkgw = s.pkgw := rfl
@[simp] theorem advance_tmax (n : Nat) (s : State) : (advance n s).tmax = s.tmax := rfl
@[simp] theorem advance_cecnt (n : Nat) (s : State) : (advance n s).cecnt = s.cecnt := rfl
@[simp] theorem advance_uecnt (n : Nat) (s : State) : (advance n s).uecnt = s.uecnt := rfl
@[simp] theorem advance_stalewr (n : Nat) (s : State) : (advance n s).stalewr = s.stalewr := rfl
@[simp] theorem advance_lretry (n : Nat) (s : State) : (advance n s).lretry = s.lretry := rfl
@[simp] theorem advance_poison (n : Nat) (s : State) : (advance n s).poison = s.poison := rfl
@[simp] theorem advance_poisoned (n : Nat) (s : State) : (advance n s).poisoned = s.poisoned := rfl
@[simp] theorem advance_retired (n : Nat) (s : State) : (advance n s).retired = s.retired := rfl
@[simp] theorem advance_spdm (n : Nat) (s : State) : (advance n s).spdm = s.spdm := rfl
@[simp] theorem advance_dies (n : Nat) (s : State) : (advance n s).dies = s.dies := rfl
@[simp] theorem advance_update (n : Nat) (s : State) : (advance n s).update = s.update := rfl
@[simp] theorem advance_interrupts (n : Nat) (s : State) : (advance n s).interrupts = s.interrupts := rfl
@[simp] theorem advance_outbox (n : Nat) (s : State) : (advance n s).outbox = s.outbox := rfl
@[simp] theorem advance_hostRead (n : Nat) (s : State) : (advance n s).hostRead = s.hostRead := rfl
@[simp] theorem advance_hostPoison (n : Nat) (s : State) : (advance n s).hostPoison = s.hostPoison := rfl
@[simp] theorem advance_pkg (n : Nat) (s : State) : (advance n s).pkg = s.pkg := rfl
@[simp] theorem advance_names (n : Nat) (s : State) : (advance n s).names = s.names := rfl
@[simp] theorem advance_messages (n : Nat) (s : State) : (advance n s).messages = s.messages := rfl
@[simp] theorem advance_time (n : Nat) (s : State) : (advance n s).time = s.time := rfl

/-! ### `onTeam` -/

@[simp] theorem onTeam_turn (s : State) (n : Nat) (f : Team → Team) : (onTeam s n f).turn = s.turn := rfl
@[simp] theorem onTeam_serial (s : State) (n : Nat) (f : Team → Team) : (onTeam s n f).serial = s.serial := rfl
@[simp] theorem onTeam_cores (s : State) (n : Nat) (f : Team → Team) : (onTeam s n f).cores = s.cores := rfl
@[simp] theorem onTeam_memory (s : State) (n : Nat) (f : Team → Team) : (onTeam s n f).memory = s.memory := rfl
@[simp] theorem onTeam_history (s : State) (n : Nat) (f : Team → Team) : (onTeam s n f).history = s.history := rfl
@[simp] theorem onTeam_pending (s : State) (n : Nat) (f : Team → Team) : (onTeam s n f).pending = s.pending := rfl
@[simp] theorem onTeam_translations (s : State) (n : Nat) (f : Team → Team) : (onTeam s n f).translations = s.translations := rfl
@[simp] theorem onTeam_launches (s : State) (n : Nat) (f : Team → Team) : (onTeam s n f).launches = s.launches := rfl
@[simp] theorem onTeam_domains (s : State) (n : Nat) (f : Team → Team) : (onTeam s n f).domains = s.domains := rfl
@[simp] theorem onTeam_queues (s : State) (n : Nat) (f : Team → Team) : (onTeam s n f).queues = s.queues := rfl
@[simp] theorem onTeam_funcs (s : State) (n : Nat) (f : Team → Team) : (onTeam s n f).funcs = s.funcs := rfl
@[simp] theorem onTeam_rounds (s : State) (n : Nat) (f : Team → Team) : (onTeam s n f).rounds = s.rounds := rfl
@[simp] theorem onTeam_scrub (s : State) (n : Nat) (f : Team → Team) : (onTeam s n f).scrub = s.scrub := rfl
@[simp] theorem onTeam_tickets (s : State) (n : Nat) (f : Team → Team) : (onTeam s n f).tickets = s.tickets := rfl
@[simp] theorem onTeam_shootdowns (s : State) (n : Nat) (f : Team → Team) : (onTeam s n f).shootdowns = s.shootdowns := rfl
@[simp] theorem onTeam_resets (s : State) (n : Nat) (f : Team → Team) : (onTeam s n f).resets = s.resets := rfl
@[simp] theorem onTeam_islands (s : State) (n : Nat) (f : Team → Team) : (onTeam s n f).islands = s.islands := rfl
@[simp] theorem onTeam_keys (s : State) (n : Nat) (f : Team → Team) : (onTeam s n f).keys = s.keys := rfl
@[simp] theorem onTeam_creates (s : State) (n : Nat) (f : Team → Team) : (onTeam s n f).creates = s.creates := rfl
@[simp] theorem onTeam_trust (s : State) (n : Nat) (f : Team → Team) : (onTeam s n f).trust = s.trust := rfl
@[simp] theorem onTeam_rcount (s : State) (n : Nat) (f : Team → Team) : (onTeam s n f).rcount = s.rcount := rfl
@[simp] theorem onTeam_ptroot (s : State) (n : Nat) (f : Team → Team) : (onTeam s n f).ptroot = s.ptroot := rfl
@[simp] theorem onTeam_swapbase (s : State) (n : Nat) (f : Team → Team) : (onTeam s n f).swapbase = s.swapbase := rfl
@[simp] theorem onTeam_swaplen (s : State) (n : Nat) (f : Team → Team) : (onTeam s n f).swaplen = s.swaplen := rfl
@[simp] theorem onTeam_sddone (s : State) (n : Nat) (f : Team → Team) : (onTeam s n f).sddone = s.sddone := rfl
@[simp] theorem onTeam_sdlow (s : State) (n : Nat) (f : Team → Team) : (onTeam s n f).sdlow = s.sdlow := rfl
@[simp] theorem onTeam_movelow (s : State) (n : Nat) (f : Team → Team) : (onTeam s n f).movelow = s.movelow := rfl
@[simp] theorem onTeam_capw (s : State) (n : Nat) (f : Team → Team) : (onTeam s n f).capw = s.capw := rfl
@[simp] theorem onTeam_slice (s : State) (n : Nat) (f : Team → Team) : (onTeam s n f).slice = s.slice := rfl
@[simp] theorem onTeam_optab (s : State) (n : Nat) (f : Team → Team) : (onTeam s n f).optab = s.optab := rfl
@[simp] theorem onTeam_prdone (s : State) (n : Nat) (f : Team → Team) : (onTeam s n f).prdone = s.prdone := rfl
@[simp] theorem onTeam_pkgw (s : State) (n : Nat) (f : Team → Team) : (onTeam s n f).pkgw = s.pkgw := rfl
@[simp] theorem onTeam_tmax (s : State) (n : Nat) (f : Team → Team) : (onTeam s n f).tmax = s.tmax := rfl
@[simp] theorem onTeam_cecnt (s : State) (n : Nat) (f : Team → Team) : (onTeam s n f).cecnt = s.cecnt := rfl
@[simp] theorem onTeam_uecnt (s : State) (n : Nat) (f : Team → Team) : (onTeam s n f).uecnt = s.uecnt := rfl
@[simp] theorem onTeam_stalewr (s : State) (n : Nat) (f : Team → Team) : (onTeam s n f).stalewr = s.stalewr := rfl
@[simp] theorem onTeam_lretry (s : State) (n : Nat) (f : Team → Team) : (onTeam s n f).lretry = s.lretry := rfl
@[simp] theorem onTeam_poison (s : State) (n : Nat) (f : Team → Team) : (onTeam s n f).poison = s.poison := rfl
@[simp] theorem onTeam_poisoned (s : State) (n : Nat) (f : Team → Team) : (onTeam s n f).poisoned = s.poisoned := rfl
@[simp] theorem onTeam_retired (s : State) (n : Nat) (f : Team → Team) : (onTeam s n f).retired = s.retired := rfl
@[simp] theorem onTeam_spdm (s : State) (n : Nat) (f : Team → Team) : (onTeam s n f).spdm = s.spdm := rfl
@[simp] theorem onTeam_dies (s : State) (n : Nat) (f : Team → Team) : (onTeam s n f).dies = s.dies := rfl
@[simp] theorem onTeam_update (s : State) (n : Nat) (f : Team → Team) : (onTeam s n f).update = s.update := rfl
@[simp] theorem onTeam_interrupts (s : State) (n : Nat) (f : Team → Team) : (onTeam s n f).interrupts = s.interrupts := rfl
@[simp] theorem onTeam_outbox (s : State) (n : Nat) (f : Team → Team) : (onTeam s n f).outbox = s.outbox := rfl
@[simp] theorem onTeam_hostRead (s : State) (n : Nat) (f : Team → Team) : (onTeam s n f).hostRead = s.hostRead := rfl
@[simp] theorem onTeam_hostPoison (s : State) (n : Nat) (f : Team → Team) : (onTeam s n f).hostPoison = s.hostPoison := rfl
@[simp] theorem onTeam_pkg (s : State) (n : Nat) (f : Team → Team) : (onTeam s n f).pkg = s.pkg := rfl
@[simp] theorem onTeam_names (s : State) (n : Nat) (f : Team → Team) : (onTeam s n f).names = s.names := rfl
@[simp] theorem onTeam_messages (s : State) (n : Nat) (f : Team → Team) : (onTeam s n f).messages = s.messages := rfl
@[simp] theorem onTeam_time (s : State) (n : Nat) (f : Team → Team) : (onTeam s n f).time = s.time := rfl

/-! ### `onDomain` -/

@[simp] theorem onDomain_turn (s : State) (n : Nat) (f : Domain → Domain) : (onDomain s n f).turn = s.turn := rfl
@[simp] theorem onDomain_serial (s : State) (n : Nat) (f : Domain → Domain) : (onDomain s n f).serial = s.serial := rfl
@[simp] theorem onDomain_cores (s : State) (n : Nat) (f : Domain → Domain) : (onDomain s n f).cores = s.cores := rfl
@[simp] theorem onDomain_memory (s : State) (n : Nat) (f : Domain → Domain) : (onDomain s n f).memory = s.memory := rfl
@[simp] theorem onDomain_history (s : State) (n : Nat) (f : Domain → Domain) : (onDomain s n f).history = s.history := rfl
@[simp] theorem onDomain_pending (s : State) (n : Nat) (f : Domain → Domain) : (onDomain s n f).pending = s.pending := rfl
@[simp] theorem onDomain_translations (s : State) (n : Nat) (f : Domain → Domain) : (onDomain s n f).translations = s.translations := rfl
@[simp] theorem onDomain_teams (s : State) (n : Nat) (f : Domain → Domain) : (onDomain s n f).teams = s.teams := rfl
@[simp] theorem onDomain_launches (s : State) (n : Nat) (f : Domain → Domain) : (onDomain s n f).launches = s.launches := rfl
@[simp] theorem onDomain_queues (s : State) (n : Nat) (f : Domain → Domain) : (onDomain s n f).queues = s.queues := rfl
@[simp] theorem onDomain_funcs (s : State) (n : Nat) (f : Domain → Domain) : (onDomain s n f).funcs = s.funcs := rfl
@[simp] theorem onDomain_rounds (s : State) (n : Nat) (f : Domain → Domain) : (onDomain s n f).rounds = s.rounds := rfl
@[simp] theorem onDomain_scrub (s : State) (n : Nat) (f : Domain → Domain) : (onDomain s n f).scrub = s.scrub := rfl
@[simp] theorem onDomain_tickets (s : State) (n : Nat) (f : Domain → Domain) : (onDomain s n f).tickets = s.tickets := rfl
@[simp] theorem onDomain_shootdowns (s : State) (n : Nat) (f : Domain → Domain) : (onDomain s n f).shootdowns = s.shootdowns := rfl
@[simp] theorem onDomain_resets (s : State) (n : Nat) (f : Domain → Domain) : (onDomain s n f).resets = s.resets := rfl
@[simp] theorem onDomain_islands (s : State) (n : Nat) (f : Domain → Domain) : (onDomain s n f).islands = s.islands := rfl
@[simp] theorem onDomain_keys (s : State) (n : Nat) (f : Domain → Domain) : (onDomain s n f).keys = s.keys := rfl
@[simp] theorem onDomain_creates (s : State) (n : Nat) (f : Domain → Domain) : (onDomain s n f).creates = s.creates := rfl
@[simp] theorem onDomain_trust (s : State) (n : Nat) (f : Domain → Domain) : (onDomain s n f).trust = s.trust := rfl
@[simp] theorem onDomain_rcount (s : State) (n : Nat) (f : Domain → Domain) : (onDomain s n f).rcount = s.rcount := rfl
@[simp] theorem onDomain_ptroot (s : State) (n : Nat) (f : Domain → Domain) : (onDomain s n f).ptroot = s.ptroot := rfl
@[simp] theorem onDomain_swapbase (s : State) (n : Nat) (f : Domain → Domain) : (onDomain s n f).swapbase = s.swapbase := rfl
@[simp] theorem onDomain_swaplen (s : State) (n : Nat) (f : Domain → Domain) : (onDomain s n f).swaplen = s.swaplen := rfl
@[simp] theorem onDomain_sddone (s : State) (n : Nat) (f : Domain → Domain) : (onDomain s n f).sddone = s.sddone := rfl
@[simp] theorem onDomain_sdlow (s : State) (n : Nat) (f : Domain → Domain) : (onDomain s n f).sdlow = s.sdlow := rfl
@[simp] theorem onDomain_movelow (s : State) (n : Nat) (f : Domain → Domain) : (onDomain s n f).movelow = s.movelow := rfl
@[simp] theorem onDomain_capw (s : State) (n : Nat) (f : Domain → Domain) : (onDomain s n f).capw = s.capw := rfl
@[simp] theorem onDomain_slice (s : State) (n : Nat) (f : Domain → Domain) : (onDomain s n f).slice = s.slice := rfl
@[simp] theorem onDomain_optab (s : State) (n : Nat) (f : Domain → Domain) : (onDomain s n f).optab = s.optab := rfl
@[simp] theorem onDomain_prdone (s : State) (n : Nat) (f : Domain → Domain) : (onDomain s n f).prdone = s.prdone := rfl
@[simp] theorem onDomain_pkgw (s : State) (n : Nat) (f : Domain → Domain) : (onDomain s n f).pkgw = s.pkgw := rfl
@[simp] theorem onDomain_tmax (s : State) (n : Nat) (f : Domain → Domain) : (onDomain s n f).tmax = s.tmax := rfl
@[simp] theorem onDomain_cecnt (s : State) (n : Nat) (f : Domain → Domain) : (onDomain s n f).cecnt = s.cecnt := rfl
@[simp] theorem onDomain_uecnt (s : State) (n : Nat) (f : Domain → Domain) : (onDomain s n f).uecnt = s.uecnt := rfl
@[simp] theorem onDomain_stalewr (s : State) (n : Nat) (f : Domain → Domain) : (onDomain s n f).stalewr = s.stalewr := rfl
@[simp] theorem onDomain_lretry (s : State) (n : Nat) (f : Domain → Domain) : (onDomain s n f).lretry = s.lretry := rfl
@[simp] theorem onDomain_poison (s : State) (n : Nat) (f : Domain → Domain) : (onDomain s n f).poison = s.poison := rfl
@[simp] theorem onDomain_poisoned (s : State) (n : Nat) (f : Domain → Domain) : (onDomain s n f).poisoned = s.poisoned := rfl
@[simp] theorem onDomain_retired (s : State) (n : Nat) (f : Domain → Domain) : (onDomain s n f).retired = s.retired := rfl
@[simp] theorem onDomain_spdm (s : State) (n : Nat) (f : Domain → Domain) : (onDomain s n f).spdm = s.spdm := rfl
@[simp] theorem onDomain_dies (s : State) (n : Nat) (f : Domain → Domain) : (onDomain s n f).dies = s.dies := rfl
@[simp] theorem onDomain_update (s : State) (n : Nat) (f : Domain → Domain) : (onDomain s n f).update = s.update := rfl
@[simp] theorem onDomain_interrupts (s : State) (n : Nat) (f : Domain → Domain) : (onDomain s n f).interrupts = s.interrupts := rfl
@[simp] theorem onDomain_outbox (s : State) (n : Nat) (f : Domain → Domain) : (onDomain s n f).outbox = s.outbox := rfl
@[simp] theorem onDomain_hostRead (s : State) (n : Nat) (f : Domain → Domain) : (onDomain s n f).hostRead = s.hostRead := rfl
@[simp] theorem onDomain_hostPoison (s : State) (n : Nat) (f : Domain → Domain) : (onDomain s n f).hostPoison = s.hostPoison := rfl
@[simp] theorem onDomain_pkg (s : State) (n : Nat) (f : Domain → Domain) : (onDomain s n f).pkg = s.pkg := rfl
@[simp] theorem onDomain_names (s : State) (n : Nat) (f : Domain → Domain) : (onDomain s n f).names = s.names := rfl
@[simp] theorem onDomain_messages (s : State) (n : Nat) (f : Domain → Domain) : (onDomain s n f).messages = s.messages := rfl
@[simp] theorem onDomain_time (s : State) (n : Nat) (f : Domain → Domain) : (onDomain s n f).time = s.time := rfl

/-! ### `onFunc` -/

@[simp] theorem onFunc_turn (s : State) (n : Nat) (f : Func → Func) : (onFunc s n f).turn = s.turn := rfl
@[simp] theorem onFunc_serial (s : State) (n : Nat) (f : Func → Func) : (onFunc s n f).serial = s.serial := rfl
@[simp] theorem onFunc_cores (s : State) (n : Nat) (f : Func → Func) : (onFunc s n f).cores = s.cores := rfl
@[simp] theorem onFunc_memory (s : State) (n : Nat) (f : Func → Func) : (onFunc s n f).memory = s.memory := rfl
@[simp] theorem onFunc_history (s : State) (n : Nat) (f : Func → Func) : (onFunc s n f).history = s.history := rfl
@[simp] theorem onFunc_pending (s : State) (n : Nat) (f : Func → Func) : (onFunc s n f).pending = s.pending := rfl
@[simp] theorem onFunc_translations (s : State) (n : Nat) (f : Func → Func) : (onFunc s n f).translations = s.translations := rfl
@[simp] theorem onFunc_teams (s : State) (n : Nat) (f : Func → Func) : (onFunc s n f).teams = s.teams := rfl
@[simp] theorem onFunc_launches (s : State) (n : Nat) (f : Func → Func) : (onFunc s n f).launches = s.launches := rfl
@[simp] theorem onFunc_domains (s : State) (n : Nat) (f : Func → Func) : (onFunc s n f).domains = s.domains := rfl
@[simp] theorem onFunc_queues (s : State) (n : Nat) (f : Func → Func) : (onFunc s n f).queues = s.queues := rfl
@[simp] theorem onFunc_rounds (s : State) (n : Nat) (f : Func → Func) : (onFunc s n f).rounds = s.rounds := rfl
@[simp] theorem onFunc_scrub (s : State) (n : Nat) (f : Func → Func) : (onFunc s n f).scrub = s.scrub := rfl
@[simp] theorem onFunc_tickets (s : State) (n : Nat) (f : Func → Func) : (onFunc s n f).tickets = s.tickets := rfl
@[simp] theorem onFunc_shootdowns (s : State) (n : Nat) (f : Func → Func) : (onFunc s n f).shootdowns = s.shootdowns := rfl
@[simp] theorem onFunc_resets (s : State) (n : Nat) (f : Func → Func) : (onFunc s n f).resets = s.resets := rfl
@[simp] theorem onFunc_islands (s : State) (n : Nat) (f : Func → Func) : (onFunc s n f).islands = s.islands := rfl
@[simp] theorem onFunc_keys (s : State) (n : Nat) (f : Func → Func) : (onFunc s n f).keys = s.keys := rfl
@[simp] theorem onFunc_creates (s : State) (n : Nat) (f : Func → Func) : (onFunc s n f).creates = s.creates := rfl
@[simp] theorem onFunc_trust (s : State) (n : Nat) (f : Func → Func) : (onFunc s n f).trust = s.trust := rfl
@[simp] theorem onFunc_rcount (s : State) (n : Nat) (f : Func → Func) : (onFunc s n f).rcount = s.rcount := rfl
@[simp] theorem onFunc_ptroot (s : State) (n : Nat) (f : Func → Func) : (onFunc s n f).ptroot = s.ptroot := rfl
@[simp] theorem onFunc_swapbase (s : State) (n : Nat) (f : Func → Func) : (onFunc s n f).swapbase = s.swapbase := rfl
@[simp] theorem onFunc_swaplen (s : State) (n : Nat) (f : Func → Func) : (onFunc s n f).swaplen = s.swaplen := rfl
@[simp] theorem onFunc_sddone (s : State) (n : Nat) (f : Func → Func) : (onFunc s n f).sddone = s.sddone := rfl
@[simp] theorem onFunc_sdlow (s : State) (n : Nat) (f : Func → Func) : (onFunc s n f).sdlow = s.sdlow := rfl
@[simp] theorem onFunc_movelow (s : State) (n : Nat) (f : Func → Func) : (onFunc s n f).movelow = s.movelow := rfl
@[simp] theorem onFunc_capw (s : State) (n : Nat) (f : Func → Func) : (onFunc s n f).capw = s.capw := rfl
@[simp] theorem onFunc_slice (s : State) (n : Nat) (f : Func → Func) : (onFunc s n f).slice = s.slice := rfl
@[simp] theorem onFunc_optab (s : State) (n : Nat) (f : Func → Func) : (onFunc s n f).optab = s.optab := rfl
@[simp] theorem onFunc_prdone (s : State) (n : Nat) (f : Func → Func) : (onFunc s n f).prdone = s.prdone := rfl
@[simp] theorem onFunc_pkgw (s : State) (n : Nat) (f : Func → Func) : (onFunc s n f).pkgw = s.pkgw := rfl
@[simp] theorem onFunc_tmax (s : State) (n : Nat) (f : Func → Func) : (onFunc s n f).tmax = s.tmax := rfl
@[simp] theorem onFunc_cecnt (s : State) (n : Nat) (f : Func → Func) : (onFunc s n f).cecnt = s.cecnt := rfl
@[simp] theorem onFunc_uecnt (s : State) (n : Nat) (f : Func → Func) : (onFunc s n f).uecnt = s.uecnt := rfl
@[simp] theorem onFunc_stalewr (s : State) (n : Nat) (f : Func → Func) : (onFunc s n f).stalewr = s.stalewr := rfl
@[simp] theorem onFunc_lretry (s : State) (n : Nat) (f : Func → Func) : (onFunc s n f).lretry = s.lretry := rfl
@[simp] theorem onFunc_poison (s : State) (n : Nat) (f : Func → Func) : (onFunc s n f).poison = s.poison := rfl
@[simp] theorem onFunc_poisoned (s : State) (n : Nat) (f : Func → Func) : (onFunc s n f).poisoned = s.poisoned := rfl
@[simp] theorem onFunc_retired (s : State) (n : Nat) (f : Func → Func) : (onFunc s n f).retired = s.retired := rfl
@[simp] theorem onFunc_spdm (s : State) (n : Nat) (f : Func → Func) : (onFunc s n f).spdm = s.spdm := rfl
@[simp] theorem onFunc_dies (s : State) (n : Nat) (f : Func → Func) : (onFunc s n f).dies = s.dies := rfl
@[simp] theorem onFunc_update (s : State) (n : Nat) (f : Func → Func) : (onFunc s n f).update = s.update := rfl
@[simp] theorem onFunc_interrupts (s : State) (n : Nat) (f : Func → Func) : (onFunc s n f).interrupts = s.interrupts := rfl
@[simp] theorem onFunc_outbox (s : State) (n : Nat) (f : Func → Func) : (onFunc s n f).outbox = s.outbox := rfl
@[simp] theorem onFunc_hostRead (s : State) (n : Nat) (f : Func → Func) : (onFunc s n f).hostRead = s.hostRead := rfl
@[simp] theorem onFunc_hostPoison (s : State) (n : Nat) (f : Func → Func) : (onFunc s n f).hostPoison = s.hostPoison := rfl
@[simp] theorem onFunc_pkg (s : State) (n : Nat) (f : Func → Func) : (onFunc s n f).pkg = s.pkg := rfl
@[simp] theorem onFunc_names (s : State) (n : Nat) (f : Func → Func) : (onFunc s n f).names = s.names := rfl
@[simp] theorem onFunc_messages (s : State) (n : Nat) (f : Func → Func) : (onFunc s n f).messages = s.messages := rfl
@[simp] theorem onFunc_time (s : State) (n : Nat) (f : Func → Func) : (onFunc s n f).time = s.time := rfl

/-! ### `onQueue` -/

@[simp] theorem onQueue_turn (s : State) (n : Nat) (f : Queue → Queue) : (onQueue s n f).turn = s.turn := rfl
@[simp] theorem onQueue_serial (s : State) (n : Nat) (f : Queue → Queue) : (onQueue s n f).serial = s.serial := rfl
@[simp] theorem onQueue_cores (s : State) (n : Nat) (f : Queue → Queue) : (onQueue s n f).cores = s.cores := rfl
@[simp] theorem onQueue_memory (s : State) (n : Nat) (f : Queue → Queue) : (onQueue s n f).memory = s.memory := rfl
@[simp] theorem onQueue_history (s : State) (n : Nat) (f : Queue → Queue) : (onQueue s n f).history = s.history := rfl
@[simp] theorem onQueue_pending (s : State) (n : Nat) (f : Queue → Queue) : (onQueue s n f).pending = s.pending := rfl
@[simp] theorem onQueue_translations (s : State) (n : Nat) (f : Queue → Queue) : (onQueue s n f).translations = s.translations := rfl
@[simp] theorem onQueue_teams (s : State) (n : Nat) (f : Queue → Queue) : (onQueue s n f).teams = s.teams := rfl
@[simp] theorem onQueue_launches (s : State) (n : Nat) (f : Queue → Queue) : (onQueue s n f).launches = s.launches := rfl
@[simp] theorem onQueue_domains (s : State) (n : Nat) (f : Queue → Queue) : (onQueue s n f).domains = s.domains := rfl
@[simp] theorem onQueue_funcs (s : State) (n : Nat) (f : Queue → Queue) : (onQueue s n f).funcs = s.funcs := rfl
@[simp] theorem onQueue_rounds (s : State) (n : Nat) (f : Queue → Queue) : (onQueue s n f).rounds = s.rounds := rfl
@[simp] theorem onQueue_scrub (s : State) (n : Nat) (f : Queue → Queue) : (onQueue s n f).scrub = s.scrub := rfl
@[simp] theorem onQueue_tickets (s : State) (n : Nat) (f : Queue → Queue) : (onQueue s n f).tickets = s.tickets := rfl
@[simp] theorem onQueue_shootdowns (s : State) (n : Nat) (f : Queue → Queue) : (onQueue s n f).shootdowns = s.shootdowns := rfl
@[simp] theorem onQueue_resets (s : State) (n : Nat) (f : Queue → Queue) : (onQueue s n f).resets = s.resets := rfl
@[simp] theorem onQueue_islands (s : State) (n : Nat) (f : Queue → Queue) : (onQueue s n f).islands = s.islands := rfl
@[simp] theorem onQueue_keys (s : State) (n : Nat) (f : Queue → Queue) : (onQueue s n f).keys = s.keys := rfl
@[simp] theorem onQueue_creates (s : State) (n : Nat) (f : Queue → Queue) : (onQueue s n f).creates = s.creates := rfl
@[simp] theorem onQueue_trust (s : State) (n : Nat) (f : Queue → Queue) : (onQueue s n f).trust = s.trust := rfl
@[simp] theorem onQueue_rcount (s : State) (n : Nat) (f : Queue → Queue) : (onQueue s n f).rcount = s.rcount := rfl
@[simp] theorem onQueue_ptroot (s : State) (n : Nat) (f : Queue → Queue) : (onQueue s n f).ptroot = s.ptroot := rfl
@[simp] theorem onQueue_swapbase (s : State) (n : Nat) (f : Queue → Queue) : (onQueue s n f).swapbase = s.swapbase := rfl
@[simp] theorem onQueue_swaplen (s : State) (n : Nat) (f : Queue → Queue) : (onQueue s n f).swaplen = s.swaplen := rfl
@[simp] theorem onQueue_sddone (s : State) (n : Nat) (f : Queue → Queue) : (onQueue s n f).sddone = s.sddone := rfl
@[simp] theorem onQueue_sdlow (s : State) (n : Nat) (f : Queue → Queue) : (onQueue s n f).sdlow = s.sdlow := rfl
@[simp] theorem onQueue_movelow (s : State) (n : Nat) (f : Queue → Queue) : (onQueue s n f).movelow = s.movelow := rfl
@[simp] theorem onQueue_capw (s : State) (n : Nat) (f : Queue → Queue) : (onQueue s n f).capw = s.capw := rfl
@[simp] theorem onQueue_slice (s : State) (n : Nat) (f : Queue → Queue) : (onQueue s n f).slice = s.slice := rfl
@[simp] theorem onQueue_optab (s : State) (n : Nat) (f : Queue → Queue) : (onQueue s n f).optab = s.optab := rfl
@[simp] theorem onQueue_prdone (s : State) (n : Nat) (f : Queue → Queue) : (onQueue s n f).prdone = s.prdone := rfl
@[simp] theorem onQueue_pkgw (s : State) (n : Nat) (f : Queue → Queue) : (onQueue s n f).pkgw = s.pkgw := rfl
@[simp] theorem onQueue_tmax (s : State) (n : Nat) (f : Queue → Queue) : (onQueue s n f).tmax = s.tmax := rfl
@[simp] theorem onQueue_cecnt (s : State) (n : Nat) (f : Queue → Queue) : (onQueue s n f).cecnt = s.cecnt := rfl
@[simp] theorem onQueue_uecnt (s : State) (n : Nat) (f : Queue → Queue) : (onQueue s n f).uecnt = s.uecnt := rfl
@[simp] theorem onQueue_stalewr (s : State) (n : Nat) (f : Queue → Queue) : (onQueue s n f).stalewr = s.stalewr := rfl
@[simp] theorem onQueue_lretry (s : State) (n : Nat) (f : Queue → Queue) : (onQueue s n f).lretry = s.lretry := rfl
@[simp] theorem onQueue_poison (s : State) (n : Nat) (f : Queue → Queue) : (onQueue s n f).poison = s.poison := rfl
@[simp] theorem onQueue_poisoned (s : State) (n : Nat) (f : Queue → Queue) : (onQueue s n f).poisoned = s.poisoned := rfl
@[simp] theorem onQueue_retired (s : State) (n : Nat) (f : Queue → Queue) : (onQueue s n f).retired = s.retired := rfl
@[simp] theorem onQueue_spdm (s : State) (n : Nat) (f : Queue → Queue) : (onQueue s n f).spdm = s.spdm := rfl
@[simp] theorem onQueue_dies (s : State) (n : Nat) (f : Queue → Queue) : (onQueue s n f).dies = s.dies := rfl
@[simp] theorem onQueue_update (s : State) (n : Nat) (f : Queue → Queue) : (onQueue s n f).update = s.update := rfl
@[simp] theorem onQueue_interrupts (s : State) (n : Nat) (f : Queue → Queue) : (onQueue s n f).interrupts = s.interrupts := rfl
@[simp] theorem onQueue_outbox (s : State) (n : Nat) (f : Queue → Queue) : (onQueue s n f).outbox = s.outbox := rfl
@[simp] theorem onQueue_hostRead (s : State) (n : Nat) (f : Queue → Queue) : (onQueue s n f).hostRead = s.hostRead := rfl
@[simp] theorem onQueue_hostPoison (s : State) (n : Nat) (f : Queue → Queue) : (onQueue s n f).hostPoison = s.hostPoison := rfl
@[simp] theorem onQueue_pkg (s : State) (n : Nat) (f : Queue → Queue) : (onQueue s n f).pkg = s.pkg := rfl
@[simp] theorem onQueue_names (s : State) (n : Nat) (f : Queue → Queue) : (onQueue s n f).names = s.names := rfl
@[simp] theorem onQueue_messages (s : State) (n : Nat) (f : Queue → Queue) : (onQueue s n f).messages = s.messages := rfl
@[simp] theorem onQueue_time (s : State) (n : Nat) (f : Queue → Queue) : (onQueue s n f).time = s.time := rfl

/-! ### `setGranule` -/

@[simp] theorem setGranule_turn (s : State) (d i : Nat) (g : Granule) : (setGranule s d i g).turn = s.turn := rfl
@[simp] theorem setGranule_serial (s : State) (d i : Nat) (g : Granule) : (setGranule s d i g).serial = s.serial := rfl
@[simp] theorem setGranule_cores (s : State) (d i : Nat) (g : Granule) : (setGranule s d i g).cores = s.cores := rfl
@[simp] theorem setGranule_memory (s : State) (d i : Nat) (g : Granule) : (setGranule s d i g).memory = s.memory := rfl
@[simp] theorem setGranule_history (s : State) (d i : Nat) (g : Granule) : (setGranule s d i g).history = s.history := rfl
@[simp] theorem setGranule_pending (s : State) (d i : Nat) (g : Granule) : (setGranule s d i g).pending = s.pending := rfl
@[simp] theorem setGranule_translations (s : State) (d i : Nat) (g : Granule) : (setGranule s d i g).translations = s.translations := rfl
@[simp] theorem setGranule_teams (s : State) (d i : Nat) (g : Granule) : (setGranule s d i g).teams = s.teams := rfl
@[simp] theorem setGranule_launches (s : State) (d i : Nat) (g : Granule) : (setGranule s d i g).launches = s.launches := rfl
@[simp] theorem setGranule_queues (s : State) (d i : Nat) (g : Granule) : (setGranule s d i g).queues = s.queues := rfl
@[simp] theorem setGranule_funcs (s : State) (d i : Nat) (g : Granule) : (setGranule s d i g).funcs = s.funcs := rfl
@[simp] theorem setGranule_rounds (s : State) (d i : Nat) (g : Granule) : (setGranule s d i g).rounds = s.rounds := rfl
@[simp] theorem setGranule_scrub (s : State) (d i : Nat) (g : Granule) : (setGranule s d i g).scrub = s.scrub := rfl
@[simp] theorem setGranule_tickets (s : State) (d i : Nat) (g : Granule) : (setGranule s d i g).tickets = s.tickets := rfl
@[simp] theorem setGranule_shootdowns (s : State) (d i : Nat) (g : Granule) : (setGranule s d i g).shootdowns = s.shootdowns := rfl
@[simp] theorem setGranule_resets (s : State) (d i : Nat) (g : Granule) : (setGranule s d i g).resets = s.resets := rfl
@[simp] theorem setGranule_islands (s : State) (d i : Nat) (g : Granule) : (setGranule s d i g).islands = s.islands := rfl
@[simp] theorem setGranule_keys (s : State) (d i : Nat) (g : Granule) : (setGranule s d i g).keys = s.keys := rfl
@[simp] theorem setGranule_creates (s : State) (d i : Nat) (g : Granule) : (setGranule s d i g).creates = s.creates := rfl
@[simp] theorem setGranule_trust (s : State) (d i : Nat) (g : Granule) : (setGranule s d i g).trust = s.trust := rfl
@[simp] theorem setGranule_rcount (s : State) (d i : Nat) (g : Granule) : (setGranule s d i g).rcount = s.rcount := rfl
@[simp] theorem setGranule_ptroot (s : State) (d i : Nat) (g : Granule) : (setGranule s d i g).ptroot = s.ptroot := rfl
@[simp] theorem setGranule_swapbase (s : State) (d i : Nat) (g : Granule) : (setGranule s d i g).swapbase = s.swapbase := rfl
@[simp] theorem setGranule_swaplen (s : State) (d i : Nat) (g : Granule) : (setGranule s d i g).swaplen = s.swaplen := rfl
@[simp] theorem setGranule_sddone (s : State) (d i : Nat) (g : Granule) : (setGranule s d i g).sddone = s.sddone := rfl
@[simp] theorem setGranule_sdlow (s : State) (d i : Nat) (g : Granule) : (setGranule s d i g).sdlow = s.sdlow := rfl
@[simp] theorem setGranule_movelow (s : State) (d i : Nat) (g : Granule) : (setGranule s d i g).movelow = s.movelow := rfl
@[simp] theorem setGranule_capw (s : State) (d i : Nat) (g : Granule) : (setGranule s d i g).capw = s.capw := rfl
@[simp] theorem setGranule_slice (s : State) (d i : Nat) (g : Granule) : (setGranule s d i g).slice = s.slice := rfl
@[simp] theorem setGranule_optab (s : State) (d i : Nat) (g : Granule) : (setGranule s d i g).optab = s.optab := rfl
@[simp] theorem setGranule_prdone (s : State) (d i : Nat) (g : Granule) : (setGranule s d i g).prdone = s.prdone := rfl
@[simp] theorem setGranule_pkgw (s : State) (d i : Nat) (g : Granule) : (setGranule s d i g).pkgw = s.pkgw := rfl
@[simp] theorem setGranule_tmax (s : State) (d i : Nat) (g : Granule) : (setGranule s d i g).tmax = s.tmax := rfl
@[simp] theorem setGranule_cecnt (s : State) (d i : Nat) (g : Granule) : (setGranule s d i g).cecnt = s.cecnt := rfl
@[simp] theorem setGranule_uecnt (s : State) (d i : Nat) (g : Granule) : (setGranule s d i g).uecnt = s.uecnt := rfl
@[simp] theorem setGranule_stalewr (s : State) (d i : Nat) (g : Granule) : (setGranule s d i g).stalewr = s.stalewr := rfl
@[simp] theorem setGranule_lretry (s : State) (d i : Nat) (g : Granule) : (setGranule s d i g).lretry = s.lretry := rfl
@[simp] theorem setGranule_poison (s : State) (d i : Nat) (g : Granule) : (setGranule s d i g).poison = s.poison := rfl
@[simp] theorem setGranule_poisoned (s : State) (d i : Nat) (g : Granule) : (setGranule s d i g).poisoned = s.poisoned := rfl
@[simp] theorem setGranule_retired (s : State) (d i : Nat) (g : Granule) : (setGranule s d i g).retired = s.retired := rfl
@[simp] theorem setGranule_spdm (s : State) (d i : Nat) (g : Granule) : (setGranule s d i g).spdm = s.spdm := rfl
@[simp] theorem setGranule_dies (s : State) (d i : Nat) (g : Granule) : (setGranule s d i g).dies = s.dies := rfl
@[simp] theorem setGranule_update (s : State) (d i : Nat) (g : Granule) : (setGranule s d i g).update = s.update := rfl
@[simp] theorem setGranule_interrupts (s : State) (d i : Nat) (g : Granule) : (setGranule s d i g).interrupts = s.interrupts := rfl
@[simp] theorem setGranule_outbox (s : State) (d i : Nat) (g : Granule) : (setGranule s d i g).outbox = s.outbox := rfl
@[simp] theorem setGranule_hostRead (s : State) (d i : Nat) (g : Granule) : (setGranule s d i g).hostRead = s.hostRead := rfl
@[simp] theorem setGranule_hostPoison (s : State) (d i : Nat) (g : Granule) : (setGranule s d i g).hostPoison = s.hostPoison := rfl
@[simp] theorem setGranule_pkg (s : State) (d i : Nat) (g : Granule) : (setGranule s d i g).pkg = s.pkg := rfl
@[simp] theorem setGranule_names (s : State) (d i : Nat) (g : Granule) : (setGranule s d i g).names = s.names := rfl
@[simp] theorem setGranule_messages (s : State) (d i : Nat) (g : Granule) : (setGranule s d i g).messages = s.messages := rfl
@[simp] theorem setGranule_time (s : State) (d i : Nat) (g : Granule) : (setGranule s d i g).time = s.time := rfl

/-! ### `physWrite` -/

@[simp] theorem physWrite_turn (s : State) (k a : Nat) (bs : List Byte) (t : Bool) : (physWrite s k a bs t).turn = s.turn := rfl
@[simp] theorem physWrite_serial (s : State) (k a : Nat) (bs : List Byte) (t : Bool) : (physWrite s k a bs t).serial = s.serial := rfl
@[simp] theorem physWrite_cores (s : State) (k a : Nat) (bs : List Byte) (t : Bool) : (physWrite s k a bs t).cores = s.cores := rfl
@[simp] theorem physWrite_pending (s : State) (k a : Nat) (bs : List Byte) (t : Bool) : (physWrite s k a bs t).pending = s.pending := rfl
@[simp] theorem physWrite_translations (s : State) (k a : Nat) (bs : List Byte) (t : Bool) : (physWrite s k a bs t).translations = s.translations := rfl
@[simp] theorem physWrite_teams (s : State) (k a : Nat) (bs : List Byte) (t : Bool) : (physWrite s k a bs t).teams = s.teams := rfl
@[simp] theorem physWrite_launches (s : State) (k a : Nat) (bs : List Byte) (t : Bool) : (physWrite s k a bs t).launches = s.launches := rfl
@[simp] theorem physWrite_domains (s : State) (k a : Nat) (bs : List Byte) (t : Bool) : (physWrite s k a bs t).domains = s.domains := rfl
@[simp] theorem physWrite_queues (s : State) (k a : Nat) (bs : List Byte) (t : Bool) : (physWrite s k a bs t).queues = s.queues := rfl
@[simp] theorem physWrite_funcs (s : State) (k a : Nat) (bs : List Byte) (t : Bool) : (physWrite s k a bs t).funcs = s.funcs := rfl
@[simp] theorem physWrite_rounds (s : State) (k a : Nat) (bs : List Byte) (t : Bool) : (physWrite s k a bs t).rounds = s.rounds := rfl
@[simp] theorem physWrite_scrub (s : State) (k a : Nat) (bs : List Byte) (t : Bool) : (physWrite s k a bs t).scrub = s.scrub := rfl
@[simp] theorem physWrite_tickets (s : State) (k a : Nat) (bs : List Byte) (t : Bool) : (physWrite s k a bs t).tickets = s.tickets := rfl
@[simp] theorem physWrite_shootdowns (s : State) (k a : Nat) (bs : List Byte) (t : Bool) : (physWrite s k a bs t).shootdowns = s.shootdowns := rfl
@[simp] theorem physWrite_resets (s : State) (k a : Nat) (bs : List Byte) (t : Bool) : (physWrite s k a bs t).resets = s.resets := rfl
@[simp] theorem physWrite_islands (s : State) (k a : Nat) (bs : List Byte) (t : Bool) : (physWrite s k a bs t).islands = s.islands := rfl
@[simp] theorem physWrite_keys (s : State) (k a : Nat) (bs : List Byte) (t : Bool) : (physWrite s k a bs t).keys = s.keys := rfl
@[simp] theorem physWrite_creates (s : State) (k a : Nat) (bs : List Byte) (t : Bool) : (physWrite s k a bs t).creates = s.creates := rfl
@[simp] theorem physWrite_trust (s : State) (k a : Nat) (bs : List Byte) (t : Bool) : (physWrite s k a bs t).trust = s.trust := rfl
@[simp] theorem physWrite_rcount (s : State) (k a : Nat) (bs : List Byte) (t : Bool) : (physWrite s k a bs t).rcount = s.rcount := rfl
@[simp] theorem physWrite_ptroot (s : State) (k a : Nat) (bs : List Byte) (t : Bool) : (physWrite s k a bs t).ptroot = s.ptroot := rfl
@[simp] theorem physWrite_swapbase (s : State) (k a : Nat) (bs : List Byte) (t : Bool) : (physWrite s k a bs t).swapbase = s.swapbase := rfl
@[simp] theorem physWrite_swaplen (s : State) (k a : Nat) (bs : List Byte) (t : Bool) : (physWrite s k a bs t).swaplen = s.swaplen := rfl
@[simp] theorem physWrite_sddone (s : State) (k a : Nat) (bs : List Byte) (t : Bool) : (physWrite s k a bs t).sddone = s.sddone := rfl
@[simp] theorem physWrite_sdlow (s : State) (k a : Nat) (bs : List Byte) (t : Bool) : (physWrite s k a bs t).sdlow = s.sdlow := rfl
@[simp] theorem physWrite_movelow (s : State) (k a : Nat) (bs : List Byte) (t : Bool) : (physWrite s k a bs t).movelow = s.movelow := rfl
@[simp] theorem physWrite_capw (s : State) (k a : Nat) (bs : List Byte) (t : Bool) : (physWrite s k a bs t).capw = s.capw := rfl
@[simp] theorem physWrite_slice (s : State) (k a : Nat) (bs : List Byte) (t : Bool) : (physWrite s k a bs t).slice = s.slice := rfl
@[simp] theorem physWrite_optab (s : State) (k a : Nat) (bs : List Byte) (t : Bool) : (physWrite s k a bs t).optab = s.optab := rfl
@[simp] theorem physWrite_prdone (s : State) (k a : Nat) (bs : List Byte) (t : Bool) : (physWrite s k a bs t).prdone = s.prdone := rfl
@[simp] theorem physWrite_pkgw (s : State) (k a : Nat) (bs : List Byte) (t : Bool) : (physWrite s k a bs t).pkgw = s.pkgw := rfl
@[simp] theorem physWrite_tmax (s : State) (k a : Nat) (bs : List Byte) (t : Bool) : (physWrite s k a bs t).tmax = s.tmax := rfl
@[simp] theorem physWrite_cecnt (s : State) (k a : Nat) (bs : List Byte) (t : Bool) : (physWrite s k a bs t).cecnt = s.cecnt := rfl
@[simp] theorem physWrite_uecnt (s : State) (k a : Nat) (bs : List Byte) (t : Bool) : (physWrite s k a bs t).uecnt = s.uecnt := rfl
@[simp] theorem physWrite_stalewr (s : State) (k a : Nat) (bs : List Byte) (t : Bool) : (physWrite s k a bs t).stalewr = s.stalewr := rfl
@[simp] theorem physWrite_lretry (s : State) (k a : Nat) (bs : List Byte) (t : Bool) : (physWrite s k a bs t).lretry = s.lretry := rfl
@[simp] theorem physWrite_poisoned (s : State) (k a : Nat) (bs : List Byte) (t : Bool) : (physWrite s k a bs t).poisoned = s.poisoned := rfl
@[simp] theorem physWrite_retired (s : State) (k a : Nat) (bs : List Byte) (t : Bool) : (physWrite s k a bs t).retired = s.retired := rfl
@[simp] theorem physWrite_spdm (s : State) (k a : Nat) (bs : List Byte) (t : Bool) : (physWrite s k a bs t).spdm = s.spdm := rfl
@[simp] theorem physWrite_dies (s : State) (k a : Nat) (bs : List Byte) (t : Bool) : (physWrite s k a bs t).dies = s.dies := rfl
@[simp] theorem physWrite_update (s : State) (k a : Nat) (bs : List Byte) (t : Bool) : (physWrite s k a bs t).update = s.update := rfl
@[simp] theorem physWrite_interrupts (s : State) (k a : Nat) (bs : List Byte) (t : Bool) : (physWrite s k a bs t).interrupts = s.interrupts := rfl
@[simp] theorem physWrite_outbox (s : State) (k a : Nat) (bs : List Byte) (t : Bool) : (physWrite s k a bs t).outbox = s.outbox := rfl
@[simp] theorem physWrite_hostRead (s : State) (k a : Nat) (bs : List Byte) (t : Bool) : (physWrite s k a bs t).hostRead = s.hostRead := rfl
@[simp] theorem physWrite_hostPoison (s : State) (k a : Nat) (bs : List Byte) (t : Bool) : (physWrite s k a bs t).hostPoison = s.hostPoison := rfl
@[simp] theorem physWrite_pkg (s : State) (k a : Nat) (bs : List Byte) (t : Bool) : (physWrite s k a bs t).pkg = s.pkg := rfl
@[simp] theorem physWrite_names (s : State) (k a : Nat) (bs : List Byte) (t : Bool) : (physWrite s k a bs t).names = s.names := rfl
@[simp] theorem physWrite_messages (s : State) (k a : Nat) (bs : List Byte) (t : Bool) : (physWrite s k a bs t).messages = s.messages := rfl
@[simp] theorem physWrite_time (s : State) (k a : Nat) (bs : List Byte) (t : Bool) : (physWrite s k a bs t).time = s.time := rfl

/-! ### `physPut` -/

@[simp] theorem physPut_turn (s : State) (k a : Nat) (bs : List Byte) (t : Bool) : (physPut s k a bs t).turn = s.turn := rfl
@[simp] theorem physPut_serial (s : State) (k a : Nat) (bs : List Byte) (t : Bool) : (physPut s k a bs t).serial = s.serial := rfl
@[simp] theorem physPut_cores (s : State) (k a : Nat) (bs : List Byte) (t : Bool) : (physPut s k a bs t).cores = s.cores := rfl
@[simp] theorem physPut_history (s : State) (k a : Nat) (bs : List Byte) (t : Bool) : (physPut s k a bs t).history = s.history := rfl
@[simp] theorem physPut_pending (s : State) (k a : Nat) (bs : List Byte) (t : Bool) : (physPut s k a bs t).pending = s.pending := rfl
@[simp] theorem physPut_translations (s : State) (k a : Nat) (bs : List Byte) (t : Bool) : (physPut s k a bs t).translations = s.translations := rfl
@[simp] theorem physPut_teams (s : State) (k a : Nat) (bs : List Byte) (t : Bool) : (physPut s k a bs t).teams = s.teams := rfl
@[simp] theorem physPut_launches (s : State) (k a : Nat) (bs : List Byte) (t : Bool) : (physPut s k a bs t).launches = s.launches := rfl
@[simp] theorem physPut_domains (s : State) (k a : Nat) (bs : List Byte) (t : Bool) : (physPut s k a bs t).domains = s.domains := rfl
@[simp] theorem physPut_queues (s : State) (k a : Nat) (bs : List Byte) (t : Bool) : (physPut s k a bs t).queues = s.queues := rfl
@[simp] theorem physPut_funcs (s : State) (k a : Nat) (bs : List Byte) (t : Bool) : (physPut s k a bs t).funcs = s.funcs := rfl
@[simp] theorem physPut_rounds (s : State) (k a : Nat) (bs : List Byte) (t : Bool) : (physPut s k a bs t).rounds = s.rounds := rfl
@[simp] theorem physPut_scrub (s : State) (k a : Nat) (bs : List Byte) (t : Bool) : (physPut s k a bs t).scrub = s.scrub := rfl
@[simp] theorem physPut_tickets (s : State) (k a : Nat) (bs : List Byte) (t : Bool) : (physPut s k a bs t).tickets = s.tickets := rfl
@[simp] theorem physPut_shootdowns (s : State) (k a : Nat) (bs : List Byte) (t : Bool) : (physPut s k a bs t).shootdowns = s.shootdowns := rfl
@[simp] theorem physPut_resets (s : State) (k a : Nat) (bs : List Byte) (t : Bool) : (physPut s k a bs t).resets = s.resets := rfl
@[simp] theorem physPut_islands (s : State) (k a : Nat) (bs : List Byte) (t : Bool) : (physPut s k a bs t).islands = s.islands := rfl
@[simp] theorem physPut_keys (s : State) (k a : Nat) (bs : List Byte) (t : Bool) : (physPut s k a bs t).keys = s.keys := rfl
@[simp] theorem physPut_creates (s : State) (k a : Nat) (bs : List Byte) (t : Bool) : (physPut s k a bs t).creates = s.creates := rfl
@[simp] theorem physPut_trust (s : State) (k a : Nat) (bs : List Byte) (t : Bool) : (physPut s k a bs t).trust = s.trust := rfl
@[simp] theorem physPut_rcount (s : State) (k a : Nat) (bs : List Byte) (t : Bool) : (physPut s k a bs t).rcount = s.rcount := rfl
@[simp] theorem physPut_ptroot (s : State) (k a : Nat) (bs : List Byte) (t : Bool) : (physPut s k a bs t).ptroot = s.ptroot := rfl
@[simp] theorem physPut_swapbase (s : State) (k a : Nat) (bs : List Byte) (t : Bool) : (physPut s k a bs t).swapbase = s.swapbase := rfl
@[simp] theorem physPut_swaplen (s : State) (k a : Nat) (bs : List Byte) (t : Bool) : (physPut s k a bs t).swaplen = s.swaplen := rfl
@[simp] theorem physPut_sddone (s : State) (k a : Nat) (bs : List Byte) (t : Bool) : (physPut s k a bs t).sddone = s.sddone := rfl
@[simp] theorem physPut_sdlow (s : State) (k a : Nat) (bs : List Byte) (t : Bool) : (physPut s k a bs t).sdlow = s.sdlow := rfl
@[simp] theorem physPut_movelow (s : State) (k a : Nat) (bs : List Byte) (t : Bool) : (physPut s k a bs t).movelow = s.movelow := rfl
@[simp] theorem physPut_capw (s : State) (k a : Nat) (bs : List Byte) (t : Bool) : (physPut s k a bs t).capw = s.capw := rfl
@[simp] theorem physPut_slice (s : State) (k a : Nat) (bs : List Byte) (t : Bool) : (physPut s k a bs t).slice = s.slice := rfl
@[simp] theorem physPut_optab (s : State) (k a : Nat) (bs : List Byte) (t : Bool) : (physPut s k a bs t).optab = s.optab := rfl
@[simp] theorem physPut_prdone (s : State) (k a : Nat) (bs : List Byte) (t : Bool) : (physPut s k a bs t).prdone = s.prdone := rfl
@[simp] theorem physPut_pkgw (s : State) (k a : Nat) (bs : List Byte) (t : Bool) : (physPut s k a bs t).pkgw = s.pkgw := rfl
@[simp] theorem physPut_tmax (s : State) (k a : Nat) (bs : List Byte) (t : Bool) : (physPut s k a bs t).tmax = s.tmax := rfl
@[simp] theorem physPut_cecnt (s : State) (k a : Nat) (bs : List Byte) (t : Bool) : (physPut s k a bs t).cecnt = s.cecnt := rfl
@[simp] theorem physPut_uecnt (s : State) (k a : Nat) (bs : List Byte) (t : Bool) : (physPut s k a bs t).uecnt = s.uecnt := rfl
@[simp] theorem physPut_stalewr (s : State) (k a : Nat) (bs : List Byte) (t : Bool) : (physPut s k a bs t).stalewr = s.stalewr := rfl
@[simp] theorem physPut_lretry (s : State) (k a : Nat) (bs : List Byte) (t : Bool) : (physPut s k a bs t).lretry = s.lretry := rfl
@[simp] theorem physPut_poisoned (s : State) (k a : Nat) (bs : List Byte) (t : Bool) : (physPut s k a bs t).poisoned = s.poisoned := rfl
@[simp] theorem physPut_retired (s : State) (k a : Nat) (bs : List Byte) (t : Bool) : (physPut s k a bs t).retired = s.retired := rfl
@[simp] theorem physPut_spdm (s : State) (k a : Nat) (bs : List Byte) (t : Bool) : (physPut s k a bs t).spdm = s.spdm := rfl
@[simp] theorem physPut_dies (s : State) (k a : Nat) (bs : List Byte) (t : Bool) : (physPut s k a bs t).dies = s.dies := rfl
@[simp] theorem physPut_update (s : State) (k a : Nat) (bs : List Byte) (t : Bool) : (physPut s k a bs t).update = s.update := rfl
@[simp] theorem physPut_interrupts (s : State) (k a : Nat) (bs : List Byte) (t : Bool) : (physPut s k a bs t).interrupts = s.interrupts := rfl
@[simp] theorem physPut_outbox (s : State) (k a : Nat) (bs : List Byte) (t : Bool) : (physPut s k a bs t).outbox = s.outbox := rfl
@[simp] theorem physPut_hostRead (s : State) (k a : Nat) (bs : List Byte) (t : Bool) : (physPut s k a bs t).hostRead = s.hostRead := rfl
@[simp] theorem physPut_hostPoison (s : State) (k a : Nat) (bs : List Byte) (t : Bool) : (physPut s k a bs t).hostPoison = s.hostPoison := rfl
@[simp] theorem physPut_pkg (s : State) (k a : Nat) (bs : List Byte) (t : Bool) : (physPut s k a bs t).pkg = s.pkg := rfl
@[simp] theorem physPut_names (s : State) (k a : Nat) (bs : List Byte) (t : Bool) : (physPut s k a bs t).names = s.names := rfl
@[simp] theorem physPut_messages (s : State) (k a : Nat) (bs : List Byte) (t : Bool) : (physPut s k a bs t).messages = s.messages := rfl
@[simp] theorem physPut_time (s : State) (k a : Nat) (bs : List Byte) (t : Bool) : (physPut s k a bs t).time = s.time := rfl

/-! ### `hostPut` -/

@[simp] theorem hostPut_turn (s : State) (a : Nat) (bs : List Byte) : (hostPut s a bs).turn = s.turn := rfl
@[simp] theorem hostPut_serial (s : State) (a : Nat) (bs : List Byte) : (hostPut s a bs).serial = s.serial := rfl
@[simp] theorem hostPut_cores (s : State) (a : Nat) (bs : List Byte) : (hostPut s a bs).cores = s.cores := rfl
@[simp] theorem hostPut_history (s : State) (a : Nat) (bs : List Byte) : (hostPut s a bs).history = s.history := rfl
@[simp] theorem hostPut_pending (s : State) (a : Nat) (bs : List Byte) : (hostPut s a bs).pending = s.pending := rfl
@[simp] theorem hostPut_translations (s : State) (a : Nat) (bs : List Byte) : (hostPut s a bs).translations = s.translations := rfl
@[simp] theorem hostPut_teams (s : State) (a : Nat) (bs : List Byte) : (hostPut s a bs).teams = s.teams := rfl
@[simp] theorem hostPut_launches (s : State) (a : Nat) (bs : List Byte) : (hostPut s a bs).launches = s.launches := rfl
@[simp] theorem hostPut_domains (s : State) (a : Nat) (bs : List Byte) : (hostPut s a bs).domains = s.domains := rfl
@[simp] theorem hostPut_queues (s : State) (a : Nat) (bs : List Byte) : (hostPut s a bs).queues = s.queues := rfl
@[simp] theorem hostPut_funcs (s : State) (a : Nat) (bs : List Byte) : (hostPut s a bs).funcs = s.funcs := rfl
@[simp] theorem hostPut_rounds (s : State) (a : Nat) (bs : List Byte) : (hostPut s a bs).rounds = s.rounds := rfl
@[simp] theorem hostPut_scrub (s : State) (a : Nat) (bs : List Byte) : (hostPut s a bs).scrub = s.scrub := rfl
@[simp] theorem hostPut_tickets (s : State) (a : Nat) (bs : List Byte) : (hostPut s a bs).tickets = s.tickets := rfl
@[simp] theorem hostPut_shootdowns (s : State) (a : Nat) (bs : List Byte) : (hostPut s a bs).shootdowns = s.shootdowns := rfl
@[simp] theorem hostPut_resets (s : State) (a : Nat) (bs : List Byte) : (hostPut s a bs).resets = s.resets := rfl
@[simp] theorem hostPut_islands (s : State) (a : Nat) (bs : List Byte) : (hostPut s a bs).islands = s.islands := rfl
@[simp] theorem hostPut_keys (s : State) (a : Nat) (bs : List Byte) : (hostPut s a bs).keys = s.keys := rfl
@[simp] theorem hostPut_creates (s : State) (a : Nat) (bs : List Byte) : (hostPut s a bs).creates = s.creates := rfl
@[simp] theorem hostPut_trust (s : State) (a : Nat) (bs : List Byte) : (hostPut s a bs).trust = s.trust := rfl
@[simp] theorem hostPut_rcount (s : State) (a : Nat) (bs : List Byte) : (hostPut s a bs).rcount = s.rcount := rfl
@[simp] theorem hostPut_ptroot (s : State) (a : Nat) (bs : List Byte) : (hostPut s a bs).ptroot = s.ptroot := rfl
@[simp] theorem hostPut_swapbase (s : State) (a : Nat) (bs : List Byte) : (hostPut s a bs).swapbase = s.swapbase := rfl
@[simp] theorem hostPut_swaplen (s : State) (a : Nat) (bs : List Byte) : (hostPut s a bs).swaplen = s.swaplen := rfl
@[simp] theorem hostPut_sddone (s : State) (a : Nat) (bs : List Byte) : (hostPut s a bs).sddone = s.sddone := rfl
@[simp] theorem hostPut_sdlow (s : State) (a : Nat) (bs : List Byte) : (hostPut s a bs).sdlow = s.sdlow := rfl
@[simp] theorem hostPut_movelow (s : State) (a : Nat) (bs : List Byte) : (hostPut s a bs).movelow = s.movelow := rfl
@[simp] theorem hostPut_capw (s : State) (a : Nat) (bs : List Byte) : (hostPut s a bs).capw = s.capw := rfl
@[simp] theorem hostPut_slice (s : State) (a : Nat) (bs : List Byte) : (hostPut s a bs).slice = s.slice := rfl
@[simp] theorem hostPut_optab (s : State) (a : Nat) (bs : List Byte) : (hostPut s a bs).optab = s.optab := rfl
@[simp] theorem hostPut_prdone (s : State) (a : Nat) (bs : List Byte) : (hostPut s a bs).prdone = s.prdone := rfl
@[simp] theorem hostPut_pkgw (s : State) (a : Nat) (bs : List Byte) : (hostPut s a bs).pkgw = s.pkgw := rfl
@[simp] theorem hostPut_tmax (s : State) (a : Nat) (bs : List Byte) : (hostPut s a bs).tmax = s.tmax := rfl
@[simp] theorem hostPut_cecnt (s : State) (a : Nat) (bs : List Byte) : (hostPut s a bs).cecnt = s.cecnt := rfl
@[simp] theorem hostPut_uecnt (s : State) (a : Nat) (bs : List Byte) : (hostPut s a bs).uecnt = s.uecnt := rfl
@[simp] theorem hostPut_stalewr (s : State) (a : Nat) (bs : List Byte) : (hostPut s a bs).stalewr = s.stalewr := rfl
@[simp] theorem hostPut_lretry (s : State) (a : Nat) (bs : List Byte) : (hostPut s a bs).lretry = s.lretry := rfl
@[simp] theorem hostPut_poisoned (s : State) (a : Nat) (bs : List Byte) : (hostPut s a bs).poisoned = s.poisoned := rfl
@[simp] theorem hostPut_retired (s : State) (a : Nat) (bs : List Byte) : (hostPut s a bs).retired = s.retired := rfl
@[simp] theorem hostPut_spdm (s : State) (a : Nat) (bs : List Byte) : (hostPut s a bs).spdm = s.spdm := rfl
@[simp] theorem hostPut_dies (s : State) (a : Nat) (bs : List Byte) : (hostPut s a bs).dies = s.dies := rfl
@[simp] theorem hostPut_update (s : State) (a : Nat) (bs : List Byte) : (hostPut s a bs).update = s.update := rfl
@[simp] theorem hostPut_interrupts (s : State) (a : Nat) (bs : List Byte) : (hostPut s a bs).interrupts = s.interrupts := rfl
@[simp] theorem hostPut_outbox (s : State) (a : Nat) (bs : List Byte) : (hostPut s a bs).outbox = s.outbox := rfl
@[simp] theorem hostPut_hostRead (s : State) (a : Nat) (bs : List Byte) : (hostPut s a bs).hostRead = s.hostRead := rfl
@[simp] theorem hostPut_hostPoison (s : State) (a : Nat) (bs : List Byte) : (hostPut s a bs).hostPoison = s.hostPoison := rfl
@[simp] theorem hostPut_pkg (s : State) (a : Nat) (bs : List Byte) : (hostPut s a bs).pkg = s.pkg := rfl
@[simp] theorem hostPut_names (s : State) (a : Nat) (bs : List Byte) : (hostPut s a bs).names = s.names := rfl
@[simp] theorem hostPut_messages (s : State) (a : Nat) (bs : List Byte) : (hostPut s a bs).messages = s.messages := rfl
@[simp] theorem hostPut_time (s : State) (a : Nat) (bs : List Byte) : (hostPut s a bs).time = s.time := rfl

/-! ### `remember` -/

@[simp] theorem remember_turn (s : State) (k a n : Nat) : (remember s k a n).turn = s.turn := rfl
@[simp] theorem remember_serial (s : State) (k a n : Nat) : (remember s k a n).serial = s.serial := rfl
@[simp] theorem remember_cores (s : State) (k a n : Nat) : (remember s k a n).cores = s.cores := rfl
@[simp] theorem remember_memory (s : State) (k a n : Nat) : (remember s k a n).memory = s.memory := rfl
@[simp] theorem remember_pending (s : State) (k a n : Nat) : (remember s k a n).pending = s.pending := rfl
@[simp] theorem remember_translations (s : State) (k a n : Nat) : (remember s k a n).translations = s.translations := rfl
@[simp] theorem remember_teams (s : State) (k a n : Nat) : (remember s k a n).teams = s.teams := rfl
@[simp] theorem remember_launches (s : State) (k a n : Nat) : (remember s k a n).launches = s.launches := rfl
@[simp] theorem remember_domains (s : State) (k a n : Nat) : (remember s k a n).domains = s.domains := rfl
@[simp] theorem remember_queues (s : State) (k a n : Nat) : (remember s k a n).queues = s.queues := rfl
@[simp] theorem remember_funcs (s : State) (k a n : Nat) : (remember s k a n).funcs = s.funcs := rfl
@[simp] theorem remember_rounds (s : State) (k a n : Nat) : (remember s k a n).rounds = s.rounds := rfl
@[simp] theorem remember_scrub (s : State) (k a n : Nat) : (remember s k a n).scrub = s.scrub := rfl
@[simp] theorem remember_tickets (s : State) (k a n : Nat) : (remember s k a n).tickets = s.tickets := rfl
@[simp] theorem remember_shootdowns (s : State) (k a n : Nat) : (remember s k a n).shootdowns = s.shootdowns := rfl
@[simp] theorem remember_resets (s : State) (k a n : Nat) : (remember s k a n).resets = s.resets := rfl
@[simp] theorem remember_islands (s : State) (k a n : Nat) : (remember s k a n).islands = s.islands := rfl
@[simp] theorem remember_keys (s : State) (k a n : Nat) : (remember s k a n).keys = s.keys := rfl
@[simp] theorem remember_creates (s : State) (k a n : Nat) : (remember s k a n).creates = s.creates := rfl
@[simp] theorem remember_trust (s : State) (k a n : Nat) : (remember s k a n).trust = s.trust := rfl
@[simp] theorem remember_rcount (s : State) (k a n : Nat) : (remember s k a n).rcount = s.rcount := rfl
@[simp] theorem remember_ptroot (s : State) (k a n : Nat) : (remember s k a n).ptroot = s.ptroot := rfl
@[simp] theorem remember_swapbase (s : State) (k a n : Nat) : (remember s k a n).swapbase = s.swapbase := rfl
@[simp] theorem remember_swaplen (s : State) (k a n : Nat) : (remember s k a n).swaplen = s.swaplen := rfl
@[simp] theorem remember_sddone (s : State) (k a n : Nat) : (remember s k a n).sddone = s.sddone := rfl
@[simp] theorem remember_sdlow (s : State) (k a n : Nat) : (remember s k a n).sdlow = s.sdlow := rfl
@[simp] theorem remember_movelow (s : State) (k a n : Nat) : (remember s k a n).movelow = s.movelow := rfl
@[simp] theorem remember_capw (s : State) (k a n : Nat) : (remember s k a n).capw = s.capw := rfl
@[simp] theorem remember_slice (s : State) (k a n : Nat) : (remember s k a n).slice = s.slice := rfl
@[simp] theorem remember_optab (s : State) (k a n : Nat) : (remember s k a n).optab = s.optab := rfl
@[simp] theorem remember_prdone (s : State) (k a n : Nat) : (remember s k a n).prdone = s.prdone := rfl
@[simp] theorem remember_pkgw (s : State) (k a n : Nat) : (remember s k a n).pkgw = s.pkgw := rfl
@[simp] theorem remember_tmax (s : State) (k a n : Nat) : (remember s k a n).tmax = s.tmax := rfl
@[simp] theorem remember_cecnt (s : State) (k a n : Nat) : (remember s k a n).cecnt = s.cecnt := rfl
@[simp] theorem remember_uecnt (s : State) (k a n : Nat) : (remember s k a n).uecnt = s.uecnt := rfl
@[simp] theorem remember_stalewr (s : State) (k a n : Nat) : (remember s k a n).stalewr = s.stalewr := rfl
@[simp] theorem remember_lretry (s : State) (k a n : Nat) : (remember s k a n).lretry = s.lretry := rfl
@[simp] theorem remember_poison (s : State) (k a n : Nat) : (remember s k a n).poison = s.poison := rfl
@[simp] theorem remember_poisoned (s : State) (k a n : Nat) : (remember s k a n).poisoned = s.poisoned := rfl
@[simp] theorem remember_retired (s : State) (k a n : Nat) : (remember s k a n).retired = s.retired := rfl
@[simp] theorem remember_spdm (s : State) (k a n : Nat) : (remember s k a n).spdm = s.spdm := rfl
@[simp] theorem remember_dies (s : State) (k a n : Nat) : (remember s k a n).dies = s.dies := rfl
@[simp] theorem remember_update (s : State) (k a n : Nat) : (remember s k a n).update = s.update := rfl
@[simp] theorem remember_interrupts (s : State) (k a n : Nat) : (remember s k a n).interrupts = s.interrupts := rfl
@[simp] theorem remember_outbox (s : State) (k a n : Nat) : (remember s k a n).outbox = s.outbox := rfl
@[simp] theorem remember_hostRead (s : State) (k a n : Nat) : (remember s k a n).hostRead = s.hostRead := rfl
@[simp] theorem remember_hostPoison (s : State) (k a n : Nat) : (remember s k a n).hostPoison = s.hostPoison := rfl
@[simp] theorem remember_pkg (s : State) (k a n : Nat) : (remember s k a n).pkg = s.pkg := rfl
@[simp] theorem remember_names (s : State) (k a n : Nat) : (remember s k a n).names = s.names := rfl
@[simp] theorem remember_messages (s : State) (k a n : Nat) : (remember s k a n).messages = s.messages := rfl
@[simp] theorem remember_time (s : State) (k a n : Nat) : (remember s k a n).time = s.time := rfl

/-! ### `hostWrite` -/

@[simp] theorem hostWrite_turn (s : State) (a : Nat) (bs : List Byte) : (hostWrite s a bs).turn = s.turn := rfl
@[simp] theorem hostWrite_serial (s : State) (a : Nat) (bs : List Byte) : (hostWrite s a bs).serial = s.serial := rfl
@[simp] theorem hostWrite_cores (s : State) (a : Nat) (bs : List Byte) : (hostWrite s a bs).cores = s.cores := rfl
@[simp] theorem hostWrite_pending (s : State) (a : Nat) (bs : List Byte) : (hostWrite s a bs).pending = s.pending := rfl
@[simp] theorem hostWrite_translations (s : State) (a : Nat) (bs : List Byte) : (hostWrite s a bs).translations = s.translations := rfl
@[simp] theorem hostWrite_teams (s : State) (a : Nat) (bs : List Byte) : (hostWrite s a bs).teams = s.teams := rfl
@[simp] theorem hostWrite_launches (s : State) (a : Nat) (bs : List Byte) : (hostWrite s a bs).launches = s.launches := rfl
@[simp] theorem hostWrite_domains (s : State) (a : Nat) (bs : List Byte) : (hostWrite s a bs).domains = s.domains := rfl
@[simp] theorem hostWrite_queues (s : State) (a : Nat) (bs : List Byte) : (hostWrite s a bs).queues = s.queues := rfl
@[simp] theorem hostWrite_funcs (s : State) (a : Nat) (bs : List Byte) : (hostWrite s a bs).funcs = s.funcs := rfl
@[simp] theorem hostWrite_rounds (s : State) (a : Nat) (bs : List Byte) : (hostWrite s a bs).rounds = s.rounds := rfl
@[simp] theorem hostWrite_scrub (s : State) (a : Nat) (bs : List Byte) : (hostWrite s a bs).scrub = s.scrub := rfl
@[simp] theorem hostWrite_tickets (s : State) (a : Nat) (bs : List Byte) : (hostWrite s a bs).tickets = s.tickets := rfl
@[simp] theorem hostWrite_shootdowns (s : State) (a : Nat) (bs : List Byte) : (hostWrite s a bs).shootdowns = s.shootdowns := rfl
@[simp] theorem hostWrite_resets (s : State) (a : Nat) (bs : List Byte) : (hostWrite s a bs).resets = s.resets := rfl
@[simp] theorem hostWrite_islands (s : State) (a : Nat) (bs : List Byte) : (hostWrite s a bs).islands = s.islands := rfl
@[simp] theorem hostWrite_keys (s : State) (a : Nat) (bs : List Byte) : (hostWrite s a bs).keys = s.keys := rfl
@[simp] theorem hostWrite_creates (s : State) (a : Nat) (bs : List Byte) : (hostWrite s a bs).creates = s.creates := rfl
@[simp] theorem hostWrite_trust (s : State) (a : Nat) (bs : List Byte) : (hostWrite s a bs).trust = s.trust := rfl
@[simp] theorem hostWrite_rcount (s : State) (a : Nat) (bs : List Byte) : (hostWrite s a bs).rcount = s.rcount := rfl
@[simp] theorem hostWrite_ptroot (s : State) (a : Nat) (bs : List Byte) : (hostWrite s a bs).ptroot = s.ptroot := rfl
@[simp] theorem hostWrite_swapbase (s : State) (a : Nat) (bs : List Byte) : (hostWrite s a bs).swapbase = s.swapbase := rfl
@[simp] theorem hostWrite_swaplen (s : State) (a : Nat) (bs : List Byte) : (hostWrite s a bs).swaplen = s.swaplen := rfl
@[simp] theorem hostWrite_sddone (s : State) (a : Nat) (bs : List Byte) : (hostWrite s a bs).sddone = s.sddone := rfl
@[simp] theorem hostWrite_sdlow (s : State) (a : Nat) (bs : List Byte) : (hostWrite s a bs).sdlow = s.sdlow := rfl
@[simp] theorem hostWrite_movelow (s : State) (a : Nat) (bs : List Byte) : (hostWrite s a bs).movelow = s.movelow := rfl
@[simp] theorem hostWrite_capw (s : State) (a : Nat) (bs : List Byte) : (hostWrite s a bs).capw = s.capw := rfl
@[simp] theorem hostWrite_slice (s : State) (a : Nat) (bs : List Byte) : (hostWrite s a bs).slice = s.slice := rfl
@[simp] theorem hostWrite_optab (s : State) (a : Nat) (bs : List Byte) : (hostWrite s a bs).optab = s.optab := rfl
@[simp] theorem hostWrite_prdone (s : State) (a : Nat) (bs : List Byte) : (hostWrite s a bs).prdone = s.prdone := rfl
@[simp] theorem hostWrite_pkgw (s : State) (a : Nat) (bs : List Byte) : (hostWrite s a bs).pkgw = s.pkgw := rfl
@[simp] theorem hostWrite_tmax (s : State) (a : Nat) (bs : List Byte) : (hostWrite s a bs).tmax = s.tmax := rfl
@[simp] theorem hostWrite_cecnt (s : State) (a : Nat) (bs : List Byte) : (hostWrite s a bs).cecnt = s.cecnt := rfl
@[simp] theorem hostWrite_uecnt (s : State) (a : Nat) (bs : List Byte) : (hostWrite s a bs).uecnt = s.uecnt := rfl
@[simp] theorem hostWrite_stalewr (s : State) (a : Nat) (bs : List Byte) : (hostWrite s a bs).stalewr = s.stalewr := rfl
@[simp] theorem hostWrite_lretry (s : State) (a : Nat) (bs : List Byte) : (hostWrite s a bs).lretry = s.lretry := rfl
@[simp] theorem hostWrite_poisoned (s : State) (a : Nat) (bs : List Byte) : (hostWrite s a bs).poisoned = s.poisoned := rfl
@[simp] theorem hostWrite_retired (s : State) (a : Nat) (bs : List Byte) : (hostWrite s a bs).retired = s.retired := rfl
@[simp] theorem hostWrite_spdm (s : State) (a : Nat) (bs : List Byte) : (hostWrite s a bs).spdm = s.spdm := rfl
@[simp] theorem hostWrite_dies (s : State) (a : Nat) (bs : List Byte) : (hostWrite s a bs).dies = s.dies := rfl
@[simp] theorem hostWrite_update (s : State) (a : Nat) (bs : List Byte) : (hostWrite s a bs).update = s.update := rfl
@[simp] theorem hostWrite_interrupts (s : State) (a : Nat) (bs : List Byte) : (hostWrite s a bs).interrupts = s.interrupts := rfl
@[simp] theorem hostWrite_outbox (s : State) (a : Nat) (bs : List Byte) : (hostWrite s a bs).outbox = s.outbox := rfl
@[simp] theorem hostWrite_hostRead (s : State) (a : Nat) (bs : List Byte) : (hostWrite s a bs).hostRead = s.hostRead := rfl
@[simp] theorem hostWrite_hostPoison (s : State) (a : Nat) (bs : List Byte) : (hostWrite s a bs).hostPoison = s.hostPoison := rfl
@[simp] theorem hostWrite_pkg (s : State) (a : Nat) (bs : List Byte) : (hostWrite s a bs).pkg = s.pkg := rfl
@[simp] theorem hostWrite_names (s : State) (a : Nat) (bs : List Byte) : (hostWrite s a bs).names = s.names := rfl
@[simp] theorem hostWrite_messages (s : State) (a : Nat) (bs : List Byte) : (hostWrite s a bs).messages = s.messages := rfl
@[simp] theorem hostWrite_time (s : State) (a : Nat) (bs : List Byte) : (hostWrite s a bs).time = s.time := rfl

/-! ### `patchPending` -/

@[simp] theorem patchPending_turn (s : State) (a : Nat) (bs : List Byte) (t : Bool) : (patchPending s a bs t).turn = s.turn := rfl
@[simp] theorem patchPending_serial (s : State) (a : Nat) (bs : List Byte) (t : Bool) : (patchPending s a bs t).serial = s.serial := rfl
@[simp] theorem patchPending_cores (s : State) (a : Nat) (bs : List Byte) (t : Bool) : (patchPending s a bs t).cores = s.cores := rfl
@[simp] theorem patchPending_memory (s : State) (a : Nat) (bs : List Byte) (t : Bool) : (patchPending s a bs t).memory = s.memory := rfl
@[simp] theorem patchPending_history (s : State) (a : Nat) (bs : List Byte) (t : Bool) : (patchPending s a bs t).history = s.history := rfl
@[simp] theorem patchPending_translations (s : State) (a : Nat) (bs : List Byte) (t : Bool) : (patchPending s a bs t).translations = s.translations := rfl
@[simp] theorem patchPending_teams (s : State) (a : Nat) (bs : List Byte) (t : Bool) : (patchPending s a bs t).teams = s.teams := rfl
@[simp] theorem patchPending_launches (s : State) (a : Nat) (bs : List Byte) (t : Bool) : (patchPending s a bs t).launches = s.launches := rfl
@[simp] theorem patchPending_domains (s : State) (a : Nat) (bs : List Byte) (t : Bool) : (patchPending s a bs t).domains = s.domains := rfl
@[simp] theorem patchPending_queues (s : State) (a : Nat) (bs : List Byte) (t : Bool) : (patchPending s a bs t).queues = s.queues := rfl
@[simp] theorem patchPending_funcs (s : State) (a : Nat) (bs : List Byte) (t : Bool) : (patchPending s a bs t).funcs = s.funcs := rfl
@[simp] theorem patchPending_rounds (s : State) (a : Nat) (bs : List Byte) (t : Bool) : (patchPending s a bs t).rounds = s.rounds := rfl
@[simp] theorem patchPending_scrub (s : State) (a : Nat) (bs : List Byte) (t : Bool) : (patchPending s a bs t).scrub = s.scrub := rfl
@[simp] theorem patchPending_tickets (s : State) (a : Nat) (bs : List Byte) (t : Bool) : (patchPending s a bs t).tickets = s.tickets := rfl
@[simp] theorem patchPending_shootdowns (s : State) (a : Nat) (bs : List Byte) (t : Bool) : (patchPending s a bs t).shootdowns = s.shootdowns := rfl
@[simp] theorem patchPending_resets (s : State) (a : Nat) (bs : List Byte) (t : Bool) : (patchPending s a bs t).resets = s.resets := rfl
@[simp] theorem patchPending_islands (s : State) (a : Nat) (bs : List Byte) (t : Bool) : (patchPending s a bs t).islands = s.islands := rfl
@[simp] theorem patchPending_keys (s : State) (a : Nat) (bs : List Byte) (t : Bool) : (patchPending s a bs t).keys = s.keys := rfl
@[simp] theorem patchPending_creates (s : State) (a : Nat) (bs : List Byte) (t : Bool) : (patchPending s a bs t).creates = s.creates := rfl
@[simp] theorem patchPending_trust (s : State) (a : Nat) (bs : List Byte) (t : Bool) : (patchPending s a bs t).trust = s.trust := rfl
@[simp] theorem patchPending_rcount (s : State) (a : Nat) (bs : List Byte) (t : Bool) : (patchPending s a bs t).rcount = s.rcount := rfl
@[simp] theorem patchPending_ptroot (s : State) (a : Nat) (bs : List Byte) (t : Bool) : (patchPending s a bs t).ptroot = s.ptroot := rfl
@[simp] theorem patchPending_swapbase (s : State) (a : Nat) (bs : List Byte) (t : Bool) : (patchPending s a bs t).swapbase = s.swapbase := rfl
@[simp] theorem patchPending_swaplen (s : State) (a : Nat) (bs : List Byte) (t : Bool) : (patchPending s a bs t).swaplen = s.swaplen := rfl
@[simp] theorem patchPending_sddone (s : State) (a : Nat) (bs : List Byte) (t : Bool) : (patchPending s a bs t).sddone = s.sddone := rfl
@[simp] theorem patchPending_sdlow (s : State) (a : Nat) (bs : List Byte) (t : Bool) : (patchPending s a bs t).sdlow = s.sdlow := rfl
@[simp] theorem patchPending_movelow (s : State) (a : Nat) (bs : List Byte) (t : Bool) : (patchPending s a bs t).movelow = s.movelow := rfl
@[simp] theorem patchPending_capw (s : State) (a : Nat) (bs : List Byte) (t : Bool) : (patchPending s a bs t).capw = s.capw := rfl
@[simp] theorem patchPending_slice (s : State) (a : Nat) (bs : List Byte) (t : Bool) : (patchPending s a bs t).slice = s.slice := rfl
@[simp] theorem patchPending_optab (s : State) (a : Nat) (bs : List Byte) (t : Bool) : (patchPending s a bs t).optab = s.optab := rfl
@[simp] theorem patchPending_prdone (s : State) (a : Nat) (bs : List Byte) (t : Bool) : (patchPending s a bs t).prdone = s.prdone := rfl
@[simp] theorem patchPending_pkgw (s : State) (a : Nat) (bs : List Byte) (t : Bool) : (patchPending s a bs t).pkgw = s.pkgw := rfl
@[simp] theorem patchPending_tmax (s : State) (a : Nat) (bs : List Byte) (t : Bool) : (patchPending s a bs t).tmax = s.tmax := rfl
@[simp] theorem patchPending_cecnt (s : State) (a : Nat) (bs : List Byte) (t : Bool) : (patchPending s a bs t).cecnt = s.cecnt := rfl
@[simp] theorem patchPending_uecnt (s : State) (a : Nat) (bs : List Byte) (t : Bool) : (patchPending s a bs t).uecnt = s.uecnt := rfl
@[simp] theorem patchPending_stalewr (s : State) (a : Nat) (bs : List Byte) (t : Bool) : (patchPending s a bs t).stalewr = s.stalewr := rfl
@[simp] theorem patchPending_lretry (s : State) (a : Nat) (bs : List Byte) (t : Bool) : (patchPending s a bs t).lretry = s.lretry := rfl
@[simp] theorem patchPending_poison (s : State) (a : Nat) (bs : List Byte) (t : Bool) : (patchPending s a bs t).poison = s.poison := rfl
@[simp] theorem patchPending_poisoned (s : State) (a : Nat) (bs : List Byte) (t : Bool) : (patchPending s a bs t).poisoned = s.poisoned := rfl
@[simp] theorem patchPending_retired (s : State) (a : Nat) (bs : List Byte) (t : Bool) : (patchPending s a bs t).retired = s.retired := rfl
@[simp] theorem patchPending_spdm (s : State) (a : Nat) (bs : List Byte) (t : Bool) : (patchPending s a bs t).spdm = s.spdm := rfl
@[simp] theorem patchPending_dies (s : State) (a : Nat) (bs : List Byte) (t : Bool) : (patchPending s a bs t).dies = s.dies := rfl
@[simp] theorem patchPending_update (s : State) (a : Nat) (bs : List Byte) (t : Bool) : (patchPending s a bs t).update = s.update := rfl
@[simp] theorem patchPending_interrupts (s : State) (a : Nat) (bs : List Byte) (t : Bool) : (patchPending s a bs t).interrupts = s.interrupts := rfl
@[simp] theorem patchPending_outbox (s : State) (a : Nat) (bs : List Byte) (t : Bool) : (patchPending s a bs t).outbox = s.outbox := rfl
@[simp] theorem patchPending_hostRead (s : State) (a : Nat) (bs : List Byte) (t : Bool) : (patchPending s a bs t).hostRead = s.hostRead := rfl
@[simp] theorem patchPending_hostPoison (s : State) (a : Nat) (bs : List Byte) (t : Bool) : (patchPending s a bs t).hostPoison = s.hostPoison := rfl
@[simp] theorem patchPending_pkg (s : State) (a : Nat) (bs : List Byte) (t : Bool) : (patchPending s a bs t).pkg = s.pkg := rfl
@[simp] theorem patchPending_names (s : State) (a : Nat) (bs : List Byte) (t : Bool) : (patchPending s a bs t).names = s.names := rfl
@[simp] theorem patchPending_messages (s : State) (a : Nat) (bs : List Byte) (t : Bool) : (patchPending s a bs t).messages = s.messages := rfl
@[simp] theorem patchPending_time (s : State) (a : Nat) (bs : List Byte) (t : Bool) : (patchPending s a bs t).time = s.time := rfl

/-! ### Reset -/

theorem reset_memory : State.reset.memory = { cells := [], tags := [], keys := [] } := rfl

end Sys2Proof.Machine
end

