-- ==== Sys2Proof/Laws/Memory.lean ====
section
/-!
SUPPORT. Memory: a read after a write, and that every memory operation keeps the canonical form.
-/

namespace Sys2Proof.Machine

set_option Elab.async false

/-! ### The canonical form of cells -/

theorem cellsAbove_cons (d : Byte) (lo : Option Nat) (j : Nat) (v : Byte) (rest : List Host.Cell) :
    cellsAbove d lo ((j, v) :: rest) = true ↔ (∀ l, lo = some l → l < j) ∧ v ≠ d ∧ cellsAbove d (some j) rest = true := by
  cases lo <;> simp [cellsAbove, and_assoc]

/-- A lower bound may be lowered. -/
theorem cellsAbove_mono (d : Byte) (lo lo' : Option Nat) (cells : List Host.Cell)
    (h : ∀ l', lo' = some l' → ∃ l, lo = some l ∧ l' ≤ l) (w : cellsAbove d lo cells = true) :
    cellsAbove d lo' cells = true := by
  cases cells with
  | nil => rfl
  | cons e rest =>
    obtain ⟨j, v⟩ := e
    rw [cellsAbove_cons] at w ⊢
    refine ⟨fun l' hl' => ?_, w.2⟩
    obtain ⟨l, hl, hle⟩ := h l' hl'
    exact lt_of_le_of_lt hle (w.1 l hl)

theorem cellsAbove_drop (d : Byte) (lo : Option Nat) (cells : List Host.Cell) (a : Nat)
    (w : cellsAbove d lo cells = true) : cellsAbove d lo (cellDrop cells a) = true := by
  induction cells generalizing lo with
  | nil => rfl
  | cons e rest ih =>
    obtain ⟨j, v⟩ := e
    rw [cellsAbove_cons] at w
    unfold cellDrop
    split
    · refine cellsAbove_mono d (some j) lo _ (fun l hl => ⟨j, rfl, ?_⟩) (ih (some j) w.2.2)
      exact le_of_lt (w.1 l hl)
    · rw [cellsAbove_cons]
      exact ⟨w.1, w.2.1, ih (some j) w.2.2⟩

theorem cellsAbove_set (d : Byte) (lo : Option Nat) (cells : List Host.Cell) (a : Nat) (v : Byte) (hv : v ≠ d)
    (hlo : ∀ l, lo = some l → l < a) (w : cellsAbove d lo cells = true) :
    cellsAbove d lo (cellSet cells a v) = true := by
  induction cells generalizing lo with
  | nil =>
    rw [cellSet, cellsAbove_cons]
    exact ⟨hlo, hv, rfl⟩
  | cons e rest ih =>
    obtain ⟨j, u⟩ := e
    rw [cellsAbove_cons] at w
    unfold cellSet
    split
    next h => subst h; rw [cellsAbove_cons]; exact ⟨hlo, hv, w.2.2⟩
    next h =>
      split
      next hj =>
        rw [cellsAbove_cons]
        exact ⟨w.1, w.2.1, ih (some j) (fun l hl => by cases hl; exact hj) w.2.2⟩
      next hj =>
        rw [cellsAbove_cons, cellsAbove_cons]
        exact ⟨hlo, hv, fun l hl => by cases hl; omega, w.2.1, w.2.2⟩

/-- A write of one byte keeps the canonical form. -/
theorem cellsWf_put (d : Byte) (cells : List Host.Cell) (a : Nat) (v : Byte) (w : cellsWf d cells = true) :
    cellsWf d (cellPut d cells a v) = true := by
  unfold cellPut
  split
  next h => exact cellsAbove_drop d none cells a w
  next h => exact cellsAbove_set d none cells a v h (fun l hl => by cases hl) w

/-- A write of bytes keeps the canonical form. -/
theorem cellsWf_putBytes (d : Byte) (cells : List Host.Cell) (a : Nat) (bs : List Byte) (w : cellsWf d cells = true) :
    cellsWf d (putBytes d cells a bs) = true := by
  induction bs generalizing cells a with
  | nil => exact w
  | cons b rest ih => exact ih _ _ (cellsWf_put d cells a b w)

/-! ### A read after a write -/

theorem cellGet_drop (d : Byte) (cells : List Host.Cell) (a x : Nat) :
    cellGet d (cellDrop cells a) x = if x = a then d else cellGet d cells x := by
  induction cells with
  | nil => simp [cellDrop, cellGet]
  | cons e rest ih =>
    obtain ⟨j, v⟩ := e
    unfold cellDrop
    split
    next h =>
      rw [ih]
      subst h
      split
      · rfl
      next hx => simp [cellGet, Ne.symm hx]
    next h =>
      simp only [cellGet, ih]
      split
      next hj => subst hj; simp [h]
      next hj => rfl

theorem cellGet_set (d : Byte) (cells : List Host.Cell) (a x : Nat) (v : Byte) :
    cellGet d (cellSet cells a v) x = if x = a then v else cellGet d cells x := by
  induction cells with
  | nil =>
    simp only [cellSet, cellGet]
    split <;> split <;> simp_all
  | cons e rest ih =>
    obtain ⟨j, w⟩ := e
    unfold cellSet
    split
    next h =>
      subst h
      simp only [cellGet]
      split
      next hx => simp [hx]
      next hx => simp [Ne.symm hx]
    next h =>
      split
      · simp only [cellGet, ih]
        split
        next hj => subst hj; simp [h]
        next hj => rfl
      · simp only [cellGet]
        split
        next hx => simp [hx]
        next hx => simp [Ne.symm hx]

/-- A read after a write of one byte. -/
theorem cellGet_put (d : Byte) (cells : List Host.Cell) (a x : Nat) (v : Byte) :
    cellGet d (cellPut d cells a v) x = if x = a then v else cellGet d cells x := by
  unfold cellPut
  split
  next h => rw [cellGet_drop, h]
  next h => exact cellGet_set d cells a x v

/-- A read after a write of bytes: inside them the byte written, elsewhere what it was. -/
theorem cellGet_putBytes (d : Byte) (cells : List Host.Cell) (a x : Nat) (bs : List Byte) :
    cellGet d (putBytes d cells a bs) x = if a ≤ x then (bs[x - a]?).getD (cellGet d cells x) else cellGet d cells x := by
  induction bs generalizing cells a with
  | nil => simp [putBytes]
  | cons b rest ih =>
    simp only [putBytes, ih, cellGet_put]
    by_cases h : a ≤ x
    · by_cases hx : x = a
      · subst hx
        simp
      · have h1 : a + 1 ≤ x := by omega
        obtain ⟨k, rfl⟩ := Nat.exists_eq_add_of_le h1
        have h2 : a + 1 + k - a = k + 1 := by omega
        have h3 : a + 1 + k - (a + 1) = k := by omega
        simp [h, h2, h3, hx]
    · have h1 : ¬ a + 1 ≤ x := by omega
      have h2 : x ≠ a := by omega
      simp [h, h1, h2]

theorem cellGet_putBytes_outside (d : Byte) (cells : List Host.Cell) (a x : Nat) (bs : List Byte)
    (h : x < a ∨ a + bs.length ≤ x) : cellGet d (putBytes d cells a bs) x = cellGet d cells x := by
  rw [cellGet_putBytes]
  split
  next ha => rw [List.getElem?_eq_none (by omega)]; rfl
  next ha => rfl

theorem getBytes_getElem? (d : Byte) (cells : List Host.Cell) (a n k : Nat) (h : k < n) :
    (getBytes d cells a n)[k]? = some (cellGet d cells (a + k)) := by
  induction n generalizing a k with
  | zero => omega
  | succ n ih =>
    cases k with
    | zero => simp [getBytes]
    | succ k =>
      simp only [getBytes, List.getElem?_cons_succ]
      rw [ih (a + 1) k (by omega), show a + 1 + k = a + (k + 1) by omega]

@[simp] theorem length_getBytes (d : Byte) (cells : List Host.Cell) (a n : Nat) : (getBytes d cells a n).length = n := by
  induction n generalizing a with
  | zero => rfl
  | succ n ih => simp [getBytes, ih]

/-- Two byte lists read the same where every byte does. -/
theorem getBytes_congr (d : Byte) (c c' : List Host.Cell) (a n : Nat)
    (h : ∀ x, a ≤ x → x < a + n → cellGet d c x = cellGet d c' x) : getBytes d c a n = getBytes d c' a n := by
  induction n generalizing a with
  | zero => rfl
  | succ n ih =>
    simp only [getBytes]
    rw [h a le_rfl (by omega), ih (a + 1) fun x h1 h2 => h x (by omega) (by omega)]

/-- The bytes written are the bytes read. -/
theorem getBytes_putBytes (d : Byte) (cells : List Host.Cell) (a : Nat) (bs : List Byte) :
    getBytes d (putBytes d cells a bs) a bs.length = bs := by
  apply List.ext_getElem?
  intro k
  by_cases h : k < bs.length
  · rw [getBytes_getElem? d _ a _ k h, cellGet_putBytes]
    simp [h]
  · rw [List.getElem?_eq_none (by simp; omega), List.getElem?_eq_none (by omega)]

/-! ### Memory operations keep the canonical form -/

theorem wf_writeKeyed (m : Memory) (key a : Nat) (bs : List Byte) (tag : Bool) (w : m.wf = true) :
    (m.writeKeyed key a bs tag).wf = true := by
  unfold Memory.wf Memory.writeKeyed
  apply cellsWf_putBytes
  split
  · exact cellsWf_putBytes _ _ _ _ w
  · exact w

theorem wf_physPut (s : State) (key a : Nat) (bs : List Byte) (tag : Bool) (w : s.memory.wf = true) :
    (physPut s key a bs tag).memory.wf = true := wf_writeKeyed s.memory key a bs tag w

theorem wf_physWrite (s : State) (key a : Nat) (bs : List Byte) (tag : Bool) (w : s.memory.wf = true) :
    (physWrite s key a bs tag).memory.wf = true := wf_writeKeyed s.memory key a bs tag w

theorem wf_hostPut (s : State) (a : Nat) (bs : List Byte) (w : s.memory.wf = true) :
    (hostPut s a bs).memory.wf = true := cellsWf_putBytes _ _ _ _ w

theorem wf_hostWrite (s : State) (a : Nat) (bs : List Byte) (w : s.memory.wf = true) :
    (hostWrite s a bs).memory.wf = true := cellsWf_putBytes _ _ _ _ w

/-- A fold of operations that keep a property keeps it. -/
theorem foldl_keeps {α β : Type} (P : β → Prop) (f : β → α → β) (l : List α) (b : β) (h : P b)
    (hf : ∀ b a, P b → P (f b a)) : P (l.foldl f b) := by
  induction l generalizing b with
  | nil => exact h
  | cons x rest ih => exact ih _ (hf b x h)

theorem wf_physWriteAll (s : State) (key a : Nat) (bs : List Byte) (w : s.memory.wf = true) :
    (physWriteAll s key a bs).memory.wf = true :=
  foldl_keeps (fun t : State => t.memory.wf = true) _ _ _ w fun t _ h => wf_physWrite t _ _ _ _ h

theorem wf_patchPending (s : State) (a : Nat) (bs : List Byte) (tag : Bool) (w : s.memory.wf = true) :
    (patchPending s a bs tag).memory.wf = true := w

theorem wf_visibleStore (s : State) (key a : Nat) (bs : List Byte) (tag : Bool) (w : s.memory.wf = true) :
    (visibleStore s key a bs tag).memory.wf = true := wf_physPut _ _ _ _ _ w

theorem wf_putSector (s : State) (visible : Bool) (key a : Nat) (gs : List (List Byte × Bool)) (w : s.memory.wf = true) :
    (putSector s visible key a gs).memory.wf = true := by
  refine foldl_keeps (fun t : State => t.memory.wf = true) _ _ _ w fun t e h => wf_physPut _ _ _ _ _ ?_
  split <;> exact h

theorem wf_coverSector (s : State) (visible : Bool) (key a : Nat) (gs : List (List Byte × Bool))
    (w : s.memory.wf = true) : (coverSector s visible key a gs).memory.wf = true := wf_putSector _ _ _ _ _ w

theorem wf_tableWrite (s : State) (a : Nat) (bs : List Byte) (w : s.memory.wf = true) :
    (tableWrite s a bs).memory.wf = true := wf_physWrite _ _ _ _ _ w

theorem wf_markLeaf (s : State) (t : Translation) (write : Bool) (w : s.memory.wf = true) :
    (markLeaf s t write).memory.wf = true := by
  unfold markLeaf
  split
  · exact wf_tableWrite _ _ _ w
  · exact w

/-- An operation on the sector of a window keeps the canonical form. -/
def KeepsWf (back : State → Nat → Nat → Nat → State) : Prop :=
  ∀ s core num i, s.memory.wf = true → (back s core num i).memory.wf = true

theorem wf_writeBackBy (before : Nat → State → State) (hb : ∀ a s, s.memory.wf = true → (before a s).memory.wf = true) :
    KeepsWf (writeBackBy before) := by
  have written (t : State) (core num i : Nat) (w : t.memory.wf = true) : (match backLeaf t core num i with
      | none => t
      | some (v, l) =>
        onCore (coverSector (markLeaf t l true) (placeFor l (v.base + i * 64)).hostHomed (placeFor l (v.base + i * 64)).key
          (placeFor l (v.base + i * 64)).pa (heldGranules (coreOf t core) v (v.base + i * 64))) core fun k =>
            setSector k num i (.clean l)).memory.wf = true := by
    split
    · exact w
    · exact wf_coverSector _ _ _ _ _ (wf_markLeaf _ _ true w)
  intro s core num i w
  refine written _ core num i ?_
  split
  · exact hb _ _ w
  · exact w

theorem wf_giveBy (back : State → Nat → Nat → Nat → State) (hb : KeepsWf back) (write : Bool) (core num : Nat) (s : State)
    (i : Nat) (w : s.memory.wf = true) : (giveBy back write core num s i).memory.wf = true := by
  unfold giveBy
  split
  · exact w
  · dsimp only
    split <;> exact hb _ _ _ _ w

theorem wf_recallBy (back : State → Nat → Nat → Nat → State) (hb : KeepsWf back) (pa n : Nat) (write : Bool) (s : State)
    (c : Nat) (w : s.memory.wf = true) : (recallBy back pa n write s c).memory.wf = true :=
  foldl_keeps (fun t : State => t.memory.wf = true) _ _ _ w fun _ _ h =>
    foldl_keeps (fun t : State => t.memory.wf = true) _ _ _ h fun u i h => wf_giveBy back hb write c _ u i h

theorem wf_writeBackWithin (fuel : Nat) : KeepsWf (writeBackWithin fuel) := by
  induction fuel with
  | zero => exact wf_writeBackBy _ fun _ _ h => h
  | succ n ih =>
    exact wf_writeBackBy _ fun _ _ h => foldl_keeps (fun t : State => t.memory.wf = true) _ _ _ h fun t c h =>
      wf_recallBy _ ih _ _ true t c h

theorem wf_writeBack : KeepsWf writeBack := fun s core num i w => wf_writeBackWithin _ s core num i w

theorem wf_recallAll (s : State) (pa n : Nat) (write : Bool) (w : s.memory.wf = true) :
    (recallAll s pa n write).memory.wf = true :=
  foldl_keeps (fun t : State => t.memory.wf = true) _ _ _ w fun t c h => wf_recallBy _ wf_writeBack pa n write t c h

theorem wf_sysStore (s : State) (a : Nat) (bs : List Byte) (w : s.memory.wf = true) :
    (sysStore s a bs).memory.wf = true :=
  foldl_keeps (fun t : State => t.memory.wf = true) _ _ _ (wf_recallAll s a bs.length true w)
    fun t _ h => wf_hostPut t _ _ h

theorem wf_changeKey (m : Memory) (id : Nat) (pair : Option (BitVec 512)) (w : m.wf = true) :
    (m.changeKey id pair).wf = true :=
  foldl_keeps (fun n : Memory => n.wf = true) _ _ _ w fun _ _ h => cellsWf_putBytes _ _ _ _ h

theorem wf_makeVisible (s : State) (i : Nat) (w : s.memory.wf = true) : (makeVisible s i).memory.wf = true := by
  unfold makeVisible
  split
  · exact w
  · exact foldl_keeps (fun t : State => t.memory.wf = true) _ _ _ w fun t _ h => wf_physWrite t _ _ _ _ h

theorem wf_makeAllVisible (p : PendingStore → Bool) (fuel : Nat) (s : State) (w : s.memory.wf = true) :
    (makeAllVisible p fuel s).memory.wf = true := by
  induction fuel generalizing s with
  | zero => exact w
  | succ n ih =>
    unfold makeAllVisible
    split
    · exact w
    · exact ih _ (wf_makeVisible s _ w)

theorem reset_wf : State.reset.memory.wf = true := rfl

/-! ### Bytes of memory after a write -/

/-- A write under a key leaves every byte outside its sector and outside the bytes written. -/
theorem byte_writeKeyed (m : Memory) (key a x : Nat) (bs : List Byte) (tag : Bool) (h : x / 64 ≠ a / 64)
    (h' : x < a ∨ a + bs.length ≤ x) : (m.writeKeyed key a bs tag).byte x = m.byte x := by
  unfold Memory.byte Memory.writeKeyed
  rw [cellGet_putBytes_outside _ _ _ _ _ h']
  split
  next hf =>
    apply cellGet_putBytes_outside
    have hl : (m.sectorUnder key (a / 64)).length ≤ 64 := by
      unfold Memory.sectorUnder reread
      dsimp only
      split
      · simp [Memory.bytes]
      · split
        · simp [Memory.bytes]
        · split <;> simp [Memory.bytes]
    omega
  next => rfl

/-- A sector that holds bytes of a key, or none, keeps every byte outside those written. -/
theorem byte_writeKeyed_same (m : Memory) (key a x : Nat) (bs : List Byte) (tag : Bool) (hk : m.foreign key a = false)
    (h : x < a ∨ a + bs.length ≤ x) : (m.writeKeyed key a bs tag).byte x = m.byte x := by
  unfold Memory.byte Memory.writeKeyed
  rw [cellGet_putBytes_outside _ _ _ _ _ h, hk]
  rfl

/-- The byte written is the byte read. -/
theorem byte_writeKeyed_inside (m : Memory) (key a k : Nat) (bs : List Byte) (tag : Bool) (h : k < bs.length) :
    (m.writeKeyed key a bs tag).byte (a + k) = bs[k] := by
  unfold Memory.byte Memory.writeKeyed
  rw [cellGet_putBytes]
  simp [h]

end Sys2Proof.Machine
end

