-- ==== Sys2Proof/Laws/PerInstr.lean ====
section
/-!
SUPPORT. The round trip of every instruction between its fields and its encoding, one lemma for each constructor.
-/

namespace Sys2Proof.Laws.RoundTrip

set_option Elab.async false

/-- An instruction's fields fit its length class and decode to it; what has no fields is an event. -/
def Statement (i : Instr) : Prop :=
  match i.toRaw with
  | some r => r.fits = true ∧ decodeRaw r = .ok i
  | none => i.isEvent = true

theorem step {α β : Type} {m : Except Illegal α} {x : α} (h : m = .ok x) (k : α → Except Illegal β) :
    (m >>= k) = k x := by rw [h]; rfl

theorem congrArgThree {α β γ δ : Type} (f : α → β → γ → δ) {a a' : α} {b b' : β} {c c' : γ} (h : a = a') (h' : b = b')
    (k : c = c') : f a b c = f a' b' c' := by rw [h, h', k]

theorem by0 {β : Type} {l : List Nat} (k : Unit → Except Illegal β) (h : zeros l = .ok () := by with_unfolding_all rfl) :
    (zeros l >>= k) = k () := by rw [h]; rfl

theorem add (a : Reg) (b : Reg) (c : Reg) : Statement (.add a b c) := by
  refine And.intro rfl ((decodeRaw0 _ (by simp)).trans ?_)
  with_unfolding_all exact by0 _
theorem addWide (a : Reg) (b : Reg) (o : Op2) : Statement (.addWide a b o) := by
  cases o <;> exact And.intro rfl ((decodeRaw0 _ (by simp)).trans (by with_unfolding_all rfl))
theorem sub (a : Reg) (b : Reg) (c : Reg) : Statement (.sub a b c) := by
  refine And.intro rfl ((decodeRaw0 _ (by simp)).trans ?_)
  with_unfolding_all exact by0 _
theorem subWide (a : Reg) (b : Reg) (o : Op2) : Statement (.subWide a b o) := by
  cases o <;> exact And.intro rfl ((decodeRaw0 _ (by simp)).trans (by with_unfolding_all rfl))
theorem mul (a : Reg) (b : Reg) (c : Reg) : Statement (.mul a b c) := by
  refine And.intro rfl ((decodeRaw0 _ (by simp)).trans ?_)
  with_unfolding_all exact by0 _
theorem mulWide (a : Reg) (b : Reg) (o : Op2) : Statement (.mulWide a b o) := by
  cases o <;> exact And.intro rfl ((decodeRaw0 _ (by simp)).trans (by with_unfolding_all rfl))
theorem mulh (a : Reg) (b : Reg) (c : Reg) : Statement (.mulh a b c) := by
  refine And.intro rfl ((decodeRaw0 _ (by simp)).trans ?_)
  with_unfolding_all exact by0 _
theorem mulhWide (a : Reg) (b : Reg) (o : Op2) : Statement (.mulhWide a b o) := by
  cases o <;> exact And.intro rfl ((decodeRaw0 _ (by simp)).trans (by with_unfolding_all rfl))
theorem mulhn (a : Reg) (b : Reg) (c : Reg) : Statement (.mulhn a b c) := by
  refine And.intro rfl ((decodeRaw0 _ (by simp)).trans ?_)
  with_unfolding_all exact by0 _
theorem mulhnWide (a : Reg) (b : Reg) (o : Op2) : Statement (.mulhnWide a b o) := by
  cases o <;> exact And.intro rfl ((decodeRaw0 _ (by simp)).trans (by with_unfolding_all rfl))
theorem div (a : Reg) (b : Reg) (c : Reg) : Statement (.div a b c) := by
  refine And.intro rfl ((decodeRaw0 _ (by simp)).trans ?_)
  with_unfolding_all exact by0 _
theorem divWide (a : Reg) (b : Reg) (o : Op2) : Statement (.divWide a b o) := by
  cases o <;> exact And.intro rfl ((decodeRaw0 _ (by simp)).trans (by with_unfolding_all rfl))
theorem divn (a : Reg) (b : Reg) (c : Reg) : Statement (.divn a b c) := by
  refine And.intro rfl ((decodeRaw0 _ (by simp)).trans ?_)
  with_unfolding_all exact by0 _
theorem divnWide (a : Reg) (b : Reg) (o : Op2) : Statement (.divnWide a b o) := by
  cases o <;> exact And.intro rfl ((decodeRaw0 _ (by simp)).trans (by with_unfolding_all rfl))
theorem rem (a : Reg) (b : Reg) (c : Reg) : Statement (.rem a b c) := by
  refine And.intro rfl ((decodeRaw0 _ (by simp)).trans ?_)
  with_unfolding_all exact by0 _
theorem remWide (a : Reg) (b : Reg) (o : Op2) : Statement (.remWide a b o) := by
  cases o <;> exact And.intro rfl ((decodeRaw0 _ (by simp)).trans (by with_unfolding_all rfl))
theorem remn (a : Reg) (b : Reg) (c : Reg) : Statement (.remn a b c) := by
  refine And.intro rfl ((decodeRaw0 _ (by simp)).trans ?_)
  with_unfolding_all exact by0 _
theorem remnWide (a : Reg) (b : Reg) (o : Op2) : Statement (.remnWide a b o) := by
  cases o <;> exact And.intro rfl ((decodeRaw0 _ (by simp)).trans (by with_unfolding_all rfl))
theorem and (a : Reg) (b : Reg) (c : Reg) : Statement (.and a b c) := by
  refine And.intro rfl ((decodeRaw0 _ (by simp)).trans ?_)
  with_unfolding_all exact by0 _
theorem andWide (a : Reg) (b : Reg) (o : Op2) : Statement (.andWide a b o) := by
  cases o <;> exact And.intro rfl ((decodeRaw0 _ (by simp)).trans (by with_unfolding_all rfl))
theorem or (a : Reg) (b : Reg) (c : Reg) : Statement (.or a b c) := by
  refine And.intro rfl ((decodeRaw0 _ (by simp)).trans ?_)
  with_unfolding_all exact by0 _
theorem orWide (a : Reg) (b : Reg) (o : Op2) : Statement (.orWide a b o) := by
  cases o <;> exact And.intro rfl ((decodeRaw0 _ (by simp)).trans (by with_unfolding_all rfl))
theorem xor (a : Reg) (b : Reg) (c : Reg) : Statement (.xor a b c) := by
  refine And.intro rfl ((decodeRaw0 _ (by simp)).trans ?_)
  with_unfolding_all exact by0 _
theorem xorWide (a : Reg) (b : Reg) (o : Op2) : Statement (.xorWide a b o) := by
  cases o <;> exact And.intro rfl ((decodeRaw0 _ (by simp)).trans (by with_unfolding_all rfl))
theorem shl (a : Reg) (b : Reg) (c : Reg) : Statement (.shl a b c) := by
  refine And.intro rfl ((decodeRaw0 _ (by simp)).trans ?_)
  with_unfolding_all exact by0 _
theorem shlWide (a : Reg) (b : Reg) (o : Op2) : Statement (.shlWide a b o) := by
  cases o <;> exact And.intro rfl ((decodeRaw0 _ (by simp)).trans (by with_unfolding_all rfl))
theorem shr (a : Reg) (b : Reg) (c : Reg) : Statement (.shr a b c) := by
  refine And.intro rfl ((decodeRaw0 _ (by simp)).trans ?_)
  with_unfolding_all exact by0 _
theorem shrWide (a : Reg) (b : Reg) (o : Op2) : Statement (.shrWide a b o) := by
  cases o <;> exact And.intro rfl ((decodeRaw0 _ (by simp)).trans (by with_unfolding_all rfl))
theorem sra (a : Reg) (b : Reg) (c : Reg) : Statement (.sra a b c) := by
  refine And.intro rfl ((decodeRaw0 _ (by simp)).trans ?_)
  with_unfolding_all exact by0 _
theorem sraWide (a : Reg) (b : Reg) (o : Op2) : Statement (.sraWide a b o) := by
  cases o <;> exact And.intro rfl ((decodeRaw0 _ (by simp)).trans (by with_unfolding_all rfl))
theorem rotl (a : Reg) (b : Reg) (c : Reg) : Statement (.rotl a b c) := by
  refine And.intro rfl ((decodeRaw1 _ (by simp)).trans ?_)
  with_unfolding_all exact by0 _
theorem rotlWide (a : Reg) (b : Reg) (o : Op2) : Statement (.rotlWide a b o) := by
  cases o <;> exact And.intro rfl ((decodeRaw1 _ (by simp)).trans (by with_unfolding_all rfl))
theorem slt (a : Reg) (b : Reg) (c : Reg) : Statement (.slt a b c) := by
  refine And.intro rfl ((decodeRaw1 _ (by simp)).trans ?_)
  with_unfolding_all exact by0 _
theorem sltWide (a : Reg) (b : Reg) (o : Op2) : Statement (.sltWide a b o) := by
  cases o <;> exact And.intro rfl ((decodeRaw1 _ (by simp)).trans (by with_unfolding_all rfl))
theorem sltn (a : Reg) (b : Reg) (c : Reg) : Statement (.sltn a b c) := by
  refine And.intro rfl ((decodeRaw1 _ (by simp)).trans ?_)
  with_unfolding_all exact by0 _
theorem sltnWide (a : Reg) (b : Reg) (o : Op2) : Statement (.sltnWide a b o) := by
  cases o <;> exact And.intro rfl ((decodeRaw1 _ (by simp)).trans (by with_unfolding_all rfl))
theorem seq (a : Reg) (b : Reg) (c : Reg) : Statement (.seq a b c) := by
  refine And.intro rfl ((decodeRaw1 _ (by simp)).trans ?_)
  with_unfolding_all exact by0 _
theorem seqWide (a : Reg) (b : Reg) (o : Op2) : Statement (.seqWide a b o) := by
  cases o <;> exact And.intro rfl ((decodeRaw1 _ (by simp)).trans (by with_unfolding_all rfl))
theorem sne (a : Reg) (b : Reg) (c : Reg) : Statement (.sne a b c) := by
  refine And.intro rfl ((decodeRaw1 _ (by simp)).trans ?_)
  with_unfolding_all exact by0 _
theorem sneWide (a : Reg) (b : Reg) (o : Op2) : Statement (.sneWide a b o) := by
  cases o <;> exact And.intro rfl ((decodeRaw1 _ (by simp)).trans (by with_unfolding_all rfl))
theorem min (a : Reg) (b : Reg) (c : Reg) : Statement (.min a b c) := by
  refine And.intro rfl ((decodeRaw1 _ (by simp)).trans ?_)
  with_unfolding_all exact by0 _
theorem minWide (a : Reg) (b : Reg) (o : Op2) : Statement (.minWide a b o) := by
  cases o <;> exact And.intro rfl ((decodeRaw1 _ (by simp)).trans (by with_unfolding_all rfl))
theorem max (a : Reg) (b : Reg) (c : Reg) : Statement (.max a b c) := by
  refine And.intro rfl ((decodeRaw1 _ (by simp)).trans ?_)
  with_unfolding_all exact by0 _
theorem maxWide (a : Reg) (b : Reg) (o : Op2) : Statement (.maxWide a b o) := by
  cases o <;> exact And.intro rfl ((decodeRaw1 _ (by simp)).trans (by with_unfolding_all rfl))
theorem minn (a : Reg) (b : Reg) (c : Reg) : Statement (.minn a b c) := by
  refine And.intro rfl ((decodeRaw1 _ (by simp)).trans ?_)
  with_unfolding_all exact by0 _
theorem minnWide (a : Reg) (b : Reg) (o : Op2) : Statement (.minnWide a b o) := by
  cases o <;> exact And.intro rfl ((decodeRaw1 _ (by simp)).trans (by with_unfolding_all rfl))
theorem maxn (a : Reg) (b : Reg) (c : Reg) : Statement (.maxn a b c) := by
  refine And.intro rfl ((decodeRaw1 _ (by simp)).trans ?_)
  with_unfolding_all exact by0 _
theorem maxnWide (a : Reg) (b : Reg) (o : Op2) : Statement (.maxnWide a b o) := by
  cases o <;> exact And.intro rfl ((decodeRaw1 _ (by simp)).trans (by with_unfolding_all rfl))
theorem clz (a : Reg) (b : Reg) : Statement (.clz a b) := by
  refine And.intro rfl ((decodeRaw1 _ (by simp)).trans ?_)
  with_unfolding_all exact by0 _
theorem clzExt (a : Reg) (b : Reg) (w : BitWidth) : Statement (.clzExt a b w) := by
  refine And.intro rfl ((decodeRaw1 _ (by simp)).trans ?_)
  with_unfolding_all exact (by0 _).trans ((step (BitWidth.ofCode_code _) _))
theorem ctz (a : Reg) (b : Reg) : Statement (.ctz a b) := by
  refine And.intro rfl ((decodeRaw1 _ (by simp)).trans ?_)
  with_unfolding_all exact by0 _
theorem ctzExt (a : Reg) (b : Reg) (w : BitWidth) : Statement (.ctzExt a b w) := by
  refine And.intro rfl ((decodeRaw1 _ (by simp)).trans ?_)
  with_unfolding_all exact (by0 _).trans ((step (BitWidth.ofCode_code _) _))
theorem popc (a : Reg) (b : Reg) : Statement (.popc a b) := by
  refine And.intro rfl ((decodeRaw1 _ (by simp)).trans ?_)
  with_unfolding_all exact by0 _
theorem popcExt (a : Reg) (b : Reg) (w : BitWidth) : Statement (.popcExt a b w) := by
  refine And.intro rfl ((decodeRaw1 _ (by simp)).trans ?_)
  with_unfolding_all exact (by0 _).trans ((step (BitWidth.ofCode_code _) _))
theorem bswap (a : Reg) (b : Reg) : Statement (.bswap a b) := by
  refine And.intro rfl ((decodeRaw1 _ (by simp)).trans ?_)
  with_unfolding_all exact by0 _
theorem bswapExt (a : Reg) (b : Reg) (w : BitWidth) : Statement (.bswapExt a b w) := by
  refine And.intro rfl ((decodeRaw1 _ (by simp)).trans ?_)
  with_unfolding_all exact (by0 _).trans ((step (BitWidth.ofCode_code _) _))
theorem qadd (a : Reg) (b : Reg) (c : Reg) : Statement (.qadd a b c) := by
  refine And.intro rfl ((decodeRaw2 _ (by simp)).trans ?_)
  with_unfolding_all exact by0 _
theorem qaddWide (a : Reg) (b : Reg) (o : Op2) : Statement (.qaddWide a b o) := by
  cases o <;> exact And.intro rfl ((decodeRaw2 _ (by simp)).trans (by with_unfolding_all rfl))
theorem qsub (a : Reg) (b : Reg) (c : Reg) : Statement (.qsub a b c) := by
  refine And.intro rfl ((decodeRaw2 _ (by simp)).trans ?_)
  with_unfolding_all exact by0 _
theorem qsubWide (a : Reg) (b : Reg) (o : Op2) : Statement (.qsubWide a b o) := by
  cases o <;> exact And.intro rfl ((decodeRaw2 _ (by simp)).trans (by with_unfolding_all rfl))
theorem qmul (a : Reg) (b : Reg) (c : Reg) : Statement (.qmul a b c) := by
  refine And.intro rfl ((decodeRaw2 _ (by simp)).trans ?_)
  with_unfolding_all exact by0 _
theorem qmulWide (a : Reg) (b : Reg) (o : Op2) : Statement (.qmulWide a b o) := by
  cases o <;> exact And.intro rfl ((decodeRaw2 _ (by simp)).trans (by with_unfolding_all rfl))
theorem qshl (a : Reg) (b : Reg) (c : Reg) : Statement (.qshl a b c) := by
  refine And.intro rfl ((decodeRaw2 _ (by simp)).trans ?_)
  with_unfolding_all exact by0 _
theorem qshlWide (a : Reg) (b : Reg) (o : Op2) : Statement (.qshlWide a b o) := by
  cases o <;> exact And.intro rfl ((decodeRaw2 _ (by simp)).trans (by with_unfolding_all rfl))
theorem qshr (a : Reg) (b : Reg) (c : Reg) : Statement (.qshr a b c) := by
  refine And.intro rfl ((decodeRaw2 _ (by simp)).trans ?_)
  with_unfolding_all exact by0 _
theorem qshrWide (a : Reg) (b : Reg) (o : Op2) : Statement (.qshrWide a b o) := by
  cases o <;> exact And.intro rfl ((decodeRaw2 _ (by simp)).trans (by with_unfolding_all rfl))
theorem kmov (a : Reg) (b : Reg) : Statement (.kmov a b) := by
  refine And.intro rfl ((decodeRaw2 _ (by simp)).trans ?_)
  with_unfolding_all exact by0 _
theorem kmovExt (a : Reg) (b : Reg) : Statement (.kmovExt a b) := by
  refine And.intro rfl ((decodeRaw2 _ (by simp)).trans ?_)
  with_unfolding_all exact by0 _
theorem kstep (a : Reg) (b : Reg) (c : Reg) : Statement (.kstep a b c) := by
  refine And.intro rfl ((decodeRaw2 _ (by simp)).trans ?_)
  with_unfolding_all exact by0 _
theorem kstepExt (a : Reg) (b : Reg) (c : Reg) (imm : BitVec 24) : Statement (.kstepExt a b c imm) := by
  refine And.intro rfl ((decodeRaw2 _ (by simp)).trans ?_)
  with_unfolding_all exact by0 _
theorem kplace (a : Reg) (b : Reg) (c : Reg) : Statement (.kplace a b c) := by
  refine And.intro rfl ((decodeRaw2 _ (by simp)).trans ?_)
  with_unfolding_all exact by0 _
theorem kplaceExt (a : Reg) (b : Reg) (c : Reg) (imm : BitVec 24) : Statement (.kplaceExt a b c imm) := by
  refine And.intro rfl ((decodeRaw2 _ (by simp)).trans ?_)
  with_unfolding_all exact by0 _
theorem kfit (a : Reg) (b : Reg) (c : Reg) : Statement (.kfit a b c) := by
  refine And.intro rfl ((decodeRaw2 _ (by simp)).trans ?_)
  with_unfolding_all exact by0 _
theorem kfitExt (a : Reg) (b : Reg) (c : Reg) (imm : BitVec 24) : Statement (.kfitExt a b c imm) := by
  refine And.intro rfl ((decodeRaw2 _ (by simp)).trans ?_)
  with_unfolding_all exact by0 _
theorem kcut (a : Reg) (b : Reg) (c : Reg) : Statement (.kcut a b c) := by
  refine And.intro rfl ((decodeRaw2 _ (by simp)).trans ?_)
  with_unfolding_all exact by0 _
theorem kcutExt (a : Reg) (b : Reg) (c : Reg) (imm : BitVec 24) : Statement (.kcutExt a b c imm) := by
  refine And.intro rfl ((decodeRaw2 _ (by simp)).trans ?_)
  with_unfolding_all exact by0 _
theorem kmask (a : Reg) (b : Reg) (c : Reg) : Statement (.kmask a b c) := by
  refine And.intro rfl ((decodeRaw2 _ (by simp)).trans ?_)
  with_unfolding_all exact by0 _
theorem kmaskExt (a : Reg) (b : Reg) (c : Reg) (imm : BitVec 24) : Statement (.kmaskExt a b c imm) := by
  refine And.intro rfl ((decodeRaw2 _ (by simp)).trans ?_)
  with_unfolding_all exact by0 _
theorem klock (a : Reg) (b : Reg) : Statement (.klock a b) := by
  refine And.intro rfl ((decodeRaw2 _ (by simp)).trans ?_)
  with_unfolding_all exact by0 _
theorem klockExt (a : Reg) (b : Reg) : Statement (.klockExt a b) := by
  refine And.intro rfl ((decodeRaw2 _ (by simp)).trans ?_)
  with_unfolding_all exact by0 _
theorem kopen (a : Reg) (b : Reg) (c : Reg) : Statement (.kopen a b c) := by
  refine And.intro rfl ((decodeRaw2 _ (by simp)).trans ?_)
  with_unfolding_all exact by0 _
theorem kopenExt (a : Reg) (b : Reg) (c : Reg) : Statement (.kopenExt a b c) := by
  refine And.intro rfl ((decodeRaw2 _ (by simp)).trans ?_)
  with_unfolding_all exact by0 _
theorem kcur (a : Reg) (b : Reg) : Statement (.kcur a b) := by
  refine And.intro rfl ((decodeRaw3 _ (by simp)).trans ?_)
  with_unfolding_all exact by0 _
theorem kbase (a : Reg) (b : Reg) : Statement (.kbase a b) := by
  refine And.intro rfl ((decodeRaw3 _ (by simp)).trans ?_)
  with_unfolding_all exact by0 _
theorem ktop (a : Reg) (b : Reg) : Statement (.ktop a b) := by
  refine And.intro rfl ((decodeRaw3 _ (by simp)).trans ?_)
  with_unfolding_all exact by0 _
theorem klen (a : Reg) (b : Reg) : Statement (.klen a b) := by
  refine And.intro rfl ((decodeRaw3 _ (by simp)).trans ?_)
  with_unfolding_all exact by0 _
theorem kperm (a : Reg) (b : Reg) : Statement (.kperm a b) := by
  refine And.intro rfl ((decodeRaw3 _ (by simp)).trans ?_)
  with_unfolding_all exact by0 _
theorem ktag (a : Reg) (b : Reg) : Statement (.ktag a b) := by
  refine And.intro rfl ((decodeRaw3 _ (by simp)).trans ?_)
  with_unfolding_all exact by0 _
theorem kinside (a : Reg) (b : Reg) (c : Reg) : Statement (.kinside a b c) := by
  refine And.intro rfl ((decodeRaw3 _ (by simp)).trans ?_)
  with_unfolding_all exact by0 _
theorem kplain (a : Reg) (b : Reg) : Statement (.kplain a b) := by
  refine And.intro rfl ((decodeRaw3 _ (by simp)).trans ?_)
  with_unfolding_all exact by0 _
theorem j (off : BitVec 16) : Statement (.j off) := by
  refine And.intro rfl ((decodeRaw4 _ (by simp)).trans ?_)
  with_unfolding_all refine (by0 _).trans ?_
  with_unfolding_all exact congrArg (fun off' => (.ok (.j off') : Except Illegal Instr)) (jmpOff_jmp _)
theorem jExt (off : BitVec 24) : Statement (.jExt off) := by
  refine And.intro rfl ((decodeRaw4 _ (by simp)).trans ?_)
  with_unfolding_all exact by0 _
theorem jal (a : Reg) (off : BitVec 16) : Statement (.jal a off) := by
  refine And.intro rfl ((decodeRaw4 _ (by simp)).trans ?_)
  with_unfolding_all exact congrArg (fun off' => (.ok (.jal a off') : Except Illegal Instr)) (jmpOff_jmp _)
theorem jalExt (a : Reg) (off : BitVec 24) : Statement (.jalExt a off) := by
  refine And.intro rfl ((decodeRaw4 _ (by simp)).trans ?_)
  with_unfolding_all exact by0 _
theorem jr (b : Reg) : Statement (.jr b) := by
  refine And.intro rfl ((decodeRaw4 _ (by simp)).trans ?_)
  with_unfolding_all exact by0 _
theorem jalr (a : Reg) (b : Reg) : Statement (.jalr a b) := by
  refine And.intro rfl ((decodeRaw4 _ (by simp)).trans ?_)
  with_unfolding_all exact by0 _
theorem ret (b : Reg) : Statement (.ret b) := by
  refine And.intro rfl ((decodeRaw4 _ (by simp)).trans ?_)
  with_unfolding_all exact by0 _
theorem beq (a : Reg) (b : Reg) (off : BitVec 10) : Statement (.beq a b off) := by
  refine And.intro rfl ((decodeRaw4 _ (by simp)).trans ?_)
  with_unfolding_all exact congrArg (fun off' => (.ok (.beq a b off') : Except Illegal Instr)) (brOff_br _)
theorem beqExt (a : Reg) (b : Reg) (off : BitVec 24) : Statement (.beqExt a b off) := by
  refine And.intro rfl ((decodeRaw4 _ (by simp)).trans ?_)
  with_unfolding_all exact by0 _
theorem bne (a : Reg) (b : Reg) (off : BitVec 10) : Statement (.bne a b off) := by
  refine And.intro rfl ((decodeRaw4 _ (by simp)).trans ?_)
  with_unfolding_all exact congrArg (fun off' => (.ok (.bne a b off') : Except Illegal Instr)) (brOff_br _)
theorem bneExt (a : Reg) (b : Reg) (off : BitVec 24) : Statement (.bneExt a b off) := by
  refine And.intro rfl ((decodeRaw4 _ (by simp)).trans ?_)
  with_unfolding_all exact by0 _
theorem blt (a : Reg) (b : Reg) (off : BitVec 10) : Statement (.blt a b off) := by
  refine And.intro rfl ((decodeRaw4 _ (by simp)).trans ?_)
  with_unfolding_all exact congrArg (fun off' => (.ok (.blt a b off') : Except Illegal Instr)) (brOff_br _)
theorem bltExt (a : Reg) (b : Reg) (off : BitVec 24) : Statement (.bltExt a b off) := by
  refine And.intro rfl ((decodeRaw4 _ (by simp)).trans ?_)
  with_unfolding_all exact by0 _
theorem bge (a : Reg) (b : Reg) (off : BitVec 10) : Statement (.bge a b off) := by
  refine And.intro rfl ((decodeRaw4 _ (by simp)).trans ?_)
  with_unfolding_all exact congrArg (fun off' => (.ok (.bge a b off') : Except Illegal Instr)) (brOff_br _)
theorem bgeExt (a : Reg) (b : Reg) (off : BitVec 24) : Statement (.bgeExt a b off) := by
  refine And.intro rfl ((decodeRaw4 _ (by simp)).trans ?_)
  with_unfolding_all exact by0 _
theorem bltn (a : Reg) (b : Reg) (off : BitVec 10) : Statement (.bltn a b off) := by
  refine And.intro rfl ((decodeRaw4 _ (by simp)).trans ?_)
  with_unfolding_all exact congrArg (fun off' => (.ok (.bltn a b off') : Except Illegal Instr)) (brOff_br _)
theorem bltnExt (a : Reg) (b : Reg) (off : BitVec 24) : Statement (.bltnExt a b off) := by
  refine And.intro rfl ((decodeRaw4 _ (by simp)).trans ?_)
  with_unfolding_all exact by0 _
theorem bgen (a : Reg) (b : Reg) (off : BitVec 10) : Statement (.bgen a b off) := by
  refine And.intro rfl ((decodeRaw4 _ (by simp)).trans ?_)
  with_unfolding_all exact congrArg (fun off' => (.ok (.bgen a b off') : Except Illegal Instr)) (brOff_br _)
theorem bgenExt (a : Reg) (b : Reg) (off : BitVec 24) : Statement (.bgenExt a b off) := by
  refine And.intro rfl ((decodeRaw4 _ (by simp)).trans ?_)
  with_unfolding_all exact by0 _
theorem bm (m : Reg) (cond : MaskCond) (off : BitVec 24) : Statement (.bm m cond off) := by
  refine And.intro rfl ((decodeRaw4 _ (by simp)).trans ?_)
  with_unfolding_all exact (by0 _).trans ((step (MaskCond.ofCode_code _) _))
theorem kenter (a : Reg) (b : Reg) : Statement (.kenter a b) := by
  refine And.intro rfl ((decodeRaw4 _ (by simp)).trans ?_)
  with_unfolding_all exact by0 _
theorem ctxSave (d : Reg) (a : Reg) (b : Reg) (c : Reg) (evict : Bool) : Statement (.ctxSave d a b c evict) := by
  refine And.intro rfl ((decodeRaw4 _ (by simp)).trans ?_)
  with_unfolding_all exact (by0 _).trans ((step (boolOfXfn_bit _) _))
theorem ctxRest (d : Reg) (a : Reg) (b : Reg) (c : Reg) : Statement (.ctxRest d a b c) := by
  refine And.intro rfl ((decodeRaw4 _ (by simp)).trans ?_)
  with_unfolding_all exact by0 _
theorem eret (b : Reg) : Statement (.eret b) := by
  refine And.intro rfl ((decodeRaw4 _ (by simp)).trans ?_)
  with_unfolding_all exact by0 _
theorem start (a : Reg) (b : Reg) (c : Reg) (pin : Pin) : Statement (.start a b c pin) := by
  refine And.intro rfl ((decodeRaw5 _ (by simp)).trans ?_)
  with_unfolding_all exact (by0 _).trans ((step (Pin.ofCode_code _) _))
theorem join (a : Reg) (b : Reg) : Statement (.join a b) := by
  refine And.intro rfl ((decodeRaw5 _ (by simp)).trans ?_)
  with_unfolding_all exact by0 _
theorem halt (a : Reg) : Statement (.halt a) := by
  refine And.intro rfl ((decodeRaw5 _ (by simp)).trans ?_)
  with_unfolding_all exact by0 _
theorem spawn (a : Reg) (b : Reg) (c : Reg) (d : Reg) (imm : BitVec 24) : Statement (.spawn a b c d imm) := by
  refine And.intro rfl ((decodeRaw5 _ (by simp)).trans ?_)
  with_unfolding_all exact by0 _
theorem yield : Statement (.yield) := by
  refine And.intro rfl ((decodeRaw5 _ (by simp)).trans ?_)
  with_unfolding_all exact by0 _
theorem bar (sc : Scope) : Statement (.bar sc) := by
  refine And.intro rfl ((decodeRaw5 _ (by simp)).trans ?_)
  with_unfolding_all refine (by0 _).trans ?_
  with_unfolding_all exact congrArg (fun sc' => (.ok (.bar sc') : Except Illegal Instr)) (Scope.ofCode_code _)
theorem semSig (sem : Reg) : Statement (.semSig sem) := by
  refine And.intro rfl ((decodeRaw5 _ (by simp)).trans ?_)
  with_unfolding_all exact by0 _
theorem semWait (sem : Reg) : Statement (.semWait sem) := by
  refine And.intro rfl ((decodeRaw5 _ (by simp)).trans ?_)
  with_unfolding_all exact by0 _
theorem fwdPut (a : Reg) (quad : Bool) : Statement (.fwdPut a quad) := by
  refine And.intro rfl ((decodeRaw5 _ (by simp)).trans ?_)
  with_unfolding_all exact (by0 _).trans ((step (boolOfF_bit _) _))
theorem fwdGet (a : Reg) : Statement (.fwdGet a) := by
  refine And.intro rfl ((decodeRaw5 _ (by simp)).trans ?_)
  with_unfolding_all exact by0 _
theorem trap (n : Fin 16) : Statement (.trap n) := by
  refine And.intro rfl ((decodeRaw5 _ (by simp)).trans ?_)
  with_unfolding_all exact by0 _
theorem trapExt (n : BitVec 24) : Statement (.trapExt n) := by
  refine And.intro rfl ((decodeRaw5 _ (by simp)).trans ?_)
  with_unfolding_all exact by0 _
theorem srd (a : Reg) (sr : Reg) : Statement (.srd a sr) := by
  refine And.intro rfl ((decodeRaw5 _ (by simp)).trans ?_)
  with_unfolding_all exact by0 _
theorem swr (sr : Reg) (b : Reg) : Statement (.swr sr b) := by
  refine And.intro rfl ((decodeRaw5 _ (by simp)).trans ?_)
  with_unfolding_all exact by0 _
theorem ifence : Statement (.ifence) := by
  refine And.intro rfl ((decodeRaw5 _ (by simp)).trans ?_)
  with_unfolding_all exact by0 _
theorem hret (b : Reg) : Statement (.hret b) := by
  refine And.intro rfl ((decodeRaw5 _ (by simp)).trans ?_)
  with_unfolding_all exact by0 _
theorem vadd (a : Reg) (b : Reg) (c : Reg) (fmt : Fmt) : Statement (.vadd a b c fmt) := by
  refine And.intro rfl ((decodeRaw6 _ (by simp)).trans ?_)
  with_unfolding_all exact step (Fmt.ofCode_code _) _
theorem vaddExt (a : Reg) (b : Reg) (c : Reg) (sat : Bool) (x : VecX) : Statement (.vaddExt a b c sat x) := by
  refine And.intro rfl ((decodeRaw6 _ (by simp)).trans ?_)
  with_unfolding_all exact (by0 _).trans ((step (boolOfF_bit _) _).trans ((step (VecX.ofRaw_eq _ x rfl rfl rfl rfl rfl rfl) _)))
theorem vsub (a : Reg) (b : Reg) (c : Reg) (fmt : Fmt) : Statement (.vsub a b c fmt) := by
  refine And.intro rfl ((decodeRaw6 _ (by simp)).trans ?_)
  with_unfolding_all exact step (Fmt.ofCode_code _) _
theorem vsubExt (a : Reg) (b : Reg) (c : Reg) (sat : Bool) (x : VecX) : Statement (.vsubExt a b c sat x) := by
  refine And.intro rfl ((decodeRaw6 _ (by simp)).trans ?_)
  with_unfolding_all exact (by0 _).trans ((step (boolOfF_bit _) _).trans ((step (VecX.ofRaw_eq _ x rfl rfl rfl rfl rfl rfl) _)))
theorem vmul (a : Reg) (b : Reg) (c : Reg) (fmt : Fmt) : Statement (.vmul a b c fmt) := by
  refine And.intro rfl ((decodeRaw6 _ (by simp)).trans ?_)
  with_unfolding_all exact step (Fmt.ofCode_code _) _
theorem vmulExt (a : Reg) (b : Reg) (c : Reg) (sat : Bool) (x : VecX) : Statement (.vmulExt a b c sat x) := by
  refine And.intro rfl ((decodeRaw6 _ (by simp)).trans ?_)
  with_unfolding_all exact (by0 _).trans ((step (boolOfF_bit _) _).trans ((step (VecX.ofRaw_eq _ x rfl rfl rfl rfl rfl rfl) _)))
theorem vfma (a : Reg) (b : Reg) (c : Reg) (fmt : Fmt) : Statement (.vfma a b c fmt) := by
  refine And.intro rfl ((decodeRaw6 _ (by simp)).trans ?_)
  with_unfolding_all exact step (Fmt.ofCode_code _) _
theorem vfmaExt (a : Reg) (b : Reg) (c : Reg) (x : VecX) : Statement (.vfmaExt a b c x) := by
  refine And.intro rfl ((decodeRaw6 _ (by simp)).trans ?_)
  with_unfolding_all exact (by0 _).trans ((step (VecX.ofRaw_eq _ x rfl rfl rfl rfl rfl rfl) _))
theorem vmin (a : Reg) (b : Reg) (c : Reg) (fmt : Fmt) : Statement (.vmin a b c fmt) := by
  refine And.intro rfl ((decodeRaw6 _ (by simp)).trans ?_)
  with_unfolding_all exact step (Fmt.ofCode_code _) _
theorem vminExt (a : Reg) (b : Reg) (c : Reg) (x : VecX) : Statement (.vminExt a b c x) := by
  refine And.intro rfl ((decodeRaw6 _ (by simp)).trans ?_)
  with_unfolding_all exact (by0 _).trans ((step (VecX.ofRaw_eq _ x rfl rfl rfl rfl rfl rfl) _))
theorem vmax (a : Reg) (b : Reg) (c : Reg) (fmt : Fmt) : Statement (.vmax a b c fmt) := by
  refine And.intro rfl ((decodeRaw6 _ (by simp)).trans ?_)
  with_unfolding_all exact step (Fmt.ofCode_code _) _
theorem vmaxExt (a : Reg) (b : Reg) (c : Reg) (x : VecX) : Statement (.vmaxExt a b c x) := by
  refine And.intro rfl ((decodeRaw6 _ (by simp)).trans ?_)
  with_unfolding_all exact (by0 _).trans ((step (VecX.ofRaw_eq _ x rfl rfl rfl rfl rfl rfl) _))
theorem vabs (a : Reg) (b : Reg) (fmt : Fmt) : Statement (.vabs a b fmt) := by
  refine And.intro rfl ((decodeRaw6 _ (by simp)).trans ?_)
  with_unfolding_all exact (by0 _).trans ((step (Fmt.ofCode_code _) _))
theorem vabsExt (a : Reg) (b : Reg) (sat : Bool) (x : VecX) : Statement (.vabsExt a b sat x) := by
  refine And.intro rfl ((decodeRaw6 _ (by simp)).trans ?_)
  with_unfolding_all exact (by0 _).trans ((step (boolOfF_bit _) _).trans ((step (VecX.ofRaw_eq _ x rfl rfl rfl rfl rfl rfl) _)))
theorem vneg (a : Reg) (b : Reg) (fmt : Fmt) : Statement (.vneg a b fmt) := by
  refine And.intro rfl ((decodeRaw6 _ (by simp)).trans ?_)
  with_unfolding_all exact (by0 _).trans ((step (Fmt.ofCode_code _) _))
theorem vnegExt (a : Reg) (b : Reg) (sat : Bool) (x : VecX) : Statement (.vnegExt a b sat x) := by
  refine And.intro rfl ((decodeRaw6 _ (by simp)).trans ?_)
  with_unfolding_all exact (by0 _).trans ((step (boolOfF_bit _) _).trans ((step (VecX.ofRaw_eq _ x rfl rfl rfl rfl rfl rfl) _)))
theorem vdiv (a : Reg) (b : Reg) (c : Reg) (fmt : Fmt) : Statement (.vdiv a b c fmt) := by
  refine And.intro rfl ((decodeRaw6 _ (by simp)).trans ?_)
  with_unfolding_all exact step (Fmt.ofCode_code _) _
theorem vdivExt (a : Reg) (b : Reg) (c : Reg) (x : VecX) : Statement (.vdivExt a b c x) := by
  refine And.intro rfl ((decodeRaw6 _ (by simp)).trans ?_)
  with_unfolding_all exact (by0 _).trans ((step (VecX.ofRaw_eq _ x rfl rfl rfl rfl rfl rfl) _))
theorem vsqrt (a : Reg) (b : Reg) (fmt : Fmt) : Statement (.vsqrt a b fmt) := by
  refine And.intro rfl ((decodeRaw6 _ (by simp)).trans ?_)
  with_unfolding_all exact (by0 _).trans ((step (Fmt.ofCode_code _) _))
theorem vsqrtExt (a : Reg) (b : Reg) (x : VecX) : Statement (.vsqrtExt a b x) := by
  refine And.intro rfl ((decodeRaw6 _ (by simp)).trans ?_)
  with_unfolding_all exact (by0 _).trans ((step (VecX.ofRaw_eq _ x rfl rfl rfl rfl rfl rfl) _))
theorem vrsqrt (a : Reg) (b : Reg) (fmt : Fmt) : Statement (.vrsqrt a b fmt) := by
  refine And.intro rfl ((decodeRaw6 _ (by simp)).trans ?_)
  with_unfolding_all exact (by0 _).trans ((step (Fmt.ofCode_code _) _))
theorem vrsqrtExt (a : Reg) (b : Reg) (x : VecX) : Statement (.vrsqrtExt a b x) := by
  refine And.intro rfl ((decodeRaw6 _ (by simp)).trans ?_)
  with_unfolding_all exact (by0 _).trans ((step (VecX.ofRaw_eq _ x rfl rfl rfl rfl rfl rfl) _))
theorem vexp (a : Reg) (b : Reg) (fmt : Fmt) : Statement (.vexp a b fmt) := by
  refine And.intro rfl ((decodeRaw6 _ (by simp)).trans ?_)
  with_unfolding_all exact (by0 _).trans ((step (Fmt.ofCode_code _) _))
theorem vexpExt (a : Reg) (b : Reg) (x : VecX) : Statement (.vexpExt a b x) := by
  refine And.intro rfl ((decodeRaw6 _ (by simp)).trans ?_)
  with_unfolding_all exact (by0 _).trans ((step (VecX.ofRaw_eq _ x rfl rfl rfl rfl rfl rfl) _))
theorem vlog (a : Reg) (b : Reg) (fmt : Fmt) : Statement (.vlog a b fmt) := by
  refine And.intro rfl ((decodeRaw6 _ (by simp)).trans ?_)
  with_unfolding_all exact (by0 _).trans ((step (Fmt.ofCode_code _) _))
theorem vlogExt (a : Reg) (b : Reg) (x : VecX) : Statement (.vlogExt a b x) := by
  refine And.intro rfl ((decodeRaw6 _ (by simp)).trans ?_)
  with_unfolding_all exact (by0 _).trans ((step (VecX.ofRaw_eq _ x rfl rfl rfl rfl rfl rfl) _))
theorem vsig (a : Reg) (b : Reg) (fmt : Fmt) : Statement (.vsig a b fmt) := by
  refine And.intro rfl ((decodeRaw6 _ (by simp)).trans ?_)
  with_unfolding_all exact (by0 _).trans ((step (Fmt.ofCode_code _) _))
theorem vsigExt (a : Reg) (b : Reg) (x : VecX) : Statement (.vsigExt a b x) := by
  refine And.intro rfl ((decodeRaw6 _ (by simp)).trans ?_)
  with_unfolding_all exact (by0 _).trans ((step (VecX.ofRaw_eq _ x rfl rfl rfl rfl rfl rfl) _))
theorem vtanh (a : Reg) (b : Reg) (fmt : Fmt) : Statement (.vtanh a b fmt) := by
  refine And.intro rfl ((decodeRaw6 _ (by simp)).trans ?_)
  with_unfolding_all exact (by0 _).trans ((step (Fmt.ofCode_code _) _))
theorem vtanhExt (a : Reg) (b : Reg) (x : VecX) : Statement (.vtanhExt a b x) := by
  refine And.intro rfl ((decodeRaw6 _ (by simp)).trans ?_)
  with_unfolding_all exact (by0 _).trans ((step (VecX.ofRaw_eq _ x rfl rfl rfl rfl rfl rfl) _))
theorem vaddc (a : Reg) (b : Reg) : Statement (.vaddc a b) := by
  refine And.intro rfl ((decodeRaw6 _ (by simp)).trans ?_)
  with_unfolding_all exact by0 _
theorem vaddcExt (a : Reg) (b : Reg) (x : VecX) : Statement (.vaddcExt a b x) := by
  refine And.intro rfl ((decodeRaw6 _ (by simp)).trans ?_)
  with_unfolding_all exact (by0 _).trans ((step (VecX.ofRaw_eq _ x rfl rfl rfl rfl rfl rfl) _))
theorem vand (a : Reg) (b : Reg) (c : Reg) (fmt : Fmt) : Statement (.vand a b c fmt) := by
  refine And.intro rfl ((decodeRaw7 _ (by simp)).trans ?_)
  with_unfolding_all exact step (Fmt.ofCode_code _) _
theorem vandExt (a : Reg) (b : Reg) (c : Reg) (x : VecX) : Statement (.vandExt a b c x) := by
  refine And.intro rfl ((decodeRaw7 _ (by simp)).trans ?_)
  with_unfolding_all exact (by0 _).trans ((step (VecX.ofRaw_eq _ x rfl rfl rfl rfl rfl rfl) _))
theorem vor (a : Reg) (b : Reg) (c : Reg) (fmt : Fmt) : Statement (.vor a b c fmt) := by
  refine And.intro rfl ((decodeRaw7 _ (by simp)).trans ?_)
  with_unfolding_all exact step (Fmt.ofCode_code _) _
theorem vorExt (a : Reg) (b : Reg) (c : Reg) (x : VecX) : Statement (.vorExt a b c x) := by
  refine And.intro rfl ((decodeRaw7 _ (by simp)).trans ?_)
  with_unfolding_all exact (by0 _).trans ((step (VecX.ofRaw_eq _ x rfl rfl rfl rfl rfl rfl) _))
theorem vxor (a : Reg) (b : Reg) (c : Reg) (fmt : Fmt) : Statement (.vxor a b c fmt) := by
  refine And.intro rfl ((decodeRaw7 _ (by simp)).trans ?_)
  with_unfolding_all exact step (Fmt.ofCode_code _) _
theorem vxorExt (a : Reg) (b : Reg) (c : Reg) (x : VecX) : Statement (.vxorExt a b c x) := by
  refine And.intro rfl ((decodeRaw7 _ (by simp)).trans ?_)
  with_unfolding_all exact (by0 _).trans ((step (VecX.ofRaw_eq _ x rfl rfl rfl rfl rfl rfl) _))
theorem vshl (a : Reg) (b : Reg) (c : Reg) (fmt : Fmt) : Statement (.vshl a b c fmt) := by
  refine And.intro rfl ((decodeRaw7 _ (by simp)).trans ?_)
  with_unfolding_all exact step (Fmt.ofCode_code _) _
theorem vshlExt (a : Reg) (b : Reg) (c : Reg) (x : VecX) : Statement (.vshlExt a b c x) := by
  refine And.intro rfl ((decodeRaw7 _ (by simp)).trans ?_)
  with_unfolding_all exact (by0 _).trans ((step (VecX.ofRaw_eq _ x rfl rfl rfl rfl rfl rfl) _))
theorem vshr (a : Reg) (b : Reg) (c : Reg) (fmt : Fmt) : Statement (.vshr a b c fmt) := by
  refine And.intro rfl ((decodeRaw7 _ (by simp)).trans ?_)
  with_unfolding_all exact step (Fmt.ofCode_code _) _
theorem vshrExt (a : Reg) (b : Reg) (c : Reg) (x : VecX) : Statement (.vshrExt a b c x) := by
  refine And.intro rfl ((decodeRaw7 _ (by simp)).trans ?_)
  with_unfolding_all exact (by0 _).trans ((step (VecX.ofRaw_eq _ x rfl rfl rfl rfl rfl rfl) _))
theorem vsra (a : Reg) (b : Reg) (c : Reg) (fmt : Fmt) : Statement (.vsra a b c fmt) := by
  refine And.intro rfl ((decodeRaw7 _ (by simp)).trans ?_)
  with_unfolding_all exact step (Fmt.ofCode_code _) _
theorem vsraExt (a : Reg) (b : Reg) (c : Reg) (x : VecX) : Statement (.vsraExt a b c x) := by
  refine And.intro rfl ((decodeRaw7 _ (by simp)).trans ?_)
  with_unfolding_all exact (by0 _).trans ((step (VecX.ofRaw_eq _ x rfl rfl rfl rfl rfl rfl) _))
theorem vsel (a : Reg) (b : Reg) (c : Reg) (fmt : Fmt) : Statement (.vsel a b c fmt) := by
  refine And.intro rfl ((decodeRaw7 _ (by simp)).trans ?_)
  with_unfolding_all exact step (Fmt.ofCode_code _) _
theorem vselExt (a : Reg) (b : Reg) (c : Reg) (x : VecX) : Statement (.vselExt a b c x) := by
  refine And.intro rfl ((decodeRaw7 _ (by simp)).trans ?_)
  with_unfolding_all exact (by0 _).trans ((step (VecX.ofRaw_eq _ x rfl rfl rfl rfl rfl rfl) _))
theorem vmov (a : Reg) (b : Reg) (fmt : Fmt) : Statement (.vmov a b fmt) := by
  refine And.intro rfl ((decodeRaw7 _ (by simp)).trans ?_)
  with_unfolding_all exact (by0 _).trans ((step (Fmt.ofCode_code _) _))
theorem vmovExt (a : Reg) (b : Reg) (x : VecX) : Statement (.vmovExt a b x) := by
  refine And.intro rfl ((decodeRaw7 _ (by simp)).trans ?_)
  with_unfolding_all exact (by0 _).trans ((step (VecX.ofRaw_eq _ x rfl rfl rfl rfl rfl rfl) _))
theorem vdot (a : Reg) (b : Reg) (c : Reg) (fmt : Fmt) : Statement (.vdot a b c fmt) := by
  refine And.intro rfl ((decodeRaw7 _ (by simp)).trans ?_)
  with_unfolding_all exact step (Fmt.ofCode_code _) _
theorem vdotExt (a : Reg) (b : Reg) (c : Reg) (x : VecX) : Statement (.vdotExt a b c x) := by
  refine And.intro rfl ((decodeRaw7 _ (by simp)).trans ?_)
  with_unfolding_all exact (by0 _).trans ((step (VecX.ofRaw_eq _ x rfl rfl rfl rfl rfl rfl) _))
theorem vcvt (a : Reg) (b : Reg) (part : Fin 16) (src : Fmt) (x : VecX) : Statement (.vcvt a b part src x) := by
  refine And.intro rfl ((decodeRaw7 _ (by simp)).trans ?_)
  with_unfolding_all exact (by0 _).trans ((step (Fmt.ofXfn_code _) _).trans ((step (VecX.ofRaw_eq _ x rfl rfl rfl rfl rfl rfl) _)))
theorem vpack (a : Reg) (d : Reg) (b : Reg) (kind : PackKind) (part : Fin 16) (x : VecX) : Statement (.vpack a d b kind part x) := by
  refine And.intro rfl ((decodeRaw7 _ (by simp)).trans ?_)
  with_unfolding_all exact (by0 _).trans ((step (PackKind.ofCode_code _) _).trans ((step (VecX.ofRaw_eq _ x rfl rfl rfl rfl rfl rfl) _)))
theorem vunpk (a : Reg) (d : Reg) (b : Reg) (kind : PackKind) (part : Fin 16) (x : VecX) : Statement (.vunpk a d b kind part x) := by
  refine And.intro rfl ((decodeRaw7 _ (by simp)).trans ?_)
  with_unfolding_all exact (by0 _).trans ((step (PackKind.ofCode_code _) _).trans ((step (VecX.ofRaw_eq _ x rfl rfl rfl rfl rfl rfl) _)))
theorem vcmp (a : Reg) (b : Reg) (c : Reg) (cond : CmpCond) (x : VecX) : Statement (.vcmp a b c cond x) := by
  refine And.intro rfl ((decodeRaw7 _ (by simp)).trans ?_)
  with_unfolding_all exact (by0 _).trans ((step (CmpCond.ofCode_code _) _).trans ((step (VecX.ofRaw_eq _ x rfl rfl rfl rfl rfl rfl) _)))
theorem mskl (a : Reg) (b : Reg) (c : Reg) (op : MaskOp) : Statement (.mskl a b c op) := by
  refine And.intro rfl ((decodeRaw7 _ (by simp)).trans ?_)
  with_unfolding_all exact (by0 _).trans ((step (MaskOp.ofCode_code _) _))
theorem mskp (a : Reg) (b : Reg) (op : MaskProbe) : Statement (.mskp a b op) := by
  refine And.intro rfl ((decodeRaw7 _ (by simp)).trans ?_)
  with_unfolding_all exact (by0 _).trans ((step (MaskProbe.ofCode_code _) _))
theorem msks (a : Reg) (lit : BitVec 64) : Statement (.msks a lit) := by
  refine And.intro rfl ((decodeRaw7 _ (by simp)).trans ?_)
  with_unfolding_all exact by0 _
theorem msksExt (a : Reg) (lit : BitVec 64) (op : MaskSet) : Statement (.msksExt a lit op) := by
  refine And.intro rfl ((decodeRaw7 _ (by simp)).trans ?_)
  with_unfolding_all exact (by0 _).trans ((step (MaskSet.ofCode_code _) _))
theorem vred (a : Reg) (b : Reg) (op : RedOp) (x : VecX) : Statement (.vred a b op x) := by
  refine And.intro rfl ((decodeRaw8 _ (by simp)).trans ?_)
  with_unfolding_all exact (by0 _).trans ((step (RedOp.ofCode_code _) _).trans ((step (VecX.ofRaw_eq _ x rfl rfl rfl rfl rfl rfl) _)))
theorem vscan (a : Reg) (b : Reg) (c : Reg) (d : Reg) (op : ScanOp) (x : VecX) : Statement (.vscan a b c d op x) := by
  refine And.intro rfl ((decodeRaw8 _ (by simp)).trans ?_)
  with_unfolding_all exact (by0 _).trans ((step (ScanOp.ofCode_code _) _).trans ((step (VecX.ofRaw_eq _ x rfl rfl rfl rfl rfl rfl) _)))
theorem vbcast (a : Reg) (b : Reg) (c : Reg) (fmt : Fmt) : Statement (.vbcast a b c fmt) := by
  refine And.intro rfl ((decodeRaw8 _ (by simp)).trans ?_)
  with_unfolding_all exact step (Fmt.ofCode_code _) _
theorem vbcastExt (a : Reg) (b : Reg) (c : Reg) (imm : BitVec 24) (x : VecX) : Statement (.vbcastExt a b c imm x) := by
  refine And.intro rfl ((decodeRaw8 _ (by simp)).trans ?_)
  with_unfolding_all exact (by0 _).trans ((step (VecX.ofRaw_eq _ x rfl rfl rfl rfl rfl rfl) _))
theorem vperm (a : Reg) (b : Reg) (c : Reg) (fmt : Fmt) : Statement (.vperm a b c fmt) := by
  refine And.intro rfl ((decodeRaw8 _ (by simp)).trans ?_)
  with_unfolding_all exact step (Fmt.ofCode_code _) _
theorem vpermExt (a : Reg) (b : Reg) (c : Reg) (x : VecX) : Statement (.vpermExt a b c x) := by
  refine And.intro rfl ((decodeRaw8 _ (by simp)).trans ?_)
  with_unfolding_all exact (by0 _).trans ((step (VecX.ofRaw_eq _ x rfl rfl rfl rfl rfl rfl) _))
theorem vsort (a : Reg) (b : Reg) (fmt : Fmt) : Statement (.vsort a b fmt) := by
  refine And.intro rfl ((decodeRaw8 _ (by simp)).trans ?_)
  with_unfolding_all exact (by0 _).trans ((step (Fmt.ofCode_code _) _))
theorem vsortExt (a : Reg) (b : Reg) (desc : Bool) (x : VecX) : Statement (.vsortExt a b desc x) := by
  refine And.intro rfl ((decodeRaw8 _ (by simp)).trans ?_)
  with_unfolding_all exact (by0 _).trans ((step (boolOfF_bit _) _).trans ((step (VecX.ofRaw_eq _ x rfl rfl rfl rfl rfl rfl) _)))
theorem vmerge (a : Reg) (b : Reg) (c : Reg) (fmt : Fmt) : Statement (.vmerge a b c fmt) := by
  refine And.intro rfl ((decodeRaw8 _ (by simp)).trans ?_)
  with_unfolding_all exact step (Fmt.ofCode_code _) _
theorem vmergeExt (a : Reg) (b : Reg) (c : Reg) (d : Reg) (desc : Bool) (x : VecX) : Statement (.vmergeExt a b c d desc x) := by
  refine And.intro rfl ((decodeRaw8 _ (by simp)).trans ?_)
  with_unfolding_all exact (by0 _).trans ((step (boolOfF_bit _) _).trans ((step (VecX.ofRaw_eq _ x rfl rfl rfl rfl rfl rfl) _)))
theorem vidx (a : Reg) (b : Reg) (fmt : Fmt) : Statement (.vidx a b fmt) := by
  refine And.intro rfl ((decodeRaw8 _ (by simp)).trans ?_)
  with_unfolding_all exact (by0 _).trans ((step (Fmt.ofCode_code _) _))
theorem vidxExt (a : Reg) (b : Reg) (imm : BitVec 24) (x : VecX) : Statement (.vidxExt a b imm x) := by
  refine And.intro rfl ((decodeRaw8 _ (by simp)).trans ?_)
  with_unfolding_all exact (by0 _).trans ((step (VecX.ofRaw_eq _ x rfl rfl rfl rfl rfl rfl) _))
theorem vsplat (a : Reg) (c : Reg) (fmt : Fmt) : Statement (.vsplat a c fmt) := by
  refine And.intro rfl ((decodeRaw8 _ (by simp)).trans ?_)
  with_unfolding_all exact (by0 _).trans ((step (Fmt.ofCode_code _) _))
theorem vsplatWide (a : Reg) (w : SplatX) : Statement (.vsplatWide a w) := by
  rcases w with ⟨c, imm, x⟩ | ⟨v, f⟩ | ⟨v, x⟩
  · refine And.intro rfl ((decodeRaw8 _ (by simp)).trans ?_)
    with_unfolding_all exact (by0 _).trans (step (VecX.ofRaw_eq _ x rfl rfl rfl rfl rfl rfl) _)
  · refine And.intro rfl ((decodeRaw8 _ (by simp)).trans ?_)
    with_unfolding_all exact (by0 _).trans (step (Fmt.ofCode_code f) _)
  · refine And.intro rfl ((decodeRaw8 _ (by simp)).trans ?_)
    with_unfolding_all exact (by0 _).trans (step (VecX.ofRaw_eq _ x rfl rfl rfl rfl rfl rfl) _)
theorem vrand (a : Reg) (fmt : Fmt) : Statement (.vrand a fmt) := by
  refine And.intro rfl ((decodeRaw8 _ (by simp)).trans ?_)
  with_unfolding_all exact (by0 _).trans ((step (Fmt.ofCode_code _) _))
theorem vrandExt (a : Reg) (x : VecX) : Statement (.vrandExt a x) := by
  refine And.intro rfl ((decodeRaw8 _ (by simp)).trans ?_)
  with_unfolding_all exact (by0 _).trans ((step (VecX.ofRaw_eq _ x rfl rfl rfl rfl rfl rfl) _))
theorem vkeep (a : Reg) (b : Reg) (c : Reg) (fmt : Fmt) : Statement (.vkeep a b c fmt) := by
  refine And.intro rfl ((decodeRaw8 _ (by simp)).trans ?_)
  with_unfolding_all exact step (Fmt.ofCode_code _) _
theorem vkeepExt (a : Reg) (b : Reg) (c : Reg) (x : VecX) : Statement (.vkeepExt a b c x) := by
  refine And.intro rfl ((decodeRaw8 _ (by simp)).trans ?_)
  with_unfolding_all exact (by0 _).trans ((step (VecX.ofRaw_eq _ x rfl rfl rfl rfl rfl rfl) _))
theorem vphx (a : Reg) (b : Reg) (c : Reg) (fmt : Fmt) : Statement (.vphx a b c fmt) := by
  refine And.intro rfl ((decodeRaw8 _ (by simp)).trans ?_)
  with_unfolding_all exact step (Fmt.ofCode_code _) _
theorem vphxExt (a : Reg) (b : Reg) (c : Reg) (word : Fin 4) (imm : BitVec 24) (x : VecX) : Statement (.vphxExt a b c word imm x) := by
  refine And.intro rfl ((decodeRaw8 _ (by simp)).trans ?_)
  with_unfolding_all exact (by0 _).trans ((step (word4Of_word4 _) _).trans ((step (VecX.ofRaw_eq _ x rfl rfl rfl rfl rfl rfl) _)))
theorem vrope (a : Reg) (b : Reg) (c : Reg) : Statement (.vrope a b c) := by
  refine And.intro rfl ((decodeRaw8 _ (by simp)).trans ?_)
  with_unfolding_all exact by0 _
theorem vropeExt (a : Reg) (b : Reg) (c : Reg) (d : Reg) (half : Bool) (x : VecX) : Statement (.vropeExt a b c d half x) := by
  refine And.intro rfl ((decodeRaw8 _ (by simp)).trans ?_)
  with_unfolding_all exact (by0 _).trans ((step (boolOfF_bit _) _).trans ((step (VecX.ofRaw_eq _ x rfl rfl rfl rfl rfl rfl) _)))
theorem vins (a : Reg) (b : Reg) (c : Reg) (fmt : Fmt) : Statement (.vins a b c fmt) := by
  refine And.intro rfl ((decodeRaw8 _ (by simp)).trans ?_)
  with_unfolding_all exact step (Fmt.ofCode_code _) _
theorem vinsExt (a : Reg) (b : Reg) (c : Reg) (imm : BitVec 24) (x : VecX) : Statement (.vinsExt a b c imm x) := by
  refine And.intro rfl ((decodeRaw8 _ (by simp)).trans ?_)
  with_unfolding_all exact (by0 _).trans ((step (VecX.ofRaw_eq _ x rfl rfl rfl rfl rfl rfl) _))
theorem vext (a : Reg) (b : Reg) (c : Reg) (fmt : Fmt) : Statement (.vext a b c fmt) := by
  refine And.intro rfl ((decodeRaw8 _ (by simp)).trans ?_)
  with_unfolding_all exact step (Fmt.ofCode_code _) _
theorem vextExt (a : Reg) (b : Reg) (c : Reg) (imm : BitVec 24) (x : VecX) : Statement (.vextExt a b c imm x) := by
  refine And.intro rfl ((decodeRaw8 _ (by simp)).trans ?_)
  with_unfolding_all exact (by0 _).trans ((step (VecX.ofRaw_eq _ x rfl rfl rfl rfl rfl rfl) _))
theorem madd (a : Reg) (b : Reg) (c : Reg) : Statement (.madd a b c) := by
  refine And.intro rfl ((decodeRaw9 _ (by simp)).trans ?_)
  with_unfolding_all exact step rfl _
theorem maddExt (a : Reg) (b : Reg) (c : Reg) (d : Reg) (x : VecX) : Statement (.maddExt a b c d x) := by
  refine And.intro rfl ((decodeRaw9 _ (by simp)).trans ?_)
  with_unfolding_all exact (by0 _).trans ((step (VecX.ofRaw_eq _ x rfl rfl rfl rfl rfl rfl) _))
theorem msub (a : Reg) (b : Reg) (c : Reg) : Statement (.msub a b c) := by
  refine And.intro rfl ((decodeRaw9 _ (by simp)).trans ?_)
  with_unfolding_all exact step rfl _
theorem msubExt (a : Reg) (b : Reg) (c : Reg) (d : Reg) (x : VecX) : Statement (.msubExt a b c d x) := by
  refine And.intro rfl ((decodeRaw9 _ (by simp)).trans ?_)
  with_unfolding_all exact (by0 _).trans ((step (VecX.ofRaw_eq _ x rfl rfl rfl rfl rfl rfl) _))
theorem mmul (a : Reg) (b : Reg) (c : Reg) : Statement (.mmul a b c) := by
  refine And.intro rfl ((decodeRaw9 _ (by simp)).trans ?_)
  with_unfolding_all exact step rfl _
theorem mmulExt (a : Reg) (b : Reg) (c : Reg) (x : VecX) : Statement (.mmulExt a b c x) := by
  refine And.intro rfl ((decodeRaw9 _ (by simp)).trans ?_)
  with_unfolding_all exact (by0 _).trans ((step (VecX.ofRaw_eq _ x rfl rfl rfl rfl rfl rfl) _))
theorem mscl (a : Reg) (b : Reg) (c : Reg) : Statement (.mscl a b c) := by
  refine And.intro rfl ((decodeRaw9 _ (by simp)).trans ?_)
  with_unfolding_all exact step rfl _
theorem msclExt (a : Reg) (b : Reg) (c : Reg) (x : VecX) : Statement (.msclExt a b c x) := by
  refine And.intro rfl ((decodeRaw9 _ (by simp)).trans ?_)
  with_unfolding_all exact (by0 _).trans ((step (VecX.ofRaw_eq _ x rfl rfl rfl rfl rfl rfl) _))
theorem mexp (a : Reg) (b : Reg) : Statement (.mexp a b) := by
  refine And.intro rfl ((decodeRaw9 _ (by simp)).trans ?_)
  with_unfolding_all exact (by0 _).trans ((step rfl _))
theorem mexpExt (a : Reg) (b : Reg) (x : VecX) : Statement (.mexpExt a b x) := by
  refine And.intro rfl ((decodeRaw9 _ (by simp)).trans ?_)
  with_unfolding_all exact (by0 _).trans ((step (VecX.ofRaw_eq _ x rfl rfl rfl rfl rfl rfl) _))
theorem mrelu (a : Reg) (b : Reg) : Statement (.mrelu a b) := by
  refine And.intro rfl ((decodeRaw9 _ (by simp)).trans ?_)
  with_unfolding_all exact (by0 _).trans ((step rfl _))
theorem mreluExt (a : Reg) (b : Reg) (x : VecX) : Statement (.mreluExt a b x) := by
  refine And.intro rfl ((decodeRaw9 _ (by simp)).trans ?_)
  with_unfolding_all exact (by0 _).trans ((step (VecX.ofRaw_eq _ x rfl rfl rfl rfl rfl rfl) _))
theorem msig (a : Reg) (b : Reg) : Statement (.msig a b) := by
  refine And.intro rfl ((decodeRaw9 _ (by simp)).trans ?_)
  with_unfolding_all exact (by0 _).trans ((step rfl _))
theorem msigExt (a : Reg) (b : Reg) (x : VecX) : Statement (.msigExt a b x) := by
  refine And.intro rfl ((decodeRaw9 _ (by simp)).trans ?_)
  with_unfolding_all exact (by0 _).trans ((step (VecX.ofRaw_eq _ x rfl rfl rfl rfl rfl rfl) _))
theorem mcoll (a : Reg) (b : Reg) (c : Reg) (form : CollForm) (half : Bool) (x : VecX) : Statement (.mcoll a b c form half x) := by
  refine And.intro rfl ((decodeRaw9 _ (by simp)).trans ?_)
  with_unfolding_all exact (by0 _).trans ((step (CollForm.ofCode_code _) _).trans ((step (boolOfXfn_bit _) _).trans ((step (VecX.ofRaw_eq _ x rfl rfl rfl rfl rfl rfl) _))))
theorem mfrom (a : Reg) (b : Reg) (c : Reg) : Statement (.mfrom a b c) := by
  refine And.intro rfl ((decodeRaw9 _ (by simp)).trans ?_)
  with_unfolding_all exact by0 _
theorem mfromExt (a : Reg) (b : Reg) (c : Reg) (x : VecX) : Statement (.mfromExt a b c x) := by
  refine And.intro rfl ((decodeRaw9 _ (by simp)).trans ?_)
  with_unfolding_all exact (by0 _).trans ((step (VecX.ofRaw_eq _ x rfl rfl rfl rfl rfl rfl) _))
theorem mmov (a : Reg) (b : Reg) : Statement (.mmov a b) := by
  refine And.intro rfl ((decodeRaw9 _ (by simp)).trans ?_)
  with_unfolding_all exact (by0 _).trans ((step rfl _))
theorem mmovExt (a : Reg) (b : Reg) (x : VecX) : Statement (.mmovExt a b x) := by
  refine And.intro rfl ((decodeRaw9 _ (by simp)).trans ?_)
  with_unfolding_all exact (by0 _).trans ((step (VecX.ofRaw_eq _ x rfl rfl rfl rfl rfl rfl) _))
theorem ld (a : Reg) (b : Reg) (kind : Kind) (off : Fin 16) : Statement (.ld a b kind off) := by
  refine And.intro rfl ((decodeRawA _ (by simp)).trans ?_)
  with_unfolding_all exact step (Kind.ofC_code _) _
theorem ldExt (a : Reg) (b : Reg) (kind : Kind) (x : MemX) : Statement (.ldExt a b kind x) := by
  refine And.intro rfl ((decodeRawA _ (by simp)).trans ?_)
  with_unfolding_all refine (by0 _).trans ?_
  with_unfolding_all refine (step (Kind.ofF_code _) _).trans ?_
  with_unfolding_all exact congrArg (fun x' => (.ok (.ldExt a b kind x') : Except Illegal Instr)) (MemX.ofRaw_eq _ x rfl rfl rfl rfl)
theorem st (a : Reg) (b : Reg) (kind : Kind) (off : Fin 16) : Statement (.st a b kind off) := by
  refine And.intro rfl ((decodeRawA _ (by simp)).trans ?_)
  with_unfolding_all exact step (Kind.ofC_code _) _
theorem stExt (a : Reg) (b : Reg) (kind : Kind) (x : MemX) : Statement (.stExt a b kind x) := by
  refine And.intro rfl ((decodeRawA _ (by simp)).trans ?_)
  with_unfolding_all refine (by0 _).trans ?_
  with_unfolding_all refine (step (Kind.ofF_code _) _).trans ?_
  with_unfolding_all exact congrArg (fun x' => (.ok (.stExt a b kind x') : Except Illegal Instr)) (MemX.ofRaw_eq _ x rfl rfl rfl rfl)
theorem cld (a : Reg) (b : Reg) (off : Fin 16) : Statement (.cld a b off) := by
  refine And.intro rfl ((decodeRawA _ (by simp)).trans ?_)
  with_unfolding_all exact by0 _
theorem cldExt (a : Reg) (b : Reg) (x : MemX) : Statement (.cldExt a b x) := by
  refine And.intro rfl ((decodeRawA _ (by simp)).trans ?_)
  with_unfolding_all refine (by0 _).trans ?_
  with_unfolding_all exact congrArg (fun x' => (.ok (.cldExt a b x') : Except Illegal Instr)) (MemX.ofRaw_eq _ x rfl rfl rfl rfl)
theorem cst (a : Reg) (b : Reg) (off : Fin 16) : Statement (.cst a b off) := by
  refine And.intro rfl ((decodeRawA _ (by simp)).trans ?_)
  with_unfolding_all exact by0 _
theorem cstExt (a : Reg) (b : Reg) (x : MemX) : Statement (.cstExt a b x) := by
  refine And.intro rfl ((decodeRawA _ (by simp)).trans ?_)
  with_unfolding_all refine (by0 _).trans ?_
  with_unfolding_all exact congrArg (fun x' => (.ok (.cstExt a b x') : Except Illegal Instr)) (MemX.ofRaw_eq _ x rfl rfl rfl rfl)
theorem vld (a : Reg) (b : Reg) (off : Fin 16) : Statement (.vld a b off) := by
  refine And.intro rfl ((decodeRawA _ (by simp)).trans ?_)
  with_unfolding_all exact by0 _
theorem vldExt (a : Reg) (b : Reg) (m : MaskSel) (x : MemX) : Statement (.vldExt a b m x) := by
  refine And.intro rfl ((decodeRawA _ (by simp)).trans ?_)
  with_unfolding_all refine (by0 _).trans ?_
  with_unfolding_all exact congrArg₂ (fun m' x' => (.ok (.vldExt a b m' x') : Except Illegal Instr)) (MaskSel.ofRaw_eq _ m rfl rfl) (MemX.ofRaw_eq _ x rfl rfl rfl rfl)
theorem vst (a : Reg) (b : Reg) (off : Fin 16) : Statement (.vst a b off) := by
  refine And.intro rfl ((decodeRawA _ (by simp)).trans ?_)
  with_unfolding_all exact by0 _
theorem vstExt (a : Reg) (b : Reg) (m : MaskSel) (x : MemX) : Statement (.vstExt a b m x) := by
  refine And.intro rfl ((decodeRawA _ (by simp)).trans ?_)
  with_unfolding_all refine (by0 _).trans ?_
  with_unfolding_all exact congrArg₂ (fun m' x' => (.ok (.vstExt a b m' x') : Except Illegal Instr)) (MaskSel.ofRaw_eq _ m rfl rfl) (MemX.ofRaw_eq _ x rfl rfl rfl rfl)
theorem vgath (a : Reg) (b : Reg) (m : MaskSel) (x : MemX) : Statement (.vgath a b m x) := by
  refine And.intro rfl ((decodeRawA _ (by simp)).trans ?_)
  with_unfolding_all refine (by0 _).trans ?_
  with_unfolding_all exact congrArg₂ (fun m' x' => (.ok (.vgath a b m' x') : Except Illegal Instr)) (MaskSel.ofRaw_eq _ m rfl rfl) (MemX.ofRaw_eq _ x rfl rfl rfl rfl)
theorem vscat (a : Reg) (b : Reg) (m : MaskSel) (x : MemX) : Statement (.vscat a b m x) := by
  refine And.intro rfl ((decodeRawA _ (by simp)).trans ?_)
  with_unfolding_all refine (by0 _).trans ?_
  with_unfolding_all exact congrArg₂ (fun m' x' => (.ok (.vscat a b m' x') : Except Illegal Instr)) (MaskSel.ofRaw_eq _ m rfl rfl) (MemX.ofRaw_eq _ x rfl rfl rfl rfl)
theorem eld (a : Reg) (b : Reg) (off : Fin 16) : Statement (.eld a b off) := by
  refine And.intro rfl ((decodeRawA _ (by simp)).trans ?_)
  with_unfolding_all exact by0 _
theorem eldExt (a : Reg) (b : Reg) (m : MaskSel) (x : MemX) : Statement (.eldExt a b m x) := by
  refine And.intro rfl ((decodeRawA _ (by simp)).trans ?_)
  with_unfolding_all refine (by0 _).trans ?_
  with_unfolding_all exact congrArg₂ (fun m' x' => (.ok (.eldExt a b m' x') : Except Illegal Instr)) (MaskSel.ofRaw_eq _ m rfl rfl) (MemX.ofRaw_eq _ x rfl rfl rfl rfl)
theorem est (a : Reg) (b : Reg) (off : Fin 16) : Statement (.est a b off) := by
  refine And.intro rfl ((decodeRawA _ (by simp)).trans ?_)
  with_unfolding_all exact by0 _
theorem estExt (a : Reg) (b : Reg) (m : MaskSel) (x : MemX) : Statement (.estExt a b m x) := by
  refine And.intro rfl ((decodeRawA _ (by simp)).trans ?_)
  with_unfolding_all refine (by0 _).trans ?_
  with_unfolding_all exact congrArg₂ (fun m' x' => (.ok (.estExt a b m' x') : Except Illegal Instr)) (MaskSel.ofRaw_eq _ m rfl rfl) (MemX.ofRaw_eq _ x rfl rfl rfl rfl)
theorem amo (a : Reg) (b : Reg) (d : Reg) (op : AmoOp) (narrow : Bool) (x : MemX) : Statement (.amo a b d op narrow x) := by
  refine And.intro rfl ((decodeRawA _ (by simp)).trans ?_)
  with_unfolding_all refine (by0 _).trans ?_
  with_unfolding_all refine (step (AmoOp.ofXfn_code _ _) _).trans ?_
  with_unfolding_all exact congrArg₂ (fun narrow' x' => (.ok (.amo a b d op narrow' x') : Except Illegal Instr)) (narrowOf_code _ _) (MemX.ofRaw_eq _ x rfl rfl rfl rfl)
theorem cas (a : Reg) (b : Reg) (d : Reg) (narrow : Bool) (x : MemX) : Statement (.cas a b d narrow x) := by
  refine And.intro rfl ((decodeRawA _ (by simp)).trans ?_)
  with_unfolding_all refine (by0 _).trans ?_
  with_unfolding_all refine (step (casNarrow_code _) _).trans ?_
  with_unfolding_all exact congrArg (fun x' => (.ok (.cas a b d narrow x') : Except Illegal Instr)) (MemX.ofRaw_eq _ x rfl rfl rfl rfl)
theorem ccas (a : Reg) (b : Reg) (d : Reg) (x : MemX) : Statement (.ccas a b d x) := by
  refine And.intro rfl ((decodeRawA _ (by simp)).trans ?_)
  with_unfolding_all refine (by0 _).trans ?_
  with_unfolding_all exact congrArg (fun x' => (.ok (.ccas a b d x') : Except Illegal Instr)) (MemX.ofRaw_eq _ x rfl rfl rfl rfl)
theorem fence (sc : Scope) : Statement (.fence sc) := by
  refine And.intro rfl ((decodeRawA _ (by simp)).trans ?_)
  with_unfolding_all refine (by0 _).trans ?_
  with_unfolding_all exact congrArg (fun sc' => (.ok (.fence sc') : Except Illegal Instr)) (Scope.ofCode_code _)
theorem stashMap (w : Reg) (b : Reg) (off : Fin 1024) (len : Fin 1024) : Statement (.stashMap w b off len) := by
  refine And.intro rfl ((decodeRawB _ (by simp)).trans ?_)
  with_unfolding_all refine (by0 _).trans ?_
  with_unfolding_all refine (step (stashOff_stash _ _) _).trans ?_
  with_unfolding_all exact congrArg (fun len' => (.ok (.stashMap w b off len') : Except Illegal Instr)) (stashLen_stash _ _)
theorem stashUnmap (w : Reg) : Statement (.stashUnmap w) := by
  refine And.intro rfl ((decodeRawB _ (by simp)).trans ?_)
  with_unfolding_all exact by0 _
theorem stashUnmapExt : Statement (.stashUnmapExt) := by
  refine And.intro rfl ((decodeRawB _ (by simp)).trans ?_)
  with_unfolding_all exact (by0 _).trans ((step rfl _))
theorem stashWb (w : Reg) : Statement (.stashWb w) := by
  refine And.intro rfl ((decodeRawB _ (by simp)).trans ?_)
  with_unfolding_all exact by0 _
theorem stashWbExt : Statement (.stashWbExt) := by
  refine And.intro rfl ((decodeRawB _ (by simp)).trans ?_)
  with_unfolding_all exact (by0 _).trans ((step rfl _))
theorem stashAp (a : Reg) (b : Reg) (c : Reg) : Statement (.stashAp a b c) := by
  refine And.intro rfl ((decodeRawB _ (by simp)).trans ?_)
  with_unfolding_all exact by0 _
theorem copy (a : Reg) (b : Reg) (c : Reg) (ch : Fin 4) (land : Bool) : Statement (.copy a b c ch land) := by
  refine And.intro rfl ((decodeRawB _ (by simp)).trans ?_)
  with_unfolding_all refine (by0 _).trans ?_
  with_unfolding_all refine (step (chOfXfn_ch _ _) _).trans ?_
  with_unfolding_all exact congrArg (fun land' => (.ok (.copy a b c ch land') : Except Illegal Instr)) (flagOfXfn_ch _ _)
theorem copyWait (ch : Reg) : Statement (.copyWait ch) := by
  refine And.intro rfl ((decodeRawB _ (by simp)).trans ?_)
  with_unfolding_all exact by0 _
theorem copyWaitExt (d : Reg) (ch : Reg) (b : Reg) (imm : BitVec 24) : Statement (.copyWaitExt d ch b imm) := by
  refine And.intro rfl ((decodeRawB _ (by simp)).trans ?_)
  with_unfolding_all exact by0 _
theorem valloc (a : Reg) (d : Reg) (c : Reg) (imm : BitVec 24) : Statement (.valloc a d c imm) := by
  refine And.intro rfl ((decodeRawB _ (by simp)).trans ?_)
  with_unfolding_all exact by0 _
theorem vdup (a : Reg) (b : Reg) : Statement (.vdup a b) := by
  refine And.intro rfl ((decodeRawB _ (by simp)).trans ?_)
  with_unfolding_all exact by0 _
theorem vdupExt (a : Reg) (b : Reg) : Statement (.vdupExt a b) := by
  refine And.intro rfl ((decodeRawB _ (by simp)).trans ?_)
  with_unfolding_all exact by0 _
theorem vsplit (a : Reg) (b : Reg) (c : Reg) : Statement (.vsplit a b c) := by
  refine And.intro rfl ((decodeRawB _ (by simp)).trans ?_)
  with_unfolding_all exact by0 _
theorem vsplitExt (a : Reg) (b : Reg) (c : Reg) (imm : BitVec 24) : Statement (.vsplitExt a b c imm) := by
  refine And.intro rfl ((decodeRawB _ (by simp)).trans ?_)
  with_unfolding_all exact by0 _
theorem vnarrow (a : Reg) (b : Reg) (c : Reg) : Statement (.vnarrow a b c) := by
  refine And.intro rfl ((decodeRawB _ (by simp)).trans ?_)
  with_unfolding_all exact by0 _
theorem vnarrowExt (a : Reg) (b : Reg) (c : Reg) (imm : BitVec 24) : Statement (.vnarrowExt a b c imm) := by
  refine And.intro rfl ((decodeRawB _ (by simp)).trans ?_)
  with_unfolding_all exact by0 _
theorem vdrop (b : Reg) : Statement (.vdrop b) := by
  refine And.intro rfl ((decodeRawB _ (by simp)).trans ?_)
  with_unfolding_all exact by0 _
theorem vdropExt (b : Reg) : Statement (.vdropExt b) := by
  refine And.intro rfl ((decodeRawB _ (by simp)).trans ?_)
  with_unfolding_all exact by0 _
theorem vpark (k : Reg) (b : Reg) : Statement (.vpark k b) := by
  refine And.intro rfl ((decodeRawB _ (by simp)).trans ?_)
  with_unfolding_all exact by0 _
theorem vparkExt (k : Reg) (b : Reg) : Statement (.vparkExt k b) := by
  refine And.intro rfl ((decodeRawB _ (by simp)).trans ?_)
  with_unfolding_all exact by0 _
theorem vtake (a : Reg) (k : Reg) : Statement (.vtake a k) := by
  refine And.intro rfl ((decodeRawB _ (by simp)).trans ?_)
  with_unfolding_all exact by0 _
theorem vtakeExt (a : Reg) (k : Reg) : Statement (.vtakeExt a k) := by
  refine And.intro rfl ((decodeRawB _ (by simp)).trans ?_)
  with_unfolding_all exact by0 _
theorem pmLook (a : Reg) (b : Reg) : Statement (.pmLook a b) := by
  refine And.intro rfl ((decodeRawC _ (by simp)).trans ?_)
  with_unfolding_all exact by0 _
theorem pmFill (b : Reg) (c : Reg) (i : Fin 256) : Statement (.pmFill b c i) := by
  refine And.intro rfl ((decodeRawC _ (by simp)).trans ?_)
  with_unfolding_all exact (by0 _).trans ((step (descOf_desc _) _))
theorem kvApp (a : Reg) (b : Reg) (c : Reg) (d : Reg) (e : Reg) (n : Fin 256) : Statement (.kvApp a b c d e n) := by
  refine And.intro rfl ((decodeRawC _ (by simp)).trans ?_)
  with_unfolding_all exact (by0 _).trans ((step (descOf_desc _) _))
theorem cairnLook (a : Reg) (b : Reg) (c : Reg) (d : Reg) : Statement (.cairnLook a b c d) := by
  refine And.intro rfl ((decodeRawC _ (by simp)).trans ?_)
  with_unfolding_all exact by0 _
theorem cairnIns (a : Reg) (b : Reg) (c : Reg) (d : Reg) : Statement (.cairnIns a b c d) := by
  refine And.intro rfl ((decodeRawC _ (by simp)).trans ?_)
  with_unfolding_all exact by0 _
theorem cairnRel (a : Reg) (c : Reg) (d : Reg) : Statement (.cairnRel a c d) := by
  refine And.intro rfl ((decodeRawC _ (by simp)).trans ?_)
  with_unfolding_all exact by0 _
theorem admRsv (a : Reg) (b : Reg) (c : Reg) (d : Reg) : Statement (.admRsv a b c d) := by
  refine And.intro rfl ((decodeRawC _ (by simp)).trans ?_)
  with_unfolding_all exact by0 _
theorem admEnd (a : Reg) (b : Reg) : Statement (.admEnd a b) := by
  refine And.intro rfl ((decodeRawC _ (by simp)).trans ?_)
  with_unfolding_all exact by0 _
theorem msgSend (a : Reg) (b : Reg) (c : Reg) (d : Reg) (ord : Order) : Statement (.msgSend a b c d ord) := by
  refine And.intro rfl ((decodeRawC _ (by simp)).trans ?_)
  with_unfolding_all refine (by0 _).trans ?_
  with_unfolding_all exact congrArg (fun ord' => (.ok (.msgSend a b c d ord') : Except Illegal Instr)) (Order.ofCode_code _)
theorem mig (a : Reg) (b : Reg) : Statement (.mig a b) := by
  refine And.intro rfl ((decodeRawC _ (by simp)).trans ?_)
  with_unfolding_all exact by0 _
theorem migRet (a : Reg) : Statement (.migRet a) := by
  refine And.intro rfl ((decodeRawC _ (by simp)).trans ?_)
  with_unfolding_all exact by0 _
theorem mxLdw (n : Fin 256) (b : Reg) (c : Reg) : Statement (.mxLdw n b c) := by
  refine And.intro rfl ((decodeRawD _ (by simp)).trans ?_)
  with_unfolding_all exact (by0 _).trans ((step (descOf_desc _) _))
theorem mxSwap : Statement (.mxSwap) := by
  refine And.intro rfl ((decodeRawD _ (by simp)).trans ?_)
  with_unfolding_all exact by0 _
theorem mxSwapExt (n : Fin 256) (ch : Fin 4) (waits : Bool) : Statement (.mxSwapExt n ch waits) := by
  refine And.intro rfl ((decodeRawD _ (by simp)).trans ?_)
  with_unfolding_all refine (by0 _).trans ?_
  with_unfolding_all refine (step (descOf_desc _) _).trans ?_
  with_unfolding_all refine (step (chOfXfn_ch _ _) _).trans ?_
  with_unfolding_all exact congrArg (fun waits' => (.ok (.mxSwapExt n ch waits') : Except Illegal Instr)) (flagOfXfn_ch _ _)
theorem mxStr (a : Reg) (b : Reg) (c : Reg) (n : Fin 256) (z : Bool) (mo : Bool) (blk : Fin 8) : Statement (.mxStr a b c n z mo blk) := by
  refine And.intro rfl ((decodeRawD _ (by simp)).trans ?_)
  with_unfolding_all refine (by0 _).trans ?_
  with_unfolding_all refine (step (descOf_desc _) _).trans ?_
  with_unfolding_all refine (step (zOfF_zmo _ _) _).trans ?_
  with_unfolding_all refine (step (blkOfXfn_blk _) _).trans ?_
  with_unfolding_all exact congrArg (fun mo' => (.ok (.mxStr a b c n z mo' blk) : Except Illegal Instr)) (moBit_zmo _ _)
theorem mxGstr (a : Reg) (b : Reg) (n : Fin 256) (m : Fin 256) (p : Fin 256) (z : Bool) (blk : Fin 8) : Statement (.mxGstr a b n m p z blk) := by
  refine And.intro rfl ((decodeRawD _ (by simp)).trans ?_)
  with_unfolding_all refine (by0 _).trans ?_
  with_unfolding_all refine (step (boolOfF_bit _) _).trans ?_
  with_unfolding_all refine (step (blkOfXfn_blk _) _).trans ?_
  with_unfolding_all exact congrArgThree (fun n' m' p' => (.ok (.mxGstr a b n' m' p' z blk) : Except Illegal Instr)) (desc3N_desc3 _ _ _) (desc3M_desc3 _ _ _) (desc3P_desc3 _ _ _)
theorem accRd (a : Reg) (b : Reg) (c : Reg) (mo : Bool) : Statement (.accRd a b c mo) := by
  refine And.intro rfl ((decodeRawD _ (by simp)).trans ?_)
  with_unfolding_all exact (by0 _).trans ((step (moOfF_mo _) _))
theorem accWr (a : Reg) (b : Reg) (c : Reg) (mo : Bool) : Statement (.accWr a b c mo) := by
  refine And.intro rfl ((decodeRawD _ (by simp)).trans ?_)
  with_unfolding_all exact (by0 _).trans ((step (moOfF_mo _) _))
theorem accClr (a : Reg) : Statement (.accClr a) := by
  refine And.intro rfl ((decodeRawD _ (by simp)).trans ?_)
  with_unfolding_all exact by0 _
theorem accClrExt (a : Reg) (mask : Fin 256) : Statement (.accClrExt a mask) := by
  refine And.intro rfl ((decodeRawD _ (by simp)).trans ?_)
  with_unfolding_all exact (by0 _).trans ((step (maskOfXfn_mask _) _))
theorem epLoad (a : Reg) (b : Reg) : Statement (.epLoad a b) := by
  refine And.intro rfl ((decodeRawD _ (by simp)).trans ?_)
  with_unfolding_all exact by0 _
theorem epRun (a : Reg) (b : Reg) (c : Reg) (d : Reg) (n : Fin 256) (mo : Bool) (rnd : Option Rm) : Statement (.epRun a b c d n mo rnd) := by
  refine And.intro rfl ((decodeRawD _ (by simp)).trans ?_)
  with_unfolding_all refine (by0 _).trans ?_
  with_unfolding_all refine (step (descOf_desc _) _).trans ?_
  with_unfolding_all refine (step (moOfF_mo _) _).trans ?_
  with_unfolding_all exact congrArg (fun rnd' => (.ok (.epRun a b c d n mo rnd') : Except Illegal Instr)) (rndOf_code _)
theorem epWait (a : Reg) : Statement (.epWait a) := by
  refine And.intro rfl ((decodeRawD _ (by simp)).trans ?_)
  with_unfolding_all exact by0 _
theorem smpPen (a : Reg) (b : Reg) (c : Reg) (d : Reg) (n : Fin 256) : Statement (.smpPen a b c d n) := by
  refine And.intro rfl ((decodeRawE _ (by simp)).trans ?_)
  with_unfolding_all exact (by0 _).trans ((step (descOf_desc _) _))
theorem smpTemp (a : Reg) (c : Reg) (n : Fin 256) : Statement (.smpTemp a c n) := by
  refine And.intro rfl ((decodeRawE _ (by simp)).trans ?_)
  with_unfolding_all exact (by0 _).trans ((step (descOf_desc _) _))
theorem smpGum (a : Reg) (b : Reg) (d : Reg) (n : Fin 256) : Statement (.smpGum a b d n) := by
  refine And.intro rfl ((decodeRawE _ (by simp)).trans ?_)
  with_unfolding_all exact (by0 _).trans ((step (descOf_desc _) _))
theorem smpTop (a : Reg) (d : Reg) (n : Fin 256) (sc : Scope) : Statement (.smpTop a d n sc) := by
  refine And.intro rfl ((decodeRawE _ (by simp)).trans ?_)
  with_unfolding_all refine (by0 _).trans ?_
  with_unfolding_all refine (step (descOf_desc _) _).trans ?_
  with_unfolding_all exact congrArg (fun sc' => (.ok (.smpTop a d n sc') : Except Illegal Instr)) (Scope.ofCode_code _)
theorem smpTopp (a : Reg) (b : Reg) (c : Reg) (d : Reg) (n : Fin 256) (sc : Scope) : Statement (.smpTopp a b c d n sc) := by
  refine And.intro rfl ((decodeRawE _ (by simp)).trans ?_)
  with_unfolding_all refine (by0 _).trans ?_
  with_unfolding_all refine (step (descOf_desc _) _).trans ?_
  with_unfolding_all exact congrArg (fun sc' => (.ok (.smpTopp a b c d n sc') : Except Illegal Instr)) (Scope.ofCode_code _)
theorem smpStep (a : Reg) (b : Reg) (c : Reg) : Statement (.smpStep a b c) := by
  refine And.intro rfl ((decodeRawE _ (by simp)).trans ?_)
  with_unfolding_all exact by0 _
theorem smpDraft (a : Reg) (b : Reg) (c : Reg) : Statement (.smpDraft a b c) := by
  refine And.intro rfl ((decodeRawE _ (by simp)).trans ?_)
  with_unfolding_all exact by0 _
theorem smpVer (a : Reg) (b : Reg) (c : Reg) : Statement (.smpVer a b c) := by
  refine And.intro rfl ((decodeRawE _ (by simp)).trans ?_)
  with_unfolding_all exact by0 _
theorem sumRed (a : Reg) (b : Reg) (op : SumOp) (fmt : Fmt) (sc : Scope) : Statement (.sumRed a b op fmt sc) := by
  refine And.intro rfl ((decodeRawE _ (by simp)).trans ?_)
  with_unfolding_all refine (by0 _).trans ?_
  with_unfolding_all refine (step (SumOp.ofCode_code _) _).trans ?_
  with_unfolding_all refine (step (Fmt.ofCode_code _) _).trans ?_
  with_unfolding_all exact congrArg (fun sc' => (.ok (.sumRed a b op fmt sc') : Except Illegal Instr)) (Scope.ofCode_code _)
theorem sumBc (a : Reg) (b : Reg) (sc : Scope) : Statement (.sumBc a b sc) := by
  refine And.intro rfl ((decodeRawE _ (by simp)).trans ?_)
  with_unfolding_all refine (by0 _).trans ?_
  with_unfolding_all exact congrArg (fun sc' => (.ok (.sumBc a b sc') : Except Illegal Instr)) (Scope.ofCode_code _)
theorem tokMap (a : Reg) (b : Reg) (k : Fin 16) : Statement (.tokMap a b k) := by
  refine And.intro rfl ((decodeRawE _ (by simp)).trans ?_)
  with_unfolding_all exact (by0 _).trans ((step (mapOf_map _) _))
theorem tokBind (a : Reg) (b : Reg) (c : Reg) : Statement (.tokBind a b c) := by
  refine And.intro rfl ((decodeRawE _ (by simp)).trans ?_)
  with_unfolding_all exact by0 _
theorem fetchServe (unit : Nat) : Statement (.fetchServe unit) := rfl
theorem operationComplete (core : Nat) (slot : Nat) : Statement (.operationComplete core slot) := rfl
theorem barrierComplete (team : Nat) (scope : Scope) (extent : Nat) (remote : List RemoteMember) : Statement (.barrierComplete team scope extent remote) := rfl
theorem fwdHoldComplete (core : Nat) (slot : Nat) : Statement (.fwdHoldComplete core slot) := rfl
theorem launchAdmit (queue : Nat) (entry : Nat) (place : List Nat) : Statement (.launchAdmit queue entry place) := rfl
theorem teamComplete (team : Nat) : Statement (.teamComplete team) := rfl
theorem grantRound (core : Nat) : Statement (.grantRound core) := rfl
theorem weightRestore (island : Nat) (cls : Nat) (weight : Nat) : Statement (.weightRestore island cls weight) := rfl
theorem sliceBoundary (leave : List Nat) (enter : List Nat) : Statement (.sliceBoundary leave enter) := rfl
theorem contextPreempt (core : Nat) (slot : Nat) : Statement (.contextPreempt core slot) := rfl
theorem spawnArrival (core : Nat) : Statement (.spawnArrival core) := rfl
theorem trapNoticeRun (core : Nat) : Statement (.trapNoticeRun core) := rfl
theorem completionNotice (core : Nat) (slot : Nat) : Statement (.completionNotice core slot) := rfl
theorem messageRun (core : Nat) : Statement (.messageRun core) := rfl
theorem copyDelivery (core : Nat) (ch : Fin 4) : Statement (.copyDelivery core ch) := rfl
theorem moraineFree (domain : Nat) (granule : Nat) : Statement (.moraineFree domain granule) := rfl
theorem scrub (item : Nat) : Statement (.scrub item) := rfl
theorem coveredAllocation (core : Nat) (slot : Nat) : Statement (.coveredAllocation core slot) := rfl
theorem epilogueRow (core : Nat) : Statement (.epilogueRow core) := rfl
theorem doorbell (func : Nat) (queue : Nat) (count : BitVec 64) : Statement (.doorbell func queue count) := rfl
theorem intakeEntry (queue : Nat) : Statement (.intakeEntry queue) := rfl
theorem stampRetry (queue : Nat) : Statement (.stampRetry queue) := rfl
theorem intakeSlotAssign (core : Nat) : Statement (.intakeSlotAssign core) := rfl
theorem placementExchange (first : Nat) (second : Nat) : Statement (.placementExchange first second) := rfl
theorem nop (queue : Nat) (entry : Nat) : Statement (.nop queue entry) := rfl
theorem launch (queue : Nat) (entry : Nat) : Statement (.launch queue entry) := rfl
theorem wait (queue : Nat) (entry : Nat) : Statement (.wait queue entry) := rfl
theorem waitSatisfied (queue : Nat) (entry : Nat) : Statement (.waitSatisfied queue entry) := rfl
theorem signal (queue : Nat) (entry : Nat) : Statement (.signal queue entry) := rfl
theorem queueFence (queue : Nat) (entry : Nat) : Statement (.queueFence queue entry) := rfl
theorem bind (queue : Nat) (entry : Nat) : Statement (.bind queue entry) := rfl
theorem swap (queue : Nat) (entry : Nat) : Statement (.swap queue entry) := rfl
theorem unbind (queue : Nat) (entry : Nat) : Statement (.unbind queue entry) := rfl
theorem bias (queue : Nat) (entry : Nat) : Statement (.bias queue entry) := rfl
theorem sample (queue : Nat) (entry : Nat) : Statement (.sample queue entry) := rfl
theorem domcfg (queue : Nat) (entry : Nat) : Statement (.domcfg queue entry) := rfl
theorem qcfgWrite (queue : Nat) (value : BitVec 128) : Statement (.qcfgWrite queue value) := rfl
theorem registerWrite (func : Nat) (offset : Nat) (value : BitVec 64) : Statement (.registerWrite func offset value) := rfl
theorem eventWrite (func : Nat) : Statement (.eventWrite func) := rfl
theorem eventReply (func : Nat) (reply : BitVec 256) : Statement (.eventReply func reply) := rfl
theorem intakeWindowWrite (func : Nat) (queue : Nat) (entry : BitVec 1024) : Statement (.intakeWindowWrite func queue entry) := rfl
theorem segmentWindowAccess (func : Nat) (offset : Nat) (size : Nat) (data : Option (List (BitVec 8))) : Statement (.segmentWindowAccess func offset size data) := rfl
theorem hostMemAccess (address : Nat) (size : Nat) (data : Option (List (BitVec 8))) : Statement (.hostMemAccess address size data) := rfl
theorem shootdownTranslation (fromHost : Bool) (page : Nat) (count : Nat) : Statement (.shootdownTranslation fromHost page count) := rfl
theorem shootdownRights (fromHost : Bool) (domain : Nat) : Statement (.shootdownRights fromHost domain) := rfl
theorem shootdownComplete : Statement (.shootdownComplete) := rfl
theorem pageMove (request : BitVec 128) : Statement (.pageMove request) := rfl
theorem pageIn (ticket : Nat) : Statement (.pageIn ticket) := rfl
theorem keyCreate (handle : BitVec 32) : Statement (.keyCreate handle) := rfl
theorem keyDestroy (handle : BitVec 32) : Statement (.keyDestroy handle) := rfl
theorem keyQuery (handle : BitVec 32) : Statement (.keyQuery handle) := rfl
theorem packageReset (verified : List Nat) : Statement (.packageReset verified) := rfl
theorem firmwareUpdate (length : BitVec 64) (versions : Nat × Nat) (dies : List Nat) :
    Statement (.firmwareUpdate length versions dies) := rfl
theorem firmwareDieUpdate (verified : Bool) : Statement (.firmwareDieUpdate verified) := rfl
theorem preset (value : BitVec 64) : Statement (.preset value) := rfl
theorem launchTimeLimit (team : Nat) : Statement (.launchTimeLimit team) := rfl
theorem functionLevelReset (func : Nat) : Statement (.functionLevelReset func) := rfl
theorem meridianInterval (power : List (Nat × Nat)) (temperature : List (Nat × Nat)) : Statement (.meridianInterval power temperature) := rfl
theorem hbmPatrol (corrected : List Nat × Nat) (uncorrected : List Nat × List Nat) :
    Statement (.hbmPatrol corrected uncorrected) := rfl
theorem linkCrcError (retrain : Bool) : Statement (.linkCrcError retrain) := rfl
theorem getVersion : Statement (.getVersion) := rfl
theorem getCapabilities : Statement (.getCapabilities) := rfl
theorem negotiateAlgorithms (offered : List SpdmAlgorithm) : Statement (.negotiateAlgorithms offered) := rfl
theorem getDigests : Statement (.getDigests) := rfl
theorem getCertificate (slot : Nat) (offset : Nat) (length : Nat) : Statement (.getCertificate slot offset length) := rfl
theorem challenge (slot : Nat) (nonce : BitVec 256) : Statement (.challenge slot nonce) := rfl
theorem getMeasurements (request : Nat × Option (Nat × BitVec 256)) : Statement (.getMeasurements request) := rfl
theorem keyExchange (share : BitVec 768) : Statement (.keyExchange share) := rfl
theorem finish (verify : BitVec 384) : Statement (.finish verify) := rfl
theorem heartbeat (session : Nat) : Statement (.heartbeat session) := rfl
theorem keyUpdate (session : Nat) : Statement (.keyUpdate session) := rfl
theorem endSession (session : Nat) : Statement (.endSession session) := rfl
theorem setCertificate (session : Nat) (slot : Nat) (chain : List (BitVec 8)) : Statement (.setCertificate session slot chain) := rfl
theorem setkey (session : Nat) (identifier : Nat) (key : BitVec 512) : Statement (.setkey session identifier key) := rfl
theorem genkey (session : Nat) (identifier : Nat) : Statement (.genkey session identifier) := rfl
theorem dropkey (session : Nat) (identifier : Nat) : Statement (.dropkey session identifier) := rfl
theorem hostVisibility (index : Nat) : Statement (.hostVisibility index) := rfl

end Sys2Proof.Laws.RoundTrip
end

