-- ==== Sys2Proof/Laws/Registers.lean ====
section
/-!
SUPPORT. Cores, contexts and registers: what each accessor reads after each update, and what a register write, a dropped
view and an advance of the program counter leave alone.
-/

namespace Sys2Proof.Machine

set_option Elab.async false

/-! ### Cores -/

@[simp] theorem coreOf_setCore_same (s : State) (c : Nat) (k : Core) : coreOf (setCore s c k) c = k := by
  simp [coreOf, setCore]

theorem coreOf_setCore_other (s : State) (c d : Nat) (k : Core) (h : d ≠ c) : coreOf (setCore s c k) d = coreOf s d := by
  simp [coreOf, setCore, look_put_other _ _ _ _ h]

@[simp] theorem coreOf_onCore_same (s : State) (c : Nat) (f : Core → Core) : coreOf (onCore s c f) c = f (coreOf s c) := by
  simp [onCore]

theorem coreOf_onCore_other (s : State) (c d : Nat) (f : Core → Core) (h : d ≠ c) :
    coreOf (onCore s c f) d = coreOf s d := coreOf_setCore_other s c d _ h

theorem coreOf_onCore (s : State) (c d : Nat) (f : Core → Core) :
    coreOf (onCore s c f) d = if d = c then f (coreOf s c) else coreOf s d := by
  split
  next h => rw [h, coreOf_onCore_same]
  next h => exact coreOf_onCore_other s c d f h

/-- Cores that hold the same map are the same. -/
theorem coreOf_congr (s t : State) (h : t.cores = s.cores) (c : Nat) : coreOf t c = coreOf s c := by
  simp [coreOf, h]

@[simp] theorem coreOf_onDomain (s : State) (d : Nat) (f : Domain → Domain) (c : Nat) :
    coreOf (onDomain s d f) c = coreOf s c := rfl

/-! ### Contexts -/

@[simp] theorem ctxOf_setCtx_same (s : State) (id : CtxId) (x : Context) : ctxOf (setCtx s id x) id = x := by
  simp [ctxOf, setCtx]

theorem ctxOf_setCtx_other (s : State) (id other : CtxId) (x : Context) (h : other ≠ id) :
    ctxOf (setCtx s id x) other = ctxOf s other := by
  unfold ctxOf setCtx
  by_cases hc : other.core = id.core
  · rw [hc, coreOf_onCore_same]
    have hs : other.slot ≠ id.slot := fun hs => h (by cases other; cases id; simp_all)
    simp [look_put_other _ _ _ _ hs]
  · rw [coreOf_onCore_other _ _ _ _ hc]

@[simp] theorem ctxOf_onCtx_same (s : State) (id : CtxId) (f : Context → Context) :
    ctxOf (onCtx s id f) id = f (ctxOf s id) := ctxOf_setCtx_same s id _

theorem ctxOf_onCtx_other (s : State) (id other : CtxId) (f : Context → Context) (h : other ≠ id) :
    ctxOf (onCtx s id f) other = ctxOf s other := ctxOf_setCtx_other s id other _ h

@[simp] theorem ctxOf_onDomain (s : State) (d : Nat) (f : Domain → Domain) (id : CtxId) :
    ctxOf (onDomain s d f) id = ctxOf s id := rfl

/-- An update of a context leaves its core but for the slots, and every other core. -/
theorem coreOf_onCtx (s : State) (id : CtxId) (f : Context → Context) (c : Nat) :
    coreOf (onCtx s id f) c = { coreOf s c with slots := (coreOf (onCtx s id f) c).slots } := by
  unfold onCtx setCtx
  rw [coreOf_onCore]
  split
  next h => rw [h]
  next h => rfl

/-! ### Who runs -/

theorem who_congr (s t : State) (ht : t.turn = s.turn) (hl : ∀ c, (coreOf t c).last = (coreOf s c).last) :
    who t = who s := by
  unfold who
  rw [ht]
  cases s.turn with
  | issue c => simp [hl c]
  | event e => rfl

@[simp] theorem who_onCtx (s : State) (id : CtxId) (f : Context → Context) : who (onCtx s id f) = who s :=
  who_congr _ _ rfl fun c => by rw [coreOf_onCtx]

@[simp] theorem who_onMe (s : State) (f : Context → Context) : who (onMe s f) = who s := who_onCtx s _ f

@[simp] theorem who_onDomain (s : State) (d : Nat) (f : Domain → Domain) : who (onDomain s d f) = who s := rfl

@[simp] theorem me_onMe (s : State) (f : Context → Context) : me (onMe s f) = f (me s) := by
  unfold me
  rw [who_onMe]
  exact ctxOf_onCtx_same s _ f

@[simp] theorem me_onDomain (s : State) (d : Nat) (f : Domain → Domain) : me (onDomain s d f) = me s := rfl

theorem ctxOf_onMe_other (s : State) (f : Context → Context) (id : CtxId) (h : id ≠ who s) :
    ctxOf (onMe s f) id = ctxOf s id := ctxOf_onCtx_other s _ id f h

/-! ### Views -/

/-- What a dropped view leaves: all but the domains' counts. -/
theorem dropView_eq (s : State) (v : Cap) : dropView s v = { s with domains := (dropView s v).domains } := by
  have step : ∀ (t : State) (g : Nat), uncover t g = { t with domains := (uncover t g).domains } := by
    intro t g
    unfold uncover
    split
    · rfl
    · dsimp only
      split <;> rfl
  have all : ∀ (gs : List Nat) (t : State), gs.foldl uncover t = { t with domains := (gs.foldl uncover t).domains } := by
    intro gs
    induction gs with
    | nil => intro t; rfl
    | cons g rest ih =>
      intro t
      have h1 := ih (uncover t g)
      have h2 := step t g
      simp only [List.foldl_cons]
      rw [h1, h2]
  unfold dropView
  split
  · split
    · exact all _ s
    · rfl
  · rfl

theorem dropView_plain (s : State) (v : Cap) (h : isView v = false) : dropView s v = s := by
  unfold dropView
  rw [h]
  rfl

theorem dropView_cores (s : State) (v : Cap) : (dropView s v).cores = s.cores := by rw [dropView_eq]
theorem dropView_turn (s : State) (v : Cap) : (dropView s v).turn = s.turn := by rw [dropView_eq]
theorem dropView_memory (s : State) (v : Cap) : (dropView s v).memory = s.memory := by rw [dropView_eq]

@[simp] theorem coreOf_dropView (s : State) (v : Cap) (c : Nat) : coreOf (dropView s v) c = coreOf s c :=
  coreOf_congr s _ (dropView_cores s v) c

@[simp] theorem ctxOf_dropView (s : State) (v : Cap) (id : CtxId) : ctxOf (dropView s v) id = ctxOf s id := by
  simp [ctxOf]

@[simp] theorem who_dropView (s : State) (v : Cap) : who (dropView s v) = who s :=
  who_congr _ _ (dropView_turn s v) fun c => by simp

@[simp] theorem me_dropView (s : State) (v : Cap) : me (dropView s v) = me s := by simp [me]

/-! ### The registers of a context -/

@[simp] theorem regOf_zero (x : Context) : regOf x 0 = Cap.null := rfl

theorem regOf_putReg_same (x : Context) (n : Nat) (v : Cap) (h : n ≠ 0) : regOf (putReg x n v) n = v := by
  unfold putReg
  rw [if_neg h]
  split
  next hs => simp [regOf, h, hs]
  next hs => simp only [regOf, h, if_false, hs, lookD_putD_same]

theorem regOf_putReg_other (x : Context) (n m : Nat) (v : Cap) (h : m ≠ n) : regOf (putReg x n v) m = regOf x m := by
  unfold putReg
  split
  · rfl
  · split
    next hs =>
      unfold regOf
      split
      · rfl
      · split
        next hm =>
          have : m - 56 ≠ n - 56 := by omega
          rw [lookD_putD_other _ _ _ _ _ _ this]
        next hm => simp_all
    next hs =>
      unfold regOf
      split
      · rfl
      · split
        · simp_all
        · rw [lookD_putD_other _ _ _ _ _ _ h]

/-- What writing a register leaves of a context. -/
theorem putReg_eq (x : Context) (n : Nat) (v : Cap) :
    putReg x n v = { x with regs := (putReg x n v).regs, shadow := (putReg x n v).shadow } := by
  unfold putReg
  split
  · rfl
  · split <;> rfl

/-! ### Register writes (R217) -/

theorem writeCap_zero (v : Cap) (s : State) : writeCap 0 v s = dropView s v := rfl

theorem writeCap_nonzero (n : Reg) (v : Cap) (s : State) (h : n ≠ 0) :
    writeCap n v s = onMe (dropView s (reg s n)) fun x => putReg x n.val v := by
  have hn : n.val ≠ 0 := fun e => h (Fin.ext e)
  unfold writeCap writeCapIn onMe
  rw [if_neg hn, who_dropView]
  rfl

@[simp] theorem who_writeCap (n : Reg) (v : Cap) (s : State) : who (writeCap n v s) = who s := by
  by_cases h : n = 0
  · subst h; rw [writeCap_zero, who_dropView]
  · rw [writeCap_nonzero n v s h, who_onMe, who_dropView]

theorem me_writeCap (n : Reg) (v : Cap) (s : State) : me (writeCap n v s) = putReg (me s) n.val v := by
  by_cases h : n = 0
  · subst h; rw [writeCap_zero, me_dropView]; rfl
  · rw [writeCap_nonzero n v s h, me_onMe, me_dropView]

theorem writeInt_zero (w x : Nat) (s : State) : writeInt 0 w x s = s := rfl

theorem writeInt_nonzero (n : Reg) (w x : Nat) (s : State) (h : n ≠ 0) :
    writeInt n w x s = writeCap n (Cap.plain (BitVec.ofNat 128 (x % 2 ^ w))) s := by
  have hn : n.val ≠ 0 := fun e => h (Fin.ext e)
  unfold writeInt writeIntIn
  rw [if_neg hn]
  rfl

/-- A register write leaves memory alone. -/
theorem writeCap_memory (n : Reg) (v : Cap) (s : State) : (writeCap n v s).memory = s.memory := by
  by_cases h : n = 0
  · subst h; rw [writeCap_zero, dropView_memory]
  · rw [writeCap_nonzero n v s h, onMe_memory, dropView_memory]

theorem writeInt_memory (n : Reg) (w x : Nat) (s : State) : (writeInt n w x s).memory = s.memory := by
  by_cases h : n = 0
  · subst h; rfl
  · rw [writeInt_nonzero n w x s h, writeCap_memory]

/-! ### The program counter (R218) -/

@[simp] theorem who_advance (n : Nat) (s : State) : who (advance n s) = who s := who_onMe s _

theorem me_advance (n : Nat) (s : State) : me (advance n s) = { me s with code := codeAt s n } := me_onMe s _

@[simp] theorem reg_advance (n : Nat) (s : State) (r : Reg) : reg (advance n s) r = reg s r := by
  unfold reg
  rw [me_advance]
  rfl

/-! ### Outcomes -/

theorem finish_ok (m : Act Unit) (s t : State) (h : m s = .ok ((), t)) : finish m s = .next t := by
  unfold finish
  rw [h]

theorem finish_trap (m : Act Unit) (s : State) (t : Trap) (h : m s = .error (.trap t)) :
    finish m s = .next (deliverTrap t s) := by
  unfold finish
  rw [h]

theorem finish_hold (m : Act Unit) (s : State) (w : Wait) (h : m s = .error (.hold w)) :
    finish m s = .next (onMe s fun x => { x with wait := w, holding := mustComplete w }) := by
  unfold finish
  rw [h]

theorem finish_done (m : Act Unit) (s t : State) (h : m s = .error (.done t)) : finish m s = .next t := by
  unfold finish
  rw [h]

/-- Everything that a meaning of the issuing context can end in: it goes on, or the machine stops with the fault that it
names; it never refuses. -/
theorem finish_cases (m : Act Unit) (s : State) :
    (∃ t, finish m s = .next t) ∨ ∃ f, m s = .error (.fault f) ∧ finish m s = .fault f := by
  unfold finish
  split
  · exact .inl ⟨_, rfl⟩
  · exact .inl ⟨_, rfl⟩
  · exact .inl ⟨_, rfl⟩
  · exact .inl ⟨_, rfl⟩
  · exact .inl ⟨_, rfl⟩
  · exact .inl ⟨_, rfl⟩
  next f h => exact .inr ⟨f, h, rfl⟩

theorem quick_ok (len : Nat) (m : Act Unit) (s t : State) (h : m s = .ok ((), t)) : quick len m s = .next (advance len t) := by
  apply finish_ok
  show (m >>= fun _ => modify (advance len)) s = _
  simp only [bind, StateT.bind, h]
  rfl

theorem quick_trap (len : Nat) (m : Act Unit) (s : State) (t : Trap) (h : m s = .error (.trap t)) :
    quick len m s = .next (deliverTrap t s) := by
  apply finish_trap
  show (m >>= fun _ => modify (advance len)) s = _
  simp only [bind, StateT.bind, h]
  rfl

theorem slow_ok (len : Nat) (m : Act Unit) (s t : State) (h : m s = .ok ((), t)) :
    slow len m s = .next (outOfRotation (advance len t)) := by
  apply finish_ok
  show (m >>= fun _ => (modify (advance len) >>= fun _ => modify outOfRotation)) s = _
  simp only [bind, StateT.bind, h]
  rfl

theorem slow_trap (len : Nat) (m : Act Unit) (s : State) (t : Trap) (h : m s = .error (.trap t)) :
    slow len m s = .next (deliverTrap t s) := by
  apply finish_trap
  show (m >>= fun _ => (modify (advance len) >>= fun _ => modify outOfRotation)) s = _
  simp only [bind, StateT.bind, h]
  rfl

theorem slow_hold (len : Nat) (m : Act Unit) (s : State) (w : Wait) (h : m s = .error (.hold w)) :
    slow len m s = .next (onMe s fun x => { x with wait := w, holding := mustComplete w }) := by
  apply finish_hold
  show (m >>= fun _ => (modify (advance len) >>= fun _ => modify outOfRotation)) s = _
  simp only [bind, StateT.bind, h]
  rfl

/-- An instruction that acts in issue order, and ends: its context leaves the instructions that are held. -/
theorem ordered_ok (keeps fills : Bool) (len : Nat) (m : Act Unit) (s t : State) {checks : List (Act (List Nat))}
    (h : m s = .ok ((), t)) : ordered keeps fills len m s checks =
      .next ((fun u => onCore u (who u).core (leaveHeld (who u).slot)) (outOfRotation (advance len t))) := by
  simp only [ordered, finish, bind, StateT.bind, h]
  rfl

theorem ordered_trap (keeps fills : Bool) (len : Nat) (m : Act Unit) (s : State) (t : Trap)
    {checks : List (Act (List Nat))} (h : m s = .error (.trap t)) :
    ordered keeps fills len m s checks = .next (deliverTrap t s) := by
  simp only [ordered, finish, bind, StateT.bind, h]
  rfl

theorem ordered_hold (keeps fills : Bool) (len : Nat) (m : Act Unit) (s : State) (w : Wait)
    {checks : List (Act (List Nat))} (h : m s = .error (.hold w)) :
    ordered keeps fills len m s checks = .next (standHeld keeps fills (withReach (checkedGranules checks s)) w s) := by
  simp only [ordered, bind, StateT.bind, h]
  rfl

theorem access_ok (len : Nat) (x : MemX) (m : Act Unit) (s t : State) (h : m s = .ok ((), t)) :
    access len x m s = .next (afterAccess x (advance len t)) := by
  apply finish_ok
  show (m >>= fun _ => (modify (advance len) >>= fun _ => modify (afterAccess x))) s = _
  simp only [bind, StateT.bind, h]
  rfl

theorem access_trap (len : Nat) (x : MemX) (m : Act Unit) (s : State) (t : Trap) (h : m s = .error (.trap t)) :
    access len x m s = .next (deliverTrap t s) := by
  apply finish_trap
  show (m >>= fun _ => (modify (advance len) >>= fun _ => modify (afterAccess x))) s = _
  simp only [bind, StateT.bind, h]
  rfl

/-! ### Parts of a meaning -/

@[simp] theorem act_pure {α : Type} (a : α) (s : State) : (pure a : Act α) s = .ok (a, s) := rfl
@[simp] theorem act_get (s : State) : (get : Act State) s = .ok (s, s) := rfl
@[simp] theorem act_set (s t : State) : (set t : Act Unit) s = .ok ((), t) := rfl
@[simp] theorem act_modify (f : State → State) (s : State) : (modify f : Act Unit) s = .ok ((), f s) := rfl
@[simp] theorem act_stop {α : Type} (e : Stop) (s : State) : (stop e : Act α) s = .error e := rfl
@[simp] theorem act_raise {α : Type} (c i : Nat) (s : State) : (raise c i : Act α) s = .error (.trap ⟨c, i, 0⟩) := rfl
@[simp] theorem act_hold {α : Type} (w : Wait) (s : State) : (hold w : Act α) s = .error (.hold w) := rfl
@[simp] theorem act_require_true (c i : Nat) (s : State) : (require true c i) s = .ok ((), s) := rfl
@[simp] theorem act_require_false (c i : Nat) (s : State) : (require false c i) s = .error (.trap ⟨c, i, 0⟩) := rfl

theorem act_bind_ok {α β : Type} (m : Act α) (f : α → Act β) (s t : State) (a : α) (h : m s = .ok (a, t)) :
    (m >>= f) s = f a t := by
  simp only [bind, StateT.bind, h]
  rfl

theorem act_bind_error {α β : Type} (m : Act α) (f : α → Act β) (s : State) (e : Stop) (h : m s = .error e) :
    (m >>= f) s = .error e := by
  simp only [bind, StateT.bind, h]
  rfl

/-- A sequence that answers: its first part answered, and its second from there. -/
theorem act_bind_inv {α β : Type} (m : Act α) (f : α → Act β) (s u : State) (b : β) (h : (m >>= f) s = .ok (b, u)) :
    ∃ a t, m s = .ok (a, t) ∧ f a t = .ok (b, u) := by
  match hm : m s with
  | .ok (a, t) => exact ⟨a, t, rfl, by rw [← h, act_bind_ok m f s t a hm]⟩
  | .error e => rw [act_bind_error m f s e hm] at h; cases h

end Sys2Proof.Machine
end

