-- ==== Sys2Proof/Safety.lean ====
section
/-!
DEFINITION. What a safe run is: one that ends in no fault and no refusal, and whose memory keeps its canonical form.
-/

namespace Sys2Proof

/-- An outcome that goes on. -/
def goesOn : Host.Outcome Machine.State Machine.Fault Machine.Refusal → Bool
  | .next _ => true
  | .fault _ => false
  | .refused _ => false

/-- The machine's memory is in canonical form. -/
def MemoryInv (s : Machine.State) : Prop := s.memory.wf = true

/-- `k` steps from `s` go on. -/
def SafeFor (k : Nat) (s : Machine.State) : Prop := goesOn (core.run k s) = true

end Sys2Proof
end

