-- ==== Sys2Proof/Tests/Slice0.lean ====
section
/-!
SUPPORT. The model's own tests: the well-formedness smoke, words written out from the encoding tables of
06_encoding.md and the field lists of each instruction, single steps whose expected values are the manual's, and a
witness of the hypotheses of every statement.
-/

namespace Sys2Proof.Tests

set_option Elab.async false

/-- Each list of words decodes to the instruction beside it, which breaks no limit, and nothing is left over. -/
abbrev Read (l : List (List Nat × Instr)) : Prop :=
  ∀ p ∈ l, (decode (wordBytes p.1)).toOption = some (p.2, []) ∧ p.2.check = none

/-- Every term of the list breaks the limit beside it first. -/
def Refused (l : List (Instr × Illegal)) : Bool := l.all fun p => p.1.check == some p.2

/-! ### Ill-formed terms, one for each limit (R183 to R192 and the instruction descriptions) -/

theorem test_illFormedBranches : Refused [
    (.jal 0 0, .register),
    (.jalExt 0 0, .register),
    (.jalr 0 4, .register),
    (.bm 16 .any 0, .register)] = true := by decide +kernel

theorem test_illFormedControl : Refused [
    (.start 2 4 61 .none, .argumentRun),
    (.spawn 2 4 61 1 0, .argumentRun),
    (.bar .host, .scope),
    (.semSig 32, .register),
    (.semWait 32, .register),
    (.srd 2 3, .specialRegister),
    (.srd 2 7, .specialRegister),
    (.srd 2 19, .specialRegister),
    (.srd 2 23, .specialRegister),
    (.srd 2 29, .specialRegister),
    (.srd 2 31, .specialRegister),
    (.srd 2 35, .specialRegister),
    (.swr 3 4, .specialRegister),
    (.swr 7 4, .specialRegister),
    (.swr 19 4, .specialRegister),
    (.swr 23 4, .specialRegister),
    (.swr 29 4, .specialRegister),
    (.swr 31 4, .specialRegister),
    (.swr 35 4, .specialRegister)] = true := by decide +kernel

theorem test_illFormedVectorArithmetic : Refused [
    (.vadd 2 4 6 .e4m3, .format),
    (.vaddExt 2 4 6 false ⟨.e4m3, some .rne, .all, .none⟩, .format),
    (.vaddExt 2 4 6 false ⟨.s8, some .rtz, .all, .none⟩, .rounding),
    (.vaddExt 2 4 6 false ⟨.s8, none, .all, .none⟩, .rounding),
    (.vaddExt 2 4 6 true ⟨.f32, some .rne, .all, .none⟩, .function),
    (.vsub 2 4 6 .e4m3, .format),
    (.vsubExt 2 4 6 false ⟨.e4m3, some .rne, .all, .none⟩, .format),
    (.vsubExt 2 4 6 false ⟨.s8, some .rtz, .all, .none⟩, .rounding),
    (.vsubExt 2 4 6 false ⟨.s8, none, .all, .none⟩, .rounding),
    (.vsubExt 2 4 6 true ⟨.f32, some .rne, .all, .none⟩, .function),
    (.vmul 2 4 6 .e4m3, .format),
    (.vmulExt 2 4 6 false ⟨.e4m3, some .rne, .all, .none⟩, .format),
    (.vmulExt 2 4 6 false ⟨.s8, some .rtz, .all, .none⟩, .rounding),
    (.vmulExt 2 4 6 false ⟨.s8, none, .all, .none⟩, .rounding),
    (.vmulExt 2 4 6 true ⟨.f32, some .rne, .all, .none⟩, .function),
    (.vfma 2 4 6 .s32, .format),
    (.vfmaExt 2 4 6 ⟨.s32, some .rne, .all, .none⟩, .format),
    (.vmin 2 4 6 .e4m3, .format),
    (.vminExt 2 4 6 ⟨.e4m3, some .rne, .all, .none⟩, .format),
    (.vminExt 2 4 6 ⟨.f32, some .rtz, .all, .none⟩, .rounding),
    (.vminExt 2 4 6 ⟨.f32, none, .all, .none⟩, .rounding),
    (.vmax 2 4 6 .e4m3, .format),
    (.vmaxExt 2 4 6 ⟨.e4m3, some .rne, .all, .none⟩, .format),
    (.vmaxExt 2 4 6 ⟨.f32, some .rtz, .all, .none⟩, .rounding),
    (.vmaxExt 2 4 6 ⟨.f32, none, .all, .none⟩, .rounding),
    (.vabs 2 4 .e4m3, .format),
    (.vabsExt 2 4 false ⟨.e4m3, some .rne, .all, .none⟩, .format),
    (.vabsExt 2 4 false ⟨.f32, some .rtz, .all, .none⟩, .rounding),
    (.vabsExt 2 4 false ⟨.f32, none, .all, .none⟩, .rounding),
    (.vabsExt 2 4 false ⟨.f32, some .rne, .all, .opC 1⟩, .index)] = true := by decide +kernel

theorem test_illFormedVectorArithmeticB : Refused [
    (.vabsExt 2 4 true ⟨.f32, some .rne, .all, .none⟩, .function),
    (.vneg 2 4 .e4m3, .format),
    (.vnegExt 2 4 false ⟨.e4m3, some .rne, .all, .none⟩, .format),
    (.vnegExt 2 4 false ⟨.f32, some .rtz, .all, .none⟩, .rounding),
    (.vnegExt 2 4 false ⟨.f32, none, .all, .none⟩, .rounding),
    (.vnegExt 2 4 false ⟨.f32, some .rne, .all, .opC 1⟩, .index),
    (.vnegExt 2 4 true ⟨.f32, some .rne, .all, .none⟩, .function),
    (.vdiv 2 4 6 .s32, .format),
    (.vdivExt 2 4 6 ⟨.s32, some .rne, .all, .none⟩, .format),
    (.vsqrt 2 4 .s32, .format),
    (.vsqrtExt 2 4 ⟨.s32, some .rne, .all, .none⟩, .format),
    (.vsqrtExt 2 4 ⟨.f32, some .rne, .all, .opC 1⟩, .index),
    (.vrsqrt 2 4 .s32, .format),
    (.vrsqrtExt 2 4 ⟨.s32, some .rne, .all, .none⟩, .format),
    (.vrsqrtExt 2 4 ⟨.f32, some .rne, .all, .opC 1⟩, .index),
    (.vexp 2 4 .s32, .format),
    (.vexpExt 2 4 ⟨.s32, some .rne, .all, .none⟩, .format),
    (.vexpExt 2 4 ⟨.f32, some .rne, .all, .opC 1⟩, .index),
    (.vlog 2 4 .s32, .format),
    (.vlogExt 2 4 ⟨.s32, some .rne, .all, .none⟩, .format),
    (.vlogExt 2 4 ⟨.f32, some .rne, .all, .opC 1⟩, .index),
    (.vsig 2 4 .s32, .format),
    (.vsigExt 2 4 ⟨.s32, some .rne, .all, .none⟩, .format),
    (.vsigExt 2 4 ⟨.f32, some .rne, .all, .opC 1⟩, .index),
    (.vtanh 2 4 .s32, .format),
    (.vtanhExt 2 4 ⟨.s32, some .rne, .all, .none⟩, .format),
    (.vtanhExt 2 4 ⟨.f32, some .rne, .all, .opC 1⟩, .index),
    (.vaddcExt 2 4 ⟨.bf16, some .rne, .all, .none⟩, .format),
    (.vaddcExt 2 4 ⟨.f32, some .rtz, .all, .none⟩, .rounding),
    (.vaddcExt 2 4 ⟨.f32, none, .all, .none⟩, .rounding)] = true := by decide +kernel

theorem test_illFormedVectorArithmeticC : Refused [
    (.vaddcExt 2 4 ⟨.f32, some .rne, .all, .opC 1⟩, .index)] = true := by decide +kernel

theorem test_illFormedVectorLogic : Refused [
    (.vand 2 4 6 .mo, .format),
    (.vandExt 2 4 6 ⟨.mo, some .rne, .all, .none⟩, .format),
    (.vandExt 2 4 6 ⟨.f32, some .rtz, .all, .none⟩, .rounding),
    (.vandExt 2 4 6 ⟨.f32, none, .all, .none⟩, .rounding),
    (.vor 2 4 6 .mo, .format),
    (.vorExt 2 4 6 ⟨.mo, some .rne, .all, .none⟩, .format),
    (.vorExt 2 4 6 ⟨.f32, some .rtz, .all, .none⟩, .rounding),
    (.vorExt 2 4 6 ⟨.f32, none, .all, .none⟩, .rounding),
    (.vxor 2 4 6 .mo, .format),
    (.vxorExt 2 4 6 ⟨.mo, some .rne, .all, .none⟩, .format),
    (.vxorExt 2 4 6 ⟨.f32, some .rtz, .all, .none⟩, .rounding),
    (.vxorExt 2 4 6 ⟨.f32, none, .all, .none⟩, .rounding),
    (.vshl 2 4 6 .f32, .format),
    (.vshlExt 2 4 6 ⟨.f32, some .rne, .all, .none⟩, .format),
    (.vshlExt 2 4 6 ⟨.s32, some .rtz, .all, .none⟩, .rounding),
    (.vshlExt 2 4 6 ⟨.s32, none, .all, .none⟩, .rounding),
    (.vshr 2 4 6 .f32, .format),
    (.vshrExt 2 4 6 ⟨.f32, some .rne, .all, .none⟩, .format),
    (.vshrExt 2 4 6 ⟨.s32, some .rtz, .all, .none⟩, .rounding),
    (.vshrExt 2 4 6 ⟨.s32, none, .all, .none⟩, .rounding),
    (.vsra 2 4 6 .n8, .format),
    (.vsraExt 2 4 6 ⟨.n8, some .rne, .all, .none⟩, .format),
    (.vsraExt 2 4 6 ⟨.s8, some .rtz, .all, .none⟩, .rounding),
    (.vsraExt 2 4 6 ⟨.s8, none, .all, .none⟩, .rounding),
    (.vsel 2 4 6 .mo, .format),
    (.vselExt 2 4 6 ⟨.mo, some .rne, .all, .none⟩, .format),
    (.vselExt 2 4 6 ⟨.f32, some .rtz, .all, .none⟩, .rounding),
    (.vselExt 2 4 6 ⟨.f32, none, .all, .none⟩, .rounding),
    (.vmov 2 4 .mo, .format),
    (.vmovExt 2 4 ⟨.mo, some .rne, .all, .none⟩, .format)] = true := by decide +kernel

theorem test_illFormedVectorLogicB : Refused [
    (.vmovExt 2 4 ⟨.f32, some .rtz, .all, .none⟩, .rounding),
    (.vmovExt 2 4 ⟨.f32, none, .all, .none⟩, .rounding),
    (.vmovExt 2 4 ⟨.f32, some .rne, .all, .opC 1⟩, .index),
    (.vdot 2 4 6 .f32, .format),
    (.vdotExt 2 4 6 ⟨.f32, some .rne, .all, .none⟩, .format),
    (.vdotExt 2 4 6 ⟨.s8, some .rtz, .all, .none⟩, .rounding),
    (.vdotExt 2 4 6 ⟨.s8, none, .all, .none⟩, .rounding),
    (.vcvt 2 4 0 .f32 ⟨.mo, some .rne, .all, .none⟩, .format),
    (.vcvt 2 4 0 .f32 ⟨.f32, some .rne, .all, .opC 1⟩, .index),
    (.vcvt 2 4 0 .mo ⟨.f32, some .rne, .all, .none⟩, .format),
    (.vcvt 2 4 1 .f32 ⟨.f32, some .rne, .all, .none⟩, .part),
    (.vcvt 2 4 4 .s8 ⟨.f32, some .rne, .all, .none⟩, .part),
    (.vcvt 2 4 4 .f32 ⟨.s8, some .rne, .all, .none⟩, .part),
    (.vpack 2 1 4 .mx 0 ⟨.f32, some .rne, .all, .none⟩, .format),
    (.vpack 2 1 4 .mx 0 ⟨.e4m3, some .rne, ⟨true, 0⟩, .none⟩, .mask),
    (.vpack 2 1 4 .mx 0 ⟨.e4m3, some .rne, ⟨false, 1⟩, .none⟩, .mask),
    (.vpack 2 1 4 .mx 0 ⟨.e4m3, some .rne, .all, .opC 1⟩, .index),
    (.vpack 2 1 4 .mx 4 ⟨.e4m3, some .rne, .all, .none⟩, .part),
    (.vunpk 2 1 4 .mx 0 ⟨.f32, some .rne, .all, .none⟩, .format),
    (.vunpk 2 1 4 .mx 0 ⟨.e4m3, some .rne, .all, .opC 1⟩, .index),
    (.vunpk 2 1 4 .mx 4 ⟨.e4m3, some .rne, .all, .none⟩, .part),
    (.vcmp 2 4 6 .eq ⟨.bf16, some .rne, .all, .none⟩, .format),
    (.vcmp 2 4 6 .eq ⟨.f32, some .rtz, .all, .none⟩, .rounding),
    (.vcmp 2 4 6 .eq ⟨.f32, none, .all, .none⟩, .rounding),
    (.vcmp 2 4 6 .eq ⟨.f32, some .rne, .all, .opA 1⟩, .index),
    (.vcmp 16 4 6 .eq ⟨.f32, some .rne, .all, .none⟩, .register),
    (.vcmp 2 4 6 .uno ⟨.s32, some .rne, .all, .none⟩, .function),
    (.vcmp 2 4 6 .ord ⟨.s32, some .rne, .all, .none⟩, .function),
    (.mskl 16 4 6 .and, .register),
    (.mskl 2 16 6 .and, .register)] = true := by decide +kernel

theorem test_illFormedVectorLogicC : Refused [
    (.mskl 2 4 16 .and, .register),
    (.mskl 2 4 6 .not, .register),
    (.mskp 2 16 .popc, .register),
    (.msks 16 0, .register),
    (.msksExt 16 0 .set, .register)] = true := by decide +kernel

theorem test_illFormedVectorMovement : Refused [
    (.vred 2 4 .sum ⟨.e4m3, some .rne, .all, .none⟩, .format),
    (.vred 2 4 .max ⟨.f32, some .rtz, .all, .none⟩, .rounding),
    (.vred 2 4 .max ⟨.f32, none, .all, .none⟩, .rounding),
    (.vred 2 4 .sum ⟨.f32, some .rne, .all, .opA 1⟩, .index),
    (.vred 2 4 .sum ⟨.f32, some .rne, .all, .opC 1⟩, .index),
    (.vscan 2 4 6 1 .isum ⟨.bf16, some .rne, .all, .none⟩, .format),
    (.vscan 2 4 6 1 .imax ⟨.f32, some .rtz, .all, .none⟩, .rounding),
    (.vscan 2 4 6 1 .imax ⟨.f32, none, .all, .none⟩, .rounding),
    (.vscan 2 4 6 1 .isum ⟨.f32, some .rne, .all, .opC 1⟩, .index),
    (.vbcast 2 4 6 .mo, .format),
    (.vbcastExt 2 4 6 0 ⟨.mo, some .rne, .all, .none⟩, .format),
    (.vbcastExt 2 4 6 0 ⟨.f32, some .rtz, .all, .none⟩, .rounding),
    (.vbcastExt 2 4 6 0 ⟨.f32, none, .all, .none⟩, .rounding),
    (.vbcastExt 2 4 6 0 ⟨.f32, some .rne, .all, .opC 1⟩, .index),
    (.vperm 2 4 6 .mo, .format),
    (.vpermExt 2 4 6 ⟨.mo, some .rne, .all, .none⟩, .format),
    (.vpermExt 2 4 6 ⟨.f32, some .rtz, .all, .none⟩, .rounding),
    (.vpermExt 2 4 6 ⟨.f32, none, .all, .none⟩, .rounding),
    (.vsort 2 4 .bf16, .format),
    (.vsortExt 2 4 false ⟨.bf16, some .rne, .all, .none⟩, .format),
    (.vsortExt 2 4 false ⟨.f32, some .rtz, .all, .none⟩, .rounding),
    (.vsortExt 2 4 false ⟨.f32, none, .all, .none⟩, .rounding),
    (.vsortExt 2 4 false ⟨.f32, some .rne, ⟨true, 0⟩, .none⟩, .mask),
    (.vsortExt 2 4 false ⟨.f32, some .rne, ⟨false, 1⟩, .none⟩, .mask),
    (.vsortExt 2 4 false ⟨.f32, some .rne, .all, .opC 1⟩, .index),
    (.vmerge 2 4 6 .bf16, .format),
    (.vmergeExt 2 4 6 1 false ⟨.bf16, some .rne, .all, .none⟩, .format),
    (.vmergeExt 2 4 6 1 false ⟨.f32, some .rtz, .all, .none⟩, .rounding),
    (.vmergeExt 2 4 6 1 false ⟨.f32, none, .all, .none⟩, .rounding),
    (.vmergeExt 2 4 6 1 false ⟨.f32, some .rne, ⟨true, 0⟩, .none⟩, .mask)] = true := by decide +kernel

theorem test_illFormedVectorMovementB : Refused [
    (.vmergeExt 2 4 6 1 false ⟨.f32, some .rne, ⟨false, 1⟩, .none⟩, .mask),
    (.vidx 2 4 .f32, .format),
    (.vidxExt 2 4 0 ⟨.f32, some .rne, .all, .none⟩, .format),
    (.vidxExt 2 4 0 ⟨.s32, some .rtz, .all, .none⟩, .rounding),
    (.vidxExt 2 4 0 ⟨.s32, none, .all, .none⟩, .rounding),
    (.vidxExt 2 4 0 ⟨.s32, some .rne, .all, .opB 1⟩, .index),
    (.vidxExt 2 4 0 ⟨.s32, some .rne, .all, .opC 1⟩, .index),
    (.vsplat 2 6 .mo, .format),
    (.vsplatWide 2 (.lit 0 .mo), .format),
    (.vsplatWide 2 (.ext 0 0 ⟨.mo, some .rne, .all, .none⟩), .format),
    (.vsplatWide 2 (.long 0 ⟨.mo, some .rne, .all, .none⟩), .format),
    (.vsplatWide 2 (.ext 0 0 ⟨.f32, some .rtz, .all, .none⟩), .rounding),
    (.vsplatWide 2 (.long 0 ⟨.f32, none, .all, .none⟩), .rounding),
    (.vsplatWide 2 (.ext 0 0 ⟨.f32, some .rne, .all, .opB 1⟩), .index),
    (.vsplatWide 2 (.long 0 ⟨.f32, some .rne, .all, .opC 1⟩), .index),
    (.vrand 2 .bf16, .format),
    (.vrandExt 2 ⟨.bf16, some .rne, .all, .none⟩, .format),
    (.vrandExt 2 ⟨.f32, some .rtz, .all, .none⟩, .rounding),
    (.vrandExt 2 ⟨.f32, none, .all, .none⟩, .rounding),
    (.vrandExt 2 ⟨.f32, some .rne, .all, .opB 1⟩, .index),
    (.vrandExt 2 ⟨.f32, some .rne, .all, .opC 1⟩, .index),
    (.vkeep 2 4 6 .s8, .format),
    (.vkeepExt 2 4 6 ⟨.s8, some .rne, .all, .none⟩, .format),
    (.vkeepExt 2 4 6 ⟨.f32, some .rtz, .all, .none⟩, .rounding),
    (.vkeepExt 2 4 6 ⟨.f32, none, .all, .none⟩, .rounding),
    (.vkeepExt 2 4 6 ⟨.f32, some .rne, .all, .opC 1⟩, .index),
    (.vphx 2 4 6 .bf16, .format),
    (.vphxExt 2 4 6 0 0 ⟨.bf16, some .rne, .all, .none⟩, .format),
    (.vphxExt 2 4 6 0 0 ⟨.f32, some .rtz, .all, .none⟩, .rounding),
    (.vphxExt 2 4 6 0 0 ⟨.f32, none, .all, .none⟩, .rounding)] = true := by decide +kernel

theorem test_illFormedVectorMovementC : Refused [
    (.vphxExt 2 4 6 0 0 ⟨.f32, some .rne, .all, .opB 1⟩, .index),
    (.vphxExt 2 4 6 0 0 ⟨.f32, some .rne, .all, .opC 1⟩, .index),
    (.vropeExt 2 4 6 1 false ⟨.bf16, some .rne, .all, .none⟩, .format),
    (.vropeExt 2 4 6 1 false ⟨.f32, some .rne, .all, .opC 1⟩, .index),
    (.vins 2 4 6 .mo, .format),
    (.vinsExt 2 4 6 0 ⟨.mo, some .rne, .all, .none⟩, .format),
    (.vinsExt 2 4 6 0 ⟨.f32, some .rtz, .all, .none⟩, .rounding),
    (.vinsExt 2 4 6 0 ⟨.f32, none, .all, .none⟩, .rounding),
    (.vinsExt 2 4 6 0 ⟨.f32, some .rne, .all, .opB 1⟩, .index),
    (.vinsExt 2 4 6 0 ⟨.f32, some .rne, .all, .opC 1⟩, .index),
    (.vext 2 4 6 .mo, .format),
    (.vextExt 2 4 6 0 ⟨.mo, some .rne, .all, .none⟩, .format),
    (.vextExt 2 4 6 0 ⟨.f32, some .rtz, .all, .none⟩, .rounding),
    (.vextExt 2 4 6 0 ⟨.f32, none, .all, .none⟩, .rounding),
    (.vextExt 2 4 6 0 ⟨.f32, some .rne, ⟨true, 0⟩, .none⟩, .mask),
    (.vextExt 2 4 6 0 ⟨.f32, some .rne, ⟨false, 1⟩, .none⟩, .mask),
    (.vextExt 2 4 6 0 ⟨.f32, some .rne, .all, .opA 1⟩, .index),
    (.vextExt 2 4 6 0 ⟨.f32, some .rne, .all, .opC 1⟩, .index)] = true := by decide +kernel

theorem test_illFormedMoments : Refused [
    (.madd 16 4 6, .register),
    (.madd 2 16 6, .register),
    (.madd 2 4 16, .register),
    (.maddExt 2 4 6 1 ⟨.f32, some .rne, .all, .none⟩, .format),
    (.maddExt 2 4 6 1 ⟨.mo, some .rtz, .all, .none⟩, .rounding),
    (.maddExt 2 4 6 1 ⟨.mo, none, .all, .none⟩, .rounding),
    (.maddExt 16 4 6 1 ⟨.mo, some .rne, .all, .none⟩, .register),
    (.maddExt 2 16 6 1 ⟨.mo, some .rne, .all, .none⟩, .register),
    (.maddExt 2 4 16 1 ⟨.mo, some .rne, .all, .none⟩, .register),
    (.msub 16 4 6, .register),
    (.msub 2 16 6, .register),
    (.msub 2 4 16, .register),
    (.msubExt 2 4 6 1 ⟨.f32, some .rne, .all, .none⟩, .format),
    (.msubExt 2 4 6 1 ⟨.mo, some .rtz, .all, .none⟩, .rounding),
    (.msubExt 2 4 6 1 ⟨.mo, none, .all, .none⟩, .rounding),
    (.msubExt 16 4 6 1 ⟨.mo, some .rne, .all, .none⟩, .register),
    (.msubExt 2 16 6 1 ⟨.mo, some .rne, .all, .none⟩, .register),
    (.msubExt 2 4 16 1 ⟨.mo, some .rne, .all, .none⟩, .register),
    (.mmul 16 4 6, .register),
    (.mmul 2 16 6, .register),
    (.mmul 2 4 16, .register),
    (.mmulExt 2 4 6 ⟨.f32, some .rne, .all, .none⟩, .format),
    (.mmulExt 2 4 6 ⟨.mo, some .rtz, .all, .none⟩, .rounding),
    (.mmulExt 2 4 6 ⟨.mo, none, .all, .none⟩, .rounding),
    (.mmulExt 16 4 6 ⟨.mo, some .rne, .all, .none⟩, .register),
    (.mmulExt 2 16 6 ⟨.mo, some .rne, .all, .none⟩, .register),
    (.mmulExt 2 4 16 ⟨.mo, some .rne, .all, .none⟩, .register),
    (.mscl 16 4 6, .register),
    (.mscl 2 16 6, .register),
    (.msclExt 2 4 6 ⟨.f32, some .rne, .all, .none⟩, .format)] = true := by decide +kernel

theorem test_illFormedMomentsB : Refused [
    (.msclExt 2 4 6 ⟨.mo, some .rtz, .all, .none⟩, .rounding),
    (.msclExt 2 4 6 ⟨.mo, none, .all, .none⟩, .rounding),
    (.msclExt 2 4 6 ⟨.mo, some .rne, .all, .opC 1⟩, .index),
    (.msclExt 16 4 6 ⟨.mo, some .rne, .all, .none⟩, .register),
    (.msclExt 2 16 6 ⟨.mo, some .rne, .all, .none⟩, .register),
    (.mexp 16 4, .register),
    (.mexp 2 16, .register),
    (.mexpExt 2 4 ⟨.f32, some .rne, .all, .none⟩, .format),
    (.mexpExt 2 4 ⟨.mo, some .rtz, .all, .none⟩, .rounding),
    (.mexpExt 2 4 ⟨.mo, none, .all, .none⟩, .rounding),
    (.mexpExt 2 4 ⟨.mo, some .rne, .all, .opC 1⟩, .index),
    (.mexpExt 16 4 ⟨.mo, some .rne, .all, .none⟩, .register),
    (.mexpExt 2 16 ⟨.mo, some .rne, .all, .none⟩, .register),
    (.mrelu 16 4, .register),
    (.mrelu 2 16, .register),
    (.mreluExt 2 4 ⟨.f32, some .rne, .all, .none⟩, .format),
    (.mreluExt 2 4 ⟨.mo, some .rtz, .all, .none⟩, .rounding),
    (.mreluExt 2 4 ⟨.mo, none, .all, .none⟩, .rounding),
    (.mreluExt 2 4 ⟨.mo, some .rne, .all, .opC 1⟩, .index),
    (.mreluExt 16 4 ⟨.mo, some .rne, .all, .none⟩, .register),
    (.mreluExt 2 16 ⟨.mo, some .rne, .all, .none⟩, .register),
    (.msig 16 4, .register),
    (.msig 2 16, .register),
    (.msigExt 2 4 ⟨.f32, some .rne, .all, .none⟩, .format),
    (.msigExt 2 4 ⟨.mo, some .rtz, .all, .none⟩, .rounding),
    (.msigExt 2 4 ⟨.mo, none, .all, .none⟩, .rounding),
    (.msigExt 2 4 ⟨.mo, some .rne, .all, .opC 1⟩, .index),
    (.msigExt 16 4 ⟨.mo, some .rne, .all, .none⟩, .register),
    (.msigExt 2 16 ⟨.mo, some .rne, .all, .none⟩, .register),
    (.mcoll 2 4 0 .mean false ⟨.s32, some .rne, .all, .none⟩, .format)] = true := by decide +kernel

theorem test_illFormedMomentsC : Refused [
    (.mcoll 2 4 0 .mean false ⟨.f32, some .rne, .all, .opC 1⟩, .index),
    (.mcoll 2 16 0 .mean false ⟨.f32, some .rne, .all, .none⟩, .register),
    (.mcoll 2 4 1 .mean false ⟨.f32, some .rne, .all, .none⟩, .field),
    (.mcoll 2 4 0 .mean true ⟨.f32, some .rne, .all, .none⟩, .function),
    (.mfrom 16 4 6, .register),
    (.mfromExt 2 4 6 ⟨.bf16, some .rne, .all, .none⟩, .format),
    (.mfromExt 2 4 6 ⟨.f32, some .rtz, .all, .none⟩, .rounding),
    (.mfromExt 2 4 6 ⟨.f32, none, .all, .none⟩, .rounding),
    (.mfromExt 16 4 6 ⟨.f32, some .rne, .all, .none⟩, .register),
    (.mmov 16 4, .register),
    (.mmov 2 16, .register),
    (.mmovExt 2 4 ⟨.f32, some .rne, .all, .none⟩, .format),
    (.mmovExt 2 4 ⟨.mo, some .rtz, .all, .none⟩, .rounding),
    (.mmovExt 2 4 ⟨.mo, none, .all, .none⟩, .rounding),
    (.mmovExt 2 4 ⟨.mo, some .rne, .all, .opC 1⟩, .index),
    (.mmovExt 16 4 ⟨.mo, some .rne, .all, .none⟩, .register),
    (.mmovExt 2 16 ⟨.mo, some .rne, .all, .none⟩, .register)] = true := by decide +kernel

theorem test_illFormedAccesses : Refused [
    (.ldExt 2 4 .n64 ⟨0, 0, .core, .release⟩, .order),
    (.ldExt 2 4 .n64 ⟨0, 0, .core, .full⟩, .order),
    (.st 2 4 .s8 0, .kind),
    (.stExt 2 4 .s8 ⟨0, 0, .core, .plain⟩, .kind),
    (.stExt 2 4 .n64 ⟨0, 0, .core, .acquire⟩, .order),
    (.cldExt 2 4 ⟨0, 0, .core, .release⟩, .order),
    (.cldExt 2 4 ⟨0, 0, .core, .full⟩, .order),
    (.cstExt 2 4 ⟨0, 0, .core, .acquire⟩, .order),
    (.vldExt 2 4 .all ⟨0, 0, .core, .release⟩, .order),
    (.vldExt 2 4 .all ⟨0, 0, .core, .full⟩, .order),
    (.vstExt 2 4 .all ⟨0, 0, .core, .acquire⟩, .order),
    (.vgath 2 4 .all ⟨0, 0, .core, .release⟩, .order),
    (.vgath 2 4 .all ⟨0, 0, .core, .full⟩, .order),
    (.vscat 2 4 .all ⟨0, 0, .core, .acquire⟩, .order),
    (.eld 16 4 0, .register),
    (.eldExt 2 4 .all ⟨0, 0, .core, .release⟩, .order),
    (.eldExt 2 4 .all ⟨0, 0, .core, .full⟩, .order),
    (.eldExt 16 4 .all ⟨0, 0, .core, .plain⟩, .register),
    (.est 16 4 0, .register),
    (.estExt 2 4 .all ⟨0, 0, .core, .acquire⟩, .order),
    (.estExt 16 4 .all ⟨0, 0, .core, .plain⟩, .register),
    (.fence .lane, .scope)] = true := by decide +kernel

theorem test_illFormedStashAndViews : Refused [
    (.stashMap 16 4 0 0, .register),
    (.stashUnmap 16, .register),
    (.stashWb 16, .register),
    (.copyWait 4, .register),
    (.copyWaitExt 1 4 4 0, .register),
    (.valloc 0 1 6 0, .register),
    (.vdup 0 4, .register),
    (.vdup 2 2, .register),
    (.vdupExt 0 4, .register),
    (.vdupExt 2 2, .register),
    (.vsplit 0 4 6, .register),
    (.vsplit 2 2 6, .register),
    (.vsplitExt 0 4 6 0, .register),
    (.vsplitExt 2 2 6 0, .register),
    (.vnarrow 0 4 6, .register),
    (.vnarrowExt 0 4 6 0, .register),
    (.vpark 16 4, .register),
    (.vparkExt 16 4, .register),
    (.vtake 2 16, .register),
    (.vtakeExt 2 16, .register)] = true := by decide +kernel

theorem test_illFormedPagesAndMessages : Refused [
    (.msgSend 2 4 61 1 .plain, .argumentRun),
    (.msgSend 2 4 6 1 .acquire, .order)] = true := by decide +kernel

theorem test_illFormedMatrix : Refused [
    (.mxSwapExt 0 1 false, .function),
    (.mxStr 8 4 6 0 false false 0, .register),
    (.mxStr 3 4 6 0 false true 0, .register),
    (.mxGstr 8 4 0 0 0 false 0, .register),
    (.accRd 2 8 6 false, .register),
    (.accRd 2 3 6 true, .register),
    (.accRd 16 4 6 true, .register),
    (.accWr 8 4 6 false, .register),
    (.accWr 3 4 6 true, .register),
    (.accWr 2 16 6 true, .register),
    (.accClr 8, .register),
    (.accClrExt 8 0, .register),
    (.accClrExt 2 0, .function),
    (.epRun 8 4 6 1 0 false none, .register),
    (.epRun 3 4 6 1 0 true none, .register)] = true := by decide +kernel

theorem test_illFormedSamplerAndCollectives : Refused [
    (.smpTop 2 1 0 .lane, .scope),
    (.smpTop 2 1 0 .host, .scope),
    (.smpTopp 2 4 6 1 0 .lane, .scope),
    (.smpTopp 2 4 6 1 0 .host, .scope),
    (.sumRed 2 4 .sum .f32 .lane, .scope),
    (.sumRed 2 4 .sum .f32 .host, .scope),
    (.sumRed 2 4 .sum .bf16 .core, .format),
    (.sumRed 2 4 .or .f32 .core, .function),
    (.sumBc 2 4 .lane, .scope),
    (.sumBc 2 4 .host, .scope)] = true := by decide +kernel

/-! ### Words (R178 to R200): L in [1:0], the opcode in [9:2], A, B, C and F from bit 10 up, then the extended words -/

theorem test_wordsIntegerArithmetic : Read [
    ([0x02BD5404], .add 21 61 10),
    ([0x002A6806, 0x00892F90, 0x00000000], .addWide 26 42 (.ext 0 0x892F90)),
    ([0x00181C05, 0x9531985D, 0x8ED90475], .addWide 7 24 (.lit 0x8ED904759531985D)),
    ([0x0021EC07, 0x00000000, 0x00000000, 0x36F675CC, 0x499950D8], .addWide 59 33 (.long 0x499950D836F675CC)),
    ([0x06DC1808], .sub 6 28 27),
    ([0x0010140A, 0x000790EE, 0x00000000], .subWide 5 16 (.ext 0 0x790EE)),
    ([0x0025D409, 0x1FB17C23, 0xF28C105D], .subWide 53 37 (.lit 0xF28C105D1FB17C23)),
    ([0x00293C0B, 0x00000000, 0x00000000, 0xA09F76B5, 0xD53F48F1], .subWide 15 41 (.long 0xD53F48F1A09F76B5)),
    ([0x0944F40C], .mul 61 4 37),
    ([0x001A980E, 0x0005F66B, 0x00000000], .mulWide 38 26 (.ext 0 0x5F66B)),
    ([0x0037900D, 0x2217BEAD, 0xCA23D596], .mulWide 36 55 (.lit 0xCA23D5962217BEAD)),
    ([0x000A6C0F, 0x00000000, 0x00000000, 0x8A6A63EC, 0x5E27A1C0], .mulWide 27 10 (.long 0x5E27A1C08A6A63EC)),
    ([0x09149410], .mulh 37 20 36),
    ([0x002CD412, 0x00923A73, 0x00000000], .mulhWide 53 44 (.ext 0 0x923A73)),
    ([0x000DA411, 0x5F557203, 0x98F135D2], .mulhWide 41 13 (.lit 0x98F135D25F557203)),
    ([0x002E9013, 0x00000000, 0x00000000, 0x1012F037, 0xD07A70C3], .mulhWide 36 46 (.long 0xD07A70C31012F037))] := by
  decide +kernel

theorem test_wordsIntegerArithmeticB : Read [
    ([0x03A81014], .mulhn 4 40 14),
    ([0x002C8016, 0x00D06BF2, 0x00000000], .mulhnWide 32 44 (.ext 0 0xD06BF2)),
    ([0x00267815, 0xEC66A787, 0xF403E430], .mulhnWide 30 38 (.lit 0xF403E430EC66A787)),
    ([0x00146017, 0x00000000, 0x00000000, 0x3F98E277, 0xCB5C7427], .mulhnWide 24 20 (.long 0xCB5C74273F98E277)),
    ([0x0CAD3018], .div 12 45 50),
    ([0x0006401A, 0x00FEBFF2, 0x00000000], .divWide 16 6 (.ext 0 0xFEBFF2)),
    ([0x0016E419, 0xBABCED20, 0xF2E6CC3A], .divWide 57 22 (.lit 0xF2E6CC3ABABCED20)),
    ([0x00274C1B, 0x00000000, 0x00000000, 0xFAECBD38, 0x52BD4ACE], .divWide 19 39 (.long 0x52BD4ACEFAECBD38)),
    ([0x06E1201C], .divn 8 33 27),
    ([0x00312C1E, 0x00FD2CAF, 0x00000000], .divnWide 11 49 (.ext 0 0xFD2CAF)),
    ([0x00036C1D, 0xF646E1F4, 0xAB1031D0], .divnWide 27 3 (.lit 0xAB1031D0F646E1F4)),
    ([0x0031141F, 0x00000000, 0x00000000, 0x8EDE0D7A, 0xD2B1D3F2], .divnWide 5 49 (.long 0xD2B1D3F28EDE0D7A)),
    ([0x0D79CC20], .rem 51 57 53),
    ([0x00165422, 0x00FF2614, 0x00000000], .remWide 21 22 (.ext 0 0xFF2614)),
    ([0x00349821, 0x74C9DF6A, 0x919A72D1], .remWide 38 52 (.lit 0x919A72D174C9DF6A)),
    ([0x0006D823, 0x00000000, 0x00000000, 0xF1D69ED6, 0x451ABD81], .remWide 54 6 (.long 0x451ABD81F1D69ED6))] := by
  decide +kernel

theorem test_wordsIntegerArithmeticC : Read [
    ([0x0AED7C24], .remn 31 45 43),
    ([0x00041426, 0x0052D51E, 0x00000000], .remnWide 5 4 (.ext 0 0x52D51E)),
    ([0x002C9425, 0xD269A9A5, 0xF2158370], .remnWide 37 44 (.lit 0xF2158370D269A9A5)),
    ([0x002E4C27, 0x00000000, 0x00000000, 0x62C33A4F, 0xE3151288], .remnWide 19 46 (.long 0xE315128862C33A4F)),
    ([0x0097AC28], .and 43 23 2),
    ([0x001EF42A, 0x009DF9FD, 0x00000000], .andWide 61 30 (.ext 0 0x9DF9FD)),
    ([0x00048029, 0x37DC76FB, 0xC4AAEAC1], .andWide 32 4 (.lit 0xC4AAEAC137DC76FB)),
    ([0x00094C2B, 0x00000000, 0x00000000, 0xBD0561E6, 0x7F63AF83], .andWide 19 9 (.long 0x7F63AF83BD0561E6)),
    ([0x0E3B682C], .or 26 59 56),
    ([0x0006802E, 0x008CA818, 0x00000000], .orWide 32 6 (.ext 0 0x8CA818)),
    ([0x0039482D, 0x230D977E, 0xD1BC52D9], .orWide 18 57 (.lit 0xD1BC52D9230D977E)),
    ([0x0038702F, 0x00000000, 0x00000000, 0x8CDB305F, 0x47469A4D], .orWide 28 56 (.long 0x47469A4D8CDB305F)),
    ([0x05DBB830], .xor 46 27 23),
    ([0x0039B032, 0x00135160, 0x00000000], .xorWide 44 57 (.ext 0 0x135160)),
    ([0x000C1831, 0x26BB7DBD, 0xBB618676], .xorWide 6 12 (.lit 0xBB61867626BB7DBD)),
    ([0x000FAC33, 0x00000000, 0x00000000, 0x0316909E, 0x7C26847F], .xorWide 43 15 (.long 0x7C26847F0316909E))] := by
  decide +kernel

theorem test_wordsIntegerArithmeticD : Read [
    ([0x0326D834], .shl 54 38 12),
    ([0x00134436, 0x0088DAF4, 0x00000000], .shlWide 17 19 (.ext 0 0x88DAF4)),
    ([0x00286035, 0x90FBBD11, 0xD19088F5], .shlWide 24 40 (.lit 0xD19088F590FBBD11)),
    ([0x0009F437, 0x00000000, 0x00000000, 0xB0C4312D, 0xDBF4A8B2], .shlWide 61 9 (.long 0xDBF4A8B2B0C4312D)),
    ([0x0A3D8438], .shr 33 61 40),
    ([0x002CA83A, 0x00E647CB, 0x00000000], .shrWide 42 44 (.ext 0 0xE647CB)),
    ([0x0032E039, 0xF3AED0B6, 0xDFE01893], .shrWide 56 50 (.lit 0xDFE01893F3AED0B6)),
    ([0x0034B03B, 0x00000000, 0x00000000, 0x8F2C6EC8, 0x6472F1A3], .shrWide 44 52 (.long 0x6472F1A38F2C6EC8)),
    ([0x07C7683C], .sra 26 7 31),
    ([0x001AA43E, 0x00FC132D, 0x00000000], .sraWide 41 26 (.ext 0 0xFC132D)),
    ([0x001D383D, 0x298CB3A5, 0x9C2442F9], .sraWide 14 29 (.lit 0x9C2442F9298CB3A5)),
    ([0x0027583F, 0x00000000, 0x00000000, 0x0D75985D, 0x5A358CA0], .sraWide 22 39 (.long 0x5A358CA00D75985D))] := by
  decide +kernel

theorem test_wordsIntegerCompares : Read [
    ([0x02A50440], .rotl 1 37 10),
    ([0x00078C42, 0x00868739, 0x00000000], .rotlWide 35 7 (.ext 0 0x868739)),
    ([0x00381441, 0x353C631C, 0x9D33A01C], .rotlWide 5 56 (.lit 0x9D33A01C353C631C)),
    ([0x000A6443, 0x00000000, 0x00000000, 0xA268AA87, 0x4093F6DE], .rotlWide 25 10 (.long 0x4093F6DEA268AA87)),
    ([0x09D7F844], .slt 62 23 39),
    ([0x001F6046, 0x00FCF207, 0x00000000], .sltWide 24 31 (.ext 0 0xFCF207)),
    ([0x001EFC45, 0x7AFB2C68, 0xFBDC968B], .sltWide 63 30 (.lit 0xFBDC968B7AFB2C68)),
    ([0x00065047, 0x00000000, 0x00000000, 0x24E4E25A, 0x5A28F7B3], .sltWide 20 6 (.long 0x5A28F7B324E4E25A)),
    ([0x0456C048], .sltn 48 22 17),
    ([0x00367C4A, 0x0085E999, 0x00000000], .sltnWide 31 54 (.ext 0 0x85E999)),
    ([0x003D3849, 0xF3B7A50D, 0x873BE078], .sltnWide 14 61 (.lit 0x873BE078F3B7A50D)),
    ([0x000A604B, 0x00000000, 0x00000000, 0xB0A844E5, 0xCB0D590B], .sltnWide 24 10 (.long 0xCB0D590BB0A844E5)),
    ([0x0C42EC4C], .seq 59 2 49),
    ([0x0014884E, 0x000BA63B, 0x00000000], .seqWide 34 20 (.ext 0 0xBA63B)),
    ([0x0037B44D, 0x42D87208, 0x84B5A818], .seqWide 45 55 (.lit 0x84B5A81842D87208)),
    ([0x003B604F, 0x00000000, 0x00000000, 0x2AC34446, 0x5B0EE76F], .seqWide 24 59 (.long 0x5B0EE76F2AC34446))] := by
  decide +kernel

theorem test_wordsIntegerComparesB : Read [
    ([0x08CFC850], .sne 50 15 35),
    ([0x00328C52, 0x00B91942, 0x00000000], .sneWide 35 50 (.ext 0 0xB91942)),
    ([0x0034A051, 0xC9D488B1, 0xFC241D0B], .sneWide 40 52 (.lit 0xFC241D0BC9D488B1)),
    ([0x0037C453, 0x00000000, 0x00000000, 0x31F51707, 0xCE5B2A92], .sneWide 49 55 (.long 0xCE5B2A9231F51707)),
    ([0x06B54054], .min 16 53 26),
    ([0x0034C056, 0x00FE26F3, 0x00000000], .minWide 48 52 (.ext 0 0xFE26F3)),
    ([0x002F5C55, 0x076B3E36, 0xFD56A926], .minWide 23 47 (.lit 0xFD56A926076B3E36)),
    ([0x00330857, 0x00000000, 0x00000000, 0x4787F93B, 0x78E4B98D], .minWide 2 51 (.long 0x78E4B98D4787F93B)),
    ([0x0B4D4458], .max 17 13 45),
    ([0x003E9C5A, 0x00EFE09F, 0x00000000], .maxWide 39 62 (.ext 0 0xEFE09F)),
    ([0x0017BC59, 0xF47AEBDD, 0xF979D04A], .maxWide 47 23 (.lit 0xF979D04AF47AEBDD)),
    ([0x0006605B, 0x00000000, 0x00000000, 0x38703800, 0x5A26F889], .maxWide 24 6 (.long 0x5A26F88938703800)),
    ([0x035F3C5C], .minn 15 31 13),
    ([0x000E585E, 0x00733D4D, 0x00000000], .minnWide 22 14 (.ext 0 0x733D4D)),
    ([0x0036A05D, 0x007D1034, 0xFABEC539], .minnWide 40 54 (.lit 0xFABEC539007D1034)),
    ([0x002AEC5F, 0x00000000, 0x00000000, 0x5810D60E, 0xCCB573D9], .minnWide 59 42 (.long 0xCCB573D95810D60E))] := by
  decide +kernel

theorem test_wordsIntegerComparesC : Read [
    ([0x0D86A860], .maxn 42 6 54),
    ([0x0008AC62, 0x00B62467, 0x00000000], .maxnWide 43 8 (.ext 0 0xB62467)),
    ([0x000DC461, 0x7A605A91, 0xE39639BE], .maxnWide 49 13 (.lit 0xE39639BE7A605A91)),
    ([0x001C3063, 0x00000000, 0x00000000, 0xCA04C79F, 0xE2C68E45], .maxnWide 12 28 (.long 0xE2C68E45CA04C79F)),
    ([0x00065864], .clz 22 6),
    ([0x003DD066, 0x00000000, 0x00400000], .clzExt 52 61 .w16),
    ([0x001A7868], .ctz 30 26),
    ([0x003DC06A, 0x00000000, 0x00200000], .ctzExt 48 61 .w32),
    ([0x000BBC6C], .popc 47 11),
    ([0x00092C6E, 0x00000000, 0x00200000], .popcExt 11 9 .w32),
    ([0x00262870], .bswap 10 38),
    ([0x001EE872, 0x00000000, 0x00200000], .bswapExt 58 30 .w32)] := by
  decide +kernel

theorem test_wordsIntegerQuads : Read [
    ([0x09F5A080], .qadd 40 53 39),
    ([0x001FFC82, 0x0013F4F0, 0x00000000], .qaddWide 63 31 (.ext 0 0x13F4F0)),
    ([0x00099081, 0x057A40B2, 0x83A56CC1], .qaddWide 36 9 (.lit 0x83A56CC1057A40B2)),
    ([0x003FD083, 0x00000000, 0x00000000, 0xB9F3635C, 0xE6511445], .qaddWide 52 63 (.long 0xE6511445B9F3635C)),
    ([0x0C221C84], .qsub 7 34 48),
    ([0x0009F086, 0x0018EF62, 0x00000000], .qsubWide 60 9 (.ext 0 0x18EF62)),
    ([0x0038D485, 0x3606DEFC, 0x872A98D2], .qsubWide 53 56 (.lit 0x872A98D23606DEFC)),
    ([0x000E4487, 0x00000000, 0x00000000, 0x4AFFDCD1, 0xC04C25D6], .qsubWide 17 14 (.long 0xC04C25D64AFFDCD1)),
    ([0x09B14088], .qmul 16 49 38),
    ([0x0011548A, 0x00A18E0B, 0x00000000], .qmulWide 21 17 (.ext 0 0xA18E0B)),
    ([0x003B1089, 0xBD6B881A, 0xDA9196F0], .qmulWide 4 59 (.lit 0xDA9196F0BD6B881A)),
    ([0x001EE88B, 0x00000000, 0x00000000, 0xA997F351, 0xD556585E], .qmulWide 58 30 (.long 0xD556585EA997F351)),
    ([0x08BAD48C], .qshl 53 58 34),
    ([0x00356C8E, 0x0010BCD9, 0x00000000], .qshlWide 27 53 (.ext 0 0x10BCD9)),
    ([0x000A8C8D, 0x86048719, 0x82B33599], .qshlWide 35 10 (.lit 0x82B3359986048719)),
    ([0x0038088F, 0x00000000, 0x00000000, 0x70AC06AC, 0xC6C91B92], .qshlWide 2 56 (.long 0xC6C91B9270AC06AC))] := by
  decide +kernel

theorem test_wordsIntegerQuadsB : Read [
    ([0x00673090], .qshr 12 39 1),
    ([0x0034C892, 0x00F936D5, 0x00000000], .qshrWide 50 52 (.ext 0 0xF936D5)),
    ([0x002FA091, 0x1ECE615D, 0x8E752FDF], .qshrWide 40 47 (.lit 0x8E752FDF1ECE615D)),
    ([0x00151093, 0x00000000, 0x00000000, 0xAEAD44B0, 0xC4B28054], .qshrWide 4 21 (.long 0xC4B28054AEAD44B0)),
    ([0x002488A0], .kmov 34 36),
    ([0x00337CA2, 0x00000000, 0x00000000], .kmovExt 31 51),
    ([0x0E47C8A4], .kstep 50 7 57),
    ([0x040490A6, 0x0030F970, 0x00000000], .kstepExt 36 4 16 0x30F970),
    ([0x0C8348A8], .kplace 18 3 50),
    ([0x07611CAA, 0x008FCD7F, 0x00000000], .kplaceExt 7 33 29 0x8FCD7F),
    ([0x0EB108AC], .kfit 2 49 58),
    ([0x0745ECAE, 0x00535B6A, 0x00000000], .kfitExt 59 5 29 0x535B6A),
    ([0x087FA0B0], .kcut 40 63 33),
    ([0x03619CB2, 0x00B156D1, 0x00000000], .kcutExt 39 33 13 0xB156D1),
    ([0x085D48B4], .kmask 18 29 33),
    ([0x07F48CB6, 0x0081FC06, 0x00000000], .kmaskExt 35 52 31 0x81FC06)] := by
  decide +kernel

theorem test_wordsIntegerQuadsC : Read [
    ([0x0010F4B8], .klock 61 16),
    ([0x0022B4BA, 0x00000000, 0x00000000], .klockExt 45 34),
    ([0x0F3DE4BC], .kopen 57 61 60),
    ([0x093C44BE, 0x00000000, 0x00000000], .kopenExt 17 60 36)] := by
  decide +kernel

theorem test_wordsCapabilityReads : Read [
    ([0x003DE8C0], .kcur 58 61),
    ([0x003634C4], .kbase 13 54),
    ([0x000974C8], .ktop 29 9),
    ([0x00086CCC], .klen 27 8),
    ([0x001D68D0], .kperm 26 29),
    ([0x000554D4], .ktag 21 5),
    ([0x0710ACD8], .kinside 43 16 28),
    ([0x000E14DC], .kplain 5 14)] := by
  decide +kernel

theorem test_wordsBranches : Read [
    ([0x2DAA0100], .j 0xAB62),
    ([0x00000102, 0x004D82FE, 0x00000000], .jExt 0x4D82FE),
    ([0x2D47CD04], .jal 51 0x1F52),
    ([0x0000E906, 0x00C6E50D, 0x00000000], .jalExt 58 0xC6E50D),
    ([0x000A0108], .jr 10),
    ([0x002EF50C], .jalr 61 46),
    ([0x002A0110], .ret 42),
    ([0x2258AD14], .beq 43 24 0x92),
    ([0x00394516, 0x0023231E, 0x00000000], .beqExt 17 57 0x23231E),
    ([0x039EF918], .bne 62 30 0xE0),
    ([0x003DC11A, 0x0018189A, 0x00000000], .bneExt 48 61 0x18189A),
    ([0x27F9691C], .blt 26 57 0x1F2),
    ([0x002B2D1E, 0x00D51B18, 0x00000000], .bltExt 11 43 0xD51B18),
    ([0x3B4B3D20], .bge 15 11 0x2D3),
    ([0x00217122, 0x00676013, 0x00000000], .bgeExt 28 33 0x676013),
    ([0x831B5924], .bltn 22 27 0xC8)] := by
  decide +kernel

theorem test_wordsBranchesB : Read [
    ([0x00155D26, 0x00179A07, 0x00000000], .bltnExt 23 21 0x179A07),
    ([0x3058BD28], .bgen 47 24 0x13),
    ([0x0024592A, 0x00756B72, 0x00000000], .bgenExt 22 36 0x756B72),
    ([0x1000212E, 0x00626467, 0x00000000], .bm 8 .all 0x626467),
    ([0x00225930], .kenter 22 34),
    ([0x0FA14D36, 0x00000000, 0x00200028], .ctxSave 40 19 33 62 true),
    ([0x0CFB213A, 0x00000000, 0x00000005], .ctxRest 5 8 59 51),
    ([0x000F013C], .eret 15)] := by
  decide +kernel

theorem test_wordsControl : Read [
    ([0x01B9FD42, 0x00000000, 0x00800000], .start 63 57 6 .ch0),
    ([0x00034944], .join 18 3),
    ([0x0000E948], .halt 58),
    ([0x0C4CC94E, 0x00D1DCEC, 0x00000009], .spawn 50 12 49 9 0xD1DCEC),
    ([0x00000150], .yield),
    ([0x00000156, 0x80000000, 0x00000000], .bar .pkg),
    ([0x00007158], .semSig 28),
    ([0x0000795C], .semWait 30),
    ([0x1000B160], .fwdPut 44 true),
    ([0x0000D564], .fwdGet 53),
    ([0x50000168], .trap 5),
    ([0x0000016A, 0x0067EC32, 0x00000000], .trapExt 0x67EC32),
    ([0x001B296C], .srd 10 27),
    ([0x00256970], .swr 26 37),
    ([0x00000174], .ifence),
    ([0x00200178], .hret 32)] := by
  decide +kernel

theorem test_wordsVectorArithmetic : Read [
    ([0x8195B580], .vadd 45 21 6 .s16),
    ([0x1B741182, 0x0B000000, 0x80007040], .vaddExt 4 52 45 true ⟨.s8, some .rne, ⟨false, 11⟩, (.opB 1)⟩),
    ([0x13F79D84], .vsub 39 55 15 .bf16),
    ([0x12384586, 0x07000000, 0x00007000], .vsubExt 17 56 8 true ⟨.s8, some .rne, ⟨false, 7⟩, .none⟩),
    ([0x02684988], .vmul 18 40 9 .f32),
    ([0x042E898A, 0x14000000, 0x00022000], .vmulExt 34 46 16 false ⟨.f16, some .rup, ⟨true, 4⟩, .none⟩),
    ([0x0894A58C], .vfma 41 20 34 .f32),
    ([0x085D4D8E, 0x1D000000, 0x80012040], .vfmaExt 19 29 33 ⟨.f16, some .rtz, ⟨true, 13⟩, (.opB 1)⟩),
    ([0x7BC20590], .vmin 1 2 47 .s8),
    ([0x041F8592, 0x1E000000, 0x0000B000], .vminExt 33 31 16 ⟨.s4, some .rne, ⟨true, 14⟩, .none⟩),
    ([0xA8E0AD94], .vmax 43 32 35 .n8),
    ([0x0521FD96, 0x06000000, 0xC0007E40], .vmaxExt 63 33 20 ⟨.s8, some .rne, ⟨false, 6⟩, (.opC 57)⟩),
    ([0xA009A598], .vabs 41 9 .n8),
    ([0x103F5D9A, 0x1B000000, 0x00007000], .vabsExt 23 63 true ⟨.s8, some .rne, ⟨true, 11⟩, .none⟩),
    ([0x201C459C], .vneg 17 28 .f16),
    ([0x1006119E, 0x0B000000, 0x00007000], .vnegExt 4 6 true ⟨.s8, some .rne, ⟨false, 11⟩, .none⟩)] := by
  decide +kernel

theorem test_wordsVectorArithmeticB : Read [
    ([0x1B509DA0], .vdiv 39 16 45 .bf16),
    ([0x031E0DA2, 0x15000000, 0x80020800], .vdivExt 3 30 12 ⟨.f32, some .rup, ⟨true, 5⟩, (.opB 32)⟩),
    ([0x001055A4], .vsqrt 21 16 .f32),
    ([0x0039F9A6, 0x11000000, 0x40011FC0], .vsqrtExt 62 57 ⟨.bf16, some .rtz, ⟨true, 1⟩, (.opA 63)⟩),
    ([0x202149A8], .vrsqrt 18 33 .f16),
    ([0x001035AA, 0x15000000, 0x00062000], .vrsqrtExt 13 16 ⟨.f16, some .odd, ⟨true, 5⟩, .none⟩),
    ([0x201A29AC], .vexp 10 26 .f16),
    ([0x001A0DAE, 0x14000000, 0x40020E40], .vexpExt 3 26 ⟨.f32, some .rup, ⟨true, 4⟩, (.opA 57)⟩),
    ([0x202EE9B0], .vlog 58 46 .f16),
    ([0x003165B2, 0x03000000, 0x40051040], .vlogExt 25 49 ⟨.bf16, some .sto, ⟨false, 3⟩, (.opA 1)⟩),
    ([0x2036D5B4], .vsig 53 54 .f16),
    ([0x0021E9B6, 0x0D000000, 0x40032E40], .vsigExt 58 33 ⟨.f16, some .rdn, ⟨false, 13⟩, (.opA 57)⟩),
    ([0x203499B8], .vtanh 38 52 .f16),
    ([0x003EB1BA, 0x11000000, 0x80052040], .vtanhExt 44 62 ⟨.f16, some .sto, ⟨true, 1⟩, (.opB 1)⟩),
    ([0x003665BC], .vaddc 25 54),
    ([0x002475BE, 0x0B000000, 0x40000FC0], .vaddcExt 29 36 ⟨.f32, some .rne, ⟨false, 11⟩, (.opA 63)⟩)] := by
  decide +kernel

theorem test_wordsVectorLogic : Read [
    ([0x178145C0], .vand 17 1 30 .bf16),
    ([0x087CC1C2, 0x19000000, 0xC0008FC0], .vandExt 48 60 33 ⟨.s16, some .rne, ⟨true, 9⟩, (.opC 63)⟩),
    ([0x417445C4], .vor 17 52 5 .e5m2),
    ([0x0C6F41C6, 0x1B000000, 0x00003000], .vorExt 16 47 49 ⟨.e4m3, some .rne, ⟨true, 11⟩, .none⟩),
    ([0x167781C8], .vxor 32 55 25 .bf16),
    ([0x0B3B7DCA, 0x0A000000, 0x00004000], .vxorExt 31 59 44 ⟨.e5m2, some .rne, ⟨false, 10⟩, .none⟩),
    ([0x89C535CC], .vshl 13 5 39 .s16),
    ([0x0A9159CE, 0x03000000, 0x40009FC0], .vshlExt 22 17 42 ⟨.s32, some .rne, ⟨false, 3⟩, (.opA 63)⟩),
    ([0x7B3F49D0], .vshr 18 63 44 .s8),
    ([0x0B0EB5D2, 0x19000000, 0x8000AFC0], .vshrExt 45 14 44 ⟨.n8, some .rne, ⟨true, 9⟩, (.opB 63)⟩),
    ([0x8E88C9D4], .vsra 50 8 58 .s16),
    ([0x01BF51D6, 0x18000000, 0xC000BFC0], .vsraExt 20 63 6 ⟨.s4, some .rne, ⟨true, 8⟩, (.opC 63)⟩),
    ([0x339949D8], .vsel 18 25 14 .e4m3),
    ([0x01A615DA, 0x05000000, 0x00002000], .vselExt 5 38 6 ⟨.f16, some .rne, ⟨false, 5⟩, .none⟩),
    ([0xA02725DC], .vmov 9 39 .n8),
    ([0x001285DE, 0x04000000, 0x80001FC0], .vmovExt 33 18 ⟨.bf16, some .rne, ⟨false, 4⟩, (.opB 63)⟩)] := by
  decide +kernel

theorem test_wordsVectorLogicB : Read [
    ([0xB04B09E0], .vdot 2 11 1 .s4),
    ([0x069DB1E2, 0x16000000, 0x400557C0], .vdotExt 44 29 26 ⟨.e2m1, some .sto, ⟨true, 6⟩, (.opA 31)⟩),
    ([0x101505E6, 0x04000000, 0x00E70000], .vcvt 1 21 1 .s8 ⟨.f32, none, ⟨false, 4⟩, .none⟩),
    ([0x1013E9EA, 0x00000000, 0x404757F0], .vpack 58 48 19 .sc 1 ⟨.e2m1, none, ⟨false, 0⟩, (.opA 31)⟩),
    ([0x1031F1EE, 0x1E000000, 0x0042501C], .vunpk 60 28 49 .sc 1 ⟨.e2m1, some .rup, ⟨true, 14⟩, .none⟩),
    ([0x22BC2DF2, 0x16000000, 0xC0000FC0], .vcmp 11 60 10 .lt ⟨.f32, some .rne, ⟨true, 6⟩, (.opC 63)⟩),
    ([0x33413DF6, 0x00000000, 0x00000000], .mskl 15 1 13 .andn),
    ([0x100F69FA, 0x00000000, 0x00000000], .mskp 26 15 .first),
    ([0x000031FD, 0x14A0B00B, 0x8CAA7612], .msks 12 0x8CAA761214A0B00B),
    ([0x20003DFF, 0x00000000, 0x00000000, 0xBB7B738E, 0xE92FD360], .msksExt 15 0xE92FD360BB7B738E .and)] := by
  decide +kernel

theorem test_wordsVectorMovement : Read [
    ([0x2031A202, 0x1F000000, 0x00008000], .vred 40 49 .min ⟨.s16, some .rne, ⟨true, 15⟩, .none⟩),
    ([0x17CB2606, 0x1C000000, 0x0000901B], .vscan 9 11 31 27 .xsum ⟨.s32, some .rne, ⟨true, 12⟩, .none⟩),
    ([0xA691AA08], .vbcast 42 17 26 .n8),
    ([0x07D4420A, 0x138EACA2, 0x0000A000], .vbcastExt 16 20 31 0x8EACA2 ⟨.n8, some .rne, ⟨true, 3⟩, .none⟩),
    ([0x884E160C], .vperm 5 14 33 .s16),
    ([0x074F920E, 0x08000000, 0xC0006140], .vpermExt 36 15 29 ⟨.lns6, some .rne, ⟨false, 8⟩, (.opC 5)⟩),
    ([0x00064210], .vsort 16 6 .f32),
    ([0x10245A12, 0x00000000, 0x800007C0], .vsortExt 22 36 true ⟨.f32, some .rne, ⟨false, 0⟩, (.opB 31)⟩),
    ([0x0365D214], .vmerge 52 37 13 .f32),
    ([0x16F8C216, 0x00000000, 0x00009019], .vmergeExt 48 56 27 25 true ⟨.s32, some .rne, ⟨false, 0⟩, .none⟩),
    ([0x90193A18], .vidx 14 25 .s32),
    ([0x00315A1A, 0x160FE321, 0x4000A040], .vidxExt 22 49 0xFE321 ⟨.n8, some .rne, ⟨true, 6⟩, (.opA 1)⟩),
    ([0x3E804A1C], .vsplat 18 58 .e4m3),
    ([0x0000661E, 0x1552A94D, 0x00007000], .vsplatWide 25 (.ext 0 0x52A94D ⟨.s8, some .rne, ⟨true, 5⟩, .none⟩)),
    ([0x7000761D, 0xF435A573, 0xCFE04802], .vsplatWide 29 (.lit 0xCFE04802F435A573 .s8)),
    ([0x0000DE1F, 0x09000000, 0x00000000, 0x209342CA, 0x88411C07], .vsplatWide 55 (.long 0x88411C07209342CA ⟨.f32, some .rne, ⟨false, 9⟩, .none⟩))] := by
  decide +kernel

theorem test_wordsVectorMovementB : Read [
    ([0x90007220], .vrand 28 .s32),
    ([0x0000FA22, 0x17000000, 0x00009000], .vrandExt 62 ⟨.s32, some .rne, ⟨true, 7⟩, .none⟩),
    ([0x98B5F224], .vkeep 60 53 34 .s32),
    ([0x041DFE26, 0x13000000, 0x40000E40], .vkeepExt 63 29 16 ⟨.f32, some .rne, ⟨true, 3⟩, (.opA 57)⟩),
    ([0x9DEAB628], .vphx 45 42 55 .s32),
    ([0x1CA41A2A, 0x1F005986, 0x40000140], .vphxExt 6 36 50 1 0x5986 ⟨.f32, some .rne, ⟨true, 15⟩, (.opA 5)⟩),
    ([0x0891A62C], .vrope 41 17 34),
    ([0x1B5CA62E, 0x19000000, 0x00070031], .vropeExt 41 28 45 49 true ⟨.f32, none, ⟨true, 9⟩, .none⟩),
    ([0x34593630], .vins 13 25 17 .e4m3),
    ([0x0067CE32, 0x1802AD9D, 0x40008E40], .vinsExt 51 39 1 0x2AD9D ⟨.s16, some .rne, ⟨true, 8⟩, (.opA 57)⟩),
    ([0x7439DA34], .vext 54 57 16 .s8),
    ([0x09108A36, 0x003F3F37, 0x00000000], .vextExt 34 16 36 0x3F3F37 ⟨.f32, some .rne, ⟨false, 0⟩, .none⟩)] := by
  decide +kernel

theorem test_wordsMoments : Read [
    ([0xC14B3240], .madd 12 11 5),
    ([0x01010642, 0x14000000, 0x0000C020], .maddExt 1 1 4 32 ⟨.mo, some .rne, ⟨true, 4⟩, .none⟩),
    ([0xC1063E44], .msub 15 6 4),
    ([0x03012246, 0x17000000, 0x8000CE56], .msubExt 8 1 12 22 ⟨.mo, some .rne, ⟨true, 7⟩, (.opB 57)⟩),
    ([0xC0893A48], .mmul 14 9 2),
    ([0x0108124A, 0x04000000, 0x4000C7C0], .mmulExt 4 8 4 ⟨.mo, some .rne, ⟨false, 4⟩, (.opA 31)⟩),
    ([0xC4CF364C], .mscl 13 15 19),
    ([0x080A0A4E, 0x08000000, 0x4000C800], .msclExt 2 10 32 ⟨.mo, some .rne, ⟨false, 8⟩, (.opA 32)⟩),
    ([0xC00F0E50], .mexp 3 15),
    ([0x00011E52, 0x1A000000, 0x4000CE40], .mexpExt 7 1 ⟨.mo, some .rne, ⟨true, 10⟩, (.opA 57)⟩),
    ([0xC0030654], .mrelu 1 3),
    ([0x00081E56, 0x02000000, 0x0000C000], .mreluExt 7 8 ⟨.mo, some .rne, ⟨false, 2⟩, .none⟩),
    ([0xC0041A58], .msig 6 4),
    ([0x000B0E5A, 0x1B000000, 0x0000C000], .msigExt 3 11 ⟨.mo, some .rne, ⟨true, 11⟩, .none⟩),
    ([0x2006DA5E, 0x12000000, 0x40271800], .mcoll 54 6 0 .std true ⟨.bf16, none, ⟨true, 2⟩, (.opA 32)⟩),
    ([0x064E3660], .mfrom 13 14 25)] := by
  decide +kernel

theorem test_wordsMomentsB : Read [
    ([0x0D721A62, 0x07000000, 0xC0000FC0], .mfromExt 6 50 53 ⟨.f32, some .rne, ⟨false, 7⟩, (.opC 63)⟩),
    ([0xC0061264], .mmov 4 6),
    ([0x000F2666, 0x16000000, 0x0000C000], .mmovExt 9 15 ⟨.mo, some .rne, ⟨true, 6⟩, .none⟩)] := by
  decide +kernel

theorem test_wordsAccesses : Read [
    ([0x71427E80], .ld 31 2 .s16 7),
    ([0x56B44282, 0x20311116, 0x00080000], .ldExt 16 52 .s16 ⟨26, 0x311116, .core, .acquire⟩),
    ([0xD01E0E84], .st 3 30 .n8 13),
    ([0x2C04EE86, 0x200C79EB, 0x00180000], .stExt 59 4 .n32 ⟨48, 0xC79EB, .core, .full⟩),
    ([0x60126288], .cld 24 18 6),
    ([0x0468FA8A, 0xC002CA1B, 0x00080000], .cldExt 62 40 ⟨17, 0x2CA1B, .host, .acquire⟩),
    ([0x5012F28C], .cst 60 18 5),
    ([0x09EF068E, 0xE0305C9B, 0x00100000], .cstExt 1 47 ⟨39, 0x305C9B, .sys, .release⟩),
    ([0x40350A90], .vld 2 53 4),
    ([0x0C9F1E92, 0x883D0CDE, 0x00080000], .vldExt 7 31 ⟨false, 8⟩ ⟨50, 0x3D0CDE, .pkg, .acquire⟩),
    ([0xE01CEE94], .vst 59 28 14),
    ([0x0D098296, 0xC3008EA0, 0x00180000], .vstExt 32 9 ⟨false, 3⟩ ⟨52, 0x8EA0, .host, .full⟩),
    ([0x056DD69A, 0xEA0F1CF5, 0x00080000], .vgath 53 45 ⟨false, 10⟩ ⟨21, 0xF1CF5, .sys, .acquire⟩),
    ([0x08587A9E, 0x4A050E94, 0x00180000], .vscat 30 24 ⟨false, 10⟩ ⟨33, 0x50E94, .quad, .full⟩),
    ([0x400B36A0], .eld 13 11 4),
    ([0x08C51EA2, 0x68235DB5, 0x00080000], .eldExt 7 5 ⟨false, 8⟩ ⟨35, 0x235DB5, .die, .acquire⟩)] := by
  decide +kernel

theorem test_wordsAccessesB : Read [
    ([0x20391EA4], .est 7 57 2),
    ([0x06D10AA6, 0x84062BC9, 0x00180000], .estExt 2 17 ⟨false, 4⟩ ⟨27, 0x62BC9, .pkg, .full⟩),
    ([0x0A0F32AA, 0xC01D7FC6, 0x02E80009], .amo 12 15 9 .minn true ⟨40, 0x1D7FC6, .host, .acquire⟩),
    ([0x0AE3C2AE, 0xE0318725, 0x02080037], .cas 48 35 55 true ⟨43, 0x318725, .sys, .acquire⟩),
    ([0x04B6CAB2, 0xA012CD53, 0x00100013], .ccas 50 54 19 ⟨18, 0x12CD53, .pod, .release⟩),
    ([0x000002B6, 0x60000000, 0x00000000], .fence .die)] := by
  decide +kernel

theorem test_wordsStashAndViews : Read [
    ([0x003016C2, 0x0003310B, 0x00000000], .stashMap 5 48 267 204),
    ([0x000022C4], .stashUnmap 8),
    ([0x000002C6, 0x00000000, 0x00200000], .stashUnmapExt),
    ([0x000012C8], .stashWb 4),
    ([0x000002CA, 0x00000000, 0x00200000], .stashWbExt),
    ([0x029032CE, 0x00000000, 0x00000000], .stashAp 12 16 10),
    ([0x0EF94ED2, 0x00000000, 0x00E00000], .copy 19 57 59 3 true),
    ([0x000006D4], .copyWait 1),
    ([0x001A06D6, 0x00406C61, 0x00000015], .copyWaitExt 21 1 26 0x406C61),
    ([0x088042E2, 0x003B3BC8, 0x00000021], .valloc 16 33 34 0x3B3BC8),
    ([0x0034AAE4], .vdup 42 52),
    ([0x002A1EE6, 0x00000000, 0x00000000], .vdupExt 7 42),
    ([0x01C37AE8], .vsplit 30 3 7),
    ([0x0E5F06EA, 0x00D1B0B7, 0x00000000], .vsplitExt 1 31 57 0xD1B0B7),
    ([0x07763EEC], .vnarrow 15 54 29),
    ([0x00D8EEEE, 0x00E07B59, 0x00000000], .vnarrowExt 59 24 3 0xE07B59)] := by
  decide +kernel

theorem test_wordsStashAndViewsB : Read [
    ([0x001302F0], .vdrop 19),
    ([0x000F02F2, 0x00000000, 0x00000000], .vdropExt 15),
    ([0x00040AF4], .vpark 2 4),
    ([0x002712F6, 0x00000000, 0x00000000], .vparkExt 4 39),
    ([0x000EFEF8], .vtake 63 14),
    ([0x00049AFA, 0x00000000, 0x00000000], .vtakeExt 38 4)] := by
  decide +kernel

theorem test_wordsPagesAndMessages : Read [
    ([0x0005F302, 0x00000000, 0x00000000], .pmLook 60 5),
    ([0x08580306, 0x000000DE, 0x00000000], .pmFill 24 33 222),
    ([0x09DD330A, 0x000000C8, 0x00000C91], .kvApp 12 29 39 17 50 200),
    ([0x007DAF12, 0x00000000, 0x00000007], .cairnLook 43 61 1 7),
    ([0x0BA7A716, 0x00000000, 0x00000028], .cairnIns 41 39 46 40),
    ([0x03805F1A, 0x00000000, 0x00000003], .cairnRel 23 14 3),
    ([0x0296631E, 0x00000000, 0x00000003], .admRsv 24 22 10 3),
    ([0x00113B22, 0x00000000, 0x00000000], .admEnd 14 17),
    ([0x0AA70F2A, 0x00000000, 0x0010003B], .msgSend 3 39 42 59 .release),
    ([0x0001D72E, 0x00000000, 0x00000000], .mig 53 1),
    ([0x0000D732, 0x00000000, 0x00000000], .migRet 53)] := by
  decide +kernel

theorem test_wordsMatrix : Read [
    ([0x0B1B0342, 0x00000054, 0x00000000], .mxLdw 84 27 44),
    ([0x00000344], .mxSwap),
    ([0x00000346, 0x00000060, 0x00A00000], .mxSwapExt 96 1 true),
    ([0x3154134A, 0x00000035, 0x00200000], .mxStr 4 20 5 53 true true 1),
    ([0x10201F4E, 0x00117C8D, 0x00800000], .mxGstr 7 32 141 124 17 true 4),
    ([0x26861F52, 0x00000000, 0x00000000], .accRd 7 6 26 true),
    ([0x22841B56, 0x00000000, 0x00000000], .accWr 6 4 10 true),
    ([0x00001B58], .accClr 6),
    ([0x0000175A, 0x00000000, 0x03000000], .accClrExt 5 24),
    ([0x000BAB62, 0x00000000, 0x00000000], .epLoad 42 11),
    ([0x24AD1366, 0x000000FD, 0x0003001B], .epRun 4 45 18 27 253 true (some .rdn)),
    ([0x0000AF68], .epWait 43)] := by
  decide +kernel

theorem test_wordsSamplerAndCollectives : Read [
    ([0x0F9B5382, 0x00000050, 0x00000004], .smpPen 20 27 62 4 80),
    ([0x0940C386, 0x000000E3, 0x00000000], .smpTemp 48 37 227),
    ([0x001B5F8A, 0x000000DE, 0x00000002], .smpGum 23 27 2 222),
    ([0x0000CB8E, 0x4000005E, 0x00000034], .smpTop 50 52 94 .quad),
    ([0x03AF6B92, 0x80000002, 0x0000003D], .smpTopp 26 47 14 61 2 .pkg),
    ([0x070BEB96, 0x00000000, 0x00000000], .smpStep 58 11 28),
    ([0x01B5239A, 0x00000000, 0x00000000], .smpDraft 8 53 6),
    ([0x0E656B9E, 0x00000000, 0x00000000], .smpVer 26 37 57),
    ([0x201E63A2, 0x20000000, 0x00009000], .sumRed 24 30 .min .s32 .core),
    ([0x002413A6, 0x40000000, 0x00000000], .sumBc 4 36 .quad),
    ([0x0034ABAA, 0x0000000F, 0x00000000], .tokMap 42 52 15),
    ([0x09466BAE, 0x00000000, 0x00000000], .tokBind 26 6 37)] := by
  decide +kernel

/-! ### Witnesses: a state and operands that meet the hypotheses of each statement -/

open Machine Claims

/-- The system context of core 0, with a placed leader in slot 0. -/
def sys : State := State.reset.withFetchWord 32 4
/-- The leader in slot 0 of core 0. -/
def usr : State := onCore sys 0 fun k => { k with last := 0 }
/-- The leader with a page table that maps [0, 2^30) onto itself, every right granted over it. -/
def rich : State :=
  { State.reset with
    cores := [(0, { placedCore with last := 0 })], teams := [placedTeam]
    domains := [(0, { gbase := 0x80000, gcnt := 1 })]
    memory := { cells := [(0, 1), (10, 2), (0x20000, 1), (0x2000A, 4), (0x40000, 1), (0x4000A, 6), (0x60000, 0x73),
      (0x80009, 0x40), (0x80010, 15)] } }
/-- The same with `bs` at `a`. -/
def stored (s : State) (a : Nat) (bs : List Byte) : State := physWriteAll s 0 a bs
/-- Register `n` holds `v`. -/
def hold (s : State) (n : Nat) (v : Cap) : State := onMe s fun x => putReg x n v
/-- Register `n` holds a number. -/
def num (s : State) (n v : Nat) : State := hold s n (numberCap v)
/-- The issuing core changes by `f`. -/
def core (s : State) (f : Core → Core) : State := onCore s (who s).core f
/-- A capability over all of [0, 2^79). -/
def full : Cap := systemCode
/-- The same with its cursor at `a`. -/
def fullAt (a : Nat) : Cap := withCursor systemCode a
/-- A view over granules 3 and 4. -/
def view : Cap := boundedCap viewPerms 0x30000 0x20000
/-- The system context of a basecamp core. -/
def base : State := { State.reset with turn := .issue 1152 }

/-- A computation that ends well has a result. -/
def isOk {ε α : Type} : Except ε α → Bool
  | .ok _ => true
  | .error _ => false

theorem exists_ok {ε α : Type} {x : Except ε α} (h : isOk x = true) : ∃ a, x = .ok a := by
  cases x with
  | ok a => exact ⟨a, rfl⟩
  | error e => cases h

theorem test_cursorChange : inWindow full (2 ^ 80 - 1) = false ∧ inWindow full 0 = true ∧
    inWindow (fullAt 0x10000) (2 ^ 79 - 1) = true ∧ inWindow view 0x2FFFF = false := by decide +kernel

theorem test_cursorMay : isView view = true ∧ inWindow view 0x30000 = true ∧ isView full = false := by decide +kernel

theorem test_boundsMay : BoundsMay false (fullAt 0x10001) 65536 1 0x10000 0x20002 ∧
    BoundsMay true (fullAt 0x10000) 65535 0 0x10000 0x1FFFF :=
  ⟨⟨by decide +kernel, by decide +kernel, by decide, fun _ _ => ⟨0, 65535 * 2 ^ 63, by decide +kernel⟩⟩,
    ⟨by decide +kernel, by decide +kernel, by decide +kernel, fun _ _ => ⟨0, 65535 * 2 ^ 63, by decide +kernel⟩⟩⟩

theorem test_authority : Authority full := by
  refine ⟨?_, ?_, ?_⟩ <;> decide +kernel

theorem test_noBounds : capBounds (makeCap true 1 0 1 1 0) = none ∧ capBounds full = some (0, 65535 * 2 ^ 63) := by
  decide +kernel

/-- Bounds that end at 2^80 and one unit above it, and a base at 0 and one unit below. -/
theorem test_boundsDecode : capBounds (makeCap true 1 63 2 0 (131070 * 2 ^ 63)) = some (131070 * 2 ^ 63, 2 ^ 80) ∧
    capBounds (makeCap true 1 63 3 0 (131070 * 2 ^ 63)) = none ∧ capBounds (makeCap false 1 4 5 6 0x6F) = some (0, 80) ∧
    capBounds (makeCap false 1 4 5 7 0x6F) = none ∧ inWindow (makeCap false 1 4 5 6 0x6F) (2 ^ 20 - 1) = true ∧
    inWindow (makeCap false 1 4 5 6 0x6F) (2 ^ 20) = false := by decide +kernel

theorem test_insideWitness : full.tag = true ∧ view.tag = true ∧ isSealed full = false ∧
    (∃ b t lo hi, capBounds full = some (b, t) ∧ capBounds view = some (lo, hi) ∧ b ≤ lo ∧ hi ≤ t) ∧
    (∀ i < 10, (capPerms (boundedCap 3 0 16)).testBit i = true → (capPerms full).testBit i = true) ∧
    (∃ i < 10, (capPerms view).testBit i = true ∧ (capPerms full).testBit i = false) := by
  refine ⟨by decide +kernel, by decide +kernel, by decide +kernel, ⟨0, 65535 * 2 ^ 63, 0x30000, 0x50000, ?_⟩, ?_, ⟨8, ?_⟩⟩ <;>
    decide +kernel

theorem test_branchesTaken : (∀ r ∈ branchRows.take 2, r.taken 0 0 ∨ r.taken 0 1) ∧
    (0x8000000000000000 : BitVec 64).toInt < (0x7FFFFFFFFFFFFFFF : BitVec 64).toInt ∧
    (0x7FFFFFFFFFFFFFFF : BitVec 64).toNat < (0x8000000000000000 : BitVec 64).toNat := by
  refine ⟨?_, by decide, by decide⟩
  intro r h
  simp only [branchRows, List.take, List.mem_cons, List.not_mem_nil, or_false] at h
  obtain rfl | rfl := h <;> simp

theorem test_maskBranch : bmTaken 1 .any ∧ bmTaken (BitVec.allOnes 64) .all ∧ bmTaken 0 .none ∧ ¬ bmTaken 0 .any ∧
    ¬ bmTaken 0x8000000000000000 .all ∧ ¬ bmTaken 0x8000000000000000 .none := by simp [bmTaken]

theorem test_jumpTarget : JumpTarget (fullAt 0x10004) ∧ SealedEntry (withSeal (fullAt (2 ^ 79 - 4)) true) := by
  refine ⟨⟨?_, ?_, ?_, ?_⟩, ?_, ?_, ?_, ?_⟩ <;> decide +kernel

theorem test_mayStart : MayStart (hold usr 5 (fullAt 0x10000)) 5 .mx placedTeam 1 ∧
    lowestFree { myCore usr with slots := (upFrom 0 11).map fun i => (i, placedLeader) } = none ∧
    (recordsOf { myCore usr with records := (upFrom 0 10).map fun i => ⟨4097, i, i, none⟩ } 4097).length = 10 := by
  refine ⟨⟨?_, ⟨?_, ?_, ?_, ?_⟩, ?_, ?_, ?_, ?_, ?_⟩, ?_, ?_⟩ <;> decide +kernel

/-- The leader of a basecamp core, whose home is core 0. -/
def campLeader : State :=
  { onCore usr 1152 fun k => { k with
      last := 0, slots := put k.slots 0 { putReg placedLeader 5 (fullAt 0x10000) with home := some ⟨0, 0⟩ } } with
    turn := .issue 1152 }

theorem test_startRefused : let s := hold (core usr fun k => { k with slots := put k.slots 3 { placedLeader with pin := .ch0 } }) 5 (fullAt 0x10000)
    ((me s).kind = .leader ∧ lowestFree (myCore s) = some 1 ∧ teamOf s (who s) = some placedTeam ∧
      (recordsOf (myCore s) (me s).uid).length < 10 ∧ enginePinned (myCore s) .ch0 = true) ∧ JumpTarget (reg s 5) ∧
    ((me campLeader).kind = .leader ∧ lowestFree (myCore campLeader) = some 1 ∧ teamOf campLeader (who campLeader) = some placedTeam ∧
      (recordsOf (myCore campLeader) (me campLeader).uid).length < 10 ∧ enginePinned (myCore campLeader) .mx = false ∧
      isBasecamp (who campLeader).core = true) ∧ JumpTarget (reg campLeader 5) ∧
    (me sys).kind = .system ∧ (me (onMe usr fun x => { x with kind := .spawned })).kind = .spawned := by
  refine ⟨?_, ⟨?_, ?_, ?_, ?_⟩, ?_, ⟨?_, ?_, ?_, ?_⟩, ?_⟩ <;> decide +kernel

theorem test_joins : let s := num (core usr fun k => { k with records := [⟨4097, 1, 65535, some (-1)⟩] }) 3 (65535 * 65536 + 1)
    recordFor (myCore s) (me s).uid (reg64 s 3) = some ⟨4097, 1, 65535, some (-1)⟩ ∧ (me s).kind = .leader := by
  decide +kernel

theorem test_newHelper : (1 : Nat) ≠ (who usr).slot ∧ (10 : Nat) ≠ (who usr).slot := by decide +kernel

/-- The system context of core 0 in its trap entry. -/
def entered : State := onCore sys 0 fun k => { k with trapOpen := true }

theorem test_halts : (who sys).slot = 11 ∧ (myCore sys).trapOpen = false ∧ (me sys).calls = [] ∧
    (who entered).slot = 11 ∧ (myCore entered).trapOpen = true ∧ (who usr).slot ≠ 11 ∧ (me usr).calls = [] ∧
    helpersLive usr (who usr) = false ∧ helpersLive (core usr fun k => { k with records := [⟨4097, 1, 1, none⟩] }) (who usr) = true ∧
    (me (onMe usr fun x => { x with calls := [⟨full, 3⟩] })).calls = [⟨full, 3⟩] := by decide +kernel

theorem test_remoteSpawn : let s := num (hold usr 5 (fullAt 0x10000)) 6 1
    SpawnTarget s 6 (-1) 0 ∧ JumpTarget (reg s 5) ∧ ∀ core, ¬ SpawnTarget s 0 (-1) core := by
  refine ⟨⟨?_, placedTeam, ?_⟩, ⟨?_, ?_, ?_, ?_⟩, fun core h => ?_⟩
  all_goals try decide +kernel
  have e : ((reg64 (num (hold usr 5 (fullAt 0x10000)) 6 1) 0).toNat : Int) + (-1 : BitVec 24).toInt = -1 := by decide +kernel
  have := h.1
  omega

theorem test_mayArrive : MayArrive usr .lane ∧ MayArrive usr .pod ∧ isBasecamp (who usr).core = false ∧
    lookD (myCore usr).semq 31 [] = [] ∧ lookD (myCore usr).sems 31 0 = 0 ∧
    lookD (myCore (core usr fun k => { k with sems := [(0, 65534)] })).sems 0 0 = 65534 ∧
    (let s := core usr fun k => { k with semq := [(31, [11])] };
      lookD (myCore s).semq 31 [] = [11] ∧ (look (myCore s).slots 11).isSome = true) := by
  refine ⟨⟨?_, ?_⟩, ⟨?_, ?_⟩, ?_⟩ <;> decide +kernel

theorem test_forwarding : (who usr).slot < 11 ∧ forwardsTo usr true = ⟨1, 0⟩ ∧ forwardsTo usr false = ⟨0, 1⟩ ∧
    (let t := onTeam usr 1 fun t => { t with cores := [0, 1] };
      ∃ u, teamOf t (who t) = some u ∧ (forwardsTo t true).core ∈ u.cores) ∧
    isFull (fwdOf (myCore usr) 0) = false ∧
    (let s := onCore usr 0 (setFwd 0 (BitVec.ofNat 65 (2 ^ 64 + 9)));
      isFull (fwdOf (myCore s) (who s).slot) = true) := by
  refine ⟨?_, ?_, ?_, ⟨{ placedTeam with cores := [0, 1] }, ?_⟩, ?_⟩ <;> decide +kernel

/-- The position map buffer was emptied in the handler (`true`) or not. -/
theorem test_handlers : (∀ e, (me (onMe usr fun x => { x with handler := .refill 7 full, emptied := e })).handler = .refill 7 full ∧
      (me (onMe usr fun x => { x with handler := .refill 7 full, emptied := e })).emptied = e) ∧
    (let s := hold (onMe usr fun x => { x with handler := .upcall full }) 5 (fullAt 0x10000);
      (me s).handler = .upcall full ∧ (me s).handler.active = true ∧ JumpTarget (reg s 5)) := by
  refine ⟨fun e => ?_, ?_, ?_, ?_, ?_, ?_, ?_⟩
  · cases e <;> decide +kernel
  all_goals decide +kernel

theorem test_trapEntry : (10 : Nat) ≠ 11 ∧ (coreOf usr 0).trapOpen = false ∧ (coreOf entered 0).trapOpen = true ∧
    partitionOf entered 0 = some 0 := by decide +kernel

/-- The leader of slot 0 is trapped by a software trap, and the system context names it in register 3. -/
def trapped (skip upc fin : Bool) : State :=
  num (onTeam (onCtx sys ⟨0, 0⟩ fun x => { x with status := .trapped, trapcause := 0x17 }) 1
    fun t => { t with upcall := some 64 }) 3 (controlWord 0 skip upc fin)

/-- The length of the trapping instruction is known, or none is needed. -/
theorem passes {s : State} {id : CtxId} (skip : Bool) (h : isOk (lengthAt id (ctxOf s id).trappc.toNat s) = true) :
    ∃ n t, PassesTrap s id skip n t := by
  cases skip with
  | false => exact ⟨0, s, rfl, rfl⟩
  | true =>
    obtain ⟨⟨n, t⟩, e⟩ := exists_ok h
    exact ⟨n, t, e⟩

theorem test_passesTrap : (∀ skip, ∃ n t, PassesTrap (trapped skip false false) ⟨0, 0⟩ skip n t) ∧
    (∃ n t, PassesTrap (trapped false true false) ⟨0, 0⟩ false n t) ∧
    (∀ skip, ∃ n t, PassesTrap (num sys 3 (controlWord 11 skip false false)) ⟨0, 11⟩ skip n t) := by
  refine ⟨fun skip => passes skip ?_, passes false ?_, fun skip => passes skip ?_⟩ <;> try cases skip
  all_goals decide +kernel

theorem test_returns : (∀ skip, privileged (trapped skip false false) = true ∧
      (reg64 (trapped skip false false) 3).toNat = controlWord 0 skip false false ∧
      (ctxOf (trapped skip false false) ⟨0, 0⟩).preempt = false ∧
      MayReturn (ctxOf (trapped skip false false) ⟨0, 0⟩) skip) ∧
    (reg64 (trapped false true false) 3).toNat = controlWord 0 false true false ∧
    (ctxOf (trapped false true false) ⟨0, 0⟩).handler.active = false ∧
    teamOf (trapped false true false) ⟨0, 0⟩ = some { placedTeam with upcall := some 64 } ∧
    (reg64 (trapped false false true) 3).toNat = controlWord 0 false false true ∧
    (reg64 (num sys 3 (controlWord 11 true false false)) 3).toNat = controlWord 11 true false false ∧
    (me sys).trapcause.toNat ≠ causeFetch := by
  refine ⟨?_, ?_, ?_, ?_, ?_, ?_, ?_⟩
  · intro skip
    cases skip <;> refine ⟨?_, ?_, ?_, ?_, ?_⟩ <;> decide +kernel
  all_goals decide +kernel

theorem test_deniedReturn : let s := onCtx (trapped false false false) ⟨0, 0⟩ fun x => { x with status := .stopped, denied := true }
    privileged s = true ∧ (reg64 s 3).toNat = controlWord 0 false false false ∧ (ctxOf s ⟨0, 0⟩).preempt = false ∧
      MayReturn (ctxOf s ⟨0, 0⟩) false ∧ (ctxOf s ⟨0, 0⟩).status = .stopped ∧ (ctxOf s ⟨0, 0⟩).denied = true := by
  refine ⟨?_, ?_, ?_, ⟨?_, ?_⟩, ?_⟩ <;> decide +kernel

theorem test_unprivileged : privileged usr = false ∧
    privileged (core sys fun k => { k with run := .message ⟨1, 0, ⟨0, 0⟩, 0, 1, full, []⟩ }) = false := by
  decide +kernel

theorem test_specials : (who usr).slot ≠ 11 ∧ teamOf usr (who usr) = some placedTeam ∧
    isBasecamp (who usr).core = false ∧ (reg64 (num usr 3 30) 3).toNat = 30 ∧ privileged sys = true ∧
    slotFree (myCore sys) 10 = true ∧ isBasecamp (who base).core = true ∧ (who base).slot = 11 ∧
    (reg (num sys 3 (2 ^ 65 - 1 + 10 * 2 ^ 68)) 3).bits.toNat = 2 ^ 65 - 1 + 10 * 2 ^ 68 := by decide +kernel



theorem test_fetchDelivery : fetchRequests usr 0 = [] ∧
    (let s := onCtx usr ⟨0, 0⟩ fun x => { x with fetched := false };
      (bestRequest (fetchRequests s 0)).map (fun r => (r.id, r.pc)) = some (⟨0, 0⟩, 0x10000) ∧
      isOk (fillLine ⟨0, 0⟩ 0x10000 s) = true) ∧
    (let s := onCtx usr ⟨0, 0⟩ fun x => { x with fetched := false, code := withCursor x.code 0x7000000 };
      (bestRequest (fetchRequests s 0)).map (fun r => (r.id, r.pc)) = some (⟨0, 0⟩, 0x7000000) ∧
      isOk (fillLine ⟨0, 0⟩ 0x7000000 s) = false) := by
  decide +kernel

/-- Of requests that have waited 32 cycles the older one, of two equally old ones the lower counter (R20). -/
theorem test_fetchOrder : (bestRequest [⟨⟨0, 0⟩, 0x200, none, 32⟩, ⟨⟨0, 1⟩, 0x100, none, 32⟩]).map (·.pc) = some 0x100 ∧
    (bestRequest [⟨⟨0, 0⟩, 0x200, none, 33⟩, ⟨⟨0, 1⟩, 0x100, none, 32⟩]).map (·.pc) = some 0x200 ∧
    (bestRequest [⟨⟨0, 0⟩, 0x200, none, 31⟩, ⟨⟨0, 1⟩, 0x100, none, 0⟩]).map (·.pc) = some 0x100 := by decide

theorem test_operationsComplete : let at' (w : Wait) := onCtx sys ⟨0, 0⟩ fun x => { x with wait := w }
    (ctxOf (at' .plain) ⟨0, 0⟩).status = .live ∧ waitOver (at' .plain) ⟨0, 0⟩ = true ∧
      (ctxOf (at' .ifence) ⟨0, 0⟩).transfers = [] ∧
      helpersLive (at' (.ending 5)) ⟨0, 0⟩ = false ∧
      (putFwd (at' (.fwdPut false 7)) ⟨0, 0⟩ false 7).isSome = true ∧
      (takeFwd (onCore (at' (.fwdGet 3)) 0 (setFwd 0 (BitVec.ofNat 65 (2 ^ 64 + 7)))) ⟨0, 0⟩).isSome = true := by
  decide +kernel

/-- The leader of core 0 has arrived with `j`. -/
def arrivedWith (j : Joined) : State := onCtx sys ⟨0, 0⟩ fun x => { x with wait := .arrived j }

/-- The leader of core 0 as a member of an instance. -/
def member (j : Joined) : Present := ⟨⟨placedTeam, ⟨0, 0⟩, 0⟩, j⟩
/-- A member of package 2 that has arrived with a kind. -/
def afar (k : CollKind) (draw : Option (BitVec 32)) : RemoteMember := ⟨2, 0, k, 0x3F800000, [(5, 0xBF800000), (3, 0x7FC00000)], draw⟩

theorem instance_full {s : State} {sc : Scope} {j : Joined} {remote : List RemoteMember}
    (ht : teamBy s 1 = some placedTeam) (hu : teamsAt s placedTeam sc = [placedTeam])
    (hl : leadersIn s placedTeam sc 0 = [(member j).member]) (ha : Arrived s sc ⟨placedTeam, ⟨0, 0⟩, 0⟩ j)
    (hr : sc ≠ .pod → remote = []) : InstanceFull s placedTeam sc 0 [member j] remote := by
  refine ⟨ht, ?_, by simp [hu, hl], by simp, ?_, hr⟩
  · intro u h
    rw [hu, List.mem_singleton] at h
    subst h
    exact ⟨by decide, by cases sc <;> decide⟩
  · intro p h
    rw [List.mem_singleton] at h
    subst h
    exact ha

theorem test_barrierCompletes : InstanceFull (arrivedWith (.bar .core)) placedTeam .core 0 [member (.bar .core)] [] ∧
    InstanceFull (arrivedWith (.bc 3 4 .pkg)) placedTeam .pkg 0 [member (.bc 3 4 .pkg)] [] ∧
    InstanceFull (arrivedWith (.bar .pod)) placedTeam .pod 0 [member (.bar .pod)] [afar .bar none] ∧
    AllOf .bar [member (.bar .pod)] [afar .bar none] ∧
    (ranked (arrivedWith (.bc 3 4 .pkg)) [member (.bc 3 4 .pkg)] []).length = 1 := by
  refine ⟨instance_full ?_ ?_ ?_ ⟨?_, ?_⟩ ?_, instance_full ?_ ?_ ?_ ⟨?_, ?_⟩ ?_, instance_full ?_ ?_ ?_ ⟨?_, ?_⟩ ?_, ⟨?_, ?_⟩, ?_⟩ <;>
    first | decide +kernel | rfl

theorem test_wins : Wins [(7, 0x3F800000), (5, 0x3F800000), (1, 0x7FC00000), (2, 0xFF800000)] 5 ∧
    Wins [(9, 0x7FC00000), (4, 0xFFFFFFFF)] 4 ∧ Wins [(6, 0x80000000), (8, 0)] 6 := by
  refine ⟨⟨0x3F800000, ?_, ?_⟩, ⟨0xFFFFFFFF, ?_, ?_⟩, ⟨0x80000000, ?_, ?_⟩⟩ <;> decide +kernel

/-- Two tokens of equal logits under p = 1: c = 2, and the draw picks the lower identifier. -/
theorem test_nucleus : nucleus (f32 0x3F800000) 0 [(7, 0x3F800000), (5, 0x3F800000)] = 2 * 2 ^ 32 + 5 ∧
    nucleus (f32 0) 0xFFFFFFFF [(7, 0x3F800000), (5, 0x3F800000)] = 2 ^ 32 + 5 ∧
    nucleus (f32 0x3F800000) 0 [(7, 0x7FC00000), (4, 0xFF800000)] = 2 ^ 32 + 4 := by decide +kernel

theorem test_samplerCompletes : let s := arrivedWith (.top 3 4 255 .pod)
    let u := arrivedWith (.topp 3 4 5 6 255 .pkg)
    let v := arrivedWith (.topp 3 4 5 6 255 .pod)
    (InstanceFull s placedTeam .pod 0 [member (.top 3 4 255 .pod)] [afar .top none] ∧
      AllOf .top [member (.top 3 4 255 .pod)] [afar .top none]) ∧
    (InstanceFull u placedTeam .pkg 0 [member (.topp 3 4 5 6 255 .pkg)] [] ∧ AllOf .topp [member (.topp 3 4 5 6 255 .pkg)] [] ∧
      drawKeyOf (member (.topp 3 4 5 6 255 .pkg)).joined = some 4) ∧
    (InstanceFull v placedTeam .pod 0 [member (.topp 3 4 5 6 255 .pod)] [afar .topp (some 7)] ∧
      AllOf .topp [member (.topp 3 4 5 6 255 .pod)] [afar .topp (some 7)]) := by
  refine ⟨⟨instance_full ?_ ?_ ?_ ⟨?_, ?_⟩ ?_, ?_, ?_⟩, ⟨instance_full ?_ ?_ ?_ ⟨?_, ?_⟩ ?_, ⟨?_, ?_⟩, ?_⟩,
    ⟨instance_full ?_ ?_ ?_ ⟨?_, ?_⟩ ?_, ?_, ?_⟩⟩ <;> first | decide +kernel | rfl

theorem test_grantRounds : let s := onCore sys 0 fun k => { k with route := { k.route with running := true } }
    (coreOf s 0).team.bind (teamBy s) = some placedTeam ∧ (coreOf s 0).route.running = true ∧
      (coreOf s 0).cycle % 64 = 0 ∧ (coreOf s 0).rounded = false ∧ badQueue (coreOf s 0) = none ∧
      (∃ slot < 11, slotFree (coreOf s 0) slot = true) ∧
      (∀ slot < 11, slotFree (coreOf (onCore s 0 fun k => { k with slots := (upFrom 0 11).map fun i => (i, placedLeader) }) 0) slot = false) ∧
      (islandOf { s with islands := [(0, { zeroed := [(3, 1)] })] } 0).zeroed.any (·.1 == 3) = true := by
  decide +kernel

/-- The leader's team at the end of its slice, with a swap area. -/
def sliced : State := { sys with swaplen := 0x40000000, time := 40 }

theorem test_slices : (ctxOf sys ⟨0, 0⟩).status = .live ∧ standsAt sys ⟨0, 0⟩ = true ∧
    standsAt (onCtx sys ⟨0, 0⟩ fun x => { x with wait := .plain }) ⟨0, 0⟩ = false ∧
    (leaveAll [1] sliced).isSome = true ∧
    (enterAll [1] (newRound { sliced with cores := [], teams := [{ placedTeam with resident := false }] })).isSome = true ∧
    (((leaveAll [] sliced).bind (stayAll [1])).bind fun t =>
      if swapFits t then enterAll [1] (newRound t) else none).isSome = true := by decide +kernel

theorem test_arrivals : let m : Message := ⟨1, 0, ⟨0, 0⟩, 0, 1, full, []⟩
    let s (a : Arrival) := onCore sys 0 fun k => { k with inbox := [⟨0, 0, a⟩] }
    nextArrival (coreOf (s (.message m)) 0) = some (0, .message m) ∧
      nextArrival (coreOf (s (.notice 10 0x17 0x10000 5)) 0) = some (0, .notice 10 0x17 0x10000 5) ∧
      (ctxOf sys ⟨0, 10⟩).preempt = false := by decide +kernel

/-- A request of the leader of core 0 to its own core, whose first `n` slots are taken; its calls are `d` deep. -/
def asking (n d : Nat) : State :=
  onCtx (onCore usr 0 fun k =>
    { k with
      inbox := [⟨0, 0, .spawn ⟨1, ⟨0, 0⟩, 4097, 1, full, []⟩⟩]
      slots := (upFrom 1 n).foldl (fun m i => put m i { placedLeader with wait := .plain, uid := 5000 + i }) k.slots }) ⟨0, 0⟩
    fun x => { x with wait := .spawn 1 5 0, calls := List.replicate d ⟨full, 3⟩ }

theorem asking_taken (n d : Nat) (h : systemTurn (coreOf (asking n d) 0) = true)
    (hi : nextArrival (coreOf (asking n d) 0) = some (0, .spawn ⟨1, ⟨0, 0⟩, 4097, 1, full, []⟩))
    (hc : contextByUid (takeArrival (pendingRound 0 (asking n d)) 0 0) 4097 = some ⟨0, 0⟩)
    (hw : (ctxOf (takeArrival (pendingRound 0 (asking n d)) 0 0) ⟨0, 0⟩).wait = .spawn 1 5 0) :
    SpawnTaken (asking n d) 0 ⟨1, ⟨0, 0⟩, 4097, 1, full, []⟩ (takeArrival (pendingRound 0 (asking n d)) 0 0) ⟨0, 0⟩ 5 0 :=
  ⟨h, ⟨0, hi, rfl⟩, hc, 1, hw⟩

theorem test_spawnArrivals : (∀ n d, (n, d) ∈ [(0, 0), (10, 0), (10, 255)] →
      SpawnTaken (asking n d) 0 ⟨1, ⟨0, 0⟩, 4097, 1, full, []⟩ (takeArrival (pendingRound 0 (asking n d)) 0 0) ⟨0, 0⟩ 5 0) ∧
    lowestFree (coreOf (takeArrival (pendingRound 0 (asking 0 0)) 0 0) 0) = some 1 ∧
    teamBy (takeArrival (pendingRound 0 (asking 0 0)) 0 0) 1 = some placedTeam ∧
    lowestFree (coreOf (takeArrival (pendingRound 0 (asking 10 0)) 0 0) 0) = none ∧
    (ctxOf (takeArrival (pendingRound 0 (asking 10 0)) 0 0) ⟨0, 0⟩).calls.length < 255 ∧
    lowestFree (coreOf (takeArrival (pendingRound 0 (asking 10 255)) 0 0) 0) = none ∧
    255 ≤ (ctxOf (takeArrival (pendingRound 0 (asking 10 255)) 0 0) ⟨0, 0⟩).calls.length := by
  refine ⟨?_, ?_⟩
  · intro n d h
    simp only [List.mem_cons, Prod.mk.injEq, List.not_mem_nil, or_false] at h
    obtain ⟨rfl, rfl⟩ | ⟨rfl, rfl⟩ | ⟨rfl, rfl⟩ := h <;> apply asking_taken <;> decide +kernel
  · decide +kernel

theorem test_completionNotice : 
    let s := onTeam (onCtx sys ⟨0, 0⟩ fun x => { x with notices := [7] }) 1 fun t => { t with upcall := some 64 }
    (ctxOf s ⟨0, 0⟩).notices = [7] ∧ UpcallOf s ⟨0, 0⟩ { placedTeam with upcall := some 64 } 64 ∧
      (ctxOf s ⟨0, 0⟩).status = .live ∧ (ctxOf s ⟨0, 0⟩).wait = .none ∧ (ctxOf s ⟨0, 0⟩).holding = false ∧
      (ctxOf s ⟨0, 0⟩).handler = .none ∧ standing (coreOf s 0) 0 = none := by
  refine ⟨?_, ⟨?_, ?_⟩, ?_⟩ <;> decide +kernel

/-- A transfer of `n` bytes on channel 3, from the text page to the landing plane. -/
def copying (src : Cap) (n : Nat) : State :=
  setChannel rich 0 3 { xfer := some ⟨1, 4097, src, .land 0, n, 4, 3⟩ }

theorem test_copyDeliveries : let s := copying (fullAt 0x10000) 64
    let x : Transfer := ⟨1, 4097, fullAt 0x10000, .land 0, 64, 4, 3⟩
    (channelOf (coreOf s 0) 3).xfer = some x ∧ copyPaused s 4097 = false ∧ landsLater (coreOf s 0) x = false ∧
      (∀ l ∈ pieces (capAddr x.src + 0) (pieceEnd x 0 - 0), ownedBefore s x.number l.1 = false) ∧
      (∃ t, deliverPiece 0 x 0 (pieceEnd x 0 - 0) (withoutOwners 1 s) = .ok t) ∧
      (match deliverPiece 0 { x with src := fullAt 0x80000000 } 0 (pieceEnd x 0 - 0) (withoutOwners 1 s) with
        | .error (.trap _) => true
        | _ => false) = true :=
  ⟨by decide +kernel, by decide +kernel, by decide +kernel, by decide +kernel, exists_ok (by decide +kernel), by decide +kernel⟩

/-- A covered pool of 4 granules from granule 3, the second of them in state `g`. -/
def pool (g : GranuleState) : State :=
  { usr with domains := [(0, { covbase := 3, covgran := 4, granules := [(1, ⟨g, true⟩)] })] }

theorem test_coveredStorage : let s := pool (.zero 7)
    (granuleAt (domainOf s 0) 1).state = .zero 7 ∧ stillReached s 4 = false ∧ lowerFirst (domainOf s 0) 1 7 = false ∧
      (let t := onCtx { sys with domains := s.domains } ⟨0, 0⟩ fun x => { x with wait := .covered 5 2 7 8 };
        coverDomain t 5 = some 0 ∧ ∀ j ∈ upFrom 2 2, (granuleAt (domainOf t 0) j).state = .free) := by decide +kernel

/-- A store whose bytes end at a sector's end and one that passes it; the last stands where they say. -/
theorem test_hostVisibility : let p : PendingStore := ⟨4097, some 1, 0, hostBase + 63, [1, 2], [], true⟩
    ({ usr with pending := [p] } : State).pending[0]? = some p ∧
      (∀ q ∈ ({ usr with pending := [{ p with uid := 1 }, p] } : State).pending.take 1, q.uid ≠ p.uid) ∧
      ∃ q ∈ ({ usr with pending := [p, p] } : State).pending.take 1, q.uid = p.uid :=
  ⟨by decide +kernel, by decide +kernel, ⟨⟨4097, some 1, 0, hostBase + 63, [1, 2], [], true⟩, by decide +kernel⟩⟩

/-! Vectors and moments: register 63 of the window, reached by number and by index. -/

theorem test_vectorReach : Plain usr 63 ∧ InV usr 63 63 := by
  refine ⟨?_, ?_, ?_, ?_⟩
  · exact of_decide_eq_true (p := (63 : Reg).val < (me usr).nv) (by decide +kernel)
  all_goals decide +kernel

theorem test_indexedReach : let x : VecX := ⟨.f32, none, .all, .opA 63⟩
    let s := num usr 3 1
    ReachA s 3 x 0 ∧ ReachB s 63 x 63 ∧ ReachC s 0 x 0 := by
  refine ⟨⟨?_, ?_, ?_⟩, ⟨?_, ?_, ?_⟩, ?_, ?_, ?_⟩ <;> decide +kernel

theorem test_pairRegisters : (62 : Reg).val + 1 < (me usr).nv ∧ (14 : Reg).val + 1 < (me usr).ne ∧
    (15 : Reg).val < (me usr).ne ∧ InE usr 15 15 := by
  refine ⟨?_, ?_, ?_, ?_, ?_, ?_⟩ <;> decide +kernel

theorem test_packScales : (∀ i < 2, ∀ v ∈ packBlock usr 1 i, v.isFinite = true) ∧
    badScale 0x3F800000 = false ∧ elem (vreg (me (onMe usr fun x => { x with v := [(1, 0x3F800000)] })) 1) 32 0 = 0x3F800000 :=
  by decide +kernel

theorem test_placeActs : laneActs (BitVec.allOnes 64) (laneOf 4 511) = true ∧ laneActs 0 (laneOf 32 63) = false := by
  decide +kernel

theorem test_ropePosition : (reg (num usr 3 (2 ^ 26 - 1)) 3).bits.toNat % 2 ^ 32 < 2 ^ 26 ∧
    ropeLanes true 0 = [] := by decide +kernel

/-- −0 and +0 are equal, so their indices decide, −1 first; a NaN of any sign comes last, by index and then by bits. -/
theorem test_sortOrder : sortPairs .f32 false [(0xFFC00000, 1), (0, 5), (0x7F800000, 0), (0x80000000, 0xFFFFFFFF), (0x7FC00000, 1), (0xBF800000, 9)] =
      [(0xBF800000, 9), (0x80000000, 0xFFFFFFFF), (0, 5), (0x7F800000, 0), (0x7FC00000, 1), (0xFFC00000, 1)] ∧
    sortPairs .s32 true [(0x80000000, 0), (1, 7), (1, 6)] = [(1, 6), (1, 7), (0x80000000, 0)] := by decide +kernel

theorem test_probes : (∃ i < 64, (0x8000000000000000 : BitVec 64).getLsbD i = true ∧
      ∀ j < i, (0x8000000000000000 : BitVec 64).getLsbD j = false) ∧
    (∃ i < 64, (1 : BitVec 64).getLsbD i = true ∧ ∀ j < 64, i < j → (1 : BitVec 64).getLsbD j = false) ∧
    maskReg (me usr) 1 = 0 := ⟨⟨63, by decide +kernel⟩, ⟨0, by decide +kernel⟩, by decide +kernel⟩

/-- Moment register 1 holds the variance -1 in lane 63. -/
def negative : State := onMe usr fun x => { x with e := [(1, BitVec.ofNat 4096 (0xBF800000 * 2 ^ (64 * 63 + 32)))] }

theorem test_momentPairs : GivesPairs allLanes (fun i => movedPair (covClamp (me usr)) (pairOf usr 1 i)) (fun _ => ⟨0, 0⟩)
      (fun _ => false) ∧
    movedPair (covClamp (me negative)) (pairOf negative 1 63) false = none ∧
    ∀ k < 63, movedPair (covClamp (me negative)) (pairOf negative 1 k) false ≠ none := by
  refine ⟨?_, ?_, ?_⟩
  · intro i hi _
    exact of_decide_eq_true (p := movedPair (covClamp (me usr)) (pairOf usr 1 i) false = some (⟨0, 0⟩, false))
      (by revert i; decide +kernel)
  all_goals decide +kernel

theorem test_variances : negativeVar 0 = false ∧ negativeVar 0x80000000 = false ∧ negativeVar 0x80000001 = true ∧
    negativeVar 0x7FC00000 = true := by decide +kernel

theorem test_collapse : ∀ j < 64, ∀ i, collapseSource .f32 false j = some i →
    movedPair (covClamp (me usr)) (pairOf usr 1 i) false = some (⟨0, 0⟩, false) := by
  have h : ∀ j < 64, movedPair (covClamp (me usr)) (pairOf usr 1 ((collapseSource .f32 false j).getD 0)) false =
    some (⟨0, 0⟩, false) := by decide +kernel
  intro j hj i hi
  simpa [hi] using h j hj

/-- The leaf of the first GiB. -/
def unitLeaf : Translation := ⟨0, 30, 0x73, none⟩
/-- Window 15 of the core, over one unit at 0x30000, with one sector in state `st`. -/
def windowed (st : Sector) : State := core rich fun k =>
  { k with windows := [(15, ⟨0, 1, 0x30000, true, true, true, true, [(0, st)]⟩)] }

theorem test_mapMay : MapMay (hold usr 3 (fullAt 0x10000)) 15 3 0 16 ∧
    mapRefusal (myCore (windowed (.clean unitLeaf))) (reg (windowed (.clean unitLeaf)) 3) 15 0 1 = some 1 := by
  refine ⟨⟨?_, ?_, ?_, ?_, ?_, ?_, ?_, ?_, ?_⟩, ?_⟩ <;> first | decide +kernel | (simp only [Meets]; decide +kernel)

theorem test_windows : let s := windowed (.clean unitLeaf)
    look (myCore s).windows 15 = some ⟨0, 1, 0x30000, true, true, true, true, [(0, .clean unitLeaf)]⟩ ∧
    (∃ t, flushWindows true (who s).core (myCore s).windows s = .ok t) ∧
    (∃ t, flushWindows false (who s).core (myCore s).windows s = .ok t) ∧
    (∃ t, flushWindows true 0 (myCore (windowed (.dirty unitLeaf))).windows (windowed (.dirty unitLeaf)) = .ok t) ∧
    (∀ e ∈ (myCore s).windows, Settled e.2) ∧ (myCore usr).windows = [] := by
  refine ⟨by decide +kernel, exists_ok (by decide +kernel), exists_ok (by decide +kernel), exists_ok (by decide +kernel), ?_,
    by decide +kernel⟩
  have h : ∀ e ∈ (myCore (windowed (.clean unitLeaf))).windows, ∀ x ∈ e.2.sectors, x.2.isDirty = false := by decide +kernel
  exact h

theorem test_aperture : let s := num (num usr 3 16) 4 32
    isBasecamp (who s).core = false ∧ (reg64 s 3).toNat % 16 = 0 ∧ (reg64 s 4).toNat % 16 = 0 ∧ 16 ≤ (reg64 s 4).toNat ∧
      (reg64 s 3).toNat + (reg64 s 4).toNat ≤ stashUnits (myCore s) * 4096 ∧
      (exactCap (permLD + permST) (apertureBase + (reg64 s 3).toNat) (reg64 s 4).toNat).isSome = true := by
  decide +kernel

theorem test_copyMay : let s := num (hold (hold usr 3 (fullAt 0x20000)) 4 (fullAt 0x10000)) 5 1048576
    CopyMay s 3 4 5 3 false ∧ CopyMay (num (num s 3 0) 5 16) 3 4 5 0 true ∧ (channelOf (myCore s) 3).xfer = none ∧
      (channelOf (myCore (copying full 16)) 3).xfer ≠ none := by
  refine ⟨⟨?_, ?_, ?_, ?_, ?_, ?_, ?_, ?_, ?_⟩, ⟨?_, ?_, ?_, ?_, ?_, ?_, ?_, ?_, ?_⟩, ?_, ?_⟩ <;> decide +kernel

theorem test_copyWait : let s := setChannel usr 0 3 { wp := 64, fault := some ⟨0x13, 3, 0⟩ }
    (channelOf (myCore s) 3).fault = some ⟨0x13, 3, 0⟩ ∧ (channelOf (myCore s) 3).xfer = none ∧
      copyPoint s 0 64 ≤ (channelOf (myCore s) 3).wp ∧
      (channelOf (myCore (copying full 16)) 3).wp < copyPoint (copying full 16) 0 1 ∧
      pinnedByOther (myCore s) (who s).slot (channelPin 3) = false := by decide +kernel

/-- Register 3 holds a view over granules 3 and 4, each covered once. -/
def viewing : State := hold { usr with domains := [(0, { covbase := 3, covgran := 4, granules :=
  [(0, ⟨.covered 1, false⟩), (1, ⟨.covered 65534, false⟩)] })] } 3 view

theorem test_views : Holds viewing 3 0x30000 0x50000 ∧ RoomFor viewing (granulesOf 0x30000 0x50000) ∧
    Parts viewing 3 0x30000 0x50000 0x30002 (boundedCap viewPerms 0x30000 2) (boundedCap viewPerms 0x30002 0x1FFFE) ∧
    Narrows viewing 3 0x30000 0x50000 0x20000 view ∧ look (myCore viewing).parks 15 = none ∧
    look (myCore (core viewing fun k => { k with parks := [(0, full)] })).parks 0 = some full := by
  refine ⟨⟨?_, ?_⟩, ?_, ⟨?_, ?_, ?_, ?_⟩, ⟨?_, ?_, ?_, ?_⟩, ?_, ?_⟩ <;> try decide +kernel
  have h : ∀ g ∈ granulesOf 0x30000 0x50000, (coverCount viewing g).getD 0 < 65535 := by decide +kernel
  intro g hg n hn
  simpa [hn] using h g hg

theorem test_claims : (65537 : Nat) % 65536 ≠ 0 ∧ (131072 : Nat) % 65536 = 0 ∧
    (let x := domainOf (pool .free) 0;
      claimable x 0 = true ∧ claimable x 1 = false ∧ claimable x 2 = true ∧ claimable x 3 = true ∧ x.covgran.toNat = 4) ∧
    (teamOf (pool .free) (who (pool .free))).isSome = true := by decide +kernel

/-- Register 3 holds all rights over the text page with its cursor at `a`, register 4 a number. -/
def access (a : Nat) : State := num (hold rich 3 (fullAt a)) 4 0x80

theorem test_scalarAccesses : capCheck (reg (access 0x10008) 3) 0x10008 8 permLD = none ∧
    (∃ r, readRange (memActor (access 0x10008) 3 plainX) 0x10008 8 (access 0x10008) = .ok r) ∧
    (∃ r, writeRange (memActor (access 0x1FFFF) 3 plainX) 0x1FFFF (bytesOf 1 0x80) (access 0x1FFFF) = .ok r) ∧
    capCheck (reg (access 0x10008) 4) 0x80 8 permLD = some .tag ∧
    capCheck (boundedCap 3 0x10000 16) 0x10009 8 permST = some .bounds ∧
    capCheck (boundedCap 3 0x10000 16) 0x10008 8 permST = none :=
  ⟨by decide +kernel, exists_ok (by decide +kernel), exists_ok (by decide +kernel), by decide +kernel⟩

theorem test_capabilityAccesses : (∃ r, readPiece (memActor (access 0x10010) 3 plainX) 0x10010 16 rightLD (access 0x10010) = .ok r) ∧
    (∃ r, writePiece (memActor (access 0x10010) 3 plainX) 0x10010 (bytesOf 16 full.bits.toNat) full.tag rightST
      (access 0x10010) = .ok r) ∧ MayStoreCap full full ∧ isView full = false ∧ isView view = true ∧
    ¬ MayStoreCap (boundedCap 31 0x10000 16) (boundedCap 1 0 16) ∧ ((0x10011 : Int) % 16 ≠ 0) := by
  refine ⟨exists_ok (by decide +kernel), exists_ok (by decide +kernel), fun _ => by decide +kernel, by decide +kernel,
    by decide +kernel, ?_, by decide⟩
  intro h
  exact absurd (h (by decide +kernel)) (by decide +kernel)

theorem test_laneAccesses : LanesMay (access 0x10000) 3 1 (fun i => 0x10000 + 4 * i) 4 permLD ∧
    (∃ r, loadLanes (memActor (access 0x10000) 3 plainX) 4 (laneAddrs 1 fun i => 0x10000 + 4 * i) (access 0x10000) = .ok r) ∧
    (∃ r, storeLanes (memActor (access 0x10000) 3 plainX) 8 (fun _ => 7) (laneAddrs 0x8000000000000000 fun i => 0x10000 + 8 * i)
      (laneAddrs 0x8000000000000000 fun i => 0x10000 + 8 * i) (access 0x10000) = .ok r) ∧
    capCheck (boundedCap 3 0x10000 256) (0x10000 + 4 * 64) 4 permLD = some .bounds ∧
    laneActs 0x8000000000000000 63 = true ∧ ((0x10002 : Int) % 4 ≠ 0) := by
  refine ⟨?_, exists_ok (by decide +kernel), exists_ok (by decide +kernel), by decide +kernel⟩
  have h : ∀ i < 64, laneActs 1 i = true →
      capCheck (reg (access 0x10000) 3) (0x10000 + 4 * i) 4 permLD = none ∧ (0x10000 + 4 * (i : Int)) % 4 = 0 := by
    decide +kernel
  exact h

theorem test_atomics : AtomicMay (access 0x10008) 3 0x10008 8 ∧ AtomicMay (access 0x10010) 3 0x10010 16 ∧
    (∃ r, readPiece (memActor (access 0x10008) 3 plainX) 0x10008 8 rightAtomic (access 0x10008) = .ok r) ∧
    (∃ r, writePiece (memActor (access 0x10008) 3 plainX) 0x10008 (bytesOf 8 5) false rightAtomic (access 0x10008) = .ok r) ∧
    lowOf (access 0x10008) 5 8 = 0 ∧ lowOf (access 0x10008) 4 4 = 0x80 ∧ (Cap.null ≠ full) := by
  refine ⟨⟨?_, ?_⟩, ⟨?_, ?_⟩, exists_ok ?_, exists_ok ?_, ?_⟩ <;> decide +kernel

theorem test_fences : fenceWaits usr (who usr) .pkg = false ∧ (me usr).failures = [] ∧
    fenceWaits (onMe usr fun x => { x with sent := [(1, 1)] }) (who usr) .pkg = true ∧
    scopeCovers usr (who usr).core .core 0 = true ∧ scopeCovers usr (who usr).core .core 1 = false := by decide +kernel

/-- A computation ends well with a result of which `p` holds. -/
def ends {ε α : Type} (x : Except ε α) (p : α → Bool) : Bool :=
  match x with
  | .ok a => p a
  | .error _ => false

theorem exists_end {ε α : Type} {x : Except ε α} {p : α → Bool} (h : ends x p = true) : ∃ a, x = .ok a ∧ p a = true := by
  cases x with
  | ok a => exact ⟨a, rfl, h⟩
  | error e => cases h

/-- A domain whose one sequence slot has its record at 0x90200 with the fields `bits`, a map at 0x90400 of one block a
layer, a KV pool of two pages and a tree of 8-token blocks. -/
def seqs (bits : Nat) : State :=
  let bytes (a n x : Nat) : List Host.Cell :=
    ((List.range n).map fun i => (a + i, BitVec.ofNat 8 (x / 256 ^ i))).filter fun c => c.2 != 0
  onDomain { rich with memory := {
      cells := rich.memory.cells ++ bytes 0x90200 32 bits ++ bytes 0x90250 16 (boundedCap 255 0x90400 0x100).bits.toNat
      tags := [0x9025] } } 0 fun d => { d with
    seqBase := 0x90200, seqCount := 1, kvbase := 3, kvpages := 2, trees := [⟨7, 0, 1, 3, 4, []⟩] }

/-- The same with the token count `n` of tree 7 in register 5, and a capability to tokens in register 4. -/
def toks (bits n : Nat) : State := num (hold (seqs bits) 4 (fullAt 0x90800)) 5 (n + 7 * 2 ^ 32)

theorem test_positionMap : (keyIn usr 0).clean = true ∧ (keyIn (num usr 3 (2 ^ 127)) 3).clean = false ∧
    mapHit usr (reg usr 0).bits = none ∧
    mapHit (core usr fun k => { k with posmap := [(255, ⟨7, full, 4097⟩)] }) 7 = some full ∧
    (me usr).handler = .none ∧ (me usr).refilled = none ∧
    (me (onMe usr fun x => { x with refilled := some (0, capAddr x.code) })).refilled =
      some ((reg usr 0).bits, capAddr (me usr).code) ∧
    teamOf (onTeam usr 1 fun t => { t with refill := some 64 }) (who usr) = some { placedTeam with refill := some 64 } ∧
    placedTeam.refill = none ∧
    wholePage (seqs 0) 0 (boundedCap 3 0x30000 0x10000) = true ∧ wholePage (seqs 0) 0 full = false := by decide +kernel

/-- An FP32 descriptor of 16 elements in slot 255. -/
def rows : State := onTeam (seqs (2 + 9 * 2 ^ 40)) 1 fun t =>
  { t with descs := [(255, BitVec.ofNat 512 (16 * 2 ^ 256 + 2 ^ 288 + 2 ^ 320 + 2 ^ 352))] }

theorem test_kvAppends : KvMay rows 0 62 63 255 (Machine.descOf rows 255) ∧
    (domainOf usr (myDomain usr)).seqCount ≤ (keyIn usr 0).seq ∧
    (∃ a, readRecord (myEngine rows) (myDomain rows) 0 rows = .ok a ∧
      (a.1.gen == 0 && a.1.state == 2 && a.1.logp == 9 && a.1.nl == 1 && a.1.rlen == 0) = true) ∧
    (∃ a, appendRows (keyIn rows 0) 0 0 64 [] [] rows = .ok a) := by
  refine ⟨⟨⟨?_, ?_⟩, ⟨?_, ?_, ?_⟩, ?_⟩, ?_, exists_end ?_, exists_ok ?_⟩ <;> decide +kernel

theorem test_pageCounts : kvCount (domainOf (seqs 0) 0) 1 ≤ 1 ∧
    2 ≤ kvCount (domainOf (onDomain (seqs 0) 0 fun d => { d with pages := [(0, .counted 65535)] }) 0) 0 := by decide +kernel

theorem test_cairn : SequenceKey (toks 0 8) 3 ∧ TokensMay (toks 0 8) 4 5 ∧ treeIn (toks 0 8) 5 = some ⟨7, 0, 1, 3, 4, []⟩ ∧
    treeIn (num usr 5 0) 5 = none ∧
    (∃ a, sequenceRecord (keyIn (toks 0 8) 3) (toks 0 8) = .ok a ∧ (a.1.any fun r => r.state == 0 &&
      ends (readTokens 4 8 a.2) fun b => isOk (cairnMatch ⟨7, 0, 1, 3, 4, []⟩ (keyIn (toks 0 8) 3) r b.1 b.2)) = true) ∧
    (∃ a, sequenceRecord (keyIn (toks 2 8) 3) (toks 2 8) = .ok a ∧ (a.1.any fun r => r.state == 2 &&
      ends (readTokens 4 8 a.2) fun b => isOk (cairnInsert ⟨7, 0, 1, 3, 4, []⟩ r b.1 1 b.2)) = true) ∧
    (∃ a, sequenceRecord ⟨1, 0, 0, 0, true⟩ (toks 0 8) = .ok a ∧ a.1.isNone = true) ∧
    (∃ a, readTokens 4 8 (toks 0 8) = .ok a ∧ isOk (cairnRelease ⟨7, 0, 1, 3, 4, []⟩ a.1 a.2) = true) := by
  refine ⟨⟨?_, ?_, ?_⟩, ?_, ?_, ?_, exists_end ?_, exists_end ?_, exists_end ?_, exists_end ?_⟩
  all_goals first | decide +kernel | (unfold TokensMay; decide +kernel)

theorem test_admission : ReserveRefused ⟨0, 0⟩ 0 5 0x300 ∧ ReserveRefused ⟨0, 0⟩ (2 ^ 32 - 1) 1 0x300 ∧
    ¬ ReserveRefused ⟨2 ^ 96, 0⟩ 8 0 0x300 ∧
    (∃ a, sequenceRecord (keyIn (seqs (2 ^ 96)) 3) (seqs (2 ^ 96)) = .ok a ∧ (a.1.any fun r => r.state == 0) = true) ∧
    (∃ a, sequenceRecord (keyIn (seqs 2) 3) (seqs 2) = .ok a ∧ (a.1.any fun r => r.state == 2 &&
      isOk (endSequence (myEngine (seqs 2)) 0 0 r a.2) &&
      isOk (writeRecord (myEngine (seqs 2)) 0 0 (admittedRecord r 8 0 0x300) a.2)) = true) := by
  refine ⟨?_, ?_, ?_, exists_end ?_, exists_end ?_⟩ <;> first | decide +kernel | (unfold ReserveRefused; decide +kernel)

theorem test_messageSends : let s := num (hold usr 3 (withSeal full true)) 4 0
    SendMay s 3 5 4 ∧ RoomAt s 4 ∧ (me s).own = none ∧ sendsPending s (who s) = false ∧ (me s).failures = [] ∧
      sendsPending (onMe s fun x => { x with sent := [(1, 1)] }) (who s) = true ∧
      (me (onMe s fun x => { x with own := some 7 })).own = some 7 := by
  refine ⟨⟨⟨placedTeam, ?_⟩, ?_, ?_, ?_, ?_⟩, fun _ => ?_, ?_⟩
  all_goals decide +kernel

/-- A helper in slot 0 that may migrate. -/
def mover : State := onMe (hold rich 3 (fullAt 0x10000)) fun x => { x with kind := .helper 1 }

theorem test_migration : ((me mover).kind ≠ .leader ∧ (who mover).slot ≠ 11) ∧ (me mover).pin = .none ∧
    (∃ a, checkGrant { memActor mover 3 plainX with served := false } 0x10000 rightLD mover = .ok a ∧
      ends (locate { memActor mover 3 plainX with served := false } 0x10000 1 rightLD a.2) (fun b =>
        !b.1.hostHomed && servingCore b.1.pa != (who b.2).core && lowestFree (coreOf b.2 (servingCore b.1.pa)) == some 0) = true) ∧
    (me (onMe mover fun x => { x with home := some ⟨0, 5⟩ })).home = some ⟨0, 5⟩ ∧ (me mover).home = none := by
  refine ⟨?_, ?_, exists_end ?_, ?_⟩ <;> decide +kernel

/-- A descriptor in slot 255 of the leader's team with the fields `x`, over the mapped region from 0x10000. -/
def described (s : State) (x : Nat) : State := onTeam s 1 fun t =>
  { t with descs := put t.descs 255 (BitVec.ofNat 512 ((fullAt 0x10000).bits.toNat + x)), descTags := put t.descTags 255 3 }
/-- A vector of `n` elements of a format. -/
def vector (n fmt : Nat) : Nat := n * 2 ^ 256 + 2 ^ 288 + 2 ^ 320 + 2 ^ 352 + fmt * 2 ^ 480

theorem elements_may {d : Desc} {perm : Nat} {ps : List Pos}
    (h : (ps.all fun p => !d.holds p || capCheck d.base (d.place p).1 (d.place p).2 perm == none) = true) :
    ElementsMay d perm ps := by
  intro p hp hd
  simpa [hd] using List.all_eq_true.1 h p hp

/-- One F16 element; the plane holds F16. -/
def plane : State := core (described rich (vector 1 2)) fun k => { k with activeTag := (2, 0), shadowTag := (2, 0) }

theorem test_matrixLoad : LoadMay plane 255 0 0 (Machine.descOf plane 255) ∧
    weightBlocks (Machine.descOf plane 255) (origin plane 0 0) = [] ∧
    (∃ a, readScales (Machine.descOf plane 255) [] plane = .ok a ∧
      (badIndices (Machine.descOf plane 255) a.1 == [] &&
        isOk (readColumns (Machine.descOf plane 255) (origin plane 0 0) 128 columns a.2)) = true) := by
  refine ⟨⟨⟨⟨rfl, ?_⟩, ?_⟩, elements_may ?_, ?_, ⟨⟨?_, ?_⟩, ?_⟩, ?_⟩, ?_, exists_end ?_⟩ <;>
    first | decide +kernel | (unfold ScalesMay; decide +kernel) | (unfold InTurn; decide +kernel)

/-- The leader's logits of two FP32 elements, and its draw from a sequence that decodes and from one that does not. -/
theorem test_logits : let s := described rich (vector 2 9)
    let p : Present := ⟨⟨(teamBy s 1).getD placedTeam, ⟨0, 0⟩, 0⟩, .topp 3 4 0 0 255 .pod⟩
    (∃ a, gatherLogits [p] s = .ok a ∧ (a.1.map (·.1) == [0, 1]) = true) ∧
    (∃ a, memberDraw p.member 4 (seqs 0) = .ok a ∧ (a.1 == none) = true) ∧
    (∃ a, memberDraw p.member 4 (seqs 2) = .ok a ∧ (a.1.isSome && isOk (gatherLogits [p] a.2)) = true) := by
  refine ⟨exists_end ?_, exists_end ?_, exists_end ?_⟩ <;> decide +kernel

/-- The same with an instruction of slot 1 held before. -/
def lined : State := core plane fun k => { k with held := [{ (default : Held) with slot := 1 }] }

theorem test_matrixSwap : EngineFree plane .mx ∧ InTurn plane ∧ HasDesc plane 255 (Machine.descOf plane 255) ∧
    planeDepth (Machine.descOf plane 255).fmtCode ≠ 0 ∧
    ((channelOf (myCore plane) 0).xfer = none ∧ (channelOf (myCore plane) 0).stopped = false) ∧
    badPlaneScales (myCore plane).staging (Machine.descOf plane 255).fmtCode (Machine.descOf plane 255).sk = [] ∧
    EngineFree lined .mx ∧ ¬ InTurn lined ∧
    (let s := core plane fun k => { k with channels := [(3, { xfer := some ⟨1, 4097, full, .land 0, 64, 4, 3⟩, last := 1 })] };
      (channelOf (myCore s) 3).xfer.any (·.number == (awaited (myCore s) (who s).slot 3).1) = true) ∧
    (let s := core plane fun k => { k with channels := [(3, { stopped := true, last := 1 })] };
      awaited (myCore s) (who s).slot 3 = (1, true) ∧ (channelOf (myCore s) 3).xfer.any (·.number == 1) = false) := by
  refine ⟨⟨?_, ?_⟩, ?_, ⟨rfl, ?_⟩, ?_, ?_, ?_, ⟨?_, ?_⟩, ?_, ?_⟩ <;> first | decide +kernel | (unfold InTurn; decide +kernel)

theorem test_matrixStream : let d := Machine.descOf plane 255
    StreamMay plane 0 0 0 255 false 7 d ∧ streamedRows d (origin plane 0 0) = [0] ∧
    (∃ a, readScales d [] plane = .ok a ∧ (badIndices d a.1 == [] &&
      isOk (streamRows (activePlane (myCore plane)) d (origin plane 0 0) 0 112 true false (fun i j => rowScale d a.1 4 i j) 0
        [0] a.2)) = true) := by
  refine ⟨⟨⟨⟨rfl, ?_⟩, ?_⟩, ?_, ?_, ⟨⟨?_, ?_⟩, ?_⟩, fun _ => ?_, ⟨?_, fun h => ?_⟩⟩, ?_, exists_end ?_⟩
  all_goals first | cases h | decide +kernel | (unfold ElementsMay; decide +kernel) | (unfold ScalesMay; decide +kernel) |
    (unfold NoJobReads; decide +kernel) | (unfold InTurn; decide +kernel) | (unfold PlaneScalesGood; decide +kernel)

/-- Values in descriptor 255; indices and pointers, INT32 and all zero, in 254. -/
def sparse : State := onTeam plane 1 fun t =>
  { t with descs := put t.descs 254 (BitVec.ofNat 512 ((fullAt 0x28000).bits.toNat + vector 2 9))
           descTags := put t.descTags 254 1 }

theorem test_matrixSparse : let dn := Machine.descOf sparse 255; let d := Machine.descOf sparse 254
    SparseMay sparse 0 0 255 254 254 0 dn d d ∧ sparseRowsOf sparse 0 d = [0] ∧ pointersOf sparse 0 d = [0, 1] ∧
    (∃ a, readAt d [0, 1] sparse = .ok a ∧ (pointersGood (min (dn.size 0) (d.size 0)) (a.1.map (intValue .s32)) && entryCount (a.1.map (intValue .s32)) == 0 &&
      isOk (sparseRows (activePlane (myCore sparse)) dn d 0 0 0 false [(0, 0, 0)] a.2)) = true) := by
  refine ⟨⟨⟨⟨rfl, ?_⟩, ?_⟩, ⟨⟨rfl, ?_⟩, ?_⟩, ⟨⟨rfl, ?_⟩, ?_⟩, ?_, ⟨⟨?_, ?_⟩, ?_⟩, fun _ => ?_, ?_⟩, ?_, ?_, exists_end ?_⟩
  all_goals first | decide +kernel | (unfold ElementsMay; decide +kernel) | (unfold NoJobReads; decide +kernel) |
    (unfold InTurn; decide +kernel) | (unfold PlaneScalesGood; decide +kernel)

theorem test_accumulators : isBasecamp (who usr).core = false ∧ InTurn usr ∧ (62 : Nat) + 1 < (me usr).nv ∧ (14 : Nat) + 1 < (me usr).ne ∧
    ((List.range 128).all fun j => movedPair (covClamp (me usr)) (pairsOfRows (rowOfTile usr 0 1) (rowOfTile usr 1 1) j) false
      == some (⟨0, 0⟩, false)) = true ∧
    NoJobReads usr 3 (maskBlocks 255) ∧ NoJobReads usr 3 [7] := by
  refine ⟨?_, ?_, ?_, ?_, ?_, ?_, ?_⟩ <;> first | decide +kernel | (unfold NoJobReads; decide +kernel) | (unfold InTurn; decide +kernel)

/-- A block at 0x10000 with `n` as its header and `h` as its first halfword. -/
def program (n h : Nat) : State := stored (hold rich 3 (fullAt 0x10000)) 0x10000 (bytesOfNat 6 (n + h * 2 ^ 32))

theorem test_epilogueLoad : (∃ t, HeaderRead (program 65 0) 3 65 t) ∧
    (∃ a, readRange (regActor (program 1 0) 3) 0x10000 4 (program 1 0) = .ok a ∧ (natOfBytes a.1 == 1 &&
      ends (readRange (regActor (program 1 0) 3) 0x10004 2 a.2) fun b => programStatus (halfwords 1 b.1) == 0) = true) ∧
    (∃ a, readRange (regActor (program 1 0) 3) 0x10000 4 (program 1 0xFFFF) = .ok a ∧ (natOfBytes a.1 == 1 &&
      ends (readRange (regActor (program 1 0) 3) 0x10004 2 a.2) fun b => programStatus (halfwords 1 b.1) == 1) = true) := by
  refine ⟨?_, exists_end ?_, exists_end ?_⟩
  · obtain ⟨a, h, e⟩ := exists_end (x := readRange (regActor (program 65 0) 3) 0x10000 4 (program 65 0))
      (p := fun a => natOfBytes a.1 == 65) (by decide +kernel)
    exact ⟨a.2, by decide +kernel, ⟨by decide +kernel, by decide +kernel⟩, by unfold InTurn; decide +kernel, by decide +kernel,
      a.1, h, by simpa using e⟩
  all_goals decide +kernel

/-- An output of one FP32 element, a program that stores its row, two rows in register 6. -/
def epilogue : State := core (num (described rich (vector 1 0)) 6 (2 * 256)) fun k => { k with ep := { k.ep with program := [0xA800#16, 0] } }

theorem loads_none : runLoads epilogue 6 = [] := by decide +kernel

theorem pairless : ∀ h ∈ (myCore epilogue).ep.program, ¬ (epOp h.toNat = 1 ∧ epM h.toNat = 1) := by
  have e : ((myCore epilogue).ep.program.all fun h => !(epOp h.toNat == 1 && epM h.toNat == 1)) = true := by decide +kernel
  rintro h hh ⟨x, y⟩
  have z := List.all_eq_true.1 e h hh
  simp [x, y] at z

theorem test_epilogueRun : RunIssues epilogue 0 255 (Machine.descOf epilogue 255) ∧
    RunMay epilogue 0 6 0 255 false (Machine.descOf epilogue 255) (List.replicate 4 Cap.null) ∧
    (∃ a, issueParameters 0 epilogue = .ok a ∧ (a.1.1 == List.replicate 8 0 && a.1.2 == List.replicate 4 Cap.null) = true) ∧
    (runPlaces epilogue 0 6).length = 2 := by
  refine ⟨{
    desc := ⟨rfl, by decide +kernel⟩
    block := fun h => (h rfl).elim
    engine := ⟨by decide +kernel, by decide +kernel⟩ }, {
    output := by decide +kernel
    idle := ⟨by unfold InTurn; decide +kernel, by decide +kernel⟩
    moment := .inr pairless
    elements := elements_may (by decide +kernel)
    scales := by unfold ScalesMay; decide +kernel
    loads := fun _ h => by rw [loads_none] at h; cases h }, exists_end ?_, ?_⟩ <;> decide +kernel

/-- The job that `ep.run` starts there. -/
def running (p : List (BitVec 16)) : State :=
  core epilogue fun k => { k with ep := startJob (newJob epilogue 0 0 6 (Machine.descOf epilogue 255) false none
    (List.replicate 8 0) (List.replicate 4 Cap.null)) { k.ep with program := p } }

/-- How a run ends. -/
def endsDone : RowEnd → Bool
  | .done _ _ => true
  | _ => false
def endsFaulted : RowEnd → Bool
  | .faulted _ _ _ => true
  | _ => false

theorem test_epilogueWait : EngineFree (running []) .ep ∧ InTurn (running []) ∧ (myCore (running [])).ep.job ≠ none ∧
    RunIssues (running []) 0 255 (Machine.descOf (running []) 255) ∧
    (∃ a, issueParameters 0 (running []) = .ok a ∧ true = true) ∧
    (myCore (core usr fun k => { k with ep := { k.ep with fault := some ⟨5, 1, 2⟩ } })).ep.fault = some ⟨5, 1, 2⟩ ∧
    (myCore usr).ep.jobs = 0 ∧ (myCore usr).ep.fault = none ∧ (myCore usr).ep.job = none := by
  refine ⟨⟨?_, ?_⟩, ?_, ?_, ⟨⟨rfl, ?_⟩, fun h => (h rfl).elim, ⟨?_, ?_⟩⟩, exists_end (p := fun _ => true) ?_, ?_, ?_, ?_, ?_⟩ <;>
    first | decide +kernel | (unfold InTurn; decide +kernel)

theorem test_epilogueRow : (((coreOf (running [0xA800]) 0).ep.job.map fun j => endsDone (runRow 0
      (columnSeed 0 (coreOf (running [0xA800]) 0).ep) j 0 [0xA800] (freshRow (coreOf (running [0xA800]) 0).ep)
      (running [0xA800]))) = some true) := by
  decide +kernel

theorem test_epilogueRowFault : (((coreOf (running [0x8000]) 0).ep.job.map fun j => endsFaulted (runRow 0
      (columnSeed 0 (coreOf (running [0x8000]) 0).ep) j 0 [0x8000] (freshRow (coreOf (running [0x8000]) 0).ep)
      (running [0x8000]))) = some true) := by
  decide +kernel

/-- A shard of two logits; the temperature 1.0 in register 6; a sequence in the middle of its steps. -/
def shard (bits : Nat) : State := num (described (seqs bits) (vector 2 0)) 6 0x3F800000

theorem test_shards : let s := shard 2; let x := Machine.descOf (shard 2) 255
    ShardMay s 255 (permLD + permST) x ∧ goodTemperature (f32Field s 6 0) = true ∧ goodTemperature (f32Field s 0 0) = false ∧
    isOk (eachLogit x (fun _ y => some (rne32 false ((f32 y).div (f32Field s 6 0)))) (shardIndices x) s) = true ∧
    BadPenalty s 6 := by
  refine ⟨⟨⟨rfl, ?_⟩, ?_, ?_⟩, ?_, ?_, ?_, ?_⟩ <;> first | decide +kernel | (unfold BadPenalty; decide +kernel) | (unfold ElementsMay; decide +kernel)

/-- Penalty parameters α = 0, β = 0, ρ = 1 in register 6. -/
def penalty : State := num (shard 2) 6 (0x3F800000 * 2 ^ 64)

theorem test_sampledSequence : SequenceKey (shard 2) 3 ∧ ¬ BadPenalty penalty 6 ∧
    (∃ a, admitted (keyIn penalty 3) penalty = .ok a ∧ (match a.1 with
      | .error _ => false
      | .ok r => ends (readCounters r.pen (heldCounts penalty r 0) ((shardIndices (Machine.descOf penalty 255)).map
          (tokenOf penalty 0)) a.2) (fun c => c.1.isNone) &&
        ends (readCounters (fullAt 0x10100) (heldCounts penalty r 0) ((shardIndices (Machine.descOf penalty 255)).map
          (tokenOf penalty 0)) a.2) (fun c => match c.1 with
            | none => false
            | some ns => isOk (eachLogit (Machine.descOf penalty 255) (fun i y => if 0 < min (ns.getD i 0) 32767 then
              some (penalised (f32Field penalty 6 0) (f32Field penalty 6 1) (f32Field penalty 6 2) (min (ns.getD i 0) 32767).toNat y)
            else none) (shardIndices (Machine.descOf penalty 255)) c.2)) &&
        isOk (eachLogit (Machine.descOf penalty 255) (fun i y => some (noisy (BitVec.ofNat 64 r.seed) (sigmaOf r)
          (tokenOf penalty 0 i) y)) (shardIndices (Machine.descOf penalty 255)) a.2)) = true) ∧
    (∃ a, admitted (keyIn (shard 0) 3) (shard 0) = .ok a ∧ (match a.1 with
      | .error st => st == 3
      | .ok _ => false) = true) := by
  refine ⟨?_, ?_, exists_end ?_, exists_end ?_⟩
  all_goals first | decide +kernel | (unfold SequenceKey; decide +kernel) | (unfold BadPenalty; decide +kernel)

theorem test_collectiveArrivals : MayArrive usr .pkg ∧ isBasecamp (who usr).core = false ∧
    ShardMay (shard 2) 255 permLD (Machine.descOf (shard 2) 255) := by
  refine ⟨?_, ?_, ⟨⟨rfl, ?_⟩, ?_, ?_⟩⟩ <;> first | decide +kernel | (unfold MayArrive; decide +kernel) | (unfold ElementsMay; decide +kernel)

/-- A map at 0x10000 that takes each role to its own number, and leaves the last three unmapped. -/
def mapped : State := stored (hold rich 3 (fullAt 0x10000)) 0x10000 ((List.range 32).flatMap fun i => if i < 29 then [BitVec.ofNat 8 i, 0, 0, 0] else [255, 255, 255, 255])

theorem test_vocabulary :
    (∃ a, readRange (regActor mapped 3) 0x10000 128 mapped = .ok a ∧ (mapStatus (mapFrom a.1) == 0) = true) ∧
    (∃ a, readRange (regActor (hold rich 3 (fullAt 0x10000)) 3) 0x10000 128 (hold rich 3 (fullAt 0x10000)) = .ok a ∧
      (mapStatus (mapFrom a.1) != 0) = true) ∧
    (∃ a, admitted (keyIn (shard 2) 3) (shard 2) = .ok a ∧ (match a.1 with
      | .error _ => false
      | .ok r => !r.draft && !decBusy r.dec && fqCount r.fq == 0 && isOk (writeRecord (myEngine (shard 2)) 0 0 (boundRecord (shard 2) 6 r) a.2)) = true) ∧
    (∃ a, admitted (keyIn (shard 6) 3) (shard 6) = .ok a ∧ (match a.1 with
      | .error _ => false
      | .ok r => r.draft) = true) := by
  refine ⟨exists_end ?_, exists_end ?_, exists_end ?_, exists_end ?_⟩
  all_goals first | decide +kernel

/-- A bound sequence on core 0, its map in slot 0, its overlay capability in register 7. -/
def bound (more : Nat) : State := hold (core (shard (2 + 2 ^ 75 + more)) fun k =>
  { k with vocab := put k.vocab 0 ((List.range 32).map fun i => BitVec.ofNat 32 i) }) 7 (fullAt 0x10000)

theorem test_steps :
    (∃ a, admitted (keyIn (bound 0) 3) (bound 0) = .ok a ∧ (match a.1 with
      | .error _ => false
      | .ok r => r.bound && r.root == 0 && isOk (stepSequence (keyIn (bound 0) 3) r 64 a.2) && boundHere (bound 0) r &&
        !r.draft && capCheck (reg (bound 0) 7) 0x10000 (16 * r.nl * draftRow r) (permLD + permST) == none && capCheck (reg (bound 0) 0) 0 (16 * r.nl * draftRow r) (permLD + permST) != none &&
        isOk (writeRecord (myEngine (bound 0)) 0 0 (draftedRecord (bound 0) 7 r) a.2) &&
        isOk (verifyDraft (keyIn (bound 0) 3) r 0 a.2)) = true) ∧
    (∃ a, admitted (keyIn (bound 4) 3) (bound 4) = .ok a ∧ (match a.1 with
      | .error _ => false
      | .ok r => r.draft && boundHere (bound 4) r) = true) ∧
    (∃ a, admitted (keyIn (shard 2) 3) (shard 2) = .ok a ∧ (match a.1 with
      | .error _ => false
      | .ok r => !r.bound && !boundHere (shard 2) r) = true) ∧ isView (reg (bound 0) 7) = false := by
  refine ⟨exists_end ?_, exists_end ?_, exists_end ?_, ?_⟩
  all_goals first | decide +kernel

/-- Drawn arithmetic at its limit. -/
def drawnAt (opc : Nat) : Drawn :=
  ⟨opc, true, 0, 0, 0, 0, 0, [], [32767, 3, -32768, 0, 0, 0, 0, 0], false, 0, false, []⟩

theorem test_drawnArithmetic : (drawnAt 2).q.length = 8 ∧ (drawnAt 2).qsel < 8 ∧
    (∀ v ∈ (drawnAt 2).q, -32768 ≤ v ∧ v ≤ 32767) ∧ qAt (drawnAt 5) 1 ≠ 0 ∧ qAt (drawnAt 6) 3 = 0 ∧
    qAt { drawnAt 13 with qsel := 2 } 2 < 0 ∧ (List.range 32).length = 32 ∧
    ([] : List (BitVec 32)).getD 28 0xFFFFFFFF = 0xFFFFFFFF ∧ (List.replicate 29 (7 : BitVec 32)).getD 28 0xFFFFFFFF ≠ 0xFFFFFFFF := by
  decide +kernel

theorem test_drawnScratch : capCheck Cap.null 0 256 (permLD + permST) ≠ none ∧
    capCheck (fullAt 0x10000) (capAddr (fullAt 0x10000)) 256 (permLD + permST) = none ∧ ¬ 127 < (drawnAt 11).ival ∧
    ((drawnAt 11).scratch ++ [(0, (5 : BitVec 16))]).find? (fun e : Nat × BitVec 16 => e.1 == (drawnAt 11).ival) = some (0, 5) ∧
    ((drawnAt 11).scratch ++ [(1, (5 : BitVec 16))]).find? (fun e : Nat × BitVec 16 => e.1 == (drawnAt 11).ival) = none ∧
    (∃ a, readRange (recordActor rich (fullAt 0x10000)) (capAddr (fullAt 0x10000) + 2 * 0) 2 rich = .ok a ∧
      decide (natOfBytes a.1 < 2 ^ 16) = true) ∧
    (match readRange (recordActor rich (fullAt 0x80000000)) (capAddr (fullAt 0x80000000) + 2 * 0) 2 rich with
      | .error (.trap _) => true
      | _ => false) = true := by
  refine ⟨?_, ?_, ?_, ?_, ?_, exists_end ?_, ?_⟩ <;> decide +kernel
/-- Queue 0, enabled, of function 0 and core 0, with sampling, 16 entries deep; its one command has the words `w`. -/
def queued (s : State) (w : Nat) (busy : Bool) : State :=
  { s with
    funcs := [(0, { fmode := 16 })]
    queues := [(0, { cfg := BitVec.ofNat 128 (2 ^ 26 + 2 ^ 27 + 2 ^ 64 * 0x40000000), log2 := 4, clog2 := 4, consumed := 1, bell := 1
                     commands := [⟨0, BitVec.ofNat 1024 w, busy, busy, 0, none⟩] })] }
/-- Its command. -/
def command (w : Nat) (busy : Bool) : Command := ⟨0, BitVec.ofNat 1024 w, busy, busy, 0, none⟩
/-- The same queue with no command, and the doorbell at `n`. -/
def rung (n : Nat) (stamped : Option Nat) (retries : Nat) : State := onQueue (queued State.reset 0 false) 0 fun q =>
  { q with commands := [], consumed := 0, bell := n, slot := true, stamped := stamped, retries := retries }

/-- An access that went through. -/
def reached {α : Type} (a : Access α) (p : α → State → Bool) : Bool :=
  match a with
  | .got v t => p v t
  | _ => false

theorem exists_reached {α : Type} {a : Access α} {p : α → State → Bool} (h : reached a p = true) :
    ∃ v t, a = .got v t ∧ p v t = true := by
  cases a with
  | got v t => exact ⟨v, t, rfl, h⟩
  | _ => cases h

/-- The next entry of queue 0 may be read, and its stamp is `v`. -/
def Stamped (s : State) (v : Nat) : Prop :=
  ∃ a, ringRead (entryAt s 0 (queueOf s 0).consumed) 128 s = .ok a ∧ (a.1 / 2 ^ 960 % 2 ^ 64 == v) = true

theorem stamped {s : State} {v : Nat}
    (h : ends (ringRead (entryAt s 0 (queueOf s 0).consumed) 128 s) (fun a => a.1 / 2 ^ 960 % 2 ^ 64 == v) = true) :
    Stamped s v := exists_end h

theorem nextEntry {s : State} {v : Nat} (h : intakeReady s 0 = true) (hs : Stamped s v) :
    ∃ words t, NextEntry s 0 words t ∧ words / 2 ^ 960 % 2 ^ 64 = v := by
  obtain ⟨⟨w, t⟩, ha, hv⟩ := hs
  exact ⟨w, t, ⟨h, ha⟩, beq_iff_eq.1 hv⟩

theorem test_queueIntake : linkRuns State.reset = true ∧ BellGood (rung 0 none 0) 0 0 16 ∧ ¬ BellGood (rung 0 none 0) 0 0 17 ∧
    NextInLine (onQueue (rung 3 none 0) 0 fun q => { q with slot := false }) 0 0 ∧
    heldSlots (onQueue (rung 3 none 0) 0 fun q => { q with slot := false }) 0 < 16 ∧ (coreOf State.reset 0).started = true ∧
    (∃ words t, NextEntry (rung 1 none 0) 0 words t ∧ words / 2 ^ 960 % 2 ^ 64 = 0) ∧ ¬ StampGood (rung 1 none 0) 0 0 ∧
    (∃ words t, NextEntry (stored (rung 1 none 0) (hostBase + 120) [1]) 0 words t ∧ words / 2 ^ 960 % 2 ^ 64 = 1) ∧
    StampGood (rung 1 none 0) 0 (2 ^ 960) ∧ (queueOf (rung 1 none 0) 0).stamped = none ∧
    (∃ words t, NextEntry (rung 1 (some 0) 63) 0 words t ∧ words / 2 ^ 960 % 2 ^ 64 = 0) ∧
    (queueOf (rung 1 (some 0) 63) 0).stamped = some (queueOf (rung 1 (some 0) 63) 0).consumed ∧
    qcbOwned State.reset 0 (2 ^ 26 + 2 ^ 34 * 1151) = false ∧
    bit (funcOf (onFunc (rung 0 none 0) 0 fun f => { f with fmode := 1 }) 0).fmode.toNat 0 = true ∧
    homeRuns (rung 0 none 0) 0 = true ∧ (queueOf (rung 0 none 0) 0).slot = true ∧
    CfgGood (2 ^ 26 + 2 ^ 34 * 1151) ∧ samplers State.reset 0 < 16 ∧ qcfgEnable (queueOf State.reset 0).cfg = false := by
  refine ⟨?_, ?_, ?_, ?_, ?_, ?_, nextEntry ?_ (stamped ?_), ?_, nextEntry ?_ (stamped ?_), ?_, ?_, nextEntry ?_ (stamped ?_),
    ?_, ?_, ?_, ?_, ?_, ?_, ?_, ?_⟩
  all_goals first
    | decide +kernel
    | (unfold BellGood; decide +kernel)
    | (unfold NextInLine; decide +kernel)
    | (unfold StampGood; decide +kernel)
    | (unfold CfgGood; decide +kernel)

/-- Payloads of commands that act at 0x10000. -/
def placeAt (opc more : Nat) : Nat := opc + 0x10000 * 2 ^ 64 + more

theorem waits {c : Command} {v : Nat} (h : c.words.toNat / 2 ^ 144 % 4 = 0) (hv : dataOf c ≤ v) : waitHolds c v := by
  unfold waitHolds
  rw [h]
  exact hv

theorem waitsNot {c : Command} {v : Nat} (h : c.words.toNat / 2 ^ 144 % 4 = 0) (hv : ¬ dataOf c ≤ v) : ¬ waitHolds c v := by
  unfold waitHolds
  rw [h]
  exact hv

theorem test_wait : ∃ c, c = command (placeAt 2 0) true ∧ waitHolds c 0 := by
  obtain ⟨c, hc⟩ : ∃ c, c = command (placeAt 2 0) true := ⟨_, rfl⟩
  refine ⟨c, hc, waits ?_ ?_⟩ <;> rw [hc] <;> decide +kernel

theorem test_waitNot : ∃ c, c = command (placeAt 2 (2 ^ 192)) true ∧ ¬ waitHolds c 0 := by
  obtain ⟨c, hc⟩ : ∃ c, c = command (placeAt 2 (2 ^ 192)) true := ⟨_, rfl⟩
  refine ⟨c, hc, waitsNot ?_ ?_⟩ <;> rw [hc] <;> decide +kernel

theorem test_queueCommands : Starts (queued rich 0 false) 0 0 0 (command 0 false) ∧
    Starts (queued rich (placeAt 2 0) false) 0 0 2 (command (placeAt 2 0) false) ∧
    Busy (queued rich (placeAt 2 0) true) 0 0 2 (command (placeAt 2 0) true) ∧
    Starts (queued rich (placeAt 3 (2 ^ 144)) false) 0 0 3 (command (placeAt 3 (2 ^ 144)) false) ∧
    Starts (queued rich (placeAt 4 0) false) 0 0 4 (command (placeAt 4 0) false) ∧
    Starts (queued rich (placeAt 8 (2 ^ 144 + 2 ^ 176)) false) 0 0 8 (command (placeAt 8 (2 ^ 144 + 2 ^ 176)) false) ∧
    Busy (queued rich (placeAt 8 (2 ^ 144 + 2 ^ 176)) true) 0 0 8 (command (placeAt 8 (2 ^ 144 + 2 ^ 176)) true) ∧
    Starts (queued rich 9 false) 0 0 9 (command 9 false) ∧ SampleMay (queued rich 9 false) 0 ∧
    ¬ SampleMay State.reset 0 ∧
    Starts (queued rich (10 + 2 ^ 176) false) 0 0 10 (command (10 + 2 ^ 176) false) ∧
    queueFunc (queued rich (10 + 2 ^ 176) false) 0 = 0 ∧
    queueFunc (onQueue (queued rich (10 + 2 ^ 176) false) 0 fun q => { q with cfg := q.cfg + 65536 }) 0 ≠ 0 ∧
    Malformed (queued rich 11 false) 0 0 11 (command 11 false) ∧
    Malformed (queued rich (4 + 2 ^ 64) false) 0 0 4 (command (4 + 2 ^ 64) false) := by
  refine ⟨?_, ?_, ?_, ?_, ?_, ?_, ?_, ?_, ?_, ?_, ?_, ?_, ?_, ?_, ?_⟩
  all_goals first
    | decide +kernel
    | (unfold Starts; decide +kernel)
    | (unfold Busy; decide +kernel)
    | (unfold SampleMay; decide +kernel)
    | (unfold Malformed; decide +kernel)

/-- A command whose access is not granted. -/
def ungranted (w : Nat) (busy : Bool) : State := onDomain (queued rich w busy) 0 fun d => { d with gcnt := 0 }

/-- An access was refused. -/
def isRefused {α : Type} : Access α → Bool
  | .refused => true
  | _ => false

theorem refused_of {α : Type} {a : Access α} (h : isRefused a = true) : a = .refused := by
  cases a with
  | refused => rfl
  | _ => cases h

theorem test_refusedAccesses : let c := fun (opc more : Nat) (busy : Bool) => command (placeAt opc more) busy
    let s := fun (opc more : Nat) (busy : Bool) => ungranted (placeAt opc more) busy
    (Busy (s 2 0 true) 0 0 2 (c 2 0 true) ∧
      queueAccess (s 2 0 true) 0 [0] (fun a => readRange a (addressOf (c 2 0 true)) 8) = .refused) ∧
    (Starts (s 3 0 false) 0 0 3 (c 3 0 false) ∧ queueAccess (s 3 0 false) 0 [] (fun a =>
      writePiece a (addressOf (c 3 0 false)) (bytesOf 8 (dataOf (c 3 0 false))) false rightST) = .refused) ∧
    (Starts (s 4 0 false) 0 0 4 (c 4 0 false) ∧ queueAccess (s 4 0 false) 0 [] (fun a =>
      writePiece a (addressOf (c 4 0 false)) (bytesOf 8 (dataOf (c 4 0 false))) false rightST) = .refused) ∧
    (Starts (ungranted 9 false) 0 0 9 (command 9 false) ∧ SampleMay (ungranted 9 false) 0 ∧
      queueAccess (ungranted 9 false) 0 [] (sampleAct (ungranted 9 false) 0 (command 9 false)) = .refused) := by
  refine ⟨⟨?_, refused_of ?_⟩, ⟨?_, refused_of ?_⟩, ⟨?_, refused_of ?_⟩, ?_, ?_, refused_of ?_⟩
  all_goals first
    | decide +kernel
    | (unfold Starts; decide +kernel)
    | (unfold Busy; decide +kernel)
    | (unfold SampleMay; decide +kernel)

/-- A DOMCFG of domain 1 to itself with one sequence slot at 0x90000, in a queue of domain 0. -/
def domcfg (bind : Nat) : Command := command (10 + 2 ^ 64 + 0x90000 * 2 ^ 96 + 2 ^ 176 + bind * 2 ^ 288) false

theorem test_domcfg : let c := domcfg 0
    (∃ a, reachTable 0 (c.words.toNat / 2 ^ 96 % 2 ^ 80) rich = .ok a ∧ (tablesGranted a.2 0 c && !domainHasTeam a.2 1 &&
      ends (someBinding (domainOf a.2 1) a.2) fun b => !b.1 && ends (someAdmitted (domainOf a.2 1) b.2) fun x => !x.1) = true) ∧
    (∃ a, reachTable 0 (c.words.toNat / 2 ^ 96 % 2 ^ 80) (ungranted 0 false) = .ok a ∧ (!tablesGranted a.2 0 c) = true) ∧
    (∃ v t, queueAccess (queued rich (c.words.toNat) false) 0 [] (fun _ => domcfgAct 0 c) = .got v t ∧ (v == 0) = true) := by
  refine ⟨exists_end ?_, exists_end ?_, exists_reached ?_⟩ <;> decide +kernel

theorem test_queueAccesses : let c := fun (opc more : Nat) => command (placeAt opc more) false
    let s := fun (opc more : Nat) => queued rich (placeAt opc more) false
    (∃ bs t, queueAccess (s 2 0) 0 [0] (fun a => readRange a (addressOf (c 2 0)) 8) = .got bs t ∧
      (natOfBytes bs == 0) = true) ∧
    (∃ u t, queueAccess (s 3 (2 ^ 144)) 0 [] (signalAct (c 3 (2 ^ 144))) = .got u t ∧ true = true) ∧
    (∃ u t, queueAccess (s 4 0) 0 [] (fenceAct (c 4 0)) = .got u t ∧ true = true) := by
  refine ⟨exists_reached ?_, exists_reached (p := fun _ _ => true) ?_, exists_reached (p := fun _ _ => true) ?_⟩ <;>
    decide +kernel

/-- The state after a walk. -/
def leafOf (s : State) (va : Nat) : Option Translation :=
  match walk s va with
  | .leaf t => some t
  | .fails _ => none

theorem notBusy {s : State} {w opc : Nat} (h : commandOf (queueOf s 0) 0 = some (command w false)) :
    ∀ x, ¬ Busy s 0 0 opc x := by
  rintro x ⟨hx, -, hs, -⟩
  rw [h] at hx
  cases hx
  cases hs

/-- A BIAS of the text page to the host. -/
def biasing : Nat := placeAt 8 (2 ^ 144 + 2 ^ 176)

theorem test_bias : (∀ x, ¬ Busy (queued rich biasing false) 0 0 8 x) ∧
    (∃ a, walkFor 0 (biasNext (command biasing false)) (queued rich biasing false) = .ok a ∧ ((match a.1 with
        | .leaf l => !leafHM l.entry.toNat && !leafHB l.entry.toNat && biasHost (command biasing false) &&
          !rangeOwned a.2 (l.page * 2 ^ l.bits) (2 ^ l.bits) && !entryBlocked a.2 l
        | .fails _ => false) &&
      match findingOf a.2 0 0 1 0 a.1 with
      | .present => true
      | _ => false) = true) ∧
    ∃ a, walkFor 0 1 (queued { rich with memory := {} } (placeAt 8 (2 ^ 144)) false) = .ok a ∧
      (match findingOf a.2 0 0 1 0 a.1 with
      | .denial => true
      | _ => false) = true := by
  refine ⟨notBusy (w := biasing) ?_, exists_end ?_, exists_end ?_⟩ <;> decide +kernel

/-- Domain 0 holds two binding records, zero but for VALID of the one that `valid` names, at 0x90400. -/
def binds (w : Nat) (busy valid : Bool) : State :=
  let s := onDomain (queued rich w busy) 0 fun d => { d with bindBase := 0x90400, bindCount := 2 }
  if valid then stored s 0x90418 [1] else s

theorem test_bindings : Starts (binds (5 + 3 * 2 ^ 216) false false) 0 0 5 (command (5 + 3 * 2 ^ 216) false) ∧
    (∃ v t, queueAccess (binds (5 + 3 * 2 ^ 216) false false) 0 [] (fun _ => bindAct 0 0 (command (5 + 3 * 2 ^ 216) false)) =
      .got v t ∧ (v == 0) = true) ∧
    (∀ x, ¬ Busy (binds 6 false true) 0 0 6 x) ∧ (∀ x, ¬ Busy (binds 7 false true) 0 0 7 x) ∧
    Starts (binds 6 false true) 0 0 6 (command 6 false) ∧
    (∃ v t, queueAccess (binds 6 false true) 0 [] (fun _ => swapAct 0 0 (command 6 false)) = .got v t ∧ (v == 0) = true) ∧
    (∃ v t, queueAccess (binds 6 false false) 0 [] (fun _ => swapAct 0 0 (command 6 false)) = .got v t ∧ (v == 7) = true) ∧
    Busy (binds 6 true true) 0 0 6 (command 6 true) ∧ boundTeams (binds 6 true true) 0 0 0 = false ∧
    Starts (binds 7 false true) 0 0 7 (command 7 false) ∧
    (∃ b t, queueAccess (binds 7 false true) 0 [] (fun _ => validBinding 0 0 0) = .got b t ∧ b.isSome = true) ∧
    (∃ b t, queueAccess (binds 7 false false) 0 [] (fun _ => validBinding 0 0 0) = .got b t ∧ b.isNone = true) ∧
    Busy (binds 7 true true) 0 0 7 (command 7 true) ∧
    (∃ v t, queueAccess (binds 7 true true) 0 [] (fun _ => unbindAct 0 0 (command 7 true)) = .got v t ∧ (v == 0) = true) := by
  refine ⟨?_, exists_reached ?_, notBusy (w := 6) ?_, notBusy (w := 7) ?_, ?_, exists_reached ?_, exists_reached ?_, ?_, ?_, ?_,
    exists_reached ?_, exists_reached ?_, ?_, exists_reached ?_⟩
  all_goals first
    | (unfold Starts; decide +kernel)
    | (unfold Busy; decide +kernel)
    | decide +kernel

theorem test_refusedBindings : let s := fun w => onDomain (binds w false true) 0 fun d => { d with bindBase := 0x80000000 }
    (Starts (s (5 + 3 * 2 ^ 216)) 0 0 5 (command (5 + 3 * 2 ^ 216) false) ∧
      queueAccess (s (5 + 3 * 2 ^ 216)) 0 [] (fun _ => bindAct 0 0 (command (5 + 3 * 2 ^ 216) false)) = .refused) ∧
    (Starts (s 6) 0 0 6 (command 6 false) ∧ (∀ x, ¬ Busy (s 6) 0 0 6 x) ∧
      queueAccess (s 6) 0 [] (fun _ => swapAct 0 0 (command 6 false)) = .refused) := by
  refine ⟨⟨?_, refused_of ?_⟩, ?_, notBusy (w := 6) ?_, refused_of ?_⟩
  all_goals first
    | (unfold Starts; decide +kernel)
    | decide +kernel

/-- A launch block: one core of core 0's quad by bitmap or four cores where the agent chooses. -/
def block : Nat := 0x10000 + 0x1000 * 2 ^ 80 + 0xFFFF * 2 ^ 112 + 0xFFFFFFFF * 2 ^ 464 + 7 * 2 ^ 576 + 0xFFFFFFFF * 2 ^ 608 +
  4 * 2 ^ 720 + 2 ^ 731 + 2 ^ 732 + 68 * 2 ^ 848 + 100 * 2 ^ 858 + 480 * 2 ^ 868
/-- A LAUNCH of the block at 0x20100, with nothing resident. -/
def launching (b : Nat) : State :=
  { stored (queued rich (1 + 0x28000 * 2 ^ 64) false) 0x28000 (bytesOf 256 b) with teams := [], cores := [] }

theorem test_launchRead : ∃ d t, launchOf (launching block) 0 (command (1 + 0x28000 * 2 ^ 64) false) = .got d t ∧
    (launchStatus t 0 d == 0 && !d.fixedSet && goodPlace [0, 1, 2, 3] d.count && [0, 1, 2, 3].all (coreFree t) &&
      slicesFit t [0, 1, 2, 3]) = true := exists_reached (by decide +kernel)

theorem test_launch : ∃ d t, LaunchRead (launching block) 0 0 (command (1 + 0x28000 * 2 ^ 64) false) d t ∧
    Malformed (queued rich (1 + 0x28080 * 2 ^ 64) false) 0 0 1 (command (1 + 0x28080 * 2 ^ 64) false) := by
  obtain ⟨d, t, h, -⟩ := test_launchRead
  exact ⟨d, t, ⟨by decide +kernel, by decide +kernel, by decide +kernel, by decide +kernel, by decide +kernel, h⟩,
    by unfold Malformed; decide +kernel⟩

/-- The admission of the block on four cores, what two kinds of seed give, and c5 of the first leader of core 2. -/
theorem test_launchSeeds : SeedGives 7 (Cap.plain 7) ∧
    SeedGives (3 * 2 ^ 118 + 16 * 2 ^ 80 + 0x10000) (boundedCap 3 0x10000 16) ∧ [0, 1, 2, 3].Nodup := by
  refine ⟨⟨fun _ => ?_, fun h => (h ?_).elim⟩, ⟨fun h => ?_, fun _ => ⟨?_, ?_, ?_, ?_⟩⟩, ?_⟩
  · rfl
  · decide +kernel
  · exact absurd h (by decide +kernel)
  all_goals decide +kernel

theorem test_launchLeaders : ∃ d t, launchOf (launching block) 0 (command (1 + 0x28000 * 2 ^ 64) false) = .got d t ∧
    (queueDomain t 0 == 0 && launchStatus t (queueDomain t 0) d == 0 && d.quota == 1 &&
      (let x := ctxOf (admitLaunch t 0 (command (1 + 0x28000 * 2 ^ 64) false) d [0, 1, 2, 3]) ⟨2, 0⟩;
        x.status == .live && capAddr x.code == 0x10000 && (regOf x 5).bits.toNat == 2 && (regOf x 6).bits.toNat == 4)) = true :=
  exists_reached (by decide +kernel)

theorem test_launchRefused : ∃ d t, launchOf (launching (block + 2 ^ 895)) 0 (command (1 + 0x28000 * 2 ^ 64) false) = .got d t ∧
    (launchStatus t 0 d == 1) = true := exists_reached (by decide +kernel)

theorem test_placement : Trades 0 1 ∧ Trades 36 0 ∧ agentLoad { State.reset with launches := [⟨0, 0, 0, 0, 5⟩] } 1 + 4 <
      agentLoad { State.reset with launches := [⟨0, 0, 0, 0, 5⟩] } 0 ∧
    mayStart (queueOf (launching block) 0) (command (1 + 0x28000 * 2 ^ 64) false) = true := by
  refine ⟨?_, ?_, ?_, ?_⟩ <;> first | decide +kernel | (unfold Trades; decide +kernel)

theorem test_teamEnds : let s := { State.reset with teams := [placedTeam] }
    teamBy s 1 = some placedTeam ∧ teamDone s placedTeam = true ∧ placedTeam.ended = none ∧ queueClear s placedTeam.queue = true ∧
    (∀ k ∈ placedTeam.cores, windowHeld s k = false) ∧
    teamDone { State.reset with teams := [{ placedTeam with ended := some 5 }] } { placedTeam with ended := some 5 } = true := by
  decide +kernel
/-- A frame in the ring of domain 0, and an evicted page under service. -/
def paging (mode : Nat) : State :=
  { onDomain rich 0 fun d => { d with fring := 0x95000, flog2 := 4, fprod := 1 } with
    funcs := [(0, { fmode := BitVec.ofNat 64 mode })], tickets := [⟨1, .evicted 5, 0, 0, 3, [], false⟩] }
/-- A ticket of a kind. -/
def ticketed (k : TicketKind) : State := { State.reset with tickets := [⟨1, k, 0, 0, 3, [], false⟩] }
/-- A reply to ticket 1 with the result `r`. -/
def reply (r : Nat) : BitVec 256 := BitVec.ofNat 256 (2 ^ 192 + r * 2 ^ 224)

theorem test_shootdowns : let s := { usr with shootdowns := [.pages true 3 2, .rights false 4] }
    s.shootdowns = .pages true 3 2 :: [.rights false 4] ∧ rangeBusy s (3 * 65536) (2 * 65536) = false ∧
    ({ usr with shootdowns := [.rights false 4] } : State).shootdowns = .rights false 4 :: [] := by decide +kernel

/-- The page at 0x10000 with a 64 KiB leaf of its own. -/
def pageLeaf : State := { rich with memory := { cells := [(0, 1), (10, 2), (0x20000, 1), (0x2000A, 4), (0x40000, 1), (0x4000A, 6),
  (0x60000, 1), (0x6000A, 7), (0x70000, 1), (0x70009, 0x20),
  (0x7000A, 7), (0x72010, 0x33), (0x7201A, 1)] } }

/-- What a page move to 0x30000 needs of the leaf that its walk finds. -/
def movable (a : Walk × State) : Bool :=
  match a.1 with
  | .leaf l => l.bits == 16 && (!leafHM l.entry.toNat && (!rangeOwned a.2 (1 * 65536) 65536 &&
      (!beyondStorage (leafPA l.entry.toNat) && (framePoison a.2 (leafPA l.entry.toNat) == none &&
        isOk (reachMove l (1 * 65536) 0x30000 a.2)))))
  | .fails _ => false

theorem moves {s : State} (h : ends (walkFor (funcOfDomain s (domainOfPage s 1)) 1 s) movable = true) :
    ∃ l t u, MoveMay s 1 0x30000 0 l t u := by
  obtain ⟨⟨w, t⟩, e, h⟩ := exists_end h
  cases w with
  | leaf l =>
    simp only [movable, Bool.and_eq_true, beq_iff_eq, Bool.not_eq_true'] at h
    obtain ⟨⟨⟨⟩, u⟩, hu⟩ := exists_ok h.2.2.2.2.2
    exact ⟨l, t, u, ⟨e, ⟨h.1, h.2.1, by decide, h.2.2.1⟩, ⟨h.2.2.2.1, by decide +kernel, h.2.2.2.2.1⟩, hu⟩⟩
  | fails _ => cases h

/-- The function of domain 0 posts its walks, and the driver has supplied the leaf of the page at 0x10000. -/
def posting : State :=
  { rich with funcs := [(0, { fmode := 2 })], translations := [⟨1, 16, BitVec.ofNat 128 (2 ^ 16 + 0x33), none⟩] }

theorem test_pageMove : (∃ l t u, MoveMay pageLeaf 1 0x30000 0 l t u) ∧ (∃ l t u, MoveMay posting 1 0x30000 0 l t u) :=
  ⟨moves (by decide +kernel), moves (by decide +kernel)⟩

theorem test_pageIn : (paging 0).tickets.find? (·.number == 1) = some ⟨1, .evicted 5, 0, 0, 3, [], false⟩ ∧ (paging 0).scrub = [] ∧
    ringEmpty (domainOf (paging 0) 0) = false ∧ bit (funcOf (paging 8) 0).fmode.toNat 3 = true ∧
    bit (funcOf (paging 0) 0).fmode.toNat 3 = false ∧ bit (funcOf (paging 2) 0).fmode.toNat 1 = true ∧
    bit (funcOf (paging 8) 0).fmode.toNat 1 = false ∧
    bit (funcOf (paging 0) 0).fmode.toNat 1 = false ∧ ringEmpty (domainOf (ticketed (.evicted 5)) 0) = true ∧
    bit (funcOf (ticketed (.evicted 5)) 0).fmode.toNat 1 = false ∧
    ∃ a, ringRead (ringPlaceOf (domainOf (paging 0) 0)) 8 (paging 0) = .ok a ∧ (!beyondStorage a.1 &&
      isOk (reachPageIn ⟨1, .evicted 5, 0, 0, 3, [], false⟩ a.1 5 a.2)) = true := by
  refine ⟨?_, ?_, ?_, ?_, ?_, ?_, ?_, ?_, ?_, ?_, exists_end ?_⟩ <;> decide +kernel

/-- One piece of storage in scrub: a frame of the ring, a frame of domain 0, page 0 of its KV pool at 0x30000. -/
def scrubbing (w : ScrubWhat) : State := { seqs 0 with scrub := [⟨w, none⟩] }

theorem scrubs {s : State} {it : ScrubItem} {va : Option Nat} {place : Nat ⊕ Nat} (hi : s.scrub[0]? = some it)
    (hp : scrubPlace s it.what = (0, place)) (hv : va = place.getLeft?)
    (hr : ∀ a, va = some a → rangeOwned s a 65536 = false) (hm : bit (funcOf s (funcOfDomain s 0)).fmode.toNat 3 = false)
    (h : ends (scrubFrame (funcOfDomain s 0) 0 place s) (fun a => !beyondStorage a.1 && isOk (reachScrub it va a.1 a.2)) = true) :
    ∃ pa t u, ScrubMay s 0 it 0 va pa t ∧ reachScrub it va pa t = .ok ((), u) := by
  obtain ⟨⟨pa, t⟩, e, h⟩ := exists_end h
  simp only [Bool.and_eq_true, Bool.not_eq_true'] at h
  obtain ⟨⟨⟨⟩, u⟩, hu⟩ := exists_ok h.2
  exact ⟨pa, t, u, ⟨place, hi, hp, hv, hr, e, hm, h.1⟩, hu⟩

theorem test_scrub :
    (∃ pa t u, ScrubMay (scrubbing (.ring 0 0x30000 9)) 0 ⟨.ring 0 0x30000 9, none⟩ 0 none pa t ∧
      reachScrub ⟨.ring 0 0x30000 9, none⟩ none pa t = .ok ((), u)) ∧
    (∃ pa t u, ScrubMay (scrubbing (.frame 0 0x30000)) 0 ⟨.frame 0 0x30000, none⟩ 0 none pa t ∧
      reachScrub ⟨.frame 0 0x30000, none⟩ none pa t = .ok ((), u)) ∧
    ∃ pa t u, ScrubMay (scrubbing (.kv 0 0)) 0 ⟨.kv 0 0, none⟩ 0 (some 0x30000) pa t ∧
      reachScrub ⟨.kv 0 0, none⟩ (some 0x30000) pa t = .ok ((), u) := by
  have r : rangeOwned (scrubbing (.kv 0 0)) 0x30000 65536 = false := by decide +kernel
  refine ⟨scrubs (place := .inr 0x30000) ?_ ?_ rfl (fun a h => by cases h) ?_ ?_,
    scrubs (place := .inr 0x30000) ?_ ?_ rfl (fun a h => by cases h) ?_ ?_,
    scrubs (place := .inl 0x30000) ?_ ?_ rfl (fun a h => by cases h; exact r) ?_ ?_⟩
  all_goals decide +kernel

theorem test_events : linkRuns State.reset = true ∧ let s := onFunc State.reset 3 fun f => { f with events := [⟨1, 2, 3, 4, 5⟩], fevr := 9 }
    (funcOf s 3).events = ⟨1, 2, 3, 4, 5⟩ :: [] ∧ bit (funcOf s 3).fevr.toNat 0 = true ∧
    (funcOf s 3).posted < (funcOf s 3).fevhead.toNat + 2 ^ field (funcOf s 3).fevr.toNat 5 1 ∧ blocked s hostBase 32 = false ∧
    blocked { s with
      cores := [(0, { Core.atReset 0 with channels := [(0, { xfer := some ⟨1, 4097, fullAt 0x10000, .global (fullAt 0), 256, 4, 3⟩ })] })]
      translations := [⟨0, 16, BitVec.ofNat 128 0x87, none⟩] } hostBase 32 = true := by decide +kernel

theorem test_replies : Replies (ticketed .driver) 0 (reply 0) ⟨1, .driver, 0, 0, 3, [], false⟩ ∧
    Replies (ticketed .driver) 0 (reply 1) ⟨1, .driver, 0, 0, 3, [], false⟩ ∧ replyResult (reply 1) = 1 ∧
    Replies (ticketed .walk) 0 (reply 0) ⟨1, .walk, 0, 0, 3, [], false⟩ ∧ replyLevel (reply 0) ≠ 3 ∧
    Replies (ticketed .walk) 0 (reply 1) ⟨1, .walk, 0, 0, 3, [], false⟩ ∧
    Replies (ticketed .zeroing) 0 (reply 0) ⟨1, .zeroing, 0, 0, 3, [], false⟩ ∧ replyResult (reply 0) = 0 := by
  refine ⟨?_, ?_, ?_, ?_, ?_, ?_, ?_, ?_⟩ <;> first | decide +kernel | (unfold Replies; decide +kernel)

theorem test_hostPort : let s := onFunc State.reset 1 fun f => { f with fseg := 2 ^ 21, flen := 2 ^ 21 }
    linkRuns s = true ∧ (2 ^ 20 < segLen (funcOf s 1) ∧ 2 ^ 20 + 8 ≤ segLen (funcOf s 1)) ∧
    segBase (funcOf s 1) + 2 ^ 20 + 8 ≤ Config.hbmBytes ∧ blocked s (segBase (funcOf s 1) + 2 ^ 20) 8 = false ∧
    segLen (funcOf s 1) ≤ 2 ^ 21 ∧ blocked s (hostBase + 64) 8 = false ∧ (1152 : Nat) + 8 ≤ Config.hbmBytes ∧
    (1000 : Nat) ≤ (1000#64).toNat % 2 ^ 16 ∧ (100 : Nat) ≤ (100000#64).toNat % 2 ^ 17 ∧
    (100000#64).toNat % 2 ^ 17 ≤ 100000 := by decide +kernel

/-- Function 1 has a team, or an enabled queue; function 64 has neither. -/
def inUse (team queue : Bool) : State :=
  { State.reset with
    teams := if team then [{ placedTeam with func := 1 }] else []
    queues := if queue then [(0, { cfg := BitVec.ofNat 128 (2 ^ 26 + 65536) })] else [] }

theorem test_functionRegisters : linkRuns State.reset = true ∧ NoTeams State.reset 64 ∧ NoQueues State.reset 64 ∧
    NoTeams (inUse true true) 64 ∧ NoQueues (inUse true true) 64 ∧ ¬ NoTeams (inUse true false) 1 ∧ ¬ NoQueues (inUse false true) 1 ∧
    State.reset.teams = [] ∧ (inUse true false).teams ≠ [] ∧ (4096#64).toNat % 4096 = 0 ∧ linkRuns (inUse true false) = true := by
  refine ⟨?_, ?_, ?_, ?_, ?_, ?_, ?_, ?_⟩ <;> first | decide +kernel | (unfold NoTeams; decide +kernel) | (unfold NoQueues; decide +kernel)

theorem test_optab : OptabKeeps State.reset 0 (optabRow State.reset 0) ∧ OptabKeeps State.reset 7 (optabRow State.reset 7) ∧
    ¬ OptabKeeps State.reset 7 (optabRow State.reset 7 + 50 * 4) ∧ ¬ OptabKeeps State.reset 0 (optabRow State.reset 0 % 2 ^ 10) := by
  unfold OptabKeeps
  decide +kernel

theorem test_domainRegisters : (∃ r ∈ domainRegisters 4096, r.1 = 8 ∧ r.2.1) ∧ (∃ r ∈ domainRegisters 4097, r.1 = 8 ∧ ¬ r.2.1) ∧
    (∃ r ∈ domainRegisters 4095, r.1 = 16 ∧ r.2.1) ∧ (∃ r ∈ domainRegisters 0, r.1 = 16 ∧ ¬ r.2.1) ∧
    (∃ r ∈ domainRegisters 4, r.1 = 32 ∧ r.2.1) ∧ (∃ r ∈ domainRegisters 12, r.1 = 32 ∧ r.2.1) ∧
    (∃ r ∈ domainRegisters 3, r.1 = 32 ∧ ¬ r.2.1) ∧ ∃ r ∈ domainRegisters 13, r.1 = 32 ∧ ¬ r.2.1 := by
  simp [domainRegisters]

/-- A capacity block of a domain with a team, of one with a binding, of one with a sequence, and of one with neither. -/
theorem test_capacity : (domainHasTeam rich 0 = true ∧ ∀ t ∈ rich.teams, t.uid ≠ machineUid) ∧
    (let s := { seqs 2 with teams := [] };
      domainHasTeam s 0 = false ∧ ends (someBinding (domainOf s 0) (pfReads s 0)) (fun a => !a.1 &&
        ends (someSlot (domainOf s 0) a.2) fun b => b.1) = true) ∧
    (let s := { seqs 0 with teams := [] };
      domainHasTeam s 0 = false ∧ ends (someBinding (domainOf s 0) (pfReads s 0)) (fun a => !a.1 &&
        ends (someSlot (domainOf s 0) a.2) fun b => !b.1) = true) ∧
    (let s := { binds 0 false true with teams := [] };
      domainHasTeam s 0 = false ∧ ends (someBinding (domainOf s 0) (pfReads s 0)) (fun a => a.1) = true) ∧
    domainHasTeam State.reset 65535 = false ∧ isOk (someBinding (domainOf State.reset 65535) (pfReads State.reset 65535)) = true := by
  refine ⟨⟨?_, ?_⟩, ⟨?_, ?_⟩, ⟨?_, ?_⟩, ⟨?_, ?_⟩, ?_, ?_⟩ <;> decide +kernel

theorem test_segmentWrites : let s := onFunc State.reset 1 fun f => { f with fseg := 2 ^ 21, flen := 2 ^ 21 }
    2 ^ 21 - 1 < segLen (funcOf s 1) ∧ 2 ^ 21 - 1 + [(1 : Byte)].length ≤ segLen (funcOf s 1) ∧
    segBase (funcOf s 1) + (2 ^ 21 - 1) + [(1 : Byte)].length ≤ Config.hbmBytes ∧
    blocked s (segBase (funcOf s 1) + (2 ^ 21 - 1)) [(1 : Byte)].length = false ∧ segLen (funcOf s 1) ≤ 2 ^ 21 := by decide +kernel

theorem test_keys : (∀ k ∈ State.reset.keys, k.handle ≠ 5) ∧ State.reset.keys.length < 65536 ∧
    ({ State.reset with keys := [⟨5, 1, 2, false⟩] } : State).keys.find? (·.handle == 5) = some ⟨5, 1, 2, false⟩ := by
  decide +kernel

theorem test_operator : let s := onFunc { State.reset with teams := [placedTeam], time := 16 } 0 fun f => { f with flimit := 1 }
    teamBy s 1 = some placedTeam ∧ (funcOf s placedTeam.func).flimit.toNat % 2 ^ 32 ≠ 0 ∧
    1000 * ((funcOf s placedTeam.func).flimit.toNat % 2 ^ 32) ≤ 64 * (s.time - placedTeam.admitted + 1) ∧
    State.reset.update.stat ≠ 1 ∧
    (∀ d < 9, d ∉ [8] → max 0 (lookD State.reset.dies d {}).vmin ≤ min 0 (lookD State.reset.dies d {}).vmax) ∧
    (∃ d < 9, d ∉ [8] ∧ min 9 (lookD State.reset.dies d {}).vmax < max 9 (lookD State.reset.dies d {}).vmin) ∧
    DieReady { State.reset with update := { State.reset.update with stat := 1, die := 8, bundle := [0, 8] } } 8 ∧
    [0, 8].filter (8 < ·) = [] ∧ [0, 8].filter (0 < ·) = [8] ∧
    DieReady { State.reset with update := { State.reset.update with stat := 1, die := 0, bundle := [0, 8] } } 0 := by
  refine ⟨?_, ?_, ?_, ?_, ?_, ⟨0, ?_, ?_, ?_⟩, ?_, ?_, ?_, ?_⟩
  all_goals first | decide +kernel | (unfold DieReady; decide +kernel)

/-- A sector that owner 3 wrote, in a frame that has poisoned before where `again` says so. -/
def owned (again : Bool) : State :=
  { physPut State.reset 3 0x20000 [1] false with poisoned := if again then [0x20000] else [] }

theorem test_poison : 64 * 2048 + 64 ≤ Config.hbmBytes ∧ memNat (owned false).poison 2048 = false ∧
    (owned false).memory.keyAt (64 * 2048) = some 3 ∧ frameAt 2048 ∉ (owned false).poisoned ∧ frameAt 2048 ∈ (owned true).poisoned ∧
    (owned false).memory.keyAt (64 * 2049) = none ∧ (physPut State.reset 0 0x20000 [1] false).memory.keyAt (64 * 2048) = some 0 ∧
    (stop (.poison 3 0x40) : Act Unit) usr = .error (.poison 3 0x40) ∧ (0x20000 : Nat) < hostBase ∧
    memNat { owned true with poison := [2048] }.poison (0x20000 / 64) = true := by
  refine ⟨?_, ?_, ?_, ?_, ?_, ?_, ?_, rfl, ?_, ?_⟩ <;> decide +kernel

/-- Quad island 0 at state 7, with W0 zeroed as `z` says. -/
def hot (z : List (Nat × Nat)) : State := { State.reset with islands := [(0, { state := 7, zeroed := z })] }

theorem test_hotIsland : (∀ z ∈ [[], [(0, 14)], [(0, 15)]], (islandOf (hot z) 0).state = 7 ∧ (islandOf (hot z) 0).zeroed = z ∧ 105 ≤ warmth [(0, 105)] (hot z) 0) ∧
    (∀ e ∈ (islandOf (hot []) 0).zeroed, e.1 ≠ 0) ∧ (islandOf (hot [(0, 14)]) 0).zeroed.find? (·.1 == 0) = some (0, 14) ∧
    (islandOf (hot [(0, 15)]) 0).zeroed.find? (·.1 == 0) = some (0, 15) :=
  by decide +kernel

/-- The sector at 0x30000 of owner 3, in a frame that has poisoned before and holds page 0 of a KV pool and granule 0. -/
def free : State := onDomain { physPut (seqs 0) 3 0x30000 [1] false with poisoned := [0x30000] } 0 fun d =>
  { d with covbase := 3, covgran := 1 }

theorem test_retiredFrames : (64 * 3072 + 64 ≤ Config.hbmBytes ∧ memNat free.poison 3072 = false ∧ free.memory.keyAt (64 * 3072) = some 3 ∧
      frameAt 3072 ∈ free.poisoned ∧ 0 ∈ free.domains.map (·.1)) ∧
    (0 < (domainOf free 0).kvpages.toNat ∧ pageReady (kvPage (domainOf free 0) 0) = true ∧
      standsIn free (domainOf free 0).func (frameAt 3072) ((domainOf free 0).kvbase.toNat + 0) = true) ∧
    0 < (domainOf free 0).covgran.toNat ∧ granuleFree (granuleAt (domainOf free 0) 0).state = true ∧
      standsIn free (domainOf free 0).func (frameAt 3072) ((domainOf free 0).covbase.toNat + 0) = true := by decide +kernel

/-- A leader of function 0 and one of function 1, a sequence of domain 0, which is function 0's, and its queue. -/
def partitioned (bits : Nat) : State := onDomain
  { stored (queued (seqs bits) 0 false) (hostBase + 0x40000000) (bytesOf 64 ((2 ^ 32 - 1) * 2 ^ 480)) with
    teams := [placedTeam, { placedTeam with uid := 2, func := 1, domain := 1, cores := [] }] } 0 fun d => { d with func := some 0 }
/-- The state in which a reset of function 0 discards drafts and ends sequences. -/
def resetting (bits : Nat) (replay keep : Bool) : State :=
  { discardTeams (partitioned bits) 0 with
    resets := (partitioned bits).resets ++ [freshReset 0 0 0 0 replay keep] }

theorem resetRuns {r : Reset} {b : State}
    (h : ends (closeDrafts r.func (draftsOf b r.func) b) (fun t => resetOf t r.func == some r &&
      ends (endSlots r.func (if r.keepSeq = true then [] else slotsOf t r.func)
        (onReset r.func (fun x => { x with slots := some (if r.keepSeq = true then [] else slotsOf t r.func) }) t))
        (fun u => (queuesOf u r.func).all fun q => !queueOwned u q &&
          !(r.replay && qcfgEnable (queueOf u q).cfg && deviceCopyPoisoned u q))) = true) :
    ∃ t u, ResetRuns r b t u := by
  obtain ⟨t, ht, h⟩ := exists_end h
  simp only [Bool.and_eq_true, beq_iff_eq] at h
  obtain ⟨u, hu, h'⟩ := exists_end h.2
  refine ⟨t, u, ht, h.1, hu, fun q hq => ?_⟩
  have e := List.all_eq_true.1 h' q hq
  simp only [Bool.and_eq_true, Bool.not_eq_true', Bool.and_eq_false_iff] at e
  refine ⟨e.1, fun h1 h2 => ?_⟩
  rcases e.2 with (h3 | h3) | h3
  · rw [h1] at h3; cases h3
  · rw [h2] at h3; cases h3
  · exact h3

theorem test_resets : (∀ r ∈ (partitioned 2).resets, r.func ≠ 0) ∧
    (∃ t u, ResetRuns (freshReset 0 0 0 0 false false) (resetting 2 false false) t u) ∧
    (∃ t u, ResetRuns (freshReset 0 0 0 0 true true) (resetting 2 true true) t u) ∧
    draftsOf (resetting 2 true true) 0 = [] ∧ slotsOf (resetting 2 true true) 0 ≠ [] ∧
    (∀ q ∈ queuesOf (resetting 2 true true) 0, queueOwned (resetting 2 true true) q = false ∧
      deviceCopyPoisoned (resetting 2 true true) q = false) ∧
    (∃ t ∈ (partitioned 2).teams, t.func ≠ 0 ∧ ∀ o ∈ (partitioned 2).teams, o.func = 0 → o.uid ≠ t.uid) ∧
    queuesOf (resetting 2 true true) 0 = [0] := by
  refine ⟨?_, resetRuns ?_, resetRuns ?_, ?_⟩ <;> decide +kernel

/-- A queue whose copies are current, and one whose copies are not valid. -/
theorem test_recovers : qcfgEnable (queueOf (partitioned 0) 0).cfg = true ∧
    currentCopy (recallAll (partitioned 0) (copyAt (partitioned 0) 0 0) 128 false) 0 = some (0, (2 ^ 32 - 1) * 2 ^ 480) ∧
    qcfgEnable (queueOf (queued rich 0 false) 0).cfg = true ∧
    currentCopy (recallAll (queued rich 0 false) (copyAt (queued rich 0 false) 0 0) 128 false) 0 = none := by decide +kernel

/-- A connection with its session 1 in the state `x`. -/
def trusted (x : Session) : State := onSpdm State.reset fun r =>
  { r with version := true, capable := true, agreed := true, chain1 := some [1, 2, 3], opened := 1, sessions := [(1, x)] }

theorem test_trust : (trusted ⟨true, 0⟩).spdm.agreed = true ∧ State.reset.spdm.version = false ∧
    chainOf (trusted ⟨true, 0⟩) 1 = some [1, 2, 3] ∧ measurement (trusted ⟨true, 0⟩) 0x10 = some (imageBytes (lookD (trusted ⟨true, 0⟩).dies 0 {}).main 0) ∧
    look (trusted ⟨false, 0⟩).spdm.sessions (trusted ⟨false, 0⟩).spdm.opened = some ⟨false, 0⟩ ∧
    Secured (trusted ⟨true, 0⟩) 1 ∧ ¬ Secured (trusted ⟨false, 0⟩) 1 ∧ ¬ Secured State.reset 1 ∧ KeyMay (trusted ⟨true, 0⟩) 1 4095 := by
  refine ⟨?_, ?_, ?_, rfl, ?_, ⟨⟨true, 0⟩, ?_⟩, fun ⟨x, h, h'⟩ => ?_, fun ⟨x, h, h'⟩ => ?_, ⟨⟨⟨true, 0⟩, ?_⟩, ?_⟩⟩
  all_goals first
    | decide +kernel
    | (have e : look (trusted ⟨false, 0⟩).spdm.sessions 1 = some ⟨false, 0⟩ := by decide +kernel
       rw [e] at h; cases h; cases h')
    | cases h

/-- The leader of slot 0 is trapped with a cause, with a trap of it recorded; the core's system context is in its trap entry. -/
def recordedBy (cause : Nat) : State := onCtx usr ⟨0, 0⟩ fun x =>
  { x with status := .trapped, recorded := true, trapcause := BitVec.ofNat 8 cause, trappc := 0x10000, trapinfo := 5 }

/-- The notice of a software trap, of a page that is missing and of one that is denied, served in place. -/
theorem test_defaultService : ∀ cause ∈ [0x17, 0],
    (let x := ctxOf (recordedBy cause) ⟨0, 0⟩;
      let taken := onCtx (recordedBy cause) ⟨0, 0⟩ fun y => { y with recorded := false };
      recordedTrap (coreOf (recordedBy cause) 0) = some (0, x) ∧ (coreOf (recordedBy cause) 0).run = .idle ∧
      (coreOf (recordedBy cause) 0).trapOpen = false ∧
      isOk (defaultService ⟨0, 0⟩ (runRegisters taken 0 [numberCap 0, numberCap x.trapcause.toNat, numberCap x.trappc.toNat,
        numberCap x.trapinfo.toNat] Config.noticeData)) = true) ∧
    (let s := onCore (onCtx (recordedBy cause) ⟨0, 0⟩ fun x => { x with recorded := false }) 0 fun k =>
        { k with inbox := [⟨0, 0, .notice 0 cause 0x10000 5⟩] };
      nextArrival (coreOf s 0) = some (0, .notice 0 cause 0x10000 5) ∧ recordedTrap (coreOf s 0) = none ∧
      (ctxOf s ⟨0, 0⟩).preempt = false ∧
      isOk (defaultService ⟨0, 0⟩ (runRegisters (takeArrival s 0 0) 0 [numberCap 0, numberCap cause, numberCap 0x10000,
        numberCap 5] Config.noticeData)) = true) := by
  intro cause h
  simp only [List.mem_cons, List.not_mem_nil, or_false] at h
  obtain rfl | rfl := h <;> refine ⟨⟨?_, ?_, ?_, ?_⟩, ?_, ?_, ?_, ?_⟩ <;> decide +kernel

theorem test_trapEntryRuns : let m : Message := ⟨1, 0, ⟨3, 2⟩, 0, 1, full, []⟩
    let s := onCore entered 0 fun k => { k with run := .message m }
    (coreOf s 0).run = .message m ∧ (coreOf s 0).trapOpen = true := by decide +kernel

theorem test_systemRuns : let m : Message := ⟨1, 0, ⟨3, 2⟩, 0, 1, full, []⟩
    nextArrival (coreOf (onCore usr 0 fun k => { k with inbox := [⟨0, 0, .message m⟩] }) 0) = some (0, .message m) ∧
    nextArrival (coreOf (onCore usr 0 fun k => { k with inbox := [⟨0, 0, .notice 0 5 6 7⟩] }) 0) = some (0, .notice 0 5 6 7) ∧
    recordedTrap (coreOf usr 0) = none ∧ (coreOf usr 0).run = .idle ∧ (coreOf usr 0).trapOpen = false ∧
    (recordedTrap (coreOf (onCtx usr ⟨0, 0⟩ fun x => { x with status := .trapped, recorded := true }) 0)).isSome = true ∧
    (ctxOf usr ⟨0, 0⟩).holding = false ∧
    UpcallOf (onTeam usr 1 fun t => { t with upcall := some 64 }) ⟨0, 0⟩ { placedTeam with upcall := some 64 } 64 ∧
    (ctxOf (onMe usr fun x => { x with notices := [3, 4] }) ⟨0, 0⟩).notices = 3 :: [4] ∧
    (ctxOf usr ⟨0, 0⟩).status = .live ∧ (ctxOf usr ⟨0, 0⟩).wait = .none ∧ (ctxOf usr ⟨0, 0⟩).handler = .none ∧
    (ctxOf usr ⟨0, 0⟩).preempt = false ∧ standing (coreOf usr 0) 0 = none := by
  refine ⟨?_, ?_, ?_, ?_⟩ <;> first | decide +kernel | (unfold UpcallOf; decide +kernel)

/-! ### Frames, steps and invariants -/

/-- An outcome is a next state. -/
def isNext {σ φ ρ : Type} : Host.Outcome σ φ ρ → Bool
  | .next _ => true
  | _ => false

theorem exists_next {σ φ ρ : Type} {x : Host.Outcome σ φ ρ} (h : isNext x = true) : ∃ t, x = .next t := by
  cases x with
  | next t => exact ⟨t, rfl⟩
  | _ => cases h

theorem test_registerFrames : (∃ t, exec (.kcur 3 4) usr = .next t) ∧
    (∃ r ∈ binaryRows, Plain usr 3 ∧ Plain usr 4 ∧ ReachA usr 3 ⟨.f32, none, .all, .none⟩ 3 ∧
      (∃ t, exec (r.short 3 4 5 .f32) usr = .next t)) ∧
    ∃ r ∈ unaryRows, ∃ t, exec (r.short 3 4 .f32) usr = .next t := by
  refine ⟨exists_next ?_, ⟨_, List.mem_cons_self, ?_, ?_, ?_, exists_next ?_⟩, ⟨_, List.mem_cons_self, exists_next ?_⟩⟩
  all_goals first | decide +kernel | (unfold Plain; decide +kernel) | (unfold ReachA InV; decide +kernel)

theorem noWindows (c : Nat) : (coreOf rich c).windows = [] := by
  unfold coreOf rich
  by_cases hc : (0 : Nat) = c
  · subst hc; rfl
  · simp only [look, hc, Core.atReset, if_false, Option.getD_none]
    split <;> rfl

theorem test_memoryFrames : let a := memActor usr 0 plainX
    Quiet rich a 0x10008 ∧ TablesQuiet rich a 0x10008 ∧ OffLeaves rich 0x10008 0x10000 ∧ OffStore rich 0x10008 8 0x10010 = OffStore rich 0x10008 8 0x10010 ∧
    (∃ x, readPiece a 0x10008 8 rightLD rich = .ok x) ∧ (∃ x, writePiece a 0x10008 (bytesOf 8 5) false rightST rich = .ok x) := by
  refine ⟨fun v _ c _ n w w' h => ?_, fun c n w w' h => ?_, ?_, rfl, exists_ok ?_, exists_ok ?_⟩
  · rw [noWindows] at h; cases h
  · rw [noWindows] at h; cases h
  all_goals first | decide +kernel | (unfold OffLeaves; decide +kernel)

/-- The one window with a Dirty sector, away from the access and from its tables. -/
def dirtied : State := windowed (.dirty unitLeaf)

theorem oneWindow {c : Nat} {x : Nat × Window} (h : x ∈ (coreOf dirtied c).windows) :
    x = (15, ⟨0, 1, 0x30000, true, true, true, true, [(0, .dirty unitLeaf)]⟩) := by
  by_cases hc : (0 : Nat) = c
  · subst hc
    have e : (coreOf dirtied 0).windows = [(15, ⟨0, 1, 0x30000, true, true, true, true, [(0, .dirty unitLeaf)]⟩)] := by decide +kernel
    rw [e] at h
    exact List.mem_singleton.1 h
  · have e : (coreOf dirtied c).windows = [] := by
      have e' : dirtied.cores.map (·.1) = [0] := by decide +kernel
      have n : look dirtied.cores c = none := by
        rcases hl : dirtied.cores with _ | ⟨p, _ | ⟨q, r⟩⟩
        · rfl
        · rw [hl] at e'
          simp only [List.map_cons, List.map_nil, List.cons.injEq, and_true] at e'
          simp [look, e', hc]
        · rw [hl] at e'
          simp at e'
      simp only [coreOf, n, Option.getD_none, Core.atReset]
      split <;> rfl
    rw [e] at h
    cases h

theorem test_quietWindows : let a := memActor dirtied 0 plainX
    Quiet dirtied a 0x10008 ∧ TablesQuiet dirtied a 0x10008 ∧ (∃ x, readPiece a 0x10008 8 rightLD dirtied = .ok x) := by
  refine ⟨fun v hv c _ n w w' h h' hw => ?_, fun c n w w' h h' e he hd t ht p hp => ?_, exists_ok (by decide +kernel)⟩
  · cases oneWindow h
    have : ∀ v ∈ [0x10008, 0x10008 / 64 * 64],
        windowHolds ⟨0, 1, 0x30000, true, true, true, true, [(0, .dirty unitLeaf)]⟩ v = false := by decide +kernel
    rw [this v hv] at hw
    cases hw
  · cases oneWindow h
    simp only [List.mem_singleton] at he
    subst he
    cases ht
    have away : ((tablesOf dirtied (memActor dirtied 0 plainX) 0x10008).all fun p =>
        !decide (p.1 < placeOf unitLeaf 0x30000 + 64 ∧ placeOf unitLeaf 0x30000 < p.1 + p.2)) = true := by decide +kernel
    have x := List.all_eq_true.1 away p hp
    rw [Bool.not_eq_true'] at x
    have y := of_decide_eq_false x
    exact y

theorem test_roundTrip : (Instr.add 5 6 7).wf = true ∧ (Instr.add 5 6 7).isEvent = false := by decide

/-- The leader's core is in turn. -/
def turn : State := { usr with turn := .issue 0 }

/-- A fetch is held. -/
def fetchHeld (s : State) : Bool :=
  match fetchBytes s with
  | .error (.hold _) => true
  | _ => false

theorem test_stepClauses : turn.turn = .issue 0 ∧ select (coreOf (pendingRound 0 turn) 0) = some 0 ∧
    takeOwed (pendingRound 0 turn) ⟨0, 0⟩ = none ∧
    (takeOwed (onCtx turn ⟨0, 0⟩ fun x => { x with owed := some ⟨causeRoute, 0, 0⟩ }) ⟨0, 0⟩).isSome = true ∧
    select (coreOf (pendingRound 0 State.reset) 0) = none ∧
    fetchHeld (issueSlot (pendingRound 0 (setChannel turn 0 3
      { xfer := some ⟨1, 4097, fullAt 0x10000, .global (fullAt 0x10000), 64, 4, 3⟩ })) 0 0) = true ∧
    (∃ x, fetchBytes (issueSlot (pendingRound 0 turn) 0 0) = .ok x ∧ (x.1.take 4 == bytesOf 4 4) = true) ∧
    isOk (fetchBytes (issueSlot (pendingRound 0 (onMe turn fun x => { x with code := withCursor x.code 0x7000000 })) 0 0)) = false ∧
    select (Core.atReset 5) = none ∧ Instr.isEvent .shootdownComplete = true := by
  refine ⟨rfl, ?_, ?_, ?_, ?_, ?_, exists_end ?_, ?_, ?_, ?_⟩ <;> decide +kernel

theorem test_fetchedDecodes : Decodes [4] (.add 0 0 0) := by
  unfold Decodes
  decide +kernel

theorem test_canonicalStep : Canonical State.reset.memory ∧ ∃ t, step State.reset = .next t := by
  refine ⟨⟨.nil, ?_⟩, exists_next ?_⟩
  · intro p h
    cases h
  · decide +kernel
/-- The system context of core 0 in turn, its page in host memory by a cached leaf alone, a stopped leader in slot 0 with windows
of 8 and 0. -/
def saver : State := onCtx (onCore { rich with
    ptroot := BitVec.ofNat 64 (2 ^ 47)
    translations := [⟨0, 30, 0xF3, none⟩]
    keys := [⟨7, 1, 0, false⟩]
    teams := [{ placedTeam with nv := 8, ne := 0 }] } 0 fun k => { k with last := 11 }) ⟨0, 0⟩ fun x => { x with nv := 8, ne := 0, status := .stopped }
/-- Its operands: the image's place, the slot with counter 1, the handle. -/
def saving : State := num (num (hold saver 3 (fullAt 0x10000)) 4 (2 ^ 32)) 5 7

theorem test_saveRequest : privileged saving = true ∧ (SaveRequest.mk 0 0 1 0).stands saving 4 ∧
    MaySave saving ⟨0, 0⟩ 7 1 ⟨7, 1, 0, false⟩ ∧
    capCheck (reg saving 3) 0x10000 (80 + imageLength 8 0 0) permST = none ∧ windowsOf saving ⟨0, 0⟩ = (8, 0) := by
  refine ⟨?_, ?_, ?_, ?_, ?_⟩ <;> first | decide +kernel | (unfold SaveRequest.stands; decide +kernel) | (unfold MaySave; decide +kernel)

/-- The same of a trapped context, which stays, stopped (R250). -/
theorem test_saveTrapped : let s := onCtx saving ⟨0, 0⟩ fun x => { x with status := .trapped }
    privileged s = true ∧ (SaveRequest.mk 0 0 1 0).stands s 4 ∧ MaySave s ⟨0, 0⟩ 7 1 ⟨7, 1, 0, false⟩ ∧
    capCheck (reg s 3) 0x10000 (80 + imageLength 8 0 0) permST = none := by
  refine ⟨?_, ?_, ?_, ?_⟩ <;> first | decide +kernel | (unfold SaveRequest.stands; decide +kernel) | (unfold MaySave; decide +kernel)

theorem test_saveImage : ∃ a, writeImage 3 ⟨0, 0⟩ 1 7 1 0 0 saving = .ok a := exists_ok (by decide +kernel)
/-! ### Single steps with the manual's values -/

/-- The first lane of vector register `n` after an instruction. -/
def laneAfter (i : Instr) (s : State) (n : Nat) : Option Nat :=
  match exec i s with
  | .next t => some ((vreg (me t) n).toNat % 2 ^ 32)
  | _ => none
/-- The number in register `n` after an instruction. -/
def numberAfter (i : Instr) (s : State) (n : Reg) : Option Nat :=
  match exec i s with
  | .next t => some (reg64 t n).toNat
  | _ => none
/-- The issuing context's vector register 9 holds `x` in its first lane. -/
def laned (x : Nat) : State := putV 9 (BitVec.ofNat 2048 x) usr

/-- The worked decode at a window edge (02_state.md). -/
def edge : Cap := ⟨true, BitVec.ofNat 128 (0x00C4002000100000 * 2 ^ 64 + 0x0000000000100008)⟩

theorem test_windowEdge : capBounds edge = some (0x000FFF00, 0x00100100) ∧ capCheck edge 0x001000F8 8 permLD = none ∧
    capCheck edge 0x001000FC 8 permLD = some .bounds ∧ (withCursor edge 0x00100200).tag = true ∧
    (withCursor edge 0x000FFEFF).tag = false := by decide +kernel

theorem test_lnsProduct : rne32 false (logProduct 18 21) = 0x405744FD := by decide +kernel

theorem test_workedBranches : Decodes [0x30020514] (.beq 1 2 3) ∧ Decodes [0x01000504] (.jal 1 0x40) ∧
    Decodes [0x00060530] (.kenter 1 6) ∧ Decodes [0x10000D2E, 0x00FFFFFE, 0x00000000] (.bm 3 .all 0xFFFFFE) := by
  unfold Decodes
  decide +kernel

theorem test_absOfLowest : (laneAfter (.vabsExt 8 9 false ⟨.s8, none, .all, .none⟩) (laned 0x80) 8).map (· % 256) = some 128 ∧
    (laneAfter (.vabsExt 8 9 true ⟨.s8, none, .all, .none⟩) (laned 0x80) 8).map (· % 256) = some 127 := by decide +kernel

theorem test_negOfNatural : (laneAfter (.vnegExt 8 9 false ⟨.n8, none, .all, .none⟩) (laned 5) 8).map (· % 256) = some 251 ∧
    (laneAfter (.vnegExt 8 9 true ⟨.n8, none, .all, .none⟩) (laned 5) 8).map (· % 256) = some 0 := by decide +kernel

theorem test_division : numberAfter (.div 3 4 5) (num usr 4 7) 3 = some (2 ^ 64 - 1) ∧
    numberAfter (.div 3 4 5) (num (num usr 4 (2 ^ 63)) 5 (2 ^ 64 - 1)) 3 = some (2 ^ 63) ∧
    numberAfter (.div 3 4 5) (num (num usr 4 (2 ^ 64 - 7)) 5 2) 3 = some (2 ^ 64 - 3) ∧
    numberAfter (.remn 3 4 5) (num usr 4 7) 3 = some 7 := by decide +kernel

theorem test_shifts : numberAfter (.sra 3 4 5) (num (num usr 4 (2 ^ 63)) 5 67) 3 = some (2 ^ 63 + 2 ^ 62 + 2 ^ 61 + 2 ^ 60) ∧
    numberAfter (.rotl 3 4 5) (num (num usr 4 (2 ^ 63 + 1)) 5 1) 3 = some 3 ∧
    numberAfter (.clz 3 4) (num usr 4 0) 3 = some 64 := by decide +kernel

/-- Twice the base point of P-384, and the digest of "abc" (the standards' own examples). -/
theorem test_curve : addPoint (some curveBase) (some curveBase) = some
    (0x08D999057BA3D2D969260045C55B97F089025959A6F434D651D207D19FB96E9E4FE0E86EBE0E64F85B96A9C75295DF61,
      0x8E80F1FA5B1B3CEDB7BFE8DFFD6DBA74B275D875BC6CC43E904E505F256AB4255FFD43E94D39E22D61501E700A940E80) := by decide +kernel

theorem test_digest : natOfBytes (sha384 [0x61, 0x62, 0x63]).reverse =
    0xcb00753f45a35e8bb5a03d699ac65007272c32ab0eded1631a8b605a43ff5bed8086072ba1e7cc2358baeca134c825a7 := by
  decide +kernel
end Sys2Proof.Tests
end

section
/-!
The integer instructions, the counts, the 128-bit instructions and the readings of a capability (R220 to R223, R228):
the model's results are those of the rules' tables, and each instruction writes its result in all its forms.
-/

namespace Sys2Proof.Machine

open Sys2Proof.Claims

/-! ### Words as the numbers they stand for -/

theorem mul_eq_ofNat {w : Nat} (x y : BitVec w) : x * y = BitVec.ofNat w (x.toNat * y.toNat) := by
  apply BitVec.eq_of_toNat_eq
  rw [BitVec.toNat_mul, BitVec.toNat_ofNat]

theorem shiftLeft_eq_ofNat {w : Nat} (x : BitVec w) (n : Nat) : x <<< n = BitVec.ofNat w (x.toNat * 2 ^ n) := by
  apply BitVec.eq_of_toNat_eq
  rw [BitVec.toNat_shiftLeft, Nat.shiftLeft_eq, BitVec.toNat_ofNat]

theorem ushiftRight_eq_ofNat {w : Nat} (x : BitVec w) (n : Nat) : x >>> n = BitVec.ofNat w (x.toNat / 2 ^ n) := by
  rw [← Nat.shiftRight_eq_div_pow, ← BitVec.toNat_ushiftRight, BitVec.ofNat_toNat, BitVec.setWidth_eq]

theorem sshiftRight_eq_ofInt {w : Nat} (x : BitVec w) (n : Nat) :
    x.sshiftRight n = BitVec.ofInt w (x.toInt / 2 ^ n) := by
  rw [← BitVec.ofInt_toInt (x := x.sshiftRight n), BitVec.toInt_sshiftRight, Int.shiftRight_eq_div_pow, Nat.cast_pow,
    Nat.cast_ofNat]

/-- The quotient of the lowest number by -1 included: it wraps. -/
theorem sdiv_eq_ofInt {w : Nat} (x y : BitVec w) : x.sdiv y = BitVec.ofInt w (x.toInt.tdiv y.toInt) := by
  apply BitVec.eq_of_toInt_eq
  rw [BitVec.toInt_sdiv, BitVec.toInt_ofInt]

theorem udiv_eq_ofNat {w : Nat} (x y : BitVec w) : x.udiv y = BitVec.ofNat w (x.toNat / y.toNat) := by
  rw [← BitVec.toNat_udiv, BitVec.ofNat_toNat, BitVec.setWidth_eq]
  rfl

theorem sub_mul_sdiv_eq_ofInt {w : Nat} (x y : BitVec w) :
    x - y * x.sdiv y = BitVec.ofInt w (x.toInt.tmod y.toInt) := by
  rw [sdiv_eq_ofInt, Int.tmod_def, sub_eq_add_neg, sub_eq_add_neg, BitVec.ofInt_add, BitVec.ofInt_neg, BitVec.ofInt_mul,
    BitVec.ofInt_toInt, BitVec.ofInt_toInt]

theorem sub_mul_udiv_eq_ofNat {w : Nat} (x y : BitVec w) :
    x - y * x.udiv y = BitVec.ofNat w (x.toNat % y.toNat) := by
  rw [udiv_eq_ofNat, sub_eq_iff_eq_add]
  calc x = BitVec.ofNat w x.toNat := by rw [BitVec.ofNat_toNat, BitVec.setWidth_eq]
    _ = BitVec.ofNat w (x.toNat % y.toNat + y.toNat * (x.toNat / y.toNat)) := by rw [Nat.mod_add_div]
    _ = BitVec.ofNat w (x.toNat % y.toNat) + y * BitVec.ofNat w (x.toNat / y.toNat) := by
      rw [BitVec.ofNat_add, BitVec.ofNat_mul, BitVec.ofNat_toNat, BitVec.setWidth_eq]

/-- The product of two sign-extended words is their signed product on 128 bits. -/
theorem signExtend_mul_signExtend (x y : BitVec 64) :
    x.signExtend 128 * y.signExtend 128 = BitVec.ofInt 128 (x.toInt * y.toInt) := by
  rw [BitVec.ofInt_mul]
  rfl

theorem ofInt_add_toInt {w v : Nat} (x : BitVec w) (y : BitVec v) :
    BitVec.ofInt w (x.toInt + y.toInt) = x + y.signExtend w := by
  rw [BitVec.ofInt_add, BitVec.ofInt_toInt]
  rfl

/-! ### The results of the table (R221) -/

theorem aluMulh_eq (x y : BitVec 64) :
    aluMulh x y = (x.signExtend 128 * y.signExtend 128).extractLsb' 64 64 := by
  apply BitVec.eq_of_toNat_eq
  rw [signExtend_mul_signExtend, BitVec.extractLsb'_toNat, BitVec.toNat_ofInt, Nat.shiftRight_eq_div_pow, aluMulh,
    BitVec.toNat_ofNat, wrap]
  generalize x.toInt * y.toInt = p
  omega

theorem aluMulhn_eq (x y : BitVec 64) :
    aluMulhn x y = (x.zeroExtend 128 * y.zeroExtend 128).extractLsb' 64 64 := by
  have hx := x.isLt
  have hy := y.isLt
  have hp : x.toNat * y.toNat < 2 ^ 128 := by nlinarith
  apply BitVec.eq_of_toNat_eq
  rw [BitVec.extractLsb'_toNat, BitVec.toNat_mul, BitVec.toNat_setWidth, BitVec.toNat_setWidth,
    Nat.mod_eq_of_lt (a := x.toNat) (by omega), Nat.mod_eq_of_lt (a := y.toNat) (by omega), Nat.mod_eq_of_lt hp,
    Nat.shiftRight_eq_div_pow, aluMulhn, BitVec.toNat_ofNat]

theorem aluDiv_eq (x y : BitVec 64) : aluDiv x y = if y = 0 then BitVec.ofInt 64 (-1) else x.sdiv y := by
  rw [aluDiv, sdiv_eq_ofInt]
  rfl

theorem aluDivn_eq (x y : BitVec 64) :
    aluDivn x y = if y = 0 then BitVec.ofNat 64 (2 ^ 64 - 1) else x.udiv y := by
  rw [aluDivn, udiv_eq_ofNat]
  rfl

theorem aluRem_eq (x y : BitVec 64) : aluRem x y = if y = 0 then x else x - y * x.sdiv y := by
  rw [aluRem, sub_mul_sdiv_eq_ofInt]

theorem aluRemn_eq (x y : BitVec 64) : aluRemn x y = if y = 0 then x else x - y * x.udiv y := by
  rw [aluRemn, sub_mul_udiv_eq_ofNat]

theorem aluRotl_eq (x y : BitVec 64) :
    aluRotl x y = x <<< (y.toNat % 64) ||| x >>> (64 - y.toNat % 64) := by
  rw [aluRotl, BitVec.rotateLeft_def, Nat.mod_mod]

/-- A comparison as a word: 1 where it holds, 0 where it does not. -/
theorem ofNat_boolNat (p : Prop) [Decidable p] : BitVec.ofNat 64 (boolNat (decide p)) = if p then 1 else 0 := by
  by_cases h : p
  · rw [decide_eq_true h, if_pos h]; rfl
  · rw [decide_eq_false h, if_neg h]; rfl

theorem aluSlt_eq (x y : BitVec 64) : aluSlt x y = if x.toInt < y.toInt then 1 else 0 :=
  ofNat_boolNat (x.toInt < y.toInt)

theorem aluSltn_eq (x y : BitVec 64) : aluSltn x y = if x.toNat < y.toNat then 1 else 0 :=
  ofNat_boolNat (x.toNat < y.toNat)

theorem aluSeq_eq (x y : BitVec 64) : aluSeq x y = if x = y then 1 else 0 := ofNat_boolNat (x = y)

theorem aluSne_eq (x y : BitVec 64) : aluSne x y = if x = y then 0 else 1 := by
  rw [aluSne, condNe]
  by_cases h : x = y
  · rw [if_pos h, bne_eq_false_iff_eq.2 h]; rfl
  · rw [if_neg h, bne_iff_ne.2 h]; rfl

theorem condLt_iff (x y : BitVec 64) : condLt x y = true ↔ x.toInt < y.toInt := decide_eq_true_iff

theorem condLtn_iff (x y : BitVec 64) : condLtn x y = true ↔ x.toNat < y.toNat := decide_eq_true_iff

theorem aluMin_eq (x y : BitVec 64) : aluMin x y = BitVec.ofInt 64 (min x.toInt y.toInt) := by
  rw [aluMin]
  split
  next h => rw [min_eq_right ((condLt_iff y x).1 h).le, BitVec.ofInt_toInt]
  next h => rw [min_eq_left (not_lt.1 (mt (condLt_iff y x).2 h)), BitVec.ofInt_toInt]

theorem aluMax_eq (x y : BitVec 64) : aluMax x y = BitVec.ofInt 64 (max x.toInt y.toInt) := by
  rw [aluMax]
  split
  next h => rw [max_eq_right ((condLt_iff x y).1 h).le, BitVec.ofInt_toInt]
  next h => rw [max_eq_left (not_lt.1 (mt (condLt_iff x y).2 h)), BitVec.ofInt_toInt]

theorem aluMinn_eq (x y : BitVec 64) : aluMinn x y = BitVec.ofNat 64 (min x.toNat y.toNat) := by
  rw [aluMinn]
  split
  next h => rw [min_eq_right ((condLtn_iff y x).1 h).le, BitVec.ofNat_toNat, BitVec.setWidth_eq]
  next h => rw [min_eq_left (not_lt.1 (mt (condLtn_iff y x).2 h)), BitVec.ofNat_toNat, BitVec.setWidth_eq]

theorem aluMaxn_eq (x y : BitVec 64) : aluMaxn x y = BitVec.ofNat 64 (max x.toNat y.toNat) := by
  rw [aluMaxn]
  split
  next h => rw [max_eq_right ((condLtn_iff x y).1 h).le, BitVec.ofNat_toNat, BitVec.setWidth_eq]
  next h => rw [max_eq_left (not_lt.1 (mt (condLtn_iff x y).2 h)), BitVec.ofNat_toNat, BitVec.setWidth_eq]

/-! ### Second operands (R186, R223) -/

theorem opLength_eq (o : Op2) : opLength o = formBytes o := by cases o <;> rfl

theorem opReg_zero (s : State) (c : Reg) : opReg s c 0 = reg64 s c := by
  rw [opReg]
  exact BitVec.add_zero _

theorem opReg128_zero (s : State) (c : Reg) : opReg128 s c 0 = (reg s c).bits := by
  rw [opReg128]
  exact BitVec.add_zero _

theorem op2_eq (s : State) (o : Op2) : op2 s o = secondOperand s o := by
  cases o with
  | ext c imm => exact (ofInt_add_toInt (reg64 s c) imm).symm
  | lit v => rfl
  | long v => rfl

theorem op2Wide_eq (s : State) (o : Op2) : op2Wide s o = secondOperandWide s o := by
  cases o with
  | ext c imm => exact (ofInt_add_toInt (reg s c).bits imm).symm
  | lit v => rfl
  | long v => rfl

theorem aluShort_eq (f : BitVec 64 → BitVec 64 → BitVec 64) (a b c : Reg) (s : State) :
    aluShort f a b c s = .next (advance 4 (writeInt a 64 (f (reg64 s b) (reg64 s c)).toNat s)) := by
  rw [aluShort, fixed, opReg_zero, alu]

theorem aluWide_eq (f : BitVec 64 → BitVec 64 → BitVec 64) (a b : Reg) (o : Op2) (s : State) :
    aluWide f a b o s =
      .next (advance (formBytes o) (writeInt a 64 (f (reg64 s b) (secondOperand s o)).toNat s)) := by
  rw [aluWide, fixed, opLength_eq, op2_eq, alu]

theorem quadShort_eq (f : BitVec 128 → BitVec 128 → BitVec 128) (a b c : Reg) (s : State) :
    quadShort f a b c s = .next (advance 4 (writeInt a 128 (f (reg s b).bits (reg s c).bits).toNat s)) := by
  rw [quadShort, fixed, opReg128_zero, quad]

theorem quadWide_eq (f : BitVec 128 → BitVec 128 → BitVec 128) (a b : Reg) (o : Op2) (s : State) :
    quadWide f a b o s =
      .next (advance (formBytes o) (writeInt a 128 (f (reg s b).bits (secondOperandWide s o)).toNat s)) := by
  rw [quadWide, fixed, opLength_eq, op2Wide_eq, quad]

/-! ### Two-operand integer instructions in all their forms (R220, R221) -/

/-- Both forms of a row of R221 run the model's function `f`, and `f` gives the row's result. -/
structure AluRunsBy (f : BitVec 64 → BitVec 64 → BitVec 64) (r : AluRow) : Prop where
  short : ∀ a b c s, exec (r.short a b c) s = aluShort f a b c s := by intros; rfl
  wide : ∀ a b o s, exec (r.wide a b o) s = aluWide f a b o s := by intros; rfl
  result : ∀ x y, f x y = r.result x y

theorem aluRows_run : ∀ r ∈ aluRows, ∃ f, AluRunsBy f r := by
  simp only [aluRows, List.forall_mem_cons]
  exact ⟨⟨aluAdd, { result := fun _ _ => rfl }⟩,
    ⟨aluSub, { result := fun _ _ => rfl }⟩,
    ⟨aluMul, { result := mul_eq_ofNat }⟩,
    ⟨aluMulh, { result := aluMulh_eq }⟩,
    ⟨aluMulhn, { result := aluMulhn_eq }⟩,
    ⟨aluDiv, { result := aluDiv_eq }⟩,
    ⟨aluDivn, { result := aluDivn_eq }⟩,
    ⟨aluRem, { result := aluRem_eq }⟩,
    ⟨aluRemn, { result := aluRemn_eq }⟩,
    ⟨aluAnd, { result := fun _ _ => rfl }⟩,
    ⟨aluOr, { result := fun _ _ => rfl }⟩,
    ⟨aluXor, { result := fun _ _ => rfl }⟩,
    ⟨aluShl, { result := fun x y => shiftLeft_eq_ofNat x (y.toNat % 64) }⟩,
    ⟨aluShr, { result := fun x y => ushiftRight_eq_ofNat x (y.toNat % 64) }⟩,
    ⟨aluSra, { result := fun x y => sshiftRight_eq_ofInt x (y.toNat % 64) }⟩,
    ⟨aluRotl, { result := aluRotl_eq }⟩,
    ⟨aluSlt, { result := aluSlt_eq }⟩,
    ⟨aluSltn, { result := aluSltn_eq }⟩,
    ⟨aluSeq, { result := aluSeq_eq }⟩,
    ⟨aluSne, { result := aluSne_eq }⟩,
    ⟨aluMin, { result := aluMin_eq }⟩,
    ⟨aluMax, { result := aluMax_eq }⟩,
    ⟨aluMinn, { result := aluMinn_eq }⟩,
    ⟨aluMaxn, { result := aluMaxn_eq }⟩,
    fun _ h => absurd h List.not_mem_nil⟩

/-! ### Counts and byte reversal (R222) -/

theorem bit_eq_testBit (x i : Nat) : bit x i = x.testBit i := by
  rw [bit, Nat.testBit_eq_decide_div_mod_eq]
  rfl

theorem countLeading_eq (w x : Nat) :
    countLeading w x = (((List.range w).reverse).takeWhile fun i => !isOne x i).length := by
  induction w with
  | zero => rfl
  | succ w ih =>
    rw [List.range_succ, List.reverse_append, List.reverse_singleton, List.singleton_append, List.takeWhile_cons,
      countLeading, bit_eq_testBit, ih, isOne]
    cases x.testBit w <;> rfl

theorem countTrailing_eq (n i x : Nat) :
    countTrailing n i x = ((List.range' i n).takeWhile fun j => !isOne x j).length := by
  induction n generalizing i with
  | zero => rfl
  | succ n ih =>
    rw [List.range'_succ, List.takeWhile_cons, countTrailing, bit_eq_testBit, ih, isOne]
    cases x.testBit i <;> rfl

theorem countOnes_eq (w x : Nat) : countOnes w x = ((List.range w).filter fun i => isOne x i).length := by
  induction w with
  | zero => rfl
  | succ w ih =>
    rw [List.range_succ, List.filter_append, List.length_append, countOnes, bit_eq_testBit, ih, List.filter_singleton,
      isOne]
    cases x.testBit w <;> rfl

theorem natOfBytes_append (l m : List Byte) :
    natOfBytes (l ++ m) = natOfBytes l + 256 ^ l.length * natOfBytes m := by
  induction l with
  | nil => simp [natOfBytes]
  | cons b l ih =>
    rw [List.cons_append, natOfBytes, ih, natOfBytes, List.length_cons, pow_succ']
    ring

/-- The bytes of a number, read from the highest down: byte `i` stands at place `n - 1 - i`. -/
theorem natOfBytes_reverse_bytesOf (n x : Nat) :
    natOfBytes (bytesOf n x).reverse = ((List.range n).map fun i => x / 256 ^ i % 256 * 256 ^ (n - 1 - i)).sum := by
  induction n generalizing x with
  | zero => rfl
  | succ n ih =>
    have hshift : ∀ i, x / 256 / 256 ^ i % 256 * 256 ^ (n - 1 - i) =
        x / 256 ^ (i + 1) % 256 * 256 ^ (n + 1 - 1 - (i + 1)) := by
      intro i
      rw [Nat.div_div_eq_div_mul, ← pow_succ', show n + 1 - 1 - (i + 1) = n - 1 - i by omega]
    rw [bytesOf, List.reverse_cons, natOfBytes_append, ih, List.length_reverse, length_bytesOf, List.range_succ_eq_map,
      List.map_cons, List.sum_cons, List.map_map]
    simp only [hshift, Function.comp_def, natOfBytes, BitVec.toNat_ofNat, pow_zero, Nat.div_one, Nat.add_sub_cancel,
      Nat.sub_zero]
    ring

/-- Both forms of a row of R222 run the model's function `f`, and `f` gives the row's result. -/
structure CountRunsBy (f : Nat → Nat → Nat) (r : CountRow) : Prop where
  short : ∀ a b s, exec (r.short a b) s = unary f 4 64 a b s := by intros; rfl
  ext : ∀ a b w s, exec (r.ext a b w) s = unary f 12 (widthBits w) a b s := by intros; rfl
  result : ∀ w x, f w x = r.result w x

theorem resCtz_eq (w x : Nat) : resCtz w x = ((List.range w).takeWhile fun i => !isOne x i).length := by
  rw [resCtz, countTrailing_eq, List.range_eq_range']

theorem countRows_run : ∀ r ∈ countRows, ∃ f, CountRunsBy f r := by
  simp only [countRows, List.forall_mem_cons]
  exact ⟨⟨resClz, { result := countLeading_eq }⟩,
    ⟨resCtz, { result := resCtz_eq }⟩,
    ⟨resPopc, { result := countOnes_eq }⟩,
    ⟨resBswap, { result := fun w => natOfBytes_reverse_bytesOf (w / 8) }⟩,
    fun _ h => absurd h List.not_mem_nil⟩

theorem widthBits_eq (w : BitWidth) : widthBits w = suffixWidth w := by cases w <;> rfl

theorem unary_eq (f : Nat → Nat → Nat) (len w : Nat) (a b : Reg) (s : State) :
    unary f len w a b s = .next (advance len (writeInt a 64 (f w ((reg64 s b).toNat % 2 ^ w)) s)) := rfl

theorem countResults : Claims.CountResults := by
  intro r hr a b w s
  obtain ⟨f, h⟩ := countRows_run r hr
  constructor
  · rw [h.short, unary_eq, h.result, Nat.mod_eq_of_lt (reg64 s b).isLt]
  · rw [h.ext, unary_eq, h.result, widthBits_eq]

/-! ### 128-bit instructions (R223) -/

/-- Both forms of a row of R223 run the model's function `f`, and `f` gives the row's result. -/
structure QuadRunsBy (f : BitVec 128 → BitVec 128 → BitVec 128) (r : QuadRow) : Prop where
  short : ∀ a b c s, exec (r.short a b c) s = quadShort f a b c s := by intros; rfl
  wide : ∀ a b o s, exec (r.wide a b o) s = quadWide f a b o s := by intros; rfl
  result : ∀ x y, f x y = r.result x y

theorem quadRows_run : ∀ r ∈ quadRows, ∃ f, QuadRunsBy f r := by
  simp only [quadRows, List.forall_mem_cons]
  exact ⟨⟨quadAdd, { result := fun _ _ => rfl }⟩,
    ⟨quadSub, { result := fun _ _ => rfl }⟩,
    ⟨quadMul, { result := mul_eq_ofNat }⟩,
    ⟨quadShl, { result := fun x y => shiftLeft_eq_ofNat x (y.toNat % 128) }⟩,
    ⟨quadShr, { result := fun x y => ushiftRight_eq_ofNat x (y.toNat % 128) }⟩,
    fun _ h => absurd h List.not_mem_nil⟩

theorem quadResults : Claims.QuadResults := by
  intro r hr a b c o s
  obtain ⟨f, h⟩ := quadRows_run r hr
  constructor
  · rw [h.short, quadShort_eq, h.result]
  · rw [h.wide, quadWide_eq, h.result]

/-! ### Readings of a capability (R228) -/

theorem exec_kbase (a b : Reg) (s : State) :
    exec (.kbase a b) s = .next (advance 4 (writeInt a 80 (baseOf (reg s b)) s)) := rfl

theorem exec_ktop (a b : Reg) (s : State) :
    exec (.ktop a b) s = .next (advance 4 (writeInt a 81 (topOf (reg s b)) s)) := rfl

theorem exec_klen (a b : Reg) (s : State) :
    exec (.klen a b) s = .next (advance 4 (writeInt a 81 (topOf (reg s b) - baseOf (reg s b)) s)) := rfl

theorem exec_kinside (a b c : Reg) (s : State) :
    exec (.kinside a b c) s = .next (advance 4 (writeInt a 1 (boolNat (insideOf (reg s b) (reg s c))) s)) := rfl

theorem exec_kplain (a b : Reg) (s : State) : exec (.kplain a b) s = quick 4 (plainCopy a b) s := rfl

theorem baseOf_some {c : Cap} {base top : Nat} (h : capBounds c = some (base, top)) : baseOf c = base := by
  rw [baseOf, h]; rfl

theorem topOf_some {c : Cap} {base top : Nat} (h : capBounds c = some (base, top)) : topOf c = top := by
  rw [topOf, h]; rfl

theorem baseOf_none {c : Cap} (h : capBounds c = none) : baseOf c = 0 := by rw [baseOf, h]; rfl

theorem topOf_none {c : Cap} (h : capBounds c = none) : topOf c = 0 := by rw [topOf, h]; rfl

theorem capPerms_lt (c : Cap) : capPerms c < 2 ^ 10 := Nat.mod_lt _ (by decide)

/-- One set of permissions lies within another: bit by bit of the ten (R56). -/
theorem capPerms_land_eq_iff (b c : Cap) : (capPerms c).land (capPerms b) = capPerms c ↔
    ∀ i < 10, (capPerms c).testBit i = true → (capPerms b).testBit i = true := by
  constructor
  · intro h i _ hc
    have : ((capPerms c).land (capPerms b)).testBit i = true := by rw [h, hc]
    exact (Bool.and_eq_true_iff.1 ((Nat.testBit_land _ _ i).symm.trans this)).2
  · intro h
    apply Nat.eq_of_testBit_eq
    intro i
    refine (Nat.testBit_land _ _ i).trans ?_
    by_cases hi : i < 10
    · cases hc : (capPerms c).testBit i with
      | false => rfl
      | true => rw [h i hi hc]; rfl
    · have hc : (capPerms c).testBit i = false :=
        Nat.testBit_lt_two_pow ((capPerms_lt c).trans_le (Nat.pow_le_pow_right (by decide) (by omega)))
      rw [hc]; rfl

/-- What `kinside` asks, said in full (R228). -/
theorem insideOf_iff (b c : Cap) : insideOf b c = true ↔
    b.tag = true ∧ c.tag = true ∧ isSealed b = false ∧
      (∃ base top lo hi, capBounds b = some (base, top) ∧ capBounds c = some (lo, hi) ∧ base ≤ lo ∧ hi ≤ top) ∧
      ∀ i < 10, (capPerms c).testBit i = true → (capPerms b).testBit i = true := by
  rw [← capPerms_land_eq_iff]
  unfold insideOf
  split
  next ob ib hb hc =>
    obtain ⟨base, top⟩ := ob
    obtain ⟨lo, hi⟩ := ib
    simp [hb, hc, boundsWithin, and_assoc]
  next hb => simp [hb]
  next hb hc => simp [hb, hc]

/-- One part of what `kinside` asks that fails is enough for a 0. -/
theorem insideOf_eq_false {b c : Cap}
    (h : b.tag = false ∨ c.tag = false ∨ isSealed b = true ∨ capBounds b = none ∨ capBounds c = none ∨
      (∃ base top lo hi, capBounds b = some (base, top) ∧ capBounds c = some (lo, hi) ∧ (lo < base ∨ top < hi)) ∨
      ∃ i < 10, (capPerms c).testBit i = true ∧ (capPerms b).testBit i = false) :
    insideOf b c = false := by
  rw [Bool.eq_false_iff, ne_eq, insideOf_iff]
  rintro ⟨htag, htag', hseal, ⟨base, top, lo, hi, hb, hc, hlo, hhi⟩, hperms⟩
  rcases h with h | h | h | h | h | ⟨base', top', lo', hi', hb', hc', h⟩ | ⟨i, hi10, hbit, h⟩
  · simp [htag] at h
  · simp [htag'] at h
  · simp [hseal] at h
  · simp [hb] at h
  · simp [hc] at h
  · cases hb.symm.trans hb'
    cases hc.symm.trans hc'
    omega
  · simp [hperms i hi10 hbit] at h

theorem plainCopy_ok (a b : Reg) (s : State) (h : isView (reg s b) = false) :
    plainCopy a b s = .ok ((), writeInt a 128 (reg s b).bits.toNat s) := by
  unfold plainCopy
  rw [act_bind_ok _ _ s s s rfl]
  simp only [h]
  rfl

theorem plainCopy_view (a b : Reg) (s : State) (h : isView (reg s b) = true) :
    plainCopy a b s = .error (.trap ⟨causeView, condInfo b.val 2, 0⟩) := by
  unfold plainCopy
  rw [act_bind_ok _ _ s s s rfl]
  simp only [h]
  rfl

/-! ### The statements settled -/

/-- Settles O1: both forms of each row run one function of the model, which gives the row's result. -/
theorem integerResults : Obligations.IntegerResults := by
  intro r hr a b c o s
  obtain ⟨f, h⟩ := aluRows_run r hr
  constructor
  · rw [h.short, aluShort_eq, h.result]
  · rw [h.wide, aluWide_eq, h.result]

/-- Settles O31, row by row of R222 and R223. -/
theorem countAndQuadResults : Obligations.CountAndQuadResults := ⟨countResults, quadResults⟩

/-- Settles O3: the bounds are those of R57, `kinside` answers by `insideOf_iff`, `kplain` copies or raises. -/
theorem capabilityReadings : Obligations.CapabilityReadings := by
  intro a b c s
  have hbounds : ∀ base top, capBounds (reg s b) = some (base, top) →
      exec (.kbase a b) s = .next (advance 4 (writeInt a 80 base s)) ∧
      exec (.ktop a b) s = .next (advance 4 (writeInt a 81 top s)) ∧
      exec (.klen a b) s = .next (advance 4 (writeInt a 81 (top - base) s)) := by
    intro base top h
    rw [exec_kbase, exec_ktop, exec_klen, baseOf_some h, topOf_some h]
    exact ⟨rfl, rfl, rfl⟩
  have hempty : capBounds (reg s b) = none →
      exec (.kbase a b) s = .next (advance 4 (writeInt a 80 0 s)) ∧
      exec (.ktop a b) s = .next (advance 4 (writeInt a 81 0 s)) ∧
      exec (.klen a b) s = .next (advance 4 (writeInt a 81 0 s)) := by
    intro h
    rw [exec_kbase, exec_ktop, exec_klen, baseOf_none h, topOf_none h]
    exact ⟨rfl, rfl, rfl⟩
  refine ⟨rfl, rfl, rfl, hbounds, hempty, ?inside, ?outside, ?plain, ?view⟩
  case inside =>
    intro hb hc hs hwithin hperms
    rw [exec_kinside, (insideOf_iff _ _).2 ⟨hb, hc, hs, hwithin, hperms⟩]
    rfl
  case outside =>
    intro h
    rw [exec_kinside, insideOf_eq_false h]
    rfl
  case plain => exact fun h => (exec_kplain a b s).trans <| quick_ok 4 _ s _ (plainCopy_ok a b s h)
  case view => exact fun h => (exec_kplain a b s).trans <| quick_trap 4 _ s _ (plainCopy_view a b s h)

end Sys2Proof.Machine
end

section
namespace Sys2Proof.Laws.RoundTrip

/-- Every instruction's fields fit its length class and decode to it. -/
theorem statement_of : ∀ i : Instr, Statement i
  | .add a b c => add a b c
  | .addWide a b o => addWide a b o
  | .sub a b c => sub a b c
  | .subWide a b o => subWide a b o
  | .mul a b c => mul a b c
  | .mulWide a b o => mulWide a b o
  | .mulh a b c => mulh a b c
  | .mulhWide a b o => mulhWide a b o
  | .mulhn a b c => mulhn a b c
  | .mulhnWide a b o => mulhnWide a b o
  | .div a b c => div a b c
  | .divWide a b o => divWide a b o
  | .divn a b c => divn a b c
  | .divnWide a b o => divnWide a b o
  | .rem a b c => rem a b c
  | .remWide a b o => remWide a b o
  | .remn a b c => remn a b c
  | .remnWide a b o => remnWide a b o
  | .and a b c => and a b c
  | .andWide a b o => andWide a b o
  | .or a b c => or a b c
  | .orWide a b o => orWide a b o
  | .xor a b c => xor a b c
  | .xorWide a b o => xorWide a b o
  | .shl a b c => shl a b c
  | .shlWide a b o => shlWide a b o
  | .shr a b c => shr a b c
  | .shrWide a b o => shrWide a b o
  | .sra a b c => sra a b c
  | .sraWide a b o => sraWide a b o
  | .rotl a b c => rotl a b c
  | .rotlWide a b o => rotlWide a b o
  | .slt a b c => slt a b c
  | .sltWide a b o => sltWide a b o
  | .sltn a b c => sltn a b c
  | .sltnWide a b o => sltnWide a b o
  | .seq a b c => seq a b c
  | .seqWide a b o => seqWide a b o
  | .sne a b c => sne a b c
  | .sneWide a b o => sneWide a b o
  | .min a b c => min a b c
  | .minWide a b o => minWide a b o
  | .max a b c => max a b c
  | .maxWide a b o => maxWide a b o
  | .minn a b c => minn a b c
  | .minnWide a b o => minnWide a b o
  | .maxn a b c => maxn a b c
  | .maxnWide a b o => maxnWide a b o
  | .clz a b => clz a b
  | .clzExt a b w => clzExt a b w
  | .ctz a b => ctz a b
  | .ctzExt a b w => ctzExt a b w
  | .popc a b => popc a b
  | .popcExt a b w => popcExt a b w
  | .bswap a b => bswap a b
  | .bswapExt a b w => bswapExt a b w
  | .qadd a b c => qadd a b c
  | .qaddWide a b o => qaddWide a b o
  | .qsub a b c => qsub a b c
  | .qsubWide a b o => qsubWide a b o
  | .qmul a b c => qmul a b c
  | .qmulWide a b o => qmulWide a b o
  | .qshl a b c => qshl a b c
  | .qshlWide a b o => qshlWide a b o
  | .qshr a b c => qshr a b c
  | .qshrWide a b o => qshrWide a b o
  | .kmov a b => kmov a b
  | .kmovExt a b => kmovExt a b
  | .kstep a b c => kstep a b c
  | .kstepExt a b c imm => kstepExt a b c imm
  | .kplace a b c => kplace a b c
  | .kplaceExt a b c imm => kplaceExt a b c imm
  | .kfit a b c => kfit a b c
  | .kfitExt a b c imm => kfitExt a b c imm
  | .kcut a b c => kcut a b c
  | .kcutExt a b c imm => kcutExt a b c imm
  | .kmask a b c => kmask a b c
  | .kmaskExt a b c imm => kmaskExt a b c imm
  | .klock a b => klock a b
  | .klockExt a b => klockExt a b
  | .kopen a b c => kopen a b c
  | .kopenExt a b c => kopenExt a b c
  | .kcur a b => kcur a b
  | .kbase a b => kbase a b
  | .ktop a b => ktop a b
  | .klen a b => klen a b
  | .kperm a b => kperm a b
  | .ktag a b => ktag a b
  | .kinside a b c => kinside a b c
  | .kplain a b => kplain a b
  | .j off => j off
  | .jExt off => jExt off
  | .jal a off => jal a off
  | .jalExt a off => jalExt a off
  | .jr b => jr b
  | .jalr a b => jalr a b
  | .ret b => ret b
  | .beq a b off => beq a b off
  | .beqExt a b off => beqExt a b off
  | .bne a b off => bne a b off
  | .bneExt a b off => bneExt a b off
  | .blt a b off => blt a b off
  | .bltExt a b off => bltExt a b off
  | .bge a b off => bge a b off
  | .bgeExt a b off => bgeExt a b off
  | .bltn a b off => bltn a b off
  | .bltnExt a b off => bltnExt a b off
  | .bgen a b off => bgen a b off
  | .bgenExt a b off => bgenExt a b off
  | .bm m cond off => bm m cond off
  | .kenter a b => kenter a b
  | .ctxSave d a b c evict => ctxSave d a b c evict
  | .ctxRest d a b c => ctxRest d a b c
  | .eret b => eret b
  | .start a b c pin => start a b c pin
  | .join a b => join a b
  | .halt a => halt a
  | .spawn a b c d imm => spawn a b c d imm
  | .yield  => yield
  | .bar sc => bar sc
  | .semSig sem => semSig sem
  | .semWait sem => semWait sem
  | .fwdPut a quad => fwdPut a quad
  | .fwdGet a => fwdGet a
  | .trap n => trap n
  | .trapExt n => trapExt n
  | .srd a sr => srd a sr
  | .swr sr b => swr sr b
  | .ifence  => ifence
  | .hret b => hret b
  | .vadd a b c fmt => vadd a b c fmt
  | .vaddExt a b c sat x => vaddExt a b c sat x
  | .vsub a b c fmt => vsub a b c fmt
  | .vsubExt a b c sat x => vsubExt a b c sat x
  | .vmul a b c fmt => vmul a b c fmt
  | .vmulExt a b c sat x => vmulExt a b c sat x
  | .vfma a b c fmt => vfma a b c fmt
  | .vfmaExt a b c x => vfmaExt a b c x
  | .vmin a b c fmt => vmin a b c fmt
  | .vminExt a b c x => vminExt a b c x
  | .vmax a b c fmt => vmax a b c fmt
  | .vmaxExt a b c x => vmaxExt a b c x
  | .vabs a b fmt => vabs a b fmt
  | .vabsExt a b sat x => vabsExt a b sat x
  | .vneg a b fmt => vneg a b fmt
  | .vnegExt a b sat x => vnegExt a b sat x
  | .vdiv a b c fmt => vdiv a b c fmt
  | .vdivExt a b c x => vdivExt a b c x
  | .vsqrt a b fmt => vsqrt a b fmt
  | .vsqrtExt a b x => vsqrtExt a b x
  | .vrsqrt a b fmt => vrsqrt a b fmt
  | .vrsqrtExt a b x => vrsqrtExt a b x
  | .vexp a b fmt => vexp a b fmt
  | .vexpExt a b x => vexpExt a b x
  | .vlog a b fmt => vlog a b fmt
  | .vlogExt a b x => vlogExt a b x
  | .vsig a b fmt => vsig a b fmt
  | .vsigExt a b x => vsigExt a b x
  | .vtanh a b fmt => vtanh a b fmt
  | .vtanhExt a b x => vtanhExt a b x
  | .vaddc a b => vaddc a b
  | .vaddcExt a b x => vaddcExt a b x
  | .vand a b c fmt => vand a b c fmt
  | .vandExt a b c x => vandExt a b c x
  | .vor a b c fmt => vor a b c fmt
  | .vorExt a b c x => vorExt a b c x
  | .vxor a b c fmt => vxor a b c fmt
  | .vxorExt a b c x => vxorExt a b c x
  | .vshl a b c fmt => vshl a b c fmt
  | .vshlExt a b c x => vshlExt a b c x
  | .vshr a b c fmt => vshr a b c fmt
  | .vshrExt a b c x => vshrExt a b c x
  | .vsra a b c fmt => vsra a b c fmt
  | .vsraExt a b c x => vsraExt a b c x
  | .vsel a b c fmt => vsel a b c fmt
  | .vselExt a b c x => vselExt a b c x
  | .vmov a b fmt => vmov a b fmt
  | .vmovExt a b x => vmovExt a b x
  | .vdot a b c fmt => vdot a b c fmt
  | .vdotExt a b c x => vdotExt a b c x
  | .vcvt a b part src x => vcvt a b part src x
  | .vpack a d b kind part x => vpack a d b kind part x
  | .vunpk a d b kind part x => vunpk a d b kind part x
  | .vcmp a b c cond x => vcmp a b c cond x
  | .mskl a b c op => mskl a b c op
  | .mskp a b op => mskp a b op
  | .msks a lit => msks a lit
  | .msksExt a lit op => msksExt a lit op
  | .vred a b op x => vred a b op x
  | .vscan a b c d op x => vscan a b c d op x
  | .vbcast a b c fmt => vbcast a b c fmt
  | .vbcastExt a b c imm x => vbcastExt a b c imm x
  | .vperm a b c fmt => vperm a b c fmt
  | .vpermExt a b c x => vpermExt a b c x
  | .vsort a b fmt => vsort a b fmt
  | .vsortExt a b desc x => vsortExt a b desc x
  | .vmerge a b c fmt => vmerge a b c fmt
  | .vmergeExt a b c d desc x => vmergeExt a b c d desc x
  | .vidx a b fmt => vidx a b fmt
  | .vidxExt a b imm x => vidxExt a b imm x
  | .vsplat a c fmt => vsplat a c fmt
  | .vsplatWide a w => vsplatWide a w
  | .vrand a fmt => vrand a fmt
  | .vrandExt a x => vrandExt a x
  | .vkeep a b c fmt => vkeep a b c fmt
  | .vkeepExt a b c x => vkeepExt a b c x
  | .vphx a b c fmt => vphx a b c fmt
  | .vphxExt a b c word imm x => vphxExt a b c word imm x
  | .vrope a b c => vrope a b c
  | .vropeExt a b c d half x => vropeExt a b c d half x
  | .vins a b c fmt => vins a b c fmt
  | .vinsExt a b c imm x => vinsExt a b c imm x
  | .vext a b c fmt => vext a b c fmt
  | .vextExt a b c imm x => vextExt a b c imm x
  | .madd a b c => madd a b c
  | .maddExt a b c d x => maddExt a b c d x
  | .msub a b c => msub a b c
  | .msubExt a b c d x => msubExt a b c d x
  | .mmul a b c => mmul a b c
  | .mmulExt a b c x => mmulExt a b c x
  | .mscl a b c => mscl a b c
  | .msclExt a b c x => msclExt a b c x
  | .mexp a b => mexp a b
  | .mexpExt a b x => mexpExt a b x
  | .mrelu a b => mrelu a b
  | .mreluExt a b x => mreluExt a b x
  | .msig a b => msig a b
  | .msigExt a b x => msigExt a b x
  | .mcoll a b c form half x => mcoll a b c form half x
  | .mfrom a b c => mfrom a b c
  | .mfromExt a b c x => mfromExt a b c x
  | .mmov a b => mmov a b
  | .mmovExt a b x => mmovExt a b x
  | .ld a b kind off => ld a b kind off
  | .ldExt a b kind x => ldExt a b kind x
  | .st a b kind off => st a b kind off
  | .stExt a b kind x => stExt a b kind x
  | .cld a b off => cld a b off
  | .cldExt a b x => cldExt a b x
  | .cst a b off => cst a b off
  | .cstExt a b x => cstExt a b x
  | .vld a b off => vld a b off
  | .vldExt a b m x => vldExt a b m x
  | .vst a b off => vst a b off
  | .vstExt a b m x => vstExt a b m x
  | .vgath a b m x => vgath a b m x
  | .vscat a b m x => vscat a b m x
  | .eld a b off => eld a b off
  | .eldExt a b m x => eldExt a b m x
  | .est a b off => est a b off
  | .estExt a b m x => estExt a b m x
  | .amo a b d op narrow x => amo a b d op narrow x
  | .cas a b d narrow x => cas a b d narrow x
  | .ccas a b d x => ccas a b d x
  | .fence sc => fence sc
  | .stashMap w b off len => stashMap w b off len
  | .stashUnmap w => stashUnmap w
  | .stashUnmapExt  => stashUnmapExt
  | .stashWb w => stashWb w
  | .stashWbExt  => stashWbExt
  | .stashAp a b c => stashAp a b c
  | .copy a b c ch land => copy a b c ch land
  | .copyWait ch => copyWait ch
  | .copyWaitExt d ch b imm => copyWaitExt d ch b imm
  | .valloc a d c imm => valloc a d c imm
  | .vdup a b => vdup a b
  | .vdupExt a b => vdupExt a b
  | .vsplit a b c => vsplit a b c
  | .vsplitExt a b c imm => vsplitExt a b c imm
  | .vnarrow a b c => vnarrow a b c
  | .vnarrowExt a b c imm => vnarrowExt a b c imm
  | .vdrop b => vdrop b
  | .vdropExt b => vdropExt b
  | .vpark k b => vpark k b
  | .vparkExt k b => vparkExt k b
  | .vtake a k => vtake a k
  | .vtakeExt a k => vtakeExt a k
  | .pmLook a b => pmLook a b
  | .pmFill b c i => pmFill b c i
  | .kvApp a b c d e n => kvApp a b c d e n
  | .cairnLook a b c d => cairnLook a b c d
  | .cairnIns a b c d => cairnIns a b c d
  | .cairnRel a c d => cairnRel a c d
  | .admRsv a b c d => admRsv a b c d
  | .admEnd a b => admEnd a b
  | .msgSend a b c d ord => msgSend a b c d ord
  | .mig a b => mig a b
  | .migRet a => migRet a
  | .mxLdw n b c => mxLdw n b c
  | .mxSwap  => mxSwap
  | .mxSwapExt n ch waits => mxSwapExt n ch waits
  | .mxStr a b c n z mo blk => mxStr a b c n z mo blk
  | .mxGstr a b n m p z blk => mxGstr a b n m p z blk
  | .accRd a b c mo => accRd a b c mo
  | .accWr a b c mo => accWr a b c mo
  | .accClr a => accClr a
  | .accClrExt a mask => accClrExt a mask
  | .epLoad a b => epLoad a b
  | .epRun a b c d n mo rnd => epRun a b c d n mo rnd
  | .epWait a => epWait a
  | .smpPen a b c d n => smpPen a b c d n
  | .smpTemp a c n => smpTemp a c n
  | .smpGum a b d n => smpGum a b d n
  | .smpTop a d n sc => smpTop a d n sc
  | .smpTopp a b c d n sc => smpTopp a b c d n sc
  | .smpStep a b c => smpStep a b c
  | .smpDraft a b c => smpDraft a b c
  | .smpVer a b c => smpVer a b c
  | .sumRed a b op fmt sc => sumRed a b op fmt sc
  | .sumBc a b sc => sumBc a b sc
  | .tokMap a b k => tokMap a b k
  | .tokBind a b c => tokBind a b c
  | .fetchServe unit => fetchServe unit
  | .operationComplete core slot => operationComplete core slot
  | .barrierComplete team scope extent remote => barrierComplete team scope extent remote
  | .fwdHoldComplete core slot => fwdHoldComplete core slot
  | .launchAdmit queue entry place => launchAdmit queue entry place
  | .teamComplete team => teamComplete team
  | .grantRound core => grantRound core
  | .weightRestore island cls weight => weightRestore island cls weight
  | .sliceBoundary leave enter => sliceBoundary leave enter
  | .contextPreempt core slot => contextPreempt core slot
  | .spawnArrival core => spawnArrival core
  | .trapNoticeRun core => trapNoticeRun core
  | .completionNotice core slot => completionNotice core slot
  | .messageRun core => messageRun core
  | .copyDelivery core ch => copyDelivery core ch
  | .moraineFree domain granule => moraineFree domain granule
  | .scrub item => scrub item
  | .coveredAllocation core slot => coveredAllocation core slot
  | .epilogueRow core => epilogueRow core
  | .doorbell func queue count => doorbell func queue count
  | .intakeEntry queue => intakeEntry queue
  | .stampRetry queue => stampRetry queue
  | .intakeSlotAssign core => intakeSlotAssign core
  | .placementExchange first second => placementExchange first second
  | .nop queue entry => nop queue entry
  | .launch queue entry => launch queue entry
  | .wait queue entry => wait queue entry
  | .waitSatisfied queue entry => waitSatisfied queue entry
  | .signal queue entry => signal queue entry
  | .queueFence queue entry => queueFence queue entry
  | .bind queue entry => bind queue entry
  | .swap queue entry => swap queue entry
  | .unbind queue entry => unbind queue entry
  | .bias queue entry => bias queue entry
  | .sample queue entry => sample queue entry
  | .domcfg queue entry => domcfg queue entry
  | .qcfgWrite queue value => qcfgWrite queue value
  | .registerWrite func offset value => registerWrite func offset value
  | .eventWrite func => eventWrite func
  | .eventReply func reply => eventReply func reply
  | .intakeWindowWrite func queue entry => intakeWindowWrite func queue entry
  | .segmentWindowAccess func offset size data => segmentWindowAccess func offset size data
  | .hostMemAccess address size data => hostMemAccess address size data
  | .shootdownTranslation fromHost page count => shootdownTranslation fromHost page count
  | .shootdownRights fromHost domain => shootdownRights fromHost domain
  | .shootdownComplete  => shootdownComplete
  | .pageMove request => pageMove request
  | .pageIn ticket => pageIn ticket
  | .keyCreate handle => keyCreate handle
  | .keyDestroy handle => keyDestroy handle
  | .keyQuery handle => keyQuery handle
  | .packageReset verified => packageReset verified
  | .firmwareUpdate length versions dies => firmwareUpdate length versions dies
  | .firmwareDieUpdate verified => firmwareDieUpdate verified
  | .preset value => preset value
  | .launchTimeLimit team => launchTimeLimit team
  | .functionLevelReset func => functionLevelReset func
  | .meridianInterval power temperature => meridianInterval power temperature
  | .hbmPatrol corrected uncorrected => hbmPatrol corrected uncorrected
  | .linkCrcError retrain => linkCrcError retrain
  | .getVersion  => getVersion
  | .getCapabilities  => getCapabilities
  | .negotiateAlgorithms offered => negotiateAlgorithms offered
  | .getDigests  => getDigests
  | .getCertificate slot offset length => getCertificate slot offset length
  | .challenge slot nonce => challenge slot nonce
  | .getMeasurements request => getMeasurements request
  | .keyExchange share => keyExchange share
  | .finish verify => finish verify
  | .heartbeat session => heartbeat session
  | .keyUpdate session => keyUpdate session
  | .endSession session => endSession session
  | .setCertificate session slot chain => setCertificate session slot chain
  | .setkey session identifier key => setkey session identifier key
  | .genkey session identifier => genkey session identifier
  | .dropkey session identifier => dropkey session identifier
  | .hostVisibility index => hostVisibility index
end Sys2Proof.Laws.RoundTrip

namespace Sys2Proof

/-- Only an event has no fields. -/
theorem exists_raw (i : Instr) (h : i.isEvent = false) :
    ∃ r, i.toRaw = some r ∧ r.fits = true ∧ decodeRaw r = .ok i := by
  have hi := Laws.RoundTrip.statement_of i
  unfold Laws.RoundTrip.Statement at hi
  cases hr : i.toRaw with
  | none => rw [hr] at hi; simp_all
  | some r => rw [hr] at hi; exact ⟨r, rfl, hi⟩

/-- Settles O28: the words give the fields back, and the fields the instruction, by its own round trip. -/
theorem encodingRoundTrip : Obligations.EncodingRoundTrip := by
  intro i rest hwf hevent
  obtain ⟨r, hraw, hfits, hdec⟩ := exists_raw i hevent
  have hcheck : i.check = none := Option.isNone_iff_eq_none.1 hwf
  have hbytes : encodeBytes i = wordBytes r.words := by simp only [encodeBytes, encode, hraw]
  unfold decode
  rw [hbytes, Raw.ofBytes_words r rest hfits]
  simp only [hdec, hcheck]

end Sys2Proof
end

section
/-!
Worked encodings: each is the encoding of the instruction it stands for, so the round trip decodes it.
-/

namespace Sys2Proof

open Sys2Proof.Claims

/-- Words that are the encoding of a well-formed instruction decode to it. -/
theorem decodes_of_encodeBytes {ws : List Nat} {i : Instr} (hwf : i.wf = true) (hevent : i.isEvent = false)
    (h : wordsOf ws = encodeBytes i) : Decodes ws i := by
  have hdec := encodingRoundTrip i [] hwf hevent
  rwa [List.append_nil, ← h] at hdec

theorem takeWord_eq_none : ∀ {bs : List Byte}, bs.length < 4 → takeWord bs = none
  | [], _ => rfl
  | [_], _ => rfl
  | [_, _], _ => rfl
  | [_, _, _], _ => rfl
  | _ :: _ :: _ :: _ :: rest, h => absurd h (by simp only [List.length_cons]; omega)

theorem decode_truncated {bs : List Byte} (h : bs.length < 4) : decode bs = .error .truncated := by
  have hraw : Raw.ofBytes bs = none := by unfold Raw.ofBytes; rw [takeWord_eq_none h]; rfl
  unfold decode
  rw [hraw]

theorem decodeWords : DecodeWords :=
  ⟨decodes_of_encodeBytes rfl rfl rfl, decodes_of_encodeBytes rfl rfl rfl, decodes_of_encodeBytes rfl rfl rfl,
    decodes_of_encodeBytes rfl rfl rfl, decodes_of_encodeBytes rfl rfl rfl, decodes_of_encodeBytes rfl rfl rfl,
    decodes_of_encodeBytes rfl rfl rfl⟩

/-- No instruction has opcode 0, nor an `add` a nonzero `f`; fewer than four bytes hold no word. -/
theorem illegalWords : IllegalWords :=
  ⟨fun _ => ⟨_, rfl⟩, ⟨_, rfl⟩, fun _ h => ⟨_, decode_truncated h⟩⟩

/-- Settles O57: the worked words are encodings, which the round trip decodes; the others name no instruction. -/
theorem decoding : Obligations.Decoding :=
  ⟨decodeWords, illegalWords⟩

end Sys2Proof
end

section
/-!
Memory stays in canonical form: what it means for a part of a meaning, and how parts compose.
-/

namespace Sys2Proof.Machine

/-- The result of a part of a meaning leaves memory in canonical form, wherever it names a state. -/
def EndsWf {α : Type} : Except Stop (α × State) → Prop
  | .ok (_, t) => t.memory.wf = true
  | .error (.done t) => t.memory.wf = true
  | .error _ => True

/-- A part of a meaning keeps memory in canonical form. -/
def KeepsMem {α : Type} (m : Act α) : Prop := ∀ s : State, s.memory.wf = true → EndsWf (m s)

section
variable {α β : Type}

@[simp] theorem endsWf_ok (a : α) (t : State) : EndsWf (.ok (a, t) : Except Stop (α × State)) ↔ t.memory.wf = true := .rfl
@[simp] theorem endsWf_done (t : State) : EndsWf (.error (.done t) : Except Stop (α × State)) ↔ t.memory.wf = true := .rfl
@[simp] theorem endsWf_trap (t : Trap) : EndsWf (.error (.trap t) : Except Stop (α × State)) := trivial
@[simp] theorem endsWf_hold (w : Wait) : EndsWf (.error (.hold w) : Except Stop (α × State)) := trivial
@[simp] theorem endsWf_poison (k v : Nat) : EndsWf (.error (.poison k v) : Except Stop (α × State)) := trivial
@[simp] theorem endsWf_walk (p r : Nat) (w : Option Nat) : EndsWf (.error (.walk p r w) : Except Stop (α × State)) := trivial
@[simp] theorem endsWf_fault (f : Fault) : EndsWf (.error (.fault f) : Except Stop (α × State)) := trivial

/-- An error that names a good state names it whatever the type of the answer. -/
theorem EndsWf.error {e : Stop} (h : EndsWf (.error e : Except Stop (α × State))) :
    EndsWf (.error e : Except Stop (β × State)) := by
  cases e <;> exact h

theorem KeepsMem.ok {m : Act α} {s t : State} {a : α} (h : m s = .ok (a, t)) (hm : KeepsMem m)
    (hs : s.memory.wf = true) : t.memory.wf = true := by
  have := hm s hs
  rwa [h] at this

theorem KeepsMem.error {m : Act α} {s : State} {e : Stop} (h : m s = .error e) (hm : KeepsMem m)
    (hs : s.memory.wf = true) : EndsWf (.error e : Except Stop (β × State)) := by
  have := hm s hs
  rw [h] at this
  exact this.error

theorem keepsMem_error {e : Stop} (h : EndsWf (.error e : Except Stop (α × State))) :
    KeepsMem (fun _ => .error e : Act β) := fun _ _ => h.error

theorem KeepsMem.bind {m : Act α} {f : α → Act β} (hm : KeepsMem m) (hf : ∀ a, KeepsMem (f a)) : KeepsMem (m >>= f) := by
  intro s hs
  cases h : m s with
  | ok p => rw [act_bind_ok m f s p.2 p.1 h]; exact hf _ _ (hm.ok h hs)
  | error e => rw [act_bind_error m f s e h]; exact hm.error h hs

theorem KeepsMem.ite {c : Prop} [Decidable c] {m m' : Act α} (hm : KeepsMem m) (hm' : KeepsMem m') :
    KeepsMem (if c then m else m') := by split <;> assumption

/-- What is read of the state is a state in canonical form. -/
theorem KeepsMem.get_bind {f : State → Act β} (hf : ∀ s : State, s.memory.wf = true → KeepsMem (f s)) :
    KeepsMem (get >>= f) := fun s hs => hf s hs s hs

@[simp] theorem keepsMem_pure (a : α) : KeepsMem (pure a : Act α) := fun _ hs => hs
@[simp] theorem keepsMem_get : KeepsMem (get : Act State) := fun _ hs => hs
@[simp] theorem keepsMem_set {t : State} (h : t.memory.wf = true) : KeepsMem (set t : Act Unit) := fun _ _ => h
theorem KeepsMem.modify {f : State → State} (h : ∀ s : State, s.memory.wf = true → (f s).memory.wf = true) :
    KeepsMem (modify f : Act Unit) := fun s hs => h s hs
@[simp] theorem keepsMem_raise (c i : Nat) : KeepsMem (raise c i : Act α) := fun _ _ => trivial
@[simp] theorem keepsMem_hold (w : Wait) : KeepsMem (hold w : Act α) := fun _ _ => trivial
@[simp] theorem keepsMem_stop_trap (t : Trap) : KeepsMem (stop (.trap t) : Act α) := fun _ _ => trivial
@[simp] theorem keepsMem_stop_done {t : State} (h : t.memory.wf = true) : KeepsMem (stop (.done t) : Act α) := fun _ _ => h
@[simp] theorem keepsMem_stop_hold (w : Wait) : KeepsMem (stop (.hold w) : Act α) := fun _ _ => trivial
@[simp] theorem keepsMem_stop_poison (k v : Nat) : KeepsMem (stop (.poison k v) : Act α) := fun _ _ => trivial
@[simp] theorem keepsMem_stop_fault (f : Fault) : KeepsMem (stop (.fault f) : Act α) := fun _ _ => trivial
@[simp] theorem keepsMem_stop_walk (p r : Nat) (w : Option Nat) : KeepsMem (stop (.walk p r w) : Act α) :=
  fun _ _ => trivial
@[simp] theorem keepsMem_require (ok : Bool) (c i : Nat) : KeepsMem (require ok c i) := by
  unfold require
  split <;> simp
@[simp] theorem keepsMem_raiseCap (r : Nat) (x : Sub) : KeepsMem (raiseCap r x : Act α) := keepsMem_raise _ _
@[simp] theorem keepsMem_raiseView (r : Reg) (c : Nat) : KeepsMem (raiseView r c : Act α) := keepsMem_raise _ _
@[simp] theorem keepsMem_checked (r : Nat) (x : Option Sub) : KeepsMem (checked r x) := by
  cases x <;> simp [checked]

theorem KeepsMem.endsWf {m : Act α} (hm : KeepsMem m) {s : State} (hs : s.memory.wf = true) : EndsWf (m s) := hm s hs

@[simp] theorem keepsMem_map {f : α → β} {m : Act α} (hm : KeepsMem m) : KeepsMem (f <$> m) :=
  hm.bind fun _ => keepsMem_pure _

@[simp] theorem keepsMem_forM (l : List α) (f : α → Act PUnit) (hf : ∀ a, KeepsMem (f a)) : KeepsMem (l.forM f) := by
  induction l with
  | nil => exact keepsMem_pure _
  | cons x rest ih => exact (hf x).bind fun _ => ih

@[simp] theorem keepsMem_mapM (l : List α) (f : α → Act β) (hf : ∀ a, KeepsMem (f a)) : KeepsMem (l.mapM f) := by
  induction l with
  | nil => exact keepsMem_pure _
  | cons x rest ih =>
    rw [List.mapM_cons]
    exact (hf x).bind fun _ => ih.bind fun _ => keepsMem_pure _

end

theorem exists_of_map_eq_ok {ε α β : Type} {f : α → β} {x : Except ε α} {b : β} (h : x.map f = .ok b) :
    ∃ a, x = .ok a ∧ f a = b := by
  cases x with
  | ok a => exact ⟨a, rfl, Except.ok.inj h⟩
  | error e => cases h

theorem eq_error_of_map_eq_error {ε α β : Type} {f : α → β} {x : Except ε α} {e : ε} (h : x.map f = .error e) :
    x = .error e := by
  cases x with
  | ok a => cases h
  | error e' => exact congrArg Except.error (Except.error.inj h)

/-- The state that an outcome goes on to has its memory in canonical form. -/
def NextWf (o : Host.Outcome State Fault Refusal) : Prop := ∀ t, o = .next t → t.memory.wf = true

@[simp] theorem nextWf_next (t : State) : NextWf (.next t) ↔ t.memory.wf = true :=
  ⟨fun h => h t rfl, fun h _ e => by cases e; exact h⟩
@[simp] theorem nextWf_fault (f : Fault) : NextWf (.fault f) := fun _ e => by cases e
@[simp] theorem nextWf_refused (r : Refusal) : NextWf (.refused r) := fun _ e => by cases e

theorem wf_of_eq_pair {α : Type} {p : α × State} {a : α} {t : State} (h : p = (a, t)) (hp : p.2.memory.wf = true) :
    t.memory.wf = true := by subst h; exact hp

@[simp] theorem freshName_snd_memory (s : State) : (freshName s).2.memory = s.memory := rfl
@[simp] theorem freshNumber_snd_memory (s : State) : (freshNumber s).2.memory = s.memory := rfl

theorem wf_foldl {α : Type} {f : State → α → State} {l : List α} {s : State} (h : s.memory.wf = true)
    (hf : ∀ t a, t.memory.wf = true → (f t a).memory.wf = true) : (l.foldl f s).memory.wf = true :=
  foldl_keeps (fun t : State => t.memory.wf = true) f l s h hf

end Sys2Proof.Machine
end

section
namespace Sys2Proof.Machine

@[simp] theorem wf_setCtx (s : State) (id : CtxId) (x : Context) (hs : s.memory.wf = true) : (setCtx s id x).memory.wf = true := by
  unfold setCtx
  repeat' first
    | with_reducible (first | apply KeepsMem.get_bind | apply KeepsMem.bind | apply KeepsMem.modify | apply wf_foldl | intro _)
    | split
    | simp [*]

@[simp] theorem wf_onCtx (s : State) (id : CtxId) (f : Context → Context) (hs : s.memory.wf = true) : (onCtx s id f).memory.wf = true := by
  unfold onCtx
  repeat' first
    | with_reducible (first | apply KeepsMem.get_bind | apply KeepsMem.bind | apply KeepsMem.modify | apply wf_foldl | intro _)
    | split
    | simp [*]

@[simp] theorem wf_onTeam (s : State) (uid : Nat) (f : Team → Team) (hs : s.memory.wf = true) : (onTeam s uid f).memory.wf = true := by
  unfold onTeam
  repeat' first
    | with_reducible (first | apply KeepsMem.get_bind | apply KeepsMem.bind | apply KeepsMem.modify | apply wf_foldl | intro _)
    | split
    | simp [*]

@[simp] theorem wf_onDomain (s : State) (d : Nat) (f : Domain → Domain) (hs : s.memory.wf = true) : (onDomain s d f).memory.wf = true := by
  unfold onDomain
  repeat' first
    | with_reducible (first | apply KeepsMem.get_bind | apply KeepsMem.bind | apply KeepsMem.modify | apply wf_foldl | intro _)
    | split
    | simp [*]

@[simp] theorem wf_onFunc (s : State) (f : Nat) (g : Func → Func) (hs : s.memory.wf = true) : (onFunc s f g).memory.wf = true := by
  unfold onFunc
  repeat' first
    | with_reducible (first | apply KeepsMem.get_bind | apply KeepsMem.bind | apply KeepsMem.modify | apply wf_foldl | intro _)
    | split
    | simp [*]

@[simp] theorem wf_onQueue (s : State) (q : Nat) (f : Queue → Queue) (hs : s.memory.wf = true) : (onQueue s q f).memory.wf = true := by
  unfold onQueue
  repeat' first
    | with_reducible (first | apply KeepsMem.get_bind | apply KeepsMem.bind | apply KeepsMem.modify | apply wf_foldl | intro _)
    | split
    | simp [*]

@[simp] theorem wf_onMe (s : State) (f : Context → Context) (hs : s.memory.wf = true) : (onMe s f).memory.wf = true := by
  unfold onMe
  repeat' first
    | with_reducible (first | apply KeepsMem.get_bind | apply KeepsMem.bind | apply KeepsMem.modify | apply wf_foldl | intro _)
    | split
    | simp [*]

@[simp] theorem wf_setGranule (s : State) (dom i : Nat) (g : Granule) (hs : s.memory.wf = true) : (setGranule s dom i g).memory.wf = true := by
  unfold setGranule
  repeat' first
    | with_reducible (first | apply KeepsMem.get_bind | apply KeepsMem.bind | apply KeepsMem.modify | apply wf_foldl | intro _)
    | split
    | simp [*]

@[simp] theorem wf_claimGranules (s : State) (dom base n : Nat) (claimed : Bool) (hs : s.memory.wf = true) : (claimGranules s dom base n claimed).memory.wf = true := by
  unfold claimGranules
  repeat' first
    | with_reducible (first | apply KeepsMem.get_bind | apply KeepsMem.bind | apply KeepsMem.modify | apply wf_foldl | intro _)
    | split
    | simp [*]

@[simp] theorem wf_dropClaim (s : State) (x : Context) (hs : s.memory.wf = true) : (dropClaim s x).memory.wf = true := by
  unfold dropClaim
  repeat' first
    | with_reducible (first | apply KeepsMem.get_bind | apply KeepsMem.bind | apply KeepsMem.modify | apply wf_foldl | intro _)
    | split
    | simp [*]

@[simp] theorem wf_uncover (s : State) (g : Nat) (hs : s.memory.wf = true) : (uncover s g).memory.wf = true := by
  unfold uncover
  repeat' first
    | with_reducible (first | apply KeepsMem.get_bind | apply KeepsMem.bind | apply KeepsMem.modify | apply wf_foldl | intro _)
    | split
    | simp [*]

@[simp] theorem wf_cover (s : State) (g : Nat) (hs : s.memory.wf = true) : (cover s g).memory.wf = true := by
  unfold cover
  repeat' first
    | with_reducible (first | apply KeepsMem.get_bind | apply KeepsMem.bind | apply KeepsMem.modify | apply wf_foldl | intro _)
    | split
    | simp [*]

@[simp] theorem wf_dropView (s : State) (v : Cap) (hs : s.memory.wf = true) : (dropView s v).memory.wf = true := by
  unfold dropView
  repeat' first
    | with_reducible (first | apply KeepsMem.get_bind | apply KeepsMem.bind | apply KeepsMem.modify | apply wf_foldl | intro _)
    | split
    | simp [*]

@[simp] theorem wf_writeCapIn (s : State) (id : CtxId) (n : Nat) (v : Cap) (hs : s.memory.wf = true) : (writeCapIn s id n v).memory.wf = true := by
  unfold writeCapIn
  repeat' first
    | with_reducible (first | apply KeepsMem.get_bind | apply KeepsMem.bind | apply KeepsMem.modify | apply wf_foldl | intro _)
    | split
    | simp [*]

@[simp] theorem wf_writeIntIn (s : State) (id : CtxId) (n : Nat) (w x : Nat) (hs : s.memory.wf = true) : (writeIntIn s id n w x).memory.wf = true := by
  unfold writeIntIn
  repeat' first
    | with_reducible (first | apply KeepsMem.get_bind | apply KeepsMem.bind | apply KeepsMem.modify | apply wf_foldl | intro _)
    | split
    | simp [*]

@[simp] theorem wf_writeCap (n : Reg) (v : Cap) (s : State) (hs : s.memory.wf = true) : (writeCap n v s).memory.wf = true := by
  unfold writeCap
  repeat' first
    | with_reducible (first | apply KeepsMem.get_bind | apply KeepsMem.bind | apply KeepsMem.modify | apply wf_foldl | intro _)
    | split
    | simp [*]

@[simp] theorem wf_writeInt (n : Reg) (w x : Nat) (s : State) (hs : s.memory.wf = true) : (writeInt n w x s).memory.wf = true := by
  unfold writeInt
  repeat' first
    | with_reducible (first | apply KeepsMem.get_bind | apply KeepsMem.bind | apply KeepsMem.modify | apply wf_foldl | intro _)
    | split
    | simp [*]

@[simp] theorem wf_dropViewsOf (s : State) (x : Context) (hs : s.memory.wf = true) : (dropViewsOf s x).memory.wf = true := by
  unfold dropViewsOf
  repeat' first
    | with_reducible (first | apply KeepsMem.get_bind | apply KeepsMem.bind | apply KeepsMem.modify | apply wf_foldl | intro _)
    | split
    | simp [*]

@[simp] theorem wf_clearViews (s : State) (id : CtxId) (hs : s.memory.wf = true) : (clearViews s id).memory.wf = true := by
  unfold clearViews
  repeat' first
    | with_reducible (first | apply KeepsMem.get_bind | apply KeepsMem.bind | apply KeepsMem.modify | apply wf_foldl | intro _)
    | split
    | simp [*]

@[simp] theorem wf_dropAll (s : State) (vs : List Cap) (hs : s.memory.wf = true) : (dropAll s vs).memory.wf = true := by
  unfold dropAll
  repeat' first
    | with_reducible (first | apply KeepsMem.get_bind | apply KeepsMem.bind | apply KeepsMem.modify | apply wf_foldl | intro _)
    | split
    | simp [*]

@[simp] theorem wf_advance (len : Nat) (s : State) (hs : s.memory.wf = true) : (advance len s).memory.wf = true := by
  unfold advance
  repeat' first
    | with_reducible (first | apply KeepsMem.get_bind | apply KeepsMem.bind | apply KeepsMem.modify | apply wf_foldl | intro _)
    | split
    | simp [*]

@[simp] theorem keepsMem_checkEngine (p : Pin) : KeepsMem (checkEngine p) := by
  unfold checkEngine
  repeat' first
    | with_reducible (first | apply KeepsMem.get_bind | apply KeepsMem.bind | apply KeepsMem.modify | apply wf_foldl | intro _)
    | split
    | simp [*]

@[simp] theorem keepsMem_checkV (n : Nat) : KeepsMem (checkV n) := by
  unfold checkV
  repeat' first
    | with_reducible (first | apply KeepsMem.get_bind | apply KeepsMem.bind | apply KeepsMem.modify | apply wf_foldl | intro _)
    | split
    | simp [*]

@[simp] theorem keepsMem_checkE (n : Nat) : KeepsMem (checkE n) := by
  unfold checkE
  repeat' first
    | with_reducible (first | apply KeepsMem.get_bind | apply KeepsMem.bind | apply KeepsMem.modify | apply wf_foldl | intro _)
    | split
    | simp [*]

@[simp] theorem wf_remember (s : State) (key a n : Nat) (hs : s.memory.wf = true) : (remember s key a n).memory.wf = true := by
  unfold remember
  repeat' first
    | with_reducible (first | apply KeepsMem.get_bind | apply KeepsMem.bind | apply KeepsMem.modify | apply wf_foldl | intro _)
    | split
    | simp [*]

@[simp] theorem wf_oneEvent (n : Nat) (s : State) (hs : s.memory.wf = true) : (oneEvent n s).memory.wf = true := by
  unfold oneEvent
  repeat' first
    | with_reducible (first | apply KeepsMem.get_bind | apply KeepsMem.bind | apply KeepsMem.modify | apply wf_foldl | intro _)
    | split
    | simp [*]

@[simp] theorem wf_raiseTags (ts : List Nat) (s : State) (hs : s.memory.wf = true) : (raiseTags ts s).memory.wf = true := hs



@[simp] theorem wf_setTrust (s : State) (status : Nat) (handle : Nat) (hs : s.memory.wf = true) : (setTrust s status handle).memory.wf = true := by
  unfold setTrust
  repeat' first
    | with_reducible (first | apply KeepsMem.get_bind | apply KeepsMem.bind | apply KeepsMem.modify | apply wf_foldl | intro _)
    | split
    | simp [*]

@[simp] theorem wf_createKey (s : State) (h : BitVec 32) (hs : s.memory.wf = true) : (createKey s h).memory.wf = true := by
  unfold createKey
  repeat' first
    | with_reducible (first | apply KeepsMem.get_bind | apply KeepsMem.bind | apply KeepsMem.modify | apply wf_foldl | intro _)
    | split
    | simp [*]

@[simp] theorem wf_destroyKey (s : State) (h : BitVec 32) (hs : s.memory.wf = true) : (destroyKey s h).memory.wf = true := by
  unfold destroyKey
  repeat' first
    | with_reducible (first | apply KeepsMem.get_bind | apply KeepsMem.bind | apply KeepsMem.modify | apply wf_foldl | intro _)
    | split
    | simp [*]

@[simp] theorem wf_queryKey (s : State) (h : BitVec 32) (hs : s.memory.wf = true) : (queryKey s h).memory.wf = true := by
  unfold queryKey
  repeat' first
    | with_reducible (first | apply KeepsMem.get_bind | apply KeepsMem.bind | apply KeepsMem.modify | apply wf_foldl | intro _)
    | split
    | simp [*]

@[simp] theorem wf_trustCommand (s : State) (w : Nat) (hs : s.memory.wf = true) : (trustCommand s w).memory.wf = true := by
  unfold trustCommand
  repeat' first
    | with_reducible (first | apply KeepsMem.get_bind | apply KeepsMem.bind | apply KeepsMem.modify | apply wf_foldl | intro _)
    | split
    | simp [*]

@[simp] theorem wf_cacheTranslation (s : State) (t : Translation) (hs : s.memory.wf = true) : (cacheTranslation s t).memory.wf = true := by
  unfold cacheTranslation
  repeat' first
    | with_reducible (first | apply KeepsMem.get_bind | apply KeepsMem.bind | apply KeepsMem.modify | apply wf_foldl | intro _)
    | split
    | simp [*]

@[simp] theorem keepsMem_failTranslation {α : Type} (a : Actor) (va rights : Nat) :
    KeepsMem (failTranslation a va rights : Act α) := by
  unfold failTranslation
  split <;> simp

@[simp] theorem wf_onItsWay (s : State) (p : PendingStore) (hs : s.memory.wf = true) : (onItsWay s p).memory.wf = true := by
  unfold onItsWay
  repeat' first
    | with_reducible (first | apply KeepsMem.get_bind | apply KeepsMem.bind | apply KeepsMem.modify | apply wf_foldl | intro _)
    | split
    | simp [*]

@[simp] theorem wf_storeAt (s : State) (p : Place) (a : Actor) (bs : List Byte) (tag : Bool) (hs : s.memory.wf = true) : (storeAt s p a bs tag).memory.wf = true := by
  unfold storeAt
  repeat' first
    | with_reducible (first | apply KeepsMem.get_bind | apply KeepsMem.bind | apply KeepsMem.modify | apply wf_foldl | intro _)
    | split
    | simp [wf_physWrite, *]









@[simp] theorem wf_recallFrom (s : State) (va : Nat) (write : Bool) (core : Nat) (hs : s.memory.wf = true) :
    (recallFrom s va write core).memory.wf = true := by
  unfold recallFrom
  split
  · exact hs
  · exact wf_giveBy _ wf_writeBack _ _ _ _ _ hs

@[simp] theorem wf_giveUp (s : State) (a : Actor) (va : Nat) (write : Bool) (hs : s.memory.wf = true) :
    (giveUp s a va write).memory.wf = true :=
  wf_foldl hs fun _ _ h => wf_recallFrom _ _ _ _ h

@[simp] theorem keepsMem_comeTo (a : Actor) (va : Nat) (write : Bool) : KeepsMem (comeTo a va write) := by
  unfold comeTo
  repeat' first
    | with_reducible (first | apply KeepsMem.get_bind | apply KeepsMem.bind | apply KeepsMem.modify | apply wf_foldl | intro _)
    | split
    | simp [*]

@[simp] theorem keepsMem_approach (pa n va : Nat) (write : Bool) : KeepsMem (approach pa n va write) := by
  intro s hs
  unfold approach
  repeat' first
    | split
    | with_reducible (first | assumption | apply wf_recallAll | apply KeepsMem.endsWf)
    | exact KeepsMem.ok ‹_› (by simp [*]) (by simp [*])
    | exact KeepsMem.error ‹_› (by simp [*]) (by simp [*])
    | exact wf_of_eq_pair ‹_› (by simp; assumption)
    | simp [wf_recallAll, *]

@[simp] theorem keepsMem_reach (pa n va : Nat) (write : Bool) : KeepsMem (reach pa n va write) := by
  unfold reach
  repeat' first
    | with_reducible (first | apply KeepsMem.get_bind | apply KeepsMem.bind | apply KeepsMem.modify | apply wf_foldl | intro _)
    | split
    | simp [*]

@[simp] theorem keepsMem_reachWalk (va : Nat) (ls : List (Nat × Nat)) (table : Nat) :
    KeepsMem (reachWalk va ls table) := by
  induction ls generalizing table with
  | nil => exact keepsMem_pure _
  | cons l rest ih =>
    unfold reachWalk
    repeat' first
      | with_reducible (first | apply KeepsMem.get_bind | apply KeepsMem.bind | apply KeepsMem.modify | apply wf_foldl | intro _)
      | split
      | simp [*]

theorem wf_walked {s t : State} {va : Nat} (hs : s.memory.wf = true) (h : walked s va = .ok t) :
    t.memory.wf = true := by
  obtain ⟨⟨_, _⟩, hr, rfl⟩ := exists_of_map_eq_ok h
  exact (keepsMem_reachWalk _ _ _).ok hr hs

theorem endsWf_walked {α : Type} {s : State} {va : Nat} {e : Stop} (hs : s.memory.wf = true)
    (h : walked s va = .error e) : EndsWf (.error e : Except Stop (α × State)) :=
  (keepsMem_reachWalk _ _ _).error (eq_error_of_map_eq_error h) hs

@[simp] theorem keepsMem_freshOrCached (a : Actor) (va rights : Nat) : KeepsMem (freshOrCached a va rights) := by
  intro s hs
  unfold freshOrCached
  repeat' first
    | split
    | with_reducible (first | assumption | apply keepsMem_failTranslation | apply KeepsMem.endsWf)
    | exact KeepsMem.ok ‹_› (by simp [*]) (by simp [*])
    | exact KeepsMem.error ‹_› (by simp [*]) (by simp [*])
    | exact wf_of_eq_pair ‹_› (by simp; assumption)
    | simp [*]

@[simp] theorem keepsMem_useLeaf (t : Translation) (va : Nat) (write : Bool) : KeepsMem (useLeaf t va write) := by
  unfold useLeaf
  repeat' first
    | with_reducible (first | apply KeepsMem.get_bind | apply KeepsMem.bind | apply KeepsMem.modify | apply wf_foldl | intro _)
    | split
    | simp [wf_markLeaf, *]

@[simp] theorem keepsMem_translate (a : Actor) (va rights : Nat) : KeepsMem (translate a va rights) := by
  intro s hs
  unfold translate
  split
  · split <;> simp [hs]
  · split
    · exact (keepsMem_freshOrCached a va rights).endsWf (wf_walked hs ‹_›)
    · split
      · exact endsWf_walked hs ‹_›
      · simpa using hs

@[simp] theorem keepsMem_reachGrants (dom page va fuel lo hi : Nat) :
    KeepsMem (reachGrants dom page va fuel lo hi) := by
  induction fuel generalizing lo hi with
  | zero => exact keepsMem_pure _
  | succ n ih =>
    unfold reachGrants
    repeat' first
      | with_reducible (first | apply KeepsMem.get_bind | apply KeepsMem.bind | apply KeepsMem.modify | apply wf_foldl | intro _)
      | split
      | simp [*]

@[simp] theorem wf_keepGrant (s : State) (core dom page : Nat) (hs : s.memory.wf = true) : (keepGrant s core dom page).memory.wf = true := by
  unfold keepGrant
  repeat' first
    | with_reducible (first | apply KeepsMem.get_bind | apply KeepsMem.bind | apply KeepsMem.modify | apply wf_foldl | intro _)
    | split
    | simp [*]

theorem wf_searched {s t : State} {dom page va : Nat} (hs : s.memory.wf = true) (h : searched s dom page va = .ok t) :
    t.memory.wf = true := by
  obtain ⟨⟨_, _⟩, hr, rfl⟩ := exists_of_map_eq_ok h
  exact (keepsMem_reachGrants _ _ _ _ _ _).ok hr hs

theorem endsWf_searched {α : Type} {s : State} {dom page va : Nat} {e : Stop} (hs : s.memory.wf = true)
    (h : searched s dom page va = .error e) : EndsWf (.error e : Except Stop (α × State)) :=
  (keepsMem_reachGrants _ _ _ _ _ _).error (eq_error_of_map_eq_error h) hs

@[simp] theorem keepsMem_checkGrant (a : Actor) (va rights : Nat) : KeepsMem (checkGrant a va rights) := by
  intro s hs
  unfold checkGrant
  split
  · exact hs
  · split
    · exact hs
    · split
      next ht =>
        have h := wf_searched hs ht
        split
        · exact wf_keepGrant _ _ _ _ h
        · exact (keepsMem_failTranslation a va rights).endsWf h
      next he =>
        dsimp only
        split
        · exact endsWf_searched hs he
        · split
          · exact hs
          · exact (keepsMem_failTranslation a va rights).endsWf hs

@[simp] theorem keepsMem_locate (a : Actor) (va n rights : Nat) : KeepsMem (locate a va n rights) := by
  unfold locate
  repeat' first
    | with_reducible (first | apply KeepsMem.get_bind | apply KeepsMem.bind | apply KeepsMem.modify | apply wf_foldl | intro _)
    | split
    | simp [*]

@[simp] theorem keepsMem_loadAt (p : Place) (va n : Nat) (unseen : List OldWrite) : KeepsMem (loadAt p va n unseen) := by
  intro s hs
  unfold loadAt
  repeat' first
    | split
    | with_reducible (first | assumption | apply KeepsMem.endsWf)
    | exact KeepsMem.ok ‹_› (by simp [*]) (by simp [*])
    | exact KeepsMem.error ‹_› (by simp [*]) (by simp [*])
    | exact wf_of_eq_pair ‹_› (by simp; assumption)
    | simp [*]

@[simp] theorem keepsMem_fillSector (a : Actor) (num : Nat) (w : Window) (va : Nat) : KeepsMem (fillSector a num w va) := by
  unfold fillSector
  repeat' first
    | with_reducible (first | apply KeepsMem.get_bind | apply KeepsMem.bind | apply KeepsMem.modify | apply wf_foldl | intro _)
    | split
    | simp [*]

@[simp] theorem keepsMem_coverAbsent (a : Actor) (w : Window) (va rights : Nat) : KeepsMem (coverAbsent a w va rights) := by
  unfold coverAbsent
  repeat' first
    | with_reducible (first | apply KeepsMem.get_bind | apply KeepsMem.bind | apply KeepsMem.modify | apply wf_foldl | intro _)
    | split
    | simp [*]

@[simp] theorem keepsMem_checkWindow (a : Actor) (w : Window) (rights : Nat) : KeepsMem (checkWindow a w rights) := by
  unfold checkWindow
  repeat' first
    | with_reducible (first | apply KeepsMem.get_bind | apply KeepsMem.bind | apply KeepsMem.modify | apply wf_foldl | intro _)
    | split
    | simp [*]

@[simp] theorem keepsMem_apertureByte (a : Actor) (va n rights : Nat) : KeepsMem (apertureByte a va n rights) := by
  unfold apertureByte
  repeat' first
    | with_reducible (first | apply KeepsMem.get_bind | apply KeepsMem.bind | apply KeepsMem.modify | apply wf_foldl | intro _)
    | split
    | simp [*]

@[simp] theorem keepsMem_beforeCaches (a : Actor) (va rights : Nat) : KeepsMem (beforeCaches a va rights) := by
  unfold beforeCaches
  repeat' first
    | with_reducible (first | apply KeepsMem.get_bind | apply KeepsMem.bind | apply KeepsMem.modify | apply wf_foldl | intro _)
    | split
    | simp [*]

@[simp] theorem keepsMem_dirtySector (a : Actor) (num : Nat) (w : Window) (va : Nat) (t : Translation) : KeepsMem (dirtySector a num w va t) := by
  unfold dirtySector
  repeat' first
    | with_reducible (first | apply KeepsMem.get_bind | apply KeepsMem.bind | apply KeepsMem.modify | apply wf_foldl | intro _)
    | split
    | simp [*]

@[simp] theorem keepsMem_readPieceOf (unseen : List OldWrite) (a : Actor) (va n rights : Nat) : KeepsMem (readPieceOf unseen a va n rights) := by
  unfold readPieceOf
  repeat' first
    | with_reducible (first | apply KeepsMem.get_bind | apply KeepsMem.bind | apply KeepsMem.modify | apply wf_foldl | intro _)
    | split
    | simp [*]

@[simp] theorem keepsMem_readPiece (a : Actor) (va n rights : Nat) : KeepsMem (readPiece a va n rights) := by
  unfold readPiece
  repeat' first
    | with_reducible (first | apply KeepsMem.get_bind | apply KeepsMem.bind | apply KeepsMem.modify | apply wf_foldl | intro _)
    | split
    | simp [*]

@[simp] theorem keepsMem_writePiece (a : Actor) (va : Nat) (bs : List Byte) (tag : Bool) (rights : Nat) : KeepsMem (writePiece a va bs tag rights) := by
  unfold writePiece
  repeat' first
    | with_reducible (first | apply KeepsMem.get_bind | apply KeepsMem.bind | apply KeepsMem.modify | apply wf_foldl | intro _)
    | split
    | simp [*]

@[simp] theorem keepsMem_writeWhole (a : Actor) (sec : Nat) (parts : List (Nat × List Byte × Bool)) : KeepsMem (writeWhole a sec parts) := by
  unfold writeWhole
  repeat' first
    | with_reducible (first | apply KeepsMem.get_bind | apply KeepsMem.bind | apply KeepsMem.modify | apply wf_foldl | intro _)
    | split
    | simp [*]

@[simp] theorem keepsMem_readPieces (unseen : List OldWrite) (a : Actor) (rights : Nat) (l : List (Nat × Nat)) :
    KeepsMem (readPieces unseen a rights l) := by
  induction l with
  | nil => exact keepsMem_pure _
  | cons p rest ih =>
    unfold readPieces
    repeat' first
      | with_reducible (first | apply KeepsMem.get_bind | apply KeepsMem.bind | apply KeepsMem.modify | apply wf_foldl | intro _)
      | split
      | simp [*]

@[simp] theorem keepsMem_readRange (a : Actor) (va n : Nat) : KeepsMem (readRange a va n) := by
  unfold readRange
  repeat' first
    | with_reducible (first | apply KeepsMem.get_bind | apply KeepsMem.bind | apply KeepsMem.modify | apply wf_foldl | intro _)
    | split
    | simp [*]

@[simp] theorem keepsMem_writePieces (a : Actor) (rights : Nat) (l : List (Nat × Nat)) (bs : List Byte) :
    KeepsMem (writePieces a rights l bs) := by
  induction l generalizing bs with
  | nil => exact keepsMem_pure _
  | cons p rest ih =>
    unfold writePieces
    repeat' first
      | with_reducible (first | apply KeepsMem.get_bind | apply KeepsMem.bind | apply KeepsMem.modify | apply wf_foldl | intro _)
      | split
      | simp [*]

@[simp] theorem keepsMem_writeRange (a : Actor) (va : Nat) (bs : List Byte) : KeepsMem (writeRange a va bs) := by
  unfold writeRange
  repeat' first
    | with_reducible (first | apply KeepsMem.get_bind | apply KeepsMem.bind | apply KeepsMem.modify | apply wf_foldl | intro _)
    | split
    | simp [*]

@[simp] theorem wf_withoutBlank (s : State) (hs : s.memory.wf = true) : (withoutBlank s).memory.wf = true := hs

@[simp] theorem keepsMem_inName {α : Type} (f dom : Nat) (m : Act α) (hm : KeepsMem m) : KeepsMem (inName f dom m) := by
  intro s hs
  unfold inName
  split
  next h => exact wf_withoutBlank _ (hm.ok h hs)
  next h => exact hm.error h hs

end Sys2Proof.Machine
end

section
namespace Sys2Proof.Machine

@[simp] theorem wf_setKvPage (s : State) (dom i : Nat) (p : KvPage) (hs : s.memory.wf = true) : (setKvPage s dom i p).memory.wf = true := by
  unfold setKvPage
  repeat' first
    | with_reducible (first | apply KeepsMem.get_bind | apply KeepsMem.bind | apply KeepsMem.modify | apply wf_foldl | intro _)
    | split
    | simp [*]

@[simp] theorem wf_raiseCount (s : State) (dom i : Nat) (hs : s.memory.wf = true) : (raiseCount s dom i).memory.wf = true := by
  unfold raiseCount
  repeat' first
    | with_reducible (first | apply KeepsMem.get_bind | apply KeepsMem.bind | apply KeepsMem.modify | apply wf_foldl | intro _)
    | split
    | simp [*]

@[simp] theorem wf_lowerCount (s : State) (dom i : Nat) (hs : s.memory.wf = true) : (lowerCount s dom i).memory.wf = true := by
  unfold lowerCount
  repeat' first
    | with_reducible (first | apply KeepsMem.get_bind | apply KeepsMem.bind | apply KeepsMem.modify | apply wf_foldl | intro _)
    | split
    | simp [*]

@[simp] theorem keepsMem_readGranules (a : Actor) (l : List Nat) :
    KeepsMem (readGranules a l) := by
  induction l with
  | nil => exact keepsMem_pure _
  | cons p rest ih =>
    unfold readGranules
    repeat' first
      | with_reducible (first | apply KeepsMem.get_bind | apply KeepsMem.bind | apply KeepsMem.modify | apply wf_foldl | intro _)
      | split
      | simp [*]

@[simp] theorem keepsMem_readRecord (a : Actor) (dom slot : Nat) : KeepsMem (readRecord a dom slot) := by
  unfold readRecord
  repeat' first
    | with_reducible (first | apply KeepsMem.get_bind | apply KeepsMem.bind | apply KeepsMem.modify | apply wf_foldl | intro _)
    | split
    | simp [*]

@[simp] theorem keepsMem_writeRecord (a : Actor) (dom slot : Nat) (r : Rec) : KeepsMem (writeRecord a dom slot r) := by
  unfold writeRecord
  repeat' first
    | with_reducible (first | apply KeepsMem.get_bind | apply KeepsMem.bind | apply KeepsMem.modify | apply wf_foldl | intro _)
    | split
    | simp [*]

@[simp] theorem keepsMem_mapEntryAt (r : Rec) (l b perm : Nat) : KeepsMem (mapEntryAt r l b perm) := by
  unfold mapEntryAt
  repeat' first
    | with_reducible (first | apply KeepsMem.get_bind | apply KeepsMem.bind | apply KeepsMem.modify | apply wf_foldl | intro _)
    | split
    | simp [*]

@[simp] theorem keepsMem_readMap (a : Actor) (r : Rec) (l b : Nat) : KeepsMem (readMap a r l b) := by
  unfold readMap
  repeat' first
    | with_reducible (first | apply KeepsMem.get_bind | apply KeepsMem.bind | apply KeepsMem.modify | apply wf_foldl | intro _)
    | split
    | simp [*]

@[simp] theorem keepsMem_writeMap (a : Actor) (r : Rec) (l b : Nat) (c : Cap) : KeepsMem (writeMap a r l b c) := by
  unfold writeMap
  repeat' first
    | with_reducible (first | apply KeepsMem.get_bind | apply KeepsMem.bind | apply KeepsMem.modify | apply wf_foldl | intro _)
    | split
    | simp [*]

@[simp] theorem keepsMem_releaseEntry (a : Actor) (dom : Nat) (r : Rec) (l b : Nat) : KeepsMem (releaseEntry a dom r l b) := by
  unfold releaseEntry
  repeat' first
    | with_reducible (first | apply KeepsMem.get_bind | apply KeepsMem.bind | apply KeepsMem.modify | apply wf_foldl | intro _)
    | split
    | simp [*]

@[simp] theorem keepsMem_releaseEntries (a : Actor) (dom : Nat) (r : Rec) (l : List (Nat × Nat)) :
    KeepsMem (releaseEntries a dom r l) := by
  induction l with
  | nil => exact keepsMem_pure _
  | cons p rest ih =>
    unfold releaseEntries
    repeat' first
      | with_reducible (first | apply KeepsMem.get_bind | apply KeepsMem.bind | apply KeepsMem.modify | apply wf_foldl | intro _)
      | split
      | simp [*]

@[simp] theorem wf_dropDraft (s : State) (dom slot : Nat) (hs : s.memory.wf = true) : (dropDraft s dom slot).memory.wf = true := by
  unfold dropDraft
  repeat' first
    | with_reducible (first | apply KeepsMem.get_bind | apply KeepsMem.bind | apply KeepsMem.modify | apply wf_foldl | intro _)
    | split
    | simp [*]

@[simp] theorem keepsMem_endSequence (a : Actor) (dom slot : Nat) (r : Rec) : KeepsMem (endSequence a dom slot r) := by
  unfold endSequence
  repeat' first
    | with_reducible (first | apply KeepsMem.get_bind | apply KeepsMem.bind | apply KeepsMem.modify | apply wf_foldl | intro _)
    | split
    | simp [*]

@[simp] theorem wf_setDraft (s : State) (dom : Nat) (d : Draft) (hs : s.memory.wf = true) : (setDraft s dom d).memory.wf = true := by
  unfold setDraft
  repeat' first
    | with_reducible (first | apply KeepsMem.get_bind | apply KeepsMem.bind | apply KeepsMem.modify | apply wf_foldl | intro _)
    | split
    | simp [*]

@[simp] theorem keepsMem_ringRead (a n : Nat) : KeepsMem (ringRead a n) := by
  unfold ringRead
  repeat' first
    | with_reducible (first | apply KeepsMem.get_bind | apply KeepsMem.bind | apply KeepsMem.modify | apply wf_foldl | intro _)
    | split
    | simp [*]

@[simp] theorem wf_updateQcb (s : State) (n : Nat) (hs : s.memory.wf = true) : (updateQcb s n).memory.wf = true := by
  unfold updateQcb
  repeat' first
    | with_reducible (first | apply KeepsMem.get_bind | apply KeepsMem.bind | apply KeepsMem.modify | apply wf_foldl | intro _)
    | split
    | simp [wf_sysStore, *]

@[simp] theorem wf_completeCommand (s : State) (n : Nat) (c : Command) (status : Nat) (hs : s.memory.wf = true) : (completeCommand s n c status).memory.wf = true := by
  unfold completeCommand
  repeat' first
    | with_reducible (first | apply KeepsMem.get_bind | apply KeepsMem.bind | apply KeepsMem.modify | apply wf_foldl | intro _)
    | split
    | simp [wf_sysStore, *]

@[simp] theorem wf_retire (s : State) (n entry status : Nat) (hs : s.memory.wf = true) : (retire s n entry status).memory.wf = true := by
  unfold retire
  repeat' first
    | with_reducible (first | apply KeepsMem.get_bind | apply KeepsMem.bind | apply KeepsMem.modify | apply wf_foldl | intro _)
    | split
    | simp [*]

@[simp] theorem wf_postEvent (s : State) (f : Nat) (e : HostEvent) (hs : s.memory.wf = true) : (postEvent s f e).memory.wf = true := by
  unfold postEvent
  repeat' first
    | with_reducible (first | apply KeepsMem.get_bind | apply KeepsMem.bind | apply KeepsMem.modify | apply wf_foldl | intro _)
    | split
    | simp [*]

@[simp] theorem wf_countDrop (s : State) (f : Nat) (hs : s.memory.wf = true) : (countDrop s f).memory.wf = true := by
  unfold countDrop
  repeat' first
    | with_reducible (first | apply KeepsMem.get_bind | apply KeepsMem.bind | apply KeepsMem.modify | apply wf_foldl | intro _)
    | split
    | simp [*]

@[simp] theorem wf_onSaved (f : Context → Context) (s : State) (hs : s.memory.wf = true) : (onSaved f s).memory.wf = true := by
  unfold onSaved
  repeat' first
    | with_reducible (first | apply KeepsMem.get_bind | apply KeepsMem.bind | apply KeepsMem.modify | apply wf_foldl | intro _)
    | split
    | simp [*]

@[simp] theorem wf_onAllContexts (f : Core → Context → Context) (s : State) (hs : s.memory.wf = true) : (onAllContexts f s).memory.wf = true := by
  unfold onAllContexts
  repeat' first
    | with_reducible (first | apply KeepsMem.get_bind | apply KeepsMem.bind | apply KeepsMem.modify | apply wf_foldl | intro _)
    | split
    | simp [*]

@[simp] theorem wf_forgetTicket (n : Nat) (s : State) (hs : s.memory.wf = true) : (forgetTicket n s).memory.wf = true := by
  unfold forgetTicket
  repeat' first
    | with_reducible (first | apply KeepsMem.get_bind | apply KeepsMem.bind | apply KeepsMem.modify | apply wf_foldl | intro _)
    | split
    | simp [*]

@[simp] theorem ticketOn_memory (s : State) (kind : TicketKind) (f dom page : Nat) (parked : List Nat) :
    (ticketOn s kind f dom page parked).2.memory = s.memory := by
  unfold ticketOn
  split <;> rfl

@[simp] theorem postWalk_memory (s : State) (f dom page rights : Nat) :
    (postWalk s f dom page rights).2.memory = s.memory := by
  unfold postWalk
  split
  · rfl
  · exact ticketOn_memory _ _ _ _ _ _

@[simp] theorem wf_answerAsked (s : State) (n : Nat) (hs : s.memory.wf = true) : (answerAsked s n).memory.wf = true := by
  unfold answerAsked
  repeat' first
    | with_reducible (first | apply KeepsMem.get_bind | apply KeepsMem.bind | apply KeepsMem.modify | apply wf_foldl | intro _)
    | split
    | simp [*]

@[simp] theorem wf_completeService (s : State) (t : Ticket) (hs : s.memory.wf = true) : (completeService s t).memory.wf = true := by
  unfold completeService
  repeat' first
    | with_reducible (first | assumption | apply wf_forgetTicket | apply wf_onSaved | apply wf_onAllContexts | apply wf_answerAsked | apply keepsMem_stop_done | apply keepsMem_set | apply keepsMem_map | apply KeepsMem.get_bind | apply KeepsMem.bind | apply KeepsMem.modify | apply wf_foldl | intro _)
    | split
    | exact wf_of_eq_pair ‹_› (by simp; assumption)
    | simp [*]

@[simp] theorem wf_cancelTicket (s : State) (t : Ticket) (hs : s.memory.wf = true) : (cancelTicket s t).memory.wf = true := by
  unfold cancelTicket
  repeat' first
    | with_reducible (first | apply KeepsMem.get_bind | apply KeepsMem.bind | apply KeepsMem.modify | apply wf_foldl | intro _)
    | split
    | simp [*]

@[simp] theorem startService_memory (s : State) (kind : TicketKind) (f dom page needs : Nat) (parked : List Nat) :
    (startService s kind f dom page needs parked).2.memory = s.memory := by
  unfold startService
  split
  · rfl
  · dsimp only
    split <;> exact ticketOn_memory _ _ _ _ _ _

@[simp] theorem wf_unpark (q : Nat) (s : State) (hs : s.memory.wf = true) : (unpark q s).memory.wf = true := by
  unfold unpark
  repeat' first
    | with_reducible (first | apply KeepsMem.get_bind | apply KeepsMem.bind | apply KeepsMem.modify | apply wf_foldl | intro _)
    | split
    | simp [*]

@[simp] theorem wf_onUid (s : State) (uid : Nat) (f : Context → Context) (hs : s.memory.wf = true) : (onUid s uid f).memory.wf = true := by
  unfold onUid
  repeat' first
    | with_reducible (first | apply KeepsMem.get_bind | apply KeepsMem.bind | apply KeepsMem.modify | apply wf_foldl | intro _)
    | split
    | simp [*]

@[simp] theorem wf_acknowledge (s : State) (m : Message) (failed : Option Nat) (hs : s.memory.wf = true) : (acknowledge s m failed).memory.wf = true := by
  unfold acknowledge
  repeat' first
    | with_reducible (first | apply KeepsMem.get_bind | apply KeepsMem.bind | apply KeepsMem.modify | apply wf_foldl | intro _)
    | split
    | simp [*]

@[simp] theorem wf_kernelBoundary (s : State) (c : Nat) (hs : s.memory.wf = true) : (kernelBoundary s c).memory.wf = true := by
  unfold kernelBoundary
  repeat' first
    | with_reducible (first | apply KeepsMem.get_bind | apply KeepsMem.bind | apply KeepsMem.modify | apply wf_foldl | intro _)
    | split
    | simp [*]

@[simp] theorem wf_writeBackAll (s : State) (c : Nat) (hs : s.memory.wf = true) : (writeBackAll s c).memory.wf = true :=
  wf_foldl hs fun _ _ h => wf_foldl h fun _ _ h => wf_writeBack _ _ _ _ h

@[simp] theorem wf_dropParked (s : State) (c : Nat) (hs : s.memory.wf = true) : (dropParked s c).memory.wf = true := by
  unfold dropParked
  repeat' first
    | with_reducible (first | apply KeepsMem.get_bind | apply KeepsMem.bind | apply KeepsMem.modify | apply wf_foldl | intro _)
    | split
    | simp [*]

@[simp] theorem wf_discardContext (s : State) (id : CtxId) (hs : s.memory.wf = true) : (discardContext s id).memory.wf = true := by
  unfold discardContext
  repeat' first
    | with_reducible (first | apply KeepsMem.get_bind | apply KeepsMem.bind | apply KeepsMem.modify | apply wf_foldl | intro _)
    | split
    | simp [*]

@[simp] theorem wf_loseMessage (s : State) (m : Message) (hs : s.memory.wf = true) : (loseMessage s m).memory.wf = true := by
  unfold loseMessage
  repeat' first
    | with_reducible (first | apply KeepsMem.get_bind | apply KeepsMem.bind | apply KeepsMem.modify | apply wf_foldl | intro _)
    | split
    | simp [*]

@[simp] theorem wf_dropArrivals (s : State) (uid c : Nat) (hs : s.memory.wf = true) : (dropArrivals s uid c).memory.wf = true := by
  unfold dropArrivals
  repeat' first
    | with_reducible (first | apply KeepsMem.get_bind | apply KeepsMem.bind | apply KeepsMem.modify | apply wf_foldl | intro _)
    | split
    | simp [*]

@[simp] theorem wf_clearRun (s : State) (c : Nat) (hs : s.memory.wf = true) : (clearRun s c).memory.wf = true := by
  unfold clearRun
  repeat' first
    | with_reducible (first | apply KeepsMem.get_bind | apply KeepsMem.bind | apply KeepsMem.modify | apply wf_foldl | intro _)
    | split
    | simp [*]

@[simp] theorem wf_abandonRun (s : State) (c condition : Nat) (hs : s.memory.wf = true) : (abandonRun s c condition).memory.wf = true := by
  unfold abandonRun
  repeat' first
    | with_reducible (first | apply KeepsMem.get_bind | apply KeepsMem.bind | apply KeepsMem.modify | apply wf_foldl | intro _)
    | split
    | simp [*]

@[simp] theorem wf_abandonRunOf (s : State) (uid c : Nat) (hs : s.memory.wf = true) : (abandonRunOf s uid c).memory.wf = true := by
  unfold abandonRunOf
  repeat' first
    | with_reducible (first | apply KeepsMem.get_bind | apply KeepsMem.bind | apply KeepsMem.modify | apply wf_foldl | intro _)
    | split
    | simp [*]

@[simp] theorem wf_clearTeamCore (t : Team) (s : State) (c : Nat) (hs : s.memory.wf = true) : (clearTeamCore t s c).memory.wf = true := by
  unfold clearTeamCore
  repeat' first
    | with_reducible (first | assumption | apply wf_writeBackAll | apply wf_dropParked | apply wf_discardContext | apply wf_dropArrivals | apply wf_abandonRunOf | apply wf_kernelBoundary | apply wf_onCore | apply keepsMem_stop_done | apply keepsMem_set | apply keepsMem_map | apply KeepsMem.get_bind | apply KeepsMem.bind | apply KeepsMem.modify | apply wf_foldl | intro _)
    | split
    | exact wf_of_eq_pair ‹_› (by simp; assumption)
    | simp [*]

@[simp] theorem wf_clearMigrated (t : Team) (s : State) (c : Nat) (hs : s.memory.wf = true) : (clearMigrated t s c).memory.wf = true := by
  unfold clearMigrated
  repeat' first
    | with_reducible (first | apply KeepsMem.get_bind | apply KeepsMem.bind | apply KeepsMem.modify | apply wf_foldl | intro _)
    | split
    | simp [*]

@[simp] theorem wf_destroyKeys (s : State) (t : Team) (hs : s.memory.wf = true) : (destroyKeys s t).memory.wf = true := by
  unfold destroyKeys
  repeat' first
    | with_reducible (first | apply KeepsMem.get_bind | apply KeepsMem.bind | apply KeepsMem.modify | apply wf_foldl | intro _)
    | split
    | simp [*]

@[simp] theorem wf_removeTeam (s : State) (t : Team) (hs : s.memory.wf = true) : (removeTeam s t).memory.wf = true := by
  unfold removeTeam
  repeat' first
    | with_reducible (first | assumption | apply wf_dropViewsOf | apply wf_dropView | apply wf_loseMessage | apply wf_clearMigrated | apply wf_clearTeamCore | apply wf_destroyKeys | apply keepsMem_stop_done | apply keepsMem_set | apply keepsMem_map | apply KeepsMem.get_bind | apply KeepsMem.bind | apply KeepsMem.modify | apply wf_foldl | intro _)
    | split
    | exact wf_of_eq_pair ‹_› (by simp; assumption)
    | simp [wf_makeAllVisible, *]

@[simp] theorem wf_abortQueue (s : State) (n : Nat) (hs : s.memory.wf = true) : (abortQueue s n).memory.wf = true := by
  unfold abortQueue
  repeat' first
    | with_reducible (first | assumption | apply wf_retire | apply wf_onQueue | apply wf_unpark | apply keepsMem_stop_done | apply keepsMem_set | apply keepsMem_map | apply KeepsMem.get_bind | apply KeepsMem.bind | apply KeepsMem.modify | apply wf_foldl | intro _)
    | split
    | exact wf_of_eq_pair ‹_› (by simp; assumption)
    | simp [*]

@[simp] theorem wf_disableQueue (s : State) (n : Nat) (hs : s.memory.wf = true) : (disableQueue s n).memory.wf = true := by
  unfold disableQueue
  repeat' first
    | with_reducible (first | apply KeepsMem.get_bind | apply KeepsMem.bind | apply KeepsMem.modify | apply wf_foldl | intro _)
    | split
    | simp [*]

@[simp] theorem wf_recoverQueue (replay : Bool) (s : State) (n : Nat) (hs : s.memory.wf = true) : (recoverQueue replay s n).memory.wf = true := by
  unfold recoverQueue
  repeat' first
    | with_reducible (first | assumption | apply wf_recallAll | apply wf_onQueue | apply wf_postEvent | apply wf_disableQueue | apply keepsMem_stop_done | apply keepsMem_set | apply keepsMem_map | apply KeepsMem.get_bind | apply KeepsMem.bind | apply KeepsMem.modify | apply wf_foldl | intro _)
    | split
    | exact wf_of_eq_pair ‹_› (by simp; assumption)
    | simp [wf_recallAll, *]

@[simp] theorem wf_holdDie (s : State) (d : Nat) (hs : s.memory.wf = true) : (holdDie s d).memory.wf = true := by
  unfold holdDie
  repeat' first
    | with_reducible (first | apply KeepsMem.get_bind | apply KeepsMem.bind | apply KeepsMem.modify | apply wf_foldl | intro _)
    | split
    | simp [*]

theorem wf_forgetOwners (m : Memory) (h : m.wf = true) : m.forgetOwners.wf = true :=
  foldl_keeps (fun n : Memory => n.wf = true) _ _ _ h fun _ _ h => wf_changeKey _ _ _ h

@[simp] theorem wf_packageRestart (s : State) (hs : s.memory.wf = true) : (packageRestart s).memory.wf = true :=
  wf_forgetOwners s.memory hs

@[simp] theorem wf_poisonRestart (s : State) (hs : s.memory.wf = true) : (poisonRestart s).memory.wf = true := by
  unfold poisonRestart
  repeat' first
    | with_reducible (first | apply KeepsMem.get_bind | apply KeepsMem.bind | apply KeepsMem.modify | apply wf_foldl | intro _)
    | split
    | simp [*]

@[simp] theorem wf_onReset (f : Nat) (g : Reset → Reset) (s : State) (hs : s.memory.wf = true) : (onReset f g s).memory.wf = true := by
  unfold onReset
  repeat' first
    | with_reducible (first | apply KeepsMem.get_bind | apply KeepsMem.bind | apply KeepsMem.modify | apply wf_foldl | intro _)
    | split
    | simp [*]

/-- The state that a step of a reset comes to, whether the reset goes on from it or stands in it. -/
def StepWf : Except State State → Prop
  | .ok t | .error t => t.memory.wf = true

theorem StepWf.bind {x : Except State State} {f : State → Except State State} (hx : StepWf x)
    (hf : ∀ t : State, t.memory.wf = true → StepWf (f t)) : StepWf (x >>= f) := by
  cases x with
  | ok t => exact hf t hx
  | error t => exact hx

theorem StepWf.of_ok {x : Except State State} {t : State} (hx : StepWf x) (h : x = .ok t) : t.memory.wf = true := by
  subst h; exact hx

theorem StepWf.of_error {x : Except State State} {t : State} (hx : StepWf x) (h : x = .error t) :
    t.memory.wf = true := by
  subst h; exact hx

theorem stepWf_resetAccess (f dom : Nat) (m : Act Unit) (s : State) (hm : KeepsMem m) (hs : s.memory.wf = true) :
    StepWf (resetAccess f dom m s) := by
  unfold resetAccess
  split
  next h => exact (keepsMem_inName f dom m hm).ok h hs
  · exact wf_onReset _ _ _ ((congrArg Memory.wf (postWalk_memory _ _ _ _ _)).trans hs)
  · exact hs
  · split
    · exact wf_poisonRestart s hs
    · exact hs
  · split
    · exact wf_onReset _ _ _ ((congrArg Memory.wf (startService_memory _ _ _ _ _ _ _)).trans hs)
    · exact hs
  all_goals exact hs

theorem stepWf_closeDrafts (f : Nat) (l : List (Nat × Draft)) (s : State) (hs : s.memory.wf = true) :
    StepWf (closeDrafts f l s) := by
  induction l generalizing s with
  | nil => exact hs
  | cons p rest ih =>
    unfold closeDrafts
    exact (stepWf_resetAccess _ _ _ _ (.bind (by simp) fun _ => by simp) hs).bind fun t ht => ih _ (by simp [ht])

theorem stepWf_endSlots (f : Nat) (l : List (Nat × Nat)) (s : State) (hs : s.memory.wf = true) :
    StepWf (endSlots f l s) := by
  induction l generalizing s with
  | nil => exact hs
  | cons p rest ih =>
    unfold endSlots
    refine (stepWf_resetAccess _ _ _ _ (.bind (by simp) fun _ => ?_) hs).bind fun t ht => ih _ (by simp [ht])
    split
    · simp
    · exact .bind (by simp) fun _ => by simp

@[simp] theorem wf_skipRecord (r : Reset) (s : State) (hs : s.memory.wf = true) : (skipRecord r s).memory.wf = true := by
  unfold skipRecord
  repeat' first
    | with_reducible (first | apply KeepsMem.get_bind | apply KeepsMem.bind | apply KeepsMem.modify | apply wf_foldl | intro _)
    | split
    | simp [*]

@[simp] theorem wf_discardTeams (s : State) (f : Nat) (hs : s.memory.wf = true) : (discardTeams s f).memory.wf = true := by
  unfold discardTeams
  repeat' first
    | with_reducible (first | apply KeepsMem.get_bind | apply KeepsMem.bind | apply KeepsMem.modify | apply wf_foldl | intro _)
    | split
    | simp [*]

@[simp] theorem wf_endReset (r : Reset) (s : State) (hs : s.memory.wf = true) : (endReset r s).memory.wf = true := by
  unfold endReset
  repeat' first
    | with_reducible (first | assumption | apply wf_abortQueue | apply wf_recoverQueue | apply wf_cancelTicket | apply wf_postEvent | apply keepsMem_stop_done | apply keepsMem_set | apply keepsMem_map | apply KeepsMem.get_bind | apply KeepsMem.bind | apply KeepsMem.modify | apply wf_foldl | intro _)
    | split
    | exact wf_of_eq_pair ‹_› (by simp; assumption)
    | simp [*]

@[simp] theorem wf_continueReset (r : Reset) (s : State) (hs : s.memory.wf = true) :
    (continueReset r s).memory.wf = true := by
  have steps : ∀ left : State → List (Nat × Nat), StepWf (closeDrafts r.func (draftsOf s r.func) s >>= fun t =>
      endSlots r.func (left t) (onReset r.func (fun q => { q with slots := some (left t) }) t)) := fun left =>
    (stepWf_closeDrafts _ _ _ hs).bind fun t ht => stepWf_endSlots _ _ _ (by simp [ht])
  unfold continueReset
  dsimp only
  split
  next h => exact (steps _).of_error h
  next t h =>
    have ht : t.memory.wf = true := (steps _).of_ok h
    split
    · exact ht
    · split
      · exact wf_poisonRestart t ht
      · exact wf_endReset r t ht

@[simp] theorem wf_settleReset (s : State) (f : Nat) (hs : s.memory.wf = true) : (settleReset s f).memory.wf = true := by
  unfold settleReset
  repeat' first
    | with_reducible (first | assumption | apply wf_continueReset | apply keepsMem_stop_done | apply keepsMem_set | apply keepsMem_map | apply KeepsMem.get_bind | apply KeepsMem.bind | apply KeepsMem.modify | apply wf_foldl | intro _)
    | split
    | exact wf_of_eq_pair ‹_› (by simp; assumption)
    | simp [*]

@[simp] theorem wf_settleResets (s : State) (hs : s.memory.wf = true) : (settleResets s).memory.wf = true := by
  unfold settleResets
  repeat' first
    | with_reducible (first | apply KeepsMem.get_bind | apply KeepsMem.bind | apply KeepsMem.modify | apply wf_foldl | intro _)
    | split
    | simp [*]

@[simp] theorem wf_partitionReset (s : State) (f reason addr dom : Nat) (replay keepSeq : Bool) (hs : s.memory.wf = true) : (partitionReset s f reason addr dom replay keepSeq).memory.wf = true := by
  unfold partitionReset
  repeat' first
    | with_reducible (first | apply KeepsMem.get_bind | apply KeepsMem.bind | apply KeepsMem.modify | apply wf_foldl | intro _)
    | split
    | simp [*]

@[simp] theorem wf_restartFirmware (s : State) (c : Nat) (hs : s.memory.wf = true) : (restartFirmware s c).memory.wf = true := by
  unfold restartFirmware
  repeat' first
    | with_reducible (first | apply KeepsMem.get_bind | apply KeepsMem.bind | apply KeepsMem.modify | apply wf_foldl | intro _)
    | split
    | simp [*]

@[simp] theorem wf_endTrapEntry (s : State) (c : Nat) (hs : s.memory.wf = true) : (endTrapEntry s c).memory.wf = true := by
  unfold endTrapEntry
  repeat' first
    | with_reducible (first | apply KeepsMem.get_bind | apply KeepsMem.bind | apply KeepsMem.modify | apply wf_foldl | intro _)
    | split
    | simp [*]

@[simp] theorem wf_systemTrap (t : Trap) (s : State) (c : Nat) (hs : s.memory.wf = true) : (systemTrap t s c).memory.wf = true := by
  unfold systemTrap
  repeat' first
    | with_reducible (first | assumption | apply wf_onCtx | apply wf_onCore | apply wf_restartFirmware | apply wf_endTrapEntry | apply wf_partitionReset | apply keepsMem_stop_done | apply keepsMem_set | apply keepsMem_map | apply KeepsMem.get_bind | apply KeepsMem.bind | apply KeepsMem.modify | apply wf_foldl | intro _)
    | split
    | exact wf_of_eq_pair ‹_› (by simp; assumption)
    | simp [*]

@[simp] theorem wf_postArrival (s : State) (core source : Nat) (a : Arrival) (hs : s.memory.wf = true) : (postArrival s core source a).memory.wf = true := by
  unfold postArrival
  repeat' first
    | with_reducible (first | apply KeepsMem.get_bind | apply KeepsMem.bind | apply KeepsMem.modify | apply wf_foldl | intro _)
    | split
    | simp [*]

@[simp] theorem wf_userTrap (t : Trap) (s : State) (id : CtxId) (hs : s.memory.wf = true) : (userTrap t s id).memory.wf = true := by
  unfold userTrap
  repeat' first
    | with_reducible (first | apply KeepsMem.get_bind | apply KeepsMem.bind | apply KeepsMem.modify | apply wf_foldl | intro _)
    | split
    | simp [*]

@[simp] theorem wf_deliverTrapTo (t : Trap) (s : State) (id : CtxId) (hs : s.memory.wf = true) : (deliverTrapTo t s id).memory.wf = true := by
  unfold deliverTrapTo
  repeat' first
    | with_reducible (first | apply KeepsMem.get_bind | apply KeepsMem.bind | apply KeepsMem.modify | apply wf_foldl | intro _)
    | split
    | simp [*]

@[simp] theorem wf_deliverTrap (t : Trap) (s : State) (hs : s.memory.wf = true) : (deliverTrap t s).memory.wf = true := by
  unfold deliverTrap
  repeat' first
    | with_reducible (first | apply KeepsMem.get_bind | apply KeepsMem.bind | apply KeepsMem.modify | apply wf_foldl | intro _)
    | split
    | simp [*]

@[simp] theorem keepsMem_raiseFrom {α : Type} (t : Trap) (s : State) (hs : s.memory.wf = true) :
    KeepsMem (raiseFrom t s : Act α) := keepsMem_stop_done (wf_deliverTrap t s hs)

@[simp] theorem wf_poisonReset (s : State) (key va f dom : Nat) (hs : s.memory.wf = true) : (poisonReset s key va f dom).memory.wf = true := by
  unfold poisonReset
  repeat' first
    | with_reducible (first | apply KeepsMem.get_bind | apply KeepsMem.bind | apply KeepsMem.modify | apply wf_foldl | intro _)
    | split
    | simp [*]

@[simp] theorem nextWf_finish (m : Act Unit) (s : State) (hm : KeepsMem m) (hs : s.memory.wf = true) : NextWf (finish m s) := by
  unfold finish
  repeat' first
    | split
    | with_reducible (first | assumption | apply wf_deliverTrap | apply wf_onMe | apply wf_poisonReset)
    | exact KeepsMem.ok ‹_› (by simp [*]) (by simp [*])
    | exact (endsWf_done _).1 (KeepsMem.error (β := Unit) ‹_› (by simp [*]) (by simp [*]))
    | exact wf_of_eq_pair ‹_› (by simp; assumption)
    | simp [*]

@[simp] theorem nextWf_fixed (len : Nat) (f : State → State) (s : State) (hf : ∀ s : State, s.memory.wf = true → (f s).memory.wf = true) (hs : s.memory.wf = true) : NextWf (fixed len f s) := by
  unfold fixed
  repeat' first
    | with_reducible (first | apply KeepsMem.get_bind | apply KeepsMem.bind | apply KeepsMem.modify | apply wf_foldl | intro _)
    | split
    | simp [*]

@[simp] theorem nextWf_quick (len : Nat) (m : Act Unit) (s : State) (hm : KeepsMem m) (hs : s.memory.wf = true) :
    NextWf (quick len m s) := nextWf_finish _ _ (hm.bind fun _ => .modify fun _ h => wf_advance _ _ h) hs

@[simp] theorem wf_outOfRotation (s : State) (hs : s.memory.wf = true) : (outOfRotation s).memory.wf = true := by
  unfold outOfRotation
  repeat' first
    | with_reducible (first | apply KeepsMem.get_bind | apply KeepsMem.bind | apply KeepsMem.modify | apply wf_foldl | intro _)
    | split
    | simp [*]

@[simp] theorem nextWf_slow (len : Nat) (m : Act Unit) (s : State) (hm : KeepsMem m) (hs : s.memory.wf = true) :
    NextWf (slow len m s) :=
  nextWf_finish _ _ (hm.bind fun _ => .bind (.modify fun _ h => wf_advance _ _ h) fun _ => .modify fun _ h => by simp [h]) hs

@[simp] theorem wf_joinHeld (keeps fills : Bool) (note : Held → Held) (s : State) (hs : s.memory.wf = true) : (joinHeld keeps fills note s).memory.wf = true := by
  unfold joinHeld
  repeat' first
    | with_reducible (first | apply KeepsMem.get_bind | apply KeepsMem.bind | apply KeepsMem.modify | apply wf_foldl | intro _)
    | split
    | simp [*]

@[simp] theorem wf_standHeld (keeps fills : Bool) (note : Held → Held) (w : Wait) (s : State) (hs : s.memory.wf = true) : (standHeld keeps fills note w s).memory.wf = true := by
  unfold standHeld
  repeat' first
    | with_reducible (first | apply KeepsMem.get_bind | apply KeepsMem.bind | apply KeepsMem.modify | apply wf_foldl | intro _)
    | split
    | simp [*]

@[simp] theorem keepsMem_checkPin (p : Pin) : KeepsMem (checkPin p) := by
  unfold checkPin
  repeat' first
    | with_reducible (first | apply KeepsMem.get_bind | apply KeepsMem.bind | apply KeepsMem.modify | apply wf_foldl | intro _)
    | split
    | simp [*]

@[simp] theorem keepsMem_takeTurn : KeepsMem (takeTurn) := by
  unfold takeTurn
  repeat' first
    | with_reducible (first | apply KeepsMem.get_bind | apply KeepsMem.bind | apply KeepsMem.modify | apply wf_foldl | intro _)
    | split
    | simp [*]

@[simp] theorem keepsMem_onBehalf {α : Type} (f dom : Nat) (m : Act α) (hm : KeepsMem m) : KeepsMem (onBehalf f dom m : Act α) := by
  intro s hs
  unfold onBehalf
  repeat' first
    | split
    | with_reducible (first | assumption | apply wf_onMe | apply wf_poisonReset | apply KeepsMem.endsWf)
    | exact KeepsMem.ok ‹_› (by simp [*]) (by simp [*])
    | exact KeepsMem.error ‹_› (by simp [*]) (by simp [*])
    | exact wf_of_eq_pair ‹_› (by simp; assumption)
    | simp [*]

@[simp] theorem nextWf_finishEvent (f dom : Nat) (m : Act Unit) (s : State) (hm : KeepsMem m) (hs : s.memory.wf = true) : NextWf (finishEvent f dom m s) := by
  unfold finishEvent
  repeat' first
    | split
    | with_reducible (first | assumption | apply wf_poisonReset)
    | exact KeepsMem.ok ‹_› (by simp [*]) (by simp [*])
    | exact (endsWf_done _).1 (KeepsMem.error (β := Unit) ‹_› (by simp [*]) (by simp [*]))
    | exact wf_of_eq_pair ‹_› (by simp; assumption)
    | simp [*]

@[simp] theorem nextWf_finishAsking (f dom : Nat) (m : Act Unit) (ask : Nat → State → State) (s : State) (hm : KeepsMem m)
    (hask : ∀ n t, t.memory.wf = true → (ask n t).memory.wf = true) (hs : s.memory.wf = true) :
    NextWf (finishAsking f dom m ask s) := by
  unfold finishAsking
  split
  · simpa using hask _ _ (by simpa using hs)
  · exact nextWf_finishEvent f dom m s hm hs

@[simp] theorem wf_placeContext (s : State) (t : Team) (kind : CtxKind) (id : CtxId) (code : Cap) (args : List Cap) (c5 c6 : Nat) (hs : s.memory.wf = true) : (placeContext s t kind id code args c5 c6).memory.wf = true := by
  unfold placeContext
  repeat' first
    | with_reducible (first | assumption | apply wf_setCtx | apply wf_onCore | apply keepsMem_stop_done | apply keepsMem_set | apply keepsMem_map | apply KeepsMem.get_bind | apply KeepsMem.bind | apply KeepsMem.modify | apply wf_foldl | intro _)
    | split
    | exact wf_of_eq_pair ‹_› (by simp; assumption)
    | simp [*]

@[simp] theorem wf_endContext (s : State) (id : CtxId) (exit : BitVec 64) (hs : s.memory.wf = true) : (endContext s id exit).memory.wf = true := by
  unfold endContext
  repeat' first
    | with_reducible (first | apply KeepsMem.get_bind | apply KeepsMem.bind | apply KeepsMem.modify | apply wf_foldl | intro _)
    | split
    | simp [*]

@[simp] theorem keepsMem_codeWord (id : CtxId) (va : Nat) : KeepsMem (codeWord id va) := by
  intro s hs
  unfold codeWord
  repeat' first
    | split
    | with_reducible (first | assumption | apply keepsMem_readPieceOf | apply KeepsMem.endsWf)
    | exact KeepsMem.ok ‹_› (by simp [*]) (by simp [*])
    | exact KeepsMem.error ‹_› (by simp [*]) (by simp [*])
    | exact wf_of_eq_pair ‹_› (by simp; assumption)
    | simp [*]

@[simp] theorem keepsMem_lengthAt (id : CtxId) (pc : Nat) : KeepsMem (lengthAt id pc) := by
  unfold lengthAt
  repeat' first
    | with_reducible (first | apply KeepsMem.get_bind | apply KeepsMem.bind | apply KeepsMem.modify | apply wf_foldl | intro _)
    | split
    | simp [*]

@[simp] theorem keepsMem_trapReturn (id : CtxId) (skip : Bool) : KeepsMem (trapReturn id skip) := by
  unfold trapReturn
  repeat' first
    | with_reducible (first | apply KeepsMem.get_bind | apply KeepsMem.bind | apply KeepsMem.modify | apply wf_foldl | intro _)
    | split
    | simp [*]

@[simp] theorem keepsMem_resumeCode (id : CtxId) (skip : Bool) : KeepsMem (resumeCode id skip) := by
  unfold resumeCode
  repeat' first
    | with_reducible (first | apply KeepsMem.get_bind | apply KeepsMem.bind | apply KeepsMem.modify | apply wf_foldl | intro _)
    | split
    | simp [*]

@[simp] theorem wf_dropShadow (s : State) (id : CtxId) (n : Nat) (hs : s.memory.wf = true) : (dropShadow s id n).memory.wf = true := by
  unfold dropShadow
  repeat' first
    | with_reducible (first | apply KeepsMem.get_bind | apply KeepsMem.bind | apply KeepsMem.modify | apply wf_foldl | intro _)
    | split
    | simp [*]

@[simp] theorem wf_recordEnded (s : State) (uid : Nat) (cause : Nat) (hs : s.memory.wf = true) : (recordEnded s uid cause).memory.wf = true := by
  unfold recordEnded
  repeat' first
    | with_reducible (first | apply KeepsMem.get_bind | apply KeepsMem.bind | apply KeepsMem.modify | apply wf_foldl | intro _)
    | split
    | simp [*]

@[simp] theorem wf_endTrapped (s : State) (id : CtxId) (hs : s.memory.wf = true) : (endTrapped s id).memory.wf = true := by
  unfold endTrapped
  repeat' first
    | with_reducible (first | apply KeepsMem.get_bind | apply KeepsMem.bind | apply KeepsMem.modify | apply wf_foldl | intro _)
    | split
    | simp [*]

@[simp] theorem wf_serviceUpcall (s : State) (id : CtxId) (t : Team) (entry n : Nat) (hs : s.memory.wf = true) : (serviceUpcall s id t entry n).memory.wf = true := by
  unfold serviceUpcall
  repeat' first
    | with_reducible (first | apply KeepsMem.get_bind | apply KeepsMem.bind | apply KeepsMem.modify | apply wf_foldl | intro _)
    | split
    | simp [*]

@[simp] theorem wf_denyContext (s : State) (id : CtxId) (hs : s.memory.wf = true) : (denyContext s id).memory.wf = true := by
  unfold denyContext
  repeat' first
    | with_reducible (first | apply KeepsMem.get_bind | apply KeepsMem.bind | apply KeepsMem.modify | apply wf_foldl | intro _)
    | split
    | simp [*]

@[simp] theorem wf_resumeUser (s : State) (id : CtxId) (code : Cap) (hs : s.memory.wf = true) : (resumeUser s id code).memory.wf = true := by
  unfold resumeUser
  repeat' first
    | with_reducible (first | apply KeepsMem.get_bind | apply KeepsMem.bind | apply KeepsMem.modify | apply wf_foldl | intro _)
    | split
    | simp [*]

@[simp] theorem keepsMem_eretUser (id : CtxId) (fin upc skip : Bool) : KeepsMem (eretUser id fin upc skip) := by
  unfold eretUser
  repeat' first
    | with_reducible (first | apply KeepsMem.get_bind | apply KeepsMem.bind | apply KeepsMem.modify | apply wf_foldl | intro _)
    | split
    | simp [*]

@[simp] theorem keepsMem_eretSystem (skip : Bool) : KeepsMem (eretSystem skip) := by
  unfold eretSystem
  repeat' first
    | with_reducible (first | apply KeepsMem.get_bind | apply KeepsMem.bind | apply KeepsMem.modify | apply wf_foldl | intro _)
    | split
    | simp [*]

@[simp] theorem keepsMem_eretBody (w : Nat) : KeepsMem (eretBody w) := by
  unfold eretBody
  repeat' first
    | with_reducible (first | apply KeepsMem.get_bind | apply KeepsMem.bind | apply KeepsMem.modify | apply wf_foldl | intro _)
    | split
    | simp [*]

@[simp] theorem keepsMem_missedLookup (key : BitVec 128) : KeepsMem (missedLookup key) := by
  unfold missedLookup
  repeat' first
    | with_reducible (first | assumption | apply keepsMem_require | apply keepsMem_raise | apply keepsMem_raiseFrom | apply wf_onMe | apply keepsMem_stop | apply wf_dropShadow | apply keepsMem_stop_done | apply keepsMem_set | apply keepsMem_map | apply KeepsMem.get_bind | apply KeepsMem.bind | apply KeepsMem.modify | apply wf_foldl | intro _)
    | split
    | exact wf_of_eq_pair ‹_› (by simp; assumption)
    | simp [*]

@[simp] theorem keepsMem_checkCode (n : Reg) : KeepsMem (checkCode n) := by
  unfold checkCode
  repeat' first
    | with_reducible (first | apply KeepsMem.get_bind | apply KeepsMem.bind | apply KeepsMem.modify | apply wf_foldl | intro _)
    | split
    | simp [*]

@[simp] theorem wf_moveViewsIn (s : State) (id : CtxId) (c : Reg) (hs : s.memory.wf = true) : (moveViewsIn s id c).memory.wf = true := by
  unfold moveViewsIn
  repeat' first
    | with_reducible (first | apply KeepsMem.get_bind | apply KeepsMem.bind | apply KeepsMem.modify | apply wf_foldl | intro _)
    | split
    | simp [*]

@[simp] theorem wf_moveViews (s : State) (c : Reg) (hs : s.memory.wf = true) : (moveViews s c).memory.wf = true := by
  unfold moveViews
  repeat' first
    | with_reducible (first | apply KeepsMem.get_bind | apply KeepsMem.bind | apply KeepsMem.modify | apply wf_foldl | intro _)
    | split
    | simp [*]

end Sys2Proof.Machine
end

section
namespace Sys2Proof.Machine

@[simp] theorem wf_jumpBy (off : Int) (s : State) (hs : s.memory.wf = true) : (jumpBy off s).memory.wf = true := by
  unfold jumpBy
  repeat' first
    | with_reducible (first | apply KeepsMem.get_bind | apply KeepsMem.bind | apply KeepsMem.modify | apply wf_foldl | intro _)
    | split
    | simp [*]

@[simp] theorem keepsMem_inWindowV (i : Int) : KeepsMem (inWindowV i) := by
  unfold inWindowV
  repeat' first
    | with_reducible (first | apply KeepsMem.get_bind | apply KeepsMem.bind | apply KeepsMem.modify | apply wf_foldl | intro _)
    | split
    | simp [*]

@[simp] theorem keepsMem_inWindowE (i : Int) : KeepsMem (inWindowE i) := by
  unfold inWindowE
  repeat' first
    | with_reducible (first | apply KeepsMem.get_bind | apply KeepsMem.bind | apply KeepsMem.modify | apply wf_foldl | intro _)
    | split
    | simp [*]

@[simp] theorem wf_putMask (n : Nat) (v : BitVec 64) (s : State) (hs : s.memory.wf = true) : (putMask n v s).memory.wf = true := by
  unfold putMask
  repeat' first
    | with_reducible (first | apply KeepsMem.get_bind | apply KeepsMem.bind | apply KeepsMem.modify | apply wf_foldl | intro _)
    | split
    | simp [*]

@[simp] theorem wf_putV (n : Nat) (v : VReg) (s : State) (hs : s.memory.wf = true) : (putV n v s).memory.wf = true := by
  unfold putV
  repeat' first
    | with_reducible (first | apply KeepsMem.get_bind | apply KeepsMem.bind | apply KeepsMem.modify | apply wf_foldl | intro _)
    | split
    | simp [*]

@[simp] theorem wf_putE (n : Nat) (v : EReg) (s : State) (hs : s.memory.wf = true) : (putE n v s).memory.wf = true := by
  unfold putE
  repeat' first
    | with_reducible (first | apply KeepsMem.get_bind | apply KeepsMem.bind | apply KeepsMem.modify | apply wf_foldl | intro _)
    | split
    | simp [*]

@[simp] theorem wf_setClamped (clamped : Bool) (s : State) (hs : s.memory.wf = true) : (setClamped clamped s).memory.wf = true := by
  unfold setClamped
  repeat' first
    | with_reducible (first | apply KeepsMem.get_bind | apply KeepsMem.bind | apply KeepsMem.modify | apply wf_foldl | intro _)
    | split
    | simp [*]

@[simp] theorem wf_addFlushes (n : Nat) (s : State) (hs : s.memory.wf = true) : (addFlushes n s).memory.wf = true := by
  unfold addFlushes
  repeat' first
    | with_reducible (first | apply KeepsMem.get_bind | apply KeepsMem.bind | apply KeepsMem.modify | apply wf_foldl | intro _)
    | split
    | simp [*]

@[simp] theorem nextWf_branch (cond : BitVec 64 → BitVec 64 → Bool) (len : Nat) (a b : Reg) (off : Int) (s : State) (hs : s.memory.wf = true) : NextWf (branch cond len a b off s) := by
  unfold branch
  repeat' first
    | with_reducible (first | apply KeepsMem.get_bind | apply KeepsMem.bind | apply KeepsMem.modify | apply wf_foldl | intro _)
    | split
    | simp [*]

@[simp] theorem wf_link (a : Reg) (len : Nat) (s : State) (hs : s.memory.wf = true) : (link a len s).memory.wf = true := by
  unfold link
  repeat' first
    | with_reducible (first | apply KeepsMem.get_bind | apply KeepsMem.bind | apply KeepsMem.modify | apply wf_foldl | intro _)
    | split
    | simp [*]

@[simp] theorem wf_setCode (c : Cap) (s : State) (hs : s.memory.wf = true) : (setCode c s).memory.wf = true := by
  unfold setCode
  repeat' first
    | with_reducible (first | apply KeepsMem.get_bind | apply KeepsMem.bind | apply KeepsMem.modify | apply wf_foldl | intro _)
    | split
    | simp [*]

@[simp] theorem keepsMem_jumpReg (linked : Option Reg) (b : Reg) : KeepsMem (jumpReg linked b) := by
  unfold jumpReg
  repeat' first
    | with_reducible (first | apply KeepsMem.get_bind | apply KeepsMem.bind | apply KeepsMem.modify | apply wf_foldl | intro _)
    | split
    | simp [*]

@[simp] theorem keepsMem_enterSealed (a b : Reg) : KeepsMem (enterSealed a b) := by
  unfold enterSealed
  repeat' first
    | with_reducible (first | apply KeepsMem.get_bind | apply KeepsMem.bind | apply KeepsMem.modify | apply wf_foldl | intro _)
    | split
    | simp [*]

@[simp] theorem keepsMem_requireLeader (notLeader : Nat) : KeepsMem (requireLeader notLeader) := by
  unfold requireLeader
  repeat' first
    | with_reducible (first | apply KeepsMem.get_bind | apply KeepsMem.bind | apply KeepsMem.modify | apply wf_foldl | intro _)
    | split
    | simp [*]

@[simp] theorem wf_startHelper (t : Team) (slot : Nat) (b c : Reg) (pin : Pin) (s : State) (hs : s.memory.wf = true) :
    (startHelper t slot b c pin s).2.memory.wf = true := by
  simp [startHelper, hs]

@[simp] theorem keepsMem_startBody (a b c : Reg) (pin : Pin) : KeepsMem (startBody a b c pin) := by
  unfold startBody
  repeat' first
    | with_reducible (first | assumption | apply keepsMem_requireLeader | apply keepsMem_checkCode | apply wf_writeInt | apply wf_startHelper | apply keepsMem_stop_done | apply keepsMem_set | apply keepsMem_map | apply KeepsMem.get_bind | apply KeepsMem.bind | apply KeepsMem.modify | apply wf_foldl | intro _)
    | split
    | exact wf_of_eq_pair ‹_› (by simp; assumption)
    | simp [*]

@[simp] theorem keepsMem_joinBody (a b : Reg) : KeepsMem (joinBody a b) := by
  unfold joinBody
  repeat' first
    | with_reducible (first | apply KeepsMem.get_bind | apply KeepsMem.bind | apply KeepsMem.modify | apply wf_foldl | intro _)
    | split
    | simp [*]

@[simp] theorem wf_endRun (s : State) (hs : s.memory.wf = true) : (endRun s).memory.wf = true := by
  unfold endRun
  repeat' first
    | with_reducible (first | apply KeepsMem.get_bind | apply KeepsMem.bind | apply KeepsMem.modify | apply wf_foldl | intro _)
    | split
    | simp [*]

@[simp] theorem wf_returnInline (f : InlineCall) (rest : List InlineCall) (exit : BitVec 64) (s : State) (hs : s.memory.wf = true) : (returnInline f rest exit s).memory.wf = true := by
  unfold returnInline
  repeat' first
    | with_reducible (first | apply KeepsMem.get_bind | apply KeepsMem.bind | apply KeepsMem.modify | apply wf_foldl | intro _)
    | split
    | simp [*]

@[simp] theorem keepsMem_haltBody (a : Reg) : KeepsMem (haltBody a) := by
  unfold haltBody
  repeat' first
    | with_reducible (first | apply KeepsMem.get_bind | apply KeepsMem.bind | apply KeepsMem.modify | apply wf_foldl | intro _)
    | split
    | simp [*]

@[simp] theorem wf_sendSpawn (target : Nat) (a b c : Reg) (s : State) (hs : s.memory.wf = true) : (sendSpawn target a b c s).memory.wf = true := by
  unfold sendSpawn
  repeat' first
    | with_reducible (first | assumption | apply wf_onMe | apply wf_postArrival | apply keepsMem_stop_done | apply keepsMem_set | apply keepsMem_map | apply KeepsMem.get_bind | apply KeepsMem.bind | apply KeepsMem.modify | apply wf_foldl | intro _)
    | split
    | exact wf_of_eq_pair ‹_› (by simp; assumption)
    | simp [*]

@[simp] theorem wf_runInline (s : State) (id : CtxId) (code : Cap) (args : List Cap) (dst from' : Reg) (hs : s.memory.wf = true) : (runInline s id code args dst from').memory.wf = true := by
  unfold runInline
  repeat' first
    | with_reducible (first | apply KeepsMem.get_bind | apply KeepsMem.bind | apply KeepsMem.modify | apply wf_foldl | intro _)
    | split
    | simp [*]

@[simp] theorem wf_takeAnswer (s : State) (id : CtxId) (v : Nat) (dst from' : Reg) (hs : s.memory.wf = true) : (takeAnswer s id v dst from').memory.wf = true := by
  unfold takeAnswer
  repeat' first
    | with_reducible (first | apply KeepsMem.get_bind | apply KeepsMem.bind | apply KeepsMem.modify | apply wf_foldl | intro _)
    | split
    | simp [*]

@[simp] theorem keepsMem_spawnBody (a b c d : Reg) (imm : BitVec 24) : KeepsMem (spawnBody a b c d imm) := by
  unfold spawnBody
  repeat' first
    | with_reducible (first | apply KeepsMem.get_bind | apply KeepsMem.bind | apply KeepsMem.modify | apply wf_foldl | intro _)
    | split
    | simp [*]

@[simp] theorem keepsMem_checkArrival (sc : Scope) : KeepsMem (checkArrival sc) := by
  unfold checkArrival
  repeat' first
    | with_reducible (first | apply KeepsMem.get_bind | apply KeepsMem.bind | apply KeepsMem.modify | apply wf_foldl | intro _)
    | split
    | simp [*]

@[simp] theorem keepsMem_arriveAt (j : Joined) : KeepsMem (arriveAt j) := by
  unfold arriveAt
  repeat' first
    | with_reducible (first | apply KeepsMem.get_bind | apply KeepsMem.bind | apply KeepsMem.modify | apply wf_foldl | intro _)
    | split
    | simp [*]

@[simp] theorem keepsMem_barBody (sc : Scope) : KeepsMem (barBody sc) := by
  unfold barBody
  repeat' first
    | with_reducible (first | apply KeepsMem.get_bind | apply KeepsMem.bind | apply KeepsMem.modify | apply wf_foldl | intro _)
    | split
    | simp [*]

@[simp] theorem keepsMem_needResident : KeepsMem (needResident) := by
  unfold needResident
  repeat' first
    | with_reducible (first | apply KeepsMem.get_bind | apply KeepsMem.bind | apply KeepsMem.modify | apply wf_foldl | intro _)
    | split
    | simp [*]

@[simp] theorem keepsMem_signalSem (n : Nat) : KeepsMem (signalSem n) := by
  unfold signalSem
  repeat' first
    | with_reducible (first | apply KeepsMem.get_bind | apply KeepsMem.bind | apply KeepsMem.modify | apply wf_foldl | intro _)
    | split
    | simp [*]

@[simp] theorem keepsMem_waitSem (n : Nat) : KeepsMem (waitSem n) := by
  unfold waitSem
  repeat' first
    | with_reducible (first | apply KeepsMem.get_bind | apply KeepsMem.bind | apply KeepsMem.modify | apply wf_foldl | intro _)
    | split
    | simp [*]

@[simp] theorem keepsMem_semSignal (sem : Reg) : KeepsMem (semSignal sem) := by
  unfold semSignal
  repeat' first
    | with_reducible (first | apply KeepsMem.get_bind | apply KeepsMem.bind | apply KeepsMem.modify | apply wf_foldl | intro _)
    | split
    | simp [*]

@[simp] theorem keepsMem_semWait (sem : Reg) : KeepsMem (semWait sem) := by
  unfold semWait
  repeat' first
    | with_reducible (first | apply KeepsMem.get_bind | apply KeepsMem.bind | apply KeepsMem.modify | apply wf_foldl | intro _)
    | split
    | simp [*]

theorem wf_putFwd {s t : State} {id : CtxId} {quad : Bool} {v : BitVec 64} (h : putFwd s id quad v = some t)
    (hs : s.memory.wf = true) : t.memory.wf = true := by
  unfold putFwd at h
  dsimp only at h
  split at h
  · cases h
  · cases h; exact hs

theorem wf_takeFwd {s : State} {id : CtxId} {p : Nat × State} (h : takeFwd s id = some p)
    (hs : s.memory.wf = true) : p.2.memory.wf = true := by
  unfold takeFwd at h
  dsimp only at h
  split at h
  · cases h; exact hs
  · cases h

@[simp] theorem keepsMem_fwdPutBody (a : Reg) (quad : Bool) : KeepsMem (fwdPutBody a quad) := by
  unfold fwdPutBody
  refine .get_bind fun s hs => .bind (by simp) fun _ => ?_
  split
  next h => exact keepsMem_set (wf_putFwd h hs)
  · simp

@[simp] theorem keepsMem_fwdGetBody (a : Reg) : KeepsMem (fwdGetBody a) := by
  unfold fwdGetBody
  refine .get_bind fun s hs => .bind (by simp) fun _ => ?_
  split
  next h => exact keepsMem_set (wf_writeInt _ _ _ _ (wf_takeFwd h hs))
  · simp

@[simp] theorem keepsMem_hretBody (b : Reg) : KeepsMem (hretBody b) := by
  unfold hretBody
  repeat' first
    | with_reducible (first | apply KeepsMem.get_bind | apply KeepsMem.bind | apply KeepsMem.modify | apply wf_foldl | intro _)
    | split
    | simp [*]

@[simp] theorem wf_finishIfence (s : State) (id : CtxId) (hs : s.memory.wf = true) : (finishIfence s id).memory.wf = true := by
  unfold finishIfence
  repeat' first
    | with_reducible (first | apply KeepsMem.get_bind | apply KeepsMem.bind | apply KeepsMem.modify | apply wf_foldl | intro _)
    | split
    | simp [*]

@[simp] theorem keepsMem_requirePrivilege (opcode : Nat) : KeepsMem (requirePrivilege opcode) := by
  unfold requirePrivilege
  repeat' first
    | with_reducible (first | apply KeepsMem.get_bind | apply KeepsMem.bind | apply KeepsMem.modify | apply wf_foldl | intro _)
    | split
    | simp [*]

@[simp] theorem keepsMem_eretInstr (b : Reg) : KeepsMem (eretInstr b) := by
  unfold eretInstr
  repeat' first
    | with_reducible (first | apply KeepsMem.get_bind | apply KeepsMem.bind | apply KeepsMem.modify | apply wf_foldl | intro _)
    | split
    | simp [*]

theorem wf_writeSpecial {s t : State} {n x : Nat} (h : writeSpecial s n x = some t) (hs : s.memory.wf = true) :
    t.memory.wf = true := by
  have keep : ∀ {c : Prop} [Decidable c] {f : Context → Context}, (if c then none else some (onMe s f)) = some t →
      t.memory.wf = true := by
    intro c _ f h
    split at h
    · cases h
    · cases h; exact hs
  unfold writeSpecial at h
  dsimp only at h
  split at h
  · exact keep h
  · exact keep h
  · cases h; exact hs
  · exact keep h
  · cases h; exact hs
  · cases h; exact hs
  · split at h
    · cases h
    · cases h; exact hs
  · cases h

@[simp] theorem keepsMem_swrBody (sr b : Reg) (word : Nat) : KeepsMem (swrBody sr b word) := by
  unfold swrBody
  refine .get_bind fun s hs => .bind (by simp) fun _ => ?_
  split
  next h => exact keepsMem_set (wf_writeSpecial h hs)
  · simp

@[simp] theorem wf_afterAccess (x : MemX) (s : State) (hs : s.memory.wf = true) : (afterAccess x s).memory.wf = true := by
  unfold afterAccess
  repeat' first
    | with_reducible (first | apply KeepsMem.get_bind | apply KeepsMem.bind | apply KeepsMem.modify | apply wf_foldl | intro _)
    | split
    | simp [*]

@[simp] theorem nextWf_access (len : Nat) (x : MemX) (m : Act Unit) (s : State) (hm : KeepsMem m) (hs : s.memory.wf = true) :
    NextWf (access len x m s) :=
  nextWf_finish _ _ (hm.bind fun _ => .bind (.modify fun _ h => by simp [h]) fun _ => .modify fun _ h => by simp [h]) hs

@[simp] theorem keepsMem_checkAccess (b : Reg) (va : Int) (size perms align : Nat) : KeepsMem (checkAccess b va size perms align) := by
  unfold checkAccess
  repeat' first
    | with_reducible (first | apply KeepsMem.get_bind | apply KeepsMem.bind | apply KeepsMem.modify | apply wf_foldl | intro _)
    | split
    | simp [*]

@[simp] theorem keepsMem_loadBody (a b : Reg) (kind : Kind) (va : Int) (x : MemX) : KeepsMem (loadBody a b kind va x) := by
  unfold loadBody
  repeat' first
    | with_reducible (first | apply KeepsMem.get_bind | apply KeepsMem.bind | apply KeepsMem.modify | apply wf_foldl | intro _)
    | split
    | simp [*]

@[simp] theorem keepsMem_storeBody (a b : Reg) (kind : Kind) (va : Int) (x : MemX) : KeepsMem (storeBody a b kind va x) := by
  unfold storeBody
  repeat' first
    | with_reducible (first | apply KeepsMem.get_bind | apply KeepsMem.bind | apply KeepsMem.modify | apply wf_foldl | intro _)
    | split
    | simp [*]

@[simp] theorem keepsMem_capLoadBody (a b : Reg) (va : Int) (x : MemX) : KeepsMem (capLoadBody a b va x) := by
  unfold capLoadBody
  repeat' first
    | with_reducible (first | apply KeepsMem.get_bind | apply KeepsMem.bind | apply KeepsMem.modify | apply wf_foldl | intro _)
    | split
    | simp [*]

@[simp] theorem keepsMem_capStoreBody (a b : Reg) (va : Int) (x : MemX) : KeepsMem (capStoreBody a b va x) := by
  unfold capStoreBody
  repeat' first
    | with_reducible (first | apply KeepsMem.get_bind | apply KeepsMem.bind | apply KeepsMem.modify | apply wf_foldl | intro _)
    | split
    | simp [*]

@[simp] theorem keepsMem_checkLanes (b : Reg) (size perms : Nat) (l : List (Nat × Int)) :
    KeepsMem (checkLanes b size perms l) := by
  induction l with
  | nil =>
    unfold checkLanes
    repeat' first
      | with_reducible (first | assumption | apply keepsMem_checkAccess | apply keepsMem_stop_done | apply keepsMem_set | apply keepsMem_map | apply KeepsMem.get_bind | apply KeepsMem.bind | apply KeepsMem.modify | apply wf_foldl | intro _)
      | split
      | exact wf_of_eq_pair ‹_› (by simp; assumption)
      | simp [*]
  | cons p rest ih =>
    unfold checkLanes
    repeat' first
      | with_reducible (first | assumption | apply keepsMem_checkAccess | apply keepsMem_stop_done | apply keepsMem_set | apply keepsMem_map | apply KeepsMem.get_bind | apply KeepsMem.bind | apply KeepsMem.modify | apply wf_foldl | intro _)
      | split
      | exact wf_of_eq_pair ‹_› (by simp; assumption)
      | simp [*]

@[simp] theorem keepsMem_loadLanesAfter (a : Actor) (size : Nat) (read : List (Int × Nat)) (l : List (Nat × Int)) :
    KeepsMem (loadLanesAfter a size read l) := by
  induction l generalizing read with
  | nil => exact keepsMem_pure _
  | cons p rest ih =>
    unfold loadLanesAfter
    split
    · exact .bind (by simp) fun _ => .bind (ih _) fun _ => by simp
    · exact .bind (by simp) fun _ => .bind (by simp) fun _ => .bind (ih _) fun _ => by simp

@[simp] theorem keepsMem_loadLanes (a : Actor) (size : Nat) (ls : List (Nat × Int)) : KeepsMem (loadLanes a size ls) := by
  unfold loadLanes
  repeat' first
    | with_reducible (first | apply KeepsMem.get_bind | apply KeepsMem.bind | apply KeepsMem.modify | apply wf_foldl | intro _)
    | split
    | simp [*]

@[simp] theorem keepsMem_storeSector (a : Actor) (size : Nat) (val : Nat → Nat) (all : List (Nat × Int)) (sec : Nat) : KeepsMem (storeSector a size val all sec) := by
  unfold storeSector
  repeat' first
    | with_reducible (first | apply KeepsMem.get_bind | apply KeepsMem.bind | apply KeepsMem.modify | apply wf_foldl | intro _)
    | split
    | simp [*]

@[simp] theorem keepsMem_storePiece (a : Actor) (size : Nat) (val : Nat → Nat) (all : List (Nat × Int)) (i : Nat) (va at' n : Nat) : KeepsMem (storePiece a size val all i va at' n) := by
  unfold storePiece
  repeat' first
    | with_reducible (first | apply KeepsMem.get_bind | apply KeepsMem.bind | apply KeepsMem.modify | apply wf_foldl | intro _)
    | split
    | simp [*]

@[simp] theorem keepsMem_storePiecesOf (a : Actor) (size : Nat) (val : Nat → Nat) (all : List (Nat × Int)) (i va : Nat) (l : List (Nat × Nat)) :
    KeepsMem (storePiecesOf a size val all i va l) := by
  induction l with
  | nil =>
    unfold storePiecesOf
    repeat' first
      | with_reducible (first | assumption | apply keepsMem_storePiece | apply keepsMem_stop_done | apply keepsMem_set | apply keepsMem_map | apply KeepsMem.get_bind | apply KeepsMem.bind | apply KeepsMem.modify | apply wf_foldl | intro _)
      | split
      | exact wf_of_eq_pair ‹_› (by simp; assumption)
      | simp [*]
  | cons p rest ih =>
    unfold storePiecesOf
    repeat' first
      | with_reducible (first | assumption | apply keepsMem_storePiece | apply keepsMem_stop_done | apply keepsMem_set | apply keepsMem_map | apply KeepsMem.get_bind | apply KeepsMem.bind | apply KeepsMem.modify | apply wf_foldl | intro _)
      | split
      | exact wf_of_eq_pair ‹_› (by simp; assumption)
      | simp [*]

@[simp] theorem keepsMem_storeLanes (a : Actor) (size : Nat) (val : Nat → Nat) (all : List (Nat × Int)) (l : List (Nat × Int)) :
    KeepsMem (storeLanes a size val all l) := by
  induction l with
  | nil =>
    unfold storeLanes
    repeat' first
      | with_reducible (first | assumption | apply keepsMem_storePiecesOf | apply keepsMem_stop_done | apply keepsMem_set | apply keepsMem_map | apply KeepsMem.get_bind | apply KeepsMem.bind | apply KeepsMem.modify | apply wf_foldl | intro _)
      | split
      | exact wf_of_eq_pair ‹_› (by simp; assumption)
      | simp [*]
  | cons p rest ih =>
    unfold storeLanes
    repeat' first
      | with_reducible (first | assumption | apply keepsMem_storePiecesOf | apply keepsMem_stop_done | apply keepsMem_set | apply keepsMem_map | apply KeepsMem.get_bind | apply KeepsMem.bind | apply KeepsMem.modify | apply wf_foldl | intro _)
      | split
      | exact wf_of_eq_pair ‹_› (by simp; assumption)
      | simp [*]

@[simp] theorem keepsMem_vecLoad (a b : Reg) (mask : BitVec 64) (at' : Nat → Int) (x : MemX) : KeepsMem (vecLoad a b mask at' x) := by
  unfold vecLoad
  repeat' first
    | with_reducible (first | apply KeepsMem.get_bind | apply KeepsMem.bind | apply KeepsMem.modify | apply wf_foldl | intro _)
    | split
    | simp [*]

@[simp] theorem keepsMem_vecStore (a b : Reg) (mask : BitVec 64) (at' : Nat → Int) (x : MemX) : KeepsMem (vecStore a b mask at' x) := by
  unfold vecStore
  repeat' first
    | with_reducible (first | apply KeepsMem.get_bind | apply KeepsMem.bind | apply KeepsMem.modify | apply wf_foldl | intro _)
    | split
    | simp [*]

@[simp] theorem keepsMem_momLoad (a b : Reg) (mask : BitVec 64) (at' : Nat → Int) (x : MemX) : KeepsMem (momLoad a b mask at' x) := by
  unfold momLoad
  repeat' first
    | with_reducible (first | apply KeepsMem.get_bind | apply KeepsMem.bind | apply KeepsMem.modify | apply wf_foldl | intro _)
    | split
    | simp [*]

@[simp] theorem keepsMem_momStore (a b : Reg) (mask : BitVec 64) (at' : Nat → Int) (x : MemX) : KeepsMem (momStore a b mask at' x) := by
  unfold momStore
  repeat' first
    | with_reducible (first | apply KeepsMem.get_bind | apply KeepsMem.bind | apply KeepsMem.modify | apply wf_foldl | intro _)
    | split
    | simp [*]

@[simp] theorem keepsMem_amoBody (a b d : Reg) (op : AmoOp) (n : Nat) (x : MemX) : KeepsMem (amoBody a b d op n x) := by
  unfold amoBody
  repeat' first
    | with_reducible (first | apply KeepsMem.get_bind | apply KeepsMem.bind | apply KeepsMem.modify | apply wf_foldl | intro _)
    | split
    | simp [*]

@[simp] theorem keepsMem_casBody (a b d : Reg) (n : Nat) (x : MemX) : KeepsMem (casBody a b d n x) := by
  unfold casBody
  repeat' first
    | with_reducible (first | apply KeepsMem.get_bind | apply KeepsMem.bind | apply KeepsMem.modify | apply wf_foldl | intro _)
    | split
    | simp [*]

@[simp] theorem keepsMem_ccasBody (a b d : Reg) (x : MemX) : KeepsMem (ccasBody a b d x) := by
  unfold ccasBody
  repeat' first
    | with_reducible (first | apply KeepsMem.get_bind | apply KeepsMem.bind | apply KeepsMem.modify | apply wf_foldl | intro _)
    | split
    | simp [*]

@[simp] theorem keepsMem_raiseFailure (p : Nat × Nat × Nat → Bool) : KeepsMem (raiseFailure p) := by
  unfold raiseFailure
  repeat' first
    | with_reducible (first | apply KeepsMem.get_bind | apply KeepsMem.bind | apply KeepsMem.modify | apply wf_foldl | intro _)
    | split
    | simp [*]

@[simp] theorem keepsMem_fenceBody (sc : Scope) : KeepsMem (fenceBody sc) := by
  unfold fenceBody
  repeat' first
    | with_reducible (first | apply KeepsMem.get_bind | apply KeepsMem.bind | apply KeepsMem.modify | apply wf_foldl | intro _)
    | split
    | simp [*]

@[simp] theorem keepsMem_raiseStash {α : Type} (w condition : Nat) : KeepsMem (raiseStash w condition : Act α) := by
  unfold raiseStash
  repeat' first
    | with_reducible (first | apply KeepsMem.get_bind | apply KeepsMem.bind | apply KeepsMem.modify | apply wf_foldl | intro _)
    | split
    | simp [*]

@[simp] theorem keepsMem_stashMapBody (w b : Reg) (off len : Nat) : KeepsMem (stashMapBody w b off len) := by
  unfold stashMapBody
  repeat' first
    | with_reducible (first | apply KeepsMem.get_bind | apply KeepsMem.bind | apply KeepsMem.modify | apply wf_foldl | intro _)
    | split
    | simp [*]

@[simp] theorem keepsMem_writeBackSectors (c : Nat) (l : List (Nat × Nat × Nat)) : KeepsMem (writeBackSectors c l) := by
  induction l with
  | nil => exact keepsMem_pure _
  | cons p rest ih =>
    unfold writeBackSectors
    refine .get_bind fun s hs => ?_
    have go : KeepsMem (set (writeBack s c p.2.1 p.2.2) >>= fun _ => writeBackSectors c rest) :=
      .bind (keepsMem_set (wf_writeBack _ _ _ _ hs)) fun _ => ih
    dsimp only
    split
    · exact .bind (by simp) fun _ => go
    · exact go

@[simp] theorem keepsMem_flushWindows (remove : Bool) (c : Nat) (ws : List (Nat × Window)) : KeepsMem (flushWindows remove c ws) := by
  unfold flushWindows
  repeat' first
    | with_reducible (first | apply KeepsMem.get_bind | apply KeepsMem.bind | apply KeepsMem.modify | apply wf_foldl | intro _)
    | split
    | simp [*]

@[simp] theorem keepsMem_flushOne (remove : Bool) (w : Reg) : KeepsMem (flushOne remove w) := by
  unfold flushOne
  repeat' first
    | with_reducible (first | apply KeepsMem.get_bind | apply KeepsMem.bind | apply KeepsMem.modify | apply wf_foldl | intro _)
    | split
    | simp [*]

@[simp] theorem keepsMem_flushAll (remove : Bool) : KeepsMem (flushAll remove) := by
  unfold flushAll
  repeat' first
    | with_reducible (first | apply KeepsMem.get_bind | apply KeepsMem.bind | apply KeepsMem.modify | apply wf_foldl | intro _)
    | split
    | simp [*]

@[simp] theorem keepsMem_apertureCap (a b c : Reg) : KeepsMem (apertureCap a b c) := by
  unfold apertureCap
  repeat' first
    | with_reducible (first | apply KeepsMem.get_bind | apply KeepsMem.bind | apply KeepsMem.modify | apply wf_foldl | intro _)
    | split
    | simp [*]

@[simp] theorem wf_setChannel (s : State) (c ch : Nat) (x : Channel) (hs : s.memory.wf = true) : (setChannel s c ch x).memory.wf = true := by
  unfold setChannel
  repeat' first
    | with_reducible (first | apply KeepsMem.get_bind | apply KeepsMem.bind | apply KeepsMem.modify | apply wf_foldl | intro _)
    | split
    | simp [*]

@[simp] theorem keepsMem_raiseCopy {α : Type} (ch condition : Nat) : KeepsMem (raiseCopy ch condition : Act α) := by
  unfold raiseCopy
  repeat' first
    | with_reducible (first | apply KeepsMem.get_bind | apply KeepsMem.bind | apply KeepsMem.modify | apply wf_foldl | intro _)
    | split
    | simp [*]

@[simp] theorem keepsMem_raiseRecorded (ch : Nat) : KeepsMem (raiseRecorded ch) := by
  unfold raiseRecorded
  repeat' first
    | with_reducible (first | apply KeepsMem.get_bind | apply KeepsMem.bind | apply KeepsMem.modify | apply wf_foldl | intro _)
    | split
    | simp [*]

@[simp] theorem keepsMem_checkCopy (a b c : Reg) (ch : Nat) (land : Bool) : KeepsMem (checkCopy a b c ch land) := by
  unfold checkCopy
  repeat' first
    | with_reducible (first | apply KeepsMem.get_bind | apply KeepsMem.bind | apply KeepsMem.modify | apply wf_foldl | intro _)
    | split
    | simp [*]

@[simp] theorem wf_startCopy (a b c : Reg) (ch : Nat) (land : Bool) (s : State) (hs : s.memory.wf = true) : (startCopy a b c ch land s).memory.wf = true := by
  unfold startCopy
  repeat' first
    | with_reducible (first | assumption | apply wf_setChannel | apply wf_onMe | apply keepsMem_stop_done | apply keepsMem_set | apply keepsMem_map | apply KeepsMem.get_bind | apply KeepsMem.bind | apply KeepsMem.modify | apply wf_foldl | intro _)
    | split
    | exact wf_of_eq_pair ‹_› (by simp; assumption)
    | simp [*]

@[simp] theorem keepsMem_copyBody (a b c : Reg) (ch : Nat) (land : Bool) : KeepsMem (copyBody a b c ch land) := by
  unfold copyBody
  repeat' first
    | with_reducible (first | apply KeepsMem.get_bind | apply KeepsMem.bind | apply KeepsMem.modify | apply wf_foldl | intro _)
    | split
    | simp [*]

@[simp] theorem keepsMem_copyWaitBody (ch : Nat) : KeepsMem (copyWaitBody ch) := by
  unfold copyWaitBody
  repeat' first
    | with_reducible (first | apply KeepsMem.get_bind | apply KeepsMem.bind | apply KeepsMem.modify | apply wf_foldl | intro _)
    | split
    | simp [*]

@[simp] theorem keepsMem_copyPointBody (d : Reg) (ch : Nat) (b : Reg) (imm : BitVec 24) : KeepsMem (copyPointBody d ch b imm) := by
  unfold copyPointBody
  repeat' first
    | with_reducible (first | apply KeepsMem.get_bind | apply KeepsMem.bind | apply KeepsMem.modify | apply wf_foldl | intro _)
    | split
    | simp [*]

end Sys2Proof.Machine
end

section
namespace Sys2Proof.Machine

@[simp] theorem keepsMem_viewBounds (b : Reg) : KeepsMem (viewBounds b) := by
  unfold viewBounds
  repeat' first
    | with_reducible (first | apply KeepsMem.get_bind | apply KeepsMem.bind | apply KeepsMem.modify | apply wf_foldl | intro _)
    | split
    | simp [*]

@[simp] theorem keepsMem_raiseWiden {α : Type} (b : Reg) : KeepsMem (raiseWiden b : Act α) := by
  unfold raiseWiden
  repeat' first
    | with_reducible (first | apply KeepsMem.get_bind | apply KeepsMem.bind | apply KeepsMem.modify | apply wf_foldl | intro _)
    | split
    | simp [*]

@[simp] theorem keepsMem_exactView (b : Reg) (v : Cap) (base n : Nat) : KeepsMem (exactView b v base n) := by
  unfold exactView
  repeat' first
    | with_reducible (first | apply KeepsMem.get_bind | apply KeepsMem.bind | apply KeepsMem.modify | apply wf_foldl | intro _)
    | split
    | simp [*]

@[simp] theorem keepsMem_checkCounts (b : Reg) (gs : List Nat) : KeepsMem (checkCounts b gs) := by
  unfold checkCounts
  repeat' first
    | with_reducible (first | apply KeepsMem.get_bind | apply KeepsMem.bind | apply KeepsMem.modify | apply wf_foldl | intro _)
    | split
    | simp [*]

@[simp] theorem keepsMem_dupBody (a b : Reg) : KeepsMem (dupBody a b) := by
  unfold dupBody
  repeat' first
    | with_reducible (first | assumption | apply keepsMem_viewBounds | apply keepsMem_checkCounts | apply wf_writeCap | apply wf_cover | apply keepsMem_stop_done | apply keepsMem_set | apply keepsMem_map | apply KeepsMem.get_bind | apply KeepsMem.bind | apply KeepsMem.modify | apply wf_foldl | intro _)
    | split
    | exact wf_of_eq_pair ‹_› (by simp; assumption)
    | simp [*]

@[simp] theorem keepsMem_splitBody (a b : Reg) (d : BitVec 64) : KeepsMem (splitBody a b d) := by
  unfold splitBody
  repeat' first
    | with_reducible (first | assumption | apply keepsMem_viewBounds | apply keepsMem_raiseWiden | apply keepsMem_exactView | apply keepsMem_checkCounts | apply wf_cover | apply wf_writeCap | apply wf_onMe | apply keepsMem_stop_done | apply keepsMem_set | apply keepsMem_map | apply KeepsMem.get_bind | apply KeepsMem.bind | apply KeepsMem.modify | apply wf_foldl | intro _)
    | split
    | exact wf_of_eq_pair ‹_› (by simp; assumption)
    | simp [*]

@[simp] theorem keepsMem_narrowBody (a b : Reg) (n : Nat) : KeepsMem (narrowBody a b n) := by
  unfold narrowBody
  repeat' first
    | with_reducible (first | assumption | apply keepsMem_viewBounds | apply keepsMem_raiseWiden | apply keepsMem_exactView | apply wf_uncover | apply wf_onMe | apply wf_writeCap | apply keepsMem_stop_done | apply keepsMem_set | apply keepsMem_map | apply KeepsMem.get_bind | apply KeepsMem.bind | apply KeepsMem.modify | apply wf_foldl | intro _)
    | split
    | exact wf_of_eq_pair ‹_› (by simp; assumption)
    | simp [*]

@[simp] theorem keepsMem_dropBody (b : Reg) : KeepsMem (dropBody b) := by
  unfold dropBody
  repeat' first
    | with_reducible (first | apply KeepsMem.get_bind | apply KeepsMem.bind | apply KeepsMem.modify | apply wf_foldl | intro _)
    | split
    | simp [*]

@[simp] theorem keepsMem_parkBody (k b : Reg) : KeepsMem (parkBody k b) := by
  unfold parkBody
  repeat' first
    | with_reducible (first | apply KeepsMem.get_bind | apply KeepsMem.bind | apply KeepsMem.modify | apply wf_foldl | intro _)
    | split
    | simp [*]

@[simp] theorem keepsMem_takeBody (a k : Reg) : KeepsMem (takeBody a k) := by
  unfold takeBody
  repeat' first
    | with_reducible (first | apply KeepsMem.get_bind | apply KeepsMem.bind | apply KeepsMem.modify | apply wf_foldl | intro _)
    | split
    | simp [*]

@[simp] theorem keepsMem_allocFails (a d : Reg) (status : Nat) : KeepsMem (allocFails a d status) := by
  unfold allocFails
  repeat' first
    | with_reducible (first | apply KeepsMem.get_bind | apply KeepsMem.bind | apply KeepsMem.modify | apply wf_foldl | intro _)
    | split
    | simp [*]

@[simp] theorem keepsMem_allocBody (a d : Reg) (n : Nat) : KeepsMem (allocBody a d n) := by
  unfold allocBody
  repeat' first
    | with_reducible (first | apply KeepsMem.get_bind | apply KeepsMem.bind | apply KeepsMem.modify | apply wf_foldl | intro _)
    | split
    | simp [*]

@[simp] theorem keepsMem_raiseDesc {α : Type} (n : Nat) : KeepsMem (raiseDesc n : Act α) := by
  unfold raiseDesc
  repeat' first
    | with_reducible (first | apply KeepsMem.get_bind | apply KeepsMem.bind | apply KeepsMem.modify | apply wf_foldl | intro _)
    | split
    | simp [*]

@[simp] theorem keepsMem_needDesc (n : Nat) (ok : Desc → Bool) : KeepsMem (needDesc n ok) := by
  unfold needDesc
  repeat' first
    | with_reducible (first | apply KeepsMem.get_bind | apply KeepsMem.bind | apply KeepsMem.modify | apply wf_foldl | intro _)
    | split
    | simp [*]

@[simp] theorem keepsMem_readThrough (c : Cap) (va n : Nat) : KeepsMem (readThrough c va n) := by
  unfold readThrough
  repeat' first
    | with_reducible (first | apply KeepsMem.get_bind | apply KeepsMem.bind | apply KeepsMem.modify | apply wf_foldl | intro _)
    | split
    | simp [*]

@[simp] theorem keepsMem_readElement (d : Desc) (p : Pos) : KeepsMem (readElement d p) := by
  unfold readElement
  repeat' first
    | with_reducible (first | apply KeepsMem.get_bind | apply KeepsMem.bind | apply KeepsMem.modify | apply wf_foldl | intro _)
    | split
    | simp [*]

@[simp] theorem keepsMem_readScale (d : Desc) (p : Pos) : KeepsMem (readScale d p) := by
  unfold readScale
  repeat' first
    | with_reducible (first | apply KeepsMem.get_bind | apply KeepsMem.bind | apply KeepsMem.modify | apply wf_foldl | intro _)
    | split
    | simp [*]

@[simp] theorem keepsMem_readElements (d : Desc) (p : Pos) (n : Nat) : KeepsMem (readElements d p n) := by
  induction n generalizing p with
  | zero => exact keepsMem_pure _
  | succ n ih =>
    unfold readElements
    split
    · exact .bind (.bind (by simp) fun _ => by simp) fun _ => .bind (ih _) fun _ => by simp
    · exact .bind (by simp) fun _ => .bind (ih _) fun _ => by simp

@[simp] theorem keepsMem_lookBody (a b : Reg) : KeepsMem (lookBody a b) := by
  unfold lookBody
  repeat' first
    | with_reducible (first | apply KeepsMem.get_bind | apply KeepsMem.bind | apply KeepsMem.modify | apply wf_foldl | intro _)
    | split
    | simp [*]

@[simp] theorem keepsMem_fillBody (b c : Reg) (i : Nat) : KeepsMem (fillBody b c i) := by
  unfold fillBody
  repeat' first
    | with_reducible (first | apply KeepsMem.get_bind | apply KeepsMem.bind | apply KeepsMem.modify | apply wf_foldl | intro _)
    | split
    | simp [*]

@[simp] theorem keepsMem_takePage (dom : Nat) : KeepsMem (takePage dom) := by
  unfold takePage
  repeat' first
    | with_reducible (first | apply KeepsMem.get_bind | apply KeepsMem.bind | apply KeepsMem.modify | apply wf_foldl | intro _)
    | split
    | simp [*]

@[simp] theorem wf_forgetBlock (s : State) (team : Option Nat) (seq l b : Nat) (hs : s.memory.wf = true) : (forgetBlock s team seq l b).memory.wf = true := by
  unfold forgetBlock
  repeat' first
    | with_reducible (first | apply KeepsMem.get_bind | apply KeepsMem.bind | apply KeepsMem.modify | apply wf_foldl | intro _)
    | split
    | simp [*]

@[simp] theorem keepsMem_copyOnWrite (a : Actor) (dom slot : Nat) (r : Rec) (l b old : Nat) : KeepsMem (copyOnWrite a dom slot r l b old) := by
  unfold copyOnWrite
  repeat' first
    | with_reducible (first | apply KeepsMem.get_bind | apply KeepsMem.bind | apply KeepsMem.modify | apply wf_foldl | intro _)
    | split
    | simp [*]

@[simp] theorem keepsMem_pageForAppend (a : Actor) (dom slot : Nat) (r : Rec) (l b : Nat) (hit : Option Cap) :
    KeepsMem (pageForAppend a dom slot r l b hit) := by
  have rest : ∀ e : Cap, KeepsMem (do
      let s ← get
      let shared := match entryPage s dom e with
        | some i => kvCount (domainOf s dom) i > 1
        | none => false
      if (isNull e || shared) && r.q == 0 then pure .exhausted
      else if isNull e then
        let page ← takePage dom
        writeMap a r l b (pageCap page)
        pure (.at 1 page true)
      else if shared then
        let page ← copyOnWrite a dom slot r l b (pageOfEntry e)
        pure (.at 2 page true)
      else pure (.at 0 (pageOfEntry e) false) : Act Append) := by
    intro e
    refine .get_bind fun s hs => ?_
    exact .ite (by simp) (.ite (.bind (by simp) fun _ => .bind (by simp) fun _ => by simp)
      (.ite (.bind (by simp) fun _ => by simp) (by simp)))
  unfold pageForAppend
  cases hit with
  | some c => exact .bind (keepsMem_pure _) rest
  | none => exact .bind (by simp) rest

@[simp] theorem keepsMem_holdRow (a : Actor) (dom slot : Nat) (r : Rec) (l p w : Nat) (kRow vRow : List Byte) : KeepsMem (holdRow a dom slot r l p w kRow vRow) := by
  unfold holdRow
  repeat' first
    | with_reducible (first | apply KeepsMem.get_bind | apply KeepsMem.bind | apply KeepsMem.modify | apply wf_foldl | intro _)
    | split
    | simp [*]

@[simp] theorem keepsMem_writeRows (a : Actor) (page p w : Nat) (kRow vRow : List Byte) : KeepsMem (writeRows a page p w kRow vRow) := by
  unfold writeRows
  repeat' first
    | with_reducible (first | apply KeepsMem.get_bind | apply KeepsMem.bind | apply KeepsMem.modify | apply wf_foldl | intro _)
    | split
    | simp [*]

@[simp] theorem wf_countStale (s : State) (hs : s.memory.wf = true) : (countStale s).memory.wf = true := by
  unfold countStale
  repeat' first
    | with_reducible (first | apply KeepsMem.get_bind | apply KeepsMem.bind | apply KeepsMem.modify | apply wf_foldl | intro _)
    | split
    | simp [*]

@[simp] theorem keepsMem_appendRows (key : Key) (keyBits : BitVec 128) (p w : Nat) (kRow vRow : List Byte) : KeepsMem (appendRows key keyBits p w kRow vRow) := by
  unfold appendRows
  repeat' first
    | with_reducible (first | assumption | apply wf_countStale | apply keepsMem_readRecord | apply keepsMem_holdRow | apply keepsMem_pageForAppend | apply keepsMem_writeRows | apply keepsMem_writeRecord | apply keepsMem_stop_done | apply keepsMem_set | apply keepsMem_map | apply KeepsMem.get_bind | apply KeepsMem.bind | apply KeepsMem.modify | apply wf_foldl | intro _)
    | split
    | exact wf_of_eq_pair ‹_› (by simp; assumption)
    | simp [*]

@[simp] theorem keepsMem_checkRun (first : Nat) (l : List Nat) :
    KeepsMem (checkRun first l) := by
  induction l with
  | nil =>
    unfold checkRun
    repeat' first
      | with_reducible (first | assumption | apply keepsMem_checkV | apply keepsMem_stop_done | apply keepsMem_set | apply keepsMem_map | apply KeepsMem.get_bind | apply KeepsMem.bind | apply KeepsMem.modify | apply wf_foldl | intro _)
      | split
      | exact wf_of_eq_pair ‹_› (by simp; assumption)
      | simp [*]
  | cons p rest ih =>
    unfold checkRun
    repeat' first
      | with_reducible (first | assumption | apply keepsMem_checkV | apply keepsMem_stop_done | apply keepsMem_set | apply keepsMem_map | apply KeepsMem.get_bind | apply KeepsMem.bind | apply KeepsMem.modify | apply wf_foldl | intro _)
      | split
      | exact wf_of_eq_pair ‹_› (by simp; assumption)
      | simp [*]

@[simp] theorem keepsMem_kvAppBody (a b c d e : Reg) (n : Nat) : KeepsMem (kvAppBody a b c d e n) := by
  unfold kvAppBody
  repeat' first
    | with_reducible (first | apply KeepsMem.get_bind | apply KeepsMem.bind | apply KeepsMem.modify | apply wf_foldl | intro _)
    | split
    | simp [*]

@[simp] theorem wf_setTree (s : State) (t : Cairn) (hs : s.memory.wf = true) : (setTree s t).memory.wf = true := by
  unfold setTree
  repeat' first
    | with_reducible (first | apply KeepsMem.get_bind | apply KeepsMem.bind | apply KeepsMem.modify | apply wf_foldl | intro _)
    | split
    | simp [*]

@[simp] theorem keepsMem_readTokens (c : Reg) (n : Nat) : KeepsMem (readTokens c n) := by
  unfold readTokens
  repeat' first
    | with_reducible (first | apply KeepsMem.get_bind | apply KeepsMem.bind | apply KeepsMem.modify | apply wf_foldl | intro _)
    | split
    | simp [*]

@[simp] theorem keepsMem_wholeKey (bits : Nat) : KeepsMem (wholeKey bits) := by
  unfold wholeKey
  repeat' first
    | with_reducible (first | apply KeepsMem.get_bind | apply KeepsMem.bind | apply KeepsMem.modify | apply wf_foldl | intro _)
    | split
    | simp [*]

@[simp] theorem keepsMem_sequenceKey (b : Reg) : KeepsMem (sequenceKey b) := by
  unfold sequenceKey
  repeat' first
    | with_reducible (first | apply KeepsMem.get_bind | apply KeepsMem.bind | apply KeepsMem.modify | apply wf_foldl | intro _)
    | split
    | simp [*]

@[simp] theorem keepsMem_sequenceRecord (key : Key) : KeepsMem (sequenceRecord key) := by
  unfold sequenceRecord
  repeat' first
    | with_reducible (first | apply KeepsMem.get_bind | apply KeepsMem.bind | apply KeepsMem.modify | apply wf_foldl | intro _)
    | split
    | simp [*]

@[simp] theorem wf_raisePages (s : State) (dom : Nat) (pages : List Nat) (hs : s.memory.wf = true) : (raisePages s dom pages).memory.wf = true := by
  unfold raisePages
  repeat' first
    | with_reducible (first | apply KeepsMem.get_bind | apply KeepsMem.bind | apply KeepsMem.modify | apply wf_foldl | intro _)
    | split
    | simp [*]

@[simp] theorem wf_lowerPages (s : State) (dom : Nat) (pages : List Nat) (hs : s.memory.wf = true) : (lowerPages s dom pages).memory.wf = true := by
  unfold lowerPages
  repeat' first
    | with_reducible (first | apply KeepsMem.get_bind | apply KeepsMem.bind | apply KeepsMem.modify | apply wf_foldl | intro _)
    | split
    | simp [*]

@[simp] theorem keepsMem_writeBlock (a : Actor) (r : Rec) (b l : Nat) (ps : List Nat) : KeepsMem (writeBlock a r b l ps) := by
  induction ps generalizing l with
  | nil => exact keepsMem_pure _
  | cons p rest ih => exact .bind (by simp) fun _ => ih _

@[simp] theorem keepsMem_writeBlocks (a : Actor) (r : Rec) (b : Nat) (pss : List (List Nat)) :
    KeepsMem (writeBlocks a r b pss) := by
  induction pss generalizing b with
  | nil => exact keepsMem_pure _
  | cons p rest ih => exact .bind (by simp) fun _ => ih _

@[simp] theorem keepsMem_cairnMatch (t : Cairn) (key : Key) (r : Rec) (toks : List (BitVec 32)) : KeepsMem (cairnMatch t key r toks) := by
  unfold cairnMatch
  repeat' first
    | with_reducible (first | apply KeepsMem.get_bind | apply KeepsMem.bind | apply KeepsMem.modify | apply wf_foldl | intro _)
    | split
    | simp [*]

@[simp] theorem keepsMem_cairnLookBody (a b c d : Reg) : KeepsMem (cairnLookBody a b c d) := by
  unfold cairnLookBody
  repeat' first
    | with_reducible (first | apply KeepsMem.get_bind | apply KeepsMem.bind | apply KeepsMem.modify | apply wf_foldl | intro _)
    | split
    | simp [*]

@[simp] theorem keepsMem_blockPages (a : Actor) (r : Rec) (b : Nat) (l : List Nat) :
    KeepsMem (blockPages a r b l) := by
  induction l with
  | nil =>
    unfold blockPages
    repeat' first
      | with_reducible (first | assumption | apply keepsMem_readMap | apply keepsMem_stop_done | apply keepsMem_set | apply keepsMem_map | apply KeepsMem.get_bind | apply KeepsMem.bind | apply KeepsMem.modify | apply wf_foldl | intro _)
      | split
      | exact wf_of_eq_pair ‹_› (by simp; assumption)
      | simp [*]
  | cons p rest ih =>
    unfold blockPages
    repeat' first
      | with_reducible (first | assumption | apply keepsMem_readMap | apply keepsMem_stop_done | apply keepsMem_set | apply keepsMem_map | apply KeepsMem.get_bind | apply KeepsMem.bind | apply KeepsMem.modify | apply wf_foldl | intro _)
      | split
      | exact wf_of_eq_pair ‹_› (by simp; assumption)
      | simp [*]

@[simp] theorem keepsMem_newNodes (a : Actor) (t : Cairn) (r : Rec) (toks : List (BitVec 32)) (l : List Nat) :
    KeepsMem (newNodes a t r toks l) := by
  induction l with
  | nil =>
    unfold newNodes
    repeat' first
      | with_reducible (first | assumption | apply keepsMem_blockPages | apply keepsMem_stop_done | apply keepsMem_set | apply keepsMem_map | apply KeepsMem.get_bind | apply KeepsMem.bind | apply KeepsMem.modify | apply wf_foldl | intro _)
      | split
      | exact wf_of_eq_pair ‹_› (by simp; assumption)
      | simp [*]
  | cons p rest ih =>
    unfold newNodes
    repeat' first
      | with_reducible (first | assumption | apply keepsMem_blockPages | apply keepsMem_stop_done | apply keepsMem_set | apply keepsMem_map | apply KeepsMem.get_bind | apply KeepsMem.bind | apply KeepsMem.modify | apply wf_foldl | intro _)
      | split
      | exact wf_of_eq_pair ‹_› (by simp; assumption)
      | simp [*]

@[simp] theorem keepsMem_cairnInsert (t : Cairn) (r : Rec) (toks : List (BitVec 32)) (blocks : Nat) : KeepsMem (cairnInsert t r toks blocks) := by
  unfold cairnInsert
  repeat' first
    | with_reducible (first | assumption | apply keepsMem_newNodes | apply wf_raisePages | apply wf_setTree | apply keepsMem_stop_done | apply keepsMem_set | apply keepsMem_map | apply KeepsMem.get_bind | apply KeepsMem.bind | apply KeepsMem.modify | apply wf_foldl | intro _)
    | split
    | exact wf_of_eq_pair ‹_› (by simp; assumption)
    | simp [*]

@[simp] theorem keepsMem_cairnInsBody (a b c d : Reg) : KeepsMem (cairnInsBody a b c d) := by
  unfold cairnInsBody
  repeat' first
    | with_reducible (first | apply KeepsMem.get_bind | apply KeepsMem.bind | apply KeepsMem.modify | apply wf_foldl | intro _)
    | split
    | simp [*]

@[simp] theorem keepsMem_cairnRelease (t : Cairn) (toks : List (BitVec 32)) : KeepsMem (cairnRelease t toks) := by
  unfold cairnRelease
  repeat' first
    | with_reducible (first | apply KeepsMem.get_bind | apply KeepsMem.bind | apply KeepsMem.modify | apply wf_foldl | intro _)
    | split
    | simp [*]

@[simp] theorem keepsMem_cairnRelBody (a c d : Reg) : KeepsMem (cairnRelBody a c d) := by
  unfold cairnRelBody
  repeat' first
    | with_reducible (first | apply KeepsMem.get_bind | apply KeepsMem.bind | apply KeepsMem.modify | apply wf_foldl | intro _)
    | split
    | simp [*]

@[simp] theorem keepsMem_reserve (key : Key) (r : Rec) (lp ln x : Nat) : KeepsMem (reserve key r lp ln x) := by
  unfold reserve
  repeat' first
    | with_reducible (first | apply KeepsMem.get_bind | apply KeepsMem.bind | apply KeepsMem.modify | apply wf_foldl | intro _)
    | split
    | simp [*]

@[simp] theorem keepsMem_admRsvBody (a b c d : Reg) : KeepsMem (admRsvBody a b c d) := by
  unfold admRsvBody
  repeat' first
    | with_reducible (first | apply KeepsMem.get_bind | apply KeepsMem.bind | apply KeepsMem.modify | apply wf_foldl | intro _)
    | split
    | simp [*]

@[simp] theorem keepsMem_admEndBody (a b : Reg) : KeepsMem (admEndBody a b) := by
  unfold admEndBody
  repeat' first
    | with_reducible (first | apply KeepsMem.get_bind | apply KeepsMem.bind | apply KeepsMem.modify | apply wf_foldl | intro _)
    | split
    | simp [*]

@[simp] theorem keepsMem_runDraws {α : Type} (m : Draws α) : KeepsMem (runDraws m : Act α) := by
  unfold runDraws
  repeat' first
    | with_reducible (first | apply KeepsMem.get_bind | apply KeepsMem.bind | apply KeepsMem.modify | apply wf_foldl | intro _)
    | split
    | simp [*]

@[simp] theorem keepsMem_elementwise (w a : Nat) (mask : BitVec 64) (f : Nat → Draws Nat) : KeepsMem (elementwise w a mask f) := by
  unfold elementwise
  repeat' first
    | with_reducible (first | apply KeepsMem.get_bind | apply KeepsMem.bind | apply KeepsMem.modify | apply wf_foldl | intro _)
    | split
    | simp [*]

@[simp] theorem keepsMem_regA (a : Reg) (x : Index) : KeepsMem (regA a x) := by
  unfold regA
  repeat' first
    | with_reducible (first | apply KeepsMem.get_bind | apply KeepsMem.bind | apply KeepsMem.modify | apply wf_foldl | intro _)
    | split
    | simp [*]

@[simp] theorem keepsMem_regB (b : Reg) (x : Index) : KeepsMem (regB b x) := by
  unfold regB
  repeat' first
    | with_reducible (first | apply KeepsMem.get_bind | apply KeepsMem.bind | apply KeepsMem.modify | apply wf_foldl | intro _)
    | split
    | simp [*]

@[simp] theorem keepsMem_regC (c : Reg) (x : Index) : KeepsMem (regC c x) := by
  unfold regC
  repeat' first
    | with_reducible (first | apply KeepsMem.get_bind | apply KeepsMem.bind | apply KeepsMem.modify | apply wf_foldl | intro _)
    | split
    | simp [*]

@[simp] theorem keepsMem_binaryBody (a b c : Reg) (x : VecX) (op : ElemOp) : KeepsMem (binaryBody a b c x op) := by
  unfold binaryBody
  repeat' first
    | with_reducible (first | apply KeepsMem.get_bind | apply KeepsMem.bind | apply KeepsMem.modify | apply wf_foldl | intro _)
    | split
    | simp [*]

@[simp] theorem keepsMem_unaryBody (a b : Reg) (x : VecX) (op : ElemOp) : KeepsMem (unaryBody a b x op) := by
  unfold unaryBody
  repeat' first
    | with_reducible (first | apply KeepsMem.get_bind | apply KeepsMem.bind | apply KeepsMem.modify | apply wf_foldl | intro _)
    | split
    | simp [*]

@[simp] theorem keepsMem_vaddcBody (a b : Reg) (x : VecX) : KeepsMem (vaddcBody a b x) := by
  unfold vaddcBody
  repeat' first
    | with_reducible (first | apply KeepsMem.get_bind | apply KeepsMem.bind | apply KeepsMem.modify | apply wf_foldl | intro _)
    | split
    | simp [*]

@[simp] theorem keepsMem_vselBody (a b c : Reg) (x : VecX) : KeepsMem (vselBody a b c x) := by
  unfold vselBody
  refine .bind (by simp) fun a => .bind (by simp) fun b => .bind (by simp) fun c => ?_
  with_reducible refine .get_bind fun s _ => ?_
  with_reducible exact keepsMem_elementwise _ _ _ _

@[simp] theorem keepsMem_vdotBody (a b c : Reg) (x : VecX) : KeepsMem (vdotBody a b c x) := by
  unfold vdotBody
  repeat' first
    | with_reducible (first | apply KeepsMem.get_bind | apply KeepsMem.bind | apply KeepsMem.modify | apply wf_foldl | intro _)
    | split
    | simp [*]

@[simp] theorem keepsMem_vcvtBody (a b : Reg) (part : Nat) (src : Fmt) (x : VecX) : KeepsMem (vcvtBody a b part src x) := by
  unfold vcvtBody
  repeat' first
    | with_reducible (first | apply KeepsMem.get_bind | apply KeepsMem.bind | apply KeepsMem.modify | apply wf_foldl | intro _)
    | split
    | simp [*]

@[simp] theorem wf_putScales (d : Nat) (w first : Nat) (s0 s1 : Nat) (s : State) (hs : s.memory.wf = true) : (putScales d w first s0 s1 s).memory.wf = true := by
  unfold putScales
  repeat' first
    | with_reducible (first | apply KeepsMem.get_bind | apply KeepsMem.bind | apply KeepsMem.modify | apply wf_foldl | intro _)
    | split
    | simp [*]

@[simp] theorem keepsMem_vpackBody (a d b : Reg) (kind : PackKind) (part : Nat) (x : VecX) : KeepsMem (vpackBody a d b kind part x) := by
  unfold vpackBody
  repeat' first
    | with_reducible (first | apply KeepsMem.get_bind | apply KeepsMem.bind | apply KeepsMem.modify | apply wf_foldl | intro _)
    | split
    | simp [*]

@[simp] theorem keepsMem_vunpkBody (a d b : Reg) (kind : PackKind) (part : Nat) (x : VecX) : KeepsMem (vunpkBody a d b kind part x) := by
  unfold vunpkBody
  repeat' first
    | with_reducible (first | apply KeepsMem.get_bind | apply KeepsMem.bind | apply KeepsMem.modify | apply wf_foldl | intro _)
    | split
    | simp [*]

@[simp] theorem keepsMem_vbcastBody (a b c : Reg) (imm : BitVec 24) (x : VecX) : KeepsMem (vbcastBody a b c imm x) := by
  unfold vbcastBody
  repeat' first
    | with_reducible (first | apply KeepsMem.get_bind | apply KeepsMem.bind | apply KeepsMem.modify | apply wf_foldl | intro _)
    | split
    | simp [*]

@[simp] theorem keepsMem_vpermBody (a b c : Reg) (x : VecX) : KeepsMem (vpermBody a b c x) := by
  unfold vpermBody
  repeat' first
    | with_reducible (first | apply KeepsMem.get_bind | apply KeepsMem.bind | apply KeepsMem.modify | apply wf_foldl | intro _)
    | split
    | simp [*]

@[simp] theorem keepsMem_splatBody (a : Reg) (v : BitVec 64) (x : VecX) : KeepsMem (splatBody a v x) := by
  unfold splatBody
  repeat' first
    | with_reducible (first | apply KeepsMem.get_bind | apply KeepsMem.bind | apply KeepsMem.modify | apply wf_foldl | intro _)
    | split
    | simp [*]

@[simp] theorem keepsMem_vinsBody (a b c : Reg) (imm : BitVec 24) (x : VecX) : KeepsMem (vinsBody a b c imm x) := by
  unfold vinsBody
  repeat' first
    | with_reducible (first | apply KeepsMem.get_bind | apply KeepsMem.bind | apply KeepsMem.modify | apply wf_foldl | intro _)
    | split
    | simp [*]

@[simp] theorem keepsMem_vextBody (a b c : Reg) (imm : BitVec 24) (x : VecX) : KeepsMem (vextBody a b c imm x) := by
  unfold vextBody
  repeat' first
    | with_reducible (first | apply KeepsMem.get_bind | apply KeepsMem.bind | apply KeepsMem.modify | apply wf_foldl | intro _)
    | split
    | simp [*]

@[simp] theorem keepsMem_vidxBody (a b : Reg) (imm : BitVec 24) (x : VecX) : KeepsMem (vidxBody a b imm x) := by
  unfold vidxBody
  repeat' first
    | with_reducible (first | apply KeepsMem.get_bind | apply KeepsMem.bind | apply KeepsMem.modify | apply wf_foldl | intro _)
    | split
    | simp [*]

@[simp] theorem keepsMem_vrandBody (a : Reg) (x : VecX) : KeepsMem (vrandBody a x) := by
  unfold vrandBody
  repeat' first
    | with_reducible (first | apply KeepsMem.get_bind | apply KeepsMem.bind | apply KeepsMem.modify | apply wf_foldl | intro _)
    | split
    | simp [*]

@[simp] theorem keepsMem_vkeepBody (a b c : Reg) (x : VecX) : KeepsMem (vkeepBody a b c x) := by
  unfold vkeepBody
  repeat' first
    | with_reducible (first | apply KeepsMem.get_bind | apply KeepsMem.bind | apply KeepsMem.modify | apply wf_foldl | intro _)
    | split
    | simp [*]

@[simp] theorem keepsMem_vphxBody (a b c : Reg) (word : Nat) (imm : BitVec 24) (x : VecX) : KeepsMem (vphxBody a b c word imm x) := by
  unfold vphxBody
  repeat' first
    | with_reducible (first | apply KeepsMem.get_bind | apply KeepsMem.bind | apply KeepsMem.modify | apply wf_foldl | intro _)
    | split
    | simp [*]

@[simp] theorem keepsMem_vropeBody (a b c d : Reg) (half : Bool) (x : VecX) : KeepsMem (vropeBody a b c d half x) := by
  unfold vropeBody
  repeat' first
    | with_reducible (first | apply KeepsMem.get_bind | apply KeepsMem.bind | apply KeepsMem.modify | apply wf_foldl | intro _)
    | split
    | simp [*]

@[simp] theorem keepsMem_vcmpBody (a b c : Reg) (cond : CmpCond) (x : VecX) : KeepsMem (vcmpBody a b c cond x) := by
  unfold vcmpBody
  repeat' first
    | with_reducible (first | apply KeepsMem.get_bind | apply KeepsMem.bind | apply KeepsMem.modify | apply wf_foldl | intro _)
    | split
    | simp [*]

@[simp] theorem keepsMem_vredBody (a b : Reg) (op : RedOp) (x : VecX) : KeepsMem (vredBody a b op x) := by
  unfold vredBody
  repeat' first
    | with_reducible (first | apply KeepsMem.get_bind | apply KeepsMem.bind | apply KeepsMem.modify | apply wf_foldl | intro _)
    | split
    | simp [*]

@[simp] theorem keepsMem_vscanBody (a b c d : Reg) (op : ScanOp) (x : VecX) : KeepsMem (vscanBody a b c d op x) := by
  unfold vscanBody
  repeat' first
    | with_reducible (first | apply KeepsMem.get_bind | apply KeepsMem.bind | apply KeepsMem.modify | apply wf_foldl | intro _)
    | split
    | simp [*]

@[simp] theorem wf_putPairs (v i : Nat) (ps : List SortPair) (s : State) (hs : s.memory.wf = true) : (putPairs v i ps s).memory.wf = true := by
  unfold putPairs
  repeat' first
    | with_reducible (first | apply KeepsMem.get_bind | apply KeepsMem.bind | apply KeepsMem.modify | apply wf_foldl | intro _)
    | split
    | simp [*]

@[simp] theorem keepsMem_vsortBody (a b : Reg) (desc : Bool) (x : VecX) : KeepsMem (vsortBody a b desc x) := by
  unfold vsortBody
  repeat' first
    | with_reducible (first | apply KeepsMem.get_bind | apply KeepsMem.bind | apply KeepsMem.modify | apply wf_foldl | intro _)
    | split
    | simp [*]

@[simp] theorem keepsMem_vmergeBody (a b c d : Reg) (desc : Bool) (x : VecX) : KeepsMem (vmergeBody a b c d desc x) := by
  unfold vmergeBody
  repeat' first
    | with_reducible (first | assumption | apply keepsMem_regA | apply keepsMem_regB | apply keepsMem_regC | apply keepsMem_checkV | apply wf_putPairs | apply keepsMem_stop_done | apply keepsMem_set | apply keepsMem_map | apply KeepsMem.get_bind | apply KeepsMem.bind | apply KeepsMem.modify | apply wf_foldl | intro _)
    | split
    | exact wf_of_eq_pair ‹_› (by simp; assumption)
    | simp [*]

end Sys2Proof.Machine
end

section
namespace Sys2Proof.Machine

@[simp] theorem keepsMem_indexA (a : Reg) (x : Index) : KeepsMem (indexA a x) := by
  unfold indexA
  repeat' first
    | with_reducible (first | apply KeepsMem.get_bind | apply KeepsMem.bind | apply KeepsMem.modify | apply wf_foldl | intro _)
    | split
    | simp [*]

@[simp] theorem keepsMem_indexB (b : Reg) (x : Index) : KeepsMem (indexB b x) := by
  unfold indexB
  repeat' first
    | with_reducible (first | apply KeepsMem.get_bind | apply KeepsMem.bind | apply KeepsMem.modify | apply wf_foldl | intro _)
    | split
    | simp [*]

@[simp] theorem keepsMem_indexC (c : Reg) (x : Index) : KeepsMem (indexC c x) := by
  unfold indexC
  repeat' first
    | with_reducible (first | apply KeepsMem.get_bind | apply KeepsMem.bind | apply KeepsMem.modify | apply wf_foldl | intro _)
    | split
    | simp [*]

@[simp] theorem keepsMem_raiseVariance {α : Type} (lane : Nat) : KeepsMem (raiseVariance lane : Act α) := by
  unfold raiseVariance
  repeat' first
    | with_reducible (first | apply KeepsMem.get_bind | apply KeepsMem.bind | apply KeepsMem.modify | apply wf_foldl | intro _)
    | split
    | simp [*]

@[simp] theorem keepsMem_pairwise (a : Nat) (mask : BitVec 64) (f : Nat → Mom Pair) : KeepsMem (pairwise a mask f) := by
  unfold pairwise
  repeat' first
    | with_reducible (first | assumption | apply keepsMem_raiseVariance | apply wf_setClamped | apply wf_putE | apply keepsMem_stop_done | apply keepsMem_set | apply keepsMem_map | apply KeepsMem.get_bind | apply KeepsMem.bind | apply KeepsMem.modify | apply wf_foldl | intro _)
    | split
    | exact wf_of_eq_pair ‹_› (by simp; assumption)
    | simp [*]

@[simp] theorem keepsMem_momentBody (a b : Reg) (x : VecX) (f : MomentMode → Number → Number → Number × Number) : KeepsMem (momentBody a b x f) := by
  unfold momentBody
  repeat' first
    | with_reducible (first | apply KeepsMem.get_bind | apply KeepsMem.bind | apply KeepsMem.modify | apply wf_foldl | intro _)
    | split
    | simp [*]

@[simp] theorem keepsMem_momentsBody (a b c : Reg) (x : VecX) (f : MomentMode → Number → Number → Number → Number → Number × Number) : KeepsMem (momentsBody a b c x f) := by
  unfold momentsBody
  repeat' first
    | with_reducible (first | apply KeepsMem.get_bind | apply KeepsMem.bind | apply KeepsMem.modify | apply wf_foldl | intro _)
    | split
    | simp [*]

@[simp] theorem keepsMem_maddBody (a b c d : Reg) (sub : Bool) (x : VecX) : KeepsMem (maddBody a b c d sub x) := by
  unfold maddBody
  repeat' first
    | with_reducible (first | apply KeepsMem.get_bind | apply KeepsMem.bind | apply KeepsMem.modify | apply wf_foldl | intro _)
    | split
    | simp [*]

@[simp] theorem keepsMem_msclBody (a b c : Reg) (x : VecX) : KeepsMem (msclBody a b c x) := by
  unfold msclBody
  repeat' first
    | with_reducible (first | apply KeepsMem.get_bind | apply KeepsMem.bind | apply KeepsMem.modify | apply wf_foldl | intro _)
    | split
    | simp [*]

@[simp] theorem keepsMem_mmovBody (a b : Reg) (x : VecX) : KeepsMem (mmovBody a b x) := by
  unfold mmovBody
  repeat' first
    | with_reducible (first | apply KeepsMem.get_bind | apply KeepsMem.bind | apply KeepsMem.modify | apply wf_foldl | intro _)
    | split
    | simp [*]

@[simp] theorem keepsMem_mfromBody (a b c : Reg) (x : VecX) : KeepsMem (mfromBody a b c x) := by
  unfold mfromBody
  repeat' first
    | with_reducible (first | apply KeepsMem.get_bind | apply KeepsMem.bind | apply KeepsMem.modify | apply wf_foldl | intro _)
    | split
    | simp [*]

@[simp] theorem keepsMem_mcollBody (a b c : Reg) (form : CollForm) (half : Bool) (x : VecX) : KeepsMem (mcollBody a b c form half x) := by
  unfold mcollBody
  repeat' first
    | with_reducible (first | apply KeepsMem.get_bind | apply KeepsMem.bind | apply KeepsMem.modify | apply wf_foldl | intro _)
    | split
    | simp [*]

@[simp] theorem keepsMem_needMain (r : Raw) : KeepsMem (needMain r) := by
  unfold needMain
  repeat' first
    | with_reducible (first | apply KeepsMem.get_bind | apply KeepsMem.bind | apply KeepsMem.modify | apply wf_foldl | intro _)
    | split
    | simp [*]

@[simp] theorem keepsMem_checkElements (d : Desc) (perm : Nat) (l : List Pos) :
    KeepsMem (checkElements d perm l) := by
  induction l with
  | nil =>
    unfold checkElements
    repeat' first
      | with_reducible (first | assumption | apply keepsMem_checked | apply keepsMem_stop_done | apply keepsMem_set | apply keepsMem_map | apply KeepsMem.get_bind | apply KeepsMem.bind | apply KeepsMem.modify | apply wf_foldl | intro _)
      | split
      | exact wf_of_eq_pair ‹_› (by simp; assumption)
      | simp [*]
  | cons p rest ih =>
    unfold checkElements
    repeat' first
      | with_reducible (first | assumption | apply keepsMem_checked | apply keepsMem_stop_done | apply keepsMem_set | apply keepsMem_map | apply KeepsMem.get_bind | apply KeepsMem.bind | apply KeepsMem.modify | apply wf_foldl | intro _)
      | split
      | exact wf_of_eq_pair ‹_› (by simp; assumption)
      | simp [*]

@[simp] theorem keepsMem_checkScales (d : Desc) (perm : Nat) (l : List Pos) :
    KeepsMem (checkScales d perm l) := by
  induction l with
  | nil =>
    unfold checkScales
    repeat' first
      | with_reducible (first | assumption | apply keepsMem_checked | apply keepsMem_stop_done | apply keepsMem_set | apply keepsMem_map | apply KeepsMem.get_bind | apply KeepsMem.bind | apply KeepsMem.modify | apply wf_foldl | intro _)
      | split
      | exact wf_of_eq_pair ‹_› (by simp; assumption)
      | simp [*]
  | cons p rest ih =>
    unfold checkScales
    repeat' first
      | with_reducible (first | assumption | apply keepsMem_checked | apply keepsMem_stop_done | apply keepsMem_set | apply keepsMem_map | apply KeepsMem.get_bind | apply KeepsMem.bind | apply KeepsMem.modify | apply wf_foldl | intro _)
      | split
      | exact wf_of_eq_pair ‹_› (by simp; assumption)
      | simp [*]

@[simp] theorem keepsMem_Reads_check (r : Reads) : KeepsMem (Reads.check r) := by
  unfold Reads.check
  repeat' first
    | with_reducible (first | apply KeepsMem.get_bind | apply KeepsMem.bind | apply KeepsMem.modify | apply wf_foldl | intro _)
    | split
    | simp [*]

@[simp] theorem keepsMem_readScales (d : Desc) (l : List Pos) :
    KeepsMem (readScales d l) := by
  induction l with
  | nil =>
    unfold readScales
    repeat' first
      | with_reducible (first | assumption | apply keepsMem_readScale | apply keepsMem_stop_done | apply keepsMem_set | apply keepsMem_map | apply KeepsMem.get_bind | apply KeepsMem.bind | apply KeepsMem.modify | apply wf_foldl | intro _)
      | split
      | exact wf_of_eq_pair ‹_› (by simp; assumption)
      | simp [*]
  | cons p rest ih =>
    unfold readScales
    repeat' first
      | with_reducible (first | assumption | apply keepsMem_readScale | apply keepsMem_stop_done | apply keepsMem_set | apply keepsMem_map | apply KeepsMem.get_bind | apply KeepsMem.bind | apply KeepsMem.modify | apply wf_foldl | intro _)
      | split
      | exact wf_of_eq_pair ‹_› (by simp; assumption)
      | simp [*]

@[simp] theorem keepsMem_trapScales (n : Nat) (bad : List Nat) : KeepsMem (trapScales n bad) := by
  unfold trapScales
  repeat' first
    | with_reducible (first | apply KeepsMem.get_bind | apply KeepsMem.bind | apply KeepsMem.modify | apply wf_foldl | intro _)
    | split
    | simp [*]

@[simp] theorem keepsMem_readRow (d : Desc) (p : Pos) (k : Nat) : KeepsMem (readRow d p k) := by
  unfold readRow
  repeat' first
    | with_reducible (first | apply KeepsMem.get_bind | apply KeepsMem.bind | apply KeepsMem.modify | apply wf_foldl | intro _)
    | split
    | simp [*]

@[simp] theorem keepsMem_waitForJob (tile : Nat) (blocks : List Nat) : KeepsMem (waitForJob tile blocks) := by
  unfold waitForJob
  repeat' first
    | with_reducible (first | apply KeepsMem.get_bind | apply KeepsMem.bind | apply KeepsMem.modify | apply wf_foldl | intro _)
    | split
    | simp [*]

@[simp] theorem keepsMem_readColumns (d : Desc) (p : Pos) (k : Nat) (l : List Nat) :
    KeepsMem (readColumns d p k l) := by
  induction l with
  | nil =>
    unfold readColumns
    repeat' first
      | with_reducible (first | assumption | apply keepsMem_readRow | apply keepsMem_stop_done | apply keepsMem_set | apply keepsMem_map | apply KeepsMem.get_bind | apply KeepsMem.bind | apply KeepsMem.modify | apply wf_foldl | intro _)
      | split
      | exact wf_of_eq_pair ‹_› (by simp; assumption)
      | simp [*]
  | cons p rest ih =>
    unfold readColumns
    repeat' first
      | with_reducible (first | assumption | apply keepsMem_readRow | apply keepsMem_stop_done | apply keepsMem_set | apply keepsMem_map | apply KeepsMem.get_bind | apply KeepsMem.bind | apply KeepsMem.modify | apply wf_foldl | intro _)
      | split
      | exact wf_of_eq_pair ‹_› (by simp; assumption)
      | simp [*]

@[simp] theorem keepsMem_ldwReads (r : Raw) (n : Nat) (b c : Reg) : KeepsMem (ldwReads r n b c) := by
  unfold ldwReads
  repeat' first
    | with_reducible (first | apply KeepsMem.get_bind | apply KeepsMem.bind | apply KeepsMem.modify | apply wf_foldl | intro _)
    | split
    | simp [*]

@[simp] theorem keepsMem_mxLdwBody (r : Raw) (n : Nat) (b c : Reg) : KeepsMem (mxLdwBody r n b c) := by
  unfold mxLdwBody
  repeat' first
    | with_reducible (first | apply KeepsMem.get_bind | apply KeepsMem.bind | apply KeepsMem.modify | apply wf_foldl | intro _)
    | split
    | simp [*]

@[simp] theorem keepsMem_mxSwapBody (r : Raw) : KeepsMem (mxSwapBody r) := by
  unfold mxSwapBody
  repeat' first
    | with_reducible (first | apply KeepsMem.get_bind | apply KeepsMem.bind | apply KeepsMem.modify | apply wf_foldl | intro _)
    | split
    | simp [*]

@[simp] theorem keepsMem_mxSwapExtBody (r : Raw) (n ch : Nat) (waits : Bool) : KeepsMem (mxSwapExtBody r n ch waits) := by
  unfold mxSwapExtBody
  repeat' first
    | with_reducible (first | apply KeepsMem.get_bind | apply KeepsMem.bind | apply KeepsMem.modify | apply wf_foldl | intro _)
    | split
    | simp [*]

@[simp] theorem keepsMem_streamRows (w : Plane) (d : Desc) (p : Pos) (tile first : Nat) (z mo : Bool)
    (sx : Nat → Nat → Number) (i : Nat) (rows : List Nat) : KeepsMem (streamRows w d p tile first z mo sx i rows) := by
  induction rows generalizing i with
  | nil => exact keepsMem_pure _
  | cons r rest ih => exact .bind (by simp) fun _ => .bind (.modify fun _ h => h) fun _ => ih _

@[simp] theorem keepsMem_checkPlaneScales (w : Plane) (n : Nat) (rows : Bool) : KeepsMem (checkPlaneScales w n rows) := by
  unfold checkPlaneScales
  repeat' first
    | with_reducible (first | apply KeepsMem.get_bind | apply KeepsMem.bind | apply KeepsMem.modify | apply wf_foldl | intro _)
    | split
    | simp [*]

@[simp] theorem keepsMem_strReads (r : Raw) (b c : Reg) (n : Nat) (mo : Bool) (blk : Nat) : KeepsMem (strReads r b c n mo blk) := by
  unfold strReads
  repeat' first
    | with_reducible (first | apply KeepsMem.get_bind | apply KeepsMem.bind | apply KeepsMem.modify | apply wf_foldl | intro _)
    | split
    | simp [*]

@[simp] theorem keepsMem_mxStrBody (r : Raw) (a b c : Reg) (n : Nat) (z mo : Bool) (blk : Nat) : KeepsMem (mxStrBody r a b c n z mo blk) := by
  unfold mxStrBody
  repeat' first
    | with_reducible (first | apply KeepsMem.get_bind | apply KeepsMem.bind | apply KeepsMem.modify | apply wf_foldl | intro _)
    | split
    | simp [*]

@[simp] theorem keepsMem_readAt (d : Desc) (l : List Nat) :
    KeepsMem (readAt d l) := by
  induction l with
  | nil =>
    unfold readAt
    repeat' first
      | with_reducible (first | assumption | apply keepsMem_readElement | apply keepsMem_stop_done | apply keepsMem_set | apply keepsMem_map | apply KeepsMem.get_bind | apply KeepsMem.bind | apply KeepsMem.modify | apply wf_foldl | intro _)
      | split
      | exact wf_of_eq_pair ‹_› (by simp; assumption)
      | simp [*]
  | cons p rest ih =>
    unfold readAt
    repeat' first
      | with_reducible (first | assumption | apply keepsMem_readElement | apply keepsMem_stop_done | apply keepsMem_set | apply keepsMem_map | apply KeepsMem.get_bind | apply KeepsMem.bind | apply KeepsMem.modify | apply wf_foldl | intro _)
      | split
      | exact wf_of_eq_pair ‹_› (by simp; assumption)
      | simp [*]

@[simp] theorem keepsMem_sparseRows (w : Plane) (dn dm : Desc) (i0 tile first : Nat) (z : Bool) (l : List (Nat × Nat × Nat)) :
    KeepsMem (sparseRows w dn dm i0 tile first z l) := by
  induction l with
  | nil =>
    unfold sparseRows
    repeat' first
      | with_reducible (first | assumption | apply keepsMem_readAt | apply wf_onCore | apply keepsMem_stop_done | apply keepsMem_set | apply keepsMem_map | apply KeepsMem.get_bind | apply KeepsMem.bind | apply KeepsMem.modify | apply wf_foldl | intro _)
      | split
      | exact wf_of_eq_pair ‹_› (by simp; assumption)
      | simp [*]
  | cons p rest ih =>
    unfold sparseRows
    repeat' first
      | with_reducible (first | assumption | apply keepsMem_readAt | apply wf_onCore | apply keepsMem_stop_done | apply keepsMem_set | apply keepsMem_map | apply KeepsMem.get_bind | apply KeepsMem.bind | apply KeepsMem.modify | apply wf_foldl | intro _)
      | split
      | exact wf_of_eq_pair ‹_› (by simp; assumption)
      | simp [*]

@[simp] theorem keepsMem_gstrReads (r : Raw) (b : Reg) (n m q blk : Nat) : KeepsMem (gstrReads r b n m q blk) := by
  unfold gstrReads
  repeat' first
    | with_reducible (first | apply KeepsMem.get_bind | apply KeepsMem.bind | apply KeepsMem.modify | apply wf_foldl | intro _)
    | split
    | simp [*]

@[simp] theorem keepsMem_gstrPointers (q : Nat) (x : Sparse) : KeepsMem (gstrPointers q x) := by
  unfold gstrPointers
  repeat' first
    | with_reducible (first | apply KeepsMem.get_bind | apply KeepsMem.bind | apply KeepsMem.modify | apply wf_foldl | intro _)
    | split
    | simp [*]

@[simp] theorem keepsMem_mxGstrBody (r : Raw) (a b : Reg) (n m q : Nat) (z : Bool) (blk : Nat) : KeepsMem (mxGstrBody r a b n m q z blk) := by
  unfold mxGstrBody
  repeat' first
    | with_reducible (first | apply KeepsMem.get_bind | apply KeepsMem.bind | apply KeepsMem.modify | apply wf_foldl | intro _)
    | split
    | simp [*]

@[simp] theorem keepsMem_accRdBody (r : Raw) (a b c : Reg) : KeepsMem (accRdBody r a b c) := by
  unfold accRdBody
  repeat' first
    | with_reducible (first | assumption | apply keepsMem_needMain | apply keepsMem_checkV | apply keepsMem_takeTurn | apply wf_putV | apply keepsMem_stop_done | apply keepsMem_set | apply keepsMem_map | apply KeepsMem.get_bind | apply KeepsMem.bind | apply KeepsMem.modify | apply wf_foldl | intro _)
    | split
    | exact wf_of_eq_pair ‹_› (by simp; assumption)
    | simp [*]

@[simp] theorem keepsMem_accRdMoBody (r : Raw) (a b c : Reg) : KeepsMem (accRdMoBody r a b c) := by
  unfold accRdMoBody
  repeat' first
    | with_reducible (first | assumption | apply keepsMem_needMain | apply keepsMem_checkE | apply keepsMem_takeTurn | apply keepsMem_raiseVariance | apply wf_setClamped | apply wf_putE | apply keepsMem_stop_done | apply keepsMem_set | apply keepsMem_map | apply KeepsMem.get_bind | apply KeepsMem.bind | apply KeepsMem.modify | apply wf_foldl | intro _)
    | split
    | exact wf_of_eq_pair ‹_› (by simp; assumption)
    | simp [*]

@[simp] theorem keepsMem_accWrBody (r : Raw) (a b c : Reg) : KeepsMem (accWrBody r a b c) := by
  unfold accWrBody
  repeat' first
    | with_reducible (first | apply KeepsMem.get_bind | apply KeepsMem.bind | apply KeepsMem.modify | apply wf_foldl | intro _)
    | split
    | simp [*]

@[simp] theorem keepsMem_accWrMoBody (r : Raw) (a b c : Reg) : KeepsMem (accWrMoBody r a b c) := by
  unfold accWrMoBody
  repeat' first
    | with_reducible (first | apply KeepsMem.get_bind | apply KeepsMem.bind | apply KeepsMem.modify | apply wf_foldl | intro _)
    | split
    | simp [*]

@[simp] theorem keepsMem_accClrBody (r : Raw) (a : Reg) (mask : Nat) : KeepsMem (accClrBody r a mask) := by
  unfold accClrBody
  repeat' first
    | with_reducible (first | apply KeepsMem.get_bind | apply KeepsMem.bind | apply KeepsMem.modify | apply wf_foldl | intro _)
    | split
    | simp [*]

@[simp] theorem keepsMem_epLoadBody (r : Raw) (a b : Reg) : KeepsMem (epLoadBody r a b) := by
  unfold epLoadBody
  repeat' first
    | with_reducible (first | apply KeepsMem.get_bind | apply KeepsMem.bind | apply KeepsMem.modify | apply wf_foldl | intro _)
    | split
    | simp [*]

@[simp] theorem keepsMem_checkBiases (d : Reg) (bases : List Cap) (l : List (Nat × Nat)) :
    KeepsMem (checkBiases d bases l) := by
  induction l with
  | nil =>
    unfold checkBiases
    repeat' first
      | with_reducible (first | assumption | apply keepsMem_checked | apply keepsMem_stop_done | apply keepsMem_set | apply keepsMem_map | apply KeepsMem.get_bind | apply KeepsMem.bind | apply KeepsMem.modify | apply wf_foldl | intro _)
      | split
      | exact wf_of_eq_pair ‹_› (by simp; assumption)
      | simp [*]
  | cons p rest ih =>
    unfold checkBiases
    repeat' first
      | with_reducible (first | assumption | apply keepsMem_checked | apply keepsMem_stop_done | apply keepsMem_set | apply keepsMem_map | apply KeepsMem.get_bind | apply KeepsMem.bind | apply KeepsMem.modify | apply wf_foldl | intro _)
      | split
      | exact wf_of_eq_pair ‹_› (by simp; assumption)
      | simp [*]

@[simp] theorem keepsMem_epParameters (d : Reg) : KeepsMem (epParameters d) := by
  unfold epParameters
  repeat' first
    | with_reducible (first | apply KeepsMem.get_bind | apply KeepsMem.bind | apply KeepsMem.modify | apply wf_foldl | intro _)
    | split
    | simp [*]

@[simp] theorem keepsMem_issueParameters (d : Reg) : KeepsMem (issueParameters d) := by
  unfold issueParameters
  repeat' first
    | with_reducible (first | apply KeepsMem.get_bind | apply KeepsMem.bind | apply KeepsMem.modify | apply wf_foldl | intro _)
    | split
    | simp [*]

@[simp] theorem keepsMem_epRunBody (r : Raw) (a b c d : Reg) (n : Nat) (mo : Bool) (rnd : Option Rm) : KeepsMem (epRunBody r a b c d n mo rnd) := by
  unfold epRunBody
  repeat' first
    | with_reducible (first | apply KeepsMem.get_bind | apply KeepsMem.bind | apply KeepsMem.modify | apply wf_foldl | intro _)
    | split
    | simp [*]

@[simp] theorem wf_takeJob (s : State) (hs : s.memory.wf = true) : (takeJob s).memory.wf = true := by
  unfold takeJob
  repeat' first
    | with_reducible (first | apply KeepsMem.get_bind | apply KeepsMem.bind | apply KeepsMem.modify | apply wf_foldl | intro _)
    | split
    | simp [*]

@[simp] theorem keepsMem_epWaitBody (r : Raw) (a : Reg) : KeepsMem (epWaitBody r a) := by
  unfold epWaitBody
  repeat' first
    | with_reducible (first | assumption | apply keepsMem_needMain | apply keepsMem_checkPin | apply keepsMem_takeTurn | apply keepsMem_hold | apply keepsMem_raiseFrom | apply wf_onCore | apply wf_writeInt | apply wf_takeJob | apply keepsMem_stop_done | apply keepsMem_set | apply keepsMem_map | apply KeepsMem.get_bind | apply KeepsMem.bind | apply KeepsMem.modify | apply wf_foldl | intro _)
    | split
    | exact wf_of_eq_pair ‹_› (by simp; assumption)
    | simp [*]

@[simp] theorem keepsMem_storeElement (a : Actor) (d : Desc) (p : Pos) (x : Nat) : KeepsMem (storeElement a d p x) := by
  unfold storeElement
  repeat' first
    | with_reducible (first | apply KeepsMem.get_bind | apply KeepsMem.bind | apply KeepsMem.modify | apply wf_foldl | intro _)
    | split
    | simp [*]

@[simp] theorem keepsMem_storeScale (a : Actor) (d : Desc) (p : Pos) (x : Nat) : KeepsMem (storeScale a d p x) := by
  unfold storeScale
  repeat' first
    | with_reducible (first | apply KeepsMem.get_bind | apply KeepsMem.bind | apply KeepsMem.modify | apply wf_foldl | intro _)
    | split
    | simp [*]

theorem keepsMem_of_mem_storeActs {core : Nat} {j : Job} {p : Pos} {row : List Nat} {cs : List (Nat × Nat)} {m : Act Unit}
    (h : m ∈ storeActs core j p row cs) : KeepsMem m := by
  simp only [storeActs, List.mem_flatMap] at h
  obtain ⟨_, _, h⟩ := h
  split at h
  · rcases List.mem_pair.1 h with rfl | rfl <;> simp
  · rw [List.mem_singleton.1 h]; simp

/-- Stores that each keep memory in canonical form keep it together, and so do those before one that stops. -/
theorem runStores_wf {acts : List (Act Unit)} (h : ∀ m ∈ acts, KeepsMem m) {s : State} (hs : s.memory.wf = true) :
    (∀ t, runStores acts s = .ok t → t.memory.wf = true) ∧
    ∀ e t, runStores acts s = .error (e, t) → t.memory.wf = true ∧ EndsWf (.error e : Except Stop (Unit × State)) := by
  induction acts generalizing s with
  | nil => exact ⟨fun t e => by cases e; exact hs, fun e t h => by cases h⟩
  | cons m rest ih =>
    have hm := h m List.mem_cons_self
    unfold runStores
    split
    next hok => exact ih (fun m' h' => h m' (List.mem_cons_of_mem _ h')) (hm.ok hok hs)
    next herr =>
      refine ⟨fun t e => by (cases e), fun e t hx => ?_⟩
      cases hx
      exact ⟨hs, hm.error herr hs⟩

@[simp] theorem keepsMem_loadBias (core : Nat) (j : Job) (h t : Nat) : KeepsMem (loadBias core j h t) := by
  unfold loadBias
  repeat' first
    | with_reducible (first | apply KeepsMem.get_bind | apply KeepsMem.bind | apply KeepsMem.modify | apply wf_foldl | intro _)
    | split
    | simp [*]

/-- The state in which a row ends, or stops, has its memory in canonical form. -/
def RowWf : RowEnd → Prop
  | .done _ s | .faulted _ _ s => s.memory.wf = true
  | .stopped e => EndsWf (.error e : Except Stop (Unit × State))

theorem rowWf_rowStop {e : Stop} (x : RowRun) {s : State} (hs : s.memory.wf = true)
    (he : EndsWf (.error e : Except Stop (Unit × State))) : RowWf (rowStop e x s) := by
  cases e with
  | trap t => exact hs
  | done t => exact he
  | hold | poison | walk | fault => trivial

theorem rowWf_runRow (core : Nat) (seed : Nat → BitVec 128) (j : Job) (t : Nat) (ws : List (BitVec 16)) (x : RowRun)
    (s : State) (hs : s.memory.wf = true) : RowWf (runRow core seed j t ws x s) := by
  induction ws generalizing x s with
  | nil => exact hs
  | cons w rest ih =>
    unfold runRow
    dsimp only
    split
    · split
      next h => exact ih _ _ ((keepsMem_loadBias _ _ _ _).ok h hs)
      next h => exact rowWf_rowStop _ hs ((keepsMem_loadBias _ _ _ _).error h hs)
    · split
      · split
        next h => exact ih _ _ ((runStores_wf (fun m h => keepsMem_of_mem_storeActs h) hs).1 _ h)
        next h =>
          obtain ⟨ht, he⟩ := (runStores_wf (fun m h => keepsMem_of_mem_storeActs h) hs).2 _ _ h
          exact rowWf_rowStop _ ht he
      · exact ih _ _ hs

theorem nextWf_execEpilogueRow (core : Nat) (s : State) (hs : s.memory.wf = true) : NextWf (execEpilogueRow core s) := by
  unfold execEpilogueRow
  dsimp only
  split
  · simpa using hs
  · have row := rowWf_runRow core (columnSeed core (coreOf s core).ep)
    split
    next h => exact (nextWf_next _).2 (h ▸ row _ _ _ _ s hs :)
    next h => exact (nextWf_next _).2 (h ▸ row _ _ _ _ s hs :)
    next h =>
      refine nextWf_finishAsking _ _ _ _ _ (fun _ _ => ?_) (fun _ _ h => h) hs
      exact (h ▸ row _ _ _ _ s hs :)

@[simp] theorem keepsMem_needShard (n perm : Nat) : KeepsMem (needShard n perm) := by
  unfold needShard
  repeat' first
    | with_reducible (first | apply KeepsMem.get_bind | apply KeepsMem.bind | apply KeepsMem.modify | apply wf_foldl | intro _)
    | split
    | simp [*]

@[simp] theorem keepsMem_eachLogit (d : Desc) (f : Nat → Nat → Option Nat) (l : List Nat) :
    KeepsMem (eachLogit d f l) := by
  induction l with
  | nil =>
    unfold eachLogit
    repeat' first
      | with_reducible (first | assumption | apply keepsMem_readElement | apply keepsMem_storeElement | apply keepsMem_stop_done | apply keepsMem_set | apply keepsMem_map | apply KeepsMem.get_bind | apply KeepsMem.bind | apply KeepsMem.modify | apply wf_foldl | intro _)
      | split
      | exact wf_of_eq_pair ‹_› (by simp; assumption)
      | simp [*]
  | cons p rest ih =>
    unfold eachLogit
    repeat' first
      | with_reducible (first | assumption | apply keepsMem_readElement | apply keepsMem_storeElement | apply keepsMem_stop_done | apply keepsMem_set | apply keepsMem_map | apply KeepsMem.get_bind | apply KeepsMem.bind | apply KeepsMem.modify | apply wf_foldl | intro _)
      | split
      | exact wf_of_eq_pair ‹_› (by simp; assumption)
      | simp [*]

@[simp] theorem keepsMem_admitted (key : Key) : KeepsMem (admitted key) := by
  unfold admitted
  repeat' first
    | with_reducible (first | apply KeepsMem.get_bind | apply KeepsMem.bind | apply KeepsMem.modify | apply wf_foldl | intro _)
    | split
    | simp [*]

@[simp] theorem keepsMem_readCounters (c : Cap) (held : Nat → Nat) (l : List Nat) :
    KeepsMem (readCounters c held l) := by
  induction l with
  | nil =>
    unfold readCounters
    repeat' first
      | with_reducible (first | assumption | apply keepsMem_readRange | apply keepsMem_stop_done | apply keepsMem_set | apply keepsMem_map | apply KeepsMem.get_bind | apply KeepsMem.bind | apply KeepsMem.modify | apply wf_foldl | intro _)
      | split
      | exact wf_of_eq_pair ‹_› (by simp; assumption)
      | simp [*]
  | cons p rest ih =>
    unfold readCounters
    repeat' first
      | with_reducible (first | assumption | apply keepsMem_readRange | apply keepsMem_stop_done | apply keepsMem_set | apply keepsMem_map | apply KeepsMem.get_bind | apply KeepsMem.bind | apply KeepsMem.modify | apply wf_foldl | intro _)
      | split
      | exact wf_of_eq_pair ‹_› (by simp; assumption)
      | simp [*]

@[simp] theorem keepsMem_smpPenBody (a b c d : Reg) (n : Nat) : KeepsMem (smpPenBody a b c d n) := by
  unfold smpPenBody
  repeat' first
    | with_reducible (first | apply KeepsMem.get_bind | apply KeepsMem.bind | apply KeepsMem.modify | apply wf_foldl | intro _)
    | split
    | simp [*]

@[simp] theorem keepsMem_smpTempBody (a c : Reg) (n : Nat) : KeepsMem (smpTempBody a c n) := by
  unfold smpTempBody
  repeat' first
    | with_reducible (first | apply KeepsMem.get_bind | apply KeepsMem.bind | apply KeepsMem.modify | apply wf_foldl | intro _)
    | split
    | simp [*]

@[simp] theorem keepsMem_smpGumBody (a b d : Reg) (n : Nat) : KeepsMem (smpGumBody a b d n) := by
  unfold smpGumBody
  repeat' first
    | with_reducible (first | apply KeepsMem.get_bind | apply KeepsMem.bind | apply KeepsMem.modify | apply wf_foldl | intro _)
    | split
    | simp [*]

@[simp] theorem keepsMem_sumRedBody (a b : Reg) (op : SumOp) (fmt : Fmt) (sc : Scope) : KeepsMem (sumRedBody a b op fmt sc) := by
  unfold sumRedBody
  repeat' first
    | with_reducible (first | apply KeepsMem.get_bind | apply KeepsMem.bind | apply KeepsMem.modify | apply wf_foldl | intro _)
    | split
    | simp [*]

@[simp] theorem keepsMem_sumBcBody (a b : Reg) (sc : Scope) : KeepsMem (sumBcBody a b sc) := by
  unfold sumBcBody
  repeat' first
    | with_reducible (first | apply KeepsMem.get_bind | apply KeepsMem.bind | apply KeepsMem.modify | apply wf_foldl | intro _)
    | split
    | simp [*]

@[simp] theorem keepsMem_smpTopBody (a d : Reg) (n : Nat) (sc : Scope) : KeepsMem (smpTopBody a d n sc) := by
  unfold smpTopBody
  repeat' first
    | with_reducible (first | apply KeepsMem.get_bind | apply KeepsMem.bind | apply KeepsMem.modify | apply wf_foldl | intro _)
    | split
    | simp [*]

@[simp] theorem keepsMem_smpToppBody (a b c d : Reg) (n : Nat) (sc : Scope) : KeepsMem (smpToppBody a b c d n sc) := by
  unfold smpToppBody
  repeat' first
    | with_reducible (first | apply KeepsMem.get_bind | apply KeepsMem.bind | apply KeepsMem.modify | apply wf_foldl | intro _)
    | split
    | simp [*]

@[simp] theorem keepsMem_tokMapBody (a b : Reg) (k : Nat) : KeepsMem (tokMapBody a b k) := by
  unfold tokMapBody
  repeat' first
    | with_reducible (first | apply KeepsMem.get_bind | apply KeepsMem.bind | apply KeepsMem.modify | apply wf_foldl | intro _)
    | split
    | simp [*]

@[simp] theorem keepsMem_tokBindBody (a b c : Reg) : KeepsMem (tokBindBody a b c) := by
  unfold tokBindBody
  repeat' first
    | with_reducible (first | apply KeepsMem.get_bind | apply KeepsMem.bind | apply KeepsMem.modify | apply wf_foldl | intro _)
    | split
    | simp [*]

@[simp] theorem keepsMem_scratchWord (c : Cap) (held : List (Nat × BitVec 16)) (imm : Nat) : KeepsMem (scratchWord c held imm) := by
  unfold scratchWord
  repeat' first
    | with_reducible (first | apply KeepsMem.get_bind | apply KeepsMem.bind | apply KeepsMem.modify | apply wf_foldl | intro _)
    | split
    | simp [*]

@[simp] theorem keepsMem_attempt {α : Type} (m : Act α) (hm : KeepsMem m) : KeepsMem (attempt m : Act (Option α)) := by
  intro s hs
  unfold attempt
  repeat' first
    | split
    | with_reducible (first | assumption | apply KeepsMem.endsWf)
    | exact KeepsMem.ok ‹_› (by simp [*]) (by simp [*])
    | exact KeepsMem.error ‹_› (by simp [*]) (by simp [*])
    | exact wf_of_eq_pair ‹_› (by simp; assumption)
    | simp [*]

@[simp] theorem keepsMem_drawnEffect (c : Cap) (m : List (BitVec 32)) (held : List (Nat × BitVec 16)) (x : Drawn) (qs : Nat) : KeepsMem (drawnEffect c m held x qs) := by
  unfold drawnEffect
  repeat' first
    | with_reducible (first | apply KeepsMem.get_bind | apply KeepsMem.bind | apply KeepsMem.modify | apply wf_foldl | intro _)
    | split
    | simp [*]

@[simp] theorem keepsMem_execute (c : Cap) (m : List (BitVec 32)) (held : List (Nat × BitVec 16)) (x : Drawn) (qs : Nat) : KeepsMem (execute c m held x qs) := by
  unfold execute
  repeat' first
    | with_reducible (first | apply KeepsMem.get_bind | apply KeepsMem.bind | apply KeepsMem.modify | apply wf_foldl | intro _)
    | split
    | simp [*]

@[simp] theorem keepsMem_beginDrawn (c : Cap) (m : List (BitVec 32)) (held : List (Nat × BitVec 16)) (role : Option Nat) (x : Drawn) : KeepsMem (beginDrawn c m held role x) := by
  unfold beginDrawn
  repeat' first
    | with_reducible (first | apply KeepsMem.get_bind | apply KeepsMem.bind | apply KeepsMem.modify | apply wf_foldl | intro _)
    | split
    | simp [*]

@[simp] theorem keepsMem_feed (c : Cap) (m : List (BitVec 32)) (held : List (Nat × BitVec 16)) (t : Nat) (x : Drawn) : KeepsMem (feed c m held t x) := by
  unfold feed
  repeat' first
    | with_reducible (first | apply KeepsMem.get_bind | apply KeepsMem.bind | apply KeepsMem.modify | apply wf_foldl | intro _)
    | split
    | simp [*]

@[simp] theorem keepsMem_commitToken (r : Rec) (n t : Nat) : KeepsMem (commitToken r n t) := by
  unfold commitToken
  repeat' first
    | with_reducible (first | apply KeepsMem.get_bind | apply KeepsMem.bind | apply KeepsMem.modify | apply wf_foldl | intro _)
    | split
    | simp [*]

@[simp] theorem keepsMem_commitScratch (c : Cap) (l : List (Nat × BitVec 16)) :
    KeepsMem (commitScratch c l) := by
  induction l with
  | nil =>
    unfold commitScratch
    repeat' first
      | with_reducible (first | assumption | apply keepsMem_writeRange | apply keepsMem_stop_done | apply keepsMem_set | apply keepsMem_map | apply KeepsMem.get_bind | apply KeepsMem.bind | apply KeepsMem.modify | apply wf_foldl | intro _)
      | split
      | exact wf_of_eq_pair ‹_› (by simp; assumption)
      | simp [*]
  | cons p rest ih =>
    unfold commitScratch
    repeat' first
      | with_reducible (first | assumption | apply keepsMem_writeRange | apply keepsMem_stop_done | apply keepsMem_set | apply keepsMem_map | apply KeepsMem.get_bind | apply KeepsMem.bind | apply KeepsMem.modify | apply wf_foldl | intro _)
      | split
      | exact wf_of_eq_pair ‹_› (by simp; assumption)
      | simp [*]

@[simp] theorem keepsMem_stepSequence (key : Key) (r : Rec) (token : Nat) : KeepsMem (stepSequence key r token) := by
  unfold stepSequence
  repeat' first
    | with_reducible (first | assumption | apply keepsMem_feed | apply keepsMem_writeRecord | apply wf_setDraft | apply keepsMem_commitToken | apply keepsMem_attempt | apply keepsMem_commitScratch | apply keepsMem_stop_done | apply keepsMem_set | apply keepsMem_map | apply KeepsMem.get_bind | apply KeepsMem.bind | apply KeepsMem.modify | apply wf_foldl | intro _)
    | split
    | exact wf_of_eq_pair ‹_› (by simp; assumption)
    | simp [*]

@[simp] theorem keepsMem_stepKey (bits token : Nat) : KeepsMem (stepKey bits token) := by
  unfold stepKey
  repeat' first
    | with_reducible (first | apply KeepsMem.get_bind | apply KeepsMem.bind | apply KeepsMem.modify | apply wf_foldl | intro _)
    | split
    | simp [*]

@[simp] theorem keepsMem_smpStepBody (a b c : Reg) : KeepsMem (smpStepBody a b c) := by
  unfold smpStepBody
  repeat' first
    | with_reducible (first | apply KeepsMem.get_bind | apply KeepsMem.bind | apply KeepsMem.modify | apply wf_foldl | intro _)
    | split
    | simp [*]

@[simp] theorem keepsMem_smpDraftBody (a b c : Reg) : KeepsMem (smpDraftBody a b c) := by
  unfold smpDraftBody
  repeat' first
    | with_reducible (first | apply KeepsMem.get_bind | apply KeepsMem.bind | apply KeepsMem.modify | apply wf_foldl | intro _)
    | split
    | simp [*]

@[simp] theorem keepsMem_acceptSteps (r : Rec) (n : Nat) (steps : List HeldStep) : KeepsMem (acceptSteps r n steps) := by
  induction steps generalizing n with
  | nil => exact keepsMem_pure _
  | cons h rest ih => exact .bind (by simp) fun _ => .bind (by simp) fun _ => ih _

@[simp] theorem keepsMem_draftPages (a : Actor) (dom : Nat) (r : Rec) (l : List HeldRow) (x1 : List (Nat × Nat)) :
    KeepsMem (draftPages a dom r l x1) := by
  induction l generalizing x1 with
  | nil =>
    unfold draftPages
    repeat' first
      | with_reducible (first | assumption | apply keepsMem_readMap | apply keepsMem_stop_done | apply keepsMem_set | apply keepsMem_map | apply KeepsMem.get_bind | apply KeepsMem.bind | apply KeepsMem.modify | apply wf_foldl | intro _)
      | split
      | exact wf_of_eq_pair ‹_› (by simp; assumption)
      | simp [*]
  | cons p rest ih =>
    unfold draftPages
    repeat' first
      | with_reducible (first | assumption | apply keepsMem_readMap | apply keepsMem_stop_done | apply keepsMem_set | apply keepsMem_map | apply KeepsMem.get_bind | apply KeepsMem.bind | apply KeepsMem.modify | apply wf_foldl | intro _)
      | split
      | exact wf_of_eq_pair ‹_› (by simp; assumption)
      | simp [*]

@[simp] theorem keepsMem_acceptRow (a : Actor) (dom slot : Nat) (ovl : Cap) (pos : Nat) (r : Rec) (h : HeldRow) : KeepsMem (acceptRow a dom slot ovl pos r h) := by
  unfold acceptRow
  repeat' first
    | with_reducible (first | apply KeepsMem.get_bind | apply KeepsMem.bind | apply KeepsMem.modify | apply wf_foldl | intro _)
    | split
    | simp [*]

@[simp] theorem keepsMem_acceptRows (a : Actor) (dom slot : Nat) (ovl : Cap) (pos : Nat) (r : Rec) (rows : List HeldRow) :
    KeepsMem (acceptRows a dom slot ovl pos r rows) := by
  induction rows generalizing r with
  | nil => exact keepsMem_pure _
  | cons h rest ih => exact .bind (by simp) fun _ => ih _

@[simp] theorem keepsMem_verifyDraft (key : Key) (r : Rec) (word : Nat) : KeepsMem (verifyDraft key r word) := by
  unfold verifyDraft
  repeat' first
    | with_reducible (first | assumption | apply keepsMem_draftPages | apply keepsMem_acceptSteps | apply keepsMem_acceptRows | apply keepsMem_writeRecord | apply wf_dropDraft | apply keepsMem_stop_done | apply keepsMem_set | apply keepsMem_map | apply KeepsMem.get_bind | apply KeepsMem.bind | apply KeepsMem.modify | apply wf_foldl | intro _)
    | split
    | exact wf_of_eq_pair ‹_› (by simp; assumption)
    | simp [*]

@[simp] theorem keepsMem_smpVerBody (a b c : Reg) : KeepsMem (smpVerBody a b c) := by
  unfold smpVerBody
  repeat' first
    | with_reducible (first | apply KeepsMem.get_bind | apply KeepsMem.bind | apply KeepsMem.modify | apply wf_foldl | intro _)
    | split
    | simp [*]

end Sys2Proof.Machine
end

section
namespace Sys2Proof.Machine

@[simp] theorem wf_issueSlot (s : State) (c slot : Nat) (hs : s.memory.wf = true) : (issueSlot s c slot).memory.wf = true := by
  unfold issueSlot
  repeat' first
    | with_reducible (first | apply KeepsMem.get_bind | apply KeepsMem.bind | apply KeepsMem.modify | apply wf_foldl | intro _)
    | split
    | simp [*]

@[simp] theorem keepsMem_freshWord (i va : Nat) : KeepsMem (freshWord i va) := by
  unfold freshWord
  repeat' first
    | with_reducible (first | apply KeepsMem.get_bind | apply KeepsMem.bind | apply KeepsMem.modify | apply wf_foldl | intro _)
    | split
    | simp [*]

@[simp] theorem keepsMem_fetchWord (i : Nat) : KeepsMem (fetchWord i) := by
  unfold fetchWord
  repeat' first
    | with_reducible (first | apply KeepsMem.get_bind | apply KeepsMem.bind | apply KeepsMem.modify | apply wf_foldl | intro _)
    | split
    | simp [*]

@[simp] theorem keepsMem_fetchWords  (l : List Nat) :
    KeepsMem (fetchWords l) := by
  induction l with
  | nil =>
    unfold fetchWords
    repeat' first
      | with_reducible (first | assumption | apply keepsMem_fetchWord | apply keepsMem_stop_done | apply keepsMem_set | apply keepsMem_map | apply KeepsMem.get_bind | apply KeepsMem.bind | apply KeepsMem.modify | apply wf_foldl | intro _)
      | split
      | exact wf_of_eq_pair ‹_› (by simp; assumption)
      | simp [*]
  | cons p rest ih =>
    unfold fetchWords
    repeat' first
      | with_reducible (first | assumption | apply keepsMem_fetchWord | apply keepsMem_stop_done | apply keepsMem_set | apply keepsMem_map | apply KeepsMem.get_bind | apply KeepsMem.bind | apply KeepsMem.modify | apply wf_foldl | intro _)
      | split
      | exact wf_of_eq_pair ‹_› (by simp; assumption)
      | simp [*]

@[simp] theorem keepsMem_fetchBytes : KeepsMem (fetchBytes) := by
  unfold fetchBytes
  repeat' first
    | with_reducible (first | apply KeepsMem.get_bind | apply KeepsMem.bind | apply KeepsMem.modify | apply wf_foldl | intro _)
    | split
    | simp [*]

/-- A fetch gives an instruction in a state, or an outcome, whose memory is in canonical form. -/
theorem wf_fetchInstr (s : State) (hs : s.memory.wf = true) :
    (∀ p, fetchInstr s = .inl p → p.2.memory.wf = true) ∧ ∀ o, fetchInstr s = .inr o → NextWf o := by
  unfold fetchInstr
  split
  next h =>
    have ht := (keepsMem_fetchBytes).ok h hs
    split
    · exact ⟨fun _ e => by (cases e; exact ht), fun _ e => by cases e⟩
    · exact ⟨fun _ e => by (cases e), fun _ e => by cases e; exact nextWf_finish _ _ (keepsMem_raise _ _) ht⟩
  · exact ⟨fun _ e => by (cases e), fun _ e => by cases e; exact (nextWf_next _).2 (wf_onMe _ _ hs)⟩
  next e _ h =>
    have he : KeepsMem (stop e : Act Unit) := fun _ _ => keepsMem_fetchBytes.error h hs
    exact ⟨fun _ e => by (cases e), fun _ e => by cases e; exact nextWf_finish _ _ he hs⟩

@[simp] theorem keepsMem_fillLine (id : CtxId) (va : Nat) : KeepsMem (fillLine id va) := by
  unfold fillLine
  repeat' first
    | with_reducible (first | apply KeepsMem.get_bind | apply KeepsMem.bind | apply KeepsMem.modify | apply wf_foldl | intro _)
    | split
    | simp [*]

@[simp] theorem wf_deliverLine (copies : SMap CodeCopy) (s : State) (id : CtxId) (hs : s.memory.wf = true) : (deliverLine copies s id).memory.wf = true := by
  unfold deliverLine
  repeat' first
    | with_reducible (first | apply KeepsMem.get_bind | apply KeepsMem.bind | apply KeepsMem.modify | apply wf_foldl | intro _)
    | split
    | simp [*]

@[simp] theorem wf_serveFetch (s : State) (unit : Nat) (hs : s.memory.wf = true) : (serveFetch s unit).memory.wf = true := by
  unfold serveFetch
  split
  · exact hs
  · dsimp only
    split
    · exact wf_foldl hs fun _ _ h => wf_deliverLine _ _ _ h
    next h => exact wf_foldl ((keepsMem_fillLine _ _).ok h hs) fun _ _ h => wf_deliverLine _ _ _ h

@[simp] theorem keepsMem_raiseMessage {α : Type} (condition : Nat) : KeepsMem (raiseMessage condition : Act α) := by
  unfold raiseMessage
  repeat' first
    | with_reducible (first | apply KeepsMem.get_bind | apply KeepsMem.bind | apply KeepsMem.modify | apply wf_foldl | intro _)
    | split
    | simp [*]

@[simp] theorem keepsMem_checkSend (b c d : Reg) : KeepsMem (checkSend b c d) := by
  unfold checkSend
  repeat' first
    | with_reducible (first | apply KeepsMem.get_bind | apply KeepsMem.bind | apply KeepsMem.modify | apply wf_foldl | intro _)
    | split
    | simp [*]

@[simp] theorem wf_sendMessage (b c d : Reg) (s : State) (hs : s.memory.wf = true) :
    (sendMessage b c d s).2.memory.wf = true := by
  unfold sendMessage
  dsimp only [freshNumber]
  split <;> simp [hs]

@[simp] theorem keepsMem_ownAnswered (a : Reg) (n : Nat) : KeepsMem (ownAnswered a n) := by
  unfold ownAnswered
  repeat' first
    | with_reducible (first | apply KeepsMem.get_bind | apply KeepsMem.bind | apply KeepsMem.modify | apply wf_foldl | intro _)
    | split
    | simp [*]

@[simp] theorem keepsMem_sendBody (a b c d : Reg) (ord : Order) : KeepsMem (sendBody a b c d ord) := by
  have sends (s : State) (hs : s.memory.wf = true) : KeepsMem (do
      let dest := (reg64 s d).toNat
      if dest / 65536 = s.pkg.toNat ∧ inboxFull (coreOf s (dest % 65536)) then hold (.inbox (dest % 65536))
      let (n, t) := sendMessage b c d s
      if ord = .full then stop (.done (onMe t fun x => { x with own := some n, wait := .ownAck n }))
      set (writeInt a 64 0 t)) := by
    have ht := wf_sendMessage b c d s hs
    refine .ite (.bind (by simp) fun _ => ?_) ?_ <;>
      exact .ite (.bind (keepsMem_stop_done (wf_onMe _ _ ht)) fun _ => keepsMem_set (wf_writeInt _ _ _ _ ht))
        (keepsMem_set (wf_writeInt _ _ _ _ ht))
  unfold sendBody
  refine .get_bind fun s hs => ?_
  split
  · simp
  · refine .bind (by simp) fun _ => .ite (.ite (.bind (by simp) fun _ => ?_) ?_) (sends s hs) <;>
      exact .bind (by simp) fun _ => sends s hs

@[simp] theorem keepsMem_raiseMigration {α : Type} (condition : Nat) : KeepsMem (raiseMigration condition : Act α) := by
  unfold raiseMigration
  repeat' first
    | with_reducible (first | apply KeepsMem.get_bind | apply KeepsMem.bind | apply KeepsMem.modify | apply wf_foldl | intro _)
    | split
    | simp [*]

@[simp] theorem wf_leaveSlot (s : State) (id : CtxId) (hs : s.memory.wf = true) : (leaveSlot s id).memory.wf = true := by
  unfold leaveSlot
  repeat' first
    | with_reducible (first | apply KeepsMem.get_bind | apply KeepsMem.bind | apply KeepsMem.modify | apply wf_foldl | intro _)
    | split
    | simp [*]

@[simp] theorem wf_arriveIn (s : State) (x : Context) (id : CtxId) (home : Option CtxId) (hs : s.memory.wf = true) : (arriveIn s x id home).memory.wf = true := by
  unfold arriveIn
  repeat' first
    | with_reducible (first | apply KeepsMem.get_bind | apply KeepsMem.bind | apply KeepsMem.modify | apply wf_foldl | intro _)
    | split
    | simp [*]

@[simp] theorem wf_moveTo (target : CtxId) (s : State) (hs : s.memory.wf = true) : (moveTo target s).memory.wf = true := by
  unfold moveTo
  repeat' first
    | with_reducible (first | apply KeepsMem.get_bind | apply KeepsMem.bind | apply KeepsMem.modify | apply wf_foldl | intro _)
    | split
    | simp [*]

@[simp] theorem keepsMem_checkMigration (b : Reg) : KeepsMem (checkMigration b) := by
  unfold checkMigration
  repeat' first
    | with_reducible (first | apply KeepsMem.get_bind | apply KeepsMem.bind | apply KeepsMem.modify | apply wf_foldl | intro _)
    | split
    | simp [*]

@[simp] theorem keepsMem_migBody (a b : Reg) : KeepsMem (migBody a b) := by
  unfold migBody
  repeat' first
    | with_reducible (first | assumption | apply keepsMem_checkMigration | apply wf_writeInt | apply keepsMem_stop | apply wf_moveTo | apply wf_advance | apply keepsMem_stop_done | apply keepsMem_set | apply keepsMem_map | apply KeepsMem.get_bind | apply KeepsMem.bind | apply KeepsMem.modify | apply wf_foldl | intro _)
    | split
    | exact wf_of_eq_pair ‹_› (by simp; assumption)
    | simp [*]

@[simp] theorem keepsMem_migRetBody (a : Reg) : KeepsMem (migRetBody a) := by
  unfold migRetBody
  repeat' first
    | with_reducible (first | assumption | apply keepsMem_raiseMigration | apply wf_advance | apply wf_writeInt | apply keepsMem_stop | apply wf_arriveIn | apply wf_leaveSlot | apply keepsMem_stop_done | apply keepsMem_set | apply keepsMem_map | apply KeepsMem.get_bind | apply KeepsMem.bind | apply KeepsMem.modify | apply wf_foldl | intro _)
    | split
    | exact wf_of_eq_pair ‹_› (by simp; assumption)
    | simp [*]

@[simp] theorem wf_giveBack (s : State) (id : CtxId) (hs : s.memory.wf = true) : (giveBack s id).memory.wf = true := by
  unfold giveBack
  repeat' first
    | with_reducible (first | apply KeepsMem.get_bind | apply KeepsMem.bind | apply KeepsMem.modify | apply wf_foldl | intro _)
    | split
    | simp [*]

@[simp] theorem wf_stopContext (s : State) (id : CtxId) (hs : s.memory.wf = true) : (stopContext s id).memory.wf = true := by
  unfold stopContext
  repeat' first
    | with_reducible (first | apply KeepsMem.get_bind | apply KeepsMem.bind | apply KeepsMem.modify | apply wf_foldl | intro _)
    | split
    | simp [*]

@[simp] theorem wf_recordSave (s : State) (id : CtxId) (handle counter : Nat) (evict : Bool) (hs : s.memory.wf = true) : (recordSave s id handle counter evict).memory.wf = true := by
  unfold recordSave
  repeat' first
    | with_reducible (first | apply KeepsMem.get_bind | apply KeepsMem.bind | apply KeepsMem.modify | apply wf_foldl | intro _)
    | split
    | simp [*]

@[simp] theorem wf_evictSlot (s : State) (id : CtxId) (hs : s.memory.wf = true) : (evictSlot s id).memory.wf = true := by
  unfold evictSlot
  repeat' first
    | with_reducible (first | apply KeepsMem.get_bind | apply KeepsMem.bind | apply KeepsMem.modify | apply wf_foldl | intro _)
    | split
    | simp [*]

@[simp] theorem keepsMem_writeImage (a : Reg) (id : CtxId) (key handle counter off units : Nat) : KeepsMem (writeImage a id key handle counter off units) := by
  unfold writeImage
  repeat' first
    | with_reducible (first | apply KeepsMem.get_bind | apply KeepsMem.bind | apply KeepsMem.modify | apply wf_foldl | intro _)
    | split
    | simp [*]

@[simp] theorem wf_recordNotice (s : State) (id : CtxId) (hs : s.memory.wf = true) : (recordNotice s id).memory.wf = true := by
  unfold recordNotice
  repeat' first
    | with_reducible (first | apply KeepsMem.get_bind | apply KeepsMem.bind | apply KeepsMem.modify | apply wf_foldl | intro _)
    | split
    | simp [*]

@[simp] theorem keepsMem_saveContext (a : Reg) (id : CtxId) (handle counter off units : Nat) (evict : Bool) : KeepsMem (saveContext a id handle counter off units evict) := by
  unfold saveContext
  repeat' first
    | with_reducible (first | assumption | apply keepsMem_stop | apply wf_onMe | apply wf_onCtx | apply keepsMem_writeImage | apply wf_recordSave | apply wf_stopContext | apply wf_recordNotice | apply wf_evictSlot | apply keepsMem_stop_done | apply keepsMem_set | apply keepsMem_map | apply KeepsMem.get_bind | apply KeepsMem.bind | apply KeepsMem.modify | apply wf_foldl | intro _)
    | split
    | exact wf_of_eq_pair ‹_› (by simp; assumption)
    | simp [*]

@[simp] theorem keepsMem_ctxSaveBody (d a b c : Reg) (evict : Bool) : KeepsMem (ctxSaveBody d a b c evict) := by
  unfold ctxSaveBody
  repeat' first
    | with_reducible (first | apply KeepsMem.get_bind | apply KeepsMem.bind | apply KeepsMem.modify | apply wf_foldl | intro _)
    | split
    | simp [*]

@[simp] theorem wf_placeRestored (s : State) (t : Team) (id : CtxId) (hdr : Nat) (p : List Byte) (handle counter : Nat) (hs : s.memory.wf = true) : (placeRestored s t id hdr p handle counter).memory.wf = true := by
  unfold placeRestored
  repeat' first
    | with_reducible (first | assumption | apply wf_setCtx | apply wf_onTeam | apply wf_onCore | apply keepsMem_stop_done | apply keepsMem_set | apply keepsMem_map | apply KeepsMem.get_bind | apply KeepsMem.bind | apply KeepsMem.modify | apply wf_foldl | intro _)
    | split
    | exact wf_of_eq_pair ‹_› (by simp; assumption)
    | simp [*]

@[simp] theorem keepsMem_restoreContext (a : Reg) (id : CtxId) (handle hdr : Nat) :
    KeepsMem (restoreContext a id handle hdr) := by
  unfold restoreContext
  with_reducible refine .get_bind fun s hs => ?_
  dsimp only
  split
  · simp
  · split
    · simp
    · split
      · simp
      · split
        · simp
        · refine .bind (by simp) fun _ => .bind (by simp) fun body => ?_
          split
          · simp
          · with_reducible refine .get_bind fun u hu => ?_
            split
            · simp
            · split
              · simp
              · have placed (t : Team) (p : List Byte) :
                    KeepsMem (set (placeRestored u t id hdr p handle (field hdr 63 32)) >>= fun _ => pure 0) :=
                  .bind (keepsMem_set (wf_placeRestored _ _ _ _ _ _ _ hu)) fun _ => keepsMem_pure _
                exact .ite (.bind (by simp) fun _ => .ite (by simp) (placed _ _)) (.ite (by simp) (placed _ _))

@[simp] theorem keepsMem_ctxRestBody (d a b c : Reg) : KeepsMem (ctxRestBody d a b c) := by
  unfold ctxRestBody
  repeat' first
    | with_reducible (first | apply KeepsMem.get_bind | apply KeepsMem.bind | apply KeepsMem.modify | apply wf_foldl | intro _)
    | split
    | simp [*]

@[simp] theorem wf_remoteAcks (s : State) (id : CtxId) (hs : s.memory.wf = true) : (remoteAcks s id).memory.wf = true := by
  unfold remoteAcks
  repeat' first
    | with_reducible (first | apply KeepsMem.get_bind | apply KeepsMem.bind | apply KeepsMem.modify | apply wf_foldl | intro _)
    | split
    | simp [*]

@[simp] theorem wf_goOn (s : State) (id : CtxId) (len : Nat) (hs : s.memory.wf = true) : (goOn s id len).memory.wf = true := by
  unfold goOn
  repeat' first
    | with_reducible (first | apply KeepsMem.get_bind | apply KeepsMem.bind | apply KeepsMem.modify | apply wf_foldl | intro _)
    | split
    | simp [*]

@[simp] theorem wf_grantPitch (t : Team) (s : State) (id : CtxId) (p : Nat) (r : PitchRec) (hs : s.memory.wf = true) : (grantPitch t s id p r).memory.wf = true := by
  unfold grantPitch
  repeat' first
    | with_reducible (first | apply KeepsMem.get_bind | apply KeepsMem.bind | apply KeepsMem.modify | apply wf_foldl | intro _)
    | split
    | simp [*]

@[simp] theorem wf_grantSlots (t : Team) (w : List Nat) (core : Nat) (slots : List Nat) (s : State)
    (hs : s.memory.wf = true) : (grantSlots t w core slots s).memory.wf = true := by
  induction slots generalizing s with
  | nil => exact hs
  | cons slot rest ih =>
    unfold grantSlots
    split
    · exact hs
    · exact ih _ (wf_grantPitch _ _ _ _ _ hs)

@[simp] theorem wf_routeFault (s : State) (core p q : Nat) (hs : s.memory.wf = true) : (routeFault s core p q).memory.wf = true := by
  unfold routeFault
  repeat' first
    | with_reducible (first | apply KeepsMem.get_bind | apply KeepsMem.bind | apply KeepsMem.modify | apply wf_foldl | intro _)
    | split
    | simp [*]

theorem wf_takeOwed {s t : State} {id : CtxId} (h : takeOwed s id = some t) (hs : s.memory.wf = true) :
    t.memory.wf = true := by
  unfold takeOwed at h
  split at h
  · cases h
  · split at h
    · cases h
    · cases h; exact wf_deliverTrapTo _ _ _ (wf_onCtx _ _ _ hs)

@[simp] theorem wf_grantRound (core : Nat) (s : State) (hs : s.memory.wf = true) : (grantRound core s).memory.wf = true := by
  unfold grantRound
  repeat' first
    | with_reducible (first | apply KeepsMem.get_bind | apply KeepsMem.bind | apply KeepsMem.modify | apply wf_foldl | intro _)
    | split
    | simp [*]

@[simp] theorem wf_pendingRound (core : Nat) (s : State) (hs : s.memory.wf = true) : (pendingRound core s).memory.wf = true := by
  unfold pendingRound
  repeat' first
    | with_reducible (first | apply KeepsMem.get_bind | apply KeepsMem.bind | apply KeepsMem.modify | apply wf_foldl | intro _)
    | split
    | simp [*]

@[simp] theorem wf_leaveCore (uid : Nat) (s : State) (c : Nat) (hs : s.memory.wf = true) : (leaveCore uid s c).memory.wf = true := by
  unfold leaveCore
  repeat' first
    | with_reducible (first | apply KeepsMem.get_bind | apply KeepsMem.bind | apply KeepsMem.modify | apply wf_foldl | intro _)
    | split
    | simp [*]

@[simp] theorem wf_recallPlaces (write : Bool) (places : List Nat) (s : State) (hs : s.memory.wf = true) : (recallPlaces write places s).memory.wf = true := by
  unfold recallPlaces
  repeat' first
    | with_reducible (first | apply KeepsMem.get_bind | apply KeepsMem.bind | apply KeepsMem.modify | apply wf_foldl | intro _)
    | split
    | simp [wf_recallAll, *]

@[simp] theorem wf_ownKey (s : State) (t : Team) (id : CtxId) (hs : s.memory.wf = true) : (ownKey s t id).memory.wf = true := by
  unfold ownKey
  repeat' first
    | with_reducible (first | apply KeepsMem.get_bind | apply KeepsMem.bind | apply KeepsMem.modify | apply wf_foldl | intro _)
    | split
    | simp [*]

@[simp] theorem wf_sealSwapped (t : Team) (places : List Nat) (s : State) (id : CtxId) (hs : s.memory.wf = true) : (sealSwapped t places s id).memory.wf = true := by
  unfold sealSwapped
  repeat' first
    | with_reducible (first | apply KeepsMem.get_bind | apply KeepsMem.bind | apply KeepsMem.modify | apply wf_foldl | intro _)
    | split
    | simp [wf_physWriteAll, *]

@[simp] theorem wf_sealTeamImage (t : Team) (places : List Nat) (s : State) (c : Nat) (hs : s.memory.wf = true) : (sealTeamImage t places s c).memory.wf = true := by
  unfold sealTeamImage
  repeat' first
    | with_reducible (first | apply KeepsMem.get_bind | apply KeepsMem.bind | apply KeepsMem.modify | apply wf_foldl | intro _)
    | split
    | simp [wf_physWriteAll, *]

@[simp] theorem wf_spendKey (s : State) (x : Context) (hs : s.memory.wf = true) : (spendKey s x).memory.wf = true := by
  unfold spendKey
  repeat' first
    | with_reducible (first | apply KeepsMem.get_bind | apply KeepsMem.bind | apply KeepsMem.modify | apply wf_foldl | intro _)
    | split
    | simp [*]

@[simp] theorem wf_swapOut (s : State) (t : Team) (hs : s.memory.wf = true) : (swapOut s t).memory.wf = true := by
  unfold swapOut
  repeat' first
    | with_reducible (first | assumption | apply wf_onCtx | apply wf_giveBack | apply wf_recordNotice | apply wf_recallPlaces | apply wf_writeBackAll | apply wf_sealSwapped | apply wf_sealTeamImage | apply wf_onCore | apply wf_leaveCore | apply wf_onTeam | apply keepsMem_stop_done | apply keepsMem_set | apply keepsMem_map | apply KeepsMem.get_bind | apply KeepsMem.bind | apply KeepsMem.modify | apply wf_foldl | intro _)
    | split
    | exact wf_of_eq_pair ‹_› (by simp; assumption)
    | simp [*]

@[simp] theorem wf_enterCore (t : Team) (s : State) (c : Nat) (hs : s.memory.wf = true) : (enterCore t s c).memory.wf = true := by
  unfold enterCore
  repeat' first
    | with_reducible (first | apply KeepsMem.get_bind | apply KeepsMem.bind | apply KeepsMem.modify | apply wf_foldl | intro _)
    | split
    | simp [*]

@[simp] theorem wf_enterSlot (s : State) (e : CtxId × Context) (hs : s.memory.wf = true) : (enterSlot s e).memory.wf = true := by
  unfold enterSlot
  repeat' first
    | with_reducible (first | apply KeepsMem.get_bind | apply KeepsMem.bind | apply KeepsMem.modify | apply wf_foldl | intro _)
    | split
    | simp [*]

@[simp] theorem wf_denyReturned (s : State) (e : CtxId × Context) (hs : s.memory.wf = true) : (denyReturned s e).memory.wf = true := by
  unfold denyReturned
  repeat' first
    | with_reducible (first | apply KeepsMem.get_bind | apply KeepsMem.bind | apply KeepsMem.modify | apply wf_foldl | intro _)
    | split
    | simp [*]

@[simp] theorem wf_swapIn (s : State) (t : Team) (hs : s.memory.wf = true) : (swapIn s t).memory.wf = true := by
  unfold swapIn
  repeat' first
    | with_reducible (first | apply KeepsMem.get_bind | apply KeepsMem.bind | apply KeepsMem.modify | apply wf_foldl | intro _)
    | split
    | simp [*]

@[simp] theorem wf_poisonedReturn (s : State) (t : Team) (a : Nat) (hs : s.memory.wf = true) : (poisonedReturn s t a).memory.wf = true := by
  unfold poisonedReturn
  repeat' first
    | with_reducible (first | apply KeepsMem.get_bind | apply KeepsMem.bind | apply KeepsMem.modify | apply wf_foldl | intro _)
    | split
    | simp [*]

theorem wf_leaveAll {uids : List Nat} {s t : State} (h : leaveAll uids s = some t) (hs : s.memory.wf = true) :
    t.memory.wf = true := by
  induction uids generalizing s with
  | nil => cases h; exact hs
  | cons uid rest ih =>
    unfold leaveAll at h
    split at h
    · cases h
    · split at h
      · exact ih h (by simp [hs])
      · cases h

@[simp] theorem wf_newRound (s : State) (hs : s.memory.wf = true) : (newRound s).memory.wf = true := by
  unfold newRound
  repeat' first
    | with_reducible (first | apply KeepsMem.get_bind | apply KeepsMem.bind | apply KeepsMem.modify | apply wf_foldl | intro _)
    | split
    | simp [*]

theorem wf_stayAll {uids : List Nat} {s t : State} (h : stayAll uids s = some t) (hs : s.memory.wf = true) :
    t.memory.wf = true := by
  induction uids generalizing s with
  | nil => cases h; exact hs
  | cons uid rest ih =>
    unfold stayAll at h
    split at h
    · cases h
    · split at h
      · split at h
        · exact ih h (by simp [hs])
        · cases h
      · exact ih h hs

theorem wf_enterAll {uids : List Nat} {s t : State} (h : enterAll uids s = some t) (hs : s.memory.wf = true) :
    t.memory.wf = true := by
  induction uids generalizing s with
  | nil => cases h; exact hs
  | cons uid rest ih =>
    unfold enterAll at h
    split at h
    · cases h
    · split at h
      · cases h
      · split at h
        · exact ih h hs
        · split at h
          · split at h
            · cases h; simp [hs]
            · exact ih h (by simp [hs])
          · cases h

@[simp] theorem wf_takeArrival (s : State) (core i : Nat) (hs : s.memory.wf = true) : (takeArrival s core i).memory.wf = true := by
  unfold takeArrival
  repeat' first
    | with_reducible (first | apply KeepsMem.get_bind | apply KeepsMem.bind | apply KeepsMem.modify | apply wf_foldl | intro _)
    | split
    | simp [*]

@[simp] theorem wf_placeChild (s : State) (t : Team) (core slot : Nat) (r : SpawnReq) (caller : CtxId) (dst from' : Reg) (hs : s.memory.wf = true) : (placeChild s t core slot r caller dst from').memory.wf = true := by
  unfold placeChild
  repeat' first
    | with_reducible (first | apply KeepsMem.get_bind | apply KeepsMem.bind | apply KeepsMem.modify | apply wf_foldl | intro _)
    | split
    | simp [*]

@[simp] theorem wf_callChild (s : State) (r : SpawnReq) (caller : CtxId) (dst from' : Reg) (hs : s.memory.wf = true) : (callChild s r caller dst from').memory.wf = true := by
  unfold callChild
  repeat' first
    | with_reducible (first | apply KeepsMem.get_bind | apply KeepsMem.bind | apply KeepsMem.modify | apply wf_foldl | intro _)
    | split
    | simp [*]

@[simp] theorem wf_answerSpawn (s : State) (core : Nat) (r : SpawnReq) (hs : s.memory.wf = true) : (answerSpawn s core r).memory.wf = true := by
  unfold answerSpawn
  repeat' first
    | with_reducible (first | apply KeepsMem.get_bind | apply KeepsMem.bind | apply KeepsMem.modify | apply wf_foldl | intro _)
    | split
    | simp [*]

@[simp] theorem wf_spendTurn (s : State) (core : Nat) (hs : s.memory.wf = true) : (spendTurn s core).memory.wf = true := by
  unfold spendTurn
  repeat' first
    | with_reducible (first | apply KeepsMem.get_bind | apply KeepsMem.bind | apply KeepsMem.modify | apply wf_foldl | intro _)
    | split
    | simp [*]

@[simp] theorem wf_withoutOwners (n : Nat) (s : State) (hs : s.memory.wf = true) : (withoutOwners n s).memory.wf = true := by
  unfold withoutOwners
  repeat' first
    | with_reducible (first | apply KeepsMem.get_bind | apply KeepsMem.bind | apply KeepsMem.modify | apply wf_foldl | intro _)
    | split
    | simp [*]

@[simp] theorem wf_withOwners (from' s : State) (hs : s.memory.wf = true) : (withOwners from' s).memory.wf = true :=
  wf_foldl hs fun _ _ h => h

@[simp] theorem keepsMem_writeGranules (a : Actor) (n : Nat) (x1 : Nat) (x2 : List (Nat × Bool)) :
    KeepsMem (writeGranules a n x1 x2) := by
  induction n generalizing x1 x2 with
  | zero =>
    unfold writeGranules
    repeat' first
      | with_reducible (first | assumption | apply keepsMem_writeWhole | apply keepsMem_writePiece | apply keepsMem_stop_done | apply keepsMem_set | apply keepsMem_map | apply KeepsMem.get_bind | apply KeepsMem.bind | apply KeepsMem.modify | apply wf_foldl | intro _)
      | split
      | exact wf_of_eq_pair ‹_› (by simp; assumption)
      | simp [*]
  | succ m ih =>
    unfold writeGranules
    repeat' first
      | with_reducible (first | assumption | apply keepsMem_writeWhole | apply keepsMem_writePiece | apply keepsMem_stop_done | apply keepsMem_set | apply keepsMem_map | apply KeepsMem.get_bind | apply KeepsMem.bind | apply KeepsMem.modify | apply wf_foldl | intro _)
      | split
      | exact wf_of_eq_pair ‹_› (by simp; assumption)
      | simp [*]

@[simp] theorem keepsMem_deliverPiece (core : Nat) (x : Transfer) (wp n : Nat) : KeepsMem (deliverPiece core x wp n) := by
  unfold deliverPiece
  repeat' first
    | with_reducible (first | apply KeepsMem.get_bind | apply KeepsMem.bind | apply KeepsMem.modify | apply wf_foldl | intro _)
    | split
    | simp [*]

end Sys2Proof.Machine
end

section
namespace Sys2Proof.Machine

@[simp] theorem wf_recallCore (va n : Nat) (s : State) (c : Nat) (hs : s.memory.wf = true) :
    (recallCore va n s c).memory.wf = true :=
  wf_foldl hs fun _ _ h => wf_foldl h fun _ _ h => wf_giveBy _ wf_writeBack _ _ _ _ _ h

@[simp] theorem wf_recallRange (s : State) (va n : Nat) (hs : s.memory.wf = true) : (recallRange s va n).memory.wf = true := by
  unfold recallRange
  repeat' first
    | with_reducible (first | apply KeepsMem.get_bind | apply KeepsMem.bind | apply KeepsMem.modify | apply wf_foldl | intro _)
    | split
    | simp [*]

@[simp] theorem wf_dropStable (s : State) (va n : Nat) (hs : s.memory.wf = true) : (dropStable s va n).memory.wf = true := by
  unfold dropStable
  repeat' first
    | with_reducible (first | apply KeepsMem.get_bind | apply KeepsMem.bind | apply KeepsMem.modify | apply wf_foldl | intro _)
    | split
    | simp [*]

@[simp] theorem wf_dropFetched (s : State) (va n : Nat) (hs : s.memory.wf = true) : (dropFetched s va n).memory.wf = true := by
  unfold dropFetched
  repeat' first
    | with_reducible (first | apply KeepsMem.get_bind | apply KeepsMem.bind | apply KeepsMem.modify | apply wf_foldl | intro _)
    | split
    | simp [*]

@[simp] theorem wf_requestShootdown (fromHost : Bool) (r : Shootdown) (s : State) (hs : s.memory.wf = true) : (requestShootdown fromHost r s).memory.wf = true := by
  unfold requestShootdown
  repeat' first
    | with_reducible (first | apply KeepsMem.get_bind | apply KeepsMem.bind | apply KeepsMem.modify | apply wf_foldl | intro _)
    | split
    | simp [*]

@[simp] theorem wf_commitShootdown (s : State) (request : Nat) (hs : s.memory.wf = true) : (commitShootdown s request).memory.wf = true := by
  unfold commitShootdown
  repeat' first
    | with_reducible (first | apply KeepsMem.get_bind | apply KeepsMem.bind | apply KeepsMem.modify | apply wf_foldl | intro _)
    | split
    | simp [*]

@[simp] theorem wf_countDone (s : State) (fromHost : Bool) (hs : s.memory.wf = true) : (countDone s fromHost).memory.wf = true := by
  unfold countDone
  repeat' first
    | with_reducible (first | apply KeepsMem.get_bind | apply KeepsMem.bind | apply KeepsMem.modify | apply wf_foldl | intro _)
    | split
    | simp [*]

@[simp] theorem wf_shootRange (s : State) (va n : Nat) (hs : s.memory.wf = true) : (shootRange s va n).memory.wf = true := by
  unfold shootRange
  repeat' first
    | with_reducible (first | assumption | apply wf_dropFetched | apply wf_dropStable | apply wf_recallRange | apply keepsMem_stop_done | apply keepsMem_set | apply keepsMem_map | apply KeepsMem.get_bind | apply KeepsMem.bind | apply KeepsMem.modify | apply wf_foldl | intro _)
    | split
    | exact wf_of_eq_pair ‹_› (by simp; assumption)
    | simp [*]

@[simp] theorem wf_zeroFrame (s : State) (key pa : Nat) (hs : s.memory.wf = true) : (zeroFrame s key pa).memory.wf = true := by
  unfold zeroFrame
  repeat' first
    | with_reducible (first | apply KeepsMem.get_bind | apply KeepsMem.bind | apply KeepsMem.modify | apply wf_foldl | intro _)
    | split
    | simp [wf_physPut, *]

@[simp] theorem wf_moveSector (old new : Nat) (src dst : Nat) (s : State) (i : Nat) (hs : s.memory.wf = true) : (moveSector old new src dst s i).memory.wf = true := by
  unfold moveSector
  repeat' first
    | with_reducible (first | apply KeepsMem.get_bind | apply KeepsMem.bind | apply KeepsMem.modify | apply wf_foldl | intro _)
    | split
    | simp [wf_putSector, *]

@[simp] theorem keepsMem_reachMove (t : Translation) (va pa : Nat) : KeepsMem (reachMove t va pa) := by
  unfold reachMove
  repeat' first
    | with_reducible (first | apply KeepsMem.get_bind | apply KeepsMem.bind | apply KeepsMem.modify | apply wf_foldl | intro _)
    | split
    | simp [*]

@[simp] theorem keepsMem_walkFor (f page : Nat) : KeepsMem (walkFor f page) := by
  intro s hs
  unfold walkFor
  split
  · split <;> simp [hs]
  · cases h : walked s (page * 65536) with
    | ok t => exact wf_walked hs h
    | error e => exact endsWf_walked hs h

@[simp] theorem wf_movePage (s : State) (t : Translation) (page pa key : Nat) (hs : s.memory.wf = true) : (movePage s t page pa key).memory.wf = true := by
  unfold movePage
  repeat' first
    | with_reducible (first | assumption | apply wf_recallRange | apply wf_moveSector | apply wf_tableWrite | apply keepsMem_stop_done | apply keepsMem_set | apply keepsMem_map | apply KeepsMem.get_bind | apply KeepsMem.bind | apply KeepsMem.modify | apply wf_foldl | intro _)
    | split
    | exact wf_of_eq_pair ‹_› (by simp; assumption)
    | simp [wf_makeAllVisible, wf_tableWrite, *]

@[simp] theorem nextWf_performMove (request : BitVec 128) (ends : State → State) (s : State)
    (hends : ∀ t : State, t.memory.wf = true → (ends t).memory.wf = true) (hs : s.memory.wf = true) :
    NextWf (performMove request ends s) := by
  unfold performMove
  dsimp only
  split
  next h => exact nextWf_finishEvent _ _ _ _ (keepsMem_error ((keepsMem_walkFor _ _).error (β := Unit) h hs)) hs
  next w t h =>
    have ht := (keepsMem_walkFor _ _).ok h hs
    split
    · exact (nextWf_next _).2 (hends _ ht)
    · split
      · exact (nextWf_next _).2 (hends _ ht)
      · split
        · exact (nextWf_next _).2 ht
        · split
          · simp
          · split
            · simp
            · split
              · exact (nextWf_next _).2 (wf_poisonReset _ _ _ _ _ (hends _ ht))
              · split
                next h => exact nextWf_finishEvent _ _ _ _ (keepsMem_error ((keepsMem_reachMove _ _ _).error (β := Unit) h ht)) ht
                next h => exact (nextWf_next _).2 (hends _ (wf_movePage _ _ _ _ _ ((keepsMem_reachMove _ _ _).ok h ht)))

@[simp] theorem wf_denyParked (s : State) (q : Nat) (hs : s.memory.wf = true) : (denyParked s q).memory.wf = true := by
  unfold denyParked
  repeat' first
    | with_reducible (first | apply KeepsMem.get_bind | apply KeepsMem.bind | apply KeepsMem.modify | apply wf_foldl | intro _)
    | split
    | simp [*]

@[simp] theorem wf_stopAsked (s : State) (t : Ticket) (hs : s.memory.wf = true) : (stopAsked s t).memory.wf = true := by
  unfold stopAsked
  repeat' first
    | with_reducible (first | apply KeepsMem.get_bind | apply KeepsMem.bind | apply KeepsMem.modify | apply wf_foldl | intro _)
    | split
    | simp [*]

@[simp] theorem wf_onAway (f : Context → Context) (s : State) (hs : s.memory.wf = true) : (onAway f s).memory.wf = true := by
  unfold onAway
  repeat' first
    | with_reducible (first | apply KeepsMem.get_bind | apply KeepsMem.bind | apply KeepsMem.modify | apply wf_foldl | intro _)
    | split
    | simp [*]

@[simp] theorem wf_otherTrap (s : State) (id : CtxId) (hs : s.memory.wf = true) : (otherTrap s id).memory.wf = true := by
  unfold otherTrap
  repeat' first
    | with_reducible (first | apply KeepsMem.get_bind | apply KeepsMem.bind | apply KeepsMem.modify | apply wf_foldl | intro _)
    | split
    | simp [*]

@[simp] theorem wf_denyTrapped (s : State) (id : CtxId) (hs : s.memory.wf = true) : (denyTrapped s id).memory.wf = true := by
  unfold denyTrapped
  repeat' first
    | with_reducible (first | apply KeepsMem.get_bind | apply KeepsMem.bind | apply KeepsMem.modify | apply wf_foldl | intro _)
    | split
    | simp [*]

@[simp] theorem wf_denyWaiter (t : Ticket) (s : State) (e : CtxId × Context) (hs : s.memory.wf = true) : (denyWaiter t s e).memory.wf = true := by
  unfold denyWaiter
  repeat' first
    | with_reducible (first | apply KeepsMem.get_bind | apply KeepsMem.bind | apply KeepsMem.modify | apply wf_foldl | intro _)
    | split
    | simp [*]

@[simp] theorem wf_denyService (s : State) (t : Ticket) (hs : s.memory.wf = true) : (denyService s t).memory.wf = true := by
  unfold denyService
  repeat' first
    | with_reducible (first | assumption | apply wf_onAway | apply wf_onSaved | apply wf_forgetTicket | apply wf_denyParked | apply wf_denyWaiter | apply wf_stopAsked | apply keepsMem_stop_done | apply keepsMem_set | apply keepsMem_map | apply KeepsMem.get_bind | apply KeepsMem.bind | apply KeepsMem.modify | apply wf_foldl | intro _)
    | split
    | exact wf_of_eq_pair ‹_› (by simp; assumption)
    | simp [*]

@[simp] theorem wf_failWaiter (t : Ticket) (s : State) (e : CtxId × Context) (hs : s.memory.wf = true) : (failWaiter t s e).memory.wf = true := by
  unfold failWaiter
  repeat' first
    | with_reducible (first | apply KeepsMem.get_bind | apply KeepsMem.bind | apply KeepsMem.modify | apply wf_foldl | intro _)
    | split
    | simp [*]

@[simp] theorem wf_failWalk (s : State) (t : Ticket) (hs : s.memory.wf = true) : (failWalk s t).memory.wf = true := by
  unfold failWalk
  repeat' first
    | with_reducible (first | assumption | apply wf_stopAsked | apply wf_forgetTicket | apply wf_failWaiter | apply wf_onAway | apply wf_onSaved | apply keepsMem_stop_done | apply keepsMem_set | apply keepsMem_map | apply KeepsMem.get_bind | apply KeepsMem.bind | apply KeepsMem.modify | apply wf_foldl | intro _)
    | split
    | exact wf_of_eq_pair ‹_› (by simp; assumption)
    | simp [*]

@[simp] theorem wf_awaitService (s : State) (id : CtxId) (n : Nat) (hs : s.memory.wf = true) : (awaitService s id n).memory.wf = true := by
  unfold awaitService
  repeat' first
    | with_reducible (first | apply KeepsMem.get_bind | apply KeepsMem.bind | apply KeepsMem.modify | apply wf_foldl | intro _)
    | split
    | simp [*]

@[simp] theorem keepsMem_repeatChecks (f dom page : Nat) : KeepsMem (repeatChecks f dom page) := by
  unfold repeatChecks
  repeat' first
    | with_reducible (first | apply KeepsMem.get_bind | apply KeepsMem.bind | apply KeepsMem.modify | apply wf_foldl | intro _)
    | split
    | simp [*]

@[simp] theorem wf_servePage (id : CtxId) (t : Team) (page : Nat) (found : Finding) (s : State) (hs : s.memory.wf = true) : (servePage id t page found s).memory.wf = true := by
  unfold servePage
  repeat' first
    | with_reducible (first | apply KeepsMem.get_bind | apply KeepsMem.bind | apply KeepsMem.modify | apply wf_foldl | intro _)
    | split
    | simp [*]

@[simp] theorem keepsMem_serveFault (id : CtxId) (t : Team) (page : Nat) : KeepsMem (serveFault id t page) := by
  unfold serveFault
  repeat' first
    | with_reducible (first | apply KeepsMem.get_bind | apply KeepsMem.bind | apply KeepsMem.modify | apply wf_foldl | intro _)
    | split
    | simp [*]

@[simp] theorem keepsMem_staleCall (id : CtxId) : KeepsMem (staleCall id) := by
  unfold staleCall
  repeat' first
    | with_reducible (first | apply KeepsMem.get_bind | apply KeepsMem.bind | apply KeepsMem.modify | apply wf_foldl | intro _)
    | split
    | simp [*]

@[simp] theorem keepsMem_serveTrap (id : CtxId) : KeepsMem (serveTrap id) := by
  unfold serveTrap
  repeat' first
    | with_reducible (first | apply KeepsMem.get_bind | apply KeepsMem.bind | apply KeepsMem.modify | apply wf_foldl | intro _)
    | split
    | simp [*]

@[simp] theorem keepsMem_defaultService (id : CtxId) : KeepsMem (defaultService id) := by
  unfold defaultService
  repeat' first
    | with_reducible (first | apply KeepsMem.get_bind | apply KeepsMem.bind | apply KeepsMem.modify | apply wf_foldl | intro _)
    | split
    | simp [*]

@[simp] theorem wf_runRegisters (s : State) (core : Nat) (args : List Cap) (c5 : Cap) (hs : s.memory.wf = true) : (runRegisters s core args c5).memory.wf = true := by
  unfold runRegisters
  repeat' first
    | with_reducible (first | assumption | apply wf_writeCapIn | apply keepsMem_stop_done | apply keepsMem_set | apply keepsMem_map | apply KeepsMem.get_bind | apply KeepsMem.bind | apply KeepsMem.modify | apply wf_foldl | intro _)
    | split
    | exact wf_of_eq_pair ‹_› (by simp; assumption)
    | simp [*]

@[simp] theorem wf_startRun (s : State) (core : Nat) (run : Run) (code : Cap) (args : List Cap) (c5 : Cap) (hs : s.memory.wf = true) : (startRun s core run code args c5).memory.wf = true := by
  unfold startRun
  repeat' first
    | with_reducible (first | apply KeepsMem.get_bind | apply KeepsMem.bind | apply KeepsMem.modify | apply wf_foldl | intro _)
    | split
    | simp [*]

theorem nextWf_serveInPlace (f dom : Nat) (taken : State → State) (id : CtxId) (s : State)
    (h : ∀ t : State, t.memory.wf = true → (taken t).memory.wf = true) (hs : s.memory.wf = true) :
    NextWf (finishAsking f dom (do modify taken; defaultService id)
      (fun n s => onCtx (taken s) id fun x => { x with ticket := n }) s) :=
  nextWf_finishAsking _ _ _ _ _ (.bind (.modify h) fun _ => keepsMem_defaultService id)
    (fun _ t ht => wf_onCtx _ _ _ (h t ht)) hs

@[simp] theorem nextWf_serveNotice (take : State → State) (core slot cause pc info : Nat) (s : State)
    (htake : ∀ t : State, t.memory.wf = true → (take t).memory.wf = true) (hs : s.memory.wf = true) :
    NextWf (serveNotice take core slot cause pc info s) := by
  have taken (args : List Cap) (t : State) (ht : t.memory.wf = true) :
      (runRegisters (take t) core args Config.noticeData).memory.wf = true :=
    wf_runRegisters (take t) core args Config.noticeData (htake t ht)
  unfold serveNotice
  dsimp only
  split
  · rw [nextWf_next]
    apply wf_startRun
    exact htake s hs
  · with_reducible exact nextWf_serveInPlace _ _ _ _ _ (taken _) hs

@[simp] theorem keepsMem_reachPageIn (t : Ticket) (frame backing : Nat) : KeepsMem (reachPageIn t frame backing) := by
  unfold reachPageIn
  repeat' first
    | with_reducible (first | apply KeepsMem.get_bind | apply KeepsMem.bind | apply KeepsMem.modify | apply wf_foldl | intro _)
    | split
    | simp [*]

@[simp] theorem wf_finishPageIn (s : State) (t : Ticket) (frame backing : Nat) (hs : s.memory.wf = true) : (finishPageIn s t frame backing).memory.wf = true := by
  unfold finishPageIn
  repeat' first
    | with_reducible (first | assumption | apply wf_physPut | apply wf_tableWrite | apply wf_completeService | apply keepsMem_stop_done | apply keepsMem_set | apply keepsMem_map | apply KeepsMem.get_bind | apply KeepsMem.bind | apply KeepsMem.modify | apply wf_foldl | intro _)
    | split
    | exact wf_of_eq_pair ‹_› (by simp; assumption)
    | simp [wf_physPut, wf_tableWrite, *]

@[simp] theorem wf_askFrames (s : State) (t : Ticket) (hs : s.memory.wf = true) : (askFrames s t).memory.wf = true := by
  unfold askFrames
  repeat' first
    | with_reducible (first | apply KeepsMem.get_bind | apply KeepsMem.bind | apply KeepsMem.modify | apply wf_foldl | intro _)
    | split
    | simp [*]

@[simp] theorem keepsMem_scrubFrame (f dom : Nat) (w : Nat ⊕ Nat) : KeepsMem (scrubFrame f dom w) := by
  cases w with
  | inr pa => exact keepsMem_pure _
  | inl va => exact keepsMem_inName _ _ _ (.bind (by simp) fun _ => .bind (by simp) fun _ => by simp)

@[simp] theorem wf_rejoin (s : State) (what : ScrubWhat) (frame : Nat) (hs : s.memory.wf = true) : (rejoin s what frame).memory.wf = true := by
  unfold rejoin
  repeat' first
    | with_reducible (first | apply KeepsMem.get_bind | apply KeepsMem.bind | apply KeepsMem.modify | apply wf_foldl | intro _)
    | split
    | simp [*]

@[simp] theorem wf_askZeroing (s : State) (i : Nat) (it : ScrubItem) (f dom frame : Nat) (hs : s.memory.wf = true) : (askZeroing s i it f dom frame).memory.wf = true := by
  unfold askZeroing
  repeat' first
    | with_reducible (first | apply KeepsMem.get_bind | apply KeepsMem.bind | apply KeepsMem.modify | apply wf_foldl | intro _)
    | split
    | simp [*]

@[simp] theorem keepsMem_reachScrub (it : ScrubItem) (va : Option Nat) (pa : Nat) : KeepsMem (reachScrub it va pa) := by
  unfold reachScrub
  repeat' first
    | with_reducible (first | apply KeepsMem.get_bind | apply KeepsMem.bind | apply KeepsMem.modify | apply wf_foldl | intro _)
    | split
    | simp [*]

@[simp] theorem wf_answerWalk (s : State) (t : Ticket) (leaf level : Nat) (hs : s.memory.wf = true) : (answerWalk s t leaf level).memory.wf = true := by
  unfold answerWalk
  repeat' first
    | with_reducible (first | apply KeepsMem.get_bind | apply KeepsMem.bind | apply KeepsMem.modify | apply wf_foldl | intro _)
    | split
    | simp [*]

@[simp] theorem wf_showStores (s : State) (hs : s.memory.wf = true) : (showStores s).memory.wf = true := by
  unfold showStores
  repeat' first
    | with_reducible (first | apply KeepsMem.get_bind | apply KeepsMem.bind | apply KeepsMem.modify | apply wf_foldl | intro _)
    | split
    | simp [wf_makeAllVisible, *]

@[simp] theorem wf_askCommand (q entry n : Nat) (s : State) (hs : s.memory.wf = true) : (askCommand q entry n s).memory.wf = true := by
  unfold askCommand
  repeat' first
    | with_reducible (first | apply KeepsMem.get_bind | apply KeepsMem.bind | apply KeepsMem.modify | apply wf_foldl | intro _)
    | split
    | simp [*]

/-- What an access of a command comes to has its memory in canonical form. -/
def AccessWf {α : Type} : Access α → Prop
  | .got _ t | .wait t | .walk _ t => t.memory.wf = true
  | .refused | .halt _ => True

@[simp] theorem accessWf_missingPage {α : Type} (s : State) (q : Nat) (t : Trap) (parked : List Nat)
    (hs : s.memory.wf = true) : AccessWf (missingPage s q t parked : Access α) := by
  unfold missingPage
  dsimp only
  split
  · exact (congrArg Memory.wf (startService_memory _ _ _ _ _ _ _)).trans hs
  · split
    · exact hs
    · trivial

@[simp] theorem accessWf_queueAccess {α : Type} (s : State) (q : Nat) (parked : List Nat) (m : Actor → Act α)
    (hm : ∀ a, KeepsMem (m a)) (hs : s.memory.wf = true) : AccessWf (queueAccess s q parked m) := by
  unfold queueAccess
  dsimp only
  split
  next h => exact wf_withoutBlank _ (wf_showStores _ ((hm _).ok h hs))
  · exact accessWf_missingPage _ _ _ _ hs
  · exact hs
  next h => exact wf_withoutBlank _ ((hm _).error (β := Unit) h hs :)
  · exact wf_poisonReset _ _ _ _ _ hs
  · exact (congrArg Memory.wf (postWalk_memory _ _ _ _ _)).trans hs
  · trivial

theorem nextWf_onAccess {α : Type} {s : State} {q entry : Nat} {r : Access α}
    {k : α → State → Host.Outcome State Fault Refusal} (hs : s.memory.wf = true) (hr : AccessWf r)
    (hk : ∀ v t, t.memory.wf = true → NextWf (k v t)) : NextWf (onAccess s q entry r k) := by
  cases r with
  | got v t => exact hk v t hr
  | refused => exact (nextWf_next _).2 (wf_retire _ _ _ _ hs)
  | wait t => exact (nextWf_next _).2 hr
  | walk n t => exact (nextWf_next _).2 (wf_askCommand _ _ _ _ hr)
  | halt f => exact nextWf_fault f

@[simp] theorem keepsMem_reachTable (dom va : Nat) : KeepsMem (reachTable dom va) := by
  unfold reachTable
  repeat' first
    | with_reducible (first | apply KeepsMem.get_bind | apply KeepsMem.bind | apply KeepsMem.modify | apply wf_foldl | intro _)
    | split
    | simp [*]

@[simp] theorem wf_onCommand (s : State) (q entry : Nat) (f : Command → Command) (hs : s.memory.wf = true) : (onCommand s q entry f).memory.wf = true := by
  unfold onCommand
  repeat' first
    | with_reducible (first | apply KeepsMem.get_bind | apply KeepsMem.bind | apply KeepsMem.modify | apply wf_foldl | intro _)
    | split
    | simp [*]

@[simp] theorem wf_startCommand (s : State) (q entry : Nat) (hs : s.memory.wf = true) : (startCommand s q entry).memory.wf = true := by
  unfold startCommand
  repeat' first
    | with_reducible (first | apply KeepsMem.get_bind | apply KeepsMem.bind | apply KeepsMem.modify | apply wf_foldl | intro _)
    | split
    | simp [*]

theorem nextWf_begin' {s : State} {q entry : Nat} {opc : Nat → Bool} {k : Command → Host.Outcome State Fault Refusal}
    (hs : s.memory.wf = true) (hk : ∀ c, NextWf (k c)) : NextWf (begin' s q entry opc k) := by
  unfold begin'
  split
  · exact (nextWf_next _).2 hs
  · split
    · split
      · exact hk _
      · exact (nextWf_next _).2 (wf_retire _ _ _ _ hs)
    · exact (nextWf_next _).2 hs

@[simp] theorem wf_takeEntry (s : State) (q : Nat) (words : Nat) (hs : s.memory.wf = true) : (takeEntry s q words).memory.wf = true := by
  unfold takeEntry
  repeat' first
    | with_reducible (first | apply KeepsMem.get_bind | apply KeepsMem.bind | apply KeepsMem.modify | apply wf_foldl | intro _)
    | split
    | simp [*]

@[simp] theorem wf_takeOffered (s : State) (q : Nat) (hs : s.memory.wf = true) : (takeOffered s q).memory.wf = true := by
  unfold takeOffered
  repeat' first
    | with_reducible (first | apply KeepsMem.get_bind | apply KeepsMem.bind | apply KeepsMem.modify | apply wf_foldl | intro _)
    | split
    | simp [*]

theorem keepsMem_readEntry (queue : Nat) (late : State → State)
    (h : ∀ t : State, t.memory.wf = true → (late t).memory.wf = true) : KeepsMem (readEntry queue late) := by
  unfold readEntry
  refine .get_bind fun s hs => .bind (by simp) fun _ => .modify fun t ht => ?_
  split
  · exact wf_takeEntry _ _ _ ht
  · exact h t ht

@[simp] theorem wf_park (s : State) (q : Nat) (hs : s.memory.wf = true) : (park s q).memory.wf = true := by
  unfold park
  repeat' first
    | with_reducible (first | apply KeepsMem.get_bind | apply KeepsMem.bind | apply KeepsMem.modify | apply wf_foldl | intro _)
    | split
    | simp [*]

@[simp] theorem keepsMem_signalAct (c : Command) (a : Actor) : KeepsMem (signalAct c a) := by
  unfold signalAct
  repeat' first
    | with_reducible (first | apply KeepsMem.get_bind | apply KeepsMem.bind | apply KeepsMem.modify | apply wf_foldl | intro _)
    | split
    | simp [*]

@[simp] theorem keepsMem_fenceAct (c : Command) (a : Actor) : KeepsMem (fenceAct c a) := by
  unfold fenceAct
  repeat' first
    | with_reducible (first | apply KeepsMem.get_bind | apply KeepsMem.bind | apply KeepsMem.modify | apply wf_foldl | intro _)
    | split
    | simp [*]

@[simp] theorem wf_onTranslations (f : Translation → Translation) (s : State) (hs : s.memory.wf = true) : (onTranslations f s).memory.wf = true := by
  unfold onTranslations
  repeat' first
    | with_reducible (first | apply KeepsMem.get_bind | apply KeepsMem.bind | apply KeepsMem.modify | apply wf_foldl | intro _)
    | split
    | simp [*]

@[simp] theorem wf_setBias (s : State) (t : Translation) (host : Bool) (hs : s.memory.wf = true) : (setBias s t host).memory.wf = true := by
  unfold setBias
  repeat' first
    | with_reducible (first | assumption | apply wf_recallAll | apply wf_tableWrite | apply wf_onTranslations | apply keepsMem_stop_done | apply keepsMem_set | apply keepsMem_map | apply KeepsMem.get_bind | apply KeepsMem.bind | apply KeepsMem.modify | apply wf_foldl | intro _)
    | split
    | exact wf_of_eq_pair ‹_› (by simp; assumption)
    | simp [wf_recallAll, wf_tableWrite, *]

@[simp] theorem wf_flipBias (s : State) (t : Translation) (host : Bool) (hs : s.memory.wf = true) : (flipBias s t host).memory.wf = true := by
  unfold flipBias
  repeat' first
    | with_reducible (first | assumption | apply wf_dropStable | apply wf_recallRange | apply wf_setBias | apply keepsMem_stop_done | apply keepsMem_set | apply keepsMem_map | apply KeepsMem.get_bind | apply KeepsMem.bind | apply KeepsMem.modify | apply wf_foldl | intro _)
    | split
    | exact wf_of_eq_pair ‹_› (by simp; assumption)
    | simp [wf_makeAllVisible, *]

@[simp] theorem nextWf_biasPage (s : State) (queue entry : Nat) (c : Command) (hs : s.memory.wf = true) :
    NextWf (biasPage s queue entry c) := by
  have on (p : Prop) [Decidable p] (t : State) (ht : t.memory.wf = true) : NextWf (if p then .next (retire t queue entry 0)
      else .next (onCommand t queue entry fun c => { c with started := true, busy := true, mark := c.mark + 1 })) := by
    split <;> simp [ht]
  unfold biasPage
  dsimp only
  split
  next h =>
    exact nextWf_finishAsking _ _ _ _ _ (keepsMem_error ((keepsMem_walkFor _ _).error (β := Unit) h hs))
      (fun _ _ h => wf_askCommand _ _ _ _ h) hs
  next h =>
    have ht := (keepsMem_walkFor _ _).ok h hs
    split
    · split
      · exact on _ _ ht
      · split
        · exact (nextWf_next _).2 ht
        · exact on _ _ (wf_flipBias _ _ _ ht)
    all_goals simp [ht]

@[simp] theorem keepsMem_inSystemContext {α : Type} (core : Nat) (m : Act α) (hm : KeepsMem m) : KeepsMem (inSystemContext core m : Act α) := by
  intro s hs
  unfold inSystemContext
  repeat' first
    | split
    | with_reducible (first | assumption | apply wf_onCore | apply KeepsMem.endsWf)
    | exact KeepsMem.ok ‹_› (by simp [*]) (by simp [*])
    | exact KeepsMem.error ‹_› (by simp [*]) (by simp [*])
    | exact wf_of_eq_pair ‹_› (by simp; assumption)
    | simp [*]

@[simp] theorem keepsMem_rootCore (s : State) (q : Nat) (key : Key) (a : Actor) (hs : s.memory.wf = true) : KeepsMem (rootCore s q key a) := by
  unfold rootCore
  repeat' first
    | with_reducible (first | apply KeepsMem.get_bind | apply KeepsMem.bind | apply KeepsMem.modify | apply wf_foldl | intro _)
    | split
    | simp [*]

@[simp] theorem keepsMem_sampleAct (s : State) (q : Nat) (c : Command) (a : Actor) (hs : s.memory.wf = true) : KeepsMem (sampleAct s q c a) := by
  unfold sampleAct
  repeat' first
    | with_reducible (first | apply KeepsMem.get_bind | apply KeepsMem.bind | apply KeepsMem.modify | apply wf_foldl | intro _)
    | split
    | simp [*]

@[simp] theorem keepsMem_tableWord (va : Nat) : KeepsMem (tableWord va) := by
  intro s hs
  unfold tableWord
  repeat' first
    | split
    | with_reducible (first | assumption | apply keepsMem_readRange | apply KeepsMem.endsWf)
    | exact KeepsMem.ok ‹_› (by simp [*]) (by simp [*])
    | exact KeepsMem.error ‹_› (by simp [*]) (by simp [*])
    | exact wf_of_eq_pair ‹_› (by simp; assumption)
    | simp [*]

@[simp] theorem keepsMem_someWord (at' : Nat → Nat) (p : Nat → Bool) (n : Nat) (x1 : Nat) :
    KeepsMem (someWord at' p n x1) := by
  induction n generalizing x1 with
  | zero =>
    unfold someWord
    repeat' first
      | with_reducible (first | assumption | apply keepsMem_tableWord | apply keepsMem_stop_done | apply keepsMem_set | apply keepsMem_map | apply KeepsMem.get_bind | apply KeepsMem.bind | apply KeepsMem.modify | apply wf_foldl | intro _)
      | split
      | exact wf_of_eq_pair ‹_› (by simp; assumption)
      | simp [*]
  | succ m ih =>
    unfold someWord
    repeat' first
      | with_reducible (first | assumption | apply keepsMem_tableWord | apply keepsMem_stop_done | apply keepsMem_set | apply keepsMem_map | apply KeepsMem.get_bind | apply KeepsMem.bind | apply KeepsMem.modify | apply wf_foldl | intro _)
      | split
      | exact wf_of_eq_pair ‹_› (by simp; assumption)
      | simp [*]

@[simp] theorem keepsMem_someBinding (d : Domain) : KeepsMem (someBinding d) := by
  unfold someBinding
  repeat' first
    | with_reducible (first | apply KeepsMem.get_bind | apply KeepsMem.bind | apply KeepsMem.modify | apply wf_foldl | intro _)
    | split
    | simp [*]

@[simp] theorem keepsMem_someAdmitted (d : Domain) : KeepsMem (someAdmitted d) := by
  unfold someAdmitted
  repeat' first
    | with_reducible (first | apply KeepsMem.get_bind | apply KeepsMem.bind | apply KeepsMem.modify | apply wf_foldl | intro _)
    | split
    | simp [*]

@[simp] theorem wf_configureDomain (s : State) (c : Command) (hs : s.memory.wf = true) : (configureDomain s c).memory.wf = true := by
  unfold configureDomain
  repeat' first
    | with_reducible (first | apply KeepsMem.get_bind | apply KeepsMem.bind | apply KeepsMem.modify | apply wf_foldl | intro _)
    | split
    | simp [*]

@[simp] theorem keepsMem_domcfgAct (dom : Nat) (c : Command) : KeepsMem (domcfgAct dom c) := by
  unfold domcfgAct
  repeat' first
    | with_reducible (first | apply KeepsMem.get_bind | apply KeepsMem.bind | apply KeepsMem.modify | apply wf_foldl | intro _)
    | split
    | simp [*]

@[simp] theorem keepsMem_readBinding (core dom idx : Nat) : KeepsMem (readBinding core dom idx) := by
  unfold readBinding
  repeat' first
    | with_reducible (first | apply KeepsMem.get_bind | apply KeepsMem.bind | apply KeepsMem.modify | apply wf_foldl | intro _)
    | split
    | simp [*]

@[simp] theorem keepsMem_writeBinding (core dom idx : Nat) (b : Binding) : KeepsMem (writeBinding core dom idx b) := by
  unfold writeBinding
  repeat' first
    | with_reducible (first | apply KeepsMem.get_bind | apply KeepsMem.bind | apply KeepsMem.modify | apply wf_foldl | intro _)
    | split
    | simp [*]

@[simp] theorem keepsMem_bindingOf (core dom idx : Nat) : KeepsMem (bindingOf core dom idx) := by
  unfold bindingOf
  repeat' first
    | with_reducible (first | apply KeepsMem.get_bind | apply KeepsMem.bind | apply KeepsMem.modify | apply wf_foldl | intro _)
    | split
    | simp [*]

@[simp] theorem keepsMem_validBinding (core dom idx : Nat) : KeepsMem (validBinding core dom idx) := by
  unfold validBinding
  repeat' first
    | with_reducible (first | apply KeepsMem.get_bind | apply KeepsMem.bind | apply KeepsMem.modify | apply wf_foldl | intro _)
    | split
    | simp [*]

@[simp] theorem wf_addTree (s : State) (dom : Nat) (t : Cairn) (hs : s.memory.wf = true) : (addTree s dom t).memory.wf = true := by
  unfold addTree
  repeat' first
    | with_reducible (first | apply KeepsMem.get_bind | apply KeepsMem.bind | apply KeepsMem.modify | apply wf_foldl | intro _)
    | split
    | simp [*]

@[simp] theorem wf_releaseTree (s : State) (dom ident : Nat) (hs : s.memory.wf = true) : (releaseTree s dom ident).memory.wf = true := by
  unfold releaseTree
  repeat' first
    | with_reducible (first | apply KeepsMem.get_bind | apply KeepsMem.bind | apply KeepsMem.modify | apply wf_foldl | intro _)
    | split
    | simp [*]

@[simp] theorem wf_removeTree (s : State) (dom ident : Nat) (hs : s.memory.wf = true) : (removeTree s dom ident).memory.wf = true := by
  unfold removeTree
  repeat' first
    | with_reducible (first | apply KeepsMem.get_bind | apply KeepsMem.bind | apply KeepsMem.modify | apply wf_foldl | intro _)
    | split
    | simp [*]

@[simp] theorem keepsMem_bindAct (core dom : Nat) (c : Command) : KeepsMem (bindAct core dom c) := by
  unfold bindAct
  repeat' first
    | with_reducible (first | apply KeepsMem.get_bind | apply KeepsMem.bind | apply KeepsMem.modify | apply wf_foldl | intro _)
    | split
    | simp [*]

@[simp] theorem keepsMem_swapAct (core dom : Nat) (c : Command) : KeepsMem (swapAct core dom c) := by
  unfold swapAct
  repeat' first
    | with_reducible (first | apply KeepsMem.get_bind | apply KeepsMem.bind | apply KeepsMem.modify | apply wf_foldl | intro _)
    | split
    | simp [*]

@[simp] theorem keepsMem_unbindAct (core dom : Nat) (c : Command) : KeepsMem (unbindAct core dom c) := by
  unfold unbindAct
  repeat' first
    | with_reducible (first | apply KeepsMem.get_bind | apply KeepsMem.bind | apply KeepsMem.modify | apply wf_foldl | intro _)
    | split
    | simp [*]

end Sys2Proof.Machine
end

section
namespace Sys2Proof.Machine

@[simp] theorem wf_moveInto (a b : Reg) (v : Cap) (s : State) (hs : s.memory.wf = true) : (moveInto a b v s).memory.wf = true := by
  unfold moveInto
  repeat' first
    | with_reducible (first | apply KeepsMem.get_bind | apply KeepsMem.bind | apply KeepsMem.modify | apply wf_foldl | intro _)
    | split
    | simp [*]

@[simp] theorem keepsMem_moveCursor (a b : Reg) (new : Nat) : KeepsMem (moveCursor a b new) := by
  unfold moveCursor
  repeat' first
    | with_reducible (first | apply KeepsMem.get_bind | apply KeepsMem.bind | apply KeepsMem.modify | apply wf_foldl | intro _)
    | split
    | simp [*]

@[simp] theorem keepsMem_setBounds (exact : Bool) (a b : Reg) (n : BitVec 64) : KeepsMem (setBounds exact a b n) := by
  unfold setBounds
  repeat' first
    | with_reducible (first | apply KeepsMem.get_bind | apply KeepsMem.bind | apply KeepsMem.modify | apply wf_foldl | intro _)
    | split
    | simp [*]

@[simp] theorem keepsMem_maskPerms (a b : Reg) (mask : BitVec 64) : KeepsMem (maskPerms a b mask) := by
  unfold maskPerms
  repeat' first
    | with_reducible (first | apply KeepsMem.get_bind | apply KeepsMem.bind | apply KeepsMem.modify | apply wf_foldl | intro _)
    | split
    | simp [*]

@[simp] theorem keepsMem_lockCap (a b : Reg) : KeepsMem (lockCap a b) := by
  unfold lockCap
  repeat' first
    | with_reducible (first | apply KeepsMem.get_bind | apply KeepsMem.bind | apply KeepsMem.modify | apply wf_foldl | intro _)
    | split
    | simp [*]

@[simp] theorem keepsMem_openCap (a b c : Reg) : KeepsMem (openCap a b c) := by
  unfold openCap
  repeat' first
    | with_reducible (first | apply KeepsMem.get_bind | apply KeepsMem.bind | apply KeepsMem.modify | apply wf_foldl | intro _)
    | split
    | simp [*]

@[simp] theorem wf_copyCap (a b : Reg) (s : State) (hs : s.memory.wf = true) : (copyCap a b s).memory.wf = true := by
  unfold copyCap
  repeat' first
    | with_reducible (first | apply KeepsMem.get_bind | apply KeepsMem.bind | apply KeepsMem.modify | apply wf_foldl | intro _)
    | split
    | simp [*]

@[simp] theorem nextWf_inspect (f : Cap → Nat) (w : Nat) (a b : Reg) (s : State) (hs : s.memory.wf = true) : NextWf (inspect f w a b s) := by
  unfold inspect
  repeat' first
    | with_reducible (first | assumption | apply nextWf_fixed | apply wf_writeInt | apply keepsMem_stop_done | apply keepsMem_set | apply keepsMem_map | apply KeepsMem.get_bind | apply KeepsMem.bind | apply KeepsMem.modify | apply wf_foldl | intro _)
    | split
    | exact wf_of_eq_pair ‹_› (by simp; assumption)
    | simp [*]

@[simp] theorem keepsMem_plainCopy (a b : Reg) : KeepsMem (plainCopy a b) := by
  unfold plainCopy
  repeat' first
    | with_reducible (first | apply KeepsMem.get_bind | apply KeepsMem.bind | apply KeepsMem.modify | apply wf_foldl | intro _)
    | split
    | simp [*]

@[simp] theorem keepsMem_memberDraw (m : Member) (b : Reg) : KeepsMem (memberDraw m b) := by
  unfold memberDraw
  repeat' first
    | with_reducible (first | apply KeepsMem.get_bind | apply KeepsMem.bind | apply KeepsMem.modify | apply wf_foldl | intro _)
    | split
    | simp [*]

@[simp] theorem keepsMem_readLogits (a : Actor) (d : Desc) (base : Nat) (l : List Nat) :
    KeepsMem (readLogits a d base l) := by
  induction l with
  | nil =>
    unfold readLogits
    repeat' first
      | with_reducible (first | assumption | apply keepsMem_checked | apply keepsMem_readRange | apply keepsMem_stop_done | apply keepsMem_set | apply keepsMem_map | apply KeepsMem.get_bind | apply KeepsMem.bind | apply KeepsMem.modify | apply wf_foldl | intro _)
      | split
      | exact wf_of_eq_pair ‹_› (by simp; assumption)
      | simp [*]
  | cons p rest ih =>
    unfold readLogits
    repeat' first
      | with_reducible (first | assumption | apply keepsMem_checked | apply keepsMem_readRange | apply keepsMem_stop_done | apply keepsMem_set | apply keepsMem_map | apply KeepsMem.get_bind | apply KeepsMem.bind | apply KeepsMem.modify | apply wf_foldl | intro _)
      | split
      | exact wf_of_eq_pair ‹_› (by simp; assumption)
      | simp [*]

@[simp] theorem keepsMem_memberLogits (p : Present) : KeepsMem (memberLogits p) := by
  unfold memberLogits
  repeat' first
    | with_reducible (first | apply KeepsMem.get_bind | apply KeepsMem.bind | apply KeepsMem.modify | apply wf_foldl | intro _)
    | split
    | simp [*]

/-- What a reading of shards leaves keeps memory in canonical form, whether it ends or stops. -/
def GatherWf : Except (CtxId × Stop) (List Logit × State) → Prop
  | .ok (_, t) => t.memory.wf = true
  | .error (_, e) => EndsWf (.error e : Except Stop (Unit × State))

theorem gatherWf_gatherLogits (ps : List Present) (s : State) (hs : s.memory.wf = true) :
    GatherWf (gatherLogits ps s) := by
  induction ps generalizing s with
  | nil => exact hs
  | cons p rest ih =>
    unfold gatherLogits
    split
    next h => exact (keepsMem_memberLogits p).error h hs
    next h =>
      have ht := (keepsMem_memberLogits p).ok h hs
      have hr := ih _ ht
      split
      next h' => rw [h'] at hr; exact hr
      next h' => rw [h'] at hr; exact hr

theorem nextWf_memberStops (s : State) (id : CtxId) (e : Stop) (hs : s.memory.wf = true)
    (he : EndsWf (.error e : Except Stop (Unit × State))) : NextWf (memberStops s id e) := by
  unfold memberStops
  cases e with
  | done t => simpa using he
  | trap t => simp [hs]
  | hold w => simp [hs]
  | poison k v => simp [hs]
  | walk p r w => simp [hs]
  | fault f => simp

@[simp] theorem wf_release (v : Nat) (s : State) (p : Present) (hs : s.memory.wf = true) : (release v s p).memory.wf = true := by
  unfold release
  repeat' first
    | with_reducible (first | apply KeepsMem.get_bind | apply KeepsMem.bind | apply KeepsMem.modify | apply wf_foldl | intro _)
    | split
    | simp [*]

@[simp] theorem wf_releaseAll (v : Nat) (ps : List Present) (s : State) (hs : s.memory.wf = true) : (releaseAll v ps s).memory.wf = true := by
  unfold releaseAll
  repeat' first
    | with_reducible (first | apply KeepsMem.get_bind | apply KeepsMem.bind | apply KeepsMem.modify | apply wf_foldl | intro _)
    | split
    | simp [*]

@[simp] theorem nextWf_sampleAll (ps : List Present) (remote : List RemoteMember) (result : List Logit → Nat) (s : State)
    (hs : s.memory.wf = true) : NextWf (sampleAll ps remote result s) := by
  have hg := gatherWf_gatherLogits ps s hs
  unfold sampleAll
  split
  next h => rw [h] at hg; exact nextWf_memberStops _ _ _ hs hg
  next h => rw [h] at hg; exact (nextWf_next _).2 (wf_releaseAll _ _ _ hg)

@[simp] theorem nextWf_nucleusAll (ps : List Present) (remote : List RemoteMember) (first : Ranked) (s : State)
    (hs : s.memory.wf = true) : NextWf (nucleusAll ps remote first s) := by
  unfold nucleusAll
  dsimp only
  split
  · split
    · exact nextWf_sampleAll _ _ _ _ hs
    · exact (nextWf_next _).2 (wf_releaseAll _ _ _ hs)
  · split
    · split
      next h => exact nextWf_memberStops _ _ _ hs ((keepsMem_memberDraw _ _).error h hs)
      next h => exact (nextWf_next _).2 (wf_releaseAll _ _ _ ((keepsMem_memberDraw _ _).ok h hs))
      next h => exact nextWf_sampleAll _ _ _ _ ((keepsMem_memberDraw _ _).ok h hs)
    all_goals exact (nextWf_next _).2 hs

@[simp] theorem nextWf_completeInstance (ps : List Present) (remote : List RemoteMember) (s : State) (hs : s.memory.wf = true) : NextWf (completeInstance ps remote s) := by
  unfold completeInstance
  repeat' first
    | with_reducible (first | apply KeepsMem.get_bind | apply KeepsMem.bind | apply KeepsMem.modify | apply wf_foldl | intro _)
    | split
    | simp [*]

@[simp] theorem keepsMem_readNat (a : Actor) (va n : Nat) : KeepsMem (readNat a va n) := by
  unfold readNat
  repeat' first
    | with_reducible (first | apply KeepsMem.get_bind | apply KeepsMem.bind | apply KeepsMem.modify | apply wf_foldl | intro _)
    | split
    | simp [*]

@[simp] theorem keepsMem_readWords16 (a : Actor) (va : Nat) (n : Nat) : KeepsMem (readWords16 a va n) := by
  unfold readWords16
  repeat' first
    | with_reducible (first | apply KeepsMem.get_bind | apply KeepsMem.bind | apply KeepsMem.modify | apply wf_foldl | intro _)
    | split
    | simp [*]

@[simp] theorem wf_addPending (s : State) (q entry : Nat) (d : LaunchData) (hs : s.memory.wf = true) : (addPending s q entry d).memory.wf = true := by
  unfold addPending
  repeat' first
    | with_reducible (first | apply KeepsMem.get_bind | apply KeepsMem.bind | apply KeepsMem.modify | apply wf_foldl | intro _)
    | split
    | simp [*]

@[simp] theorem wf_dropPending (s : State) (q entry : Nat) (hs : s.memory.wf = true) : (dropPending s q entry).memory.wf = true := by
  unfold dropPending
  repeat' first
    | with_reducible (first | apply KeepsMem.get_bind | apply KeepsMem.bind | apply KeepsMem.modify | apply wf_foldl | intro _)
    | split
    | simp [*]

@[simp] theorem wf_spoilStashes (s : State) (d : LaunchData) (status : Nat) (hs : s.memory.wf = true) : (spoilStashes s d status).memory.wf = true := by
  unfold spoilStashes
  repeat' first
    | with_reducible (first | apply KeepsMem.get_bind | apply KeepsMem.bind | apply KeepsMem.modify | apply wf_foldl | intro _)
    | split
    | simp [*]

@[simp] theorem wf_trade (s : State) (a b : Nat) (hs : s.memory.wf = true) : (trade s a b).memory.wf = true := by
  unfold trade
  repeat' first
    | with_reducible (first | apply KeepsMem.get_bind | apply KeepsMem.bind | apply KeepsMem.modify | apply wf_foldl | intro _)
    | split
    | simp [*]

@[simp] theorem wf_admitCore (t : Team) (d : LaunchData) (s : State) (c : Nat) (hs : s.memory.wf = true) : (admitCore t d s c).memory.wf = true := by
  unfold admitCore
  repeat' first
    | with_reducible (first | apply KeepsMem.get_bind | apply KeepsMem.bind | apply KeepsMem.modify | apply wf_foldl | intro _)
    | split
    | simp [*]

@[simp] theorem wf_admitLeaders (t : Team) (seeds : List Cap) (s : State) (c : Nat) (hs : s.memory.wf = true) : (admitLeaders t seeds s c).memory.wf = true := by
  unfold admitLeaders
  repeat' first
    | with_reducible (first | apply KeepsMem.get_bind | apply KeepsMem.bind | apply KeepsMem.modify | apply wf_foldl | intro _)
    | split
    | simp [*]

@[simp] theorem wf_admitLaunch (s : State) (q : Nat) (c : Command) (d : LaunchData) (cores : List Nat) (hs : s.memory.wf = true) : (admitLaunch s q c d cores).memory.wf = true := by
  unfold admitLaunch
  repeat' first
    | with_reducible (first | assumption | apply wf_admitCore | apply wf_admitLeaders | apply wf_startCommand | apply wf_dropPending | apply keepsMem_stop_done | apply keepsMem_set | apply keepsMem_map | apply KeepsMem.get_bind | apply KeepsMem.bind | apply KeepsMem.modify | apply wf_foldl | intro _)
    | split
    | exact wf_of_eq_pair ‹_› (by simp; assumption)
    | simp [*]

@[simp] theorem wf_forgetCommands (q : Nat) (s : State) (hs : s.memory.wf = true) : (forgetCommands q s).memory.wf = true := by
  unfold forgetCommands
  repeat' first
    | with_reducible (first | apply KeepsMem.get_bind | apply KeepsMem.bind | apply KeepsMem.modify | apply wf_foldl | intro _)
    | split
    | simp [*]

@[simp] theorem wf_enableQueue (s : State) (q v : Nat) (hs : s.memory.wf = true) : (enableQueue s q v).memory.wf = true := by
  unfold enableQueue
  repeat' first
    | with_reducible (first | assumption | apply wf_onQueue | apply wf_forgetCommands | apply wf_recallAll | apply wf_poisonReset | apply wf_postEvent | apply wf_disableQueue | apply keepsMem_stop_done | apply keepsMem_set | apply keepsMem_map | apply KeepsMem.get_bind | apply KeepsMem.bind | apply KeepsMem.modify | apply wf_foldl | intro _)
    | split
    | exact wf_of_eq_pair ‹_› (by simp; assumption)
    | simp [wf_recallAll, *]

@[simp] theorem wf_writeFunction (s : State) (f o : Nat) (v : BitVec 64) (hs : s.memory.wf = true) : (writeFunction s f o v).memory.wf = true := by
  unfold writeFunction
  repeat' first
    | with_reducible (first | apply KeepsMem.get_bind | apply KeepsMem.bind | apply KeepsMem.modify | apply wf_foldl | intro _)
    | split
    | simp [*]

@[simp] theorem wf_writePackage (s : State) (o : Nat) (v : BitVec 64) (hs : s.memory.wf = true) : (writePackage s o v).memory.wf = true := by
  unfold writePackage
  repeat' first
    | with_reducible (first | apply KeepsMem.get_bind | apply KeepsMem.bind | apply KeepsMem.modify | apply wf_foldl | intro _)
    | split
    | simp [*]

@[simp] theorem wf_writeOperator (s : State) (o : Nat) (v : BitVec 64) (hs : s.memory.wf = true) : (writeOperator s o v).memory.wf = true := by
  unfold writeOperator
  repeat' first
    | with_reducible (first | apply KeepsMem.get_bind | apply KeepsMem.bind | apply KeepsMem.modify | apply wf_foldl | intro _)
    | split
    | simp [*]

@[simp] theorem wf_writeDomain (s : State) (d o : Nat) (v : BitVec 64) (hs : s.memory.wf = true) : (writeDomain s d o v).memory.wf = true := by
  unfold writeDomain
  repeat' first
    | with_reducible (first | apply KeepsMem.get_bind | apply KeepsMem.bind | apply KeepsMem.modify | apply wf_foldl | intro _)
    | split
    | simp [*]

@[simp] theorem keepsMem_someSlot (d : Domain) : KeepsMem (someSlot d) := by
  unfold someSlot
  repeat' first
    | with_reducible (first | apply KeepsMem.get_bind | apply KeepsMem.bind | apply KeepsMem.modify | apply wf_foldl | intro _)
    | split
    | simp [*]

@[simp] theorem wf_setCapacity (s : State) (d o : Nat) (v : BitVec 64) (hs : s.memory.wf = true) : (setCapacity s d o v).memory.wf = true := by
  unfold setCapacity
  repeat' first
    | with_reducible (first | apply KeepsMem.get_bind | apply KeepsMem.bind | apply KeepsMem.modify | apply wf_foldl | intro _)
    | split
    | simp [*]

@[simp] theorem keepsMem_capacityAct (d o : Nat) (v : BitVec 64) : KeepsMem (capacityAct d o v) := by
  unfold capacityAct
  repeat' first
    | with_reducible (first | apply KeepsMem.get_bind | apply KeepsMem.bind | apply KeepsMem.modify | apply wf_foldl | intro _)
    | split
    | simp [*]

@[simp] theorem nextWf_writeCapacity (d o : Nat) (v : BitVec 64) (s : State) (hs : s.memory.wf = true) :
    NextWf (writeCapacity d o v s) := by
  have hk : KeepsMem (inName 0 d (capacityAct d o v)) := keepsMem_inName _ _ _ (keepsMem_capacityAct d o v)
  unfold writeCapacity
  split
  · split <;> simp [hs]
  next h => exact nextWf_finishEvent _ _ _ _ (keepsMem_error (hk.error (β := Unit) h hs)) hs
  next h => exact (nextWf_next _).2 (hk.ok h hs)

@[simp] theorem wf_writeRegister (s : State) (o : Nat) (v : BitVec 64) (hs : s.memory.wf = true) : (writeRegister s o v).memory.wf = true := by
  unfold writeRegister
  repeat' first
    | with_reducible (first | apply KeepsMem.get_bind | apply KeepsMem.bind | apply KeepsMem.modify | apply wf_foldl | intro _)
    | split
    | simp [*]

@[simp] theorem wf_hostLoad (s : State) (pa n : Nat) (hs : s.memory.wf = true) : (hostLoad s pa n).memory.wf = true := by
  unfold hostLoad
  repeat' first
    | with_reducible (first | apply KeepsMem.get_bind | apply KeepsMem.bind | apply KeepsMem.modify | apply wf_foldl | intro _)
    | split
    | simp [*]

@[simp] theorem wf_hostStore (s : State) (pa : Nat) (bs : List Byte) (hs : s.memory.wf = true) : (hostStore s pa bs).memory.wf = true := by
  unfold hostStore
  repeat' first
    | with_reducible (first | apply KeepsMem.get_bind | apply KeepsMem.bind | apply KeepsMem.modify | apply wf_foldl | intro _)
    | split
    | simp [wf_hostWrite, *]

@[simp] theorem nextWf_hostAccess (s : State) (pa size : Nat) (data : Option (List Byte)) (hs : s.memory.wf = true) : NextWf (hostAccess s pa size data) := by
  unfold hostAccess
  repeat' first
    | with_reducible (first | apply KeepsMem.get_bind | apply KeepsMem.bind | apply KeepsMem.modify | apply wf_foldl | intro _)
    | split
    | simp [wf_recallAll, *]

@[simp] theorem wf_moveIsland (power temp : List (Nat × Nat)) (beyond under : Bool) (kind : List Nat) (s : State) (i : Nat) (hs : s.memory.wf = true) : (moveIsland power temp beyond under kind s i).memory.wf = true := by
  unfold moveIsland
  repeat' first
    | with_reducible (first | apply KeepsMem.get_bind | apply KeepsMem.bind | apply KeepsMem.modify | apply wf_foldl | intro _)
    | split
    | simp [*]

@[simp] theorem wf_readIsland (power temp : List (Nat × Nat)) (s : State) (i : Nat) (hs : s.memory.wf = true) : (readIsland power temp s i).memory.wf = true := by
  unfold readIsland
  repeat' first
    | with_reducible (first | apply KeepsMem.get_bind | apply KeepsMem.bind | apply KeepsMem.modify | apply wf_foldl | intro _)
    | split
    | simp [*]

@[simp] theorem wf_retireFrame (frame : Nat) (s : State) (dom : Nat) (hs : s.memory.wf = true) : (retireFrame frame s dom).memory.wf = true := by
  unfold retireFrame
  repeat' first
    | with_reducible (first | apply KeepsMem.get_bind | apply KeepsMem.bind | apply KeepsMem.modify | apply wf_foldl | intro _)
    | split
    | simp [*]

@[simp] theorem wf_poisonSector (s : State) (sector : Nat) (hs : s.memory.wf = true) : (poisonSector s sector).memory.wf = true := by
  unfold poisonSector
  repeat' first
    | with_reducible (first | assumption | apply wf_retireFrame | apply wf_postEvent | apply wf_poisonRestart | apply keepsMem_stop_done | apply keepsMem_set | apply keepsMem_map | apply KeepsMem.get_bind | apply KeepsMem.bind | apply KeepsMem.modify | apply wf_foldl | intro _)
    | split
    | exact wf_of_eq_pair ‹_› (by simp; assumption)
    | simp [*]

@[simp] theorem wf_loseState (s : State) (f : Nat) (hs : s.memory.wf = true) : (loseState s f).memory.wf = true := by
  unfold loseState
  repeat' first
    | with_reducible (first | apply KeepsMem.get_bind | apply KeepsMem.bind | apply KeepsMem.modify | apply wf_foldl | intro _)
    | split
    | simp [*]

@[simp] theorem wf_startDie (verified : List Nat) (s : State) (d : Nat) (hs : s.memory.wf = true) : (startDie verified s d).memory.wf = true := by
  unfold startDie
  repeat' first
    | with_reducible (first | apply KeepsMem.get_bind | apply KeepsMem.bind | apply KeepsMem.modify | apply wf_foldl | intro _)
    | split
    | simp [*]

@[simp] theorem wf_replaceImage (s : State) (d : Nat) (hs : s.memory.wf = true) : (replaceImage s d).memory.wf = true := by
  unfold replaceImage
  repeat' first
    | with_reducible (first | apply KeepsMem.get_bind | apply KeepsMem.bind | apply KeepsMem.modify | apply wf_foldl | intro _)
    | split
    | simp [*]

theorem wf_vacate {uids : List Nat} {s t : State} (h : vacate uids s = some t) (hs : s.memory.wf = true) :
    t.memory.wf = true := by
  induction uids generalizing s with
  | nil => cases h; exact hs
  | cons uid rest ih =>
    unfold vacate at h
    split at h
    · cases h
    · split at h
      · exact ih h (wf_swapOut _ _ hs)
      · cases h

theorem wf_reinstate {uids : List Nat} {s t : State} (h : reinstate uids s = some t) (hs : s.memory.wf = true) :
    t.memory.wf = true := by
  induction uids generalizing s with
  | nil => cases h; exact hs
  | cons uid rest ih =>
    unfold reinstate at h
    split at h
    · cases h
    · split at h
      · split at h
        · cases h; exact wf_poisonedReturn _ _ _ hs
        · exact ih h (wf_swapIn _ _ hs)
      · cases h

@[simp] theorem wf_alu (f : BitVec 64 → BitVec 64 → BitVec 64) (a b : Reg) (y : BitVec 64) (s : State) (hs : s.memory.wf = true) : (alu f a b y s).memory.wf = true := by
  unfold alu
  repeat' first
    | with_reducible (first | apply KeepsMem.get_bind | apply KeepsMem.bind | apply KeepsMem.modify | apply wf_foldl | intro _)
    | split
    | simp [*]

@[simp] theorem nextWf_aluShort (f : BitVec 64 → BitVec 64 → BitVec 64) (a b c : Reg) (s : State) (hs : s.memory.wf = true) : NextWf (aluShort f a b c s) := by
  unfold aluShort
  repeat' first
    | with_reducible (first | assumption | apply nextWf_fixed | apply wf_alu | apply keepsMem_stop_done | apply keepsMem_set | apply keepsMem_map | apply KeepsMem.get_bind | apply KeepsMem.bind | apply KeepsMem.modify | apply wf_foldl | intro _)
    | split
    | exact wf_of_eq_pair ‹_› (by simp; assumption)
    | simp [*]

@[simp] theorem nextWf_aluWide (f : BitVec 64 → BitVec 64 → BitVec 64) (a b : Reg) (o : Op2) (s : State) (hs : s.memory.wf = true) : NextWf (aluWide f a b o s) := by
  unfold aluWide
  repeat' first
    | with_reducible (first | assumption | apply nextWf_fixed | apply wf_alu | apply keepsMem_stop_done | apply keepsMem_set | apply keepsMem_map | apply KeepsMem.get_bind | apply KeepsMem.bind | apply KeepsMem.modify | apply wf_foldl | intro _)
    | split
    | exact wf_of_eq_pair ‹_› (by simp; assumption)
    | simp [*]

@[simp] theorem nextWf_unary (f : Nat → Nat → Nat) (len w : Nat) (a b : Reg) (s : State) (hs : s.memory.wf = true) : NextWf (unary f len w a b s) := by
  unfold unary
  repeat' first
    | with_reducible (first | assumption | apply nextWf_fixed | apply wf_writeInt | apply keepsMem_stop_done | apply keepsMem_set | apply keepsMem_map | apply KeepsMem.get_bind | apply KeepsMem.bind | apply KeepsMem.modify | apply wf_foldl | intro _)
    | split
    | exact wf_of_eq_pair ‹_› (by simp; assumption)
    | simp [*]

@[simp] theorem wf_quad (f : BitVec 128 → BitVec 128 → BitVec 128) (a b : Reg) (y : BitVec 128) (s : State) (hs : s.memory.wf = true) : (quad f a b y s).memory.wf = true := by
  unfold quad
  repeat' first
    | with_reducible (first | apply KeepsMem.get_bind | apply KeepsMem.bind | apply KeepsMem.modify | apply wf_foldl | intro _)
    | split
    | simp [*]

@[simp] theorem nextWf_quadShort (f : BitVec 128 → BitVec 128 → BitVec 128) (a b c : Reg) (s : State) (hs : s.memory.wf = true) : NextWf (quadShort f a b c s) := by
  unfold quadShort
  repeat' first
    | with_reducible (first | assumption | apply nextWf_fixed | apply wf_quad | apply keepsMem_stop_done | apply keepsMem_set | apply keepsMem_map | apply KeepsMem.get_bind | apply KeepsMem.bind | apply KeepsMem.modify | apply wf_foldl | intro _)
    | split
    | exact wf_of_eq_pair ‹_› (by simp; assumption)
    | simp [*]

@[simp] theorem nextWf_quadWide (f : BitVec 128 → BitVec 128 → BitVec 128) (a b : Reg) (o : Op2) (s : State) (hs : s.memory.wf = true) : NextWf (quadWide f a b o s) := by
  unfold quadWide
  repeat' first
    | with_reducible (first | assumption | apply nextWf_fixed | apply wf_quad | apply keepsMem_stop_done | apply keepsMem_set | apply keepsMem_map | apply KeepsMem.get_bind | apply KeepsMem.bind | apply KeepsMem.modify | apply wf_foldl | intro _)
    | split
    | exact wf_of_eq_pair ‹_› (by simp; assumption)
    | simp [*]

@[simp] theorem wf_onSpdm (s : State) (f : Spdm → Spdm) (hs : s.memory.wf = true) : (onSpdm s f).memory.wf = true := by
  unfold onSpdm
  repeat' first
    | with_reducible (first | apply KeepsMem.get_bind | apply KeepsMem.bind | apply KeepsMem.modify | apply wf_foldl | intro _)
    | split
    | simp [*]

@[simp] theorem nextWf_answer (s : State) (bs : List Byte) (hs : s.memory.wf = true) : NextWf (answer s bs) := by
  unfold answer
  repeat' first
    | with_reducible (first | apply KeepsMem.get_bind | apply KeepsMem.bind | apply KeepsMem.modify | apply wf_foldl | intro _)
    | split
    | simp [*]

@[simp] theorem nextWf_errorResponse (s : State) (hs : s.memory.wf = true) : NextWf (errorResponse s) := by
  unfold errorResponse
  repeat' first
    | with_reducible (first | apply KeepsMem.get_bind | apply KeepsMem.bind | apply KeepsMem.modify | apply wf_foldl | intro _)
    | split
    | simp [*]

@[simp] theorem wf_rekey (s : State) (id : Nat) (key : Option (BitVec 512)) (hs : s.memory.wf = true) : (rekey s id key).memory.wf = true := by
  unfold rekey
  repeat' first
    | with_reducible (first | apply KeepsMem.get_bind | apply KeepsMem.bind | apply KeepsMem.modify | apply wf_foldl | intro _)
    | split
    | simp [wf_changeKey, *]

theorem wf_passTurn (before after : State) (h : after.memory.wf = true) : (passTurn before after).memory.wf = true := by
  unfold passTurn
  dsimp only
  refine wf_settleResets _ ?_
  split
  · exact h
  · exact h

theorem nextWf_afterStep (before : State) {o : Host.Outcome State Fault Refusal} (h : NextWf o) :
    NextWf (afterStep before o) := by
  cases o with
  | next t => exact (nextWf_next _).2 (wf_passTurn _ _ (h t rfl))
  | fault f => simp [afterStep]
  | refused r => simp [afterStep]

@[simp] theorem wf_State_withFetchWord (s : State) (nbits w : Nat) (hs : s.memory.wf = true) : (State.withFetchWord s nbits w).memory.wf = true := by
  unfold State.withFetchWord
  repeat' first
    | with_reducible (first | apply KeepsMem.get_bind | apply KeepsMem.bind | apply KeepsMem.modify | apply wf_foldl | intro _)
    | split
    | simp [wf_physWriteAll, *]

end Sys2Proof.Machine
end

section
namespace Sys2Proof.Machine

theorem nextWf_ordered (keeps fills : Bool) (len : Nat) (m : Act Unit) (s : State) (checks : List (Act (List Nat)))
    (hm : KeepsMem m) (hs : s.memory.wf = true) : NextWf (ordered keeps fills len m s checks) := by
  have whole : KeepsMem (do
      m
      modify (advance len)
      modify outOfRotation
      modify fun s => onCore s (who s).core (leaveHeld (who s).slot)) :=
    hm.bind fun _ => .bind (.modify fun _ h => wf_advance _ _ h) fun _ => .bind (.modify fun _ h => wf_outOfRotation _ h)
      fun _ => .modify fun _ h => by simpa using h
  unfold ordered
  dsimp only
  split
  · exact (nextWf_next _).2 (wf_onMe _ _ (wf_joinHeld _ _ _ _ hs))
  · exact nextWf_finish _ _ (fun _ _ => trivial) (wf_joinHeld _ _ _ _ hs)
  · exact nextWf_finish _ _ whole hs

theorem AccessWf.bind {α β : Type} {r : Access α} {k : α → State → Access β} (hr : AccessWf r)
    (hk : ∀ v t, t.memory.wf = true → AccessWf (k v t)) : AccessWf (r.bind k) := by
  cases r with
  | got v t => exact hk v t hr
  | refused => trivial
  | wait t => exact hr
  | walk n t => exact hr
  | halt f => trivial

theorem AccessWf.orNone {α : Type} {r : Access α} {s : State} (hs : s.memory.wf = true) (hr : AccessWf r) :
    AccessWf (r.orNone s) := by
  cases r with
  | got v t => exact hr
  | refused => exact hs
  | wait t => exact hr
  | walk n t => exact hr
  | halt f => trivial

theorem accessWf_wanted {α : Type} (s : State) (q : Nat) (want : Bool) (m : Actor → Act α) (hm : ∀ a, KeepsMem (m a))
    (hs : s.memory.wf = true) : AccessWf (wanted s q want m) := by
  unfold wanted
  split
  · exact .orNone hs (accessWf_queueAccess _ _ _ _ hm hs)
  · exact hs

theorem accessWf_readLaunch (s : State) (q block : Nat) (hs : s.memory.wf = true) : AccessWf (readLaunch s q block) := by
  unfold readLaunch
  refine .bind (accessWf_wanted _ _ _ _ (fun _ => by simp) hs) fun _ _ h => ?_
  refine .bind (accessWf_wanted _ _ _ _ (fun _ => by simp) h) fun _ _ h => ?_
  refine .bind (accessWf_wanted _ _ _ _ (fun _ => by simp) h) fun _ _ h => ?_
  refine .bind (accessWf_wanted _ _ _ _ (fun _ => by simp) h) fun _ _ h => ?_
  refine .bind (accessWf_wanted _ _ _ _ (fun _ => by simp) h) fun _ _ h => ?_
  refine .bind (accessWf_wanted _ _ _ _ (fun _ => by simp) h) fun _ _ h => ?_
  refine .bind (accessWf_wanted _ _ _ _ (fun _ => by simp) h) fun _ _ h => ?_
  refine .bind (accessWf_wanted _ _ _ _ (fun _ => by simp) h) fun _ _ h => ?_
  exact .bind (accessWf_wanted _ _ _ _ (fun _ => by simp) h) fun _ _ h => h

theorem accessWf_launchOf (s : State) (q : Nat) (c : Command) (hs : s.memory.wf = true) : AccessWf (launchOf s q c) :=
  .bind (accessWf_queueAccess _ _ _ _ (fun _ => by simp) hs) fun _ _ h => accessWf_readLaunch _ _ _ h

/-- A state with another list of what stands in scrub. -/
def scrubbed (l : List ScrubItem) (s : State) : State := { s with scrub := l }

theorem wf_scrubbed (l : List ScrubItem) (s : State) (hs : s.memory.wf = true) : (scrubbed l s).memory.wf = true := hs

theorem nextWf_onCommandAccess {α : Type} (s : State) (q entry : Nat) (parked : List Nat) (m : Actor → Act α)
    (k : α → State → Host.Outcome State Fault Refusal) (hm : ∀ a, KeepsMem (m a)) (hs : s.memory.wf = true)
    (hk : ∀ v t, t.memory.wf = true → NextWf (k v t)) : NextWf (onAccess s q entry (queueAccess s q parked m) k) :=
  nextWf_onAccess hs (accessWf_queueAccess _ _ _ _ hm hs) hk


theorem nextWf_execBeq (a b : Reg) (off : BitVec 10) (s : State) (hs : s.memory.wf = true) : NextWf (execBeq a b off s) := by
  unfold execBeq
  repeat' first
    | with_reducible (first | assumption | apply nextWf_branch | apply keepsMem_stop_done | apply keepsMem_set | apply keepsMem_map | apply KeepsMem.get_bind | apply KeepsMem.bind | apply KeepsMem.modify | apply wf_foldl | intro _)
    | split
    | exact wf_of_eq_pair ‹_› (by simp; assumption)
    | simp [*]

theorem nextWf_execBeqExt (a b : Reg) (off : BitVec 24) (s : State) (hs : s.memory.wf = true) : NextWf (execBeqExt a b off s) := by
  unfold execBeqExt
  repeat' first
    | with_reducible (first | assumption | apply nextWf_branch | apply keepsMem_stop_done | apply keepsMem_set | apply keepsMem_map | apply KeepsMem.get_bind | apply KeepsMem.bind | apply KeepsMem.modify | apply wf_foldl | intro _)
    | split
    | exact wf_of_eq_pair ‹_› (by simp; assumption)
    | simp [*]

theorem nextWf_execBne (a b : Reg) (off : BitVec 10) (s : State) (hs : s.memory.wf = true) : NextWf (execBne a b off s) := by
  unfold execBne
  repeat' first
    | with_reducible (first | assumption | apply nextWf_branch | apply keepsMem_stop_done | apply keepsMem_set | apply keepsMem_map | apply KeepsMem.get_bind | apply KeepsMem.bind | apply KeepsMem.modify | apply wf_foldl | intro _)
    | split
    | exact wf_of_eq_pair ‹_› (by simp; assumption)
    | simp [*]

theorem nextWf_execBneExt (a b : Reg) (off : BitVec 24) (s : State) (hs : s.memory.wf = true) : NextWf (execBneExt a b off s) := by
  unfold execBneExt
  repeat' first
    | with_reducible (first | assumption | apply nextWf_branch | apply keepsMem_stop_done | apply keepsMem_set | apply keepsMem_map | apply KeepsMem.get_bind | apply KeepsMem.bind | apply KeepsMem.modify | apply wf_foldl | intro _)
    | split
    | exact wf_of_eq_pair ‹_› (by simp; assumption)
    | simp [*]

theorem nextWf_execBlt (a b : Reg) (off : BitVec 10) (s : State) (hs : s.memory.wf = true) : NextWf (execBlt a b off s) := by
  unfold execBlt
  repeat' first
    | with_reducible (first | assumption | apply nextWf_branch | apply keepsMem_stop_done | apply keepsMem_set | apply keepsMem_map | apply KeepsMem.get_bind | apply KeepsMem.bind | apply KeepsMem.modify | apply wf_foldl | intro _)
    | split
    | exact wf_of_eq_pair ‹_› (by simp; assumption)
    | simp [*]

theorem nextWf_execBltExt (a b : Reg) (off : BitVec 24) (s : State) (hs : s.memory.wf = true) : NextWf (execBltExt a b off s) := by
  unfold execBltExt
  repeat' first
    | with_reducible (first | assumption | apply nextWf_branch | apply keepsMem_stop_done | apply keepsMem_set | apply keepsMem_map | apply KeepsMem.get_bind | apply KeepsMem.bind | apply KeepsMem.modify | apply wf_foldl | intro _)
    | split
    | exact wf_of_eq_pair ‹_› (by simp; assumption)
    | simp [*]

theorem nextWf_execBge (a b : Reg) (off : BitVec 10) (s : State) (hs : s.memory.wf = true) : NextWf (execBge a b off s) := by
  unfold execBge
  repeat' first
    | with_reducible (first | assumption | apply nextWf_branch | apply keepsMem_stop_done | apply keepsMem_set | apply keepsMem_map | apply KeepsMem.get_bind | apply KeepsMem.bind | apply KeepsMem.modify | apply wf_foldl | intro _)
    | split
    | exact wf_of_eq_pair ‹_› (by simp; assumption)
    | simp [*]

theorem nextWf_execBgeExt (a b : Reg) (off : BitVec 24) (s : State) (hs : s.memory.wf = true) : NextWf (execBgeExt a b off s) := by
  unfold execBgeExt
  repeat' first
    | with_reducible (first | assumption | apply nextWf_branch | apply keepsMem_stop_done | apply keepsMem_set | apply keepsMem_map | apply KeepsMem.get_bind | apply KeepsMem.bind | apply KeepsMem.modify | apply wf_foldl | intro _)
    | split
    | exact wf_of_eq_pair ‹_› (by simp; assumption)
    | simp [*]

theorem nextWf_execBltn (a b : Reg) (off : BitVec 10) (s : State) (hs : s.memory.wf = true) : NextWf (execBltn a b off s) := by
  unfold execBltn
  repeat' first
    | with_reducible (first | assumption | apply nextWf_branch | apply keepsMem_stop_done | apply keepsMem_set | apply keepsMem_map | apply KeepsMem.get_bind | apply KeepsMem.bind | apply KeepsMem.modify | apply wf_foldl | intro _)
    | split
    | exact wf_of_eq_pair ‹_› (by simp; assumption)
    | simp [*]

theorem nextWf_execBltnExt (a b : Reg) (off : BitVec 24) (s : State) (hs : s.memory.wf = true) : NextWf (execBltnExt a b off s) := by
  unfold execBltnExt
  repeat' first
    | with_reducible (first | assumption | apply nextWf_branch | apply keepsMem_stop_done | apply keepsMem_set | apply keepsMem_map | apply KeepsMem.get_bind | apply KeepsMem.bind | apply KeepsMem.modify | apply wf_foldl | intro _)
    | split
    | exact wf_of_eq_pair ‹_› (by simp; assumption)
    | simp [*]

theorem nextWf_execBgen (a b : Reg) (off : BitVec 10) (s : State) (hs : s.memory.wf = true) : NextWf (execBgen a b off s) := by
  unfold execBgen
  repeat' first
    | with_reducible (first | assumption | apply nextWf_branch | apply keepsMem_stop_done | apply keepsMem_set | apply keepsMem_map | apply KeepsMem.get_bind | apply KeepsMem.bind | apply KeepsMem.modify | apply wf_foldl | intro _)
    | split
    | exact wf_of_eq_pair ‹_› (by simp; assumption)
    | simp [*]

theorem nextWf_execBgenExt (a b : Reg) (off : BitVec 24) (s : State) (hs : s.memory.wf = true) : NextWf (execBgenExt a b off s) := by
  unfold execBgenExt
  repeat' first
    | with_reducible (first | assumption | apply nextWf_branch | apply keepsMem_stop_done | apply keepsMem_set | apply keepsMem_map | apply KeepsMem.get_bind | apply KeepsMem.bind | apply KeepsMem.modify | apply wf_foldl | intro _)
    | split
    | exact wf_of_eq_pair ‹_› (by simp; assumption)
    | simp [*]

theorem nextWf_execBm (m : Reg) (cond : MaskCond) (off : BitVec 24) (s : State) (hs : s.memory.wf = true) : NextWf (execBm m cond off s) := by
  unfold execBm
  repeat' first
    | with_reducible (first | assumption | apply wf_jumpBy | apply wf_advance | apply keepsMem_stop_done | apply keepsMem_set | apply keepsMem_map | apply KeepsMem.get_bind | apply KeepsMem.bind | apply KeepsMem.modify | apply wf_foldl | intro _)
    | split
    | exact wf_of_eq_pair ‹_› (by simp; assumption)
    | simp [*]

theorem nextWf_execJ (off : BitVec 16) (s : State) (hs : s.memory.wf = true) : NextWf (execJ off s) := by
  unfold execJ
  repeat' first
    | with_reducible (first | assumption | apply wf_jumpBy | apply keepsMem_stop_done | apply keepsMem_set | apply keepsMem_map | apply KeepsMem.get_bind | apply KeepsMem.bind | apply KeepsMem.modify | apply wf_foldl | intro _)
    | split
    | exact wf_of_eq_pair ‹_› (by simp; assumption)
    | simp [*]

theorem nextWf_execJExt (off : BitVec 24) (s : State) (hs : s.memory.wf = true) : NextWf (execJExt off s) := by
  unfold execJExt
  repeat' first
    | with_reducible (first | assumption | apply wf_jumpBy | apply keepsMem_stop_done | apply keepsMem_set | apply keepsMem_map | apply KeepsMem.get_bind | apply KeepsMem.bind | apply KeepsMem.modify | apply wf_foldl | intro _)
    | split
    | exact wf_of_eq_pair ‹_› (by simp; assumption)
    | simp [*]

theorem nextWf_execJal (a : Reg) (off : BitVec 16) (s : State) (hs : s.memory.wf = true) : NextWf (execJal a off s) := by
  unfold execJal
  repeat' first
    | with_reducible (first | assumption | apply wf_jumpBy | apply wf_link | apply keepsMem_stop_done | apply keepsMem_set | apply keepsMem_map | apply KeepsMem.get_bind | apply KeepsMem.bind | apply KeepsMem.modify | apply wf_foldl | intro _)
    | split
    | exact wf_of_eq_pair ‹_› (by simp; assumption)
    | simp [*]

theorem nextWf_execJalExt (a : Reg) (off : BitVec 24) (s : State) (hs : s.memory.wf = true) : NextWf (execJalExt a off s) := by
  unfold execJalExt
  repeat' first
    | with_reducible (first | assumption | apply wf_jumpBy | apply wf_link | apply keepsMem_stop_done | apply keepsMem_set | apply keepsMem_map | apply KeepsMem.get_bind | apply KeepsMem.bind | apply KeepsMem.modify | apply wf_foldl | intro _)
    | split
    | exact wf_of_eq_pair ‹_› (by simp; assumption)
    | simp [*]

theorem nextWf_execJr (b : Reg) (s : State) (hs : s.memory.wf = true) : NextWf (execJr b s) := by
  unfold execJr
  repeat' first
    | with_reducible (first | assumption | apply nextWf_finish | apply keepsMem_jumpReg | apply keepsMem_stop_done | apply keepsMem_set | apply keepsMem_map | apply KeepsMem.get_bind | apply KeepsMem.bind | apply KeepsMem.modify | apply wf_foldl | intro _)
    | split
    | exact wf_of_eq_pair ‹_› (by simp; assumption)
    | simp [*]

theorem nextWf_execJalr (a b : Reg) (s : State) (hs : s.memory.wf = true) : NextWf (execJalr a b s) := by
  unfold execJalr
  repeat' first
    | with_reducible (first | assumption | apply nextWf_finish | apply keepsMem_jumpReg | apply keepsMem_stop_done | apply keepsMem_set | apply keepsMem_map | apply KeepsMem.get_bind | apply KeepsMem.bind | apply KeepsMem.modify | apply wf_foldl | intro _)
    | split
    | exact wf_of_eq_pair ‹_› (by simp; assumption)
    | simp [*]

theorem nextWf_execRet (b : Reg) (s : State) (hs : s.memory.wf = true) : NextWf (execRet b s) := by
  unfold execRet
  repeat' first
    | with_reducible (first | assumption | apply nextWf_finish | apply keepsMem_jumpReg | apply keepsMem_stop_done | apply keepsMem_set | apply keepsMem_map | apply KeepsMem.get_bind | apply KeepsMem.bind | apply KeepsMem.modify | apply wf_foldl | intro _)
    | split
    | exact wf_of_eq_pair ‹_› (by simp; assumption)
    | simp [*]

theorem nextWf_execKenter (a b : Reg) (s : State) (hs : s.memory.wf = true) : NextWf (execKenter a b s) := by
  unfold execKenter
  repeat' first
    | with_reducible (first | assumption | apply nextWf_finish | apply keepsMem_enterSealed | apply keepsMem_stop_done | apply keepsMem_set | apply keepsMem_map | apply KeepsMem.get_bind | apply KeepsMem.bind | apply KeepsMem.modify | apply wf_foldl | intro _)
    | split
    | exact wf_of_eq_pair ‹_› (by simp; assumption)
    | simp [*]

theorem nextWf_execStart (a b c : Reg) (pin : Pin) (s : State) (hs : s.memory.wf = true) : NextWf (execStart a b c pin s) := by
  unfold execStart
  repeat' first
    | with_reducible (first | assumption | apply nextWf_quick | apply keepsMem_startBody | apply keepsMem_stop_done | apply keepsMem_set | apply keepsMem_map | apply KeepsMem.get_bind | apply KeepsMem.bind | apply KeepsMem.modify | apply wf_foldl | intro _)
    | split
    | exact wf_of_eq_pair ‹_› (by simp; assumption)
    | simp [*]

theorem nextWf_execJoin (a b : Reg) (s : State) (hs : s.memory.wf = true) : NextWf (execJoin a b s) := by
  unfold execJoin
  repeat' first
    | with_reducible (first | assumption | apply nextWf_slow | apply keepsMem_joinBody | apply keepsMem_stop_done | apply keepsMem_set | apply keepsMem_map | apply KeepsMem.get_bind | apply KeepsMem.bind | apply KeepsMem.modify | apply wf_foldl | intro _)
    | split
    | exact wf_of_eq_pair ‹_› (by simp; assumption)
    | simp [*]

theorem nextWf_execHalt (a : Reg) (s : State) (hs : s.memory.wf = true) : NextWf (execHalt a s) := by
  unfold execHalt
  repeat' first
    | with_reducible (first | assumption | apply nextWf_finish | apply keepsMem_haltBody | apply keepsMem_stop_done | apply keepsMem_set | apply keepsMem_map | apply KeepsMem.get_bind | apply KeepsMem.bind | apply KeepsMem.modify | apply wf_foldl | intro _)
    | split
    | exact wf_of_eq_pair ‹_› (by simp; assumption)
    | simp [*]

theorem nextWf_execSpawn (a b c d : Reg) (imm : BitVec 24) (s : State) (hs : s.memory.wf = true) : NextWf (execSpawn a b c d imm s) := by
  unfold execSpawn
  repeat' first
    | with_reducible (first | assumption | apply nextWf_finish | apply keepsMem_spawnBody | apply keepsMem_stop_done | apply keepsMem_set | apply keepsMem_map | apply KeepsMem.get_bind | apply KeepsMem.bind | apply KeepsMem.modify | apply wf_foldl | intro _)
    | split
    | exact wf_of_eq_pair ‹_› (by simp; assumption)
    | simp [*]

theorem nextWf_execYield (s : State) (hs : s.memory.wf = true) : NextWf (execYield s) := by
  unfold execYield
  repeat' first
    | with_reducible (first | assumption | apply nextWf_fixed | apply wf_onMe | apply keepsMem_stop_done | apply keepsMem_set | apply keepsMem_map | apply KeepsMem.get_bind | apply KeepsMem.bind | apply KeepsMem.modify | apply wf_foldl | intro _)
    | split
    | exact wf_of_eq_pair ‹_› (by simp; assumption)
    | simp [*]

theorem nextWf_execBar (sc : Scope) (s : State) (hs : s.memory.wf = true) : NextWf (execBar sc s) := by
  unfold execBar
  repeat' first
    | with_reducible (first | assumption | apply nextWf_finish | apply keepsMem_barBody | apply keepsMem_stop_done | apply keepsMem_set | apply keepsMem_map | apply KeepsMem.get_bind | apply KeepsMem.bind | apply KeepsMem.modify | apply wf_foldl | intro _)
    | split
    | exact wf_of_eq_pair ‹_› (by simp; assumption)
    | simp [*]

theorem nextWf_execSemSig (sem : Reg) (s : State) (hs : s.memory.wf = true) : NextWf (execSemSig sem s) := by
  unfold execSemSig
  repeat' first
    | with_reducible (first | assumption | apply nextWf_quick | apply keepsMem_semSignal | apply keepsMem_stop_done | apply keepsMem_set | apply keepsMem_map | apply KeepsMem.get_bind | apply KeepsMem.bind | apply KeepsMem.modify | apply wf_foldl | intro _)
    | split
    | exact wf_of_eq_pair ‹_› (by simp; assumption)
    | simp [*]

theorem nextWf_execSemWait (sem : Reg) (s : State) (hs : s.memory.wf = true) : NextWf (execSemWait sem s) := by
  unfold execSemWait
  repeat' first
    | with_reducible (first | assumption | apply nextWf_slow | apply keepsMem_semWait | apply keepsMem_stop_done | apply keepsMem_set | apply keepsMem_map | apply KeepsMem.get_bind | apply KeepsMem.bind | apply KeepsMem.modify | apply wf_foldl | intro _)
    | split
    | exact wf_of_eq_pair ‹_› (by simp; assumption)
    | simp [*]

theorem nextWf_execFwdPut (a : Reg) (quad : Bool) (s : State) (hs : s.memory.wf = true) : NextWf (execFwdPut a quad s) := by
  unfold execFwdPut
  repeat' first
    | with_reducible (first | assumption | apply nextWf_quick | apply keepsMem_fwdPutBody | apply wf_quad | apply keepsMem_stop_done | apply keepsMem_set | apply keepsMem_map | apply KeepsMem.get_bind | apply KeepsMem.bind | apply KeepsMem.modify | apply wf_foldl | intro _)
    | split
    | exact wf_of_eq_pair ‹_› (by simp; assumption)
    | simp [*]

theorem nextWf_execFwdGet (a : Reg) (s : State) (hs : s.memory.wf = true) : NextWf (execFwdGet a s) := by
  unfold execFwdGet
  repeat' first
    | with_reducible (first | assumption | apply nextWf_quick | apply keepsMem_fwdGetBody | apply keepsMem_stop_done | apply keepsMem_set | apply keepsMem_map | apply KeepsMem.get_bind | apply KeepsMem.bind | apply KeepsMem.modify | apply wf_foldl | intro _)
    | split
    | exact wf_of_eq_pair ‹_› (by simp; assumption)
    | simp [*]

theorem nextWf_execTrap (n : Fin 16) (s : State) (hs : s.memory.wf = true) : NextWf (execTrap n s) := by
  unfold execTrap
  repeat' first
    | with_reducible (first | assumption | apply nextWf_finish | apply keepsMem_raise | apply keepsMem_stop_done | apply keepsMem_set | apply keepsMem_map | apply KeepsMem.get_bind | apply KeepsMem.bind | apply KeepsMem.modify | apply wf_foldl | intro _)
    | split
    | exact wf_of_eq_pair ‹_› (by simp; assumption)
    | simp [*]

theorem nextWf_execTrapExt (n : BitVec 24) (s : State) (hs : s.memory.wf = true) : NextWf (execTrapExt n s) := by
  unfold execTrapExt
  repeat' first
    | with_reducible (first | assumption | apply nextWf_finish | apply keepsMem_raise | apply keepsMem_stop_done | apply keepsMem_set | apply keepsMem_map | apply KeepsMem.get_bind | apply KeepsMem.bind | apply KeepsMem.modify | apply wf_foldl | intro _)
    | split
    | exact wf_of_eq_pair ‹_› (by simp; assumption)
    | simp [*]

theorem nextWf_execHret (b : Reg) (s : State) (hs : s.memory.wf = true) : NextWf (execHret b s) := by
  unfold execHret
  repeat' first
    | with_reducible (first | assumption | apply nextWf_finish | apply keepsMem_hretBody | apply keepsMem_stop_done | apply keepsMem_set | apply keepsMem_map | apply KeepsMem.get_bind | apply KeepsMem.bind | apply KeepsMem.modify | apply wf_foldl | intro _)
    | split
    | exact wf_of_eq_pair ‹_› (by simp; assumption)
    | simp [*]

theorem nextWf_execIfence (s : State) (hs : s.memory.wf = true) : NextWf (execIfence s) := by
  unfold execIfence
  repeat' first
    | with_reducible (first | assumption | apply nextWf_finish | apply keepsMem_hold | apply keepsMem_stop_done | apply keepsMem_set | apply keepsMem_map | apply KeepsMem.get_bind | apply KeepsMem.bind | apply KeepsMem.modify | apply wf_foldl | intro _)
    | split
    | exact wf_of_eq_pair ‹_› (by simp; assumption)
    | simp [*]

theorem nextWf_execEret (b : Reg) (s : State) (hs : s.memory.wf = true) : NextWf (execEret b s) := by
  unfold execEret
  repeat' first
    | with_reducible (first | assumption | apply nextWf_quick | apply keepsMem_eretInstr | apply keepsMem_stop_done | apply keepsMem_set | apply keepsMem_map | apply KeepsMem.get_bind | apply KeepsMem.bind | apply KeepsMem.modify | apply wf_foldl | intro _)
    | split
    | exact wf_of_eq_pair ‹_› (by simp; assumption)
    | simp [*]

theorem nextWf_execSrd (a sr : Reg) (s : State) (hs : s.memory.wf = true) : NextWf (execSrd a sr s) := by
  unfold execSrd
  repeat' first
    | with_reducible (first | assumption | apply nextWf_fixed | apply wf_writeInt | apply keepsMem_stop_done | apply keepsMem_set | apply keepsMem_map | apply KeepsMem.get_bind | apply KeepsMem.bind | apply KeepsMem.modify | apply wf_foldl | intro _)
    | split
    | exact wf_of_eq_pair ‹_› (by simp; assumption)
    | simp [*]

theorem nextWf_execSwr (sr b : Reg) (s : State) (hs : s.memory.wf = true) : NextWf (execSwr sr b s) := by
  unfold execSwr
  repeat' first
    | with_reducible (first | assumption | apply nextWf_quick | apply keepsMem_swrBody | apply keepsMem_stop_done | apply keepsMem_set | apply keepsMem_map | apply KeepsMem.get_bind | apply KeepsMem.bind | apply KeepsMem.modify | apply wf_foldl | intro _)
    | split
    | exact wf_of_eq_pair ‹_› (by simp; assumption)
    | simp [*]

theorem nextWf_execLd (a b : Reg) (kind : Kind) (off : Fin 16) (s : State) (hs : s.memory.wf = true) : NextWf (execLd a b kind off s) := by
  unfold execLd
  repeat' first
    | with_reducible (first | assumption | apply nextWf_access | apply keepsMem_loadBody | apply keepsMem_stop_done | apply keepsMem_set | apply keepsMem_map | apply KeepsMem.get_bind | apply KeepsMem.bind | apply KeepsMem.modify | apply wf_foldl | intro _)
    | split
    | exact wf_of_eq_pair ‹_› (by simp; assumption)
    | simp [*]

theorem nextWf_execLdExt (a b : Reg) (kind : Kind) (x : MemX) (s : State) (hs : s.memory.wf = true) : NextWf (execLdExt a b kind x s) := by
  unfold execLdExt
  repeat' first
    | with_reducible (first | assumption | apply nextWf_access | apply keepsMem_loadBody | apply keepsMem_stop_done | apply keepsMem_set | apply keepsMem_map | apply KeepsMem.get_bind | apply KeepsMem.bind | apply KeepsMem.modify | apply wf_foldl | intro _)
    | split
    | exact wf_of_eq_pair ‹_› (by simp; assumption)
    | simp [*]

theorem nextWf_execSt (a b : Reg) (kind : Kind) (off : Fin 16) (s : State) (hs : s.memory.wf = true) : NextWf (execSt a b kind off s) := by
  unfold execSt
  repeat' first
    | with_reducible (first | assumption | apply nextWf_access | apply keepsMem_storeBody | apply keepsMem_stop_done | apply keepsMem_set | apply keepsMem_map | apply KeepsMem.get_bind | apply KeepsMem.bind | apply KeepsMem.modify | apply wf_foldl | intro _)
    | split
    | exact wf_of_eq_pair ‹_› (by simp; assumption)
    | simp [*]

theorem nextWf_execStExt (a b : Reg) (kind : Kind) (x : MemX) (s : State) (hs : s.memory.wf = true) : NextWf (execStExt a b kind x s) := by
  unfold execStExt
  repeat' first
    | with_reducible (first | assumption | apply nextWf_access | apply keepsMem_storeBody | apply keepsMem_stop_done | apply keepsMem_set | apply keepsMem_map | apply KeepsMem.get_bind | apply KeepsMem.bind | apply KeepsMem.modify | apply wf_foldl | intro _)
    | split
    | exact wf_of_eq_pair ‹_› (by simp; assumption)
    | simp [*]

theorem nextWf_execCld (a b : Reg) (off : Fin 16) (s : State) (hs : s.memory.wf = true) : NextWf (execCld a b off s) := by
  unfold execCld
  repeat' first
    | with_reducible (first | assumption | apply nextWf_access | apply keepsMem_capLoadBody | apply keepsMem_stop_done | apply keepsMem_set | apply keepsMem_map | apply KeepsMem.get_bind | apply KeepsMem.bind | apply KeepsMem.modify | apply wf_foldl | intro _)
    | split
    | exact wf_of_eq_pair ‹_› (by simp; assumption)
    | simp [*]

theorem nextWf_execCldExt (a b : Reg) (x : MemX) (s : State) (hs : s.memory.wf = true) : NextWf (execCldExt a b x s) := by
  unfold execCldExt
  repeat' first
    | with_reducible (first | assumption | apply nextWf_access | apply keepsMem_capLoadBody | apply keepsMem_stop_done | apply keepsMem_set | apply keepsMem_map | apply KeepsMem.get_bind | apply KeepsMem.bind | apply KeepsMem.modify | apply wf_foldl | intro _)
    | split
    | exact wf_of_eq_pair ‹_› (by simp; assumption)
    | simp [*]

theorem nextWf_execCst (a b : Reg) (off : Fin 16) (s : State) (hs : s.memory.wf = true) : NextWf (execCst a b off s) := by
  unfold execCst
  repeat' first
    | with_reducible (first | assumption | apply nextWf_access | apply keepsMem_capStoreBody | apply keepsMem_stop_done | apply keepsMem_set | apply keepsMem_map | apply KeepsMem.get_bind | apply KeepsMem.bind | apply KeepsMem.modify | apply wf_foldl | intro _)
    | split
    | exact wf_of_eq_pair ‹_› (by simp; assumption)
    | simp [*]

theorem nextWf_execCstExt (a b : Reg) (x : MemX) (s : State) (hs : s.memory.wf = true) : NextWf (execCstExt a b x s) := by
  unfold execCstExt
  repeat' first
    | with_reducible (first | assumption | apply nextWf_access | apply keepsMem_capStoreBody | apply keepsMem_stop_done | apply keepsMem_set | apply keepsMem_map | apply KeepsMem.get_bind | apply KeepsMem.bind | apply KeepsMem.modify | apply wf_foldl | intro _)
    | split
    | exact wf_of_eq_pair ‹_› (by simp; assumption)
    | simp [*]

theorem nextWf_execVld (a b : Reg) (off : Fin 16) (s : State) (hs : s.memory.wf = true) : NextWf (execVld a b off s) := by
  unfold execVld
  repeat' first
    | with_reducible (first | assumption | apply nextWf_access | apply keepsMem_vecLoad | apply keepsMem_stop_done | apply keepsMem_set | apply keepsMem_map | apply KeepsMem.get_bind | apply KeepsMem.bind | apply KeepsMem.modify | apply wf_foldl | intro _)
    | split
    | exact wf_of_eq_pair ‹_› (by simp; assumption)
    | simp [*]

theorem nextWf_execVldExt (a b : Reg) (m : MaskSel) (x : MemX) (s : State) (hs : s.memory.wf = true) : NextWf (execVldExt a b m x s) := by
  unfold execVldExt
  repeat' first
    | with_reducible (first | assumption | apply nextWf_access | apply keepsMem_vecLoad | apply keepsMem_stop_done | apply keepsMem_set | apply keepsMem_map | apply KeepsMem.get_bind | apply KeepsMem.bind | apply KeepsMem.modify | apply wf_foldl | intro _)
    | split
    | exact wf_of_eq_pair ‹_› (by simp; assumption)
    | simp [*]

theorem nextWf_execVst (a b : Reg) (off : Fin 16) (s : State) (hs : s.memory.wf = true) : NextWf (execVst a b off s) := by
  unfold execVst
  repeat' first
    | with_reducible (first | assumption | apply nextWf_access | apply keepsMem_vecStore | apply keepsMem_stop_done | apply keepsMem_set | apply keepsMem_map | apply KeepsMem.get_bind | apply KeepsMem.bind | apply KeepsMem.modify | apply wf_foldl | intro _)
    | split
    | exact wf_of_eq_pair ‹_› (by simp; assumption)
    | simp [*]

theorem nextWf_execVstExt (a b : Reg) (m : MaskSel) (x : MemX) (s : State) (hs : s.memory.wf = true) : NextWf (execVstExt a b m x s) := by
  unfold execVstExt
  repeat' first
    | with_reducible (first | assumption | apply nextWf_access | apply keepsMem_vecStore | apply keepsMem_stop_done | apply keepsMem_set | apply keepsMem_map | apply KeepsMem.get_bind | apply KeepsMem.bind | apply KeepsMem.modify | apply wf_foldl | intro _)
    | split
    | exact wf_of_eq_pair ‹_› (by simp; assumption)
    | simp [*]

theorem nextWf_execVgath (a b : Reg) (m : MaskSel) (x : MemX) (s : State) (hs : s.memory.wf = true) : NextWf (execVgath a b m x s) := by
  unfold execVgath
  repeat' first
    | with_reducible (first | assumption | apply nextWf_access | apply keepsMem_checkV | apply keepsMem_vecLoad | apply keepsMem_stop_done | apply keepsMem_set | apply keepsMem_map | apply KeepsMem.get_bind | apply KeepsMem.bind | apply KeepsMem.modify | apply wf_foldl | intro _)
    | split
    | exact wf_of_eq_pair ‹_› (by simp; assumption)
    | simp [*]

theorem nextWf_execVscat (a b : Reg) (m : MaskSel) (x : MemX) (s : State) (hs : s.memory.wf = true) : NextWf (execVscat a b m x s) := by
  unfold execVscat
  repeat' first
    | with_reducible (first | assumption | apply nextWf_access | apply keepsMem_checkV | apply keepsMem_vecStore | apply keepsMem_stop_done | apply keepsMem_set | apply keepsMem_map | apply KeepsMem.get_bind | apply KeepsMem.bind | apply KeepsMem.modify | apply wf_foldl | intro _)
    | split
    | exact wf_of_eq_pair ‹_› (by simp; assumption)
    | simp [*]

theorem nextWf_execEld (a b : Reg) (off : Fin 16) (s : State) (hs : s.memory.wf = true) : NextWf (execEld a b off s) := by
  unfold execEld
  repeat' first
    | with_reducible (first | assumption | apply nextWf_access | apply keepsMem_momLoad | apply keepsMem_stop_done | apply keepsMem_set | apply keepsMem_map | apply KeepsMem.get_bind | apply KeepsMem.bind | apply KeepsMem.modify | apply wf_foldl | intro _)
    | split
    | exact wf_of_eq_pair ‹_› (by simp; assumption)
    | simp [*]

theorem nextWf_execEldExt (a b : Reg) (m : MaskSel) (x : MemX) (s : State) (hs : s.memory.wf = true) : NextWf (execEldExt a b m x s) := by
  unfold execEldExt
  repeat' first
    | with_reducible (first | assumption | apply nextWf_access | apply keepsMem_momLoad | apply keepsMem_stop_done | apply keepsMem_set | apply keepsMem_map | apply KeepsMem.get_bind | apply KeepsMem.bind | apply KeepsMem.modify | apply wf_foldl | intro _)
    | split
    | exact wf_of_eq_pair ‹_› (by simp; assumption)
    | simp [*]

theorem nextWf_execEst (a b : Reg) (off : Fin 16) (s : State) (hs : s.memory.wf = true) : NextWf (execEst a b off s) := by
  unfold execEst
  repeat' first
    | with_reducible (first | assumption | apply nextWf_access | apply keepsMem_momStore | apply keepsMem_stop_done | apply keepsMem_set | apply keepsMem_map | apply KeepsMem.get_bind | apply KeepsMem.bind | apply KeepsMem.modify | apply wf_foldl | intro _)
    | split
    | exact wf_of_eq_pair ‹_› (by simp; assumption)
    | simp [*]

theorem nextWf_execEstExt (a b : Reg) (m : MaskSel) (x : MemX) (s : State) (hs : s.memory.wf = true) : NextWf (execEstExt a b m x s) := by
  unfold execEstExt
  repeat' first
    | with_reducible (first | assumption | apply nextWf_access | apply keepsMem_momStore | apply keepsMem_stop_done | apply keepsMem_set | apply keepsMem_map | apply KeepsMem.get_bind | apply KeepsMem.bind | apply KeepsMem.modify | apply wf_foldl | intro _)
    | split
    | exact wf_of_eq_pair ‹_› (by simp; assumption)
    | simp [*]

theorem nextWf_execAmo (a b d : Reg) (op : AmoOp) (narrow : Bool) (x : MemX) (s : State) (hs : s.memory.wf = true) : NextWf (execAmo a b d op narrow x s) := by
  unfold execAmo
  repeat' first
    | with_reducible (first | assumption | apply nextWf_access | apply keepsMem_amoBody | apply keepsMem_stop_done | apply keepsMem_set | apply keepsMem_map | apply KeepsMem.get_bind | apply KeepsMem.bind | apply KeepsMem.modify | apply wf_foldl | intro _)
    | split
    | exact wf_of_eq_pair ‹_› (by simp; assumption)
    | simp [*]

theorem nextWf_execCas (a b d : Reg) (narrow : Bool) (x : MemX) (s : State) (hs : s.memory.wf = true) : NextWf (execCas a b d narrow x s) := by
  unfold execCas
  repeat' first
    | with_reducible (first | assumption | apply nextWf_access | apply keepsMem_casBody | apply keepsMem_stop_done | apply keepsMem_set | apply keepsMem_map | apply KeepsMem.get_bind | apply KeepsMem.bind | apply KeepsMem.modify | apply wf_foldl | intro _)
    | split
    | exact wf_of_eq_pair ‹_› (by simp; assumption)
    | simp [*]

theorem nextWf_execCcas (a b d : Reg) (x : MemX) (s : State) (hs : s.memory.wf = true) : NextWf (execCcas a b d x s) := by
  unfold execCcas
  repeat' first
    | with_reducible (first | assumption | apply nextWf_access | apply keepsMem_ccasBody | apply keepsMem_stop_done | apply keepsMem_set | apply keepsMem_map | apply KeepsMem.get_bind | apply KeepsMem.bind | apply KeepsMem.modify | apply wf_foldl | intro _)
    | split
    | exact wf_of_eq_pair ‹_› (by simp; assumption)
    | simp [*]

theorem nextWf_execFence (sc : Scope) (s : State) (hs : s.memory.wf = true) : NextWf (execFence sc s) := by
  unfold execFence
  repeat' first
    | with_reducible (first | assumption | apply nextWf_slow | apply keepsMem_fenceBody | apply keepsMem_stop_done | apply keepsMem_set | apply keepsMem_map | apply KeepsMem.get_bind | apply KeepsMem.bind | apply KeepsMem.modify | apply wf_foldl | intro _)
    | split
    | exact wf_of_eq_pair ‹_› (by simp; assumption)
    | simp [*]

theorem nextWf_execStashMap (w b : Reg) (off len : Fin 1024) (s : State) (hs : s.memory.wf = true) : NextWf (execStashMap w b off len s) := by
  unfold execStashMap
  repeat' first
    | with_reducible (first | assumption | apply nextWf_quick | apply keepsMem_stashMapBody | apply keepsMem_stop_done | apply keepsMem_set | apply keepsMem_map | apply KeepsMem.get_bind | apply KeepsMem.bind | apply KeepsMem.modify | apply wf_foldl | intro _)
    | split
    | exact wf_of_eq_pair ‹_› (by simp; assumption)
    | simp [*]

theorem nextWf_execStashUnmap (w : Reg) (s : State) (hs : s.memory.wf = true) : NextWf (execStashUnmap w s) := by
  unfold execStashUnmap
  repeat' first
    | with_reducible (first | assumption | apply nextWf_slow | apply keepsMem_flushOne | apply keepsMem_stop_done | apply keepsMem_set | apply keepsMem_map | apply KeepsMem.get_bind | apply KeepsMem.bind | apply KeepsMem.modify | apply wf_foldl | intro _)
    | split
    | exact wf_of_eq_pair ‹_› (by simp; assumption)
    | simp [*]

theorem nextWf_execStashUnmapExt (s : State) (hs : s.memory.wf = true) : NextWf (execStashUnmapExt s) := by
  unfold execStashUnmapExt
  repeat' first
    | with_reducible (first | assumption | apply nextWf_slow | apply keepsMem_flushAll | apply keepsMem_stop_done | apply keepsMem_set | apply keepsMem_map | apply KeepsMem.get_bind | apply KeepsMem.bind | apply KeepsMem.modify | apply wf_foldl | intro _)
    | split
    | exact wf_of_eq_pair ‹_› (by simp; assumption)
    | simp [*]

theorem nextWf_execStashWb (w : Reg) (s : State) (hs : s.memory.wf = true) : NextWf (execStashWb w s) := by
  unfold execStashWb
  repeat' first
    | with_reducible (first | assumption | apply nextWf_slow | apply keepsMem_flushOne | apply keepsMem_stop_done | apply keepsMem_set | apply keepsMem_map | apply KeepsMem.get_bind | apply KeepsMem.bind | apply KeepsMem.modify | apply wf_foldl | intro _)
    | split
    | exact wf_of_eq_pair ‹_› (by simp; assumption)
    | simp [*]

theorem nextWf_execStashWbExt (s : State) (hs : s.memory.wf = true) : NextWf (execStashWbExt s) := by
  unfold execStashWbExt
  repeat' first
    | with_reducible (first | assumption | apply nextWf_slow | apply keepsMem_flushAll | apply keepsMem_stop_done | apply keepsMem_set | apply keepsMem_map | apply KeepsMem.get_bind | apply KeepsMem.bind | apply KeepsMem.modify | apply wf_foldl | intro _)
    | split
    | exact wf_of_eq_pair ‹_› (by simp; assumption)
    | simp [*]

theorem nextWf_execStashAp (a b c : Reg) (s : State) (hs : s.memory.wf = true) : NextWf (execStashAp a b c s) := by
  unfold execStashAp
  repeat' first
    | with_reducible (first | assumption | apply nextWf_quick | apply keepsMem_apertureCap | apply keepsMem_stop_done | apply keepsMem_set | apply keepsMem_map | apply KeepsMem.get_bind | apply KeepsMem.bind | apply KeepsMem.modify | apply wf_foldl | intro _)
    | split
    | exact wf_of_eq_pair ‹_› (by simp; assumption)
    | simp [*]

theorem nextWf_execCopy (a b c : Reg) (ch : Fin 4) (land : Bool) (s : State) (hs : s.memory.wf = true) : NextWf (execCopy a b c ch land s) := by
  unfold execCopy
  repeat' first
    | with_reducible (first | assumption | apply nextWf_slow | apply keepsMem_copyBody | apply keepsMem_stop_done | apply keepsMem_set | apply keepsMem_map | apply KeepsMem.get_bind | apply KeepsMem.bind | apply KeepsMem.modify | apply wf_foldl | intro _)
    | split
    | exact wf_of_eq_pair ‹_› (by simp; assumption)
    | simp [*]

theorem nextWf_execCopyWait (ch : Reg) (s : State) (hs : s.memory.wf = true) : NextWf (execCopyWait ch s) := by
  unfold execCopyWait
  repeat' first
    | with_reducible (first | assumption | apply nextWf_slow | apply keepsMem_copyWaitBody | apply keepsMem_stop_done | apply keepsMem_set | apply keepsMem_map | apply KeepsMem.get_bind | apply KeepsMem.bind | apply KeepsMem.modify | apply wf_foldl | intro _)
    | split
    | exact wf_of_eq_pair ‹_› (by simp; assumption)
    | simp [*]

theorem nextWf_execCopyWaitExt (d ch b : Reg) (imm : BitVec 24) (s : State) (hs : s.memory.wf = true) : NextWf (execCopyWaitExt d ch b imm s) := by
  unfold execCopyWaitExt
  repeat' first
    | with_reducible (first | assumption | apply nextWf_slow | apply keepsMem_copyPointBody | apply keepsMem_stop_done | apply keepsMem_set | apply keepsMem_map | apply KeepsMem.get_bind | apply KeepsMem.bind | apply KeepsMem.modify | apply wf_foldl | intro _)
    | split
    | exact wf_of_eq_pair ‹_› (by simp; assumption)
    | simp [*]

theorem nextWf_execVdup (a b : Reg) (s : State) (hs : s.memory.wf = true) : NextWf (execVdup a b s) := by
  unfold execVdup
  repeat' first
    | with_reducible (first | assumption | apply nextWf_slow | apply keepsMem_dupBody | apply keepsMem_stop_done | apply keepsMem_set | apply keepsMem_map | apply KeepsMem.get_bind | apply KeepsMem.bind | apply KeepsMem.modify | apply wf_foldl | intro _)
    | split
    | exact wf_of_eq_pair ‹_› (by simp; assumption)
    | simp [*]

theorem nextWf_execVdupExt (a b : Reg) (s : State) (hs : s.memory.wf = true) : NextWf (execVdupExt a b s) := by
  unfold execVdupExt
  repeat' first
    | with_reducible (first | assumption | apply nextWf_slow | apply keepsMem_dupBody | apply keepsMem_stop_done | apply keepsMem_set | apply keepsMem_map | apply KeepsMem.get_bind | apply KeepsMem.bind | apply KeepsMem.modify | apply wf_foldl | intro _)
    | split
    | exact wf_of_eq_pair ‹_› (by simp; assumption)
    | simp [*]

theorem nextWf_execVsplit (a b c : Reg) (s : State) (hs : s.memory.wf = true) : NextWf (execVsplit a b c s) := by
  unfold execVsplit
  repeat' first
    | with_reducible (first | assumption | apply nextWf_slow | apply keepsMem_splitBody | apply keepsMem_stop_done | apply keepsMem_set | apply keepsMem_map | apply KeepsMem.get_bind | apply KeepsMem.bind | apply KeepsMem.modify | apply wf_foldl | intro _)
    | split
    | exact wf_of_eq_pair ‹_› (by simp; assumption)
    | simp [*]

theorem nextWf_execVsplitExt (a b c : Reg) (imm : BitVec 24) (s : State) (hs : s.memory.wf = true) : NextWf (execVsplitExt a b c imm s) := by
  unfold execVsplitExt
  repeat' first
    | with_reducible (first | assumption | apply nextWf_slow | apply keepsMem_splitBody | apply keepsMem_stop_done | apply keepsMem_set | apply keepsMem_map | apply KeepsMem.get_bind | apply KeepsMem.bind | apply KeepsMem.modify | apply wf_foldl | intro _)
    | split
    | exact wf_of_eq_pair ‹_› (by simp; assumption)
    | simp [*]

theorem nextWf_execVnarrow (a b c : Reg) (s : State) (hs : s.memory.wf = true) : NextWf (execVnarrow a b c s) := by
  unfold execVnarrow
  repeat' first
    | with_reducible (first | assumption | apply nextWf_slow | apply keepsMem_narrowBody | apply keepsMem_stop_done | apply keepsMem_set | apply keepsMem_map | apply KeepsMem.get_bind | apply KeepsMem.bind | apply KeepsMem.modify | apply wf_foldl | intro _)
    | split
    | exact wf_of_eq_pair ‹_› (by simp; assumption)
    | simp [*]

theorem nextWf_execVnarrowExt (a b c : Reg) (imm : BitVec 24) (s : State) (hs : s.memory.wf = true) : NextWf (execVnarrowExt a b c imm s) := by
  unfold execVnarrowExt
  repeat' first
    | with_reducible (first | assumption | apply nextWf_slow | apply keepsMem_narrowBody | apply keepsMem_stop_done | apply keepsMem_set | apply keepsMem_map | apply KeepsMem.get_bind | apply KeepsMem.bind | apply KeepsMem.modify | apply wf_foldl | intro _)
    | split
    | exact wf_of_eq_pair ‹_› (by simp; assumption)
    | simp [*]

theorem nextWf_execVdrop (b : Reg) (s : State) (hs : s.memory.wf = true) : NextWf (execVdrop b s) := by
  unfold execVdrop
  repeat' first
    | with_reducible (first | assumption | apply nextWf_slow | apply keepsMem_dropBody | apply keepsMem_stop_done | apply keepsMem_set | apply keepsMem_map | apply KeepsMem.get_bind | apply KeepsMem.bind | apply KeepsMem.modify | apply wf_foldl | intro _)
    | split
    | exact wf_of_eq_pair ‹_› (by simp; assumption)
    | simp [*]

theorem nextWf_execVdropExt (b : Reg) (s : State) (hs : s.memory.wf = true) : NextWf (execVdropExt b s) := by
  unfold execVdropExt
  repeat' first
    | with_reducible (first | assumption | apply nextWf_slow | apply keepsMem_dropBody | apply keepsMem_stop_done | apply keepsMem_set | apply keepsMem_map | apply KeepsMem.get_bind | apply KeepsMem.bind | apply KeepsMem.modify | apply wf_foldl | intro _)
    | split
    | exact wf_of_eq_pair ‹_› (by simp; assumption)
    | simp [*]

theorem nextWf_execVpark (k b : Reg) (s : State) (hs : s.memory.wf = true) : NextWf (execVpark k b s) := by
  unfold execVpark
  repeat' first
    | with_reducible (first | assumption | apply nextWf_quick | apply keepsMem_parkBody | apply keepsMem_stop_done | apply keepsMem_set | apply keepsMem_map | apply KeepsMem.get_bind | apply KeepsMem.bind | apply KeepsMem.modify | apply wf_foldl | intro _)
    | split
    | exact wf_of_eq_pair ‹_› (by simp; assumption)
    | simp [*]

theorem nextWf_execVparkExt (k b : Reg) (s : State) (hs : s.memory.wf = true) : NextWf (execVparkExt k b s) := by
  unfold execVparkExt
  repeat' first
    | with_reducible (first | assumption | apply nextWf_quick | apply keepsMem_parkBody | apply keepsMem_stop_done | apply keepsMem_set | apply keepsMem_map | apply KeepsMem.get_bind | apply KeepsMem.bind | apply KeepsMem.modify | apply wf_foldl | intro _)
    | split
    | exact wf_of_eq_pair ‹_› (by simp; assumption)
    | simp [*]

theorem nextWf_execVtake (a k : Reg) (s : State) (hs : s.memory.wf = true) : NextWf (execVtake a k s) := by
  unfold execVtake
  repeat' first
    | with_reducible (first | assumption | apply nextWf_quick | apply keepsMem_takeBody | apply keepsMem_stop_done | apply keepsMem_set | apply keepsMem_map | apply KeepsMem.get_bind | apply KeepsMem.bind | apply KeepsMem.modify | apply wf_foldl | intro _)
    | split
    | exact wf_of_eq_pair ‹_› (by simp; assumption)
    | simp [*]

theorem nextWf_execVtakeExt (a k : Reg) (s : State) (hs : s.memory.wf = true) : NextWf (execVtakeExt a k s) := by
  unfold execVtakeExt
  repeat' first
    | with_reducible (first | assumption | apply nextWf_quick | apply keepsMem_takeBody | apply keepsMem_stop_done | apply keepsMem_set | apply keepsMem_map | apply KeepsMem.get_bind | apply KeepsMem.bind | apply KeepsMem.modify | apply wf_foldl | intro _)
    | split
    | exact wf_of_eq_pair ‹_› (by simp; assumption)
    | simp [*]

theorem nextWf_execValloc (a d c : Reg) (imm : BitVec 24) (s : State) (hs : s.memory.wf = true) : NextWf (execValloc a d c imm s) := by
  unfold execValloc
  repeat' first
    | with_reducible (first | assumption | apply nextWf_slow | apply keepsMem_allocBody | apply keepsMem_stop_done | apply keepsMem_set | apply keepsMem_map | apply KeepsMem.get_bind | apply KeepsMem.bind | apply KeepsMem.modify | apply wf_foldl | intro _)
    | split
    | exact wf_of_eq_pair ‹_› (by simp; assumption)
    | simp [*]

theorem nextWf_execPmLook (a b : Reg) (s : State) (hs : s.memory.wf = true) : NextWf (execPmLook a b s) := by
  unfold execPmLook
  repeat' first
    | with_reducible (first | assumption | apply nextWf_quick | apply keepsMem_lookBody | apply keepsMem_stop_done | apply keepsMem_set | apply keepsMem_map | apply KeepsMem.get_bind | apply KeepsMem.bind | apply KeepsMem.modify | apply wf_foldl | intro _)
    | split
    | exact wf_of_eq_pair ‹_› (by simp; assumption)
    | simp [*]

theorem nextWf_execPmFill (b c : Reg) (i : Fin 256) (s : State) (hs : s.memory.wf = true) : NextWf (execPmFill b c i s) := by
  unfold execPmFill
  repeat' first
    | with_reducible (first | assumption | apply nextWf_quick | apply keepsMem_fillBody | apply keepsMem_stop_done | apply keepsMem_set | apply keepsMem_map | apply KeepsMem.get_bind | apply KeepsMem.bind | apply KeepsMem.modify | apply wf_foldl | intro _)
    | split
    | exact wf_of_eq_pair ‹_› (by simp; assumption)
    | simp [*]

theorem nextWf_execKvApp (a b c d e : Reg) (n : Fin 256) (s : State) (hs : s.memory.wf = true) : NextWf (execKvApp a b c d e n s) := by
  unfold execKvApp
  repeat' first
    | with_reducible (first | assumption | apply nextWf_slow | apply keepsMem_kvAppBody | apply keepsMem_stop_done | apply keepsMem_set | apply keepsMem_map | apply KeepsMem.get_bind | apply KeepsMem.bind | apply KeepsMem.modify | apply wf_foldl | intro _)
    | split
    | exact wf_of_eq_pair ‹_› (by simp; assumption)
    | simp [*]

theorem nextWf_execCairnLook (a b c d : Reg) (s : State) (hs : s.memory.wf = true) : NextWf (execCairnLook a b c d s) := by
  unfold execCairnLook
  repeat' first
    | with_reducible (first | assumption | apply nextWf_slow | apply keepsMem_cairnLookBody | apply keepsMem_stop_done | apply keepsMem_set | apply keepsMem_map | apply KeepsMem.get_bind | apply KeepsMem.bind | apply KeepsMem.modify | apply wf_foldl | intro _)
    | split
    | exact wf_of_eq_pair ‹_› (by simp; assumption)
    | simp [*]

theorem nextWf_execCairnIns (a b c d : Reg) (s : State) (hs : s.memory.wf = true) : NextWf (execCairnIns a b c d s) := by
  unfold execCairnIns
  repeat' first
    | with_reducible (first | assumption | apply nextWf_slow | apply keepsMem_cairnInsBody | apply keepsMem_stop_done | apply keepsMem_set | apply keepsMem_map | apply KeepsMem.get_bind | apply KeepsMem.bind | apply KeepsMem.modify | apply wf_foldl | intro _)
    | split
    | exact wf_of_eq_pair ‹_› (by simp; assumption)
    | simp [*]

theorem nextWf_execCairnRel (a c d : Reg) (s : State) (hs : s.memory.wf = true) : NextWf (execCairnRel a c d s) := by
  unfold execCairnRel
  repeat' first
    | with_reducible (first | assumption | apply nextWf_slow | apply keepsMem_cairnRelBody | apply keepsMem_stop_done | apply keepsMem_set | apply keepsMem_map | apply KeepsMem.get_bind | apply KeepsMem.bind | apply KeepsMem.modify | apply wf_foldl | intro _)
    | split
    | exact wf_of_eq_pair ‹_› (by simp; assumption)
    | simp [*]

theorem nextWf_execAdmRsv (a b c d : Reg) (s : State) (hs : s.memory.wf = true) : NextWf (execAdmRsv a b c d s) := by
  unfold execAdmRsv
  repeat' first
    | with_reducible (first | assumption | apply nextWf_slow | apply keepsMem_admRsvBody | apply keepsMem_stop_done | apply keepsMem_set | apply keepsMem_map | apply KeepsMem.get_bind | apply KeepsMem.bind | apply KeepsMem.modify | apply wf_foldl | intro _)
    | split
    | exact wf_of_eq_pair ‹_› (by simp; assumption)
    | simp [*]

theorem nextWf_execAdmEnd (a b : Reg) (s : State) (hs : s.memory.wf = true) : NextWf (execAdmEnd a b s) := by
  unfold execAdmEnd
  repeat' first
    | with_reducible (first | assumption | apply nextWf_slow | apply keepsMem_admEndBody | apply keepsMem_stop_done | apply keepsMem_set | apply keepsMem_map | apply KeepsMem.get_bind | apply KeepsMem.bind | apply KeepsMem.modify | apply wf_foldl | intro _)
    | split
    | exact wf_of_eq_pair ‹_› (by simp; assumption)
    | simp [*]

theorem nextWf_execVadd (a b c : Reg) (fmt : Fmt) (s : State) (hs : s.memory.wf = true) : NextWf (execVadd a b c fmt s) := by
  unfold execVadd
  repeat' first
    | with_reducible (first | assumption | apply nextWf_quick | apply keepsMem_binaryBody | apply keepsMem_stop_done | apply keepsMem_set | apply keepsMem_map | apply KeepsMem.get_bind | apply KeepsMem.bind | apply KeepsMem.modify | apply wf_foldl | intro _)
    | split
    | exact wf_of_eq_pair ‹_› (by simp; assumption)
    | simp [*]

theorem nextWf_execVaddExt (a b c : Reg) (sat : Bool) (x : VecX) (s : State) (hs : s.memory.wf = true) : NextWf (execVaddExt a b c sat x s) := by
  unfold execVaddExt
  repeat' first
    | with_reducible (first | assumption | apply nextWf_quick | apply keepsMem_binaryBody | apply keepsMem_stop_done | apply keepsMem_set | apply keepsMem_map | apply KeepsMem.get_bind | apply KeepsMem.bind | apply KeepsMem.modify | apply wf_foldl | intro _)
    | split
    | exact wf_of_eq_pair ‹_› (by simp; assumption)
    | simp [*]

theorem nextWf_execVsub (a b c : Reg) (fmt : Fmt) (s : State) (hs : s.memory.wf = true) : NextWf (execVsub a b c fmt s) := by
  unfold execVsub
  repeat' first
    | with_reducible (first | assumption | apply nextWf_quick | apply keepsMem_binaryBody | apply keepsMem_stop_done | apply keepsMem_set | apply keepsMem_map | apply KeepsMem.get_bind | apply KeepsMem.bind | apply KeepsMem.modify | apply wf_foldl | intro _)
    | split
    | exact wf_of_eq_pair ‹_› (by simp; assumption)
    | simp [*]

theorem nextWf_execVsubExt (a b c : Reg) (sat : Bool) (x : VecX) (s : State) (hs : s.memory.wf = true) : NextWf (execVsubExt a b c sat x s) := by
  unfold execVsubExt
  repeat' first
    | with_reducible (first | assumption | apply nextWf_quick | apply keepsMem_binaryBody | apply keepsMem_stop_done | apply keepsMem_set | apply keepsMem_map | apply KeepsMem.get_bind | apply KeepsMem.bind | apply KeepsMem.modify | apply wf_foldl | intro _)
    | split
    | exact wf_of_eq_pair ‹_› (by simp; assumption)
    | simp [*]

theorem nextWf_execVmul (a b c : Reg) (fmt : Fmt) (s : State) (hs : s.memory.wf = true) : NextWf (execVmul a b c fmt s) := by
  unfold execVmul
  repeat' first
    | with_reducible (first | assumption | apply nextWf_quick | apply keepsMem_binaryBody | apply keepsMem_stop_done | apply keepsMem_set | apply keepsMem_map | apply KeepsMem.get_bind | apply KeepsMem.bind | apply KeepsMem.modify | apply wf_foldl | intro _)
    | split
    | exact wf_of_eq_pair ‹_› (by simp; assumption)
    | simp [*]

theorem nextWf_execVmulExt (a b c : Reg) (sat : Bool) (x : VecX) (s : State) (hs : s.memory.wf = true) : NextWf (execVmulExt a b c sat x s) := by
  unfold execVmulExt
  repeat' first
    | with_reducible (first | assumption | apply nextWf_quick | apply keepsMem_binaryBody | apply keepsMem_stop_done | apply keepsMem_set | apply keepsMem_map | apply KeepsMem.get_bind | apply KeepsMem.bind | apply KeepsMem.modify | apply wf_foldl | intro _)
    | split
    | exact wf_of_eq_pair ‹_› (by simp; assumption)
    | simp [*]

theorem nextWf_execVfma (a b c : Reg) (fmt : Fmt) (s : State) (hs : s.memory.wf = true) : NextWf (execVfma a b c fmt s) := by
  unfold execVfma
  repeat' first
    | with_reducible (first | assumption | apply nextWf_quick | apply keepsMem_binaryBody | apply keepsMem_stop_done | apply keepsMem_set | apply keepsMem_map | apply KeepsMem.get_bind | apply KeepsMem.bind | apply KeepsMem.modify | apply wf_foldl | intro _)
    | split
    | exact wf_of_eq_pair ‹_› (by simp; assumption)
    | simp [*]

theorem nextWf_execVfmaExt (a b c : Reg) (x : VecX) (s : State) (hs : s.memory.wf = true) : NextWf (execVfmaExt a b c x s) := by
  unfold execVfmaExt
  repeat' first
    | with_reducible (first | assumption | apply nextWf_quick | apply keepsMem_binaryBody | apply keepsMem_stop_done | apply keepsMem_set | apply keepsMem_map | apply KeepsMem.get_bind | apply KeepsMem.bind | apply KeepsMem.modify | apply wf_foldl | intro _)
    | split
    | exact wf_of_eq_pair ‹_› (by simp; assumption)
    | simp [*]

theorem nextWf_execVmin (a b c : Reg) (fmt : Fmt) (s : State) (hs : s.memory.wf = true) : NextWf (execVmin a b c fmt s) := by
  unfold execVmin
  repeat' first
    | with_reducible (first | assumption | apply nextWf_quick | apply keepsMem_binaryBody | apply keepsMem_stop_done | apply keepsMem_set | apply keepsMem_map | apply KeepsMem.get_bind | apply KeepsMem.bind | apply KeepsMem.modify | apply wf_foldl | intro _)
    | split
    | exact wf_of_eq_pair ‹_› (by simp; assumption)
    | simp [*]

theorem nextWf_execVminExt (a b c : Reg) (x : VecX) (s : State) (hs : s.memory.wf = true) : NextWf (execVminExt a b c x s) := by
  unfold execVminExt
  repeat' first
    | with_reducible (first | assumption | apply nextWf_quick | apply keepsMem_binaryBody | apply keepsMem_stop_done | apply keepsMem_set | apply keepsMem_map | apply KeepsMem.get_bind | apply KeepsMem.bind | apply KeepsMem.modify | apply wf_foldl | intro _)
    | split
    | exact wf_of_eq_pair ‹_› (by simp; assumption)
    | simp [*]

theorem nextWf_execVmax (a b c : Reg) (fmt : Fmt) (s : State) (hs : s.memory.wf = true) : NextWf (execVmax a b c fmt s) := by
  unfold execVmax
  repeat' first
    | with_reducible (first | assumption | apply nextWf_quick | apply keepsMem_binaryBody | apply keepsMem_stop_done | apply keepsMem_set | apply keepsMem_map | apply KeepsMem.get_bind | apply KeepsMem.bind | apply KeepsMem.modify | apply wf_foldl | intro _)
    | split
    | exact wf_of_eq_pair ‹_› (by simp; assumption)
    | simp [*]

theorem nextWf_execVmaxExt (a b c : Reg) (x : VecX) (s : State) (hs : s.memory.wf = true) : NextWf (execVmaxExt a b c x s) := by
  unfold execVmaxExt
  repeat' first
    | with_reducible (first | assumption | apply nextWf_quick | apply keepsMem_binaryBody | apply keepsMem_stop_done | apply keepsMem_set | apply keepsMem_map | apply KeepsMem.get_bind | apply KeepsMem.bind | apply KeepsMem.modify | apply wf_foldl | intro _)
    | split
    | exact wf_of_eq_pair ‹_› (by simp; assumption)
    | simp [*]

theorem nextWf_execVabs (a b : Reg) (fmt : Fmt) (s : State) (hs : s.memory.wf = true) : NextWf (execVabs a b fmt s) := by
  unfold execVabs
  repeat' first
    | with_reducible (first | assumption | apply nextWf_quick | apply keepsMem_unaryBody | apply keepsMem_stop_done | apply keepsMem_set | apply keepsMem_map | apply KeepsMem.get_bind | apply KeepsMem.bind | apply KeepsMem.modify | apply wf_foldl | intro _)
    | split
    | exact wf_of_eq_pair ‹_› (by simp; assumption)
    | simp [*]

theorem nextWf_execVabsExt (a b : Reg) (sat : Bool) (x : VecX) (s : State) (hs : s.memory.wf = true) : NextWf (execVabsExt a b sat x s) := by
  unfold execVabsExt
  repeat' first
    | with_reducible (first | assumption | apply nextWf_quick | apply keepsMem_unaryBody | apply keepsMem_stop_done | apply keepsMem_set | apply keepsMem_map | apply KeepsMem.get_bind | apply KeepsMem.bind | apply KeepsMem.modify | apply wf_foldl | intro _)
    | split
    | exact wf_of_eq_pair ‹_› (by simp; assumption)
    | simp [*]

theorem nextWf_execVneg (a b : Reg) (fmt : Fmt) (s : State) (hs : s.memory.wf = true) : NextWf (execVneg a b fmt s) := by
  unfold execVneg
  repeat' first
    | with_reducible (first | assumption | apply nextWf_quick | apply keepsMem_unaryBody | apply keepsMem_stop_done | apply keepsMem_set | apply keepsMem_map | apply KeepsMem.get_bind | apply KeepsMem.bind | apply KeepsMem.modify | apply wf_foldl | intro _)
    | split
    | exact wf_of_eq_pair ‹_› (by simp; assumption)
    | simp [*]

theorem nextWf_execVnegExt (a b : Reg) (sat : Bool) (x : VecX) (s : State) (hs : s.memory.wf = true) : NextWf (execVnegExt a b sat x s) := by
  unfold execVnegExt
  repeat' first
    | with_reducible (first | assumption | apply nextWf_quick | apply keepsMem_unaryBody | apply keepsMem_stop_done | apply keepsMem_set | apply keepsMem_map | apply KeepsMem.get_bind | apply KeepsMem.bind | apply KeepsMem.modify | apply wf_foldl | intro _)
    | split
    | exact wf_of_eq_pair ‹_› (by simp; assumption)
    | simp [*]

theorem nextWf_execVdiv (a b c : Reg) (fmt : Fmt) (s : State) (hs : s.memory.wf = true) : NextWf (execVdiv a b c fmt s) := by
  unfold execVdiv
  repeat' first
    | with_reducible (first | assumption | apply nextWf_quick | apply keepsMem_binaryBody | apply keepsMem_stop_done | apply keepsMem_set | apply keepsMem_map | apply KeepsMem.get_bind | apply KeepsMem.bind | apply KeepsMem.modify | apply wf_foldl | intro _)
    | split
    | exact wf_of_eq_pair ‹_› (by simp; assumption)
    | simp [*]

theorem nextWf_execVdivExt (a b c : Reg) (x : VecX) (s : State) (hs : s.memory.wf = true) : NextWf (execVdivExt a b c x s) := by
  unfold execVdivExt
  repeat' first
    | with_reducible (first | assumption | apply nextWf_quick | apply keepsMem_binaryBody | apply keepsMem_stop_done | apply keepsMem_set | apply keepsMem_map | apply KeepsMem.get_bind | apply KeepsMem.bind | apply KeepsMem.modify | apply wf_foldl | intro _)
    | split
    | exact wf_of_eq_pair ‹_› (by simp; assumption)
    | simp [*]

theorem nextWf_execVsqrt (a b : Reg) (fmt : Fmt) (s : State) (hs : s.memory.wf = true) : NextWf (execVsqrt a b fmt s) := by
  unfold execVsqrt
  repeat' first
    | with_reducible (first | assumption | apply nextWf_quick | apply keepsMem_unaryBody | apply keepsMem_stop_done | apply keepsMem_set | apply keepsMem_map | apply KeepsMem.get_bind | apply KeepsMem.bind | apply KeepsMem.modify | apply wf_foldl | intro _)
    | split
    | exact wf_of_eq_pair ‹_› (by simp; assumption)
    | simp [*]

theorem nextWf_execVsqrtExt (a b : Reg) (x : VecX) (s : State) (hs : s.memory.wf = true) : NextWf (execVsqrtExt a b x s) := by
  unfold execVsqrtExt
  repeat' first
    | with_reducible (first | assumption | apply nextWf_quick | apply keepsMem_unaryBody | apply keepsMem_stop_done | apply keepsMem_set | apply keepsMem_map | apply KeepsMem.get_bind | apply KeepsMem.bind | apply KeepsMem.modify | apply wf_foldl | intro _)
    | split
    | exact wf_of_eq_pair ‹_› (by simp; assumption)
    | simp [*]

theorem nextWf_execVrsqrt (a b : Reg) (fmt : Fmt) (s : State) (hs : s.memory.wf = true) : NextWf (execVrsqrt a b fmt s) := by
  unfold execVrsqrt
  repeat' first
    | with_reducible (first | assumption | apply nextWf_quick | apply keepsMem_unaryBody | apply keepsMem_stop_done | apply keepsMem_set | apply keepsMem_map | apply KeepsMem.get_bind | apply KeepsMem.bind | apply KeepsMem.modify | apply wf_foldl | intro _)
    | split
    | exact wf_of_eq_pair ‹_› (by simp; assumption)
    | simp [*]

theorem nextWf_execVrsqrtExt (a b : Reg) (x : VecX) (s : State) (hs : s.memory.wf = true) : NextWf (execVrsqrtExt a b x s) := by
  unfold execVrsqrtExt
  repeat' first
    | with_reducible (first | assumption | apply nextWf_quick | apply keepsMem_unaryBody | apply keepsMem_stop_done | apply keepsMem_set | apply keepsMem_map | apply KeepsMem.get_bind | apply KeepsMem.bind | apply KeepsMem.modify | apply wf_foldl | intro _)
    | split
    | exact wf_of_eq_pair ‹_› (by simp; assumption)
    | simp [*]

theorem nextWf_execVexp (a b : Reg) (fmt : Fmt) (s : State) (hs : s.memory.wf = true) : NextWf (execVexp a b fmt s) := by
  unfold execVexp
  repeat' first
    | with_reducible (first | assumption | apply nextWf_quick | apply keepsMem_unaryBody | apply keepsMem_stop_done | apply keepsMem_set | apply keepsMem_map | apply KeepsMem.get_bind | apply KeepsMem.bind | apply KeepsMem.modify | apply wf_foldl | intro _)
    | split
    | exact wf_of_eq_pair ‹_› (by simp; assumption)
    | simp [*]

theorem nextWf_execVexpExt (a b : Reg) (x : VecX) (s : State) (hs : s.memory.wf = true) : NextWf (execVexpExt a b x s) := by
  unfold execVexpExt
  repeat' first
    | with_reducible (first | assumption | apply nextWf_quick | apply keepsMem_unaryBody | apply keepsMem_stop_done | apply keepsMem_set | apply keepsMem_map | apply KeepsMem.get_bind | apply KeepsMem.bind | apply KeepsMem.modify | apply wf_foldl | intro _)
    | split
    | exact wf_of_eq_pair ‹_› (by simp; assumption)
    | simp [*]

theorem nextWf_execVlog (a b : Reg) (fmt : Fmt) (s : State) (hs : s.memory.wf = true) : NextWf (execVlog a b fmt s) := by
  unfold execVlog
  repeat' first
    | with_reducible (first | assumption | apply nextWf_quick | apply keepsMem_unaryBody | apply keepsMem_stop_done | apply keepsMem_set | apply keepsMem_map | apply KeepsMem.get_bind | apply KeepsMem.bind | apply KeepsMem.modify | apply wf_foldl | intro _)
    | split
    | exact wf_of_eq_pair ‹_› (by simp; assumption)
    | simp [*]

theorem nextWf_execVlogExt (a b : Reg) (x : VecX) (s : State) (hs : s.memory.wf = true) : NextWf (execVlogExt a b x s) := by
  unfold execVlogExt
  repeat' first
    | with_reducible (first | assumption | apply nextWf_quick | apply keepsMem_unaryBody | apply keepsMem_stop_done | apply keepsMem_set | apply keepsMem_map | apply KeepsMem.get_bind | apply KeepsMem.bind | apply KeepsMem.modify | apply wf_foldl | intro _)
    | split
    | exact wf_of_eq_pair ‹_› (by simp; assumption)
    | simp [*]

theorem nextWf_execVsig (a b : Reg) (fmt : Fmt) (s : State) (hs : s.memory.wf = true) : NextWf (execVsig a b fmt s) := by
  unfold execVsig
  repeat' first
    | with_reducible (first | assumption | apply nextWf_quick | apply keepsMem_unaryBody | apply keepsMem_stop_done | apply keepsMem_set | apply keepsMem_map | apply KeepsMem.get_bind | apply KeepsMem.bind | apply KeepsMem.modify | apply wf_foldl | intro _)
    | split
    | exact wf_of_eq_pair ‹_› (by simp; assumption)
    | simp [*]

theorem nextWf_execVsigExt (a b : Reg) (x : VecX) (s : State) (hs : s.memory.wf = true) : NextWf (execVsigExt a b x s) := by
  unfold execVsigExt
  repeat' first
    | with_reducible (first | assumption | apply nextWf_quick | apply keepsMem_unaryBody | apply keepsMem_stop_done | apply keepsMem_set | apply keepsMem_map | apply KeepsMem.get_bind | apply KeepsMem.bind | apply KeepsMem.modify | apply wf_foldl | intro _)
    | split
    | exact wf_of_eq_pair ‹_› (by simp; assumption)
    | simp [*]

theorem nextWf_execVtanh (a b : Reg) (fmt : Fmt) (s : State) (hs : s.memory.wf = true) : NextWf (execVtanh a b fmt s) := by
  unfold execVtanh
  repeat' first
    | with_reducible (first | assumption | apply nextWf_quick | apply keepsMem_unaryBody | apply keepsMem_stop_done | apply keepsMem_set | apply keepsMem_map | apply KeepsMem.get_bind | apply KeepsMem.bind | apply KeepsMem.modify | apply wf_foldl | intro _)
    | split
    | exact wf_of_eq_pair ‹_› (by simp; assumption)
    | simp [*]

theorem nextWf_execVtanhExt (a b : Reg) (x : VecX) (s : State) (hs : s.memory.wf = true) : NextWf (execVtanhExt a b x s) := by
  unfold execVtanhExt
  repeat' first
    | with_reducible (first | assumption | apply nextWf_quick | apply keepsMem_unaryBody | apply keepsMem_stop_done | apply keepsMem_set | apply keepsMem_map | apply KeepsMem.get_bind | apply KeepsMem.bind | apply KeepsMem.modify | apply wf_foldl | intro _)
    | split
    | exact wf_of_eq_pair ‹_› (by simp; assumption)
    | simp [*]

theorem nextWf_execVaddc (a b : Reg) (s : State) (hs : s.memory.wf = true) : NextWf (execVaddc a b s) := by
  unfold execVaddc
  repeat' first
    | with_reducible (first | assumption | apply nextWf_quick | apply keepsMem_vaddcBody | apply keepsMem_stop_done | apply keepsMem_set | apply keepsMem_map | apply KeepsMem.get_bind | apply KeepsMem.bind | apply KeepsMem.modify | apply wf_foldl | intro _)
    | split
    | exact wf_of_eq_pair ‹_› (by simp; assumption)
    | simp [*]

theorem nextWf_execVaddcExt (a b : Reg) (x : VecX) (s : State) (hs : s.memory.wf = true) : NextWf (execVaddcExt a b x s) := by
  unfold execVaddcExt
  repeat' first
    | with_reducible (first | assumption | apply nextWf_quick | apply keepsMem_vaddcBody | apply keepsMem_stop_done | apply keepsMem_set | apply keepsMem_map | apply KeepsMem.get_bind | apply KeepsMem.bind | apply KeepsMem.modify | apply wf_foldl | intro _)
    | split
    | exact wf_of_eq_pair ‹_› (by simp; assumption)
    | simp [*]

theorem nextWf_execVand (a b c : Reg) (fmt : Fmt) (s : State) (hs : s.memory.wf = true) : NextWf (execVand a b c fmt s) := by
  unfold execVand
  repeat' first
    | with_reducible (first | assumption | apply nextWf_quick | apply keepsMem_binaryBody | apply keepsMem_stop_done | apply keepsMem_set | apply keepsMem_map | apply KeepsMem.get_bind | apply KeepsMem.bind | apply KeepsMem.modify | apply wf_foldl | intro _)
    | split
    | exact wf_of_eq_pair ‹_› (by simp; assumption)
    | simp [*]

theorem nextWf_execVandExt (a b c : Reg) (x : VecX) (s : State) (hs : s.memory.wf = true) : NextWf (execVandExt a b c x s) := by
  unfold execVandExt
  repeat' first
    | with_reducible (first | assumption | apply nextWf_quick | apply keepsMem_binaryBody | apply keepsMem_stop_done | apply keepsMem_set | apply keepsMem_map | apply KeepsMem.get_bind | apply KeepsMem.bind | apply KeepsMem.modify | apply wf_foldl | intro _)
    | split
    | exact wf_of_eq_pair ‹_› (by simp; assumption)
    | simp [*]

theorem nextWf_execVor (a b c : Reg) (fmt : Fmt) (s : State) (hs : s.memory.wf = true) : NextWf (execVor a b c fmt s) := by
  unfold execVor
  repeat' first
    | with_reducible (first | assumption | apply nextWf_quick | apply keepsMem_binaryBody | apply keepsMem_stop_done | apply keepsMem_set | apply keepsMem_map | apply KeepsMem.get_bind | apply KeepsMem.bind | apply KeepsMem.modify | apply wf_foldl | intro _)
    | split
    | exact wf_of_eq_pair ‹_› (by simp; assumption)
    | simp [*]

theorem nextWf_execVorExt (a b c : Reg) (x : VecX) (s : State) (hs : s.memory.wf = true) : NextWf (execVorExt a b c x s) := by
  unfold execVorExt
  repeat' first
    | with_reducible (first | assumption | apply nextWf_quick | apply keepsMem_binaryBody | apply keepsMem_stop_done | apply keepsMem_set | apply keepsMem_map | apply KeepsMem.get_bind | apply KeepsMem.bind | apply KeepsMem.modify | apply wf_foldl | intro _)
    | split
    | exact wf_of_eq_pair ‹_› (by simp; assumption)
    | simp [*]

theorem nextWf_execVxor (a b c : Reg) (fmt : Fmt) (s : State) (hs : s.memory.wf = true) : NextWf (execVxor a b c fmt s) := by
  unfold execVxor
  repeat' first
    | with_reducible (first | assumption | apply nextWf_quick | apply keepsMem_binaryBody | apply keepsMem_stop_done | apply keepsMem_set | apply keepsMem_map | apply KeepsMem.get_bind | apply KeepsMem.bind | apply KeepsMem.modify | apply wf_foldl | intro _)
    | split
    | exact wf_of_eq_pair ‹_› (by simp; assumption)
    | simp [*]

theorem nextWf_execVxorExt (a b c : Reg) (x : VecX) (s : State) (hs : s.memory.wf = true) : NextWf (execVxorExt a b c x s) := by
  unfold execVxorExt
  repeat' first
    | with_reducible (first | assumption | apply nextWf_quick | apply keepsMem_binaryBody | apply keepsMem_stop_done | apply keepsMem_set | apply keepsMem_map | apply KeepsMem.get_bind | apply KeepsMem.bind | apply KeepsMem.modify | apply wf_foldl | intro _)
    | split
    | exact wf_of_eq_pair ‹_› (by simp; assumption)
    | simp [*]

theorem nextWf_execVshl (a b c : Reg) (fmt : Fmt) (s : State) (hs : s.memory.wf = true) : NextWf (execVshl a b c fmt s) := by
  unfold execVshl
  repeat' first
    | with_reducible (first | assumption | apply nextWf_quick | apply keepsMem_binaryBody | apply keepsMem_stop_done | apply keepsMem_set | apply keepsMem_map | apply KeepsMem.get_bind | apply KeepsMem.bind | apply KeepsMem.modify | apply wf_foldl | intro _)
    | split
    | exact wf_of_eq_pair ‹_› (by simp; assumption)
    | simp [*]

theorem nextWf_execVshlExt (a b c : Reg) (x : VecX) (s : State) (hs : s.memory.wf = true) : NextWf (execVshlExt a b c x s) := by
  unfold execVshlExt
  repeat' first
    | with_reducible (first | assumption | apply nextWf_quick | apply keepsMem_binaryBody | apply keepsMem_stop_done | apply keepsMem_set | apply keepsMem_map | apply KeepsMem.get_bind | apply KeepsMem.bind | apply KeepsMem.modify | apply wf_foldl | intro _)
    | split
    | exact wf_of_eq_pair ‹_› (by simp; assumption)
    | simp [*]

theorem nextWf_execVshr (a b c : Reg) (fmt : Fmt) (s : State) (hs : s.memory.wf = true) : NextWf (execVshr a b c fmt s) := by
  unfold execVshr
  repeat' first
    | with_reducible (first | assumption | apply nextWf_quick | apply keepsMem_binaryBody | apply keepsMem_stop_done | apply keepsMem_set | apply keepsMem_map | apply KeepsMem.get_bind | apply KeepsMem.bind | apply KeepsMem.modify | apply wf_foldl | intro _)
    | split
    | exact wf_of_eq_pair ‹_› (by simp; assumption)
    | simp [*]

theorem nextWf_execVshrExt (a b c : Reg) (x : VecX) (s : State) (hs : s.memory.wf = true) : NextWf (execVshrExt a b c x s) := by
  unfold execVshrExt
  repeat' first
    | with_reducible (first | assumption | apply nextWf_quick | apply keepsMem_binaryBody | apply keepsMem_stop_done | apply keepsMem_set | apply keepsMem_map | apply KeepsMem.get_bind | apply KeepsMem.bind | apply KeepsMem.modify | apply wf_foldl | intro _)
    | split
    | exact wf_of_eq_pair ‹_› (by simp; assumption)
    | simp [*]

theorem nextWf_execVsra (a b c : Reg) (fmt : Fmt) (s : State) (hs : s.memory.wf = true) : NextWf (execVsra a b c fmt s) := by
  unfold execVsra
  repeat' first
    | with_reducible (first | assumption | apply nextWf_quick | apply keepsMem_binaryBody | apply keepsMem_stop_done | apply keepsMem_set | apply keepsMem_map | apply KeepsMem.get_bind | apply KeepsMem.bind | apply KeepsMem.modify | apply wf_foldl | intro _)
    | split
    | exact wf_of_eq_pair ‹_› (by simp; assumption)
    | simp [*]

theorem nextWf_execVsraExt (a b c : Reg) (x : VecX) (s : State) (hs : s.memory.wf = true) : NextWf (execVsraExt a b c x s) := by
  unfold execVsraExt
  repeat' first
    | with_reducible (first | assumption | apply nextWf_quick | apply keepsMem_binaryBody | apply keepsMem_stop_done | apply keepsMem_set | apply keepsMem_map | apply KeepsMem.get_bind | apply KeepsMem.bind | apply KeepsMem.modify | apply wf_foldl | intro _)
    | split
    | exact wf_of_eq_pair ‹_› (by simp; assumption)
    | simp [*]

theorem nextWf_execVmov (a b : Reg) (fmt : Fmt) (s : State) (hs : s.memory.wf = true) : NextWf (execVmov a b fmt s) := by
  unfold execVmov
  repeat' first
    | with_reducible (first | assumption | apply nextWf_quick | apply keepsMem_unaryBody | apply keepsMem_stop_done | apply keepsMem_set | apply keepsMem_map | apply KeepsMem.get_bind | apply KeepsMem.bind | apply KeepsMem.modify | apply wf_foldl | intro _)
    | split
    | exact wf_of_eq_pair ‹_› (by simp; assumption)
    | simp [*]

theorem nextWf_execVmovExt (a b : Reg) (x : VecX) (s : State) (hs : s.memory.wf = true) : NextWf (execVmovExt a b x s) := by
  unfold execVmovExt
  repeat' first
    | with_reducible (first | assumption | apply nextWf_quick | apply keepsMem_unaryBody | apply keepsMem_stop_done | apply keepsMem_set | apply keepsMem_map | apply KeepsMem.get_bind | apply KeepsMem.bind | apply KeepsMem.modify | apply wf_foldl | intro _)
    | split
    | exact wf_of_eq_pair ‹_› (by simp; assumption)
    | simp [*]

theorem nextWf_execVsel (a b c : Reg) (fmt : Fmt) (s : State) (hs : s.memory.wf = true) : NextWf (execVsel a b c fmt s) := by
  unfold execVsel
  repeat' first
    | with_reducible (first | assumption | apply nextWf_quick | apply keepsMem_vselBody | apply keepsMem_stop_done | apply keepsMem_set | apply keepsMem_map | apply KeepsMem.get_bind | apply KeepsMem.bind | apply KeepsMem.modify | apply wf_foldl | intro _)
    | split
    | exact wf_of_eq_pair ‹_› (by simp; assumption)
    | simp [*]

theorem nextWf_execVselExt (a b c : Reg) (x : VecX) (s : State) (hs : s.memory.wf = true) : NextWf (execVselExt a b c x s) := by
  unfold execVselExt
  repeat' first
    | with_reducible (first | assumption | apply nextWf_quick | apply keepsMem_vselBody | apply keepsMem_stop_done | apply keepsMem_set | apply keepsMem_map | apply KeepsMem.get_bind | apply KeepsMem.bind | apply KeepsMem.modify | apply wf_foldl | intro _)
    | split
    | exact wf_of_eq_pair ‹_› (by simp; assumption)
    | simp [*]

theorem nextWf_execVdot (a b c : Reg) (fmt : Fmt) (s : State) (hs : s.memory.wf = true) : NextWf (execVdot a b c fmt s) := by
  unfold execVdot
  repeat' first
    | with_reducible (first | assumption | apply nextWf_quick | apply keepsMem_vdotBody | apply keepsMem_stop_done | apply keepsMem_set | apply keepsMem_map | apply KeepsMem.get_bind | apply KeepsMem.bind | apply KeepsMem.modify | apply wf_foldl | intro _)
    | split
    | exact wf_of_eq_pair ‹_› (by simp; assumption)
    | simp [*]

theorem nextWf_execVdotExt (a b c : Reg) (x : VecX) (s : State) (hs : s.memory.wf = true) : NextWf (execVdotExt a b c x s) := by
  unfold execVdotExt
  repeat' first
    | with_reducible (first | assumption | apply nextWf_quick | apply keepsMem_vdotBody | apply keepsMem_stop_done | apply keepsMem_set | apply keepsMem_map | apply KeepsMem.get_bind | apply KeepsMem.bind | apply KeepsMem.modify | apply wf_foldl | intro _)
    | split
    | exact wf_of_eq_pair ‹_› (by simp; assumption)
    | simp [*]

theorem nextWf_execVcvt (a b : Reg) (part : Fin 16) (src : Fmt) (x : VecX) (s : State) (hs : s.memory.wf = true) : NextWf (execVcvt a b part src x s) := by
  unfold execVcvt
  repeat' first
    | with_reducible (first | assumption | apply nextWf_quick | apply keepsMem_vcvtBody | apply keepsMem_stop_done | apply keepsMem_set | apply keepsMem_map | apply KeepsMem.get_bind | apply KeepsMem.bind | apply KeepsMem.modify | apply wf_foldl | intro _)
    | split
    | exact wf_of_eq_pair ‹_› (by simp; assumption)
    | simp [*]

theorem nextWf_execVpack (a d b : Reg) (kind : PackKind) (part : Fin 16) (x : VecX) (s : State) (hs : s.memory.wf = true) : NextWf (execVpack a d b kind part x s) := by
  unfold execVpack
  repeat' first
    | with_reducible (first | assumption | apply nextWf_quick | apply keepsMem_vpackBody | apply keepsMem_stop_done | apply keepsMem_set | apply keepsMem_map | apply KeepsMem.get_bind | apply KeepsMem.bind | apply KeepsMem.modify | apply wf_foldl | intro _)
    | split
    | exact wf_of_eq_pair ‹_› (by simp; assumption)
    | simp [*]

theorem nextWf_execVunpk (a d b : Reg) (kind : PackKind) (part : Fin 16) (x : VecX) (s : State) (hs : s.memory.wf = true) : NextWf (execVunpk a d b kind part x s) := by
  unfold execVunpk
  repeat' first
    | with_reducible (first | assumption | apply nextWf_quick | apply keepsMem_vunpkBody | apply keepsMem_stop_done | apply keepsMem_set | apply keepsMem_map | apply KeepsMem.get_bind | apply KeepsMem.bind | apply KeepsMem.modify | apply wf_foldl | intro _)
    | split
    | exact wf_of_eq_pair ‹_› (by simp; assumption)
    | simp [*]

theorem nextWf_execVbcast (a b c : Reg) (fmt : Fmt) (s : State) (hs : s.memory.wf = true) : NextWf (execVbcast a b c fmt s) := by
  unfold execVbcast
  repeat' first
    | with_reducible (first | assumption | apply nextWf_quick | apply keepsMem_vbcastBody | apply keepsMem_stop_done | apply keepsMem_set | apply keepsMem_map | apply KeepsMem.get_bind | apply KeepsMem.bind | apply KeepsMem.modify | apply wf_foldl | intro _)
    | split
    | exact wf_of_eq_pair ‹_› (by simp; assumption)
    | simp [*]

theorem nextWf_execVbcastExt (a b c : Reg) (imm : BitVec 24) (x : VecX) (s : State) (hs : s.memory.wf = true) : NextWf (execVbcastExt a b c imm x s) := by
  unfold execVbcastExt
  repeat' first
    | with_reducible (first | assumption | apply nextWf_quick | apply keepsMem_vbcastBody | apply keepsMem_stop_done | apply keepsMem_set | apply keepsMem_map | apply KeepsMem.get_bind | apply KeepsMem.bind | apply KeepsMem.modify | apply wf_foldl | intro _)
    | split
    | exact wf_of_eq_pair ‹_› (by simp; assumption)
    | simp [*]

theorem nextWf_execVperm (a b c : Reg) (fmt : Fmt) (s : State) (hs : s.memory.wf = true) : NextWf (execVperm a b c fmt s) := by
  unfold execVperm
  repeat' first
    | with_reducible (first | assumption | apply nextWf_quick | apply keepsMem_vpermBody | apply keepsMem_stop_done | apply keepsMem_set | apply keepsMem_map | apply KeepsMem.get_bind | apply KeepsMem.bind | apply KeepsMem.modify | apply wf_foldl | intro _)
    | split
    | exact wf_of_eq_pair ‹_› (by simp; assumption)
    | simp [*]

theorem nextWf_execVpermExt (a b c : Reg) (x : VecX) (s : State) (hs : s.memory.wf = true) : NextWf (execVpermExt a b c x s) := by
  unfold execVpermExt
  repeat' first
    | with_reducible (first | assumption | apply nextWf_quick | apply keepsMem_vpermBody | apply keepsMem_stop_done | apply keepsMem_set | apply keepsMem_map | apply KeepsMem.get_bind | apply KeepsMem.bind | apply KeepsMem.modify | apply wf_foldl | intro _)
    | split
    | exact wf_of_eq_pair ‹_› (by simp; assumption)
    | simp [*]

theorem nextWf_execVidx (a b : Reg) (fmt : Fmt) (s : State) (hs : s.memory.wf = true) : NextWf (execVidx a b fmt s) := by
  unfold execVidx
  repeat' first
    | with_reducible (first | assumption | apply nextWf_quick | apply keepsMem_vidxBody | apply keepsMem_stop_done | apply keepsMem_set | apply keepsMem_map | apply KeepsMem.get_bind | apply KeepsMem.bind | apply KeepsMem.modify | apply wf_foldl | intro _)
    | split
    | exact wf_of_eq_pair ‹_› (by simp; assumption)
    | simp [*]

theorem nextWf_execVidxExt (a b : Reg) (imm : BitVec 24) (x : VecX) (s : State) (hs : s.memory.wf = true) : NextWf (execVidxExt a b imm x s) := by
  unfold execVidxExt
  repeat' first
    | with_reducible (first | assumption | apply nextWf_quick | apply keepsMem_vidxBody | apply keepsMem_stop_done | apply keepsMem_set | apply keepsMem_map | apply KeepsMem.get_bind | apply KeepsMem.bind | apply KeepsMem.modify | apply wf_foldl | intro _)
    | split
    | exact wf_of_eq_pair ‹_› (by simp; assumption)
    | simp [*]

theorem nextWf_execVsplat (a c : Reg) (fmt : Fmt) (s : State) (hs : s.memory.wf = true) : NextWf (execVsplat a c fmt s) := by
  unfold execVsplat
  repeat' first
    | with_reducible (first | assumption | apply nextWf_quick | apply keepsMem_splatBody | apply keepsMem_stop_done | apply keepsMem_set | apply keepsMem_map | apply KeepsMem.get_bind | apply KeepsMem.bind | apply KeepsMem.modify | apply wf_foldl | intro _)
    | split
    | exact wf_of_eq_pair ‹_› (by simp; assumption)
    | simp [*]

theorem nextWf_execVsplatWide (a : Reg) (w : SplatX) (s : State) (hs : s.memory.wf = true) : NextWf (execVsplatWide a w s) := by
  unfold execVsplatWide
  repeat' first
    | with_reducible (first | assumption | apply nextWf_quick | apply keepsMem_splatBody | apply keepsMem_stop_done | apply keepsMem_set | apply keepsMem_map | apply KeepsMem.get_bind | apply KeepsMem.bind | apply KeepsMem.modify | apply wf_foldl | intro _)
    | split
    | exact wf_of_eq_pair ‹_› (by simp; assumption)
    | simp [*]

theorem nextWf_execVins (a b c : Reg) (fmt : Fmt) (s : State) (hs : s.memory.wf = true) : NextWf (execVins a b c fmt s) := by
  unfold execVins
  repeat' first
    | with_reducible (first | assumption | apply nextWf_quick | apply keepsMem_vinsBody | apply keepsMem_stop_done | apply keepsMem_set | apply keepsMem_map | apply KeepsMem.get_bind | apply KeepsMem.bind | apply KeepsMem.modify | apply wf_foldl | intro _)
    | split
    | exact wf_of_eq_pair ‹_› (by simp; assumption)
    | simp [*]

theorem nextWf_execVinsExt (a b c : Reg) (imm : BitVec 24) (x : VecX) (s : State) (hs : s.memory.wf = true) : NextWf (execVinsExt a b c imm x s) := by
  unfold execVinsExt
  repeat' first
    | with_reducible (first | assumption | apply nextWf_quick | apply keepsMem_vinsBody | apply keepsMem_stop_done | apply keepsMem_set | apply keepsMem_map | apply KeepsMem.get_bind | apply KeepsMem.bind | apply KeepsMem.modify | apply wf_foldl | intro _)
    | split
    | exact wf_of_eq_pair ‹_› (by simp; assumption)
    | simp [*]

theorem nextWf_execVext (a b c : Reg) (fmt : Fmt) (s : State) (hs : s.memory.wf = true) : NextWf (execVext a b c fmt s) := by
  unfold execVext
  repeat' first
    | with_reducible (first | assumption | apply nextWf_quick | apply keepsMem_vextBody | apply keepsMem_stop_done | apply keepsMem_set | apply keepsMem_map | apply KeepsMem.get_bind | apply KeepsMem.bind | apply KeepsMem.modify | apply wf_foldl | intro _)
    | split
    | exact wf_of_eq_pair ‹_› (by simp; assumption)
    | simp [*]

theorem nextWf_execVextExt (a b c : Reg) (imm : BitVec 24) (x : VecX) (s : State) (hs : s.memory.wf = true) : NextWf (execVextExt a b c imm x s) := by
  unfold execVextExt
  repeat' first
    | with_reducible (first | assumption | apply nextWf_quick | apply keepsMem_vextBody | apply keepsMem_stop_done | apply keepsMem_set | apply keepsMem_map | apply KeepsMem.get_bind | apply KeepsMem.bind | apply KeepsMem.modify | apply wf_foldl | intro _)
    | split
    | exact wf_of_eq_pair ‹_› (by simp; assumption)
    | simp [*]

theorem nextWf_execVrand (a : Reg) (fmt : Fmt) (s : State) (hs : s.memory.wf = true) : NextWf (execVrand a fmt s) := by
  unfold execVrand
  repeat' first
    | with_reducible (first | assumption | apply nextWf_quick | apply keepsMem_vrandBody | apply keepsMem_stop_done | apply keepsMem_set | apply keepsMem_map | apply KeepsMem.get_bind | apply KeepsMem.bind | apply KeepsMem.modify | apply wf_foldl | intro _)
    | split
    | exact wf_of_eq_pair ‹_› (by simp; assumption)
    | simp [*]

theorem nextWf_execVrandExt (a : Reg) (x : VecX) (s : State) (hs : s.memory.wf = true) : NextWf (execVrandExt a x s) := by
  unfold execVrandExt
  repeat' first
    | with_reducible (first | assumption | apply nextWf_quick | apply keepsMem_vrandBody | apply keepsMem_stop_done | apply keepsMem_set | apply keepsMem_map | apply KeepsMem.get_bind | apply KeepsMem.bind | apply KeepsMem.modify | apply wf_foldl | intro _)
    | split
    | exact wf_of_eq_pair ‹_› (by simp; assumption)
    | simp [*]

theorem nextWf_execVkeep (a b c : Reg) (fmt : Fmt) (s : State) (hs : s.memory.wf = true) : NextWf (execVkeep a b c fmt s) := by
  unfold execVkeep
  repeat' first
    | with_reducible (first | assumption | apply nextWf_quick | apply keepsMem_vkeepBody | apply keepsMem_stop_done | apply keepsMem_set | apply keepsMem_map | apply KeepsMem.get_bind | apply KeepsMem.bind | apply KeepsMem.modify | apply wf_foldl | intro _)
    | split
    | exact wf_of_eq_pair ‹_› (by simp; assumption)
    | simp [*]

theorem nextWf_execVkeepExt (a b c : Reg) (x : VecX) (s : State) (hs : s.memory.wf = true) : NextWf (execVkeepExt a b c x s) := by
  unfold execVkeepExt
  repeat' first
    | with_reducible (first | assumption | apply nextWf_quick | apply keepsMem_vkeepBody | apply keepsMem_stop_done | apply keepsMem_set | apply keepsMem_map | apply KeepsMem.get_bind | apply KeepsMem.bind | apply KeepsMem.modify | apply wf_foldl | intro _)
    | split
    | exact wf_of_eq_pair ‹_› (by simp; assumption)
    | simp [*]

theorem nextWf_execVphx (a b c : Reg) (fmt : Fmt) (s : State) (hs : s.memory.wf = true) : NextWf (execVphx a b c fmt s) := by
  unfold execVphx
  repeat' first
    | with_reducible (first | assumption | apply nextWf_quick | apply keepsMem_vphxBody | apply keepsMem_stop_done | apply keepsMem_set | apply keepsMem_map | apply KeepsMem.get_bind | apply KeepsMem.bind | apply KeepsMem.modify | apply wf_foldl | intro _)
    | split
    | exact wf_of_eq_pair ‹_› (by simp; assumption)
    | simp [*]

theorem nextWf_execVphxExt (a b c : Reg) (word : Fin 4) (imm : BitVec 24) (x : VecX) (s : State) (hs : s.memory.wf = true) : NextWf (execVphxExt a b c word imm x s) := by
  unfold execVphxExt
  repeat' first
    | with_reducible (first | assumption | apply nextWf_quick | apply keepsMem_vphxBody | apply keepsMem_stop_done | apply keepsMem_set | apply keepsMem_map | apply KeepsMem.get_bind | apply KeepsMem.bind | apply KeepsMem.modify | apply wf_foldl | intro _)
    | split
    | exact wf_of_eq_pair ‹_› (by simp; assumption)
    | simp [*]

theorem nextWf_execVrope (a b c : Reg) (s : State) (hs : s.memory.wf = true) : NextWf (execVrope a b c s) := by
  unfold execVrope
  repeat' first
    | with_reducible (first | assumption | apply nextWf_quick | apply keepsMem_vropeBody | apply keepsMem_stop_done | apply keepsMem_set | apply keepsMem_map | apply KeepsMem.get_bind | apply KeepsMem.bind | apply KeepsMem.modify | apply wf_foldl | intro _)
    | split
    | exact wf_of_eq_pair ‹_› (by simp; assumption)
    | simp [*]

theorem nextWf_execVropeExt (a b c d : Reg) (half : Bool) (x : VecX) (s : State) (hs : s.memory.wf = true) : NextWf (execVropeExt a b c d half x s) := by
  unfold execVropeExt
  repeat' first
    | with_reducible (first | assumption | apply nextWf_quick | apply keepsMem_vropeBody | apply keepsMem_stop_done | apply keepsMem_set | apply keepsMem_map | apply KeepsMem.get_bind | apply KeepsMem.bind | apply KeepsMem.modify | apply wf_foldl | intro _)
    | split
    | exact wf_of_eq_pair ‹_› (by simp; assumption)
    | simp [*]

theorem nextWf_execVcmp (a b c : Reg) (cond : CmpCond) (x : VecX) (s : State) (hs : s.memory.wf = true) : NextWf (execVcmp a b c cond x s) := by
  unfold execVcmp
  repeat' first
    | with_reducible (first | assumption | apply nextWf_quick | apply keepsMem_vcmpBody | apply keepsMem_stop_done | apply keepsMem_set | apply keepsMem_map | apply KeepsMem.get_bind | apply KeepsMem.bind | apply KeepsMem.modify | apply wf_foldl | intro _)
    | split
    | exact wf_of_eq_pair ‹_› (by simp; assumption)
    | simp [*]

theorem nextWf_execMskl (a b c : Reg) (op : MaskOp) (s : State) (hs : s.memory.wf = true) : NextWf (execMskl a b c op s) := by
  unfold execMskl
  repeat' first
    | with_reducible (first | assumption | apply nextWf_fixed | apply wf_putMask | apply keepsMem_stop_done | apply keepsMem_set | apply keepsMem_map | apply KeepsMem.get_bind | apply KeepsMem.bind | apply KeepsMem.modify | apply wf_foldl | intro _)
    | split
    | exact wf_of_eq_pair ‹_› (by simp; assumption)
    | simp [*]

theorem nextWf_execMskp (a b : Reg) (op : MaskProbe) (s : State) (hs : s.memory.wf = true) : NextWf (execMskp a b op s) := by
  unfold execMskp
  repeat' first
    | with_reducible (first | assumption | apply nextWf_fixed | apply wf_writeInt | apply keepsMem_stop_done | apply keepsMem_set | apply keepsMem_map | apply KeepsMem.get_bind | apply KeepsMem.bind | apply KeepsMem.modify | apply wf_foldl | intro _)
    | split
    | exact wf_of_eq_pair ‹_› (by simp; assumption)
    | simp [*]

theorem nextWf_execMsks (a : Reg) (lit : BitVec 64) (s : State) (hs : s.memory.wf = true) : NextWf (execMsks a lit s) := by
  unfold execMsks
  repeat' first
    | with_reducible (first | assumption | apply nextWf_fixed | apply wf_putMask | apply keepsMem_stop_done | apply keepsMem_set | apply keepsMem_map | apply KeepsMem.get_bind | apply KeepsMem.bind | apply KeepsMem.modify | apply wf_foldl | intro _)
    | split
    | exact wf_of_eq_pair ‹_› (by simp; assumption)
    | simp [*]

theorem nextWf_execMsksExt (a : Reg) (lit : BitVec 64) (op : MaskSet) (s : State) (hs : s.memory.wf = true) : NextWf (execMsksExt a lit op s) := by
  unfold execMsksExt
  repeat' first
    | with_reducible (first | assumption | apply nextWf_fixed | apply wf_putMask | apply keepsMem_stop_done | apply keepsMem_set | apply keepsMem_map | apply KeepsMem.get_bind | apply KeepsMem.bind | apply KeepsMem.modify | apply wf_foldl | intro _)
    | split
    | exact wf_of_eq_pair ‹_› (by simp; assumption)
    | simp [*]

theorem nextWf_execVred (a b : Reg) (op : RedOp) (x : VecX) (s : State) (hs : s.memory.wf = true) : NextWf (execVred a b op x s) := by
  unfold execVred
  repeat' first
    | with_reducible (first | assumption | apply nextWf_quick | apply keepsMem_vredBody | apply keepsMem_stop_done | apply keepsMem_set | apply keepsMem_map | apply KeepsMem.get_bind | apply KeepsMem.bind | apply KeepsMem.modify | apply wf_foldl | intro _)
    | split
    | exact wf_of_eq_pair ‹_› (by simp; assumption)
    | simp [*]

theorem nextWf_execVscan (a b c d : Reg) (op : ScanOp) (x : VecX) (s : State) (hs : s.memory.wf = true) : NextWf (execVscan a b c d op x s) := by
  unfold execVscan
  repeat' first
    | with_reducible (first | assumption | apply nextWf_quick | apply keepsMem_vscanBody | apply keepsMem_stop_done | apply keepsMem_set | apply keepsMem_map | apply KeepsMem.get_bind | apply KeepsMem.bind | apply KeepsMem.modify | apply wf_foldl | intro _)
    | split
    | exact wf_of_eq_pair ‹_› (by simp; assumption)
    | simp [*]

theorem nextWf_execVsort (a b : Reg) (fmt : Fmt) (s : State) (hs : s.memory.wf = true) : NextWf (execVsort a b fmt s) := by
  unfold execVsort
  repeat' first
    | with_reducible (first | assumption | apply nextWf_quick | apply keepsMem_vsortBody | apply keepsMem_stop_done | apply keepsMem_set | apply keepsMem_map | apply KeepsMem.get_bind | apply KeepsMem.bind | apply KeepsMem.modify | apply wf_foldl | intro _)
    | split
    | exact wf_of_eq_pair ‹_› (by simp; assumption)
    | simp [*]

theorem nextWf_execVsortExt (a b : Reg) (desc : Bool) (x : VecX) (s : State) (hs : s.memory.wf = true) : NextWf (execVsortExt a b desc x s) := by
  unfold execVsortExt
  repeat' first
    | with_reducible (first | assumption | apply nextWf_quick | apply keepsMem_vsortBody | apply keepsMem_stop_done | apply keepsMem_set | apply keepsMem_map | apply KeepsMem.get_bind | apply KeepsMem.bind | apply KeepsMem.modify | apply wf_foldl | intro _)
    | split
    | exact wf_of_eq_pair ‹_› (by simp; assumption)
    | simp [*]

theorem nextWf_execVmerge (a b c : Reg) (fmt : Fmt) (s : State) (hs : s.memory.wf = true) : NextWf (execVmerge a b c fmt s) := by
  unfold execVmerge
  repeat' first
    | with_reducible (first | assumption | apply nextWf_quick | apply keepsMem_vmergeBody | apply keepsMem_stop_done | apply keepsMem_set | apply keepsMem_map | apply KeepsMem.get_bind | apply KeepsMem.bind | apply KeepsMem.modify | apply wf_foldl | intro _)
    | split
    | exact wf_of_eq_pair ‹_› (by simp; assumption)
    | simp [*]

theorem nextWf_execVmergeExt (a b c d : Reg) (desc : Bool) (x : VecX) (s : State) (hs : s.memory.wf = true) : NextWf (execVmergeExt a b c d desc x s) := by
  unfold execVmergeExt
  repeat' first
    | with_reducible (first | assumption | apply nextWf_quick | apply keepsMem_vmergeBody | apply keepsMem_stop_done | apply keepsMem_set | apply keepsMem_map | apply KeepsMem.get_bind | apply KeepsMem.bind | apply KeepsMem.modify | apply wf_foldl | intro _)
    | split
    | exact wf_of_eq_pair ‹_› (by simp; assumption)
    | simp [*]

theorem nextWf_execMadd (a b c : Reg) (s : State) (hs : s.memory.wf = true) : NextWf (execMadd a b c s) := by
  unfold execMadd
  repeat' first
    | with_reducible (first | assumption | apply nextWf_quick | apply keepsMem_maddBody | apply keepsMem_stop_done | apply keepsMem_set | apply keepsMem_map | apply KeepsMem.get_bind | apply KeepsMem.bind | apply KeepsMem.modify | apply wf_foldl | intro _)
    | split
    | exact wf_of_eq_pair ‹_› (by simp; assumption)
    | simp [*]

theorem nextWf_execMaddExt (a b c d : Reg) (x : VecX) (s : State) (hs : s.memory.wf = true) : NextWf (execMaddExt a b c d x s) := by
  unfold execMaddExt
  repeat' first
    | with_reducible (first | assumption | apply nextWf_quick | apply keepsMem_maddBody | apply keepsMem_stop_done | apply keepsMem_set | apply keepsMem_map | apply KeepsMem.get_bind | apply KeepsMem.bind | apply KeepsMem.modify | apply wf_foldl | intro _)
    | split
    | exact wf_of_eq_pair ‹_› (by simp; assumption)
    | simp [*]

theorem nextWf_execMsub (a b c : Reg) (s : State) (hs : s.memory.wf = true) : NextWf (execMsub a b c s) := by
  unfold execMsub
  repeat' first
    | with_reducible (first | assumption | apply nextWf_quick | apply keepsMem_maddBody | apply keepsMem_stop_done | apply keepsMem_set | apply keepsMem_map | apply KeepsMem.get_bind | apply KeepsMem.bind | apply KeepsMem.modify | apply wf_foldl | intro _)
    | split
    | exact wf_of_eq_pair ‹_› (by simp; assumption)
    | simp [*]

theorem nextWf_execMsubExt (a b c d : Reg) (x : VecX) (s : State) (hs : s.memory.wf = true) : NextWf (execMsubExt a b c d x s) := by
  unfold execMsubExt
  repeat' first
    | with_reducible (first | assumption | apply nextWf_quick | apply keepsMem_maddBody | apply keepsMem_stop_done | apply keepsMem_set | apply keepsMem_map | apply KeepsMem.get_bind | apply KeepsMem.bind | apply KeepsMem.modify | apply wf_foldl | intro _)
    | split
    | exact wf_of_eq_pair ‹_› (by simp; assumption)
    | simp [*]

theorem nextWf_execMmul (a b c : Reg) (s : State) (hs : s.memory.wf = true) : NextWf (execMmul a b c s) := by
  unfold execMmul
  repeat' first
    | with_reducible (first | assumption | apply nextWf_quick | apply keepsMem_momentsBody | apply keepsMem_stop_done | apply keepsMem_set | apply keepsMem_map | apply KeepsMem.get_bind | apply KeepsMem.bind | apply KeepsMem.modify | apply wf_foldl | intro _)
    | split
    | exact wf_of_eq_pair ‹_› (by simp; assumption)
    | simp [*]

theorem nextWf_execMmulExt (a b c : Reg) (x : VecX) (s : State) (hs : s.memory.wf = true) : NextWf (execMmulExt a b c x s) := by
  unfold execMmulExt
  repeat' first
    | with_reducible (first | assumption | apply nextWf_quick | apply keepsMem_momentsBody | apply keepsMem_stop_done | apply keepsMem_set | apply keepsMem_map | apply KeepsMem.get_bind | apply KeepsMem.bind | apply KeepsMem.modify | apply wf_foldl | intro _)
    | split
    | exact wf_of_eq_pair ‹_› (by simp; assumption)
    | simp [*]

theorem nextWf_execMscl (a b c : Reg) (s : State) (hs : s.memory.wf = true) : NextWf (execMscl a b c s) := by
  unfold execMscl
  repeat' first
    | with_reducible (first | assumption | apply nextWf_quick | apply keepsMem_msclBody | apply keepsMem_stop_done | apply keepsMem_set | apply keepsMem_map | apply KeepsMem.get_bind | apply KeepsMem.bind | apply KeepsMem.modify | apply wf_foldl | intro _)
    | split
    | exact wf_of_eq_pair ‹_› (by simp; assumption)
    | simp [*]

theorem nextWf_execMsclExt (a b c : Reg) (x : VecX) (s : State) (hs : s.memory.wf = true) : NextWf (execMsclExt a b c x s) := by
  unfold execMsclExt
  repeat' first
    | with_reducible (first | assumption | apply nextWf_quick | apply keepsMem_msclBody | apply keepsMem_stop_done | apply keepsMem_set | apply keepsMem_map | apply KeepsMem.get_bind | apply KeepsMem.bind | apply KeepsMem.modify | apply wf_foldl | intro _)
    | split
    | exact wf_of_eq_pair ‹_› (by simp; assumption)
    | simp [*]

theorem nextWf_execMexp (a b : Reg) (s : State) (hs : s.memory.wf = true) : NextWf (execMexp a b s) := by
  unfold execMexp
  repeat' first
    | with_reducible (first | assumption | apply nextWf_quick | apply keepsMem_momentBody | apply keepsMem_stop_done | apply keepsMem_set | apply keepsMem_map | apply KeepsMem.get_bind | apply KeepsMem.bind | apply KeepsMem.modify | apply wf_foldl | intro _)
    | split
    | exact wf_of_eq_pair ‹_› (by simp; assumption)
    | simp [*]

theorem nextWf_execMexpExt (a b : Reg) (x : VecX) (s : State) (hs : s.memory.wf = true) : NextWf (execMexpExt a b x s) := by
  unfold execMexpExt
  repeat' first
    | with_reducible (first | assumption | apply nextWf_quick | apply keepsMem_momentBody | apply keepsMem_stop_done | apply keepsMem_set | apply keepsMem_map | apply KeepsMem.get_bind | apply KeepsMem.bind | apply KeepsMem.modify | apply wf_foldl | intro _)
    | split
    | exact wf_of_eq_pair ‹_› (by simp; assumption)
    | simp [*]

theorem nextWf_execMrelu (a b : Reg) (s : State) (hs : s.memory.wf = true) : NextWf (execMrelu a b s) := by
  unfold execMrelu
  repeat' first
    | with_reducible (first | assumption | apply nextWf_quick | apply keepsMem_momentBody | apply keepsMem_stop_done | apply keepsMem_set | apply keepsMem_map | apply KeepsMem.get_bind | apply KeepsMem.bind | apply KeepsMem.modify | apply wf_foldl | intro _)
    | split
    | exact wf_of_eq_pair ‹_› (by simp; assumption)
    | simp [*]

theorem nextWf_execMreluExt (a b : Reg) (x : VecX) (s : State) (hs : s.memory.wf = true) : NextWf (execMreluExt a b x s) := by
  unfold execMreluExt
  repeat' first
    | with_reducible (first | assumption | apply nextWf_quick | apply keepsMem_momentBody | apply keepsMem_stop_done | apply keepsMem_set | apply keepsMem_map | apply KeepsMem.get_bind | apply KeepsMem.bind | apply KeepsMem.modify | apply wf_foldl | intro _)
    | split
    | exact wf_of_eq_pair ‹_› (by simp; assumption)
    | simp [*]

theorem nextWf_execMsig (a b : Reg) (s : State) (hs : s.memory.wf = true) : NextWf (execMsig a b s) := by
  unfold execMsig
  repeat' first
    | with_reducible (first | assumption | apply nextWf_quick | apply keepsMem_momentBody | apply keepsMem_stop_done | apply keepsMem_set | apply keepsMem_map | apply KeepsMem.get_bind | apply KeepsMem.bind | apply KeepsMem.modify | apply wf_foldl | intro _)
    | split
    | exact wf_of_eq_pair ‹_› (by simp; assumption)
    | simp [*]

theorem nextWf_execMsigExt (a b : Reg) (x : VecX) (s : State) (hs : s.memory.wf = true) : NextWf (execMsigExt a b x s) := by
  unfold execMsigExt
  repeat' first
    | with_reducible (first | assumption | apply nextWf_quick | apply keepsMem_momentBody | apply keepsMem_stop_done | apply keepsMem_set | apply keepsMem_map | apply KeepsMem.get_bind | apply KeepsMem.bind | apply KeepsMem.modify | apply wf_foldl | intro _)
    | split
    | exact wf_of_eq_pair ‹_› (by simp; assumption)
    | simp [*]

theorem nextWf_execMmov (a b : Reg) (s : State) (hs : s.memory.wf = true) : NextWf (execMmov a b s) := by
  unfold execMmov
  repeat' first
    | with_reducible (first | assumption | apply nextWf_quick | apply keepsMem_mmovBody | apply keepsMem_stop_done | apply keepsMem_set | apply keepsMem_map | apply KeepsMem.get_bind | apply KeepsMem.bind | apply KeepsMem.modify | apply wf_foldl | intro _)
    | split
    | exact wf_of_eq_pair ‹_› (by simp; assumption)
    | simp [*]

theorem nextWf_execMmovExt (a b : Reg) (x : VecX) (s : State) (hs : s.memory.wf = true) : NextWf (execMmovExt a b x s) := by
  unfold execMmovExt
  repeat' first
    | with_reducible (first | assumption | apply nextWf_quick | apply keepsMem_mmovBody | apply keepsMem_stop_done | apply keepsMem_set | apply keepsMem_map | apply KeepsMem.get_bind | apply KeepsMem.bind | apply KeepsMem.modify | apply wf_foldl | intro _)
    | split
    | exact wf_of_eq_pair ‹_› (by simp; assumption)
    | simp [*]

theorem nextWf_execMfrom (a b c : Reg) (s : State) (hs : s.memory.wf = true) : NextWf (execMfrom a b c s) := by
  unfold execMfrom
  repeat' first
    | with_reducible (first | assumption | apply nextWf_quick | apply keepsMem_mfromBody | apply keepsMem_stop_done | apply keepsMem_set | apply keepsMem_map | apply KeepsMem.get_bind | apply KeepsMem.bind | apply KeepsMem.modify | apply wf_foldl | intro _)
    | split
    | exact wf_of_eq_pair ‹_› (by simp; assumption)
    | simp [*]

theorem nextWf_execMfromExt (a b c : Reg) (x : VecX) (s : State) (hs : s.memory.wf = true) : NextWf (execMfromExt a b c x s) := by
  unfold execMfromExt
  repeat' first
    | with_reducible (first | assumption | apply nextWf_quick | apply keepsMem_mfromBody | apply keepsMem_stop_done | apply keepsMem_set | apply keepsMem_map | apply KeepsMem.get_bind | apply KeepsMem.bind | apply KeepsMem.modify | apply wf_foldl | intro _)
    | split
    | exact wf_of_eq_pair ‹_› (by simp; assumption)
    | simp [*]

theorem nextWf_execMcoll (a b c : Reg) (form : CollForm) (half : Bool) (x : VecX) (s : State) (hs : s.memory.wf = true) : NextWf (execMcoll a b c form half x s) := by
  unfold execMcoll
  repeat' first
    | with_reducible (first | assumption | apply nextWf_quick | apply keepsMem_mcollBody | apply keepsMem_stop_done | apply keepsMem_set | apply keepsMem_map | apply KeepsMem.get_bind | apply KeepsMem.bind | apply KeepsMem.modify | apply wf_foldl | intro _)
    | split
    | exact wf_of_eq_pair ‹_› (by simp; assumption)
    | simp [*]

theorem nextWf_execMxLdw (n : Fin 256) (b c : Reg) (s : State) (hs : s.memory.wf = true) : NextWf (execMxLdw n b c s) :=
  nextWf_ordered _ _ _ _ _ _ (by simp) hs

theorem nextWf_execMxSwap (s : State) (hs : s.memory.wf = true) : NextWf (execMxSwap s) :=
  nextWf_ordered _ _ _ _ _ _ (by simp) hs

theorem nextWf_execMxSwapExt (n : Fin 256) (ch : Fin 4) (waits : Bool) (s : State) (hs : s.memory.wf = true) : NextWf (execMxSwapExt n ch waits s) :=
  nextWf_ordered _ _ _ _ _ _ (by simp) hs

theorem nextWf_execMxStr (a b c : Reg) (n : Fin 256) (z mo : Bool) (blk : Fin 8) (s : State) (hs : s.memory.wf = true) : NextWf (execMxStr a b c n z mo blk s) :=
  nextWf_ordered _ _ _ _ _ _ (by simp) hs

theorem nextWf_execMxGstr (a b : Reg) (n m p : Fin 256) (z : Bool) (blk : Fin 8) (s : State) (hs : s.memory.wf = true) : NextWf (execMxGstr a b n m p z blk s) :=
  nextWf_ordered _ _ _ _ _ _ (by simp) hs

theorem nextWf_execAccRd (a b c : Reg) (mo : Bool) (s : State) (hs : s.memory.wf = true) : NextWf (execAccRd a b c mo s) := by
  unfold execAccRd
  split <;> exact nextWf_ordered _ _ _ _ _ _ (by simp) hs

theorem nextWf_execAccWr (a b c : Reg) (mo : Bool) (s : State) (hs : s.memory.wf = true) : NextWf (execAccWr a b c mo s) := by
  unfold execAccWr
  split <;> exact nextWf_ordered _ _ _ _ _ _ (by simp) hs

theorem nextWf_execAccClr (a : Reg) (s : State) (hs : s.memory.wf = true) : NextWf (execAccClr a s) :=
  nextWf_ordered _ _ _ _ _ _ (by simp) hs

theorem nextWf_execAccClrExt (a : Reg) (mask : Fin 256) (s : State) (hs : s.memory.wf = true) : NextWf (execAccClrExt a mask s) :=
  nextWf_ordered _ _ _ _ _ _ (by simp) hs

theorem nextWf_execEpLoad (a b : Reg) (s : State) (hs : s.memory.wf = true) : NextWf (execEpLoad a b s) :=
  nextWf_ordered _ _ _ _ _ _ (by simp) hs

theorem nextWf_execEpRun (a b c d : Reg) (n : Fin 256) (mo : Bool) (rnd : Option Rm) (s : State) (hs : s.memory.wf = true) : NextWf (execEpRun a b c d n mo rnd s) :=
  nextWf_ordered _ _ _ _ _ _ (by simp) hs

theorem nextWf_execEpWait (a : Reg) (s : State) (hs : s.memory.wf = true) : NextWf (execEpWait a s) :=
  nextWf_ordered _ _ _ _ _ _ (by simp) hs

theorem nextWf_execSmpPen (a b c d : Reg) (n : Fin 256) (s : State) (hs : s.memory.wf = true) : NextWf (execSmpPen a b c d n s) := by
  unfold execSmpPen
  repeat' first
    | with_reducible (first | assumption | apply nextWf_slow | apply keepsMem_smpPenBody | apply keepsMem_stop_done | apply keepsMem_set | apply keepsMem_map | apply KeepsMem.get_bind | apply KeepsMem.bind | apply KeepsMem.modify | apply wf_foldl | intro _)
    | split
    | exact wf_of_eq_pair ‹_› (by simp; assumption)
    | simp [*]

theorem nextWf_execSmpTemp (a c : Reg) (n : Fin 256) (s : State) (hs : s.memory.wf = true) : NextWf (execSmpTemp a c n s) := by
  unfold execSmpTemp
  repeat' first
    | with_reducible (first | assumption | apply nextWf_slow | apply keepsMem_smpTempBody | apply keepsMem_stop_done | apply keepsMem_set | apply keepsMem_map | apply KeepsMem.get_bind | apply KeepsMem.bind | apply KeepsMem.modify | apply wf_foldl | intro _)
    | split
    | exact wf_of_eq_pair ‹_› (by simp; assumption)
    | simp [*]

theorem nextWf_execSmpGum (a b d : Reg) (n : Fin 256) (s : State) (hs : s.memory.wf = true) : NextWf (execSmpGum a b d n s) := by
  unfold execSmpGum
  repeat' first
    | with_reducible (first | assumption | apply nextWf_slow | apply keepsMem_smpGumBody | apply keepsMem_stop_done | apply keepsMem_set | apply keepsMem_map | apply KeepsMem.get_bind | apply KeepsMem.bind | apply KeepsMem.modify | apply wf_foldl | intro _)
    | split
    | exact wf_of_eq_pair ‹_› (by simp; assumption)
    | simp [*]

theorem nextWf_execSumRed (a b : Reg) (op : SumOp) (fmt : Fmt) (sc : Scope) (s : State) (hs : s.memory.wf = true) : NextWf (execSumRed a b op fmt sc s) := by
  unfold execSumRed
  repeat' first
    | with_reducible (first | assumption | apply nextWf_finish | apply keepsMem_sumRedBody | apply keepsMem_stop_done | apply keepsMem_set | apply keepsMem_map | apply KeepsMem.get_bind | apply KeepsMem.bind | apply KeepsMem.modify | apply wf_foldl | intro _)
    | split
    | exact wf_of_eq_pair ‹_› (by simp; assumption)
    | simp [*]

theorem nextWf_execSumBc (a b : Reg) (sc : Scope) (s : State) (hs : s.memory.wf = true) : NextWf (execSumBc a b sc s) := by
  unfold execSumBc
  repeat' first
    | with_reducible (first | assumption | apply nextWf_finish | apply keepsMem_sumBcBody | apply keepsMem_stop_done | apply keepsMem_set | apply keepsMem_map | apply KeepsMem.get_bind | apply KeepsMem.bind | apply KeepsMem.modify | apply wf_foldl | intro _)
    | split
    | exact wf_of_eq_pair ‹_› (by simp; assumption)
    | simp [*]

theorem nextWf_execSmpTop (a d : Reg) (n : Fin 256) (sc : Scope) (s : State) (hs : s.memory.wf = true) : NextWf (execSmpTop a d n sc s) := by
  unfold execSmpTop
  repeat' first
    | with_reducible (first | assumption | apply nextWf_finish | apply keepsMem_smpTopBody | apply keepsMem_stop_done | apply keepsMem_set | apply keepsMem_map | apply KeepsMem.get_bind | apply KeepsMem.bind | apply KeepsMem.modify | apply wf_foldl | intro _)
    | split
    | exact wf_of_eq_pair ‹_› (by simp; assumption)
    | simp [*]

theorem nextWf_execSmpTopp (a b c d : Reg) (n : Fin 256) (sc : Scope) (s : State) (hs : s.memory.wf = true) : NextWf (execSmpTopp a b c d n sc s) := by
  unfold execSmpTopp
  repeat' first
    | with_reducible (first | assumption | apply nextWf_finish | apply keepsMem_smpToppBody | apply keepsMem_stop_done | apply keepsMem_set | apply keepsMem_map | apply KeepsMem.get_bind | apply KeepsMem.bind | apply KeepsMem.modify | apply wf_foldl | intro _)
    | split
    | exact wf_of_eq_pair ‹_› (by simp; assumption)
    | simp [*]

theorem nextWf_execTokMap (a b : Reg) (k : Fin 16) (s : State) (hs : s.memory.wf = true) : NextWf (execTokMap a b k s) := by
  unfold execTokMap
  repeat' first
    | with_reducible (first | assumption | apply nextWf_slow | apply keepsMem_tokMapBody | apply keepsMem_stop_done | apply keepsMem_set | apply keepsMem_map | apply KeepsMem.get_bind | apply KeepsMem.bind | apply KeepsMem.modify | apply wf_foldl | intro _)
    | split
    | exact wf_of_eq_pair ‹_› (by simp; assumption)
    | simp [*]

theorem nextWf_execTokBind (a b c : Reg) (s : State) (hs : s.memory.wf = true) : NextWf (execTokBind a b c s) := by
  unfold execTokBind
  repeat' first
    | with_reducible (first | assumption | apply nextWf_slow | apply keepsMem_tokBindBody | apply keepsMem_stop_done | apply keepsMem_set | apply keepsMem_map | apply KeepsMem.get_bind | apply KeepsMem.bind | apply KeepsMem.modify | apply wf_foldl | intro _)
    | split
    | exact wf_of_eq_pair ‹_› (by simp; assumption)
    | simp [*]

theorem nextWf_execSmpStep (a b c : Reg) (s : State) (hs : s.memory.wf = true) : NextWf (execSmpStep a b c s) := by
  unfold execSmpStep
  repeat' first
    | with_reducible (first | assumption | apply nextWf_slow | apply keepsMem_smpStepBody | apply keepsMem_stop_done | apply keepsMem_set | apply keepsMem_map | apply KeepsMem.get_bind | apply KeepsMem.bind | apply KeepsMem.modify | apply wf_foldl | intro _)
    | split
    | exact wf_of_eq_pair ‹_› (by simp; assumption)
    | simp [*]

theorem nextWf_execSmpDraft (a b c : Reg) (s : State) (hs : s.memory.wf = true) : NextWf (execSmpDraft a b c s) := by
  unfold execSmpDraft
  repeat' first
    | with_reducible (first | assumption | apply nextWf_slow | apply keepsMem_smpDraftBody | apply keepsMem_stop_done | apply keepsMem_set | apply keepsMem_map | apply KeepsMem.get_bind | apply KeepsMem.bind | apply KeepsMem.modify | apply wf_foldl | intro _)
    | split
    | exact wf_of_eq_pair ‹_› (by simp; assumption)
    | simp [*]

theorem nextWf_execSmpVer (a b c : Reg) (s : State) (hs : s.memory.wf = true) : NextWf (execSmpVer a b c s) := by
  unfold execSmpVer
  repeat' first
    | with_reducible (first | assumption | apply nextWf_slow | apply keepsMem_smpVerBody | apply keepsMem_stop_done | apply keepsMem_set | apply keepsMem_map | apply KeepsMem.get_bind | apply KeepsMem.bind | apply KeepsMem.modify | apply wf_foldl | intro _)
    | split
    | exact wf_of_eq_pair ‹_› (by simp; assumption)
    | simp [*]

theorem nextWf_execMsgSend (a b c d : Reg) (ord : Order) (s : State) (hs : s.memory.wf = true) : NextWf (execMsgSend a b c d ord s) := by
  unfold execMsgSend
  repeat' first
    | with_reducible (first | assumption | apply nextWf_slow | apply keepsMem_sendBody | apply keepsMem_stop_done | apply keepsMem_set | apply keepsMem_map | apply KeepsMem.get_bind | apply KeepsMem.bind | apply KeepsMem.modify | apply wf_foldl | intro _)
    | split
    | exact wf_of_eq_pair ‹_› (by simp; assumption)
    | simp [*]

theorem nextWf_execMig (a b : Reg) (s : State) (hs : s.memory.wf = true) : NextWf (execMig a b s) := by
  unfold execMig
  repeat' first
    | with_reducible (first | assumption | apply nextWf_slow | apply keepsMem_migBody | apply keepsMem_stop_done | apply keepsMem_set | apply keepsMem_map | apply KeepsMem.get_bind | apply KeepsMem.bind | apply KeepsMem.modify | apply wf_foldl | intro _)
    | split
    | exact wf_of_eq_pair ‹_› (by simp; assumption)
    | simp [*]

theorem nextWf_execMigRet (a : Reg) (s : State) (hs : s.memory.wf = true) : NextWf (execMigRet a s) := by
  unfold execMigRet
  repeat' first
    | with_reducible (first | assumption | apply nextWf_slow | apply keepsMem_migRetBody | apply keepsMem_stop_done | apply keepsMem_set | apply keepsMem_map | apply KeepsMem.get_bind | apply KeepsMem.bind | apply KeepsMem.modify | apply wf_foldl | intro _)
    | split
    | exact wf_of_eq_pair ‹_› (by simp; assumption)
    | simp [*]

theorem nextWf_execCtxSave (d a b c : Reg) (evict : Bool) (s : State) (hs : s.memory.wf = true) : NextWf (execCtxSave d a b c evict s) := by
  unfold execCtxSave
  repeat' first
    | with_reducible (first | assumption | apply nextWf_slow | apply keepsMem_ctxSaveBody | apply keepsMem_stop_done | apply keepsMem_set | apply keepsMem_map | apply KeepsMem.get_bind | apply KeepsMem.bind | apply KeepsMem.modify | apply wf_foldl | intro _)
    | split
    | exact wf_of_eq_pair ‹_› (by simp; assumption)
    | simp [*]

theorem nextWf_execCtxRest (d a b c : Reg) (s : State) (hs : s.memory.wf = true) : NextWf (execCtxRest d a b c s) := by
  unfold execCtxRest
  repeat' first
    | with_reducible (first | assumption | apply nextWf_slow | apply keepsMem_ctxRestBody | apply keepsMem_stop_done | apply keepsMem_set | apply keepsMem_map | apply KeepsMem.get_bind | apply KeepsMem.bind | apply KeepsMem.modify | apply wf_foldl | intro _)
    | split
    | exact wf_of_eq_pair ‹_› (by simp; assumption)
    | simp [*]

theorem nextWf_execFetchServe (unit : Nat) (s : State) (hs : s.memory.wf = true) : NextWf (execFetchServe unit s) := by
  unfold execFetchServe
  repeat' first
    | with_reducible (first | assumption | apply wf_serveFetch | apply keepsMem_stop_done | apply keepsMem_set | apply keepsMem_map | apply KeepsMem.get_bind | apply KeepsMem.bind | apply KeepsMem.modify | apply wf_foldl | intro _)
    | split
    | exact wf_of_eq_pair ‹_› (by simp; assumption)
    | simp [*]

theorem nextWf_execOperationComplete (core slot : Nat) (s : State) (hs : s.memory.wf = true) : NextWf (execOperationComplete core slot s) := by
  unfold execOperationComplete
  dsimp only
  split
  · split
    · generalize (ctxOf s _).wait = w
      cases w with
      | ending exit => exact (nextWf_next _).2 (wf_endContext _ _ _ hs)
      | ifence => exact (nextWf_next _).2 (wf_finishIfence _ _ hs)
      | _ => exact (nextWf_next _).2 (wf_onCtx _ _ _ hs)
    · split
      · exact (nextWf_next _).2 hs
      · exact (nextWf_next _).2 (wf_remoteAcks _ _ hs)
  · exact (nextWf_next _).2 hs

theorem nextWf_execFwdHoldComplete (core slot : Nat) (s : State) (hs : s.memory.wf = true) : NextWf (execFwdHoldComplete core slot s) := by
  unfold execFwdHoldComplete
  dsimp only
  split
  · split
    · split
      next h => exact (nextWf_next _).2 (wf_goOn _ _ _ (wf_putFwd h hs))
      · exact (nextWf_next _).2 hs
    · split
      next h => exact (nextWf_next _).2 (wf_goOn _ _ _ (wf_writeIntIn _ _ _ _ _ (wf_takeFwd h hs)))
      · exact (nextWf_next _).2 hs
    · exact (nextWf_next _).2 hs
  · exact (nextWf_next _).2 hs

theorem nextWf_execWeightRestore (island cls weight : Nat) (s : State) (hs : s.memory.wf = true) : NextWf (execWeightRestore island cls weight s) := by
  unfold execWeightRestore
  repeat' first
    | with_reducible (first | assumption | apply keepsMem_stop_done | apply keepsMem_set | apply keepsMem_map | apply KeepsMem.get_bind | apply KeepsMem.bind | apply KeepsMem.modify | apply wf_foldl | intro _)
    | split
    | exact wf_of_eq_pair ‹_› (by simp; assumption)
    | simp [*]

theorem nextWf_execGrantRound (core : Nat) (s : State) (hs : s.memory.wf = true) : NextWf (execGrantRound core s) := by
  unfold execGrantRound
  repeat' first
    | with_reducible (first | assumption | apply wf_pendingRound | apply keepsMem_stop_done | apply keepsMem_set | apply keepsMem_map | apply KeepsMem.get_bind | apply KeepsMem.bind | apply KeepsMem.modify | apply wf_foldl | intro _)
    | split
    | exact wf_of_eq_pair ‹_› (by simp; assumption)
    | simp [*]

theorem nextWf_execContextPreempt (core slot : Nat) (s : State) (hs : s.memory.wf = true) : NextWf (execContextPreempt core slot s) := by
  unfold execContextPreempt
  repeat' first
    | with_reducible (first | assumption | apply wf_stopContext | apply wf_onCtx | apply keepsMem_stop_done | apply keepsMem_set | apply keepsMem_map | apply KeepsMem.get_bind | apply KeepsMem.bind | apply KeepsMem.modify | apply wf_foldl | intro _)
    | split
    | exact wf_of_eq_pair ‹_› (by simp; assumption)
    | simp [*]

theorem nextWf_execSliceBoundary (leave enter : List Nat) (s : State) (hs : s.memory.wf = true) : NextWf (execSliceBoundary leave enter s) := by
  unfold execSliceBoundary
  split
  · exact (nextWf_next _).2 hs
  next h =>
    obtain ⟨u, hu, ht⟩ := Option.bind_eq_some_iff.1 h
    have hw := wf_stayAll ht (wf_leaveAll hu hs)
    split
    · split
      next h => exact (nextWf_next _).2 (wf_enterAll h (wf_newRound _ hw))
      · exact (nextWf_next _).2 hs
    · exact (nextWf_next _).2 hs

theorem nextWf_execSpawnArrival (core : Nat) (s : State) (hs : s.memory.wf = true) : NextWf (execSpawnArrival core s) := by
  unfold execSpawnArrival
  repeat' first
    | with_reducible (first | assumption | apply wf_spendTurn | apply wf_answerSpawn | apply wf_takeArrival | apply wf_pendingRound | apply keepsMem_stop_done | apply keepsMem_set | apply keepsMem_map | apply KeepsMem.get_bind | apply KeepsMem.bind | apply KeepsMem.modify | apply wf_foldl | intro _)
    | split
    | exact wf_of_eq_pair ‹_› (by simp; assumption)
    | simp [*]

theorem nextWf_execCopyDelivery (core : Nat) (ch : Fin 4) (s : State) (hs : s.memory.wf = true) : NextWf (execCopyDelivery core ch s) := by
  have hk (x : Transfer) (wp n : Nat) := keepsMem_deliverPiece core x wp n
  unfold execCopyDelivery
  dsimp only
  split
  · exact (nextWf_next _).2 hs
  · split
    · exact (nextWf_next _).2 hs
    · split
      next h => exact (nextWf_next _).2 (wf_setChannel _ _ _ _ (wf_withOwners _ _ ((hk _ _ _).ok h hs)))
      · exact (nextWf_next _).2 (by simpa using hs)
      next h =>
        exact nextWf_finishAsking _ _ _ _ _ (keepsMem_error ((hk _ _ _).error (β := Unit) h hs))
          (fun _ _ ht => wf_setChannel _ _ _ _ ht) hs

theorem nextWf_execMoraineFree (domain granule : Nat) (s : State) (hs : s.memory.wf = true) : NextWf (execMoraineFree domain granule s) := by
  unfold execMoraineFree
  repeat' first
    | with_reducible (first | assumption | apply nextWf_step | apply wf_setGranule | apply keepsMem_stop_done | apply keepsMem_set | apply keepsMem_map | apply KeepsMem.get_bind | apply KeepsMem.bind | apply KeepsMem.modify | apply wf_foldl | intro _)
    | split
    | exact wf_of_eq_pair ‹_› (by simp; assumption)
    | simp [*]

theorem nextWf_execCoveredAllocation (core slot : Nat) (s : State) (hs : s.memory.wf = true) : NextWf (execCoveredAllocation core slot s) := by
  unfold execCoveredAllocation
  repeat' first
    | with_reducible (first | assumption | apply wf_onCtx | apply wf_dropClaim | apply wf_setGranule | apply wf_goOn | apply wf_writeIntIn | apply wf_writeCapIn | apply keepsMem_stop_done | apply keepsMem_set | apply keepsMem_map | apply KeepsMem.get_bind | apply KeepsMem.bind | apply KeepsMem.modify | apply wf_foldl | intro _)
    | split
    | exact wf_of_eq_pair ‹_› (by simp; assumption)
    | simp [*]

theorem nextWf_execHostVisibility (index : Nat) (s : State) (hs : s.memory.wf = true) : NextWf (execHostVisibility index s) := by
  unfold execHostVisibility
  repeat' first
    | with_reducible (first | assumption | apply wf_makeVisible | apply keepsMem_stop_done | apply keepsMem_set | apply keepsMem_map | apply KeepsMem.get_bind | apply KeepsMem.bind | apply KeepsMem.modify | apply wf_foldl | intro _)
    | split
    | exact wf_of_eq_pair ‹_› (by simp; assumption)
    | simp [*]

theorem nextWf_execShootdownTranslation (fromHost : Bool) (page count : Nat) (s : State) (hs : s.memory.wf = true) : NextWf (execShootdownTranslation fromHost page count s) := by
  unfold execShootdownTranslation
  repeat' first
    | with_reducible (first | assumption | apply wf_requestShootdown | apply keepsMem_stop_done | apply keepsMem_set | apply keepsMem_map | apply KeepsMem.get_bind | apply KeepsMem.bind | apply KeepsMem.modify | apply wf_foldl | intro _)
    | split
    | exact wf_of_eq_pair ‹_› (by simp; assumption)
    | simp [*]

theorem nextWf_execShootdownRights (fromHost : Bool) (domain : Nat) (s : State) (hs : s.memory.wf = true) : NextWf (execShootdownRights fromHost domain s) := by
  unfold execShootdownRights
  repeat' first
    | with_reducible (first | assumption | apply wf_requestShootdown | apply keepsMem_stop_done | apply keepsMem_set | apply keepsMem_map | apply KeepsMem.get_bind | apply KeepsMem.bind | apply KeepsMem.modify | apply wf_foldl | intro _)
    | split
    | exact wf_of_eq_pair ‹_› (by simp; assumption)
    | simp [*]

theorem nextWf_execPageMove (request : BitVec 128) (s : State) (hs : s.memory.wf = true) : NextWf (execPageMove request s) := by
  unfold execPageMove
  repeat' first
    | with_reducible (first | assumption | apply nextWf_performMove | apply wf_countDone | apply keepsMem_stop_done | apply keepsMem_set | apply keepsMem_map | apply KeepsMem.get_bind | apply KeepsMem.bind | apply KeepsMem.modify | apply wf_foldl | intro _)
    | split
    | exact wf_of_eq_pair ‹_› (by simp; assumption)
    | simp [*]

theorem nextWf_execShootdownComplete (s : State) (hs : s.memory.wf = true) : NextWf (execShootdownComplete s) := by
  unfold execShootdownComplete
  repeat' first
    | with_reducible (first | assumption | apply wf_countDone | apply wf_shootRange | apply nextWf_performMove | apply keepsMem_stop_done | apply keepsMem_set | apply keepsMem_map | apply KeepsMem.get_bind | apply KeepsMem.bind | apply KeepsMem.modify | apply wf_foldl | intro _)
    | split
    | exact wf_of_eq_pair ‹_› (by simp; assumption)
    | simp [*]

theorem nextWf_execTrapNoticeRun (core : Nat) (s : State) (hs : s.memory.wf = true) : NextWf (execTrapNoticeRun core s) := by
  unfold execTrapNoticeRun
  repeat' first
    | with_reducible (first | assumption | apply wf_endTrapEntry | apply nextWf_serveNotice | apply wf_onCtx | apply wf_takeArrival | apply keepsMem_stop_done | apply keepsMem_set | apply keepsMem_map | apply KeepsMem.get_bind | apply KeepsMem.bind | apply KeepsMem.modify | apply wf_foldl | intro _)
    | split
    | exact wf_of_eq_pair ‹_› (by simp; assumption)
    | simp [*]

theorem nextWf_execMessageRun (core : Nat) (s : State) (hs : s.memory.wf = true) : NextWf (execMessageRun core s) := by
  unfold execMessageRun
  repeat' first
    | with_reducible (first | assumption | apply wf_endTrapEntry | apply wf_startRun | apply wf_takeArrival | apply keepsMem_stop_done | apply keepsMem_set | apply keepsMem_map | apply KeepsMem.get_bind | apply KeepsMem.bind | apply KeepsMem.modify | apply wf_foldl | intro _)
    | split
    | exact wf_of_eq_pair ‹_› (by simp; assumption)
    | simp [*]

theorem nextWf_execCompletionNotice (core slot : Nat) (s : State) (hs : s.memory.wf = true) : NextWf (execCompletionNotice core slot s) := by
  unfold execCompletionNotice
  repeat' first
    | with_reducible (first | assumption | apply wf_onCtx | apply wf_dropShadow | apply keepsMem_stop_done | apply keepsMem_set | apply keepsMem_map | apply KeepsMem.get_bind | apply KeepsMem.bind | apply KeepsMem.modify | apply wf_foldl | intro _)
    | split
    | exact wf_of_eq_pair ‹_› (by simp; assumption)
    | simp [*]

theorem nextWf_execPageIn (ticket : Nat) (s : State) (hs : s.memory.wf = true) : NextWf (execPageIn ticket s) := by
  unfold execPageIn
  dsimp only
  split
  · exact (nextWf_next _).2 hs
  next t _ =>
    split
    · split
      · exact (nextWf_next _).2 hs
      · split
        · exact (nextWf_next _).2 (wf_cancelTicket _ _ hs)
        · split
          · exact (nextWf_next _).2 (wf_askFrames _ _ hs)
          · split
            next h => exact nextWf_finishEvent _ _ _ _ (keepsMem_error ((keepsMem_ringRead _ _).error (β := Unit) h hs)) hs
            next h =>
              have hu := wf_onDomain _ t.domain (fun d => { d with fcons := d.fcons + 1 }) ((keepsMem_ringRead _ _).ok h hs)
              split
              · exact nextWf_fault _
              · split
                · exact (nextWf_next _).2 hu
                · split
                  next h' => exact nextWf_finishEvent _ _ _ _ (keepsMem_error ((keepsMem_reachPageIn _ _ _).error (β := Unit) h' hu)) hs
                  next h' => exact (nextWf_next _).2 (wf_finishPageIn _ _ _ _ (wf_zeroFrame _ _ _ ((keepsMem_reachPageIn _ _ _).ok h' hu)))
    all_goals exact (nextWf_next _).2 hs

theorem nextWf_execScrub (item : Nat) (s : State) (hs : s.memory.wf = true) : NextWf (execScrub item s) := by
  unfold execScrub
  dsimp only
  split
  · exact (nextWf_next _).2 hs
  · split
    · exact (nextWf_next _).2 hs
    · split
      next h => exact nextWf_finishEvent _ _ _ _ (keepsMem_error ((keepsMem_scrubFrame _ _ _).error (β := Unit) h hs)) hs
      next h =>
        have ht := (keepsMem_scrubFrame _ _ _).ok h hs
        split
        · exact nextWf_fault _
        · split
          next h' => exact nextWf_finishEvent _ _ _ _ (keepsMem_error ((keepsMem_reachScrub _ _ _).error (β := Unit) h' ht)) hs
          next u h' =>
            have hu : u.memory.wf = true := (keepsMem_reachScrub _ _ _).ok h' ht
            have hdone (l : List ScrubItem) (what : ScrubWhat) (key pa : Nat) :
                (rejoin (scrubbed l (zeroFrame u key pa)) what pa).memory.wf = true :=
              wf_rejoin _ _ _ (wf_scrubbed l _ (wf_zeroFrame u key pa hu))
            split
            · split
              · exact (nextWf_next _).2 (wf_askZeroing _ _ _ _ _ _ hu)
              · split
                · exact (nextWf_next _).2 hs
                · exact (nextWf_next _).2 (hdone _ _ _ _)
            · exact (nextWf_next _).2 (hdone _ _ _ _)

theorem nextWf_execEventWrite (func : Nat) (s : State) (hs : s.memory.wf = true) : NextWf (execEventWrite func s) := by
  unfold execEventWrite
  repeat' first
    | with_reducible (first | assumption | apply wf_sysStore | apply wf_onFunc | apply keepsMem_stop_done | apply keepsMem_set | apply keepsMem_map | apply KeepsMem.get_bind | apply KeepsMem.bind | apply KeepsMem.modify | apply wf_foldl | intro _)
    | split
    | exact wf_of_eq_pair ‹_› (by simp; assumption)
    | simp [*]

theorem nextWf_execEventReply (func : Nat) (reply : BitVec 256) (s : State) (hs : s.memory.wf = true) : NextWf (execEventReply func reply s) := by
  unfold execEventReply
  repeat' first
    | with_reducible (first | assumption | apply wf_countDrop | apply wf_denyService | apply wf_completeService | apply wf_answerWalk | apply keepsMem_stop_done | apply keepsMem_set | apply keepsMem_map | apply KeepsMem.get_bind | apply KeepsMem.bind | apply KeepsMem.modify | apply wf_foldl | intro _)
    | split
    | exact wf_of_eq_pair ‹_› (by simp; assumption)
    | simp [*]

theorem nextWf_execDoorbell (func queue : Nat) (count : BitVec 64) (s : State) (hs : s.memory.wf = true) : NextWf (execDoorbell func queue count s) := by
  unfold execDoorbell
  repeat' first
    | with_reducible (first | assumption | apply wf_countDrop | apply wf_onQueue | apply keepsMem_stop_done | apply keepsMem_set | apply keepsMem_map | apply KeepsMem.get_bind | apply KeepsMem.bind | apply KeepsMem.modify | apply wf_foldl | intro _)
    | split
    | exact wf_of_eq_pair ‹_› (by simp; assumption)
    | simp [*]

theorem nextWf_execIntakeSlotAssign (core : Nat) (s : State) (hs : s.memory.wf = true) : NextWf (execIntakeSlotAssign core s) := by
  unfold execIntakeSlotAssign
  repeat' first
    | with_reducible (first | assumption | apply wf_takeOffered | apply wf_onQueue | apply keepsMem_stop_done | apply keepsMem_set | apply keepsMem_map | apply KeepsMem.get_bind | apply KeepsMem.bind | apply KeepsMem.modify | apply wf_foldl | intro _)
    | split
    | exact wf_of_eq_pair ‹_› (by simp; assumption)
    | simp [*]

theorem nextWf_execIntakeEntry (queue : Nat) (s : State) (hs : s.memory.wf = true) : NextWf (execIntakeEntry queue s) := by
  unfold execIntakeEntry
  split
  · exact nextWf_finishEvent _ _ _ _ (keepsMem_readEntry _ _ fun _ h => wf_onQueue _ _ _ h) hs
  · exact (nextWf_next _).2 hs

theorem nextWf_execStampRetry (queue : Nat) (s : State) (hs : s.memory.wf = true) : NextWf (execStampRetry queue s) := by
  unfold execStampRetry
  dsimp only
  split
  · refine nextWf_finishEvent _ _ _ _ ?_ hs
    split
    · exact keepsMem_readEntry _ _ fun _ h => wf_onQueue _ _ _ h
    · exact keepsMem_readEntry _ _ fun _ h => wf_park _ _ h
  · exact (nextWf_next _).2 hs

theorem nextWf_execIntakeWindowWrite (func queue : Nat) (entry : BitVec 1024) (s : State) (hs : s.memory.wf = true) : NextWf (execIntakeWindowWrite func queue entry s) := by
  unfold execIntakeWindowWrite
  repeat' first
    | with_reducible (first | assumption | apply wf_onQueue | apply wf_takeOffered | apply wf_countDrop | apply keepsMem_stop_done | apply keepsMem_set | apply keepsMem_map | apply KeepsMem.get_bind | apply KeepsMem.bind | apply KeepsMem.modify | apply wf_foldl | intro _)
    | split
    | exact wf_of_eq_pair ‹_› (by simp; assumption)
    | simp [*]

theorem nextWf_execNop (queue entry : Nat) (s : State) (hs : s.memory.wf = true) : NextWf (execNop queue entry s) :=
  nextWf_begin' hs fun _ => (nextWf_next _).2 (wf_retire _ _ _ _ hs)

theorem nextWf_execWait (queue entry : Nat) (s : State) (hs : s.memory.wf = true) : NextWf (execWait queue entry s) :=
  nextWf_begin' hs fun _ => (nextWf_next _).2 (wf_startCommand _ _ _ hs)

theorem nextWf_execWaitSatisfied (queue entry : Nat) (s : State) (hs : s.memory.wf = true) : NextWf (execWaitSatisfied queue entry s) := by
  unfold execWaitSatisfied
  split
  · exact (nextWf_next _).2 hs
  · refine nextWf_onCommandAccess _ _ _ _ _ _ (fun _ => by simp) hs fun _ _ ht => ?_
    split
    · exact (nextWf_next _).2 (wf_retire _ _ _ _ ht)
    · exact (nextWf_next _).2 ht

theorem nextWf_execSignal (queue entry : Nat) (s : State) (hs : s.memory.wf = true) : NextWf (execSignal queue entry s) :=
  nextWf_begin' hs fun _ => nextWf_onCommandAccess _ _ _ _ _ _ (fun _ => by simp) hs fun _ _ ht =>
    (nextWf_next _).2 (wf_retire _ _ _ _ ht)

theorem nextWf_execQueueFence (queue entry : Nat) (s : State) (hs : s.memory.wf = true) : NextWf (execQueueFence queue entry s) :=
  nextWf_begin' hs fun _ => nextWf_onCommandAccess _ _ _ _ _ _ (fun _ => by simp) hs fun _ _ ht =>
    (nextWf_next _).2 (wf_retire _ _ _ _ (wf_onQueue _ _ _ ht))

theorem nextWf_execBias (queue entry : Nat) (s : State) (hs : s.memory.wf = true) : NextWf (execBias queue entry s) := by
  unfold execBias
  split
  · exact nextWf_biasPage _ _ _ _ hs
  · exact nextWf_begin' hs fun _ => nextWf_biasPage _ _ _ _ hs

theorem nextWf_execSample (queue entry : Nat) (s : State) (hs : s.memory.wf = true) : NextWf (execSample queue entry s) := by
  unfold execSample
  split
  · exact nextWf_begin' hs fun _ => nextWf_onCommandAccess _ _ _ _ _ _ (fun _ => keepsMem_sampleAct _ _ _ _ hs) hs
      fun _ _ ht => (nextWf_next _).2 (wf_retire _ _ _ _ ht)
  · exact nextWf_begin' hs fun _ => (nextWf_next _).2 (wf_retire _ _ _ _ hs)

theorem nextWf_execDomcfg (queue entry : Nat) (s : State) (hs : s.memory.wf = true) : NextWf (execDomcfg queue entry s) := by
  unfold execDomcfg
  split
  · exact nextWf_begin' hs fun _ => (nextWf_next _).2 (wf_retire _ _ _ _ hs)
  · exact nextWf_begin' hs fun _ => nextWf_onCommandAccess _ _ _ _ _ _ (fun _ => by simp) hs fun _ _ ht =>
      (nextWf_next _).2 (wf_retire _ _ _ _ ht)

theorem nextWf_execBind (queue entry : Nat) (s : State) (hs : s.memory.wf = true) : NextWf (execBind queue entry s) :=
  nextWf_begin' hs fun _ => nextWf_onCommandAccess _ _ _ _ _ _ (fun _ => by simp) hs fun _ _ ht =>
    (nextWf_next _).2 (wf_retire _ _ _ _ ht)

theorem nextWf_execSwap (queue entry : Nat) (s : State) (hs : s.memory.wf = true) : NextWf (execSwap queue entry s) := by
  unfold execSwap
  dsimp only
  split
  · split
    · exact (nextWf_next _).2 hs
    · exact (nextWf_next _).2 (wf_retire _ _ _ _ hs)
  · refine nextWf_begin' hs fun _ => nextWf_onCommandAccess _ _ _ _ _ _ (fun _ => by simp) hs fun _ _ ht => ?_
    split
    · exact (nextWf_next _).2 (wf_retire _ _ _ _ ht)
    · exact (nextWf_next _).2 (wf_onCommand _ _ _ _ ht)

theorem nextWf_execUnbind (queue entry : Nat) (s : State) (hs : s.memory.wf = true) : NextWf (execUnbind queue entry s) := by
  unfold execUnbind
  dsimp only
  split
  · split
    · exact (nextWf_next _).2 hs
    · exact nextWf_onCommandAccess _ _ _ _ _ _ (fun _ => by simp) hs fun _ _ ht => (nextWf_next _).2 (wf_retire _ _ _ _ ht)
  · refine nextWf_begin' hs fun _ => nextWf_onCommandAccess _ _ _ _ _ _ (fun _ => by simp) hs fun b _ ht => ?_
    cases b with
    | none => exact (nextWf_next _).2 (wf_retire _ _ _ _ ht)
    | some v => exact (nextWf_next _).2 (wf_startCommand _ _ _ ht)

theorem nextWf_execKmov (a b : Reg) (s : State) (hs : s.memory.wf = true) : NextWf (execKmov a b s) := by
  unfold execKmov
  repeat' first
    | with_reducible (first | assumption | apply nextWf_fixed | apply wf_copyCap | apply keepsMem_stop_done | apply keepsMem_set | apply keepsMem_map | apply KeepsMem.get_bind | apply KeepsMem.bind | apply KeepsMem.modify | apply wf_foldl | intro _)
    | split
    | exact wf_of_eq_pair ‹_› (by simp; assumption)
    | simp [*]

theorem nextWf_execKmovExt (a b : Reg) (s : State) (hs : s.memory.wf = true) : NextWf (execKmovExt a b s) := by
  unfold execKmovExt
  repeat' first
    | with_reducible (first | assumption | apply nextWf_fixed | apply wf_copyCap | apply keepsMem_stop_done | apply keepsMem_set | apply keepsMem_map | apply KeepsMem.get_bind | apply KeepsMem.bind | apply KeepsMem.modify | apply wf_foldl | intro _)
    | split
    | exact wf_of_eq_pair ‹_› (by simp; assumption)
    | simp [*]

theorem nextWf_execKstep (a b c : Reg) (s : State) (hs : s.memory.wf = true) : NextWf (execKstep a b c s) := by
  unfold execKstep
  repeat' first
    | with_reducible (first | assumption | apply nextWf_quick | apply keepsMem_moveCursor | apply keepsMem_stop_done | apply keepsMem_set | apply keepsMem_map | apply KeepsMem.get_bind | apply KeepsMem.bind | apply KeepsMem.modify | apply wf_foldl | intro _)
    | split
    | exact wf_of_eq_pair ‹_› (by simp; assumption)
    | simp [*]

theorem nextWf_execKstepExt (a b c : Reg) (imm : BitVec 24) (s : State) (hs : s.memory.wf = true) : NextWf (execKstepExt a b c imm s) := by
  unfold execKstepExt
  repeat' first
    | with_reducible (first | assumption | apply nextWf_quick | apply keepsMem_moveCursor | apply keepsMem_stop_done | apply keepsMem_set | apply keepsMem_map | apply KeepsMem.get_bind | apply KeepsMem.bind | apply KeepsMem.modify | apply wf_foldl | intro _)
    | split
    | exact wf_of_eq_pair ‹_› (by simp; assumption)
    | simp [*]

theorem nextWf_execKplace (a b c : Reg) (s : State) (hs : s.memory.wf = true) : NextWf (execKplace a b c s) := by
  unfold execKplace
  repeat' first
    | with_reducible (first | assumption | apply nextWf_quick | apply keepsMem_moveCursor | apply keepsMem_stop_done | apply keepsMem_set | apply keepsMem_map | apply KeepsMem.get_bind | apply KeepsMem.bind | apply KeepsMem.modify | apply wf_foldl | intro _)
    | split
    | exact wf_of_eq_pair ‹_› (by simp; assumption)
    | simp [*]

theorem nextWf_execKplaceExt (a b c : Reg) (imm : BitVec 24) (s : State) (hs : s.memory.wf = true) : NextWf (execKplaceExt a b c imm s) := by
  unfold execKplaceExt
  repeat' first
    | with_reducible (first | assumption | apply nextWf_quick | apply keepsMem_moveCursor | apply keepsMem_stop_done | apply keepsMem_set | apply keepsMem_map | apply KeepsMem.get_bind | apply KeepsMem.bind | apply KeepsMem.modify | apply wf_foldl | intro _)
    | split
    | exact wf_of_eq_pair ‹_› (by simp; assumption)
    | simp [*]

theorem nextWf_execKfit (a b c : Reg) (s : State) (hs : s.memory.wf = true) : NextWf (execKfit a b c s) := by
  unfold execKfit
  repeat' first
    | with_reducible (first | assumption | apply nextWf_quick | apply keepsMem_setBounds | apply keepsMem_stop_done | apply keepsMem_set | apply keepsMem_map | apply KeepsMem.get_bind | apply KeepsMem.bind | apply KeepsMem.modify | apply wf_foldl | intro _)
    | split
    | exact wf_of_eq_pair ‹_› (by simp; assumption)
    | simp [*]

theorem nextWf_execKfitExt (a b c : Reg) (imm : BitVec 24) (s : State) (hs : s.memory.wf = true) : NextWf (execKfitExt a b c imm s) := by
  unfold execKfitExt
  repeat' first
    | with_reducible (first | assumption | apply nextWf_quick | apply keepsMem_setBounds | apply keepsMem_stop_done | apply keepsMem_set | apply keepsMem_map | apply KeepsMem.get_bind | apply KeepsMem.bind | apply KeepsMem.modify | apply wf_foldl | intro _)
    | split
    | exact wf_of_eq_pair ‹_› (by simp; assumption)
    | simp [*]

theorem nextWf_execKcut (a b c : Reg) (s : State) (hs : s.memory.wf = true) : NextWf (execKcut a b c s) := by
  unfold execKcut
  repeat' first
    | with_reducible (first | assumption | apply nextWf_quick | apply keepsMem_setBounds | apply keepsMem_stop_done | apply keepsMem_set | apply keepsMem_map | apply KeepsMem.get_bind | apply KeepsMem.bind | apply KeepsMem.modify | apply wf_foldl | intro _)
    | split
    | exact wf_of_eq_pair ‹_› (by simp; assumption)
    | simp [*]

theorem nextWf_execKcutExt (a b c : Reg) (imm : BitVec 24) (s : State) (hs : s.memory.wf = true) : NextWf (execKcutExt a b c imm s) := by
  unfold execKcutExt
  repeat' first
    | with_reducible (first | assumption | apply nextWf_quick | apply keepsMem_setBounds | apply keepsMem_stop_done | apply keepsMem_set | apply keepsMem_map | apply KeepsMem.get_bind | apply KeepsMem.bind | apply KeepsMem.modify | apply wf_foldl | intro _)
    | split
    | exact wf_of_eq_pair ‹_› (by simp; assumption)
    | simp [*]

theorem nextWf_execKmask (a b c : Reg) (s : State) (hs : s.memory.wf = true) : NextWf (execKmask a b c s) := by
  unfold execKmask
  repeat' first
    | with_reducible (first | assumption | apply nextWf_quick | apply keepsMem_maskPerms | apply keepsMem_stop_done | apply keepsMem_set | apply keepsMem_map | apply KeepsMem.get_bind | apply KeepsMem.bind | apply KeepsMem.modify | apply wf_foldl | intro _)
    | split
    | exact wf_of_eq_pair ‹_› (by simp; assumption)
    | simp [*]

theorem nextWf_execKmaskExt (a b c : Reg) (imm : BitVec 24) (s : State) (hs : s.memory.wf = true) : NextWf (execKmaskExt a b c imm s) := by
  unfold execKmaskExt
  repeat' first
    | with_reducible (first | assumption | apply nextWf_quick | apply keepsMem_maskPerms | apply keepsMem_stop_done | apply keepsMem_set | apply keepsMem_map | apply KeepsMem.get_bind | apply KeepsMem.bind | apply KeepsMem.modify | apply wf_foldl | intro _)
    | split
    | exact wf_of_eq_pair ‹_› (by simp; assumption)
    | simp [*]

theorem nextWf_execKlock (a b : Reg) (s : State) (hs : s.memory.wf = true) : NextWf (execKlock a b s) := by
  unfold execKlock
  repeat' first
    | with_reducible (first | assumption | apply nextWf_quick | apply keepsMem_lockCap | apply keepsMem_stop_done | apply keepsMem_set | apply keepsMem_map | apply KeepsMem.get_bind | apply KeepsMem.bind | apply KeepsMem.modify | apply wf_foldl | intro _)
    | split
    | exact wf_of_eq_pair ‹_› (by simp; assumption)
    | simp [*]

theorem nextWf_execKlockExt (a b : Reg) (s : State) (hs : s.memory.wf = true) : NextWf (execKlockExt a b s) := by
  unfold execKlockExt
  repeat' first
    | with_reducible (first | assumption | apply nextWf_quick | apply keepsMem_lockCap | apply keepsMem_stop_done | apply keepsMem_set | apply keepsMem_map | apply KeepsMem.get_bind | apply KeepsMem.bind | apply KeepsMem.modify | apply wf_foldl | intro _)
    | split
    | exact wf_of_eq_pair ‹_› (by simp; assumption)
    | simp [*]

theorem nextWf_execKopen (a b c : Reg) (s : State) (hs : s.memory.wf = true) : NextWf (execKopen a b c s) := by
  unfold execKopen
  repeat' first
    | with_reducible (first | assumption | apply nextWf_quick | apply keepsMem_openCap | apply keepsMem_stop_done | apply keepsMem_set | apply keepsMem_map | apply KeepsMem.get_bind | apply KeepsMem.bind | apply KeepsMem.modify | apply wf_foldl | intro _)
    | split
    | exact wf_of_eq_pair ‹_› (by simp; assumption)
    | simp [*]

theorem nextWf_execKopenExt (a b c : Reg) (s : State) (hs : s.memory.wf = true) : NextWf (execKopenExt a b c s) := by
  unfold execKopenExt
  repeat' first
    | with_reducible (first | assumption | apply nextWf_quick | apply keepsMem_openCap | apply keepsMem_stop_done | apply keepsMem_set | apply keepsMem_map | apply KeepsMem.get_bind | apply KeepsMem.bind | apply KeepsMem.modify | apply wf_foldl | intro _)
    | split
    | exact wf_of_eq_pair ‹_› (by simp; assumption)
    | simp [*]

theorem nextWf_execKcur (a b : Reg) (s : State) (hs : s.memory.wf = true) : NextWf (execKcur a b s) := by
  unfold execKcur
  repeat' first
    | with_reducible (first | assumption | apply nextWf_inspect | apply keepsMem_stop_done | apply keepsMem_set | apply keepsMem_map | apply KeepsMem.get_bind | apply KeepsMem.bind | apply KeepsMem.modify | apply wf_foldl | intro _)
    | split
    | exact wf_of_eq_pair ‹_› (by simp; assumption)
    | simp [*]

theorem nextWf_execKbase (a b : Reg) (s : State) (hs : s.memory.wf = true) : NextWf (execKbase a b s) := by
  unfold execKbase
  repeat' first
    | with_reducible (first | assumption | apply nextWf_inspect | apply keepsMem_stop_done | apply keepsMem_set | apply keepsMem_map | apply KeepsMem.get_bind | apply KeepsMem.bind | apply KeepsMem.modify | apply wf_foldl | intro _)
    | split
    | exact wf_of_eq_pair ‹_› (by simp; assumption)
    | simp [*]

theorem nextWf_execKtop (a b : Reg) (s : State) (hs : s.memory.wf = true) : NextWf (execKtop a b s) := by
  unfold execKtop
  repeat' first
    | with_reducible (first | assumption | apply nextWf_inspect | apply keepsMem_stop_done | apply keepsMem_set | apply keepsMem_map | apply KeepsMem.get_bind | apply KeepsMem.bind | apply KeepsMem.modify | apply wf_foldl | intro _)
    | split
    | exact wf_of_eq_pair ‹_› (by simp; assumption)
    | simp [*]

theorem nextWf_execKlen (a b : Reg) (s : State) (hs : s.memory.wf = true) : NextWf (execKlen a b s) := by
  unfold execKlen
  repeat' first
    | with_reducible (first | assumption | apply nextWf_inspect | apply keepsMem_stop_done | apply keepsMem_set | apply keepsMem_map | apply KeepsMem.get_bind | apply KeepsMem.bind | apply KeepsMem.modify | apply wf_foldl | intro _)
    | split
    | exact wf_of_eq_pair ‹_› (by simp; assumption)
    | simp [*]

theorem nextWf_execKperm (a b : Reg) (s : State) (hs : s.memory.wf = true) : NextWf (execKperm a b s) := by
  unfold execKperm
  repeat' first
    | with_reducible (first | assumption | apply nextWf_inspect | apply keepsMem_stop_done | apply keepsMem_set | apply keepsMem_map | apply KeepsMem.get_bind | apply KeepsMem.bind | apply KeepsMem.modify | apply wf_foldl | intro _)
    | split
    | exact wf_of_eq_pair ‹_› (by simp; assumption)
    | simp [*]

theorem nextWf_execKtag (a b : Reg) (s : State) (hs : s.memory.wf = true) : NextWf (execKtag a b s) := by
  unfold execKtag
  repeat' first
    | with_reducible (first | assumption | apply nextWf_inspect | apply keepsMem_stop_done | apply keepsMem_set | apply keepsMem_map | apply KeepsMem.get_bind | apply KeepsMem.bind | apply KeepsMem.modify | apply wf_foldl | intro _)
    | split
    | exact wf_of_eq_pair ‹_› (by simp; assumption)
    | simp [*]

theorem nextWf_execKinside (a b c : Reg) (s : State) (hs : s.memory.wf = true) : NextWf (execKinside a b c s) := by
  unfold execKinside
  repeat' first
    | with_reducible (first | assumption | apply nextWf_fixed | apply wf_writeInt | apply keepsMem_stop_done | apply keepsMem_set | apply keepsMem_map | apply KeepsMem.get_bind | apply KeepsMem.bind | apply KeepsMem.modify | apply wf_foldl | intro _)
    | split
    | exact wf_of_eq_pair ‹_› (by simp; assumption)
    | simp [*]

theorem nextWf_execKplain (a b : Reg) (s : State) (hs : s.memory.wf = true) : NextWf (execKplain a b s) := by
  unfold execKplain
  repeat' first
    | with_reducible (first | assumption | apply nextWf_quick | apply keepsMem_plainCopy | apply keepsMem_stop_done | apply keepsMem_set | apply keepsMem_map | apply KeepsMem.get_bind | apply KeepsMem.bind | apply KeepsMem.modify | apply wf_foldl | intro _)
    | split
    | exact wf_of_eq_pair ‹_› (by simp; assumption)
    | simp [*]

theorem nextWf_execBarrierComplete (team : Nat) (scope : Scope) (extent : Nat) (remote : List RemoteMember) (s : State) (hs : s.memory.wf = true) : NextWf (execBarrierComplete team scope extent remote s) := by
  unfold execBarrierComplete
  repeat' first
    | with_reducible (first | assumption | apply nextWf_completeInstance | apply keepsMem_stop_done | apply keepsMem_set | apply keepsMem_map | apply KeepsMem.get_bind | apply KeepsMem.bind | apply KeepsMem.modify | apply wf_foldl | intro _)
    | split
    | exact wf_of_eq_pair ‹_› (by simp; assumption)
    | simp [*]

theorem nextWf_execLaunch (queue entry : Nat) (s : State) (hs : s.memory.wf = true) : NextWf (execLaunch queue entry s) := by
  have refuse (c : Command) (st : Nat) (t : State) (ht : t.memory.wf = true) :
      NextWf (if mayStart (queueOf s queue) c then .next (retire (dropPending t queue entry) queue entry st) else .next t) := by
    split
    · exact (nextWf_next _).2 (wf_retire _ _ _ _ (wf_dropPending _ _ _ ht))
    · exact (nextWf_next _).2 ht
  unfold execLaunch
  dsimp only
  split
  · exact (nextWf_next _).2 hs
  · split
    · exact (nextWf_next _).2 hs
    · split
      · exact refuse _ _ _ hs
      · have hl := fun c => accessWf_launchOf s queue c hs
        split
        · exact refuse _ _ _ hs
        next h => exact (nextWf_next _).2 ((congrArg AccessWf h).mp (hl _))
        next h => exact (nextWf_next _).2 (wf_askCommand _ _ _ _ ((congrArg AccessWf h).mp (hl _)))
        · exact nextWf_fault _
        next d t h =>
          have ht : t.memory.wf = true := (congrArg AccessWf h).mp (hl _)
          split
          · exact (nextWf_next _).2 (wf_addPending _ _ _ _ ht)
          · split
            · exact (nextWf_next _).2 (wf_retire _ _ _ _ (wf_dropPending _ _ _ (wf_spoilStashes _ _ _ ht)))
            · exact (nextWf_next _).2 ht

theorem nextWf_execPlacementExchange (first second : Nat) (s : State) (hs : s.memory.wf = true) : NextWf (execPlacementExchange first second s) := by
  unfold execPlacementExchange
  repeat' first
    | with_reducible (first | assumption | apply wf_trade | apply keepsMem_stop_done | apply keepsMem_set | apply keepsMem_map | apply KeepsMem.get_bind | apply KeepsMem.bind | apply KeepsMem.modify | apply wf_foldl | intro _)
    | split
    | exact wf_of_eq_pair ‹_› (by simp; assumption)
    | simp [*]

theorem nextWf_execLaunchAdmit (queue entry : Nat) (place : List Nat) (s : State) (hs : s.memory.wf = true) : NextWf (execLaunchAdmit queue entry place s) := by
  refine nextWf_begin' hs fun c => ?_
  have hl := accessWf_launchOf s queue c hs
  dsimp only
  split
  · exact (nextWf_next _).2 hs
  next h => exact (nextWf_next _).2 ((congrArg AccessWf h).mp hl)
  next h => exact (nextWf_next _).2 (wf_askCommand _ _ _ _ ((congrArg AccessWf h).mp hl))
  · exact nextWf_fault _
  next d t h =>
    have ht : t.memory.wf = true := (congrArg AccessWf h).mp hl
    generalize (if d.fixedSet = true then d.fixedCores else place) = cores
    split
    · exact (nextWf_next _).2 (wf_admitLaunch _ _ _ _ _ ht)
    · exact (nextWf_next _).2 ht

theorem nextWf_execTeamComplete (team : Nat) (s : State) (hs : s.memory.wf = true) : NextWf (execTeamComplete team s) := by
  unfold execTeamComplete
  split
  · exact (nextWf_next _).2 hs
  · split
    · exact (nextWf_next _).2 (wf_retire _ _ _ _ (wf_removeTeam _ _ (wf_makeAllVisible _ _ _ hs)))
    · exact (nextWf_next _).2 hs

theorem nextWf_execQcfgWrite (queue : Nat) (value : BitVec 128) (s : State) (hs : s.memory.wf = true) : NextWf (execQcfgWrite queue value s) := by
  unfold execQcfgWrite
  repeat' first
    | with_reducible (first | assumption | apply wf_disableQueue | apply wf_enableQueue | apply wf_onQueue | apply keepsMem_stop_done | apply keepsMem_set | apply keepsMem_map | apply KeepsMem.get_bind | apply KeepsMem.bind | apply KeepsMem.modify | apply wf_foldl | intro _)
    | split
    | exact wf_of_eq_pair ‹_› (by simp; assumption)
    | simp [*]

theorem nextWf_execRegisterWrite (func offset : Nat) (value : BitVec 64) (s : State) (hs : s.memory.wf = true) : NextWf (execRegisterWrite func offset value s) := by
  unfold execRegisterWrite
  repeat' first
    | with_reducible (first | assumption | apply wf_onFunc | apply nextWf_writeCapacity | apply wf_writeRegister | apply keepsMem_stop_done | apply keepsMem_set | apply keepsMem_map | apply KeepsMem.get_bind | apply KeepsMem.bind | apply KeepsMem.modify | apply wf_foldl | intro _)
    | split
    | exact wf_of_eq_pair ‹_› (by simp; assumption)
    | simp [*]

theorem nextWf_execSegmentWindowAccess (func offset size : Nat) (data : Option (List (BitVec 8))) (s : State) (hs : s.memory.wf = true) : NextWf (execSegmentWindowAccess func offset size data s) := by
  unfold execSegmentWindowAccess
  repeat' first
    | with_reducible (first | assumption | apply nextWf_hostAccess | apply keepsMem_stop_done | apply keepsMem_set | apply keepsMem_map | apply KeepsMem.get_bind | apply KeepsMem.bind | apply KeepsMem.modify | apply wf_foldl | intro _)
    | split
    | exact wf_of_eq_pair ‹_› (by simp; assumption)
    | simp [*]

theorem nextWf_execHostMemAccess (address size : Nat) (data : Option (List (BitVec 8))) (s : State) (hs : s.memory.wf = true) : NextWf (execHostMemAccess address size data s) := by
  unfold execHostMemAccess
  repeat' first
    | with_reducible (first | assumption | apply nextWf_hostAccess | apply keepsMem_stop_done | apply keepsMem_set | apply keepsMem_map | apply KeepsMem.get_bind | apply KeepsMem.bind | apply KeepsMem.modify | apply wf_foldl | intro _)
    | split
    | exact wf_of_eq_pair ‹_› (by simp; assumption)
    | simp [*]

theorem nextWf_execKeyCreate (handle : BitVec 32) (s : State) (hs : s.memory.wf = true) : NextWf (execKeyCreate handle s) := by
  unfold execKeyCreate
  repeat' first
    | with_reducible (first | assumption | apply wf_createKey | apply keepsMem_stop_done | apply keepsMem_set | apply keepsMem_map | apply KeepsMem.get_bind | apply KeepsMem.bind | apply KeepsMem.modify | apply wf_foldl | intro _)
    | split
    | exact wf_of_eq_pair ‹_› (by simp; assumption)
    | simp [*]

theorem nextWf_execKeyDestroy (handle : BitVec 32) (s : State) (hs : s.memory.wf = true) : NextWf (execKeyDestroy handle s) := by
  unfold execKeyDestroy
  repeat' first
    | with_reducible (first | assumption | apply wf_destroyKey | apply keepsMem_stop_done | apply keepsMem_set | apply keepsMem_map | apply KeepsMem.get_bind | apply KeepsMem.bind | apply KeepsMem.modify | apply wf_foldl | intro _)
    | split
    | exact wf_of_eq_pair ‹_› (by simp; assumption)
    | simp [*]

theorem nextWf_execKeyQuery (handle : BitVec 32) (s : State) (hs : s.memory.wf = true) : NextWf (execKeyQuery handle s) := by
  unfold execKeyQuery
  repeat' first
    | with_reducible (first | assumption | apply wf_queryKey | apply keepsMem_stop_done | apply keepsMem_set | apply keepsMem_map | apply KeepsMem.get_bind | apply KeepsMem.bind | apply KeepsMem.modify | apply wf_foldl | intro _)
    | split
    | exact wf_of_eq_pair ‹_› (by simp; assumption)
    | simp [*]

theorem nextWf_execPreset (value : BitVec 64) (s : State) (hs : s.memory.wf = true) : NextWf (execPreset value s) := by
  unfold execPreset
  repeat' first
    | with_reducible (first | assumption | apply wf_partitionReset | apply keepsMem_stop_done | apply keepsMem_set | apply keepsMem_map | apply KeepsMem.get_bind | apply KeepsMem.bind | apply KeepsMem.modify | apply wf_foldl | intro _)
    | split
    | exact wf_of_eq_pair ‹_› (by simp; assumption)
    | simp [*]

theorem nextWf_execLaunchTimeLimit (team : Nat) (s : State) (hs : s.memory.wf = true) : NextWf (execLaunchTimeLimit team s) := by
  unfold execLaunchTimeLimit
  repeat' first
    | with_reducible (first | assumption | apply wf_partitionReset | apply keepsMem_stop_done | apply keepsMem_set | apply keepsMem_map | apply KeepsMem.get_bind | apply KeepsMem.bind | apply KeepsMem.modify | apply wf_foldl | intro _)
    | split
    | exact wf_of_eq_pair ‹_› (by simp; assumption)
    | simp [*]

theorem nextWf_execFunctionLevelReset (func : Nat) (s : State) (hs : s.memory.wf = true) : NextWf (execFunctionLevelReset func s) := by
  unfold execFunctionLevelReset
  repeat' first
    | with_reducible (first | assumption | apply wf_partitionReset | apply keepsMem_stop_done | apply keepsMem_set | apply keepsMem_map | apply KeepsMem.get_bind | apply KeepsMem.bind | apply KeepsMem.modify | apply wf_foldl | intro _)
    | split
    | exact wf_of_eq_pair ‹_› (by simp; assumption)
    | simp [*]

theorem nextWf_execMeridianInterval (power temperature : List (Nat × Nat)) (s : State) (hs : s.memory.wf = true) : NextWf (execMeridianInterval power temperature s) := by
  unfold execMeridianInterval
  repeat' first
    | with_reducible (first | assumption | apply wf_moveIsland | apply wf_readIsland | apply keepsMem_stop_done | apply keepsMem_set | apply keepsMem_map | apply KeepsMem.get_bind | apply KeepsMem.bind | apply KeepsMem.modify | apply wf_foldl | intro _)
    | split
    | exact wf_of_eq_pair ‹_› (by simp; assumption)
    | simp [*]

theorem nextWf_execHbmPatrol (corrected : List Nat × Nat) (uncorrected : List Nat × List Nat) (s : State) (hs : s.memory.wf = true) : NextWf (execHbmPatrol corrected uncorrected s) := by
  unfold execHbmPatrol
  repeat' first
    | with_reducible (first | assumption | apply wf_poisonSector | apply wf_loseState | apply keepsMem_stop_done | apply keepsMem_set | apply keepsMem_map | apply KeepsMem.get_bind | apply KeepsMem.bind | apply KeepsMem.modify | apply wf_foldl | intro _)
    | split
    | exact wf_of_eq_pair ‹_› (by simp; assumption)
    | simp [*]

theorem nextWf_execLinkCrcError (retrain : Bool) (s : State) (hs : s.memory.wf = true) : NextWf (execLinkCrcError retrain s) := by
  unfold execLinkCrcError
  repeat' first
    | with_reducible (first | assumption | apply keepsMem_stop_done | apply keepsMem_set | apply keepsMem_map | apply KeepsMem.get_bind | apply KeepsMem.bind | apply KeepsMem.modify | apply wf_foldl | intro _)
    | split
    | exact wf_of_eq_pair ‹_› (by simp; assumption)
    | simp [*]

theorem nextWf_execPackageReset (verified : List Nat) (s : State) (hs : s.memory.wf = true) : NextWf (execPackageReset verified s) := by
  unfold execPackageReset
  repeat' first
    | with_reducible (first | assumption | apply wf_startDie | apply wf_packageRestart | apply keepsMem_stop_done | apply keepsMem_set | apply keepsMem_map | apply KeepsMem.get_bind | apply KeepsMem.bind | apply KeepsMem.modify | apply wf_foldl | intro _)
    | split
    | exact wf_of_eq_pair ‹_› (by simp; assumption)
    | simp [*]

theorem nextWf_execFirmwareUpdate (_length : BitVec 64) (versions : Nat × Nat) (dies : List Nat) (s : State) (hs : s.memory.wf = true) : NextWf (execFirmwareUpdate _length versions dies s) := by
  unfold execFirmwareUpdate
  repeat' first
    | with_reducible (first | assumption | apply keepsMem_stop_done | apply keepsMem_set | apply keepsMem_map | apply KeepsMem.get_bind | apply KeepsMem.bind | apply KeepsMem.modify | apply wf_foldl | intro _)
    | split
    | exact wf_of_eq_pair ‹_› (by simp; assumption)
    | simp [*]

theorem nextWf_execFirmwareDieUpdate (verified : Bool) (s : State) (hs : s.memory.wf = true) : NextWf (execFirmwareDieUpdate verified s) := by
  unfold execFirmwareDieUpdate
  dsimp only
  split
  · exact (nextWf_next _).2 hs
  · split
    · exact (nextWf_next _).2 hs
    next h =>
      have ht := wf_vacate h hs
      split
      · exact (nextWf_next _).2 hs
      · split
        next h' =>
          refine (nextWf_next _).2 (wf_reinstate h' ?_)
          show (if verified = true then _ else _ : State).memory.wf = true
          split
          · exact wf_replaceImage _ _ ht
          · exact ht
        · exact (nextWf_next _).2 hs

theorem nextWf_execAdd (a b c : Reg) (s : State) (hs : s.memory.wf = true) : NextWf (execAdd a b c s) := by
  unfold execAdd
  repeat' first
    | with_reducible (first | assumption | apply nextWf_aluShort | apply keepsMem_stop_done | apply keepsMem_set | apply keepsMem_map | apply KeepsMem.get_bind | apply KeepsMem.bind | apply KeepsMem.modify | apply wf_foldl | intro _)
    | split
    | exact wf_of_eq_pair ‹_› (by simp; assumption)
    | simp [*]

theorem nextWf_execAddWide (a b : Reg) (o : Op2) (s : State) (hs : s.memory.wf = true) : NextWf (execAddWide a b o s) := by
  unfold execAddWide
  repeat' first
    | with_reducible (first | assumption | apply nextWf_aluWide | apply keepsMem_stop_done | apply keepsMem_set | apply keepsMem_map | apply KeepsMem.get_bind | apply KeepsMem.bind | apply KeepsMem.modify | apply wf_foldl | intro _)
    | split
    | exact wf_of_eq_pair ‹_› (by simp; assumption)
    | simp [*]

theorem nextWf_execSub (a b c : Reg) (s : State) (hs : s.memory.wf = true) : NextWf (execSub a b c s) := by
  unfold execSub
  repeat' first
    | with_reducible (first | assumption | apply nextWf_aluShort | apply keepsMem_stop_done | apply keepsMem_set | apply keepsMem_map | apply KeepsMem.get_bind | apply KeepsMem.bind | apply KeepsMem.modify | apply wf_foldl | intro _)
    | split
    | exact wf_of_eq_pair ‹_› (by simp; assumption)
    | simp [*]

theorem nextWf_execSubWide (a b : Reg) (o : Op2) (s : State) (hs : s.memory.wf = true) : NextWf (execSubWide a b o s) := by
  unfold execSubWide
  repeat' first
    | with_reducible (first | assumption | apply nextWf_aluWide | apply keepsMem_stop_done | apply keepsMem_set | apply keepsMem_map | apply KeepsMem.get_bind | apply KeepsMem.bind | apply KeepsMem.modify | apply wf_foldl | intro _)
    | split
    | exact wf_of_eq_pair ‹_› (by simp; assumption)
    | simp [*]

theorem nextWf_execMul (a b c : Reg) (s : State) (hs : s.memory.wf = true) : NextWf (execMul a b c s) := by
  unfold execMul
  repeat' first
    | with_reducible (first | assumption | apply nextWf_aluShort | apply keepsMem_stop_done | apply keepsMem_set | apply keepsMem_map | apply KeepsMem.get_bind | apply KeepsMem.bind | apply KeepsMem.modify | apply wf_foldl | intro _)
    | split
    | exact wf_of_eq_pair ‹_› (by simp; assumption)
    | simp [*]

theorem nextWf_execMulWide (a b : Reg) (o : Op2) (s : State) (hs : s.memory.wf = true) : NextWf (execMulWide a b o s) := by
  unfold execMulWide
  repeat' first
    | with_reducible (first | assumption | apply nextWf_aluWide | apply keepsMem_stop_done | apply keepsMem_set | apply keepsMem_map | apply KeepsMem.get_bind | apply KeepsMem.bind | apply KeepsMem.modify | apply wf_foldl | intro _)
    | split
    | exact wf_of_eq_pair ‹_› (by simp; assumption)
    | simp [*]

theorem nextWf_execMulh (a b c : Reg) (s : State) (hs : s.memory.wf = true) : NextWf (execMulh a b c s) := by
  unfold execMulh
  repeat' first
    | with_reducible (first | assumption | apply nextWf_aluShort | apply keepsMem_stop_done | apply keepsMem_set | apply keepsMem_map | apply KeepsMem.get_bind | apply KeepsMem.bind | apply KeepsMem.modify | apply wf_foldl | intro _)
    | split
    | exact wf_of_eq_pair ‹_› (by simp; assumption)
    | simp [*]

theorem nextWf_execMulhWide (a b : Reg) (o : Op2) (s : State) (hs : s.memory.wf = true) : NextWf (execMulhWide a b o s) := by
  unfold execMulhWide
  repeat' first
    | with_reducible (first | assumption | apply nextWf_aluWide | apply keepsMem_stop_done | apply keepsMem_set | apply keepsMem_map | apply KeepsMem.get_bind | apply KeepsMem.bind | apply KeepsMem.modify | apply wf_foldl | intro _)
    | split
    | exact wf_of_eq_pair ‹_› (by simp; assumption)
    | simp [*]

theorem nextWf_execMulhn (a b c : Reg) (s : State) (hs : s.memory.wf = true) : NextWf (execMulhn a b c s) := by
  unfold execMulhn
  repeat' first
    | with_reducible (first | assumption | apply nextWf_aluShort | apply keepsMem_stop_done | apply keepsMem_set | apply keepsMem_map | apply KeepsMem.get_bind | apply KeepsMem.bind | apply KeepsMem.modify | apply wf_foldl | intro _)
    | split
    | exact wf_of_eq_pair ‹_› (by simp; assumption)
    | simp [*]

theorem nextWf_execMulhnWide (a b : Reg) (o : Op2) (s : State) (hs : s.memory.wf = true) : NextWf (execMulhnWide a b o s) := by
  unfold execMulhnWide
  repeat' first
    | with_reducible (first | assumption | apply nextWf_aluWide | apply keepsMem_stop_done | apply keepsMem_set | apply keepsMem_map | apply KeepsMem.get_bind | apply KeepsMem.bind | apply KeepsMem.modify | apply wf_foldl | intro _)
    | split
    | exact wf_of_eq_pair ‹_› (by simp; assumption)
    | simp [*]

theorem nextWf_execDiv (a b c : Reg) (s : State) (hs : s.memory.wf = true) : NextWf (execDiv a b c s) := by
  unfold execDiv
  repeat' first
    | with_reducible (first | assumption | apply nextWf_aluShort | apply keepsMem_stop_done | apply keepsMem_set | apply keepsMem_map | apply KeepsMem.get_bind | apply KeepsMem.bind | apply KeepsMem.modify | apply wf_foldl | intro _)
    | split
    | exact wf_of_eq_pair ‹_› (by simp; assumption)
    | simp [*]

theorem nextWf_execDivWide (a b : Reg) (o : Op2) (s : State) (hs : s.memory.wf = true) : NextWf (execDivWide a b o s) := by
  unfold execDivWide
  repeat' first
    | with_reducible (first | assumption | apply nextWf_aluWide | apply keepsMem_stop_done | apply keepsMem_set | apply keepsMem_map | apply KeepsMem.get_bind | apply KeepsMem.bind | apply KeepsMem.modify | apply wf_foldl | intro _)
    | split
    | exact wf_of_eq_pair ‹_› (by simp; assumption)
    | simp [*]

theorem nextWf_execDivn (a b c : Reg) (s : State) (hs : s.memory.wf = true) : NextWf (execDivn a b c s) := by
  unfold execDivn
  repeat' first
    | with_reducible (first | assumption | apply nextWf_aluShort | apply keepsMem_stop_done | apply keepsMem_set | apply keepsMem_map | apply KeepsMem.get_bind | apply KeepsMem.bind | apply KeepsMem.modify | apply wf_foldl | intro _)
    | split
    | exact wf_of_eq_pair ‹_› (by simp; assumption)
    | simp [*]

theorem nextWf_execDivnWide (a b : Reg) (o : Op2) (s : State) (hs : s.memory.wf = true) : NextWf (execDivnWide a b o s) := by
  unfold execDivnWide
  repeat' first
    | with_reducible (first | assumption | apply nextWf_aluWide | apply keepsMem_stop_done | apply keepsMem_set | apply keepsMem_map | apply KeepsMem.get_bind | apply KeepsMem.bind | apply KeepsMem.modify | apply wf_foldl | intro _)
    | split
    | exact wf_of_eq_pair ‹_› (by simp; assumption)
    | simp [*]

theorem nextWf_execRem (a b c : Reg) (s : State) (hs : s.memory.wf = true) : NextWf (execRem a b c s) := by
  unfold execRem
  repeat' first
    | with_reducible (first | assumption | apply nextWf_aluShort | apply keepsMem_stop_done | apply keepsMem_set | apply keepsMem_map | apply KeepsMem.get_bind | apply KeepsMem.bind | apply KeepsMem.modify | apply wf_foldl | intro _)
    | split
    | exact wf_of_eq_pair ‹_› (by simp; assumption)
    | simp [*]

theorem nextWf_execRemWide (a b : Reg) (o : Op2) (s : State) (hs : s.memory.wf = true) : NextWf (execRemWide a b o s) := by
  unfold execRemWide
  repeat' first
    | with_reducible (first | assumption | apply nextWf_aluWide | apply keepsMem_stop_done | apply keepsMem_set | apply keepsMem_map | apply KeepsMem.get_bind | apply KeepsMem.bind | apply KeepsMem.modify | apply wf_foldl | intro _)
    | split
    | exact wf_of_eq_pair ‹_› (by simp; assumption)
    | simp [*]

theorem nextWf_execRemn (a b c : Reg) (s : State) (hs : s.memory.wf = true) : NextWf (execRemn a b c s) := by
  unfold execRemn
  repeat' first
    | with_reducible (first | assumption | apply nextWf_aluShort | apply keepsMem_stop_done | apply keepsMem_set | apply keepsMem_map | apply KeepsMem.get_bind | apply KeepsMem.bind | apply KeepsMem.modify | apply wf_foldl | intro _)
    | split
    | exact wf_of_eq_pair ‹_› (by simp; assumption)
    | simp [*]

theorem nextWf_execRemnWide (a b : Reg) (o : Op2) (s : State) (hs : s.memory.wf = true) : NextWf (execRemnWide a b o s) := by
  unfold execRemnWide
  repeat' first
    | with_reducible (first | assumption | apply nextWf_aluWide | apply keepsMem_stop_done | apply keepsMem_set | apply keepsMem_map | apply KeepsMem.get_bind | apply KeepsMem.bind | apply KeepsMem.modify | apply wf_foldl | intro _)
    | split
    | exact wf_of_eq_pair ‹_› (by simp; assumption)
    | simp [*]

theorem nextWf_execAnd (a b c : Reg) (s : State) (hs : s.memory.wf = true) : NextWf (execAnd a b c s) := by
  unfold execAnd
  repeat' first
    | with_reducible (first | assumption | apply nextWf_aluShort | apply keepsMem_stop_done | apply keepsMem_set | apply keepsMem_map | apply KeepsMem.get_bind | apply KeepsMem.bind | apply KeepsMem.modify | apply wf_foldl | intro _)
    | split
    | exact wf_of_eq_pair ‹_› (by simp; assumption)
    | simp [*]

theorem nextWf_execAndWide (a b : Reg) (o : Op2) (s : State) (hs : s.memory.wf = true) : NextWf (execAndWide a b o s) := by
  unfold execAndWide
  repeat' first
    | with_reducible (first | assumption | apply nextWf_aluWide | apply keepsMem_stop_done | apply keepsMem_set | apply keepsMem_map | apply KeepsMem.get_bind | apply KeepsMem.bind | apply KeepsMem.modify | apply wf_foldl | intro _)
    | split
    | exact wf_of_eq_pair ‹_› (by simp; assumption)
    | simp [*]

theorem nextWf_execOr (a b c : Reg) (s : State) (hs : s.memory.wf = true) : NextWf (execOr a b c s) := by
  unfold execOr
  repeat' first
    | with_reducible (first | assumption | apply nextWf_aluShort | apply keepsMem_stop_done | apply keepsMem_set | apply keepsMem_map | apply KeepsMem.get_bind | apply KeepsMem.bind | apply KeepsMem.modify | apply wf_foldl | intro _)
    | split
    | exact wf_of_eq_pair ‹_› (by simp; assumption)
    | simp [*]

theorem nextWf_execOrWide (a b : Reg) (o : Op2) (s : State) (hs : s.memory.wf = true) : NextWf (execOrWide a b o s) := by
  unfold execOrWide
  repeat' first
    | with_reducible (first | assumption | apply nextWf_aluWide | apply keepsMem_stop_done | apply keepsMem_set | apply keepsMem_map | apply KeepsMem.get_bind | apply KeepsMem.bind | apply KeepsMem.modify | apply wf_foldl | intro _)
    | split
    | exact wf_of_eq_pair ‹_› (by simp; assumption)
    | simp [*]

theorem nextWf_execXor (a b c : Reg) (s : State) (hs : s.memory.wf = true) : NextWf (execXor a b c s) := by
  unfold execXor
  repeat' first
    | with_reducible (first | assumption | apply nextWf_aluShort | apply keepsMem_stop_done | apply keepsMem_set | apply keepsMem_map | apply KeepsMem.get_bind | apply KeepsMem.bind | apply KeepsMem.modify | apply wf_foldl | intro _)
    | split
    | exact wf_of_eq_pair ‹_› (by simp; assumption)
    | simp [*]

theorem nextWf_execXorWide (a b : Reg) (o : Op2) (s : State) (hs : s.memory.wf = true) : NextWf (execXorWide a b o s) := by
  unfold execXorWide
  repeat' first
    | with_reducible (first | assumption | apply nextWf_aluWide | apply keepsMem_stop_done | apply keepsMem_set | apply keepsMem_map | apply KeepsMem.get_bind | apply KeepsMem.bind | apply KeepsMem.modify | apply wf_foldl | intro _)
    | split
    | exact wf_of_eq_pair ‹_› (by simp; assumption)
    | simp [*]

theorem nextWf_execShl (a b c : Reg) (s : State) (hs : s.memory.wf = true) : NextWf (execShl a b c s) := by
  unfold execShl
  repeat' first
    | with_reducible (first | assumption | apply nextWf_aluShort | apply keepsMem_stop_done | apply keepsMem_set | apply keepsMem_map | apply KeepsMem.get_bind | apply KeepsMem.bind | apply KeepsMem.modify | apply wf_foldl | intro _)
    | split
    | exact wf_of_eq_pair ‹_› (by simp; assumption)
    | simp [*]

theorem nextWf_execShlWide (a b : Reg) (o : Op2) (s : State) (hs : s.memory.wf = true) : NextWf (execShlWide a b o s) := by
  unfold execShlWide
  repeat' first
    | with_reducible (first | assumption | apply nextWf_aluWide | apply keepsMem_stop_done | apply keepsMem_set | apply keepsMem_map | apply KeepsMem.get_bind | apply KeepsMem.bind | apply KeepsMem.modify | apply wf_foldl | intro _)
    | split
    | exact wf_of_eq_pair ‹_› (by simp; assumption)
    | simp [*]

theorem nextWf_execShr (a b c : Reg) (s : State) (hs : s.memory.wf = true) : NextWf (execShr a b c s) := by
  unfold execShr
  repeat' first
    | with_reducible (first | assumption | apply nextWf_aluShort | apply keepsMem_stop_done | apply keepsMem_set | apply keepsMem_map | apply KeepsMem.get_bind | apply KeepsMem.bind | apply KeepsMem.modify | apply wf_foldl | intro _)
    | split
    | exact wf_of_eq_pair ‹_› (by simp; assumption)
    | simp [*]

theorem nextWf_execShrWide (a b : Reg) (o : Op2) (s : State) (hs : s.memory.wf = true) : NextWf (execShrWide a b o s) := by
  unfold execShrWide
  repeat' first
    | with_reducible (first | assumption | apply nextWf_aluWide | apply keepsMem_stop_done | apply keepsMem_set | apply keepsMem_map | apply KeepsMem.get_bind | apply KeepsMem.bind | apply KeepsMem.modify | apply wf_foldl | intro _)
    | split
    | exact wf_of_eq_pair ‹_› (by simp; assumption)
    | simp [*]

theorem nextWf_execSra (a b c : Reg) (s : State) (hs : s.memory.wf = true) : NextWf (execSra a b c s) := by
  unfold execSra
  repeat' first
    | with_reducible (first | assumption | apply nextWf_aluShort | apply keepsMem_stop_done | apply keepsMem_set | apply keepsMem_map | apply KeepsMem.get_bind | apply KeepsMem.bind | apply KeepsMem.modify | apply wf_foldl | intro _)
    | split
    | exact wf_of_eq_pair ‹_› (by simp; assumption)
    | simp [*]

theorem nextWf_execSraWide (a b : Reg) (o : Op2) (s : State) (hs : s.memory.wf = true) : NextWf (execSraWide a b o s) := by
  unfold execSraWide
  repeat' first
    | with_reducible (first | assumption | apply nextWf_aluWide | apply keepsMem_stop_done | apply keepsMem_set | apply keepsMem_map | apply KeepsMem.get_bind | apply KeepsMem.bind | apply KeepsMem.modify | apply wf_foldl | intro _)
    | split
    | exact wf_of_eq_pair ‹_› (by simp; assumption)
    | simp [*]

theorem nextWf_execRotl (a b c : Reg) (s : State) (hs : s.memory.wf = true) : NextWf (execRotl a b c s) := by
  unfold execRotl
  repeat' first
    | with_reducible (first | assumption | apply nextWf_aluShort | apply keepsMem_stop_done | apply keepsMem_set | apply keepsMem_map | apply KeepsMem.get_bind | apply KeepsMem.bind | apply KeepsMem.modify | apply wf_foldl | intro _)
    | split
    | exact wf_of_eq_pair ‹_› (by simp; assumption)
    | simp [*]

theorem nextWf_execRotlWide (a b : Reg) (o : Op2) (s : State) (hs : s.memory.wf = true) : NextWf (execRotlWide a b o s) := by
  unfold execRotlWide
  repeat' first
    | with_reducible (first | assumption | apply nextWf_aluWide | apply keepsMem_stop_done | apply keepsMem_set | apply keepsMem_map | apply KeepsMem.get_bind | apply KeepsMem.bind | apply KeepsMem.modify | apply wf_foldl | intro _)
    | split
    | exact wf_of_eq_pair ‹_› (by simp; assumption)
    | simp [*]

theorem nextWf_execSlt (a b c : Reg) (s : State) (hs : s.memory.wf = true) : NextWf (execSlt a b c s) := by
  unfold execSlt
  repeat' first
    | with_reducible (first | assumption | apply nextWf_aluShort | apply keepsMem_stop_done | apply keepsMem_set | apply keepsMem_map | apply KeepsMem.get_bind | apply KeepsMem.bind | apply KeepsMem.modify | apply wf_foldl | intro _)
    | split
    | exact wf_of_eq_pair ‹_› (by simp; assumption)
    | simp [*]

theorem nextWf_execSltWide (a b : Reg) (o : Op2) (s : State) (hs : s.memory.wf = true) : NextWf (execSltWide a b o s) := by
  unfold execSltWide
  repeat' first
    | with_reducible (first | assumption | apply nextWf_aluWide | apply keepsMem_stop_done | apply keepsMem_set | apply keepsMem_map | apply KeepsMem.get_bind | apply KeepsMem.bind | apply KeepsMem.modify | apply wf_foldl | intro _)
    | split
    | exact wf_of_eq_pair ‹_› (by simp; assumption)
    | simp [*]

theorem nextWf_execSltn (a b c : Reg) (s : State) (hs : s.memory.wf = true) : NextWf (execSltn a b c s) := by
  unfold execSltn
  repeat' first
    | with_reducible (first | assumption | apply nextWf_aluShort | apply keepsMem_stop_done | apply keepsMem_set | apply keepsMem_map | apply KeepsMem.get_bind | apply KeepsMem.bind | apply KeepsMem.modify | apply wf_foldl | intro _)
    | split
    | exact wf_of_eq_pair ‹_› (by simp; assumption)
    | simp [*]

theorem nextWf_execSltnWide (a b : Reg) (o : Op2) (s : State) (hs : s.memory.wf = true) : NextWf (execSltnWide a b o s) := by
  unfold execSltnWide
  repeat' first
    | with_reducible (first | assumption | apply nextWf_aluWide | apply keepsMem_stop_done | apply keepsMem_set | apply keepsMem_map | apply KeepsMem.get_bind | apply KeepsMem.bind | apply KeepsMem.modify | apply wf_foldl | intro _)
    | split
    | exact wf_of_eq_pair ‹_› (by simp; assumption)
    | simp [*]

theorem nextWf_execSeq (a b c : Reg) (s : State) (hs : s.memory.wf = true) : NextWf (execSeq a b c s) := by
  unfold execSeq
  repeat' first
    | with_reducible (first | assumption | apply nextWf_aluShort | apply keepsMem_stop_done | apply keepsMem_set | apply keepsMem_map | apply KeepsMem.get_bind | apply KeepsMem.bind | apply KeepsMem.modify | apply wf_foldl | intro _)
    | split
    | exact wf_of_eq_pair ‹_› (by simp; assumption)
    | simp [*]

theorem nextWf_execSeqWide (a b : Reg) (o : Op2) (s : State) (hs : s.memory.wf = true) : NextWf (execSeqWide a b o s) := by
  unfold execSeqWide
  repeat' first
    | with_reducible (first | assumption | apply nextWf_aluWide | apply keepsMem_stop_done | apply keepsMem_set | apply keepsMem_map | apply KeepsMem.get_bind | apply KeepsMem.bind | apply KeepsMem.modify | apply wf_foldl | intro _)
    | split
    | exact wf_of_eq_pair ‹_› (by simp; assumption)
    | simp [*]

theorem nextWf_execSne (a b c : Reg) (s : State) (hs : s.memory.wf = true) : NextWf (execSne a b c s) := by
  unfold execSne
  repeat' first
    | with_reducible (first | assumption | apply nextWf_aluShort | apply keepsMem_stop_done | apply keepsMem_set | apply keepsMem_map | apply KeepsMem.get_bind | apply KeepsMem.bind | apply KeepsMem.modify | apply wf_foldl | intro _)
    | split
    | exact wf_of_eq_pair ‹_› (by simp; assumption)
    | simp [*]

theorem nextWf_execSneWide (a b : Reg) (o : Op2) (s : State) (hs : s.memory.wf = true) : NextWf (execSneWide a b o s) := by
  unfold execSneWide
  repeat' first
    | with_reducible (first | assumption | apply nextWf_aluWide | apply keepsMem_stop_done | apply keepsMem_set | apply keepsMem_map | apply KeepsMem.get_bind | apply KeepsMem.bind | apply KeepsMem.modify | apply wf_foldl | intro _)
    | split
    | exact wf_of_eq_pair ‹_› (by simp; assumption)
    | simp [*]

theorem nextWf_execMin (a b c : Reg) (s : State) (hs : s.memory.wf = true) : NextWf (execMin a b c s) := by
  unfold execMin
  repeat' first
    | with_reducible (first | assumption | apply nextWf_aluShort | apply keepsMem_stop_done | apply keepsMem_set | apply keepsMem_map | apply KeepsMem.get_bind | apply KeepsMem.bind | apply KeepsMem.modify | apply wf_foldl | intro _)
    | split
    | exact wf_of_eq_pair ‹_› (by simp; assumption)
    | simp [*]

theorem nextWf_execMinWide (a b : Reg) (o : Op2) (s : State) (hs : s.memory.wf = true) : NextWf (execMinWide a b o s) := by
  unfold execMinWide
  repeat' first
    | with_reducible (first | assumption | apply nextWf_aluWide | apply keepsMem_stop_done | apply keepsMem_set | apply keepsMem_map | apply KeepsMem.get_bind | apply KeepsMem.bind | apply KeepsMem.modify | apply wf_foldl | intro _)
    | split
    | exact wf_of_eq_pair ‹_› (by simp; assumption)
    | simp [*]

theorem nextWf_execMax (a b c : Reg) (s : State) (hs : s.memory.wf = true) : NextWf (execMax a b c s) := by
  unfold execMax
  repeat' first
    | with_reducible (first | assumption | apply nextWf_aluShort | apply keepsMem_stop_done | apply keepsMem_set | apply keepsMem_map | apply KeepsMem.get_bind | apply KeepsMem.bind | apply KeepsMem.modify | apply wf_foldl | intro _)
    | split
    | exact wf_of_eq_pair ‹_› (by simp; assumption)
    | simp [*]

theorem nextWf_execMaxWide (a b : Reg) (o : Op2) (s : State) (hs : s.memory.wf = true) : NextWf (execMaxWide a b o s) := by
  unfold execMaxWide
  repeat' first
    | with_reducible (first | assumption | apply nextWf_aluWide | apply keepsMem_stop_done | apply keepsMem_set | apply keepsMem_map | apply KeepsMem.get_bind | apply KeepsMem.bind | apply KeepsMem.modify | apply wf_foldl | intro _)
    | split
    | exact wf_of_eq_pair ‹_› (by simp; assumption)
    | simp [*]

theorem nextWf_execMinn (a b c : Reg) (s : State) (hs : s.memory.wf = true) : NextWf (execMinn a b c s) := by
  unfold execMinn
  repeat' first
    | with_reducible (first | assumption | apply nextWf_aluShort | apply keepsMem_stop_done | apply keepsMem_set | apply keepsMem_map | apply KeepsMem.get_bind | apply KeepsMem.bind | apply KeepsMem.modify | apply wf_foldl | intro _)
    | split
    | exact wf_of_eq_pair ‹_› (by simp; assumption)
    | simp [*]

theorem nextWf_execMinnWide (a b : Reg) (o : Op2) (s : State) (hs : s.memory.wf = true) : NextWf (execMinnWide a b o s) := by
  unfold execMinnWide
  repeat' first
    | with_reducible (first | assumption | apply nextWf_aluWide | apply keepsMem_stop_done | apply keepsMem_set | apply keepsMem_map | apply KeepsMem.get_bind | apply KeepsMem.bind | apply KeepsMem.modify | apply wf_foldl | intro _)
    | split
    | exact wf_of_eq_pair ‹_› (by simp; assumption)
    | simp [*]

theorem nextWf_execMaxn (a b c : Reg) (s : State) (hs : s.memory.wf = true) : NextWf (execMaxn a b c s) := by
  unfold execMaxn
  repeat' first
    | with_reducible (first | assumption | apply nextWf_aluShort | apply keepsMem_stop_done | apply keepsMem_set | apply keepsMem_map | apply KeepsMem.get_bind | apply KeepsMem.bind | apply KeepsMem.modify | apply wf_foldl | intro _)
    | split
    | exact wf_of_eq_pair ‹_› (by simp; assumption)
    | simp [*]

theorem nextWf_execMaxnWide (a b : Reg) (o : Op2) (s : State) (hs : s.memory.wf = true) : NextWf (execMaxnWide a b o s) := by
  unfold execMaxnWide
  repeat' first
    | with_reducible (first | assumption | apply nextWf_aluWide | apply keepsMem_stop_done | apply keepsMem_set | apply keepsMem_map | apply KeepsMem.get_bind | apply KeepsMem.bind | apply KeepsMem.modify | apply wf_foldl | intro _)
    | split
    | exact wf_of_eq_pair ‹_› (by simp; assumption)
    | simp [*]

theorem nextWf_execClz (a b : Reg) (s : State) (hs : s.memory.wf = true) : NextWf (execClz a b s) := by
  unfold execClz
  repeat' first
    | with_reducible (first | assumption | apply nextWf_unary | apply keepsMem_stop_done | apply keepsMem_set | apply keepsMem_map | apply KeepsMem.get_bind | apply KeepsMem.bind | apply KeepsMem.modify | apply wf_foldl | intro _)
    | split
    | exact wf_of_eq_pair ‹_› (by simp; assumption)
    | simp [*]

theorem nextWf_execClzExt (a b : Reg) (w : BitWidth) (s : State) (hs : s.memory.wf = true) : NextWf (execClzExt a b w s) := by
  unfold execClzExt
  repeat' first
    | with_reducible (first | assumption | apply nextWf_unary | apply keepsMem_stop_done | apply keepsMem_set | apply keepsMem_map | apply KeepsMem.get_bind | apply KeepsMem.bind | apply KeepsMem.modify | apply wf_foldl | intro _)
    | split
    | exact wf_of_eq_pair ‹_› (by simp; assumption)
    | simp [*]

theorem nextWf_execCtz (a b : Reg) (s : State) (hs : s.memory.wf = true) : NextWf (execCtz a b s) := by
  unfold execCtz
  repeat' first
    | with_reducible (first | assumption | apply nextWf_unary | apply keepsMem_stop_done | apply keepsMem_set | apply keepsMem_map | apply KeepsMem.get_bind | apply KeepsMem.bind | apply KeepsMem.modify | apply wf_foldl | intro _)
    | split
    | exact wf_of_eq_pair ‹_› (by simp; assumption)
    | simp [*]

theorem nextWf_execCtzExt (a b : Reg) (w : BitWidth) (s : State) (hs : s.memory.wf = true) : NextWf (execCtzExt a b w s) := by
  unfold execCtzExt
  repeat' first
    | with_reducible (first | assumption | apply nextWf_unary | apply keepsMem_stop_done | apply keepsMem_set | apply keepsMem_map | apply KeepsMem.get_bind | apply KeepsMem.bind | apply KeepsMem.modify | apply wf_foldl | intro _)
    | split
    | exact wf_of_eq_pair ‹_› (by simp; assumption)
    | simp [*]

theorem nextWf_execPopc (a b : Reg) (s : State) (hs : s.memory.wf = true) : NextWf (execPopc a b s) := by
  unfold execPopc
  repeat' first
    | with_reducible (first | assumption | apply nextWf_unary | apply keepsMem_stop_done | apply keepsMem_set | apply keepsMem_map | apply KeepsMem.get_bind | apply KeepsMem.bind | apply KeepsMem.modify | apply wf_foldl | intro _)
    | split
    | exact wf_of_eq_pair ‹_› (by simp; assumption)
    | simp [*]

theorem nextWf_execPopcExt (a b : Reg) (w : BitWidth) (s : State) (hs : s.memory.wf = true) : NextWf (execPopcExt a b w s) := by
  unfold execPopcExt
  repeat' first
    | with_reducible (first | assumption | apply nextWf_unary | apply keepsMem_stop_done | apply keepsMem_set | apply keepsMem_map | apply KeepsMem.get_bind | apply KeepsMem.bind | apply KeepsMem.modify | apply wf_foldl | intro _)
    | split
    | exact wf_of_eq_pair ‹_› (by simp; assumption)
    | simp [*]

theorem nextWf_execBswap (a b : Reg) (s : State) (hs : s.memory.wf = true) : NextWf (execBswap a b s) := by
  unfold execBswap
  repeat' first
    | with_reducible (first | assumption | apply nextWf_unary | apply keepsMem_stop_done | apply keepsMem_set | apply keepsMem_map | apply KeepsMem.get_bind | apply KeepsMem.bind | apply KeepsMem.modify | apply wf_foldl | intro _)
    | split
    | exact wf_of_eq_pair ‹_› (by simp; assumption)
    | simp [*]

theorem nextWf_execBswapExt (a b : Reg) (w : BitWidth) (s : State) (hs : s.memory.wf = true) : NextWf (execBswapExt a b w s) := by
  unfold execBswapExt
  repeat' first
    | with_reducible (first | assumption | apply nextWf_unary | apply keepsMem_stop_done | apply keepsMem_set | apply keepsMem_map | apply KeepsMem.get_bind | apply KeepsMem.bind | apply KeepsMem.modify | apply wf_foldl | intro _)
    | split
    | exact wf_of_eq_pair ‹_› (by simp; assumption)
    | simp [*]

theorem nextWf_execQadd (a b c : Reg) (s : State) (hs : s.memory.wf = true) : NextWf (execQadd a b c s) := by
  unfold execQadd
  repeat' first
    | with_reducible (first | assumption | apply nextWf_quadShort | apply keepsMem_stop_done | apply keepsMem_set | apply keepsMem_map | apply KeepsMem.get_bind | apply KeepsMem.bind | apply KeepsMem.modify | apply wf_foldl | intro _)
    | split
    | exact wf_of_eq_pair ‹_› (by simp; assumption)
    | simp [*]

theorem nextWf_execQaddWide (a b : Reg) (o : Op2) (s : State) (hs : s.memory.wf = true) : NextWf (execQaddWide a b o s) := by
  unfold execQaddWide
  repeat' first
    | with_reducible (first | assumption | apply nextWf_quadWide | apply keepsMem_stop_done | apply keepsMem_set | apply keepsMem_map | apply KeepsMem.get_bind | apply KeepsMem.bind | apply KeepsMem.modify | apply wf_foldl | intro _)
    | split
    | exact wf_of_eq_pair ‹_› (by simp; assumption)
    | simp [*]

theorem nextWf_execQsub (a b c : Reg) (s : State) (hs : s.memory.wf = true) : NextWf (execQsub a b c s) := by
  unfold execQsub
  repeat' first
    | with_reducible (first | assumption | apply nextWf_quadShort | apply keepsMem_stop_done | apply keepsMem_set | apply keepsMem_map | apply KeepsMem.get_bind | apply KeepsMem.bind | apply KeepsMem.modify | apply wf_foldl | intro _)
    | split
    | exact wf_of_eq_pair ‹_› (by simp; assumption)
    | simp [*]

theorem nextWf_execQsubWide (a b : Reg) (o : Op2) (s : State) (hs : s.memory.wf = true) : NextWf (execQsubWide a b o s) := by
  unfold execQsubWide
  repeat' first
    | with_reducible (first | assumption | apply nextWf_quadWide | apply keepsMem_stop_done | apply keepsMem_set | apply keepsMem_map | apply KeepsMem.get_bind | apply KeepsMem.bind | apply KeepsMem.modify | apply wf_foldl | intro _)
    | split
    | exact wf_of_eq_pair ‹_› (by simp; assumption)
    | simp [*]

theorem nextWf_execQmul (a b c : Reg) (s : State) (hs : s.memory.wf = true) : NextWf (execQmul a b c s) := by
  unfold execQmul
  repeat' first
    | with_reducible (first | assumption | apply nextWf_quadShort | apply keepsMem_stop_done | apply keepsMem_set | apply keepsMem_map | apply KeepsMem.get_bind | apply KeepsMem.bind | apply KeepsMem.modify | apply wf_foldl | intro _)
    | split
    | exact wf_of_eq_pair ‹_› (by simp; assumption)
    | simp [*]

theorem nextWf_execQmulWide (a b : Reg) (o : Op2) (s : State) (hs : s.memory.wf = true) : NextWf (execQmulWide a b o s) := by
  unfold execQmulWide
  repeat' first
    | with_reducible (first | assumption | apply nextWf_quadWide | apply keepsMem_stop_done | apply keepsMem_set | apply keepsMem_map | apply KeepsMem.get_bind | apply KeepsMem.bind | apply KeepsMem.modify | apply wf_foldl | intro _)
    | split
    | exact wf_of_eq_pair ‹_› (by simp; assumption)
    | simp [*]

theorem nextWf_execQshl (a b c : Reg) (s : State) (hs : s.memory.wf = true) : NextWf (execQshl a b c s) := by
  unfold execQshl
  repeat' first
    | with_reducible (first | assumption | apply nextWf_quadShort | apply keepsMem_stop_done | apply keepsMem_set | apply keepsMem_map | apply KeepsMem.get_bind | apply KeepsMem.bind | apply KeepsMem.modify | apply wf_foldl | intro _)
    | split
    | exact wf_of_eq_pair ‹_› (by simp; assumption)
    | simp [*]

theorem nextWf_execQshlWide (a b : Reg) (o : Op2) (s : State) (hs : s.memory.wf = true) : NextWf (execQshlWide a b o s) := by
  unfold execQshlWide
  repeat' first
    | with_reducible (first | assumption | apply nextWf_quadWide | apply keepsMem_stop_done | apply keepsMem_set | apply keepsMem_map | apply KeepsMem.get_bind | apply KeepsMem.bind | apply KeepsMem.modify | apply wf_foldl | intro _)
    | split
    | exact wf_of_eq_pair ‹_› (by simp; assumption)
    | simp [*]

theorem nextWf_execQshr (a b c : Reg) (s : State) (hs : s.memory.wf = true) : NextWf (execQshr a b c s) := by
  unfold execQshr
  repeat' first
    | with_reducible (first | assumption | apply nextWf_quadShort | apply keepsMem_stop_done | apply keepsMem_set | apply keepsMem_map | apply KeepsMem.get_bind | apply KeepsMem.bind | apply KeepsMem.modify | apply wf_foldl | intro _)
    | split
    | exact wf_of_eq_pair ‹_› (by simp; assumption)
    | simp [*]

theorem nextWf_execQshrWide (a b : Reg) (o : Op2) (s : State) (hs : s.memory.wf = true) : NextWf (execQshrWide a b o s) := by
  unfold execQshrWide
  repeat' first
    | with_reducible (first | assumption | apply nextWf_quadWide | apply keepsMem_stop_done | apply keepsMem_set | apply keepsMem_map | apply KeepsMem.get_bind | apply KeepsMem.bind | apply KeepsMem.modify | apply wf_foldl | intro _)
    | split
    | exact wf_of_eq_pair ‹_› (by simp; assumption)
    | simp [*]

theorem nextWf_execGetVersion (s : State) (hs : s.memory.wf = true) : NextWf (execGetVersion s) := by
  unfold execGetVersion
  repeat' first
    | with_reducible (first | assumption | apply nextWf_answer | apply wf_onSpdm | apply keepsMem_stop_done | apply keepsMem_set | apply keepsMem_map | apply KeepsMem.get_bind | apply KeepsMem.bind | apply KeepsMem.modify | apply wf_foldl | intro _)
    | split
    | exact wf_of_eq_pair ‹_› (by simp; assumption)
    | simp [*]

theorem nextWf_execGetCapabilities (s : State) (hs : s.memory.wf = true) : NextWf (execGetCapabilities s) := by
  unfold execGetCapabilities
  repeat' first
    | with_reducible (first | assumption | apply nextWf_answer | apply wf_onSpdm | apply nextWf_errorResponse | apply keepsMem_stop_done | apply keepsMem_set | apply keepsMem_map | apply KeepsMem.get_bind | apply KeepsMem.bind | apply KeepsMem.modify | apply wf_foldl | intro _)
    | split
    | exact wf_of_eq_pair ‹_› (by simp; assumption)
    | simp [*]

theorem nextWf_execNegotiateAlgorithms (offered : List SpdmAlgorithm) (s : State) (hs : s.memory.wf = true) : NextWf (execNegotiateAlgorithms offered s) := by
  unfold execNegotiateAlgorithms
  repeat' first
    | with_reducible (first | assumption | apply nextWf_answer | apply wf_onSpdm | apply nextWf_errorResponse | apply keepsMem_stop_done | apply keepsMem_set | apply keepsMem_map | apply KeepsMem.get_bind | apply KeepsMem.bind | apply KeepsMem.modify | apply wf_foldl | intro _)
    | split
    | exact wf_of_eq_pair ‹_› (by simp; assumption)
    | simp [*]

theorem nextWf_execGetDigests (s : State) (hs : s.memory.wf = true) : NextWf (execGetDigests s) := by
  unfold execGetDigests
  repeat' first
    | with_reducible (first | assumption | apply nextWf_answer | apply nextWf_errorResponse | apply keepsMem_stop_done | apply keepsMem_set | apply keepsMem_map | apply KeepsMem.get_bind | apply KeepsMem.bind | apply KeepsMem.modify | apply wf_foldl | intro _)
    | split
    | exact wf_of_eq_pair ‹_› (by simp; assumption)
    | simp [*]

theorem nextWf_execGetCertificate (slot offset length : Nat) (s : State) (hs : s.memory.wf = true) : NextWf (execGetCertificate slot offset length s) := by
  unfold execGetCertificate
  repeat' first
    | with_reducible (first | assumption | apply nextWf_answer | apply nextWf_errorResponse | apply keepsMem_stop_done | apply keepsMem_set | apply keepsMem_map | apply KeepsMem.get_bind | apply KeepsMem.bind | apply KeepsMem.modify | apply wf_foldl | intro _)
    | split
    | exact wf_of_eq_pair ‹_› (by simp; assumption)
    | simp [*]

theorem nextWf_execChallenge (slot : Nat) (nonce : BitVec 256) (s : State) (hs : s.memory.wf = true) : NextWf (execChallenge slot nonce s) := by
  unfold execChallenge
  repeat' first
    | with_reducible (first | assumption | apply nextWf_answer | apply nextWf_errorResponse | apply keepsMem_stop_done | apply keepsMem_set | apply keepsMem_map | apply KeepsMem.get_bind | apply KeepsMem.bind | apply KeepsMem.modify | apply wf_foldl | intro _)
    | split
    | exact wf_of_eq_pair ‹_› (by simp; assumption)
    | simp [*]

theorem nextWf_execGetMeasurements (request : Nat × Option (Nat × BitVec 256)) (s : State) (hs : s.memory.wf = true) : NextWf (execGetMeasurements request s) := by
  unfold execGetMeasurements
  repeat' first
    | with_reducible (first | assumption | apply nextWf_answer | apply nextWf_errorResponse | apply keepsMem_stop_done | apply keepsMem_set | apply keepsMem_map | apply KeepsMem.get_bind | apply KeepsMem.bind | apply KeepsMem.modify | apply wf_foldl | intro _)
    | split
    | exact wf_of_eq_pair ‹_› (by simp; assumption)
    | simp [*]

theorem nextWf_execKeyExchange (share : BitVec 768) (s : State) (hs : s.memory.wf = true) : NextWf (execKeyExchange share s) := by
  unfold execKeyExchange
  repeat' first
    | with_reducible (first | assumption | apply nextWf_answer | apply wf_onSpdm | apply nextWf_errorResponse | apply keepsMem_stop_done | apply keepsMem_set | apply keepsMem_map | apply KeepsMem.get_bind | apply KeepsMem.bind | apply KeepsMem.modify | apply wf_foldl | intro _)
    | split
    | exact wf_of_eq_pair ‹_› (by simp; assumption)
    | simp [*]

theorem nextWf_execFinish (verify : BitVec 384) (s : State) (hs : s.memory.wf = true) : NextWf (execFinish verify s) := by
  unfold execFinish
  repeat' first
    | with_reducible (first | assumption | apply nextWf_answer | apply wf_onSpdm | apply nextWf_errorResponse | apply keepsMem_stop_done | apply keepsMem_set | apply keepsMem_map | apply KeepsMem.get_bind | apply KeepsMem.bind | apply KeepsMem.modify | apply wf_foldl | intro _)
    | split
    | exact wf_of_eq_pair ‹_› (by simp; assumption)
    | simp [*]

theorem nextWf_execHeartbeat (session : Nat) (s : State) (hs : s.memory.wf = true) : NextWf (execHeartbeat session s) := by
  unfold execHeartbeat
  repeat' first
    | with_reducible (first | assumption | apply nextWf_answer | apply nextWf_errorResponse | apply keepsMem_stop_done | apply keepsMem_set | apply keepsMem_map | apply KeepsMem.get_bind | apply KeepsMem.bind | apply KeepsMem.modify | apply wf_foldl | intro _)
    | split
    | exact wf_of_eq_pair ‹_› (by simp; assumption)
    | simp [*]

theorem nextWf_execKeyUpdate (session : Nat) (s : State) (hs : s.memory.wf = true) : NextWf (execKeyUpdate session s) := by
  unfold execKeyUpdate
  repeat' first
    | with_reducible (first | assumption | apply nextWf_answer | apply wf_onSpdm | apply nextWf_errorResponse | apply keepsMem_stop_done | apply keepsMem_set | apply keepsMem_map | apply KeepsMem.get_bind | apply KeepsMem.bind | apply KeepsMem.modify | apply wf_foldl | intro _)
    | split
    | exact wf_of_eq_pair ‹_› (by simp; assumption)
    | simp [*]

theorem nextWf_execEndSession (session : Nat) (s : State) (hs : s.memory.wf = true) : NextWf (execEndSession session s) := by
  unfold execEndSession
  repeat' first
    | with_reducible (first | assumption | apply nextWf_answer | apply wf_onSpdm | apply nextWf_errorResponse | apply keepsMem_stop_done | apply keepsMem_set | apply keepsMem_map | apply KeepsMem.get_bind | apply KeepsMem.bind | apply KeepsMem.modify | apply wf_foldl | intro _)
    | split
    | exact wf_of_eq_pair ‹_› (by simp; assumption)
    | simp [*]

theorem nextWf_execSetCertificate (session slot : Nat) (chain : List (BitVec 8)) (s : State) (hs : s.memory.wf = true) : NextWf (execSetCertificate session slot chain s) := by
  unfold execSetCertificate
  repeat' first
    | with_reducible (first | assumption | apply nextWf_answer | apply wf_onSpdm | apply nextWf_errorResponse | apply keepsMem_stop_done | apply keepsMem_set | apply keepsMem_map | apply KeepsMem.get_bind | apply KeepsMem.bind | apply KeepsMem.modify | apply wf_foldl | intro _)
    | split
    | exact wf_of_eq_pair ‹_› (by simp; assumption)
    | simp [*]

theorem nextWf_execSetkey (session identifier : Nat) (key : BitVec 512) (s : State) (hs : s.memory.wf = true) : NextWf (execSetkey session identifier key s) := by
  unfold execSetkey
  repeat' first
    | with_reducible (first | assumption | apply nextWf_answer | apply wf_rekey | apply nextWf_errorResponse | apply keepsMem_stop_done | apply keepsMem_set | apply keepsMem_map | apply KeepsMem.get_bind | apply KeepsMem.bind | apply KeepsMem.modify | apply wf_foldl | intro _)
    | split
    | exact wf_of_eq_pair ‹_› (by simp; assumption)
    | simp [*]

theorem nextWf_execGenkey (session identifier : Nat) (s : State) (hs : s.memory.wf = true) : NextWf (execGenkey session identifier s) := by
  unfold execGenkey
  repeat' first
    | with_reducible (first | assumption | apply nextWf_answer | apply wf_rekey | apply nextWf_errorResponse | apply keepsMem_stop_done | apply keepsMem_set | apply keepsMem_map | apply KeepsMem.get_bind | apply KeepsMem.bind | apply KeepsMem.modify | apply wf_foldl | intro _)
    | split
    | exact wf_of_eq_pair ‹_› (by simp; assumption)
    | simp [*]

theorem nextWf_execDropkey (session identifier : Nat) (s : State) (hs : s.memory.wf = true) : NextWf (execDropkey session identifier s) := by
  unfold execDropkey
  repeat' first
    | with_reducible (first | assumption | apply nextWf_answer | apply wf_rekey | apply nextWf_errorResponse | apply keepsMem_stop_done | apply keepsMem_set | apply keepsMem_map | apply KeepsMem.get_bind | apply KeepsMem.bind | apply KeepsMem.modify | apply wf_foldl | intro _)
    | split
    | exact wf_of_eq_pair ‹_› (by simp; assumption)
    | simp [*]

end Sys2Proof.Machine
end

section
namespace Sys2Proof.Machine

/-- Every meaning keeps memory in canonical form. -/
theorem nextWf_exec (i : Instr) (s : State) (hs : s.memory.wf = true) : NextWf (exec i s) := by
  cases i with
  | add a b c => exact nextWf_execAdd a b c s hs
  | addWide a b o => exact nextWf_execAddWide a b o s hs
  | sub a b c => exact nextWf_execSub a b c s hs
  | subWide a b o => exact nextWf_execSubWide a b o s hs
  | mul a b c => exact nextWf_execMul a b c s hs
  | mulWide a b o => exact nextWf_execMulWide a b o s hs
  | mulh a b c => exact nextWf_execMulh a b c s hs
  | mulhWide a b o => exact nextWf_execMulhWide a b o s hs
  | mulhn a b c => exact nextWf_execMulhn a b c s hs
  | mulhnWide a b o => exact nextWf_execMulhnWide a b o s hs
  | div a b c => exact nextWf_execDiv a b c s hs
  | divWide a b o => exact nextWf_execDivWide a b o s hs
  | divn a b c => exact nextWf_execDivn a b c s hs
  | divnWide a b o => exact nextWf_execDivnWide a b o s hs
  | rem a b c => exact nextWf_execRem a b c s hs
  | remWide a b o => exact nextWf_execRemWide a b o s hs
  | remn a b c => exact nextWf_execRemn a b c s hs
  | remnWide a b o => exact nextWf_execRemnWide a b o s hs
  | and a b c => exact nextWf_execAnd a b c s hs
  | andWide a b o => exact nextWf_execAndWide a b o s hs
  | or a b c => exact nextWf_execOr a b c s hs
  | orWide a b o => exact nextWf_execOrWide a b o s hs
  | xor a b c => exact nextWf_execXor a b c s hs
  | xorWide a b o => exact nextWf_execXorWide a b o s hs
  | shl a b c => exact nextWf_execShl a b c s hs
  | shlWide a b o => exact nextWf_execShlWide a b o s hs
  | shr a b c => exact nextWf_execShr a b c s hs
  | shrWide a b o => exact nextWf_execShrWide a b o s hs
  | sra a b c => exact nextWf_execSra a b c s hs
  | sraWide a b o => exact nextWf_execSraWide a b o s hs
  | rotl a b c => exact nextWf_execRotl a b c s hs
  | rotlWide a b o => exact nextWf_execRotlWide a b o s hs
  | slt a b c => exact nextWf_execSlt a b c s hs
  | sltWide a b o => exact nextWf_execSltWide a b o s hs
  | sltn a b c => exact nextWf_execSltn a b c s hs
  | sltnWide a b o => exact nextWf_execSltnWide a b o s hs
  | seq a b c => exact nextWf_execSeq a b c s hs
  | seqWide a b o => exact nextWf_execSeqWide a b o s hs
  | sne a b c => exact nextWf_execSne a b c s hs
  | sneWide a b o => exact nextWf_execSneWide a b o s hs
  | min a b c => exact nextWf_execMin a b c s hs
  | minWide a b o => exact nextWf_execMinWide a b o s hs
  | max a b c => exact nextWf_execMax a b c s hs
  | maxWide a b o => exact nextWf_execMaxWide a b o s hs
  | minn a b c => exact nextWf_execMinn a b c s hs
  | minnWide a b o => exact nextWf_execMinnWide a b o s hs
  | maxn a b c => exact nextWf_execMaxn a b c s hs
  | maxnWide a b o => exact nextWf_execMaxnWide a b o s hs
  | clz a b => exact nextWf_execClz a b s hs
  | clzExt a b w => exact nextWf_execClzExt a b w s hs
  | ctz a b => exact nextWf_execCtz a b s hs
  | ctzExt a b w => exact nextWf_execCtzExt a b w s hs
  | popc a b => exact nextWf_execPopc a b s hs
  | popcExt a b w => exact nextWf_execPopcExt a b w s hs
  | bswap a b => exact nextWf_execBswap a b s hs
  | bswapExt a b w => exact nextWf_execBswapExt a b w s hs
  | qadd a b c => exact nextWf_execQadd a b c s hs
  | qaddWide a b o => exact nextWf_execQaddWide a b o s hs
  | qsub a b c => exact nextWf_execQsub a b c s hs
  | qsubWide a b o => exact nextWf_execQsubWide a b o s hs
  | qmul a b c => exact nextWf_execQmul a b c s hs
  | qmulWide a b o => exact nextWf_execQmulWide a b o s hs
  | qshl a b c => exact nextWf_execQshl a b c s hs
  | qshlWide a b o => exact nextWf_execQshlWide a b o s hs
  | qshr a b c => exact nextWf_execQshr a b c s hs
  | qshrWide a b o => exact nextWf_execQshrWide a b o s hs
  | kmov a b => exact nextWf_execKmov a b s hs
  | kmovExt a b => exact nextWf_execKmovExt a b s hs
  | kstep a b c => exact nextWf_execKstep a b c s hs
  | kstepExt a b c imm => exact nextWf_execKstepExt a b c imm s hs
  | kplace a b c => exact nextWf_execKplace a b c s hs
  | kplaceExt a b c imm => exact nextWf_execKplaceExt a b c imm s hs
  | kfit a b c => exact nextWf_execKfit a b c s hs
  | kfitExt a b c imm => exact nextWf_execKfitExt a b c imm s hs
  | kcut a b c => exact nextWf_execKcut a b c s hs
  | kcutExt a b c imm => exact nextWf_execKcutExt a b c imm s hs
  | kmask a b c => exact nextWf_execKmask a b c s hs
  | kmaskExt a b c imm => exact nextWf_execKmaskExt a b c imm s hs
  | klock a b => exact nextWf_execKlock a b s hs
  | klockExt a b => exact nextWf_execKlockExt a b s hs
  | kopen a b c => exact nextWf_execKopen a b c s hs
  | kopenExt a b c => exact nextWf_execKopenExt a b c s hs
  | kcur a b => exact nextWf_execKcur a b s hs
  | kbase a b => exact nextWf_execKbase a b s hs
  | ktop a b => exact nextWf_execKtop a b s hs
  | klen a b => exact nextWf_execKlen a b s hs
  | kperm a b => exact nextWf_execKperm a b s hs
  | ktag a b => exact nextWf_execKtag a b s hs
  | kinside a b c => exact nextWf_execKinside a b c s hs
  | kplain a b => exact nextWf_execKplain a b s hs
  | j off => exact nextWf_execJ off s hs
  | jExt off => exact nextWf_execJExt off s hs
  | jal a off => exact nextWf_execJal a off s hs
  | jalExt a off => exact nextWf_execJalExt a off s hs
  | jr b => exact nextWf_execJr b s hs
  | jalr a b => exact nextWf_execJalr a b s hs
  | ret b => exact nextWf_execRet b s hs
  | beq a b off => exact nextWf_execBeq a b off s hs
  | beqExt a b off => exact nextWf_execBeqExt a b off s hs
  | bne a b off => exact nextWf_execBne a b off s hs
  | bneExt a b off => exact nextWf_execBneExt a b off s hs
  | blt a b off => exact nextWf_execBlt a b off s hs
  | bltExt a b off => exact nextWf_execBltExt a b off s hs
  | bge a b off => exact nextWf_execBge a b off s hs
  | bgeExt a b off => exact nextWf_execBgeExt a b off s hs
  | bltn a b off => exact nextWf_execBltn a b off s hs
  | bltnExt a b off => exact nextWf_execBltnExt a b off s hs
  | bgen a b off => exact nextWf_execBgen a b off s hs
  | bgenExt a b off => exact nextWf_execBgenExt a b off s hs
  | bm m cond off => exact nextWf_execBm m cond off s hs
  | kenter a b => exact nextWf_execKenter a b s hs
  | ctxSave d a b c evict => exact nextWf_execCtxSave d a b c evict s hs
  | ctxRest d a b c => exact nextWf_execCtxRest d a b c s hs
  | eret b => exact nextWf_execEret b s hs
  | start a b c pin => exact nextWf_execStart a b c pin s hs
  | join a b => exact nextWf_execJoin a b s hs
  | halt a => exact nextWf_execHalt a s hs
  | spawn a b c d imm => exact nextWf_execSpawn a b c d imm s hs
  | yield => exact nextWf_execYield s hs
  | bar sc => exact nextWf_execBar sc s hs
  | semSig sem => exact nextWf_execSemSig sem s hs
  | semWait sem => exact nextWf_execSemWait sem s hs
  | fwdPut a quad => exact nextWf_execFwdPut a quad s hs
  | fwdGet a => exact nextWf_execFwdGet a s hs
  | trap n => exact nextWf_execTrap n s hs
  | trapExt n => exact nextWf_execTrapExt n s hs
  | srd a sr => exact nextWf_execSrd a sr s hs
  | swr sr b => exact nextWf_execSwr sr b s hs
  | ifence => exact nextWf_execIfence s hs
  | hret b => exact nextWf_execHret b s hs
  | vadd a b c fmt => exact nextWf_execVadd a b c fmt s hs
  | vaddExt a b c sat x => exact nextWf_execVaddExt a b c sat x s hs
  | vsub a b c fmt => exact nextWf_execVsub a b c fmt s hs
  | vsubExt a b c sat x => exact nextWf_execVsubExt a b c sat x s hs
  | vmul a b c fmt => exact nextWf_execVmul a b c fmt s hs
  | vmulExt a b c sat x => exact nextWf_execVmulExt a b c sat x s hs
  | vfma a b c fmt => exact nextWf_execVfma a b c fmt s hs
  | vfmaExt a b c x => exact nextWf_execVfmaExt a b c x s hs
  | vmin a b c fmt => exact nextWf_execVmin a b c fmt s hs
  | vminExt a b c x => exact nextWf_execVminExt a b c x s hs
  | vmax a b c fmt => exact nextWf_execVmax a b c fmt s hs
  | vmaxExt a b c x => exact nextWf_execVmaxExt a b c x s hs
  | vabs a b fmt => exact nextWf_execVabs a b fmt s hs
  | vabsExt a b sat x => exact nextWf_execVabsExt a b sat x s hs
  | vneg a b fmt => exact nextWf_execVneg a b fmt s hs
  | vnegExt a b sat x => exact nextWf_execVnegExt a b sat x s hs
  | vdiv a b c fmt => exact nextWf_execVdiv a b c fmt s hs
  | vdivExt a b c x => exact nextWf_execVdivExt a b c x s hs
  | vsqrt a b fmt => exact nextWf_execVsqrt a b fmt s hs
  | vsqrtExt a b x => exact nextWf_execVsqrtExt a b x s hs
  | vrsqrt a b fmt => exact nextWf_execVrsqrt a b fmt s hs
  | vrsqrtExt a b x => exact nextWf_execVrsqrtExt a b x s hs
  | vexp a b fmt => exact nextWf_execVexp a b fmt s hs
  | vexpExt a b x => exact nextWf_execVexpExt a b x s hs
  | vlog a b fmt => exact nextWf_execVlog a b fmt s hs
  | vlogExt a b x => exact nextWf_execVlogExt a b x s hs
  | vsig a b fmt => exact nextWf_execVsig a b fmt s hs
  | vsigExt a b x => exact nextWf_execVsigExt a b x s hs
  | vtanh a b fmt => exact nextWf_execVtanh a b fmt s hs
  | vtanhExt a b x => exact nextWf_execVtanhExt a b x s hs
  | vaddc a b => exact nextWf_execVaddc a b s hs
  | vaddcExt a b x => exact nextWf_execVaddcExt a b x s hs
  | vand a b c fmt => exact nextWf_execVand a b c fmt s hs
  | vandExt a b c x => exact nextWf_execVandExt a b c x s hs
  | vor a b c fmt => exact nextWf_execVor a b c fmt s hs
  | vorExt a b c x => exact nextWf_execVorExt a b c x s hs
  | vxor a b c fmt => exact nextWf_execVxor a b c fmt s hs
  | vxorExt a b c x => exact nextWf_execVxorExt a b c x s hs
  | vshl a b c fmt => exact nextWf_execVshl a b c fmt s hs
  | vshlExt a b c x => exact nextWf_execVshlExt a b c x s hs
  | vshr a b c fmt => exact nextWf_execVshr a b c fmt s hs
  | vshrExt a b c x => exact nextWf_execVshrExt a b c x s hs
  | vsra a b c fmt => exact nextWf_execVsra a b c fmt s hs
  | vsraExt a b c x => exact nextWf_execVsraExt a b c x s hs
  | vsel a b c fmt => exact nextWf_execVsel a b c fmt s hs
  | vselExt a b c x => exact nextWf_execVselExt a b c x s hs
  | vmov a b fmt => exact nextWf_execVmov a b fmt s hs
  | vmovExt a b x => exact nextWf_execVmovExt a b x s hs
  | vdot a b c fmt => exact nextWf_execVdot a b c fmt s hs
  | vdotExt a b c x => exact nextWf_execVdotExt a b c x s hs
  | vcvt a b part src x => exact nextWf_execVcvt a b part src x s hs
  | vpack a d b kind part x => exact nextWf_execVpack a d b kind part x s hs
  | vunpk a d b kind part x => exact nextWf_execVunpk a d b kind part x s hs
  | vcmp a b c cond x => exact nextWf_execVcmp a b c cond x s hs
  | mskl a b c op => exact nextWf_execMskl a b c op s hs
  | mskp a b op => exact nextWf_execMskp a b op s hs
  | msks a lit => exact nextWf_execMsks a lit s hs
  | msksExt a lit op => exact nextWf_execMsksExt a lit op s hs
  | vred a b op x => exact nextWf_execVred a b op x s hs
  | vscan a b c d op x => exact nextWf_execVscan a b c d op x s hs
  | vbcast a b c fmt => exact nextWf_execVbcast a b c fmt s hs
  | vbcastExt a b c imm x => exact nextWf_execVbcastExt a b c imm x s hs
  | vperm a b c fmt => exact nextWf_execVperm a b c fmt s hs
  | vpermExt a b c x => exact nextWf_execVpermExt a b c x s hs
  | vsort a b fmt => exact nextWf_execVsort a b fmt s hs
  | vsortExt a b desc x => exact nextWf_execVsortExt a b desc x s hs
  | vmerge a b c fmt => exact nextWf_execVmerge a b c fmt s hs
  | vmergeExt a b c d desc x => exact nextWf_execVmergeExt a b c d desc x s hs
  | vidx a b fmt => exact nextWf_execVidx a b fmt s hs
  | vidxExt a b imm x => exact nextWf_execVidxExt a b imm x s hs
  | vsplat a c fmt => exact nextWf_execVsplat a c fmt s hs
  | vsplatWide a w => exact nextWf_execVsplatWide a w s hs
  | vrand a fmt => exact nextWf_execVrand a fmt s hs
  | vrandExt a x => exact nextWf_execVrandExt a x s hs
  | vkeep a b c fmt => exact nextWf_execVkeep a b c fmt s hs
  | vkeepExt a b c x => exact nextWf_execVkeepExt a b c x s hs
  | vphx a b c fmt => exact nextWf_execVphx a b c fmt s hs
  | vphxExt a b c word imm x => exact nextWf_execVphxExt a b c word imm x s hs
  | vrope a b c => exact nextWf_execVrope a b c s hs
  | vropeExt a b c d half x => exact nextWf_execVropeExt a b c d half x s hs
  | vins a b c fmt => exact nextWf_execVins a b c fmt s hs
  | vinsExt a b c imm x => exact nextWf_execVinsExt a b c imm x s hs
  | vext a b c fmt => exact nextWf_execVext a b c fmt s hs
  | vextExt a b c imm x => exact nextWf_execVextExt a b c imm x s hs
  | madd a b c => exact nextWf_execMadd a b c s hs
  | maddExt a b c d x => exact nextWf_execMaddExt a b c d x s hs
  | msub a b c => exact nextWf_execMsub a b c s hs
  | msubExt a b c d x => exact nextWf_execMsubExt a b c d x s hs
  | mmul a b c => exact nextWf_execMmul a b c s hs
  | mmulExt a b c x => exact nextWf_execMmulExt a b c x s hs
  | mscl a b c => exact nextWf_execMscl a b c s hs
  | msclExt a b c x => exact nextWf_execMsclExt a b c x s hs
  | mexp a b => exact nextWf_execMexp a b s hs
  | mexpExt a b x => exact nextWf_execMexpExt a b x s hs
  | mrelu a b => exact nextWf_execMrelu a b s hs
  | mreluExt a b x => exact nextWf_execMreluExt a b x s hs
  | msig a b => exact nextWf_execMsig a b s hs
  | msigExt a b x => exact nextWf_execMsigExt a b x s hs
  | mcoll a b c form half x => exact nextWf_execMcoll a b c form half x s hs
  | mfrom a b c => exact nextWf_execMfrom a b c s hs
  | mfromExt a b c x => exact nextWf_execMfromExt a b c x s hs
  | mmov a b => exact nextWf_execMmov a b s hs
  | mmovExt a b x => exact nextWf_execMmovExt a b x s hs
  | ld a b kind off => exact nextWf_execLd a b kind off s hs
  | ldExt a b kind x => exact nextWf_execLdExt a b kind x s hs
  | st a b kind off => exact nextWf_execSt a b kind off s hs
  | stExt a b kind x => exact nextWf_execStExt a b kind x s hs
  | cld a b off => exact nextWf_execCld a b off s hs
  | cldExt a b x => exact nextWf_execCldExt a b x s hs
  | cst a b off => exact nextWf_execCst a b off s hs
  | cstExt a b x => exact nextWf_execCstExt a b x s hs
  | vld a b off => exact nextWf_execVld a b off s hs
  | vldExt a b m x => exact nextWf_execVldExt a b m x s hs
  | vst a b off => exact nextWf_execVst a b off s hs
  | vstExt a b m x => exact nextWf_execVstExt a b m x s hs
  | vgath a b m x => exact nextWf_execVgath a b m x s hs
  | vscat a b m x => exact nextWf_execVscat a b m x s hs
  | eld a b off => exact nextWf_execEld a b off s hs
  | eldExt a b m x => exact nextWf_execEldExt a b m x s hs
  | est a b off => exact nextWf_execEst a b off s hs
  | estExt a b m x => exact nextWf_execEstExt a b m x s hs
  | amo a b d op narrow x => exact nextWf_execAmo a b d op narrow x s hs
  | cas a b d narrow x => exact nextWf_execCas a b d narrow x s hs
  | ccas a b d x => exact nextWf_execCcas a b d x s hs
  | fence sc => exact nextWf_execFence sc s hs
  | stashMap w b off len => exact nextWf_execStashMap w b off len s hs
  | stashUnmap w => exact nextWf_execStashUnmap w s hs
  | stashUnmapExt => exact nextWf_execStashUnmapExt s hs
  | stashWb w => exact nextWf_execStashWb w s hs
  | stashWbExt => exact nextWf_execStashWbExt s hs
  | stashAp a b c => exact nextWf_execStashAp a b c s hs
  | copy a b c ch land => exact nextWf_execCopy a b c ch land s hs
  | copyWait ch => exact nextWf_execCopyWait ch s hs
  | copyWaitExt d ch b imm => exact nextWf_execCopyWaitExt d ch b imm s hs
  | valloc a d c imm => exact nextWf_execValloc a d c imm s hs
  | vdup a b => exact nextWf_execVdup a b s hs
  | vdupExt a b => exact nextWf_execVdupExt a b s hs
  | vsplit a b c => exact nextWf_execVsplit a b c s hs
  | vsplitExt a b c imm => exact nextWf_execVsplitExt a b c imm s hs
  | vnarrow a b c => exact nextWf_execVnarrow a b c s hs
  | vnarrowExt a b c imm => exact nextWf_execVnarrowExt a b c imm s hs
  | vdrop b => exact nextWf_execVdrop b s hs
  | vdropExt b => exact nextWf_execVdropExt b s hs
  | vpark k b => exact nextWf_execVpark k b s hs
  | vparkExt k b => exact nextWf_execVparkExt k b s hs
  | vtake a k => exact nextWf_execVtake a k s hs
  | vtakeExt a k => exact nextWf_execVtakeExt a k s hs
  | pmLook a b => exact nextWf_execPmLook a b s hs
  | pmFill b c e => exact nextWf_execPmFill b c e s hs
  | kvApp a b c d e n => exact nextWf_execKvApp a b c d e n s hs
  | cairnLook a b c d => exact nextWf_execCairnLook a b c d s hs
  | cairnIns a b c d => exact nextWf_execCairnIns a b c d s hs
  | cairnRel a c d => exact nextWf_execCairnRel a c d s hs
  | admRsv a b c d => exact nextWf_execAdmRsv a b c d s hs
  | admEnd a b => exact nextWf_execAdmEnd a b s hs
  | msgSend a b c d ord => exact nextWf_execMsgSend a b c d ord s hs
  | mig a b => exact nextWf_execMig a b s hs
  | migRet a => exact nextWf_execMigRet a s hs
  | mxLdw n b c => exact nextWf_execMxLdw n b c s hs
  | mxSwap => exact nextWf_execMxSwap s hs
  | mxSwapExt n ch waits => exact nextWf_execMxSwapExt n ch waits s hs
  | mxStr a b c n z mo blk => exact nextWf_execMxStr a b c n z mo blk s hs
  | mxGstr a b n m p z blk => exact nextWf_execMxGstr a b n m p z blk s hs
  | accRd a b c mo => exact nextWf_execAccRd a b c mo s hs
  | accWr a b c mo => exact nextWf_execAccWr a b c mo s hs
  | accClr a => exact nextWf_execAccClr a s hs
  | accClrExt a mask => exact nextWf_execAccClrExt a mask s hs
  | epLoad a b => exact nextWf_execEpLoad a b s hs
  | epRun a b c d n mo rnd => exact nextWf_execEpRun a b c d n mo rnd s hs
  | epWait a => exact nextWf_execEpWait a s hs
  | smpPen a b c d n => exact nextWf_execSmpPen a b c d n s hs
  | smpTemp a c n => exact nextWf_execSmpTemp a c n s hs
  | smpGum a b d n => exact nextWf_execSmpGum a b d n s hs
  | smpTop a d n sc => exact nextWf_execSmpTop a d n sc s hs
  | smpTopp a b c d n sc => exact nextWf_execSmpTopp a b c d n sc s hs
  | smpStep a b c => exact nextWf_execSmpStep a b c s hs
  | smpDraft a b c => exact nextWf_execSmpDraft a b c s hs
  | smpVer a b c => exact nextWf_execSmpVer a b c s hs
  | sumRed a b op fmt sc => exact nextWf_execSumRed a b op fmt sc s hs
  | sumBc a b sc => exact nextWf_execSumBc a b sc s hs
  | tokMap a b k => exact nextWf_execTokMap a b k s hs
  | tokBind a b c => exact nextWf_execTokBind a b c s hs
  | fetchServe unit => exact nextWf_execFetchServe unit s hs
  | operationComplete core slot => exact nextWf_execOperationComplete core slot s hs
  | barrierComplete team scope extent remote => exact nextWf_execBarrierComplete team scope extent remote s hs
  | fwdHoldComplete core slot => exact nextWf_execFwdHoldComplete core slot s hs
  | launchAdmit queue entry place => exact nextWf_execLaunchAdmit queue entry place s hs
  | teamComplete team => exact nextWf_execTeamComplete team s hs
  | grantRound core => exact nextWf_execGrantRound core s hs
  | weightRestore island cls weight => exact nextWf_execWeightRestore island cls weight s hs
  | sliceBoundary leave enter => exact nextWf_execSliceBoundary leave enter s hs
  | contextPreempt core slot => exact nextWf_execContextPreempt core slot s hs
  | spawnArrival core => exact nextWf_execSpawnArrival core s hs
  | trapNoticeRun core => exact nextWf_execTrapNoticeRun core s hs
  | completionNotice core slot => exact nextWf_execCompletionNotice core slot s hs
  | messageRun core => exact nextWf_execMessageRun core s hs
  | copyDelivery core ch => exact nextWf_execCopyDelivery core ch s hs
  | moraineFree domain granule => exact nextWf_execMoraineFree domain granule s hs
  | scrub item => exact nextWf_execScrub item s hs
  | coveredAllocation core slot => exact nextWf_execCoveredAllocation core slot s hs
  | epilogueRow core => exact nextWf_execEpilogueRow core s hs
  | doorbell func queue count => exact nextWf_execDoorbell func queue count s hs
  | intakeEntry queue => exact nextWf_execIntakeEntry queue s hs
  | stampRetry queue => exact nextWf_execStampRetry queue s hs
  | intakeSlotAssign core => exact nextWf_execIntakeSlotAssign core s hs
  | placementExchange first second => exact nextWf_execPlacementExchange first second s hs
  | nop queue entry => exact nextWf_execNop queue entry s hs
  | launch queue entry => exact nextWf_execLaunch queue entry s hs
  | wait queue entry => exact nextWf_execWait queue entry s hs
  | waitSatisfied queue entry => exact nextWf_execWaitSatisfied queue entry s hs
  | signal queue entry => exact nextWf_execSignal queue entry s hs
  | queueFence queue entry => exact nextWf_execQueueFence queue entry s hs
  | bind queue entry => exact nextWf_execBind queue entry s hs
  | swap queue entry => exact nextWf_execSwap queue entry s hs
  | unbind queue entry => exact nextWf_execUnbind queue entry s hs
  | bias queue entry => exact nextWf_execBias queue entry s hs
  | sample queue entry => exact nextWf_execSample queue entry s hs
  | domcfg queue entry => exact nextWf_execDomcfg queue entry s hs
  | qcfgWrite queue value => exact nextWf_execQcfgWrite queue value s hs
  | registerWrite func offset value => exact nextWf_execRegisterWrite func offset value s hs
  | eventWrite func => exact nextWf_execEventWrite func s hs
  | eventReply func reply => exact nextWf_execEventReply func reply s hs
  | intakeWindowWrite func queue entry => exact nextWf_execIntakeWindowWrite func queue entry s hs
  | segmentWindowAccess func offset size data => exact nextWf_execSegmentWindowAccess func offset size data s hs
  | hostMemAccess address size data => exact nextWf_execHostMemAccess address size data s hs
  | shootdownTranslation fromHost page count => exact nextWf_execShootdownTranslation fromHost page count s hs
  | shootdownRights fromHost domain => exact nextWf_execShootdownRights fromHost domain s hs
  | shootdownComplete => exact nextWf_execShootdownComplete s hs
  | pageMove request => exact nextWf_execPageMove request s hs
  | pageIn ticket => exact nextWf_execPageIn ticket s hs
  | keyCreate handle => exact nextWf_execKeyCreate handle s hs
  | keyDestroy handle => exact nextWf_execKeyDestroy handle s hs
  | keyQuery handle => exact nextWf_execKeyQuery handle s hs
  | packageReset verified => exact nextWf_execPackageReset verified s hs
  | firmwareUpdate length versions dies => exact nextWf_execFirmwareUpdate length versions dies s hs
  | firmwareDieUpdate verified => exact nextWf_execFirmwareDieUpdate verified s hs
  | preset value => exact nextWf_execPreset value s hs
  | launchTimeLimit team => exact nextWf_execLaunchTimeLimit team s hs
  | functionLevelReset func => exact nextWf_execFunctionLevelReset func s hs
  | meridianInterval power temperature => exact nextWf_execMeridianInterval power temperature s hs
  | hbmPatrol corrected uncorrected => exact nextWf_execHbmPatrol corrected uncorrected s hs
  | linkCrcError retrain => exact nextWf_execLinkCrcError retrain s hs
  | getVersion => exact nextWf_execGetVersion s hs
  | getCapabilities => exact nextWf_execGetCapabilities s hs
  | negotiateAlgorithms offered => exact nextWf_execNegotiateAlgorithms offered s hs
  | getDigests => exact nextWf_execGetDigests s hs
  | getCertificate slot offset length => exact nextWf_execGetCertificate slot offset length s hs
  | challenge slot nonce => exact nextWf_execChallenge slot nonce s hs
  | getMeasurements request => exact nextWf_execGetMeasurements request s hs
  | keyExchange share => exact nextWf_execKeyExchange share s hs
  | finish verify => exact nextWf_execFinish verify s hs
  | heartbeat session => exact nextWf_execHeartbeat session s hs
  | keyUpdate session => exact nextWf_execKeyUpdate session s hs
  | endSession session => exact nextWf_execEndSession session s hs
  | setCertificate session slot chain => exact nextWf_execSetCertificate session slot chain s hs
  | setkey session identifier key => exact nextWf_execSetkey session identifier key s hs
  | genkey session identifier => exact nextWf_execGenkey session identifier s hs
  | dropkey session identifier => exact nextWf_execDropkey session identifier s hs
  | hostVisibility index => exact nextWf_execHostVisibility index s hs

theorem nextWf_issueFrom (c slot : Nat) (s : State) (hs : s.memory.wf = true) : NextWf (issueFrom c slot s) := by
  obtain ⟨hfetched, hfailed⟩ := wf_fetchInstr _ (wf_issueSlot s c slot hs)
  unfold issueFrom
  split
  next h => exact (nextWf_next _).2 (wf_takeOwed h hs)
  · split
    next h => exact nextWf_exec _ _ (hfetched _ h)
    next h => exact hfailed _ h

theorem nextWf_issue (c : Nat) (s : State) (hs : s.memory.wf = true) : NextWf (issue c s) := by
  unfold issue
  dsimp only
  split
  · exact (nextWf_next _).2 (wf_pendingRound _ _ hs)
  · exact nextWf_issueFrom _ _ _ (wf_pendingRound _ _ hs)

theorem nextWf_step (s : State) (hs : s.memory.wf = true) : NextWf (step s) := by
  unfold step
  refine nextWf_afterStep s ?_
  split
  · exact nextWf_issue _ _ hs
  · split
    · exact nextWf_exec _ _ hs
    · exact (nextWf_next _).2 hs

/-! ### The Bool test of the canonical form -/

/-- Cells whose addresses rise from above `low`, none of which reads what an unlisted address does. -/
theorem cellsAbove_iff (d : Byte) (low : Option Nat) (cells : List Host.Cell) :
    cellsAbove d low cells = true ↔
      (∀ p ∈ cells, ∀ l ∈ low, l < p.1) ∧ cells.Pairwise (fun p q => p.1 < q.1) ∧ ∀ p ∈ cells, p.2 ≠ d := by
  induction cells generalizing low with
  | nil => simp [cellsAbove]
  | cons p rest ih =>
    obtain ⟨x, b⟩ := p
    cases low with
    | none => simp [cellsAbove, ih]; grind
    | some l => simp [cellsAbove, ih]; grind

end Sys2Proof.Machine

namespace Sys2Proof.Claims
open Sys2Proof.Machine

theorem wf_iff_canonical (m : Memory) : m.wf = true ↔ Canonical m := by
  unfold Memory.wf cellsWf Canonical
  rw [cellsAbove_iff]
  simp

end Sys2Proof.Claims

/-- Settles O30: memory that is in canonical form before a step is so after it, by the lemma of each meaning. -/
theorem memoryStaysCanonical : Obligations.MemoryStaysCanonical := fun s t hs h =>
  (Sys2Proof.Claims.wf_iff_canonical _).1 (Sys2Proof.Machine.nextWf_step s ((Sys2Proof.Claims.wf_iff_canonical _).2 hs) t h)
end

section
namespace Sys2Proof.Machine
open Sys2Proof.Claims

/-! ### Package reset -/

theorem optabRow_reset (n : Nat) (row : Nat × Nat × Nat × Nat × Nat) (h : optabReset[n]? = some row) :
    optabRow State.reset n = optabWord row := by
  have : optabRow State.reset n = optabWord (optabReset.getD n (700, 16, 16, 16, 16)) := rfl
  rw [this, List.getD_eq_getElem?_getD, h, Option.getD_some]

theorem coreOf_reset (c : Nat) : coreOf State.reset c = Core.atReset c := rfl

theorem atReset_basecamp (c : Nat) (h : 1152 ≤ c) :
    Core.atReset c = { slots := [(11, Context.systemAtReset c)], vb := 68, sb := 84, cb := 120 } :=
  if_neg (by omega)

theorem slots_atReset (c : Nat) : (Core.atReset c).slots = [(11, Context.systemAtReset c)] := by
  unfold Core.atReset
  split <;> rfl

theorem ctxOf_reset_system (c : Nat) : ctxOf State.reset ⟨c, 11⟩ = Context.systemAtReset c := by
  unfold ctxOf
  rw [coreOf_reset, slots_atReset]
  rfl

theorem resetState : Claims.ResetState := by
  refine ⟨rfl, rfl, rfl, rfl, rfl, rfl, rfl, optabRow_reset, fun _ => ⟨rfl, rfl, rfl, rfl, rfl⟩, fun _ => rfl,
    fun _ => ⟨rfl, rfl, rfl, rfl, rfl, rfl, rfl⟩, fun _ => ⟨rfl, rfl, rfl⟩, fun c h => ?_, fun c => ?_⟩
  · rw [coreOf_reset, atReset_basecamp c h]
    exact ⟨rfl, rfl, rfl⟩
  · rw [ctxOf_reset_system]
    exact ⟨rfl, rfl, rfl⟩

/-! ### Registers after a write -/

theorem reg_zero (s : State) : reg s 0 = Cap.null := rfl

theorem reg_writeCap_same (n : Reg) (v : Cap) (s : State) (h : n ≠ 0) : reg (writeCap n v s) n = v := by
  unfold reg
  rw [me_writeCap]
  exact regOf_putReg_same _ _ _ fun e => h (Fin.ext e)

theorem reg_writeCap_other (n m : Reg) (v : Cap) (s : State) (h : m ≠ n) : reg (writeCap n v s) m = reg s m := by
  unfold reg
  rw [me_writeCap]
  exact regOf_putReg_other _ _ _ _ fun e => h (Fin.ext e)

theorem reg_writeInt_same (n : Reg) (w x : Nat) (s : State) (h : n ≠ 0) :
    reg (writeInt n w x s) n = Cap.plain (BitVec.ofNat 128 (x % 2 ^ w)) := by
  rw [writeInt_nonzero n w x s h, reg_writeCap_same n _ s h]

theorem reg_writeInt_other (n m : Reg) (w x : Nat) (s : State) (h : m ≠ n) : reg (writeInt n w x s) m = reg s m := by
  by_cases hn : n = 0
  · subst hn; rw [writeInt_zero]
  · rw [writeInt_nonzero n w x s hn, reg_writeCap_other n m _ s h]

@[simp] theorem reg_writeCap_zero (m : Reg) (v : Cap) (s : State) : reg (writeCap 0 v s) m = reg s m := by
  unfold reg
  rw [writeCap_zero, me_dropView]

/-- Settles O25: a register reads the value written to it, and no other register changes. -/
theorem registerWrites : Obligations.RegisterWrites := fun n m v w x s =>
  ⟨fun h => ⟨reg_writeCap_same n v s h, reg_writeInt_same n w x s h⟩,
    fun h => ⟨reg_writeCap_other n m v s h, reg_writeInt_other n m w x s h⟩,
    reg_zero s, reg_writeCap_zero m v s, writeInt_zero w x s⟩

/-! ### One step -/

theorem afterStep_eq_passed (s : State) (o : Host.Outcome State Fault Refusal) : afterStep s o = passed s o := by
  cases o <;> rfl

theorem step_issue {s : State} {c : Nat} (h : s.turn = .issue c) : step s = passed s (issue c s) := by
  unfold step
  rw [afterStep_eq_passed, h]

theorem step_event {s : State} {e : Instr} (h : s.turn = .event e) (he : e.isEvent = true) :
    step s = passed s (exec e s) := by
  unfold step
  rw [afterStep_eq_passed, h]
  dsimp only
  rw [if_pos he]

theorem issue_idle {s : State} {c : Nat} (h : select (coreOf (pendingRound c s) c) = none) :
    issue c s = .next (pendingRound c s) := by
  unfold issue
  dsimp only
  rw [h]

theorem issue_slot {s : State} {c slot : Nat} (h : select (coreOf (pendingRound c s) c) = some slot) :
    issue c s = issueFrom c slot (pendingRound c s) := by
  unfold issue
  dsimp only
  rw [h]

theorem issueFrom_owed {s t : State} {c slot : Nat} (h : takeOwed s ⟨c, slot⟩ = some t) :
    issueFrom c slot s = .next t := by
  unfold issueFrom
  rw [h]

theorem fetchInstr_runs {s t : State} {bs rest : List Byte} {i : Instr} (h : fetchBytes s = .ok (bs, t))
    (hd : decode bs = .ok (i, rest)) : fetchInstr s = .inl (i, t) := by
  unfold fetchInstr
  simp only [h, hd]

theorem fetchInstr_illegal {s t : State} {bs : List Byte} {e : Illegal} (h : fetchBytes s = .ok (bs, t))
    (hd : decode bs = .error e) :
    fetchInstr s = .inr (.next (deliverTrap ⟨causeIllegal, natOfBytes (bs.take 4), 0⟩ t)) := by
  unfold fetchInstr
  simp only [h, hd]
  rfl

theorem fetchInstr_hold {s : State} {w : Wait} (h : fetchBytes s = .error (.hold w)) :
    fetchInstr s = .inr (.next (onMe s fun x => { x with wait := w, holding := keepsPlace s })) := by
  unfold fetchInstr
  rw [h]

theorem fetchInstr_stop {s : State} {e : Stop} (h : fetchBytes s = .error e) (he : ∀ w, e ≠ .hold w) :
    fetchInstr s = .inr (finish (stop e) s) := by
  unfold fetchInstr
  rw [h]
  cases e with
  | hold w => exact absurd rfl (he w)
  | _ => rfl

theorem issueFrom_fetched {s t : State} {c slot : Nat} {i : Instr} (h : takeOwed s ⟨c, slot⟩ = none)
    (hf : fetchInstr (issueSlot s c slot) = .inl (i, t)) : issueFrom c slot s = exec i t := by
  unfold issueFrom
  simp only [h, hf]

theorem issueFrom_failed {s : State} {c slot : Nat} {o : Host.Outcome State Fault Refusal}
    (h : takeOwed s ⟨c, slot⟩ = none) (hf : fetchInstr (issueSlot s c slot) = .inr o) : issueFrom c slot s = o := by
  unfold issueFrom
  simp only [h, hf]

/-! ### What a grant round leaves of the turn -/

@[simp] theorem turn_onCore (s : State) (c : Nat) (f : Core → Core) : (onCore s c f).turn = s.turn := rfl

theorem turn_grantPitch (t : Team) (s : State) (id : CtxId) (p : Nat) (r : PitchRec) :
    (grantPitch t s id p r).turn = s.turn := rfl

theorem turn_grantSlots (t : Team) (w : List Nat) (core : Nat) (free : List Nat) (s : State) :
    (grantSlots t w core free s).turn = s.turn := by
  induction free generalizing s with
  | nil => rfl
  | cons slot rest ih =>
    unfold grantSlots
    split
    · rfl
    · rw [ih, turn_grantPitch]

theorem turn_claimGranules (s : State) (dom first n : Nat) (own : Bool) :
    (claimGranules s dom first n own).turn = s.turn :=
  foldl_keeps (fun t : State => t.turn = s.turn) _ _ _ rfl fun _ _ h => h

theorem turn_dropClaim (s : State) (x : Context) : (dropClaim s x).turn = s.turn := by
  unfold dropClaim
  split
  · split
    · exact turn_claimGranules _ _ _ _ _
    · rfl
  · rfl

theorem turn_giveBack (s : State) (id : CtxId) : (giveBack s id).turn = s.turn := by
  unfold giveBack
  dsimp only
  split
  · rfl
  · rw [turn_dropClaim, turn_onCore]

theorem turn_userTrap (t : Trap) (s : State) (id : CtxId) : (userTrap t s id).turn = s.turn := rfl

theorem turn_routeFault (s : State) (core p q : Nat) : (routeFault s core p q).turn = s.turn := by
  unfold routeFault
  dsimp only
  split
  · rfl
  next n x h =>
    have hn : n ≠ 11 := fun e => by
      have := List.mem_filter.1 (List.mem_of_mem_head? (by rw [h]; rfl))
      simp [e] at this
    split
    · unfold deliverTrapTo
      rw [if_neg hn, turn_userTrap, turn_giveBack, turn_onCore]
    · rfl

theorem turn_grantRound (core : Nat) (s : State) : (grantRound core s).turn = s.turn := by
  unfold grantRound
  dsimp only
  split
  · rfl
  · split
    · split
      · exact turn_routeFault _ _ _ _
      · exact turn_grantSlots _ _ _ _ _
    · rfl

@[simp] theorem turn_pendingRound (core : Nat) (s : State) : (pendingRound core s).turn = s.turn := by
  unfold pendingRound
  split
  · rw [turn_grantRound, turn_onCore]
  · rfl

/-! ### The slot that issues -/

theorem coreOf_issueSlot (s : State) (c slot : Nat) : coreOf (issueSlot s c slot) c =
    { coreOf s c with last := slot, slots := (coreOf (issueSlot s c slot) c).slots } := by
  unfold issueSlot
  dsimp only
  rw [coreOf_onCtx, coreOf_onCore_same]

theorem who_issueSlot {s : State} {c slot : Nat} (h : s.turn = .issue c) : who (issueSlot s c slot) = ⟨c, slot⟩ := by
  have ht : (issueSlot s c slot).turn = .issue c := h
  have hl : (coreOf (issueSlot s c slot) c).last = slot := by rw [coreOf_issueSlot]
  unfold who
  rw [ht]
  simp only [hl]

theorem keepsPlace_issueSlot {s : State} {c slot : Nat} (h : s.turn = .issue c) :
    keepsPlace (issueSlot s c slot) = (standing (coreOf s c) slot).any (·.keeps) := by
  unfold keepsPlace myCore
  rw [who_issueSlot h, coreOf_issueSlot]
  rfl

/-- Settles O29: a step runs what the bytes at the program counter of the selected slot decode to, case by case. -/
theorem stepRunsDecoded : Obligations.StepRunsDecoded := by
  intro s
  refine ⟨fun c slot hc => ?_, fun c hc hn => ?_, fun e he => step_event he⟩
  · intro r f hsel
    have hr : r.turn = .issue c := (turn_pendingRound c s).trans hc
    rw [step_issue hc, issue_slot hsel]
    refine ⟨fun t ht => ?_, fun ho => ⟨fun bs t i rest hf hd => ?_, fun bs t e hf hd => ?_, fun w hf => ?_, fun e hf he => ?_⟩⟩
    · rw [issueFrom_owed ht]
    · rw [issueFrom_fetched ho (fetchInstr_runs hf hd)]
    · rw [issueFrom_failed ho (fetchInstr_illegal hf hd)]
    · rw [issueFrom_failed ho (fetchInstr_hold hf), keepsPlace_issueSlot hr]
    · rw [issueFrom_failed ho (fetchInstr_stop hf he)]
  · rw [step_issue hc, issue_idle hn]

/-! ### The issue selector -/

theorem find?_map_upFrom {α : Type} (f : Nat → α) (p : α → Bool) (a n : Nat) (x : α) :
    ((upFrom a n).map f).find? p = some x ↔
      ∃ d, a ≤ d ∧ d < a + n ∧ f d = x ∧ p x = true ∧ ∀ d', a ≤ d' → d' < d → p (f d') = false := by
  induction n generalizing a with
  | zero => simp [upFrom]; omega
  | succ n ih =>
    rw [upFrom, List.map_cons, List.find?_cons]
    cases hp : p (f a) with
    | true =>
      refine ⟨fun h => ⟨a, le_refl a, by omega, Option.some.inj h, ?_, by omega⟩, fun ⟨d, h1, h2, h3, h4, h5⟩ => ?_⟩
      · rw [← Option.some.inj h, hp]
      · have : d = a := by
          by_contra hd
          simpa [hp] using h5 a (le_refl a) (by omega)
        rw [← h3, this]
    | false =>
      rw [ih]
      refine ⟨fun ⟨d, h1, h2, h3, h4, h5⟩ => ⟨d, by omega, by omega, h3, h4, fun d' h h' => ?_⟩,
        fun ⟨d, h1, h2, h3, h4, h5⟩ => ⟨d, ?_, by omega, h3, h4, fun d' h h' => h5 d' (by omega) h'⟩⟩
      · rcases Nat.eq_or_lt_of_le h with e | h
        · rw [← e, hp]
        · exact h5 d' h h'
      · rcases Nat.eq_or_lt_of_le h1 with e | h
        · rw [← h3, ← e, hp] at h4; cases h4
        · exact h

theorem eligible_iff (k : Core) (n : Nat) : eligible k n = true ↔ MayIssue k n := by
  unfold eligible MayIssue ready systemBusy
  cases h : look k.slots n with
  | none => simp
  | some x => simp; tauto

theorem select_iff (k : Core) (n : Nat) (hk : k.started = true) : select k = some n ↔
    ∃ d, 1 ≤ d ∧ d ≤ 12 ∧ (k.last + d) % 12 = n ∧ MayIssue k n ∧
      ∀ d', 1 ≤ d' → d' < d → ¬ MayIssue k ((k.last + d') % 12) := by
  unfold select rotation
  rw [if_pos hk, find?_map_upFrom]
  simp only [← eligible_iff, Bool.not_eq_true, Nat.lt_succ_iff, Nat.add_comm 1 12]

theorem barrelSelection : Claims.BarrelSelection := by
  refine ⟨select_iff, fun s c slot => ⟨?_, ?_⟩⟩
  · unfold issueSlot
    rw [ctxOf_onCtx_same]
  · rw [coreOf_issueSlot]

end Sys2Proof.Machine
end

section
namespace Sys2Proof.Machine
open Sys2Proof.Claims

/-! ### The fields of a capability made of them -/

theorem toNat_makeCap (tag : Bool) (p e l d a : Nat) : (makeCap tag p e l d a).bits.toNat =
    p % 1024 * 2 ^ 118 + e % 64 * 2 ^ 112 + l % 65536 * 2 ^ 96 + d % 65536 * 2 ^ 80 + a % 2 ^ 80 := by
  unfold makeCap
  rw [BitVec.toNat_ofNat]
  apply Nat.mod_eq_of_lt
  have := Nat.mod_lt p (by decide : 1024 > 0)
  have := Nat.mod_lt e (by decide : 64 > 0)
  have := Nat.mod_lt l (by decide : 65536 > 0)
  have := Nat.mod_lt d (by decide : 65536 > 0)
  have := Nat.mod_lt a (by decide : 2 ^ 80 > 0)
  omega

@[simp] theorem tag_makeCap (tag : Bool) (p e l d a : Nat) : (makeCap tag p e l d a).tag = tag := rfl

@[simp] theorem capAddr_makeCap (tag : Bool) (p e l d a : Nat) : capAddr (makeCap tag p e l d a) = a % 2 ^ 80 := by
  unfold capAddr field
  rw [toNat_makeCap]
  omega

@[simp] theorem capDist_makeCap (tag : Bool) (p e l d a : Nat) : capDist (makeCap tag p e l d a) = d % 65536 := by
  unfold capDist field
  rw [toNat_makeCap]
  omega

@[simp] theorem capLen_makeCap (tag : Bool) (p e l d a : Nat) : capLen (makeCap tag p e l d a) = l % 65536 := by
  unfold capLen field
  rw [toNat_makeCap]
  omega

@[simp] theorem capExp_makeCap (tag : Bool) (p e l d a : Nat) : capExp (makeCap tag p e l d a) = e % 64 := by
  unfold capExp field
  rw [toNat_makeCap]
  omega

@[simp] theorem capPerms_makeCap (tag : Bool) (p e l d a : Nat) : capPerms (makeCap tag p e l d a) = p % 1024 := by
  unfold capPerms field
  rw [toNat_makeCap]
  omega
/-! ### The bounds that a capability decodes to -/

/-- The base that the fields give, below address 0 too. -/
def fieldBase (c : Cap) : Int := ((capAddr c / 2 ^ capExp c : Nat) - (capDist c : Nat) : Int) * (2 ^ capExp c : Nat)

/-- The top that the fields give. -/
def fieldTop (c : Cap) : Int := fieldBase c + ((capLen c * 2 ^ capExp c : Nat) : Int)

theorem fieldBase_of_le {c : Cap} (h : capDist c ≤ capAddr c / 2 ^ capExp c) :
    fieldBase c = (((capAddr c / 2 ^ capExp c - capDist c) * 2 ^ capExp c : Nat) : Int) := by
  unfold fieldBase
  rw [Nat.cast_mul, Nat.cast_sub h]

theorem fieldBase_nonneg_iff (c : Cap) : 0 ≤ fieldBase c ↔ capDist c ≤ capAddr c / 2 ^ capExp c := by
  have hu : (0 : Int) < (2 ^ capExp c : Nat) := by exact_mod_cast Nat.two_pow_pos (capExp c)
  unfold fieldBase
  rw [mul_nonneg_iff_of_pos_right hu]
  omega

theorem capBounds_none_of {c : Cap} (h : fieldBase c < 0 ∨ (2 ^ 80 : Nat) < fieldTop c) : capBounds c = none := by
  unfold capBounds
  dsimp only
  split
  · rfl
  next hd =>
    have hb := fieldBase_of_le (Nat.le_of_not_lt hd)
    have := (fieldBase_nonneg_iff c).2 (Nat.le_of_not_lt hd)
    rw [if_pos]
    unfold fieldTop at h
    omega

theorem capBounds_some_of {c : Cap} (h : 0 ≤ fieldBase c) (h' : fieldTop c ≤ (2 ^ 80 : Nat)) :
    capBounds c = some ((fieldBase c).toNat, (fieldTop c).toNat) := by
  have hd := (fieldBase_nonneg_iff c).1 h
  have hb := fieldBase_of_le hd
  have ht : fieldTop c = (((capAddr c / 2 ^ capExp c - capDist c) * 2 ^ capExp c + capLen c * 2 ^ capExp c : Nat) : Int) := by
    unfold fieldTop
    omega
  unfold capBounds
  dsimp only
  rw [if_neg (by omega), if_neg (by omega), hb, ht, Int.toNat_natCast, Int.toNat_natCast]

theorem inWindow_of_none {c : Cap} (h : capBounds c = none) (a : Nat) : inWindow c a = false := by
  unfold inWindow
  rw [h]

theorem inWindow_iff {c : Cap} {base top : Nat} (h : capBounds c = some (base, top)) (a : Nat) :
    inWindow c a = true ↔ base ≤ a ∧ a < base + 2 ^ (capExp c + 16) := by
  unfold inWindow
  rw [h]
  simp

theorem boundsDecode : Claims.BoundsDecode := by
  intro c n unit base top
  have ha : capAddr c = n % 2 ^ 80 := by simp [capAddr, field, n]
  have hb : base = fieldBase c := by unfold fieldBase; rw [ha]; rfl
  have ht : top = fieldTop c := by unfold fieldTop; rw [← hb]; rfl
  rw [hb, ht]
  refine ⟨fun h => ⟨capBounds_none_of h, inWindow_of_none (capBounds_none_of h)⟩,
    fun h h' => ⟨capBounds_some_of h h', fun a => ?_⟩⟩
  rw [inWindow_iff (capBounds_some_of h h')]
  have hw : 2 ^ 16 * unit = 2 ^ (capExp c + 16) := by rw [pow_add, mul_comm]; rfl
  rw [hw]
  omega

/-! ### The smallest exponent that fits (R226) -/

theorem fitFrom_none_iff (a n fuel e : Nat) :
    fitFrom a n fuel e = none ↔ ∀ i, e ≤ i → i < e + fuel → ¬ Qualifies a n i := by
  induction fuel generalizing e with
  | zero => simp [fitFrom]; omega
  | succ fuel ih =>
    unfold fitFrom
    dsimp only
    split
    next h => simpa using ⟨e, le_refl e, by omega, h⟩
    next h =>
      rw [ih]
      refine ⟨fun H i hi hi' => ?_, fun H i hi hi' => H i (by omega) (by omega)⟩
      rcases Nat.eq_or_lt_of_le hi with rfl | hlt
      · exact h
      · exact H i hlt (by omega)

theorem fitFrom_some_iff (a n fuel e i lo hi : Nat) :
    fitFrom a n fuel e = some (i, lo, hi) ↔ e ≤ i ∧ i < e + fuel ∧ Qualifies a n i ∧
      (∀ i', e ≤ i' → i' < i → ¬ Qualifies a n i') ∧ lo = a / 2 ^ i * 2 ^ i ∧ hi = ceilDiv (a + n) (2 ^ i) * 2 ^ i := by
  induction fuel generalizing e with
  | zero => simp [fitFrom]; omega
  | succ fuel ih =>
    unfold fitFrom
    dsimp only
    split
    next h =>
      simp only [Option.some.injEq, Prod.mk.injEq]
      constructor
      · rintro ⟨rfl, rfl, rfl⟩
        exact ⟨le_refl e, by omega, h, fun i' h1 h2 => by omega, rfl, rfl⟩
      · rintro ⟨h1, h2, h3, h4, rfl, rfl⟩
        have : e = i := by
          by_contra hne
          exact h4 e (le_refl e) (by omega) h
        exact ⟨this, by rw [this], by rw [this]⟩
    next h =>
      rw [ih]
      constructor
      · rintro ⟨h1, h2, h3, h4, h5⟩
        refine ⟨by omega, by omega, h3, fun i' h6 h7 => ?_, h5⟩
        rcases Nat.eq_or_lt_of_le h6 with rfl | hlt
        · exact h
        · exact h4 i' hlt h7
      · rintro ⟨h1, h2, h3, h4, h5⟩
        have : e ≠ i := fun he => h (he ▸ h3)
        exact ⟨by omega, by omega, h3, fun i' h6 h7 => h4 i' (by omega) h7, h5⟩

theorem fitIsSmallest : Claims.FitIsSmallest := by
  refine ⟨fun a n e lo hi => ?_, fun a n => ?_⟩
  · unfold fit
    rw [fitFrom_some_iff]
    constructor
    · rintro ⟨-, h2, h3, h4, h5⟩
      exact ⟨by omega, h3, fun e' h => h4 e' (Nat.zero_le e') h, h5⟩
    · rintro ⟨h2, h3, h4, h5⟩
      exact ⟨Nat.zero_le e, by omega, h3, fun e' _ h => h4 e' h, h5⟩
  · unfold fit
    rw [fitFrom_none_iff]
    exact ⟨fun h e he => h e (Nat.zero_le e) (by omega), fun h e _ he => h e (by omega)⟩

/-! ### The check of a dereference (R58) -/

theorem capCheck_untagged {c : Cap} {addr : Int} {size perms : Nat} (h : c.tag = false) :
    capCheck c addr size perms = some .tag := by simp [capCheck, h]

theorem capCheck_sealed {c : Cap} {addr : Int} {size perms : Nat} (h : c.tag = true) (hs : hasPerm c permSL = true) :
    capCheck c addr size perms = some .seal := by simp [capCheck, isSealed, h, hs]

theorem capCheck_lacking {c : Cap} {addr : Int} {size perms : Nat} (h : c.tag = true) (hs : hasPerm c permSL = false)
    (hp : hasPerm c perms = false) : capCheck c addr size perms = some .perm := by simp [capCheck, isSealed, h, hs, hp]

/-- The access lies within the bounds of the capability and below 2^80. -/
def Within (c : Cap) (addr : Int) (size : Nat) : Prop :=
  ∃ base top, capBounds c = some (base, top) ∧ (base : Int) ≤ addr ∧ addr + size ≤ top ∧ addr + size ≤ (2 ^ 80 : Nat)

theorem capCheck_within {c : Cap} {addr : Int} {size perms : Nat} (h : c.tag = true) (hs : hasPerm c permSL = false)
    (hp : hasPerm c perms = true) (hw : Within c addr size) : capCheck c addr size perms = none := by
  obtain ⟨base, top, hb, h1, h2, h3⟩ := hw
  simp only [capCheck, isSealed, h, hs, hp, hb, Bool.not_true, Bool.false_eq_true, if_false]
  rw [if_neg (by omega)]

theorem capCheck_outside {c : Cap} {addr : Int} {size perms : Nat} (h : c.tag = true) (hs : hasPerm c permSL = false)
    (hp : hasPerm c perms = true) (hw : ¬ Within c addr size) : capCheck c addr size perms = some .bounds := by
  simp only [capCheck, isSealed, h, hs, hp, Bool.not_true, Bool.false_eq_true, if_false]
  split
  · rfl
  next base top hb =>
    rw [if_pos]
    by_contra hin
    exact hw ⟨base, top, hb, by omega, by omega, by omega⟩

/-- Settles O2: each outcome of the check under the conditions that lead to it, taken in their order. -/
theorem capCheckOrder : Obligations.CapCheckOrder := by
  intro c addr size perms
  change _ ∧ _ ∧ _ ∧ (_ ↔ c.tag = true ∧ hasPerm c permSL = false ∧ hasPerm c perms = true ∧ Within c addr size) ∧ _
  cases h : c.tag with
  | false => simp [capCheck_untagged h]
  | true =>
    cases hs : hasPerm c permSL with
    | true => simp [capCheck_sealed h hs]
    | false =>
      cases hp : hasPerm c perms with
      | false => simp [capCheck_lacking h hs hp]
      | true =>
        by_cases hw : Within c addr size
        · simp [capCheck_within h hs hp hw, hw]
        · simp [capCheck_outside h hs hp hw, hw]

/-! ### The change of a cursor (R59) -/

theorem capExp_lt (c : Cap) : capExp c < 64 := Nat.mod_lt _ (by decide)
theorem capLen_lt (c : Cap) : capLen c < 65536 := Nat.mod_lt _ (by decide)
theorem capPerms_lt' (c : Cap) : capPerms c < 1024 := Nat.mod_lt _ (by decide)

/-- Bounds are whole units, and give back the fields. -/
theorem capBounds_units {c : Cap} {base top : Nat} (h : capBounds c = some (base, top)) :
    base / 2 ^ capExp c * 2 ^ capExp c = base ∧ top = base + capLen c * 2 ^ capExp c ∧ top ≤ 2 ^ 80 := by
  unfold capBounds at h
  dsimp only at h
  split at h
  · cases h
  · split at h
    · cases h
    next ht =>
      obtain ⟨rfl, rfl⟩ := Prod.mk.inj (Option.some.inj h)
      exact ⟨by rw [Nat.mul_div_cancel _ (Nat.two_pow_pos _)], rfl, by omega⟩

theorem withCursor_inside {c : Cap} {a : Nat} (ha : a < 2 ^ 80) {base top : Nat} (hb : capBounds c = some (base, top))
    (h : inWindow c a = true) : withCursor c a =
      makeCap c.tag (capPerms c) (capExp c) (capLen c) (a / 2 ^ capExp c - base / 2 ^ capExp c) a := by
  unfold withCursor
  simp only [Nat.mod_eq_of_lt ha, hb]
  rw [if_pos ((inWindow_iff hb a).1 h)]

theorem withCursor_outside {c : Cap} {a : Nat} (ha : a < 2 ^ 80) (h : inWindow c a = false) :
    withCursor c a = makeCap false (capPerms c) (capExp c) (capLen c) (capDist c) a := by
  unfold withCursor
  simp only [Nat.mod_eq_of_lt ha]
  split
  · rfl
  next base top hb =>
    rw [if_neg]
    intro hw
    rw [(inWindow_iff hb a).2 hw] at h
    cases h

/-- Bounds of a capability whose distance is that of its cursor from a base. -/
theorem capBounds_makeCap {tag : Bool} {p e l a base : Nat} (he : e < 64) (hl : l < 65536) (ha : a < 2 ^ 80)
    (hu : base / 2 ^ e * 2 ^ e = base) (hle : base ≤ a) (hw : a < base + 2 ^ (e + 16)) (ht : base + l * 2 ^ e ≤ 2 ^ 80) :
    capBounds (makeCap tag p e l (a / 2 ^ e - base / 2 ^ e) a) = some (base, base + l * 2 ^ e) := by
  have hpos := Nat.two_pow_pos e
  have hdiv : base / 2 ^ e ≤ a / 2 ^ e := Nat.div_le_div_right hle
  have hd : a / 2 ^ e - base / 2 ^ e < 65536 := by
    have h1 : a < (base / 2 ^ e + 65536) * 2 ^ e := by
      rw [Nat.add_mul, hu]
      rwa [pow_add, mul_comm] at hw
    have := (Nat.div_lt_iff_lt_mul hpos).2 h1
    omega
  unfold capBounds
  simp only [capExp_makeCap, capAddr_makeCap, capDist_makeCap, capLen_makeCap, Nat.mod_eq_of_lt he, Nat.mod_eq_of_lt hl,
    Nat.mod_eq_of_lt ha, Nat.mod_eq_of_lt hd]
  have hback : a / 2 ^ e - (a / 2 ^ e - base / 2 ^ e) = base / 2 ^ e := Nat.sub_sub_self hdiv
  rw [if_neg (Nat.not_lt.2 (Nat.sub_le _ _)), hback, hu, if_neg (by omega)]

/-- The bounds of a capability whose cursor has moved within its window stand. -/
theorem capBounds_withCursor {c : Cap} {a : Nat} (ha : a < 2 ^ 80) (hw : inWindow c a = true) :
    capBounds (withCursor c a) = capBounds c ∧ (withCursor c a).tag = c.tag := by
  obtain ⟨⟨base, top⟩, hb⟩ : ∃ p, capBounds c = some p := by
    cases hb : capBounds c with
    | none => rw [inWindow_of_none hb] at hw; cases hw
    | some p => exact ⟨p, rfl⟩
  obtain ⟨hu, rfl, htop⟩ := capBounds_units hb
  obtain ⟨h1, h2⟩ := (inWindow_iff hb a).1 hw
  have hw' := withCursor_inside ha hb hw
  refine ⟨?_, by rw [hw', tag_makeCap]⟩
  rw [hw', hb]
  exact capBounds_makeCap (capExp_lt c) (capLen_lt c) ha hu h1 h2 htop

/-- A change of cursor makes a capability of the fields it keeps, whatever becomes of the tag and the distance. -/
theorem withCursor_eq_makeCap {c : Cap} {a : Nat} (ha : a < 2 ^ 80) :
    ∃ tag d, withCursor c a = makeCap tag (capPerms c) (capExp c) (capLen c) d a := by
  cases hw : inWindow c a with
  | false => exact ⟨_, _, withCursor_outside ha hw⟩
  | true =>
    cases hb : capBounds c with
    | none => rw [inWindow_of_none hb] at hw; cases hw
    | some p => exact ⟨_, _, withCursor_inside ha hb hw⟩

theorem cursorChange : Claims.CursorChange := by
  intro c a ha
  obtain ⟨tag, d, h⟩ := withCursor_eq_makeCap (c := c) ha
  refine ⟨?_, ?_, ?_, ?_, capBounds_withCursor ha, fun hw => ?_⟩
  · rw [h, capAddr_makeCap, Nat.mod_eq_of_lt ha]
  · rw [h, capPerms_makeCap, Nat.mod_eq_of_lt (capPerms_lt' c)]
  · rw [h, capExp_makeCap, Nat.mod_eq_of_lt (capExp_lt c)]
  · rw [h, capLen_makeCap, Nat.mod_eq_of_lt (capLen_lt c)]
  · rw [withCursor_outside ha hw, tag_makeCap]

/-- Settles O32: the bounds that the fields give, the smallest exponent that fits, and the change of a cursor. -/
theorem boundsAndCursors : Obligations.BoundsAndCursors := ⟨boundsDecode, fitIsSmallest, cursorChange⟩

end Sys2Proof.Machine
end

section
namespace Sys2Proof.Machine
open Sys2Proof.Claims

/-! ### Derivations of capabilities -/

theorem opReg_eq (s : State) (c : Reg) (imm : BitVec 24) : opReg s c imm = secondOperand s (.ext c imm) :=
  op2_eq s (.ext c imm)

theorem opReg_short (s : State) (c : Reg) : opReg s c 0 = reg64 s c := opReg_zero s c

theorem sealedRule_eq (src res : Cap) : sealedRule src res = derived src res := by
  unfold sealedRule derived untagged
  simp [and_assoc]

theorem stepTo_eq (s : State) (b c : Reg) (imm : BitVec 24) : stepTo s b c imm = steppedTo s b (opReg s c imm) := rfl
theorem placeTo_eq (s : State) (c : Reg) (imm : BitVec 24) : placeTo s c imm = placedAt s c imm := rfl

theorem toNat_emod_lt (x : Int) : (x % (2 ^ 80 : Nat)).toNat < 2 ^ 80 := by
  have := Int.emod_lt_of_pos x (by decide : (0 : Int) < (2 ^ 80 : Nat))
  have := Int.emod_nonneg x (by decide : ((2 ^ 80 : Nat) : Int) ≠ 0)
  omega

theorem steppedTo_lt (s : State) (b : Reg) (y : BitVec 64) : steppedTo s b y < 2 ^ 80 := toNat_emod_lt _
theorem placedAt_lt (s : State) (c : Reg) (imm : BitVec 24) : placedAt s c imm < 2 ^ 80 := toNat_emod_lt _

theorem moveCursor_ok {a b : Reg} {new : Nat} {s : State} (hn : new < 2 ^ 80) (h : CursorMay (reg s b) new) :
    moveCursor a b new s = .ok ((), moveInto a b (derived (reg s b) (withCursor (reg s b) new)) s) := by
  unfold moveCursor
  rw [act_bind_ok _ _ _ _ _ (act_get s)]
  dsimp only
  rw [Nat.mod_eq_of_lt hn, if_neg, sealedRule_eq]
  · rfl
  · rintro ⟨hv, hw⟩
    rw [h hv] at hw
    cases hw

theorem maskPerms_ok {a b : Reg} {mask : BitVec 64} {s : State} (h : isView (reg s b) = true → mask.getLsbD 8 = true) :
    maskPerms a b mask s = .ok ((), moveInto a b (derived (reg s b) (masked (reg s b) mask)) s) := by
  unfold maskPerms
  rw [act_bind_ok _ _ _ _ _ (act_get s)]
  dsimp only
  rw [if_neg, sealedRule_eq]
  · rfl
  · rintro ⟨hv, hb⟩
    rw [bit_eq_testBit, show mask.toNat.testBit 8 = true from h hv] at hb
    cases hb

theorem setBounds_ok {exact : Bool} {a b : Reg} {n : BitVec 64} {s : State} {e lo hi : Nat}
    (h : BoundsMay exact (reg s b) n.toNat e lo hi) :
    setBounds exact a b n s = .ok ((), writeCap a (derived (reg s b) (boundedTo (reg s b) e lo hi)) s) := by
  obtain ⟨hv, hf, hx, hin⟩ := h
  unfold setBounds
  rw [act_bind_ok _ _ _ _ _ (act_get s)]
  dsimp only
  rw [hf]
  dsimp only
  rw [if_neg, if_neg, if_neg, sealedRule_eq]
  · rfl
  · rw [hv]; simp
  · rintro ⟨ht, hs, hout⟩
    obtain ⟨base, top, hb, h1, h2⟩ := hin ht (by simpa using hs)
    rw [hb] at hout
    simp [boundsWithin, h1, h2] at hout
  · rintro ⟨he, hne⟩
    obtain ⟨h1, h2⟩ := hx he
    exact hne.elim (absurd h1) (absurd h2)

theorem lockCap_ok {a b : Reg} {s : State} (h : isView (reg s b) = false) :
    lockCap a b s = .ok ((), writeCap a (withSeal (reg s b) true) s) := by
  unfold lockCap
  rw [act_bind_ok _ _ _ _ _ (act_get s)]
  dsimp only
  rw [if_neg (by rw [h]; simp)]
  rfl

theorem openCap_ok {a b c : Reg} {s : State} (h : isView (reg s b) = false) (hc : Authority (reg s c)) :
    openCap a b c s = .ok ((), writeCap a (withSeal (reg s b) false) s) := by
  obtain ⟨ht, hs, hp⟩ := hc
  unfold openCap
  rw [act_bind_ok _ _ _ _ _ (act_get s)]
  dsimp only
  simp only [ht, hs, hp, h, Bool.not_true, Bool.false_eq_true, if_false]
  rfl

theorem capabilityMoves : Claims.CapabilityMoves := by
  intro a b c imm s
  refine ⟨rfl, rfl, fun h => ?_, fun h => ?_, fun h => ?_, fun h => ?_, fun h => ?_, fun h => ?_⟩
  · rw [← opReg_short] at h ⊢
    exact quick_ok _ _ _ _ (moveCursor_ok (steppedTo_lt _ _ _) h)
  · rw [← opReg_eq] at h ⊢
    exact quick_ok _ _ _ _ (moveCursor_ok (steppedTo_lt _ _ _) h)
  · exact quick_ok _ _ _ _ (moveCursor_ok (placedAt_lt _ _ _) h)
  · exact quick_ok _ _ _ _ (moveCursor_ok (placedAt_lt _ _ _) h)
  · rw [← opReg_short] at h ⊢
    exact quick_ok _ _ _ _ (maskPerms_ok h)
  · rw [← opReg_eq] at h ⊢
    exact quick_ok _ _ _ _ (maskPerms_ok h)

theorem capabilityBounds : Claims.CapabilityBounds := by
  intro a b c imm s e lo hi
  refine ⟨fun h => ?_, fun h => ?_, fun h => ?_, fun h => ?_, fun h => ⟨?_, ?_⟩, fun h hc => ⟨?_, ?_⟩⟩
  · rw [← opReg_short] at h
    exact quick_ok _ _ _ _ (setBounds_ok h)
  · rw [← opReg_eq] at h
    exact quick_ok _ _ _ _ (setBounds_ok h)
  · rw [← opReg_short] at h
    exact quick_ok _ _ _ _ (setBounds_ok h)
  · rw [← opReg_eq] at h
    exact quick_ok _ _ _ _ (setBounds_ok h)
  · exact quick_ok _ _ _ _ (lockCap_ok h)
  · exact quick_ok _ _ _ _ (lockCap_ok h)
  · exact quick_ok _ _ _ _ (openCap_ok h hc)
  · exact quick_ok _ _ _ _ (openCap_ok h hc)

/-- Settles O33: each derivation goes through the part of a meaning that does it, which succeeds under the rule's condition. -/
theorem capabilityDerivations : Obligations.CapabilityDerivations := ⟨capabilityMoves, capabilityBounds⟩

end Sys2Proof.Machine
end

section
namespace Sys2Proof.Machine
open Sys2Proof.Claims

/-! ### Branches (R229, R230) -/

/-- A branch of the table runs by a comparison that holds exactly when the table takes it. -/
def BranchRunsBy (cond : BitVec 64 → BitVec 64 → Bool) (r : BranchRow) : Prop :=
  (∀ a b off s, exec (r.short a b off) s = branch cond 4 a b off.toInt s) ∧
  (∀ a b off s, exec (r.ext a b off) s = branch cond 12 a b off.toInt s) ∧
  ∀ x y, cond x y = true ↔ r.taken x y

theorem branchRows_run : ∀ r ∈ branchRows, ∃ cond, BranchRunsBy cond r := by
  unfold branchRows
  simp only [List.mem_cons, List.not_mem_nil, or_false, forall_eq_or_imp, forall_eq]
  refine ⟨⟨condEq, fun _ _ _ _ => rfl, fun _ _ _ _ => rfl, fun x y => ?_⟩,
    ⟨condNe, fun _ _ _ _ => rfl, fun _ _ _ _ => rfl, fun x y => ?_⟩,
    ⟨condLt, fun _ _ _ _ => rfl, fun _ _ _ _ => rfl, condLt_iff⟩,
    ⟨condGe, fun _ _ _ _ => rfl, fun _ _ _ _ => rfl, fun x y => decide_eq_true_iff⟩,
    ⟨condLtn, fun _ _ _ _ => rfl, fun _ _ _ _ => rfl, condLtn_iff⟩,
    ⟨condGen, fun _ _ _ _ => rfl, fun _ _ _ _ => rfl, fun x y => decide_eq_true_iff⟩⟩
  · exact beq_iff_eq
  · exact bne_iff_ne

theorem jumpBy_eq (off : Int) (s : State) : jumpBy off s = runsFrom (codeMoved s (4 * off)) s := rfl
theorem advance_eq (n : Nat) (s : State) : advance n s = runsFrom (codeMoved s n) s := rfl

theorem branch_taken {cond : BitVec 64 → BitVec 64 → Bool} {len : Nat} {a b : Reg} {off : Int} {s : State}
    (h : cond (reg64 s a) (reg64 s b) = true) : branch cond len a b off s = .next (runsFrom (codeMoved s (4 * off)) s) := by
  unfold branch
  rw [if_pos h, jumpBy_eq]

theorem branch_falls {cond : BitVec 64 → BitVec 64 → Bool} {len : Nat} {a b : Reg} {off : Int} {s : State}
    (h : ¬ cond (reg64 s a) (reg64 s b) = true) : branch cond len a b off s = .next (runsFrom (codeMoved s len) s) := by
  unfold branch
  rw [if_neg h, advance_eq]

theorem maskCond_iff (cond : MaskCond) (v : BitVec 64) : maskCond cond v = true ↔ bmTaken v cond := by
  cases cond with
  | any => exact bne_iff_ne
  | all => exact beq_iff_eq
  | none => exact beq_iff_eq

theorem branches : Claims.Branches := by
  refine ⟨fun r hr a b s => ?_, fun m cond off s => ?_⟩
  · obtain ⟨cond, hshort, hext, htaken⟩ := branchRows_run r hr
    refine ⟨fun off => ?_, fun off => ?_⟩
    · rw [hshort, ← htaken]
      exact ⟨branch_taken, branch_falls⟩
    · rw [hext, ← htaken]
      exact ⟨branch_taken, branch_falls⟩
  · have h : exec (.bm m cond off) s =
        .next (if maskCond cond (maskReg (me s) m.val) then jumpBy off.toInt s else advance 12 s) := rfl
    rw [h, ← maskCond_iff]
    exact ⟨fun hc => by rw [if_pos hc, jumpBy_eq], fun hc => by rw [if_neg hc, advance_eq]; rfl⟩

/-! ### Jumps (R231 to R233) -/

theorem checkCode_ok {b : Reg} {s : State} (h : JumpTarget (reg s b)) : checkCode b s = .ok ((), s) := by
  obtain ⟨ht, hs, hp, ha⟩ := h
  unfold checkCode
  rw [act_bind_ok _ _ _ _ _ (act_get s)]
  simp [ht, hs, hp, ha, checked]

theorem jumpReg_ok {b : Reg} {s : State} (linked : Option Reg) (h : JumpTarget (reg s b)) :
    jumpReg linked b s = .ok ((), runsFrom (reg s b) (match linked with
      | some a => writeCap a (codeMoved s 4) s
      | none => s)) := by
  unfold jumpReg
  rw [act_bind_ok _ _ _ _ _ (act_get s)]
  rw [act_bind_ok _ _ _ _ _ (checkCode_ok h)]
  cases linked <;> rfl

theorem enterSealed_ok {a b : Reg} {s : State} (h : SealedEntry (reg s b)) :
    enterSealed a b s = .ok ((), runsFrom (withSeal (reg s b) false) (writeCap a (codeMoved s 4) s)) := by
  obtain ⟨ht, hs, hp, ha⟩ := h
  unfold enterSealed
  rw [act_bind_ok _ _ _ _ _ (act_get s)]
  simp only [ht, hs, hp, ha, Bool.not_true, Bool.false_eq_true, if_false, ne_eq, not_true_eq_false]
  rfl

theorem jumps : Claims.Jumps := fun a _ _ _ _ =>
  ⟨rfl, rfl, rfl, rfl,
    fun h => ⟨finish_ok _ _ _ (jumpReg_ok none h), finish_ok _ _ _ (jumpReg_ok none h),
      finish_ok _ _ _ (jumpReg_ok (some a) h)⟩,
    fun h => finish_ok _ _ _ (enterSealed_ok h)⟩

/-! ### Where the program counter stands (R217, R218) -/

theorem wrap80_lt (x : Int) : wrap 80 x < 2 ^ 80 := by
  have := Int.emod_lt_of_pos x (by decide : (0 : Int) < 2 ^ 80)
  have := Int.emod_nonneg x (by decide : (2 ^ 80 : Int) ≠ 0)
  unfold wrap
  omega

theorem cast_wrap80 (x : Int) : (wrap 80 x : Int) = x % (2 ^ 80 : Nat) :=
  Int.toNat_of_nonneg (Int.emod_nonneg x (by decide))

theorem capAddr_withCursor {c : Cap} {a : Nat} (ha : a < 2 ^ 80) : capAddr (withCursor c a) = a := (cursorChange c a ha).1

theorem pc_runsFrom (c : Cap) (s : State) : pc (runsFrom c s) = capAddr c := by
  unfold pc runsFrom
  rw [me_onMe]

theorem pc_codeMoved (d : Int) (s : State) : (pc (runsFrom (codeMoved s d) s) : Int) = ((pc s : Int) + d) % (2 ^ 80 : Nat) := by
  rw [pc_runsFrom, ← cast_wrap80]
  exact congrArg _ (capAddr_withCursor (wrap80_lt _))

theorem programCounterMoves : Claims.ProgramCounterMoves := by
  intro s n off
  rw [jumpBy_eq, advance_eq]
  refine ⟨?_, pc_codeMoved _ _⟩
  have := pc_codeMoved n s
  omega

/-- Settles O34: each branch and jump by the part of the meaning that does it. -/
theorem branchesAndJumps : Obligations.BranchesAndJumps := ⟨branches, jumps, programCounterMoves⟩

end Sys2Proof.Machine
end

section
namespace Sys2Proof.Machine

/-! ### A sequence, by its first part -/

section
variable {α β : Type} {c i : Nat} {ok : Bool} {s : State}

@[simp] theorem act_get_bind (f : State → Act β) (s : State) : (get >>= f) s = f s s := rfl
@[simp] theorem act_pure_bind (a : α) (f : α → Act β) (s : State) : ((pure a : Act α) >>= f) s = f a s := rfl
@[simp] theorem act_set_bind (t : State) (f : PUnit → Act β) (s : State) : ((set t : Act PUnit) >>= f) s = f ⟨⟩ t := rfl
@[simp] theorem act_modify_bind (g : State → State) (f : PUnit → Act β) (s : State) :
    ((modify g : Act PUnit) >>= f) s = f ⟨⟩ (g s) := rfl

theorem require_ok (h : ok = true) : require ok c i s = .ok ((), s) := by subst h; rfl
theorem require_trap (h : ok = false) : require ok c i s = .error (.trap ⟨c, i, 0⟩) := by subst h; rfl

/-- A requirement that holds is no part of the sequence. -/
theorem require_bind_ok (f : Unit → Act β) (h : ok = true) : (require ok c i >>= f) s = f () s :=
  act_bind_ok _ _ _ _ _ (require_ok h)

theorem require_bind_trap (f : Unit → Act β) (h : ok = false) : (require ok c i >>= f) s = .error (.trap ⟨c, i, 0⟩) :=
  act_bind_error _ _ _ _ (require_trap h)

@[simp] theorem checked_none (r : Nat) : checked r none s = .ok ((), s) := rfl
@[simp] theorem checked_some (r : Nat) (x : Sub) : checked r (some x) s = .error (.trap ⟨causeCapability, capInfo r x, 0⟩) :=
  rfl

end

/-! ### Contexts of another slot -/

theorem ctxOf_onCore (s : State) (c : Nat) (f : Core → Core) (id : CtxId) (h : (f (coreOf s c)).slots = (coreOf s c).slots) :
    ctxOf (onCore s c f) id = ctxOf s id := by
  unfold ctxOf
  rw [coreOf_onCore]
  split
  next e => rw [e, h]
  next e => rfl

end Sys2Proof.Machine
end

section
namespace Sys2Proof.Machine
open Sys2Proof.Claims

/-! ### start and join (R234, R235) -/

theorem requireLeader_ok {n : Nat} {s : State} (h : (me s).kind = .leader) : requireLeader n s = .ok ((), s) := by
  unfold requireLeader
  rw [act_get_bind]
  simp [isPitchOrSpawned, isLeader, h, require_bind_ok, require_ok]

theorem requireLeader_other {n : Nat} {s : State} (h : (∃ l, (me s).kind = .helper l) ∨ (me s).kind = .system) :
    requireLeader n s = .error (.trap ⟨causeExecution, n, 0⟩) := by
  unfold requireLeader
  rw [act_get_bind]
  rcases h with ⟨l, h⟩ | h <;> simp [isPitchOrSpawned, isLeader, h, require_bind_ok, require_trap]

theorem requireLeader_pitch {n : Nat} {s : State} (h : (∃ p i o, (me s).kind = .pitch p i o) ∨ (me s).kind = .spawned) :
    requireLeader n s = .error (.trap ⟨causeExecution, 10, 0⟩) := by
  unfold requireLeader
  rw [act_get_bind]
  rcases h with ⟨p, i, o, h⟩ | h <;> simp [isPitchOrSpawned, h, require_bind_trap]

theorem engineAbsent_eq_false {core : Nat} {pin : Pin} (h : ¬ (isBasecamp core = true ∧ (pin = .mx ∨ pin = .ep))) :
    engineAbsent core pin = false := by
  unfold engineAbsent
  simpa using h

theorem engineAbsent_of {core : Nat} {pin : Pin} (h : isBasecamp core = true) (hp : pin = .mx ∨ pin = .ep) :
    engineAbsent core pin = true := by
  unfold engineAbsent
  simpa [h] using hp

/-- What `start` does once its checks have passed. -/
theorem startBody_checked {a b c : Reg} {pin : Pin} {s : State} (hk : (me s).kind = .leader) (hj : JumpTarget (reg s b)) :
    startBody a b c pin s = (match lowestFree (myCore s), teamOf s (who s) with
      | some slot, some t =>
        if (recordsOf (myCore s) (me s).uid).length ≥ 10 then modify (writeInt a 64 (wrap 64 (-1)))
        else if pin ≠ .none ∧ enginePinned (myCore s) pin then modify (writeInt a 64 (wrap 64 (-2)))
        else if engineAbsent (who s).core pin then modify (writeInt a 64 (wrap 64 (-3)))
        else set (writeInt a 64 (startHelper t slot b c pin s).1 (startHelper t slot b c pin s).2)
      | none, _ => modify (writeInt a 64 (wrap 64 (-1)))
      | some _, none => modify (writeInt a 64 (wrap 64 (-1))) : Act Unit) s := by
  unfold startBody
  rw [act_bind_ok _ _ _ _ _ (requireLeader_ok hk), act_bind_ok _ _ _ _ _ (checkCode_ok hj), act_get_bind] <;> rfl

theorem startBody_starts {a b c : Reg} {pin : Pin} {s : State} {t : Team} {slot : Nat} (h : MayStart s b pin t slot) :
    startBody a b c pin s =
      .ok ((), writeInt a 64 (startHelper t slot b c pin s).1 (startHelper t slot b c pin s).2) := by
  obtain ⟨hk, hj, hl, ht, hr, hp, he⟩ := h
  have hpin : ¬ (pin ≠ .none ∧ enginePinned (myCore s) pin = true) := fun ⟨h1, h2⟩ =>
    hp.elim h1 fun hp => by rw [h2] at hp; cases hp
  rw [startBody_checked hk hj]
  simp only [hl, ht]
  rw [if_neg (by omega), if_neg hpin, engineAbsent_eq_false he]
  rfl

theorem startBody_full {a b c : Reg} {pin : Pin} {s : State} {t : Team} (hk : (me s).kind = .leader)
    (hj : JumpTarget (reg s b)) (h : lowestFree (myCore s) = none ∨
      teamOf s (who s) = some t ∧ 10 ≤ (recordsOf (myCore s) (me s).uid).length) :
    startBody a b c pin s = .ok ((), writeInt a 64 (2 ^ 64 - 1) s) := by
  rw [startBody_checked hk hj]
  cases hl : lowestFree (myCore s) with
  | none => rfl
  | some slot =>
    obtain ⟨ht, hr⟩ := h.resolve_left (by rw [hl]; simp)
    simp only [ht]
    rw [if_pos hr]
    rfl

theorem startBody_pinned {a b c : Reg} {pin : Pin} {s : State} {t : Team} {slot : Nat} (hk : (me s).kind = .leader)
    (hj : JumpTarget (reg s b)) (hl : lowestFree (myCore s) = some slot) (ht : teamOf s (who s) = some t)
    (hr : (recordsOf (myCore s) (me s).uid).length < 10) (hp : pin ≠ .none) (he : enginePinned (myCore s) pin = true) :
    startBody a b c pin s = .ok ((), writeInt a 64 (2 ^ 64 - 2) s) := by
  rw [startBody_checked hk hj]
  simp only [hl, ht]
  rw [if_neg (by omega), if_pos ⟨hp, he⟩]
  rfl

theorem startBody_absent {a b c : Reg} {pin : Pin} {s : State} {t : Team} {slot : Nat} (hk : (me s).kind = .leader)
    (hj : JumpTarget (reg s b)) (hl : lowestFree (myCore s) = some slot) (ht : teamOf s (who s) = some t)
    (hr : (recordsOf (myCore s) (me s).uid).length < 10) (he : enginePinned (myCore s) pin = false)
    (hb : isBasecamp (who s).core = true) (hp : pin = .mx ∨ pin = .ep) :
    startBody a b c pin s = .ok ((), writeInt a 64 (2 ^ 64 - 3) s) := by
  rw [startBody_checked hk hj]
  simp only [hl, ht]
  rw [if_neg (by omega), if_neg (by rw [he]; simp), if_pos (engineAbsent_of hb hp)]
  rfl

theorem joinBody_ok {a b : Reg} {s : State} {r : HelperRecord} {e : BitVec 64} (hk : (me s).kind = .leader)
    (hr : recordFor (myCore s) (me s).uid (reg64 s b) = some r) (he : r.exit = some e) :
    joinBody a b s = .ok ((), writeInt a 64 e.toNat (withoutRecord r s)) := by
  unfold joinBody
  rw [act_bind_ok _ _ _ _ _ (requireLeader_ok hk), act_get_bind]
  simp only [hr, he]
  rfl

theorem helpersStartAndJoin : Claims.HelpersStartAndJoin := by
  intro a b c pin s t slot
  refine ⟨fun h => quick_ok _ _ _ _ (startBody_starts h), fun hk hj h => quick_ok _ _ _ _ (startBody_full hk hj h),
    fun hk hj hl ht hr hp => ⟨fun he => quick_ok _ _ _ _ (startBody_pinned hk hj hl ht hr hp he),
      fun he hb hm => quick_ok _ _ _ _ (startBody_absent hk hj hl ht hr he hb hm)⟩,
    fun h => quick_trap _ _ _ _ (act_bind_error _ _ _ _ (requireLeader_other h)),
    fun h => quick_trap _ _ _ _ (act_bind_error _ _ _ _ (requireLeader_pitch h)),
    fun r e hk hr he => slow_ok _ _ _ _ (joinBody_ok hk hr he)⟩

end Sys2Proof.Machine
end

section
namespace Sys2Proof.Machine
open Sys2Proof.Claims

/-- A new context before its registers are written. -/
def bareContext (t : Team) (kind : CtxKind) (uid : Nat) (code : Cap) (id : CtxId) (birth : Nat) : Context :=
  { status := .live, kind := kind, uid := uid, code := code, nv := t.nv, ne := t.ne, seed := t.seed, birth := birth
    born := id }

/-- Writing a register changes only the registers. -/
def OnlyRegs (x y : Context) : Prop := y = { x with regs := y.regs, shadow := y.shadow }

theorem OnlyRegs.putReg {x y : Context} (h : OnlyRegs x y) (n : Nat) (v : Cap) : OnlyRegs x (putReg y n v) := by
  unfold OnlyRegs at *
  rw [putReg_eq, h]

theorem onlyRegs_newContext (t : Team) (kind : CtxKind) (uid : Nat) (code : Cap) (args : List Cap) (c5 c6 : Nat)
    (id : CtxId) (birth : Nat) :
    OnlyRegs (bareContext t kind uid code id birth) (newContext t kind uid code args c5 c6 id birth) :=
  have h : OnlyRegs (bareContext t kind uid code id birth) (bareContext t kind uid code id birth) := rfl
  h.putReg _ _ |>.putReg _ _ |>.putReg _ _ |>.putReg _ _ |>.putReg _ _ |>.putReg _ _

theorem regOf_newContext (t : Team) (kind : CtxKind) (uid : Nat) (code : Cap) (args : List Cap) (c5 c6 : Nat)
    (id : CtxId) (birth : Nat) :
    let x := newContext t kind uid code args c5 c6 id birth
    (∀ i < 4, regOf x (i + 1) = args.getD i Cap.null) ∧ regOf x 5 = Cap.plain (BitVec.ofNat 128 c5) ∧
      regOf x 6 = Cap.plain (BitVec.ofNat 128 c6) ∧ ∀ i, 7 ≤ i → regOf x i = Cap.null := by
  intro x
  refine ⟨fun i hi => ?_, ?_, ?_, fun i hi => ?_⟩
  · simp only [x, newContext]
    rw [regOf_putReg_other _ _ _ _ (by omega), regOf_putReg_other _ _ _ _ (by omega)]
    match i, hi with
    | 0, _ =>
      rw [regOf_putReg_other _ _ _ _ (by omega), regOf_putReg_other _ _ _ _ (by omega),
        regOf_putReg_other _ _ _ _ (by omega), regOf_putReg_same _ _ _ (by omega)]
    | 1, _ =>
      rw [regOf_putReg_other _ _ _ _ (by omega), regOf_putReg_other _ _ _ _ (by omega),
        regOf_putReg_same _ _ _ (by omega)]
    | 2, _ => rw [regOf_putReg_other _ _ _ _ (by omega), regOf_putReg_same _ _ _ (by omega)]
    | 3, _ => rw [regOf_putReg_same _ _ _ (by omega)]
  · simp only [x, newContext]
    rw [regOf_putReg_other _ _ _ _ (by omega), regOf_putReg_same _ _ _ (by omega)]
  · simp only [x, newContext]
    rw [regOf_putReg_same _ _ _ (by omega)]
  · simp only [x, newContext]
    rw [regOf_putReg_other _ _ _ _ (by omega), regOf_putReg_other _ _ _ _ (by omega),
      regOf_putReg_other _ _ _ _ (by omega), regOf_putReg_other _ _ _ _ (by omega),
      regOf_putReg_other _ _ _ _ (by omega), regOf_putReg_other _ _ _ _ (by omega)]
    unfold regOf
    rw [if_neg (by omega)]
    rfl

/-- A context placed in a slot, and what it is made of. -/
theorem ctxOf_placeContext (s : State) (t : Team) (kind : CtxKind) (id : CtxId) (code : Cap) (args : List Cap)
    (c5 c6 : Nat) : ctxOf (placeContext s t kind id code args c5 c6) id =
      newContext t kind (s.names + 1) code args c5 c6 id (lookD (coreOf s id.core).births id.slot 0) := by
  unfold placeContext
  dsimp only
  rw [ctxOf_onCore _ _ _ _ rfl, ctxOf_setCtx_same]
  rfl

theorem newHelper : Claims.NewHelper := by
  intro t slot b c pin s hslot x
  have hx : ∃ y : Context, x = { y with serial := x.serial, pin := pin, fetchSince := x.fetchSince } ∧
      ∃ uid birth, y = newContext t (.helper (me s).uid) uid (reg s b) (arguments s c) (me s).ordinal (leaderCount t)
        ⟨(who s).core, slot⟩ birth := by
    simp only [x, startHelper]
    rw [ctxOf_onCore _ _ _ _ rfl, ctxOf_onCtx_same, ctxOf_placeContext]
    exact ⟨_, rfl, _, _, rfl⟩
  obtain ⟨y, hxy, uid, birth, hy⟩ := hx
  obtain ⟨hargs, h5, h6, hrest⟩ := regOf_newContext t (.helper (me s).uid) uid (reg s b) (arguments s c) (me s).ordinal
    (leaderCount t) ⟨(who s).core, slot⟩ birth
  have hbare := onlyRegs_newContext t (.helper (me s).uid) uid (reg s b) (arguments s c) (me s).ordinal
    (leaderCount t) ⟨(who s).core, slot⟩ birth
  rw [← hy] at hargs h5 h6 hrest hbare
  have hreg (n : Nat) : regOf x n = regOf y n := by rw [hxy]; rfl
  unfold OnlyRegs at hbare
  refine ⟨rfl, ?_, ?_, ?_, ?_, ?_, ?_, ?_, ?_, ?_, ?_, ?_, ?_, ?_, ?_, fun i hi => ?_, ?_, ?_, fun i hi _ => ?_⟩
  case refine_15 => rw [hreg]; exact hargs i hi
  case refine_16 => rw [hreg]; exact h5
  case refine_17 => rw [hreg]; exact h6
  case refine_18 => rw [hreg]; exact hrest i hi
  case refine_4 => rw [hxy]
  all_goals rw [hxy, hbare]; rfl

/-- Settles O35: each outcome of `start` and `join`, and the context that a start places read off its registers. -/
theorem helpers : Obligations.Helpers := ⟨helpersStartAndJoin, newHelper⟩

end Sys2Proof.Machine
end

section
namespace Sys2Proof.Machine
open Sys2Proof.Claims

/-! ### Barriers and semaphores (R237 to R240) -/

theorem finish_held (m : Act Unit) (s : State) (w : Wait) (h : m s = .error (.hold w)) :
    finish m s = .next (heldOn w s) := finish_hold m s w h

theorem quick_held (len : Nat) (m : Act Unit) (s : State) (w : Wait) (h : m s = .error (.hold w)) :
    quick len m s = .next (heldOn w s) := finish_hold _ _ _ (act_bind_error _ _ _ _ h)

theorem slow_done (len : Nat) (m : Act Unit) (s t : State) (h : m s = .error (.done t)) : slow len m s = .next t :=
  finish_done _ _ _ (act_bind_error _ _ _ _ h)

theorem checkArrival_ok {sc : Scope} {s : State} (h : MayArrive s sc) : checkArrival sc s = .ok ((), s) := by
  obtain ⟨hk, hb⟩ := h
  unfold checkArrival
  rw [act_get_bind, act_bind_ok _ _ _ _ _ (requireLeader_ok hk)]
  apply require_ok
  unfold onBasecamp
  cases hc : isBasecamp (who s).core with
  | false => rfl
  | true => rcases hb hc with rfl | rfl <;> rfl

theorem barBody_lane {s : State} (h : MayArrive s .lane) : barBody .lane s = .ok ((), advance 12 s) := by
  unfold barBody
  rw [act_bind_ok _ _ _ _ _ (checkArrival_ok h)]
  rfl

theorem barBody_wider {sc : Scope} {s : State} (hsc : sc ≠ .lane) (h : MayArrive s sc) :
    barBody sc s = .error (.hold (.arrived (.bar sc))) := by
  unfold barBody
  rw [act_bind_ok _ _ _ _ _ (checkArrival_ok h), if_neg hsc]
  rfl

theorem needResident_ok {s : State} (h : isBasecamp (who s).core = false) : needResident s = .ok ((), s) := by
  unfold needResident
  rw [act_get_bind]
  exact require_ok (by simp [onBasecamp, h])

theorem semSignal_resident {sem : Reg} {s : State} (h : isBasecamp (who s).core = false) :
    semSignal sem s = signalSem sem.val s := act_bind_ok _ _ _ _ _ (needResident_ok h)

theorem semWait_resident {sem : Reg} {s : State} (h : isBasecamp (who s).core = false) :
    semWait sem s = waitSem sem.val s := act_bind_ok _ _ _ _ _ (needResident_ok h)

theorem signalSem_counts {n : Nat} {s : State} (hq : lookD (myCore s).semq n [] = [])
    (hv : lookD (myCore s).sems n 0 < 65535) : signalSem n s = .ok ((), onCore s (who s).core fun k =>
      { k with sems := putD k.sems n (lookD (myCore s).sems n 0 + 1) 0 }) := by
  unfold myCore at hq hv
  unfold signalSem
  rw [act_get_bind]
  simp only [hq]
  rw [require_bind_ok _ (by simpa using hv)]
  rfl

theorem signalSem_wakes {n w : Nat} {rest : List Nat} {x : Context} {s : State}
    (hq : lookD (myCore s).semq n [] = w :: rest) (hx : look (myCore s).slots w = some x) :
    signalSem n s = .ok ((), wakeFirst n w rest x s) := by
  unfold myCore at hq hx
  unfold signalSem
  rw [act_get_bind]
  simp only [hq]
  unfold wakeFirst onCore
  simp only [hx]
  rfl

theorem waitSem_takes {n : Nat} {s : State} (h : 0 < lookD (myCore s).sems n 0) :
    waitSem n s = .ok ((), onCore s (who s).core fun k =>
      { k with sems := putD k.sems n (lookD (myCore s).sems n 0 - 1) 0 }) := by
  unfold waitSem
  rw [act_get_bind]
  dsimp only
  rw [if_pos (show lookD (coreOf s (who s).core).sems n 0 > 0 from h)]
  rfl

theorem waitSem_queues {n : Nat} {s : State} (h : lookD (myCore s).sems n 0 = 0) :
    waitSem n s = .error (.done (onMe (onCore s (who s).core fun k =>
      { k with semq := putD k.semq n (lookD (myCore s).semq n [] ++ [(who s).slot]) [] })
        fun x => { x with wait := .semaphore n })) := by
  unfold waitSem
  rw [act_get_bind]
  exact congrFun (if_neg (show ¬ lookD (myCore s).sems n 0 > 0 by omega)) s

theorem barriersAndSemaphores : Claims.BarriersAndSemaphores := by
  intro sc sem s
  refine ⟨rfl, fun h => finish_ok _ _ _ (barBody_lane h), fun hsc h => finish_held _ _ _ (barBody_wider hsc h),
    fun hb => ⟨fun hq hv => quick_ok _ _ _ _ ?_, fun w rest x hq hx => quick_ok _ _ _ _ ?_,
      fun h => slow_ok _ _ _ _ ?_, fun h => slow_done _ _ _ _ ?_⟩⟩
  · rw [semSignal_resident hb, signalSem_counts hq hv]
  · rw [semSignal_resident hb, signalSem_wakes hq hx]
  · rw [semWait_resident hb, waitSem_takes h]
  · rw [semWait_resident hb, waitSem_queues h]

/-! ### Forwarding registers (R48, R49) -/

theorem fwdTarget_eq {s : State} (quad : Bool) (h : (who s).slot < 11) : fwdTarget (who s) quad = forwardsTo s quad := by
  unfold fwdTarget forwardsTo
  cases quad with
  | true =>
    have h1 : (who s).core / 4 * 4 = (who s).core - (who s).core % 4 := by omega
    have h2 : ((who s).core % 4 + 1) % 4 = ((who s).core + 1) % 4 := by omega
    simp only [if_true, h1, h2]
  | false =>
    have h1 : ((who s).slot + 1) % 11 = if (who s).slot = 10 then 0 else (who s).slot + 1 := by split <;> omega
    simp only [Bool.false_eq_true, if_false, h1]

/-- What a put to another core of the quad needs. -/
def MayForward (s : State) (quad : Bool) : Prop :=
  quad = true → isBasecamp (who s).core = false ∧ ∃ t, teamOf s (who s) = some t ∧ (forwardsTo s quad).core ∈ t.cores

theorem fwdPutBody_checked {a : Reg} {quad : Bool} {s : State} (hs : (who s).slot < 11) (h : MayForward s quad) :
    fwdPutBody a quad s = (match putFwd s (who s) quad (reg64 s a) with
      | some t => set t
      | none => hold (.fwdPut quad (reg64 s a)) : Act Unit) s := by
  unfold fwdPutBody
  rw [act_get_bind]
  refine (require_bind_ok _ ?_).trans rfl
  cases quad with
    | false => simp; omega
    | true =>
      obtain ⟨hb, t, ht, hc⟩ := h rfl
      rw [fwdTarget_eq _ hs]
      simp [hb, inCoreSet, ht, hc]
      omega

theorem putFwd_empty {s : State} {quad : Bool} {v : BitVec 64} (hs : (who s).slot < 11)
    (he : isFull (fwdOf (coreOf s (forwardsTo s quad).core) (forwardsTo s quad).slot) = false) :
    putFwd s (who s) quad v = some (onCore s (forwardsTo s quad).core
      (setFwd (forwardsTo s quad).slot (BitVec.ofNat 65 (2 ^ 64 + v.toNat)))) := by
  unfold putFwd
  dsimp only
  rw [fwdTarget_eq _ hs]
  exact if_neg (by rw [show fwdFull _ = false from he]; simp)

theorem putFwd_full {s : State} {quad : Bool} {v : BitVec 64} (hs : (who s).slot < 11)
    (he : isFull (fwdOf (coreOf s (forwardsTo s quad).core) (forwardsTo s quad).slot) = true) :
    putFwd s (who s) quad v = none := by
  unfold putFwd
  dsimp only
  rw [fwdTarget_eq _ hs]
  exact if_pos he

theorem fwdGetBody_slot {a : Reg} {s : State} (hs : (who s).slot < 11) :
    fwdGetBody a s = (match takeFwd s (who s) with
      | some (v, t) => set (writeInt a 64 v t)
      | none => hold (.fwdGet a) : Act Unit) s := by
  unfold fwdGetBody
  rw [act_get_bind, require_bind_ok _ (by simp; omega)] <;> rfl

theorem takeFwd_full {s : State} (h : isFull (fwdOf (myCore s) (who s).slot) = true) :
    takeFwd s (who s) = some ((fwdOf (myCore s) (who s).slot).toNat % 2 ^ 64, onCore s (who s).core
      (setFwd (who s).slot (BitVec.ofNat 65 ((fwdOf (myCore s) (who s).slot).toNat % 2 ^ 64)))) := if_pos h

theorem takeFwd_empty {s : State} (h : isFull (fwdOf (myCore s) (who s).slot) = false) : takeFwd s (who s) = none :=
  if_neg (show ¬ isFull (fwdOf (myCore s) (who s).slot) = true by rw [h]; simp)

theorem forwarding : Claims.Forwarding := by
  intro a quad s hs hf
  refine ⟨fun he => quick_ok _ _ _ _ ?_, fun he => quick_held _ _ _ _ ?_, fun he => quick_ok _ _ _ _ ?_,
    fun he => quick_held _ _ _ _ ?_⟩
  · rw [fwdPutBody_checked hs hf, putFwd_empty hs he]; rfl
  · rw [fwdPutBody_checked hs hf, putFwd_full hs he]; rfl
  · rw [fwdGetBody_slot hs, takeFwd_full he]; rfl
  · rw [fwdGetBody_slot hs, takeFwd_empty he]; rfl

/-- Settles O37: barriers and semaphores, and the forwarding registers, by their parts of a meaning. -/
theorem sharedHardware : Obligations.SharedHardware := ⟨barriersAndSemaphores, forwarding⟩

end Sys2Proof.Machine
end

section
namespace Sys2Proof.Machine
open Sys2Proof.Claims

/-! ### halt (R30, R31, R34) -/

theorem haltBody_called {a : Reg} {s : State} {f : InlineCall} {rest : List InlineCall} (hc : (me s).calls = f :: rest)
    (hn : ¬ ((who s).slot = 11 ∧ (myCore s).trapOpen = true)) :
    haltBody a s = .ok ((), returnInline f rest (reg64 s a) s) := by
  have hn' : ¬ (decide ((who s).slot = 11) && (myCore s).trapOpen) = true := by simpa using hn
  unfold haltBody
  rw [act_get_bind]
  simp only [if_neg hn', hc]
  rfl

/-- Outside inline calls, and in a trap entry, `halt` ends what runs. -/
theorem haltBody_outer {a : Reg} {s : State}
    (hc : (me s).calls = [] ∨ (who s).slot = 11 ∧ (myCore s).trapOpen = true) :
    haltBody a s = (if (who s).slot = 11 then set (endRun s)
      else if isLeader (me s) ∧ helpersLive s (who s) then hold .helpers
      else set (endContext s (who s) (reg64 s a)) : Act Unit) s := by
  have h : (if (decide ((who s).slot = 11) && (myCore s).trapOpen) = true then [] else (me s).calls) = [] := by
    split
    · rfl
    next hn => exact hc.resolve_right (by simpa using hn)
  unfold haltBody
  rw [act_get_bind]
  simp only [h]

theorem endRun_trapOpen {s : State} (h : (myCore s).trapOpen = true) : endRun s = endTrapEntry s (who s).core := by
  unfold endRun
  exact if_pos h

theorem isLeader_iff (x : Context) : isLeader x = true ↔ x.kind = .leader := beq_iff_eq

theorem halts : Claims.Halts := by
  intro a s
  refine ⟨fun hs ht hc => finish_ok _ _ _ ?_, fun hs ht => finish_ok _ _ _ ?_,
    fun f rest hc hn => finish_ok _ _ _ (haltBody_called hc hn), fun hs hc hl => finish_ok _ _ _ ?_,
    fun hs hc hk hl => finish_held _ _ _ ?_⟩
  · rw [haltBody_outer (.inl hc), if_pos hs]; rfl
  · rw [haltBody_outer (.inr ⟨hs, ht⟩), if_pos hs, endRun_trapOpen ht]; rfl
  · rw [haltBody_outer (.inl hc), if_neg hs, if_neg]
    · rfl
    · rintro ⟨hk, hh⟩
      rw [hl ((isLeader_iff _).1 hk)] at hh
      cases hh
  · rw [haltBody_outer (.inl hc), if_neg hs, if_pos ⟨(isLeader_iff _).2 hk, hl⟩]; rfl

/-! ### spawn (R33, R236) -/

theorem inCoreSet_iff (s : State) (core : Nat) :
    inCoreSet s core = true ↔ ∃ t, teamOf s (who s) = some t ∧ core ∈ t.cores := by
  unfold inCoreSet
  cases teamOf s (who s) <;> simp

theorem spawnBody_sends {a b c d : Reg} {imm : BitVec 24} {s : State} {core : Nat} (h : SpawnTarget s d imm core)
    (hj : JumpTarget (reg s b)) : spawnBody a b c d imm s = .ok ((), sendSpawn core a b c s) := by
  obtain ⟨ht, hc⟩ := h
  have hi : ((reg64 s d).toNat : Int) + imm24 imm = core := ht
  unfold spawnBody
  rw [act_get_bind]
  rw [hi, Int.toNat_natCast, require_bind_ok _ (by simpa using (inCoreSet_iff s core).2 hc),
    act_bind_ok _ _ _ _ _ (checkCode_ok hj)]
  rfl

theorem spawnBody_outside {a b c d : Reg} {imm : BitVec 24} {s : State} (h : ∀ core, ¬ SpawnTarget s d imm core) :
    spawnBody a b c d imm s = .error (.trap ⟨causeExecution, 5, 0⟩) := by
  unfold spawnBody
  rw [act_get_bind]
  rw [require_bind_trap]
  rw [Bool.eq_false_iff]
  intro hin
  obtain ⟨h0, hc⟩ := Bool.and_eq_true_iff.1 hin
  refine h _ ⟨?_, (inCoreSet_iff s _).1 hc⟩
  exact (Int.toNat_of_nonneg (of_decide_eq_true h0)).symm

theorem remoteSpawn : Claims.RemoteSpawn := fun _ _ _ _ _ _ =>
  ⟨fun _ h hj => finish_ok _ _ _ (spawnBody_sends h hj), fun h => finish_trap _ _ _ (spawnBody_outside h)⟩

/-! ### The arrival of a spawn request (R25, R33 to R35) -/

theorem lowestFree_iff (k : Core) (slot : Nat) : lowestFree k = some slot ↔
    slot < 11 ∧ slotFree k slot = true ∧ ∀ j < slot, slotFree k j = false := by
  have h := find?_map_upFrom id (slotFree k) 0 11 slot
  rw [List.map_id] at h
  unfold lowestFree
  rw [h]
  constructor
  · rintro ⟨d, -, h2, rfl, h4, h5⟩
    exact ⟨by simpa using h2, h4, fun j hj => h5 j (Nat.zero_le j) hj⟩
  · rintro ⟨h1, h2, h3⟩
    exact ⟨slot, Nat.zero_le _, by omega, rfl, h2, fun d' _ hd => h3 d' hd⟩

theorem answerSpawn_waiting {u : State} {core : Nat} {r : SpawnReq} {caller : CtxId} {n : Nat} {dst args : Reg}
    (hc : contextByUid u r.uid = some caller) (hw : (ctxOf u caller).wait = .spawn n dst args) :
    answerSpawn u core r = match lowestFree (coreOf u core), teamBy u r.team with
      | some slot, some t => placeChild u t core slot r caller dst args
      | none, _ => callChild u r caller dst args
      | some _, none => callChild u r caller dst args := by
  unfold answerSpawn
  simp only [hc, hw] <;> rfl

theorem spawnArrival_taken {core : Nat} {s u : State} {r : SpawnReq} {caller : CtxId} {dst args : Reg}
    (h : SpawnTaken s core r u caller dst args) :
    exec (.spawnArrival core) s = .next (spendTurn (answerSpawn u core r) core) := by
  obtain ⟨ht, ⟨i, hi, rfl⟩, -, -⟩ := h
  show execSpawnArrival core s = _
  unfold execSpawnArrival
  rw [if_pos ht, hi]

/-! What the steps of an answer leave of the caller and of the others. -/

theorem ctxOf_writeCapIn_same (s : State) (id : CtxId) (n : Nat) (v : Cap) :
    ctxOf (writeCapIn s id n v) id = putReg (ctxOf s id) n v := by
  unfold writeCapIn
  split
  next h => rw [ctxOf_dropView, h]; rfl
  next h => rw [ctxOf_onCtx_same, ctxOf_dropView]

theorem ctxOf_writeCapIn_other (s : State) (id other : CtxId) (n : Nat) (v : Cap) (h : other ≠ id) :
    ctxOf (writeCapIn s id n v) other = ctxOf s other := by
  unfold writeCapIn
  split
  · rw [ctxOf_dropView]
  · rw [ctxOf_onCtx_other _ _ _ _ h, ctxOf_dropView]

theorem writeIntIn_eq (s : State) (id : CtxId) (n w x : Nat) : writeIntIn s id n w x =
    if n = 0 then s else writeCapIn s id n (Cap.plain (BitVec.ofNat 128 (x % 2 ^ w))) := rfl

theorem ctxOf_writeIntIn_same (s : State) (id : CtxId) (n w x : Nat) :
    ctxOf (writeIntIn s id n w x) id = putReg (ctxOf s id) n (Cap.plain (BitVec.ofNat 128 (x % 2 ^ w))) := by
  rw [writeIntIn_eq]
  split
  next h => rw [h]; rfl
  next h => exact ctxOf_writeCapIn_same _ _ _ _

theorem ctxOf_writeIntIn_other (s : State) (id other : CtxId) (n w x : Nat) (h : other ≠ id) :
    ctxOf (writeIntIn s id n w x) other = ctxOf s other := by
  rw [writeIntIn_eq]
  split
  · rfl
  · exact ctxOf_writeCapIn_other _ _ _ _ _ h

/-- The views that leave a context for a child change its registers alone. -/
theorem onlyRegs_moveViewsIn (s : State) (id : CtxId) (c : Reg) :
    OnlyRegs (ctxOf s id) (ctxOf (moveViewsIn s id c) id) :=
  foldl_keeps (fun t : State => OnlyRegs (ctxOf s id) (ctxOf t id)) _ _ _ rfl fun t n h => by
    split
    · rw [ctxOf_onCtx_same]; exact h.putReg _ _
    · exact h

theorem ctxOf_moveViewsIn_other (s : State) (id other : CtxId) (c : Reg) (h : other ≠ id) :
    ctxOf (moveViewsIn s id c) other = ctxOf s other :=
  foldl_keeps (fun t : State => ctxOf t other = ctxOf s other) _ _ _ rfl fun t n ht => by
    split
    · rw [ctxOf_onCtx_other _ _ _ _ h]; exact ht
    · exact ht

theorem OnlyRegs.code {x y : Context} (h : OnlyRegs x y) : y.code = x.code := by rw [h]
theorem OnlyRegs.calls {x y : Context} (h : OnlyRegs x y) : y.calls = x.calls := by rw [h]

theorem wrap80_nat (n : Nat) : wrap 80 (n : Int) = n % 2 ^ 80 := by
  have := cast_wrap80 n
  omega

theorem ctxOf_placeContext_other (s : State) (t : Team) (kind : CtxKind) (id other : CtxId) (code : Cap) (args : List Cap)
    (c5 c6 : Nat) (h : other ≠ id) : ctxOf (placeContext s t kind id code args c5 c6) other = ctxOf s other := by
  unfold placeContext
  dsimp only
  rw [ctxOf_onCore _ _ _ _ rfl, ctxOf_setCtx_other _ _ _ _ h]
  rfl

theorem ctxOf_takeAnswer_other (s : State) (id other : CtxId) (v : Nat) (dst args : Reg) (h : other ≠ id) :
    ctxOf (takeAnswer s id v dst args) other = ctxOf s other := by
  unfold takeAnswer
  rw [ctxOf_onCtx_other _ _ _ _ h, ctxOf_writeIntIn_other _ _ _ _ _ _ h, ctxOf_moveViewsIn_other _ _ _ _ h]

theorem takeAnswer_goesOn (s : State) (id : CtxId) (v : Nat) (dst args : Reg) :
    let x := ctxOf (takeAnswer s id v dst args) id
    x.wait = .plain ∧ x.code = afterSpawn (ctxOf s id) ∧
      (dst ≠ 0 → regOf x dst.val = Cap.plain (BitVec.ofNat 128 (v % 2 ^ 64))) := by
  intro x
  have hx : x = { putReg (ctxOf (moveViewsIn s id args) id) dst.val (Cap.plain (BitVec.ofNat 128 (v % 2 ^ 64))) with
      code := afterSpawn (ctxOf s id), wait := .plain } := by
    have hc := ((onlyRegs_moveViewsIn s id args).putReg dst.val (Cap.plain (BitVec.ofNat 128 (v % 2 ^ 64)))).code
    simp only [x, takeAnswer, afterSpawn]
    rw [ctxOf_onCtx_same, ctxOf_writeIntIn_same, hc]
    rw [show ((capAddr (ctxOf s id).code : Int) + 12) = ((capAddr (ctxOf s id).code + 12 : Nat) : Int) by omega, wrap80_nat]
  rw [hx]
  exact ⟨rfl, rfl, fun h => regOf_putReg_same _ _ _ fun e => h (Fin.ext e)⟩

theorem runInline_child (u : State) (caller : CtxId) (code : Cap) (args : List Cap) (dst from' : Reg) :
    let x := ctxOf (runInline u caller code args dst from') caller
    x.code = code ∧ x.calls = ⟨afterSpawn (ctxOf u caller), dst⟩ :: (ctxOf u caller).calls ∧ x.wait = .plain ∧
      ∀ i < 4, regOf x (i + 1) = args.getD i Cap.null := by
  intro x
  have hm := onlyRegs_moveViewsIn u caller from'
  generalize hy : ctxOf (moveViewsIn u caller from') caller = y at hm
  have hx : x = (fun z : Context => { z with
      code := code, calls := ⟨withCursor z.code (wrap 80 (capAddr z.code + 12)), dst⟩ :: z.calls, wait := .plain })
      (putReg (putReg (putReg (putReg y 1 (args.getD 0 Cap.null)) 2 (args.getD 1 Cap.null)) 3 (args.getD 2 Cap.null)) 4
        (args.getD 3 Cap.null)) := by
    simp only [x, runInline, upFrom, List.foldl_cons, List.foldl_nil]
    rw [ctxOf_onCtx_same, ctxOf_writeCapIn_same, ctxOf_writeCapIn_same, ctxOf_writeCapIn_same, ctxOf_writeCapIn_same, hy]
  have hz := hm.putReg 1 (args.getD 0 Cap.null) |>.putReg 2 (args.getD 1 Cap.null) |>.putReg 3 (args.getD 2 Cap.null)
    |>.putReg 4 (args.getD 3 Cap.null)
  rw [hx]
  refine ⟨rfl, ?_, rfl, fun i hi => ?_⟩
  · dsimp only
    rw [hz.code, hz.calls, show ((capAddr (ctxOf u caller).code : Int) + 12) =
      ((capAddr (ctxOf u caller).code + 12 : Nat) : Int) by omega, wrap80_nat]
    rfl
  · show regOf (putReg _ _ _) (i + 1) = _
    match i, hi with
    | 0, _ =>
      rw [regOf_putReg_other _ _ _ _ (by omega), regOf_putReg_other _ _ _ _ (by omega),
        regOf_putReg_other _ _ _ _ (by omega), regOf_putReg_same _ _ _ (by omega)]
    | 1, _ =>
      rw [regOf_putReg_other _ _ _ _ (by omega), regOf_putReg_other _ _ _ _ (by omega),
        regOf_putReg_same _ _ _ (by omega)]
    | 2, _ => rw [regOf_putReg_other _ _ _ _ (by omega), regOf_putReg_same _ _ _ (by omega)]
    | 3, _ => rw [regOf_putReg_same _ _ _ (by omega)]

theorem placeChild_child (core slot : Nat) (u : State) (t : Team) (r : SpawnReq) (caller : CtxId) (dst args : Reg)
    (h : caller ≠ ⟨core, slot⟩) : ∃ y : Context, ∃ uid birth now,
      ctxOf (placeChild u t core slot r caller dst args) ⟨core, slot⟩ = { y with fetchSince := now, readyAt := now } ∧
      y = newContext t .spawned uid r.code r.args (r.sender.core * 16 + r.sender.slot) 0 ⟨core, slot⟩ birth := by
  unfold placeChild
  dsimp only
  rw [ctxOf_takeAnswer_other _ _ _ _ _ _ h.symm, ctxOf_onCtx_same, ctxOf_placeContext]
  exact ⟨_, _, _, _, rfl, rfl⟩

theorem placeChild_state (core slot : Nat) (u : State) (t : Team) (r : SpawnReq) (caller : CtxId) (dst args : Reg)
    (h : caller ≠ ⟨core, slot⟩) :
    let x := ctxOf (placeChild u t core slot r caller dst args) ⟨core, slot⟩
    x.status = .live ∧ x.kind = .spawned ∧ x.code = r.code ∧ x.wait = .none ∧ x.pin = .none ∧ x.nv = t.nv ∧ x.ne = t.ne ∧
      (∀ i < 4, regOf x (i + 1) = r.args.getD i Cap.null) ∧
      regOf x 5 = Cap.plain (BitVec.ofNat 128 (r.sender.core * 16 + r.sender.slot)) ∧
      (∀ i, 7 ≤ i → i < 64 → regOf x i = Cap.null) := by
  intro x
  obtain ⟨y, uid, birth, now, hx, hy⟩ := placeChild_child core slot u t r caller dst args h
  obtain ⟨hargs, h5, -, hrest⟩ := regOf_newContext t .spawned uid r.code r.args (r.sender.core * 16 + r.sender.slot) 0
    ⟨core, slot⟩ birth
  have hbare := onlyRegs_newContext t .spawned uid r.code r.args (r.sender.core * 16 + r.sender.slot) 0 ⟨core, slot⟩ birth
  rw [← hy] at hargs h5 hrest hbare
  have hreg (n : Nat) : regOf x n = regOf y n := by simp only [x]; rw [hx]; rfl
  refine ⟨?_, ?_, ?_, ?_, ?_, ?_, ?_, fun i hi => (hreg _).trans (hargs i hi), (hreg _).trans h5,
    fun i hi _ => (hreg _).trans (hrest i hi)⟩
  all_goals simp only [x]; rw [hx, hbare]; rfl

theorem placeChild_caller (core slot : Nat) (u : State) (t : Team) (r : SpawnReq) (caller : CtxId) (dst args : Reg)
    (hs : slot < 11) (h : caller ≠ ⟨core, slot⟩) :
    let x := ctxOf (placeChild u t core slot r caller dst args) caller
    x.wait = .plain ∧ x.code = afterSpawn (ctxOf u caller) ∧
      (dst ≠ 0 → regOf x dst.val = Cap.plain (BitVec.ofNat 128 (2 * slot))) := by
  unfold placeChild
  have := takeAnswer_goesOn (onCtx (placeContext u t .spawned ⟨core, slot⟩ r.code r.args
    (r.sender.core * 16 + r.sender.slot) 0) ⟨core, slot⟩ fun x => { x with
      fetchSince := (coreOf (placeContext u t .spawned ⟨core, slot⟩ r.code r.args
        (r.sender.core * 16 + r.sender.slot) 0) core).cycle
      readyAt := (coreOf (placeContext u t .spawned ⟨core, slot⟩ r.code r.args
        (r.sender.core * 16 + r.sender.slot) 0) core).cycle }) caller (2 * slot) dst args
  rw [ctxOf_onCtx_other _ _ _ _ h, ctxOf_placeContext_other _ _ _ _ _ _ _ _ _ h,
    Nat.mod_eq_of_lt (show 2 * slot < 2 ^ 64 by omega)] at this
  exact this

theorem spawnArrivals : Claims.SpawnArrivals := by
  refine ⟨lowestFree_iff, fun core s u r caller dst args h => ?_, fun core slot u t r caller dst args hs hc => ?_,
    fun u caller r dst args => runInline_child u caller r.code r.args dst args⟩
  · rw [spawnArrival_taken h]
    obtain ⟨-, -, hc, n, hw⟩ := h
    rw [answerSpawn_waiting hc hw]
    refine ⟨fun slot t hl ht => ?_, fun hl hd => ?_, fun hl hd => ?_⟩
    · simp only [hl, ht]
    · simp only [hl]
      unfold callChild
      rw [if_neg (by omega)]
    · simp only [hl]
      unfold callChild
      rw [if_pos hd]
  · obtain ⟨h1, h2, h3, h4, h5, h6, h7, h8, h9, h10⟩ := placeChild_state core slot u t r caller dst args hc
    exact ⟨h1, h2, h3, h4, h5, h6, h7, h8, h9, h10, placeChild_caller core slot u t r caller dst args hs hc⟩

/-- Settles O36: `halt` by what runs, `spawn` by its target, and the arrival of a request by what its core has free. -/
theorem haltsAndSpawns : Obligations.HaltsAndSpawns := ⟨halts, remoteSpawn, spawnArrivals⟩

end Sys2Proof.Machine
end

section
namespace Sys2Proof.Machine
open Sys2Proof.Claims

/-! ### Two updates of one place -/

theorem put_put {α : Type} (m : SMap α) (k : Nat) (v w : α) : put (put m k v) k w = put m k w := by
  induction m with
  | nil => simp [put]
  | cons p rest ih =>
    obtain ⟨j, x⟩ := p
    by_cases h1 : j = k
    · simp [put, h1]
    · by_cases h2 : j < k
      · simp [put, h1, h2, ih]
      · simp [put, h1, h2]

theorem mem_of_look {α : Type} {m : SMap α} {k : Nat} {v : α} (h : look m k = some v) : (k, v) ∈ m := by
  induction m with
  | nil => cases h
  | cons p rest ih =>
    obtain ⟨j, x⟩ := p
    unfold look at h
    split at h
    next hj => cases h; rw [hj]; exact List.mem_cons_self
    next hj => exact List.mem_cons_of_mem _ (ih h)

/-- An update that is no different for a test leaves what the test says of a map. -/
theorem any_put {α : Type} (m : SMap α) (k : Nat) (v : α) (p : Nat × α → Bool)
    (h : ∀ w, look m k = some w → p (k, w) = p (k, v)) (h' : look m k = none → p (k, v) = false) :
    (put m k v).any p = m.any p := by
  have absorbed (l : SMap α) (hl : ∀ w, look l k = some w → p (k, w) = p (k, v)) (hl' : look l k = none → p (k, v) = false) :
      (p (k, v) || l.any p) = l.any p := by
    cases hk : look l k with
    | none => rw [hl' hk, Bool.false_or]
    | some w =>
      cases hv : p (k, v) with
      | false => rfl
      | true => exact (List.any_eq_true.2 ⟨_, mem_of_look hk, by rw [hl w hk, hv]⟩).symm
  induction m with
  | nil => simpa [put] using h' rfl
  | cons q rest ih =>
    obtain ⟨j, x⟩ := q
    by_cases hj : j = k
    · subst hj
      simp [put, h x (by simp [look])]
    · have hlook : look ((j, x) :: rest) k = look rest k := if_neg hj
      rw [hlook] at h h'
      by_cases hlt : j < k
      · simp only [put, if_neg hj, if_pos hlt, List.any_cons, ih h h']
      · have := absorbed _ (by rw [hlook]; exact h) (by rw [hlook]; exact h')
        simpa only [put, if_neg hj, if_neg hlt, List.any_cons] using this

theorem setCore_setCore (s : State) (c : Nat) (k l : Core) : setCore (setCore s c k) c l = setCore s c l := by
  unfold setCore
  dsimp only
  rw [put_put]

theorem onCore_onCore (s : State) (c : Nat) (f g : Core → Core) : onCore (onCore s c f) c g = onCore s c fun k => g (f k) := by
  unfold onCore
  rw [setCore_setCore]
  congr 2
  exact coreOf_onCore_same s c f

theorem onCtx_onCtx (s : State) (id : CtxId) (f g : Context → Context) :
    onCtx (onCtx s id f) id g = onCtx s id fun x => g (f x) := by
  unfold onCtx setCtx
  rw [onCore_onCore]
  have h := ctxOf_setCtx_same s id (f (ctxOf s id))
  unfold setCtx at h
  simp only [put_put, h]

/-! ### Software traps, ifence and fast handlers (R246, R247, R249) -/

theorem channels_atReset (c : Nat) : (Core.atReset c).channels = [] := by
  unfold Core.atReset
  split <;> rfl

/-- What a context does leaves the transfers under way. -/
theorem transferLive_onCtx (s : State) (id : CtxId) (f : Context → Context) (n : Nat) :
    transferLive (onCtx s id f) n = transferLive s n := by
  have hc : (onCtx s id f).cores = put s.cores id.core
      { coreOf s id.core with slots := put (coreOf s id.core).slots id.slot (f (ctxOf s id)) } := rfl
  unfold transferLive
  rw [hc]
  refine any_put _ _ _ _ (fun w hw => ?_) fun hn => ?_
  · simp [coreOf, hw]
  · simp [coreOf, hn, channels_atReset]

theorem waitOver_ifence {s : State} {id : CtxId} (hw : (ctxOf s id).wait = .ifence) :
    waitOver s id = !(ctxOf s id).transfers.any fun t => transferLive s t.2 := by
  unfold waitOver
  simp only [hw]

theorem operationComplete_ifence {core slot : Nat} {s : State} (hl : (ctxOf s ⟨core, slot⟩).status = .live)
    (hw : (ctxOf s ⟨core, slot⟩).wait = .ifence) (ht : ∀ t ∈ (ctxOf s ⟨core, slot⟩).transfers, transferLive s t.2 = false) :
    exec (.operationComplete core slot) s = .next (finishIfence s ⟨core, slot⟩) := by
  have ho : waitOver s ⟨core, slot⟩ = true := by
    rw [waitOver_ifence hw]
    simpa using fun a b h => ht (a, b) h
  show execOperationComplete core slot s = _
  unfold execOperationComplete
  dsimp only
  rw [if_pos hl, if_pos ho, hw]

theorem hretBody_home {s : State} {back : Cap} (h : returnPoint (me s).handler = some back) :
    hretBody 0 s = .ok ((), onMe s fun x => { x with
      code := back, handler := .none, emptied := false, refilled := if x.emptied then none else refilledBy x }) := by
  unfold hretBody
  rw [act_get_bind]
  simp only [h]
  rfl

theorem hretBody_to {s : State} {b : Reg} (hb : b ≠ 0) (h : (me s).handler.active = true) (hj : JumpTarget (reg s b)) :
    hretBody b s = .ok ((), onMe s fun x => { x with code := reg s b, handler := .none, emptied := false }) := by
  have hb' : b.val ≠ 0 := fun e => hb (Fin.ext e)
  unfold hretBody
  rw [act_get_bind]
  cases hh : (me s).handler with
  | none => rw [hh] at h; cases h
  | refill key back =>
    simp only [returnPoint]
    rw [if_neg hb', act_bind_ok _ _ _ _ _ (checkCode_ok hj)]
    rfl
  | upcall back =>
    simp only [returnPoint]
    rw [if_neg hb', act_bind_ok _ _ _ _ _ (checkCode_ok hj)]
    rfl

theorem onCtx_congr {s : State} {id : CtxId} {f g : Context → Context} (h : f (ctxOf s id) = g (ctxOf s id)) :
    onCtx s id f = onCtx s id g := by
  unfold onCtx
  rw [h]

theorem onMe_congr {s : State} {f g : Context → Context} (h : f (me s) = g (me s)) : onMe s f = onMe s g := onCtx_congr h

theorem coreOf_onMe (s : State) (f : Context → Context) (c : Nat) :
    coreOf (onMe s f) c = { coreOf s c with slots := (coreOf (onMe s f) c).slots } := coreOf_onCtx s _ f c

/-- An `ifence` whose wait is over has gone on from where it issued. -/
theorem finishIfence_heldOn (s : State) : finishIfence (heldOn .ifence s) (who s) = onMe s fun x => { x with
    wait := .none, holding := false, fetchSince := (myCore s).cycle, copies := []
    code := withCursor x.code ((capAddr x.code + 4) % 2 ^ 80) } := by
  have hcode : ((capAddr (me s).code : Int) + 4) = ((capAddr (me s).code + 4 : Nat) : Int) := by omega
  unfold finishIfence heldOn
  rw [coreOf_onMe]
  unfold onMe
  rw [onCtx_onCtx]
  refine onCtx_congr ?_
  show ({ awake _ _ with copies := _, code := withCursor (me s).code (wrap 80 ((capAddr (me s).code : Int) + 4)) } : Context) = _
  rw [hcode, wrap80_nat]
  rfl

theorem trapsAndHandlers : Claims.TrapsAndHandlers := by
  intro b n m s
  refine ⟨rfl, rfl, rfl, fun hl ht => ?_, fun key back hh => ?_, fun back hh => ?_, fun hb hh hj => ?_⟩
  · have hw : who (heldOn .ifence s) = who s := who_onMe _ _
    have hx : ctxOf (heldOn .ifence s) (who s) = { me s with wait := .ifence, holding := false } :=
      ctxOf_onCtx_same s (who s) _
    rw [operationComplete_ifence (by rw [hx]; exact hl) (by rw [hx]) (by
      rw [hx]
      intro t hm
      exact (transferLive_onCtx _ _ _ _).trans (ht t hm))]
    exact congrArg _ (finishIfence_heldOn s)
  · refine finish_ok _ _ _ ((hretBody_home (back := back) (by rw [hh]; rfl)).trans ?_)
    refine congrArg (fun t => Except.ok ((), t)) (onMe_congr ?_)
    simp only [refilledBy, hh]
  · refine finish_ok _ _ _ ((hretBody_home (back := back) (by rw [hh]; rfl)).trans ?_)
    refine congrArg (fun t => Except.ok ((), t)) (onMe_congr ?_)
    simp only [refilledBy, hh]
  · exact finish_ok _ _ _ (hretBody_to hb hh hj)

theorem requirePrivilege_trap {n : Nat} {s : State} (h : privileged s = false) :
    requirePrivilege n s = .error (.trap ⟨causePrivilege, n, 0⟩) := by
  unfold requirePrivilege
  rw [act_get_bind]
  exact require_trap h

theorem privilegeFaults : Claims.PrivilegeFaults := by
  intro a b c d evict s h
  refine ⟨quick_trap _ _ _ _ (act_bind_error _ _ _ _ (requirePrivilege_trap h)),
    slow_trap _ _ _ _ (act_bind_error _ _ _ _ (requirePrivilege_trap h)),
    slow_trap _ _ _ _ (act_bind_error _ _ _ _ (requirePrivilege_trap h)), fun sr hsr => quick_trap _ _ _ _ ?_⟩
  unfold swrBody
  rw [act_get_bind, require_bind_trap]
  rcases hsr with h' | h' | h' | h' <;> rw [h', h] <;> rfl

/-- Settles O38: the outcome of each instruction, and its fault without the privilege. -/
theorem softwareTraps : Obligations.SoftwareTraps := ⟨trapsAndHandlers, privilegeFaults⟩

end Sys2Proof.Machine
end

section
namespace Sys2Proof.Machine
open Sys2Proof.Claims

/-! ### Taking a trap (R241) -/

theorem ctxOf_postArrival (s : State) (core source : Nat) (a : Arrival) (id : CtxId) :
    ctxOf (postArrival s core source a) id = ctxOf s id := ctxOf_onCore _ _ _ _ rfl

theorem ctxOf_leaveHeld (s : State) (core slot : Nat) (id : CtxId) :
    ctxOf (onCore s core (leaveHeld slot)) id = ctxOf s id := ctxOf_onCore _ _ _ _ rfl

theorem deliverTrapTo_user {t : Trap} {s : State} {core slot : Nat} (h : slot ≠ 11) :
    deliverTrapTo t s ⟨core, slot⟩ = userTrap t s ⟨core, slot⟩ := if_neg h

theorem deliverTrapTo_system (t : Trap) (s : State) (core : Nat) :
    deliverTrapTo t s ⟨core, 11⟩ = systemTrap t s core := if_pos rfl

theorem ctxOf_userTrap_same (t : Trap) (s : State) (id : CtxId) : ctxOf (userTrap t s id) id =
    { setTrapRegs t (ctxOf s id) with status := .trapped, wait := .none, holding := false } := by
  unfold userTrap
  dsimp only
  rw [ctxOf_postArrival, ctxOf_leaveHeld, ctxOf_onCtx_same]

theorem ctxOf_userTrap_other (t : Trap) (s : State) (id other : CtxId) (h : other ≠ id) :
    ctxOf (userTrap t s id) other = ctxOf s other := by
  unfold userTrap
  dsimp only
  rw [ctxOf_postArrival, ctxOf_leaveHeld, ctxOf_onCtx_other _ _ _ _ h]

theorem inbox_userTrap (t : Trap) (s : State) (core slot : Nat) :
    (coreOf (userTrap t s ⟨core, slot⟩) core).inbox = insertPosted core
      ⟨(coreOf s core).cycle, core, .notice slot t.cause (capAddr (ctxOf s ⟨core, slot⟩).code) t.info⟩
      (coreOf s core).inbox := by
  unfold userTrap postArrival
  dsimp only
  rw [coreOf_onCore_same, coreOf_onCore_same, coreOf_onCtx]
  rfl

theorem systemTrap_first {t : Trap} {s : State} {c : Nat} (h : (coreOf s c).trapOpen = false) :
    systemTrap t s c = onCore (onCore (onCtx s ⟨c, 11⟩ fun x =>
      { setTrapRegs t x with code := Config.trapEntry, wait := .none, holding := false }) c (leaveHeld 11)) c
        fun k => { k with trapOpen := true } := by
  unfold systemTrap
  dsimp only
  rw [h]
  rfl

theorem ctxOf_systemTrap_first {t : Trap} {s : State} {c : Nat} (h : (coreOf s c).trapOpen = false) :
    ctxOf (systemTrap t s c) ⟨c, 11⟩ =
      { setTrapRegs t (ctxOf s ⟨c, 11⟩) with code := Config.trapEntry, wait := .none, holding := false } := by
  rw [systemTrap_first h, ctxOf_onCore _ _ _ _ rfl, ctxOf_leaveHeld, ctxOf_onCtx_same]

theorem coreOf_systemTrap_first {t : Trap} {s : State} {c : Nat} (h : (coreOf s c).trapOpen = false) :
    (coreOf (systemTrap t s c) c).trapOpen = true ∧ (coreOf (systemTrap t s c) c).run = (coreOf s c).run := by
  rw [systemTrap_first h, coreOf_onCore_same, coreOf_onCore_same, coreOf_onCtx]
  exact ⟨rfl, rfl⟩

theorem systemTrap_again {t : Trap} {s : State} {c f : Nat} (h : (coreOf s c).trapOpen = true)
    (hf : partitionOf s c = some f) : ∃ v, systemTrap t s c = partitionReset (restartFirmware v c) f 3 0 0 true false := by
  unfold systemTrap
  dsimp only
  rw [if_pos h]
  simp only [hf]
  exact ⟨_, rfl⟩

theorem coreOf_restartFirmware (s : State) (c : Nat) : let k := coreOf (restartFirmware s c) c
    k.trapOpen = false ∧ k.run = .idle ∧ look k.slots 11 = some (Context.systemAtReset c) := by
  intro k
  simp only [k, restartFirmware]
  rw [coreOf_onCore_same]
  exact ⟨rfl, rfl, look_put_same _ _ _⟩

/-- Settles O4: a user context is trapped with a notice, the system context enters its trap entry or starts again. -/
theorem trapEntry : Obligations.TrapEntry := by
  intro cause info rights s
  refine ⟨fun core slot hs => ?_, fun core ho => ?_, fun core f ho hf => ?_⟩
  · dsimp only
    rw [deliverTrapTo_user hs]
    exact ⟨ctxOf_userTrap_same _ _ _, inbox_userTrap _ _ _ _, fun other h => ctxOf_userTrap_other _ _ _ _ h, rfl⟩
  · dsimp only
    rw [deliverTrapTo_system, ctxOf_systemTrap_first ho]
    obtain ⟨h1, h2⟩ := coreOf_systemTrap_first (t := ⟨cause, info, rights⟩) ho
    exact ⟨rfl, rfl, rfl, rfl, h1, h2, by rw [systemTrap_first ho]; rfl⟩
  · rw [deliverTrapTo_system]
    obtain ⟨v, hv⟩ := systemTrap_again (t := ⟨cause, info, rights⟩) ho hf
    exact ⟨_, hv, coreOf_restartFirmware v core⟩

/-! ### Special registers (R74 to R80, R248) -/

theorem exec_srd (a sr : Reg) (s : State) : exec (.srd a sr) s = .next (advance 4 (writeInt a 128 (readSpecial s sr.val) s)) :=
  rfl

theorem srd_reads {a sr : Reg} {s : State} {v : Nat} (h : readSpecial s sr.val = v) :
    exec (.srd a sr) s = .next (advance 4 (writeInt a 128 v s)) := by rw [exec_srd, h]

theorem readSpecial_rows (s : State) : ∀ r ∈ specialRows s, readSpecial s r.1 = r.2 := by
  unfold specialRows
  simp only [List.mem_cons, List.not_mem_nil, or_false, forall_eq_or_imp, forall_eq]
  exact ⟨rfl, rfl, rfl, rfl, rfl, rfl, rfl, rfl, rfl, rfl, rfl, rfl, rfl, rfl⟩

theorem readSpecial_pointer (s : State) (ch : Fin 4) : readSpecial s (0x18 + ch.val) = pointerOf (myCore s) ch.val := by
  have h (n : Nat) : ((look (myCore s).channels n).map (·.wp)).getD 0 = pointerOf (myCore s) n := by
    unfold pointerOf
    cases look (myCore s).channels n <;> rfl
  match ch with
  | 0 => exact h 0
  | 1 => exact h 1
  | 2 => exact h 2
  | 3 => exact h 3

theorem readSpecial_fwd (s : State) :
    readSpecial s 0x1C = if (who s).slot = 11 then 0 else (fwdOf (myCore s) (who s).slot).toNat := rfl

theorem readSpecial_team {s : State} {t : Team} (h : teamOf s (who s) = some t) : readSpecial s 0x0D = t.ident.toNat := by
  show ((teamOf s (who s)).map (·.ident.toNat)).getD 0 = _
  rw [h]
  rfl

theorem quadOf_main {core : Nat} (h : isBasecamp core = false) : quadOf core = core / 4 % 36 := by simp [quadOf, h]
theorem quadOf_basecamp {core : Nat} (h : isBasecamp core = true) : quadOf core = 0x3F := by simp [quadOf, h]
theorem dieOf_main {core : Nat} (h : isBasecamp core = false) : dieOf core = core / 144 := by simp [dieOf, h]
theorem dieOf_basecamp {core : Nat} (h : isBasecamp core = true) : dieOf core = (core - 1152) / 64 := by simp [dieOf, h]

theorem swr_writes {sr b : Reg} {s t : State} (hw : writerOf sr.val = .anyone ∨ privileged s = true)
    (h : writeSpecial s sr.val (reg s b).bits.toNat = some t) : exec (.swr sr b) s = .next (advance 4 t) := by
  refine quick_ok _ _ _ _ ?_
  unfold swrBody
  rw [act_get_bind, require_bind_ok]
  · simp only [h]; rfl
  · rcases hw with hw | hw <;> simp [hw]

theorem swr_refused {sr b : Reg} {s : State} (hp : privileged s = true)
    (h : writeSpecial s sr.val (reg s b).bits.toNat = none) :
    exec (.swr sr b) s = .next (deliverTrap ⟨causeIllegal, Instr.firstWord (.swr sr b), 0⟩ s) := by
  refine quick_trap _ _ _ _ ?_
  unfold swrBody
  rw [act_get_bind, require_bind_ok _ (by simp [hp])]
  simp only [h]
  rfl

theorem reg64_toNat (s : State) (b : Reg) : (reg64 s b).toNat = (reg s b).bits.toNat % 2 ^ 64 := BitVec.toNat_setWidth ..

/-- The low half of a special register's new value. -/
theorem writeSpecial_low (s : State) (b : Reg) : (reg s b).bits.toNat % 2 ^ 64 = (reg64 s b).toNat := (reg64_toNat s b).symm

theorem writeSpecial_round {s : State} {x : Nat} (h : x % 2 ^ 64 < 32) (h' : x % 2 ^ 64 % 8 ≠ 7) :
    writeSpecial s 0x00 x = some (onMe s fun c => { c with round := BitVec.ofNat 5 (x % 2 ^ 64) }) := by
  unfold writeSpecial
  exact if_neg (by omega)

theorem writeSpecial_covmode {s : State} {x : Nat} (h : x % 2 ^ 64 < 16) :
    writeSpecial s 0x01 x = some (onMe s fun c => { c with covmode := BitVec.ofNat 4 (x % 2 ^ 64) }) := by
  unfold writeSpecial
  exact if_neg (by omega)

theorem writeSpecial_cause {s : State} {x : Nat} (h : x % 2 ^ 64 % 256 ≤ 0x17) :
    writeSpecial s 0x10 x = some (onMe s fun c => { c with trapcause := BitVec.ofNat 8 (x % 2 ^ 64) }) := by
  unfold writeSpecial
  exact if_neg (by omega)

theorem writeSpecial_cause_none {s : State} {x : Nat} (h : 0x17 < x % 2 ^ 64 % 256) : writeSpecial s 0x10 x = none := by
  unfold writeSpecial
  exact if_pos h

theorem writeSpecial_fwd {s : State} {slot v x : Nat} (hs : slot < 11) (hv : v < 2 ^ 65) (hx : x = v + slot * 2 ^ 68)
    (hf : slotFree (myCore s) slot = true) : writeSpecial s 0x1C x =
      some (onCore s (who s).core (setFwd slot (BitVec.ofNat 65 v))) := by
  have h1 : field x 71 68 = slot := by unfold field; omega
  have h2 : field x 127 72 = 0 := by unfold field; omega
  have h3 : field x 67 65 = 0 := by unfold field; omega
  have h4 : BitVec.ofNat 65 x = BitVec.ofNat 65 v := by
    apply BitVec.eq_of_toNat_eq
    rw [BitVec.toNat_ofNat, BitVec.toNat_ofNat]
    omega
  simp only [writeSpecial, h1, h2, h3, h4, hf]
  exact if_neg (by simp; omega)

/-- Settles O6: each register by the case of the model's table that reads or writes it. -/
theorem specialRegisters : Obligations.SpecialRegisters := by
  intro a b s
  refine ⟨fun r hr sr h => srd_reads (by rw [h]; exact readSpecial_rows s r hr),
    fun ch sr h => srd_reads (by rw [h]; exact readSpecial_pointer s ch),
    fun h => srd_reads ((readSpecial_fwd s).trans (if_neg h)), fun h => srd_reads ((readSpecial_fwd s).trans (if_pos h)),
    fun t ht => srd_reads (readSpecial_team ht), fun h => ⟨srd_reads (quadOf_main h), srd_reads (dieOf_main h)⟩,
    fun h => ⟨srd_reads (quadOf_basecamp h), srd_reads (dieOf_basecamp h)⟩, ?_⟩
  rw [← writeSpecial_low]
  refine ⟨fun h h' => swr_writes (.inl rfl) (writeSpecial_round h h'),
    fun h => swr_writes (.inl rfl) (writeSpecial_covmode h), swr_writes (.inl rfl) rfl, fun hp =>
    ⟨fun h => swr_writes (.inr hp) (writeSpecial_cause h), fun h => swr_refused hp (writeSpecial_cause_none h),
      swr_writes (.inr hp) rfl, swr_writes (.inr hp) ?_, fun slot v hs hv hx hf => swr_writes (.inr hp) (writeSpecial_fwd hs hv hx hf)⟩⟩
  show some (onMe s fun c => { c with trapinfo := BitVec.ofNat 64 ((reg s b).bits.toNat % 2 ^ 64) }) = _
  rw [writeSpecial_low, BitVec.ofNat_toNat, BitVec.setWidth_eq]

end Sys2Proof.Machine
end

section
namespace Sys2Proof.Machine
open Sys2Proof.Claims

/-! ### The control word of `eret` (R244) -/

theorem controlWord_fields {slot : Nat} (skip upc fin : Bool) (h : slot < 16) :
    let w := controlWord slot skip upc fin
    field w 3 0 = slot ∧ bit w 4 = skip ∧ bit w 5 = upc ∧ bit w 6 = fin ∧ field w 63 7 = 0 := by
  intro w
  unfold w controlWord field bit
  cases skip <;> cases upc <;> cases fin <;> simp <;> omega

/-- What `eret` comes to under a control word that is well formed. -/
theorem eretBody_controlled {slot : Nat} {skip upc fin : Bool} {s : State} (hs : slot ≤ 11)
    (h1 : ¬ (fin = true ∧ upc = true)) (h2 : slot = 11 → fin = false ∧ upc = false) :
    eretBody (controlWord slot skip upc fin) s =
      (if slot = 11 then eretSystem skip else eretUser ⟨(who s).core, slot⟩ fin upc skip : Act Unit) s := by
  obtain ⟨f1, f2, f3, f4, f5⟩ := controlWord_fields skip upc fin (show slot < 16 by omega)
  unfold eretBody
  rw [act_get_bind]
  simp only [f1, f2, f3, f4, f5]
  rw [require_bind_ok]
  simp only [beq_self_eq_true, Bool.true_and, Bool.and_eq_true, Bool.not_eq_true', Bool.and_eq_false_iff,
    Bool.or_eq_false_iff, decide_eq_true_eq]
  refine ⟨⟨?_, ?_⟩, hs⟩
  · cases fin <;> cases upc <;> simp at h1 ⊢
  · by_cases h : slot = 11
    · exact .inr (h2 h)
    · exact .inl (beq_eq_false_iff_ne.2 h)

theorem eretInstr_privileged {b : Reg} {s : State} (h : privileged s = true) :
    eretInstr b s = eretBody (reg64 s b).toNat s := by
  unfold eretInstr requirePrivilege
  rw [act_bind_ok _ _ s s () (by rw [act_get_bind, require_ok h]), act_get_bind]

/-! ### Where a trap returns -/

theorem trapReturn_passes {s t : State} {id : CtxId} {skip : Bool} {n : Nat} (h : PassesTrap s id skip n t) :
    trapReturn id skip s = .ok ((ctxOf s id).trappc.toNat + n, t) := by
  unfold PassesTrap at h
  unfold trapReturn
  rw [act_get_bind]
  cases skip with
  | false =>
    obtain ⟨rfl, rfl⟩ := h
    rfl
  | true =>
    rw [if_pos rfl] at h ⊢
    rw [act_bind_ok _ _ _ _ _ h]
    rfl

theorem onBehalf_ok {α : Type} {f dom : Nat} {m : Act α} {s t : State} {a : α} (h : m s = .ok (a, t)) :
    onBehalf f dom m s = .ok (a, t) := by
  unfold onBehalf
  rw [h]

theorem resumeCode_passes {s t : State} {id : CtxId} {skip : Bool} {n : Nat} (hm : MayReturn (ctxOf s id) skip)
    (h : PassesTrap s id skip n t) : resumeCode id skip s = .ok (resumesAt (ctxOf s id) n, t) := by
  unfold resumeCode resumesAt
  rw [act_get_bind]
  by_cases hst : (ctxOf s id).status = .stopped
  · have hskip : skip = false := by
      rcases hm.1 with ht | ⟨-, hs⟩
      · rw [ht] at hst; cases hst
      · exact hs
    subst hskip
    obtain ⟨rfl, rfl⟩ := h
    rw [if_pos hst, if_pos hst]
    rfl
  · rw [if_neg hst, if_neg hst, act_bind_ok _ _ _ _ _ (trapReturn_passes h)]
    rfl

/-! ### The return of a user context -/

/-- What `eret` does to a user context once its checks have passed. -/
theorem eretUser_checked {id : CtxId} {fin upc skip : Bool} {s : State} (hm : MayReturn (ctxOf s id) skip)
    (hp : (ctxOf s id).preempt = false)
    (hu : upc = true → (ctxOf s id).handler.active = false ∧ ((teamOf s id).bind (·.upcall)).isSome = true) :
    eretUser id fin upc skip s = (if fin then set (endTrapped s id)
      else do
        let code ← onBehalf (partitionOfCtx s id) (domainOfCtx s id) (resumeCode id skip)
        match if upc then (teamOf s id).bind fun t => t.upcall.map fun e => (t, e) else none with
        | some (t, e) =>
          modify fun s' => onCtx (dropShadow s' id 3) id fun y => awake (coreOf s' id.core)
            (enterUpcall t e code [(ctxOf s id).trapcause.toNat, (ctxOf s id).trappc.toNat, (ctxOf s id).trapinfo.toNat]
              (unserved y))
        | none => modify fun s' => resumeUser s' id code : Act Unit) s := by
  obtain ⟨hst, hsk⟩ := hm
  unfold eretUser
  rw [act_get_bind, require_bind_ok, require_bind_ok, require_bind_ok, require_bind_ok, require_bind_ok, hp]
  · rfl
  · cases upc with
    | false => rfl
    | true => simp [(hu rfl).1]
  · cases skip with
    | false => rfl
    | true => simpa using hsk rfl
  · cases upc with
    | false => rfl
    | true =>
      have := (hu rfl).2
      cases h : (teamOf s id).bind (·.upcall) <;> simp [h] at this ⊢
  · cases skip with
    | false => rfl
    | true =>
      rcases hst with h | ⟨-, h⟩
      · simp [h]
      · cases h
  · rcases hst with h | ⟨h, -⟩ <;> simp [h]

theorem resumeUser_denied {s : State} {id : CtxId} {code : Cap} (h : (ctxOf s id).status = .stopped)
    (h' : (ctxOf s id).denied = true) : resumeUser s id code = denyContext s id := if_pos ⟨h, h'⟩

theorem resumeUser_goesOn {s : State} {id : CtxId} {code : Cap}
    (h : ¬ ((ctxOf s id).status = .stopped ∧ (ctxOf s id).denied = true)) :
    resumeUser s id code = onCtx s id (resumed (coreOf s id.core) code) := if_neg h

theorem eretUser_resumes {id : CtxId} {skip : Bool} {s t : State} {n : Nat} (hm : MayReturn (ctxOf s id) skip)
    (hp : (ctxOf s id).preempt = false) (h : PassesTrap s id skip n t) :
    eretUser id false false skip s = .ok ((), resumeUser t id (resumesAt (ctxOf s id) n)) := by
  rw [eretUser_checked hm hp (fun h => by cases h)]
  exact act_bind_ok _ _ _ _ _ (onBehalf_ok (resumeCode_passes hm h))

theorem eretUser_upcall {id : CtxId} {skip : Bool} {s u : State} {n : Nat} {t : Team} {e : Nat}
    (hm : MayReturn (ctxOf s id) skip) (hp : (ctxOf s id).preempt = false) (hh : (ctxOf s id).handler.active = false)
    (ht : teamOf s id = some t) (he : t.upcall = some e) (h : PassesTrap s id skip n u) :
    eretUser id false true skip s = .ok ((), onCtx (dropShadow u id 3) id fun y => awake (coreOf u id.core)
        (enterUpcall t e (resumesAt (ctxOf s id) n)
          [(ctxOf s id).trapcause.toNat, (ctxOf s id).trappc.toNat, (ctxOf s id).trapinfo.toNat]
          { y with ticket := 0, recorded := false, denied := false })) := by
  rw [eretUser_checked hm hp (fun _ => ⟨hh, by rw [ht]; simp [he]⟩)]
  have hte : (teamOf s id).bind (fun t => t.upcall.map fun e => (t, e)) = some (t, e) := by rw [ht]; simp [he]
  refine (act_bind_ok _ _ _ _ _ (onBehalf_ok (resumeCode_passes hm h))).trans ?_
  simp only [if_true, hte]
  rfl

theorem eretUser_ends {id : CtxId} {s : State} (hm : MayReturn (ctxOf s id) false)
    (hp : (ctxOf s id).preempt = false) : eretUser id true false false s = .ok ((), endTrapped s id) :=
  eretUser_checked hm hp (fun h => by cases h)

/-! ### The return of the system context -/

theorem eretSystem_closes {skip : Bool} {s t : State} {n : Nat}
    (hc : skip = true → (me s).trapcause.toNat ≠ causeFetch) (h : PassesTrap s (who s) skip n t) :
    eretSystem skip s = .error (.done (onCore (onMe t fun x =>
      { x with code := withCursor x.code ((me s).trappc.toNat + n) }) (who t).core fun k => { k with trapOpen := false })) := by
  unfold eretSystem
  rw [act_get_bind, require_bind_ok, act_bind_ok _ _ _ _ _ (onBehalf_ok (trapReturn_passes h))]
  · rfl
  · cases skip with
    | false => rfl
    | true => simpa using hc rfl

theorem quick_done (len : Nat) (m : Act Unit) (s t : State) (h : m s = .error (.done t)) : quick len m s = .next t :=
  finish_done _ _ _ (act_bind_error _ _ _ _ h)

/-- Settles O5: the control word leads to the return of a user context or of the system context, in each of its uses. -/
theorem returnFromTrap : Obligations.ReturnFromTrap := by
  intro b s hp
  refine ⟨fun slot skip n t hs hw hm hpre hpass => ?_, fun slot skip n u t e hs hw hm hpre hh ht he hpass => ?_,
    fun slot hs hw hm hpre => ?_, fun skip n t hw hc hpass => ?_⟩
  · have hr : eretInstr b s = .ok ((), resumeUser t ⟨(who s).core, slot⟩ (resumesAt (ctxOf s ⟨(who s).core, slot⟩) n)) := by
      rw [eretInstr_privileged hp, hw, eretBody_controlled (by omega) (by simp) (by simp), if_neg (by omega)]
      exact eretUser_resumes hm hpre hpass
    refine ⟨fun hd => quick_ok _ _ _ _ (hr.trans ?_), fun hst hd => quick_ok _ _ _ _ (hr.trans ?_)⟩
    · rw [resumeUser_goesOn hd]
      rfl
    · have hskip : skip = false := by
        rcases hm.1 with h | ⟨-, h⟩
        · rw [h] at hst; cases hst
        · exact h
      subst hskip
      obtain ⟨rfl, rfl⟩ := hpass
      rw [resumeUser_denied hst hd]
  · refine quick_ok _ _ _ _ ?_
    rw [eretInstr_privileged hp, hw, eretBody_controlled (by omega) (by simp) (by omega), if_neg (by omega)]
    exact eretUser_upcall hm hpre hh ht he hpass
  · refine quick_ok _ _ _ _ ?_
    rw [eretInstr_privileged hp, hw, eretBody_controlled (by omega) (by simp) (by omega), if_neg (by omega)]
    exact eretUser_ends hm hpre
  · refine quick_done _ _ _ _ ?_
    rw [eretInstr_privileged hp, hw, eretBody_controlled (by omega) (by simp) (by simp), if_pos rfl]
    exact eretSystem_closes hc hpass

end Sys2Proof.Machine
end

section
namespace Sys2Proof.Machine
open Sys2Proof.Claims

theorem resetCanonical : Claims.ResetCanonical := ⟨(wf_iff_canonical _).1 reset_wf, wf_iff_canonical⟩

/-- Settles O58: the values at reset are read off the state, and the Bool test of the canonical form is its definition. -/
theorem reset : Obligations.Reset := ⟨resetState, resetCanonical⟩

end Sys2Proof.Machine
end

section
namespace Sys2Proof.Machine.Seal
open Sys2Proof.Claims

/-! ### Lengths in the block cipher -/

theorem length_chunks (n k : Nat) (bs : List Byte) : (chunks n k bs).length = k := by
  induction k generalizing bs with
  | zero => rfl
  | succ k ih => simp [chunks, ih]

/-- Pieces of full length, where the bytes last. -/
theorem length_of_mem_chunks {n k : Nat} {bs b : List Byte} (h : n * k ≤ bs.length) (hb : b ∈ chunks n k bs) :
    b.length = n := by
  induction k generalizing bs with
  | zero => cases hb
  | succ k ih =>
    rw [Nat.mul_succ] at h
    rcases List.mem_cons.1 hb with rfl | hb
    · rw [List.length_take]; omega
    · exact ih (by rw [List.length_drop]; omega) hb

theorem length_xorBytes (a b : List Byte) : (xorBytes a b).length = min a.length b.length := List.length_zipWith

theorem length_nextWord {i : Nat} {rcon : Byte} {ws : List (List Byte)} (h : ∀ w ∈ ws, w.length = 4) (hl : 8 ≤ ws.length) :
    (nextWord i rcon ws).length = 4 := by
  match ws, hl with
  | w0 :: w1 :: w2 :: w3 :: w4 :: w5 :: w6 :: w7 :: rest, _ =>
    have h0 : w0.length = 4 := h w0 (by simp)
    have h7 : w7.length = 4 := h w7 (by simp)
    unfold nextWord
    dsimp only
    rw [length_xorBytes]
    have hw : (w0 :: w1 :: w2 :: w3 :: w4 :: w5 :: w6 :: w7 :: rest).getD 7 [] = w7 := rfl
    rw [hw, h7]
    split
    · simp [length_xorBytes, h0]
    · split <;> simp [h0]

theorem expandFrom_words {n i : Nat} {rcon : Byte} {ws : List (List Byte)} (h : ∀ w ∈ ws, w.length = 4)
    (hl : 8 ≤ ws.length) :
    (∀ w ∈ expandFrom n i rcon ws, w.length = 4) ∧ (expandFrom n i rcon ws).length = n + ws.length := by
  induction n generalizing i rcon ws with
  | zero => exact ⟨h, (Nat.zero_add _).symm⟩
  | succ n ih =>
    have := ih (i := i + 1) (rcon := if i % 8 = 0 then double rcon else rcon) (ws := nextWord i rcon ws :: ws)
      (List.forall_mem_cons.2 ⟨length_nextWord h hl, h⟩) (by rw [List.length_cons]; omega)
    refine ⟨this.1, this.2.trans ?_⟩
    rw [List.length_cons]
    omega

theorem length_flatten_words {ws : List (List Byte)} (h : ∀ w ∈ ws, w.length = 4) : ws.flatten.length = 4 * ws.length := by
  induction ws with
  | nil => rfl
  | cons w rest ih =>
    rw [List.flatten_cons, List.length_append, h w List.mem_cons_self, ih fun x hx => h x (List.mem_cons_of_mem _ hx),
      List.length_cons]
    omega

/-- The key schedule of a 256-bit key: fifteen keys of sixteen bytes. -/
theorem roundKeys_lengths {key : List Byte} (h : key.length = 32) :
    (roundKeys key).length = 15 ∧ ∀ k ∈ roundKeys key, k.length = 16 := by
  have hws : ∀ w ∈ (chunks 4 8 key).reverse, w.length = 4 := fun w hw =>
    length_of_mem_chunks (by omega) (List.mem_reverse.1 hw)
  obtain ⟨h1, h2⟩ := expandFrom_words (n := 52) (i := 8) (rcon := 1) hws (by rw [List.length_reverse, length_chunks])
  refine ⟨length_chunks _ _ _, fun k hk => length_of_mem_chunks ?_ hk⟩
  rw [length_flatten_words fun w hw => h1 w (List.mem_reverse.1 hw), List.length_reverse, h2, List.length_reverse,
    length_chunks]

theorem length_shiftRows (b : List Byte) : (shiftRows b).length = 16 := by simp [shiftRows]

theorem length_rounds {ks : List (List Byte)} (h : ∀ k ∈ ks, k.length = 16) (hne : ks ≠ []) (b : List Byte) :
    (rounds ks b).length = 16 := by
  induction ks generalizing b with
  | nil => exact absurd rfl hne
  | cons k rest ih =>
    cases rest with
    | nil =>
      unfold rounds
      rw [length_xorBytes, length_shiftRows, h k List.mem_cons_self]
      rfl
    | cons k' rest' =>
      unfold rounds
      exact ih (fun x hx => h x (List.mem_cons_of_mem _ hx)) (List.cons_ne_nil _ _) _

theorem length_encryptBlock {key : List Byte} (h : key.length = 32) (b : List Byte) :
    (encryptBlock (roundKeys key) b).length = 16 := by
  obtain ⟨h1, h2⟩ := roundKeys_lengths h
  refine length_rounds (fun k hk => h2 k (List.mem_of_mem_tail hk)) (fun he => ?_) _
  have := congrArg List.length he
  rw [List.length_tail, h1] at this
  cases this

/-! ### The key stream undoes itself -/

theorem xorBytes_self {a k : List Byte} (h : a.length ≤ k.length) : xorBytes (xorBytes a k) k = a := by
  induction a generalizing k with
  | nil => simp [xorBytes]
  | cons x rest ih =>
    cases k with
    | nil => simp at h
    | cons y ks =>
      have : (x ^^^ y) ^^^ y = x := by rw [BitVec.xor_assoc, BitVec.xor_self, BitVec.xor_zero]
      have hr := ih (k := ks) (by simpa using h)
      simp only [xorBytes, List.zipWith_cons_cons] at hr ⊢
      rw [hr, this]

section
variable {keys : List (List Byte)} (hk : ∀ b, (encryptBlock keys b).length = 16)
include hk

theorem length_stream {k n : Nat} {iv text : List Byte} (h : text.length ≤ 16 * k) :
    (stream keys iv n (chunks 16 k text)).length = text.length := by
  induction k generalizing n text with
  | zero => simp [chunks, stream]; omega
  | succ k ih =>
    have hr := ih (n := n + 1) (text := text.drop 16) (by rw [List.length_drop]; omega)
    simp only [chunks, stream, List.length_append, hr, length_xorBytes, hk, List.length_take, List.length_drop]
    omega

theorem stream_stream {k n : Nat} {iv text : List Byte} (h : text.length ≤ 16 * k) :
    stream keys iv n (chunks 16 k (stream keys iv n (chunks 16 k text))) = text := by
  induction k generalizing n text with
  | zero =>
    obtain rfl : text = [] := List.length_eq_zero_iff.1 (by omega)
    rfl
  | succ k ih =>
    have hdrop : (text.drop 16).length ≤ 16 * k := by rw [List.length_drop]; omega
    have hhead : (xorBytes (text.take 16) (encryptBlock keys (counterBlock iv n))).length = min 16 text.length := by
      rw [length_xorBytes, hk, List.length_take]; omega
    have hrest := length_stream hk (n := n + 1) (iv := iv) hdrop
    have hcut : ∀ (a b : List Byte), a.length = min 16 text.length → b.length = (text.drop 16).length →
        (a ++ b).take 16 = a ∧ (a ++ b).drop 16 = b := by
      intro a b ha hb
      rw [List.length_drop] at hb
      by_cases hlt : 16 ≤ text.length
      · exact ⟨List.take_left' (by omega), List.drop_left' (by omega)⟩
      · obtain rfl : b = [] := List.length_eq_zero_iff.1 (by omega)
        rw [List.append_nil]
        exact ⟨List.take_of_length_le (by omega), List.drop_of_length_le (by omega)⟩
    obtain ⟨h1, h2⟩ := hcut _ _ hhead hrest
    simp only [chunks, stream]
    rw [h1, h2, ih hdrop, xorBytes_self (by rw [hk, List.length_take]; omega), List.take_append_drop]

end

theorem length_le_ceilDiv (n : Nat) : n ≤ 16 * ceilDiv n 16 := by unfold ceilDiv; omega

theorem sealOpens : Claims.SealOpens := by
  intro key iv aad text
  have hk := length_encryptBlock (key := bytesOf 32 key.toNat) (length_bytesOf _ _)
  have hl := length_le_ceilDiv text.length
  have hlen : (stream (roundKeys (bytesOf 32 key.toNat)) iv 2 (pieces16 text)).length = text.length := length_stream hk hl
  unfold decrypt encrypt
  dsimp only
  rw [List.take_left' hlen, List.drop_left' hlen, if_pos rfl]
  unfold pieces16 at hlen ⊢
  rw [hlen, stream_stream hk hl]

end Sys2Proof.Machine.Seal

namespace Sys2Proof.Machine
open Sys2Proof.Claims

/-! ### Saving and restoring a context (R250, R426, R436) -/

theorem requirePrivilege_ok {n : Nat} {s : State} (h : privileged s = true) : requirePrivilege n s = .ok ((), s) := by
  unfold requirePrivilege
  rw [act_get_bind]
  exact require_ok h

theorem checked_ok {r : Nat} {o : Option Sub} {s : State} (h : o = none) : checked r o s = .ok ((), s) := by
  rw [h, checked_none]

theorem saveRequest_fields {r : SaveRequest} {s : State} {b : Reg} (h : r.stands s b) :
    let w := (reg s b).bits.toNat
    field w 3 0 = r.slot ∧ field w 25 16 = r.off ∧ field w 73 64 = r.units ∧ field w 63 32 = r.counter ∧
      field w 127 74 = 0 ∧ field w 31 26 = 0 ∧ field w 15 4 = 0 := by
  obtain ⟨h1, h2, h3, h4, -, hw⟩ := h
  intro w
  have hw' : w = r.slot + r.off * 2 ^ 16 + r.counter * 2 ^ 32 + r.units * 2 ^ 64 := hw
  unfold field
  omega

theorem saveContext_saves {a : Reg} {id : CtxId} {handle counter off units : Nat} {evict : Bool} {key : ContextKey}
    {s t : State} (h : MaySave s id handle counter key)
    (hw : writeImage a id key.serial handle counter off units s = .ok ((), t)) :
    saveContext a id handle counter off units evict s =
      .ok (0, if evict then evictSlot (recordSave (stopContext (recordNotice t id) id) id handle counter evict) id
        else onCtx (recordSave (stopContext (recordNotice t id) id) id handle counter evict) id stayStopped) := by
  obtain ⟨hfree, haway, hkey, hcount, hstand⟩ := h
  unfold saveContext
  rw [act_get_bind]
  rw [if_neg (by simp [hfree, haway]), hkey]
  dsimp only
  rw [if_neg (by omega), if_neg, act_bind_ok _ _ _ _ _ hw]
  · rfl
  · rintro ⟨hl, hs⟩
    rw [hstand hl] at hs
    cases hs

theorem ctxSaveBody_saves {a b c d : Reg} {evict : Bool} {s t : State} {r : SaveRequest} {key : ContextKey}
    (hp : privileged s = true) (hr : r.stands s b)
    (h : MaySave s ⟨(who s).core, r.slot⟩ ((reg s c).bits.toNat % 2 ^ 32) r.counter key)
    (hc : capCheck (reg s a) (capAddr (reg s a)) (80 + imageLength (windowsOf s ⟨(who s).core, r.slot⟩).1
      (windowsOf s ⟨(who s).core, r.slot⟩).2 r.units) permST = none)
    (hw : writeImage a ⟨(who s).core, r.slot⟩ key.serial ((reg s c).bits.toNat % 2 ^ 32) r.counter r.off r.units s =
      .ok ((), t)) :
    ctxSaveBody d a b c evict s = .ok ((), writeInt d 64 0
      (if evict then evictSlot (recordSave (stopContext (recordNotice t ⟨(who s).core, r.slot⟩) ⟨(who s).core, r.slot⟩)
          ⟨(who s).core, r.slot⟩ ((reg s c).bits.toNat % 2 ^ 32) r.counter evict) ⟨(who s).core, r.slot⟩
        else onCtx (recordSave (stopContext (recordNotice t ⟨(who s).core, r.slot⟩) ⟨(who s).core, r.slot⟩)
          ⟨(who s).core, r.slot⟩ ((reg s c).bits.toNat % 2 ^ 32) r.counter evict) ⟨(who s).core, r.slot⟩ stayStopped)) := by
  obtain ⟨f1, f2, f3, f4, f5, f6, f7⟩ := saveRequest_fields hr
  obtain ⟨h1, h2, h3, h4, h5, -⟩ := hr
  have hhandle : field (reg s c).bits.toNat 31 0 = (reg s c).bits.toNat % 2 ^ 32 := by unfold field; omega
  have hlen (n : Nat) : 64 + n + 16 = 80 + n := by omega
  unfold ctxSaveBody
  rw [act_bind_ok _ _ _ _ _ (requirePrivilege_ok hp), act_get_bind]
  simp only [f1, f2, f3, f4, f5, f6, f7, hhandle, hlen]
  refine (act_bind_ok _ _ _ _ _ (checked_ok hc)).trans ?_
  rw [require_bind_ok _ (by simp; omega), if_neg (by omega),
    act_bind_ok _ _ _ _ _ (saveContext_saves h hw)]
  rfl

/-- `stayStopped` written out. -/
theorem stayStopped_eq (x : Context) : stayStopped x =
    if x.status = .trapped then { x with status := .stopped, ticket := 0, recorded := false, denied := false } else x :=
  rfl

theorem ctxSave_exec {a b c d : Reg} {evict : Bool} {s t : State} (h : ctxSaveBody d a b c evict s = .ok ((), t)) :
    exec (.ctxSave d a b c evict) s = .next (removed (advance 12 t)) :=
  slow_ok 12 (ctxSaveBody d a b c evict) s t h

theorem restoreContext_restores {a : Reg} {id : CtxId} {handle : Nat} {h : ImageHeader} {key : ContextKey} {t : Team}
    {body p : List Byte} {s s2 : State} (hh : h.stands) (hfree : slotFree (coreOf s id.core) id.slot = true)
    (hkey : keyBy s (BitVec.ofNat 32 handle) = some key) (hcount : h.counter = key.counter.toNat)
    (hspent : key.spent = false)
    (hc : capCheck (reg s a) (capAddr (reg s a)) (80 + imageLength h.nv h.ne h.units) permLD = none)
    (hread : readRange (memActor s a plainX) (capAddr (reg s a) + 64) (imageLength h.nv h.ne h.units + 16) s =
      .ok (body, s2))
    (hopen : Seal.decrypt (Config.contextKey key.serial) (imageIv handle h.counter) (bytesOf 64 h.value)
      (body.take (imageLength h.nv h.ne h.units)) (body.drop (imageLength h.nv h.ne h.units)) = some p)
    (hteam : restoreTeam s2 id.core h.value p = some t) (hident : h.team = t.ident.toNat) (hnv : h.nv = t.nv)
    (hne : h.ne = t.ne) (hstash : h.off + h.units ≤ stashUnits (coreOf s2 id.core))
    (hpin : pinFrom p = .none ∨ enginePinned (coreOf s2 id.core) (pinFrom p) = false) :
    restoreContext a id handle h.value s = .ok (0, placeRestored s2 t id h.value p handle h.counter) := by
  obtain ⟨f1, f2, f3, f4, f5, f6, f7, f8⟩ := hh
  have hlen (n : Nat) : 64 + n + 16 = 80 + n := by omega
  unfold restoreContext
  rw [act_get_bind]
  simp only [f1, f2, f3, f4, f5, f6, f7, f8, hlen]
  rw [if_neg (by simp [hfree]), hkey]
  dsimp only
  rw [if_neg (by simp [hcount, hspent]), if_neg (by simp), act_bind_ok _ _ _ _ _ (checked_ok hc),
    act_bind_ok _ _ _ _ _ hread, hopen]
  dsimp only
  rw [act_get_bind, hteam]
  dsimp only
  rw [if_neg (by simp [hident, hnv, hne]), if_neg (by omega), if_neg (by
    rintro ⟨h1, h2⟩
    rcases hpin with hpin | hpin
    · exact h1 hpin
    · rw [hpin] at h2; cases h2)]
  rfl

theorem contextImages : Claims.ContextImages := by
  intro a b c d evict s hp
  refine ⟨fun r key t hr h hc hw => ctxSave_exec (ctxSaveBody_saves hp hr h hc hw), ?_⟩
  intro slot h key t bs body p s1 s2 hslot hb hbs hh _ _ _ hc hread hfree hkey hcount hspent hc1 hread1 hopen hteam hident
    hnv hne hstash hpin
  have hhandle : field (reg s c).bits.toNat 31 0 = (reg s c).bits.toNat % 2 ^ 32 := by unfold field; omega
  have f1 : field slot 3 0 = slot := by unfold field; omega
  have f2 : field slot 127 4 = 0 := by unfold field; omega
  refine slow_ok 12 (ctxRestBody d a b c) s _ ?_
  unfold ctxRestBody
  rw [act_bind_ok _ _ _ _ _ (requirePrivilege_ok hp), act_get_bind]
  simp only [hb, f1, f2, hhandle]
  rw [require_bind_ok _ (by simp; omega), act_bind_ok _ _ _ _ _ (checked_ok hc), act_bind_ok _ _ _ _ _ hread, hbs,
    act_bind_ok _ _ _ _ _ (restoreContext_restores hh hfree hkey hcount hspent hc1 hread1 hopen hteam hident hnv hne hstash
      hpin)]
  rfl

/-- Settles O39: each step of a save and of a restore goes through, and the key stream of the cipher undoes itself. -/
theorem sealedImages : Obligations.SealedImages := ⟨contextImages, Seal.sealOpens⟩

end Sys2Proof.Machine
end

section
namespace Sys2Proof.Machine
open Sys2Proof.Claims

/-! ### What an access leaves

An access of memory, whatever it meets, moves bytes and tags, the translations and grants that are kept, the windows with
their stash bytes, and the key store behind the trust aperture. Everything else of the state stands. -/

/-- Of a core only its windows, its stash and its grants differ. -/
def SameCore (k k' : Core) : Prop :=
  k' = { k with windows := k'.windows, stash := k'.stash, stashTags := k'.stashTags, grants := k'.grants }

theorem SameCore.refl (k : Core) : SameCore k k := rfl

theorem SameCore.trans {a b c : Core} (h : SameCore a b) (h' : SameCore b c) : SameCore a c := by
  unfold SameCore at h h'
  calc c = { b with windows := c.windows, stash := c.stash, stashTags := c.stashTags, grants := c.grants } := h'
    _ = _ := by rw [h]

/-- Only what an access may move differs between two states. -/
structure MemOnly (s t : State) : Prop where
  state : t = { s with
    memory := t.memory, history := t.history, pending := t.pending, translations := t.translations, poison := t.poison
    cores := t.cores, trust := t.trust, keys := t.keys, creates := t.creates, rcount := t.rcount }
  core : ∀ c, SameCore (coreOf s c) (coreOf t c)

theorem MemOnly.refl (s : State) : MemOnly s s := ⟨rfl, fun _ => rfl⟩

theorem MemOnly.trans {s t u : State} (h : MemOnly s t) (h' : MemOnly t u) : MemOnly s u where
  state := by
    calc u = { t with
        memory := u.memory, history := u.history, pending := u.pending, translations := u.translations, poison := u.poison
        cores := u.cores, trust := u.trust, keys := u.keys, creates := u.creates, rcount := u.rcount } := h'.state
      _ = _ := by rw [h.state]
  core c := (h.core c).trans (h'.core c)

/-- A step that leaves the cores. -/
theorem MemOnly.of_cores {s t : State} (h : t = { s with
    memory := t.memory, history := t.history, pending := t.pending, translations := t.translations, poison := t.poison
    cores := s.cores, trust := t.trust, keys := t.keys, creates := t.creates, rcount := t.rcount }) : MemOnly s t where
  state := by
    have hc : t.cores = s.cores := by rw [h]
    rw [← hc] at h
    exact h
  core c := by
    unfold coreOf
    rw [show t.cores = s.cores by rw [h]]
    exact SameCore.refl _

theorem memOnly_onCore {s : State} {c : Nat} {f : Core → Core} (h : SameCore (coreOf s c) (f (coreOf s c))) :
    MemOnly s (onCore s c f) where
  state := rfl
  core d := by
    rw [coreOf_onCore]
    split
    next hd => rw [hd]; exact h
    next => exact SameCore.refl _

theorem MemOnly.foldl {α : Type} {f : State → α → State} {l : List α} {s : State} (h : ∀ s, ∀ a ∈ l, MemOnly s (f s a)) :
    MemOnly s (l.foldl f s) := by
  induction l generalizing s with
  | nil => exact .refl s
  | cons a rest ih =>
    exact (h s a List.mem_cons_self).trans (ih fun s b hb => h s b (List.mem_cons_of_mem _ hb))

section
variable {s t : State} (h : MemOnly s t)
include h

theorem MemOnly.turn : t.turn = s.turn := by rw [h.state]
theorem MemOnly.teams : t.teams = s.teams := by rw [h.state]
theorem MemOnly.domains : t.domains = s.domains := by rw [h.state]
theorem MemOnly.slots (c : Nat) : (coreOf t c).slots = (coreOf s c).slots := by rw [h.core c]
theorem MemOnly.ctxOf (id : CtxId) : ctxOf t id = ctxOf s id := by unfold Machine.ctxOf; rw [h.slots]
theorem MemOnly.who : who t = who s := by
  unfold Machine.who
  rw [h.turn]
  split
  · rw [h.core]
  · rfl
theorem MemOnly.me : me t = me s := by unfold Machine.me; rw [h.who, h.ctxOf]
theorem MemOnly.reg (r : Reg) : reg t r = reg s r := by unfold Machine.reg; rw [h.me]

end

/-! ### The parts of an access -/

/-- A relation between the states before and after. -/
structure Frame where
  rel : State → State → Prop
  refl : ∀ s, rel s s
  trans : ∀ {s t u}, rel s t → rel t u → rel s u

/-- Where an act goes through, it moves the state as the relation says. -/
def Along {α : Type} (R : Frame) (m : Act α) : Prop := ∀ s a t, m s = .ok (a, t) → R.rel s t

section
variable {α β : Type} {R : Frame}

theorem Along.bind {m : Act α} {f : α → Act β} (hm : Along R m) (hf : ∀ a, Along R (f a)) : Along R (m >>= f) := by
  intro s b u h
  obtain ⟨a, t, h1, h2⟩ := act_bind_inv m f s _ _ h
  exact R.trans (hm s a t h1) (hf a t b u h2)

theorem Along.get_bind {f : State → Act β} (hf : ∀ s, Along R (f s)) : Along R (get >>= f) := fun s b t h => hf s s b t h

theorem Along.ite {c : Prop} [Decidable c] {m m' : Act α} (hm : Along R m) (hm' : Along R m') :
    Along R (if c then m else m') := by split <;> assumption

theorem along_pure (a : α) : Along R (pure a : Act α) := by
  intro s b t h
  cases h
  exact R.refl _

theorem along_error {m : Act α} (h : ∀ s, ∃ e, m s = .error e) : Along R m := by
  intro s a t ht
  obtain ⟨e, he⟩ := h s
  rw [he] at ht
  cases ht

theorem along_stop (e : Stop) : Along R (stop e : Act α) := along_error fun _ => ⟨e, rfl⟩
theorem along_hold (w : Wait) : Along R (hold w : Act α) := along_error fun _ => ⟨_, rfl⟩
theorem along_raise (c i : Nat) : Along R (raise c i : Act α) := along_error fun _ => ⟨_, rfl⟩

theorem along_modify {f : State → State} (h : ∀ s, R.rel s (f s)) : Along R (modify f : Act PUnit) := by
  intro s a t ht
  cases ht
  exact h s

theorem along_require (ok : Bool) (c i : Nat) : Along R (require ok c i) := by
  unfold require
  exact .ite (along_pure _) (along_raise _ _)

/-- A guard. -/
theorem Along.guard {c : Prop} [Decidable c] {m : Act Unit} (h : Along R m) : Along R (if c then m else pure ()) :=
  .ite h (along_pure _)

/-- A guard and what follows it. -/
theorem Along.guard_bind {c : Prop} [Decidable c] {m : Act Unit} {f : Unit → Act β} (h : Along R m) (hf : ∀ u, Along R (f u)) :
    Along R (if c then m >>= f else f ()) := .ite (h.bind hf) (hf ())

theorem along_forM (l : List α) (f : α → Act PUnit) (h : ∀ a ∈ l, Along R (f a)) : Along R (l.forM f) := by
  induction l with
  | nil => exact along_pure _
  | cons a rest ih =>
    show Along R (f a >>= fun _ => rest.forM f)
    exact (h a List.mem_cons_self).bind fun _ => ih fun b hb => h b (List.mem_cons_of_mem _ hb)

end

@[reducible] def accessFrame : Frame := ⟨MemOnly, .refl, .trans⟩

/-- An act that moves no more than an access may. -/
abbrev Accesses {α : Type} (m : Act α) : Prop := Along accessFrame m

theorem memOnly_cacheTranslation (s : State) (t : Translation) : MemOnly s (cacheTranslation s t) := by
  unfold cacheTranslation
  split
  · exact .refl s
  · exact .of_cores rfl

theorem memOnly_tableWrite (s : State) (a : Nat) (bs : List Byte) : MemOnly s (tableWrite s a bs) := .of_cores rfl

theorem memOnly_markLeaf (s : State) (t : Translation) (write : Bool) : MemOnly s (markLeaf s t write) := by
  unfold markLeaf
  split
  · exact memOnly_tableWrite _ _ _
  · exact .refl s

theorem memOnly_physPut (s : State) (key a : Nat) (bs : List Byte) (tag : Bool) : MemOnly s (physPut s key a bs tag) :=
  .of_cores rfl

theorem memOnly_remember (s : State) (key a n : Nat) : MemOnly s (remember s key a n) := .of_cores rfl

theorem memOnly_patchPending (s : State) (a : Nat) (bs : List Byte) (tag : Bool) : MemOnly s (patchPending s a bs tag) :=
  .of_cores rfl

theorem memOnly_putSector (s : State) (visible : Bool) (key a : Nat) (gs : List (List Byte × Bool)) :
    MemOnly s (putSector s visible key a gs) := by
  unfold putSector
  refine .trans (.foldl fun s e _ => ?_) (.of_cores rfl)
  refine .trans ?_ (memOnly_physPut _ _ _ _ _)
  split
  · exact memOnly_patchPending _ _ _ _
  · exact .refl s

theorem memOnly_storeAt (s : State) (p : Place) (a : Actor) (bs : List Byte) (tag : Bool) : MemOnly s (storeAt s p a bs tag) := by
  unfold storeAt
  split
  · exact .of_cores rfl
  · exact .of_cores rfl

theorem sameCore_setSector (k : Core) (num i : Nat) (st : Sector) : SameCore k (setSector k num i st) := by
  unfold setSector
  split <;> rfl

theorem sameCore_stashPut (k : Core) (o : Nat) (bs : List Byte) (tag : Bool) : SameCore k (stashPut k o bs tag) := rfl

/-! ### Write-backs and recalls -/

theorem memOnly_writeBackBy {before : Nat → State → State} (h : ∀ a s, MemOnly s (before a s)) (s : State)
    (core num i : Nat) : MemOnly s (writeBackBy before s core num i) := by
  unfold writeBackBy
  extract_lets u
  have hu : MemOnly s u := by
    unfold u
    split
    · exact h _ _
    · exact .refl s
  refine hu.trans ?_
  split
  · exact .refl u
  · exact ((memOnly_markLeaf _ _ _).trans ((memOnly_remember _ _ _ _).trans (memOnly_putSector _ _ _ _ _))).trans
      (memOnly_onCore (sameCore_setSector _ _ _ _))

theorem memOnly_giveBy {back : State → Nat → Nat → Nat → State} (h : ∀ s c n i, MemOnly s (back s c n i)) (write : Bool)
    (core num : Nat) (s : State) (i : Nat) : MemOnly s (giveBy back write core num s i) := by
  unfold giveBy
  split
  · exact .refl s
  · refine (h s core num i).trans ?_
    dsimp only
    split
    · exact memOnly_onCore (sameCore_setSector _ _ _ _)
    · exact .refl _

theorem memOnly_recallBy {back : State → Nat → Nat → Nat → State} (h : ∀ s c n i, MemOnly s (back s c n i)) (pa n : Nat)
    (write : Bool) (s : State) (c : Nat) : MemOnly s (recallBy back pa n write s c) :=
  .foldl fun _ _ _ => .foldl fun _ _ _ => memOnly_giveBy h _ _ _ _ _

theorem memOnly_writeBackWithin (fuel : Nat) (s : State) (core num i : Nat) :
    MemOnly s (writeBackWithin fuel s core num i) := by
  induction fuel generalizing s core num i with
  | zero => exact memOnly_writeBackBy (fun _ s => .refl s) _ _ _ _
  | succ fuel ih => exact memOnly_writeBackBy (fun _ _ => .foldl fun _ _ _ => memOnly_recallBy ih _ _ _ _ _) _ _ _ _

theorem memOnly_writeBack (s : State) (core num i : Nat) : MemOnly s (writeBack s core num i) :=
  memOnly_writeBackWithin _ _ _ _ _

theorem memOnly_recallAll (s : State) (pa n : Nat) (write : Bool) : MemOnly s (recallAll s pa n write) :=
  .foldl fun _ _ _ => memOnly_recallBy memOnly_writeBack _ _ _ _ _

theorem memOnly_recallFrom (s : State) (va : Nat) (write : Bool) (core : Nat) : MemOnly s (recallFrom s va write core) := by
  unfold recallFrom
  split
  · exact .refl s
  · exact memOnly_giveBy memOnly_writeBack _ _ _ _ _

theorem memOnly_giveUp (s : State) (a : Actor) (va : Nat) (write : Bool) : MemOnly s (giveUp s a va write) :=
  .foldl fun _ _ _ => memOnly_recallFrom _ _ _ _

theorem accesses_comeTo (a : Actor) (va : Nat) (write : Bool) : Accesses (comeTo a va write) := by
  intro s u t h
  unfold comeTo at h
  rw [act_get_bind] at h
  split at h
  · cases h
  · cases h
    exact memOnly_giveUp _ _ _ _

theorem accesses_approach (pa n va : Nat) (write : Bool) : Accesses (approach pa n va write) := by
  intro s u t h
  unfold approach at h
  split at h
  · cases h
  · split at h
    · cases h
    · cases h
      exact memOnly_recallAll _ _ _ _

theorem accesses_reach (pa n va : Nat) (write : Bool) : Accesses (reach pa n va write) :=
  (accesses_approach _ _ _ _).bind fun _ => .get_bind fun _ => .guard (along_stop _)

/-! ### Translation and the grants -/

theorem accesses_reachWalk (va : Nat) (ls : List (Nat × Nat)) (table : Nat) : Accesses (reachWalk va ls table) := by
  induction ls generalizing table with
  | nil => exact along_pure _
  | cons l rest ih =>
    exact (accesses_reach _ _ _ _).bind fun _ => .get_bind fun _ => .ite (ih _) (along_pure _)

theorem memOnly_walked {s t : State} {va : Nat} (h : walked s va = .ok t) : MemOnly s t := by
  unfold walked at h
  obtain ⟨⟨u, t'⟩, h', rfl⟩ := exists_of_map_eq_ok h
  exact accesses_reachWalk _ _ _ _ _ _ h'

theorem along_failTranslation {α : Type} {R : Frame} (a : Actor) (va rights : Nat) :
    Along R (failTranslation a va rights : Act α) := by
  unfold failTranslation
  split <;> exact along_stop _

theorem accesses_freshOrCached (a : Actor) (va rights : Nat) : Accesses (freshOrCached a va rights) := by
  intro s x t h
  unfold freshOrCached at h
  dsimp only at h
  split at h
  · split at h <;> cases h <;> exact .refl s
  · split at h
    · exact along_failTranslation _ _ _ _ _ _ h
    · split at h
      · cases h; exact .refl s
      · exact along_failTranslation _ _ _ _ _ _ h

theorem accesses_useLeaf (t : Translation) (va : Nat) (write : Bool) : Accesses (useLeaf t va write) := by
  unfold useLeaf
  refine .get_bind fun s => ?_
  extract_lets mark
  have hmark (u : Unit) : Accesses (mark u) :=
    along_modify fun s => (memOnly_cacheTranslation s t).trans (memOnly_markLeaf _ _ _)
  split
  · exact (accesses_reach _ _ _ _).bind hmark
  · exact hmark ()

theorem accesses_translate (a : Actor) (va rights : Nat) : Accesses (translate a va rights) := by
  intro s x t h
  unfold translate at h
  split at h
  · split at h <;> cases h
    exact .refl s
  · split at h
    next u hu => exact (memOnly_walked hu).trans (accesses_freshOrCached _ _ _ _ _ _ h)
    next => split at h <;> cases h; exact .refl s

theorem accesses_reachGrants (dom page va fuel lo hi : Nat) : Accesses (reachGrants dom page va fuel lo hi) := by
  induction fuel generalizing lo hi with
  | zero => exact along_pure _
  | succ fuel ih =>
    exact .ite (.get_bind fun _ => (accesses_reach _ _ _ _).bind fun _ => .get_bind fun _ =>
      .ite (along_pure _) (.ite (ih _ _) (ih _ _))) (along_pure _)

theorem memOnly_keepGrant (s : State) (core dom page : Nat) : MemOnly s (keepGrant s core dom page) := by
  unfold keepGrant
  split
  · exact .refl s
  · split
    · exact .refl s
    · exact memOnly_onCore rfl

theorem memOnly_searched {s t : State} {dom page va : Nat} (h : searched s dom page va = .ok t) : MemOnly s t := by
  unfold searched at h
  obtain ⟨⟨u, t'⟩, h', rfl⟩ := exists_of_map_eq_ok h
  exact accesses_reachGrants _ _ _ _ _ _ _ _ _ h'

theorem accesses_checkGrant (a : Actor) (va rights : Nat) : Accesses (checkGrant a va rights) := by
  intro s x t h
  unfold checkGrant at h
  split at h
  · cases h; exact .refl s
  · split at h
    · cases h; exact .refl s
    · split at h
      next u hu =>
        refine (memOnly_searched hu).trans ?_
        split at h
        · cases h; exact memOnly_keepGrant _ _ _ _
        · exact along_failTranslation (R := accessFrame) _ _ _ _ _ _ h
      next =>
        dsimp only at h
        split at h
        · cases h
        · split at h
          · cases h; exact .refl s
          · exact along_failTranslation (R := accessFrame) _ _ _ _ _ _ h

theorem accesses_locate (a : Actor) (va n rights : Nat) : Accesses (locate a va n rights) := by
  unfold locate
  refine (accesses_translate _ _ _).bind fun t => .get_bind fun s => .guard_bind (along_failTranslation _ _ _) fun _ =>
    .guard_bind (along_stop _) fun _ => ?_
  extract_lets checked
  have hchecked (u : Unit) : Accesses (checked u) :=
    (along_require _ _ _).bind fun _ => (accesses_useLeaf _ _ _).bind fun _ => along_pure _
  split
  · exact (along_require _ _ _).bind hchecked
  · exact hchecked ()

/-! ### Reads and writes -/

theorem loadAt_state {p : Place} {va n : Nat} {unseen : List OldWrite} {s t : State} {x : List Byte × Bool}
    (h : loadAt p va n unseen s = .ok (x, t)) : t = s := by
  unfold loadAt at h
  split at h <;> cases h
  rfl

theorem accesses_loadAt (p : Place) (va n : Nat) (unseen : List OldWrite) : Accesses (loadAt p va n unseen) := by
  intro s x t h
  rw [loadAt_state h]
  exact .refl s

theorem accesses_onCore {c : Nat} {f : Core → Core} (h : ∀ k, SameCore k (f k)) :
    Accesses (modify fun s => onCore s c f) := along_modify fun _ => memOnly_onCore (h _)

theorem accesses_fillSector (a : Actor) (num : Nat) (w : Window) (va : Nat) : Accesses (fillSector a num w va) := by
  unfold fillSector
  split
  · exact along_pure _
  · refine (accesses_comeTo _ _ _).bind fun _ => (accesses_locate _ _ _ _).bind fun _ => .bind (along_forM _ _ fun g _ => ?_)
      fun _ => (accesses_onCore fun _ => sameCore_setSector _ _ _ _).bind fun _ => along_pure _
    exact (accesses_loadAt _ _ _ _).bind fun _ => accesses_onCore fun _ => sameCore_stashPut _ _ _ _

theorem accesses_coverAbsent (a : Actor) (w : Window) (va rights : Nat) : Accesses (coverAbsent a w va rights) := by
  unfold coverAbsent
  split
  · exact along_pure _
  · exact (accesses_locate _ _ _ _).bind fun _ => along_pure _

theorem accesses_checkWindow (a : Actor) (w : Window) (rights : Nat) : Accesses (checkWindow a w rights) :=
  .guard (along_raise _ _)

theorem accesses_apertureByte (a : Actor) (va n rights : Nat) : Accesses (apertureByte a va n rights) := by
  unfold apertureByte
  refine .guard_bind (along_failTranslation _ _ _) fun _ => (accesses_checkGrant _ _ _).bind fun _ => .get_bind fun _ =>
    .guard_bind (along_raise _ _) fun _ => .guard_bind (along_raise _ _) fun _ => ?_
  split
  · exact along_raise _ _
  · exact along_pure _

theorem accesses_beforeCaches (a : Actor) (va rights : Nat) : Accesses (beforeCaches a va rights) :=
  (accesses_checkGrant _ _ _).bind fun _ => .get_bind fun _ => .guard_bind (along_hold _) fun _ => .guard (along_hold _)

theorem accesses_dirtySector (a : Actor) (num : Nat) (w : Window) (va : Nat) (t : Translation) :
    Accesses (dirtySector a num w va t) :=
  (along_require _ _ _).bind fun _ => (accesses_comeTo _ _ _).bind fun _ =>
    accesses_onCore fun _ => sameCore_setSector _ _ _ _

theorem accesses_readPieceOf (unseen : List OldWrite) (a : Actor) (va n rights : Nat) :
    Accesses (readPieceOf unseen a va n rights) := by
  unfold readPieceOf
  refine .ite ((accesses_apertureByte _ _ _ _).bind fun _ => .get_bind fun _ => along_pure _) (.ite
    (.guard_bind (along_raise _ _) fun _ => .get_bind fun _ => along_pure _)
    ((accesses_beforeCaches _ _ _).bind fun _ => .get_bind fun s => ?_))
  split
  · exact (accesses_checkWindow _ _ _).bind fun _ => (accesses_fillSector _ _ _ _).bind fun _ =>
      .guard_bind (accesses_dirtySector _ _ _ _ _) fun _ => .get_bind fun _ => along_pure _
  · exact (accesses_comeTo _ _ _).bind fun _ => (accesses_locate _ _ _ _).bind fun _ => accesses_loadAt _ _ _ _

theorem accesses_readPiece (a : Actor) (va n rights : Nat) : Accesses (readPiece a va n rights) := by
  unfold readPiece
  exact .get_bind fun _ => accesses_readPieceOf _ _ _ _ _

theorem memOnly_trust (s : State) (v : BitVec 64) : MemOnly s { s with trust := v } := .of_cores rfl

theorem memOnly_setTrust (s : State) (status handle : Nat) : MemOnly s (setTrust s status handle) := by
  unfold setTrust
  exact memOnly_trust _ _

theorem memOnly_trustCommand (s : State) (w : Nat) : MemOnly s (trustCommand s w) := by
  have create (h : BitVec 32) : MemOnly s (createKey s h) := by
    unfold createKey
    split
    · exact memOnly_setTrust _ _ _
    · exact .trans (.of_cores rfl) (memOnly_setTrust _ _ _)
  have destroy (h : BitVec 32) : MemOnly s (destroyKey s h) := by
    unfold destroyKey
    split
    · exact .trans (.of_cores rfl) (memOnly_setTrust _ _ _)
    · exact memOnly_setTrust _ _ _
  have query (h : BitVec 32) : MemOnly s (queryKey s h) := by
    unfold queryKey
    split
    · exact .trans (memOnly_setTrust _ _ _) (.of_cores rfl)
    · exact memOnly_setTrust _ _ _
  unfold trustCommand
  dsimp only
  split
  · exact memOnly_setTrust _ _ _
  · split
    · exact create _
    · split
      · exact destroy _
      · split
        · exact query _
        · exact memOnly_setTrust _ _ _

theorem accesses_writePiece (a : Actor) (va : Nat) (bs : List Byte) (tag : Bool) (rights : Nat) :
    Accesses (writePiece a va bs tag rights) := by
  unfold writePiece
  refine .ite ((accesses_apertureByte _ _ _ _).bind fun _ => accesses_onCore fun _ => sameCore_stashPut _ _ _ _) (.ite
    (.guard_bind (along_raise _ _) fun _ => along_modify fun s => ?_)
    ((accesses_beforeCaches _ _ _).bind fun _ => .get_bind fun s => ?_))
  · split
    · exact memOnly_trustCommand _ _
    · exact .refl s
  · split
    · refine (accesses_checkWindow _ _ _).bind fun _ => .guard_bind (along_raise _ _) fun _ => ?_
      extract_lets stored put
      have hstored (u : Unit) : Accesses (stored u) := accesses_onCore fun _ => sameCore_stashPut _ _ _ _
      have hput (t : Translation) : Accesses (put t) :=
        (accesses_dirtySector _ _ _ _ _).bind fun _ => .get_bind fun _ => .guard_bind (along_hold _) hstored
      exact .ite ((accesses_fillSector _ _ _ _).bind hput) ((accesses_coverAbsent _ _ _ _).bind hput)
    · exact (accesses_comeTo _ _ _).bind fun _ => (accesses_locate _ _ _ _).bind fun _ => .get_bind fun _ =>
        .guard_bind (along_hold _) fun _ => along_modify fun _ => memOnly_storeAt _ _ _ _ _

theorem accesses_writeWhole (a : Actor) (sec : Nat) (parts : List (Nat × List Byte × Bool)) :
    Accesses (writeWhole a sec parts) :=
  (accesses_beforeCaches _ _ _).bind fun _ => (accesses_comeTo _ _ _).bind fun _ => (accesses_locate _ _ _ _).bind fun _ =>
    .get_bind fun _ => .guard_bind (along_hold _) fun _ => along_modify fun _ =>
    .trans (.foldl fun _ _ _ => memOnly_storeAt _ _ _ _ _) (.of_cores rfl)

theorem accesses_readPieces (unseen : List OldWrite) (a : Actor) (rights : Nat) (l : List (Nat × Nat)) :
    Accesses (readPieces unseen a rights l) := by
  induction l with
  | nil => exact along_pure _
  | cons p rest ih => exact (accesses_readPieceOf _ _ _ _ _).bind fun _ => ih.bind fun _ => along_pure _

theorem accesses_readRange (a : Actor) (va n : Nat) : Accesses (readRange a va n) :=
  .get_bind fun _ => accesses_readPieces _ _ _ _

theorem accesses_writePieces (a : Actor) (rights : Nat) (l : List (Nat × Nat)) (bs : List Byte) :
    Accesses (writePieces a rights l bs) := by
  induction l generalizing bs with
  | nil => exact along_pure _
  | cons p rest ih => exact (accesses_writePiece _ _ _ _ _).bind fun _ => ih _

theorem accesses_writeRange (a : Actor) (va : Nat) (bs : List Byte) : Accesses (writeRange a va bs) :=
  accesses_writePieces _ _ _ _

end Sys2Proof.Machine
end

section
namespace Sys2Proof.Machine
open Sys2Proof.Claims

/-! ### A fetch unit's delivery (R14, R20, R125) -/

theorem bestRequest_none {rs : List FetchRequest} : bestRequest rs = none ↔ rs = [] := by
  cases rs with
  | nil => simp [bestRequest]
  | cons r rest =>
    simp only [bestRequest, reduceCtorEq, iff_false]
    split
    · simp
    · split <;> simp

theorem bestRequest_mem {rs : List FetchRequest} {r : FetchRequest} (h : bestRequest rs = some r) : r ∈ rs := by
  induction rs with
  | nil => cases h
  | cons q rest ih =>
    simp only [bestRequest] at h
    split at h
    · cases h; exact List.mem_cons_self
    next b hb =>
      split at h <;> cases h
      · exact List.mem_cons_of_mem _ (ih hb)
      · exact List.mem_cons_self

theorem fetched_deliverLine (copies : SMap CodeCopy) (s : State) (id : CtxId) :
    (ctxOf (deliverLine copies s id) id).fetched = true := by
  unfold deliverLine
  rw [ctxOf_onCtx_same]

theorem ctxOf_deliverLine_other {copies : SMap CodeCopy} {s : State} {id other : CtxId} (h : other ≠ id) :
    ctxOf (deliverLine copies s id) other = ctxOf s other := ctxOf_onCtx_other _ _ _ _ h

/-- A context whose instruction has come keeps it through the deliveries to others. -/
theorem fetched_deliverLines {copies : SMap CodeCopy} {ids : List CtxId} {s : State} {id : CtxId}
    (h : id ∈ ids ∨ (ctxOf s id).fetched = true) : (ctxOf (ids.foldl (deliverLine copies) s) id).fetched = true := by
  induction ids generalizing s with
  | nil => exact h.resolve_left List.not_mem_nil
  | cons i rest ih =>
    apply ih
    by_cases hi : id = i
    · rw [hi]; exact .inr (fetched_deliverLine _ _ _)
    · rw [ctxOf_deliverLine_other hi]
      exact h.imp_left fun h => (List.mem_cons.1 h).resolve_left hi

theorem ctxOf_deliverLines_other {copies : SMap CodeCopy} {ids : List CtxId} {s : State} {id : CtxId} (h : id ∉ ids) :
    ctxOf (ids.foldl (deliverLine copies) s) id = ctxOf s id := by
  induction ids generalizing s with
  | nil => rfl
  | cons i rest ih =>
    obtain ⟨hi, hr⟩ := not_or.1 (mt List.mem_cons.2 h)
    rw [List.foldl_cons, ih hr, ctxOf_deliverLine_other hi]

theorem memory_deliverLines (copies : SMap CodeCopy) (ids : List CtxId) (s : State) :
    (ids.foldl (deliverLine copies) s).memory = s.memory := by
  induction ids generalizing s with
  | nil => rfl
  | cons i rest ih => rw [List.foldl_cons, ih]; rfl

theorem accesses_fillLine (id : CtxId) (va : Nat) : Accesses (fillLine id va) := by
  unfold fillLine
  exact .get_bind fun _ => .guard_bind (along_hold _) fun _ => .guard_bind (along_hold _) fun _ =>
    (accesses_locate _ _ _ _).bind fun _ => (accesses_reach _ _ _ _).bind fun _ => .get_bind fun _ => along_pure _

/-- The contexts that a delivery serves. -/
def servedIds (s : State) (unit : Nat) (r : FetchRequest) : List CtxId :=
  ((fetchRequests s unit).filter fun q => q.pc == r.pc && q.gen == r.gen).map (·.id)

theorem serveFetch_eq {s : State} {unit : Nat} {r : FetchRequest} (h : bestRequest (fetchRequests s unit) = some r) :
    serveFetch s unit = match fillLine r.id r.pc s with
      | .error _ => (servedIds s unit r).foldl (deliverLine []) s
      | .ok (l, t) => (servedIds s unit r).foldl (deliverLine l.2) t := by
  unfold serveFetch
  rw [h] <;> rfl

theorem mem_servedIds {s : State} {unit : Nat} {r : FetchRequest} {id : CtxId} :
    id ∈ servedIds s unit r ↔ ∃ q ∈ fetchRequests s unit, q.id = id ∧ q.pc = r.pc ∧ q.gen = r.gen := by
  simp only [servedIds, List.mem_map, List.mem_filter, Bool.and_eq_true, beq_iff_eq]
  constructor
  · rintro ⟨q, ⟨h1, h2, h3⟩, h4⟩
    exact ⟨q, h1, h4, h2, h3⟩
  · rintro ⟨q, h1, h4, h2, h3⟩
    exact ⟨q, ⟨h1, h2, h3⟩, h4⟩

theorem fetchDelivery : Claims.FetchDelivery := by
  intro unit s
  constructor
  · intro h
    show Host.Outcome.next (serveFetch s unit) = _
    unfold serveFetch
    rw [h]
    rfl
  · intro r hr
    refine ⟨serveFetch s unit, rfl, ?_⟩
    rw [serveFetch_eq hr]
    have hmem : r.id ∈ servedIds s unit r := mem_servedIds.2 ⟨r, bestRequest_mem hr, rfl, rfl, rfl⟩
    have hother {id : CtxId} (h : ∀ q ∈ fetchRequests s unit, q.id = id → q.pc ≠ r.pc ∨ q.gen ≠ r.gen) :
        id ∉ servedIds s unit r := by
      intro hi
      obtain ⟨q, hq, h1, h2, h3⟩ := mem_servedIds.1 hi
      exact (h q hq h1).elim (· h2) (· h3)
    cases hf : fillLine r.id r.pc s with
    | error e =>
      refine ⟨fetched_deliverLines (.inl hmem), fun _ _ => memory_deliverLines _ _ _, fun _ _ h => (nomatch h), fun id h => ?_⟩
      exact ctxOf_deliverLines_other (hother h)
    | ok p =>
      obtain ⟨l, u⟩ := p
      refine ⟨fetched_deliverLines (.inl hmem), fun _ h => (nomatch h), fun _ _ h => ?_, fun id h => ?_⟩
      · cases h
        exact memory_deliverLines _ _ _
      · exact (ctxOf_deliverLines_other (hother h)).trans ((accesses_fillLine _ _ _ _ _ hf).ctxOf id)

/-! ### Operations that complete (R16, R31, R49, R160) -/

theorem operationComplete_over {core slot : Nat} {s : State} (hl : (ctxOf s ⟨core, slot⟩).status = .live)
    (hw : waitOver s ⟨core, slot⟩ = true) : exec (.operationComplete core slot) s =
      match (ctxOf s ⟨core, slot⟩).wait with
      | .ending exit => .next (endContext s ⟨core, slot⟩ exit)
      | .ifence => .next (finishIfence s ⟨core, slot⟩)
      | _ => .next (onCtx s ⟨core, slot⟩ (awake (coreOf s core))) := by
  show execOperationComplete core slot s = _
  unfold execOperationComplete
  dsimp only
  rw [if_pos hl, if_pos hw] <;> rfl

theorem fwdHoldComplete_put {core slot : Nat} {s t : State} {quad : Bool} {v : BitVec 64}
    (hl : (ctxOf s ⟨core, slot⟩).status = .live) (hw : (ctxOf s ⟨core, slot⟩).wait = .fwdPut quad v)
    (hp : putFwd s ⟨core, slot⟩ quad v = some t) :
    exec (.fwdHoldComplete core slot) s = .next (goOn t ⟨core, slot⟩ 4) := by
  show execFwdHoldComplete core slot s = _
  unfold execFwdHoldComplete
  dsimp only
  rw [if_pos hl, hw]
  dsimp only
  rw [hp]

theorem fwdHoldComplete_get {core slot v : Nat} {s t : State} {a : Reg} (hl : (ctxOf s ⟨core, slot⟩).status = .live)
    (hw : (ctxOf s ⟨core, slot⟩).wait = .fwdGet a) (hp : takeFwd s ⟨core, slot⟩ = some (v, t)) :
    exec (.fwdHoldComplete core slot) s = .next (goOn (writeIntIn t ⟨core, slot⟩ a.val 64 v) ⟨core, slot⟩ 4) := by
  show execFwdHoldComplete core slot s = _
  unfold execFwdHoldComplete
  dsimp only
  rw [if_pos hl, hw]
  dsimp only
  rw [hp]

theorem operationsComplete : Claims.OperationsComplete := by
  intro core slot s hl
  and_intros
  · intro hw he hi
    rw [operationComplete_over hl hw]
    generalize (ctxOf s ⟨core, slot⟩).wait = w at he hi
    cases w with
    | ending e => exact absurd rfl (he e)
    | ifence => exact absurd rfl hi
    | _ => rfl
  · intro hw ht
    rw [operationComplete_ifence hl hw ht]
    have hx (x : Context) : wrap 80 ((capAddr x.code : Int) + 4) = (capAddr x.code + 4) % 2 ^ 80 := by
      exact_mod_cast wrap80_nat (capAddr x.code + 4)
    simp only [finishIfence, awake, hx]
  · intro e hw hh
    have ho : waitOver s ⟨core, slot⟩ = true := by
      unfold waitOver
      simp only [hw, hh, Bool.not_false]
    rw [operationComplete_over hl ho, hw]
  · exact fun quad v t hw hp => fwdHoldComplete_put hl hw hp
  · exact fun a v t hw hp => fwdHoldComplete_get hl hw hp

/-- Settles O40: the rotation of the selector, the served requests, and what each wait that is over gives. -/
theorem barrelAndFetch : Obligations.BarrelAndFetch := ⟨barrelSelection, fetchDelivery, operationsComplete⟩

end Sys2Proof.Machine
end

section
namespace Sys2Proof.Machine
open Sys2Proof.Claims

/-! ### Grant rounds and weights (R40 to R45) -/

theorem pendingRound_due {core : Nat} {s : State} (hc : (coreOf s core).cycle % 64 = 0)
    (hr : (coreOf s core).rounded = false) :
    pendingRound core s = grantRound core (onCore s core fun k => { k with rounded := true }) := if_pos ⟨hc, hr⟩

/-- No bit of the records that a round reads tells whether the round was done. -/
theorem badQueue_rounded (k : Core) (r : Bool) : badQueue { k with rounded := r } = badQueue k := rfl

theorem grantRound_grants {core : Nat} {s : State} {t : Team} (ht : (coreOf s core).team.bind (teamBy s) = some t)
    (hr : (coreOf s core).route.running = true) (hb : badQueue (coreOf s core) = none)
    (hf : ∃ slot < 11, slotFree (coreOf s core) slot = true) :
    grantRound core s = grantSlots t ((upFrom 0 4).map (weightOf' s (islandOfCore core))) core
      ((upFrom 0 11).filter (slotFree (coreOf s core))) s := by
  have hne : ((upFrom 0 11).filter (slotFree (coreOf s core))).isEmpty = false := by
    obtain ⟨slot, hslot, hfree⟩ := hf
    rw [List.isEmpty_eq_false_iff_exists_mem]
    exact ⟨slot, List.mem_filter.2 ⟨(mem_upFrom _ _ _).2 ⟨Nat.zero_le _, by omega⟩, hfree⟩⟩
  unfold grantRound
  simp only [ht, hr, hne, hb, Bool.not_false, Bool.and_self, if_true]

theorem grantRound_full {core : Nat} {s : State} {t : Team} (ht : (coreOf s core).team.bind (teamBy s) = some t)
    (hf : ∀ slot < 11, slotFree (coreOf s core) slot = false) : grantRound core s = s := by
  have hnone : (upFrom 0 11).filter (slotFree (coreOf s core)) = [] := by
    rw [List.filter_eq_nil_iff]
    intro slot hslot hfree
    obtain ⟨-, hlt⟩ := (mem_upFrom _ _ _).1 hslot
    rw [hf slot (by omega)] at hfree
    cases hfree
  unfold grantRound
  simp only [ht, hnone, List.isEmpty_nil, Bool.not_true, Bool.and_false]
  rfl

theorem zeroed_restored {l : List (Nat × Nat)} {cls : Nat} : (l.filter (·.1 != cls)).any (·.1 == cls) = false := by
  rw [List.any_eq_false]
  intro e he
  simpa using (List.mem_filter.1 he).2

theorem find?_restored (l : List (Nat × Nat)) (cls weight : Nat) :
    (l.filter (·.1 != cls) ++ [(cls, weight)]).find? (·.1 == cls) = some (cls, weight) := by
  have h : (l.filter (·.1 != cls)).find? (·.1 == cls) = none := by
    rw [List.find?_eq_none]
    intro e he
    simpa using (List.mem_filter.1 he).2
  rw [List.find?_append, h]
  simp

theorem islandOf_put (s : State) (i j : Nat) (x : Island) :
    islandOf { s with islands := put s.islands i x } j = if j = i then x else islandOf s j := by
  unfold islandOf lookD
  dsimp only
  rw [look_put]
  split <;> rfl

theorem grantRounds : Claims.GrantRounds := by
  refine ⟨fun core s t ht hrun hc hr => ⟨fun hb hf => ?_, fun hf => ?_⟩, fun core s h => ?_, ?_⟩
  · let r := onCore s core fun k => { k with rounded := true }
    have hcore : coreOf r core = { coreOf s core with rounded := true } := coreOf_onCore_same _ _ _
    have hround := grantRound_grants (core := core) (s := r) (t := t) (by rw [hcore]; exact ht) (by rw [hcore]; exact hrun)
      (by rw [hcore, badQueue_rounded]; exact hb) (by rw [hcore]; exact hf)
    rw [hcore] at hround
    show Host.Outcome.next (pendingRound core s) = _
    rw [pendingRound_due hc hr]
    exact congrArg Host.Outcome.next hround
  · let r := onCore s core fun k => { k with rounded := true }
    have hcore : coreOf r core = { coreOf s core with rounded := true } := coreOf_onCore_same _ _ _
    show Host.Outcome.next (pendingRound core s) = _
    rw [pendingRound_due hc hr]
    exact congrArg Host.Outcome.next (grantRound_full (t := t) (by rw [hcore]; exact ht) (by rw [hcore]; exact hf))
  · refine congrArg Host.Outcome.next (if_neg ?_)
    rintro ⟨h1, h2⟩
    rcases h with h | h
    · exact h h1
    · rw [h] at h2; cases h2
  · intro island cls weight s hz h1 h16
    refine ⟨_, if_pos ⟨hz, h1, h16⟩, ?_, fun i hi => ?_, rfl⟩
    · unfold weightOf'
      simp only [islandOf_put, if_true, zeroed_restored, find?_restored]
      rfl
    · rw [islandOf_put, if_neg hi]

/-! ### Pre-emption and slices (R51, R52, R252, R424) -/

theorem giveBack_keeps (s : State) (id : CtxId) : ctxOf (giveBack s id) id = ctxOf s id ∧ (giveBack s id).memory = s.memory := by
  have drop (s : State) (x : Context) : ctxOf (dropClaim s x) id = ctxOf s id ∧ (dropClaim s x).memory = s.memory := by
    unfold dropClaim
    split
    · split
      · unfold claimGranules
        exact foldl_keeps (fun t => ctxOf t id = ctxOf s id ∧ t.memory = s.memory) _ _ _ ⟨rfl, rfl⟩ fun _ _ h => h
      · exact ⟨rfl, rfl⟩
    · exact ⟨rfl, rfl⟩
  have leave : ctxOf (onCore s id.core (leaveHeld id.slot)) id = ctxOf s id := ctxOf_onCore _ _ _ _ rfl
  unfold giveBack
  dsimp only
  split
  · exact ⟨(ctxOf_onCore _ _ _ _ rfl).trans leave, rfl⟩
  · obtain ⟨h1, h2⟩ := drop (onCore s id.core (leaveHeld id.slot)) (ctxOf (onCore s id.core (leaveHeld id.slot)) id)
    exact ⟨h1.trans leave, h2⟩

theorem stopContext_live {s : State} {id : CtxId} (h : (ctxOf s id).status = .live) :
    ctxOf (stopContext s id) id = { settled (ctxOf s id) with status := .stopped } ∧
      (stopContext s id).memory = s.memory := by
  obtain ⟨hctx, hmem⟩ := giveBack_keeps s id
  unfold stopContext
  rw [ctxOf_onCtx_same, hctx]
  exact ⟨if_pos h, hmem⟩

theorem slicesAndPreemption : Claims.SlicesAndPreemption := by
  refine ⟨fun core slot s hslot => ⟨fun hl hs => ?_, fun hl hs => ?_⟩, fun leave enter s r t u hr ht hfit hu => ?_⟩
  · obtain ⟨hctx, hmem⟩ := stopContext_live hl
    refine ⟨stopContext s ⟨core, slot⟩, ?_, by rw [hctx], by rw [hctx]; rfl, by rw [hctx]; rfl, hmem⟩
    show execContextPreempt core slot s = _
    unfold execContextPreempt
    dsimp only
    rw [if_neg (by omega), if_pos ⟨hl, hs⟩]
  · show execContextPreempt core slot s = _
    unfold execContextPreempt
    dsimp only
    rw [if_neg (by omega), if_neg (by simp [hs]), if_pos (.inl hl)]
  · show execSliceBoundary leave enter s = _
    unfold execSliceBoundary
    rw [hr, Option.bind_some, ht]
    dsimp only
    rw [if_pos hfit, hu]

/-- Settles O42: each branch of the round, of the restored weight, of a pre-emption and of a boundary. -/
theorem grantsAndSlices : Obligations.GrantsAndSlices := ⟨grantRounds, slicesAndPreemption⟩

end Sys2Proof.Machine
end

section
namespace Sys2Proof.Machine
open Sys2Proof.Claims

/-! ### Copies at their issue (R128 to R132, R295, R296) -/

theorem checkEngine_ok {p : Pin} {s : State} (h : pinnedByOther (myCore s) (who s).slot p = false) :
    checkEngine p s = .ok ((), s) := by
  unfold checkEngine
  rw [act_get_bind]
  exact require_ok (by rw [h]; rfl)

theorem raiseRecorded_none {ch : Nat} {s : State} (h : (channelOf (myCore s) ch).fault = none) :
    raiseRecorded ch s = .ok ((), s) := by
  unfold raiseRecorded
  rw [act_get_bind]
  dsimp only
  rw [h] <;> rfl

theorem raiseRecorded_some {ch : Nat} {t : Trap} {s : State} (h : (channelOf (myCore s) ch).fault = some t) :
    raiseRecorded ch s =
      .error (.done (deliverTrap t (setChannel s (who s).core ch { channelOf (myCore s) ch with fault := none }))) := by
  unfold raiseRecorded
  rw [act_get_bind]
  dsimp only
  rw [h] <;> rfl

theorem checkCopy_ok {a b c : Reg} {ch : Fin 4} {land : Bool} {s : State} (h : CopyMay s a b c ch land) :
    checkCopy a b c ch.val land s = .ok ((), s) := by
  obtain ⟨hres, hst, hld, heng, hrec, ⟨h16, hmin, hmax⟩, ⟨hsrc, hdst⟩, hfits, -⟩ := h
  have hsize : ¬ ((reg64 s c).toNat % 16 ≠ 0 ∨ (reg64 s c).toNat < 16 ∨ (reg64 s c).toNat > 2 ^ 20 ∨
      capAddr (reg s b) % 16 ≠ 0) := by omega
  unfold checkCopy
  rw [act_get_bind]
  cases land with
  | false =>
    simp only [Bool.not_false, if_true, Bool.false_eq_true, false_and, if_false, true_and]
    rw [act_bind_ok _ _ _ _ _ (checked_ok (hst rfl)), act_bind_ok _ _ _ _ _ (checked_ok hld),
      act_bind_ok _ _ _ _ _ (checkEngine_ok heng), act_bind_ok _ _ _ _ _ (needResident_ok hres),
      act_bind_ok _ _ _ _ _ (raiseRecorded_none hrec), if_neg hsize, if_neg (not_not.2 (hdst rfl))]
    rfl
  | true =>
    have hland : ¬ ((reg64 s a).toNat % 16 ≠ 0 ∨ (reg64 s a).toNat + (reg64 s c).toNat > stagingSize (myCore s)) := by
      obtain ⟨h1, h2⟩ := hfits rfl
      omega
    simp only [Bool.not_true, Bool.false_eq_true, false_and, if_false, true_and]
    rw [act_bind_ok _ _ _ _ _ (checked_ok hld), act_bind_ok _ _ _ _ _ (checkEngine_ok heng),
      act_bind_ok _ _ _ _ _ (needResident_ok hres), act_bind_ok _ _ _ _ _ (raiseRecorded_none hrec), if_neg hsize,
      if_neg hland]
    rfl

theorem copyBody_idle {a b c : Reg} {ch : Fin 4} {land : Bool} {s : State} (h : CopyMay s a b c ch land)
    (hx : (channelOf (myCore s) ch.val).xfer = none) :
    copyBody a b c ch.val land s = .ok ((), startCopy a b c ch.val land s) := by
  unfold copyBody
  rw [act_bind_ok _ _ _ _ _ (checkCopy_ok h), act_get_bind, hx]
  cases land with
  | false =>
    simp only [h.owned rfl, Option.isSome_none, Bool.false_eq_true, if_false, Bool.not_false, if_true]
    rfl
  | true => rfl

theorem copyBody_busy {a b c : Reg} {ch : Fin 4} {land : Bool} {s : State} (h : CopyMay s a b c ch land)
    (hx : (channelOf (myCore s) ch.val).xfer ≠ none) : copyBody a b c ch.val land s = .error (.hold (.channel ch.val)) := by
  unfold copyBody
  rw [act_bind_ok _ _ _ _ _ (checkCopy_ok h), act_get_bind]
  dsimp only
  rw [if_pos (Option.isSome_iff_ne_none.2 hx)]
  rfl

section
variable {ch : Nat} {s : State} (hres : isBasecamp (who s).core = false)
  (heng : pinnedByOther (myCore s) (who s).slot (channelPin ch) = false)
include hres heng

theorem copyWaitBody_checked : copyWaitBody ch s =
    (if (channelOf (myCore s) ch).xfer.isSome then (hold (.channel ch) : Act Unit) >>= fun _ => raiseRecorded ch
      else raiseRecorded ch) s := by
  unfold copyWaitBody
  rw [act_bind_ok _ _ _ _ _ (checkEngine_ok heng), act_bind_ok _ _ _ _ _ (needResident_ok hres), act_get_bind]

theorem copyPointBody_reached {d b : Reg} {imm : BitVec 24} (hp : ¬ (channelOf (myCore s) ch).wp < copyPoint s b imm ∨
      (channelOf (myCore s) ch).xfer = none ∧ (channelOf (myCore s) ch).fault = none) :
    copyPointBody d ch b imm s = .ok ((), writeInt d 64 (channelOf (myCore s) ch).wp s) := by
  unfold copyPointBody
  rw [act_bind_ok _ _ _ _ _ (checkEngine_ok heng), act_bind_ok _ _ _ _ _ (needResident_ok hres), act_get_bind]
  dsimp only
  split
  next hlt =>
    obtain ⟨hx, hf⟩ := hp.resolve_left (not_not.2 hlt)
    rw [hx]
    show (raiseRecorded ch >>= fun _ => modify (writeInt d 64 (channelOf (myCore s) ch).wp)) s = _
    rw [act_bind_ok _ _ _ _ _ (raiseRecorded_none hf)]
    rfl
  next => rfl

theorem copyPointBody_short {d b : Reg} {imm : BitVec 24} (hp : (channelOf (myCore s) ch).wp < copyPoint s b imm)
    (hx : (channelOf (myCore s) ch).xfer ≠ none) :
    copyPointBody d ch b imm s = .error (.hold (.point ch (copyPoint s b imm).toNat)) := by
  unfold copyPointBody
  rw [act_bind_ok _ _ _ _ _ (checkEngine_ok heng), act_bind_ok _ _ _ _ _ (needResident_ok hres), act_get_bind]
  dsimp only
  refine (congrFun (if_pos hp) s).trans ?_
  rw [if_pos (Option.isSome_iff_ne_none.2 hx)]
  rfl

end

theorem copyIssue : Claims.CopyIssue := by
  intro a b c d ch land imm s
  refine ⟨fun h => ⟨fun hx => slow_ok _ _ _ _ (copyBody_idle h hx), fun hx => slow_hold _ _ _ _ (copyBody_busy h hx)⟩,
    fun r hres heng => ?_⟩
  have hwait := copyWaitBody_checked hres heng
  refine ⟨fun hx hf => ?_, fun hx => ?_, fun t hx hf => ?_, fun hp => ?_, fun hp hx => ?_⟩
  · refine slow_ok 4 (copyWaitBody r.val) s s ?_
    rw [hwait, hx]
    exact raiseRecorded_none hf
  · refine slow_hold 4 (copyWaitBody r.val) s _ ?_
    rw [hwait, if_pos (Option.isSome_iff_ne_none.2 hx)]
    rfl
  · refine slow_done 4 (copyWaitBody r.val) s _ ?_
    rw [hwait, if_neg (by rw [hx]; decide)]
    exact raiseRecorded_some hf
  · exact slow_ok _ _ _ _ (copyPointBody_reached hres heng (hp.imp_left not_lt.2))
  · exact slow_hold _ _ _ _ (copyPointBody_short hres heng hp hx)

/-! ### Deliveries (R129 to R133, R320) -/

theorem stopIn_eq {k : Core} {ch : Nat} {t : Trap} {x : Transfer} (h : (channelOf k ch).xfer = some x) :
    stopIn k ch t = { k with
      channels := put k.channels ch { channelOf k ch with xfer := none, fault := some t, stopped := true, asked := none }
      held := k.held.map fun h => if h.awaits = some x.number then { h with lost := true } else h } := by
  unfold stopIn
  dsimp only
  rw [h]
  simp only [Option.any_some, decide_eq_true_eq]

theorem copyDeliveries : Claims.CopyDeliveries := by
  intro core ch s x hx c hp hl ho
  have hfree : (copyPaused s x.owner || ((pieces (capAddr x.src + c.wp) (pieceEnd x c.wp - c.wp)).map (·.1)).any
      (ownedBefore s x.number) || landsLater (coreOf s core) x) = false := by
    rw [hp, hl, Bool.or_false, Bool.false_or, List.any_map, List.any_eq_false]
    intro l hmem
    simp [ho l hmem]
  have hrun : exec (.copyDelivery core ch) s = match deliverPiece core x c.wp (pieceEnd x c.wp - c.wp)
        (withoutOwners x.number s) with
      | .ok (_, t) => .next (setChannel (withOwners s t) core ch.val (reached c x (pieceEnd x c.wp)))
      | .error (.trap t) => .next (onCore s core fun k => stopIn k ch.val t)
      | .error e =>
        finishAsking ((funcOfTeam s (coreOf s core).team).getD 0)
          (((coreOf s core).team.bind (teamBy s)).map (·.domain) |>.getD 0) (fun _ => .error e)
          (fun n s => setChannel s core ch.val { channelOf (coreOf s core) ch.val with asked := some n }) s := by
    show execCopyDelivery core ch s = _
    unfold execCopyDelivery
    dsimp only
    rw [hx]
    dsimp only
    rw [if_neg (by rw [hfree]; exact Bool.false_ne_true)] <;> rfl
  refine ⟨fun t ht => ?_, fun e he => ?_⟩
  · rw [hrun, ht]
  · rw [hrun, he]
    refine congrArg (fun k => Host.Outcome.next (setCore s core k)) (stopIn_eq hx)

/-- Settles O43: the checks of a copy in their order, the waits, and the two ends of a piece. -/
theorem copyChannels : Obligations.CopyChannels := ⟨copyIssue, copyDeliveries⟩

end Sys2Proof.Machine
end

section
namespace Sys2Proof.Machine
open Sys2Proof.Claims

/-! ### Covered granules (R142, R357, R358) -/

theorem moraineFree_zero {domain granule step : Nat} {s : State}
    (hz : (granuleAt (domainOf s domain) granule).state = .zero step)
    (hr : stillReached s ((domainOf s domain).covbase.toNat + granule) = false)
    (hl : lowerFirst (domainOf s domain) granule step = false) :
    exec (.moraineFree domain granule) s =
      .next { setGranule s domain granule { granuleAt (domainOf s domain) granule with state := .scrub } with
        scrub := s.scrub ++ [⟨.granule domain granule, none⟩] } := by
  show execMoraineFree domain granule s = _
  unfold execMoraineFree
  dsimp only
  rw [hz]
  dsimp only
  rw [if_neg (by rw [hr, hl]; decide)]

theorem domainOf_onDomain_same (s : State) (d : Nat) (f : Domain → Domain) :
    domainOf (onDomain s d f) d = f (domainOf s d) := lookD_put_same _ _ _ _

theorem domainOf_onDomain_other {s : State} {d e : Nat} {f : Domain → Domain} (h : e ≠ d) :
    domainOf (onDomain s d f) e = domainOf s e := lookD_put_other _ _ _ _ _ h

theorem granuleAt_setGranule (s : State) (dom i : Nat) (g : Granule) :
    granuleAt (domainOf (setGranule s dom i g) dom) i = g := by
  unfold setGranule
  rw [domainOf_onDomain_same]
  exact lookD_putD_same _ _ _ _

theorem coveredStorage : Claims.CoveredStorage := by
  refine ⟨fun domain granule step s hz hr hl => ⟨_, moraineFree_zero hz hr hl, ?_, rfl, rfl⟩, ?_⟩
  · exact congrArg Granule.state (granuleAt_setGranule s domain granule _)
  · intro core slot base n dom dst status s hl hw hd hfree
    have hlost : claimLost (domainOf s dom) (base - (domainOf s dom).covbase.toNat) n = false := by
      unfold claimLost
      rw [List.any_eq_false]
      intro j hj
      rcases hfree j hj with h | h <;> rw [h] <;> decide
    have hall : (upFrom (base - (domainOf s dom).covbase.toNat) n).all
        (fun j => granuleFree (granuleAt (domainOf s dom) j).state) = true := by
      rw [List.all_eq_true]
      intro j hj
      rcases hfree j hj with h | h <;> rw [h] <;> rfl
    show execCoveredAllocation core slot s = _
    unfold execCoveredAllocation
    dsimp only
    rw [hw]
    dsimp only
    rw [hd]
    dsimp only
    rw [if_neg (by rw [hlost]; decide), if_pos ⟨hl, hall⟩]
    rfl

/-! ### The claim of a run (R298, R358) -/

/-- The run of `n` granules at `i` may be claimed. -/
def RunAt (d : Domain) (n i : Nat) : Prop := ∀ j, i ≤ j → j < i + n → claimable d j = true

/-- What a search from `i` finds, when the `run` granules before `i` are claimable and no run starts earlier. -/
theorem claimRun_finds {d : Domain} {size n fuel i run : Nat} (hfuel : size < fuel + i) (hi : i ≤ size) (hrun : run ≤ n)
    (hri : run ≤ i) (hback : ∀ j, i - run ≤ j → j < i → claimable d j = true) (hnone : ∀ k < i - run, ¬ RunAt d n k) :
    match claimRun d size n fuel i run with
    | some k => k + n ≤ size ∧ RunAt d n k ∧ ∀ k' < k, ¬ RunAt d n k'
    | none => ∀ k, k + n ≤ size → ¬ RunAt d n k := by
  induction fuel generalizing i run with
  | zero => omega
  | succ fuel ih =>
    unfold claimRun
    by_cases hn : run = n
    · rw [if_pos hn]
      subst hn
      exact ⟨by omega, fun j h1 h2 => hback j h1 (by omega), hnone⟩
    · rw [if_neg hn]
      by_cases hsize : i < size
      · rw [if_pos hsize]
        by_cases hc : claimable d i = true
        · rw [if_pos hc]
          refine ih (by omega) (by omega) (by omega) (by omega) (fun j h1 h2 => ?_) (fun k hk => hnone k (by omega))
          by_cases hj : j = i
          · rw [hj]; exact hc
          · exact hback j (by omega) (by omega)
        · rw [if_neg hc]
          refine ih (by omega) (by omega) (by omega) (by omega) (fun j h1 h2 => by omega) (fun k hk hr => ?_)
          by_cases hk' : k < i - run
          · exact hnone k hk' hr
          · exact hc (hr i (by omega) (by omega))
      · rw [if_neg hsize]
        exact fun k hk => hnone k (by omega)

theorem claimRun_none {d : Domain} {size n : Nat} (h : ∀ i, i + n ≤ size → ¬ RunAt d n i) :
    claimRun d size n (size + 1) 0 0 = none := by
  have hf := claimRun_finds (d := d) (size := size) (n := n) (fuel := size + 1) (i := 0) (run := 0) (by omega) (by omega)
    (by omega) (by omega) (fun j _ hj => by omega) (fun k hk => by omega)
  cases hc : claimRun d size n (size + 1) 0 0 with
  | none => rfl
  | some k =>
    rw [hc] at hf
    exact absurd hf.2.1 (h k hf.1)

theorem claimRun_lowest {d : Domain} {size n i : Nat} (hi : i + n ≤ size) (hr : RunAt d n i)
    (hlow : ∀ i' < i, ¬ RunAt d n i') : claimRun d size n (size + 1) 0 0 = some i := by
  have hf := claimRun_finds (d := d) (size := size) (n := n) (fuel := size + 1) (i := 0) (run := 0) (by omega) (by omega)
    (by omega) (by omega) (fun j _ hj => by omega) (fun k hk => by omega)
  cases hc : claimRun d size n (size + 1) 0 0 with
  | none =>
    rw [hc] at hf
    exact absurd hr (hf i hi)
  | some k =>
    rw [hc] at hf
    obtain ⟨-, hk, hfirst⟩ := hf
    rcases Nat.lt_trichotomy k i with h | h | h
    · exact absurd hk (hlow k h)
    · rw [h]
    · exact absurd hr (hfirst i h)

theorem not_runAt {d : Domain} {n i : Nat} (h : ∃ j, i ≤ j ∧ j < i + n ∧ claimable d j = false) : ¬ RunAt d n i := by
  obtain ⟨j, h1, h2, h3⟩ := h
  intro hr
  rw [hr j h1 h2] at h3
  cases h3

theorem allocFails_ok (a d : Reg) (status : Nat) (s : State) :
    allocFails a d status s = .ok ((), writeInt d 64 status (writeCap a Cap.null s)) := rfl

theorem allocBody_bad {a d : Reg} {n : Nat} {s : State} (h : n % 65536 ≠ 0 ∨ n = 0 ∨ 2 ^ 32 ≤ n) :
    allocBody a d n s = .ok ((), writeInt d 64 1 (writeCap a Cap.null s)) := by
  have hbad : n % granuleSize ≠ 0 ∨ n < granuleSize ∨ n > 2 ^ 32 - granuleSize := by unfold granuleSize; omega
  unfold allocBody
  rw [act_get_bind, if_pos hbad, allocFails_ok]

/-- The search of an allocation: of a team's domain. -/
theorem allocBody_searched {a d : Reg} {n : Nat} {s : State} (h0 : n % 65536 = 0) (h1 : 0 < n) (h2 : n < 2 ^ 32)
    {found : Option Nat} (hf : (if (teamOf s (who s)).isSome then claimRun (domainOf s (myDomain s))
      (domainOf s (myDomain s)).covgran.toNat (n / 65536) ((domainOf s (myDomain s)).covgran.toNat + 1) 0 0 else none) =
      found) :
    allocBody a d n s = match found with
      | none => .ok ((), writeInt d 64 2 (writeCap a Cap.null s))
      | some i => .error (.done (onMe (claimGranules s (myDomain s) i (n / 65536) true) fun y =>
          { y with wait := .covered ((domainOf s (myDomain s)).covbase.toNat + i) (n / 65536) a d })) := by
  have hgood : ¬ (n % granuleSize ≠ 0 ∨ n < granuleSize ∨ n > 2 ^ 32 - granuleSize) := by unfold granuleSize; omega
  have hsize : n / granuleSize = n / 65536 := rfl
  unfold allocBody
  rw [act_get_bind, if_neg hgood]
  simp only [hsize, hf]
  cases found <;> rfl

theorem coveredClaims : Claims.CoveredClaims := by
  intro a d c imm s
  have hn : (opReg s c imm).toNat = (secondOperand s (.ext c imm)).toNat := by rw [opReg_eq]
  have hexec : exec (.valloc a d c imm) s = slow 12 (allocBody a d (secondOperand s (.ext c imm)).toNat) s := by
    rw [← hn]
    rfl
  rw [hexec]
  refine ⟨fun h => slow_ok _ _ _ _ (allocBody_bad h), fun h0 h1 h2 h => ?_, fun i h0 h1 h2 ht hi hr hlow => ?_⟩
  · refine slow_ok _ _ _ _ (allocBody_searched (found := none) h0 h1 h2 ?_)
    rw [claimRun_none fun i hi => not_runAt (h i hi), ite_self]
  · refine slow_done _ _ _ _ (allocBody_searched (found := some i) h0 h1 h2 ?_)
    rw [if_pos ht, claimRun_lowest hi hr fun i' hi' => not_runAt (hlow i' hi')]

/-! ### Counted pages (R149 to R154) -/

theorem kvPage_setKvPage_same (s : State) (dom i : Nat) (p : KvPage) :
    kvPage (domainOf (setKvPage s dom i p) dom) i = p := by
  unfold setKvPage
  rw [domainOf_onDomain_same]
  exact lookD_putD_same _ _ _ _

theorem kvPage_setKvPage_other {s : State} {dom i j : Nat} {p : KvPage} (h : j ≠ i) :
    kvPage (domainOf (setKvPage s dom i p) dom) j = kvPage (domainOf s dom) j := by
  unfold setKvPage
  rw [domainOf_onDomain_same]
  exact lookD_putD_other _ _ _ _ _ _ h

theorem kvCount_setKvPage_counted (s : State) (dom i n : Nat) :
    kvCount (domainOf (setKvPage s dom i (.counted n)) dom) i = n := by
  unfold kvCount
  rw [kvPage_setKvPage_same]

theorem lowerCount_last {s : State} {dom i : Nat} (h : kvCount (domainOf s dom) i ≤ 1) :
    lowerCount s dom i = { setKvPage s dom i .scrub with scrub := s.scrub ++ [⟨.kv dom i, none⟩] } := if_pos h

theorem lowerCount_more {s : State} {dom i : Nat} (h : 2 ≤ kvCount (domainOf s dom) i) :
    lowerCount s dom i = setKvPage s dom i (.counted (kvCount (domainOf s dom) i - 1)) := if_neg (by omega)

theorem pageCounts : Claims.PageCounts := by
  intro s dom i
  refine ⟨kvCount_setKvPage_counted _ _ _ _, fun h => ?_, fun h => ?_, fun j hj => ⟨kvPage_setKvPage_other hj, ?_⟩⟩
  · rw [lowerCount_more h]
    exact ⟨kvCount_setKvPage_counted _ _ _ _, rfl⟩
  · rw [lowerCount_last h]
    exact ⟨kvPage_setKvPage_same s dom i _, rfl⟩
  · rcases Nat.lt_or_ge 1 (kvCount (domainOf s dom) i) with h | h
    · rw [lowerCount_more h]
      exact kvPage_setKvPage_other hj
    · rw [lowerCount_last h]
      exact kvPage_setKvPage_other (s := s) hj

/-- Settles O44: the search finds the lowest claimable run, and the counts read what was set. -/
theorem countedStorage : Obligations.CountedStorage := ⟨coveredStorage, coveredClaims, pageCounts⟩

end Sys2Proof.Machine
end

section
namespace Sys2Proof.Machine
open Sys2Proof.Claims

/-! ### Fences (R166, R292, R309) -/

theorem raiseFailure_none {p : Nat × Nat × Nat → Bool} {s : State} (h : ∀ f ∈ (me s).failures, p f = false) :
    raiseFailure p s = .ok ((), s) := by
  have hf : (me s).failures.find? p = none := List.find?_eq_none.2 fun f hmem => by simp [h f hmem]
  unfold raiseFailure
  rw [act_get_bind, hf] <;> rfl

theorem raiseFailure_first {p : Nat × Nat × Nat → Bool} {s : State} {f : Nat × Nat × Nat}
    {earlier later : List (Nat × Nat × Nat)} (hl : (me s).failures = earlier ++ f :: later) (he : ∀ g ∈ earlier, p g = false)
    (hp : p f = true) : raiseFailure p s = .error (.done (deliverTrap ⟨causeMessage, f.2.2, 0⟩
      (onMe s fun x => { x with failures := x.failures.filter (· != f) }))) := by
  have hf : (me s).failures.find? p = some f :=
    List.find?_eq_some_iff_append.2 ⟨hp, earlier, later, hl, fun g hg => by simp [he g hg]⟩
  unfold raiseFailure
  rw [act_get_bind, hf] <;> rfl

theorem fenceBody_over {sc : Scope} {s : State} (h : fenceWaits s (who s) sc = false) :
    fenceBody sc s = (raiseFailure (fun f => scopeCovers s (who s).core sc f.2.1) >>= fun _ =>
      modify fun s => onMe s fun x => { x with transfers := [] }) s := by
  unfold fenceBody
  rw [act_get_bind, if_neg (by rw [h]; decide)]

theorem fences : Claims.Fences := by
  intro sc s
  refine ⟨fun h => ?_, fun h hf => ?_, fun f earlier later h hl he hp => ?_⟩
  · refine slow_hold 12 (fenceBody sc) s _ ?_
    unfold fenceBody
    rw [act_get_bind, if_pos h]
    rfl
  · refine slow_ok 12 (fenceBody sc) s _ ?_
    rw [fenceBody_over h, act_bind_ok _ _ _ _ _ (raiseFailure_none hf)]
    rfl
  · refine slow_done 12 (fenceBody sc) s _ ?_
    rw [fenceBody_over h, act_bind_error _ _ _ _ (raiseFailure_first hl he hp)]

/-! ### The bytes of a range, sector by sector -/

/-- Each piece of a range lies in one sector, and the next begins where it ends. -/
theorem piecesFrom_step {fuel a n : Nat} (h : n ≠ 0) :
    piecesFrom (fuel + 1) a n = (a, min n (64 - a % 64)) ::
      piecesFrom fuel (a + min n (64 - a % 64)) (n - min n (64 - a % 64)) := by
  rw [piecesFrom, if_neg h]

/-- Bytes of a list put into memory piece by piece, under a key. -/
def putPiece (key base : Nat) (bs : List Byte) (t : State) (e : Nat × Nat) : State :=
  physPut t key e.1 ((bs.drop (e.1 - base)).take e.2) false

theorem byte_putPiece_inside {key base : Nat} {bs : List Byte} {t : State} {a m k : Nat} (hk : k < m)
    (hm : a - base + m ≤ bs.length) : (putPiece key base bs t (a, m)).memory.byte (a + k) = bs.getD (a - base + k) 0 := by
  have hlen : k < ((bs.drop (a - base)).take m).length := by rw [List.length_take, List.length_drop]; omega
  refine (byte_writeKeyed_inside _ _ _ _ _ _ hlen).trans ?_
  rw [List.getElem_take, List.getElem_drop, List.getD_eq_getElem _ _ (by omega)]

theorem byte_putPiece_outside {key base : Nat} {bs : List Byte} {t : State} {a m x : Nat} (hx : x / 64 ≠ a / 64)
    (hm : a % 64 + m ≤ 64) : (putPiece key base bs t (a, m)).memory.byte x = t.memory.byte x := by
  refine byte_writeKeyed _ _ _ _ _ _ hx ?_
  rw [List.length_take]
  omega

/-- What the pieces of a range leave: its bytes there, and memory outside its sectors. -/
theorem byte_putPieces {key base : Nat} {bs : List Byte} {fuel a n : Nat} {t : State} (hfuel : n ≠ 0 → n + a % 64 ≤ 64 * fuel)
    (ha : base ≤ a) (hn : a - base + n = bs.length) :
    (∀ k < n, ((piecesFrom fuel a n).foldl (putPiece key base bs) t).memory.byte (a + k) = bs.getD (a - base + k) 0) ∧
      ∀ x, (∀ k < n, (a + k) / 64 ≠ x / 64) →
        ((piecesFrom fuel a n).foldl (putPiece key base bs) t).memory.byte x = t.memory.byte x := by
  induction fuel generalizing a n t with
  | zero =>
    obtain rfl : n = 0 := by omega
    exact ⟨fun k hk => by omega, fun _ _ => rfl⟩
  | succ fuel ih =>
    by_cases h0 : n = 0
    · subst h0
      rw [piecesFrom, if_pos rfl]
      exact ⟨fun k hk => by omega, fun _ _ => rfl⟩
    · obtain ⟨m, hm⟩ : ∃ m, m = min n (64 - a % 64) := ⟨_, rfl⟩
      have hmn : m = n ∧ n + a % 64 ≤ 64 ∨ m = 64 - a % 64 ∧ m < n := by omega
      have := hfuel h0
      rw [piecesFrom_step h0, ← hm, List.foldl_cons]
      obtain ⟨hin, hout⟩ := ih (a := a + m) (n := n - m) (t := putPiece key base bs t (a, m)) (by omega) (by omega) (by omega)
      refine ⟨fun k hk => ?_, fun x hx => ?_⟩
      · by_cases hkm : k < m
        · rw [hout (a + k) (fun j hj => by omega)]
          exact byte_putPiece_inside hkm (by omega)
        · have := hin (k - m) (by omega)
          rw [show a + m + (k - m) = a + k by omega, show a + m - base + (k - m) = a - base + k by omega] at this
          exact this
      · have ha0 := hx 0 (by omega)
        rw [hout x (fun j hj => ?_)]
        · exact byte_putPiece_outside (by simpa using Ne.symm ha0) (by omega)
        · have := hx (m + j) (by omega)
          rwa [← Nat.add_assoc] at this

theorem putPieces_pending {key base : Nat} {bs : List Byte} {l : List (Nat × Nat)} {t : State} :
    (l.foldl (putPiece key base bs) t).pending = t.pending :=
  foldl_keeps (fun u : State => u.pending = t.pending) _ _ _ rfl fun _ _ h => h

/-! ### Stores that become visible (R167, R172) -/

theorem makeVisible_eq {s : State} {i : Nat} {p : PendingStore} (h : s.pending[i]? = some p) :
    makeVisible s i = raiseTags p.tags ((pieces p.address p.bytes.length).foldl (putPiece p.key p.address p.bytes)
      { s with pending := (s.pending.take i).map (patchStore p.address p.bytes p.tags) ++ s.pending.drop (i + 1) }) := by
  unfold makeVisible
  rw [h] <;> rfl

theorem length_leaves {α : Type} {l : List α} {i : Nat} {x : α} (h : l[i]? = some x) (f : α → α) :
    ((l.take i).map f ++ l.drop (i + 1)).length + 1 = l.length := by
  obtain ⟨hi, -⟩ := List.getElem?_eq_some_iff.1 h
  rw [List.length_append, List.length_map, List.length_take, List.length_drop]
  omega

theorem hostVisibility : Claims.HostVisibility := by
  intro i s p hp
  have hrun : exec (.hostVisibility i) s = if p.release ∧ (s.pending.take i).any (·.uid == p.uid) then .next s
      else .next (makeVisible s i) := by
    show execHostVisibility i s = _
    unfold execHostVisibility
    rw [hp]
  have hany : (s.pending.take i).any (·.uid == p.uid) = true ↔ ∃ q ∈ s.pending.take i, q.uid = p.uid := by
    rw [List.any_eq_true]
    simp only [beq_iff_eq]
  refine ⟨fun h => ⟨makeVisible s i, ?_, ?_⟩, fun hr hq => ?_⟩
  · rw [hrun, if_neg]
    rintro ⟨hr, ha⟩
    obtain ⟨q, hq, hu⟩ := hany.1 ha
    exact h hr q hq hu
  · rw [makeVisible_eq hp]
    obtain ⟨hin, hout⟩ := byte_putPieces (key := p.key) (base := p.address) (bs := p.bytes)
      (fuel := p.bytes.length / 64 + 2) (a := p.address) (n := p.bytes.length)
      (t := { s with pending := (s.pending.take i).map (patchStore p.address p.bytes p.tags) ++ s.pending.drop (i + 1) })
      (by omega) (Nat.le_refl _) (by omega)
    refine ⟨?_, fun k hk => (hin k hk).trans (by rw [Nat.sub_self, Nat.zero_add]), fun a ha => hout a ha⟩
    refine Eq.trans ?_ (length_leaves hp (patchStore p.address p.bytes p.tags))
    exact congrArg (·.length + 1) putPieces_pending
  · rw [hrun, if_pos ⟨hr, hany.2 hq⟩]

/-- Settles O45: the three ends of a fence; the pieces of a store that has become visible hold its bytes. -/
theorem fencesAndVisibility : Obligations.FencesAndVisibility := ⟨fences, hostVisibility⟩

end Sys2Proof.Machine
end

section
namespace Sys2Proof.Machine
open Sys2Proof.Claims

/-! ### Registers that a lane instruction reaches (R63, R64, R188) -/

theorem inWindowV_ok {s : State} {i : Int} {n : Nat} (h : InV s i n) : inWindowV i s = .ok (n, s) := by
  obtain ⟨h0, h1, h2⟩ := h
  unfold inWindowV
  rw [act_get_bind, require_bind_ok _ (by simp [h0, h1]), h2]
  rfl

theorem regA_ok {s : State} {a : Reg} {x : Index} {n : Nat} (h : InV s (fieldA s x a) n) : regA a x s = .ok (n, s) := by
  unfold regA
  rw [act_get_bind]
  exact inWindowV_ok h

theorem regB_ok {s : State} {b : Reg} {x : Index} {n : Nat} (h : InV s (fieldB s x b) n) : regB b x s = .ok (n, s) := by
  unfold regB
  rw [act_get_bind]
  exact inWindowV_ok h

theorem regC_ok {s : State} {c : Reg} {x : Index} {n : Nat} (h : InV s (fieldC s x c) n) : regC c x s = .ok (n, s) := by
  unfold regC
  rw [act_get_bind]
  exact inWindowV_ok h

theorem inV_plain {s : State} {r : Reg} (h : Plain s r) : InV s r.val r.val := by
  unfold Plain at h
  unfold InV
  omega

theorem reachA_plain {s : State} {r : Reg} (f : Fmt) (h : Plain s r) : ReachA s r (shortX f) r.val := inV_plain h
theorem reachB_plain {s : State} {r : Reg} (f : Fmt) (h : Plain s r) : ReachB s r (shortX f) r.val := inV_plain h
theorem reachC_plain {s : State} {r : Reg} (f : Fmt) (h : Plain s r) : ReachC s r (shortX f) r.val := inV_plain h

/-- Class 0b00 acts on every lane. -/
theorem acting_short (s : State) (f : Fmt) : acting s (shortX f).mask = BitVec.allOnes 64 := rfl

/-! ### Elements (R256) -/

theorem runDraws_ok {α : Type} (m : Draws α) (s : State) : runDraws m s = .ok (drawn m s) := rfl

theorem elementwise_ok (w a : Nat) (mask : BitVec 64) (f : Nat → Draws Nat) (s : State) :
    elementwise w a mask f s = .ok ((), elemsAfter a w mask f s) := rfl

section
variable {s : State} {x : VecX} {na nb nc : Nat}

theorem binaryBody_ok {a b c : Reg} (op : ElemOp) (ha : ReachA s a x na) (hb : ReachB s b x nb) (hc : ReachC s c x nc) :
    binaryBody a b c x op s =
      .ok ((), elemsAfter na x.fmt.width (acting s x.mask) (onElems op x.fmt x.rnd s na nb nc) s) := by
  unfold binaryBody
  rw [act_bind_ok _ _ _ _ _ (regA_ok ha), act_bind_ok _ _ _ _ _ (regB_ok hb), act_bind_ok _ _ _ _ _ (regC_ok hc),
    act_get_bind]
  exact elementwise_ok _ _ _ _ _

theorem unaryBody_ok {a b : Reg} (op : ElemOp) (ha : ReachA s a x na) (hb : ReachB s b x nb) :
    unaryBody a b x op s = .ok ((), elemsAfter na x.fmt.width (acting s x.mask) (onElem op x.fmt x.rnd s na nb) s) := by
  unfold unaryBody
  rw [act_bind_ok _ _ _ _ _ (regA_ok ha), act_bind_ok _ _ _ _ _ (regB_ok hb), act_get_bind]
  exact elementwise_ok _ _ _ _ _

end

/-! ### The rows of the two tables (R255 to R264) -/

/-- The fields of a row: whole lanes where it acts on them. -/
def rowX (bits : Bool) (x : VecX) : VecX := if bits then wholeLanes x else x

theorem rowX_fmt (bits : Bool) (x : VecX) : (rowX bits x).fmt = rowFmt bits x.fmt := by cases bits <;> rfl
theorem rowX_index (bits : Bool) (x : VecX) : (rowX bits x).index = x.index := by cases bits <;> rfl
theorem rowX_mask (bits : Bool) (x : VecX) : (rowX bits x).mask = x.mask := by cases bits <;> rfl
theorem rowX_rnd (bits : Bool) (x : VecX) : (rowX bits x).rnd = x.rnd := by cases bits <;> rfl

/-- What the instructions of a row do. -/
structure BinaryMeaning (r : BinaryRow) : Prop where
  short : ∀ a b c fmt s, exec (r.short a b c fmt) s = quick 4 (binaryBody a b c (rowX r.bits (shortX fmt)) r.op) s
  ext : ∀ a b c x s, exec (r.ext a b c x) s = quick 12 (binaryBody a b c (rowX r.bits x) r.op) s

structure UnaryMeaning (r : UnaryRow) : Prop where
  short : ∀ a b fmt s, exec (r.short a b fmt) s = quick 4 (unaryBody a b (rowX r.bits (shortX fmt)) r.op) s
  ext : ∀ a b x s, exec (r.ext a b x) s = quick 12 (unaryBody a b (rowX r.bits x) r.op) s

theorem binaryMeaning : ∀ r ∈ binaryRows, BinaryMeaning r := by
  simp only [binaryRows, List.forall_mem_cons, List.not_mem_nil, false_implies, implies_true, and_true]
  and_intros <;> exact ⟨fun _ _ _ _ _ => rfl, fun _ _ _ _ _ => rfl⟩

theorem unaryMeaning : ∀ r ∈ unaryRows, UnaryMeaning r := by
  simp only [unaryRows, List.forall_mem_cons, List.not_mem_nil, false_implies, implies_true, and_true]
  and_intros <;> exact ⟨fun _ _ _ _ => rfl, fun _ _ _ _ => rfl⟩

theorem binaryBody_row {s : State} {x : VecX} {na nb nc : Nat} {a b c : Reg} (bits : Bool) (op : ElemOp)
    (ha : ReachA s a x na) (hb : ReachB s b x nb) (hc : ReachC s c x nc) :
    binaryBody a b c (rowX bits x) op s = .ok ((), elemsAfter na (rowFmt bits x.fmt).width (acting s x.mask)
      (onElems op (rowFmt bits x.fmt) x.rnd s na nb nc) s) := by
  rw [← rowX_fmt, ← rowX_mask bits x, ← rowX_rnd bits x]
  apply binaryBody_ok
  · unfold ReachA; rw [rowX_index]; exact ha
  · unfold ReachB; rw [rowX_index]; exact hb
  · unfold ReachC; rw [rowX_index]; exact hc

theorem unaryBody_row {s : State} {x : VecX} {na nb : Nat} {a b : Reg} (bits : Bool) (op : ElemOp) (ha : ReachA s a x na)
    (hb : ReachB s b x nb) : unaryBody a b (rowX bits x) op s = .ok ((), elemsAfter na (rowFmt bits x.fmt).width
      (acting s x.mask) (onElem op (rowFmt bits x.fmt) x.rnd s na nb) s) := by
  rw [← rowX_fmt, ← rowX_mask bits x, ← rowX_rnd bits x]
  apply unaryBody_ok
  · unfold ReachA; rw [rowX_index]; exact ha
  · unfold ReachB; rw [rowX_index]; exact hb

theorem vectorBinary : Claims.VectorBinary := by
  refine ⟨fun r hr a b c fmt s ha hb hc => ?_, fun r hr a b c x s na nb nc ha hb hc => ?_,
    fun a b c x s na nb nc ha hb hc => ⟨?_, ?_, ?_⟩⟩
  · rw [(binaryMeaning r hr).short]
    exact quick_ok _ _ _ _ (binaryBody_row r.bits r.op (reachA_plain fmt ha) (reachB_plain fmt hb) (reachC_plain fmt hc))
  · rw [(binaryMeaning r hr).ext]
    exact quick_ok _ _ _ _ (binaryBody_row r.bits r.op ha hb hc)
  · exact quick_ok 12 (binaryBody a b c x (opAdd true)) s _ (binaryBody_ok _ ha hb hc)
  · exact quick_ok 12 (binaryBody a b c x (opSub true)) s _ (binaryBody_ok _ ha hb hc)
  · exact quick_ok 12 (binaryBody a b c x (opMul true)) s _ (binaryBody_ok _ ha hb hc)

theorem vectorUnary : Claims.VectorUnary := by
  refine ⟨fun r hr a b fmt s ha hb => ?_, fun r hr a b x s na nb ha hb => ?_, fun a b x s na nb ha hb => ⟨?_, ?_⟩⟩
  · rw [(unaryMeaning r hr).short]
    exact quick_ok _ _ _ _ (unaryBody_row r.bits r.op (reachA_plain fmt ha) (reachB_plain fmt hb))
  · rw [(unaryMeaning r hr).ext]
    exact quick_ok _ _ _ _ (unaryBody_row r.bits r.op ha hb)
  · exact quick_ok 12 (unaryBody a b x (opAbs true)) s _ (unaryBody_ok _ ha hb)
  · exact quick_ok 12 (unaryBody a b x (opNeg true)) s _ (unaryBody_ok _ ha hb)

/-- Settles O46: one shape for the instructions on two sources and one for those on one, applied to each row. -/
theorem vectorLanes : Obligations.VectorLanes := ⟨vectorBinary, vectorUnary⟩

/-! ### Which elements change (R189, R256) -/

theorem elemValues_pure {acts : Nat → Bool} {old g : Nat → Nat} {js : List Nat} {x : Context} :
    (elemValues acts old (fun j => pure (g j)) js).run x = (js.map fun j => if acts j then g j else old j, x) := by
  induction js with
  | nil => rfl
  | cons j rest ih =>
    unfold elemValues
    rw [List.map_cons]
    split
    · rw [pure_bind, StateT.run_bind, ih]
      rfl
    · rw [pure_bind, StateT.run_bind, ih]
      rfl

theorem newElems_pure {w : Nat} {acts : Nat → Bool} {v : VReg} {g : Nat → Nat} {x : Context} :
    (newElems w acts v fun j => pure (g j)).run x = (BitVec.ofNat 2048 (packElems w
      ((upFrom 0 (2048 / w)).map fun j => if acts j then g j else elem v w j)), x) := by
  unfold newElems
  rw [StateT.run_bind, elemValues_pure]
  rfl

theorem packElems_lt (w : Nat) (xs : List Nat) : packElems w xs < 2 ^ (w * xs.length) := by
  induction xs with
  | nil => exact Nat.one_pos
  | cons x rest ih =>
    rw [packElems, List.length_cons, Nat.mul_succ, Nat.add_comm (w * rest.length) w, Nat.pow_add]
    have hx := Nat.mod_lt x (Nat.two_pow_pos w)
    calc x % 2 ^ w + 2 ^ w * packElems w rest < 2 ^ w + 2 ^ w * packElems w rest := by omega
      _ = 2 ^ w * (packElems w rest + 1) := by rw [Nat.mul_add, Nat.mul_one, Nat.add_comm]
      _ ≤ 2 ^ w * 2 ^ (w * rest.length) := Nat.mul_le_mul_left _ ih

/-- Element `j` of packed elements. -/
theorem packElems_elem {w j : Nat} {xs : List Nat} (h : j < xs.length) :
    packElems w xs / 2 ^ (w * j) % 2 ^ w = xs[j] % 2 ^ w := by
  induction xs generalizing j with
  | nil => cases h
  | cons x rest ih =>
    rw [packElems]
    cases j with
    | zero => rw [Nat.mul_zero, Nat.pow_zero, Nat.div_one, Nat.add_mul_mod_self_left, Nat.mod_mod]; rfl
    | succ j =>
      rw [Nat.mul_succ, Nat.add_comm (w * j) w, Nat.pow_add, ← Nat.div_div_eq_div_mul, Nat.add_mul_div_left _ _
        (Nat.two_pow_pos w), Nat.div_eq_of_lt (Nat.mod_lt _ (Nat.two_pow_pos w)), Nat.zero_add]
      exact ih (Nat.lt_of_succ_lt_succ h)

theorem getElem_upFrom {a n j : Nat} (h : j < (upFrom a n).length) : (upFrom a n)[j] = a + j := by
  induction n generalizing a j with
  | zero => simp [upFrom] at h
  | succ n ih =>
    cases j with
    | zero => rfl
    | succ j =>
      refine (ih (by simpa [upFrom] using h)).trans ?_
      omega

/-- Elements that fill a register read back. -/
theorem elem_packed {w j : Nat} {f : Nat → Nat} (hw : w * (2048 / w) = 2048) (hj : j < 2048 / w) :
    elem (BitVec.ofNat 2048 (packElems w ((upFrom 0 (2048 / w)).map f))) w j = f j % 2 ^ w := by
  have hlen : ((upFrom 0 (2048 / w)).map f).length = 2048 / w := by rw [List.length_map, length_upFrom]
  have hlt : packElems w ((upFrom 0 (2048 / w)).map f) < 2 ^ 2048 := by
    have := packElems_lt w ((upFrom 0 (2048 / w)).map f)
    rwa [hlen, hw] at this
  unfold elem
  rw [BitVec.toNat_ofNat, Nat.mod_eq_of_lt hlt, packElems_elem (by rw [hlen]; exact hj), List.getElem_map, getElem_upFrom,
    Nat.zero_add]

theorem actingLanes : Claims.ActingLanes := by
  intro w acts v g x hw hg
  have hfill : w * (2048 / w) = 2048 := by
    simp only [List.mem_cons, List.not_mem_nil, or_false] at hw
    rcases hw with rfl | rfl | rfl | rfl <;> rfl
  rw [newElems_pure]
  refine ⟨rfl, fun j hj => ?_⟩
  rw [elem_packed hfill hj]
  split
  · exact Nat.mod_eq_of_lt (hg j)
  · exact Nat.mod_mod _ _

/-! ### Integer results (R87, R261) -/

theorem intRange_eq {f : Fmt} (hf : f.isInt = true) : intRange f = (lowest f, highest f) := by
  cases f with
  | s4 => rfl
  | s8 => rfl
  | n8 => rfl
  | s16 => rfl
  | s32 => rfl
  | _ => cases hf

theorem wrap_eq (w : Nat) (v : Int) : wrap w v = (v % (2 ^ w : Nat)).toNat := by
  unfold wrap
  rw [Nat.cast_pow]
  rfl

theorem intResult_eq {f : Fmt} (hf : f.isInt = true) (sat : Bool) (v : Int) : intResult f sat v =
    if sat = true then ((max (lowest f) (min (highest f) v)) % (2 ^ f.width : Nat)).toNat
    else (v % (2 ^ f.width : Nat)).toNat := by
  unfold intResult clampInt
  rw [wrap_eq, intRange_eq hf]
  split <;> rfl

/-- An operation by the kind of the format, on integers. -/
theorem eitherOp_int {f : Fmt} (hf : f.isInt = true) {sat : Bool} {g : Int → Int → Int} {op : ElemOp} {r : Rounding}
    {lane x y z : Nat} {k : Context} :
    (eitherOp (intOp sat g) op f r lane x y z).run k = (intResult f sat (g (intValue f x) (intValue f y)), k) := by
  unfold eitherOp
  rw [if_pos hf]
  rfl

theorem integerLanes : Claims.IntegerLanes := by
  intro f r lane x y z sat k hf
  simp only [← intResult_eq hf]
  refine ⟨eitherOp_int hf, eitherOp_int hf, eitherOp_int hf, eitherOp_int hf, ?_, ?_⟩
  · exact (eitherOp_int hf).trans (by rw [intResult_eq hf]; rfl)
  · exact (eitherOp_int hf).trans (by rw [intResult_eq hf]; rfl)

/-- Settles O47: elements packed in ascending order read back, and the integer operations are exact before they are
kept or clamped. -/
theorem laneResults : Obligations.LaneResults := ⟨actingLanes, integerLanes⟩

end Sys2Proof.Machine
end

section
namespace Sys2Proof.Machine
open Sys2Proof.Claims

/-! ### What stands of the machine -/

theorem othersStand_onMe (s : State) (f : Context → Context) : OthersStand s (onMe s f) where
  machine := rfl
  contexts id h := ctxOf_onMe_other _ _ _ h
  cores c := by
    unfold onMe onCtx setCtx
    rw [coreOf_onCore]
    split
    next h => rw [h]
    next => rfl

theorem othersStand_dropView (s : State) (v : Cap) : OthersStand s (dropView s v) where
  machine := by
    have h := dropView_eq s v
    rw [h]
  contexts id _ := ctxOf_dropView _ _ _
  cores c := by rw [coreOf_dropView]

theorem who_othersStand {s t : State} (h : OthersStand s t) : who t = who s :=
  who_congr _ _ (by rw [h.machine]) fun c => by rw [h.cores c]

theorem othersStand_trans {s t u : State} (h : OthersStand s t) (h' : OthersStand t u) : OthersStand s u where
  machine := by
    calc u = { t with cores := u.cores, domains := u.domains } := h'.machine
      _ = _ := by rw [h.machine]
  contexts id hid := (h'.contexts id (by rwa [who_othersStand h])).trans (h.contexts id hid)
  cores c := by
    calc coreOf u c = { coreOf t c with slots := (coreOf u c).slots } := h'.cores c
      _ = _ := by rw [h.cores c]

/-! ### Instructions that write one register (R221 to R223, R228) -/

theorem othersStand_writeCap (a : Reg) (v : Cap) (s : State) : OthersStand s (writeCap a v s) := by
  by_cases h : a = 0
  · subst h
    rw [writeCap_zero]
    exact othersStand_dropView _ _
  · rw [writeCap_nonzero a v s h]
    exact othersStand_trans (othersStand_dropView _ _) (othersStand_onMe _ _)

theorem writeInt_cases (a : Reg) (w x : Nat) (s : State) :
    writeInt a w x s = s ∨ ∃ v, writeInt a w x s = writeCap a v s ∧ a ≠ 0 := by
  by_cases h : a = 0
  · subst h; exact .inl (writeInt_zero w x s)
  · exact .inr ⟨_, writeInt_nonzero a w x s h, h⟩

theorem othersStand_writeInt (a : Reg) (w x : Nat) (s : State) : OthersStand s (writeInt a w x s) := by
  rcases writeInt_cases a w x s with h | ⟨v, h, -⟩
  · rw [h]
    exact ⟨rfl, fun _ _ => rfl, fun _ => rfl⟩
  · rw [h]
    exact othersStand_writeCap _ _ _

theorem writeInt_domains {a : Reg} {w x : Nat} {s : State} (h : isView (reg s a) = false) :
    (writeInt a w x s).domains = s.domains := by
  rcases writeInt_cases a w x s with h' | ⟨v, h', h0⟩
  · rw [h']
  · rw [h', writeCap_nonzero _ _ _ h0, onMe_domains, dropView_plain _ _ h]

theorem me_writeInt (a : Reg) (w x : Nat) (s : State) :
    ∃ r sh, me (writeInt a w x s) = { me s with regs := r, shadow := sh } := by
  rcases writeInt_cases a w x s with h | ⟨v, h, -⟩
  · exact ⟨_, _, by rw [h]⟩
  · exact ⟨(putReg (me s) a.val v).regs, (putReg (me s) a.val v).shadow, by rw [h, me_writeCap, ← putReg_eq]⟩

theorem registerFrame_writeInt (a : Reg) (w x n : Nat) (s : State) :
    RegisterFrameOf a s (advance n (writeInt a w x s)) where
  toOthersStand := othersStand_trans (othersStand_writeInt _ _ _ _) (othersStand_onMe _ _)
  context := by
    obtain ⟨r, sh, h⟩ := me_writeInt a w x s
    unfold advance
    rw [me_onMe, h]
  registers m hm := by
    have hadv (u : State) : reg (advance n u) m = reg u m := by
      unfold reg advance
      rw [me_onMe]
      rfl
    rw [hadv, reg_writeInt_other _ _ _ _ _ hm]
  coverage h := by rw [advance_domains, writeInt_domains h]

theorem writesOnly_exec {i : Instr} {a : Reg} (h : WritesOnly i a) (s : State) :
    ∃ n w x, exec i s = .next (advance n (writeInt a w x s)) := by
  cases h with
  | two r hr a b c => exact ⟨_, _, _, (integerResults r hr a b c (.lit 0) s).1⟩
  | twoWide r hr a b o => exact ⟨_, _, _, (integerResults r hr a b 0 o s).2⟩
  | one r hr a b => exact ⟨_, _, _, (countResults r hr a b .w64 s).1⟩
  | oneExt r hr a b w => exact ⟨_, _, _, (countResults r hr a b w s).2⟩
  | quad r hr a b c => exact ⟨_, _, _, (quadResults r hr a b c (.lit 0) s).1⟩
  | quadWide r hr a b o => exact ⟨_, _, _, (quadResults r hr a b 0 o s).2⟩
  | cursor a b => exact ⟨_, _, _, (capabilityReadings a b 0 s).1⟩
  | perms a b => exact ⟨_, _, _, (capabilityReadings a b 0 s).2.1⟩
  | tag a b => exact ⟨_, _, _, (capabilityReadings a b 0 s).2.2.1⟩
  | base a b => exact ⟨_, _, _, exec_kbase a b s⟩
  | top a b => exact ⟨_, _, _, exec_ktop a b s⟩
  | length a b => exact ⟨_, _, _, exec_klen a b s⟩
  | inside a b c => exact ⟨_, _, _, exec_kinside a b c s⟩

/-! ### Lane instructions (R256) -/

/-- A computation that moves no more of a context than its generators. -/
def MovesGens {α : Type} (m : Draws α) : Prop := ∀ x, ∃ g, (m.run x).2 = { x with gens := g }

section
variable {α β : Type}

theorem MovesGens.bind {m : Draws α} {f : α → Draws β} (hm : MovesGens m) (hf : ∀ a, MovesGens (f a)) : MovesGens (m >>= f) := by
  intro x
  obtain ⟨g, h⟩ := hm x
  obtain ⟨g', h'⟩ := hf (m.run x).1 (m.run x).2
  refine ⟨g', ?_⟩
  rw [StateT.run_bind]
  exact h'.trans (by rw [h])

theorem movesGens_pure (a : α) : MovesGens (pure a : Draws α) := fun x => ⟨x.gens, rfl⟩

theorem MovesGens.ite {c : Prop} [Decidable c] {m m' : Draws α} (hm : MovesGens m) (hm' : MovesGens m') :
    MovesGens (if c then m else m') := by split <;> assumption

end

theorem movesGens_drawLane (i : Nat) : MovesGens (drawLane i) := fun _ => ⟨_, rfl⟩

theorem movesGens_roundIn (f : Fmt) (r : Rounding) (lane : Nat) (x : Number) : MovesGens (roundIn f r lane x) :=
  .ite ((movesGens_drawLane _).bind fun _ => movesGens_pure _) ((movesGens_pure _).bind fun _ => movesGens_pure _)

/-- An operation on elements that moves no more than the generators. -/
def OpMovesGens (op : ElemOp) : Prop := ∀ f r lane x y z, MovesGens (op f r lane x y z)

theorem opMovesGens_floatOp (g : Bool → Number → Number → Number → Number) : OpMovesGens (floatOp g) :=
  fun _ _ _ _ _ _ => movesGens_roundIn _ _ _ _

theorem opMovesGens_intOp (sat : Bool) (g : Int → Int → Int) : OpMovesGens (intOp sat g) := fun _ _ _ _ _ _ => movesGens_pure _

theorem opMovesGens_exactOp (g : Fmt → Nat → Nat → Nat) : OpMovesGens (exactOp g) := fun _ _ _ _ _ _ => movesGens_pure _

theorem opMovesGens_eitherOp {i f : ElemOp} (hi : OpMovesGens i) (hf : OpMovesGens f) : OpMovesGens (eitherOp i f) := by
  intro fmt r lane x y z
  unfold eitherOp
  split
  · exact hi _ _ _ _ _ _
  · exact hf _ _ _ _ _ _

theorem opMovesGens_binaryRows : ∀ r ∈ binaryRows, OpMovesGens r.op := by
  simp only [binaryRows, List.forall_mem_cons, List.not_mem_nil, false_implies, implies_true, and_true]
  exact ⟨opMovesGens_eitherOp (opMovesGens_intOp _ _) (opMovesGens_floatOp _),
    opMovesGens_eitherOp (opMovesGens_intOp _ _) (opMovesGens_floatOp _),
    opMovesGens_eitherOp (opMovesGens_intOp _ _) (opMovesGens_floatOp _), opMovesGens_floatOp _,
    opMovesGens_eitherOp (opMovesGens_intOp _ _) (opMovesGens_exactOp _),
    opMovesGens_eitherOp (opMovesGens_intOp _ _) (opMovesGens_exactOp _), opMovesGens_floatOp _, opMovesGens_exactOp _,
    opMovesGens_exactOp _, opMovesGens_exactOp _, opMovesGens_exactOp _, opMovesGens_exactOp _, opMovesGens_exactOp _⟩

theorem opMovesGens_unaryRows : ∀ r ∈ unaryRows, OpMovesGens r.op := by
  simp only [unaryRows, List.forall_mem_cons, List.not_mem_nil, false_implies, implies_true, and_true]
  exact ⟨opMovesGens_eitherOp (opMovesGens_intOp _ _) (opMovesGens_exactOp _),
    opMovesGens_eitherOp (opMovesGens_intOp _ _) (opMovesGens_exactOp _), opMovesGens_floatOp _, opMovesGens_floatOp _,
    opMovesGens_floatOp _, opMovesGens_floatOp _, opMovesGens_floatOp _, opMovesGens_floatOp _, opMovesGens_exactOp _⟩

theorem movesGens_elemValues {acts : Nat → Bool} {old : Nat → Nat} {f : Nat → Draws Nat} (hf : ∀ j, MovesGens (f j))
    (js : List Nat) : MovesGens (elemValues acts old f js) := by
  induction js with
  | nil => exact movesGens_pure _
  | cons j rest ih =>
    exact .ite ((hf j).bind fun _ => ih.bind fun _ => movesGens_pure _)
      ((movesGens_pure _).bind fun _ => ih.bind fun _ => movesGens_pure _)

theorem movesGens_newElems {w : Nat} {acts : Nat → Bool} {v : VReg} {f : Nat → Draws Nat} (hf : ∀ j, MovesGens (f j)) :
    MovesGens (newElems w acts v f) := (movesGens_elemValues hf _).bind fun _ => movesGens_pure _

theorem elemsAfter_eq {a w : Nat} {mask : BitVec 64} {f : Nat → Draws Nat} {s : State} (hf : ∀ j, MovesGens (f j)) :
    ∃ v g, elemsAfter a w mask f s = putV a v (onMe s fun _ => { me s with gens := g }) := by
  obtain ⟨g, hg⟩ := movesGens_newElems (w := w) (acts := fun j => laneActs mask (laneOf w j)) (v := vreg (me s) a) hf (me s)
  refine ⟨((newElems w (fun j => laneActs mask (laneOf w j)) (vreg (me s) a) f).run (me s)).1, g, ?_⟩
  unfold elemsAfter drawn
  rw [hg]

theorem vectorFrame_lanes {len a w : Nat} {mask : BitVec 64} {f : Nat → Draws Nat} {s : State}
    (hf : ∀ j, MovesGens (f j)) : VectorFrameOf a s (lanesAfter len a w mask f s) := by
  obtain ⟨v, g, h⟩ := elemsAfter_eq (a := a) (w := w) (mask := mask) (s := s) hf
  have hme : me (lanesAfter len a w mask f s) = { me s with
      v := putD (me s).v a v 0, gens := g, code := codeAt (elemsAfter a w mask f s) len } := by
    unfold lanesAfter advance
    rw [me_onMe, h]
    unfold putV
    rw [me_onMe, me_onMe]
  unfold lanesAfter at hme ⊢
  rw [h] at hme ⊢
  refine ⟨?_, rfl, by rw [hme], fun n hn => ?_⟩
  · exact othersStand_trans (othersStand_trans (othersStand_onMe _ _) (othersStand_onMe _ _)) (othersStand_onMe _ _)
  · rw [hme]
    exact lookD_putD_other _ _ _ _ _ _ hn

/-! ### Moment instructions (R279) -/

theorem momentFrame_pairsInto (a : Nat) (mask : BitVec 64) (g : Nat → Pair) (hit : Nat → Bool) (n : Nat) (s : State) :
    MomentFrameOf a s (advance n (pairsInto a mask g hit s)) := by
  have hput (u : State) (e : EReg) : OthersStand u (putE a e u) ∧ (putE a e u).domains = u.domains ∧
      (∃ y, me (putE a e u) = { me u with e := y }) ∧ ∀ n, n ≠ a → ereg (me (putE a e u)) n = ereg (me u) n := by
    unfold putE
    refine ⟨othersStand_onMe _ _, rfl, ⟨_, me_onMe _ _⟩, fun n hn => ?_⟩
    rw [me_onMe]
    exact lookD_putD_other _ _ _ _ _ _ hn
  have hclamp (u : State) (c : Bool) : OthersStand u (setClamped c u) ∧ (setClamped c u).domains = u.domains ∧
      ∃ y, me (setClamped c u) = { me u with covmode := y } := by
    unfold setClamped
    cases c
    · exact ⟨⟨rfl, fun _ _ => rfl, fun _ => rfl⟩, rfl, _, rfl⟩
    · exact ⟨othersStand_onMe _ _, rfl, _, me_onMe _ _⟩
  unfold pairsInto
  dsimp only
  generalize fromMoments _ = e
  generalize lanes.any _ = c
  obtain ⟨h1, h2, ⟨y, h3⟩, h4⟩ := hput s e
  obtain ⟨k1, k2, z, k3⟩ := hclamp (putE a e s) c
  refine ⟨othersStand_trans (othersStand_trans h1 k1) (othersStand_onMe _ _), k2.trans h2, ?_, fun n hn => ?_⟩
  · unfold advance
    rw [me_onMe, k3, h3]
  · unfold advance
    rw [me_onMe, k3]
    exact h4 n hn

/-- Settles O26: what each instruction is known to write, and what those writes leave. -/
theorem registerFrames : Obligations.RegisterFrames := by
  refine ⟨fun i a hw s t h => ?_, fun r hr a b c fmt x s t => ⟨fun ha hb hc h => ?_, fun na nb nc ha hb hc h => ?_⟩,
    fun r hr a b fmt x s t => ⟨fun ha hb h => ?_, fun na nb ha hb h => ?_⟩, momentFrame_pairsInto⟩
  · obtain ⟨n, w, x, he⟩ := writesOnly_exec hw s
    rw [he] at h
    cases h
    exact registerFrame_writeInt _ _ _ _ _
  · rw [vectorBinary.1 r hr a b c fmt s ha hb hc] at h
    cases h
    exact vectorFrame_lanes fun j => opMovesGens_binaryRows r hr _ _ _ _ _ _
  · rw [vectorBinary.2.1 r hr a b c x s na nb nc ha hb hc] at h
    cases h
    exact vectorFrame_lanes fun j => opMovesGens_binaryRows r hr _ _ _ _ _ _
  · rw [vectorUnary.1 r hr a b fmt s ha hb] at h
    cases h
    exact vectorFrame_lanes fun j => opMovesGens_unaryRows r hr _ _ _ _ _ _
  · rw [vectorUnary.2.1 r hr a b x s na nb ha hb] at h
    cases h
    exact vectorFrame_lanes fun j => opMovesGens_unaryRows r hr _ _ _ _ _ _

end Sys2Proof.Machine
end

section
namespace Sys2Proof.Machine
open Sys2Proof.Claims

/-! ### The length of a digest -/

theorem length_roundStep {st : List W64} (h : st.length = 8) (kw : W64 × W64) : (roundStep st kw).length = 8 := by
  match st, h with
  | [_, _, _, _, _, _, _, _], _ => rfl

theorem length_compress {st : List W64} (h : st.length = 8) (block : List W64) : (compress st block).length = 8 := by
  have hr (l : List (W64 × W64)) : (l.foldl roundStep st).length = 8 :=
    foldl_keeps (fun st : List W64 => st.length = 8) _ _ _ h fun _ kw h => length_roundStep h kw
  unfold compress
  dsimp only
  rw [List.length_map, List.length_zip, hr, h]
  rfl

theorem length_sha384 (bs : List Byte) : (sha384 bs).length = 48 := by
  have hs : (((blocksOf ((padded bs).length / 128) (padded bs)).foldl compress startState).take 6).length = 6 := by
    have h8 := foldl_keeps (fun st : List W64 => st.length = 8) compress (blocksOf ((padded bs).length / 128) (padded bs))
      startState rfl fun _ b h => length_compress h b
    rw [List.length_take, h8]
    rfl
  have hflat (l : List W64) : (l.flatMap fun w => (bytesOf 8 w.toNat).reverse).length = 8 * l.length := by
    induction l with
    | nil => rfl
    | cons w rest ih =>
      rw [List.flatMap_cons, List.length_append, List.length_reverse, length_bytesOf, ih, List.length_cons]
      omega
  unfold sha384
  dsimp only
  rw [hflat, hs]

/-! ### The responder (R456 to R458) -/

theorem answer_eq (s : State) (bs : List Byte) : answer s bs = .next (answered' bs s) := rfl
theorem errorResponse_eq (s : State) : errorResponse s = .next (refused s) := rfl

theorem secured_iff (s : State) (n : Nat) : secured s n = true ↔ Secured s n := by
  unfold secured Secured
  cases look s.spdm.sessions n with
  | none => simp
  | some x => simp

theorem keyAccepted_iff (s : State) (n id : Nat) : keyAccepted s n id = true ↔ KeyMay s n id := by
  unfold keyAccepted KeyMay
  rw [Bool.and_eq_true, Bool.and_eq_true, Bool.and_eq_true, secured_iff, decide_eq_true_eq, decide_eq_true_eq,
    Bool.not_eq_true', List.any_eq_false, and_assoc, and_assoc]
  simp only [beq_iff_eq]

/-- What a request gives in the order of its conditions. -/
theorem measurements_of {s : State} {index : Nat} (h0 : index ≠ 0) (h1 : index ≠ 0xFF) :
    measurements s index = measurement s index := by
  unfold measurements
  rw [if_neg h0, if_neg h1]

theorem getMeasurements_plain {s : State} {index : Nat} {m : List Byte} (ha : s.spdm.agreed = true)
    (hm : measurements s index = some m) : exec (.getMeasurements (index, none)) s = .next (answered' m s) := by
  show execGetMeasurements (index, none) s = _
  unfold execGetMeasurements
  simp only [ha, hm]
  rfl

theorem getMeasurements_signed {s : State} {index slot : Nat} {nonce : BitVec 256} {m chain : List Byte}
    (ha : s.spdm.agreed = true) (hm : measurements s index = some m) (hc : chainOf s slot = some chain) :
    exec (.getMeasurements (index, some (slot, nonce))) s =
      .next (answered' (m ++ bytesOf 32 nonce.toNat ++ signature s (m ++ bytesOf 32 nonce.toNat)) s) := by
  show execGetMeasurements (index, some (slot, nonce)) s = _
  unfold execGetMeasurements
  simp only [ha, hm, hc, Option.isSome_some, if_true]
  rfl

theorem challenge_signed {s : State} {slot : Nat} {nonce : BitVec 256} {chain : List Byte} (ha : s.spdm.agreed = true)
    (hc : chainOf s slot = some chain) : exec (.challenge slot nonce) s =
      .next (answered' (sha384 chain ++ bytesOf 32 nonce.toNat ++ signature s (sha384 chain ++ bytesOf 32 nonce.toNat)) s) := by
  show execChallenge slot nonce s = _
  unfold execChallenge
  simp only [hc, ha, if_true]
  rfl

theorem agreedRequests {s : State} (ha : s.spdm.agreed = true) :
    (∃ t, exec .getDigests s = .next t ∧ t.spdm.error = false ∧ t.spdm.response.take 48 = sha384 Config.deviceChain) ∧
    (∀ slot offset n chain, chainOf s slot = some chain → offset < chain.length →
      exec (.getCertificate slot offset n) s = .next (answered' ((chain.drop offset).take n) s)) ∧
    ∀ share, ∃ t, exec (.keyExchange share) s = .next t ∧ t.spdm.opened = s.spdm.opened + 1 ∧
      look t.spdm.sessions (s.spdm.opened + 1) = some ⟨false, 0⟩ ∧ t.spdm.share = share := by
  refine ⟨⟨_, if_pos ha, rfl, ?_⟩, fun slot offset n chain hc ho => ?_, fun share => ⟨_, if_pos ha, rfl, ?_, rfl⟩⟩
  · exact List.take_left' (length_sha384 _)
  · show execGetCertificate slot offset n s = _
    unfold execGetCertificate
    simp only [hc, ha, ho, and_self, if_true]
    rfl
  · exact look_put_same _ _ _

theorem sessionRequests_secured {s : State} {n : Nat} (h : Secured s n) :
    exec (.heartbeat n) s = .next (answered' [] s) ∧
    exec (.endSession n) s = .next (answered' [] (onSpdm s fun r => { r with sessions := drop r.sessions n })) ∧
    (∀ x, look s.spdm.sessions n = some x → exec (.keyUpdate n) s = .next (answered' []
      (onSpdm s fun r => { r with sessions := put r.sessions n { x with generation := x.generation + 1 } }))) ∧
    ∀ chain, exec (.setCertificate n 1 chain) s = .next (answered' [] (onSpdm s fun r => { r with chain1 := some chain })) := by
  have hs := (secured_iff s n).2 h
  refine ⟨if_pos hs, if_pos hs, fun x hx => ?_, fun chain => if_pos ⟨hs, rfl⟩⟩
  obtain ⟨y, hy, hf⟩ := h
  obtain rfl : x = y := Option.some.inj (hx.symm.trans hy)
  show execKeyUpdate n s = _
  unfold execKeyUpdate
  simp only [hx, hf, if_true]
  rfl

theorem sessionRequests_refused {s : State} {n : Nat} (h : ¬ Secured s n) (slot : Nat) (chain : List Byte) (id : Nat)
    (key : BitVec 512) :
    exec (.heartbeat n) s = .next (refused s) ∧ exec (.endSession n) s = .next (refused s) ∧
    exec (.keyUpdate n) s = .next (refused s) ∧ exec (.setCertificate n slot chain) s = .next (refused s) ∧
    exec (.setkey n id key) s = .next (refused s) ∧ exec (.genkey n id) s = .next (refused s) ∧
    exec (.dropkey n id) s = .next (refused s) := by
  have hs : ¬ secured s n = true := mt (secured_iff s n).1 h
  have hk : ¬ keyAccepted s n id = true := fun hk => h ((keyAccepted_iff s n id).1 hk).1
  refine ⟨if_neg hs, if_neg hs, ?_, if_neg fun h => hs h.1, if_neg hk, if_neg hk, if_neg hk⟩
  show execKeyUpdate n s = _
  unfold execKeyUpdate
  cases hx : look s.spdm.sessions n with
  | none => rfl
  | some x => exact if_neg fun hf => h ⟨x, hx, hf⟩

theorem finish_matches {s : State} {x : Session} (hx : look s.spdm.sessions s.spdm.opened = some x)
    (hf : x.finished = false) :
    exec (.finish (Config.sessionMac s.spdm.opened s.spdm.share)) s = .next (answered' []
      (onSpdm s fun r => { r with sessions := put r.sessions s.spdm.opened { x with finished := true } })) := by
  show execFinish _ s = _
  unfold execFinish
  simp only [hx, hf, Bool.not_false, and_self, if_true]
  rfl

theorem deviceAlgorithms_offered {offered : List SpdmAlgorithm}
    (h : ∀ a ∈ [SpdmAlgorithm.ecdsaP384, .sha384, .ecdheP384, .aes256Gcm], a ∈ offered) :
    deviceAlgorithms.all offered.contains = true := by
  rw [List.all_eq_true]
  exact fun a ha => List.contains_iff_mem.2 (h a ha)

/-- Settles O24: each request, by what it needs. -/
theorem trustRequests : Obligations.TrustRequests := by
  intro s
  refine ⟨⟨_, rfl, rfl, rfl, rfl⟩, fun hv => ⟨_, if_pos hv, rfl, rfl⟩, fun hv => if_neg (by rw [hv]; decide),
    fun offered hc ho => ⟨_, if_pos ⟨hc, deviceAlgorithms_offered ho⟩, rfl, rfl⟩, fun ha => ?_,
    fun x hx hf => finish_matches hx hf, fun n => ⟨sessionRequests_secured, sessionRequests_refused, fun id key hk => ?_⟩⟩
  · obtain ⟨hdigests, hcertificate, hexchange⟩ := agreedRequests ha
    refine ⟨hdigests, hcertificate, fun slot chain nonce hc => ⟨_, challenge_signed ha hc, rfl, rfl⟩,
      fun index m h0 h1 hm => ⟨?_, fun slot chain nonce hc =>
        ⟨_, getMeasurements_signed ha ((measurements_of h0 h1).trans hm) hc, rfl, ?_⟩⟩, hexchange⟩
    · exact getMeasurements_plain ha ((measurements_of h0 h1).trans hm)
    · exact List.take_left' (by rw [List.length_append, length_bytesOf])
  · have h := (keyAccepted_iff s n id).2 hk
    exact ⟨if_pos h, if_pos h, if_pos h⟩

end Sys2Proof.Machine
end

section
namespace Sys2Proof.Machine
open Sys2Proof.Claims

/-! ### How many bytes a read gives -/

/-- Where an act goes through, its value is as the predicate says. -/
def Returns {α : Type} (P : α → Prop) (m : Act α) : Prop := ∀ s a t, m s = .ok (a, t) → P a

section
variable {α β : Type} {P : β → Prop}

theorem Returns.bind {m : Act α} {f : α → Act β} {Q : α → Prop} (hm : Returns Q m) (hf : ∀ a, Q a → Returns P (f a)) :
    Returns P (m >>= f) := by
  intro s b u h
  obtain ⟨a, t, h1, h2⟩ := act_bind_inv m f s _ _ h
  exact hf a (hm s a t h1) t b u h2

theorem Returns.after {m : Act α} {f : α → Act β} (hf : ∀ a, Returns P (f a)) : Returns P (m >>= f) :=
  Returns.bind (Q := fun _ => True) (fun _ _ _ _ => trivial) fun a _ => hf a

theorem Returns.ite {c : Prop} [Decidable c] {m m' : Act β} (hm : Returns P m) (hm' : Returns P m') :
    Returns P (if c then m else m') := by split <;> assumption

/-- A guard and what follows it. -/
theorem Returns.guard_bind {c : Prop} [Decidable c] {m : Act Unit} {f : Unit → Act β} (hf : ∀ u, Returns P (f u)) :
    Returns P (if c then m >>= f else f ()) := .ite (.after hf) (hf ())

theorem returns_pure {b : β} (h : P b) : Returns P (pure b : Act β) := by
  intro s a t ht
  cases ht
  exact h

end

theorem length_patch (a : Nat) (old : List Byte) (b : Nat) (new : List Byte) : (patch a old b new).length = old.length := by
  induction old generalizing a with
  | nil => rfl
  | cons x rest ih => rw [patch, List.length_cons, ih, List.length_cons]

theorem length_throughPending (ps : List PendingStore) (a : Nat) (bs : List Byte) :
    (throughPending ps a bs).length = bs.length :=
  foldl_keeps (fun l : List Byte => l.length = bs.length) _ _ _ rfl fun _ _ h => (length_patch _ _ _ _).trans h

theorem length_undone (hs : List OldWrite) (a : Nat) (v : List Byte × Bool) : (undone hs a v).1.length = v.1.length :=
  foldl_keeps (fun w : List Byte × Bool => w.1.length = v.1.length) _ _ _ rfl fun _ _ h => (length_patch _ _ _ _).trans h

theorem length_stashBytes (k : Core) (o n : Nat) : (stashBytes k o n).length = n := length_getBytes _ _ _ _

theorem length_readKeyed (m : Memory) (key a n : Nat) : (m.readKeyed key a n).length ≤ n := by
  unfold Memory.readKeyed
  split
  · rw [List.length_take]; omega
  · exact le_of_eq (length_getBytes _ _ _ _)

theorem length_windowLoad (k : Core) (w : Window) (t : Translation) (va n : Nat) (unseen : List OldWrite) :
    (windowLoad k w t va n unseen).1.length = n := by
  unfold windowLoad
  dsimp only
  split
  · exact (length_undone _ _ _).trans (length_stashBytes _ _ _)
  · exact length_stashBytes _ _ _

theorem returns_loadAt (p : Place) (va n : Nat) (unseen : List OldWrite) :
    Returns (fun r : List Byte × Bool => r.1.length ≤ n) (loadAt p va n unseen) := by
  intro s r t h
  have hv : (if p.hostHomed then (throughPending s.pending p.pa (s.memory.readKeyed p.key p.pa n),
        tagThroughPending s.pending (p.pa / 16) (physTag s p.key p.pa))
      else (s.memory.readKeyed p.key p.pa n, physTag s p.key p.pa)).1.length ≤ n := by
    split
    · exact (length_throughPending _ _ _).trans_le (length_readKeyed _ _ _ _)
    · exact length_readKeyed _ _ _ _
  unfold loadAt at h
  split at h
  · cases h
  · cases h
    split
    · exact (length_undone _ _ _).trans_le hv
    · exact hv

theorem returns_readPieceOf (unseen : List OldWrite) (a : Actor) (va n rights : Nat) :
    Returns (fun r : List Byte × Bool => r.1.length ≤ n) (readPieceOf unseen a va n rights) := by
  unfold readPieceOf
  refine .ite (.after fun _ => .after fun _ => returns_pure (le_of_eq (length_stashBytes _ _ _)))
    (.ite (.guard_bind fun _ => .after fun _ => returns_pure ?_) (.after fun _ => .after fun s => ?_))
  · show ((upFrom (va - trustBase) n).map _).length ≤ n
    rw [List.length_map, length_upFrom]
  · split
    · exact .after fun _ => .after fun _ => .guard_bind fun _ => .after fun _ =>
        returns_pure (le_of_eq (length_windowLoad _ _ _ _ _ _))
    · exact .after fun _ => .after fun _ => returns_loadAt _ _ _ _

theorem returns_readPiece (a : Actor) (va n rights : Nat) :
    Returns (fun r : List Byte × Bool => r.1.length ≤ n) (readPiece a va n rights) := by
  unfold readPiece
  exact .after fun _ => returns_readPieceOf _ _ _ _ _

theorem sum_piecesFrom (fuel a n : Nat) : ((piecesFrom fuel a n).map (·.2)).sum ≤ n := by
  induction fuel generalizing a n with
  | zero => exact Nat.zero_le _
  | succ fuel ih =>
    rw [piecesFrom]
    split
    · exact Nat.zero_le _
    · dsimp only
      rw [List.map_cons, List.sum_cons]
      have := ih (a + min n (64 - a % 64)) (n - min n (64 - a % 64))
      omega

theorem returns_readPieces (unseen : List OldWrite) (a : Actor) (rights : Nat) (l : List (Nat × Nat)) :
    Returns (fun bs : List Byte => bs.length ≤ (l.map (·.2)).sum) (readPieces unseen a rights l) := by
  induction l with
  | nil => exact returns_pure (Nat.le_refl _)
  | cons p rest ih =>
    refine (returns_readPieceOf _ _ _ _ _).bind fun r hr => ih.bind fun more hmore => returns_pure ?_
    rw [List.length_append, List.map_cons, List.sum_cons]
    omega

theorem returns_readRange (a : Actor) (va n : Nat) : Returns (fun bs : List Byte => bs.length ≤ n) (readRange a va n) := by
  unfold readRange
  refine .after fun s => fun t bs u h => ?_
  exact (returns_readPieces _ _ _ _ t bs u h).trans (sum_piecesFrom _ _ _)

/-- The number that a read gives fits its bytes. -/
theorem natOfBytes_lt_of_length {bs : List Byte} {n : Nat} (h : bs.length ≤ n) : natOfBytes bs < 2 ^ (8 * n) := by
  calc natOfBytes bs < 256 ^ bs.length := natOfBytes_lt bs
    _ ≤ 256 ^ n := Nat.pow_le_pow_right (by decide) h
    _ = 2 ^ (8 * n) := by rw [Nat.pow_mul]

/-! ### The checks of an access (R58, R283) -/

section
variable {b : Reg} {va : Int} {size perms align : Nat} {s : State}

theorem checkAccess_ok (h : capCheck (reg s b) va size perms = none) (ha : va % align = 0) :
    checkAccess b va size perms align s = .ok ((), s) := by
  unfold checkAccess
  rw [act_get_bind, act_bind_ok _ _ _ _ _ (checked_ok h), if_neg (not_not.2 ha)]
  rfl

theorem checkAccess_sub {sub : Sub} (h : capCheck (reg s b) va size perms = some sub) :
    checkAccess b va size perms align s = .error (.trap ⟨causeCapability, b.val * 8 + sub.code, 0⟩) := by
  unfold checkAccess
  rw [act_get_bind, h, act_bind_error _ _ _ _ (checked_some _ _)]
  rfl

theorem checkAccess_align (h : capCheck (reg s b) va size perms = none) (ha : va % align ≠ 0) :
    checkAccess b va size perms align s = .error (.trap ⟨causeCapability, b.val * 8 + Sub.align.code, 0⟩) := by
  unfold checkAccess
  rw [act_get_bind, act_bind_ok _ _ _ _ _ (checked_ok h), if_pos ha]
  rfl

end

theorem afterAccess_eq (len : Nat) (x : MemX) (s : State) : afterAccess x (advance len s) = accessed len x s := rfl

theorem access_accessed {len : Nat} {x : MemX} {m : Act Unit} {s t : State} (h : m s = .ok ((), t)) :
    access len x m s = .next (accessed len x t) := access_ok len x m s t h

/-! ### Scalar and capability accesses (R62, R286) -/

theorem signed_eq_toInt {w x : Nat} (hw : 0 < w) (hx : x < 2 ^ w) : signed w x = (BitVec.ofNat w x).toInt := by
  unfold signed
  rw [BitVec.toInt_eq_toNat_cond, BitVec.toNat_ofNat, Nat.mod_eq_of_lt hx]
  have h2 : 2 ^ w = 2 * 2 ^ (w - 1) := by rw [← Nat.pow_succ', Nat.succ_eq_add_one, Nat.sub_add_cancel hw]
  split <;> split <;> omega

theorem signExtend_toNat {w x : Nat} (hw : 0 < w) (hx : x < 2 ^ w) :
    wrap 64 (signed w x) = ((BitVec.ofNat w x).signExtend 64).toNat := by
  rw [BitVec.signExtend, BitVec.toNat_ofInt, ← signed_eq_toInt hw hx, wrap_eq]

theorem kindExtend_eq (kind : Kind) {x : Nat} (h : x < 2 ^ (8 * kindSize kind)) : kindExtend kind x = filled kind x := by
  cases kind with
  | s8 => exact signExtend_toNat (by decide) h
  | s16 => exact signExtend_toNat (by decide) h
  | s32 => exact signExtend_toNat (by decide) h
  | _ => rfl

theorem emod_one (va : Int) : va % ((1 : Nat) : Int) = 0 := Int.emod_one va

section
variable {i : Instr} {len : Nat} {a b : Reg} {va : Int} {x : MemX} {s : State}

/-- What an access raises that its checks refuse. -/
theorem capFaults_access {m : Act Unit} {sub : Sub} (hi : exec i s = access len x m s)
    (hm : m s = .error (.trap ⟨causeCapability, b.val * 8 + sub.code, 0⟩)) : CapFaults i b sub s := by
  unfold CapFaults
  rw [hi]
  exact access_trap _ _ _ _ _ hm

theorem loads_of {kind : Kind} (hi : exec i s = access len x (loadBody a b kind va x) s) : Loads i len a b kind va x s := by
  refine ⟨fun sub h => capFaults_access hi (act_bind_error _ _ _ _ (checkAccess_sub h)), fun bs t h hr => ?_⟩
  rw [hi]
  refine access_accessed ?_
  unfold loadBody
  rw [act_bind_ok _ _ _ _ _ (checkAccess_ok h (emod_one va)), act_get_bind, act_bind_ok _ _ _ _ _ hr,
    kindExtend_eq kind (natOfBytes_lt_of_length (returns_readRange _ _ _ _ _ _ hr))]
  rfl

theorem stores_of {kind : Kind} (hi : exec i s = access len x (storeBody a b kind va x) s) :
    Stores i len a b kind va x s := by
  refine ⟨fun sub h => capFaults_access hi (act_bind_error _ _ _ _ (checkAccess_sub h)), fun t h hw => ?_⟩
  rw [hi]
  refine access_accessed ?_
  unfold storeBody
  rw [act_bind_ok _ _ _ _ _ (checkAccess_ok h (emod_one va)), act_get_bind]
  exact hw

theorem capLoads_of (hi : exec i s = access len x (capLoadBody a b va x) s) : CapLoads i len a b va x s := by
  refine ⟨fun sub h => capFaults_access hi (act_bind_error _ _ _ _ (checkAccess_sub h)),
    fun h ha => capFaults_access hi (act_bind_error _ _ _ _ (checkAccess_align h ha)), fun bs tag t h ha hr => ?_⟩
  rw [hi]
  refine access_accessed ?_
  unfold capLoadBody
  rw [act_bind_ok _ _ _ _ _ (checkAccess_ok h ha), act_get_bind, act_bind_ok _ _ _ _ _ hr]
  rfl

theorem storeRefused_iff (c v : Cap) : storeRefused c v = false ↔ MayStoreCap c v := by
  unfold storeRefused MayStoreCap
  cases v.tag <;> cases hasPerm c permSC <;> cases hasPerm v permGL <;> cases hasPerm c permSY <;> decide

/-- A capability store whose checks pass. -/
theorem capStoreBody_checked (h : capCheck (reg s b) va 16 permST = none) (ha : va % 16 = 0) :
    (isView (reg s a) = true → capStoreBody a b va x s = .error (.trap ⟨causeView, condInfo a.val 1, 0⟩)) ∧
    (isView (reg s a) = false → ¬ MayStoreCap (reg s b) (reg s a) →
      capStoreBody a b va x s = .error (.trap ⟨causeCapability, b.val * 8 + Sub.perm.code, 0⟩)) ∧
    (isView (reg s a) = false → MayStoreCap (reg s b) (reg s a) → capStoreBody a b va x s =
      writePiece (memActor s b x) va.toNat (bytesOf 16 (reg s a).bits.toNat) (reg s a).tag rightST s) := by
  unfold capStoreBody
  rw [act_bind_ok _ _ _ _ _ (checkAccess_ok h ha), act_get_bind]
  dsimp only
  refine ⟨fun hv => ?_, fun hv hm => ?_, fun hv hm => ?_⟩
  · rw [if_pos hv]
    rfl
  · rw [if_neg (by rw [hv]; decide), if_pos (by simpa using mt (storeRefused_iff _ _).1 hm)]
    rfl
  · rw [if_neg (by rw [hv]; decide), if_neg (by rw [(storeRefused_iff _ _).2 hm]; decide)]

theorem capStores_of (hi : exec i s = access len x (capStoreBody a b va x) s) : CapStores i len a b va x s := by
  refine ⟨fun sub h => capFaults_access hi (act_bind_error _ _ _ _ (checkAccess_sub h)),
    fun h ha => capFaults_access hi (act_bind_error _ _ _ _ (checkAccess_align h ha)), fun h ha hv => ?_,
    fun h ha hv hm => capFaults_access hi ((capStoreBody_checked h ha).2.1 hv hm), fun t h ha hm hv hw => ?_⟩
  · rw [hi]
    exact access_trap _ _ _ _ _ ((capStoreBody_checked h ha).1 hv)
  · rw [hi]
    exact access_accessed (((capStoreBody_checked h ha).2.2 hv hm).trans hw)

end

/-- Settles O11: each access is its checks, then its reads or writes. -/
theorem scalarAccesses : Obligations.ScalarAccesses := fun _ _ _ _ _ _ =>
  ⟨loads_of rfl, loads_of rfl, stores_of rfl, stores_of rfl, capLoads_of rfl, capLoads_of rfl, capStores_of rfl,
    capStores_of rfl⟩

end Sys2Proof.Machine
end

section
namespace Sys2Proof.Machine
open Sys2Proof.Claims

/-! ### Atomics (R289 to R291) -/

theorem amoResult_eq {op : AmoOp} {w m y : Nat} (hw : 0 < w) (hm : m < 2 ^ w) (hy : y < 2 ^ w) :
    amoResult op w m y = atomicValue op w m y := by
  have hsm := signed_eq_toInt hw hm
  have hsy := signed_eq_toInt hw hy
  cases op with
  | min =>
    unfold amoResult atomicValue
    dsimp only
    rw [hsm, hsy]
    split <;> split <;> omega
  | max =>
    unfold amoResult atomicValue
    dsimp only
    rw [hsm, hsy]
    split <;> split <;> omega
  | _ => rfl

/-- The size of a location and of its alignment. -/
theorem atomicSize_eq (narrow : Bool) : atomicSize narrow = if narrow = true then 4 else 8 := rfl

theorem atomicSize_le (narrow : Bool) : 0 < atomicSize narrow ∧ atomicSize narrow ≤ 8 := by cases narrow <;> decide

theorem lowBytes_eq {n : Nat} (s : State) (r : Reg) (h : n ≤ 8) : lowBytes s r n = lowOf s r n := by
  have hpow : 256 ^ n = 2 ^ (8 * n) := by rw [Nat.pow_mul]
  have hdvd : 2 ^ (8 * n) ∣ 2 ^ 64 := Nat.pow_dvd_pow 2 (by omega)
  unfold lowBytes lowOf
  rw [hpow, reg64_toNat, Nat.mod_mod_of_dvd _ hdvd]

theorem lowOf_lt (s : State) (r : Reg) (n : Nat) : lowOf s r n < 2 ^ (8 * n) := Nat.mod_lt _ (Nat.two_pow_pos _)

section
variable {a b d : Reg} {op : AmoOp} {n : Nat} {x : MemX} {s t u : State} {bs : List Byte} {tag : Bool}

/-- An atomic's checks come first. -/
theorem atomicFaults_of {i : Instr} {va : Int} {m : Act Unit} (hi : exec i s = access 12 x m s)
    (hm : ∃ rest : Unit → Act Unit, m s = (checkAccess b va n atomicPerms n >>= rest) s) : AtomicFaults i s b va n := by
  obtain ⟨rest, hm⟩ := hm
  exact ⟨fun _ h => capFaults_access hi (hm.trans (act_bind_error _ _ _ _ (checkAccess_sub h))),
    fun h ha => capFaults_access hi (hm.trans (act_bind_error _ _ _ _ (checkAccess_align h ha)))⟩

theorem atomicCheck_ok {va : Int} (h : AtomicMay s b va n) : checkAccess b va n atomicPerms n s = .ok ((), s) :=
  checkAccess_ok h.1 h.2

theorem amoBody_checks :
    ∃ rest : Unit → Act Unit, amoBody a b d op n x s = (checkAccess b (longAddr s b x n) n atomicPerms n >>= rest) s := by
  unfold amoBody
  rw [act_get_bind]
  exact ⟨_, rfl⟩

theorem casBody_checks :
    ∃ rest : Unit → Act Unit, casBody a b d n x s = (checkAccess b (longAddr s b x n) n atomicPerms n >>= rest) s := by
  unfold casBody
  rw [act_get_bind]
  exact ⟨_, rfl⟩

theorem amoBody_ok (h0 : 0 < n) (h8 : n ≤ 8) (hmay : AtomicMay s b (longAddr s b x n) n)
    (hr : readPiece (memActor s b x) (longAddr s b x n).toNat n rightAtomic s = .ok ((bs, tag), t))
    (hw : writePiece (memActor s b x) (longAddr s b x n).toNat
      (bytesOf n (atomicValue op (8 * n) (natOfBytes bs) (lowOf s d n))) false rightAtomic t = .ok ((), u)) :
    amoBody a b d op n x s = .ok ((), writeInt a 64 (natOfBytes bs) u) := by
  have hbs := natOfBytes_lt_of_length (returns_readPiece _ _ _ _ _ _ _ hr)
  rw [← amoResult_eq (by omega) hbs (lowOf_lt s d n), ← lowBytes_eq s d h8] at hw
  unfold amoBody
  rw [act_get_bind]
  dsimp only
  rw [act_bind_ok _ _ _ _ _ (atomicCheck_ok hmay), act_bind_ok _ _ _ _ _ hr, act_bind_ok _ _ _ _ _ hw]
  rfl

/-- A compare and swap up to its comparison. -/
theorem casBody_read (h8 : n ≤ 8) (hmay : AtomicMay s b (longAddr s b x n) n)
    (hr : readPiece (memActor s b x) (longAddr s b x n).toNat n rightAtomic s = .ok ((bs, tag), t)) :
    (natOfBytes bs = lowOf s a n → writePiece (memActor s b x) (longAddr s b x n).toNat (bytesOf n (lowOf s d n)) false
      rightAtomic t = .ok ((), u) → casBody a b d n x s = .ok ((), writeInt a 64 (natOfBytes bs) u)) ∧
    (natOfBytes bs ≠ lowOf s a n → casBody a b d n x s = .ok ((), writeInt a 64 (natOfBytes bs) t)) := by
  unfold casBody
  rw [act_get_bind]
  dsimp only
  rw [act_bind_ok _ _ _ _ _ (atomicCheck_ok hmay), act_bind_ok _ _ _ _ _ hr, lowBytes_eq s a h8,
    lowBytes_eq s d h8]
  dsimp only
  refine ⟨fun he hw => ?_, fun hne => ?_⟩
  · rw [if_pos he, act_bind_ok _ _ _ _ _ hw]
    rfl
  · rw [if_neg hne]
    rfl

/-- A capability compare and swap after its checks. -/
def ccasRest (a b d : Reg) (x : MemX) (s : State) : Act Unit := do
  if isView (reg s d) then raiseView d 1
  let (bs, t) ← readPiece (memActor s b x) (longAddr s b x 16).toNat 16 rightAtomic
  let old : Cap := ⟨loadedTag s b t, BitVec.ofNat 128 (natOfBytes bs)⟩
  if old = reg s a then
    if storeRefused (reg s b) (reg s d) then raiseCap b.val .perm
    writePiece (memActor s b x) (longAddr s b x 16).toNat (bytesOf 16 (reg s d).bits.toNat) (reg s d).tag rightAtomic
  modify (writeCap a old)

theorem ccasBody_checks : ccasBody a b d x s =
    (checkAccess b (longAddr s b x 16) 16 atomicPerms 16 >>= fun _ => ccasRest a b d x s) s := rfl

/-- A capability compare and swap, the operand no view. -/
theorem ccasBody_read (hmay : AtomicMay s b (longAddr s b x 16) 16) (hv : isView (reg s d) = false)
    (hr : readPiece (memActor s b x) (longAddr s b x 16).toNat 16 rightAtomic s = .ok ((bs, tag), t)) {old : Cap}
    (ho : old = ⟨tag && hasPerm (reg s b) permLC, BitVec.ofNat 128 (natOfBytes bs)⟩) :
    (old ≠ reg s a → ccasBody a b d x s = .ok ((), writeCap a old t)) ∧
    (old = reg s a → MayStoreCap (reg s b) (reg s d) →
      writePiece (memActor s b x) (longAddr s b x 16).toNat (bytesOf 16 (reg s d).bits.toNat) (reg s d).tag rightAtomic t =
        .ok ((), u) → ccasBody a b d x s = .ok ((), writeCap a old u)) := by
  subst ho
  rw [ccasBody_checks, act_bind_ok _ _ _ _ _ (atomicCheck_ok hmay)]
  unfold ccasRest
  rw [if_neg (by rw [hv]; decide)]
  dsimp only
  rw [act_bind_ok _ _ _ _ _ hr]
  refine ⟨fun hne => congrFun (if_neg hne) t, fun he hm hw => (congrFun (if_pos he) t).trans ?_⟩
  rw [if_neg (by rw [(storeRefused_iff _ _).2 hm]; decide), act_bind_ok _ _ _ _ _ hw]
  rfl

end

/-- Settles O13: each atomic is its checks, the read of the old value and, where it writes, one write. -/
theorem atomics : Obligations.Atomics := by
  intro a b d op narrow x s
  obtain ⟨h0, h8⟩ := atomicSize_le narrow
  rw [← atomicSize_eq]
  refine ⟨atomicFaults_of (m := amoBody a b d op (atomicSize narrow) x) rfl amoBody_checks,
    atomicFaults_of (m := casBody a b d (atomicSize narrow) x) rfl casBody_checks, atomicFaults_of (m := ccasBody a b d x) rfl ⟨_, ccasBody_checks⟩,
    fun bs tag t u hmay hr => ⟨fun hw => ?_,
    fun he hw => ?_, fun hne => ?_⟩, fun bs tag t u hmay hv hr => ?_⟩
  · exact access_accessed (m := amoBody a b d op (atomicSize narrow) x) (amoBody_ok h0 h8 hmay hr hw)
  · exact access_accessed (m := casBody a b d (atomicSize narrow) x) ((casBody_read h8 hmay hr).1 he hw)
  · exact access_accessed (m := casBody a b d (atomicSize narrow) x) ((casBody_read (d := d) (u := u) h8 hmay hr).2 hne)
  · intro old
    obtain ⟨h1, h2⟩ := ccasBody_read (a := a) (d := d) (u := u) hmay hv hr (old := old) rfl
    exact ⟨fun hne => access_accessed (m := ccasBody a b d x) (h1 hne),
      fun he hm hw => access_accessed (m := ccasBody a b d x) (h2 he hm hw)⟩

end Sys2Proof.Machine
end

section
namespace Sys2Proof.Machine
open Sys2Proof.Claims

/-! ### The lanes of an access, in ascending order (R158, R287) -/

theorem upFrom_append (a m n : Nat) : upFrom a (m + n) = upFrom a m ++ upFrom (a + m) n := by
  induction m generalizing a with
  | zero => rw [Nat.zero_add]; rfl
  | succ m ih =>
    rw [show m + 1 + n = (m + n) + 1 by omega, upFrom, upFrom, ih, show a + 1 + m = a + (m + 1) by omega]
    rfl

theorem lanes_split {j : Nat} (hj : j < 64) : lanes = upFrom 0 j ++ j :: upFrom (j + 1) (63 - j) := by
  unfold lanes
  rw [show (64 : Nat) = j + (63 - j + 1) by omega, upFrom_append, upFrom, Nat.zero_add]

/-- The lanes before one that acts, that one, and those after it. -/
theorem laneAddrs_split {mask : BitVec 64} {at' : Nat → Int} {j : Nat} (hj : j < 64) (ha : laneActs mask j = true) :
    ∃ later, laneAddrs mask at' =
      ((upFrom 0 j).filter (laneActs mask)).map (fun i => (i, at' i)) ++ (j, at' j) :: later := by
  refine ⟨((upFrom (j + 1) (63 - j)).filter (laneActs mask)).map fun i => (i, at' i), ?_⟩
  unfold laneAddrs
  rw [lanes_split hj, List.filter_append, List.filter_cons_of_pos ha, List.map_append, List.map_cons]

section
variable {b : Reg} {size perms : Nat} {s : State}

theorem checkLanes_append {ls ls' : List (Nat × Int)}
    (h : ∀ l ∈ ls, capCheck (reg s b) l.2 size perms = none ∧ l.2 % 4 = 0) :
    checkLanes b size perms (ls ++ ls') s = checkLanes b size perms ls' s := by
  induction ls with
  | nil => rfl
  | cons l rest ih =>
    obtain ⟨hc, ha⟩ := h l List.mem_cons_self
    rw [List.cons_append, checkLanes, act_bind_ok _ _ _ _ _ (checkAccess_ok hc ha)]
    exact ih fun l hl => h l (List.mem_cons_of_mem _ hl)

theorem checkLanes_ok {mask : BitVec 64} {at' : Nat → Int} (h : LanesMay s b mask at' size perms) :
    checkLanes b size perms (laneAddrs mask at') s = .ok ((), s) := by
  have hall : ∀ l ∈ laneAddrs mask at', capCheck (reg s b) l.2 size perms = none ∧ l.2 % 4 = 0 := by
    intro l hl
    obtain ⟨i, hi, rfl⟩ := List.mem_map.1 hl
    obtain ⟨hi, ha⟩ := List.mem_filter.1 hi
    exact h i (by have := (mem_upFrom _ _ _).1 hi; omega) ha
  rw [← List.append_nil (laneAddrs mask at'), checkLanes_append hall]
  rfl

/-- The lowest acting lane that fails decides. -/
theorem checkLanes_first {mask : BitVec 64} {at' : Nat → Int} {j : Nat} {e : Stop} (hj : j < 64) (ha : laneActs mask j = true)
    (hbefore : ∀ k < j, laneActs mask k = true → capCheck (reg s b) (at' k) size perms = none ∧ at' k % 4 = 0)
    (he : checkAccess b (at' j) size perms 4 s = .error e) : checkLanes b size perms (laneAddrs mask at') s = .error e := by
  obtain ⟨later, hl⟩ := laneAddrs_split (at' := at') hj ha
  rw [hl, checkLanes_append, checkLanes, act_bind_error _ _ _ _ he]
  intro l hl
  obtain ⟨i, hi, rfl⟩ := List.mem_map.1 hl
  obtain ⟨hi, hact⟩ := List.mem_filter.1 hi
  exact hbefore i (by have := (mem_upFrom _ _ _).1 hi; omega) hact

end

/-- What a lane access raises, where its checks come first. -/
theorem lanesFault_of {i : Instr} {len : Nat} {b : Reg} {x : MemX} {s : State} {mask : BitVec 64} {at' : Nat → Int}
    {size perms : Nat} {m : Act Unit} (hi : exec i s = access len x m s)
    (hm : ∃ rest : Unit → Act Unit, m s = (checkLanes b size perms (laneAddrs mask at') >>= rest) s) :
    LanesFault i b mask at' size perms s := by
  obtain ⟨rest, hm⟩ := hm
  intro j hj ha hbefore
  exact ⟨fun sub h => capFaults_access hi
      (hm.trans (act_bind_error _ _ _ _ (checkLanes_first hj ha hbefore (checkAccess_sub h)))),
    fun h hal => capFaults_access hi
      (hm.trans (act_bind_error _ _ _ _ (checkLanes_first hj ha hbefore (checkAccess_align h hal))))⟩

theorem checkV_ok {s : State} {a : Reg} (h : Plain s a) : checkV a.val s = .ok ((), s) := by
  unfold Plain at h
  unfold checkV
  rw [act_get_bind]
  exact require_ok (by simpa using h)

theorem checkE_ok {s : State} {a : Reg} (h : a.val < (me s).ne) : checkE a.val s = .ok ((), s) := by
  unfold checkE
  rw [act_get_bind]
  exact require_ok (by simpa using h)

theorem loadedLane_eq (got : List (Nat × Nat)) (old : Nat → Nat) (j : Nat) :
    loadedLane got old j = match got.find? (·.1 == j) with
      | some v => v.2
      | none => old j := by
  unfold loadedLane
  cases got.find? (·.1 == j) <;> rfl

section
variable {i : Instr} {len : Nat} {a b : Reg} {mask : BitVec 64} {at' : Nat → Int} {x : MemX} {s : State} {m : Act Unit}

theorem vecLoads_of (hp : Plain s a) (hi : exec i s = access len x m s) (hm : m s = vecLoad a b mask at' x s) :
    VecLoads i len a b mask at' x s := by
  have hbody : vecLoad a b mask at' x s = (checkLanes b 4 permLD (laneAddrs mask at') >>= fun _ => do
      let s ← get
      let got ← loadLanes (memActor s b x) 4 (laneAddrs mask at')
      modify (putV a.val (BitVec.ofNat 2048
        (ofLanes 32 (loadedLane got fun i => (lane (vreg (me s) a.val) i).toNat))))) s :=
    act_bind_ok _ _ _ _ _ (checkV_ok hp)
  refine ⟨lanesFault_of hi ⟨_, hm.trans hbody⟩, fun got t h hr => ?_⟩
  rw [hi]
  refine access_accessed ((hm.trans hbody).trans ?_)
  rw [act_bind_ok _ _ _ _ _ (checkLanes_ok h), act_get_bind, act_bind_ok _ _ _ _ _ hr]
  unfold ofLanes fromLanes
  rw [funext (loadedLane_eq got _)] <;> rfl

theorem vecStores_of (hp : Plain s a) (hi : exec i s = access len x m s) (hm : m s = vecStore a b mask at' x s) :
    VecStores i len a b mask at' x s := by
  have hbody : vecStore a b mask at' x s = (checkLanes b 4 permST (laneAddrs mask at') >>= fun _ => do
      let s ← get
      storeLanes (memActor s b x) 4 (fun i => (lane (vreg (me s) a.val) i).toNat) (laneAddrs mask at')
        (laneAddrs mask at')) s :=
    act_bind_ok _ _ _ _ _ (checkV_ok hp)
  refine ⟨lanesFault_of hi ⟨_, hm.trans hbody⟩, fun t h hr => ?_⟩
  rw [hi]
  refine access_accessed ((hm.trans hbody).trans ?_)
  rw [act_bind_ok _ _ _ _ _ (checkLanes_ok h), act_get_bind, hr]

theorem momLoads_of (ha : a.val < (me s).ne) (hi : exec i s = access len x (momLoad a b mask at' x) s) :
    MomLoads i len a b mask at' x s := by
  have hbody : momLoad a b mask at' x s = (checkLanes b 8 permLD (laneAddrs mask at') >>= fun _ => do
      let s ← get
      let got ← loadLanes (memActor s b x) 8 (laneAddrs mask at')
      modify (putE a.val (BitVec.ofNat 4096 (ofLanes 64 (loadedLane got (momentBits (ereg (me s) a.val))))))) s :=
    act_bind_ok _ _ _ _ _ (checkE_ok ha)
  refine ⟨lanesFault_of hi ⟨_, hbody⟩, fun got t h hr => ?_⟩
  rw [hi]
  refine access_accessed (hbody.trans ?_)
  rw [act_bind_ok _ _ _ _ _ (checkLanes_ok h), act_get_bind, act_bind_ok _ _ _ _ _ hr]
  unfold ofLanes
  rw [funext (loadedLane_eq got _)] <;> rfl

theorem momStores_of (ha : a.val < (me s).ne) (hi : exec i s = access len x (momStore a b mask at' x) s) :
    MomStores i len a b mask at' x s := by
  have hbody : momStore a b mask at' x s = (checkLanes b 8 permST (laneAddrs mask at') >>= fun _ => do
      let s ← get
      storeLanes (memActor s b x) 8 (momentBits (ereg (me s) a.val)) (laneAddrs mask at') (laneAddrs mask at')) s :=
    act_bind_ok _ _ _ _ _ (checkE_ok ha)
  refine ⟨lanesFault_of hi ⟨_, hbody⟩, fun t h hr => ?_⟩
  rw [hi]
  refine access_accessed (hbody.trans ?_)
  rw [act_bind_ok _ _ _ _ _ (checkLanes_ok h), act_get_bind, hr]

end

/-- A gather or scatter checks the window of both of its registers, then goes on as a vector access. -/
theorem gather_body {a j : Reg} {s : State} (ha : Plain s a) (hj : Plain s j) (m : Act Unit) :
    (do checkV a.val; checkV j.val; m : Act Unit) s = m s :=
  (act_bind_ok _ _ _ _ _ (checkV_ok ha)).trans (act_bind_ok _ _ _ _ _ (checkV_ok hj))

/-- Settles O12: every form checks its acting lanes in ascending order, then loads or stores them. -/
theorem laneAccesses : Obligations.LaneAccesses := by
  intro a b m off x s
  refine ⟨fun ha => ⟨?_, ?_, ?_, ?_, fun hj => ⟨?_, ?_⟩⟩, fun ha => ⟨?_, ?_, ?_, ?_⟩⟩
  · exact vecLoads_of ha rfl (m := vecLoad a b allLanes (strided (shortAddr s b off 256) 4) plainX) rfl
  · exact vecLoads_of ha rfl (m := vecLoad a b (acting s m) (strided (longAddr s b x 256) 4) x) rfl
  · exact vecStores_of ha rfl (m := vecStore a b allLanes (strided (shortAddr s b off 256) 4) plainX) rfl
  · exact vecStores_of ha rfl (m := vecStore a b (acting s m) (strided (longAddr s b x 256) 4) x) rfl
  · exact vecLoads_of ha rfl (gather_body ha hj (vecLoad a b (acting s m) (gathered s b x) x))
  · exact vecStores_of ha rfl (gather_body ha hj (vecStore a b (acting s m) (gathered s b x) x))
  · exact momLoads_of ha rfl
  · exact momLoads_of ha rfl
  · exact momStores_of ha rfl
  · exact momStores_of ha rfl

end Sys2Proof.Machine
end

section
namespace Sys2Proof.Machine
open Sys2Proof.Claims

/-! ### Placement (R273) -/

/-- Elements depend on what acts alone. -/
theorem elemValues_congr {acts : Nat → Bool} {old : Nat → Nat} {f g : Nat → Draws Nat} {js : List Nat}
    (h : ∀ j ∈ js, acts j = true → f j = g j) : elemValues acts old f js = elemValues acts old g js := by
  induction js with
  | nil => rfl
  | cons j rest ih =>
    rw [elemValues, elemValues, ih fun k hk => h k (List.mem_cons_of_mem _ hk)]
    split
    case isTrue ha => rw [h j List.mem_cons_self ha]
    case isFalse => rfl

theorem elemsAfter_congr {a w : Nat} {mask : BitVec 64} {f g : Nat → Draws Nat} {s : State}
    (h : ∀ j < 2048 / w, laneActs mask (laneOf w j) = true → f j = g j) : elemsAfter a w mask f s = elemsAfter a w mask g s := by
  unfold elemsAfter newElems
  rw [elemValues_congr fun j hj => h j (by have := (mem_upFrom _ _ _).1 hj; omega)]

theorem elemIndex_eq (s : State) (c : Reg) (imm : BitVec 24) (f : Fmt) : elemIndex s c imm f.width = indexOf s c imm f := by
  unfold elemIndex indexOf
  rw [wrap_eq] <;> rfl

section
variable {a b c : Reg} {imm : BitVec 24} {x : VecX} {s : State} {na nb nc : Nat}

theorem vselBody_ok (ha : ReachA s a x na) (hb : ReachB s b x nb) (hc : ReachC s c x nc) :
    vselBody a b c x s = .ok ((), elemsAfter na 32 (BitVec.allOnes 64)
      (fun j => pure (elem (vreg (me s) (if laneActs (acting s x.mask) j = true then nb else nc)) 32 j)) s) := by
  unfold vselBody
  rw [act_bind_ok _ _ _ _ _ (regA_ok ha), act_bind_ok _ _ _ _ _ (regB_ok hb), act_bind_ok _ _ _ _ _ (regC_ok hc),
    act_get_bind]
  exact elementwise_ok _ _ _ _ _

theorem vpermBody_ok (ha : ReachA s a x na) (hb : ReachB s b x nb) (hc : ReachC s c x nc) :
    vpermBody a b c x s = .ok ((), elemsAfter na x.fmt.width (acting s x.mask) (fun j =>
      pure (elem (vreg (me s) nb) x.fmt.width (elem (vreg (me s) nc) x.fmt.width j % (2048 / x.fmt.width)))) s) := by
  unfold vpermBody
  rw [act_bind_ok _ _ _ _ _ (regA_ok ha), act_bind_ok _ _ _ _ _ (regB_ok hb), act_bind_ok _ _ _ _ _ (regC_ok hc),
    act_get_bind]
  exact elementwise_ok _ _ _ _ _

theorem vbcastBody_ok (ha : ReachA s a x na) (hb : ReachB s b x nb) :
    vbcastBody a b c imm x s = .ok ((), elemsAfter na x.fmt.width (acting s x.mask)
      (fun _ => pure (elem (vreg (me s) nb) x.fmt.width (indexOf s c imm x.fmt))) s) := by
  unfold vbcastBody
  rw [act_bind_ok _ _ _ _ _ (regA_ok ha), act_bind_ok _ _ _ _ _ (regB_ok hb), act_get_bind, ← elemIndex_eq]
  exact elementwise_ok _ _ _ _ _

theorem vidxBody_ok (ha : ReachA s a x na) :
    vidxBody a b imm x s = .ok ((), elemsAfter na x.fmt.width (acting s x.mask)
      (fun j => pure (((reg64 s b).toNat + imm.toInt + j) % (2 ^ 64 : Nat)).toNat) s) := by
  unfold vidxBody
  rw [act_bind_ok _ _ _ _ _ (regA_ok ha), act_get_bind]
  simp only [wrap_eq]
  exact elementwise_ok _ _ _ _ _

theorem splatBody_ok (v : BitVec 64) (ha : ReachA s a x na) :
    splatBody a v x s = .ok ((), elemsAfter na x.fmt.width (acting s x.mask) (fun _ => pure v.toNat) s) := by
  unfold splatBody
  rw [act_bind_ok _ _ _ _ _ (regA_ok ha), act_get_bind]
  exact elementwise_ok _ _ _ _ _

theorem vinsBody_acts (ha : ReachA s a x na) (h : laneActs (acting s x.mask) (laneOf x.fmt.width (indexOf s c imm x.fmt)) = true) :
    vinsBody a b c imm x s = .ok ((), putV na
      (setElem (vreg (me s) na) x.fmt.width (indexOf s c imm x.fmt) (reg s b).bits.toNat) s) := by
  unfold vinsBody
  rw [act_bind_ok _ _ _ _ _ (regA_ok ha), act_get_bind]
  rw [elemIndex_eq, if_pos h]
  rfl

theorem vinsBody_rests (ha : ReachA s a x na) (h : laneActs (acting s x.mask) (laneOf x.fmt.width (indexOf s c imm x.fmt)) = false) :
    vinsBody a b c imm x s = .ok ((), s) := by
  unfold vinsBody
  rw [act_bind_ok _ _ _ _ _ (regA_ok ha), act_get_bind]
  rw [elemIndex_eq, if_neg (by rw [h]; decide)]
  rfl

theorem vextBody_ok (hb : ReachB s b x nb) : vextBody a b c imm x s =
    .ok ((), writeInt a 64 (extended x.fmt (elem (vreg (me s) nb) x.fmt.width (indexOf s c imm x.fmt))) s) := by
  unfold vextBody
  rw [act_bind_ok _ _ _ _ _ (regB_ok hb), act_get_bind]
  rw [elemIndex_eq]
  rfl

end

/-- The lane of every element acts under the whole mask. -/
theorem acts_allOnes {j : Nat} (h : j < 64) : laneActs (BitVec.allOnes 64) j = true := by
  unfold laneActs
  rw [BitVec.getLsbD_allOnes]
  exact decide_eq_true h

theorem acts_lt {mask : BitVec 64} {j : Nat} (h : laneActs mask j = true) : j < 64 := BitVec.lt_of_getLsbD h

theorem placementShort (a b c : Reg) (fmt : Fmt) (s : State) (ha : Plain s a) (hb : Plain s b) :
    (Plain s c → exec (.vsel a b c fmt) s = .next (lanesAfter 4 a.val 32 (BitVec.allOnes 64)
      (fun j => pure (elem (vreg (me s) b.val) 32 j)) s)) ∧
    exec (.vbcast a b c fmt) s = .next (lanesAfter 4 a.val fmt.width (BitVec.allOnes 64)
      (fun _ => pure (elem (vreg (me s) b.val) fmt.width (indexOf s c 0 fmt))) s) ∧
    (Plain s c → exec (.vperm a b c fmt) s = .next (lanesAfter 4 a.val fmt.width (BitVec.allOnes 64)
      (fun j => pure (elem (vreg (me s) b.val) fmt.width (elem (vreg (me s) c.val) fmt.width j % (2048 / fmt.width)))) s)) ∧
    exec (.vext a b c fmt) s =
      .next (advance 4 (writeInt a 64 (extended fmt (elem (vreg (me s) b.val) fmt.width (indexOf s c 0 fmt))) s)) := by
  have hx := reachA_plain fmt ha
  have hy := reachB_plain fmt hb
  refine ⟨fun hc => ?_, quick_ok 4 (vbcastBody a b c 0 (shortX fmt)) s _ (vbcastBody_ok hx hy),
    fun hc => quick_ok 4 (vpermBody a b c (shortX fmt)) s _ (vpermBody_ok hx hy (reachC_plain fmt hc)),
    quick_ok 4 (vextBody a b c 0 (shortX fmt)) s _ (vextBody_ok hy)⟩
  refine quick_ok 4 (vselBody a b c (shortX fmt)) s _ ((vselBody_ok hx hy (reachC_plain fmt hc)).trans ?_)
  rw [elemsAfter_congr fun j hj _ => ?_]
  rw [acting_short, acts_allOnes hj]
  rfl

theorem placementWide (a b c : Reg) (imm : BitVec 24) (x : VecX) (s : State) (na nb nc : Nat) :
    (ReachA s a x na → ReachB s b x nb → ReachC s c x nc →
      exec (.vselExt a b c x) s = .next (lanesAfter 12 na 32 (BitVec.allOnes 64)
        (fun j => pure (elem (vreg (me s) (if laneActs (acting s x.mask) j = true then nb else nc)) 32 j)) s) ∧
      exec (.vpermExt a b c x) s = .next (lanesAfter 12 na x.fmt.width (acting s x.mask)
        (fun j => pure (elem (vreg (me s) nb) x.fmt.width
          (elem (vreg (me s) nc) x.fmt.width j % (2048 / x.fmt.width)))) s)) ∧
    (ReachA s a x na → ReachB s b x nb →
      exec (.vbcastExt a b c imm x) s = .next (lanesAfter 12 na x.fmt.width (acting s x.mask)
        (fun _ => pure (elem (vreg (me s) nb) x.fmt.width (indexOf s c imm x.fmt))) s)) ∧
    (ReachA s a x na →
      exec (.vidxExt a b imm x) s = .next (lanesAfter 12 na x.fmt.width (acting s x.mask)
        (fun j => pure (((reg64 s b).toNat + imm.toInt + j) % (2 ^ 64 : Nat)).toNat) s) ∧
      (laneActs (acting s x.mask) (laneOf x.fmt.width (indexOf s c imm x.fmt)) = true →
        exec (.vinsExt a b c imm x) s = .next (newV 12 na
          (setElem (vreg (me s) na) x.fmt.width (indexOf s c imm x.fmt) (reg s b).bits.toNat) s)) ∧
      (laneActs (acting s x.mask) (laneOf x.fmt.width (indexOf s c imm x.fmt)) = false →
        exec (.vinsExt a b c imm x) s = .next (advance 12 s))) ∧
    (ReachB s b x nb →
      exec (.vextExt a b c imm x) s = .next (advance 12 (writeInt a 64
        (extended x.fmt (elem (vreg (me s) nb) x.fmt.width (indexOf s c imm x.fmt))) s))) :=
  ⟨fun ha hb hc => ⟨quick_ok 12 (vselBody a b c x) s _ (vselBody_ok ha hb hc),
      quick_ok 12 (vpermBody a b c x) s _ (vpermBody_ok ha hb hc)⟩,
    fun ha hb => quick_ok 12 (vbcastBody a b c imm x) s _ (vbcastBody_ok ha hb),
    fun ha => ⟨quick_ok 12 (vidxBody a b imm x) s _ (vidxBody_ok ha),
      fun h => quick_ok 12 (vinsBody a b c imm x) s _ (vinsBody_acts ha h),
      fun h => quick_ok 12 (vinsBody a b c imm x) s _ (vinsBody_rests ha h)⟩,
    fun hb => quick_ok 12 (vextBody a b c imm x) s _ (vextBody_ok hb)⟩

/-- The element that holds the lowest number of a lane stands in a lane. -/
theorem laneOf_index_lt (s : State) (c : Reg) (imm : BitVec 24) (f : Fmt) : laneOf f.width (indexOf s c imm f) < 64 := by
  unfold laneOf indexOf
  generalize ((((reg64 s c).toNat : Int) + imm.toInt) % ((2 ^ 64 : Nat) : Int)).toNat = n
  cases f <;> simp only [Fmt.width] <;> omega

theorem splatFields_eq (w : SplatX) : splatFields w = splatX w := by cases w <;> rfl

theorem splatValue_eq (s : State) (w : SplatX) : splatValue s w = splatSource s w := by
  cases w with
  | ext c imm x => exact opReg_eq s c imm
  | lit v f => rfl
  | long v x => rfl

/-- Settles O7: each body once, on the registers that its fields reach, then both forms. -/
theorem vectorPlacement : Obligations.VectorPlacement := by
  refine ⟨placementShort, fun a b c fmt s ha => ⟨?_, ?_, ?_⟩, placementWide, fun a w s na ha => ?_⟩
  · refine quick_ok 4 (vidxBody a b 0 (shortX fmt)) s _ ((vidxBody_ok (reachA_plain fmt ha)).trans ?_)
    have hj (j : Nat) : (((reg64 s b).toNat + (0 : BitVec 24).toInt + j) % (2 ^ 64 : Nat)).toNat =
        ((reg64 s b).toNat + j) % 2 ^ 64 := by
      rw [show (0 : BitVec 24).toInt = 0 from rfl]
      omega
    simp only [hj]
    rfl
  · refine quick_ok 4 (splatBody a (opReg s c 0) (shortX fmt)) s _ ((splatBody_ok _ (reachA_plain fmt ha)).trans ?_)
    rw [opReg_short]
    rfl
  · exact quick_ok 4 (vinsBody a b c 0 (shortX fmt)) s _ (vinsBody_acts (reachA_plain fmt ha)
      (acts_allOnes (laneOf_index_lt s c 0 fmt)))
  · have hbody : splatBody a (splatValue s w) (splatFields w) s = .ok ((), elemsAfter na (splatX w).fmt.width
        (acting s (splatX w).mask) (fun _ => pure (splatSource s w).toNat) s) := by
      rw [splatFields_eq, splatValue_eq]
      exact splatBody_ok _ ha
    cases w with
    | ext c imm x => exact quick_ok 12 (splatBody a _ _) s _ hbody
    | lit v f => exact quick_ok 12 (splatBody a _ _) s _ hbody
    | long v x => exact quick_ok 20 (splatBody a _ _) s _ hbody

end Sys2Proof.Machine
end

section
namespace Sys2Proof.Machine
open Sys2Proof.Claims

/-! ### Moments, lane by lane (R115, R279) -/

theorem upFrom_eq_range (n : Nat) : upFrom 0 n = List.range n := by
  have h (a : Nat) : upFrom a n = List.range' a n := by
    induction n generalizing a with
    | zero => rfl
    | succ n ih => rw [upFrom, ih, List.range'_succ]
  rw [h, List.range_eq_range']

section
variable {α : Type} {f : Nat → Mom α} {g : Nat → α} {hit : Nat → Bool}

/-- Lanes that all give a value. -/
theorem eachLane_ok {ls : List Nat} {clamped : Bool} (h : ∀ i ∈ ls, f i false = some (g i, hit i)) :
    eachLane f ls clamped = .ok (ls.map fun i => (i, g i), clamped || ls.any hit) := by
  induction ls generalizing clamped with
  | nil => rw [eachLane, List.any_nil, Bool.or_false]; rfl
  | cons i rest ih =>
    rw [eachLane, h i List.mem_cons_self]
    dsimp only
    rw [ih fun k hk => h k (List.mem_cons_of_mem _ hk), List.any_cons, Bool.or_assoc]
    rfl

/-- The first lane refused decides. -/
theorem eachLane_first {earlier later : List Nat} {j : Nat} {clamped : Bool} (h : ∀ i ∈ earlier, f i false ≠ none)
    (hj : f j false = none) : eachLane f (earlier ++ j :: later) clamped = .error j := by
  induction earlier generalizing clamped with
  | nil => rw [List.nil_append, eachLane, hj]
  | cons i rest ih =>
    obtain ⟨⟨x, c⟩, hx⟩ := Option.ne_none_iff_exists'.1 (h i List.mem_cons_self)
    rw [List.cons_append, eachLane, hx]
    dsimp only
    rw [ih fun k hk => h k (List.mem_cons_of_mem _ hk)]

/-- The value found for a lane. -/
theorem find_lane (ls : List Nat) (i : Nat) (old : α) :
    (((ls.map fun i => (i, g i)).find? (·.1 == i)).map (·.2)).getD old = if i ∈ ls then g i else old := by
  induction ls with
  | nil => rfl
  | cons k rest ih =>
    rw [List.map_cons, List.find?_cons]
    by_cases hk : k = i
    · subst hk
      simp
    · rw [beq_false_of_ne hk, ih]
      have : i ≠ k := fun h => hk h.symm
      simp [this]

end

theorem mem_acting {mask : BitVec 64} {i : Nat} : i ∈ lanes.filter (laneActs mask) ↔ laneActs mask i = true := by
  rw [List.mem_filter]
  refine ⟨fun h => h.2, fun h => ⟨(mem_upFrom _ _ _).2 ⟨Nat.zero_le _, ?_⟩, h⟩⟩
  rw [Nat.zero_add]
  exact acts_lt h

section
variable {a : Nat} {mask : BitVec 64} {f : Nat → Mom Pair} {s : State}

theorem pairwise_ok {g : Nat → Pair} {hit : Nat → Bool} (h : GivesPairs mask f g hit) :
    pairwise a mask f s = .ok ((), pairsInto a mask g hit s) := by
  have hall : ∀ i ∈ lanes.filter (laneActs mask), f i false = some (g i, hit i) := fun i hi =>
    h i (acts_lt (mem_acting.1 hi)) (mem_acting.1 hi)
  unfold pairwise pairsInto
  rw [eachLane_ok hall, Bool.false_or, List.any_filter]
  dsimp only
  rw [act_get_bind]
  simp only [find_lane, mem_acting]
  rfl

theorem pairwise_first {j : Nat} (hj : j < 64) (ha : laneActs mask j = true) (hn : f j false = none)
    (hbefore : ∀ k < j, laneActs mask k = true → f k false ≠ none) :
    pairwise a mask f s = .error (.trap ⟨causeVariance, j, 0⟩) := by
  have hsplit : lanes.filter (laneActs mask) = (upFrom 0 j).filter (laneActs mask) ++
      j :: (upFrom (j + 1) (63 - j)).filter (laneActs mask) := by
    rw [lanes_split hj, List.filter_append, List.filter_cons_of_pos ha]
  unfold pairwise
  rw [hsplit, eachLane_first _ hn]
  · rfl
  · intro i hi
    obtain ⟨hi, hact⟩ := List.mem_filter.1 hi
    exact hbefore i (by have := (mem_upFrom _ _ _).1 hi; omega) hact

/-- An instruction that is `pairwise` past its registers. -/
theorem momentOutcome_of {i : Instr} {len : Nat} {m : Act Unit} (hi : exec i s = quick len m s)
    (hm : m s = pairwise a mask f s) : MomentOutcome i len a mask f s := by
  refine ⟨fun g hit h => ?_, fun j hj ha hn hbefore => ?_⟩
  · rw [hi]
    exact quick_ok _ _ _ _ (hm.trans (pairwise_ok h))
  · rw [hi]
    exact quick_trap _ _ _ _ (hm.trans (pairwise_first hj ha hn hbefore))

end

/-! ### The moment instructions (R107 to R113, R279 to R281) -/

theorem inWindowE_ok {s : State} {i : Int} {n : Nat} (h : InE s i n) : inWindowE i s = .ok (n, s) := by
  obtain ⟨h0, hn, rfl⟩ := h
  unfold inWindowE
  rw [act_get_bind, require_bind_ok _ (by simpa using ⟨h0, hn⟩)]
  rfl

section
variable {a b c d : Reg} {x : VecX} {s : State} {na nb nc : Nat}

theorem inE_plain {r : Reg} (h : r.val < (me s).ne) : InE s r.val r.val := ⟨by omega, by omega, by simp⟩

theorem indexA_ok (h : InE s (fieldA s x.index a) na) : indexA a x.index s = .ok (na, s) := by
  unfold indexA
  rw [act_get_bind]
  exact inWindowE_ok h

theorem indexB_ok (h : InE s (fieldB s x.index b) nb) : indexB b x.index s = .ok (nb, s) := by
  unfold indexB
  rw [act_get_bind]
  exact inWindowE_ok h

theorem indexC_ok (h : InE s (fieldC s x.index c) nc) : indexC c x.index s = .ok (nc, s) := by
  unfold indexC
  rw [act_get_bind]
  exact inWindowE_ok h

theorem momentBody_eq (f : MomentMode → Number → Number → Number × Number) (ha : InE s (fieldA s x.index a) na)
    (hb : InE s (fieldB s x.index b) nb) : momentBody a b x f s = pairwise na (acting s x.mask)
      (fun i => onePair (momentMode (me s)) (f (momentMode (me s))) (pairOf s nb i)) s := by
  unfold momentBody
  rw [act_bind_ok _ _ _ _ _ (indexA_ok ha), act_bind_ok _ _ _ _ _ (indexB_ok hb), act_get_bind]
  rfl

theorem momentsBody_eq (f : MomentMode → Number → Number → Number → Number → Number × Number)
    (ha : InE s (fieldA s x.index a) na) (hb : InE s (fieldB s x.index b) nb) (hc : InE s (fieldC s x.index c) nc) :
    momentsBody a b c x f s = pairwise na (acting s x.mask)
      (fun i => twoPairs (momentMode (me s)) (f (momentMode (me s))) (pairOf s nb i) (pairOf s nc i)) s := by
  unfold momentsBody
  rw [act_bind_ok _ _ _ _ _ (indexA_ok ha), act_bind_ok _ _ _ _ _ (indexB_ok hb), act_bind_ok _ _ _ _ _ (indexC_ok hc),
    act_get_bind]
  rfl

theorem mmovBody_eq (ha : InE s (fieldA s x.index a) na) (hb : InE s (fieldB s x.index b) nb) :
    mmovBody a b x s = pairwise na (acting s x.mask) (fun i => movedPair (covClamp (me s)) (pairOf s nb i)) s := by
  unfold mmovBody
  rw [act_bind_ok _ _ _ _ _ (indexA_ok ha), act_bind_ok _ _ _ _ _ (indexB_ok hb), act_get_bind]
  rfl

theorem mfromBody_eq (ha : InE s (fieldA s x.index a) na) (hb : ReachB s b x nb) (hc : ReachC s c x nc) :
    mfromBody a b c x s = pairwise na (acting s x.mask) (fun i => movedPair (covClamp (me s))
      ⟨elem (vreg (me s) nb) 32 i, elem (vreg (me s) nc) 32 i⟩) s := by
  unfold mfromBody
  rw [act_bind_ok _ _ _ _ _ (indexA_ok ha), act_bind_ok _ _ _ _ _ (regB_ok hb), act_bind_ok _ _ _ _ _ (regC_ok hc),
    act_get_bind]

end

/-- The instructions of a row of two registers: each is `momentsBody` of the steps of its row. -/
structure MomentsMeaning (r : MomentsRow) : Prop where
  short : ∀ a b c s, ∃ m, exec (r.short a b c) s = quick 4 m s ∧ m s = momentsBody a b c momX (r.steps s 0) s
  ext : ∀ a b c d x s, ∃ m, exec (r.ext a b c d x) s = quick 12 m s ∧ m s = momentsBody a b c x (r.steps s d) s

structure MomentMeaning (r : MomentRow) : Prop where
  short : ∀ a b s, exec (r.short a b) s = quick 4 (momentBody a b momX r.steps) s
  ext : ∀ a b x s, exec (r.ext a b x) s = quick 12 (momentBody a b x r.steps) s

theorem momentsMeaning : ∀ r ∈ momentsRows, MomentsMeaning r := by
  simp only [momentsRows, List.forall_mem_cons, List.not_mem_nil, false_implies, implies_true, and_true]
  refine ⟨⟨fun a b c s => ⟨maddBody a b c 0 false momX, rfl, rfl⟩, fun a b c d x s => ⟨maddBody a b c d false x, rfl, rfl⟩⟩,
    ⟨fun a b c s => ⟨maddBody a b c 0 true momX, rfl, rfl⟩, fun a b c d x s => ⟨maddBody a b c d true x, rfl, rfl⟩⟩,
    ⟨fun a b c s => ⟨momentsBody a b c momX mulMoments, rfl, rfl⟩,
      fun a b c d x s => ⟨momentsBody a b c x mulMoments, rfl, rfl⟩⟩⟩

theorem momentMeaning : ∀ r ∈ momentRows, MomentMeaning r := by
  simp only [momentRows, List.forall_mem_cons, List.not_mem_nil, false_implies, implies_true, and_true]
  and_intros <;> exact ⟨fun _ _ _ => rfl, fun _ _ _ _ => rfl⟩

theorem momentArithmetic : Claims.MomentArithmetic := by
  refine ⟨fun r hr a b c d x s => ⟨fun ha hb hc => ?_, fun na nb nc ha hb hc => ?_⟩,
    fun r hr a b x s => ⟨fun ha hb => ?_, fun na nb ha hb => ?_⟩,
    fun a b c x s => ⟨fun ha hb => ⟨?_, ?_⟩, fun ha hb hc => ?_, fun na nb nc ha => ⟨fun hb => ⟨?_, ?_⟩, fun hb hc => ?_⟩⟩⟩
  · obtain ⟨m, hi, hm⟩ := (momentsMeaning r hr).short a b c s
    exact momentOutcome_of hi (hm.trans (momentsBody_eq (x := momX) _ (inE_plain ha) (inE_plain hb) (inE_plain hc)))
  · obtain ⟨m, hi, hm⟩ := (momentsMeaning r hr).ext a b c d x s
    exact momentOutcome_of hi (hm.trans (momentsBody_eq _ ha hb hc))
  · exact momentOutcome_of ((momentMeaning r hr).short a b s) (momentBody_eq (x := momX) _ (inE_plain ha) (inE_plain hb))
  · exact momentOutcome_of ((momentMeaning r hr).ext a b x s) (momentBody_eq _ ha hb)
  · exact momentOutcome_of (m := msclBody a b c momX) rfl
      (momentBody_eq (x := momX) (fun m => scaleMoments m (constOf s c)) (inE_plain ha) (inE_plain hb))
  · exact momentOutcome_of (m := mmovBody a b momX) rfl (mmovBody_eq (x := momX) (inE_plain ha) (inE_plain hb))
  · exact momentOutcome_of (m := mfromBody a b c (shortX .f32)) rfl
      (mfromBody_eq (x := shortX .f32) (inE_plain ha) (reachB_plain _ hb) (reachC_plain _ hc))
  · exact momentOutcome_of (m := msclBody a b c x) rfl (momentBody_eq (fun m => scaleMoments m (constOf s c)) ha hb)
  · exact momentOutcome_of (m := mmovBody a b x) rfl (mmovBody_eq ha hb)
  · exact momentOutcome_of (m := mfromBody a b c x) rfl (mfromBody_eq ha hb hc)

/-! ### Negative variances (R115) -/

theorem isZero_f32 (v : BitVec 32) : (f32 v.toNat).isZero = true ↔ v.toNat % 2 ^ 31 = 0 := by
  have hv : v.toNat % 2 ^ 32 = v.toNat := Nat.mod_eq_of_lt v.isLt
  show (binary32.value v.toNat).isZero = true ↔ _
  unfold FloatFmt.value
  rw [show binary32.width = 32 from rfl, hv]
  dsimp only
  rw [show 32 - 1 = 31 from rfl]
  split
  case isTrue hle =>
    show (binary32.magnitude (v.toNat % 2 ^ 31)).1 == 0 ↔ _
    unfold FloatFmt.magnitude
    rw [show binary32.fbits = 23 from rfl]
    dsimp only
    split
    case isTrue h0 => simp; omega
    case isFalse h0 => simp; omega
  case isFalse hgt =>
    have hne : ¬ v.toNat % 2 ^ 31 = 0 := fun h0 => hgt (by rw [h0]; exact Nat.zero_le _)
    split <;> exact iff_of_false Bool.false_ne_true hne

/-- The encoding of −0 is the one negative zero. -/
theorem negativeZero_iff (v : BitVec 32) (h : v.getLsbD 31 = true) : v.toNat % 2 ^ 31 = 0 ↔ v = 0x80000000 := by
  have h31 : v.toNat / 2 ^ 31 % 2 = 1 := by
    rw [BitVec.getLsbD, Nat.testBit_eq_decide_div_mod_eq] at h
    simpa using h
  have hlt := v.isLt
  rw [BitVec.toNat_eq, show (0x80000000 : BitVec 32).toNat = 2 ^ 31 from rfl]
  omega

theorem negativeVariance : Claims.NegativeVariance := by
  intro clamp v was
  refine ⟨?_, fun h => ?_, fun h => ⟨?_, ?_⟩⟩
  · have hbit : bit v.toNat 31 = v.getLsbD 31 := bit_eq_testBit _ _
    unfold negativeVar
    rw [Bool.or_eq_true, Bool.and_eq_true, hbit, Bool.not_eq_true', Bool.eq_false_iff, ne_eq, isZero_f32]
    refine or_congr_right (and_congr_right fun h => not_congr (negativeZero_iff v h))
  · unfold takeVar
    rw [h]
    rfl
  · unfold takeVar
    rw [h]
    rfl
  · unfold takeVar
    rw [h]
    rfl

/-! ### Collapse (R114, R282) -/

/-- The source lanes of a collapse: those that an acting element takes. -/
def collapseSources (f : Fmt) (half : Bool) (mask : BitVec 64) : List Nat :=
  ((upFrom 0 (2048 / f.width)).filter fun j => laneActs mask (laneOf f.width j)).filterMap (collapseSource f half)

theorem mem_collapseSources {f : Fmt} {half : Bool} {mask : BitVec 64} {i : Nat} : i ∈ collapseSources f half mask ↔
    ∃ j < 2048 / f.width, laneActs mask (laneOf f.width j) = true ∧ collapseSource f half j = some i := by
  unfold collapseSources
  simp only [List.mem_filterMap, List.mem_filter, upFrom_eq_range, List.mem_range, and_assoc]

theorem momentCollapse : Claims.MomentCollapse := by
  intro a b c form half x s na nb g hit ha hb takes h
  refine quick_ok 12 (mcollBody a b c form half x) s _ ?_
  have hpairs : ∀ i ∈ collapseSources x.fmt half (acting s x.mask),
      movedPair (covClamp (me s)) (pairOf s nb i) false = some (g i, hit i) := by
    intro i hi
    obtain ⟨j, hj, hact, hsrc⟩ := mem_collapseSources.1 hi
    exact h j hj hact i hsrc
  unfold mcollBody
  rw [act_bind_ok _ _ _ _ _ (regA_ok ha), act_bind_ok _ _ _ _ _ (indexB_ok hb), act_get_bind]
  dsimp only
  have heach := eachLane_ok (clamped := false) hpairs
  unfold collapseSources pairOf at heach
  rw [show (momentMode (me s)).clamp = covClamp (me s) from rfl, heach]
  dsimp only
  rw [act_bind_ok _ _ _ _ _ (elementwise_ok _ _ _ _ _)]
  refine congrArg (fun t => Except.ok ((), t)) (congr (congrArg setClamped ?_) (elemsAfter_congr fun j hj hact => ?_))
  · rw [Bool.false_or, List.any_filterMap, List.any_filter, upFrom_eq_range]
    rfl
  · rcases hsrc : collapseSource x.fmt half j with _ | i
    · rfl
    · dsimp only
      have hmem : i ∈ collapseSources x.fmt half (acting s x.mask) := mem_collapseSources.2 ⟨j, hj, hact, hsrc⟩
      unfold collapseSources at hmem
      rw [find_lane, if_pos hmem]

/-- Settles O50: the lanes of an instruction are taken in order, so all give their pair or the lowest refused one decides. -/
theorem moments : Obligations.Moments := ⟨momentArithmetic, negativeVariance, momentCollapse⟩

end Sys2Proof.Machine
end

section
namespace Sys2Proof.Machine
open Sys2Proof.Claims

/-! ### Instructions of the matrix array and the epilogue processor: what their checks do -/

theorem ordered_done {keeps fills : Bool} {len : Nat} {m : Act Unit} {s t : State} {checks : List (Act (List Nat))}
    (h : m s = .ok ((), t)) : ordered keeps fills len m s checks = .next (inOrder len t) := by
  rw [ordered_ok keeps fills len m s t h]
  have hwho : who (outOfRotation (advance len t)) = who t := (who_onMe _ _).trans (who_advance _ _)
  dsimp only
  rw [hwho]
  rfl

section
variable {s : State}

theorem needMain_ok (r : Raw) (h : isBasecamp (who s).core = false) : needMain r s = .ok ((), s) := by
  unfold needMain
  rw [act_get_bind]
  refine require_ok ?_
  unfold onBasecamp
  rw [h]
  rfl

theorem takeTurn_ok (h : InTurn s) : takeTurn s = .ok ((), s) := by
  unfold InTurn at h
  unfold takeTurn
  rw [act_get_bind]
  exact congrFun (if_neg (by rw [h]; decide)) s

theorem waitForJob_ok {tile : Nat} {blocks : List Nat} (h : NoJobReads s tile blocks) :
    waitForJob tile blocks s = .ok ((), s) := by
  unfold NoJobReads at h
  unfold waitForJob
  rw [act_get_bind]
  exact congrFun (if_neg (by rw [h]; decide)) s

theorem checkV_in {n : Nat} (h : n < (me s).nv) : checkV n s = .ok ((), s) := by
  unfold checkV
  rw [act_get_bind]
  exact require_ok (by simpa using h)

theorem checkE_in {n : Nat} (h : n < (me s).ne) : checkE n s = .ok ((), s) := by
  unfold checkE
  rw [act_get_bind]
  exact require_ok (by simpa using h)

end

/-! ### Row moves and clears (R325, R326) -/

theorem columnPair_eq (s : State) (b : Reg) {j : Nat} (h : j < 128) :
    pairAt (ereg (me s) (if j < 64 then b.val else b.val + 1)) (j % 64) = columnPair s b j := by
  unfold columnPair pairOf
  split
  case isTrue hj => rw [Nat.mod_eq_of_lt hj]
  case isFalse hj => rw [show j % 64 = j - 64 by omega]

section
variable {a b c : Reg} {s : State} (r : Raw) (hcamp : isBasecamp (who s).core = false) (hturn : InTurn s)
include hcamp hturn

theorem accRdBody_ok (hv : a.val + 1 < (me s).nv) : accRdBody r a b c s =
    .ok ((), putV (a.val + 1) ((rowOfTile s b.val c).extractLsb' 2048 2048)
      (putV a.val ((rowOfTile s b.val c).extractLsb' 0 2048) s)) := by
  unfold accRdBody
  rw [act_bind_ok _ _ _ _ _ (needMain_ok r hcamp), act_bind_ok _ _ _ _ _ (checkV_in (by omega)),
    act_bind_ok _ _ _ _ _ (checkV_in hv), act_bind_ok _ _ _ _ _ (takeTurn_ok hturn), act_get_bind]
  rfl

theorem accRdMoBody_ok {g : Nat → Pair} {hit : Nat → Bool} (hv : a.val + 1 < (me s).ne)
    (h : ∀ j < 128, movedPair (covClamp (me s)) (pairsOfRows (rowOfTile s b.val c) (rowOfTile s (b.val + 1) c) j) false =
      some (g j, hit j)) :
    accRdMoBody r a b c s = .ok ((), setClamped ((List.range 128).any hit)
      (putE (a.val + 1) (fromMoments (lanes.map fun i => ((g (64 + i)).mean, (g (64 + i)).var)))
        (putE a.val (fromMoments (lanes.map fun i => ((g i).mean, (g i).var))) s))) := by
  have hrow : rowPairs (covClamp (me s)) (rowOfTile s b.val c) (rowOfTile s (b.val + 1) c) =
      .ok (columns.map fun j => (j, g j), (List.range 128).any hit) := by
    unfold rowPairs
    rw [← upFrom_eq_range]
    exact eachLane_ok fun j hj => h j (by have := (mem_upFrom _ _ _).1 hj; omega)
  unfold accRdMoBody
  rw [act_bind_ok _ _ _ _ _ (needMain_ok r hcamp), act_bind_ok _ _ _ _ _ (checkE_in (by omega)),
    act_bind_ok _ _ _ _ _ (checkE_in hv), act_bind_ok _ _ _ _ _ (takeTurn_ok hturn), act_get_bind]
  dsimp only
  unfold rowOfTile at hrow
  unfold tileRow
  rw [hrow]
  dsimp only
  rw [List.map_map, ← List.map_drop, ← List.map_take]
  have htake : columns.take 64 = lanes := rfl
  have hdrop : columns.drop 64 = lanes.map (64 + ·) := rfl
  rw [htake, hdrop, List.map_map]
  rfl

theorem accWrBody_ok {t : Nat} (ht : t = (reg64 s c).toNat % 128) (hjob : NoJobReads s a.val [t / 16])
    (hv : b.val + 1 < (me s).nv) : accWrBody r a b c s =
      .ok ((), coreBy (setAccRow a.val t (vreg (me s) (b.val + 1) ++ vreg (me s) b.val)) s) := by
  subst ht
  unfold accWrBody
  rw [act_bind_ok _ _ _ _ _ (needMain_ok r hcamp), act_bind_ok _ _ _ _ _ (checkV_in (by omega)),
    act_bind_ok _ _ _ _ _ (checkV_in hv), act_bind_ok _ _ _ _ _ (takeTurn_ok hturn), act_get_bind]
  exact act_bind_ok _ _ _ _ _ (waitForJob_ok hjob)

theorem accWrMoBody_ok {t : Nat} (ht : t = (reg64 s c).toNat % 128) (hjob : NoJobReads s a.val [t / 16])
    (hjob' : NoJobReads s (a.val + 1) [t / 16]) (hv : b.val + 1 < (me s).ne) : accWrMoBody r a b c s =
      .ok ((), coreBy (fun k => setAccRow (a.val + 1) t (elementsRow fun j => (columnPair s b j).var)
        (setAccRow a.val t (elementsRow fun j => (columnPair s b j).mean) k)) s) := by
  subst ht
  have hpair : ∀ j ∈ List.range 128,
      pairAt (ereg (me s) (if j < 64 then b.val else b.val + 1)) (j % 64) = columnPair s b j := fun j hj =>
    columnPair_eq s b (List.mem_range.1 hj)
  unfold accWrMoBody
  rw [act_bind_ok _ _ _ _ _ (needMain_ok r hcamp), act_bind_ok _ _ _ _ _ (checkE_in (by omega)),
    act_bind_ok _ _ _ _ _ (checkE_in hv), act_bind_ok _ _ _ _ _ (takeTurn_ok hturn), act_get_bind]
  dsimp only
  unfold tileRow
  rw [act_bind_ok _ _ _ _ _ (waitForJob_ok hjob), act_bind_ok _ _ _ _ _ (waitForJob_ok hjob')]
  unfold columns
  rw [upFrom_eq_range, List.map_congr_left fun j hj => congrArg Pair.mean (hpair j hj),
    List.map_congr_left fun j hj => congrArg Pair.var (hpair j hj)]
  rfl

theorem accClrBody_ok {mask : Nat} (hjob : NoJobReads s a.val (maskBlocks mask)) :
    accClrBody r a mask s = .ok ((), coreBy (clearBlocks a.val (maskBlocks mask)) s) := by
  unfold accClrBody
  rw [act_bind_ok _ _ _ _ _ (needMain_ok r hcamp), act_bind_ok _ _ _ _ _ (takeTurn_ok hturn),
    act_bind_ok _ _ _ _ _ (waitForJob_ok hjob)]
  rfl

end

theorem maskBlocks_eq (mask : Nat) : maskBlocks mask = (List.range 8).filter fun i => mask.testBit i := by
  unfold maskBlocks
  rw [upFrom_eq_range]
  exact List.filter_congr fun i _ => bit_eq_testBit mask i

theorem accumulatorRows : Claims.AccumulatorRows := by
  intro a b c mask s hcamp hturn
  refine ⟨fun hv => ?_, fun g hit hv h => ?_, fun t ht hjob => ⟨fun hv => ?_, fun hv hjob' => ?_⟩, fun hjob => ?_, fun hjob => ?_⟩
  · exact ordered_done (accRdBody_ok _ hcamp hturn hv)
  · exact ordered_done (accRdMoBody_ok _ hcamp hturn hv h)
  · exact ordered_done (accWrBody_ok _ hcamp hturn ht hjob hv)
  · exact ordered_done (accWrMoBody_ok _ hcamp hturn ht hjob hjob' hv)
  · exact ordered_done (accClrBody_ok _ hcamp hturn hjob)
  · rw [← maskBlocks_eq]
    exact ordered_done (accClrBody_ok _ hcamp hturn hjob)

/-- What is found where the entries of some keys have been taken out. -/
theorem look_filter {α : Type} (m : SMap α) (p : Nat → Bool) (k : Nat) :
    look (m.filter fun e => p e.1) k = if p k then look m k else none := by
  induction m with
  | nil => rw [List.filter_nil, look, ite_self]
  | cons e rest ih =>
    obtain ⟨j, v⟩ := e
    rw [List.filter_cons]
    by_cases hp : p j = true
    · rw [if_pos hp, look, look, ih]
      split
      case isTrue hjk => rw [← hjk, if_pos hp]
      case isFalse => rfl
    · rw [if_neg hp, look, ih]
      by_cases hjk : j = k
      · rw [← hjk, if_neg hp, if_neg hp]
      · rw [if_neg hjk]

theorem clearedRows : Claims.ClearedRows := by
  intro tile tile' t blocks k ht
  unfold accRow clearBlocks lookD
  dsimp only
  rw [look_filter k.acc fun n => !(n / 128 == tile && blocks.contains (n % 128 / 16)),
    show (128 * tile' + t) / 128 = tile' by omega, show (128 * tile' + t) % 128 = t by omega]
  by_cases h : tile' = tile ∧ t / 16 ∈ blocks
  · rw [if_pos h, if_neg (by simp [h.1, h.2])]
    rfl
  · rw [if_neg h, if_pos (by simpa [or_iff_not_imp_left] using h)]

/-- Settles O54: past their checks the moves and clears are one change of the registers or of the tiles. -/
theorem accumulators : Obligations.Accumulators := ⟨accumulatorRows, clearedRows⟩

end Sys2Proof.Machine
end

section
namespace Sys2Proof.Machine
open Sys2Proof.Claims

/-! ### The order of finite values (R84, R274) -/

/-- The magnitude of a finite FP32 encoding in units of 2^−149. -/
def subnormals (p : Nat) : Nat := if p / 2 ^ 23 = 0 then p % 2 ^ 23 else (p % 2 ^ 23 + 2 ^ 23) * 2 ^ (p / 2 ^ 23 - 1)

theorem subnormals_lt (p : Nat) : subnormals p < 2 ^ 23 * 2 ^ (p / 2 ^ 23) := by
  unfold subnormals
  have hfr : p % 2 ^ 23 < 2 ^ 23 := Nat.mod_lt _ (by decide)
  split
  case isTrue h0 => rw [h0]; omega
  case isFalse h0 =>
    obtain ⟨n, hn⟩ := Nat.exists_eq_succ_of_ne_zero h0
    rw [hn, Nat.succ_eq_add_one, Nat.add_sub_cancel, show 2 ^ (n + 1) = 2 * 2 ^ n from Nat.pow_succ']
    calc (p % 2 ^ 23 + 2 ^ 23) * 2 ^ n < 2 ^ 23 * 2 * 2 ^ n := Nat.mul_lt_mul_of_pos_right (by omega) (Nat.two_pow_pos n)
      _ = 2 ^ 23 * (2 * 2 ^ n) := Nat.mul_assoc _ _ _

theorem le_subnormals {p : Nat} (h : p / 2 ^ 23 ≠ 0) : 2 ^ 23 * 2 ^ (p / 2 ^ 23 - 1) ≤ subnormals p := by
  unfold subnormals
  rw [if_neg h]
  exact Nat.mul_le_mul_right _ (Nat.le_add_left _ _)

theorem subnormals_strictMono : StrictMono subnormals := by
  intro p q hpq
  have hex : p / 2 ^ 23 ≤ q / 2 ^ 23 := Nat.div_le_div_right hpq.le
  rcases Nat.lt_or_eq_of_le hex with hlt | heq
  · calc subnormals p < 2 ^ 23 * 2 ^ (p / 2 ^ 23) := subnormals_lt p
      _ ≤ 2 ^ 23 * 2 ^ (q / 2 ^ 23 - 1) := Nat.mul_le_mul_left _ (Nat.pow_le_pow_right (by decide) (by omega))
      _ ≤ subnormals q := le_subnormals (by omega)
  · have hfr : p % 2 ^ 23 < q % 2 ^ 23 := by omega
    unfold subnormals
    rw [heq]
    split
    · exact hfr
    · exact Nat.mul_lt_mul_of_pos_right (by omega) (Nat.two_pow_pos _)

/-- A signed multiple counted in smaller units. -/
theorem signedTo_units {neg : Bool} {m : Nat} {e k l : Int} (hlk : l ≤ k) (hke : k ≤ e) :
    signedTo neg m e k * 2 ^ (k - l).toNat = signedTo neg m e l := by
  have hscale : scaleTo m e k * 2 ^ (k - l).toNat = scaleTo m e l := by
    unfold scaleTo
    rw [Nat.mul_assoc, ← Nat.pow_add, show (e - k).toNat + (k - l).toNat = (e - l).toNat by omega]
  unfold signedTo
  split
  · rw [← hscale]; push_cast; ring
  · rw [← hscale]; push_cast; rfl

/-- Two finite values compare as their multiples of any unit that both are multiples of. -/
theorem less_fin {s t : Bool} {m n : Nat} {e f l : Int} (he : l ≤ e) (hf : l ≤ f) :
    (Number.fin s m e).less (.fin t n f) = true ↔ signedTo s m e l < signedTo t n f l := by
  have hk : l ≤ min e f := le_min he hf
  rw [← signedTo_units (neg := s) (m := m) hk (min_le_left e f), ← signedTo_units (neg := t) (m := n) hk (min_le_right e f)]
  rw [mul_lt_mul_iff_left₀ (by positivity)]
  unfold Number.less Number.compare
  dsimp only
  split
  case isTrue h => simpa using h
  case isFalse h => split <;> simpa using h

/-! ### The keys of a sort (R274) -/

theorem magnitude_f32 (p : Nat) : binary32.magnitude p =
    if p / 2 ^ 23 = 0 then (p % 2 ^ 23, (-149 : Int)) else (p % 2 ^ 23 + 2 ^ 23, ((p / 2 ^ 23 : Nat) : Int) - 150) := by
  unfold FloatFmt.magnitude
  have hbias : binary32.bias = 127 := rfl
  rw [hbias, show binary32.fbits = 23 from rfl]
  dsimp only
  split
  · rfl
  · rw [show ((p / 2 ^ 23 : Nat) : Int) - 127 - (23 : Nat) = (p / 2 ^ 23 : Nat) - 150 by omega]

/-- What an encoding of FP32 stands for. -/
theorem f32_cases {x : Nat} (hx : x < 2 ^ 32) :
    (x % 2 ^ 31 ≤ 0x7F7FFFFF ∧ ∃ m e, -149 ≤ e ∧ valueOf .f32 x = .fin (x / 2 ^ 31 == 1) m e ∧
      scaleTo m e (-149) = subnormals (x % 2 ^ 31)) ∨
    (x % 2 ^ 31 = 0x7F800000 ∧ valueOf .f32 x = .inf (x / 2 ^ 31 == 1)) ∨
    (0x7F800000 < x % 2 ^ 31 ∧ valueOf .f32 x = .nan) := by
  have hval : valueOf .f32 x = binary32.value x := rfl
  rw [hval]
  unfold FloatFmt.value
  rw [show binary32.width = 32 from rfl, show binary32.top = 0x7F7FFFFF from rfl, Nat.mod_eq_of_lt hx]
  dsimp only
  rw [show 32 - 1 = 31 from rfl]
  generalize hp : x % 2 ^ 31 = p
  have hpl : p < 2 ^ 31 := hp ▸ Nat.mod_lt _ (by decide)
  by_cases hfin : p ≤ 0x7F7FFFFF
  · refine Or.inl ⟨hfin, ?_⟩
    rw [if_pos hfin]
    refine ⟨(binary32.magnitude p).1, (binary32.magnitude p).2, ?_, rfl, ?_⟩
    · rw [magnitude_f32]
      split <;> dsimp only <;> omega
    · rw [magnitude_f32]
      unfold scaleTo subnormals
      split
      · exact Nat.mul_one _
      · dsimp only
        rw [show ((p / 2 ^ 23 : Nat) - 150 - -149 : Int).toNat = p / 2 ^ 23 - 1 by omega]
  · rw [if_neg hfin]
    by_cases hinf : p = 0x7F800000
    · exact Or.inr (Or.inl ⟨hinf, by rw [hinf]; rfl⟩)
    · refine Or.inr (Or.inr ⟨by omega, if_neg ?_⟩)
      simpa [binary32] using hinf

theorem isNan_fin (s : Bool) (m : Nat) (e : Int) : (Number.fin s m e).isNan = false := rfl

theorem sortKey_nan {x : Nat} (h : 0x7F800000 < x % 2 ^ 31) : sortKey .f32 x = 2 ^ 31 := by
  unfold sortKey
  rw [if_pos rfl]
  exact if_pos h

theorem sortKey_number {x : Nat} (hx : x < 2 ^ 32) (h : x % 2 ^ 31 ≤ 0x7F800000) :
    sortKey .f32 x = if x / 2 ^ 31 == 1 then -((x % 2 ^ 31 : Nat) : Int) else (x % 2 ^ 31 : Nat) := by
  unfold sortKey
  rw [if_pos rfl, if_neg (by omega)]
  rcases (by omega : x / 2 ^ 31 = 0 ∨ x / 2 ^ 31 = 1) with h | h <;> rw [h] <;> rfl

theorem sortKey_s32 (x : Nat) : sortKey .s32 x = if x / 2 ^ 31 = 0 then (x : Int) else (x : Int) - (2 ^ 32 : Nat) := by
  unfold sortKey
  rw [if_neg (by decide)]

/-- Two finite encodings compare as their keys. -/
theorem less_f32 {p q : Nat} {s t : Bool} {m n : Nat} {e f : Int} (he : -149 ≤ e) (hf : -149 ≤ f)
    (hm : scaleTo m e (-149) = subnormals p) (hn : scaleTo n f (-149) = subnormals q) :
    (Number.fin s m e).less (.fin t n f) = true ↔
      (if s then -(p : Int) else p) < if t then -(q : Int) else q := by
  rw [less_fin he hf]
  unfold signedTo
  rw [hm, hn]
  have hlt := subnormals_strictMono.lt_iff_lt (a := p) (b := q)
  have hgt := subnormals_strictMono.lt_iff_lt (a := q) (b := p)
  have hp := subnormals_strictMono.lt_iff_lt (a := 0) (b := p)
  have hq := subnormals_strictMono.lt_iff_lt (a := 0) (b := q)
  rw [show subnormals 0 = 0 from rfl] at hp hq
  cases s <;> cases t <;> simp only [Bool.false_eq_true, if_true, if_false] <;> omega

theorem keyLess_f32 {x y : Nat} (hx : x < 2 ^ 32) (hy : y < 2 ^ 32) :
    keyLess .f32 x y = true ↔ sortKey .f32 x < sortKey .f32 y := by
  unfold keyLess
  generalize hs : (x / 2 ^ 31 == 1) = s
  generalize ht : (y / 2 ^ 31 == 1) = t
  rcases f32_cases hy with ⟨hq, n, f, hf, hy', hn⟩ | ⟨hq, hy'⟩ | ⟨hq, hy'⟩
  · rw [hy', sortKey_number hy (by omega), ht]
    rcases f32_cases hx with ⟨hp, m, e, he, hx', hm⟩ | ⟨hp, hx'⟩ | ⟨hp, hx'⟩
    · rw [hx', sortKey_number hx (by omega), hs, isNan_fin, if_neg Bool.false_ne_true]
      exact less_f32 he hf hm hn
    · rw [hx', sortKey_number hx (by omega), hs]
      cases s <;> cases t <;> simp [Number.less, Number.compare, Number.isNan] <;> omega
    · rw [hx', sortKey_nan hp]
      cases t <;> simp [Number.less, Number.compare, Number.isNan] <;> omega
  · rw [hy', sortKey_number hy (by omega), ht]
    rcases f32_cases hx with ⟨hp, m, e, he, hx', hm⟩ | ⟨hp, hx'⟩ | ⟨hp, hx'⟩
    · rw [hx', sortKey_number hx (by omega), hs]
      cases s <;> cases t <;> simp [Number.less, Number.compare, Number.isNan] <;> omega
    · rw [hx', sortKey_number hx (by omega), hs, hp, hq]
      cases s <;> cases t <;> simp [Number.less, Number.compare, Number.isNan]
    · rw [hx', sortKey_nan hp, hq]
      cases t <;> simp [Number.less, Number.compare, Number.isNan]
  · rw [hy', sortKey_nan hq]
    rcases f32_cases hx with ⟨hp, m, e, he, hx', hm⟩ | ⟨hp, hx'⟩ | ⟨hp, hx'⟩
    · rw [hx', sortKey_number hx (by omega), hs]
      cases s <;> simp [Number.isNan] <;> omega
    · rw [hx', sortKey_number hx (by omega), hs, hp]
      cases s <;> simp [Number.isNan]
    · rw [hx', sortKey_nan hp]
      simp [Number.isNan]

theorem intValue_s32 {x : Nat} (hx : x < 2 ^ 32) : intValue .s32 x = sortKey .s32 x := by
  rw [sortKey_s32]
  unfold intValue signed
  rw [Nat.mod_eq_of_lt hx]
  dsimp only
  split <;> split <;> omega

/-- An integer is a multiple of 1. -/
theorem ofInt_fin (v : Int) : ∃ s m, Number.ofInt v 0 false = .fin s m 0 ∧ signedTo s m 0 0 = v := by
  unfold Number.ofInt
  split
  case isTrue h => exact ⟨_, _, rfl, by rw [h]; rfl⟩
  case isFalse h =>
    refine ⟨_, _, rfl, ?_⟩
    unfold signedTo scaleTo
    simp only [decide_eq_true_eq, Int.sub_self, Int.toNat_zero, Nat.pow_zero, Nat.mul_one]
    split <;> omega

theorem keyLess_s32 {x y : Nat} (hx : x < 2 ^ 32) (hy : y < 2 ^ 32) :
    keyLess .s32 x y = true ↔ sortKey .s32 x < sortKey .s32 y := by
  obtain ⟨s, m, hsm, hm⟩ := ofInt_fin (intValue .s32 x)
  obtain ⟨t, n, htn, hn⟩ := ofInt_fin (intValue .s32 y)
  have hvx : valueOf .s32 x = .fin s m 0 := hsm
  have hvy : valueOf .s32 y = .fin t n 0 := htn
  unfold keyLess
  rw [hvx, hvy, isNan_fin, if_neg Bool.false_ne_true, less_fin (Int.le_refl 0) (Int.le_refl 0), hm, hn, intValue_s32 hx, intValue_s32 hy]

theorem keyLess_iff {f : Fmt} (hf : f = .f32 ∨ f = .s32) {x y : Nat} (hx : x < 2 ^ 32) (hy : y < 2 ^ 32) :
    keyLess f x y = true ↔ sortKey f x < sortKey f y := by
  rcases hf with rfl | rfl
  · exact keyLess_f32 hx hy
  · exact keyLess_s32 hx hy

theorem intValue_index {i : Nat} (hi : i < 2 ^ 32) : intValue .s32 i = signedIndex i := by
  rw [intValue_s32 hi, sortKey_s32]
  rfl

/-! ### The sort (R274) -/

section
variable {f : Fmt} {desc : Bool}

theorem precedes_trans {p q r : SortPair} (h : Precedes f desc p q) (h' : Precedes f desc q r) :
    Precedes f desc p r := by
  unfold Precedes at *
  cases desc <;> simp only [Bool.false_eq_true, if_true, if_false] at * <;> omega

/-- A pair of 32-bit numbers. -/
def Words (p : SortPair) : Prop := p.1 < 2 ^ 32 ∧ p.2 < 2 ^ 32

theorem pairBefore_iff (hf : f = .f32 ∨ f = .s32) {p q : SortPair} (hp : Words p) (hq : Words q) :
    (pairBefore f desc p q = true → Precedes f desc p q) ∧ (pairBefore f desc p q = false → Precedes f desc q p) := by
  obtain ⟨hp1, hp2⟩ := hp
  obtain ⟨hq1, hq2⟩ := hq
  have hlt := keyLess_iff hf hp1 hq1
  have hgt := keyLess_iff hf hq1 hp1
  unfold pairBefore Precedes
  rw [intValue_index hp2, intValue_index hq2]
  split
  case isTrue h =>
    have := hlt.1 h
    cases desc <;> simp <;> omega
  case isFalse h =>
    have h1 : ¬ sortKey f p.1 < sortKey f q.1 := fun h' => h (hlt.2 h')
    split
    case isTrue h' =>
      have := hgt.1 h'
      cases desc <;> simp <;> omega
    case isFalse h' =>
      have h2 : ¬ sortKey f q.1 < sortKey f p.1 := fun h'' => h' (hgt.2 h'')
      split <;> cases desc <;> simp <;> omega

theorem insertPair_perm (p : SortPair) (ps : List SortPair) : (insertPair f desc p ps).Perm (p :: ps) := by
  induction ps with
  | nil => exact List.Perm.refl _
  | cons q rest ih =>
    rw [insertPair]
    split
    · exact (ih.cons q).trans (List.Perm.swap p q rest)
    · exact List.Perm.refl _

theorem insertPair_pairwise (hf : f = .f32 ∨ f = .s32) {p : SortPair} {ps : List SortPair} (hp : Words p)
    (hps : ∀ q ∈ ps, Words q) (h : ps.Pairwise (Precedes f desc)) : (insertPair f desc p ps).Pairwise (Precedes f desc) := by
  induction ps with
  | nil => exact List.pairwise_singleton _ _
  | cons q rest ih =>
    obtain ⟨hq, hrest⟩ := List.pairwise_cons.1 h
    have hqp := pairBefore_iff (desc := desc) hf (hps q List.mem_cons_self) hp
    rw [insertPair]
    split
    case isTrue hb =>
      refine List.pairwise_cons.2 ⟨fun r hr => ?_, ih (fun r hr => hps r (List.mem_cons_of_mem _ hr)) hrest⟩
      rcases List.mem_cons.1 ((insertPair_perm p rest).mem_iff.1 hr) with rfl | hr
      · exact hqp.1 hb
      · exact hq r hr
    case isFalse hb =>
      have hpq := hqp.2 (by simpa using hb)
      refine List.pairwise_cons.2 ⟨fun r hr => ?_, h⟩
      rcases List.mem_cons.1 hr with rfl | hr
      · exact hpq
      · exact precedes_trans hpq (hq r hr)

end

/-- Settles O8: the key that the model compares by is the rule's, and an insertion keeps the pairs and their order. -/
theorem sortIsOrdered : Obligations.SortIsOrdered := by
  intro f desc ps hf h
  induction ps with
  | nil => exact ⟨List.Perm.refl _, List.Pairwise.nil⟩
  | cons p rest ih =>
    obtain ⟨hperm, hsorted⟩ := ih fun q hq => h q (List.mem_cons_of_mem _ hq)
    refine ⟨(insertPair_perm p _).trans (hperm.cons p), insertPair_pairwise hf (h p List.mem_cons_self) (fun q hq => ?_) hsorted⟩
    exact h q (List.mem_cons_of_mem _ (hperm.mem_iff.1 hq))

/-! ### Masks (R269, R270) -/

theorem setBits_eq (m : BitVec 64) : setBits m = (List.range 64).filter fun i => m.getLsbD i := by
  unfold setBits lanes
  rw [upFrom_eq_range]
  rfl

theorem setBits_first {m : BitVec 64} {i : Nat} (hi : i < 64) (h : m.getLsbD i = true) (hlow : ∀ j < i, m.getLsbD j = false) :
    (setBits m).headD 64 = i := by
  have hnone : (upFrom 0 i).filter (laneActs m) = [] := List.filter_eq_nil_iff.2 fun j hj => by
    rw [laneActs, hlow j (by have := (mem_upFrom _ _ _).1 hj; omega)]
    decide
  unfold setBits
  rw [lanes_split hi, List.filter_append, hnone, List.filter_cons_of_pos (p := laneActs m) h]
  rfl

theorem setBits_last {m : BitVec 64} {i : Nat} (hi : i < 64) (h : m.getLsbD i = true)
    (hhigh : ∀ j, i < j → m.getLsbD j = false) : (setBits m).getLastD 64 = i := by
  have hnone : (upFrom (i + 1) (63 - i)).filter (laneActs m) = [] := List.filter_eq_nil_iff.2 fun j hj => by
    rw [laneActs, hhigh j (by have := (mem_upFrom _ _ _).1 hj; omega)]
    decide
  unfold setBits
  rw [lanes_split hi, List.filter_append, List.filter_cons_of_pos (p := laneActs m) h, hnone, List.getLastD_concat]

theorem setBits_zero : setBits 0 = [] := by
  rw [setBits_eq]
  exact List.filter_eq_nil_iff.2 fun i _ => by simp

theorem masks : Claims.Masks := by
  refine ⟨fun a b c cond x s nb nc hb hc => ?_, fun a b c lit s => ?_⟩
  · refine quick_ok 12 (vcmpBody a b c cond x) s _ ?_
    unfold vcmpBody
    rw [act_bind_ok _ _ _ _ _ (regB_ok hb), act_bind_ok _ _ _ _ _ (regC_ok hc), act_get_bind]
    rfl
  · intro x y
    have hprobe (p : MaskProbe) : exec (.mskp a b p) s = .next (advance 12 (writeInt a 64 (maskProbe p x) s)) := rfl
    refine ⟨rfl, rfl, rfl, rfl, rfl, ?_, fun i hi h hlow => ?_, fun i hi h hhigh => ?_, fun h => ⟨?_, ?_⟩, rfl, rfl, rfl,
      rfl, rfl⟩
    · rw [hprobe, maskProbe, setBits_eq]
    · rw [hprobe, maskProbe, setBits_first hi h hlow]
    · rw [hprobe, maskProbe, setBits_last hi h hhigh]
    · rw [hprobe, maskProbe, h, setBits_zero]
      rfl
    · rw [hprobe, maskProbe, h, setBits_zero]
      rfl

/-! ### Reductions, scans and sorts (R271, R272, R274, R275) -/

section
variable {a b c d : Reg} {x : VecX} {s : State} {na nb nc : Nat}

theorem vsortBody_ok (desc : Bool) (ha : ReachA s a x na) (hb : ReachB s b x nb) :
    vsortBody a b desc x s = .ok ((), putPairs na nb (sortPairs x.fmt desc (pairsOf (me s) na nb)) s) := by
  unfold vsortBody
  rw [act_bind_ok _ _ _ _ _ (regA_ok ha), act_bind_ok _ _ _ _ _ (regB_ok hb), act_get_bind]
  rfl

theorem vmergeBody_ok {f : Fmt} {nd : Nat} (desc : Bool) (ha : ReachA s a x na) (hb : ReachB s b x nb)
    (hc : ReachC s c x nc) (hd : Plain s d) (hf : x.fmt = f) (hn : d.val = nd) {ps : List SortPair}
    (hps : ps = sortPairs f desc (pairsOf (me s) na nb ++ pairsOf (me s) nc nd)) :
    vmergeBody a b c d desc x s = .ok ((), putPairs nc nd (ps.drop 64) (putPairs na nb (ps.take 64) s)) := by
  subst hf hn
  unfold vmergeBody
  rw [act_bind_ok _ _ _ _ _ (regA_ok ha), act_bind_ok _ _ _ _ _ (regB_ok hb), act_bind_ok _ _ _ _ _ (regC_ok hc),
    act_bind_ok _ _ _ _ _ (checkV_ok hd), act_get_bind]
  rw [← hps]
  rfl

end

theorem reductionsAndSorts : Claims.ReductionsAndSorts := by
  refine ⟨fun a b op x s nb hb => ?_, fun a b c d op x s na nb ha hb => ?_,
    fun a b c fmt s ha hb => ⟨?_, fun hc => ?_⟩, fun a b c d desc x s na nb nc ha hb => ⟨?_, fun hc hd => ?_⟩⟩
  · refine quick_ok 12 (vredBody a b op x) s _ ?_
    unfold vredBody
    rw [act_bind_ok _ _ _ _ _ (regB_ok hb), act_get_bind]
    rfl
  · refine quick_ok 12 (vscanBody a b c d op x) s _ ?_
    have hstart : field (reg s c).bits.toNat 31 0 = (reg s c).bits.toNat % 2 ^ 32 := by
      unfold field
      rw [Nat.pow_zero, Nat.div_one]
    unfold vscanBody
    rw [act_bind_ok _ _ _ _ _ (regA_ok ha), act_bind_ok _ _ _ _ _ (regB_ok hb), act_get_bind]
    dsimp only
    rw [hstart, act_bind_ok _ _ _ _ _ (runDraws_ok _ _)]
    rfl
  · exact quick_ok 4 (vsortBody a b false (shortX fmt)) s _ (vsortBody_ok false (reachA_plain fmt ha) (reachB_plain fmt hb))
  · have h0 : Plain s 0 := Nat.lt_of_le_of_lt (Nat.zero_le _) hc
    have hbody := vmergeBody_ok false (reachA_plain fmt ha) (reachB_plain fmt hb) (reachC_plain fmt hc) h0 rfl (rfl : (0 : Reg).val = 0) rfl
    exact quick_ok 4 (vmergeBody a b c 0 false (shortX fmt)) s _ hbody
  · exact quick_ok 12 (vsortBody a b desc x) s _ (vsortBody_ok desc ha hb)
  · have hbody := vmergeBody_ok desc ha hb hc hd rfl rfl rfl
    exact quick_ok 12 (vmergeBody a b c d desc x) s _ hbody

/-- Settles O49: a comparison and a probe act on the bits in order; the others are their bodies on the registers reached. -/
theorem masksAndReductions : Obligations.MasksAndReductions := ⟨masks, reductionsAndSorts⟩

end Sys2Proof.Machine
end

section
namespace Sys2Proof.Machine
open Sys2Proof.Claims

/-! ### Compensated addition, dot products, conversions and packing (R263, R265 to R268) -/

theorem firstAt_none {α : Type} {p : α → Bool} {xs : List α} (h : ∀ x ∈ xs, p x = false) : firstAt p xs = none := by
  induction xs with
  | nil => rfl
  | cons x rest ih =>
    rw [firstAt, h x List.mem_cons_self, if_neg Bool.false_ne_true, ih fun y hy => h y (List.mem_cons_of_mem _ hy)]
    rfl

section
variable {a b c d : Reg} {x : VecX} {s : State} {na nb nc : Nat}

theorem vaddcBody_ok (ha : ReachA s a x na) (hb : ReachB s b x nb) (hn : na + 1 < (me s).nv) :
    vaddcBody a b x s = .ok ((), compensatedTo na nb (acting s x.mask) s) := by
  have hnext : InV s ((na : Int) + 1) (na + 1) := ⟨by omega, by omega, by omega⟩
  unfold vaddcBody
  rw [act_bind_ok _ _ _ _ _ (regA_ok ha), act_bind_ok _ _ _ _ _ (inWindowV_ok hnext), act_bind_ok _ _ _ _ _ (regB_ok hb),
    act_get_bind]
  rw [act_bind_ok _ _ _ _ _ (elementwise_ok _ _ _ _ _)]
  exact elementwise_ok _ _ _ _ _

theorem vdotBody_ok (ha : ReachA s a x na) (hb : ReachB s b x nb) (hc : ReachC s c x nc) :
    vdotBody a b c x s = .ok ((), elemsAfter na 32 (acting s x.mask) (dotted x.fmt x.rnd s na nb nc) s) := by
  unfold vdotBody
  rw [act_bind_ok _ _ _ _ _ (regA_ok ha), act_bind_ok _ _ _ _ _ (regB_ok hb), act_bind_ok _ _ _ _ _ (regC_ok hc),
    act_get_bind]
  exact elementwise_ok _ _ _ _ _

theorem vcvtBody_ok (part : Nat) (src : Fmt) (ha : ReachA s a x na) (hb : ReachB s b x nb) :
    vcvtBody a b part src x s = .ok ((), flushingElems na x.fmt (acting s x.mask) (convertSource s part src x.fmt nb)
      (fun j v => convertIn src x.fmt (conversionOf (me s) x.rnd (!holdsAll src x.fmt)) (laneOf x.fmt.width j) v) s) := by
  unfold vcvtBody
  rw [act_bind_ok _ _ _ _ _ (regA_ok ha), act_bind_ok _ _ _ _ _ (regB_ok hb), act_get_bind]
  rw [act_bind_ok _ _ _ _ _ (elementwise_ok _ _ _ _ _)]
  rfl

/-- The scale of the block of an element. -/
theorem packScale_eq (kind : PackKind) (f : Fmt) (part nb j : Nat) :
    (if j - 64 * part < 32 then blockScale kind f (packBlock s nb 0) else blockScale kind f (packBlock s nb 1)) =
      blockScale kind f (packBlock s nb (if j - 64 * part < 32 then 0 else 1)) := by
  split <;> rfl

theorem vpackBody_ok (part : Nat) (kind : PackKind) (ha : ReachA s a x na) (hb : ReachB s b x nb) (hd : Plain s d)
    (h : kind = .sc → ∀ i < 2, ∀ v ∈ packBlock s nb i, v.isFinite = true) :
    vpackBody a d b kind part x s = .ok ((), putScales d.val (if kind = .mx then 8 else 32) (2 * part)
      (blockScale kind x.fmt (packBlock s nb 0)).1 (blockScale kind x.fmt (packBlock s nb 1)).1
      (flushingElems na x.fmt (BitVec.allOnes 64) (packSource s part nb)
        (fun j v => quantised kind x.fmt (roundingOf (me s) x.rnd)
          (blockScale kind x.fmt (packBlock s nb (if j - 64 * part < 32 then 0 else 1))) (laneOf x.fmt.width j) v) s)) := by
  have hfinite : (if kind = .sc then firstAt (fun xs : List Number => xs.any (!·.isFinite)) [packBlock s nb 0, packBlock s nb 1]
      else none) = none := by
    split
    case isTrue hk =>
      have hall (i : Nat) (hi : i < 2) : (packBlock s nb i).any (!·.isFinite) = false :=
        List.any_eq_false.2 fun v hv => by rw [h hk i hi v hv]; decide
      refine firstAt_none fun xs hxs => ?_
      rcases List.mem_pair.1 hxs with rfl | rfl
      · exact hall 0 (by decide)
      · exact hall 1 (by decide)
    case isFalse => rfl
  unfold packBlock at hfinite
  unfold vpackBody
  rw [act_bind_ok _ _ _ _ _ (regA_ok ha), act_bind_ok _ _ _ _ _ (regB_ok hb), act_bind_ok _ _ _ _ _ (checkV_ok hd),
    act_get_bind]
  dsimp only
  rw [hfinite]
  simp only [← packScale_eq]
  rw [act_bind_ok _ _ _ _ _ (elementwise_ok _ _ _ _ _)]
  rfl

theorem vunpkBody_ok (part : Nat) (kind : PackKind) (ha : ReachA s a x na) (hb : ReachB s b x nb) (hd : Plain s d)
    (h : kind = .sc → ∀ i < 2, blockActs (acting s x.mask) i = true →
      badScale (elem (vreg (me s) d.val) 32 (2 * part + i)) = false) :
    vunpkBody a d b kind part x s = .ok ((), elemsAfter na 32 (acting s x.mask)
      (fun j => roundIn .f32 (roundingOf (me s) x.rnd) j
        ((valueOf x.fmt (elem (vreg (me s) nb) x.fmt.width (64 * part + j))).mul
          (registerScale kind (vreg (me s) d.val) (2 * part + j / 32)).2)) s) := by
  have hgood : ∀ i ∈ [0, 1], (kind == .sc && blockActs (acting s x.mask) i &&
      badScale (registerScale kind (vreg (me s) d.val) (2 * part + i)).1) = false := by
    intro i hi
    rw [List.mem_pair] at hi
    cases kind with
    | mx => rfl
    | sc =>
      cases hact : blockActs (acting s x.mask) i with
      | false => rfl
      | true => exact h rfl i (by omega) hact
  unfold vunpkBody
  rw [act_bind_ok _ _ _ _ _ (regA_ok ha), act_bind_ok _ _ _ _ _ (regB_ok hb), act_bind_ok _ _ _ _ _ (checkV_ok hd),
    act_get_bind]
  dsimp only
  rw [List.find?_eq_none.2 fun i hi => by rw [hgood i hi]; decide]
  exact elementwise_ok _ _ _ _ _

end

/-! ### Draws and rotary position (R116 to R119, R276 to R278) -/

section
variable {a b c d : Reg} {x : VecX} {s : State} {na nb : Nat}

theorem vrandBody_ok (ha : ReachA s a x na) : vrandBody a x s = .ok ((), elemsAfter na 32 (acting s x.mask)
    (fun i => do let g ← drawLane i; pure (asDrawn x.fmt g)) s) := by
  unfold vrandBody
  rw [act_bind_ok _ _ _ _ _ (regA_ok ha), act_get_bind]
  exact elementwise_ok _ _ _ _ _

theorem vkeepBody_ok (ha : ReachA s a x na) (hb : ReachB s b x nb) : vkeepBody a b c x s =
    .ok ((), elemsAfter na x.fmt.width (acting s x.mask) (keptBelow s c x.fmt nb) s) := by
  have hlimit : field (reg s c).bits.toNat 32 0 = (reg s c).bits.toNat % 2 ^ 33 := by
    unfold field
    rw [Nat.pow_zero, Nat.div_one]
  unfold vkeepBody
  rw [act_bind_ok _ _ _ _ _ (regA_ok ha), act_bind_ok _ _ _ _ _ (regB_ok hb), act_get_bind]
  rw [hlimit]
  exact elementwise_ok _ _ _ _ _

theorem vphxBody_ok (word : Nat) (imm : BitVec 24) (ha : ReachA s a x na) : vphxBody a b c word imm x s =
    .ok ((), elemsAfter na 32 (acting s x.mask) (fun i => pure (asDrawn x.fmt (phx s b c imm.toNat word i))) s) := by
  have hlow : field (reg s c).bits.toNat 31 0 = (reg s c).bits.toNat % 2 ^ 32 := by
    unfold field
    rw [Nat.pow_zero, Nat.div_one]
  have hhigh : field (reg s c).bits.toNat 33 32 = (reg s c).bits.toNat / 2 ^ 32 % 4 := rfl
  unfold vphxBody
  rw [act_bind_ok _ _ _ _ _ (regA_ok ha), act_get_bind]
  rw [hlow, hhigh]
  exact elementwise_ok _ _ _ _ _

theorem vropeBody_ok (half : Bool) {nd : Nat} (ha : ReachA s a x na) (hb : ReachB s b x nb) (hd : Plain s d)
    (hn : d.val = nd) (hp : (reg s c).bits.toNat % 2 ^ 32 < 2 ^ 26 ∨ ropeLanes half (acting s x.mask) = []) :
    vropeBody a b c d half x s = .ok ((), elemsAfter na 32 (ropeMask half (acting s x.mask))
      (roped half x.rnd s ((reg s c).bits.toNat % 2 ^ 32) nb nd) s) := by
  subst hn
  have hlow : field (reg s c).bits.toNat 31 0 = (reg s c).bits.toNat % 2 ^ 32 := by
    unfold field
    rw [Nat.pow_zero, Nat.div_one]
  unfold vropeBody
  rw [act_bind_ok _ _ _ _ _ (regA_ok ha), act_bind_ok _ _ _ _ _ (regB_ok hb), act_bind_ok _ _ _ _ _ (checkV_ok hd),
    act_get_bind]
  dsimp only
  rw [hlow]
  unfold ropeMask
  rcases hfirsts : ropeLanes half (acting s x.mask) with _ | ⟨i, rest⟩
  · unfold ropeLanes at hfirsts
    rw [hfirsts]
    exact elementwise_ok _ _ _ _ _
  · have hlt := hp.resolve_right (by rw [hfirsts]; exact List.cons_ne_nil _ _)
    unfold ropeLanes at hfirsts
    rw [hfirsts]
    dsimp only
    rw [require_bind_ok _ (decide_eq_true hlt)]
    exact elementwise_ok _ _ _ _ _

end

theorem vectorConversions : Claims.VectorConversions := by
  refine ⟨fun a b c fmt s ha hb => ⟨fun hn => ?_, fun hc => ?_⟩, fun a b c d x s na nb nc ha hb =>
    ⟨fun hn => ?_, fun hc => ?_, fun part src => ?_, fun part kind hd => ⟨fun h => ?_, fun h => ?_⟩⟩⟩
  · exact quick_ok 4 (vaddcBody a b (shortX .f32)) s _ (vaddcBody_ok (reachA_plain .f32 ha) (reachB_plain .f32 hb) hn)
  · exact quick_ok 4 (vdotBody a b c (shortX fmt)) s _
      (vdotBody_ok (reachA_plain fmt ha) (reachB_plain fmt hb) (reachC_plain fmt hc))
  · exact quick_ok 12 (vaddcBody a b x) s _ (vaddcBody_ok ha hb hn)
  · exact quick_ok 12 (vdotBody a b c x) s _ (vdotBody_ok ha hb hc)
  · exact quick_ok 12 (vcvtBody a b part.val src x) s _ (vcvtBody_ok part.val src ha hb)
  · exact quick_ok 12 (vpackBody a d b kind part.val x) s _ (vpackBody_ok part.val kind ha hb hd h)
  · exact quick_ok 12 (vunpkBody a d b kind part.val x) s _ (vunpkBody_ok part.val kind ha hb hd h)

theorem vectorDraws : Claims.VectorDraws := by
  refine ⟨fun a b c fmt s ha => ⟨?_, fun hb => ?_, ?_, fun hb hp => ?_⟩, fun a b c d word imm half x s na nb ha =>
    ⟨?_, fun hb => ?_, ?_, fun hb hd hp => ?_⟩⟩
  · exact quick_ok 4 (vrandBody a (shortX fmt)) s _ (vrandBody_ok (reachA_plain fmt ha))
  · exact quick_ok 4 (vkeepBody a b c (shortX fmt)) s _ (vkeepBody_ok (reachA_plain fmt ha) (reachB_plain fmt hb))
  · exact quick_ok 4 (vphxBody a b c 0 0 (shortX fmt)) s _ (vphxBody_ok 0 0 (reachA_plain fmt ha))
  · have h0 : Plain s 0 := Nat.lt_of_le_of_lt (Nat.zero_le _) hb
    exact quick_ok 4 (vropeBody a b c 0 false (shortX .f32)) s _
      (vropeBody_ok false (reachA_plain .f32 ha) (reachB_plain .f32 hb) h0 rfl (Or.inl hp))
  · exact quick_ok 12 (vrandBody a x) s _ (vrandBody_ok ha)
  · exact quick_ok 12 (vkeepBody a b c x) s _ (vkeepBody_ok ha hb)
  · exact quick_ok 12 (vphxBody a b c word.val imm x) s _ (vphxBody_ok word.val imm ha)
  · exact quick_ok 12 (vropeBody a b c d half x) s _ (vropeBody_ok half ha hb hd rfl hp)

/-- Settles O48: past its checks each instruction draws its elements in ascending order from the registers reached. -/
theorem vectorConversionsAndDraws : Obligations.VectorConversionsAndDraws := ⟨vectorConversions, vectorDraws⟩

end Sys2Proof.Machine
end

section
namespace Sys2Proof.Machine
open Sys2Proof.Claims

/-! ### Stash windows (R122 to R127, R293, R294) -/

theorem meet_false_iff {a n b m : Nat} : meet a n b m = false ↔ ¬ Meets a n b m := by
  unfold meet Meets
  rw [← Bool.not_eq_true, Bool.and_eq_true, decide_eq_true_eq, decide_eq_true_eq]

/-- No condition of R123 fails. -/
theorem mapRefusal_none {s : State} {w b : Reg} {off len : Nat} (h : MapMay s w b off len) :
    mapRefusal (myCore s) (reg s b) w.val off len = none := by
  obtain ⟨hfree, hmin, hmax, hin, hwin, hqueue, hal, hdst, hperm⟩ := h
  have hany : (myCore s).windows.any (fun (_, x) => meet off len x.offset x.length) = false :=
    List.any_eq_false.2 fun x hx => Bool.eq_false_iff.1 (meet_false_iff.2 (hwin x hx))
  have hroute : (routeQueues (myCore s)).any (fun q => meet (off * 4096) (len * 4096) q.1 q.2) = false :=
    List.any_eq_false.2 fun q hq => Bool.eq_false_iff.1 (meet_false_iff.2 (hqueue q hq))
  have hbase : (myCore s).windows.any
      (fun (_, x) => meet (capAddr (reg s b)) (len * 4096) x.base (x.length * 4096)) = false :=
    List.any_eq_false.2 fun x hx => Bool.eq_false_iff.1 (meet_false_iff.2 (hdst x hx))
  unfold mapRefusal
  rw [hfree, if_neg (by decide), if_neg (by omega), if_neg (by omega), hany, hroute, if_neg (by decide)]
  dsimp only
  rw [if_neg (by omega), hbase, if_neg (by decide), hperm]
  rfl

section
variable {s : State}

theorem offBasecamp (h : isBasecamp (who s).core = false) : onBasecamp s = false := h

theorem stashMapBody_ok {w b : Reg} {off len : Nat} (hcamp : isBasecamp (who s).core = false) (h : MapMay s w b off len) :
    stashMapBody w b off len s =
      .ok ((), withWindows (put (myCore s).windows w.val (newWindow s b off len)) s) := by
  unfold stashMapBody
  rw [act_get_bind, offBasecamp hcamp, if_neg Bool.false_ne_true]
  dsimp only
  rw [mapRefusal_none h]
  rfl

theorem stashMapBody_refused {w b : Reg} {off len cond : Nat} (hcamp : isBasecamp (who s).core = false)
    (h : mapRefusal (myCore s) (reg s b) w.val off len = some cond) :
    stashMapBody w b off len s = .error (.trap ⟨causeStashMap, condInfo w.val cond, 0⟩) := by
  unfold stashMapBody
  rw [act_get_bind, offBasecamp hcamp, if_neg Bool.false_ne_true]
  dsimp only
  rw [h]
  rfl

theorem flushOne_eq {w : Reg} {win : Window} (remove : Bool) (hcamp : isBasecamp (who s).core = false)
    (h : look (myCore s).windows w.val = some win) :
    flushOne remove w s = flushWindows remove (who s).core [(w.val, win)] s := by
  unfold flushOne
  rw [act_get_bind, offBasecamp hcamp, if_neg Bool.false_ne_true, h]

theorem flushAll_eq (remove : Bool) (hcamp : isBasecamp (who s).core = false) :
    flushAll remove s = flushWindows remove (who s).core (myCore s).windows s := by
  unfold flushAll
  rw [act_get_bind, offBasecamp hcamp, if_neg Bool.false_ne_true]

/-- Windows without a Dirty sector have nothing to write back. -/
theorem flushWindows_settled (remove : Bool) (c : Nat) {ws : List (Nat × Window)} (h : ∀ e ∈ ws, Settled e.2) :
    flushWindows remove c ws s = .ok ((), if remove then
      onCore s c fun k => { k with windows := ws.foldl (fun m w => drop m w.1) k.windows } else s) := by
  have hnone : dirtySectors ws = [] := by
    unfold dirtySectors
    exact List.flatMap_eq_nil_iff.2 fun e he => List.map_eq_nil_iff.2
      (List.filter_eq_nil_iff.2 fun x hx => Bool.eq_false_iff.1 (h e he x hx))
  unfold flushWindows
  rw [hnone]
  cases remove <;> rfl

/-- A core written back unchanged makes no difference to what follows it. -/
theorem slowly_onCore_id (len : Nat) : slowly len (onCore s (who s).core fun k => k) = slowly len s := by
  have hcore (d : Nat) : coreOf (onCore s (who s).core fun k => k) d = coreOf s d := by
    rw [coreOf_onCore]
    split
    case isTrue h => rw [h]
    case isFalse => rfl
  have hwho : who (onCore s (who s).core fun k => k) = who s := 
    who_congr _ _ rfl fun d => by rw [hcore]
  have hadvance : advance len (onCore s (who s).core fun k => k) = advance len s := by
    have hctx : ctxOf (onCore s (who s).core fun k => k) (who s) = ctxOf s (who s) := by
      unfold ctxOf
      rw [hcore]
    unfold advance onMe codeAt pc me
    rw [hwho, hctx]
    unfold onCtx setCtx
    rw [hctx, onCore_onCore]
  unfold slowly
  rw [hadvance]

end

/-- Settles O9: the conditions of a map are met in turn, and windows without a Dirty sector have nothing to write back. -/
theorem stashWindows : Obligations.StashWindows := by
  refine ⟨fun w b off len s hcamp => ⟨fun h => ?_, fun cond h => ?_⟩,
    fun w win s hcamp hw => ⟨fun t h => ?_, fun t h => ?_, fun h => ⟨?_, ?_⟩⟩,
    fun s t hcamp => ⟨fun h => ?_, fun h => ?_, fun h => ?_, fun h => ?_⟩,
    fun a b c s v hcamp hb hc hmin hin h => ?_⟩
  · exact quick_ok 12 (stashMapBody w b off.val len.val) s _ (stashMapBody_ok hcamp h)
  · exact quick_trap 12 (stashMapBody w b off.val len.val) s _ (stashMapBody_refused hcamp h)
  · exact slow_ok 4 (flushOne true w) s _ ((flushOne_eq true hcamp hw).trans h)
  · exact slow_ok 4 (flushOne false w) s _ ((flushOne_eq false hcamp hw).trans h)
  · exact slow_ok 4 (flushOne true w) s _ ((flushOne_eq true hcamp hw).trans
      (flushWindows_settled true _ (List.forall_mem_singleton.2 h)))
  · exact slow_ok 4 (flushOne false w) s _ ((flushOne_eq false hcamp hw).trans
      (flushWindows_settled false _ (List.forall_mem_singleton.2 h)))
  · exact slow_ok 12 (flushAll true) s _ ((flushAll_eq true hcamp).trans h)
  · exact slow_ok 12 (flushAll false) s _ ((flushAll_eq false hcamp).trans h)
  · exact slow_ok 12 (flushAll false) s _ ((flushAll_eq false hcamp).trans (flushWindows_settled false _ h))
  · rw [← slowly_onCore_id]
    refine slow_ok 12 (flushAll true) s _ ((flushAll_eq true hcamp).trans ?_)
    rw [h]
    rfl
  · refine quick_ok 12 (apertureCap a b c) s _ ?_
    unfold apertureCap
    rw [act_get_bind, offBasecamp hcamp, if_neg Bool.false_ne_true]
    dsimp only
    rw [if_pos (by simp [hb, hc, hmin, hin]), h]
    rfl

end Sys2Proof.Machine
end

section
namespace Sys2Proof.Machine
open Sys2Proof.Claims

/-! ### Views (R136 to R141, R297) -/

section
variable {a b k : Reg} {s : State} {base top : Nat}

theorem viewBounds_ok (h : Holds s b base top) : viewBounds b s = .ok ((base, top), s) := by
  obtain ⟨hview, hbounds⟩ := h
  unfold viewBounds
  rw [act_get_bind]
  dsimp only
  rw [hview, if_neg (by decide), hbounds]
  rfl

theorem exactView_ok {v c : Cap} {n : Nat} (h : exactCap (capPerms v) base n = some c) :
    exactView b v base n s = .ok (c, s) := by
  unfold exactView
  rw [h]
  rfl

theorem checkCounts_ok {gs : List Nat} (h : RoomFor s gs) : checkCounts b gs s = .ok ((), s) := by
  have hroom : (gs.any fun g => match coverCount s g with
      | some n => decide (n ≥ 65535)
      | none => false) = false := by
    refine List.any_eq_false.2 fun g hg => ?_
    cases hc : coverCount s g with
    | none => exact Bool.false_ne_true
    | some n =>
      have := h g hg n hc
      simpa using this
  unfold checkCounts
  rw [act_get_bind]
  exact congrFun (if_neg (Bool.eq_false_iff.1 hroom)) s

theorem dupBody_ok (h : Holds s b base top) (hroom : RoomFor s (granulesOf base top)) :
    dupBody a b s = .ok ((), writeCap a (reg s b) ((granulesOf base top).foldl cover s)) := by
  unfold dupBody
  rw [act_bind_ok _ _ _ _ _ (viewBounds_ok h)]
  dsimp only
  rw [act_bind_ok _ _ _ _ _ (checkCounts_ok hroom), act_get_bind]
  rfl

theorem splitBody_ok {d : BitVec 64} {x : Nat} {low high : Cap} (h : Holds s b base top)
    (hx : (x : Int) = capAddr (reg s b) + d.toInt) (hparts : Parts s b base top x low high)
    (hroom : RoomFor s (sharedGranule x)) : splitBody a b d s = .ok ((), splitAt a b x low high s) := by
  obtain ⟨hlo, hhi, hlow, hhigh⟩ := hparts
  unfold splitBody
  rw [act_bind_ok _ _ _ _ _ (viewBounds_ok h)]
  dsimp only
  rw [act_get_bind]
  rw [← hx, if_neg (by omega), Int.toNat_natCast, act_bind_ok _ _ _ _ _ (exactView_ok hlow),
    act_bind_ok _ _ _ _ _ (exactView_ok hhigh)]
  exact act_bind_ok _ _ _ _ _ (checkCounts_ok hroom)

theorem narrowBody_ok {n : Nat} {new : Cap} (h : Holds s b base top) (hn : Narrows s b base top n new) :
    narrowBody a b n s = .ok ((), narrowTo a b base top (capAddr (reg s b)) n new s) := by
  obtain ⟨hpos, hlo, hhi, hnew⟩ := hn
  unfold narrowBody
  rw [act_bind_ok _ _ _ _ _ (viewBounds_ok h)]
  dsimp only
  rw [act_get_bind]
  rw [if_neg (by omega), act_bind_ok _ _ _ _ _ (exactView_ok hnew), act_get_bind]
  unfold narrowTo
  split
  · rfl
  · rfl

theorem dropBody_ok (h : Holds s b base top) : dropBody b s = .ok ((), writeCap b Cap.null s) := by
  unfold dropBody
  rw [act_bind_ok _ _ _ _ _ (viewBounds_ok h)]
  rfl

theorem parkBody_ok (h : Holds s b base top) (hcamp : isBasecamp (who s).core = false)
    (hempty : look (myCore s).parks k.val = none) :
    parkBody k b s = .ok ((), parked k (some (reg s b)) (place b Cap.null s)) := by
  unfold parkBody
  rw [act_bind_ok _ _ _ _ _ (viewBounds_ok h), act_bind_ok _ _ _ _ _ (needResident_ok hcamp), act_get_bind]
  dsimp only
  rw [hempty]
  rfl

theorem takeBody_ok {v : Cap} (hcamp : isBasecamp (who s).core = false) (h : look (myCore s).parks k.val = some v) :
    takeBody a k s = .ok ((), writeCap a v (parked k none s)) := by
  unfold takeBody
  rw [act_bind_ok _ _ _ _ _ (needResident_ok hcamp), act_get_bind, h]
  rfl

end

/-- Settles O10: each body past its checks, then both forms. -/
theorem views : Obligations.Views := by
  intro a b c k imm s
  refine ⟨fun base top h => ⟨fun hroom => ⟨?_, ?_⟩, fun x low high hparts hroom => ⟨fun hx => ?_, fun hx => ?_⟩,
    fun new hn => ?_, fun new hn => ?_, ?_, ?_, fun hcamp hempty => ⟨?_, ?_⟩⟩, fun v hcamp h => ⟨?_, ?_⟩⟩
  · exact slow_ok 4 (dupBody a b) s _ (dupBody_ok h hroom)
  · exact slow_ok 12 (dupBody a b) s _ (dupBody_ok h hroom)
  · exact slow_ok 4 (splitBody a b (opReg s c 0)) s _ (splitBody_ok h (by rw [opReg_short]; exact hx) hparts hroom)
  · exact slow_ok 12 (splitBody a b (opReg s c imm)) s _ (splitBody_ok h (by rw [opReg_eq]; exact hx) hparts hroom)
  · rw [← opReg_short] at hn ⊢
    exact slow_ok 4 (narrowBody a b (opReg s c 0).toNat) s _ (narrowBody_ok h hn)
  · rw [← opReg_eq] at hn ⊢
    exact slow_ok 12 (narrowBody a b (opReg s c imm).toNat) s _ (narrowBody_ok h hn)
  · exact slow_ok 4 (dropBody b) s _ (dropBody_ok h)
  · exact slow_ok 12 (dropBody b) s _ (dropBody_ok h)
  · exact quick_ok 4 (parkBody k b) s _ (parkBody_ok h hcamp hempty)
  · exact quick_ok 12 (parkBody k b) s _ (parkBody_ok h hcamp hempty)
  · exact quick_ok 4 (takeBody a k) s _ (takeBody_ok hcamp h)
  · exact quick_ok 12 (takeBody a k) s _ (takeBody_ok hcamp h)

end Sys2Proof.Machine
end

section
namespace Sys2Proof.Machine
open Sys2Proof.Claims

/-! ### The position map (R145, R146, R245, R300, R301) -/

section
variable {a b c : Reg} {s : State}

theorem lookBody_hit {v : Cap} (hclean : (keyIn s b).clean = true) (hhit : mapHit s (reg s b).bits = some v) :
    lookBody a b s = .ok ((), writeCap a v (onMe s fun x => { x with refilled := none })) := by
  have hfound : (if (keyOf (reg s b).bits.toNat).clean then mapHit s (reg s b).bits else none) = some v :=
    (if_pos hclean).trans hhit
  unfold lookBody
  rw [act_get_bind]
  rw [hfound]
  rfl

theorem lookBody_missed (h : (keyIn s b).clean = false ∨ mapHit s (reg s b).bits = none) :
    lookBody a b s = missedLookup (reg s b).bits s := by
  have hmiss : (if (keyOf (reg s b).bits.toNat).clean then mapHit s (reg s b).bits else none) = none := by
    rcases h with h | h
    · exact if_neg (Bool.eq_false_iff.1 h)
    · rw [h, ite_self]
  unfold lookBody
  rw [act_get_bind]
  rw [hmiss]

theorem missedLookup_busy {key : BitVec 128} (h : (me s).handler.active = true) :
    missedLookup key s = .error (.trap ⟨causePositionMap, 1, 0⟩) := by
  unfold missedLookup
  rw [act_get_bind]
  dsimp only
  exact require_bind_trap _ (by rw [h]; rfl)

theorem missedLookup_none {key : BitVec 128} (h : (me s).handler = .none)
    (ht : ∀ t, teamOf s (who s) = some t → t.refill = none) :
    missedLookup key s = .error (.trap ⟨causePositionMap, 2, 0⟩) := by
  unfold missedLookup
  rw [act_get_bind]
  dsimp only
  rw [require_bind_ok _ (by rw [h]; rfl)]
  rcases hteam : teamOf s (who s) with _ | t
  · rfl
  · dsimp only
    rw [ht t hteam]
    rfl

section
variable {key : BitVec 128} {t : Team} {entry : Nat} (h : (me s).handler = .none) (hteam : teamOf s (who s) = some t)
  (hentry : t.refill = some entry)
include h hteam hentry

theorem missedLookup_enters (hnew : (me s).refilled ≠ some (key, capAddr (me s).code)) :
    missedLookup key s = .error (.done (onMe (dropShadow s (who s) 1) fun x => { x with
      handler := .refill key x.code, emptied := false, code := teamCode t entry,
      shadow := putD x.shadow 0 (Cap.plain key) Cap.null })) := by
  unfold missedLookup
  rw [act_get_bind]
  dsimp only
  rw [require_bind_ok _ (by rw [h]; rfl), hteam]
  dsimp only
  rw [hentry]
  dsimp only
  exact congrFun (if_neg hnew) s

theorem missedLookup_again (hold : (me s).refilled = some (key, capAddr (me s).code)) :
    missedLookup key s = raiseFrom (α := Unit) ⟨causePositionMap, 3, 0⟩ (onMe s fun x => { x with refilled := none }) s := by
  unfold missedLookup
  rw [act_get_bind]
  dsimp only
  rw [require_bind_ok _ (by rw [h]; rfl), hteam]
  dsimp only
  rw [hentry]
  dsimp only
  exact congrFun (if_pos hold) s

end

theorem fillBody_empty {i : Nat} : fillBody b 0 i s = .ok ((), withEntry i none s) := rfl

theorem fillBody_set {i : Nat} (hc : c ≠ 0) (hclean : (keyIn s b).clean = true) (htag : (reg s c).tag = true)
    (hpage : wholePage s (myDomain s) (reg s c) = true) :
    fillBody b c i s = .ok ((), withEntry i (some ⟨(reg s b).bits, reg s c, (me s).uid⟩) s) := by
  have hne : ¬ c.val = 0 := fun h0 => hc (Fin.ext h0)
  unfold keyIn at hclean
  unfold fillBody
  rw [act_get_bind, if_neg hne]
  rw [require_bind_ok _ (by rw [hclean, htag, hpage]; rfl)]
  rfl

theorem fillBody_refused {i : Nat} (hc : c ≠ 0)
    (h : (keyIn s b).clean = false ∨ (reg s c).tag = false ∨ wholePage s (myDomain s) (reg s c) = false) :
    fillBody b c i s = .error (.trap ⟨causePositionMap, 4, 0⟩) := by
  have hne : ¬ c.val = 0 := fun h0 => hc (Fin.ext h0)
  unfold keyIn at h
  unfold fillBody
  rw [act_get_bind, if_neg hne]
  refine require_bind_trap _ ?_
  rcases h with h | h | h <;> rw [h] <;> simp

end

theorem positionMap : Claims.PositionMap := by
  intro a b c i s
  refine ⟨fun v hclean hhit => ?_, fun hmiss => ⟨fun t entry h hteam hentry hnew => ?_, fun h => ?_, fun h ht => ?_,
    fun t entry h hteam hentry hold => ?_⟩, ?_, fun hc hclean htag hpage => ?_, fun hc h => ?_⟩
  · exact quick_ok 12 (lookBody a b) s _ (lookBody_hit hclean hhit)
  · exact quick_done 12 (lookBody a b) s _ ((lookBody_missed hmiss).trans (missedLookup_enters h hteam hentry hnew))
  · exact quick_trap 12 (lookBody a b) s _ ((lookBody_missed hmiss).trans (missedLookup_busy h))
  · exact quick_trap 12 (lookBody a b) s _ ((lookBody_missed hmiss).trans (missedLookup_none h ht))
  · exact quick_done 12 (lookBody a b) s _ ((lookBody_missed hmiss).trans (missedLookup_again h hteam hentry hold))
  · exact quick_ok 12 (fillBody b 0 i.val) s _ fillBody_empty
  · exact quick_ok 12 (fillBody b c i.val) s _ (fillBody_set hc hclean htag hpage)
  · exact quick_trap 12 (fillBody b c i.val) s _ (fillBody_refused hc h)

/-! ### Appends (R143 to R151, R302) -/

section
variable {a b c d e : Reg} {s t : State} {x : Desc}

theorem checkRun_ok {first : Nat} {ns : List Nat} (h : ∀ i ∈ ns, first + i < (me s).nv) : checkRun first ns s = .ok ((), s) := by
  induction ns with
  | nil => rfl
  | cons i rest ih =>
    rw [checkRun, act_bind_ok _ _ _ _ _ (checkV_in (h i List.mem_cons_self))]
    exact ih fun k hk => h k (List.mem_cons_of_mem _ hk)

theorem needDesc_ok {n : Nat} {ok : Desc → Bool} (hd : Machine.descOf s n = x) (hv : x.valid = true) (hok : ok x = true) :
    needDesc n ok s = .ok (x, s) := by
  subst hd
  unfold needDesc
  rw [act_get_bind]
  rw [require_bind_ok _ (by rw [hv, hok]; rfl)]
  rfl

/-- Past the checks of its operands an append is `appendRows`, and its status goes to `cA`. -/
theorem kvAppBody_ok {n status : Nat} (h : KvMay s b d e n x)
    (hrows : appendRows (keyIn s b) (reg s b).bits (positionIn s c) (rowBytes x) (runBytes s d.val (rowRegs x) (rowBytes x))
      (runBytes s e.val (rowRegs x) (rowBytes x)) s = .ok (status, t)) :
    kvAppBody a b c d e n s = .ok ((), writeInt a 64 status t) := by
  obtain ⟨⟨hd, he⟩, ⟨hdesc, hvalid, hkv⟩, hkey⟩ := h
  have hpos : 1 ≤ rowRegs x := Nat.le_max_left _ _
  have hregs : max 1 (rowWidth x / 256) = rowRegs x := rfl
  have hrun {r : Reg} (hr : r.val + rowRegs x ≤ (me s).nv) : ∀ i ∈ upFrom 0 (rowRegs x), r.val + i < (me s).nv := by
    intro i hi
    have := (mem_upFrom _ _ _).1 hi
    omega
  have hplace : field (reg64 s c).toNat 31 0 = positionIn s c := by
    unfold field positionIn
    rw [Nat.pow_zero, Nat.div_one]
  unfold keyIn at hkey
  unfold kvAppBody
  rw [act_bind_ok _ _ _ _ _ (checkV_in (by omega)), act_bind_ok _ _ _ _ _ (checkV_in (by omega)),
    act_bind_ok _ _ _ _ _ (needDesc_ok hdesc hvalid hkv), hregs, act_bind_ok _ _ _ _ _ (checkRun_ok (hrun hd)),
    act_bind_ok _ _ _ _ _ (checkRun_ok (hrun he)), act_get_bind]
  dsimp only
  rw [require_bind_ok _ hkey, hplace]
  exact act_bind_ok _ _ _ _ _ hrows

end

section
variable {key : Key} {bits : BitVec 128} {p w : Nat} {kRow vRow : List Byte} {s t : State} {r : Rec}

theorem appendRows_unknown (h : (domainOf s (myDomain s)).seqCount ≤ key.seq) :
    appendRows key bits p w kRow vRow s = .ok (5, countStale s) := by
  have hslot : slotKnown s (myDomain s) key.seq = false := decide_eq_false (by omega)
  unfold appendRows
  rw [act_get_bind]
  dsimp only
  rw [hslot]
  rfl

section
variable (h : key.seq < (domainOf s (myDomain s)).seqCount)
  (hr : readRecord (myEngine s) (myDomain s) key.seq s = .ok (r, t))
include h hr

theorem appendRows_stale (hgen : r.gen ≠ key.gen) : appendRows key bits p w kRow vRow s = .ok (5, countStale t) := by
  have hslot : slotKnown s (myDomain s) key.seq = true := decide_eq_true h
  unfold appendRows
  rw [act_get_bind]
  dsimp only
  rw [hslot, if_neg (by decide), act_bind_ok _ _ _ _ _ hr]
  exact congrFun (if_pos (Ne.symm hgen)) t

theorem appendRows_unfit (hgen : r.gen = key.gen) (hbad : r.state ≠ 2 ∨ 32768 / w ≠ 2 ^ r.logp ∨ r.nl ≤ key.layer) :
    appendRows key bits p w kRow vRow s = .ok (7, t) := by
  have hslot : slotKnown s (myDomain s) key.seq = true := decide_eq_true h
  unfold appendRows
  rw [act_get_bind]
  dsimp only
  rw [hslot, if_neg (by decide), act_bind_ok _ _ _ _ _ hr]
  rw [if_neg (by simp [hgen]), if_pos hbad]
  rfl

section
variable (hgen : r.gen = key.gen) (hfit : r.state = 2) (hblock : 32768 / w = 2 ^ r.logp) (hlayer : key.layer < r.nl)
include hgen hfit hblock hlayer

theorem appendRows_last (hp : p = 2 ^ 32 - 1) : appendRows key bits p w kRow vRow s = .ok (4, t) := by
  have hslot : slotKnown s (myDomain s) key.seq = true := decide_eq_true h
  unfold appendRows
  rw [act_get_bind]
  dsimp only
  rw [hslot, if_neg (by decide), act_bind_ok _ _ _ _ _ hr]
  rw [if_neg (by simp [hgen]), if_neg (by omega), if_pos hp]
  rfl

theorem appendRows_past (hp : p ≠ 2 ^ 32 - 1) (hlen : r.rlen ≤ p) :
    appendRows key bits p w kRow vRow s = .ok (3, t) := by
  have hslot : slotKnown s (myDomain s) key.seq = true := decide_eq_true h
  unfold appendRows
  rw [act_get_bind]
  dsimp only
  rw [hslot, if_neg (by decide), act_bind_ok _ _ _ _ _ hr]
  rw [if_neg (by simp [hgen]), if_neg (by omega), if_neg hp, if_pos hlen]
  rfl

end

end

end

theorem kvAppends : Claims.KvAppends := by
  intro a b c d e n s x hmay key p block
  have hrun {status : Nat} {t : State} (h : appendRows key (reg s b).bits p (rowBytes x)
      (runBytes s d.val (rowRegs x) (rowBytes x)) (runBytes s e.val (rowRegs x) (rowBytes x)) s = .ok (status, t)) :
      exec (.kvApp a b c d e n) s = .next (answered 12 a status t) :=
    slow_ok 12 (kvAppBody a b c d e n.val) s _ (kvAppBody_ok hmay h)
  exact ⟨fun status t h => hrun h, fun h => hrun (appendRows_unknown h), fun r t h hr =>
    ⟨fun hgen => hrun (appendRows_stale h hr hgen), fun hgen hbad => hrun (appendRows_unfit h hr hgen hbad),
      fun hgen hfit hblock hlayer => ⟨fun hp => hrun (appendRows_last h hr hgen hfit hblock hlayer hp),
        fun hp hlen => hrun (appendRows_past h hr hgen hfit hblock hlayer hp hlen)⟩⟩⟩

/-- Settles O51: a lookup hits or misses, and an append meets its conditions in turn. -/
theorem pagesOfSequences : Obligations.PagesOfSequences := ⟨positionMap, kvAppends⟩

end Sys2Proof.Machine
end

section
namespace Sys2Proof.Machine
open Sys2Proof.Claims

/-! ### The Cairn instructions (R303 to R305) -/

theorem tokenCount_eq (s : State) (d : Reg) : tokenCount s d = countIn s d := by
  unfold tokenCount countIn field
  rw [Nat.pow_zero, Nat.div_one]

theorem treeIdent_eq (s : State) (d : Reg) : treeOf s (treeIdent s d) = Claims.treeIn s d := by
  have h := (reg64 s d).isLt
  unfold treeIdent Claims.treeIn field
  rw [Nat.mod_eq_of_lt (by omega)]

section
variable {a b c d : Reg} {s : State}

theorem tokens_checked (h : TokensMay s c d) :
    checked c.val (capCheck (reg s c) (capAddr (reg s c)) (4 * tokenCount s d) permLD) s = .ok ((), s) := by
  rw [tokenCount_eq]
  exact checked_ok h

theorem sequenceKey_ok (h : SequenceKey s b) : sequenceKey b s = .ok (keyIn s b, s) := by
  obtain ⟨hclean, hlayer, hblock⟩ := h
  unfold keyIn at hclean hlayer hblock
  unfold sequenceKey wholeKey
  rw [act_get_bind]
  rw [require_bind_ok _ (by rw [hclean, hlayer, hblock]; rfl)]
  rfl

/-! #### An unknown tree -/

section
variable (htok : TokensMay s c d) (htree : Claims.treeIn s d = none)
include htok htree

theorem cairnLook_unknown : cairnLookBody a b c d s = .ok ((), writeInt a 64 (pairWord 3 0) s) := by
  unfold cairnLookBody
  rw [act_get_bind]
  dsimp only
  rw [act_bind_ok _ _ _ _ _ (tokens_checked htok), treeIdent_eq, htree]
  rfl

theorem cairnIns_unknown : cairnInsBody a b c d s = .ok ((), writeInt a 64 (pairWord 3 0) s) := by
  unfold cairnInsBody
  rw [act_get_bind]
  dsimp only
  rw [act_bind_ok _ _ _ _ _ (tokens_checked htok), treeIdent_eq, htree]
  rfl

theorem cairnRel_unknown : cairnRelBody a c d s = .ok ((), writeInt a 64 (pairWord 3 0) s) := by
  unfold cairnRelBody
  rw [act_get_bind]
  dsimp only
  rw [act_bind_ok _ _ _ _ _ (tokens_checked htok), treeIdent_eq, htree]
  rfl

end

/-! #### A known tree -/

/-- The status of a match on a sequence with this record. -/
def lookOutcome (tree : Cairn) (key : Key) (c : Reg) (n : Nat) : Option Rec → Act Nat
  | none => pure (statusWord 2 0)
  | some r => if r.state ≠ 0 then pure (statusWord 1 0) else do
    let toks ← readTokens c n
    cairnMatch tree key r toks

/-- The status of an insertion of so many whole blocks. -/
def insOutcome (tree : Cairn) (c : Reg) (blocks : Nat) : Option Rec → Act Nat
  | none => pure (statusWord 2 (blocks * 2 ^ tree.logp))
  | some r => if r.state ≠ 2 then pure (statusWord 10 (blocks * 2 ^ tree.logp)) else do
    let toks ← readTokens c (blocks * 2 ^ tree.logp)
    let st ← cairnInsert tree r toks blocks
    pure (statusWord st (blocks * 2 ^ tree.logp))

section
variable {tree : Cairn} (htok : TokensMay s c d) (htree : Claims.treeIn s d = some tree)
include htok htree

/-- `cairn.look` on a sequence: its outcome by the record of the key. -/
theorem cairnLook_known {found : Option Rec} {status : Nat} {t u : State} (hkey : SequenceKey s b)
    (hrec : sequenceRecord (keyIn s b) s = .ok (found, t))
    (h : lookOutcome tree (keyIn s b) c (countIn s d) found t = .ok (status, u)) :
    cairnLookBody a b c d s = .ok ((), writeInt a 64 status u) := by
  unfold cairnLookBody
  rw [act_get_bind]
  dsimp only
  rw [act_bind_ok _ _ _ _ _ (tokens_checked htok), treeIdent_eq, htree, tokenCount_eq]
  dsimp only
  rw [act_bind_ok _ _ _ _ _ (sequenceKey_ok hkey), act_bind_ok _ _ _ _ _ hrec]
  cases found with
  | none => exact act_bind_ok _ _ _ _ _ h
  | some r =>
    unfold lookOutcome at h
    dsimp only at h ⊢
    split at h
    case isTrue hs =>
      rw [if_pos hs]
      exact act_bind_ok _ _ _ _ _ h
    case isFalse hs =>
      rw [if_neg hs, ← bind_assoc]
      exact act_bind_ok _ _ _ _ _ h

/-- `cairn.ins` on a sequence, of its whole blocks. -/
theorem cairnIns_known {found : Option Rec} {status : Nat} {t u : State} (hkey : SequenceKey s b)
    (hrec : sequenceRecord (keyIn s b) s = .ok (found, t))
    (h : insOutcome tree c (countIn s d / 2 ^ tree.logp) found t = .ok (status, u)) :
    cairnInsBody a b c d s = .ok ((), writeInt a 64 status u) := by
  unfold cairnInsBody
  rw [act_get_bind]
  dsimp only
  rw [act_bind_ok _ _ _ _ _ (tokens_checked htok), treeIdent_eq, htree, tokenCount_eq]
  dsimp only
  rw [act_bind_ok _ _ _ _ _ (sequenceKey_ok hkey), act_bind_ok _ _ _ _ _ hrec]
  cases found with
  | none => exact act_bind_ok _ _ _ _ _ h
  | some r =>
    unfold insOutcome at h
    dsimp only at h ⊢
    split at h
    case isTrue hs =>
      rw [if_pos hs]
      exact act_bind_ok _ _ _ _ _ h
    case isFalse hs =>
      obtain ⟨toks, v, htoks, h⟩ := act_bind_inv _ _ _ _ _ h
      unfold treeBlock
      rw [if_neg hs, act_bind_ok _ _ _ _ _ htoks, ← bind_assoc]
      exact act_bind_ok _ _ _ _ _ h

theorem cairnRel_length (h : countIn s d = 0 ∨ countIn s d % 2 ^ tree.logp ≠ 0) :
    cairnRelBody a c d s = .ok ((), writeInt a 64 (pairWord 9 0) s) := by
  unfold cairnRelBody
  rw [act_get_bind]
  dsimp only
  rw [act_bind_ok _ _ _ _ _ (tokens_checked htok), treeIdent_eq, htree, tokenCount_eq]
  dsimp only
  unfold treeBlock
  rw [if_pos h]
  rfl

theorem cairnRel_known {toks : List (BitVec 32)} {status : Nat} {t u : State} (h0 : countIn s d ≠ 0)
    (hblock : countIn s d % 2 ^ tree.logp = 0) (htoks : readTokens c (countIn s d) s = .ok (toks, t))
    (h : cairnRelease tree toks t = .ok (status, u)) :
    cairnRelBody a c d s = .ok ((), writeInt a 64 (pairWord status 0) u) := by
  unfold cairnRelBody
  rw [act_get_bind]
  dsimp only
  rw [act_bind_ok _ _ _ _ _ (tokens_checked htok), treeIdent_eq, htree, tokenCount_eq]
  dsimp only
  rw [if_neg (by unfold treeBlock; omega), act_bind_ok _ _ _ _ _ htoks]
  exact act_bind_ok _ _ _ _ _ h

end

end

theorem cairnInstructions : Claims.CairnInstructions := by
  intro a b c d s htok
  have look {w : Nat} {t : State} (h : cairnLookBody a b c d s = .ok ((), writeInt a 64 w t)) :
      exec (.cairnLook a b c d) s = .next (answered 12 a w t) := slow_ok 12 (cairnLookBody a b c d) s _ h
  have ins {w : Nat} {t : State} (h : cairnInsBody a b c d s = .ok ((), writeInt a 64 w t)) :
      exec (.cairnIns a b c d) s = .next (answered 12 a w t) := slow_ok 12 (cairnInsBody a b c d) s _ h
  have rel {w : Nat} {t : State} (h : cairnRelBody a c d s = .ok ((), writeInt a 64 w t)) :
      exec (.cairnRel a c d) s = .next (answered 12 a w t) := slow_ok 12 (cairnRelBody a c d) s _ h
  refine ⟨fun hnone => ⟨look (cairnLook_unknown htok hnone), ins (cairnIns_unknown htok hnone),
    rel (cairnRel_unknown htok hnone)⟩, fun tree htree => ⟨fun hkey found t hrec => ?_,
    fun h => rel (cairnRel_length htok htree h),
    fun toks t status u h0 hblock htoks h => rel (cairnRel_known htok htree h0 hblock htoks h)⟩⟩
  refine ⟨fun hf => ?_, fun r hf hstate => ?_, fun r hf hstate => ?_, fun r toks u status v hf hstate htoks h => ?_,
    fun r toks u status v hf hstate htoks h => ?_⟩
  · subst hf
    exact ⟨look (cairnLook_known htok htree hkey hrec rfl), ins (cairnIns_known htok htree hkey hrec rfl)⟩
  · subst hf
    exact look (cairnLook_known htok htree hkey hrec (congrFun (if_pos hstate) t))
  · subst hf
    exact ins (cairnIns_known htok htree hkey hrec (congrFun (if_pos hstate) t))
  · subst hf
    refine look (cairnLook_known htok htree hkey hrec ((congrFun (if_neg (not_not_intro hstate)) t).trans ?_))
    exact (act_bind_ok _ _ _ _ _ htoks).trans h
  · subst hf
    refine ins (cairnIns_known htok htree hkey hrec ((congrFun (if_neg (not_not_intro hstate)) t).trans ?_))
    exact (act_bind_ok _ _ _ _ _ htoks).trans (act_bind_ok _ _ _ _ _ h)

/-! ### Admission (R152, R306, R307) -/

theorem layers_eq (x : Nat) : field x 7 0 = x % 256 := by
  unfold field
  rw [Nat.pow_zero, Nat.div_one]
  rfl

theorem ceilDiv_eq (n k : Nat) : ceilDiv n k = (n + k - 1) / k := rfl

section
variable {a b c d : Reg} {s t : State}

theorem rsvRefused_iff (r : Rec) (lp ln x : Nat) (hx : x < 2 ^ 64) : rsvRefused r lp ln x = true ↔ ReserveRefused r lp ln x := by
  have hreserved : field x 63 12 = x / 2 ^ 12 := by
    unfold field
    exact Nat.mod_eq_of_lt (by omega)
  have hsize : field x 11 8 = x / 256 % 16 := rfl
  have hlayers : field x 7 0 = x % 256 := layers_eq x
  unfold rsvRefused ReserveRefused
  rw [hreserved, hsize, hlayers]
  simp [ceilDiv_eq, or_assoc]

theorem pagesNeeded_eq (r : Rec) (lp ln x : Nat) :
    pagesNeeded (field x 7 0 + 1) (2 ^ field x 11 8) lp ln (if r.state = 0 then 0 else r.matched) = pagesWanted r lp ln x := by
  rw [layers_eq]
  rfl

theorem admRsv_none (hkey : SequenceKey s b) (hrec : sequenceRecord (keyIn s b) s = .ok (none, t)) :
    admRsvBody a b c d s = .ok ((), writeInt a 64 2 t) := by
  unfold admRsvBody
  rw [act_bind_ok _ _ _ _ _ (sequenceKey_ok hkey), act_get_bind, act_bind_ok _ _ _ _ _ hrec]
  rfl

/-- A reservation of a sequence is `reserve` with the parameters of `cC` and `cD`. -/
theorem admRsv_known {r : Rec} {status : Nat} {u : State} (hkey : SequenceKey s b)
    (hrec : sequenceRecord (keyIn s b) s = .ok (some r, t))
    (h : reserve (keyIn s b) r ((reg64 s c).toNat % 2 ^ 32) ((reg64 s c).toNat / 2 ^ 32) (reg64 s d).toNat t = .ok (status, u)) :
    admRsvBody a b c d s = .ok ((), writeInt a 64 status u) := by
  have hc := (reg64 s c).isLt
  have hlow : field (reg64 s c).toNat 31 0 = (reg64 s c).toNat % 2 ^ 32 := by
    unfold field
    rw [Nat.pow_zero, Nat.div_one]
  have hhigh : field (reg64 s c).toNat 63 32 = (reg64 s c).toNat / 2 ^ 32 := by
    unfold field
    exact Nat.mod_eq_of_lt (by omega)
  unfold admRsvBody
  rw [act_bind_ok _ _ _ _ _ (sequenceKey_ok hkey), act_get_bind, act_bind_ok _ _ _ _ _ hrec]
  dsimp only
  rw [hlow, hhigh]
  exact act_bind_ok _ _ _ _ _ h

theorem admEnd_none (hkey : SequenceKey s b) (hrec : sequenceRecord (keyIn s b) s = .ok (none, t)) :
    admEndBody a b s = .ok ((), writeInt a 64 (pairWord 2 0) t) := by
  unfold admEndBody
  rw [act_bind_ok _ _ _ _ _ (sequenceKey_ok hkey), act_get_bind, act_bind_ok _ _ _ _ _ hrec]
  rfl

theorem admEnd_empty {r : Rec} (hkey : SequenceKey s b) (hrec : sequenceRecord (keyIn s b) s = .ok (some r, t))
    (hr : r.state = 0) : admEndBody a b s = .ok ((), writeInt a 64 (pairWord 1 0) t) := by
  unfold admEndBody
  rw [act_bind_ok _ _ _ _ _ (sequenceKey_ok hkey), act_get_bind, act_bind_ok _ _ _ _ _ hrec]
  dsimp only
  rw [if_pos hr]
  rfl

theorem admEnd_ends {r : Rec} {gen : Nat} {u : State} (hkey : SequenceKey s b)
    (hrec : sequenceRecord (keyIn s b) s = .ok (some r, t)) (hr : r.state ≠ 0)
    (h : endSequence (myEngine s) (myDomain s) (keyIn s b).seq r t = .ok (gen, u)) :
    admEndBody a b s = .ok ((), writeInt a 64 gen u) := by
  have hword : statusWord 0 gen = gen := by
    unfold statusWord
    omega
  unfold admEndBody
  rw [act_bind_ok _ _ _ _ _ (sequenceKey_ok hkey), act_get_bind, act_bind_ok _ _ _ _ _ hrec]
  dsimp only
  rw [if_neg hr, act_bind_ok _ _ _ _ _ h, act_pure_bind, hword]
  rfl

end

section
variable {key : Key} {r : Rec} {lp ln x : Nat} {t u : State} (hx : x < 2 ^ 64)

theorem reserve_held (h : r.state = 2) : reserve key r lp ln x t = .ok (1, t) := by
  unfold reserve
  rw [act_get_bind]
  exact congrFun (if_pos h) t

include hx

theorem reserve_refused (h : r.state ≠ 2) (hbad : ReserveRefused r lp ln x) : reserve key r lp ln x t = .ok (3, t) := by
  unfold reserve
  rw [act_get_bind]
  dsimp only
  rw [if_neg h, if_pos ((rsvRefused_iff r lp ln x hx).2 hbad)]
  rfl

theorem reserve_short (h : r.state ≠ 2) (hgood : ¬ ReserveRefused r lp ln x)
    (hq : unreserved (domainOf t (myDomain t)) < pagesWanted r lp ln x) : reserve key r lp ln x t = .ok (4, t) := by
  unfold reserve
  rw [act_get_bind]
  dsimp only
  rw [if_neg h, if_neg (mt (rsvRefused_iff r lp ln x hx).1 hgood), pagesNeeded_eq, if_pos hq]
  rfl

theorem reserve_admits (h : r.state ≠ 2) (hgood : ¬ ReserveRefused r lp ln x)
    (hq : pagesWanted r lp ln x ≤ unreserved (domainOf t (myDomain t)))
    (hw : writeRecord (myEngine t) (myDomain t) key.seq (admittedRecord r lp ln x) t = .ok ((), u)) :
    reserve key r lp ln x t = .ok (0, u) := by
  have hsize : field x 11 8 = x / 256 % 16 := rfl
  unfold reserve
  rw [act_get_bind]
  dsimp only
  rw [if_neg h, if_neg (mt (rsvRefused_iff r lp ln x hx).1 hgood), pagesNeeded_eq, if_neg (by omega), layers_eq, hsize]
  exact act_bind_ok _ _ _ _ _ hw

end

theorem admission : Claims.Admission := by
  intro a b c d s hkey found t hrec lp ln x
  have hx : x < 2 ^ 64 := (reg64 s d).isLt
  have rsv {w : Nat} {u : State} (h : admRsvBody a b c d s = .ok ((), writeInt a 64 w u)) :
      exec (.admRsv a b c d) s = .next (answered 12 a w u) := slow_ok 12 (admRsvBody a b c d) s _ h
  have ends {w : Nat} {u : State} (h : admEndBody a b s = .ok ((), writeInt a 64 w u)) :
      exec (.admEnd a b) s = .next (answered 12 a w u) := slow_ok 12 (admEndBody a b) s _ h
  refine ⟨fun hf => ?_, fun r hf => ?_⟩
  · subst hf
    exact ⟨rsv (admRsv_none hkey hrec), ends (admEnd_none hkey hrec)⟩
  · subst hf
    exact ⟨fun h => rsv (admRsv_known hkey hrec (reserve_held h)),
      fun h hbad => rsv (admRsv_known hkey hrec (reserve_refused hx h hbad)),
      fun h hgood hq => rsv (admRsv_known hkey hrec (reserve_short hx h hgood hq)),
      fun u h hgood hq hw => rsv (admRsv_known hkey hrec (reserve_admits hx h hgood hq hw)),
      fun h => ends (admEnd_empty hkey hrec h), fun gen u h hend => ends (admEnd_ends hkey hrec h hend)⟩

/-- Settles O52: each instruction meets its statuses in order, and then is its match, insertion, release or reservation. -/
theorem prefixesAndAdmission : Obligations.PrefixesAndAdmission := ⟨cairnInstructions, admission⟩

end Sys2Proof.Machine
end

section
namespace Sys2Proof.Machine
open Sys2Proof.Claims

/-! ### Sends (R166 to R168, R308, R310) -/

section
variable {a b c d : Reg} {s : State}

theorem checkSend_ok (h : SendMay s b c d) : checkSend b c d s = .ok ((), s) := by
  obtain ⟨⟨t, hteam, hlt, hcore, hpkg⟩, htag, hsealed, hex, hviews⟩ := h
  have hreach : reachable s (reg64 s d).toNat = true := by
    unfold reachable
    rw [hteam]
    simpa [hcore, hpkg] using hlt
  have hhandler : ((reg s b).tag && isSealed (reg s b) && hasPerm (reg s b) permEX) = true := by
    rw [htag, hsealed, hex]
    rfl
  have hstay : ¬ ((reg64 s d).toNat / 65536 ≠ s.pkg.toNat ∧ (arguments s c).any isView = true) := by
    rintro ⟨hne, hany⟩
    obtain ⟨v, hv, hview⟩ := List.any_eq_true.1 hany
    rw [hviews.resolve_left hne v hv] at hview
    cases hview
  unfold checkSend
  rw [act_get_bind]
  dsimp only
  rw [hreach, if_neg (by decide), hhandler, if_neg (by decide), if_neg hstay]
  rfl

theorem roomAt_iff (h : RoomAt s d) : ¬ ((reg64 s d).toNat / 65536 = s.pkg.toNat ∧
    inboxFull (coreOf s ((reg64 s d).toNat % 65536)) = true) := by
  rintro ⟨hpkg, hfull⟩
  unfold inboxFull at hfull
  rw [decide_eq_true (h hpkg)] at hfull
  cases hfull

/-- What a send does once it may go out. -/
def sendOut (a b c d : Reg) (ord : Order) (s : State) : Act Unit := do
  if ord = .full then
    stop (.done (onMe (sendMessage b c d s).2 fun x =>
      { x with own := some (sendMessage b c d s).1, wait := .ownAck (sendMessage b c d s).1 }))
  set (writeInt a 64 0 (sendMessage b c d s).2)

section
variable {ord : Order} (hown : (me s).own = none) (hmay : SendMay s b c d)
include hown hmay

theorem sendBody_waits (hord : ord ≠ .plain) (h : sendsPending s (who s) = true) :
    sendBody a b c d ord s = .error (.hold .acks) := by
  unfold sendBody
  rw [act_get_bind]
  dsimp only
  rw [hown]
  dsimp only
  rw [act_bind_ok _ _ _ _ _ (checkSend_ok hmay), if_pos hord, if_pos h]
  rfl

theorem sendBody_goes (hroom : RoomAt s d)
    (h : ord = .plain ∨ (sendsPending s (who s) = false ∧ (me s).failures = [])) :
    sendBody a b c d ord s = sendOut a b c d ord s s := by
  unfold sendBody
  rw [act_get_bind]
  dsimp only
  rw [hown]
  dsimp only
  rw [act_bind_ok _ _ _ _ _ (checkSend_ok hmay)]
  rcases h with h | ⟨hpend, hfail⟩
  · rw [if_neg (not_not_intro h)]
    exact congrFun (if_neg (roomAt_iff hroom)) s
  · have hraise : raiseFailure (fun _ => true) s = .ok ((), s) :=
      raiseFailure_none (by rw [hfail]; exact fun f hf => absurd hf List.not_mem_nil)
    by_cases hord : ord = .plain
    · rw [if_neg (not_not_intro hord)]
      exact congrFun (if_neg (roomAt_iff hroom)) s
    · rw [if_pos hord, if_neg (Bool.eq_false_iff.1 hpend), act_bind_ok _ _ _ _ _ hraise]
      exact congrFun (if_neg (roomAt_iff hroom)) s

end

theorem sendOut_done {ord : Order} (h : ord ≠ .full) :
    sendOut a b c d ord s s = .ok ((), writeInt a 64 0 (sendMessage b c d s).2) := congrFun (if_neg h) s

theorem sendOut_full : sendOut a b c d .full s s = .error (.done (onMe (sendMessage b c d s).2 fun x =>
    { x with own := some (sendMessage b c d s).1, wait := .ownAck (sendMessage b c d s).1 })) := rfl

theorem sendBody_answered {ord : Order} {n : Nat} (hown : (me s).own = some n) (hsent : ∀ m ∈ (me s).sent, m.1 ≠ n)
    (hfail : ∀ f ∈ (me s).failures, f.1 ≠ n) :
    sendBody a b c d ord s = .ok ((), writeInt a 64 0 (onMe s fun x => { x with own := none })) := by
  have hany : (me s).sent.any (·.1 == n) = false := List.any_eq_false.2 fun m hm => by simpa using hsent m hm
  have hnone : (me (onMe s fun x => { x with own := none })).failures.find? (·.1 == n) = none := by
    rw [me_onMe]
    exact List.find?_eq_none.2 fun f hf => by simpa using hfail f hf
  unfold sendBody ownAnswered
  rw [act_get_bind]
  dsimp only
  rw [hown]
  dsimp only
  rw [act_get_bind, hany, if_neg Bool.false_ne_true, hnone]
  rfl

end

theorem messageSends : Claims.MessageSends := by
  intro a b c d ord s
  refine ⟨fun hown hmay hroom => ⟨fun h => ?_, fun hord h => ?_, fun h hpend hfail => ?_, fun h hpend hfail => ?_⟩,
    fun n hown hsent hfail => ?_⟩
  · subst h
    exact slow_ok 12 (sendBody a b c d .plain) s _
      ((sendBody_goes hown hmay hroom (Or.inl rfl)).trans (sendOut_done (by decide)))
  · exact slow_hold 12 (sendBody a b c d ord) s _ (sendBody_waits hown hmay hord h)
  · subst h
    exact slow_ok 12 (sendBody a b c d .release) s _
      ((sendBody_goes hown hmay hroom (Or.inr ⟨hpend, hfail⟩)).trans (sendOut_done (by decide)))
  · subst h
    exact slow_done 12 (sendBody a b c d .full) s _
      ((sendBody_goes hown hmay hroom (Or.inr ⟨hpend, hfail⟩)).trans sendOut_full)
  · exact slow_ok 12 (sendBody a b c d ord) s _ (sendBody_answered hown hsent hfail)

/-! ### Migration (R311 to R313) -/

theorem who_writeInt (a : Reg) (w x : Nat) (s : State) : who (writeInt a w x s) = who s := by
  rcases writeInt_cases a w x s with h | ⟨v, h, -⟩
  · rw [h]
  · rw [h, who_writeCap]

section
variable {a b : Reg} {s t : State} {p : Place}

theorem checkMigration_ok (h : MigrateMay s b p t) : checkMigration b s = .ok (p, t) := by
  obtain ⟨hcap, ⟨hkind, hslot⟩, hpin, ⟨u, hgrant, hplace⟩, hhome⟩ := h
  have hleader : ¬ (isLeader (me s) = true ∨ (who s).slot = 11) := by
    rintro (hl | hs)
    · exact hkind (by simpa [isLeader] using hl)
    · exact hslot hs
  unfold checkMigration
  rw [act_get_bind]
  dsimp only
  rw [act_bind_ok _ _ _ _ _ (checked_ok hcap), if_neg hleader, if_neg (not_not_intro hpin),
    act_bind_ok _ _ _ _ _ hgrant, act_bind_ok _ _ _ _ _ hplace, hhome]
  rfl

theorem migBody_here (h : MigrateMay s b p t) (hc : servingCore p.pa = (who t).core) :
    migBody a b s = .ok ((), writeInt a 64 0 t) := by
  unfold migBody
  rw [act_bind_ok _ _ _ _ _ (checkMigration_ok h), act_get_bind]
  exact congrFun (if_pos hc) t

theorem migBody_full (h : MigrateMay s b p t) (hc : servingCore p.pa ≠ (who t).core)
    (hfull : lowestFree (coreOf t (servingCore p.pa)) = none) : migBody a b s = .ok ((), writeInt a 64 1 t) := by
  unfold migBody
  rw [act_bind_ok _ _ _ _ _ (checkMigration_ok h), act_get_bind]
  rw [if_neg hc, hfull]
  rfl

theorem migBody_moves {slot : Nat} (h : MigrateMay s b p t) (hc : servingCore p.pa ≠ (who t).core)
    (hfree : lowestFree (coreOf t (servingCore p.pa)) = some slot) :
    migBody a b s = .error (.done (moveTo ⟨servingCore p.pa, slot⟩ (advance 12 (writeInt a 64 0 t)))) := by
  unfold migBody
  rw [act_bind_ok _ _ _ _ _ (checkMigration_ok h), act_get_bind]
  rw [if_neg hc, hfree]
  rfl

theorem migRetBody_home {home : CtxId} (h : (me s).home = some home) :
    migRetBody a s = .error (.done (arriveIn (leaveSlot (advance 12 (writeInt a 64 0 s)) (who s))
      (me (advance 12 (writeInt a 64 0 s))) home none)) := by
  have hwho : who (advance 12 (writeInt a 64 0 s)) = who s := by rw [who_advance, who_writeInt]
  unfold migRetBody
  rw [act_get_bind, h]
  dsimp only
  rw [hwho]
  rfl

theorem migRetBody_stays (h : (me s).home = none) : migRetBody a s = .error (.trap ⟨causeMigration, 6, 0⟩) := by
  unfold migRetBody
  rw [act_get_bind, h]
  rfl

end

theorem migration : Claims.Migration := by
  intro a b s
  refine ⟨fun p t h => ⟨fun hc => ?_, fun hc hfull => ?_, fun slot hc hfree => ?_⟩, fun home h => ?_, fun h => ?_⟩
  · exact slow_ok 12 (migBody a b) s _ (migBody_here h hc)
  · exact slow_ok 12 (migBody a b) s _ (migBody_full h hc hfull)
  · exact slow_done 12 (migBody a b) s _ (migBody_moves h hc hfree)
  · exact slow_done 12 (migRetBody a) s _ (migRetBody_home h)
  · exact slow_trap 12 (migRetBody a) s _ (migRetBody_stays h)

/-- Settles O53: a send passes its checks and its waits, a migration its checks, and then each is one change of state. -/
theorem messagesAndMigration : Obligations.MessagesAndMigration := ⟨messageSends, migration⟩

end Sys2Proof.Machine
end

section
namespace Sys2Proof.Machine
open Sys2Proof.Claims

/-! ### Drawn instructions (R345, R347) -/

theorem setAt_eq {α : Type} (xs : List α) (i : Nat) (v : α) : setAt xs i v = xs.set i v := by
  induction xs generalizing i with
  | nil => rfl
  | cons x rest ih =>
    cases i with
    | zero => rfl
    | succ i => rw [setAt, ih]; rfl

theorem setQ_eq (x : Drawn) (i : Nat) (v : Int) : setQ x i v = { x with q := x.q.set i v } := by
  unfold setQ
  rw [setAt_eq]

theorem satQ_eq (x : Drawn) (i : Nat) (v : Int) : satQ x i v =
    { x with q := x.q.set i (max (-32768) (min 32767 v)), satf := x.satf || decide (v < -32768 ∨ 32767 < v) } := by
  unfold satQ
  rw [setQ_eq]
  dsimp only
  split
  case isTrue h => rw [decide_eq_true h, Bool.or_true]
  case isFalse h => rw [decide_eq_false h, Bool.or_false]

theorem remQ_eq (x : Drawn) (d : Nat) {b : Int} (h : b ≠ 0) : remQ x d b = { x with q := x.q.set d ((qAt x d).tmod b) } := by
  unfold remQ
  rw [if_neg h, setQ_eq, Int.tmod_def]

/-- Enough steps give every decimal digit. -/
theorem digitsOf_eq {fuel n : Nat} (h : n < 10 ^ fuel) (h0 : fuel ≠ 0) :
    digitsOf fuel n = if n = 0 then [0] else (Nat.digits 10 n).reverse := by
  induction fuel generalizing n with
  | zero => exact absurd rfl h0
  | succ fuel ih =>
    rw [digitsOf]
    split
    case isTrue hn =>
      split
      case isTrue hz => rw [hz]
      case isFalse hz => rw [Nat.digits_of_lt 10 n hz hn]; rfl
    case isFalse hn =>
      have hfuel : fuel ≠ 0 := by
        rintro rfl
        omega
      have hlt : n / 10 < 10 ^ fuel := Nat.div_lt_of_lt_mul (by rwa [← Nat.pow_succ'])
      rw [ih hlt hfuel, if_neg (by omega), if_neg (by omega), Nat.digits_def' (b := 10) (n := n) (by decide) (by omega), List.reverse_cons]

theorem scratchRefused_iff (c : Cap) (imm : Nat) :
    scratchRefused c imm = true ↔ capCheck c (capAddr c) 256 (permLD + permST) ≠ none ∨ 127 < imm := by
  unfold scratchRefused
  rw [Bool.or_eq_true, Option.isSome_iff_ne_none, decide_eq_true_eq]

theorem attempt_ok {α : Type} {m : Act α} {s t : State} {v : α} (h : m s = .ok (v, t)) : attempt m s = .ok (some v, t) := by
  unfold attempt
  rw [h]

theorem attempt_trap {α : Type} {m : Act α} {s : State} {e : Trap} (h : m s = .error (.trap e)) :
    attempt m s = .ok (none, s) := by
  unfold attempt
  rw [h]

section
variable {c : Cap} {held : List (Nat × BitVec 16)} {imm : Nat} {s t : State}

theorem scratchWord_written {i : Nat} {v : BitVec 16} (h : held.find? (·.1 == imm) = some (i, v)) :
    scratchWord c held imm s = .ok (v.toInt, s) := by
  unfold scratchWord
  rw [h]
  rfl

theorem scratchWord_read {bs : List Byte} (h : held.find? (·.1 == imm) = none)
    (hr : readRange (recordActor s c) (capAddr c + 2 * imm) 2 s = .ok (bs, t)) (hlt : natOfBytes bs < 2 ^ 16) :
    scratchWord c held imm s = .ok ((BitVec.ofNat 16 (natOfBytes bs)).toInt, t) := by
  unfold scratchWord
  rw [h]
  dsimp only
  rw [act_get_bind, act_bind_ok _ _ _ _ _ hr, signed_eq_toInt (by decide) hlt]
  rfl

theorem scratchWord_trap {e : Trap} (h : held.find? (·.1 == imm) = none)
    (hr : readRange (recordActor s c) (capAddr c + 2 * imm) 2 s = .error (.trap e)) :
    scratchWord c held imm s = .error (.trap e) := by
  unfold scratchWord
  rw [h]
  dsimp only
  rw [act_get_bind, act_bind_error _ _ _ _ hr]

end

section
variable {c : Cap} {m : List (BitVec 32)} {held : List (Nat × BitVec 16)} {x : Drawn} {qs : Nat} {s : State}

/-- A scratch access beyond the window or the permissions is an error. -/
theorem drawnEffect_refused (hop : x.opc = 11 ∨ x.opc = 12)
    (h : capCheck c (capAddr c) 256 (permLD + permST) ≠ none ∨ 127 < x.ival) :
    drawnEffect c m held x qs s = .ok (none, s) := by
  have hrefused := (scratchRefused_iff c x.ival).2 h
  unfold drawnEffect
  rcases hop with hop | hop
  · rw [hop]
    exact congrFun (if_pos hrefused) s
  · rw [hop]
    exact congrFun (if_pos hrefused) s

theorem drawnEffect_load (hop : x.opc = 11) (h : ¬ (capCheck c (capAddr c) 256 (permLD + permST) ≠ none ∨ 127 < x.ival)) :
    drawnEffect c m held x qs s =
      (do let v ← attempt (scratchWord c (x.scratch ++ held) x.ival); pure (v.map (setQ x x.qsel)) : Act _) s := by
  have hok := mt (scratchRefused_iff c x.ival).1 h
  unfold drawnEffect
  rw [hop]
  exact congrFun (if_neg hok) s

theorem drawnEffect_emit (hop : x.opc = 13) : drawnEffect c m held x qs s = .ok (emitQ m x x.qsel, s) := by
  unfold drawnEffect
  rw [hop]
  rfl

theorem drawnEffect_store (hop : x.opc = 12) (h : ¬ (capCheck c (capAddr c) 256 (permLD + permST) ≠ none ∨ 127 < x.ival)) :
    drawnEffect c m held x qs s =
      .ok (some { x with scratch := (x.ival, BitVec.ofInt 16 (qAt x x.qsel)) :: x.scratch }, s) := by
  have hok := mt (scratchRefused_iff c x.ival).1 h
  unfold drawnEffect
  rw [hop]
  exact congrFun (if_neg hok) s

end

/-- The roles of a number that is emitted. -/
theorem emitQ_some {m : List (BitVec 32)} {x : Drawn} {d : Nat} (hlo : -32768 ≤ qAt x d) (hhi : qAt x d ≤ 32767)
    (h : 0 ≤ qAt x d ∨ m.getD 28 0xFFFFFFFF ≠ 0xFFFFFFFF) {roles : List Nat}
    (hr : roles = (if qAt x d < 0 then [10] else []) ++
      if qAt x d = 0 then [0] else (Nat.digits 10 (qAt x d).natAbs).reverse) :
    emitQ m x d = some { x with count := roles.length, fq := (roles ++ List.replicate 6 0).take 6 } := by
  have hdigits : digitsOf 6 (qAt x d).natAbs = if qAt x d = 0 then [0] else (Nat.digits 10 (qAt x d).natAbs).reverse := by
    rw [digitsOf_eq (by omega) (by decide)]
    simp only [Int.natAbs_eq_zero]
  unfold emitQ
  rw [if_neg (by rintro ⟨hneg, hun⟩; exact h.elim (by omega) fun hne => hne hun), hdigits, ← hr]

theorem emitQ_none {m : List (BitVec 32)} {x : Drawn} {d : Nat} (hneg : qAt x d < 0)
    (h : m.getD 28 0xFFFFFFFF = 0xFFFFFFFF) : emitQ m x d = none := by
  unfold emitQ
  exact if_pos ⟨hneg, h⟩

theorem effect_of {c : Cap} {m : List (BitVec 32)} {held : List (Nat × BitVec 16)} {x y z : Drawn} {qs : Nat} {s t : State}
    (h : drawnEffect c m held x qs s = .ok (some y, t)) (hyz : y = z) :
    drawnEffect c m held x qs s = .ok (some z, t) := hyz ▸ h

theorem qAt_bounds {x : Drawn} (hlen : x.q.length = 8) (hq : ∀ v ∈ x.q, -32768 ≤ v ∧ v ≤ 32767) {i : Nat} (hi : i < 8) :
    -32768 ≤ qAt x i ∧ qAt x i ≤ 32767 := by
  unfold qAt
  rw [List.getD_eq_getElem _ _ (by omega)]
  exact hq _ (List.getElem_mem _)

/-- Settles O17: OPC picks the effect, and each effect is the rule's. -/
theorem drawnArithmetic : Obligations.DrawnArithmetic := by
  intro x c m held qs s hlen hsel hq a b clamped gets refused written
  obtain ⟨hlo, hhi⟩ := qAt_bounds hlen hq hsel
  refine ⟨fun h => ?_, fun h => ?_, fun h => ?_, fun h => ?_, fun h => ?_, fun h hb => ?_, fun h hb => ?_, fun h hb => ?_,
    fun h hb => ?_, fun h => ?_, fun h => ?_, fun h => ?_, fun h => ?_, fun h hr => drawnEffect_refused h hr,
    fun h hr => ⟨fun i v hw => ?_, fun hw => ⟨fun bs t hread hlt => ?_, fun e hread => ?_⟩⟩,
    fun h hr => drawnEffect_store h hr, fun h => ⟨fun hneg hun => ?_, fun hmay => ?_⟩, fun h => ?_, fun h => ?_⟩
  · exact effect_of (by unfold drawnEffect; rw [h]; rfl) (setQ_eq x x.qsel _)
  · exact effect_of (by unfold drawnEffect; rw [h]; rfl) (setQ_eq x x.qsel _)
  · exact effect_of (by unfold drawnEffect; rw [h]; rfl) (satQ_eq x x.qsel _)
  · exact effect_of (by unfold drawnEffect; rw [h]; rfl) (satQ_eq x x.qsel _)
  · exact effect_of (by unfold drawnEffect; rw [h]; rfl) (satQ_eq x x.qsel _)
  · exact effect_of (by unfold drawnEffect; rw [h]; rfl) ((if_neg hb).trans (satQ_eq x x.qsel _))
  · refine effect_of (y := divQ x x.qsel b) (by unfold drawnEffect; rw [h]; rfl) ((if_pos hb).trans ?_)
    rw [setQ_eq]
  · exact effect_of (by unfold drawnEffect; rw [h]; rfl) (remQ_eq x x.qsel hb)
  · refine effect_of (y := remQ x x.qsel b) (by unfold drawnEffect; rw [h]; rfl) ((if_pos hb).trans ?_)
    rw [setQ_eq]
  · exact effect_of (by unfold drawnEffect; rw [h]; rfl) (satQ_eq x x.qsel _)
  · exact effect_of (by unfold drawnEffect; rw [h]; rfl) (satQ_eq x x.qsel _)
  · exact effect_of (by unfold drawnEffect; rw [h]; rfl) (setQ_eq x x.qsel _)
  · exact effect_of (by unfold drawnEffect; rw [h]; rfl) (setQ_eq x x.qsel _)
  · exact effect_of ((drawnEffect_load h hr).trans (act_bind_ok _ _ _ _ _ (attempt_ok (scratchWord_written hw))))
      (setQ_eq x x.qsel _)
  · exact effect_of ((drawnEffect_load h hr).trans (act_bind_ok _ _ _ _ _ (attempt_ok (scratchWord_read hw hread hlt))))
      (setQ_eq x x.qsel _)
  · exact (drawnEffect_load h hr).trans (act_bind_ok _ _ _ _ _ (attempt_trap (scratchWord_trap hw hread)))
  · exact (drawnEffect_emit h).trans (by rw [emitQ_none hneg hun])
  · exact (drawnEffect_emit h).trans (by rw [emitQ_some hlo hhi hmay rfl])
  · exact effect_of (by unfold drawnEffect; rw [h]; rfl) (setQ_eq x x.qsel _)
  · unfold drawnEffect
    rw [h]
    rfl

end Sys2Proof.Machine
end

section
namespace Sys2Proof.Machine
open Sys2Proof.Claims

/-! ### Vocabulary maps and binding (R336, R337) -/

section
variable {a b c : Reg} {s t u : State}

theorem tokMapBody_ok {k : Nat} {bs : List Byte} (hcamp : isBasecamp (who s).core = false)
    (hcap : capCheck (reg s b) (capAddr (reg s b)) 128 permLD = none)
    (hr : readRange (regActor s b) (capAddr (reg s b)) 128 s = .ok (bs, t)) :
    tokMapBody a b k s = .ok ((), writeInt a 64 (mapStatus (mapFrom bs))
      (if mapStatus (mapFrom bs) = 0 then withMap k (mapFrom bs) t else t)) := by
  have hmap : (upFrom 0 32).map (fun i => BitVec.ofNat 32 (natOfBytes ((bs.drop (4 * i)).take 4))) = mapFrom bs := by
    rw [upFrom_eq_range]
    rfl
  unfold tokMapBody
  rw [act_get_bind, act_bind_ok _ _ _ _ _ (checked_ok hcap), act_bind_ok _ _ _ _ _ (needResident_ok hcamp),
    act_bind_ok _ _ _ _ _ hr]
  dsimp only
  rw [hmap]
  by_cases h : mapStatus (mapFrom bs) = 0
  · rw [if_pos h, if_pos h]
    rfl
  · rw [if_neg h, if_neg h]
    rfl

/-- The status of a binding, by what the key names. -/
def bindOutcome (s : State) (key : Key) (c : Reg) : Except Nat Rec → Act Nat
  | .error st => pure st
  | .ok r => if (r.draft || decBusy r.dec || fqCount r.fq != 0) = true then pure 7 else do
    writeRecord (myEngine s) (myDomain s) key.seq (boundRecord s c r)
    pure 0

theorem tokBindBody_ok {found : Except Nat Rec} {status : Nat} (hcamp : isBasecamp (who s).core = false) (hf : Found s b found t)
    (h : bindOutcome s (keyIn s b) c found t = .ok (status, u)) : tokBindBody a b c s = .ok ((), writeInt a 64 status u) := by
  obtain ⟨hkey, hadm⟩ := hf
  have hslot : field (reg64 s c).toNat 3 0 = (reg64 s c).toNat % 16 := by
    unfold field
    rw [Nat.pow_zero, Nat.div_one]
    rfl
  unfold tokBindBody
  rw [act_bind_ok _ _ _ _ _ (needResident_ok hcamp), act_bind_ok _ _ _ _ _ (sequenceKey_ok hkey), act_get_bind,
    act_bind_ok _ _ _ _ _ hadm]
  dsimp only
  rw [hslot]
  cases found with
  | error st => exact act_bind_ok _ _ _ _ _ h
  | ok r =>
    unfold bindOutcome at h
    dsimp only at h ⊢
    split at h
    case isTrue hs =>
      rw [if_pos hs]
      exact act_bind_ok _ _ _ _ _ h
    case isFalse hs =>
      rw [if_neg hs, ← bind_assoc]
      exact act_bind_ok _ _ _ _ _ h

theorem unsettled_iff (r : Rec) : (r.draft || decBusy r.dec || fqCount r.fq != 0) = true ↔ Unsettled r := by
  unfold Unsettled
  rw [Bool.or_eq_true, Bool.or_eq_true, bne_iff_ne, or_assoc]

end

theorem vocabularyMaps : Claims.VocabularyMaps := by
  intro a b c k s hcamp
  refine ⟨fun bs t hcap hr => ⟨fun h => ?_, fun h => ?_⟩, fun found t hf => ⟨fun st he => ?_, fun r he hun => ?_,
    fun r u he hset hw => ?_⟩⟩
  · have hbody := tokMapBody_ok (a := a) (k := k.val) hcamp hcap hr
    rw [if_pos h, h] at hbody
    exact slow_ok 12 (tokMapBody a b k.val) s _ hbody
  · have hbody := tokMapBody_ok (a := a) (k := k.val) hcamp hcap hr
    rw [if_neg h] at hbody
    exact slow_ok 12 (tokMapBody a b k.val) s _ hbody
  · subst he
    exact slow_ok 12 (tokBindBody a b c) s _ (tokBindBody_ok hcamp hf rfl)
  · subst he
    exact slow_ok 12 (tokBindBody a b c) s _
      (tokBindBody_ok hcamp hf (congrFun (if_pos ((unsettled_iff r).2 hun)) t))
  · subst he
    refine slow_ok 12 (tokBindBody a b c) s _
      (tokBindBody_ok hcamp hf ((congrFun (if_neg (mt (unsettled_iff r).1 hset)) t).trans ?_))
    exact act_bind_ok _ _ _ _ _ hw

/-! ### Steps, drafts and verification (R344 to R350) -/

section
variable {a b c : Reg} {s t u : State}

theorem wholeKey_ok (h : SequenceKey s b) : wholeKey (reg s b).bits.toNat s = .ok (keyIn s b, s) := by
  have hkey := sequenceKey_ok h
  unfold sequenceKey at hkey
  rwa [act_get_bind] at hkey

/-- A step on what the key names. -/
def stepOutcome (key : Key) (token : Nat) : Except Nat Rec → Act Nat
  | .error st => pure (st * 2 ^ 32)
  | .ok r => stepSequence key r token

theorem smpStepBody_ok {found : Except Nat Rec} {v : Nat} (hcamp : isBasecamp (who s).core = false) (hf : Found s b found t)
    (h : stepOutcome (keyIn s b) ((reg64 s c).toNat % 2 ^ 32) found t = .ok (v, u)) :
    smpStepBody a b c s = .ok ((), writeInt a 64 v u) := by
  obtain ⟨hkey, hadm⟩ := hf
  have htok : field (reg64 s c).toNat 31 0 = (reg64 s c).toNat % 2 ^ 32 := by
    unfold field
    rw [Nat.pow_zero, Nat.div_one]
  have hstep : stepKey (reg s b).bits.toNat ((reg64 s c).toNat % 2 ^ 32) s = .ok (v, u) := by
    unfold stepKey
    rw [act_bind_ok _ _ _ _ _ (wholeKey_ok hkey), act_bind_ok _ _ _ _ _ hadm]
    cases found with
    | error st => exact h
    | ok r => exact h
  unfold smpStepBody
  rw [act_bind_ok _ _ _ _ _ (needResident_ok hcamp), act_get_bind, htok]
  exact act_bind_ok _ _ _ _ _ hstep

/-- A sequence that is not bound to the core takes no step. -/
theorem stepSequence_elsewhere {key : Key} {r : Rec} {token : Nat} (h : r.bound = false ∨ r.root ≠ (who t).core) :
    stepSequence key r token t = .ok (4 * 2 ^ 32, t) := by
  have hnot : boundHere t r = false := by
    unfold boundHere
    rcases h with h | h
    · rw [h, Bool.false_and]
    · rw [beq_false_of_ne h, Bool.and_false]
  unfold stepSequence stepStatus
  rw [act_get_bind]
  dsimp only
  rw [hnot]
  rfl

/-- A verification of what the key names. -/
def verOutcome (key : Key) (word : Nat) : Except Nat Rec → Act Nat
  | .error st => pure st
  | .ok r => verifyDraft key r word

theorem smpVerBody_ok {found : Except Nat Rec} {status : Nat} (hcamp : isBasecamp (who s).core = false) (hf : Found s b found t)
    (h : verOutcome (keyIn s b) (reg64 s c).toNat found t = .ok (status, u)) :
    smpVerBody a b c s = .ok ((), writeInt a 64 status u) := by
  obtain ⟨hkey, hadm⟩ := hf
  unfold smpVerBody
  rw [act_bind_ok _ _ _ _ _ (needResident_ok hcamp), act_bind_ok _ _ _ _ _ (sequenceKey_ok hkey), act_get_bind,
    act_bind_ok _ _ _ _ _ hadm]
  cases found with
  | error st => exact act_bind_ok _ _ _ _ _ h
  | ok r => exact act_bind_ok _ _ _ _ _ h

/-- The status of a draft that opens, by what the key names. -/
def draftOutcome (s : State) (key : Key) (c : Reg) : Except Nat Rec → Act Nat
  | .error st => pure st
  | .ok r =>
    if (!boundHere s r) = true then pure 4
    else if r.draft = true then pure 7
    else if (capCheck (reg s c) (capAddr (reg s c)) (16 * r.nl * draftRow r) (permLD + permST)).isSome = true then pure 9
    else do
      writeRecord (myEngine s) (myDomain s) key.seq (draftedRecord s c r)
      modify fun s => setDraft s (myDomain s) ⟨key.seq, [], []⟩
      pure 0

theorem smpDraftBody_ok {found : Except Nat Rec} {status : Nat} (hcamp : isBasecamp (who s).core = false)
    (hview : isView (reg s c) = false) (hf : Found s b found t)
    (h : draftOutcome s (keyIn s b) c found t = .ok (status, u)) : smpDraftBody a b c s = .ok ((), writeInt a 64 status u) := by
  obtain ⟨hkey, hadm⟩ := hf
  unfold smpDraftBody
  rw [act_get_bind]
  dsimp only
  rw [hview, if_neg Bool.false_ne_true, act_bind_ok _ _ _ _ _ (needResident_ok hcamp),
    act_bind_ok _ _ _ _ _ (sequenceKey_ok hkey), act_bind_ok _ _ _ _ _ hadm]
  cases found with
  | error st => exact act_bind_ok _ _ _ _ _ h
  | ok r =>
    unfold draftOutcome at h
    dsimp only at h ⊢
    split at h
    case isTrue hs =>
      rw [if_pos hs]
      exact act_bind_ok _ _ _ _ _ h
    case isFalse hs =>
      rw [if_neg hs]
      split at h
      case isTrue hd =>
        rw [if_pos hd]
        exact act_bind_ok _ _ _ _ _ h
      case isFalse hd =>
        rw [if_neg hd]
        split at h
        case isTrue hc =>
          rw [if_pos hc]
          exact act_bind_ok _ _ _ _ _ h
        case isFalse hc =>
          obtain ⟨x, v, hw, h⟩ := act_bind_inv _ _ _ _ _ h
          unfold draftedRecord at hw
          rw [if_neg hc, act_bind_ok _ _ _ _ _ hw, ← bind_assoc]
          exact act_bind_ok _ _ _ _ _ h

end

theorem drawnSteps : Claims.DrawnSteps := by
  intro a b c s hcamp found t hf
  have step {v : Nat} {u : State} (h : stepOutcome (keyIn s b) ((reg64 s c).toNat % 2 ^ 32) found t = .ok (v, u)) :
      exec (.smpStep a b c) s = .next (answered 12 a v u) := slow_ok 12 (smpStepBody a b c) s _ (smpStepBody_ok hcamp hf h)
  have ver {v : Nat} {u : State} (h : verOutcome (keyIn s b) (reg64 s c).toNat found t = .ok (v, u)) :
      exec (.smpVer a b c) s = .next (answered 12 a v u) := slow_ok 12 (smpVerBody a b c) s _ (smpVerBody_ok hcamp hf h)
  have draft {v : Nat} {u : State} (hview : isView (reg s c) = false)
      (h : draftOutcome s (keyIn s b) c found t = .ok (v, u)) : exec (.smpDraft a b c) s = .next (answered 12 a v u) :=
    slow_ok 12 (smpDraftBody a b c) s _ (smpDraftBody_ok hcamp hview hf h)
  refine ⟨fun st he => ?_, fun r he => ?_⟩
  · subst he
    exact ⟨step rfl, ver rfl, fun hview => draft hview rfl⟩
  · subst he
    refine ⟨fun v u h => step h, fun h => step (stepSequence_elsewhere h), fun st u h => ver h, fun hview => ⟨fun hb => ?_,
      fun hb hd => ?_, fun hb hd ho => ?_, fun u hb hd ho hw => ?_⟩⟩
    · exact draft hview (congrFun (if_pos (by rw [hb]; rfl)) t)
    · exact draft hview ((congrFun (if_neg (by rw [hb]; decide)) t).trans (congrFun (if_pos hd) t))
    · exact draft hview ((congrFun (if_neg (by rw [hb]; decide)) t).trans ((congrFun (if_neg (by rw [hd]; decide)) t).trans
        (congrFun (if_pos (Option.isSome_iff_ne_none.2 ho)) t)))
    · refine draft hview ((congrFun (if_neg (by rw [hb]; decide)) t).trans ((congrFun (if_neg (by rw [hd]; decide)) t).trans
        ((congrFun (if_neg (fun h => Option.isSome_iff_ne_none.1 h ho)) t).trans ?_)))
      exact act_bind_ok _ _ _ _ _ hw

/-- Settles O55: what the key names decides each outcome, its status first. -/
theorem tokenUnit : Obligations.TokenUnit := ⟨vocabularyMaps, drawnSteps⟩

end Sys2Proof.Machine
end

section
namespace Sys2Proof.Machine
open Sys2Proof.Claims

/-! ### Shards (R459) -/

section
variable {s t u : State} {x : Desc} {n perm : Nat} {a b c d : Reg}

theorem checkElements_ok {ps : List Pos} (h : ElementsMay x perm ps) : checkElements x perm ps s = .ok ((), s) := by
  induction ps with
  | nil => rfl
  | cons p rest ih =>
    have hrest := ih fun q hq => h q (List.mem_cons_of_mem _ hq)
    rw [checkElements]
    split
    case isTrue hp =>
      exact (act_bind_ok _ _ _ _ _ (checked_ok (h p List.mem_cons_self hp))).trans hrest
    case isFalse => exact hrest

theorem needShard_ok (h : ShardMay s n perm x) : needShard n perm s = .ok (x, s) := by
  obtain ⟨⟨hd, hv⟩, hok, hel⟩ := h
  unfold needShard
  rw [act_bind_ok _ _ _ _ _ (needDesc_ok hd hv hok), act_bind_ok _ _ _ _ _ (checkElements_ok hel)]
  rfl

theorem shardIndices_eq (x : Desc) : upFrom 0 (x.size 0) = shardIndices x := upFrom_eq_range _

theorem tokenId_eq (s : State) (d : Reg) (i : Nat) : tokenId (shardBase s d) i = tokenOf s d i := by
  unfold tokenId shardBase tokenOf field
  rw [Nat.pow_zero, Nat.div_one]

/-! ### Temperature (R340) -/

theorem temperature_eq (s : State) (c : Reg) : f32 (field (reg64 s c).toNat 31 0) = f32Field s c 0 := by
  unfold field f32Field
  rw [reg64_toNat, Nat.pow_zero, Nat.div_one, Nat.div_one,
    Nat.mod_mod_of_dvd _ (Nat.pow_dvd_pow 2 (by decide))]

section
variable (hcamp : isBasecamp (who s).core = false) (hshard : ShardMay s n (permLD + permST) x)
include hcamp hshard

theorem smpTempBody_ok (hgood : goodTemperature (f32Field s c 0) = true)
    (h : eachLogit x (fun _ y => some (rne32 false ((f32 y).div (f32Field s c 0)))) (shardIndices x) s = .ok ((), u)) :
    smpTempBody a c n s = .ok ((), writeInt a 64 0 u) := by
  unfold smpTempBody
  rw [act_bind_ok _ _ _ _ _ (needShard_ok hshard), act_bind_ok _ _ _ _ _ (needResident_ok hcamp), act_get_bind]
  rw [temperature_eq, if_pos hgood, shardIndices_eq]
  exact act_bind_ok _ _ _ _ _ h

theorem smpTempBody_bad (hbad : goodTemperature (f32Field s c 0) = false) :
    smpTempBody a c n s = .ok ((), writeInt a 64 1 s) := by
  unfold smpTempBody
  rw [act_bind_ok _ _ _ _ _ (needShard_ok hshard), act_bind_ok _ _ _ _ _ (needResident_ok hcamp), act_get_bind]
  rw [temperature_eq, if_neg (Bool.eq_false_iff.1 hbad)]
  rfl

/-! ### Penalties and noise (R338, R339, R341) -/

/-- The status of a penalty, by what the key names. -/
def penOutcome (s : State) (b c d : Reg) (x : Desc) : Except Nat Rec → Act Nat
  | .error st => pure st
  | .ok r =>
    if ((f32Field s c 0).isNan || (f32Field s c 1).isNan || (f32Field s c 2).isNan || (f32Field s c 2).less .one) = true then
      pure 1
    else do
      match ← readCounters r.pen (heldCounts s r (keyIn s b).seq) ((shardIndices x).map (tokenOf s d)) with
      | none => pure 9
      | some ns => do
        eachLogit x (fun i y => if 0 < min (ns.getD i 0) 32767 then
            some (penalised (f32Field s c 0) (f32Field s c 1) (f32Field s c 2) (min (ns.getD i 0) 32767).toNat y)
          else none) (shardIndices x)
        pure 0

omit hcamp hshard in
theorem heldCounts_eq (r : Rec) (slot : Nat) :
    (if r.draft then heldCount (openDraft s slot) else fun _ => 0) = heldCounts s r slot := by
  unfold heldCounts
  split <;> rfl

theorem smpPenBody_ok {found : Except Nat Rec} {status : Nat} (hf : Found s b found t)
    (h : penOutcome s b c d x found t = .ok (status, u)) : smpPenBody a b c d n s = .ok ((), writeInt a 64 status u) := by
  obtain ⟨hkey, hadm⟩ := hf
  have h0 : f32 (field (reg s c).bits.toNat 31 0) = f32Field s c 0 := rfl
  have h1 : f32 (field (reg s c).bits.toNat 63 32) = f32Field s c 1 := rfl
  have h2 : f32 (field (reg s c).bits.toNat 95 64) = f32Field s c 2 := rfl
  unfold smpPenBody
  rw [act_bind_ok _ _ _ _ _ (needShard_ok hshard), act_bind_ok _ _ _ _ _ (needResident_ok hcamp),
    act_bind_ok _ _ _ _ _ (sequenceKey_ok hkey), act_get_bind, act_bind_ok _ _ _ _ _ hadm]
  cases found with
  | error st => exact act_bind_ok _ _ _ _ _ h
  | ok r =>
    unfold penOutcome at h
    dsimp only at h ⊢
    rw [h0, h1, h2, heldCounts_eq, shardIndices_eq, funext (tokenId_eq s d)]
    split at h
    case isTrue hs =>
      rw [if_pos hs]
      exact act_bind_ok _ _ _ _ _ h
    case isFalse hs =>
      obtain ⟨counts, v, hc, h⟩ := act_bind_inv _ _ _ _ _ h
      rw [if_neg hs, act_bind_ok _ _ _ _ _ hc]
      cases counts with
      | none => exact act_bind_ok _ _ _ _ _ h
      | some ns =>
        dsimp only at h ⊢
        obtain ⟨_, w, he, h⟩ := act_bind_inv _ _ _ _ _ h
        unfold heldAt
        rw [act_bind_ok _ _ _ _ _ he]
        exact act_bind_ok _ _ _ _ _ h

/-- The status of noise, by what the key names. -/
def gumOutcome (s : State) (d : Reg) (x : Desc) : Except Nat Rec → Act Nat
  | .error st => pure st
  | .ok r => do
    eachLogit x (fun i y => some (noisy (BitVec.ofNat 64 r.seed) (sigmaOf r) (tokenOf s d i) y)) (shardIndices x)
    pure 0

theorem smpGumBody_ok {found : Except Nat Rec} {status : Nat} (hf : Found s b found t)
    (h : gumOutcome s d x found t = .ok (status, u)) : smpGumBody a b d n s = .ok ((), writeInt a 64 status u) := by
  obtain ⟨hkey, hadm⟩ := hf
  unfold smpGumBody
  rw [act_bind_ok _ _ _ _ _ (needShard_ok hshard), act_bind_ok _ _ _ _ _ (needResident_ok hcamp),
    act_bind_ok _ _ _ _ _ (sequenceKey_ok hkey), act_get_bind, act_bind_ok _ _ _ _ _ hadm]
  cases found with
  | error st => exact act_bind_ok _ _ _ _ _ h
  | ok r =>
    unfold gumOutcome at h
    dsimp only at h ⊢
    simp only [tokenId_eq, shardIndices_eq]
    obtain ⟨_, w, he, h⟩ := act_bind_inv _ _ _ _ _ h
    rw [act_bind_ok _ _ _ _ _ he]
    exact act_bind_ok _ _ _ _ _ h

end

theorem badPenalty_iff : ((f32Field s c 0).isNan || (f32Field s c 1).isNan || (f32Field s c 2).isNan ||
    (f32Field s c 2).less .one) = true ↔ BadPenalty s c := by
  unfold BadPenalty
  rw [Bool.or_eq_true, Bool.or_eq_true, Bool.or_eq_true, or_assoc, or_assoc]

end

/-- Settles O16: a shard that may be used, then the parameters, then what the key names decides. -/
theorem samplerShards : Obligations.SamplerShards := by
  intro a b c d n s x hcamp hshard
  have pen {found : Except Nat Rec} {v : Nat} {t u : State} (hf : Found s b found t)
      (h : penOutcome s b c d x found t = .ok (v, u)) : exec (.smpPen a b c d n) s = .next (answered 12 a v u) :=
    slow_ok 12 (smpPenBody a b c d n.val) s _ (smpPenBody_ok hcamp hshard hf h)
  have gum {found : Except Nat Rec} {v : Nat} {t u : State} (hf : Found s b found t)
      (h : gumOutcome s d x found t = .ok (v, u)) : exec (.smpGum a b d n) s = .next (answered 12 a v u) :=
    slow_ok 12 (smpGumBody a b d n.val) s _ (smpGumBody_ok hcamp hshard hf h)
  refine ⟨fun u hgood h => ?_, fun hbad => ?_, fun found t hf => ⟨fun st he => ?_, fun r he hbad => ?_,
    fun r counts v he hgood hc => ⟨fun hn => ?_, fun ns u hn h => ?_⟩, fun r u he h => ?_⟩⟩
  · exact slow_ok 12 (smpTempBody a c n.val) s _ (smpTempBody_ok hcamp hshard hgood h)
  · exact slow_ok 12 (smpTempBody a c n.val) s _ (smpTempBody_bad hcamp hshard hbad)
  · subst he
    exact ⟨pen hf rfl, gum hf rfl⟩
  · subst he
    exact pen hf (congrFun (if_pos (badPenalty_iff.2 hbad)) t)
  · subst he hn
    exact pen hf ((congrFun (if_neg (mt badPenalty_iff.1 hgood)) t).trans (act_bind_ok _ _ _ _ _ hc))
  · subst he hn
    exact pen hf ((congrFun (if_neg (mt badPenalty_iff.1 hgood)) t).trans
      ((act_bind_ok _ _ _ _ _ hc).trans (act_bind_ok _ _ _ _ _ h)))
  · subst he
    exact gum hf (act_bind_ok _ _ _ _ _ h)

/-! ### Arrivals at collectives (R316, R333, R342, R343) -/

theorem collectiveArrivals : Claims.CollectiveArrivals := by
  intro a b c d n op fmt sc s harr
  have hcheck := checkArrival_ok harr
  refine ⟨?_, ?_, fun x hcamp hshard => ⟨?_, fun hkey => ?_⟩⟩
  · exact finish_hold (sumRedBody a b op fmt sc) s _ (act_bind_ok _ _ _ _ _ hcheck)
  · exact finish_hold (sumBcBody a b sc) s _ (act_bind_ok _ _ _ _ _ hcheck)
  · refine finish_hold (smpTopBody a d n.val sc) s _ ?_
    unfold smpTopBody
    rw [act_bind_ok _ _ _ _ _ hcheck, act_bind_ok _ _ _ _ _ (needShard_ok hshard),
      act_bind_ok _ _ _ _ _ (needResident_ok hcamp)]
    rfl
  · refine finish_hold (smpToppBody a b c d n.val sc) s _ ?_
    unfold smpToppBody
    rw [act_bind_ok _ _ _ _ _ hcheck, act_bind_ok _ _ _ _ _ (needShard_ok hshard),
      act_bind_ok _ _ _ _ _ (needResident_ok hcamp), act_bind_ok _ _ _ _ _ (sequenceKey_ok hkey)]
    rfl

end Sys2Proof.Machine
end

section
namespace Sys2Proof.Machine
open Sys2Proof.Claims

/-! ### The order of logits (R342) -/

theorem f32_mod (x : Nat) : f32 (x % 2 ^ 32) = f32 x := by
  show binary32.value (x % 2 ^ 32) = binary32.value x
  unfold FloatFmt.value
  rw [show binary32.width = 32 from rfl, Nat.mod_mod]

theorem logitKey_number {x : Nat} (h : x % 2 ^ 31 ≤ 0x7F800000) :
    logitKey x = if x / 2 ^ 31 % 2 = 0 then ((x % 2 ^ 31 : Nat) : Int) else -((x % 2 ^ 31 : Nat) : Int) := if_neg (by omega)

/-- What the bits of a logit stand for, by its rank. -/
theorem logit_cases (x : Nat) :
    (f32 x = .nan ∧ logitKey x = -(2 ^ 31 : Nat)) ∨
    ((f32 x).isNan = false ∧ logitKey x = sortKey .f32 (x % 2 ^ 32) ∧ -(2 ^ 31 : Int) < logitKey x) := by
  have hmag : x % 2 ^ 32 % 2 ^ 31 = x % 2 ^ 31 := by omega
  have hsign : x % 2 ^ 32 / 2 ^ 31 = x / 2 ^ 31 % 2 := by omega
  have hkey (h : x % 2 ^ 31 ≤ 0x7F800000) : logitKey x = sortKey .f32 (x % 2 ^ 32) ∧ -(2 ^ 31 : Int) < logitKey x := by
    have hs := sortKey_number (x := x % 2 ^ 32) (by omega) (by omega)
    rw [hmag, hsign] at hs
    rw [hs, logitKey_number h]
    rcases Nat.mod_two_eq_zero_or_one (x / 2 ^ 31) with h2 | h2 <;> rw [h2] <;> simp <;> omega
  rcases f32_cases (x := x % 2 ^ 32) (by omega) with ⟨hp, m, e, -, hval, -⟩ | ⟨hp, hval⟩ | ⟨hp, hval⟩
  · exact Or.inr ⟨by rw [← f32_mod, f32, hval]; rfl, hkey (by omega)⟩
  · exact Or.inr ⟨by rw [← f32_mod, f32, hval]; rfl, hkey (by omega)⟩
  · exact Or.inl ⟨by rw [← f32_mod, f32, hval], if_pos (by omega)⟩

/-- Two logits that are numbers compare as their ranks. -/
theorem less_logits {x y : Nat} (hx : (f32 x).isNan = false) (hy : (f32 y).isNan = false) :
    (f32 x).less (f32 y) = true ↔ logitKey x < logitKey y := by
  rcases logit_cases x with ⟨hn, -⟩ | ⟨-, hkx, -⟩
  · rw [hn] at hx
    exact absurd hx (by decide)
  rcases logit_cases y with ⟨hn, -⟩ | ⟨-, hky, -⟩
  · rw [hn] at hy
    exact absurd hy (by decide)
  rw [hkx, hky, ← keyLess_f32 (by omega) (by omega)]
  unfold keyLess
  rw [show valueOf .f32 (x % 2 ^ 32) = f32 x from f32_mod x, show valueOf .f32 (y % 2 ^ 32) = f32 y from f32_mod y, hy]
  rfl

theorem beatenBy_iff (d e : Logit) :
    beatenBy d e = true ↔ logitKey d.2 < logitKey e.2 ∨ (logitKey d.2 = logitKey e.2 ∧ e.1 < d.1) := by
  unfold beatenBy
  dsimp only
  rcases logit_cases d.2 with ⟨hd, hkd⟩ | ⟨hd, -, hkd⟩ <;> rcases logit_cases e.2 with ⟨he, hke⟩ | ⟨he, -, hke⟩
  · rw [hd, he, hkd, hke]
    simp [Number.isNan]
  · rw [hd, he, hkd]
    simp [Number.isNan]
    omega
  · rw [hd, he, hke]
    simp [Number.isNan]
    omega
  · have hde := less_logits hd he
    have hed := less_logits he hd
    simp only [hd, he, Bool.and_self, Bool.false_eq_true, if_false]
    split
    case isTrue h => simp [hde.1 h]
    case isFalse h =>
      have hnot : ¬ logitKey d.2 < logitKey e.2 := fun h' => h (hde.2 h')
      rw [Bool.and_eq_true, Bool.not_eq_true', decide_eq_true_iff, Bool.eq_false_iff, ne_eq, hed]
      omega

/-- `e` is not beaten by any of `xs`. -/
def Unbeaten (xs : List Logit) (e : Logit) : Prop :=
  e ∈ xs ∧ ∀ d ∈ xs, logitKey d.2 < logitKey e.2 ∨ (logitKey d.2 = logitKey e.2 ∧ e.1 ≤ d.1)

theorem bestOf_unbeaten {xs : List Logit} (h : xs ≠ []) :
    ∃ e, bestOf (fun y x => beatenBy x y) xs = some e ∧ Unbeaten xs e := by
  induction xs with
  | nil => exact absurd rfl h
  | cons x rest ih =>
    rw [bestOf]
    by_cases hr : rest = []
    · subst hr
      refine ⟨x, rfl, List.mem_cons_self, fun d hd => ?_⟩
      rw [List.mem_singleton.1 hd]
      exact Or.inr ⟨rfl, Nat.le_refl _⟩
    · obtain ⟨y, hy, hmem, hbest⟩ := ih hr
      have hbeat := beatenBy_iff x y
      rw [hy]
      dsimp only
      split
      case isTrue hb =>
        refine ⟨y, rfl, List.mem_cons_of_mem _ hmem, fun d hd => ?_⟩
        rcases List.mem_cons.1 hd with rfl | hd
        · have := hbeat.1 hb
          omega
        · exact hbest d hd
      case isFalse hb =>
        have hnot := mt hbeat.2 hb
        refine ⟨x, rfl, List.mem_cons_self, fun d hd => ?_⟩
        rcases List.mem_cons.1 hd with rfl | hd
        · exact Or.inr ⟨rfl, Nat.le_refl _⟩
        · have := hbest d hd
          omega

theorem winner_of_wins {xs : List Logit} {v : Nat} (h : Wins xs v) : winner xs = v := by
  obtain ⟨x, hmem, hwin⟩ := h
  obtain ⟨e, he, hemem, hbest⟩ := bestOf_unbeaten (List.ne_nil_of_mem hmem)
  have h1 := hwin e hemem
  have h2 := hbest (v, x) hmem
  unfold winner
  rw [he]
  show e.1 = v
  dsimp only at h2
  omega

/-! ### Inserting one by one -/

section
variable {α : Type} {ins : α → List α → List α}

theorem foldl_insert_perm (h : ∀ a l, (ins a l).Perm (a :: l)) (xs acc : List α) :
    (xs.foldl (fun l a => ins a l) acc).Perm (xs ++ acc) := by
  induction xs generalizing acc with
  | nil => exact List.Perm.refl _
  | cons x xs ih => exact (ih _).trans (((h x acc).append_left xs).trans List.perm_middle)

theorem foldl_insert_pairwise {R : α → α → Prop} (h : ∀ a l, l.Pairwise R → (ins a l).Pairwise R) (xs : List α)
    {acc : List α} (hacc : acc.Pairwise R) : (xs.foldl (fun l a => ins a l) acc).Pairwise R :=
  foldl_keeps (fun l => l.Pairwise R) _ _ _ hacc fun l a hl => h a l hl

end

/-! ### Members by rank (R333) -/

theorem insertRank_perm (a : Ranked) (rs : List Ranked) : (insertRank a rs).Perm (a :: rs) := by
  induction rs with
  | nil => exact List.Perm.refl _
  | cons b rest ih =>
    rw [insertRank]
    split
    · exact List.Perm.refl _
    · exact (ih.cons b).trans (List.Perm.swap a b rest)

theorem rankBefore_iff (a b : Ranked) :
    rankBefore a b = true ↔ a.package < b.package ∨ (a.package = b.package ∧ a.ordinal < b.ordinal) := by
  simp [rankBefore]

theorem insertRank_byRank (a : Ranked) (rs : List Ranked) (h : ByRank rs) : ByRank (insertRank a rs) := by
  induction rs with
  | nil => exact List.pairwise_singleton _ _
  | cons b rest ih =>
    obtain ⟨hb, hrest⟩ := List.pairwise_cons.1 h
    rw [insertRank]
    split
    case isTrue hab =>
      have hab := (rankBefore_iff a b).1 hab
      refine List.pairwise_cons.2 ⟨fun r hr => ?_, h⟩
      rcases List.mem_cons.1 hr with rfl | hr
      · omega
      · have := hb r hr
        omega
    case isFalse hab =>
      have hab := mt (rankBefore_iff a b).2 hab
      refine List.pairwise_cons.2 ⟨fun r hr => ?_, ih hrest⟩
      rcases List.mem_cons.1 ((insertRank_perm a rest).mem_iff.1 hr) with rfl | hr
      · omega
      · exact hb r hr

theorem ranked_byRank (s : State) (ps : List Present) (remote : List RemoteMember) : ByRank (ranked s ps remote) :=
  foldl_insert_pairwise insertRank_byRank _ List.Pairwise.nil

theorem length_ranked (s : State) (ps : List Present) (remote : List RemoteMember) :
    (ranked s ps remote).length = ps.length + remote.length := by
  unfold ranked
  rw [(foldl_insert_perm insertRank_perm _ []).length_eq]
  simp

/-! ### Instances that complete (R11, R333, R342, R343) -/

theorem allPresent_of_arrived {s : State} {sc : Scope} {ps : List Present} (h : ∀ p ∈ ps, Arrived s sc p.member p.joined) :
    allPresent s sc (ps.map (·.member)) = some ps := by
  induction ps with
  | nil => rfl
  | cons p rest ih =>
    obtain ⟨hw, hsc⟩ := h p List.mem_cons_self
    have hp : arrivedWith sc (ctxOf s p.member.id) = some p.joined := by
      unfold arrivedWith
      rw [hw]
      exact if_pos hsc
    rw [List.map_cons, allPresent, hp, ih fun q hq => h q (List.mem_cons_of_mem _ hq)]

theorem barrierComplete_full {s : State} {t : Team} {sc : Scope} {extent : Nat} {ps : List Present} {remote : List RemoteMember}
    (h : InstanceFull s t sc extent ps remote) :
    exec (.barrierComplete t.uid sc extent remote) s = completeInstance ps remote s := by
  obtain ⟨hteam, hres, hmem, hne, harr, hremote⟩ := h
  have hteams : instanceTeams s t.uid sc = teamsAt s t sc := by
    unfold instanceTeams
    rw [hteam]
    rfl
  have hsaved : (teamsAt s t sc).any (savedLeader · sc extent) = false :=
    List.any_eq_false.2 fun u hu => Bool.eq_false_iff.1 (hres u hu).2
  have haway : (teamsAt s t sc).any (!·.resident) = false :=
    List.any_eq_false.2 fun u hu => by rw [(hres u hu).1]; decide
  have hfar : (sc != .pod && !remote.isEmpty) = false := by
    by_cases hsc : sc = .pod
    · rw [hsc]; rfl
    · rw [hremote hsc]; simp
  have hsome : (ps.map (·.member)).isEmpty = false := by cases ps with
    | nil => exact absurd rfl hne
    | cons => rfl
  show execBarrierComplete t.uid sc extent remote s = _
  unfold execBarrierComplete
  rw [hteams]
  dsimp only
  rw [hmem, hsaved, haway, hfar, hsome, allPresent_of_arrived harr]
  rfl

theorem agree_iff (ks : List CollKind) : agree ks = true ↔ ∀ k ∈ ks, ∀ k' ∈ ks, k = k' := by
  cases ks with
  | nil => simp [agree]
  | cons k rest =>
    rw [agree, List.all_eq_true]
    constructor
    · intro h
      have hk : ∀ a ∈ k :: rest, a = k := fun a ha => (List.mem_cons.1 ha).elim id fun ha => eq_of_beq (h a ha)
      exact fun a ha b hb => (hk a ha).trans (hk b hb).symm
    · exact fun h a ha => beq_iff_eq.2 (h a (List.mem_cons_of_mem _ ha) k List.mem_cons_self)

/-- A collective whose members arrived with one kind completes as that kind does. -/
theorem completeInstance_allOf {k : CollKind} {ps : List Present} {remote : List RemoteMember} {first : Ranked}
    {rest : List Ranked} {s : State} (h : AllOf k ps remote) (hne : ps ≠ []) (hr : ranked s ps remote = first :: rest) :
    completeInstance ps remote s = match (generalizing := false) k with
      | .bar => .next (releaseAll 0 ps s)
      | .red op fmt => .next (releaseAll (reduceAll op fmt ((ranked s ps remote).map fun r => r.operand.toNat % 2 ^ 64)) ps s)
      | .bc => .next (releaseAll first.operand.toNat ps s)
      | .top => sampleAll ps remote winner s
      | .topp => nucleusAll ps remote first s := by
  obtain ⟨hps, hremote⟩ := h
  have hall : ∀ a ∈ ps.map (fun p => joinedKind p.joined) ++ remote.map (·.kind), a = k := fun a ha =>
    (List.mem_append.1 ha).elim (fun ha => by obtain ⟨p, hp, rfl⟩ := List.mem_map.1 ha; exact hps p hp)
      fun ha => by obtain ⟨m, hm, rfl⟩ := List.mem_map.1 ha; exact hremote m hm
  have hagree := (agree_iff _).2 fun a ha b hb => (hall a ha).trans (hall b hb).symm
  unfold completeInstance
  rw [hr, hagree]
  cases ps with
  | nil => exact absurd rfl hne
  | cons p ps =>
    dsimp only
    rw [hps p List.mem_cons_self]
    cases k <;> rfl

theorem sampleAll_ok {ps : List Present} {remote : List RemoteMember} {result : List Logit → Nat} {s u : State}
    {xs : List Logit} (h : gatherLogits ps s = .ok (xs, u)) :
    sampleAll ps remote result s = .next (releaseAll (result (xs ++ remoteLogits remote)) ps u) := by
  unfold sampleAll
  rw [h]

theorem nucleusAll_here {ps : List Present} {remote : List RemoteMember} {first : Ranked} {s : State} {q : Present} {b : Reg}
    (hq : first.present = some q) (hb : drawKeyOf q.joined = some b) :
    nucleusAll ps remote first s = match memberDraw q.member b s with
      | .error e => memberStops s q.member.id e
      | .ok (none, t) => .next (releaseAll allOnes ps t)
      | .ok (some g, t) => sampleAll ps remote (nucleus (f32 (field first.operand.toNat 31 0)) g) t := by
  unfold nucleusAll
  dsimp only
  rw [hq]
  dsimp only
  cases hj : q.joined with
  | topp a b' c d n sc =>
    rw [hj] at hb
    obtain rfl := Option.some.inj hb
    rfl
  | _ => rw [hj] at hb; exact absurd hb (by simp [drawKeyOf])

theorem field_word (x : Nat) : field x 31 0 = x % 2 ^ 32 := by
  unfold field
  rw [Nat.pow_zero, Nat.div_one]

theorem barrierCompletes : Claims.BarrierCompletes := by
  intro s t sc extent ps remote hfull
  have hstep := barrierComplete_full hfull
  obtain ⟨-, -, -, hne, -, -⟩ := hfull
  have hlen := length_ranked s ps remote
  obtain ⟨first, rest, hr⟩ : ∃ first rest, ranked s ps remote = first :: rest :=
    List.exists_cons_of_ne_nil (List.length_pos_iff.1 (by have := List.length_pos_iff.2 hne; omega))
  dsimp only
  rw [hstep]
  refine ⟨ranked_byRank s ps remote, hlen, fun h => completeInstance_allOf h hne hr,
    fun op fmt h => completeInstance_allOf h hne hr, fun f l h hf => completeInstance_allOf h hne hf,
    fun xs u v h hx hw => ?_, fun f l h hf => ?_, fun ⟨k, hk, k', hk', hkk⟩ => ?_⟩
  · rw [completeInstance_allOf h hne hr]
    exact (sampleAll_ok hx).trans (by rw [winner_of_wins hw])
  · rw [completeInstance_allOf h hne hf, ← field_word]
    refine ⟨fun hnone => ⟨fun hd => ?_, fun g xs u hg hx => ?_⟩, fun q b hq hb => ⟨fun u hu => ?_, fun g xs u w hg hx => ?_⟩⟩
    · show nucleusAll ps remote f s = _
      unfold nucleusAll
      rw [hnone, hd]
      rfl
    · show nucleusAll ps remote f s = _
      unfold nucleusAll
      rw [hnone, hg]
      exact sampleAll_ok hx
    · show nucleusAll ps remote f s = _
      rw [nucleusAll_here hq hb, hu]
      rfl
    · show nucleusAll ps remote f s = _
      rw [nucleusAll_here hq hb, hg]
      exact sampleAll_ok hx
  · have hagree : agree (ps.map (fun p => joinedKind p.joined) ++ remote.map (·.kind)) = false :=
      Bool.eq_false_iff.2 fun h => hkk ((agree_iff _).1 h k (List.mem_append_left _ hk) k' hk')
    unfold completeInstance
    rw [hagree]
    rfl

/-! ### The nucleus draw (R343) -/

theorem inf_less_iff (v : Number) : (Number.inf true).less v = true ↔ v.isNan = false ∧ v ≠ .inf true := by
  cases v with
  | nan => simp [Number.less, Number.compare, Number.isNan]
  | inf s => cases s <;> simp [Number.less, Number.compare, Number.isNan]
  | fin s m e => simp [Number.less, Number.compare, Number.isNan]

theorem logitKey_infinite {x : Nat} (h : f32 x = .inf true) : logitKey x = -(0x7F800000 : Nat) := by
  rcases f32_cases (x := x % 2 ^ 32) (by omega) with ⟨-, m, e, -, hval, -⟩ | ⟨hp, hval⟩ | ⟨-, hval⟩
  · exact absurd ((f32_mod x).trans h) (by rw [f32, hval]; exact Number.noConfusion)
  · have hneg := (f32_mod x).trans h
    rw [f32, hval, Number.inf.injEq, beq_iff_eq] at hneg
    unfold logitKey
    rw [if_neg (by omega), if_neg (by omega)]
    omega
  · exact absurd ((f32_mod x).trans h) (by rw [f32, hval]; exact Number.noConfusion)

theorem le_logitKey {x : Nat} (hn : (f32 x).isNan = false) : -(0x7F800000 : Int) ≤ logitKey x := by
  have : x % 2 ^ 31 ≤ 0x7F800000 := by
    by_contra hlt
    rcases logit_cases x with ⟨hnan, -⟩ | ⟨-, -, hkey⟩
    · rw [hnan] at hn
      exact absurd hn (by decide)
    · unfold logitKey at hkey
      rw [if_pos (by omega)] at hkey
      omega
  rw [logitKey_number this]
  split <;> omega

/-- The number that the fold over the logits stands at: −infinity while it has met no greater number, else the greatest
one, at a logit of it. -/
def GreatestOf (xs : List Logit) (m : Number) : Prop :=
  (m = .inf true ∧ ∀ e ∈ xs, (f32 e.2).isNan = true ∨ f32 e.2 = .inf true) ∨
  ∃ top ∈ xs, m = f32 top.2 ∧ (f32 top.2).isNan = false ∧ f32 top.2 ≠ .inf true ∧ ∀ e ∈ xs, logitKey e.2 ≤ logitKey top.2

theorem greatestOf_snoc {xs : List Logit} {m : Number} (x : Logit) (h : GreatestOf xs m) :
    GreatestOf (xs ++ [x]) (if m.less (f32 x.2) then f32 x.2 else m) := by
  have hall {P : Logit → Prop} (hxs : ∀ e ∈ xs, P e) (hx : P x) : ∀ e ∈ xs ++ [x], P e := fun e he =>
    (List.mem_append.1 he).elim (hxs e) fun he => List.mem_singleton.1 he ▸ hx
  have hlow {e : Logit} (he : (f32 e.2).isNan = true ∨ f32 e.2 = .inf true) : logitKey e.2 ≤ -(0x7F800000 : Int) := by
    rcases logit_cases e.2 with ⟨-, hk⟩ | ⟨hn, -, -⟩
    · omega
    · rcases he with he | he
      · rw [he] at hn; exact absurd hn (by decide)
      · exact (logitKey_infinite he).le
  rcases h with ⟨rfl, hnone⟩ | ⟨top, htop, rfl, hnan, hinf, hmax⟩
  · have hless := inf_less_iff (f32 x.2)
    split
    case isTrue hl =>
      obtain ⟨hn, hi⟩ := hless.1 hl
      have hx := le_logitKey hn
      exact Or.inr ⟨x, List.mem_append_right _ List.mem_cons_self, rfl, hn, hi,
        hall (fun e he => (hlow (hnone e he)).trans hx) (Int.le_refl _)⟩
    case isFalse hl =>
      refine Or.inl ⟨rfl, hall hnone ?_⟩
      by_contra hx
      obtain ⟨h1, h2⟩ := not_or.1 hx
      exact hl (hless.2 ⟨Bool.eq_false_iff.2 h1, h2⟩)
  · rcases logit_cases x.2 with ⟨hx, hkx⟩ | ⟨hx, -, -⟩
    · have hl : (f32 top.2).less (f32 x.2) = false := by
        rw [hx]
        cases f32 top.2 <;> rfl
      rw [hl, if_neg Bool.false_ne_true]
      have hk := le_logitKey hnan
      exact Or.inr ⟨top, List.mem_append_left _ htop, rfl, hnan, hinf, hall hmax (by omega)⟩
    · have hless := less_logits hnan hx
      split
      case isTrue hl =>
        have hk := hless.1 hl
        refine Or.inr ⟨x, List.mem_append_right _ List.mem_cons_self, rfl, hx, fun hi => ?_,
          hall (fun e he => (hmax e he).trans hk.le) (Int.le_refl _)⟩
        have := logitKey_infinite hi
        have := le_logitKey hnan
        omega
      case isFalse hl =>
        exact Or.inr ⟨top, List.mem_append_left _ htop, rfl, hnan, hinf, hall hmax (Int.not_lt.1 (mt hless.2 hl))⟩

theorem greatestLogit_greatest (xs : List Logit) : GreatestOf xs (greatestLogit xs) := by
  unfold greatestLogit
  induction xs using List.reverseRecOn with
  | nil => exact Or.inl ⟨rfl, fun e he => absurd he List.not_mem_nil⟩
  | append_singleton xs x ih =>
    rw [List.foldl_append]
    exact greatestOf_snoc x ih

theorem leastOf_least {xs : List Nat} (h : xs ≠ []) : ∃ v ∈ xs, leastOf xs = some v ∧ ∀ x ∈ xs, v ≤ x := by
  induction xs with
  | nil => exact absurd rfl h
  | cons x rest ih =>
    rw [leastOf]
    by_cases hr : rest = []
    · subst hr
      exact ⟨x, List.mem_cons_self, rfl, fun y hy => (List.mem_singleton.1 hy).ge⟩
    · obtain ⟨y, hy, hleast, hall⟩ := ih hr
      rw [hleast]
      refine ⟨min x y, ?_, rfl, fun z hz => ?_⟩
      · rcases min_choice x y with hm | hm <;> rw [hm]
        · exact List.mem_cons_self
        · exact List.mem_cons_of_mem _ hy
      · rcases List.mem_cons.1 hz with rfl | hz
        · exact min_le_left _ _
        · exact (min_le_right _ _).trans (hall z hz)

theorem insertWeight_perm (x : Logit) (xs : List Logit) : (insertWeight x xs).Perm (x :: xs) := by
  induction xs with
  | nil => exact List.Perm.refl _
  | cons y rest ih =>
    rw [insertWeight]
    split
    · exact List.Perm.refl _
    · exact (ih.cons y).trans (List.Perm.swap x y rest)

/-- By weight descending, ties to the lower identifier. -/
def HeavierFirst (a b : Logit) : Prop := b.2 < a.2 ∨ (a.2 = b.2 ∧ a.1 ≤ b.1)

theorem insertWeight_pairwise (x : Logit) (xs : List Logit) (h : xs.Pairwise HeavierFirst) :
    (insertWeight x xs).Pairwise HeavierFirst := by
  induction xs with
  | nil => exact List.pairwise_singleton _ _
  | cons y rest ih =>
    obtain ⟨hy, hrest⟩ := List.pairwise_cons.1 h
    rw [insertWeight]
    split
    case isTrue hxy =>
      refine List.pairwise_cons.2 ⟨fun z hz => ?_, h⟩
      rcases List.mem_cons.1 hz with rfl | hz
      · unfold HeavierFirst
        omega
      · have := hy z hz
        unfold HeavierFirst at *
        omega
    case isFalse hxy =>
      refine List.pairwise_cons.2 ⟨fun z hz => ?_, ih hrest⟩
      rcases List.mem_cons.1 ((insertWeight_perm x rest).mem_iff.1 hz) with rfl | hz
      · unfold HeavierFirst
        omega
      · exact hy z hz

theorem length_runningSums (c : Nat) (xs : List Logit) : (runningSums c xs).length = xs.length := by
  induction xs generalizing c with
  | nil => rfl
  | cons x rest ih => rw [runningSums]; exact congrArg (· + 1) (ih _)

theorem runningSums_getD (c : Nat) (xs : List Logit) {k : Nat} (hk : k < xs.length) :
    (runningSums c xs).getD k 0 =
      rne32 false ((f32 (if k = 0 then c else (runningSums c xs).getD (k - 1) 0)).add false (f32 (xs.getD k (0, 0)).2)) := by
  induction xs generalizing c k with
  | nil => exact absurd hk (Nat.not_lt_zero _)
  | cons x rest ih =>
    rw [runningSums]
    cases k with
    | zero => rfl
    | succ k =>
      rw [List.getD_cons_succ, ih _ (Nat.lt_of_succ_lt_succ hk), if_neg (Nat.succ_ne_zero k), Nat.add_sub_cancel,
        List.getD_cons_succ]
      cases k <;> rfl

theorem weightOf_eq (m : Number) (x : Nat) : weightOf m x = expWeight m x := rfl

theorem clampP_eq (p : Number) : clampP p = unitOf p := by
  unfold clampP unitOf
  by_cases hn : p.isNan = true
  · rw [if_pos hn, if_pos (Or.inl hn)]
  · by_cases hz : p.less .zero = true
    · rw [if_neg hn, if_pos hz, if_pos (Or.inr hz)]
    · rw [if_neg hn, if_neg hz, if_neg (not_or.2 ⟨hn, hz⟩)]

theorem firstAt_some {α : Type} {p : α → Bool} {xs : List α} {k : Nat} (d : α) (hk : k < xs.length)
    (hp : p (xs.getD k d) = true) (hlow : ∀ j < k, p (xs.getD j d) = false) : firstAt p xs = some k := by
  induction xs generalizing k with
  | nil => exact absurd hk (Nat.not_lt_zero _)
  | cons x rest ih =>
    rw [firstAt]
    cases k with
    | zero => exact if_pos hp
    | succ k =>
      have hx : p x = false := hlow 0 (Nat.succ_pos k)
      rw [hx, if_neg Bool.false_ne_true, ih (Nat.lt_of_succ_lt_succ hk) hp fun j hj => hlow (j + 1) (Nat.succ_lt_succ hj)]
      rfl

/-- The tokens of a draw by weight. -/
def byWeight (m : Number) (xs : List Logit) : List Logit :=
  (xs.map fun x => (x.1, weightOf m x.2)).foldl (fun l x => insertWeight x l) []

theorem byWeight_nucleus (m : Number) (xs : List Logit) : Nucleus m xs (byWeight m xs) (runningSums 0 (byWeight m xs)) where
  tokens := (foldl_insert_perm insertWeight_perm _ []).trans (by rw [List.append_nil]; exact List.Perm.refl _)
  ordered := foldl_insert_pairwise (R := HeavierFirst) insertWeight_pairwise _ List.Pairwise.nil
  length := length_runningSums _ _
  sum k hk := runningSums_getD 0 _ (by rw [length_runningSums] at hk; exact hk)

theorem nucleus_eq {p : Number} {g : BitVec 32} {xs : List Logit} (h : greatestLogit xs ≠ .inf true) {order : List Logit}
    {sums : List Nat} (ho : order = byWeight (greatestLogit xs) xs) (hs : sums = runningSums 0 order) {c k : Nat}
    (hc : firstAt (fun x : Nat => !(f32 x).less (f32 (rne32 false ((unitOf p).mul (f32 (sums.getLastD 0)))))) sums = some c)
    (hk : (firstAt (fun x : Nat => (f32 (rne32 false ((uniformNum g).mul (f32 (sums.getD c 0))))).less (f32 x))
      (sums.take (c + 1))).getD c = k) :
    nucleus p g xs = (c + 1) * 2 ^ 32 + (order.getD k (0, 0)).1 := by
  unfold nucleus
  rw [if_neg h, clampP_eq]
  rw [show (xs.map fun x => (x.1, weightOf (greatestLogit xs) x.2)).foldl (fun l x => insertWeight x l) [] = order from ho.symm]
  subst hs
  dsimp only
  rw [hc, Option.getD_some, hk]

theorem getD_take {xs : List Nat} {j n : Nat} (h : j < n) : (xs.take n).getD j 0 = xs.getD j 0 := by
  rw [List.getD_eq_getElem?_getD, List.getD_eq_getElem?_getD, List.getElem?_take_of_lt h]

theorem nucleusDraw : Claims.NucleusDraw := by
  intro p g xs hne
  refine ⟨fun hall => ?_, fun ⟨e, he, hnan, hinf⟩ => ?_⟩
  · obtain ⟨v, hv, hleast, hle⟩ := leastOf_least (xs := xs.map (·.1)) (by simpa using hne)
    refine ⟨v, hv, fun e he => hle _ (List.mem_map_of_mem he), ?_⟩
    rcases greatestLogit_greatest xs with ⟨hm, -⟩ | ⟨top, htop, -, hn, hi, -⟩
    · unfold nucleus
      rw [if_pos hm, hleast]
      rfl
    · rcases hall top htop with h | h
      · rw [hn] at h; exact absurd h (by decide)
      · exact absurd h hi
  · rcases greatestLogit_greatest xs with ⟨-, hall⟩ | ⟨top, htop, hm, hn, hi, hmax⟩
    · rcases hall e he with h | h
      · rw [hnan] at h; exact absurd h (by decide)
      · exact absurd h hinf
    · refine ⟨top, htop, hmax, byWeight (f32 top.2) xs, _, byWeight_nucleus _ xs, ?_⟩
      have ho : byWeight (f32 top.2) xs = byWeight (greatestLogit xs) xs := by rw [hm]
      generalize horder : byWeight (f32 top.2) xs = order at ho ⊢
      generalize hsums : runningSums 0 order = sums
      intro bound c hc hreach hlow tau
      have hfirst := firstAt_some (p := fun x : Nat => !(f32 x).less bound) 0 hc (by rw [hreach]; rfl)
        fun j hj => by rw [hlow j hj]; rfl
      refine ⟨fun k hk htau hbelow => ?_, fun hall => ?_⟩
      · refine nucleus_eq (hm ▸ hi) ho hsums.symm hfirst ?_
        rw [firstAt_some (k := k) 0 (by rw [List.length_take]; omega)
          (by rw [getD_take (Nat.lt_succ_of_le hk)]; exact htau)
          fun j hj => by rw [getD_take (by omega)]; exact hbelow j hj]
        rfl
      · refine nucleus_eq (hm ▸ hi) ho hsums.symm hfirst ?_
        rw [firstAt_none fun x hx => ?_]
        · rfl
        · obtain ⟨j, hj, rfl⟩ := List.getElem_of_mem hx
          rw [List.length_take] at hj
          have := hall j (by omega)
          rw [List.getD_eq_getElem _ _ (by omega)] at this
          rw [List.getElem_take]
          exact this

/-- Settles O41: an arrival is one `finish`; a full collective completes as the kind its members agree on; the model's folds over
logits, members and weights are the orders that the rules name. -/
theorem collectives : Obligations.Collectives := ⟨collectiveArrivals, barrierCompletes, nucleusDraw⟩

end Sys2Proof.Machine
end

section
namespace Sys2Proof.Machine
open Sys2Proof.Claims

/-! ### What the checks of the matrix array do (R101, R316, R317) -/

theorem ordered_stop {keeps fills : Bool} {len : Nat} {m : Act Unit} {s t : State} {checks : List (Act (List Nat))}
    (h : m s = .error (.done t)) : ordered keeps fills len m s checks = .next t := by
  simp only [ordered, finish, bind, StateT.bind, h]
  rfl

theorem standHeld_unchecked {keeps fills : Bool} {w : Wait} {s : State} :
    standHeld keeps fills (withReach (checkedGranules [] s)) w s = standHeld keeps fills id w s := by
  have hnote : withReach (checkedGranules [] s) = id := funext fun h => by
    unfold withReach checkedGranules
    rw [List.flatMap_nil, List.filter_nil, List.append_nil]
    rfl
  rw [hnote]

section
variable {s : State}

theorem checkPin_ok {p : Pin} (h : EngineFree s p) : checkPin p s = .ok ((), s) := by
  unfold checkPin
  rw [act_get_bind]
  cases standing (myCore s) (who s).slot with
  | some => rfl
  | none => exact checkEngine_ok h.2

theorem takeTurn_hold (h : ¬ InTurn s) : takeTurn s = .error (.hold .engine) := by
  unfold takeTurn
  rw [act_get_bind]
  exact congrFun (if_pos (by simpa [InTurn] using h)) s

theorem myTurn_of (h : InTurn s) : myTurn s = true := by
  unfold myTurn
  rw [h]
  rfl

theorem checkScales_ok {d : Desc} {perm : Nat} {ps : List Pos} (h : ScalesMay d perm ps) :
    checkScales d perm ps s = .ok ((), s) := by
  induction ps with
  | nil => rfl
  | cons p rest ih =>
    have hrest := ih fun q hq => h q (List.mem_cons_of_mem _ hq)
    rw [checkScales]
    split
    case isTrue hp => exact (act_bind_ok _ _ _ _ _ (checked_ok (h p List.mem_cons_self hp))).trans hrest
    case isFalse => exact hrest

theorem readsCheck_ok {r : Reads} (he : ElementsMay r.desc permLD r.elements) (hs : ScalesMay r.desc permLD r.scales) :
    r.check s = .ok ((), s) := by
  unfold Reads.check
  rw [act_bind_ok _ _ _ _ _ (checkElements_ok he)]
  exact checkScales_ok hs

theorem trapScales_none {n : Nat} : trapScales n [] s = .ok ((), s) := rfl

theorem checkPlaneScales_ok {n : Nat} {rows : List Nat} (h : rows ≠ [] → PlaneScalesGood s) (t : State) :
    checkPlaneScales (activePlane (myCore s)) n (!rows.isEmpty) t = .ok ((), t) := by
  unfold checkPlaneScales
  cases rows with
  | nil => rfl
  | cons r rest =>
    have hgood : badPlaneScales (myCore s).active (myCore s).activeTag.1 (myCore s).activeTag.2 = [] := h (List.cons_ne_nil _ _)
    show trapScales n (badPlaneScales (myCore s).active (myCore s).activeTag.1 (myCore s).activeTag.2) t = _
    rw [hgood]
    rfl

/-- A stream that some plane accepts suits a plane. -/
theorem streamable_of_accepted {plane stream : Nat} {mo : Bool} (h : streamAccepted plane stream mo = true) :
    streamable stream mo = true := by
  have hrange : 1 ≤ plane ∧ plane ≤ 11 := by
    unfold streamAccepted at h
    split at h
    · simp only [Bool.and_eq_true, decide_eq_true_eq] at h
      omega
    · split at h
      iterate 9 · omega
      · cases h
  exact List.any_eq_true.2 ⟨plane, (mem_upFrom _ _ _).2 (by omega), h⟩

end

/-! ### Weight loads and swaps (R318 to R320) -/

section
variable {s t u : State} {b c : Reg} {d : Desc} {n : Nat}

theorem ldwReads_ok (r : Raw) (h : LoadMay s n b c d) :
    ldwReads r n b c s = .ok (⟨d, weightPlaces d (origin s b c), weightBlocks d (origin s b c)⟩, s) := by
  obtain ⟨⟨⟨hd, hv⟩, hk, hblk⟩, he, hsc, ⟨⟨hcamp, -⟩, -⟩, -⟩ := h
  unfold ldwReads
  rw [act_bind_ok _ _ _ _ _ (needMain_ok r hcamp), act_get_bind,
    act_bind_ok _ _ _ _ _ (needDesc_ok hd hv (by simp [hk, hblk]))]
  exact act_bind_ok _ _ _ _ _ (readsCheck_ok he hsc)

theorem mxLdwBody_ok (r : Raw) (h : LoadMay s n b c d) {scales : List (Pos × Option Nat)} {cols : List (List Nat)}
    (hs : readScales d (weightBlocks d (origin s b c)) s = .ok (scales, t)) (hbad : badIndices d scales = [])
    (hc : readColumns d (origin s b c) (planeDepth d.fmtCode) columns t = .ok (cols, u)) :
    mxLdwBody r n b c s = .ok ((), coreBy (filledPlane d scales cols) u) := by
  have hreads := ldwReads_ok r h
  obtain ⟨-, -, -, ⟨heng, hturn⟩, hland⟩ := h
  unfold mxLdwBody
  rw [act_bind_ok _ _ _ _ _ hreads, act_bind_ok _ _ _ _ _ (checkPin_ok heng), act_bind_ok _ _ _ _ _ (takeTurn_ok hturn),
    act_get_bind]
  extract_lets k
  refine (congrFun (if_neg (by rw [hland]; decide)) s).trans ?_
  refine (act_bind_ok _ _ _ _ _ hs).trans ?_
  rw [hbad, act_bind_ok _ _ _ _ _ trapScales_none]
  exact act_bind_ok _ _ _ _ _ hc

theorem mxSwapBody_ok (r : Raw) (h : EngineFree s .mx) (hturn : InTurn s) :
    mxSwapBody r s = .ok ((), coreBy (fun k => exchange k.shadowTag k) s) := by
  unfold mxSwapBody
  rw [act_bind_ok _ _ _ _ _ (needMain_ok r h.1), act_bind_ok _ _ _ _ _ (checkPin_ok h),
    act_bind_ok _ _ _ _ _ (takeTurn_ok hturn)]
  rfl

theorem mxSwapBody_hold (r : Raw) (h : EngineFree s .mx) (hturn : ¬ InTurn s) :
    mxSwapBody r s = .error (.hold .engine) := by
  unfold mxSwapBody
  rw [act_bind_ok _ _ _ _ _ (needMain_ok r h.1), act_bind_ok _ _ _ _ _ (checkPin_ok h)]
  exact act_bind_error _ _ _ _ (takeTurn_hold hturn)

end

/-- Past its checks a swap that may wait. -/
def swapNow (n ch : Nat) (waits : Bool) (d : Desc) (number : Nat) (lost : Bool) : Act Unit := do
  let s ← get
  if behind (myCore s) (who s).slot then stop (.done (standHeld false false (awaitTransfer number lost) .engine s))
  if waits ∧ (channelOf (myCore s) ch).xfer.any (·.number == number) then
    stop (.done (standHeld false false (awaitTransfer number lost) (.transfer ch number) s))
  trapScales n (badPlaneScales (myCore s).staging d.fmtCode d.sk)
  if waits ∧ lost then raiseCopy ch 3
  modify fun s => onCore s (who s).core (exchange (d.fmtCode, d.sk))

theorem mxSwapExtBody_eq {s : State} {n : Nat} {d : Desc} (r : Raw) (ch : Nat) (waits : Bool) (h : EngineFree s .mx)
    (hd : HasDesc s n d) (hk : planeDepth d.fmtCode ≠ 0) :
    mxSwapExtBody r n ch waits s =
      swapNow n ch waits d (awaited (myCore s) (who s).slot ch).1 (awaited (myCore s) (who s).slot ch).2 s := by
  unfold mxSwapExtBody
  rw [act_bind_ok _ _ _ _ _ (needMain_ok r h.1), act_bind_ok _ _ _ _ _ (needDesc_ok hd.1 hd.2 (by simp [hk])),
    act_bind_ok _ _ _ _ _ (checkPin_ok h)]
  rfl

section
variable {s : State} {n ch number : Nat} {waits lost : Bool} {d : Desc}

theorem swapNow_behind (hturn : ¬ InTurn s) : swapNow n ch waits d number lost s =
    .error (.done (standHeld false false (awaitTransfer number lost) .engine s)) := by
  unfold swapNow
  rw [act_get_bind]
  extract_lets k
  exact congrFun (if_pos (by simpa [InTurn] using hturn)) s

theorem swapNow_waits (hturn : InTurn s) (hw : waits = true)
    (hmoves : (channelOf (myCore s) ch).xfer.any (·.number == number) = true) : swapNow n ch waits d number lost s =
    .error (.done (standHeld false false (awaitTransfer number lost) (.transfer ch number) s)) := by
  unfold swapNow
  rw [act_get_bind]
  extract_lets k
  exact (congrFun (if_neg (by rw [hturn]; decide)) s).trans (congrFun (if_pos ⟨hw, hmoves⟩) s)

theorem swapNow_done (hturn : InTurn s) (hbad : badPlaneScales (myCore s).staging d.fmtCode d.sk = [])
    (hw : waits = true → (channelOf (myCore s) ch).xfer.any (·.number == number) = false ∧ lost = false) :
    swapNow n ch waits d number lost s = .ok ((), coreBy (exchange (d.fmtCode, d.sk)) s) := by
  unfold swapNow
  rw [act_get_bind]
  extract_lets k jp
  have hstays : ¬ (waits = true ∧ (channelOf (myCore s) ch).xfer.any (·.number == number) = true) := fun ⟨h1, h2⟩ =>
    Bool.false_ne_true ((hw h1).1.symm.trans h2)
  have hkept : ¬ (waits = true ∧ lost = true) := fun ⟨h1, h2⟩ => Bool.false_ne_true ((hw h1).2.symm.trans h2)
  refine (congrFun (if_neg (by rw [hturn]; decide)) s).trans ((congrFun (if_neg hstays) s).trans ?_)
  unfold jp
  rw [hbad, act_bind_ok _ _ _ _ _ trapScales_none]
  exact (congrFun (if_neg hkept) s).trans rfl

theorem swapNow_lost (hturn : InTurn s) (hbad : badPlaneScales (myCore s).staging d.fmtCode d.sk = []) (hw : waits = true)
    (hmoves : (channelOf (myCore s) ch).xfer.any (·.number == number) = false) (hlost : lost = true) :
    swapNow n ch waits d number lost s = .error (.trap ⟨causeCopy, condInfo ch 3, 0⟩) := by
  unfold swapNow
  rw [act_get_bind]
  extract_lets k jp
  have hstays : ¬ (waits = true ∧ (channelOf (myCore s) ch).xfer.any (·.number == number) = true) := fun ⟨_, h2⟩ =>
    Bool.false_ne_true (hmoves.symm.trans h2)
  refine (congrFun (if_neg (by rw [hturn]; decide)) s).trans ((congrFun (if_neg hstays) s).trans ?_)
  unfold jp
  rw [hbad, act_bind_ok _ _ _ _ _ trapScales_none]
  exact congrFun (if_pos ⟨hw, hlost⟩) s

end

/-! ### Streams (R321 to R323) -/

section
variable {a b c : Reg} {s t u : State} {n m q blk : Nat} {mo : Bool}

theorem strReads_ok {d : Desc} (r : Raw) (h : StreamMay s a b c n mo blk d) :
    strReads r b c n mo blk s = .ok (⟨d,
      (streamedRows d (origin s b c)).flatMap fun i => rowPlaces ((origin s b c).down i) (planeDepth (activePlane (myCore s)).fmt),
      (streamedRows d (origin s b c)).flatMap fun i =>
        blockPlaces d ((origin s b c).down i) (planeDepth (activePlane (myCore s)).fmt)⟩, s) := by
  obtain ⟨⟨⟨hd, hv⟩, hacc, hblk, hrows⟩, he, hsc, ⟨⟨hcamp, -⟩, hturn⟩, -, -⟩ := h
  have hmine := myTurn_of hturn
  have hok : ((!myTurn s || streamAccepted (activePlane (myCore s)).fmt d.fmtCode mo) &&
      streamGood (origin s b c) mo blk d) = true := by
    unfold streamGood
    rw [hacc, streamable_of_accepted hacc]
    simp [hblk, hrows]
  unfold strReads
  rw [act_bind_ok _ _ _ _ _ (needMain_ok r hcamp), act_get_bind, act_bind_ok _ _ _ _ _ (needDesc_ok hd hv hok)]
  rw [hmine]
  exact act_bind_ok _ _ _ _ _ (readsCheck_ok he hsc)

theorem mxStrBody_ok {d : Desc} {z : Bool} (r : Raw) (h : StreamMay s a b c n mo blk d) {scales : List (Pos × Option Nat)}
    (hs : readScales d ((streamedRows d (origin s b c)).flatMap fun r =>
      blockPlaces d ((origin s b c).down r) (planeDepth (activePlane (myCore s)).fmt)) s = .ok (scales, t))
    (hbad : badIndices d scales = [])
    (hrun : streamRows (activePlane (myCore s)) d (origin s b c) a.val (16 * blk) z mo
      (fun i j => rowScale d scales (planeDepth (activePlane (myCore s)).fmt / 32) i j) 0
      (streamedRows d (origin s b c)) t = .ok ((), u)) :
    mxStrBody r a b c n z mo blk s = .ok ((), u) := by
  have hreads := strReads_ok r h
  obtain ⟨-, -, -, ⟨heng, hturn⟩, hplane, htile, htile'⟩ := h
  unfold mxStrBody
  rw [act_bind_ok _ _ _ _ _ hreads, act_bind_ok _ _ _ _ _ (checkPin_ok heng), act_bind_ok _ _ _ _ _ (takeTurn_ok hturn),
    act_get_bind]
  refine (act_bind_ok _ _ _ _ _ (waitForJob_ok htile)).trans ?_
  have hadd : (do
      let scales ← readScales d ((streamedRows d (origin s b c)).flatMap fun r =>
        blockPlaces d ((origin s b c).down r) (planeDepth (activePlane (myCore s)).fmt))
      trapScales n (badIndices d scales)
      checkPlaneScales (activePlane (myCore s)) n (!(streamedRows d (origin s b c)).isEmpty)
      streamRows (activePlane (myCore s)) d (origin s b c) a.val (16 * blk) z mo
        (fun i j => rowScale d scales (planeDepth (activePlane (myCore s)).fmt / 32) i j) 0
        (streamedRows d (origin s b c))) s = .ok ((), u) := by
    refine (act_bind_ok _ _ _ _ _ hs).trans ?_
    rw [hbad, act_bind_ok _ _ _ _ _ trapScales_none]
    exact (act_bind_ok _ _ _ _ _ (checkPlaneScales_ok hplane t)).trans hrun
  by_cases hmo : mo = true
  · exact (congrFun (if_pos hmo) s).trans ((act_bind_ok _ _ _ _ _ (waitForJob_ok (htile' hmo))).trans hadd)
  · exact (congrFun (if_neg hmo) s).trans hadd

theorem rowStart_eq (s : State) (b : Reg) : field (reg64 s b).toNat 63 32 = (reg64 s b).toNat / 2 ^ 32 := by
  have := (reg64 s b).isLt
  unfold field
  omega

/-- The descriptors and rows of a sparse stream. -/
def sparseOf (s : State) (b : Reg) (dn dm dp : Desc) : Sparse :=
  ⟨dn, dm, dp, (reg64 s b).toNat / 2 ^ 32, sparseRowsOf s b dp⟩

theorem sparseOf_pointers (s : State) (b : Reg) (dn dm dp : Desc) :
    (sparseOf s b dn dm dp).pointers = pointersOf s b dp := by
  unfold Sparse.pointers pointersOf sparseOf
  dsimp only
  cases sparseRowsOf s b dp with
  | nil => rfl
  | cons => exact (if_neg Bool.false_ne_true).trans (if_neg (List.cons_ne_nil _ _)).symm

theorem gstrReads_ok {dn dm dp : Desc} (r : Raw) (h : SparseMay s a b n m q blk dn dm dp) :
    gstrReads r b n m q blk s = .ok (sparseOf s b dn dm dp, s) := by
  obtain ⟨⟨⟨hn, hnv⟩, hnr, hnk, hacc⟩, ⟨⟨hm, hmv⟩, hmr, hmf⟩, ⟨⟨hq, hqv⟩, hqr, hqf, hrows⟩, he, ⟨⟨hcamp, -⟩, hturn⟩, -, -⟩ := h
  have hmine := myTurn_of hturn
  unfold gstrReads
  rw [act_bind_ok _ _ _ _ _ (needMain_ok r hcamp), act_get_bind]
  dsimp only
  rw [act_bind_ok _ _ _ _ _ (needDesc_ok hn hnv (by rw [hnr, hnk, hmine, hacc]; rfl)),
    act_bind_ok _ _ _ _ _ (needDesc_ok hm hmv (by unfold indexDesc; rw [hmr, hmf]; rfl)),
    act_bind_ok _ _ _ _ _ (needDesc_ok hq hqv (by unfold indexDesc; rw [hqr, hqf]; simp [hrows])), rowStart_eq]
  rw [← sparseOf_pointers s b dn dm dp] at he
  exact act_bind_ok _ _ _ _ _ (checkElements_ok he)

theorem gstrPointers_ok {x : Sparse} {ptrs : List Nat} (hr : readAt x.ptrs x.pointers s = .ok (ptrs, t))
    (h : EntriesMay x.vals x.idxs (ptrs.map (intValue .s32))) :
    gstrPointers q x s = .ok (ptrs.map (intValue .s32), t) := by
  obtain ⟨hgood, hcount, hidx, hval⟩ := h
  unfold gstrPointers
  rw [act_bind_ok _ _ _ _ _ hr]
  rw [require_bind_ok _ (by rw [hgood]; simpa [entryCount] using hcount)]
  refine (act_bind_ok _ _ _ _ _ (checkElements_ok hidx)).trans ?_
  exact act_bind_ok _ _ _ _ _ (checkElements_ok hval)

theorem mxGstrBody_ok {dn dm dp : Desc} {z : Bool} (r : Raw) (h : SparseMay s a b n m q blk dn dm dp) {ptrs : List Nat}
    (hr : readAt dp (pointersOf s b dp) s = .ok (ptrs, t)) (he : EntriesMay dn dm (ptrs.map (intValue .s32)))
    (hrun : sparseRows (activePlane (myCore s)) dn dm ((reg64 s b).toNat % 2 ^ 32) a.val (16 * blk) z
      ((sparseRowsOf s b dp).map fun r => (r, ((ptrs.map (intValue .s32)).getD r 0).toNat,
        ((ptrs.map (intValue .s32)).getD (r + 1) 0).toNat - ((ptrs.map (intValue .s32)).getD r 0).toNat)) t = .ok ((), u)) :
    mxGstrBody r a b n m q z blk s = .ok ((), u) := by
  have hreads := gstrReads_ok r h
  obtain ⟨-, -, -, -, ⟨heng, hturn⟩, hplane, htile⟩ := h
  rw [← sparseOf_pointers s b dn dm dp] at hr
  have hps : gstrPointers q (sparseOf s b dn dm dp) s = .ok (ptrs.map (intValue .s32), t) := gstrPointers_ok hr he
  unfold mxGstrBody
  rw [act_bind_ok _ _ _ _ _ hreads, act_bind_ok _ _ _ _ _ (checkPin_ok heng), act_bind_ok _ _ _ _ _ (takeTurn_ok hturn),
    act_get_bind]
  dsimp only
  rw [field_word]
  refine (act_bind_ok _ _ _ _ _ (waitForJob_ok htile)).trans ?_
  rw [act_bind_ok _ _ _ _ _ hps]
  exact (act_bind_ok _ _ _ _ _ (checkPlaneScales_ok hplane t)).trans hrun

end

/-- Settles O14: past its checks each instruction is its reads and one change of the planes or tiles, in its place in the
issue order. -/
theorem matrixArray : Obligations.MatrixArray := by
  refine ⟨fun n b c s d h scales cols t u hs hbad hc => ordered_done (mxLdwBody_ok _ h hs hbad hc), fun s heng =>
    ⟨fun hturn => ordered_done (mxSwapBody_ok _ heng hturn), fun hturn => ?_, fun n ch waits d hd hk => ?_⟩,
    fun a b c n z mo blk s d h scales t u hs hbad hrun => ordered_done (mxStrBody_ok _ h hs hbad hrun),
    fun a b n m q z blk s dn dm dp h ptrs t u hr he hrun => ordered_done (mxGstrBody_ok _ h hr he hrun)⟩
  · exact (ordered_hold _ _ _ _ _ _ (mxSwapBody_hold _ heng hturn)).trans (congrArg _ standHeld_unchecked)
  · have hbody := mxSwapExtBody_eq { l := 2, op := 0xD1 } ch.val waits heng hd hk
    refine ⟨fun hturn => ordered_stop (hbody.trans (swapNow_behind hturn)), fun hturn hw hmoves =>
      ordered_stop (hbody.trans (swapNow_waits hturn hw hmoves)), fun hturn hbad => ⟨fun hw =>
      ordered_done (hbody.trans (swapNow_done hturn hbad hw)), fun hw hmoves hlost =>
      ordered_trap _ _ _ _ _ _ (hbody.trans (swapNow_lost hturn hbad hw hmoves hlost))⟩⟩

end Sys2Proof.Machine
end

section
namespace Sys2Proof.Machine
open Sys2Proof.Claims

/-! ### What the reads of an issuing instruction leave -/

theorem accesses_readGranules (a : Actor) (vas : List Nat) : Accesses (readGranules a vas) := by
  induction vas with
  | nil => exact along_pure _
  | cons va rest ih => exact (accesses_readPiece _ _ _ _).bind fun _ => ih.bind fun _ => along_pure _

theorem accesses_epParameters (d : Reg) : Accesses (epParameters d) :=
  .get_bind fun _ => .ite (along_pure _) ((accesses_readRange _ _ _).bind fun _ =>
    (accesses_readGranules _ _).bind fun _ => along_pure _)

theorem accesses_issueParameters (d : Reg) : Accesses (issueParameters d) := by
  refine .get_bind fun s => ?_
  cases (standing (myCore s) (who s).slot).bind (·.parameters) with
  | none => exact accesses_epParameters d
  | some ps => exact along_pure _

section
variable {s t : State} (h : MemOnly s t)
include h

theorem MemOnly.ep (c : Nat) : (coreOf t c).ep = (coreOf s c).ep := by rw [h.core c]
theorem MemOnly.myEp : (myCore t).ep = (myCore s).ep := by unfold myCore; rw [h.who, h.ep]
theorem MemOnly.behind (slot : Nat) : behind (myCore t) slot = behind (myCore s) slot := by
  unfold myCore
  rw [h.who, h.core]
  rfl
theorem MemOnly.reg64 (r : Reg) : reg64 t r = reg64 s r := by unfold Machine.reg64; rw [h.reg]
theorem MemOnly.teamUidOf (id : CtxId) : teamUidOf t id = teamUidOf s id := by
  unfold Machine.teamUidOf
  rw [h.ctxOf, h.core id.core]
  cases (Machine.ctxOf s id).home with
  | none => rfl
  | some home =>
    dsimp only
    rw [h.core home.core]
    rfl
theorem MemOnly.teamOf (id : CtxId) : teamOf t id = teamOf s id := by
  unfold Machine.teamOf Machine.teamBy
  rw [h.teamUidOf, h.teams]
theorem MemOnly.myDomain : myDomain t = myDomain s := by unfold Machine.myDomain; rw [h.who, h.teamOf]

end

/-! ### Programs of the epilogue processor (R329) -/

section
variable {a b : Reg} {s t u : State} {word : Nat} {bs : List Byte}

theorem job_isNone {e : Epilogue} (h : e.job = none) : ¬ e.job.isSome = true := by rw [h]; exact Bool.false_ne_true
theorem job_isSome {e : Epilogue} (h : e.job ≠ none) : e.job.isSome = true := Option.isSome_iff_ne_none.2 h

/-- An `ep.load` from its header on. -/
def loadFrom (s : State) (a b : Reg) (word : Nat) : Act Unit :=
  if word ≥ 128 ∨ word % 128 = 0 ∨ word % 128 > 64 then modify (writeInt a 64 0x100)
  else do
    checked b.val (capCheck (reg s b) (capAddr (reg s b)) (4 + 2 * (word % 128)) permLD)
    let bs ← readRange (regActor s b) (capAddr (reg s b) + 4) (2 * (word % 128))
    if programStatus (halfwords (word % 128) bs) = 0 then
      modify fun s => onCore s (who s).core fun k => { k with ep := { k.ep with program := halfwords (word % 128) bs } }
    modify (writeInt a 64 (programStatus (halfwords (word % 128) bs)))

theorem epLoadBody_header (r : Raw) (h : HeaderRead s b word t) : epLoadBody r a b s = loadFrom s a b word t := by
  obtain ⟨hcap, heng, hturn, hjob, bs, hbs, rfl⟩ := h
  unfold epLoadBody
  rw [act_bind_ok _ _ _ _ _ (needMain_ok r heng.1), act_get_bind]
  dsimp only
  rw [act_bind_ok _ _ _ _ _ (checked_ok hcap), act_bind_ok _ _ _ _ _ (checkPin_ok heng),
    act_bind_ok _ _ _ _ _ (takeTurn_ok hturn)]
  exact (congrFun (if_neg (job_isNone hjob)) s).trans (act_bind_ok _ _ _ _ _ hbs)

theorem loadFrom_bad (h : 128 ≤ word ∨ word % 128 = 0 ∨ 64 < word % 128) :
    loadFrom s a b word t = .ok ((), writeInt a 64 0x100 t) := congrFun (if_pos h) t

theorem loadFrom_read (h1 : 1 ≤ word) (h64 : word ≤ 64)
    (hcap : capCheck (reg s b) (capAddr (reg s b)) (4 + 2 * word) permLD = none)
    (hbs : readRange (regActor s b) (capAddr (reg s b) + 4) (2 * word) t = .ok (bs, u)) :
    (programStatus (halfwords word bs) = 0 →
      loadFrom s a b word t =
        .ok ((), writeInt a 64 0 (epBy (who u).core (fun e => { e with program := halfwords word bs }) u))) ∧
    (programStatus (halfwords word bs) ≠ 0 →
      loadFrom s a b word t = .ok ((), writeInt a 64 (programStatus (halfwords word bs)) u)) := by
  unfold loadFrom
  rw [Nat.mod_eq_of_lt (by omega : word < 128), if_neg (by omega), act_bind_ok _ _ _ _ _ (checked_ok hcap),
    act_bind_ok _ _ _ _ _ hbs]
  refine ⟨fun hst => (congrFun (if_pos hst) u).trans ?_, fun hst => congrFun (if_neg hst) u⟩
  rw [hst]
  rfl

end

/-! ### Starting a job (R330) -/

theorem checkBiases_ok {d : Reg} {bases : List Cap} {s : State} {ls : List (Nat × Nat)}
    (h : ∀ l ∈ ls, capCheck (biasAt bases l.1 l.2).1 (biasAt bases l.1 l.2).2 512 permLD = none) :
    checkBiases d bases ls s = .ok ((), s) := by
  induction ls with
  | nil => rfl
  | cons l rest ih =>
    obtain ⟨w, row⟩ := l
    rw [checkBiases]
    exact (act_bind_ok _ _ _ _ _ (checked_ok (h (w, row) List.mem_cons_self))).trans
      (ih fun l hl => h l (List.mem_cons_of_mem _ hl))

section
variable {a b c d : Reg} {n : Nat} {mo : Bool} {rnd : Option Rm} {s t : State} {x : Desc} {scalars : List (BitVec 32)}
  {bases : List Cap}

/-- The job that an `ep.run` starts, as its operands encode it. -/
def jobOf (s : State) (a b c : Reg) (x : Desc) (mo : Bool) (rnd : Option Rm) (scalars : List (BitVec 32)) (bases : List Cap) :
    Job :=
  { number := (myCore s).ep.jobs + 1, context := (me s).uid, team := (teamUidOf s (who s)).getD 0, domain := myDomain s
    tile := a.val, moment := mo, desc := BitVec.ofNat 512 x.bits, baseTag := x.baseTag, scaleTag := x.scaleTag
    o0 := field (reg64 s b).toNat 31 0, o1 := field (reg64 s b).toNat 63 32, first := field (reg64 s c).toNat 6 0
    count := field (reg64 s c).toNat 15 8, next := 0, scalars := scalars, bases := bases, rm := modeOf (me s) rnd
    sat := roundSat (me s), ftz := roundFtz (me s) }

/-- An `ep.run` that has its turn and finds no job. -/
def beginJob (r : Raw) (a b c d : Reg) (n : Nat) (mo : Bool) (rnd : Option Rm) (x : Desc) (scalars : List (BitVec 32))
    (bases : List Cap) (s : State) : Act Unit := do
  let whole := (myCore s).ep.program
  require (mo || !whole.any fun h => epOp h.toNat == 1 && epM h.toNat == 1) causeIllegal r.baseWord
  let prog := epActive whole
  let o0 := field (reg64 s b).toNat 31 0
  let o1 := field (reg64 s b).toNat 63 32
  let first := field (reg64 s c).toNat 6 0
  require (outputGood x o0 && storesGood prog x.fmtCode) causeDescriptor n
  let rows := jobRows first (field (reg64 s c).toNat 15 8)
  let places := rows.flatMap fun t => (storePlanes prog).map fun k => outPlace o0 o1 first t k
  checkElements x permST (places.flatMap fun q => rowPlaces q 128)
  checkScales x permST (places.flatMap fun q => blockPlaces x q 128)
  checkBiases d bases ((prog.filter fun h => epOp h.toNat == 0x10).flatMap fun h => rows.map fun t => (h.toNat, t))
  modify fun u => onCore u (who u).core fun k => { k with ep := startJob (jobOf s a b c x mo rnd scalars bases) k.ep }

theorem wordFields (v : BitVec 64) : field v.toNat 31 0 = v.toNat % 2 ^ 32 ∧ field v.toNat 63 32 = v.toNat / 2 ^ 32 ∧
    field v.toNat 6 0 = v.toNat % 128 ∧ field v.toNat 15 8 = v.toNat / 256 % 256 := by
  have := v.isLt
  unfold field
  omega

theorem newJob_eq (s : State) (a b c : Reg) (x : Desc) (mo : Bool) (rnd : Option Rm) (scalars : List (BitVec 32))
    (bases : List Cap) : jobOf s a b c x mo rnd scalars bases = newJob s a b c x mo rnd scalars bases := by
  obtain ⟨h0, h1, -, -⟩ := wordFields (reg64 s b)
  obtain ⟨-, -, hf, hc⟩ := wordFields (reg64 s c)
  unfold jobOf newJob outOrigin firstRow rowCount
  rw [h0, h1, hf, hc]

theorem beginJob_ok (r : Raw) (h : RunMay s b c d n mo x bases) : beginJob r a b c d n mo rnd x scalars bases s s =
    .ok ((), epBy (who s).core (startJob (newJob s a b c x mo rnd scalars bases)) s) := by
  obtain ⟨⟨hout, hstores⟩, -, hmo, hel, hsc, hld⟩ := h
  obtain ⟨h0, h1, -, -⟩ := wordFields (reg64 s b)
  obtain ⟨-, -, hf, hc⟩ := wordFields (reg64 s c)
  have hplain : (mo || !(myCore s).ep.program.any fun h => epOp h.toNat == 1 && epM h.toNat == 1) = true := by
    rcases hmo with rfl | hmo
    · rfl
    · rw [List.any_eq_false.2 fun h hh => by simpa using hmo h hh]
      exact Bool.or_true _
  unfold beginJob
  dsimp only
  rw [require_bind_ok _ hplain, h0, h1, hf, hc]
  refine (require_bind_ok _ (Bool.and_eq_true_iff.2 ⟨hout, hstores⟩)).trans ?_
  refine (act_bind_ok _ _ _ _ _ (checkElements_ok hel)).trans ((act_bind_ok _ _ _ _ _ (checkScales_ok hsc)).trans
    ((act_bind_ok _ _ _ _ _ (checkBiases_ok hld)).trans ?_))
  rw [newJob_eq]
  rfl

/-- An `ep.run` from its turn on. -/
def runFrom (r : Raw) (a b c d : Reg) (n : Nat) (mo : Bool) (rnd : Option Rm) (x : Desc)
    (ps : List (BitVec 32) × List Cap) : Act Unit := do
  let s ← get
  if behind (myCore s) (who s).slot then stop (.done (standHeld false false (withParameters ps) .engine s))
  if (myCore s).ep.job.isSome then stop (.done (standHeld false false (withParameters ps) .job s))
  beginJob r a b c d n mo rnd x ps.1 ps.2 s

theorem epRunBody_issued (r : Raw) (h : RunIssues s d n x) (hp : issueParameters d s = .ok ((scalars, bases), t)) :
    epRunBody r a b c d n mo rnd s = runFrom r a b c d n mo rnd x (scalars, bases) t := by
  obtain ⟨⟨hd, hv⟩, hblock, heng⟩ := h
  have hissue {f : List (BitVec 32) × List Cap → Act Unit} :
      (checkPin .ep >>= fun _ => issueParameters d >>= f) s = f (scalars, bases) t := by
    rw [act_bind_ok _ _ _ _ _ (checkPin_ok heng), act_bind_ok _ _ _ _ _ hp]
  unfold epRunBody
  rw [act_bind_ok _ _ _ _ _ (needMain_ok r heng.1), act_bind_ok _ _ _ _ _ (needDesc_ok hd hv rfl), act_get_bind]
  by_cases hz : d.val = 0
  · exact (congrFun (if_neg (not_not.2 hz)) s).trans (hissue.trans rfl)
  · obtain ⟨hcap, halign⟩ := hblock fun h => hz (by rw [h]; rfl)
    exact (congrFun (if_pos hz) s).trans ((act_bind_ok _ _ _ _ _ (checked_ok hcap)).trans
      ((congrFun (if_neg (not_not.2 halign)) s).trans (hissue.trans rfl)))

theorem runFrom_start (r : Raw) (hturn : InTurn s) (hjob : (myCore s).ep.job = none) :
    runFrom r a b c d n mo rnd x (scalars, bases) s = beginJob r a b c d n mo rnd x scalars bases s s := by
  unfold runFrom
  rw [act_get_bind]
  exact (congrFun (if_neg (by rw [hturn]; decide)) s).trans (congrFun (if_neg (job_isNone hjob)) s)

theorem runFrom_waits (r : Raw) (hturn : InTurn s) (hjob : (myCore s).ep.job ≠ none) :
    runFrom r a b c d n mo rnd x (scalars, bases) s =
      .error (.done (standHeld false false (withParameters (scalars, bases)) .job s)) := by
  unfold runFrom
  rw [act_get_bind]
  exact (congrFun (if_neg (by rw [hturn]; decide)) s).trans (congrFun (if_pos (job_isSome hjob)) s)

/-- What an `ep.run` needs and starts is the same after its parameters have been read. -/
theorem MemOnly.runMay (h : MemOnly s t) (hm : RunMay s b c d n mo x bases) : RunMay t b c d n mo x bases := by
  have hprog : activeProgram t = activeProgram s := by unfold activeProgram; rw [h.myEp]
  have hout : outOrigin t b = outOrigin s b := by unfold outOrigin; rw [h.reg64]
  have hfirst : firstRow t c = firstRow s c := by unfold firstRow; rw [h.reg64]
  have hrows : runRowsOf t c = runRowsOf s c := by unfold runRowsOf rowCount; rw [hfirst, h.reg64]
  have hplaces : runPlaces t b c = runPlaces s b c := by unfold runPlaces; rw [hrows, hprog, hout, hfirst]
  have hloads : runLoads t c = runLoads s c := by unfold runLoads; rw [hprog, hrows]
  have hturn : InTurn t ↔ InTurn s := by unfold InTurn; rw [h.who, h.behind]
  obtain ⟨h1, ⟨h2, h3⟩, h4, h5, h6, h7⟩ := hm
  rw [← hout, ← hprog] at h1
  rw [← h.myEp] at h3 h4
  rw [← hplaces] at h5 h6
  rw [← hloads] at h7
  exact ⟨h1, ⟨hturn.2 h2, h3⟩, h4, h5, h6, h7⟩

theorem MemOnly.newJob (h : MemOnly s t) :
    newJob t a b c x mo rnd scalars bases = newJob s a b c x mo rnd scalars bases := by
  unfold Claims.newJob outOrigin firstRow rowCount
  rw [h.myEp, h.me, h.who, h.teamUidOf, h.myDomain, h.reg64, h.reg64]

end

/-! ### Waiting for a job (R331) -/

section
variable {a : Reg} {s : State} (r : Raw) (heng : EngineFree s .ep) (hturn : InTurn s)
include heng hturn

theorem epWaitBody_running (h : (myCore s).ep.job ≠ none) : epWaitBody r a s = .error (.hold .job) := by
  unfold epWaitBody
  rw [act_bind_ok _ _ _ _ _ (needMain_ok r heng.1), act_bind_ok _ _ _ _ _ (checkPin_ok heng),
    act_bind_ok _ _ _ _ _ (takeTurn_ok hturn), act_get_bind]
  exact congrFun (if_pos (job_isSome h)) s

theorem epWaitBody_fault {f : Trap} (h : (myCore s).ep.job = none) (hf : (myCore s).ep.fault = some f) :
    epWaitBody r a s = .error (.done (deliverTrap f (epBy (who s).core (fun e => { e with fault := none }) s))) := by
  unfold epWaitBody
  rw [act_bind_ok _ _ _ _ _ (needMain_ok r heng.1), act_bind_ok _ _ _ _ _ (checkPin_ok heng),
    act_bind_ok _ _ _ _ _ (takeTurn_ok hturn), act_get_bind]
  refine (congrFun (if_neg (job_isNone h)) s).trans ?_
  dsimp only
  rw [hf]
  rfl

theorem epWaitBody_over (h : (myCore s).ep.job = none) (hf : (myCore s).ep.fault = none) :
    ((myCore s).ep.jobs = 0 → epWaitBody r a s = .ok ((), writeInt a 64 0 s)) ∧
    ((myCore s).ep.jobs ≠ 0 → epWaitBody r a s = .ok ((), writeInt a 64 (myCore s).ep.rows (takeJob s))) := by
  unfold epWaitBody
  rw [act_bind_ok _ _ _ _ _ (needMain_ok r heng.1), act_bind_ok _ _ _ _ _ (checkPin_ok heng),
    act_bind_ok _ _ _ _ _ (takeTurn_ok hturn), act_get_bind]
  dsimp only
  rw [hf]
  exact ⟨fun hz => (congrFun (if_neg (job_isNone h)) s).trans (congrFun (if_pos hz) s),
    fun hz => (congrFun (if_neg (job_isNone h)) s).trans (congrFun (if_neg hz) s)⟩

end

/-- Settles O15: past its checks a load, a run or a wait is one change of the processor, in its place in the issue order; the
reads of a run's parameters leave all that its checks look at; a row event is `runRow` and its end. -/
theorem epilogueProcessor : Obligations.EpilogueProcessor := by
  refine ⟨fun a b s t word h => ⟨fun hbad => ?_, fun bs u h1 h64 hcap hbs => ?_⟩,
    fun a b c d n mo rnd s t x scalars bases hissue hp => ?_, fun a s heng hturn => ⟨fun hjob => ?_, fun f hjob hf => ?_,
      fun hjob hf => ?_⟩, fun core s j hj => ?_⟩
  · exact ordered_done ((epLoadBody_header _ h).trans (loadFrom_bad hbad))
  · obtain ⟨hgood, hill⟩ := loadFrom_read (a := a) h1 h64 hcap hbs
    exact ⟨fun hst => ordered_done ((epLoadBody_header _ h).trans (hgood hst)),
      fun hst => ordered_done ((epLoadBody_header _ h).trans (hill hst))⟩
  · have hmem : MemOnly s t := accesses_issueParameters d s _ t hp
    refine ⟨fun hm => ?_, fun hturn hjob => ?_⟩
    · have hmt := hmem.runMay hm
      rw [← hmem.newJob]
      obtain ⟨hturn, hjob⟩ := hmt.idle
      exact ordered_done ((epRunBody_issued _ hissue hp).trans ((runFrom_start _ hturn hjob).trans (beginJob_ok _ hmt)))
    · have hturn' : InTurn t := by unfold InTurn; rw [hmem.who, hmem.behind]; exact hturn
      exact ordered_stop ((epRunBody_issued _ hissue hp).trans (runFrom_waits _ hturn' (by rw [hmem.myEp]; exact hjob)))
  · exact (ordered_hold _ _ _ _ _ _ (epWaitBody_running _ heng hturn hjob)).trans (congrArg _ standHeld_unchecked)
  · exact ordered_stop (epWaitBody_fault _ heng hturn hjob hf)
  · obtain ⟨hnone, hsome⟩ := epWaitBody_over (a := a) { l := 0, op := 0xDA, a } heng hturn hjob hf
    exact ⟨fun hz => ordered_done (hnone hz), fun hz => ordered_done (hsome hz)⟩
  · have hrow : exec (.epilogueRow core) s = execEpilogueRow core s := rfl
    unfold execEpilogueRow at hrow
    dsimp only at hrow
    rw [hj] at hrow
    dsimp only
    refine ⟨fun x t hrun => hrow.trans ?_, fun f x t hrun => hrow.trans ?_⟩
    all_goals
      unfold freshRow at hrun
      dsimp only
      rw [hrun]
      rfl

end Sys2Proof.Machine
end

section
namespace Sys2Proof.Machine
open Sys2Proof.Claims

/-! ### What an idle system context takes (R241, R242, R309) -/

theorem idle_of_nextArrival {k : Core} {x : Nat × Arrival} (h : nextArrival k = some x) :
    k.run = .idle ∧ k.trapOpen = false := by
  unfold nextArrival at h
  split at h
  case isTrue hk => exact ⟨hk.1, by simpa using hk.2⟩
  case isFalse => cases h

theorem inTrapEntry_closed {k : Core} (h : k.trapOpen = false) : inTrapEntry k = false := by
  unfold inTrapEntry
  rw [h]
  rfl

theorem inTrapEntry_message {k : Core} {m : Message} (hr : k.run = .message m) (ht : k.trapOpen = true) :
    inTrapEntry k = true := by
  unfold inTrapEntry
  rw [hr, ht]
  rfl

theorem endTrapEntry_message {s : State} {core : Nat} {m : Message} (h : (coreOf s core).run = .message m) :
    endTrapEntry s core = acknowledge (clearRun s core) m (some (0x100 + (ctxOf s ⟨core, 11⟩).trapcause.toNat)) := by
  unfold endTrapEntry abandonRun
  rw [h]

theorem finishEvent_ok {f dom : Nat} {m : Act Unit} {s t : State} (h : m s = .ok ((), t)) :
    finishEvent f dom m s = .next t := by
  unfold finishEvent
  rw [h]

theorem finishAsking_ok {f dom : Nat} {m : Act Unit} {ask : Nat → State → State} {s t : State} (h : m s = .ok ((), t)) :
    finishAsking f dom m ask s = .next t := by
  unfold finishAsking finishEvent
  rw [h]

section
variable {take : State → State} {core slot cause pc info : Nat} {s u : State}

theorem serveNotice_installed (h : Config.serviceInstalled cause = true) :
    serveNotice take core slot cause pc info s = .next (startRun (take s) core (.notice slot) Config.noticeEntry
      [numberCap slot, numberCap cause, numberCap pc, numberCap info] Config.noticeData) := if_pos h

theorem serveNotice_default (h : Config.serviceInstalled cause = false)
    (hu : defaultService ⟨core, slot⟩ (runRegisters (take s) core
      [numberCap slot, numberCap cause, numberCap pc, numberCap info] Config.noticeData) = .ok ((), u)) :
    serveNotice take core slot cause pc info s = .next u := by
  unfold serveNotice
  dsimp only
  rw [h, if_neg Bool.false_ne_true]
  refine finishAsking_ok ?_
  rw [act_modify_bind]
  exact hu

end

section
variable {core i : Nat} {s : State}

theorem messageRun_taken {m : Message} (h : nextArrival (coreOf s core) = some (i, .message m)) :
    exec (.messageRun core) s = .next (startRun (takeArrival s core i) core (.message m) (withSeal m.handler false)
      m.args (numberCap (m.package * 2 ^ 24 + m.sender.core * 2 ^ 4 + m.sender.slot))) := by
  obtain ⟨-, hopen⟩ := idle_of_nextArrival h
  show execMessageRun core s = _
  unfold execMessageRun
  rw [inTrapEntry_closed hopen, h]
  rfl

theorem trapEntry_abandons {m : Message} (hr : (coreOf s core).run = .message m) (ht : (coreOf s core).trapOpen = true) :
    let ended := acknowledge (clearRun s core) m (some (0x100 + (ctxOf s ⟨core, 11⟩).trapcause.toNat))
    exec (.messageRun core) s = .next ended ∧ exec (.trapNoticeRun core) s = .next ended := by
  dsimp only
  rw [← endTrapEntry_message hr]
  exact ⟨if_pos (inTrapEntry_message hr ht), if_pos (inTrapEntry_message hr ht)⟩

theorem trapNoticeRun_recorded {slot : Nat} {x : Context} (hr : (coreOf s core).run = .idle)
    (ht : (coreOf s core).trapOpen = false) (h : recordedTrap (coreOf s core) = some (slot, x)) :
    exec (.trapNoticeRun core) s = serveNotice (fun s => onCtx s ⟨core, slot⟩ fun y => { y with recorded := false }) core slot
      x.trapcause.toNat x.trappc.toNat x.trapinfo.toNat s := by
  show execTrapNoticeRun core s = _
  unfold execTrapNoticeRun
  dsimp only
  rw [inTrapEntry_closed ht, if_neg Bool.false_ne_true, if_pos ⟨hr, by rw [ht]; rfl⟩, h]

theorem trapNoticeRun_taken {slot cause pc info : Nat} (h : nextArrival (coreOf s core) = some (i, .notice slot cause pc info))
    (hnone : recordedTrap (coreOf s core) = none) (hput : putOff cause (ctxOf s ⟨core, slot⟩) = false) :
    exec (.trapNoticeRun core) s = serveNotice (fun s => takeArrival s core i) core slot cause pc info s := by
  obtain ⟨hidle, hopen⟩ := idle_of_nextArrival h
  show execTrapNoticeRun core s = _
  unfold execTrapNoticeRun
  dsimp only
  rw [inTrapEntry_closed hopen, if_neg Bool.false_ne_true, if_pos ⟨hidle, by rw [hopen]; rfl⟩, hnone, h]
  dsimp only
  rw [hput, if_neg Bool.false_ne_true]

theorem completionNotice_taken {slot n e : Nat} {rest : List Nat} {t : Team} (hslot : slot < 11)
    (hn : (ctxOf s ⟨core, slot⟩).notices = n :: rest) (hup : UpcallOf s ⟨core, slot⟩ t e)
    (hlive : (ctxOf s ⟨core, slot⟩).status = .live) (hwait : (ctxOf s ⟨core, slot⟩).wait = .none)
    (hhold : (ctxOf s ⟨core, slot⟩).holding = false) (hhand : (ctxOf s ⟨core, slot⟩).handler = .none)
    (hstand : standing (coreOf s core) slot = none) :
    exec (.completionNotice core slot) s = .next (onCtx (dropShadow s ⟨core, slot⟩ 4) ⟨core, slot⟩ fun y =>
      awake (coreOf s core)
        (enterUpcall t e (ctxOf s ⟨core, slot⟩).code [0, 0, 0, n] { y with notices := rest, fetched := false })) := by
  obtain ⟨hteam, he⟩ := hup
  show execCompletionNotice core slot s = _
  unfold execCompletionNotice
  dsimp only
  rw [hn, hteam, Option.bind_some, he]
  dsimp only [Option.map_some]
  exact if_pos ⟨hlive, hwait, by rw [hhold]; rfl, by rw [hhand]; rfl, hslot, by rw [hstand]; rfl⟩

end

/-- Settles O18: each event is a run started, a run abandoned or an upcall entered, by what the core of the idle system context
holds. -/
theorem systemContextRuns : Obligations.SystemContextRuns := by
  intro core i s
  refine ⟨fun m h => messageRun_taken h, fun m hr ht => trapEntry_abandons hr ht, fun slot x hr ht h => ⟨fun hin => ?_,
    fun hin u hu => ?_⟩, fun slot cause pc info h hnone => ⟨fun hin => ?_, fun hin hpre u hu => ?_⟩,
    fun slot n rest t e hslot hn hup hlive hwait hhold hhand hstand =>
      completionNotice_taken hslot hn hup hlive hwait hhold hhand hstand⟩
  · exact (trapNoticeRun_recorded hr ht h).trans (serveNotice_installed hin)
  · exact (trapNoticeRun_recorded hr ht h).trans (serveNotice_default hin hu)
  · exact (trapNoticeRun_taken h hnone (by unfold putOff; rw [hin]; exact Bool.and_false _)).trans (serveNotice_installed hin)
  · exact (trapNoticeRun_taken h hnone (by unfold putOff; rw [hpre]; rfl)).trans (serveNotice_default hin hu)

end Sys2Proof.Machine
end

section
namespace Sys2Proof.Machine
open Sys2Proof.Claims

/-! ### Queues -/

theorem queueOf_onQueue_same (s : State) (q : Nat) (f : Queue → Queue) : queueOf (onQueue s q f) q = f (queueOf s q) :=
  lookD_put_same _ _ _ _

theorem queueOf_onQueue_other (s : State) {q n : Nat} (f : Queue → Queue) (h : n ≠ q) :
    queueOf (onQueue s q f) n = queueOf s n := lookD_put_other _ _ _ _ _ h

/-! ### Doorbells and slots (R390, R392) -/

theorem bellGood_iff (s : State) (func q t : Nat) : BellGood s func q t ↔
    ¬ (qcfgFunc (queueOf s q).cfg ≠ func ∨ (!qcfgEnable (queueOf s q).cfg) = true ∨ t < (queueOf s q).consumed ∨
      t > (queueOf s q).consumed + queueDepth' (queueOf s q)) := by
  unfold BellGood queueDepth'
  rw [Bool.not_eq_true']
  cases qcfgEnable (queueOf s q).cfg <;> simp

theorem doorbell_outcome {func q : Nat} {t : BitVec 64} {s : State} (hlink : linkRuns s = true) :
    (BellGood s func q t.toNat → exec (.doorbell func q t) s = .next (onQueue s q fun x =>
      { x with bell := t.toNat, parked := false, stamped := none, retries := 0,
               slot := x.slot && (needsSlot x || (decide (x.consumed < t.toNat) && readsRing s q)) })) ∧
    (¬ BellGood s func q t.toNat → exec (.doorbell func q t) s = .next (countDrop s func)) := by
  have hgood := bellGood_iff s func q t.toNat
  have hexec : exec (.doorbell func q t) s = execDoorbell func q t s := rfl
  unfold execDoorbell at hexec
  dsimp only at hexec
  rw [hlink, Bool.not_true, if_neg Bool.false_ne_true] at hexec
  rw [hexec]
  exact ⟨fun h => if_neg (hgood.1 h), fun h => if_pos (not_not.1 (mt hgood.2 h))⟩

theorem intakeSlotAssign_next {core q : Nat} {s : State} (h : NextInLine s core q) (hheld : heldSlots s core < 16)
    (hrun : (coreOf s core).started = true) : exec (.intakeSlotAssign core) s =
      .next (takeOffered { onQueue s q (fun x => { x with slot := true }) with rounds := put s.rounds core q } q) := by
  show execIntakeSlotAssign core s = _
  unfold execIntakeSlotAssign
  dsimp only
  rcases h with hfind | ⟨hfind, hhead⟩
  · rw [hfind]
    exact if_pos ⟨hheld, hrun⟩
  · rw [hfind]
    dsimp only
    rw [hhead]
    exact if_pos ⟨hheld, hrun⟩

/-! ### Entries (R391) -/

theorem stampOf_eq (words : Nat) : stampOf words = words / 2 ^ 960 % 2 ^ 64 := by
  unfold stampOf field
  rw [show 1023 + 1 - 960 = 64 from rfl]

theorem readEntry_read {s t : State} {q words : Nat} {late : State → State} (h : NextEntry s q words t) :
    (StampGood s q words → readEntry q late s = .ok ((), takeEntry t q words)) ∧
    (¬ StampGood s q words → readEntry q late s = .ok ((), late t)) := by
  have hread : readEntry q late s = .ok ((), if stampOf words = ((queueOf s q).consumed + 1) % 2 ^ 64 then
      takeEntry t q words else late t) := by
    unfold readEntry
    rw [act_get_bind]
    exact act_bind_ok _ _ _ _ _ h.2
  rw [stampOf_eq] at hread
  exact ⟨fun hs => hread.trans (congrArg (fun u => Except.ok ((), u)) (if_pos hs)),
    fun hs => hread.trans (congrArg (fun u => Except.ok ((), u)) (if_neg hs))⟩

theorem intakeEntry_outcome {s t : State} {q words : Nat} (h : NextEntry s q words t) (hst : (queueOf s q).stamped = none) :
    (StampGood s q words → exec (.intakeEntry q) s = .next (takeEntry t q words)) ∧
    (¬ StampGood s q words → exec (.intakeEntry q) s =
      .next (onQueue t q fun x => { x with stamped := some x.consumed, retries := 0 })) := by
  obtain ⟨hgood, hlate⟩ := readEntry_read (late := fun s => onQueue s q fun x => { x with stamped := some x.consumed, retries := 0 }) h
  have hexec : exec (.intakeEntry q) s = execIntakeEntry q s := rfl
  unfold execIntakeEntry at hexec
  dsimp only at hexec
  rw [if_pos ⟨h.1, hst⟩] at hexec
  rw [hexec]
  exact ⟨fun hs => finishEvent_ok (hgood hs), fun hs => finishEvent_ok (hlate hs)⟩

theorem stampRetry_outcome {s t : State} {q words : Nat} (h : NextEntry s q words t)
    (hst : (queueOf s q).stamped = some (queueOf s q).consumed) :
    (StampGood s q words → exec (.stampRetry q) s = .next (takeEntry t q words)) ∧
    (¬ StampGood s q words → (queueOf s q).retries < 63 → exec (.stampRetry q) s =
      .next (onQueue t q fun x => { x with retries := x.retries + 1 })) ∧
    (¬ StampGood s q words → 63 ≤ (queueOf s q).retries → exec (.stampRetry q) s = .next (park t q)) := by
  obtain ⟨hgood, hlate⟩ := readEntry_read (late := fun u => if (queueOf s q).retries + 1 < 64 then
    onQueue u q fun x => { x with retries := x.retries + 1 } else park u q) h
  have hexec : exec (.stampRetry q) s = execStampRetry q s := rfl
  unfold execStampRetry at hexec
  dsimp only at hexec
  rw [if_pos ⟨h.1, hst⟩] at hexec
  rw [hexec]
  refine ⟨fun hs => finishEvent_ok (hgood hs), fun hs hr => ?_, fun hs hr => ?_⟩
  · rw [finishEvent_ok (hlate hs), if_pos (by omega)]
  · rw [finishEvent_ok (hlate hs), if_neg (by omega)]

theorem takeOffered_some {s : State} {q : Nat} {entry : BitVec 1024} (h : (queueOf s q).offered = some entry) :
    takeOffered s q = takeEntry s q entry.toNat := by
  unfold takeOffered
  rw [h]

theorem intakeWindowWrite_outcome {func q : Nat} {entry : BitVec 1024} {s : State}
    (hmode : bit (funcOf s func).fmode.toNat 0 = true) (hpage : q / 64 = (funcOf s func).page)
    (hfunc : qcfgFunc (queueOf s q).cfg = func) (hen : qcfgEnable (queueOf s q).cfg = true) (hrun : homeRuns s q = true) :
    (StampGood s q entry.toNat →
      let offered := onQueue s q fun x => { x with offered := some entry }
      ((queueOf s q).slot = true →
        exec (.intakeWindowWrite func q entry) s = .next (takeEntry offered q entry.toNat)) ∧
      ((queueOf s q).slot = false → exec (.intakeWindowWrite func q entry) s = .next offered)) ∧
    (¬ StampGood s q entry.toNat → exec (.intakeWindowWrite func q entry) s = .next (countDrop s func)) := by
  have hexec : exec (.intakeWindowWrite func q entry) s = execIntakeWindowWrite func q entry s := rfl
  unfold execIntakeWindowWrite at hexec
  dsimp only at hexec
  rw [if_pos ⟨hmode, hpage, hfunc, hen, hrun⟩, stampOf_eq] at hexec
  rw [hexec]
  refine ⟨fun hs => ⟨fun hslot => ?_, fun hslot => ?_⟩, fun hs => if_neg hs⟩
  · refine (if_pos hs).trans ?_
    rw [if_pos hslot, takeOffered_some (by rw [queueOf_onQueue_same])]
  · refine (if_pos hs).trans ?_
    rw [hslot, if_neg Bool.false_ne_true]

/-! ### QCFG (R386) -/

theorem qcfgWrite_good {q : Nat} {v : BitVec 128} {s : State} (hlink : linkRuns s = true) (hq : q ≤ 4095)
    (hcfg : CfgGood v.toNat) (hsamp : v.toNat.testBit 27 = true → samplers s q < 16) :
    exec (.qcfgWrite q v) s =
      if bit (queueOf s q).cfg.toNat 26 then
        if enableOff (queueOf s q).cfg.toNat ≠ enableOff v.toNat then .next s
        else if bit v.toNat 26 then .next s
        else .next (disableQueue s q)
      else if bit v.toNat 26 then .next (if qcbOwned s q v.toNat then s else enableQueue s q v.toNat)
      else .next (onQueue s q fun x => { x with cfg := v }) := by
  obtain ⟨hmask, hhome, hfunc, hqcb⟩ := hcfg
  have hv : BitVec.ofNat 128 v.toNat = v := by simp
  have hsample : ¬ (bit v.toNat 27 = true ∧ samplers s q ≥ 16) := fun ⟨hb, h16⟩ =>
    Nat.not_le.2 (hsamp (by rw [← bit_eq_testBit]; exact hb)) h16
  show execQcfgWrite q v s = _
  unfold execQcfgWrite
  dsimp only
  rw [hmask, if_neg hsample, hlink, hv]
  refine if_neg fun h => ?_
  rw [hv] at hhome hfunc hqcb
  rcases h with h | h | h | h | h
  · exact absurd h (by decide)
  all_goals omega

/-- Settles O19: each event's guard is what the statement assumes, and its change follows. -/
theorem queueIntake : Obligations.QueueIntake := by
  refine ⟨fun func q t s hlink => doorbell_outcome hlink, fun core q s h hheld hrun => intakeSlotAssign_next h hheld hrun,
    fun q words s t h => ⟨fun hst => intakeEntry_outcome h hst, fun hst => stampRetry_outcome h hst⟩,
    fun func q entry s hmode hpage hfunc hen hrun => intakeWindowWrite_outcome hmode hpage hfunc hen hrun,
    fun q v s hlink hq hcfg hsamp => ?_⟩
  have hexec := qcfgWrite_good hlink hq hcfg hsamp
  rw [show bit (queueOf s q).cfg.toNat 26 = qcfgEnable (queueOf s q).cfg from rfl, bit_eq_testBit v.toNat] at hexec
  rw [hexec]
  refine ⟨fun hoff => ⟨fun hb howned => ?_, fun hb => ?_⟩, fun hon hb hold => ?_⟩
  · rw [hoff, hb, howned]
    rfl
  · rw [hoff, hb]
    rfl
  · have hsame : enableOff (queueOf s q).cfg.toNat = enableOff v.toNat := by
      rw [← bit_eq_testBit] at hb
      unfold bit at hb
      simp only [beq_eq_false_iff_ne] at hb
      rw [hold]
      unfold enableOff setField field
      omega
    rw [hon, hb, if_pos rfl, if_neg (not_not.2 hsame)]
    rfl

end Sys2Proof.Machine
end

section
namespace Sys2Proof.Machine
open Sys2Proof.Claims

/-! ### Fields of a command (R394) -/

theorem commandField_eq (c : Command) {hi lo w : Nat} (h : hi + 1 - lo = w) :
    commandField c hi lo = c.words.toNat / 2 ^ lo % 2 ^ w := by
  unfold commandField field
  rw [h]

theorem commandField_bit (c : Command) (i : Nat) :
    (commandField c i i = 0 ↔ c.words.toNat.testBit i = false) ∧ (commandField c i i = 1 ↔ c.words.toNat.testBit i = true) := by
  rw [commandField_eq c (show i + 1 - i = 1 by omega), ← bit_eq_testBit]
  unfold bit
  rw [beq_eq_false_iff_ne, beq_iff_eq, Nat.pow_one]
  omega

theorem commandAddr_eq (c : Command) : commandAddr c = addressOf c := commandField_eq c rfl
theorem commandData_eq (c : Command) : commandField c 255 192 = dataOf c := commandField_eq c rfl

/-! ### The start of a command (R394, R395) -/

section
variable {s : State} {q entry opc : Nat} {c : Command}

theorem unstarted_of_mayStart {x : Queue} (h : mayStart x c = true) : c.started = false := by
  unfold mayStart at h
  simp only [Bool.and_eq_true, Bool.not_eq_true'] at h
  exact h.1.1.1

theorem begin_starts {p : Nat → Bool} {k : Command → Host.Outcome State Fault Refusal} (h : Starts s q entry opc c)
    (hp : p opc = true) : begin' s q entry p k = k c := by
  obtain ⟨hc, rfl, hmay, hrun, hgood⟩ := h
  unfold begin'
  rw [hc]
  dsimp only
  rw [hp, hmay, hrun, hgood]
  rfl

theorem begin_malformed {p : Nat → Bool} {k : Command → Host.Outcome State Fault Refusal} (h : Malformed s q entry opc c)
    (hp : p opc = true) : begin' s q entry p k = .next (retire s q entry 1) := by
  obtain ⟨hc, rfl, hmay, hrun, hgood⟩ := h
  unfold begin'
  rw [hc]
  dsimp only
  rw [hp, hmay, hrun, hgood]
  rfl

theorem busyCommand_busy (h : Busy s q entry opc c) : busyCommand s q entry opc = some c := by
  obtain ⟨hc, rfl, hs, hb, hrun⟩ := h
  unfold busyCommand
  rw [hc]
  dsimp only
  rw [hs, hb, hrun]
  simp

theorem busyCommand_unstarted (hc : commandOf (queueOf s q) entry = some c) (h : mayStart (queueOf s q) c = true)
    (opc : Nat) : busyCommand s q entry opc = none := by
  unfold busyCommand
  rw [hc]
  dsimp only
  rw [unstarted_of_mayStart h]
  rfl

/-- A malformed command retires with status 1, whatever its opcode. -/
theorem start_malformed (hopc : opc ≠ 1) (h : Malformed s q entry opc c) :
    exec (startOf opc q entry) s = .next (retire s q entry 1) := by
  have hbusy := busyCommand_unstarted h.1 h.2.2.1
  unfold startOf
  split
  · exact begin_malformed (p := (· == 2)) h rfl
  · exact begin_malformed (p := (· == 3)) h rfl
  · exact begin_malformed (p := (· == 4)) h rfl
  · exact begin_malformed (p := (· == 5)) h rfl
  · show execSwap q entry s = _
    unfold execSwap
    dsimp only
    rw [hbusy]
    exact begin_malformed (p := (· == 6)) h rfl
  · show execUnbind q entry s = _
    unfold execUnbind
    dsimp only
    rw [hbusy]
    exact begin_malformed (p := (· == 7)) h rfl
  · show execBias q entry s = _
    unfold execBias
    rw [hbusy]
    exact begin_malformed (p := (· == 8)) h rfl
  · exact begin_malformed (p := (· == 9)) h rfl
  · exact begin_malformed (p := (· == 10)) h rfl
  · refine begin_malformed (p := fun o => o == 0 || o > 10) h ?_
    simp only [imp_false] at *
    simp only [Bool.or_eq_true, beq_iff_eq, decide_eq_true_eq]
    omega

end

/-! ### WAIT, SIGNAL and FENCE (R396) -/

theorem waitMet_iff (c : Command) (v : Nat) : waitMet c v = true ↔ waitHolds c v := by
  unfold waitMet waitHolds
  rw [commandField_eq c (show 145 + 1 - 144 = 2 from rfl), commandData_eq]
  generalize c.words.toNat / 2 ^ 144 % 2 ^ 2 = n
  show _ ↔ (match n with | 0 => _ | 1 => _ | _ => _)
  split <;> simp

section
variable {s t : State} {q entry : Nat} {c : Command}

theorem waitSatisfied_read {bs : List Byte} (h : Busy s q entry 2 c)
    (ha : queueAccess s q [q] (fun a => readRange a (addressOf c) 8) = .got bs t) :
    exec (.waitSatisfied q entry) s = if waitMet c (natOfBytes bs) then .next (retire t q entry 0) else .next t := by
  show execWaitSatisfied q entry s = _
  unfold execWaitSatisfied
  rw [busyCommand_busy h]
  dsimp only
  rw [commandAddr_eq, ha]
  rfl

theorem waitSatisfied_refused (h : Busy s q entry 2 c)
    (ha : queueAccess s q [q] (fun a => readRange a (addressOf c) 8) = .refused) :
    exec (.waitSatisfied q entry) s = .next (retire s q entry 5) := by
  show execWaitSatisfied q entry s = _
  unfold execWaitSatisfied
  rw [busyCommand_busy h]
  dsimp only
  rw [commandAddr_eq, ha]
  rfl

theorem signalAct_store (h : c.words.toNat.testBit 144 = false) :
    signalAct c = fun a => writePiece a (addressOf c) (bytesOf 8 (dataOf c)) false rightST := by
  funext a
  unfold signalAct
  dsimp only
  rw [if_pos ((commandField_bit c 144).1.2 h), commandAddr_eq, commandData_eq]

theorem signalAct_add (h : c.words.toNat.testBit 144 = true) : signalAct c = (fun a => do
    let (bs, _) ← readPiece a (addressOf c) 8 rightAtomic
    writePiece a (addressOf c) (bytesOf 8 (natOfBytes bs + dataOf c)) false rightAtomic) := by
  funext a
  unfold signalAct
  dsimp only
  rw [if_neg (by rw [(commandField_bit c 144).2.2 h]; decide), commandAddr_eq, commandData_eq]

theorem signal_starts (h : Starts s q entry 3 c) : exec (.signal q entry) s =
    onAccess s q entry (queueAccess s q [] (signalAct c)) fun _ t => .next (retire t q entry 0) :=
  begin_starts (p := (· == 3)) h rfl

theorem fenceAct_store (h : addressOf c ≠ 0) :
    fenceAct c = fun a => writePiece a (addressOf c) (bytesOf 8 (dataOf c)) false rightST := by
  funext a
  unfold fenceAct
  rw [commandAddr_eq, commandData_eq, if_neg h]

theorem fenceAct_none (h : addressOf c = 0) : fenceAct c = fun _ => pure () := by
  funext a
  unfold fenceAct
  rw [commandAddr_eq, if_pos h]

theorem queueFence_starts (h : Starts s q entry 4 c) : exec (.queueFence q entry) s =
    onAccess s q entry (queueAccess s q [] (fenceAct c)) fun _ t =>
      .next (retire (onQueue t q fun q => { q with fenced := entry + 1 }) q entry 0) :=
  begin_starts (p := (· == 4)) h rfl

theorem retire_fence {status : Nat} (hc : commandOf (queueOf s q) entry = some c) (h4 : commandOpc c = 4) :
    retire s q entry status = onQueue (completeCommand (updateQcb s q) q c status) q fun x =>
      let y := { x with commands := x.commands.filter (·.entry != entry) }
      { y with slot := y.slot && (needsSlot y || !needsSlot x) } := by
  unfold retire
  rw [hc]
  dsimp only
  rw [if_pos h4]
  rfl

/-! ### BIAS (R173) -/

theorem bias_page (h : (Starts s q entry 8 c ∧ (∀ x, ¬ Busy s q entry 8 x)) ∨ Busy s q entry 8 c) :
    exec (.bias q entry) s = biasPage s q entry c := by
  show execBias q entry s = _
  unfold execBias
  rcases h with ⟨h, -⟩ | h
  · rw [busyCommand_unstarted h.1 h.2.2.1]
    exact begin_starts (p := (· == 8)) h rfl
  · rw [busyCommand_busy h]

/-- The next page of a BIAS, by what its walk finds. -/
theorem biasPage_walked {w : Walk} {u : State} (hw : walkFor (queueFunc s q) (biasNext c) s = .ok (w, u)) :
    let finding := findingOf u (queueFunc s q) (queueDomain s q) (biasNext c) 0 w
    (∀ l, w = .leaf l → finding = .present → biasPage s q entry c =
      if leafHM l.entry.toNat ∨ leafHB l.entry.toNat = biasHost c then .next (biasOn q entry c u)
      else if rangeOwned u (l.page * 2 ^ l.bits) (2 ^ l.bits) || entryBlocked u l then .next u
      else .next (biasOn q entry c (flipBias u l (biasHost c)))) ∧
    (finding = .denial ∨ finding = .unmapped → biasPage s q entry c = .next (retire u q entry 5)) := by
  have hhost : (commandField c 176 176 == 1) = biasHost c := by
    rw [Bool.eq_iff_iff, beq_iff_eq, (commandField_bit c 176).2]
    rfl
  have hnext : commandAddr c / 65536 + c.mark = biasNext c := by rw [commandAddr_eq]; rfl
  have hcount : commandField c 175 144 = c.words.toNat / 2 ^ 144 % 2 ^ 32 := commandField_eq c rfl
  have hon (t : State) : (if c.mark + 1 ≥ commandField c 175 144 then .next (retire t q entry 0)
      else .next (onCommand t q entry fun x => { x with started := true, busy := true, mark := x.mark + 1 }) :
        Host.Outcome State Fault Refusal) = .next (biasOn q entry c t) := by
    rw [hcount]
    unfold biasOn
    split <;> rfl
  dsimp only
  unfold biasPage
  dsimp only
  rw [hnext, hw, hhost]
  dsimp only
  refine ⟨fun l hl hp => ?_, fun hdenied => ?_⟩
  · subst hl
    rw [hp]
    dsimp only
    rw [hon, hon]
  · cases w with
    | leaf l => rcases hdenied with h | h <;> rw [h]
    | fails e => rcases hdenied with h | h <;> rw [h]

theorem biasHM_iff {l : Translation} : leafHM l.entry.toNat = true ∨ leafHB l.entry.toNat = biasHost c ↔
    ¬ (leafHM l.entry.toNat = false ∧ leafHB l.entry.toNat ≠ biasHost c) := by
  cases leafHM l.entry.toNat <;> simp

/-! ### SAMPLE and DOMCFG (R397, R407) -/

theorem sampleStatus_eq (v : Nat) : sampleStatus v = if v / 2 ^ 32 % 2 ^ 8 = 0 then 0 else 0x100 + v / 2 ^ 32 % 2 ^ 8 := rfl

theorem sample_outcome (h : Starts s q entry 9 c) :
    (¬ SampleMay s q → exec (.sample q entry) s = .next (retire s q entry 1)) ∧
    (SampleMay s q → exec (.sample q entry) s = onAccess s q entry (queueAccess s q [] (sampleAct s q c)) fun v t =>
      .next (retire t q entry (sampleStatus v))) := by
  have hexec : exec (.sample q entry) s = _ := begin_starts (p := (· == 9)) h rfl
  rw [hexec]
  unfold SampleMay
  rw [← bit_eq_testBit]
  exact ⟨fun hno => if_neg hno, fun hyes => if_pos hyes⟩

theorem domcfg_outcome (h : Starts s q entry 10 c) :
    (queueFunc s q ≠ 0 → exec (.domcfg q entry) s = .next (retire s q entry 1)) ∧
    (queueFunc s q = 0 → exec (.domcfg q entry) s =
      onAccess s q entry (queueAccess s q [] fun _ => domcfgAct (queueDomain s q) c) fun v t =>
        .next (retire t q entry v)) := by
  have hexec : exec (.domcfg q entry) s = _ := begin_starts (p := (· == 10)) h rfl
  rw [hexec]
  exact ⟨fun hf => if_pos hf, fun hf => if_neg (not_not.2 hf)⟩

theorem configureDomain_eq (c : Command) (s : State) : configureDomain s c = configured c s := by
  unfold configureDomain configured
  dsimp only
  rw [commandField_eq c (show 79 + 1 - 64 = 16 from rfl), commandField_eq c (show 86 + 1 - 80 = 7 from rfl),
    commandField_eq c (show 175 + 1 - 96 = 80 from rfl), commandField_eq c (show 196 + 1 - 176 = 21 from rfl),
    commandField_eq c (show 287 + 1 - 208 = 80 from rfl), commandField_eq c (show 303 + 1 - 288 = 16 from rfl),
    commandField_eq c (show 92 + 1 - 87 = 6 from rfl)]

theorem domcfg_configures {dom : Nat} (h : reachTable dom (c.words.toNat / 2 ^ 96 % 2 ^ 80) s = .ok ((), t)) :
    Configures c dom s t := by
  rw [← commandField_eq c (show 175 + 1 - 96 = 80 from rfl)] at h
  unfold Configures
  dsimp only
  unfold domcfgAct
  rw [act_bind_ok _ _ _ _ _ h, act_get_bind, commandField_eq c (show 79 + 1 - 64 = 16 from rfl)]
  refine ⟨fun hg => ?_, fun hg => ⟨fun hteam => ?_, fun hteam => ⟨fun u hu => ?_, fun u hu held v hv => ?_⟩⟩⟩
  · rw [hg]
    rfl
  · rw [hg, hteam]
    rfl
  · rw [hg, hteam]
    exact act_bind_ok _ _ _ _ _ hu
  · rw [hg, hteam]
    refine (act_bind_ok _ _ _ _ _ hu).trans ((act_bind_ok _ _ _ _ _ hv).trans ?_)
    cases held with
    | true => rfl
    | false => rw [← configureDomain_eq]; rfl

end

theorem queueCommands : Claims.QueueCommands := by
  intro q entry c s
  refine ⟨fun h => begin_starts (p := fun o => o == 0 || o > 10) h rfl, fun opc hopc h => start_malformed hopc h,
    fun h => begin_starts (p := (· == 2)) h rfl, fun h bs t ha => ⟨fun hw => ?_, fun hw => ?_⟩,
    fun h ha => waitSatisfied_refused h ha, fun h t => ⟨fun hb ha => ?_, fun hb ha => ?_, fun hb ha => ?_⟩,
    fun h t => ⟨fun hz => ⟨fun ha => ?_, fun ha => ?_⟩, fun hz ha => ?_⟩, fun status hc h4 => retire_fence hc h4,
    fun h w u hw => ⟨fun l hl hp => ⟨fun hsame => ?_, fun hm hb hown hblk => ?_⟩, fun hdenied => ?_⟩,
    fun h => ⟨(sample_outcome h).1, fun hmay ha => ?_, fun v t hmay ha => ?_⟩,
    fun h => ⟨(domcfg_outcome h).1, fun hf => ⟨fun v t ha => ?_, fun ha => ?_⟩⟩, fun dom t h => domcfg_configures h⟩
  · rw [waitSatisfied_read h ha, if_pos ((waitMet_iff c _).2 hw)]
  · rw [waitSatisfied_read h ha, if_neg (mt (waitMet_iff c _).1 hw)]
  · rw [signal_starts h, signalAct_store hb, ha]
    rfl
  · rw [signal_starts h, signalAct_add hb, ha]
    rfl
  · rw [signal_starts h, signalAct_store hb, ha]
    rfl
  · rw [queueFence_starts h, fenceAct_store hz, ha]
    rfl
  · rw [queueFence_starts h, fenceAct_store hz, ha]
    rfl
  · rw [queueFence_starts h, fenceAct_none hz, ha]
    rfl
  · rw [bias_page h, (biasPage_walked hw).1 l hl hp, if_pos hsame]
  · rw [bias_page h, (biasPage_walked hw).1 l hl hp, if_neg (mt biasHM_iff.1 (not_not.2 ⟨hm, hb⟩)), hown, hblk]
    rfl
  · rw [bias_page h, (biasPage_walked hw).2 hdenied]
  · rw [(sample_outcome h).2 hmay, ha]
    rfl
  · rw [(sample_outcome h).2 hmay, ha, ← sampleStatus_eq]
    rfl
  · rw [(domcfg_outcome h).2 hf, ha]
    rfl
  · rw [(domcfg_outcome h).2 hf, ha]
    rfl

/-! ### BIND, SWAP and UNBIND (R403 to R406) -/

theorem swap_starts {q entry : Nat} {c : Command} {s : State} (h : Starts s q entry 6 c) : exec (.swap q entry) s =
    onAccess s q entry (queueAccess s q [] fun _ => swapAct (queueHome s q) (queueDomain s q) c) fun v t =>
      if v ≠ 0 then .next (retire t q entry v)
      else .next (onCommand t q entry fun c => { c with started := true, busy := true, mark := t.names }) := by
  show execSwap q entry s = _
  unfold execSwap
  dsimp only
  rw [busyCommand_unstarted h.1 h.2.2.1]
  exact begin_starts (p := (· == 6)) h rfl

theorem unbind_starts {q entry : Nat} {c : Command} {s : State} (h : Starts s q entry 7 c) {b : Option Binding} {t : State}
    (ha : queueAccess s q [] (fun _ => validBinding (queueHome s q) (queueDomain s q) (commandIndex c)) = .got b t) :
    (b = none → exec (.unbind q entry) s = .next (retire t q entry 7)) ∧
    (b ≠ none → exec (.unbind q entry) s = .next (startCommand t q entry)) := by
  have hexec : exec (.unbind q entry) s = execUnbind q entry s := rfl
  unfold execUnbind at hexec
  dsimp only at hexec
  rw [busyCommand_unstarted h.1 h.2.2.1] at hexec
  have hstart := hexec.trans (begin_starts (p := (· == 7)) h rfl)
  rw [ha] at hstart
  rw [hstart]
  cases b with
  | none => exact ⟨fun _ => rfl, fun hb => absurd rfl hb⟩
  | some b => exact ⟨fun hb => absurd hb (Option.some_ne_none b), fun _ => rfl⟩

theorem bindingCommands : Claims.BindingCommands := by
  intro q entry c s
  refine ⟨fun h => ?_, fun h _ => ⟨fun v t ha => ⟨fun hv => ?_, fun hv => ?_⟩, fun ha => ?_⟩, fun h hb => ?_,
    fun h _ b t ha => unbind_starts h ha, fun h hb v t ha => ?_⟩
  · have hexec : exec (.bind q entry) s = _ := begin_starts (p := (· == 5)) h rfl
    rw [hexec]
    exact ⟨fun v t ha => by rw [ha]; rfl, fun ha => by rw [ha]; rfl⟩
  · rw [swap_starts h, ha]
    exact if_pos hv
  · rw [swap_starts h, ha]
    exact if_neg (not_not.2 hv)
  · rw [swap_starts h, ha]
    rfl
  · show execSwap q entry s = _
    unfold execSwap
    dsimp only
    rw [busyCommand_busy h]
    dsimp only
    rw [hb]
    rfl
  · show execUnbind q entry s = _
    unfold execUnbind
    dsimp only
    rw [busyCommand_busy h]
    dsimp only
    rw [hb, ha]
    rfl

/-- Settles O56: a command's event is its act in the queue's name, and a retirement with what the act answers. -/
theorem hostCommands : Obligations.HostCommands := ⟨queueCommands, bindingCommands⟩

end Sys2Proof.Machine
end

section
namespace Sys2Proof.Machine
open Sys2Proof.Claims

/-! ### Capabilities bounded exactly (R57, R401) -/

theorem exactCap_some {perms base len : Nat} {c : Cap} (hperms : perms < 1024) (hbase : base < 2 ^ 80)
    (h : exactCap perms base len = some c) :
    c.tag = true ∧ capPerms c = perms ∧ capAddr c = base ∧ capBounds c = some (base, base + len) := by
  unfold exactCap at h
  split at h
  case h_2 => cases h
  case h_1 e lo hi hfit =>
    split at h
    case isFalse => cases h
    case isTrue hex =>
      obtain ⟨hlo, hhi⟩ := hex
      obtain ⟨he, ⟨hl, htop⟩, -, hlo', hhi'⟩ := (fitIsSmallest.1 base len e lo hi).1 hfit
      rw [← hlo', ← hhi'] at hl
      rw [← hhi'] at htop
      cases Option.some.inj h
      have hpos := Nat.two_pow_pos e
      have hunits : base / 2 ^ e * 2 ^ e = base := hlo'.symm.trans hlo
      have hlen : (hi - lo) / 2 ^ e * 2 ^ e = len := by
        rw [hhi', hlo', ← Nat.sub_mul, Nat.mul_div_cancel _ hpos, Nat.sub_mul, ← hhi', ← hlo', hlo, hhi]
        omega
      refine ⟨rfl, ?_, ?_, ?_⟩
      · rw [capPerms_makeCap, Nat.mod_eq_of_lt hperms]
      · rw [capAddr_makeCap, Nat.mod_eq_of_lt hbase]
      · have hb := capBounds_makeCap (tag := true) (p := perms) (e := e) (l := (hi - lo) / 2 ^ e) (a := base) (base := base)
          (by omega) (by omega) hbase hunits (Nat.le_refl _) (Nat.lt_add_of_pos_right (Nat.two_pow_pos _)) (by rw [hlen]; omega)
        rw [Nat.sub_self, hlen] at hb
        exact hb

theorem seedCap_gives {x : Nat} {c : Cap} (h : seedCap x = some c) : SeedGives x c := by
  have hperm : seedPerm x = x / 2 ^ 118 % 2 ^ 10 := rfl
  have hlen : seedLen x = x / 2 ^ 80 % 2 ^ 38 := rfl
  have hbase : seedBase x = x % 2 ^ 80 := by
    unfold seedBase field
    rw [Nat.pow_zero, Nat.div_one]
  unfold seedCap at h
  unfold SeedGives
  rw [← hperm, ← hlen, ← hbase]
  by_cases hz : seedPerm x = 0
  · rw [if_pos hz] at h
    refine ⟨fun _ => ?_, fun hn => absurd hz hn⟩
    split at h
    case isTrue => cases h
    case isFalse hsmall =>
      obtain ⟨-, hhigh⟩ := not_or.1 hsmall
      have hword : seedBase x = x % 2 ^ 64 := by
        rw [hbase]
        unfold field at hhigh
        omega
      rw [← Option.some.inj h, hword]
  · rw [if_neg hz] at h
    refine ⟨fun hn => absurd hn hz, fun _ => ?_⟩
    split at h
    case isTrue => cases h
    case isFalse => exact exactCap_some (by rw [hperm]; omega) (by rw [hbase]; omega) h

/-! ### The checks of a launch that passes (R400) -/

section
variable {s : State} {dom : Nat} {d : LaunchData}

theorem launchStatus_passes (h : launchStatus s dom d = 0) :
    poolsSound d = true ∧ rangesSound s dom d = true ∧ bindingSound s dom d = true := by
  unfold launchStatus at h
  split_ifs at h
  simp_all

theorem quota_le (h : launchStatus s dom d = 0) : d.quota ≤ 11 := by
  obtain ⟨hpools, -, -⟩ := launchStatus_passes h
  unfold poolsSound at hpools
  simp only [Bool.and_eq_true, decide_eq_true_eq] at hpools
  omega

theorem seed_given (h : launchStatus s dom d = 0) {i : Nat} (hi : i < 4) : SeedGives (d.seed i) ((seedCap (d.seed i)).getD Cap.null) := by
  obtain ⟨-, hranges, -⟩ := launchStatus_passes h
  unfold rangesSound seedsSound at hranges
  simp only [Bool.and_eq_true, List.all_eq_true] at hranges
  obtain ⟨hsome, -⟩ := hranges.2 i ((mem_upFrom _ _ _).2 (by omega))
  obtain ⟨c, hc⟩ := Option.isSome_iff_exists.1 hsome
  rw [hc]
  exact seedCap_gives hc

theorem table_given (h : launchStatus s dom d = 0) (ht : d.objTab ≠ 0) :
    let c := boundedCap (permLD + permLC + permGL) d.objTab (16 * d.objCnt)
    c.tag = true ∧ capAddr c = d.objTab ∧ capBounds c = some (d.objTab, d.objTab + 16 * d.objCnt) := by
  obtain ⟨-, hranges, -⟩ := launchStatus_passes h
  unfold rangesSound at hranges
  simp only [Bool.and_eq_true, Bool.or_eq_true, beq_iff_eq] at hranges
  obtain ⟨⟨-, htab⟩, -⟩ := hranges
  obtain ⟨-, hsome⟩ := htab.resolve_left ht
  obtain ⟨c, hc⟩ := Option.isSome_iff_exists.1 hsome
  have hlt : d.objTab < 2 ^ 80 := Nat.mod_lt _ (by decide)
  obtain ⟨htag, -, haddr, hbounds⟩ := exactCap_some (by decide) hlt hc
  unfold boundedCap
  rw [hc]
  exact ⟨htag, haddr, hbounds⟩

theorem binding_given (h : launchStatus s dom d = 0) (hi : d.index ≠ 0xFFFF) : ∃ b, d.binding = some b := by
  obtain ⟨-, -, hbind⟩ := launchStatus_passes h
  unfold bindingSound at hbind
  simp only [Bool.or_eq_true, beq_iff_eq, Bool.and_eq_true] at hbind
  exact Option.isSome_iff_exists.1 (hbind.resolve_left hi).1

theorem seedsStand_of {x : Context} (h : launchStatus s dom d = 0)
    (hx : ∀ i < 4, regOf x (i + 1) = (seedsOf d).getD i Cap.null) : SeedsStand d x where
  first := by
    rw [hx 0 (by omega)]
    exact seed_given h (by omega)
  second := by
    rw [hx 1 (by omega)]
    refine ⟨fun hi => ?_, fun hi => ?_⟩
    · show SeedGives _ (if d.index = 0xFFFF then _ else _)
      rw [if_pos hi]
      exact seed_given h (by omega)
    · obtain ⟨b, hb⟩ := binding_given h hi
      refine ⟨b, hb, ?_⟩
      show (if d.index = 0xFFFF then _ else _) = _
      rw [if_neg hi, hb]
      rfl
  third := by
    rw [hx 2 (by omega)]
    have hseed := seed_given h (i := 2) (by omega)
    refine ⟨fun ht => ?_, fun ht => ?_⟩
    · show SeedGives _ (if d.objTab = 0 then _ else _)
      rw [if_pos ht]
      exact hseed
    · have htab := table_given h ht
      show SeedGives _ (if d.objTab = 0 then _ else _) ∨ _
      have hthird : (seedsOf d).getD 2 Cap.null = tableSeed d ((seedCap (d.seed 2)).getD Cap.null) := if_neg ht
      rw [hthird, if_neg ht]
      unfold tableSeed
      dsimp only
      split
      · exact Or.inr htab
      · split
        · exact Or.inr htab
        · exact Or.inl hseed
  fourth := by
    rw [hx 3 (by omega)]
    exact seed_given h (by omega)

end

/-! ### Leaders (R24, R25) -/

theorem shadow_putReg {x : Context} {n : Nat} (v : Cap) (h : n < 56) : (putReg x n v).shadow = x.shadow := by
  unfold putReg
  split
  · rfl
  · rw [if_neg (by omega)]

theorem shadow_newContext (t : Team) (kind : CtxKind) (uid : Nat) (code : Cap) (args : List Cap) (c5 c6 : Nat) (id : CtxId)
    (birth : Nat) : (newContext t kind uid code args c5 c6 id birth).shadow = [] := by
  unfold newContext
  dsimp only
  rw [shadow_putReg _ (by omega), shadow_putReg _ (by omega), shadow_putReg _ (by omega), shadow_putReg _ (by omega),
    shadow_putReg _ (by omega), shadow_putReg _ (by omega)]

/-- The leader of a slot as it starts, at a cycle of its core. -/
def leaderContext (t : Team) (seeds : List Cap) (c i uid birth cycle : Nat) : Context :=
  { newContext t .leader uid (teamCode t t.entryOff) seeds (ordinalOf t c i) (leaderCount t) ⟨c, i⟩ birth with
    ordinal := ordinalOf t c i, fetchSince := cycle, readyAt := cycle }

theorem leaderStands_leaderContext {s t : State} {dom q : Nat} {c : Command} {d : LaunchData} {cores : List Nat} {uid : Nat}
    (h : launchStatus s dom d = 0) (k i name birth cycle : Nat) :
    LeaderStands d cores k i (leaderContext (teamFrom t q c d cores uid) (seedsOf d) k i name birth cycle) := by
  have hbare := onlyRegs_newContext (teamFrom t q c d cores uid) .leader name
    (teamCode (teamFrom t q c d cores uid) (teamFrom t q c d cores uid).entryOff) (seedsOf d)
    (ordinalOf (teamFrom t q c d cores uid) k i) (leaderCount (teamFrom t q c d cores uid)) ⟨k, i⟩ birth
  obtain ⟨hargs, h5, h6, hrest⟩ := regOf_newContext (teamFrom t q c d cores uid) .leader name
    (teamCode (teamFrom t q c d cores uid) (teamFrom t q c d cores uid).entryOff) (seedsOf d)
    (ordinalOf (teamFrom t q c d cores uid) k i) (leaderCount (teamFrom t q c d cores uid)) ⟨k, i⟩ birth
  have hshadow := shadow_newContext (teamFrom t q c d cores uid) .leader name
    (teamCode (teamFrom t q c d cores uid) (teamFrom t q c d cores uid).entryOff) (seedsOf d)
    (ordinalOf (teamFrom t q c d cores uid) k i) (leaderCount (teamFrom t q c d cores uid)) ⟨k, i⟩ birth
  unfold leaderContext
  generalize newContext (teamFrom t q c d cores uid) .leader name
    (teamCode (teamFrom t q c d cores uid) (teamFrom t q c d cores uid).entryOff) (seedsOf d)
    (ordinalOf (teamFrom t q c d cores uid) k i) (leaderCount (teamFrom t q c d cores uid)) ⟨k, i⟩ birth = x at *
  refine ⟨?_, ?_, seedsStand_of h hargs, ⟨rfl, h5, h6⟩, ⟨fun n hn _ => hrest n hn, hshadow⟩, ?_, ?_⟩
  · rw [hbare]
    exact ⟨rfl, rfl, rfl, rfl⟩
  · rw [hbare]
    rfl
  · rw [hbare]
    exact ⟨rfl, rfl, rfl, rfl, rfl⟩
  · rw [hbare]
    exact ⟨rfl, rfl, rfl, rfl, rfl⟩

/-! ### Cores that take a launch (R26, R82, R213) -/

theorem look_none {α : Type} {m : SMap α} {i : Nat} (h : ∀ e ∈ m, e.1 ≠ i) : look m i = none := by
  induction m with
  | nil => rfl
  | cons e rest ih =>
    obtain ⟨j, v⟩ := e
    rw [look, if_neg (h (j, v) List.mem_cons_self)]
    exact ih fun e he => h e (List.mem_cons_of_mem _ he)

theorem putImages_sameCore (d : LaunchData) (k : Core) : SameCore k (putImages d k) :=
  foldl_keeps (SameCore k) _ _ _ (SameCore.refl k) fun _ _ h => h.trans (sameCore_stashPut _ _ _ _)

/-- A core with the boundaries of a launch, and nothing of an earlier team. -/
structure Emptied (d : LaunchData) (k : Core) : Prop where
  boundaries : k.vb = d.vb ∧ k.sb = d.sb ∧ k.cb = d.cb
  engines : k.sems = [] ∧ k.fwd = [] ∧ k.records = [] ∧ k.vocab = []

theorem Emptied.sameCore {d : LaunchData} {k k' : Core} (h : Emptied d k) (hk : SameCore k k') : Emptied d k' := by
  unfold SameCore at hk
  rw [hk]
  exact ⟨h.boundaries, h.engines⟩

/-- The core that takes a launch, with its user slots empty. -/
theorem admitCore_same {s : State} {t : Team} {d : LaunchData} (c : Nat) (hb : t.vb = d.vb ∧ t.sb = d.sb ∧ t.cb = d.cb) :
    Emptied d (coreOf (admitCore t d s c) c) ∧ ∀ i < 11, look (coreOf (admitCore t d s c) c).slots i = none := by
  unfold admitCore kernelBoundary
  dsimp only
  rw [coreOf_onCore_same, coreOf_setCore_same]
  generalize hk : ({ bareCore c (coreOf s c) with
    team := some t.uid, vb := t.vb, sb := t.sb, cb := t.cb
    slots := (bareCore c (coreOf s c)).slots.map fun (n, x) => (n, { x with copies := [] })
    ep := { (bareCore c (coreOf s c)).ep with seed := t.seed }
    route := { pitches := (d.records.getD []).map pitchOf, running := d.route != 0 } } : Core) = k
  have hempty : Emptied d k := by
    rw [← hk]
    refine ⟨hb, ?_⟩
    unfold bareCore Core.atReset
    split <;> exact ⟨rfl, rfl, rfl, rfl⟩
  have hslots : ∀ i < 11, look k.slots i = none := by
    intro i hi
    rw [← hk]
    refine look_none fun e he => ?_
    obtain ⟨e', he', rfl⟩ := List.mem_map.1 he
    have := (List.mem_filter.1 he').2
    simp only [beq_iff_eq] at this
    show e'.1 ≠ i
    omega
  have hsame := putImages_sameCore d k
  refine ⟨⟨(hempty.sameCore hsame).boundaries, (hempty.sameCore hsame).engines⟩, fun i hi => ?_⟩
  unfold SameCore at hsame
  show look (putImages d k).slots i = none
  rw [hsame]
  exact hslots i hi

theorem admitCore_other {s : State} {t : Team} {d : LaunchData} {c n : Nat} (h : n ≠ c) :
    coreOf (admitCore t d s c) n = coreOf s n := by
  unfold admitCore kernelBoundary
  dsimp only
  rw [coreOf_onCore_other _ _ _ _ h, coreOf_setCore_other _ _ _ _ h]

/-- Steps on different cores: each leaves its core as it says, if it finds it as it needs. -/
theorem foldl_cores {f : State → Nat → State} {P Q : Nat → Core → Prop} {cores : List Nat} {s : State} (hnodup : cores.Nodup)
    (hsame : ∀ s c, P c (coreOf s c) → Q c (coreOf (f s c) c)) (hother : ∀ s c n, n ≠ c → coreOf (f s c) n = coreOf s n)
    (hpre : ∀ c ∈ cores, P c (coreOf s c)) : ∀ c ∈ cores, Q c (coreOf (cores.foldl f s) c) := by
  have hkeep : ∀ (rest : List Nat) (s : State) (c : Nat), c ∉ rest → coreOf (rest.foldl f s) c = coreOf s c := by
    intro rest
    induction rest with
    | nil => exact fun _ _ _ => rfl
    | cons a rest ih =>
      intro s c hc
      obtain ⟨ha, hrest⟩ := not_or.1 (mt List.mem_cons.2 hc)
      exact (ih (f s a) c hrest).trans (hother s a c ha)
  induction cores generalizing s with
  | nil => exact fun c hc => absurd hc List.not_mem_nil
  | cons a rest ih =>
    obtain ⟨ha, hrest⟩ := List.nodup_cons.1 hnodup
    intro c hc
    rcases List.mem_cons.1 hc with rfl | hc
    · rw [List.foldl_cons, hkeep rest _ _ ha]
      exact hsame s c (hpre c List.mem_cons_self)
    · refine ih hrest (fun c' hc' => ?_) c hc
      rw [hother s a c' fun h => ha (h ▸ hc')]
      exact hpre c' (List.mem_cons_of_mem _ hc')

/-- One leader placed. -/
def placeLeader (t : Team) (seeds : List Cap) (c : Nat) (s : State) (i : Nat) : State :=
  let s := placeContext s t .leader ⟨c, i⟩ (teamCode t t.entryOff) seeds (ordinalOf t c i) (leaderCount t)
  onCtx s ⟨c, i⟩ fun x => { x with
    ordinal := ordinalOf t c i, fetchSince := (coreOf s c).cycle, readyAt := (coreOf s c).cycle }

theorem admitLeaders_eq (t : Team) (seeds : List Cap) (s : State) (c : Nat) :
    admitLeaders t seeds s c = (upFrom 0 t.quota).foldl (placeLeader t seeds c) s := rfl

theorem placeLeader_other (t : Team) (seeds : List Cap) {c n : Nat} (s : State) (i : Nat) (h : n ≠ c) :
    coreOf (placeLeader t seeds c s i) n = coreOf s n := by
  unfold placeLeader placeContext onCtx setCtx
  dsimp only
  rw [coreOf_onCore_other _ _ _ _ h, coreOf_onCore_other _ _ _ _ h, coreOf_onCore_other _ _ _ _ h]
  rfl

theorem placeLeader_same (t : Team) (seeds : List Cap) (c : Nat) (s : State) (i : Nat) :
    ∃ slots births name birth cycle, coreOf (placeLeader t seeds c s i) c = { coreOf s c with slots := slots, births := births } ∧
      ∀ j, look slots j = if j = i then some (leaderContext t seeds c i name birth cycle) else look (coreOf s c).slots j := by
  have hctx := ctxOf_placeContext s t .leader ⟨c, i⟩ (teamCode t t.entryOff) seeds (ordinalOf t c i) (leaderCount t)
  unfold placeLeader
  dsimp only
  unfold onCtx
  rw [hctx]
  generalize (coreOf (placeContext s t .leader ⟨c, i⟩ (teamCode t t.entryOff) seeds (ordinalOf t c i) (leaderCount t)) c).cycle =
    cycle
  unfold setCtx placeContext
  dsimp only
  rw [coreOf_onCore_same, coreOf_onCore_same]
  unfold setCtx
  rw [coreOf_onCore_same]
  refine ⟨_, _, s.names + 1, lookD (coreOf s c).births i 0, cycle, rfl, fun j => ?_⟩
  dsimp only
  rw [look_put, look_put]
  split
  · rfl
  · rfl

/-- The slots of a core while its leaders are placed: below `n` the leaders, above it none. -/
structure Placing (d : LaunchData) (cores : List Nat) (c n : Nat) (k : Core) : Prop where
  emptied : Emptied d k
  leaders : ∀ i < n, LeaderStands d cores c i ((look k.slots i).getD {})
  others : ∀ i, n ≤ i → i < 11 → look k.slots i = none

theorem placing_all {s t : State} {dom q : Nat} {cmd : Command} {d : LaunchData} {cores : List Nat} {uid c : Nat}
    (h : launchStatus s dom d = 0) {u : State} (h0 : Placing d cores c 0 (coreOf u c)) (n : Nat) :
    Placing d cores c n (coreOf ((List.range n).foldl (placeLeader (teamFrom t q cmd d cores uid) (seedsOf d) c) u) c) := by
  induction n with
  | zero => exact h0
  | succ n ih =>
    rw [List.range_succ, List.foldl_append]
    generalize (List.range n).foldl (placeLeader (teamFrom t q cmd d cores uid) (seedsOf d) c) u = v at ih
    obtain ⟨slots, births, name, birth, cycle, hcore, hlook⟩ :=
      placeLeader_same (teamFrom t q cmd d cores uid) (seedsOf d) c v n
    obtain ⟨⟨hb, he⟩, hl, ho⟩ := ih
    rw [List.foldl_cons, List.foldl_nil, hcore]
    refine ⟨⟨hb, he⟩, fun i hi => ?_, fun i hi hi' => ?_⟩
    · show LeaderStands d cores c i ((look slots i).getD {})
      rw [hlook]
      by_cases hin : i = n
      · rw [if_pos hin, hin]
        exact leaderStands_leaderContext h c n name birth cycle
      · rw [if_neg hin]
        exact hl i (by omega)
    · show look slots i = none
      rw [hlook, if_neg (by omega)]
      exact ho i (by omega) hi'

theorem admitLaunch_admitted {t : State} {q : Nat} {c : Command} {d : LaunchData} {cores : List Nat} (hnodup : cores.Nodup)
    (h : launchStatus t (queueDomain t q) d = 0) : AdmittedOn d cores (admitLaunch t q c d cores) := by
  have hquota := quota_le h
  have hplaced : ∀ k ∈ cores, Placing d cores k d.quota (coreOf (admitLaunch t q c d cores) k) := by
    unfold admitLaunch
    dsimp only
    generalize hteam : teamFrom (freshName t).2 q c d cores (freshName t).1 = team
    have hemptied := foldl_cores (f := admitCore team d) (P := fun _ _ => True)
      (Q := fun k x => Placing d cores k 0 x) (s := { (freshName t).2 with teams := (freshName t).2.teams ++ [team] }) hnodup
      (fun s k _ => by
        obtain ⟨he, hs⟩ := admitCore_same (s := s) (t := team) (d := d) k (by rw [← hteam]; exact ⟨rfl, rfl, rfl⟩)
        exact ⟨he, fun i hi => absurd hi (Nat.not_lt_zero i), fun i _ hi => hs i hi⟩)
      (fun s k n hn => admitCore_other hn) fun _ _ => trivial
    have hleaders := foldl_cores (f := admitLeaders team (seedsOf d)) (P := fun k x => Placing d cores k 0 x)
      (Q := fun k x => Placing d cores k d.quota x) hnodup
      (fun s k hk => by
        rw [admitLeaders_eq, upFrom_eq_range, ← hteam]
        exact placing_all h hk d.quota)
      (fun s k n hn => by
        rw [admitLeaders_eq]
        exact foldl_keeps (fun u => coreOf u n = coreOf s n) _ _ _ rfl fun u i hu =>
          (placeLeader_other team (seedsOf d) u i hn).trans hu) hemptied
    exact hleaders
  refine ⟨fun k hk => (hplaced k hk).emptied.boundaries, fun k hk i hi => (hplaced k hk).leaders i hi,
    fun k hk i hi hi' => ?_, fun k hk => (hplaced k hk).emptied.engines⟩
  unfold slotFree
  rw [(hplaced k hk).others i hi hi']

/-! ### The events of a launch (R393, R400) -/

section
variable {q entry : Nat} {c : Command} {d : LaunchData} {s t : State}

/-- A LAUNCH whose block has been read. -/
theorem launch_read (h : LaunchRead s q entry c d t) : exec (.launch q entry) s =
    if launchStatus t (queueDomain t q) d = 0 then .next (addPending t q entry d)
    else if mayStart (queueOf s q) c then
      .next (retire (dropPending (spoilStashes t d (launchStatus t (queueDomain t q) d)) q entry) q entry
        (launchStatus t (queueDomain t q) d))
    else .next t := by
  obtain ⟨hc, hopc, hstart, hrun, hgood, hread⟩ := h
  show execLaunch q entry s = _
  unfold execLaunch
  rw [hc]
  dsimp only
  rw [hstart, hrun, hgood, hread, if_neg (by simp [hopc]), Bool.not_true, if_neg Bool.false_ne_true]
  dsimp only
  generalize launchStatus t (queueDomain t q) d = st
  cases st with
  | zero => rfl
  | succ n =>
    rw [if_neg (Nat.succ_ne_zero n)]
    cases mayStart (queueOf s q) c <;> rfl

theorem launch_malformed (h : Malformed s q entry 1 c) :
    exec (.launch q entry) s = .next (retire (dropPending s q entry) q entry 1) := by
  obtain ⟨hc, hopc, hmay, hrun, hgood⟩ := h
  show execLaunch q entry s = _
  unfold execLaunch
  rw [hc]
  dsimp only
  rw [unstarted_of_mayStart hmay, hrun, hgood, hmay, if_neg (by simp [hopc])]
  rfl

theorem launchAdmit_admitted {place : List Nat} (h : LaunchRead s q entry c d t) (hmay : mayStart (queueOf s q) c = true)
    (hst : launchStatus t (queueDomain t q) d = 0)
    (hwhere : d.fixedSet = true ∨ (goodPlace place d.count = true ∧ ∃ p ∈ t.launches, p.queue = q ∧ p.entry = entry))
    (hfree : ∀ k ∈ (if d.fixedSet = true then bitmapCores (d.bitmap.getD 0) else place), coreFree t k = true)
    (hfit : slicesFit t (if d.fixedSet = true then bitmapCores (d.bitmap.getD 0) else place) = true) :
    exec (.launchAdmit q entry place) s =
      .next (admitLaunch t q c d (if d.fixedSet = true then bitmapCores (d.bitmap.getD 0) else place)) := by
  obtain ⟨hc, hopc, -, hrun, hgood, hread⟩ := h
  have hpended : (d.fixedSet || t.launches.any fun p => p.queue == q && p.entry == entry) = true := by
    rcases hwhere with hfix | ⟨-, p, hp, hpq, hpe⟩
    · rw [hfix]
      rfl
    · rw [List.any_eq_true.2 ⟨p, hp, by simp [hpq, hpe]⟩]
      exact Bool.or_true _
  refine (begin_starts (p := (· == 1)) (opc := 1) ⟨hc, hopc, hmay, hrun, hgood⟩ rfl).trans ?_
  rw [hread]
  exact if_pos ⟨hst, hpended, hwhere.imp id And.left, List.all_eq_true.2 hfree, hfit⟩

end

/-! ### Trades and ends (R27, R393) -/

theorem placementExchange_trades {a b : Nat} {s : State} (h : Trades a b) :
    (agentLoad s b + 4 < agentLoad s a → exec (.placementExchange a b) s =
      .next { s with launches := movePending a b ((agentLoad s a - agentLoad s b) / 2) s.launches }) ∧
    (agentLoad s a ≤ agentLoad s b + 4 → agentLoad s b ≤ agentLoad s a + 4 → exec (.placementExchange a b) s = .next s) := by
  have hexec : exec (.placementExchange a b) s = .next (trade s a b) := if_pos h
  rw [hexec]
  unfold trade
  dsimp only
  exact ⟨fun hgt => by rw [if_pos hgt], fun hab hba => by rw [if_neg (by omega), if_neg (by omega)]⟩

theorem teamComplete_done {uid : Nat} {t : Team} {s : State} (ht : teamBy s uid = some t) (hdone : teamDone s t = true)
    (hclear : queueClear s t.queue = true) (hwin : ∀ k ∈ t.cores, windowHeld s k = false) :
    exec (.teamComplete uid) s = .next (retire
      (removeTeam (makeAllVisible (fun p => p.team == some t.uid) s.pending.length s) t) t.queue t.entry (launchResult t)) := by
  show execTeamComplete uid s = _
  unfold execTeamComplete
  rw [ht]
  dsimp only
  rw [hdone, hclear, List.any_eq_false.2 fun k hk => by rw [hwin k hk]; decide]
  rfl

/-- Settles O20: the events are their checks and one change; of an admitted launch, each core of the set is emptied once and its
leaders are placed one after another, which leaves every other core. -/
theorem launches : Obligations.Launches := by
  refine ⟨fun q entry c d s t h => ⟨fun hst => ?_, fun hst hmay => ?_,
    fun place hmay hst hwhere hfree hfit => launchAdmit_admitted h hmay hst hwhere hfree hfit⟩,
    fun t q c d cores hnodup hst => admitLaunch_admitted hnodup hst, fun a b s h => placementExchange_trades h,
    fun q entry c s h => launch_malformed h, fun uid t s ht hdone hclear hwin => ⟨fun hended => ?_, fun cause hended => ?_⟩⟩
  · rw [launch_read h, if_pos hst]
  · rw [launch_read h, if_neg hst, if_pos hmay]
  · rw [teamComplete_done ht hdone hclear hwin]
    unfold launchResult
    rw [hended]
  · rw [teamComplete_done ht hdone hclear hwin]
    unfold launchResult
    rw [hended]

end Sys2Proof.Machine
end

section
namespace Sys2Proof.Machine
open Sys2Proof.Claims

/-- A field, by its width. -/
theorem field_eq {x hi lo w : Nat} (h : hi + 1 - lo = w) : field x hi lo = x / 2 ^ lo % 2 ^ w := by
  unfold field
  rw [h]

/-! ### Shootdowns (R415, R416) -/

section
variable {s : State} {host : Bool}

theorem requestShootdown_taken (r : Shootdown) (h : host = true → linkRuns s = true) :
    requestShootdown host r s = { s with shootdowns := s.shootdowns ++ [r] } := by
  unfold requestShootdown
  cases host with
  | false => rfl
  | true => rw [h rfl]; rfl

theorem shootdownTranslation_taken {page count : Nat} (h : host = true → linkRuns s = true) (hc : 0 < count) :
    exec (.shootdownTranslation host page count) s =
      .next { s with shootdowns := s.shootdowns ++ [.pages host page count] } := by
  show Host.Outcome.next (if count = 0 then s else requestShootdown host (.pages host page count) s) = _
  rw [if_neg (by omega), requestShootdown_taken _ h]

theorem shootdownRights_taken {dom : Nat} (h : host = true → linkRuns s = true) :
    exec (.shootdownRights host dom) s = .next { s with shootdowns := s.shootdowns ++ [.rights host dom] } :=
  congrArg Host.Outcome.next (requestShootdown_taken _ h)

theorem shootdownComplete_pages {page count : Nat} {rest : List Shootdown}
    (h : s.shootdowns = .pages host page count :: rest) (hbusy : rangeBusy s (page * 65536) (count * 65536) = false) :
    exec .shootdownComplete s =
      .next (countDone (shootRange { s with shootdowns := rest } (page * 65536) (count * 65536)) host) := by
  show execShootdownComplete s = _
  unfold execShootdownComplete
  rw [h]
  dsimp only
  rw [hbusy]
  rfl

theorem shootdownComplete_rights {dom : Nat} {rest : List Shootdown} (h : s.shootdowns = .rights host dom :: rest) :
    exec .shootdownComplete s = .next (countDone { s with
      shootdowns := rest,
      cores := s.cores.map fun (c, k) => (c, { k with grants := k.grants.filter (·.domain != dom) }) } host) := by
  show execShootdownComplete s = _
  unfold execShootdownComplete
  rw [h]

end

/-! ### Page moves (R417) -/

section
variable {s t u : State} {page pa new : Nat} {l : Translation}

theorem moveRequest_fields (hpage : page < 2 ^ 64) (hpa : pa < 2 ^ 48) (hnew : new ≤ 4095) :
    field (moveRequest page pa new).toNat 63 0 = page ∧ field (moveRequest page pa new).toNat 111 64 = pa ∧
      field (moveRequest page pa new).toNat 127 112 = new := by
  unfold moveRequest
  rw [BitVec.toNat_ofNat, Nat.mod_eq_of_lt (by omega), field_eq (show 63 + 1 - 0 = 64 from rfl),
    field_eq (show 111 + 1 - 64 = 48 from rfl), field_eq (show 127 + 1 - 112 = 16 from rfl)]
  omega

theorem performMove_done {ends : State → State} (hpage : page < 2 ^ 64) (hpa : pa < 2 ^ 48) (h : MoveMay s page pa new l t u) :
    performMove (moveRequest page pa new) ends s = .next (ends (moved page pa new l u)) := by
  obtain ⟨hfound, ⟨hbits, hhm, hnew, hown⟩, ⟨hold, hframe, hpoison⟩, hreach⟩ := h
  obtain ⟨h1, h2, h3⟩ := moveRequest_fields hpage hpa hnew
  unfold performMove
  dsimp only
  rw [h1, h2, h3, hfound]
  dsimp only
  rw [if_neg (by simp [hbits, hhm]; omega), hown, hold, hframe, hpoison, hreach]
  rfl

theorem pageMove_done (hpage : page < 2 ^ 64) (hpa : pa < 2 ^ 48) (h : MoveMay s page pa new l t u) (hlink : linkRuns s = true)
    (hfirst : ∀ r ∈ s.shootdowns, ofHost r = false) :
    exec (.pageMove (moveRequest page pa new)) s = .next (countDone (moved page pa new l u) true) := by
  have hnone : s.shootdowns.any ofHost = false := List.any_eq_false.2 fun r hr => Bool.eq_false_iff.1 (hfirst r hr)
  show execPageMove (moveRequest page pa new) s = _
  unfold execPageMove
  rw [hlink, hnone]
  exact performMove_done hpage hpa h

theorem shootdownComplete_move {rest : List Shootdown} (hpage : page < 2 ^ 64) (hpa : pa < 2 ^ 48)
    (h : MoveMay s page pa new l t u) (hs : s.shootdowns = .move (moveRequest page pa new) :: rest) :
    exec .shootdownComplete s = .next (countDone { moved page pa new l u with shootdowns := rest } true) := by
  show execShootdownComplete s = _
  unfold execShootdownComplete
  rw [hs]
  exact performMove_done hpage hpa h

end

/-! ### Page-in (R419) -/

section
variable {s : State} {n b : Nat} {t : Ticket} (ht : s.tickets.find? (·.number == n) = some t) (hk : t.kind = .evicted b)
  (hscrub : ∀ i ∈ s.scrub, ∀ d a, i.what ≠ .ring d a n)
include ht hk hscrub

theorem pageIn_evicted :
    (bit (funcOf s t.func).fmode.toNat 1 = true → exec (.pageIn n) s = .next (cancelTicket s t)) ∧
    (bit (funcOf s t.func).fmode.toNat 1 = false → ringEmpty (domainOf s t.domain) = true →
      exec (.pageIn n) s = .next (askFrames s t)) ∧
    (∀ frame v, bit (funcOf s t.func).fmode.toNat 1 = false → ringEmpty (domainOf s t.domain) = false →
      ringRead (ringPlaceOf (domainOf s t.domain)) 8 s = .ok (frame, v) → beyondStorage frame = false →
      let u := onDomain v t.domain fun d => { d with fcons := d.fcons + 1 }
      (bit (funcOf u t.func).fmode.toNat 3 = true → exec (.pageIn n) s =
        .next { u with scrub := u.scrub ++ [⟨.ring t.domain frame n, none⟩] }) ∧
      (bit (funcOf u t.func).fmode.toNat 3 = false → ∀ w, reachPageIn t frame b u = .ok ((), w) →
        exec (.pageIn n) s =
          .next (finishPageIn (zeroFrame w (domainOf w t.domain).keyid.toNat frame) t frame b))) := by
  have hexec : exec (.pageIn n) s = execPageIn n s := rfl
  unfold execPageIn at hexec
  rw [ht] at hexec
  dsimp only at hexec
  rw [hk] at hexec
  dsimp only at hexec
  rw [if_neg fun hany => by
    obtain ⟨i, hi, hr⟩ := List.any_eq_true.1 hany
    cases hw : i.what with
    | ring d a m =>
      rw [hw] at hr
      exact hscrub i hi d a (hw.trans (by rw [eq_of_beq hr]))
    | _ => rw [hw] at hr; cases hr] at hexec
  have hposts : postsWalks s (some t.func) = bit (funcOf s t.func).fmode.toNat 1 := rfl
  rw [hposts] at hexec
  refine ⟨fun h1 => ?_, fun h1 hempty => ?_, fun frame v h1 hempty hread hin => ?_⟩
  · rw [hexec, if_pos h1]
  · rw [hexec, h1, if_neg Bool.false_ne_true, if_pos hempty]
  · rw [h1, if_neg Bool.false_ne_true, hempty, if_neg Bool.false_ne_true, hread] at hexec
    dsimp only at hexec
    rw [hin, if_neg Bool.false_ne_true] at hexec
    refine ⟨fun h3 => ?_, fun h3 w hw => ?_⟩
    · rw [hexec, if_pos h3]
    · rw [h3, if_neg Bool.false_ne_true, hw] at hexec
      exact hexec

end

/-! ### Scrub (R154) -/

theorem scrub_done {s u v : State} {i dom pa : Nat} {it : ScrubItem} {va : Option Nat} (h : ScrubMay s i it dom va pa v)
    (hr : reachScrub it va pa v = .ok ((), u)) : exec (.scrub i) s =
      .next (rejoin { zeroFrame u (domainOf s dom).keyid.toNat pa with scrub := removeAt s.scrub i } it.what pa) := by
  obtain ⟨place, hit, hplace, rfl, hown, hframe, hmode, hstore⟩ := h
  show execScrub i s = _
  unfold execScrub
  rw [hit]
  dsimp only
  rw [hplace]
  dsimp only
  have howned : ¬ (place.getLeft?.any fun a => rangeOwned s a 65536) = true := fun hany => by
    obtain ⟨a, ha, hbusy⟩ := (Option.any_eq_true _ _).1 hany
    rw [hown a ha] at hbusy
    cases hbusy
  rw [if_neg howned, hframe]
  dsimp only
  rw [hstore, if_neg Bool.false_ne_true, hr]
  dsimp only
  rw [hmode]
  rfl

/-! ### Events and replies (R422, R423) -/

theorem eventWrite_room {s : State} {func : Nat} {e : HostEvent} {rest : List HostEvent} (hlink : linkRuns s = true)
    (he : (funcOf s func).events = e :: rest) (hen : bit (funcOf s func).fevr.toNat 0 = true) :
    let depth := 2 ^ field (funcOf s func).fevr.toNat 5 1
    let slot := hostBase + field (funcOf s func).fevr.toNat 63 6 * 64 + 32 * ((funcOf s func).posted % depth)
    (funcOf s func).posted < (funcOf s func).fevhead.toNat + depth →
    (blocked s slot 32 = true → exec (.eventWrite func) s = .next s) ∧
    (blocked s slot 32 = false → exec (.eventWrite func) s = .next (onFunc
      (sysStore (sysStore s slot (bytesOf 24 (eventWord e))) (slot + 24) (bytesOf 8 ((funcOf s func).posted + 1))) func
      fun x => { x with events := rest, posted := x.posted + 1 })) := by
  intro depth slot hroom
  have hexec : exec (.eventWrite func) s = execEventWrite func s := rfl
  unfold execEventWrite at hexec
  dsimp only at hexec
  rw [he] at hexec
  dsimp only at hexec
  rw [if_pos ⟨hlink, hen, hroom⟩] at hexec
  rw [hexec]
  exact ⟨fun hb => if_pos hb, fun hb => if_neg (by rw [hb]; decide)⟩

theorem eventReply_taken {s : State} {func : Nat} {r : BitVec 256} {t : Ticket} (hlink : linkRuns s = true)
    (h : Replies s func r t) :
    (t.kind = .driver ∨ (∃ b, t.kind = .evicted b) → replyResult r = 0 →
      exec (.eventReply func r) s = .next (completeService s t)) ∧
    (t.kind = .driver ∨ t.kind = .walk ∨ (∃ b, t.kind = .evicted b) → replyResult r = 1 →
      exec (.eventReply func r) s = .next (denyService s t)) ∧
    (t.kind = .walk → replyResult r = 0 → replyLevel r ≠ 3 →
      exec (.eventReply func r) s = .next (answerWalk s t (r.toNat % 2 ^ 128) (replyLevel r))) ∧
    (t.kind = .zeroing → replyResult r = 0 → exec (.eventReply func r) s =
      .next { s with tickets := s.tickets.filter (·.number != t.number) }) := by
  obtain ⟨hfind, hres, hhigh, hle⟩ := h
  have hexec : exec (.eventReply func r) s = execEventReply func r s := rfl
  unfold execEventReply at hexec
  dsimp only at hexec
  rw [hlink, Bool.not_true, if_neg Bool.false_ne_true, field_eq (show 223 + 1 - 192 = 32 from rfl),
    field_eq (show 231 + 1 - 224 = 8 from rfl), field_eq (show 129 + 1 - 128 = 2 from rfl),
    field_eq (show 191 + 1 - 130 = 62 from rfl), field_eq (show 255 + 1 - 232 = 24 from rfl),
    field_eq (show 127 + 1 - 0 = 128 from rfl), Nat.pow_zero, Nat.div_one] at hexec
  rw [show (s.tickets.find? fun t => t.number == r.toNat / 2 ^ 192 % 2 ^ 32 && t.func == func) = some t from hfind] at hexec
  dsimp only at hexec
  rw [if_neg (by rw [hres, hhigh]; unfold replyResult at hle; omega)] at hexec
  rw [hexec]
  have hresult : r.toNat / 2 ^ 224 % 2 ^ 8 = replyResult r := rfl
  have hlevel : r.toNat / 2 ^ 128 % 2 ^ 2 = replyLevel r := rfl
  rw [hresult, hlevel]
  refine ⟨fun hk h0 => ?_, fun hk h1 => ?_, fun hk h0 h3 => ?_, fun hk h0 => ?_⟩
  · rcases hk with hk | ⟨b, hk⟩ <;> rw [hk, h0] <;> rfl
  · rcases hk with hk | hk | ⟨b, hk⟩ <;> rw [hk, h1] <;> rfl
  · rw [hk]
    exact (if_neg (by rw [h0]; decide)).trans (if_neg h3)
  · rw [hk, h0]
    rfl

/-- Settles O21: each event past its guards is one change; a request that has been read, a page that has been reached or a ticket
that has been found decides which. -/
theorem pageService : Obligations.PageService := by
  intro s
  refine ⟨fun host page count dom => ⟨fun h => ⟨fun hc => shootdownTranslation_taken h hc, shootdownRights_taken h⟩, rfl,
    fun rest => ⟨fun h hbusy => shootdownComplete_pages h hbusy, fun h => shootdownComplete_rights h⟩⟩,
    fun page pa new l t u hpage hpa h => ⟨fun hlink hfirst => pageMove_done hpage hpa h hlink hfirst,
      fun rest hs => shootdownComplete_move hpage hpa h hs⟩,
    fun n t b ht hk hscrub => pageIn_evicted ht hk hscrub, fun i it dom va pa v u h hr => scrub_done h hr,
    fun func e rest hlink he hen => eventWrite_room hlink he hen, fun func r t hlink h => eventReply_taken hlink h⟩

end Sys2Proof.Machine
end

section
namespace Sys2Proof.Machine
open Sys2Proof.Claims

/-! ### Which block a write of a register reaches (R384, R408, R413, R441, R444) -/

section
variable {s : State} {v : BitVec 64}

theorem registerWrite_eventHead {func : Nat} (hl : linkRuns s = true) (hf : func ≤ 64) :
    exec (.registerWrite func (0x20000 + 64 * func) v) s = .next (onFunc s func fun x => { x with fevhead := v }) := by
  show execRegisterWrite func _ v s = _
  unfold execRegisterWrite
  rw [hl, if_neg (by simp), if_pos ⟨hf, rfl⟩]

/-- A function reaches no register but its own FEVHEAD. -/
theorem registerWrite_ofOther {func offset : Nat} (hf : func ≠ 0) (ho : offset ≠ 0x20000 + 64 * func) :
    exec (.registerWrite func offset v) s = .next s := by
  show execRegisterWrite func offset v s = _
  unfold execRegisterWrite
  rw [if_neg (c := func ≤ 64 ∧ offset = 0x20000 + 64 * func) (fun h => ho h.2), if_pos hf, ite_self]

theorem registerWrite_pf {o : Nat} (hl : linkRuns s = true) (ho : o ≠ 0x20000) (hc : o < 0xC00000) :
    exec (.registerWrite 0 o v) s = .next (writeRegister s o v) := by
  show execRegisterWrite 0 o v s = _
  unfold execRegisterWrite
  rw [hl, if_neg (by simp), if_neg (fun h => ho h.2), if_neg (by simp), if_neg (by omega)]

theorem registerWrite_package {o : Nat} (hl : linkRuns s = true) (h : 0x800 ≤ o ∧ o < 0x850) :
    exec (.registerWrite 0 o v) s = .next (writePackage s o v) := by
  rw [registerWrite_pf hl (by omega) (by omega), writeRegister, if_pos h]

theorem registerWrite_function {f r : Nat} (hl : linkRuns s = true) (hf : f ≤ 64) (hr : r < 64) :
    exec (.registerWrite 0 (0x1000 + 64 * f + r) v) s = .next (writeFunction s f r v) := by
  rw [registerWrite_pf hl (by omega) (by omega), writeRegister, if_neg (by omega), if_pos (by omega),
    show (0x1000 + 64 * f + r - 0x1000) / 64 = f by omega, show (0x1000 + 64 * f + r - 0x1000) % 64 = r by omega]

theorem registerWrite_operator {o : Nat} (hl : linkRuns s = true) (h : 0x4000 ≤ o ∧ o < 0x5000) :
    exec (.registerWrite 0 o v) s = .next (writeOperator s o v) := by
  rw [registerWrite_pf hl (by omega) (by omega), writeRegister, if_neg (by omega), if_neg (by omega), if_pos h]

theorem registerWrite_limit {f : Nat} (hl : linkRuns s = true) (hf : f ≤ 64) :
    exec (.registerWrite 0 (0x6000 + 16 * f) v) s =
      .next (onFunc s f fun x => { x with flimit := BitVec.ofNat 64 (v.toNat % 2 ^ 32) }) := by
  rw [registerWrite_pf hl (by omega) (by omega), writeRegister, if_neg (by omega), if_neg (by omega),
    if_neg (by omega), if_pos (by omega), show (0x6000 + 16 * f - 0x6000) / 16 = f by omega,
    field_eq (w := 32) rfl, Nat.pow_zero, Nat.div_one]

theorem registerWrite_domain {d r : Nat} (hl : linkRuns s = true) (hd : d < 2 ^ 16) (hr : r < 64) :
    exec (.registerWrite 0 (0x800000 + 64 * d + r) v) s = .next (writeDomain s d r v) := by
  rw [registerWrite_pf hl (by omega) (by omega), writeRegister, if_neg (by omega), if_neg (by omega),
    if_neg (by omega), if_neg (by omega), if_pos (by omega),
    show (0x800000 + 64 * d + r - 0x800000) / 64 = d by omega,
    show (0x800000 + 64 * d + r - 0x800000) % 64 = r by omega]

theorem registerWrite_capacity {d r : Nat} (hl : linkRuns s = true) (hd : d < 2 ^ 16) (hr : r < 32) :
    exec (.registerWrite 0 (0xC00000 + 32 * d + r) v) s = writeCapacity d r v s := by
  show execRegisterWrite 0 _ v s = _
  unfold execRegisterWrite
  rw [hl, if_neg (by simp), if_neg (by omega), if_neg (by simp), if_pos (by omega),
    show (0xC00000 + 32 * d + r - 0xC00000) / 32 = d by omega,
    show (0xC00000 + 32 * d + r - 0xC00000) % 32 = r by omega]

/-! ### The registers of a function -/

theorem funcHasTeam_false_iff {f : Nat} : funcHasTeam s f = false ↔ NoTeams s f := by
  simp [funcHasTeam, NoTeams]

theorem funcHasQueue_false_iff {f : Nat} : funcHasQueue s f = false ↔ NoQueues s f := by
  simp [funcHasQueue, NoQueues]

theorem segmentFixed_false_iff {f : Nat} : segmentFixed s f = false ↔ f = 0 ∨ (NoTeams s f ∧ NoQueues s f) := by
  rw [← funcHasTeam_false_iff, ← funcHasQueue_false_iff]
  by_cases h : f = 0 <;> simp [segmentFixed, h]

/-- A segment register takes its value while its function is not in use, or is the PF. -/
theorem writeFunction_segment {f : Nat} (r) (hr : r ∈ segmentRegisters v.toNat) :
    writeFunction s f r.1 v = if segmentFixed s f = true then s else onFunc s f r.2 := by
  have hfield : field v.toNat 47 21 = v.toNat / 2 ^ 21 % 2 ^ 27 := field_eq rfl
  simp only [segmentRegisters, List.mem_cons, List.not_mem_nil, or_false] at hr
  rcases hr with rfl | rfl
  · simp only [writeFunction, hfield]
  · simp only [writeFunction, hfield]

theorem registerWrite_segment {f : Nat} (hl : linkRuns s = true) (hf : f ≤ 64) (r)
    (hr : r ∈ segmentRegisters v.toNat) :
    (f = 0 ∨ (NoTeams s f ∧ NoQueues s f) →
      exec (.registerWrite 0 (0x1000 + 64 * f + r.1) v) s = .next (onFunc s f r.2)) ∧
    (f ≠ 0 → ¬ (NoTeams s f ∧ NoQueues s f) → exec (.registerWrite 0 (0x1000 + 64 * f + r.1) v) s = .next s) := by
  have hr64 : r.1 < 64 := by
    simp only [segmentRegisters, List.mem_cons, List.not_mem_nil, or_false] at hr
    rcases hr with rfl | rfl
    · exact Nat.zero_lt_succ _
    · exact Nat.lt_of_sub_eq_succ rfl
  rw [registerWrite_function hl hf hr64, writeFunction_segment r hr]
  refine ⟨fun h => ?_, fun h0 h => ?_⟩
  · rw [segmentFixed_false_iff.mpr h]
    rfl
  · have hfixed : segmentFixed s f = true := by
      rw [← Bool.not_eq_false, segmentFixed_false_iff]
      exact fun hc => hc.elim h0 h
    rw [if_pos hfixed]

theorem registerWrite_mode {f : Nat} (hl : linkRuns s = true) (hf : f ≤ 64) :
    (NoTeams s f → exec (.registerWrite 0 (0x1000 + 64 * f + 16) v) s =
      .next (onFunc s f fun x => { x with fmode := BitVec.ofNat 64 (v.toNat % 2 ^ 5) })) ∧
    (¬ NoTeams s f → exec (.registerWrite 0 (0x1000 + 64 * f + 16) v) s = .next s) := by
  have hwrite : writeFunction s f 16 v =
      if funcHasTeam s f = true then s else onFunc s f fun x => { x with fmode := BitVec.ofNat 64 (field v.toNat 4 0) } :=
    rfl
  rw [registerWrite_function hl hf (by omega), hwrite, field_eq (w := 5) rfl, Nat.pow_zero, Nat.div_one,
    ← funcHasTeam_false_iff]
  exact ⟨fun h => by rw [h]; rfl, fun h => by rw [Bool.not_eq_false] at h; rw [if_pos h]⟩

/-! ### The package registers, and the two requests (R408, R415, R417) -/

theorem registerWrite_package_still (hl : linkRuns s = true) (h : s.teams = []) :
    exec (.registerWrite 0 0x800 v) s =
      .next { s with ptroot := BitVec.ofNat 64 (v.toNat / 2 ^ 19 % 2 ^ 29 * 2 ^ 19) } ∧
    exec (.registerWrite 0 0x828 v) s =
      .next { s with swapbase := BitVec.ofNat 64 (v.toNat / 2 ^ 21 % 2 ^ 27 * 2 ^ 21) } ∧
    exec (.registerWrite 0 0x830 v) s =
      .next { s with swaplen := BitVec.ofNat 64 (v.toNat / 2 ^ 21 % 2 ^ 27 * 2 ^ 21) } := by
  have hroot : field v.toNat 47 19 = v.toNat / 2 ^ 19 % 2 ^ 29 := field_eq rfl
  have hswap : field v.toNat 47 21 = v.toNat / 2 ^ 21 % 2 ^ 27 := field_eq rfl
  have hstill : s.teams.isEmpty = true := List.isEmpty_iff.mpr h
  rw [registerWrite_package hl (by omega), registerWrite_package hl (by omega), registerWrite_package hl (by omega)]
  simp only [writePackage, hroot, hswap, hstill, if_true, and_self]

theorem registerWrite_package_busy (hl : linkRuns s = true) (h : s.teams ≠ []) :
    exec (.registerWrite 0 0x800 v) s = .next s ∧ exec (.registerWrite 0 0x828 v) s = .next s ∧
      exec (.registerWrite 0 0x830 v) s = .next s := by
  have hstill : s.teams.isEmpty = false := List.isEmpty_eq_false_iff.mpr h
  rw [registerWrite_package hl (by omega), registerWrite_package hl (by omega), registerWrite_package hl (by omega)]
  simp only [writePackage, hstill, Bool.false_eq_true, if_false, and_self]

/-- The doublewords of a request: what its high one adds to the low one. -/
theorem request_toNat (v w : BitVec 64) : (v ++ w).toNat = v.toNat * 2 ^ 64 + w.toNat := by
  rw [BitVec.toNat_append, ← Nat.shiftLeft_add_eq_or_of_lt w.isLt, Nat.shiftLeft_eq]

/-- The fields of a shootdown request, in the doublewords that hold them. -/
theorem request_fields (v w : BitVec 64) :
    field (v ++ w).toNat 127 115 = v.toNat / 2 ^ 51 ∧ field (v ++ w).toNat 114 112 = v.toNat / 2 ^ 48 % 8 ∧
      field (v ++ w).toNat 111 96 = v.toNat / 2 ^ 32 % 2 ^ 16 ∧ field (v ++ w).toNat 95 64 = v.toNat % 2 ^ 32 ∧
      field (v ++ w).toNat 63 0 = w.toNat := by
  have hv := v.isLt
  have hw := w.isLt
  rw [request_toNat, field_eq (w := 13) rfl, field_eq (w := 3) rfl, field_eq (w := 16) rfl, field_eq (w := 32) rfl,
    field_eq (w := 64) rfl]
  refine ⟨?_, ?_, ?_, ?_, ?_⟩ <;> omega

theorem commitShootdown_pages (hl : linkRuns s = true) (hk : v.toNat / 2 ^ 48 = 0) (hn : 0 < v.toNat % 2 ^ 32) :
    commitShootdown s (v ++ s.sdlow).toNat =
      { s with shootdowns := s.shootdowns ++ [.pages true s.sdlow.toNat (v.toNat % 2 ^ 32)] } := by
  obtain ⟨hzero, hkind, -, hcount, hpage⟩ := request_fields v s.sdlow
  rw [commitShootdown, hzero, hkind, hcount, hpage, if_neg (by omega), if_pos (by omega), if_neg (by omega),
    requestShootdown_taken _ fun _ => hl]

theorem commitShootdown_rights (hl : linkRuns s = true) (hk : v.toNat / 2 ^ 48 = 1) :
    commitShootdown s (v ++ s.sdlow).toNat =
      { s with shootdowns := s.shootdowns ++ [.rights true (v.toNat / 2 ^ 32 % 2 ^ 16)] } := by
  obtain ⟨hzero, hkind, hdom, -, -⟩ := request_fields v s.sdlow
  rw [commitShootdown, hzero, hkind, hdom, if_neg (by omega), if_neg (by omega), if_pos (by omega),
    requestShootdown_taken _ fun _ => hl]

theorem commitShootdown_ignored (hk : 2 ≤ v.toNat / 2 ^ 48) : commitShootdown s (v ++ s.sdlow).toNat = s := by
  obtain ⟨hzero, hkind, -, -, -⟩ := request_fields v s.sdlow
  rw [commitShootdown, hzero, hkind]
  by_cases h : v.toNat / 2 ^ 51 = 0
  · rw [if_neg (fun hc => hc h), if_neg (by omega), if_neg (by omega)]
  · rw [if_pos h]

theorem registerWrite_requests (hl : linkRuns s = true) :
    exec (.registerWrite 0 0x810 v) s = .next { s with sdlow := v } ∧
    (v.toNat / 2 ^ 48 = 0 → 0 < v.toNat % 2 ^ 32 → exec (.registerWrite 0 0x818 v) s =
      .next { s with shootdowns := s.shootdowns ++ [.pages true s.sdlow.toNat (v.toNat % 2 ^ 32)] }) ∧
    (v.toNat / 2 ^ 48 = 1 → exec (.registerWrite 0 0x818 v) s =
      .next { s with shootdowns := s.shootdowns ++ [.rights true (v.toNat / 2 ^ 32 % 2 ^ 16)] }) ∧
    (2 ≤ v.toNat / 2 ^ 48 → exec (.registerWrite 0 0x818 v) s = .next s) ∧
    exec (.registerWrite 0 0x840 v) s = .next { s with movelow := v } ∧
    exec (.registerWrite 0 0x848 v) s = .next { s with shootdowns := s.shootdowns ++ [.move (v ++ s.movelow)] } := by
  rw [registerWrite_package hl (by omega), registerWrite_package hl (by omega), registerWrite_package hl (by omega),
    registerWrite_package hl (by omega)]
  exact ⟨rfl, fun hk hn => congrArg _ (commitShootdown_pages hl hk hn), fun hk => congrArg _ (commitShootdown_rights hl hk),
    fun hk => congrArg _ (commitShootdown_ignored hk), rfl, rfl⟩

/-! ### The operator's registers (R444, R455) -/

theorem registerWrite_limits (hl : linkRuns s = true) :
    (1000 ≤ v.toNat % 2 ^ 16 → v.toNat % 2 ^ 16 ≤ 4200 →
      exec (.registerWrite 0 0x4000 v) s = .next { s with capw := BitVec.ofNat 64 (v.toNat % 2 ^ 16) }) ∧
    (100 ≤ v.toNat % 2 ^ 17 → v.toNat % 2 ^ 17 ≤ 100000 →
      exec (.registerWrite 0 0x4008 v) s = .next { s with slice := BitVec.ofNat 64 (v.toNat % 2 ^ 17) }) := by
  have hcap : field v.toNat 15 0 = v.toNat % 2 ^ 16 := by rw [field_eq (w := 16) rfl, Nat.pow_zero, Nat.div_one]
  have hslice : field v.toNat 16 0 = v.toNat % 2 ^ 17 := by rw [field_eq (w := 17) rfl, Nat.pow_zero, Nat.div_one]
  rw [registerWrite_operator hl (by omega), registerWrite_operator hl (by omega), writeOperator, writeOperator, hcap,
    hslice]
  exact ⟨fun h1 h2 => by rw [if_pos rfl, if_pos ⟨h1, h2⟩],
    fun h1 h2 => by rw [if_neg (by decide), if_pos rfl, if_pos ⟨h1, h2⟩]⟩

theorem registerWrite_bundle (hl : linkRuns s = true) (h : v.toNat % 4096 = 0) :
    exec (.registerWrite 0 0x4030 v) s = .next { s with update := { s.update with addr := v } } := by
  rw [registerWrite_operator hl (by omega), writeOperator, if_neg (by decide), if_neg (by decide), if_pos rfl, if_pos h]

/-- A weight of an OPTAB row, out of the 30 bits that the row keeps. -/
theorem optab_weight {n i : Nat} (hi : i < 4) :
    field (n % 2 ^ 30) (14 + 5 * i) (10 + 5 * i) = n / 2 ^ (10 + 5 * i) % 2 ^ 5 := by
  rw [field_eq (w := 5) (by omega)]
  have h4 : i = 0 ∨ i = 1 ∨ i = 2 ∨ i = 3 := by omega
  rcases h4 with rfl | rfl | rfl | rfl <;> omega

theorem optab_clock (n : Nat) : field n 9 0 = n % 2 ^ 10 := by
  rw [field_eq (w := 10) rfl, Nat.pow_zero, Nat.div_one]

theorem optabSound_iff {row n : Nat} (hrow : row < 8) :
    optabSound s row (n % 2 ^ 30) = true ↔ OptabKeeps s row n := by
  have hmod : n % 2 ^ 30 % 2 ^ 10 = n % 2 ^ 10 := by omega
  have hweights : (upFrom 0 4).all (fun i => decide (1 ≤ field (n % 2 ^ 30) (14 + 5 * i) (10 + 5 * i)) &&
      decide (field (n % 2 ^ 30) (14 + 5 * i) (10 + 5 * i) ≤ 16)) = true ↔
      ∀ i < 4, 1 ≤ n / 2 ^ (10 + 5 * i) % 2 ^ 5 ∧ n / 2 ^ (10 + 5 * i) % 2 ^ 5 ≤ 16 := by
    rw [List.all_eq_true]
    refine ⟨fun h i hi => ?_, fun h i hi => ?_⟩
    · have hsound := h i ((mem_upFrom 0 4 i).mpr (by omega))
      rwa [optab_weight hi, Bool.and_eq_true, decide_eq_true_eq, decide_eq_true_eq] at hsound
    · have hi4 : i < 4 := by have := (mem_upFrom 0 4 i).mp hi; omega
      rw [optab_weight hi4, Bool.and_eq_true, decide_eq_true_eq, decide_eq_true_eq]
      exact h i hi4
  unfold optabSound OptabKeeps
  simp only [optab_clock, hmod, Bool.and_eq_true, Bool.or_eq_true, decide_eq_true_eq, beq_iff_eq, hweights]
  have hfirst : (row = 0 ∨ n % 2 ^ 10 ≤ optabRow s (row - 1) % 2 ^ 10) ↔
      (0 < row → n % 2 ^ 10 ≤ optabRow s (row - 1) % 2 ^ 10) := by
    rw [Nat.pos_iff_ne_zero, ← or_iff_not_imp_left]
  have hlast : (row = 7 ∨ optabRow s (row + 1) % 2 ^ 10 ≤ n % 2 ^ 10) ↔
      (row < 7 → optabRow s (row + 1) % 2 ^ 10 ≤ n % 2 ^ 10) := by
    rw [show row < 7 ↔ ¬ row = 7 by omega, ← or_iff_not_imp_left]
  rw [hfirst, hlast]
  simp only [and_assoc]

theorem registerWrite_optab {row : Nat} (hl : linkRuns s = true) (hrow : row < 8) :
    (s.teams = [] → OptabKeeps s row v.toNat → exec (.registerWrite 0 (0x4400 + 8 * row) v) s =
      .next { s with optab := put s.optab row (BitVec.ofNat 64 (v.toNat % 2 ^ 30)) }) ∧
    (s.teams ≠ [] ∨ ¬ OptabKeeps s row v.toNat → exec (.registerWrite 0 (0x4400 + 8 * row) v) s = .next s) := by
  have hvalue : field v.toNat 29 0 = v.toNat % 2 ^ 30 := by rw [field_eq (w := 30) rfl, Nat.pow_zero, Nat.div_one]
  have hwrite : writeOperator s (0x4400 + 8 * row) v =
      if s.teams.isEmpty = true ∧ optabSound s row (v.toNat % 2 ^ 30) = true then
        { s with optab := put s.optab row (BitVec.ofNat 64 (v.toNat % 2 ^ 30)) }
      else s := by
    rw [writeOperator, if_neg (by omega), if_neg (by omega), if_neg (by omega), if_pos (by omega), hvalue,
      show (0x4400 + 8 * row - 0x4400) / 8 = row by omega]
  have hcond : (s.teams.isEmpty = true ∧ optabSound s row (v.toNat % 2 ^ 30) = true) ↔
      (s.teams = [] ∧ OptabKeeps s row v.toNat) := and_congr List.isEmpty_iff (optabSound_iff hrow)
  rw [registerWrite_operator hl (by omega), hwrite]
  exact ⟨fun h hk => by rw [if_pos (hcond.mpr ⟨h, hk⟩)],
    fun h => by rw [if_neg (fun hc => h.elim (· (hcond.mp hc).1) (· (hcond.mp hc).2))]⟩

/-! ### The registers and the capacity block of a domain (R413, R441) -/

/-- A register of a domain takes a value that it may hold. -/
theorem writeDomain_eq {d : Nat} (r) (hr : r ∈ domainRegisters v.toNat) :
    r.1 < 64 ∧ (r.2.1 → writeDomain s d r.1 v = onDomain s d r.2.2) ∧ (¬ r.2.1 → writeDomain s d r.1 v = s) := by
  have hbase : field v.toNat 47 5 = v.toNat / 2 ^ 5 % 2 ^ 43 := field_eq rfl
  have hcount : field v.toNat 12 0 = v.toNat % 2 ^ 13 := by rw [field_eq (w := 13) rfl, Nat.pow_zero, Nat.div_one]
  have hkey : field v.toNat 15 0 = v.toNat % 2 ^ 16 := by rw [field_eq (w := 16) rfl, Nat.pow_zero, Nat.div_one]
  have hring : field v.toNat 47 3 = v.toNat / 2 ^ 3 % 2 ^ 45 := field_eq rfl
  have hlog : field v.toNat 3 0 = v.toNat % 2 ^ 4 := by rw [field_eq (w := 4) rfl, Nat.pow_zero, Nat.div_one]
  have hall : BitVec.ofNat 64 v.toNat = v := BitVec.ofNat_toNat 64 v
  simp only [domainRegisters, List.mem_cons, List.not_mem_nil, or_false] at hr
  rcases hr with rfl | rfl | rfl | rfl | rfl | rfl
  · exact ⟨by simp, fun _ => by simp only [writeDomain, hbase], fun h => absurd trivial h⟩
  · exact ⟨by simp, fun h => by simp only [writeDomain, hcount, if_pos h],
      fun h => by simp only [writeDomain, hcount, if_neg h]⟩
  · exact ⟨by simp, fun h => by simp only [writeDomain, hkey, if_pos h],
      fun h => by simp only [writeDomain, hkey, if_neg h]⟩
  · exact ⟨by simp, fun _ => by simp only [writeDomain, hring], fun h => absurd trivial h⟩
  · exact ⟨by simp, fun h => by simp only [writeDomain, hlog, if_pos h],
      fun h => by simp only [writeDomain, hlog, if_neg h]⟩
  · exact ⟨by simp, fun _ => by simp only [writeDomain, hall], fun h => absurd trivial h⟩

theorem registerWrite_domainRegister {d : Nat} (hl : linkRuns s = true) (hd : d < 2 ^ 16) (r)
    (hr : r ∈ domainRegisters v.toNat) :
    (r.2.1 → exec (.registerWrite 0 (0x800000 + 64 * d + r.1) v) s = .next (onDomain s d r.2.2)) ∧
    (¬ r.2.1 → exec (.registerWrite 0 (0x800000 + 64 * d + r.1) v) s = .next s) := by
  obtain ⟨hr64, htaken, hignored⟩ := writeDomain_eq (s := s) (d := d) r hr
  rw [registerWrite_domain hl hd hr64]
  exact ⟨fun h => congrArg _ (htaken h), fun h => congrArg _ (hignored h)⟩

theorem setCapacity_eq {d : Nat} (r) (hr : r ∈ capacityRegisters v.toNat) :
    r.1 < 32 ∧ ∀ u, setCapacity u d r.1 v = onDomain u d r.2 := by
  have hlow : field v.toNat 31 0 = v.toNat % 2 ^ 32 := by rw [field_eq (w := 32) rfl, Nat.pow_zero, Nat.div_one]
  have hall : BitVec.ofNat 64 v.toNat = v := BitVec.ofNat_toNat 64 v
  simp only [capacityRegisters, List.mem_cons, List.not_mem_nil, or_false] at hr
  rcases hr with rfl | rfl | rfl | rfl
  · exact ⟨by simp, fun u => by simp only [setCapacity, hall]⟩
  · exact ⟨by simp, fun u => by simp only [setCapacity, hlow]⟩
  · exact ⟨by simp, fun u => by simp only [setCapacity, hall]⟩
  · exact ⟨by simp, fun u => by simp only [setCapacity, hlow]⟩

/-- The machine's own team is no team of the domain. -/
theorem domainHasTeam_pfReads (d e : Nat) : domainHasTeam (pfReads s d) e = domainHasTeam s e := by
  simp [domainHasTeam, pfReads, blankTeam]

theorem withoutBlank_pfReads {d : Nat} (h : ∀ t ∈ s.teams, t.uid ≠ machineUid) : withoutBlank (pfReads s d) = s := by
  have hfilter : (pfReads s d).teams.filter (·.uid != machineUid) = s.teams := by
    have hhead : ((blankTeam 0 d).uid != machineUid) = false := bne_self_eq_false _
    rw [pfReads, List.filter_cons_of_neg (by rw [hhead]; exact Bool.false_ne_true),
      List.filter_eq_self.mpr fun t ht => bne_iff_ne.mpr (h t ht)]
  show ({ pfReads s d with teams := (pfReads s d).teams.filter (·.uid != machineUid) } : State) = s
  rw [hfilter]
  rfl

theorem writeCapacity_of_ok {d o : Nat} {t : State} (h : capacityAct d o v (pfReads s d) = .ok ((), t)) :
    writeCapacity d o v s = .next (withoutBlank t) := by
  have hin : inName 0 d (capacityAct d o v) s = .ok ((), withoutBlank t) := by
    have hblank : capacityAct d o v { s with teams := blankTeam 0 d :: s.teams } = .ok ((), t) := h
    rw [inName, hblank]
  rw [writeCapacity, hin]

theorem registerWrite_capacity_busy {d : Nat} (hl : linkRuns s = true) (hd : d < 2 ^ 16) (r)
    (hr : r ∈ capacityRegisters v.toNat) (hteam : domainHasTeam s d = true)
    (hm : ∀ t ∈ s.teams, t.uid ≠ machineUid) :
    exec (.registerWrite 0 (0xC00000 + 32 * d + r.1) v) s = .next s := by
  have hact : capacityAct d r.1 v (pfReads s d) = .ok ((), pfReads s d) := by
    unfold capacityAct
    rw [act_get_bind, act_get_bind, domainHasTeam_pfReads, hteam]
    rfl
  rw [registerWrite_capacity hl hd (setCapacity_eq (d := d) r hr).1, writeCapacity_of_ok hact,
    withoutBlank_pfReads hm]

theorem registerWrite_capacity_idle {d : Nat} (hl : linkRuns s = true) (hd : d < 2 ^ 16) (r)
    (hr : r ∈ capacityRegisters v.toNat) (hteam : domainHasTeam s d = false) {bound : Bool} {t : State}
    (hb : someBinding (domainOf s d) (pfReads s d) = .ok (bound, t)) :
    (bound = true → exec (.registerWrite 0 (0xC00000 + 32 * d + r.1) v) s = .next (withoutBlank t)) ∧
    (bound = false → ∀ held u, someSlot (domainOf s d) t = .ok (held, u) →
      exec (.registerWrite 0 (0xC00000 + 32 * d + r.1) v) s =
        .next (withoutBlank (if held = true then u else onDomain u d r.2))) := by
  obtain ⟨hr32, hset⟩ := setCapacity_eq (d := d) r hr
  have hdom : domainOf (pfReads s d) d = domainOf s d := rfl
  rw [registerWrite_capacity hl hd hr32]
  refine ⟨fun h => writeCapacity_of_ok ?_, fun h held u hs => writeCapacity_of_ok ?_⟩
  · subst h
    unfold capacityAct
    rw [act_get_bind, act_get_bind, domainHasTeam_pfReads, hteam, hdom]
    exact act_bind_ok _ _ _ _ _ hb
  · subst h
    unfold capacityAct
    rw [act_get_bind, act_get_bind, domainHasTeam_pfReads, hteam, hdom]
    refine (act_bind_ok _ _ _ _ _ hb).trans ((act_bind_ok _ _ _ _ _ hs).trans ?_)
    cases held with
    | true => rfl
    | false => exact congrArg (fun x => Except.ok ((), x)) (hset u)

end

/-! ### Accesses of the host (R171, R385, R453) -/

/-- The pieces of a range stand in the sectors of its bytes, and every byte's sector has its piece. -/
theorem any_piecesFrom (p : Nat → Bool) (fuel a n : Nat) (h : n = 0 ∨ a % 64 + n ≤ 64 * fuel) :
    (piecesFrom fuel a n).any (fun e => p (e.1 / 64)) = true ↔ ∃ k < n, p ((a + k) / 64) = true := by
  induction fuel generalizing a n with
  | zero =>
    have hn : n = 0 := by omega
    subst hn
    simp [piecesFrom]
  | succ fuel ih =>
    by_cases hn : n = 0
    · subst hn
      simp [piecesFrom]
    · rw [piecesFrom_step hn, List.any_cons, Bool.or_eq_true]
      generalize hm : min n (64 - a % 64) = m
      rw [ih (a + m) (n - m) (by omega)]
      constructor
      · rintro (h0 | ⟨k, hk, hp⟩)
        · exact ⟨0, by omega, h0⟩
        · exact ⟨m + k, by omega, by rwa [Nat.add_assoc] at hp⟩
      · rintro ⟨k, hk, hp⟩
        by_cases hkm : k < m
        · left
          rwa [show (a + k) / 64 = a / 64 by omega] at hp
        · right
          exact ⟨k - m, by omega, by rwa [show a + m + (k - m) = a + k by omega]⟩

theorem any_pieces (p : Nat → Bool) (a n : Nat) :
    (pieces a n).any (fun e => p (e.1 / 64)) = (List.range n).any fun k => p ((a + k) / 64) := by
  rw [Bool.eq_iff_iff, pieces, any_piecesFrom p _ a n (by omega), List.any_eq_true]
  exact exists_congr fun k => and_congr_left fun _ => List.mem_range.symm

section
variable {s : State} {pa size : Nat}

/-- What the host reads is poison where one of its bytes stands in a poisoned sector. -/
theorem hostReads_eq : hostReads pa size s = hostLoad (recallAll s pa size false) pa size := by
  unfold hostLoad hostReads
  rw [any_pieces (memNat _)]

theorem hostAccess_reads (h : blocked s pa size = false) :
    hostAccess s pa size none = .next (hostReads pa size s) := by
  have hstay : ¬ blocked s pa size = true := by rw [h]; exact Bool.false_ne_true
  exact (if_neg hstay).trans (congrArg Host.Outcome.next hostReads_eq.symm)

theorem hostAccess_writes {bs : List Byte} (h : blocked s pa bs.length = false) :
    hostAccess s pa size (some bs) = .next (hostWrites pa bs s) := by
  have hstay : ¬ blocked s pa bs.length = true := by rw [h]; exact Bool.false_ne_true
  exact if_neg hstay

theorem hostMemAccess_reads (ha : hostBase ≤ pa ∨ (linkRuns s = true ∧ pa + size ≤ Config.hbmBytes))
    (h : blocked s pa size = false) : exec (.hostMemAccess pa size none) s = .next (hostReads pa size s) :=
  (if_pos ha).trans (hostAccess_reads h)

theorem hostMemAccess_writes {bs : List Byte}
    (ha : hostBase ≤ pa ∨ (linkRuns s = true ∧ pa + bs.length ≤ Config.hbmBytes))
    (h : blocked s pa bs.length = false) : exec (.hostMemAccess pa size (some bs)) s = .next (hostWrites pa bs s) :=
  (if_pos ha).trans (hostAccess_writes h)

/-- An access through a VF's BAR4 goes to its segment, where the segment holds all of it and HBM too. -/
theorem segmentWindowAccess_inside {func offset : Nat} {data : Option (List Byte)} (n : Nat)
    (hn : n = (data.map List.length).getD size) (hl : linkRuns s = true) (h1 : 1 ≤ func) (h2 : func ≤ 64)
    (ho : offset < segLen (funcOf s func)) (he : offset + n ≤ segLen (funcOf s func))
    (hb : segBase (funcOf s func) + offset + n ≤ Config.hbmBytes) :
    exec (.segmentWindowAccess func offset size data) s =
      hostAccess s (segBase (funcOf s func) + offset) size data := by
  have hruns : ¬ ((!linkRuns s) = true ∨ func = 0 ∨ func > 64) := by rw [hl]; simp; omega
  subst hn
  show execSegmentWindowAccess func offset size data s = _
  cases data with
  | none => exact (if_neg hruns).trans ((if_pos ⟨he, ho⟩).trans (if_pos hb))
  | some bs => exact (if_neg hruns).trans ((if_pos ⟨he, ho⟩).trans (if_pos hb))

theorem segmentWindowAccess_beyond {func offset : Nat} (hl : linkRuns s = true) (h1 : 1 ≤ func) (h2 : func ≤ 64)
    (ho : segLen (funcOf s func) ≤ offset) :
    exec (.segmentWindowAccess func offset size none) s =
      .next { s with hostRead := List.replicate size 255, hostPoison := false } ∧
    ∀ bs : List Byte, exec (.segmentWindowAccess func offset size (some bs)) s = .next s := by
  have hruns : ¬ ((!linkRuns s) = true ∨ func = 0 ∨ func > 64) := by rw [hl]; simp; omega
  exact ⟨(if_neg hruns).trans (if_neg fun hc => Nat.not_lt.mpr ho hc.2),
    fun bs => (if_neg hruns).trans (if_neg fun hc => Nat.not_lt.mpr ho hc.2)⟩

/-! ### The key store (R429) -/

section
variable {h : BitVec 32}

theorem keyKnown_false_iff : keyKnown s h = false ↔ ∀ k ∈ s.keys, k.handle ≠ h := by
  simp [keyKnown]

theorem keyBy_none (hk : ∀ k ∈ s.keys, k.handle ≠ h) : keyBy s h = none :=
  List.find?_eq_none.mpr fun k hm => by simpa using hk k hm

theorem keyCreate_fresh (h0 : h ≠ 0) (hk : ∀ k ∈ s.keys, k.handle ≠ h) (hn : s.keys.length < 65536) :
    exec (.keyCreate h) s = .next { s with
      keys := s.keys ++ [⟨h, s.creates, 0, false⟩], creates := s.creates + 1, trust := trustWord 0 h.toNat } := by
  show (if h = 0 ∨ keyKnown s h then Host.Outcome.next s else .next (createKey s h)) = _
  rw [keyKnown_false_iff.mpr hk, if_neg (by simpa using h0), createKey, if_neg (by omega)]
  rfl

theorem trust_handle : field s.trust.toNat 31 0 = s.trust.toNat % 2 ^ 32 := by
  rw [field_eq (w := 32) rfl, Nat.pow_zero, Nat.div_one]

theorem keyCommands_unknown (hk : ∀ k ∈ s.keys, k.handle ≠ h) :
    exec (.keyDestroy h) s = .next { s with trust := trustWord 2 (s.trust.toNat % 2 ^ 32) } ∧
    exec (.keyQuery h) s = .next { s with trust := trustWord 2 (s.trust.toNat % 2 ^ 32) } := by
  constructor
  · show Host.Outcome.next (destroyKey s h) = _
    rw [destroyKey, keyKnown_false_iff.mpr hk, trust_handle]
    rfl
  · show Host.Outcome.next (queryKey s h) = _
    rw [queryKey, keyBy_none hk, trust_handle]
    rfl

theorem keyCommands_known {k : ContextKey} (hk : s.keys.find? (·.handle == h) = some k) :
    exec (.keyDestroy h) s = .next { s with
      keys := s.keys.filter (·.handle != h), trust := trustWord 0 (s.trust.toNat % 2 ^ 32) } ∧
    exec (.keyQuery h) s = .next { s with trust := trustWord 0 h.toNat, rcount := k.counter } := by
  have hknown : keyKnown s h = true :=
    List.any_eq_true.mpr ⟨k, List.mem_of_find?_eq_some hk, (List.find?_eq_some_iff_append.mp hk).1⟩
  have hby : keyBy s h = some k := hk
  constructor
  · show Host.Outcome.next (destroyKey s h) = _
    rw [destroyKey, if_pos hknown, trust_handle]
    rfl
  · show Host.Outcome.next (queryKey s h) = _
    rw [queryKey, hby]
    rfl

end

end

/-- Settles O22: a write of a register goes to its block by its offset, where each block takes or ignores it; a host access
recalls what the device holds and then reads or writes; a key command leaves its status. -/
theorem hostPort : Obligations.HostPort := by
  intro s
  refine ⟨fun func v hl hf => registerWrite_eventHead hl hf, fun func offset v hf ho => registerWrite_ofOther hf ho,
    fun f v hl hf => ⟨fun r hr => registerWrite_segment hl hf r hr, (registerWrite_mode hl hf).1,
      (registerWrite_mode hl hf).2, registerWrite_function hl hf (by omega), registerWrite_limit hl hf⟩,
    fun v hl => ⟨fun h => registerWrite_package_still hl h, fun h => registerWrite_package_busy hl h,
      fun h => registerWrite_bundle hl h, fun row hrow => registerWrite_optab hl hrow⟩,
    fun d v hl hd => ⟨fun r hr => registerWrite_domainRegister hl hd r hr, fun r hr =>
      ⟨fun hteam hm => registerWrite_capacity_busy hl hd r hr hteam hm,
        fun hteam bound t hb => registerWrite_capacity_idle hl hd r hr hteam hb⟩⟩,
    fun v hl => ⟨(registerWrite_limits hl).1, (registerWrite_limits hl).2, registerWrite_requests hl⟩,
    fun func offset size hl h1 h2 => ?_, fun a size ha h => hostMemAccess_reads ha h,
    fun a size bs ha h => hostMemAccess_writes ha h, fun h h0 hk hn => keyCreate_fresh h0 hk hn,
    fun h => ⟨fun hk => keyCommands_unknown hk, fun k hk => keyCommands_known hk⟩⟩
  refine ⟨fun ho he hb h => ?_, fun ho => (segmentWindowAccess_beyond hl h1 h2 ho).1, fun bs =>
    ⟨fun ho he hb h => ?_, fun ho => (segmentWindowAccess_beyond hl h1 h2 ho).2 bs⟩⟩
  · exact (segmentWindowAccess_inside size rfl hl h1 h2 ho he hb).trans (hostAccess_reads h)
  · exact (segmentWindowAccess_inside bs.length rfl hl h1 h2 ho he hb).trans (hostAccess_writes h)

end Sys2Proof.Machine
end

section
namespace Sys2Proof.Machine
open Sys2Proof.Claims

/-! ### What the end of a team leaves of the partitions (R449, R450)

What a team's contexts, views, messages and stores leave behind touches cores, memory, domains and what swapped-out contexts
hold; it moves no team in or out, no launch, no reset that has begun and no queue. -/

/-- What a reset says of a team: its name, its function, where it stands and whether it has ended. -/
def memberOf (t : Team) : Nat × Nat × List Nat × Bool × Option Nat := (t.uid, t.func, t.cores, t.resident, t.ended)

/-- The teams, the pending launches and the count of resets stand. -/
structure SameStaff (s t : State) : Prop where
  members : t.teams.map memberOf = s.teams.map memberOf
  launches : t.launches = s.launches
  prdone : t.prdone = s.prdone

/-- The queues and the resets that have begun stand too. -/
structure SameRoster (s t : State) : Prop extends SameStaff s t where
  queues : t.queues = s.queues
  resets : t.resets = s.resets

section
variable {s t u : State}

theorem SameStaff.refl (s : State) : SameStaff s s := ⟨rfl, rfl, rfl⟩

theorem SameStaff.trans (h : SameStaff s t) (h' : SameStaff t u) : SameStaff s u :=
  ⟨h'.members.trans h.members, h'.launches.trans h.launches, h'.prdone.trans h.prdone⟩

theorem SameRoster.refl (s : State) : SameRoster s s := ⟨.refl s, rfl, rfl⟩

theorem SameRoster.trans (h : SameRoster s t) (h' : SameRoster t u) : SameRoster s u :=
  ⟨h.toSameStaff.trans h'.toSameStaff, h'.queues.trans h.queues, h'.resets.trans h.resets⟩

/-- A change of anything else. -/
theorem SameRoster.of_eq (ht : t.teams = s.teams) (hl : t.launches = s.launches) (hp : t.prdone = s.prdone)
    (hq : t.queues = s.queues) (hr : t.resets = s.resets) : SameRoster s t := ⟨⟨congrArg _ ht, hl, hp⟩, hq, hr⟩

theorem SameStaff.foldl {α : Type} {f : State → α → State} (h : ∀ s a, SameStaff s (f s a)) (l : List α) (s : State) :
    SameStaff s (l.foldl f s) :=
  foldl_keeps (SameStaff s) f l s (.refl s) fun _ a hb => hb.trans (h _ a)

theorem SameRoster.foldl {α : Type} {f : State → α → State} (h : ∀ s a, SameRoster s (f s a)) (l : List α) (s : State) :
    SameRoster s (l.foldl f s) :=
  foldl_keeps (SameRoster s) f l s (.refl s) fun _ a hb => hb.trans (h _ a)

theorem MemOnly.sameRoster (h : MemOnly s t) : SameRoster s t := by
  have hstate := h.state
  refine .of_eq ?_ ?_ ?_ ?_ ?_ <;> rw [hstate]

/-- A change of each team that keeps what a reset says of it. -/
theorem sameRoster_mapTeams {f : Team → Team} (hf : ∀ t, memberOf (f t) = memberOf t) (s : State) :
    SameRoster s { s with teams := s.teams.map f } :=
  ⟨⟨by rw [List.map_map]; exact List.map_congr_left fun t _ => hf t, rfl, rfl⟩, rfl, rfl⟩

end

theorem sameRoster_onCore (s : State) (c : Nat) (f : Core → Core) : SameRoster s (onCore s c f) :=
  .of_eq rfl rfl rfl rfl rfl
theorem sameRoster_onCtx (s : State) (id : CtxId) (f : Context → Context) : SameRoster s (onCtx s id f) :=
  .of_eq rfl rfl rfl rfl rfl
theorem sameRoster_setGranule (s : State) (d i : Nat) (g : Granule) : SameRoster s (setGranule s d i g) :=
  .of_eq rfl rfl rfl rfl rfl

/-! #### Views and claims -/

theorem sameRoster_uncover (s : State) (g : Nat) : SameRoster s (uncover s g) := by
  unfold uncover
  split
  · exact .refl s
  · dsimp only
    split
    · exact sameRoster_setGranule _ _ _ _
    all_goals exact .refl s

theorem sameRoster_dropView (s : State) (v : Cap) : SameRoster s (dropView s v) := by
  unfold dropView
  split
  · split
    · exact SameRoster.foldl sameRoster_uncover _ _
    · exact .refl s
  · exact .refl s

theorem sameRoster_dropAll (s : State) (vs : List Cap) : SameRoster s (dropAll s vs) :=
  SameRoster.foldl sameRoster_dropView _ _

theorem sameRoster_dropViewsOf (s : State) (x : Context) : SameRoster s (dropViewsOf s x) :=
  SameRoster.foldl (fun s (e : Nat × Cap) => sameRoster_dropView s e.2) _ _

theorem sameRoster_dropParked (s : State) (c : Nat) : SameRoster s (dropParked s c) :=
  SameRoster.foldl (fun s (e : Nat × Cap) => sameRoster_dropView s e.2) _ _

theorem sameRoster_claimGranules (s : State) (dom base n : Nat) (claimed : Bool) :
    SameRoster s (claimGranules s dom base n claimed) :=
  SameRoster.foldl (fun s i => sameRoster_setGranule s _ i _) _ _

theorem sameRoster_dropClaim (s : State) (x : Context) : SameRoster s (dropClaim s x) := by
  unfold dropClaim
  split
  · split
    · exact sameRoster_claimGranules _ _ _ _ _
    · exact .refl s
  · exact .refl s

theorem sameRoster_clearViews (s : State) (id : CtxId) : SameRoster s (clearViews s id) :=
  (sameRoster_dropViewsOf _ _).trans (sameRoster_onCtx _ _ _)

theorem sameRoster_discardContext (s : State) (id : CtxId) : SameRoster s (discardContext s id) := by
  unfold discardContext
  refine SameRoster.trans ?_ (sameRoster_onCore _ _ _)
  exact (sameRoster_dropViewsOf _ _).trans (sameRoster_dropClaim _ _)

/-! #### Messages -/

theorem sameRoster_onUid (s : State) (uid : Nat) (f : Context → Context) : SameRoster s (onUid s uid f) := by
  unfold onUid
  split
  · exact sameRoster_onCtx _ _ _
  · refine sameRoster_mapTeams ?_ s
    exact fun _ => rfl

theorem sameRoster_acknowledge (s : State) (m : Message) (failed : Option Nat) : SameRoster s (acknowledge s m failed) := by
  unfold acknowledge
  split
  · exact .refl s
  · exact sameRoster_onUid _ _ _

theorem sameRoster_loseMessage (s : State) (m : Message) : SameRoster s (loseMessage s m) :=
  (sameRoster_dropAll _ _).trans (sameRoster_acknowledge _ _ _)

theorem sameRoster_dropArrivals (s : State) (uid c : Nat) : SameRoster s (dropArrivals s uid c) :=
  (sameRoster_onCore _ _ _).trans (SameRoster.foldl sameRoster_loseMessage _ _)

/-! #### What a system context runs, and a core without its team -/

theorem sameRoster_clearRun (s : State) (c : Nat) : SameRoster s (clearRun s c) := by
  unfold clearRun
  refine SameRoster.trans ?_ (sameRoster_onCore _ _ _)
  refine SameRoster.trans ?_ (sameRoster_onCtx _ _ _)
  exact (sameRoster_dropClaim _ _).trans (sameRoster_clearViews _ _)

theorem sameRoster_abandonRun (s : State) (c condition : Nat) : SameRoster s (abandonRun s c condition) := by
  unfold abandonRun
  split
  · exact (sameRoster_clearRun _ _).trans (sameRoster_acknowledge _ _ _)
  all_goals exact sameRoster_clearRun _ _

theorem sameRoster_abandonRunOf (s : State) (uid c : Nat) : SameRoster s (abandonRunOf s uid c) := by
  unfold abandonRunOf
  split
  · exact sameRoster_abandonRun _ _ _
  · exact .refl s

theorem sameRoster_writeBackAll (s : State) (c : Nat) : SameRoster s (writeBackAll s c) :=
  SameRoster.foldl (fun s _ => SameRoster.foldl (fun s _ => (memOnly_writeBack s _ _ _).sameRoster) _ s) _ _

theorem sameRoster_clearTeamCore (t : Team) (s : State) (c : Nat) : SameRoster s (clearTeamCore t s c) := by
  unfold clearTeamCore
  have hleft (s : State) : SameRoster s (dropArrivals (abandonRunOf s t.uid c) t.uid c) :=
    (sameRoster_abandonRunOf _ _ _).trans (sameRoster_dropArrivals _ _ _)
  split
  · refine SameRoster.trans ?_ ((sameRoster_onCore _ c (bareCore c)).trans (sameRoster_onCore _ _ _))
    refine SameRoster.trans ?_ (hleft _)
    refine SameRoster.trans ?_ (SameRoster.foldl (fun s (e : Nat × Context) => sameRoster_discardContext s ⟨c, e.1⟩) _ _)
    exact (sameRoster_dropParked _ _).trans (sameRoster_writeBackAll _ _)
  · exact hleft s

theorem sameRoster_clearMigrated (t : Team) (s : State) (c : Nat) : SameRoster s (clearMigrated t s c) :=
  SameRoster.foldl (fun s (e : Nat × Context) => sameRoster_discardContext s ⟨c, e.1⟩) _ _

/-! #### A team goes -/

theorem memOnly_makeVisible (s : State) (i : Nat) : MemOnly s (makeVisible s i) := by
  cases h : s.pending[i]? with
  | none =>
    unfold makeVisible
    rw [h]
    exact .refl s
  | some p =>
    rw [makeVisible_eq h]
    refine MemOnly.trans (.of_cores rfl) ((MemOnly.foldl fun t e _ => ?_).trans (.of_cores rfl))
    exact memOnly_physPut t _ _ _ _

theorem sameRoster_makeAllVisible (p : PendingStore → Bool) (fuel : Nat) (s : State) :
    SameRoster s (makeAllVisible p fuel s) := by
  induction fuel generalizing s with
  | zero => exact .refl s
  | succ fuel ih =>
    unfold makeAllVisible
    split
    · exact .refl s
    · exact (memOnly_makeVisible _ _).sameRoster.trans (ih _)

/-- The teams of a name are gone; nothing else of the roster changes. -/
theorem removeTeam_roster (s : State) (t : Team) :
    ∃ u, SameRoster s u ∧ removeTeam s t = { destroyKeys u t with teams := u.teams.filter (·.uid != t.uid) } := by
  refine ⟨_, ?_, rfl⟩
  refine SameRoster.trans ?_ (SameRoster.foldl (sameRoster_clearTeamCore t) _ _)
  refine SameRoster.trans ?_ (SameRoster.foldl (sameRoster_clearMigrated t) _ _)
  refine SameRoster.trans ?_ (SameRoster.foldl (fun s _ => SameRoster.foldl sameRoster_loseMessage _ s) _ _)
  refine SameRoster.trans ?_ (SameRoster.foldl
    (fun s _ => SameRoster.foldl (fun s (p : Nat × Cap) => sameRoster_dropView s p.2) _ s) _ _)
  refine SameRoster.trans ?_ (SameRoster.foldl (fun s _ => sameRoster_dropViewsOf s _) _ _)
  refine SameRoster.trans ?_ (SameRoster.foldl (fun s _ => sameRoster_dropViewsOf s _) _ _)
  exact sameRoster_makeAllVisible _ _ _

end Sys2Proof.Machine
end

section
namespace Sys2Proof.Machine
open Sys2Proof.Claims

/-! ### The teams of a partition are discarded (R450, steps 1 and 2) -/

/-- The teams of some names are gone. -/
structure Removed (uids : List Nat) (s t : State) : Prop where
  members : t.teams.map memberOf = (s.teams.map memberOf).filter fun m => !uids.contains m.1
  launches : t.launches = s.launches
  prdone : t.prdone = s.prdone
  queues : t.queues = s.queues
  resets : t.resets = s.resets

theorem removed_removeTeam (s : State) (t : Team) : Removed [t.uid] s (removeTeam s t) := by
  obtain ⟨u, h, heq⟩ := removeTeam_roster s t
  rw [heq]
  refine ⟨?_, h.launches, h.prdone, h.queues, h.resets⟩
  show (u.teams.filter (·.uid != t.uid)).map memberOf = _
  rw [← h.members, List.filter_map]
  congr 1
  refine List.filter_congr fun o _ => ?_
  rw [Function.comp_apply, List.contains_cons, List.contains_nil, Bool.or_false]
  rfl

theorem removed_foldl (l : List Team) (s : State) : Removed (l.map (·.uid)) s (l.foldl removeTeam s) := by
  induction l generalizing s with
  | nil => exact ⟨by simp, rfl, rfl, rfl, rfl⟩
  | cons t rest ih =>
    have hfirst := removed_removeTeam s t
    have hrest := ih (removeTeam s t)
    refine ⟨?_, hrest.launches.trans hfirst.launches, hrest.prdone.trans hfirst.prdone, hrest.queues.trans hfirst.queues,
      hrest.resets.trans hfirst.resets⟩
    rw [List.foldl_cons, hrest.members, hfirst.members, List.filter_filter]
    refine List.filter_congr fun m _ => ?_
    rw [List.map_cons, List.contains_cons, List.contains_cons, List.contains_nil, Bool.or_false, Bool.not_or, Bool.and_comm]

section
variable {s y z : State} {f : Nat}

/-- The teams that a reset discards. -/
theorem discardTeams_removed (s : State) (f : Nat) :
    let u := (s.teams.filter (·.func == f)).foldl removeTeam s
    Removed ((s.teams.filter (·.func == f)).map (·.uid)) s u ∧
      discardTeams s f = { u with launches := u.launches.filter fun p => !(queuesOf s f).contains p.queue } :=
  ⟨removed_foldl _ s, rfl⟩

theorem discardTeams_queues (s : State) (f : Nat) : (discardTeams s f).queues = s.queues := (discardTeams_removed s f).1.queues
theorem discardTeams_resets (s : State) (f : Nat) : (discardTeams s f).resets = s.resets := (discardTeams_removed s f).1.resets
theorem discardTeams_prdone (s : State) (f : Nat) : (discardTeams s f).prdone = s.prdone := (discardTeams_removed s f).1.prdone

theorem mem_discardedNames {n : Nat} : ((s.teams.filter (·.func == f)).map (·.uid)).contains n = true ↔
    ∃ t ∈ s.teams, t.func = f ∧ t.uid = n := by
  simp [List.mem_map, List.mem_filter, and_assoc]

theorem teamsGone_discardTeams (s : State) (f : Nat) : TeamsGone s f (discardTeams s f) := by
  obtain ⟨hremoved, heq⟩ := discardTeams_removed s f
  have hmembers := hremoved.members
  rw [heq]
  refine ⟨fun t ht hf => ?_, fun t ht hf hname => ?_, fun p hp hq => ?_⟩
  · have hm : memberOf t ∈ (s.teams.map memberOf).filter fun m => !((s.teams.filter (·.func == f)).map (·.uid)).contains m.1 :=
      hmembers ▸ List.mem_map_of_mem ht
    obtain ⟨hold, hkept⟩ := List.mem_filter.mp hm
    obtain ⟨o, ho, hsame⟩ := List.mem_map.mp hold
    injection hsame with huid hrest
    injection hrest with hfunc _
    rw [Bool.not_eq_true', ← Bool.not_eq_true, mem_discardedNames] at hkept
    exact hkept ⟨o, ho, hfunc.trans hf, huid⟩
  · have hm : memberOf t ∈ (s.teams.map memberOf).filter fun m => !((s.teams.filter (·.func == f)).map (·.uid)).contains m.1 := by
      refine List.mem_filter.mpr ⟨List.mem_map_of_mem ht, ?_⟩
      rw [Bool.not_eq_true', ← Bool.not_eq_true, mem_discardedNames]
      rintro ⟨o, ho, hof, huid⟩
      exact hname o ho hof huid
    rw [← hmembers] at hm
    obtain ⟨o, ho, hsame⟩ := List.mem_map.mp hm
    simp only [memberOf, Prod.mk.injEq] at hsame
    exact ⟨o, ho, hsame⟩
  · have hkept := (List.mem_filter.mp hp).2
    rw [Bool.not_eq_true', ← Bool.not_eq_true, List.contains_iff_mem] at hkept
    exact hkept hq

/-- What a reset says of the teams depends on their names, functions and places alone. -/
theorem teamsGone_of_members (h : TeamsGone s f y) (hm : z.teams.map memberOf = y.teams.map memberOf)
    (hl : z.launches = y.launches) : TeamsGone s f z := by
  refine ⟨fun t ht hf => ?_, fun t ht hf hname => ?_, fun p hp => h.launches p (hl ▸ hp)⟩
  · have hin : memberOf t ∈ y.teams.map memberOf := hm ▸ List.mem_map_of_mem ht
    obtain ⟨o, ho, hsame⟩ := List.mem_map.mp hin
    simp only [memberOf, Prod.mk.injEq] at hsame
    exact h.gone o ho (hsame.2.1.trans hf)
  · obtain ⟨o, ho, huid, hfunc, hcores, hresident, hended⟩ := h.others t ht hf hname
    have hin : memberOf o ∈ z.teams.map memberOf := hm ▸ List.mem_map_of_mem ho
    obtain ⟨p, hp, hsame⟩ := List.mem_map.mp hin
    simp only [memberOf, Prod.mk.injEq] at hsame
    obtain ⟨h1, h2, h3, h4, h5⟩ := hsame
    exact ⟨p, hp, h1.trans huid, h2.trans hfunc, h3.trans hcores, h4.trans hresident, h5.trans hended⟩

end

/-! ### A reset that goes through at once -/

section
variable {s b t u : State} {r : Reset} {f : Nat}

theorem resetOf_appended (hnew : ∀ r ∈ s.resets, r.func ≠ f) (hr : r.func = f) :
    resetOf { s with resets := s.resets ++ [r] } f = some r := by
  unfold resetOf
  rw [List.find?_append, List.find?_eq_none.mpr fun x hx => by simpa using hnew x hx]
  simp [hr]

/-- Steps 3 and 4 go through; nothing stands in the way of the rest. -/
theorem continueReset_runs (h : ResetRuns r b t u) (hslots : r.slots = none) : continueReset r b = endReset r u := by
  obtain ⟨hdrafts, hstands, hends, hclear⟩ := h
  unfold continueReset
  extract_lets f steps
  have hsteps : steps = .ok u := by
    show (closeDrafts r.func (draftsOf b r.func) b >>= _) = _
    rw [hdrafts]
    refine Eq.trans ?_ hends
    show endSlots r.func _ _ = _
    rw [hstands, Option.bind_some, hslots]
  have howned : (queuesOf u r.func).any (queueOwned u) = false :=
    List.any_eq_false.mpr fun q hq => by rw [(hclear q hq).1]; exact Bool.false_ne_true
  have hpoison : (r.replay && (queuesOf u r.func).any fun n =>
      qcfgEnable (queueOf u n).cfg && deviceCopyPoisoned u n) = false := by
    cases hreplay : r.replay with
    | false => rfl
    | true =>
      refine List.any_eq_false.mpr fun q hq hbad => ?_
      obtain ⟨henable, hpoisoned⟩ := Bool.and_eq_true _ _ ▸ hbad
      rw [(hclear q hq).2 hreplay henable] at hpoisoned
      cases hpoisoned
  rw [hsteps]
  dsimp only
  rw [howned, hpoison]
  rfl

theorem partitionReset_runs {reason addr dom : Nat} {replay keep : Bool} (hnew : ∀ r ∈ s.resets, r.func ≠ f)
    (h : ResetRuns (freshReset f reason addr dom replay keep)
      { discardTeams s f with resets := s.resets ++ [freshReset f reason addr dom replay keep] } t u) :
    partitionReset s f reason addr dom replay keep = endReset (freshReset f reason addr dom replay keep) u := by
  refine Eq.trans ?_ (continueReset_runs h rfl)
  show settleReset { discardTeams s f with
    resets := (discardTeams s f).resets ++ [freshReset f reason addr dom replay keep] } f = _
  rw [discardTeams_resets]
  unfold settleReset
  have hfirst : resetOf { discardTeams s f with resets := s.resets ++ [freshReset f reason addr dom replay keep] } f =
      some (freshReset f reason addr dom replay keep) := by
    have := resetOf_appended (s := s) (r := freshReset f reason addr dom replay keep) hnew rfl
    exact this
  rw [hfirst]
  exact if_neg Bool.false_ne_true

/-! A reset that has begun changes nothing of what holds a write-back. -/

theorem onReset_eq (f : Nat) (g : Reset → Reset) (s : State) : ∃ l, onReset f g s = { s with resets := l } := by
  unfold onReset
  cases firstAt (fun r : Reset => r.func == f) s.resets with
  | none => exact ⟨s.resets, rfl⟩
  | some i => exact ⟨_, rfl⟩

theorem heldWithin_resets (l : List Reset) (fuel : Nat) :
    heldWithin fuel { s with resets := l } = heldWithin fuel s := by
  induction fuel with
  | zero => rfl
  | succ fuel ih =>
    funext core num i
    show ((backLeaf s core num i).any fun e => (leafMark s e.2 true).any fun m =>
      physicalOwned s m.1 16 || anySectorAt s m.1 16 (heldWithin fuel { s with resets := l })) = _
    rw [ih]
    rfl

theorem blocked_resets (l : List Reset) (pa n : Nat) : blocked { s with resets := l } pa n = blocked s pa n := by
  show (physicalOwned s pa n || anySectorAt s pa n (heldWithin (sectorCount s) { s with resets := l })) = _
  rw [heldWithin_resets]
  rfl

theorem queueOwned_resets (l : List Reset) (q : Nat) : queueOwned { s with resets := l } q = queueOwned s q := by
  unfold queueOwned
  simp only [blocked_resets]
  rfl

theorem deviceCopyPoisoned_resets (l : List Reset) (q : Nat) :
    deviceCopyPoisoned { s with resets := l } q = deviceCopyPoisoned s q := rfl

/-- A partition without drafts and without sequences to end: steps 3 and 4 have nothing to do. -/
theorem resetRuns_idle (hstands : resetOf b r.func = some r) (hdrafts : draftsOf b r.func = [])
    (hslots : r.keepSeq = true ∨ slotsOf b r.func = [])
    (hclear : ∀ q ∈ queuesOf b r.func, queueOwned b q = false ∧
      (r.replay = true → qcfgEnable (queueOf b q).cfg = true → deviceCopyPoisoned b q = false)) :
    ∃ l, ResetRuns r b b { b with resets := l } := by
  have hleft : (if r.keepSeq = true then [] else slotsOf b r.func) = [] := by
    split
    · rfl
    next hkeep => exact hslots.resolve_left hkeep
  obtain ⟨l, hl⟩ := onReset_eq r.func (fun r => { r with slots := some [] }) b
  refine ⟨l, by rw [hdrafts]; rfl, hstands, ?_, fun q hq => ?_⟩
  · dsimp only
    rw [hleft, hl]
    rfl
  · rw [queueOwned_resets, deviceCopyPoisoned_resets]
    exact hclear q hq

end

end Sys2Proof.Machine
end

section
namespace Sys2Proof.Machine
open Sys2Proof.Claims

/-! ### Queues at the end of a reset (R449, R450) -/

/-- Each element of a list gets what its step gives, where no later step takes it. -/
theorem foldl_establishes {α β : Type} {P : α → β → Prop} {f : β → α → β} (hgive : ∀ b a, P a (f b a))
    (hkeep : ∀ b a x, P x b → P x (f b a)) (l : List α) (b : β) {x : α} (hx : x ∈ l) : P x (l.foldl f b) := by
  induction l generalizing b with
  | nil => cases hx
  | cons a rest ih =>
    rcases List.mem_cons.mp hx with rfl | hrest
    · exact foldl_keeps (P x) f rest _ (hgive b x) fun b a h => hkeep b a x h
    · exact ih _ hrest

/-- Of the queues only `n` differs. -/
structure OnlyQueue (n : Nat) (s t : State) : Prop extends SameStaff s t where
  others : ∀ q, q ≠ n → queueOf t q = queueOf s q

section
variable {n : Nat} {s t u : State}

theorem SameRoster.queueOf (h : SameRoster s t) (q : Nat) : queueOf t q = queueOf s q := by
  unfold Machine.queueOf
  rw [h.queues]

theorem SameRoster.onlyQueue (h : SameRoster s t) : OnlyQueue n s t := ⟨h.toSameStaff, fun q _ => h.queueOf q⟩

theorem OnlyQueue.refl (n : Nat) (s : State) : OnlyQueue n s s := (SameRoster.refl s).onlyQueue

theorem OnlyQueue.trans (h : OnlyQueue n s t) (h' : OnlyQueue n t u) : OnlyQueue n s u :=
  ⟨h.toSameStaff.trans h'.toSameStaff, fun q hq => (h'.others q hq).trans (h.others q hq)⟩

theorem onlyQueue_onQueue (s : State) (n : Nat) (f : Queue → Queue) : OnlyQueue n s (onQueue s n f) :=
  ⟨⟨rfl, rfl, rfl⟩, fun _ hq => queueOf_onQueue_other s f hq⟩

theorem memOnly_sysStore (s : State) (a : Nat) (bs : List Byte) : MemOnly s (sysStore s a bs) :=
  (memOnly_recallAll s _ _ _).trans ((memOnly_remember _ _ _ _).trans
    ((memOnly_patchPending _ _ _ _).trans (MemOnly.foldl fun _ _ _ => .of_cores rfl)))

theorem onlyQueue_updateQcb (s : State) (n : Nat) : OnlyQueue n s (updateQcb s n) := by
  unfold updateQcb
  extract_lets q gen at' body t u
  have hstored : MemOnly s u := (memOnly_sysStore s _ _).trans (memOnly_sysStore t _ _)
  exact hstored.sameRoster.onlyQueue.trans (onlyQueue_onQueue u n _)

theorem onlyQueue_completeCommand (s : State) (n : Nat) (c : Command) (status : Nat) :
    OnlyQueue n s (completeCommand s n c status) := by
  unfold completeCommand
  split
  · extract_lets q a t u
    have hstored : OnlyQueue n s u := (memOnly_sysStore _ _ _).sameRoster.onlyQueue.trans (onlyQueue_onQueue _ _ _)
    split
    · exact hstored.trans (SameRoster.onlyQueue (.of_eq rfl rfl rfl rfl rfl))
    · exact hstored
  · exact .refl n s

theorem onlyQueue_retire (s : State) (n entry status : Nat) : OnlyQueue n s (retire s n entry status) := by
  unfold retire
  split
  · exact .refl n s
  · refine OnlyQueue.trans ?_ (onlyQueue_onQueue _ _ _)
    refine OnlyQueue.trans ?_ (onlyQueue_completeCommand _ _ _ _)
    split
    · exact onlyQueue_updateQcb s n
    · exact .refl n s

/-! #### Steps 5 and 6 -/

theorem onlyQueue_abortQueue (s : State) (n : Nat) : OnlyQueue n s (abortQueue s n) := by
  unfold abortQueue
  refine OnlyQueue.trans ?_ (onlyQueue_onQueue _ _ _)
  refine OnlyQueue.trans (t := List.foldl _ s _) ?_ (SameRoster.onlyQueue (.of_eq rfl rfl rfl rfl rfl))
  exact foldl_keeps (OnlyQueue n s) _ _ _ (.refl n s) fun _ _ h => h.trans (onlyQueue_retire _ _ _ _)

theorem abortQueue_commands (s : State) (n : Nat) : (queueOf (abortQueue s n) n).commands = [] := by
  unfold abortQueue
  rw [queueOf_onQueue_same]

theorem onlyQueue_disableQueue (s : State) (n : Nat) : OnlyQueue n s (disableQueue s n) := onlyQueue_onQueue _ _ _

/-- What recovery leaves of a queue (R449). -/
def Recovered (replay : Bool) (q : Queue) : Prop :=
  (replay = false → qcfgEnable q.cfg = false) ∧ (replay = true → qcfgEnable q.cfg = true → q.consumed = q.fenced)

theorem setField_bit26 (x : Nat) : bit (setField x 26 26 0) 26 = false := by
  rw [bit_eq_testBit, Nat.testBit_eq_decide_div_mod_eq, setField, field_eq (w := 1) rfl]
  simp only [decide_eq_false_iff_not]
  omega

theorem disableQueue_disabled (s : State) (n : Nat) : qcfgEnable (queueOf (disableQueue s n) n).cfg = false := by
  unfold disableQueue
  rw [queueOf_onQueue_same]
  generalize (queueOf s n).cfg = c
  show bit (BitVec.ofNat 128 (setField c.toNat 26 26 0)).toNat 26 = false
  have hlt : setField c.toNat 26 26 0 < 2 ^ 128 := by
    have := c.isLt
    unfold setField
    omega
  rw [BitVec.toNat_ofNat, Nat.mod_eq_of_lt hlt, setField_bit26]

theorem disableQueue_commands (s : State) (n : Nat) :
    (queueOf (disableQueue s n) n).commands = (queueOf s n).commands := by
  unfold disableQueue
  rw [queueOf_onQueue_same]

theorem recoverQueue_off (replay : Bool) (h : qcfgEnable (queueOf s n).cfg = false) : recoverQueue replay s n = s := by
  unfold recoverQueue
  rw [h]
  rfl

theorem recoverQueue_disables (h : qcfgEnable (queueOf s n).cfg = true) : recoverQueue false s n = disableQueue s n := by
  unfold recoverQueue
  rw [h]
  rfl

/-- The state in which a queue's copies are read: the windows have given them up (R125). -/
def copiesHome (s : State) (n : Nat) : State := recallAll s (copyAt s n 0) 128 false

theorem recoverQueue_replays {i x : Nat} (h : qcfgEnable (queueOf s n).cfg = true)
    (hc : currentCopy (copiesHome s n) n = some (i, x)) :
    recoverQueue true s n = onQueue (copiesHome s n) n fun q => { queueFrom q i x with consumed := fencedOf x } := by
  have hfence : ∀ q : Queue, ({ queueFrom q i x with consumed := (queueFrom q i x).fenced } : Queue) =
      { queueFrom q i x with consumed := fencedOf x } := fun q => by
    have : (queueFrom q i x).fenced = fencedOf x := field_eq (w := 64) rfl
    rw [this]
  unfold recoverQueue
  rw [h, if_neg (by decide), if_pos rfl]
  extract_lets t
  have ht : currentCopy t n = some (i, x) := hc
  rw [ht]
  exact congrArg (onQueue t n) (funext hfence)

theorem recoverQueue_invalid (h : qcfgEnable (queueOf s n).cfg = true) (hc : currentCopy (copiesHome s n) n = none) :
    ∃ f e, recoverQueue true s n = postEvent (disableQueue (copiesHome s n) n) f e := by
  refine ⟨qcfgFunc (queueOf (copiesHome s n) n).cfg, ⟨1, n, 0, qcfgDomain (queueOf (copiesHome s n) n).cfg, 0⟩, ?_⟩
  unfold recoverQueue
  rw [h, if_neg (by decide), if_pos rfl]
  extract_lets t
  have ht : currentCopy t n = none := hc
  rw [ht]
  rfl

/-- Whatever a recovery finds, it moves its own queue alone, which is recovered and keeps its commands. -/
theorem recoverQueue_recovers (replay : Bool) (s : State) (n : Nat) :
    OnlyQueue n s (recoverQueue replay s n) ∧ Recovered replay (queueOf (recoverQueue replay s n) n) ∧
      (queueOf (recoverQueue replay s n) n).commands = (queueOf s n).commands := by
  have hhome : SameRoster s (copiesHome s n) := (memOnly_recallAll s _ _ _).sameRoster
  cases henable : qcfgEnable (queueOf s n).cfg with
  | false =>
    rw [recoverQueue_off replay henable]
    exact ⟨.refl n s, ⟨fun _ => henable, fun _ h => absurd (henable ▸ h) Bool.false_ne_true⟩, rfl⟩
  | true =>
    cases replay with
    | false =>
      rw [recoverQueue_disables henable]
      exact ⟨onlyQueue_disableQueue s n, ⟨fun _ => disableQueue_disabled s n, fun h => nomatch h⟩,
        disableQueue_commands s n⟩
    | true =>
      cases hc : currentCopy (copiesHome s n) n with
      | none =>
        obtain ⟨f, e, heq⟩ := recoverQueue_invalid henable hc
        have hdisabled : queueOf (recoverQueue true s n) n = queueOf (disableQueue (copiesHome s n) n) n := by
          rw [heq]
          rfl
        refine ⟨?_, ⟨(fun h => nomatch h), fun _ h => ?_⟩, ?_⟩
        · rw [heq]
          exact hhome.onlyQueue.trans
            ((onlyQueue_disableQueue _ n).trans (SameRoster.onlyQueue (.of_eq rfl rfl rfl rfl rfl)))
        · rw [hdisabled, disableQueue_disabled] at h
          cases h
        · rw [hdisabled, disableQueue_commands, hhome.queueOf]
      | some copy =>
        obtain ⟨i, x⟩ := copy
        rw [recoverQueue_replays henable hc, queueOf_onQueue_same]
        refine ⟨hhome.onlyQueue.trans (onlyQueue_onQueue _ n _), ⟨(fun h => nomatch h), fun _ _ => ?_⟩, ?_⟩
        · exact (field_eq (w := 64) rfl : (queueFrom _ i x).fenced = fencedOf x).symm
        · show (queueOf (copiesHome s n) n).commands = _
          rw [hhome.queueOf]

/-! #### Tickets end without an answer (R398) -/

theorem look_mapValues {α β : Type} (g : α → β) (m : SMap α) (k : Nat) :
    look (m.map fun e => (e.1, g e.2)) k = (look m k).map g := by
  induction m with
  | nil => rfl
  | cons e rest ih =>
    obtain ⟨j, v⟩ := e
    rw [List.map_cons, look, look, ih]
    split <;> rfl

/-- What a ticket that ends leaves of a queue. -/
def unasked (n : Nat) (q : Queue) : Queue :=
  { q with commands := q.commands.map fun c => { c with asked := if c.asked = some n then none else c.asked } }

theorem sameRoster_onAllContexts (f : Core → Context → Context) (s : State) : SameRoster s (onAllContexts f s) :=
  ⟨⟨List.map_map, rfl, rfl⟩, rfl, rfl⟩

theorem sameRoster_onSaved (f : Context → Context) (s : State) : SameRoster s (onSaved f s) :=
  ⟨⟨List.map_map, rfl, rfl⟩, rfl, rfl⟩

theorem sameRoster_forgetTicket (n : Nat) (s : State) : SameRoster s (forgetTicket n s) := by
  unfold forgetTicket
  exact (sameRoster_onAllContexts _ s).trans ⟨⟨List.map_map, rfl, rfl⟩, rfl, rfl⟩

theorem answerAsked_leaves (s : State) (n : Nat) :
    SameStaff s (answerAsked s n) ∧ ∀ q, queueOf (answerAsked s n) q = unasked n (queueOf s q) := by
  refine ⟨⟨List.map_map, rfl, rfl⟩, fun q => ?_⟩
  show lookD (s.queues.map fun e => (e.1, unasked n e.2)) q {} = unasked n (lookD s.queues q {})
  unfold lookD
  rw [look_mapValues]
  cases look s.queues q with
  | none => rfl
  | some x => rfl

theorem cancelTicket_leaves (s : State) (t : Ticket) :
    SameStaff s (cancelTicket s t) ∧ ∀ q, queueOf (cancelTicket s t) q = unasked t.number (queueOf s q) := by
  unfold cancelTicket completeService
  have hu : SameRoster s (forgetTicket t.number s) := sameRoster_forgetTicket _ s
  generalize forgetTicket t.number s = u at hu ⊢
  obtain ⟨hstaff, hqueues⟩ := answerAsked_leaves { u with tickets := u.tickets.filter (·.number != t.number) } t.number
  have hafter (v : State) : SameRoster v (forgetTicket t.number (onSaved (savedDone t false)
      (onAllContexts (serviceDone t.number) v))) :=
    (sameRoster_onAllContexts _ v).trans ((sameRoster_onSaved _ _).trans (sameRoster_forgetTicket _ _))
  have hcut : SameStaff u { u with tickets := u.tickets.filter (·.number != t.number) } := ⟨rfl, rfl, rfl⟩
  refine ⟨hu.toSameStaff.trans (hcut.trans (hstaff.trans (hafter _).toSameStaff)), fun q => ?_⟩
  rw [(hafter _).queueOf, hqueues]
  exact congrArg (unasked t.number) (hu.queueOf q)

/-! #### The end of a reset -/

/-- A queue after the last steps of a reset. -/
def Ended (replay : Bool) (q : Queue) : Prop := q.commands = [] ∧ Recovered replay q

theorem ended_unasked {replay : Bool} {q : Queue} (m : Nat) (h : Ended replay q) : Ended replay (unasked m q) :=
  ⟨congrArg (List.map _) h.1, h.2⟩

/-- Steps 5 and 6, and the tickets: the last state before the reset is counted. -/
theorem endReset_queues (r : Reset) (u : State) : ∃ v i, SameStaff u v ∧
    (∀ q ∈ queuesOf u r.func, Ended r.replay (queueOf v q)) ∧
    endReset r u = postEvent { v with prdone := min (v.prdone + 1) (2 ^ 32 - 1), resets := removeAt v.resets i } r.func
      ⟨7, r.reason, 0, r.domain, r.address⟩ := by
  unfold endReset
  extract_lets qs u1 u2 u3 i
  refine ⟨u3, i, ?_, fun q hq => ?_, rfl⟩
  · have h1 : SameStaff u u1 := SameStaff.foldl (fun s n => (onlyQueue_abortQueue s n).toSameStaff) _ _
    have h2 : SameStaff u1 u2 := SameStaff.foldl (fun s n => (recoverQueue_recovers _ s n).1.toSameStaff) _ _
    exact h1.trans (h2.trans (SameStaff.foldl (fun s t => (cancelTicket_leaves s t).1) _ _))
  · have h1 : (queueOf u1 q).commands = [] := by
      refine foldl_establishes (P := fun q s => (queueOf s q).commands = []) abortQueue_commands (fun s n q h => ?_) qs u hq
      by_cases hqn : q = n
      · rw [hqn, abortQueue_commands]
      · rw [(onlyQueue_abortQueue s n).others q hqn, h]
    have hcommands : (queueOf u2 q).commands = [] := by
      refine foldl_keeps (fun s => (queueOf s q).commands = []) _ _ _ h1 fun s n h => ?_
      obtain ⟨honly, -, hkeeps⟩ := recoverQueue_recovers r.replay s n
      by_cases hqn : q = n
      · rw [hqn] at h ⊢
        rw [hkeeps, h]
      · rw [honly.others q hqn, h]
    have hrecovered : Recovered r.replay (queueOf u2 q) := by
      refine foldl_establishes (P := fun q s => Recovered r.replay (queueOf s q))
        (fun s n => (recoverQueue_recovers r.replay s n).2.1) (fun s n q h => ?_) qs u1 hq
      obtain ⟨honly, hgives, -⟩ := recoverQueue_recovers r.replay s n
      by_cases hqn : q = n
      · rw [hqn]
        exact hgives
      · rw [honly.others q hqn]
        exact h
    refine foldl_keeps (fun s => Ended r.replay (queueOf s q)) _ _ _ ⟨hcommands, hrecovered⟩ fun s t h => ?_
    rw [(cancelTicket_leaves s t).2]
    exact ended_unasked _ h

theorem postEvent_last (s : State) (f : Nat) (e : HostEvent) : (funcOf (postEvent s f e) f).events.getLast? = some e := by
  show (lookD (put s.funcs f { funcOf s f with events := (funcOf s f).events ++ [e] }) f {}).events.getLast? = some e
  rw [lookD_put_same, List.getLast?_append, List.getLast?_singleton]
  rfl

theorem resetEnds_endReset (r : Reset) (u : State) : ResetEnds r u (endReset r u) := by
  obtain ⟨v, i, hstaff, hqueues, heq⟩ := endReset_queues r u
  rw [heq]
  refine ⟨?_, postEvent_last _ _ _, fun q hq => ?_⟩
  · show min (v.prdone + 1) (2 ^ 32 - 1) = _
    rw [hstaff.prdone]
  · obtain ⟨hcommands, hoff, hfence⟩ := hqueues q hq
    exact ⟨hcommands, hoff, hfence⟩

theorem teamsGone_endReset {f : Nat} {r : Reset} (h : TeamsGone s f u) : TeamsGone s f (endReset r u) := by
  obtain ⟨v, i, hstaff, -, heq⟩ := endReset_queues r u
  rw [heq]
  exact teamsGone_of_members h hstaff.members hstaff.launches

end

end Sys2Proof.Machine
end

section
namespace Sys2Proof.Machine
open Sys2Proof.Claims

/-! ### Meridian's interval (R443 to R446, R454) -/

theorem upFrom_eq_range' (a n : Nat) : upFrom a n = List.range' a n := by
  induction n generalizing a with
  | zero => rfl
  | succ n ih => rw [upFrom, ih, List.range'_succ]

/-- A fold that sets one island after the other, each from what it and the registers held: the islands of the list are set,
each once, and nothing else differs. -/
theorem foldl_islands {f : State → Nat → State} {g : State → Nat → Island}
    (hf : ∀ s i, f s i = { s with islands := put s.islands i (g s i) })
    (hg : ∀ s (m : SMap Island) i, lookD m i {} = islandOf s i → g { s with islands := m } i = g s i)
    (l : List Nat) (hl : l.Nodup) (s : State) :
    ∃ m, l.foldl f s = { s with islands := m } ∧ (∀ i ∈ l, lookD m i {} = g s i) ∧ ∀ i ∉ l, lookD m i {} = islandOf s i := by
  induction l generalizing s with
  | nil => exact ⟨s.islands, rfl, fun i hi => absurd hi List.not_mem_nil, fun _ _ => rfl⟩
  | cons a rest ih =>
    obtain ⟨ha, hrest⟩ := List.nodup_cons.mp hl
    obtain ⟨m, hm, hin, hout⟩ := ih hrest (f s a)
    have hother (i : Nat) (hi : i ≠ a) : islandOf (f s a) i = islandOf s i := by
      rw [hf, islandOf_put, if_neg hi]
    refine ⟨m, ?_, fun i hi => ?_, fun i hi => ?_⟩
    · rw [List.foldl_cons, hm, hf]
    · by_cases hia : i = a
      · rw [hia, hout a ha, hf, islandOf_put, if_pos rfl]
      · have hir : i ∈ rest := (List.mem_cons.mp hi).resolve_left hia
        rw [hin i hir, hf]
        refine hg s _ i ?_
        have hsame := hother i hia
        rw [hf] at hsame
        exact hsame
    · have hia : i ≠ a := fun h => hi (h ▸ List.mem_cons_self)
      rw [hout i (fun h => hi (List.mem_cons_of_mem _ h)), hother i hia]

/-- What Meridian makes of an island. -/
def movedIsland (power temp : List (Nat × Nat)) (beyond under : Bool) (kind : List Nat) (s : State) (i : Nat) : Island :=
  let x := islandOf s i
  let t := tempOf temp x i
  let p := powerOf power i
  let n := nextState x.state t beyond under (decide (p * kind.length > drawOf power kind))
  let row := optabRow s n
  { state := n, power := BitVec.ofNat 16 p, temp := BitVec.ofNat 8 t, clock := BitVec.ofNat 10 (field row 9 0)
    weights := (upFrom 0 4).map fun k => field row (14 + 5 * k) (10 + 5 * k), zeroed := nextZeroed x.state t x.zeroed
    restored := [] }

section
variable {power temp : List (Nat × Nat)} {beyond under : Bool} {kind : List Nat}

theorem foldl_moveIsland (l : List Nat) (hl : l.Nodup) (s : State) :
    ∃ m, l.foldl (moveIsland power temp beyond under kind) s = { s with islands := m } ∧
      (∀ i ∈ l, lookD m i {} = movedIsland power temp beyond under kind s i) ∧ ∀ i ∉ l, lookD m i {} = islandOf s i := by
  refine foldl_islands (g := movedIsland power temp beyond under kind) (fun _ _ => rfl) (fun s m i hi => ?_) l hl s
  have hx : islandOf { s with islands := m } i = islandOf s i := hi
  unfold movedIsland
  rw [hx]
  rfl

theorem foldl_readIsland (l : List Nat) (hl : l.Nodup) (s : State) :
    ∃ m, l.foldl (readIsland power temp) s = { s with islands := m } ∧ ∀ i ∉ l, lookD m i {} = islandOf s i := by
  obtain ⟨m, hm, -, hout⟩ := foldl_islands (f := readIsland power temp)
    (g := fun s i => { islandOf s i with
      power := BitVec.ofNat 16 (powerOf power i), temp := BitVec.ofNat 8 (tempOf temp (islandOf s i) i) })
    (fun _ _ => rfl) (fun s m i hi => by
      have hx : islandOf { s with islands := m } i = islandOf s i := hi
      dsimp only
      rw [hx]) l hl s
  exact ⟨m, hm, hout⟩

/-- The registers and the state of an island that Meridian has moved. -/
theorem movedIsland_facts (s : State) (i : Nat) :
    let x := movedIsland power temp beyond under kind s i
    x.temp.toNat = warmth temp s i ∧ x.power.toNat = drawn' power i ∧
      x.state = meridianState (islandOf s i).state (warmth temp s i) beyond under
        (decide (drawSum power kind < drawn' power i * kind.length)) ∧
      x.clock.toNat = optabRow s x.state % 2 ^ 10 ∧ x.weights =
        [optabRow s x.state / 2 ^ 10 % 2 ^ 5, optabRow s x.state / 2 ^ 15 % 2 ^ 5, optabRow s x.state / 2 ^ 20 % 2 ^ 5,
          optabRow s x.state / 2 ^ 25 % 2 ^ 5] := by
  refine ⟨?_, ?_, ?_, ?_, ?_⟩
  · show (BitVec.ofNat 8 (warmth temp s i)).toNat = _
    have hle : warmth temp s i ≤ 255 := Nat.min_le_right _ _
    rw [BitVec.toNat_ofNat, Nat.mod_eq_of_lt (by omega)]
  · show (BitVec.ofNat 16 (drawn' power i)).toNat = _
    have hle : drawn' power i ≤ 65535 := Nat.min_le_right _ _
    rw [BitVec.toNat_ofNat, Nat.mod_eq_of_lt (by omega)]
  · rfl
  · show (BitVec.ofNat 10 (field (optabRow s _) 9 0)).toNat = _
    rw [BitVec.toNat_ofNat, optab_clock, Nat.mod_mod]
    rfl
  · show [field _ 14 10, field _ 19 15, field _ 24 20, field _ 29 25] = _
    rw [field_eq (w := 5) rfl, field_eq (w := 5) rfl, field_eq (w := 5) rfl, field_eq (w := 5) rfl]
    rfl

/-- Class 0 of an island at state 7 that is still too hot gets nothing, for at most 15 intervals at a time (R45). -/
theorem movedIsland_zeroed (s : State) (i : Nat) (hstate : (islandOf s i).state = 7) (hhot : 105 ≤ warmth temp s i) :
    ((∀ e ∈ (islandOf s i).zeroed, e.1 ≠ 0) → (movedIsland power temp beyond under kind s i).zeroed = [(0, 1)]) ∧
    ∀ e, (islandOf s i).zeroed.find? (·.1 == 0) = some e →
      (e.2 < 15 → (movedIsland power temp beyond under kind s i).zeroed = [(0, e.2 + 1)]) ∧
        (15 ≤ e.2 → (movedIsland power temp beyond under kind s i).zeroed = []) := by
  have hzeroed : (movedIsland power temp beyond under kind s i).zeroed =
      nextZeroed (islandOf s i).state (warmth temp s i) (islandOf s i).zeroed := rfl
  rw [hzeroed, nextZeroed, if_pos ⟨hstate, hhot⟩]
  refine ⟨fun h => ?_, fun e he => ?_⟩
  · rw [List.find?_eq_none.mpr fun e he => by simpa using h e he]
  · rw [he]
    exact ⟨fun h => if_pos h, fun h => if_neg (by omega)⟩

end

theorem weightOf'_zeroed {s : State} {i n : Nat} (h : (islandOf s i).zeroed = [(0, n)]) : weightOf' s i 0 = 0 := by
  have hzero : (islandOf s i).zeroed.any (·.1 == 0) = true := by
    rw [h]
    rfl
  exact if_pos hzero

/-- The islands after Meridian's interval: those of each kind as Meridian moves them; the registers of the package follow. -/
theorem meridianInterval_moves (power temp : List (Nat × Nat)) (s : State) :
    ∃ t, exec (.meridianInterval power temp) s = .next t ∧ t.time = s.time + 1 ∧ t.memory = s.memory ∧ t.cores = s.cores ∧
      t.pkgw = min (drawSum power (List.range 512) / 10) 65535 ∧
      ∀ kind ∈ meridianKinds, ∀ i ∈ kind, islandOf t i = movedIsland power temp
        (decide (10 * (s.capw.toNat % 2 ^ 16) < drawSum power (List.range 512)))
        (decide (drawSum power (List.range 512) + 1000 ≤ 10 * (s.capw.toNat % 2 ^ 16))) kind s i := by
  have hcap : field s.capw.toNat 15 0 = s.capw.toNat % 2 ^ 16 := by rw [field_eq (w := 16) rfl, Nat.pow_zero, Nat.div_one]
  have hquads : quadIslands = List.range 288 := upFrom_eq_range 288
  have hbases : baseIslands = List.range' 352 128 := upFrom_eq_range' 352 128
  have hall : drawOf power (upFrom 0 512) = drawSum power (List.range 512) := by rw [upFrom_eq_range]; rfl
  show ∃ t, execMeridianInterval power temp s = .next t ∧ _
  unfold execMeridianInterval
  rw [hcap, hall, hquads, hbases]
  extract_lets total cap beyond under u1 u2 u3
  obtain ⟨m1, h1, hin1, hout1⟩ := foldl_moveIsland (power := power) (temp := temp) (beyond := beyond) (under := under)
    (kind := List.range 288) (List.range 288) List.nodup_range s
  obtain ⟨m2, h2, hin2, hout2⟩ := foldl_moveIsland (power := power) (temp := temp) (beyond := beyond) (under := under)
    (kind := List.range' 352 128) (List.range' 352 128) List.nodup_range' u1
  obtain ⟨m3, h3, hout3⟩ := foldl_readIsland (power := power) (temp := temp) (upFrom 288 64 ++ upFrom 480 32)
    (by rw [upFrom_eq_range', upFrom_eq_range']; decide) u2
  have hu1 : u1 = { s with islands := m1 } := h1
  have hu2 : u2 = { u1 with islands := m2 } := h2
  have hu3 : u3 = { u2 with islands := m3 } := h3
  clear_value u3 u2 u1
  have hstate : u3 = { s with islands := m3 } := by rw [hu3, hu2, hu1]
  refine ⟨_, rfl, ?_, ?_, ?_, rfl, fun kind hkind i hi => ?_⟩
  · show u3.time + 1 = _
    rw [hstate]
  · show u3.memory = _
    rw [hstate]
  · show u3.cores = _
    rw [hstate]
  · show islandOf u3 i = _
    have hfirst (j : Nat) : islandOf u1 j = lookD m1 j {} := by rw [hu1]; rfl
    have hsecond (j : Nat) : islandOf u2 j = lookD m2 j {} := by rw [hu2]; rfl
    have hlast (j : Nat) (hj : j < 288 ∨ 352 ≤ j ∧ j < 480) : islandOf u3 j = islandOf u2 j := by
      rw [hu3]
      refine hout3 j fun hmem => ?_
      rw [List.mem_append, mem_upFrom, mem_upFrom] at hmem
      omega
    simp only [meridianKinds, List.mem_cons, List.not_mem_nil, or_false] at hkind
    rcases hkind with rfl | rfl
    · have hlt := List.mem_range.mp hi
      have hnot : i ∉ List.range' 352 128 := fun h => by rw [List.mem_range'_1] at h; omega
      rw [hlast i (.inl hlt), hsecond, hout2 i hnot, hfirst, hin1 i hi]
    · have hmem := List.mem_range'_1.mp hi
      have hnot : i ∉ List.range 288 := fun h => by rw [List.mem_range] at h; omega
      have hbefore : islandOf u1 i = islandOf s i := (hfirst i).trans (hout1 i hnot)
      have hsame : movedIsland power temp beyond under (List.range' 352 128) u1 i =
          movedIsland power temp beyond under (List.range' 352 128) s i := by
        unfold movedIsland
        rw [hbefore, hu1]
        rfl
      rw [hlast i (.inr (by omega)), hsecond, hin2 i hi, hsame]

theorem meridianInterval_facts (power temp : List (Nat × Nat)) (s : State) :
    ∃ t, exec (.meridianInterval power temp) s = .next t ∧ t.time = s.time + 1 ∧
      t.memory = s.memory ∧ t.cores = s.cores ∧ t.pkgw = min (drawSum power (List.range 512) / 10) 65535 ∧
      ∀ kind ∈ meridianKinds, ∀ i ∈ kind, (islandOf t i).temp.toNat = warmth temp s i ∧ (islandOf t i).power.toNat = drawn' power i ∧
        (islandOf t i).state = meridianState (islandOf s i).state (warmth temp s i)
          (decide (10 * (s.capw.toNat % 2 ^ 16) < drawSum power (List.range 512)))
          (decide (drawSum power (List.range 512) + 1000 ≤ 10 * (s.capw.toNat % 2 ^ 16)))
          (decide (drawSum power kind < drawn' power i * kind.length)) ∧
        ((islandOf s i).state = 7 → 105 ≤ warmth temp s i →
          ((∀ e ∈ (islandOf s i).zeroed, e.1 ≠ 0) → weightOf' t i 0 = 0) ∧
          ∀ e, (islandOf s i).zeroed.find? (·.1 == 0) = some e →
            (e.2 < 15 → weightOf' t i 0 = 0) ∧ (15 ≤ e.2 → (islandOf t i).zeroed = [])) ∧
        let row := optabRow s (islandOf t i).state
        (islandOf t i).clock.toNat = row % 2 ^ 10 ∧ (islandOf t i).weights =
          [row / 2 ^ 10 % 2 ^ 5, row / 2 ^ 15 % 2 ^ 5, row / 2 ^ 20 % 2 ^ 5, row / 2 ^ 25 % 2 ^ 5] := by
  obtain ⟨t, hexec, htime, hmemory, hcores, hpower, hislands⟩ := meridianInterval_moves power temp s
  refine ⟨t, hexec, htime, hmemory, hcores, hpower, fun kind hkind i hi => ?_⟩
  have hmoved := hislands kind hkind i hi
  obtain ⟨hwarm, hdrawn, hstate, hclock, hweights⟩ := movedIsland_facts (power := power) (temp := temp)
    (beyond := decide (10 * (s.capw.toNat % 2 ^ 16) < drawSum power (List.range 512)))
    (under := decide (drawSum power (List.range 512) + 1000 ≤ 10 * (s.capw.toNat % 2 ^ 16))) (kind := kind) s i
  rw [← hmoved] at hwarm hdrawn hstate hclock hweights
  refine ⟨hwarm, hdrawn, hstate, fun hseven hhot => ?_, hclock, hweights⟩
  obtain ⟨hfresh, hagain⟩ := movedIsland_zeroed (power := power) (temp := temp)
    (beyond := decide (10 * (s.capw.toNat % 2 ^ 16) < drawSum power (List.range 512)))
    (under := decide (drawSum power (List.range 512) + 1000 ≤ 10 * (s.capw.toNat % 2 ^ 16))) (kind := kind) s i hseven hhot
  rw [← hmoved] at hfresh hagain
  exact ⟨fun h => weightOf'_zeroed (hfresh h), fun e he =>
    ⟨fun h => weightOf'_zeroed ((hagain e he).1 h), fun h => (hagain e he).2 h⟩⟩

end Sys2Proof.Machine
end

section
namespace Sys2Proof.Machine
open Sys2Proof.Claims

/-! ### Frames that have poisoned twice leave the free lists (R453) -/

/-- Each element of a list gets what its step gives from a state of the invariant, where no later step takes it. -/
theorem foldl_establishes_under {α β : Type} (I : β → Prop) {P : α → β → Prop} {f : β → α → β} (l : List α)
    (hinv : ∀ b, ∀ a ∈ l, I b → I (f b a)) (hgive : ∀ b, ∀ a ∈ l, I b → P a (f b a))
    (hkeep : ∀ b, ∀ a ∈ l, ∀ x, P x b → P x (f b a)) (b : β) (hb : I b) :
    I (l.foldl f b) ∧ ∀ x ∈ l, P x (l.foldl f b) := by
  induction l generalizing b with
  | nil => exact ⟨hb, fun x hx => absurd hx List.not_mem_nil⟩
  | cons a rest ih =>
    obtain ⟨hi, hp⟩ := ih (fun c d hd => hinv c d (List.mem_cons_of_mem _ hd)) (fun c d hd => hgive c d (List.mem_cons_of_mem _ hd))
      (fun c d hd => hkeep c d (List.mem_cons_of_mem _ hd)) (f b a) (hinv b a List.mem_cons_self hb)
    refine ⟨hi, fun x hx => ?_⟩
    rcases List.mem_cons.mp hx with rfl | hrest
    · exact List.foldlRecOn (motive := P x) rest f (hgive b x List.mem_cons_self hb) fun c h d hd =>
        hkeep c d (List.mem_cons_of_mem _ hd) x h
    · exact hp x hrest

section
variable {s t : State} {frame : Nat}

theorem setKvPage_other {d e i : Nat} {p : KvPage} (h : e ≠ d) : domainOf (setKvPage s d i p) e = domainOf s e :=
  domainOf_onDomain_other h

theorem setGranule_other {d e i : Nat} {g : Granule} (h : e ≠ d) : domainOf (setGranule s d i g) e = domainOf s e :=
  domainOf_onDomain_other h

theorem granuleAt_setGranule_other {d i j : Nat} {g : Granule} (h : j ≠ i) :
    granuleAt (domainOf (setGranule s d i g) d) j = granuleAt (domainOf s d) j := by
  unfold setGranule
  rw [domainOf_onDomain_same]
  exact lookD_putD_other _ _ _ _ _ _ h

theorem kvPage_setGranule (d i e j : Nat) (g : Granule) :
    kvPage (domainOf (setGranule s d i g) e) j = kvPage (domainOf s e) j := by
  by_cases he : e = d
  · rw [he]
    unfold setGranule
    rw [domainOf_onDomain_same]
    rfl
  · rw [setGranule_other he]

theorem granuleAt_setKvPage (d i e j : Nat) (p : KvPage) :
    granuleAt (domainOf (setKvPage s d i p) e) j = granuleAt (domainOf s e) j := by
  by_cases he : e = d
  · rw [he]
    unfold setKvPage
    rw [domainOf_onDomain_same]
    rfl
  · rw [setKvPage_other he]

/-- A page of KV is retired. -/
def PageRetired (d i : Nat) (s : State) : Prop := kvPage (domainOf s d) i = .retired
/-- A granule is retired. -/
def GranuleRetired (d i : Nat) (s : State) : Prop := (granuleAt (domainOf s d) i).state = .retired

theorem pageRetired_keeps (d i e j : Nat) (h : PageRetired e j s) : PageRetired e j (setKvPage s d i .retired) := by
  unfold PageRetired at *
  by_cases he : e = d
  · subst he
    by_cases hj : j = i
    · rw [hj, kvPage_setKvPage_same]
    · rw [kvPage_setKvPage_other hj, h]
  · rw [setKvPage_other he, h]

theorem granuleRetired_keeps (d i e j : Nat) (g : Granule) (hg : g.state = .retired) (h : GranuleRetired e j s) :
    GranuleRetired e j (setGranule s d i g) := by
  unfold GranuleRetired at *
  by_cases he : e = d
  · subst he
    by_cases hj : j = i
    · rw [hj, granuleAt_setGranule, hg]
    · rw [granuleAt_setGranule_other hj, h]
  · rw [setGranule_other he, h]

/-- Only the domains differ. -/
def DomainsOnly (s t : State) : Prop := t = { s with domains := t.domains }

theorem DomainsOnly.refl (s : State) : DomainsOnly s s := rfl
theorem DomainsOnly.trans {u : State} (h : DomainsOnly s t) (h' : DomainsOnly t u) : DomainsOnly s u := by
  unfold DomainsOnly at *
  calc u = { t with domains := u.domains } := h'
    _ = _ := by rw [h]

/-- The pages and granules that a frame takes from the free lists of a domain. -/
def takenPages (frame : Nat) (s : State) (d : Domain) : List Nat :=
  (upFrom 0 d.kvpages.toNat).filter fun i => pageReady (kvPage d i) && standsIn s d.func frame (d.kvbase.toNat + i)
def takenGranules (frame : Nat) (s : State) (d : Domain) : List Nat :=
  (upFrom 0 d.covgran.toNat).filter fun i =>
    granuleFree (granuleAt d i).state && standsIn s d.func frame (d.covbase.toNat + i)

def retirePage (d : Nat) (s : State) (i : Nat) : State := setKvPage s d i .retired
def retireGranule (d : Nat) (s : State) (i : Nat) : State :=
  setGranule s d i { granuleAt (domainOf s d) i with state := .retired }

theorem retireFrame_eq (frame : Nat) (s : State) (d : Nat) : retireFrame frame s d =
    (takenGranules frame s (domainOf s d)).foldl (retireGranule d)
      ((takenPages frame s (domainOf s d)).foldl (retirePage d) s) := rfl

/-- Whatever both kinds of steps keep, a frame's retirement keeps. -/
theorem retireFrame_keeps {P : State → Prop} {d : Nat} (hpage : ∀ s i, P s → P (retirePage d s i))
    (hgranule : ∀ s i, P s → P (retireGranule d s i)) (h : P s) : P (retireFrame frame s d) := by
  rw [retireFrame_eq]
  exact foldl_keeps P _ _ _ (foldl_keeps P _ _ _ h fun s i => hpage s i) fun s i => hgranule s i

theorem retireFrame_domainsOnly (frame : Nat) (s : State) (d : Nat) : DomainsOnly s (retireFrame frame s d) :=
  retireFrame_keeps (P := DomainsOnly s) (fun _ _ h => h.trans rfl) (fun _ _ h => h.trans rfl) (.refl s)

theorem retireFrame_other {d e : Nat} (h : e ≠ d) : domainOf (retireFrame frame s d) e = domainOf s e :=
  retireFrame_keeps (P := fun t => domainOf t e = domainOf s e) (fun _ _ ht => (setKvPage_other h).trans ht)
    (fun _ _ ht => (setGranule_other h).trans ht) rfl

theorem retireFrame_pageRetired {d e i : Nat} (h : PageRetired e i s) : PageRetired e i (retireFrame frame s d) :=
  retireFrame_keeps (fun _ _ ht => pageRetired_keeps _ _ _ _ ht) (fun _ _ ht => (kvPage_setGranule _ _ _ _ _).trans ht) h

theorem retireFrame_granuleRetired {d e i : Nat} (h : GranuleRetired e i s) :
    GranuleRetired e i (retireFrame frame s d) :=
  retireFrame_keeps (fun _ _ ht => (congrArg Granule.state (granuleAt_setKvPage _ _ _ _ _)).trans ht)
    (fun _ _ ht => granuleRetired_keeps _ _ _ _ _ rfl ht) h

theorem retireFrame_takes (frame : Nat) (s : State) (d : Nat) :
    (∀ i ∈ takenPages frame s (domainOf s d), PageRetired d i (retireFrame frame s d)) ∧
      ∀ i ∈ takenGranules frame s (domainOf s d), GranuleRetired d i (retireFrame frame s d) := by
  rw [retireFrame_eq]
  refine ⟨fun i hi => ?_, fun i hi => ?_⟩
  · refine foldl_keeps (PageRetired d i) _ _ _ ?_ fun s j h => (kvPage_setGranule _ _ _ _ _).trans h
    exact foldl_establishes (P := PageRetired d) (f := retirePage d) (fun s i => kvPage_setKvPage_same s d i _)
      (fun s j i h => pageRetired_keeps _ _ _ _ h) _ _ hi
  · exact foldl_establishes (P := GranuleRetired d) (f := retireGranule d) (fun s i => congrArg Granule.state (granuleAt_setGranule s d i _))
      (fun s j i h => granuleRetired_keeps _ _ _ _ _ rfl h) _ _ hi

/-- What a retirement of the frame in every domain leaves of a domain `d`, as the domain was. -/
def FrameTaken (frame : Nat) (s : State) (d : Nat) (t : State) : Prop :=
  (∀ i ∈ takenPages frame s (domainOf s d), PageRetired d i t) ∧
    ∀ i ∈ takenGranules frame s (domainOf s d), GranuleRetired d i t

theorem frameTaken_keeps {d e : Nat} {u : State} (h : FrameTaken frame s d u) : FrameTaken frame s d (retireFrame frame u e) :=
  ⟨fun i hi => retireFrame_pageRetired (h.1 i hi), fun i hi => retireFrame_granuleRetired (h.2 i hi)⟩

theorem takenPages_domainsOnly (h : DomainsOnly s t) (d : Domain) : takenPages frame t d = takenPages frame s d := by
  unfold DomainsOnly at h
  rw [h]
  rfl

theorem takenGranules_domainsOnly (h : DomainsOnly s t) (d : Domain) :
    takenGranules frame t d = takenGranules frame s d := by
  unfold DomainsOnly at h
  rw [h]
  rfl

theorem retireFrames_take (frame : Nat) (s : State) (l : List Nat) :
    DomainsOnly s (l.foldl (retireFrame frame) s) ∧ ∀ d ∈ l, FrameTaken frame s d (l.foldl (retireFrame frame) s) := by
  refine ⟨foldl_keeps (DomainsOnly s) _ _ _ (.refl s) fun t d h => h.trans (retireFrame_domainsOnly _ _ _), fun d hd => ?_⟩
  refine (foldl_establishes_under (P := FrameTaken frame s)
    (fun t => DomainsOnly s t ∧ ∀ d, FrameTaken frame s d t ∨ domainOf t d = domainOf s d) l (fun t e _ h => ?_)
    (fun t e _ h => ?_) (fun t e _ d h => frameTaken_keeps h) s ⟨.refl s, fun _ => .inr rfl⟩).2 d hd
  · refine ⟨h.1.trans (retireFrame_domainsOnly _ _ _), fun d => ?_⟩
    rcases h.2 d with htaken | hsame
    · exact .inl (frameTaken_keeps htaken)
    · by_cases hde : d = e
      · left
        have htakes := retireFrame_takes frame t e
        rw [← hde, hsame, takenPages_domainsOnly h.1, takenGranules_domainsOnly h.1] at htakes
        rw [← hde]
        exact htakes
      · exact .inr ((retireFrame_other hde).trans hsame)
  · rcases h.2 e with htaken | hsame
    · exact frameTaken_keeps htaken
    · have htakes := retireFrame_takes frame t e
      rw [hsame, takenPages_domainsOnly h.1, takenGranules_domainsOnly h.1] at htakes
      exact htakes

end

end Sys2Proof.Machine
end

section
namespace Sys2Proof.Machine
open Sys2Proof.Claims

/-! ### Requests for a reset (R448) -/

section
variable {s t : State}

theorem functionLevelReset_resets {func : Nat} (hf : func ≤ 64) (hl : linkRuns s = true) :
    exec (.functionLevelReset func) s = .next (partitionReset s func 5 0 0 false false) :=
  if_pos ⟨hf, hl⟩

/-- The word that a write of PRESET carries. -/
def presetWord (func : Nat) (replay keep : Bool) : Nat :=
  func + (if replay = true then 128 else 0) + (if keep = true then 256 else 0)

theorem presetWord_fields {func : Nat} (hf : func ≤ 64) (replay keep : Bool) :
    field (presetWord func replay keep) 63 9 = 0 ∧ field (presetWord func replay keep) 6 0 = func ∧
      bit (presetWord func replay keep) 7 = replay ∧ bit (presetWord func replay keep) 8 = keep := by
  rw [field_eq (w := 55) rfl, field_eq (w := 7) rfl, bit_eq_testBit, bit_eq_testBit, Nat.testBit_eq_decide_div_mod_eq,
    Nat.testBit_eq_decide_div_mod_eq]
  cases replay <;> cases keep <;> simp [presetWord] <;> omega

theorem preset_resets {func : Nat} (hf : func ≤ 64) (hl : linkRuns s = true) (replay keep : Bool) :
    exec (.preset (BitVec.ofNat 64 (presetWord func replay keep))) s =
      .next (partitionReset s func 1 0 0 replay keep) := by
  obtain ⟨hzero, hfunc, hreplay, hkeep⟩ := presetWord_fields hf replay keep
  have hlt : presetWord func replay keep < 2 ^ 64 := by
    unfold presetWord
    split <;> split <;> omega
  show execPreset _ s = _
  unfold execPreset
  rw [BitVec.toNat_ofNat, Nat.mod_eq_of_lt hlt]
  dsimp only
  rw [hzero, hfunc, hreplay, hkeep, hl]
  exact if_neg (by simp; omega)

theorem launchTimeLimit_resets {uid : Nat} {t : Team} (ht : teamBy s uid = some t)
    (hlimit : (funcOf s t.func).flimit.toNat % 2 ^ 32 ≠ 0)
    (htime : 1000 * ((funcOf s t.func).flimit.toNat % 2 ^ 32) ≤ 64 * (s.time - t.admitted + 1)) :
    exec (.launchTimeLimit uid) s = .next (partitionReset s t.func 2 0 t.domain true false) := by
  have hfield : field (funcOf s t.func).flimit.toNat 31 0 = (funcOf s t.func).flimit.toNat % 2 ^ 32 := by
    rw [field_eq (w := 32) rfl, Nat.pow_zero, Nat.div_one]
  show execLaunchTimeLimit uid s = _
  unfold execLaunchTimeLimit
  rw [ht]
  dsimp only
  rw [hfield]
  exact if_pos ⟨hlimit, by omega⟩

/-! ### What a reset that goes through at once leaves (R449, R450) -/

theorem reset_leaves {f reason addr dom : Nat} {replay keep : Bool} (hnew : ∀ r ∈ s.resets, r.func ≠ f) :
    let r := freshReset f reason addr dom replay keep
    let b := { discardTeams s f with resets := s.resets ++ [r] }
    TeamsGone s f (discardTeams s f) ∧
    (∀ t u, ResetRuns r b t u →
      partitionReset s f reason addr dom replay keep = endReset r u ∧ ResetEnds r u (endReset r u)) ∧
    (draftsOf b f = [] → keep = true ∨ slotsOf b f = [] → (∀ q ∈ queuesOf b f, queueOwned b q = false ∧
        (replay = true → qcfgEnable (queueOf b q).cfg = true → deviceCopyPoisoned b q = false)) →
      TeamsGone s f (partitionReset s f reason addr dom replay keep) ∧
        ResetEnds r s (partitionReset s f reason addr dom replay keep)) := by
  intro r b
  have hgone : TeamsGone s f (discardTeams s f) := teamsGone_discardTeams s f
  refine ⟨hgone, fun t u h => ⟨partitionReset_runs hnew h, resetEnds_endReset r u⟩, fun hdrafts hslots hclear => ?_⟩
  have hstands : resetOf b r.func = some r := by
    have hfirst := resetOf_appended (s := s) (r := r) hnew rfl
    exact hfirst
  obtain ⟨l, hruns⟩ := resetRuns_idle hstands hdrafts hslots hclear
  rw [partitionReset_runs hnew hruns]
  refine ⟨teamsGone_endReset (teamsGone_of_members hgone rfl rfl), ?_⟩
  obtain ⟨hcounted, hevent, hqueues⟩ := resetEnds_endReset r { b with resets := l }
  have hsame : queuesOf s r.func = queuesOf { b with resets := l } r.func := by
    show _ = ((discardTeams s f).queues.filter _).map _
    rw [discardTeams_queues]
    rfl
  refine ⟨hcounted.trans ?_, hevent, fun q hq => hqueues q (hsame ▸ hq)⟩
  show min ((discardTeams s f).prdone + 1) _ = _
  rw [discardTeams_prdone]

theorem recoverQueue_facts {q : Nat} (h : qcfgEnable (queueOf s q).cfg = true) :
    qcfgEnable (queueOf (recoverQueue false s q) q).cfg = false ∧
      let r := recallAll s (copyAt s q 0) 128 false
      (∀ i copy, currentCopy r q = some (i, copy) →
        (queueOf (recoverQueue true s q) q).consumed = fencedOf copy ∧
          (queueOf (recoverQueue true s q) q).fenced = fencedOf copy) ∧
      (currentCopy r q = none → qcfgEnable (queueOf (recoverQueue true s q) q).cfg = false) := by
  refine ⟨?_, fun i copy hc => ?_, fun hc => ?_⟩
  · rw [recoverQueue_disables h, disableQueue_disabled]
  · have hfence : (queueFrom (queueOf (copiesHome s q) q) i copy).fenced = fencedOf copy := field_eq (w := 64) rfl
    rw [recoverQueue_replays h hc, queueOf_onQueue_same]
    exact ⟨rfl, hfence⟩
  · obtain ⟨f, e, heq⟩ := recoverQueue_invalid h hc
    rw [heq]
    exact disableQueue_disabled (copiesHome s q) q

/-! ### The package resets (R431, R453) -/

/-- A core starts no more where its die is listed. -/
theorem coreOf_foldl_onCore {f : Core → Core} (hf : ∀ k, f (f k) = f k) (l : List Nat) (s : State) (c : Nat) :
    coreOf (l.foldl (fun s c => onCore s c f) s) c = if c ∈ l then f (coreOf s c) else coreOf s c := by
  induction l generalizing s with
  | nil => rfl
  | cons a rest ih =>
    rw [List.foldl_cons, ih, coreOf_onCore]
    by_cases hc : c = a
    · subst hc
      simp [hf]
    · simp [hc]

/-- A core that does not start. -/
def unstarted (k : Core) : Core := { k with started := false }

theorem coreOf_holdDie (s : State) (d c : Nat) :
    coreOf (holdDie s d) c = if c ∈ dieCores d then unstarted (coreOf s c) else coreOf s c :=
  coreOf_foldl_onCore (f := unstarted) (fun _ => rfl) _ _ _

theorem dieOf_of_mem {d c : Nat} (hd : d < 8) (h : c ∈ dieCores d) : dieOf c = d := by
  simp only [dieCores, List.mem_append, mem_upFrom] at h
  unfold dieOf isBasecamp
  simp only [ge_iff_le, decide_eq_true_eq]
  split <;> omega

theorem mem_dieCores {c : Nat} (h : c < 1664) : c ∈ dieCores (dieOf c) ∧ dieOf c < 8 := by
  simp only [dieCores, List.mem_append, mem_upFrom]
  unfold dieOf isBasecamp
  simp only [ge_iff_le, decide_eq_true_eq]
  split <;> omega

/-- Only the cores and the dies differ. -/
def DiesOnly (s t : State) : Prop := t = { s with cores := t.cores, dies := t.dies }

theorem DiesOnly.trans {u : State} (h : DiesOnly s t) (h' : DiesOnly t u) : DiesOnly s u := by
  unfold DiesOnly at *
  calc u = { t with cores := u.cores, dies := u.dies } := h'
    _ = _ := by rw [h]

theorem diesOnly_holdDie (s : State) (d : Nat) : DiesOnly s (holdDie s d) :=
  foldl_keeps (DiesOnly s) _ _ _ rfl fun _ _ h => h.trans rfl

theorem holdDie_dies (s : State) (d : Nat) : (holdDie s d).dies = s.dies :=
  foldl_keeps (fun t : State => t.dies = s.dies) _ _ _ rfl fun _ _ h => h

theorem restartedBy_of_diesOnly (h : DiesOnly (packageRestart s) t) : RestartedBy s t := by
  unfold DiesOnly at h
  refine ⟨?_, ?_, ?_, ?_, ?_, ?_, ?_, ?_, ?_⟩ <;> rw [h] <;> rfl

theorem poisonRestart_restarted (s : State) : RestartedBy s (poisonRestart s) :=
  restartedBy_of_diesOnly (foldl_keeps (DiesOnly (packageRestart s)) _ _ _ rfl fun _ _ h => h.trans (diesOnly_holdDie _ _))

theorem diesOnly_startDie (verified : List Nat) (s : State) (d : Nat) : DiesOnly s (startDie verified s d) := by
  unfold startDie
  extract_lets ok image u
  split
  · exact rfl
  · exact DiesOnly.trans (t := u) rfl (diesOnly_holdDie u d)

theorem startDie_dies (verified : List Nat) (s : State) (d e : Nat) :
    (lookD (startDie verified s d).dies e {}).halted =
      if e = d then !verified.contains d else (lookD s.dies e {}).halted := by
  have hdies : (startDie verified s d).dies = put s.dies d { lookD s.dies d {} with halted := !verified.contains d } := by
    unfold startDie
    extract_lets ok image u
    split
    · rfl
    · exact holdDie_dies u d
  rw [hdies]
  by_cases he : e = d
  · rw [he, lookD_put_same, if_pos rfl]
  · rw [lookD_put_other _ _ _ _ _ he, if_neg he]

theorem startDie_core (verified : List Nat) (s : State) (d c : Nat) :
    coreOf (startDie verified s d) c =
      if verified.contains d = false ∧ c ∈ dieCores d then unstarted (coreOf s c) else coreOf s c := by
  unfold startDie
  extract_lets ok image u
  have hok : ok = verified.contains d := rfl
  have hu : coreOf u c = coreOf s c := rfl
  split
  next h => rw [if_neg (by rw [← hok, h]; simp), hu]
  next h =>
    rw [Bool.not_eq_true] at h
    rw [coreOf_holdDie, ← hok, h, hu]
    exact if_congr (by simp) rfl rfl

/-- A core right after package reset: without a team, and started where its die's image passed. -/
def CoreStarts (verified : List Nat) (c : Nat) (s : State) : Prop :=
  (coreOf s c).started = verified.contains (dieOf c) ∧ (coreOf s c).team = none

theorem coreOf_startDies (verified : List Nat) (l : List Nat) (s : State) (c : Nat) :
    coreOf (l.foldl (startDie verified) s) c =
      if ∃ d ∈ l, verified.contains d = false ∧ c ∈ dieCores d then unstarted (coreOf s c) else coreOf s c := by
  induction l generalizing s with
  | nil => simp
  | cons a rest ih =>
    rw [List.foldl_cons, ih, startDie_core]
    by_cases ha : verified.contains a = false ∧ c ∈ dieCores a
    · have hlisted : ∃ d ∈ a :: rest, verified.contains d = false ∧ c ∈ dieCores d := ⟨a, List.mem_cons_self, ha⟩
      rw [if_pos ha, if_pos hlisted]
      exact ite_self _
    · have hiff : (∃ d ∈ a :: rest, verified.contains d = false ∧ c ∈ dieCores d) ↔
          ∃ d ∈ rest, verified.contains d = false ∧ c ∈ dieCores d := by
        simp only [List.mem_cons, exists_eq_or_imp, or_iff_right ha]
      rw [if_neg ha]
      exact if_congr hiff.symm rfl rfl

theorem atReset_starts (c : Nat) : (Core.atReset c).started = true ∧ (Core.atReset c).team = none := by
  unfold Core.atReset
  split <;> exact ⟨rfl, rfl⟩

theorem startDies_core (verified : List Nat) {c : Nat} (hc : c < 1664) (hs : coreOf s c = Core.atReset c) :
    CoreStarts verified c ((upFrom 0 8).foldl (startDie verified) s) := by
  obtain ⟨hmem, hdie⟩ := mem_dieCores hc
  obtain ⟨hstarted, hteam⟩ := atReset_starts c
  unfold CoreStarts
  rw [coreOf_startDies, hs]
  cases hv : verified.contains (dieOf c) with
  | false =>
    rw [if_pos ⟨dieOf c, (mem_upFrom 0 8 _).mpr (by omega), hv, hmem⟩]
    exact ⟨rfl, hteam⟩
  | true =>
    rw [if_neg]
    · exact ⟨hstarted, hteam⟩
    · rintro ⟨d, hd, hno, hin⟩
      rw [← dieOf_of_mem (by have := (mem_upFrom 0 8 d).mp hd; omega) hin, hv] at hno
      cases hno

theorem startDies_dies (verified : List Nat) {d : Nat} (hd : d < 8) (s : State) :
    (lookD ((upFrom 0 8).foldl (startDie verified) s).dies d {}).halted = !verified.contains d := by
  refine foldl_establishes (P := fun d t => (lookD (State.dies t) d {}).halted = !verified.contains d)
    (fun t a => ?_) (fun t a e h => ?_) (upFrom 0 8) s ((mem_upFrom 0 8 d).mpr (by omega))
  · rw [startDie_dies, if_pos rfl]
  · rw [startDie_dies]
    split
    next he => rw [he]
    next => exact h

theorem forgetOwners_keeps (m : Memory) : m.forgetOwners.keys = m.keys ∧ m.forgetOwners.tags = m.tags := by
  refine foldl_keeps (fun n : Memory => n.keys = m.keys ∧ n.tags = m.tags) _ _ _ ⟨rfl, rfl⟩ fun n id h => ?_
  unfold Memory.changeKey
  exact foldl_keeps (fun n : Memory => n.keys = m.keys ∧ n.tags = m.tags) _ _ _ h fun _ _ h => h

theorem packageReset_leaves (verified : List Nat) (s : State) :
    ∃ t, exec (.packageReset verified) s = .next t ∧ t.memory = s.memory.forgetOwners ∧
      t.memory.keys = s.memory.keys ∧ t.memory.tags = s.memory.tags ∧ t.teams = [] ∧ t.queues = [] ∧
      t.domains = [] ∧ t.keys = [] ∧ t.ptroot = 0 ∧ t.capw = 4200 ∧ t.slice = 2000 ∧
      (∀ d < 9, (lookD t.dies d {}).halted = !verified.contains d) ∧
      ∀ c < 1664, (coreOf t c).started = verified.contains (dieOf c) ∧ (coreOf t c).team = none := by
  have hdies (d : Nat) (hd : d < 8) := startDies_dies verified hd (packageRestart s)
  have hcores (c : Nat) (hc : c < 1664) := startDies_core (s := packageRestart s) verified hc rfl
  have hrest : DiesOnly (packageRestart s) ((upFrom 0 8).foldl (startDie verified) (packageRestart s)) :=
    foldl_keeps (DiesOnly (packageRestart s)) _ _ _ rfl fun _ _ h => h.trans (diesOnly_startDie _ _ _)
  obtain ⟨hkeys, htags⟩ := forgetOwners_keeps s.memory
  refine ⟨_, rfl, ?_⟩
  generalize (upFrom 0 8).foldl (startDie verified) (packageRestart s) = u at hdies hcores hrest ⊢
  unfold DiesOnly at hrest
  have hmemory : u.memory = s.memory.forgetOwners := by rw [hrest]; rfl
  refine ⟨hmemory, ?_, ?_, ?_, ?_, ?_, ?_, ?_, ?_, ?_, fun d hd => ?_, fun c hc => hcores c hc⟩
  · show u.memory.keys = _
    rw [hmemory, hkeys]
  · show u.memory.tags = _
    rw [hmemory, htags]
  · show u.teams = []
    rw [hrest]
    rfl
  · show u.queues = []
    rw [hrest]
    rfl
  · show u.domains = []
    rw [hrest]
    rfl
  · show u.keys = []
    rw [hrest]
    rfl
  · show u.ptroot = 0
    rw [hrest]
    rfl
  · show u.capw = 4200
    rw [hrest]
    rfl
  · show u.slice = 2000
    rw [hrest]
    rfl
  · show (lookD (put u.dies 8 { lookD u.dies 8 {} with halted := !verified.contains 8 }) d {}).halted = _
    by_cases h8 : d = 8
    · rw [h8, lookD_put_same]
    · rw [lookD_put_other _ _ _ _ _ h8, hdies d (by omega)]

/-! ### Errors of storage and link, and what reads poison (R452 to R454) -/

theorem hbmPatrol_corrected (good : List Nat) (n : Nat) : exec (.hbmPatrol (good, n) ([], [])) s =
    .next { s with cecnt := min (s.cecnt + (good.length + n)) (2 ^ 64 - 1) } := rfl

theorem hbmPatrol_lost (good : List Nat) (n : Nat) {f : Nat} (hf : f ≤ 64) :
    exec (.hbmPatrol (good, n) ([], [f])) s = .next (partitionReset { s with
      cecnt := min (s.cecnt + (good.length + n)) (2 ^ 64 - 1), uecnt := min (s.uecnt + 1) (2 ^ 64 - 1) }
        f 4 0 0 true false) := by
  have hkept : [f].filter (· ≤ 64) = [f] := by simp [hf]
  show Host.Outcome.next (([f].filter (· ≤ 64)).foldl loseState { s with cecnt := counted s.cecnt (good.length + n) }) = _
  rw [hkept]
  rfl

/-- One sector that is poisoned, which was not. -/
theorem hbmPatrol_sector (good : List Nat) (n : Nat) {p : Nat} (hp : 64 * p + 64 ≤ Config.hbmBytes)
    (hfresh : memNat s.poison p = false) :
    exec (.hbmPatrol (good, n) ([p], [])) s =
      .next (poisonSector { s with cecnt := counted s.cecnt (good.length + n) } p) := by
  have hbad : [p].filter (fun p => decide (64 * p + 64 ≤ Config.hbmBytes) && !memNat s.poison p) = [p] := by
    simp [hp, hfresh]
  show Host.Outcome.next ((([p].filter fun p => decide (64 * p + 64 ≤ Config.hbmBytes) && !memNat s.poison p)).foldl
    poisonSector { s with cecnt := counted s.cecnt (good.length + n) }) = _
  rw [hbad]
  rfl

theorem frameOf_sector (p : Nat) : frameOf (64 * p) = frameAt p := by
  unfold frameOf frameAt
  omega

/-- What a sector's poisoning marks, before its frame is looked at. -/
theorem poisonSector_eq (corrected p : Nat) (s : State) :
    let marked := withPoison corrected p s
    let again := postEvent { marked with retired := insertNat s.retired (frameAt p) } 0 ⟨8, 0, 0, 0, frameAt p⟩
    let t := if frameAt p ∈ s.poisoned then (s.domains.map (·.1)).foldl (retireFrame (frameAt p)) again else marked
    poisonSector { s with cecnt := counted s.cecnt corrected } p =
      if (s.memory.keyAt (64 * p)).getD 0 = 0 then poisonRestart t else t := by
  intro marked again t
  have hframe := frameOf_sector p
  have hrestart (u : State) (hu : u.memory = s.memory) :
      (if (u.memory.keyAt (64 * p)).getD 0 = 0 then poisonRestart u else u) =
        if (s.memory.keyAt (64 * p)).getD 0 = 0 then poisonRestart u else u := by rw [hu]
  have hlisted : s.poisoned.contains (frameAt p) = decide (frameAt p ∈ s.poisoned) := List.contains_eq_mem ..
  unfold poisonSector
  rw [hframe]
  dsimp only
  rw [hlisted]
  by_cases h : frameAt p ∈ s.poisoned
  · have ht : t = (s.domains.map (·.1)).foldl (retireFrame (frameAt p)) again := if_pos h
    have hmemory : ((s.domains.map (·.1)).foldl (retireFrame (frameAt p)) again).memory = s.memory := by
      have honly := (retireFrames_take (frameAt p) again (s.domains.map (·.1))).1
      unfold DomainsOnly at honly
      rw [honly]
      rfl
    rw [ht]
    simp only [h, decide_true, if_true]
    exact hrestart _ hmemory
  · have ht : t = marked := if_neg h
    rw [ht]
    simp only [h, decide_false, Bool.false_eq_true, if_false]
    exact hrestart marked rfl

/-- An event posted to a function leaves its mode. -/
theorem funcOf_postEvent_mode (s : State) (f g : Nat) (e : HostEvent) :
    (funcOf (postEvent s f e) g).fmode = (funcOf s g).fmode := by
  show (lookD (put s.funcs f { funcOf s f with events := (funcOf s f).events ++ [e] }) g {}).fmode = _
  by_cases hg : g = f
  · rw [hg, lookD_put_same]
  · rw [lookD_put_other _ _ _ _ _ hg]
    rfl

/-- Neither marks nor an event change the translations of a page. -/
theorem standsIn_again (corrected p : Nat) (s : State) (retired : List Nat) (e : HostEvent) (f : Option Nat) (frame page : Nat) :
    standsIn (postEvent { withPoison corrected p s with retired := retired } 0 e) f frame page = standsIn s f frame page := by
  have hposts : postsWalks (postEvent { withPoison corrected p s with retired := retired } 0 e) f = postsWalks s f := by
    unfold postsWalks
    simp only [funcOf_postEvent_mode]
    rfl
  unfold standsIn leavesOf
  rw [hposts]
  rfl

/-- A sector of an owner's: it is marked, and a frame's second time takes its pages and granules from the free lists. -/
theorem poisonSector_owned {corrected p key : Nat} (hkey : key ≠ 0) (hk : s.memory.keyAt (64 * p) = some key) :
    let marked := withPoison corrected p s
    let again := postEvent { marked with retired := insertNat s.retired (frameAt p) } 0 ⟨8, 0, 0, 0, frameAt p⟩
    (frameAt p ∉ s.poisoned → poisonSector { s with cecnt := counted s.cecnt corrected } p = marked) ∧
    (frameAt p ∈ s.poisoned → poisonSector { s with cecnt := counted s.cecnt corrected } p =
      (s.domains.map (·.1)).foldl (retireFrame (frameAt p)) again) := by
  intro marked again
  rw [poisonSector_eq, hk, Option.getD_some, if_neg hkey]
  exact ⟨fun h => if_neg h, fun h => if_pos h⟩

/-- Under the device's own identifier, or none, the package resets. -/
theorem poisonSector_device {corrected p : Nat} (hk : s.memory.keyAt (64 * p) = some 0 ∨ s.memory.keyAt (64 * p) = none) :
    RestartedBy (withPoison corrected p s) (poisonSector { s with cecnt := counted s.cecnt corrected } p) := by
  have hzero : (s.memory.keyAt (64 * p)).getD 0 = 0 := by
    rcases hk with h | h <;> rw [h] <;> rfl
  rw [poisonSector_eq, if_pos hzero]
  by_cases h : frameAt p ∈ s.poisoned
  · rw [if_pos h]
    have honly := (retireFrames_take (frameAt p) (postEvent { withPoison corrected p s with
      retired := insertNat s.retired (frameAt p) } 0 ⟨8, 0, 0, 0, frameAt p⟩) (s.domains.map (·.1))).1
    generalize (s.domains.map (·.1)).foldl (retireFrame (frameAt p)) _ = u at honly ⊢
    unfold DomainsOnly at honly
    obtain ⟨hmemory, hpoison, hrest⟩ := poisonRestart_restarted u
    refine ⟨hmemory.trans ?_, hpoison.trans ?_, hrest⟩ <;> rw [honly] <;> rfl
  · rw [if_neg h]
    exact poisonRestart_restarted _

theorem hbmPatrol_poisons (good : List Nat) (n p : Nat) (hp : 64 * p + 64 ≤ Config.hbmBytes) (hfresh : memNat s.poison p = false) :
    let marked := withPoison (good.length + n) p s
    let again := postEvent { marked with retired := insertNat s.retired (frameAt p) } 0 ⟨8, 0, 0, 0, frameAt p⟩
    let inFrame (d : Nat) (page : Nat) : Prop := standsIn s (domainOf s d).func (frameAt p) page = true
    (∀ key, key ≠ 0 → s.memory.keyAt (64 * p) = some key →
      (frameAt p ∉ s.poisoned → exec (.hbmPatrol (good, n) ([p], [])) s = .next marked) ∧
      (frameAt p ∈ s.poisoned → ∃ t, exec (.hbmPatrol (good, n) ([p], [])) s = .next t ∧
        t = { again with domains := t.domains } ∧ ∀ d ∈ s.domains.map (·.1),
          (∀ i < (domainOf s d).kvpages.toNat, pageReady (kvPage (domainOf s d) i) = true →
            inFrame d ((domainOf s d).kvbase.toNat + i) → kvPage (domainOf t d) i = .retired) ∧
          ∀ i < (domainOf s d).covgran.toNat, granuleFree (granuleAt (domainOf s d) i).state = true →
            inFrame d ((domainOf s d).covbase.toNat + i) → (granuleAt (domainOf t d) i).state = .retired)) ∧
    (s.memory.keyAt (64 * p) = some 0 ∨ s.memory.keyAt (64 * p) = none →
      ∃ t, exec (.hbmPatrol (good, n) ([p], [])) s = .next t ∧ RestartedBy marked t) := by
  intro marked again inFrame
  rw [hbmPatrol_sector good n hp hfresh]
  refine ⟨fun key hkey hk => ⟨fun h => congrArg _ ((poisonSector_owned hkey hk).1 h), fun h => ?_⟩,
    fun hk => ⟨_, rfl, poisonSector_device hk⟩⟩
  refine ⟨_, rfl, ?_⟩
  rw [(poisonSector_owned hkey hk).2 h]
  obtain ⟨honly, htaken⟩ := retireFrames_take (frameAt p) again (s.domains.map (·.1))
  refine ⟨honly, fun d hd => ⟨fun i hi hready hin => (htaken d hd).1 i ?_, fun i hi hfree hin => (htaken d hd).2 i ?_⟩⟩
  · have hstands : standsIn again (domainOf s d).func (frameAt p) ((domainOf s d).kvbase.toNat + i) = true :=
      (standsIn_again ..).trans hin
    exact List.mem_filter.mpr ⟨(mem_upFrom 0 _ i).mpr ⟨Nat.zero_le _, by rw [Nat.zero_add]; exact hi⟩,
      Bool.and_eq_true_iff.mpr ⟨hready, hstands⟩⟩
  · have hstands : standsIn again (domainOf s d).func (frameAt p) ((domainOf s d).covbase.toNat + i) = true :=
      (standsIn_again ..).trans hin
    exact List.mem_filter.mpr ⟨(mem_upFrom 0 _ i).mpr ⟨Nat.zero_le _, by rw [Nat.zero_add]; exact hi⟩,
      Bool.and_eq_true_iff.mpr ⟨hfree, hstands⟩⟩

theorem finish_poison {m : Act Unit} {key va : Nat} (h : m s = .error (.poison key va)) :
    (key ≠ 0 → finish m s = .next (partitionReset s (myFunc s) 4 (va / 64 * 64) (myDomain s) true false)) ∧
    (key = 0 → ∃ t, finish m s = .next t ∧ RestartedBy s t) := by
  have hfinish : finish m s = .next (poisonReset s key va (myFunc s) (myDomain s)) := by
    unfold finish
    rw [h]
  rw [hfinish, poisonReset]
  exact ⟨fun hk => by rw [if_neg hk], fun hk => ⟨_, rfl, by rw [if_pos hk]; exact poisonRestart_restarted s⟩⟩

theorem loadAt_poisoned {p : Place} (va n : Nat) (hpa : p.pa < hostBase) (hp : memNat s.poison (p.pa / 64) = true) :
    loadAt p va n [] s = .error (.poison p.key va) := if_pos ⟨hpa, hp⟩

theorem physPut_clears (key a : Nat) {bs : List Byte} (tag : Bool) (hlen : bs.length = 64) :
    memNat (physPut s key a bs tag).poison (a / 64) = false := by
  show memNat (if bs.length = 64 then removeNat s.poison (a / 64) else s.poison) (a / 64) = false
  rw [if_pos hlen, ← Bool.not_eq_true, memNat_iff, mem_removeNat]
  exact fun h => h.1 rfl

/-! ### Firmware updates (R431 to R433, R455) -/

theorem bundleOf_eq (dies : List Nat) : (upFrom 0 9).filter dies.contains = bundleOf dies := by
  rw [upFrom_eq_range]
  rfl

/-- The dies that a bundle leaves share a mailbox version with it. -/
def VersionsMeet (s : State) (lo hi : Nat) (dies : List Nat) : Prop :=
  ∀ d < 9, d ∉ dies → max lo (lookD s.dies d {}).vmin ≤ min hi (lookD s.dies d {}).vmax

theorem versionsMeet_iff (lo hi : Nat) (dies : List Nat) :
    (((upFrom 0 9).filter (!dies.contains ·)).all fun d =>
      rangesMeet lo hi (lookD s.dies d {}).vmin (lookD s.dies d {}).vmax) = true ↔ VersionsMeet s lo hi dies := by
  simp only [List.all_eq_true, List.mem_filter, mem_upFrom, rangesMeet, decide_eq_true_eq, Bool.not_eq_true',
    ← Bool.not_eq_true, List.contains_iff_mem]
  exact ⟨fun h d hd hn => h d ⟨⟨Nat.zero_le _, by omega⟩, hn⟩, fun h d hd => h d (by omega) hd.2⟩

theorem firmwareUpdate_starts (len : BitVec 64) (lo hi : Nat) (dies : List Nat) (hl : linkRuns s = true)
    (hstat : s.update.stat ≠ 1) :
    let next (stat : Nat) : State := { s with update := { s.update with
      stat := stat, die := (bundleOf dies).headD 0, image := s.update.image + 1, vmin := lo, vmax := hi
      bundle := bundleOf dies } }
    (VersionsMeet s lo hi dies →
      exec (.firmwareUpdate len (lo, hi) dies) s = .next (next (if bundleOf dies = [] then 2 else 1))) ∧
    ((∃ d < 9, d ∉ dies ∧ min hi (lookD s.dies d {}).vmax < max lo (lookD s.dies d {}).vmin) →
      exec (.firmwareUpdate len (lo, hi) dies) s = .next (next 3)) := by
  intro next
  have hmay : ¬ ((!linkRuns s) = true ∨ s.update.stat = 1) := by rw [hl]; simpa using hstat
  have hexec : exec (.firmwareUpdate len (lo, hi) dies) s = .next (next (if (!((upFrom 0 9).filter (!dies.contains ·)).all
      fun d => rangesMeet lo hi (lookD s.dies d {}).vmin (lookD s.dies d {}).vmax) = true then 3
      else if (bundleOf dies).isEmpty then 2 else 1)) := by
    show execFirmwareUpdate len (lo, hi) dies s = _
    unfold execFirmwareUpdate
    rw [if_neg hmay, bundleOf_eq]
  rw [hexec]
  refine ⟨fun h => ?_, fun h => ?_⟩
  · rw [(versionsMeet_iff lo hi dies).mpr h]
    simp only [Bool.not_true, Bool.false_eq_true, if_false, List.isEmpty_iff]
  · obtain ⟨d, hd, hn, hapart⟩ := h
    have hnot : ¬ VersionsMeet s lo hi dies := fun hm => Nat.not_le.mpr hapart (hm d hd hn)
    rw [← versionsMeet_iff, Bool.not_eq_true] at hnot
    rw [hnot]
    rfl

/-- Dropping a view touches the counts of its granules alone. -/
theorem domainsOnly_dropView (s : State) (v : Cap) : DomainsOnly s (dropView s v) := by
  have huncover (s : State) (g : Nat) : DomainsOnly s (uncover s g) := by
    unfold uncover
    split
    · exact .refl s
    · dsimp only
      split
      · exact rfl
      all_goals exact .refl s
  unfold dropView
  split
  · split
    · exact foldl_keeps (DomainsOnly s) _ _ _ (.refl s) fun t g h => h.trans (huncover t g)
    · exact .refl s
  · exact .refl s

theorem dropViewsOf_update (s : State) (x : Context) : (dropViewsOf s x).update = s.update := by
  have honly : DomainsOnly s (dropViewsOf s x) :=
    foldl_keeps (DomainsOnly s) _ _ _ (.refl s) fun t e h => h.trans (domainsOnly_dropView t e.2)
  unfold DomainsOnly at honly
  rw [honly]

theorem replaceImage_update (s : State) (d : Nat) : (replaceImage s d).update = s.update := by
  unfold replaceImage
  extract_lets u t
  split
  · refine foldl_keeps (fun t : State => t.update = s.update) _ _ _ rfl fun t c h => ?_
    exact (dropViewsOf_update _ _).trans h
  · rfl

/-- No team stands on the next die of an update: nothing leaves and nothing returns. -/
theorem firmwareDieUpdate_goes {d : Nat} (h : DieReady s d) (verified : Bool) :
    exec (.firmwareDieUpdate verified) s =
      .next { (if verified = true then replaceImage s d else s) with update := nextDie s.update verified } := by
  obtain ⟨hstat, hdie, hidle, hteams, hfits⟩ := h
  have hmay : ¬ (s.update.stat ≠ 1 ∨ d < 8 ∧ (!dieIdle s d) = true) := by
    rintro (h | ⟨hd, hbusy⟩)
    · exact h hstat
    · rw [hidle hd] at hbusy
      cases hbusy
  show execFirmwareDieUpdate verified s = _
  unfold execFirmwareDieUpdate
  rw [hdie]
  extract_lets e uids
  have hnone : (if e < 8 then uids else []) = [] := by
    have huids : uids = [] := by
      show (s.teams.filter (usesDie s d)).map (·.uid) = []
      rw [hteams]
      rfl
    rw [huids]
    exact ite_self _
  rw [if_neg hmay, hnone]
  show (if (!swapFits s) = true then Host.Outcome.next s
    else .next { (if verified = true then replaceImage s d else s) with
      update := nextDie (if verified = true then replaceImage s d else s).update verified }) = _
  have hupdate : (if verified = true then replaceImage s d else s).update = s.update := by
    split
    · exact replaceImage_update s d
    · rfl
  rw [hfits, hupdate]
  exact if_neg (by decide)

theorem nextDie_goesOn {u : Update} {n : Nat} {rest : List Nat} (h : u.bundle.filter (u.die < ·) = n :: rest) :
    nextDie u true = { u with die := n } := by
  rw [nextDie, h]
  exact if_neg (by decide)

theorem nextDie_ends {u : Update} (h : u.bundle.filter (u.die < ·) = []) : nextDie u true = { u with stat := 2 } := by
  rw [nextDie, h]
  exact if_neg (by decide)

end

/-- Settles O23: a reset whose steps find nothing in their way ends at once, and leaves its partition's teams gone and its queues
recovered; Meridian moves each island by its kind; poison marks, retires or resets; an update goes die by die. -/
theorem operatorEvents : Obligations.OperatorEvents := by
  intro s
  refine ⟨fun func hf hl => ⟨functionLevelReset_resets hf hl, fun replay keep => preset_resets hf hl replay keep⟩,
    fun uid t ht hlimit htime => launchTimeLimit_resets ht hlimit htime,
    fun f reason addr dom replay keep hnew => reset_leaves hnew, fun q h => recoverQueue_facts h,
    fun power temp => meridianInterval_facts power temp s, fun good n => hbmPatrol_corrected good n,
    fun good n f hf => hbmPatrol_lost good n hf, fun good n p hp hfresh => hbmPatrol_poisons good n p hp hfresh,
    fun m key va h => finish_poison h, fun p va n hpa hp => loadAt_poisoned va n hpa hp,
    fun key a bs tag _ hlen => physPut_clears key a tag hlen, rfl, rfl, fun verified => packageReset_leaves verified s,
    fun len lo hi dies hl hstat => firmwareUpdate_starts len lo hi dies hl hstat, fun d h => ⟨?_, fun n rest hb => ?_, fun hb => ?_⟩⟩
  · exact firmwareDieUpdate_goes h false
  · rw [firmwareDieUpdate_goes h true, nextDie_goesOn (by rw [h.2.1]; exact hb), if_pos rfl]
  · rw [firmwareDieUpdate_goes h true, nextDie_ends (by rw [h.2.1]; exact hb), if_pos rfl]

end Sys2Proof.Machine
end

section
namespace Sys2Proof.Machine
open Sys2Proof.Claims

/-! ### Windows that give sectors up without writing back (R125)

Where no window holds Dirty what an access asks for, the windows lose sectors but memory stands. -/

/-- A window that has lost some of its sectors. -/
structure Calmer (w₀ w : Window) : Prop where
  place : w = { w₀ with sectors := w.sectors }
  kept : ∀ e ∈ w.sectors, e ∈ w₀.sectors
  state : ∀ i, sectorState w i = sectorState w₀ i ∨ sectorState w i = .absent

/-- The windows of a core have lost some of their sectors. -/
def CalmerCore (k₀ k : Core) : Prop := ∀ e ∈ k.windows, ∃ w₀, (e.1, w₀) ∈ k₀.windows ∧ Calmer w₀ e.2

/-- Only the cores differ, whose windows have lost some of their sectors. -/
structure Calmed (s t : State) : Prop where
  rest : t = { s with cores := t.cores }
  cores : ∀ c, CalmerCore (coreOf s c) (coreOf t c)

theorem Calmer.refl (w : Window) : Calmer w w := ⟨rfl, fun _ h => h, fun _ => .inl rfl⟩

theorem Calmer.trans {a b c : Window} (h : Calmer a b) (h' : Calmer b c) : Calmer a c where
  place := by
    calc c = { b with sectors := c.sectors } := h'.place
      _ = _ := by rw [h.place]
  kept e he := h.kept e (h'.kept e he)
  state i := by
    rcases h'.state i with hsame | hgone
    · rw [hsame]
      exact h.state i
    · exact .inr hgone

theorem CalmerCore.refl (k : Core) : CalmerCore k k := fun e he => ⟨e.2, he, .refl _⟩

theorem CalmerCore.of_windows {k k' : Core} (h : k'.windows = k.windows) : CalmerCore k k' :=
  fun e he => ⟨e.2, h ▸ he, .refl _⟩

theorem CalmerCore.trans {a b c : Core} (h : CalmerCore a b) (h' : CalmerCore b c) : CalmerCore a c := by
  intro e he
  obtain ⟨w, hw, hcalm⟩ := h' e he
  obtain ⟨w₀, hw₀, hcalm₀⟩ := h (e.1, w) hw
  exact ⟨w₀, hw₀, hcalm₀.trans hcalm⟩

theorem Calmed.refl (s : State) : Calmed s s := ⟨rfl, fun _ => .refl _⟩

theorem Calmed.trans {s t u : State} (h : Calmed s t) (h' : Calmed t u) : Calmed s u where
  rest := by
    calc u = { t with cores := u.cores } := h'.rest
      _ = _ := by rw [h.rest]
  cores c := (h.cores c).trans (h'.cores c)

theorem mem_put {α : Type} {m : SMap α} {k : Nat} {v : α} {e : Nat × α} (h : e ∈ put m k v) : e = (k, v) ∨ e ∈ m := by
  induction m with
  | nil => exact .inl (List.mem_singleton.mp h)
  | cons a rest ih =>
    obtain ⟨j, x⟩ := a
    rw [put] at h
    split at h
    · exact (List.mem_cons.mp h).imp_right (List.mem_cons_of_mem _)
    · split at h
      · rcases List.mem_cons.mp h with h | h
        · exact .inr (h ▸ List.mem_cons_self)
        · exact (ih h).imp_right (List.mem_cons_of_mem _)
      · exact List.mem_cons.mp h

theorem mem_of_mem_drop {α : Type} {m : SMap α} {k : Nat} {e : Nat × α} (h : e ∈ drop m k) : e ∈ m := by
  induction m with
  | nil => cases h
  | cons a rest ih =>
    obtain ⟨j, x⟩ := a
    rw [drop] at h
    split at h
    · exact List.mem_cons_of_mem _ (ih h)
    · rcases List.mem_cons.mp h with h | h
      · exact h ▸ List.mem_cons_self
      · exact List.mem_cons_of_mem _ (ih h)

theorem calmerCore_setSector (k : Core) (num i : Nat) : CalmerCore k (setSector k num i .absent) := by
  unfold setSector
  split
  · exact .refl k
  next w hw =>
    intro e he
    rcases mem_put he with rfl | he
    · refine ⟨w, mem_of_look hw, rfl, fun e he => ?_, fun j => ?_⟩
      · have hdrop : e ∈ drop w.sectors i := he
        exact mem_of_mem_drop hdrop
      · show lookD (drop w.sectors i) j .absent = _ ∨ lookD (drop w.sectors i) j .absent = _
        unfold lookD
        rw [look_drop]
        split
        · exact .inr rfl
        · exact .inl rfl
    · exact ⟨e.2, he, .refl _⟩

theorem calmed_onCore {s : State} {c : Nat} {f : Core → Core} (h : CalmerCore (coreOf s c) (f (coreOf s c))) :
    Calmed s (onCore s c f) where
  rest := rfl
  cores d := by
    rw [coreOf_onCore]
    split
    next hd => rw [hd]; exact h
    next => exact .refl _

/-! #### Giving up a sector that is not Dirty -/

theorem writeBackBy_clean {before : Nat → State → State} {s : State} {core num i : Nat} (h : backLeaf s core num i = none) :
    writeBackBy before s core num i = s := by
  unfold writeBackBy
  rw [h]
  dsimp only [Option.bind_none]
  rw [h]

theorem writeBack_clean {s : State} {core num i : Nat} (h : backLeaf s core num i = none) : writeBack s core num i = s := by
  unfold writeBack
  cases sectorCount s with
  | zero => exact writeBackBy_clean h
  | succ fuel => exact writeBackBy_clean h

/-- A sector that is not Dirty is given up without a write-back: it stands, or it goes where it is to be written. -/
theorem giveBy_clean {s : State} {core num i : Nat} (write : Bool) (h : backLeaf s core num i = none) :
    giveBy writeBack write core num s i = s ∨
      giveBy writeBack write core num s i = onCore s core fun k => setSector k num i .absent := by
  unfold giveBy
  split
  · exact .inl rfl
  · rw [writeBack_clean h]
    dsimp only
    split
    · exact .inr rfl
    · exact .inl rfl

theorem backLeaf_clean {s : State} {core num i : Nat}
    (h : ∀ w, (num, w) ∈ (coreOf s core).windows → (sectorState w i).isDirty = false) : backLeaf s core num i = none := by
  unfold backLeaf
  cases hl : look (coreOf s core).windows num with
  | none => rfl
  | some w =>
    have hclean := h w (mem_of_look hl)
    rw [Option.bind_some]
    cases hs : sectorState w i with
    | absent => rfl
    | clean t => rfl
    | dirty t => rw [hs] at hclean; cases hclean

theorem isDirty_calmer {w₀ w : Window} (h : Calmer w₀ w) {i : Nat} (hclean : (sectorState w₀ i).isDirty = false) :
    (sectorState w i).isDirty = false := by
  rcases h.state i with hs | hs
  · rw [hs, hclean]
  · rw [hs]
    rfl

theorem windowHolds_calmer {w₀ w : Window} (h : Calmer w₀ w) (va : Nat) : windowHolds w va = windowHolds w₀ va := by
  rw [h.place]
  rfl

theorem sectorOf_calmer {w₀ w : Window} (h : Calmer w₀ w) (va : Nat) : sectorOf w va = sectorOf w₀ va := by
  rw [h.place]
  rfl

/-- Neither window of a number, of a core that comes from a quiet one, holds the sector of `v` Dirty. -/
theorem backLeaf_quiet {s₀ s : State} {a : Actor} {va v c num : Nat} {w : Window} (hq : Quiet s₀ a va)
    (hv : v ∈ [va, va / 64 * 64]) (hc : a.served = true → c ≠ a.core) (hcalm : CalmerCore (coreOf s₀ c) (coreOf s c))
    (hw : windowAt (coreOf s c) v = some (num, w)) : backLeaf s c num (sectorOf w v) = none := by
  refine backLeaf_clean fun w' hw' => ?_
  have hholds : windowHolds w v = true := (List.find?_eq_some_iff_append.mp hw).1
  obtain ⟨w₀, hw₀, hcalm₀⟩ := hcalm (num, w) (List.mem_of_find?_eq_some hw)
  obtain ⟨w₁, hw₁, hcalm₁⟩ := hcalm (num, w') hw'
  rw [sectorOf_calmer hcalm₀]
  refine isDirty_calmer hcalm₁ (hq v hv c hc num w₀ w₁ hw₀ hw₁ ?_)
  rw [← windowHolds_calmer hcalm₀, hholds]

/-- What is true of a state whose windows are quiet for an access, and stays true as they lose sectors, is true once they have
given the sector of the access up. -/
theorem giveUp_quiet {I : State → Prop} {s₀ : State} {a : Actor} {va v : Nat} (hq : Quiet s₀ a va) (hv : v ∈ [va, va / 64 * 64])
    (write : Bool) (hcalm : ∀ s, I s → ∀ c, (a.served = true → c ≠ a.core) → CalmerCore (coreOf s₀ c) (coreOf s c))
    (hset : ∀ s, I s → ∀ c num i, (a.served = true → c ≠ a.core) → I (onCore s c fun k => setSector k num i .absent))
    {s : State} (hs : I s) : I (giveUp s a v write) := by
  unfold giveUp
  refine List.foldlRecOn (motive := I) _ _ hs fun t ht c hc => ?_
  have hother : a.served = true → c ≠ a.core := by
    intro hserved hcore
    have hkept := (List.mem_filter.mp hc).2
    rw [hserved, hcore] at hkept
    simp at hkept
  unfold recallFrom
  split
  · exact ht
  next num w hw =>
    have hclean := backLeaf_quiet hq hv hother (hcalm t ht c hother) hw
    rcases giveBy_clean write hclean with heq | heq
    · rw [heq]
      exact ht
    · rw [heq]
      exact hset t ht c _ _ hother

/-- A part of a range meets what meets the whole. -/
theorem meets_of_part {a n b m x k : Nat} (ha : a ≤ x) (hn : x + k ≤ a + n) (h : Meets x k b m) : Meets a n b m := by
  unfold Meets at *
  omega

/-- The windows give up a part of a table of the access: none of them holds it Dirty. -/
theorem recallAll_calmed {s₀ s : State} {a : Actor} {va x n : Nat} {p : Nat × Nat} (hq : TablesQuiet s₀ a va)
    (hp : p ∈ tablesOf s₀ a va) (hlo : p.1 ≤ x) (hhi : x + n ≤ p.1 + p.2) (write : Bool) (hs : Calmed s₀ s) :
    Calmed s₀ (recallAll s x n write) := by
  unfold recallAll
  refine foldl_keeps (Calmed s₀) _ _ _ hs fun t c ht => ?_
  unfold recallBy
  refine List.foldlRecOn (motive := Calmed s₀) _ _ ht fun u hu e he => ?_
  obtain ⟨num, w⟩ := e
  refine List.foldlRecOn (motive := Calmed s₀) _ _ hu fun y hy i hi => ?_
  have hclean : backLeaf y c num i = none := by
    refine backLeaf_clean fun w' hw' => ?_
    obtain ⟨e, hsector, rfl⟩ := List.mem_map.mp hi
    obtain ⟨he', hmeets⟩ := List.mem_filter.mp hsector
    obtain ⟨w₀, hw₀, hcalm₀⟩ := ht.cores c (num, w) he
    obtain ⟨w₁, hw₁, hcalm₁⟩ := hy.cores c (num, w') hw'
    refine isDirty_calmer hcalm₁ (Bool.not_eq_true _ ▸ fun hdirty => ?_)
    have hbase : w.base = w₀.base := by
      have hplace : w = { w₀ with sectors := w.sectors } := hcalm₀.place
      rw [hplace]
    cases hleaf : e.2.leaf? with
    | none =>
      rw [sectorMeets, hleaf] at hmeets
      cases hmeets
    | some tr =>
      rw [sectorMeets, hleaf, Option.any_some, ← Bool.not_eq_false, meet_false_iff, not_not, hbase] at hmeets
      exact hq c num w₀ w₁ hw₀ hw₁ e (hcalm₀.kept e he') hdirty tr hleaf p hp (meets_of_part hlo hhi hmeets)
  rcases giveBy_clean write hclean with heq | heq
  · rw [heq]
    exact hy
  · rw [heq]
    exact hy.trans (calmed_onCore (calmerCore_setSector _ _ _))

end Sys2Proof.Machine
end

section
namespace Sys2Proof.Machine
open Sys2Proof.Claims

/-! ### What an access leaves of memory, step by step (R410, R411) -/

/-- From a state of the first kind an act that goes through comes to one of the second. -/
def Leads {α : Type} (P : State → Prop) (m : Act α) (Q : α → State → Prop) : Prop :=
  ∀ s x t, P s → m s = .ok (x, t) → Q x t

section
variable {α β : Type} {P : State → Prop} {R : β → State → Prop}

theorem Leads.bind {m : Act α} {f : α → Act β} {Q : α → State → Prop} (hm : Leads P m Q) (hf : ∀ x, Leads (Q x) (f x) R) :
    Leads P (m >>= f) R := by
  intro s y u hs h
  obtain ⟨x, t, h1, h2⟩ := act_bind_inv m f s _ _ h
  exact hf x t y u (hm s x t hs h1) h2

theorem Leads.get_bind {f : State → Act β} (hf : ∀ s, P s → Leads P (f s) R) : Leads P (get >>= f) R :=
  fun s y t hs h => hf s hs s y t hs h

theorem Leads.ite {c : Prop} [Decidable c] {m m' : Act β} (hm : Leads P m R) (hm' : Leads P m' R) :
    Leads P (if c then m else m') R := by split <;> assumption

/-- A guard that stops the act. -/
theorem Leads.unless {c : Prop} [Decidable c] {m : Act Unit} {f : Unit → Act β} (hm : Leads P m fun _ _ => False)
    (hf : Leads P (f ()) R) : Leads P (if c then m >>= f else f ()) R :=
  .ite (hm.bind fun _ _ _ _ h => h.elim) hf

theorem Leads.mono {P' : State → Prop} {m : Act β} (h : Leads P m R) (hp : ∀ s, P' s → P s) : Leads P' m R :=
  fun s x t hs hm => h s x t (hp s hs) hm

theorem leads_pure {x : β} (h : ∀ s, P s → R x s) : Leads P (pure x : Act β) R := by
  intro s y t hs h'
  cases h'
  exact h s hs

theorem leads_modify {f : State → State} {R : PUnit → State → Prop} (h : ∀ s, P s → R ⟨⟩ (f s)) :
    Leads P (modify f : Act PUnit) R := by
  intro s y t hs h'
  cases h'
  exact h s hs

theorem leads_error {m : Act β} (h : ∀ s, ∃ e, m s = .error e) : Leads P m R := by
  intro s x t _ ht
  obtain ⟨e, he⟩ := h s
  rw [he] at ht
  cases ht

theorem leads_stop (e : Stop) : Leads P (stop e : Act β) R := leads_error fun _ => ⟨e, rfl⟩
theorem leads_hold (w : Wait) : Leads P (hold w : Act β) R := leads_error fun _ => ⟨_, rfl⟩
theorem leads_raise (c i : Nat) : Leads P (raise c i : Act β) R := leads_error fun _ => ⟨_, rfl⟩

theorem leads_require {R : Unit → State → Prop} (ok : Bool) (c i : Nat) (h : ∀ s, P s → R () s) :
    Leads P (require ok c i) R := by
  unfold require
  exact .ite (leads_pure h) (leads_raise _ _)

theorem leads_failTranslation (a : Actor) (va rights : Nat) : Leads P (failTranslation a va rights : Act β) R := by
  unfold failTranslation
  split <;> exact leads_stop _

end

section
variable {s₀ : State} {a : Actor} {va : Nat}

theorem calmed_tableEntry {s : State} (h : Calmed s₀ s) (x : Nat) : tableEntry s x = tableEntry s₀ x := by
  rw [h.rest]
  rfl

theorem calmed_walk {s : State} (h : Calmed s₀ s) (v : Nat) : walk s v = walk s₀ v := by
  rw [h.rest]
  rfl

theorem calmed_cachedFor {s : State} (h : Calmed s₀ s) (v : Nat) : cachedFor s v = cachedFor s₀ v := by
  rw [h.rest]
  rfl

theorem leads_reach (hq : TablesQuiet s₀ a va) {p : Nat × Nat} {x n : Nat} (hp : p ∈ tablesOf s₀ a va) (hlo : p.1 ≤ x)
    (hhi : x + n ≤ p.1 + p.2) (v : Nat) (write : Bool) : Leads (Calmed s₀) (reach x n v write) fun _ => Calmed s₀ := by
  unfold reach
  refine Leads.bind (Q := fun _ => Calmed s₀) (fun s y t hs h => ?_) fun _ => .get_bind fun s hs => ?_
  · unfold approach at h
    split at h
    · cases h
    · split at h
      · cases h
      · cases h
        exact recallAll_calmed hq hp hlo hhi write hs
  · exact .ite (leads_stop _) (leads_pure fun _ h => h)

/-! #### Walks and translations -/

theorem leads_reachWalk (hq : TablesQuiet s₀ a va) (v : Nat) (ls : List (Nat × Nat)) (table : Nat)
    (hsub : ∀ x ∈ walkEntries s₀ v ls table, (x, 16) ∈ tablesOf s₀ a va) :
    Leads (Calmed s₀) (reachWalk v ls table) fun _ => Calmed s₀ := by
  induction ls generalizing table with
  | nil => exact leads_pure fun _ h => h
  | cons l rest ih =>
    obtain ⟨shift, width⟩ := l
    unfold reachWalk
    unfold walkEntries at hsub
    dsimp only at hsub ⊢
    refine (leads_reach hq (hsub _ List.mem_cons_self) (Nat.le_refl _) (Nat.le_refl _) v false).bind fun _ =>
      .get_bind fun s hs => ?_
    have hentry := calmed_tableEntry hs (table + 16 * (v / 2 ^ shift % 2 ^ width))
    rw [hentry]
    split
    next hon =>
      rw [if_pos hon] at hsub
      exact ih _ fun x hx => hsub x (List.mem_cons_of_mem _ hx)
    next => exact leads_pure fun _ h => h

theorem mem_tables_walk {v x : Nat} (hv : v ∈ [va, va / 64 * 64]) (hx : x ∈ walkEntries s₀ v levels (rootTable s₀)) :
    (x, 16) ∈ tablesOf s₀ a va :=
  List.mem_append_left _ (List.mem_append_left _ (List.mem_flatMap.mpr ⟨v, hv, List.mem_map_of_mem hx⟩))

theorem mem_tables_leaf {t : Translation} {x : Nat} (ht : t ∈ mayUse s₀ va) (hx : t.leafAt = some x) :
    (x, 16) ∈ tablesOf s₀ a va := by
  refine List.mem_append_left _ (List.mem_append_right _ (List.mem_flatMap.mpr ⟨t, ht, ?_⟩))
  rw [hx]
  exact List.mem_singleton.mpr rfl

theorem mem_tables_grant {t : Team} (ht : a.team.bind (teamBy s₀) = some t) :
    (grantTable (domainOf s₀ t.domain), 32 * min 4096 (domainOf s₀ t.domain).gcnt.toNat) ∈ tablesOf s₀ a va := by
  refine List.mem_append_right _ ?_
  rw [ht]
  exact List.mem_singleton.mpr rfl

theorem walked_calmed (hq : TablesQuiet s₀ a va) {v : Nat} (hv : v ∈ [va, va / 64 * 64]) {s t : State} (hs : Calmed s₀ s)
    (h : walked s v = .ok t) : Calmed s₀ t := by
  unfold walked at h
  obtain ⟨⟨u, t'⟩, h', rfl⟩ := exists_of_map_eq_ok h
  have hroot : rootTable s = rootTable s₀ := by rw [hs.rest]; rfl
  rw [hroot] at h'
  exact leads_reachWalk hq v levels _ (fun x hx => mem_tables_walk hv hx) s u t' hs h'

theorem mem_mayUse_cached {v : Nat} (hv : v ∈ [va, va / 64 * 64]) {t : Translation} (h : t ∈ cachedFor s₀ v) :
    t ∈ mayUse s₀ va := List.mem_flatMap.mpr ⟨v, hv, List.mem_append_left _ h⟩

theorem mem_mayUse_walk {v : Nat} (hv : v ∈ [va, va / 64 * 64]) {t : Translation} (h : walk s₀ v = .leaf t) :
    t ∈ mayUse s₀ va := by
  refine List.mem_flatMap.mpr ⟨v, hv, List.mem_append_right _ ?_⟩
  rw [h]
  exact List.mem_singleton.mpr rfl

theorem getD_mem {α : Type} (l : List α) (i : Nat) (d : α) : l.getD i d ∈ l ∨ l.getD i d = d := by
  rw [List.getD_eq_getElem?_getD]
  cases h : l[i]? with
  | none => exact .inr rfl
  | some x => exact .inl (List.mem_of_getElem? h)

theorem cachedLeaf_mem {s : State} {v : Nat} {t : Translation} (h : cachedLeaf s v = some t) : t ∈ cachedFor s v := by
  unfold cachedLeaf at h
  split at h
  · cases h
  next x rest heq =>
    injection h with h
    rw [heq, ← h]
    rcases getD_mem (x :: rest) (if rest.isEmpty = true then 0 else pick s v (rest.length + 1)) x with hm | hm
    · exact hm
    · rw [hm]
      exact List.mem_cons_self

/-- A translation that an access may use, found where only sectors have been given up. -/
def Found (s₀ : State) (va : Nat) (t : Translation) (s : State) : Prop := Calmed s₀ s ∧ t ∈ mayUse s₀ va

theorem leads_freshOrCached {v : Nat} (hv : v ∈ [va, va / 64 * 64]) (rights : Nat) :
    Leads (Calmed s₀) (freshOrCached a v rights) (Found s₀ va) := by
  intro s t u hs h
  unfold freshOrCached at h
  rw [calmed_walk hs, calmed_cachedFor hs] at h
  dsimp only at h
  split at h
  next tr hwalk =>
    have htr := mem_mayUse_walk hv hwalk
    split at h
    · cases h
      exact ⟨hs, htr⟩
    next =>
      cases h
      refine ⟨hs, ?_⟩
      rcases getD_mem _ _ _ with hm | hm
      · rcases List.mem_cons.mp hm with hm | hm
        · exact hm ▸ htr
        · exact mem_mayUse_cached hv (List.mem_filter.mp hm).1
      · rw [hm]
        exact htr
  next =>
    split at h
    · exact leads_failTranslation (P := fun _ => True) a v rights s t u trivial h
    · split at h
      next tr heq =>
        cases h
        exact ⟨hs, mem_mayUse_cached hv (List.mem_of_getElem? heq)⟩
      next => exact leads_failTranslation (P := fun _ => True) a v rights s t u trivial h

theorem leads_translate (hq : TablesQuiet s₀ a va) {v : Nat} (hv : v ∈ [va, va / 64 * 64]) (rights : Nat) :
    Leads (Calmed s₀) (translate a v rights) (Found s₀ va) := by
  intro s t u hs h
  have hcached {x : Translation} (hx : cachedLeaf s v = some x) : x ∈ mayUse s₀ va :=
    mem_mayUse_cached hv (calmed_cachedFor hs v ▸ cachedLeaf_mem hx)
  unfold translate at h
  split at h
  · split at h
    · cases h
    next hx =>
      cases h
      exact ⟨hs, hcached hx⟩
  · split at h
    next w hw => exact leads_freshOrCached hv rights w t u (walked_calmed hq hv hs hw) h
    next =>
      split at h
      · cases h
      next hx =>
        cases h
        exact ⟨hs, hcached hx⟩

/-! #### Grants -/

theorem leads_reachGrants (hq : TablesQuiet s₀ a va) {t : Team} (ht : a.team.bind (teamBy s₀) = some t) (page v : Nat)
    (fuel lo hi : Nat) (hhi : hi ≤ min 4096 (domainOf s₀ t.domain).gcnt.toNat) :
    Leads (Calmed s₀) (reachGrants t.domain page v fuel lo hi) fun _ => Calmed s₀ := by
  induction fuel generalizing lo hi with
  | zero => exact leads_pure fun _ h => h
  | succ fuel ih =>
    unfold reachGrants
    split
    next hlt =>
      refine .get_bind fun s hs => ?_
      have hdom : domainOf s t.domain = domainOf s₀ t.domain := by rw [hs.rest]; rfl
      dsimp only
      rw [hdom]
      refine (leads_reach hq (mem_tables_grant ht) (Nat.le_add_right _ _) ?_ v false).bind fun _ => .get_bind fun _ _ => ?_
      · dsimp only
        have hmid : (lo + hi) / 2 < hi := by omega
        omega
      · exact .ite (leads_pure fun _ h => h) (.ite (ih lo _ (by omega)) (ih _ hi hhi))
    next => exact leads_pure fun _ h => h

theorem calmed_keepGrant (s : State) (core dom page : Nat) : Calmed s (keepGrant s core dom page) := by
  unfold keepGrant
  split
  · exact .refl s
  · split
    · exact .refl s
    · exact calmed_onCore (.of_windows rfl)

theorem leads_checkGrant (hq : TablesQuiet s₀ a va) (v rights : Nat) :
    Leads (Calmed s₀) (checkGrant a v rights) fun _ => Calmed s₀ := by
  intro s x u hs h
  have hteams : a.team.bind (teamBy s) = a.team.bind (teamBy s₀) := by rw [hs.rest]; rfl
  unfold checkGrant at h
  rw [hteams] at h
  split at h
  · cases h
    exact hs
  next t ht =>
    split at h
    · cases h
      exact hs
    · split at h
      next w hw =>
        have hcalm : Calmed s₀ w := by
          unfold searched at hw
          obtain ⟨⟨y, w'⟩, hw', rfl⟩ := exists_of_map_eq_ok hw
          have hdom : domainOf s t.domain = domainOf s₀ t.domain := by rw [hs.rest]; rfl
          rw [hdom] at hw'
          exact leads_reachGrants hq ht _ _ _ _ _ (Nat.le_refl _) s y w' hs hw'
        split at h
        · cases h
          exact hcalm.trans (calmed_keepGrant _ _ _ _)
        · exact leads_failTranslation (P := fun _ => True) (R := fun _ => Calmed s₀) a v rights w x u trivial h
      next =>
        dsimp only at h
        split at h
        · cases h
        · split at h
          · cases h
            exact hs
          · exact leads_failTranslation (P := fun _ => True) (R := fun _ => Calmed s₀) a v rights s x u trivial h

theorem leads_beforeCaches (hq : TablesQuiet s₀ a va) (v rights : Nat) :
    Leads (Calmed s₀) (beforeCaches a v rights) fun _ => Calmed s₀ := by
  unfold beforeCaches
  exact (leads_checkGrant hq v rights).bind fun _ => .get_bind fun _ _ =>
    .unless (leads_hold _) (.ite (leads_hold _) (leads_pure fun _ h => h))

/-! #### The leaf that is used, and marked -/

/-- Memory as it was, or with the entry of a leaf that the access may use marked in its sector (R411). -/
def MarkedMemory (s : State) (va : Nat) (m : Memory) : Prop :=
  m = s.memory ∨ ∃ t ∈ mayUse s va, ∃ x b, t.leafAt = some x ∧ m = s.memory.writeKeyed 0 x [b] false

/-- The other cores' windows have lost sectors, and memory is marked at most. -/
structure Marked (s₀ : State) (a : Actor) (va : Nat) (s : State) : Prop where
  cores : ∀ c, c ≠ a.core → CalmerCore (coreOf s₀ c) (coreOf s c)
  memory : MarkedMemory s₀ va s.memory

theorem Calmed.marked {s : State} (h : Calmed s₀ s) : Marked s₀ a va s where
  cores c _ := h.cores c
  memory := .inl (by rw [h.rest])

theorem cacheTranslation_keeps (s : State) (t : Translation) :
    (cacheTranslation s t).memory = s.memory ∧ (cacheTranslation s t).cores = s.cores := by
  unfold cacheTranslation
  split <;> exact ⟨rfl, rfl⟩

theorem leafMark_leafAt {s : State} {t : Translation} {write : Bool} {x : Nat} {b : Byte}
    (h : leafMark s t write = some (x, b)) : t.leafAt = some x := by
  obtain ⟨y, hy, hmark⟩ := Option.bind_eq_some_iff.mp h
  dsimp only at hmark
  split at hmark
  · cases hmark
  · injection hmark with hmark
    injection hmark with hx _
    rw [← hx, hy]

theorem markLeaf_marks (s : State) (t : Translation) (write : Bool) :
    (markLeaf s t write).cores = s.cores ∧
      ((markLeaf s t write).memory = s.memory ∨
        ∃ x b, t.leafAt = some x ∧ (markLeaf s t write).memory = s.memory.writeKeyed 0 x [b] false) := by
  unfold markLeaf
  split
  next x b hmark =>
    exact ⟨rfl, .inr ⟨x, b, leafMark_leafAt hmark, rfl⟩⟩
  next => exact ⟨rfl, .inl rfl⟩

theorem leads_useLeaf (hq : TablesQuiet s₀ a va) {t : Translation} (ht : t ∈ mayUse s₀ va) (v : Nat) (write : Bool) :
    Leads (Calmed s₀) (useLeaf t v write) fun _ => Marked s₀ a va := by
  have hmark : Leads (Calmed s₀) (modify fun s => markLeaf (cacheTranslation s t) t write) fun _ => Marked s₀ a va := by
    refine leads_modify fun s hs => ?_
    obtain ⟨hcores, hmemory⟩ := markLeaf_marks (cacheTranslation s t) t write
    obtain ⟨hmem', hcores'⟩ := cacheTranslation_keeps s t
    have hsame : s.memory = s₀.memory := by rw [hs.rest]
    rw [hmem', hsame] at hmemory
    refine ⟨fun c _ => ?_, hmemory.imp_right fun ⟨x, b, hx, hm⟩ => ⟨t, ht, x, b, hx, hm⟩⟩
    have hcore : coreOf (markLeaf (cacheTranslation s t) t write) c = coreOf s c := by
      unfold coreOf
      rw [hcores, hcores']
    rw [hcore]
    exact hs.cores c
  unfold useLeaf
  refine .get_bind fun s _ => ?_
  extract_lets mark
  split
  next x b heq =>
    exact (leads_reach hq (mem_tables_leaf ht (leafMark_leafAt heq)) (Nat.le_refl _) (Nat.le_refl _) v true).bind fun _ => hmark
  next => exact hmark

/-- The access is placed by a leaf that it may use, and memory is marked at most. -/
def Placed (s₀ : State) (a : Actor) (va v : Nat) (p : Place) (s : State) : Prop :=
  Marked s₀ a va s ∧ ∃ t ∈ mayUse s₀ va, p = placeFor t v

theorem leads_locate (hq : TablesQuiet s₀ a va) {v : Nat} (hv : v ∈ [va, va / 64 * 64]) (n rights : Nat) :
    Leads (Calmed s₀) (locate a v n rights) (Placed s₀ a va v) := by
  unfold locate
  refine (leads_translate hq hv rights).bind fun t => .get_bind fun s hs => ?_
  obtain ⟨-, ht⟩ := hs
  refine .unless (leads_failTranslation _ _ _) (.unless (leads_stop _) ?_)
  extract_lets checked
  have hchecked (u : Unit) : Leads (Found s₀ va t) (checked u) (Placed s₀ a va v) := by
    refine (leads_require _ _ _ fun _ h => h.1).bind fun _ => (leads_useLeaf hq ht v _).bind fun _ => ?_
    exact leads_pure fun _ h => ⟨h, t, ht, rfl⟩
  split
  · exact (leads_require _ _ _ fun _ h => h).bind hchecked
  · exact hchecked ()

end

end Sys2Proof.Machine
end

section
namespace Sys2Proof.Machine
open Sys2Proof.Claims

/-! ### The frame of memory under one access (R124, R125, R410, R411, R430) -/

section
variable {s₀ : State} {a : Actor} {va : Nat}

theorem leads_comeTo {I : State → Prop} (hq : Quiet s₀ a va) {v : Nat} (hv : v ∈ [va, va / 64 * 64]) (write : Bool)
    (hcalm : ∀ s, I s → ∀ c, (a.served = true → c ≠ a.core) → CalmerCore (coreOf s₀ c) (coreOf s c))
    (hset : ∀ s, I s → ∀ c num i, (a.served = true → c ≠ a.core) → I (onCore s c fun k => setSector k num i .absent)) :
    Leads I (comeTo a v write) fun _ => I := by
  intro s x t hs h
  unfold comeTo at h
  rw [act_get_bind] at h
  split at h
  · cases h
  · cases h
    exact giveUp_quiet hq hv write hcalm hset hs

theorem leads_comeTo_calmed (hq : Quiet s₀ a va) {v : Nat} (hv : v ∈ [va, va / 64 * 64]) (write : Bool) :
    Leads (Calmed s₀) (comeTo a v write) fun _ => Calmed s₀ :=
  leads_comeTo hq hv write (fun _ h c _ => h.cores c) fun _ h _ _ _ _ =>
    h.trans (calmed_onCore (calmerCore_setSector _ _ _))

/-- A change of the actor's own core changes no other core's windows. -/
theorem marked_onOwn {s : State} (h : Marked s₀ a va s) (f : Core → Core) : Marked s₀ a va (onCore s a.core f) where
  cores c hc := by
    rw [coreOf_onCore_other _ _ _ _ hc]
    exact h.cores c hc
  memory := h.memory

theorem leads_comeTo_marked (hq : Quiet s₀ a va) (hserved : a.served = true) {v : Nat} (hv : v ∈ [va, va / 64 * 64])
    (write : Bool) : Leads (Marked s₀ a va) (comeTo a v write) fun _ => Marked s₀ a va := by
  refine leads_comeTo hq hv write (fun s h c hc => h.cores c (hc hserved)) fun s h c num i hc => ⟨fun d hd => ?_, h.memory⟩
  exact (h.cores d hd).trans ((calmed_onCore (calmerCore_setSector (coreOf s c) num i)).cores d)

theorem leads_loadAt {I : State → Prop} (p : Place) (v n : Nat) (unseen : List OldWrite) :
    Leads I (loadAt p v n unseen) fun _ => I := by
  intro s x t hs h
  rw [loadAt_state h]
  exact hs

theorem leads_forM {I : State → Prop} (l : List Nat) (f : Nat → Act PUnit) (h : ∀ x, Leads I (f x) fun _ => I) :
    Leads I (l.forM f) fun _ => I := by
  induction l with
  | nil => exact leads_pure fun _ h => h
  | cons x rest ih =>
    show Leads I (f x >>= fun _ => rest.forM f) _
    exact (h x).bind fun _ => ih

/-! #### The windows of the actor's own core -/

theorem leads_fillSector (hq : Quiet s₀ a va) (ht : TablesQuiet s₀ a va) (num : Nat) (w : Window) :
    Leads (Calmed s₀) (fillSector a num w va) fun _ => Marked s₀ a va := by
  have hbase : va / 64 * 64 ∈ [va, va / 64 * 64] := by simp
  unfold fillSector
  split
  · exact leads_pure fun _ h => h.marked
  · refine (leads_comeTo_calmed hq hbase false).bind fun _ => (leads_locate ht hbase 64 rightLD).bind fun p => ?_
    refine Leads.mono (P := Marked s₀ a va) ((leads_forM _ _ fun g => ?_).bind fun _ =>
      (leads_modify fun _ h => marked_onOwn h _).bind fun _ => leads_pure fun _ h => h) fun _ h => h.1
    exact (leads_loadAt _ _ _ _).bind fun _ => leads_modify fun _ h => marked_onOwn h _

theorem leads_coverAbsent (ht : TablesQuiet s₀ a va) (w : Window) (rights : Nat) :
    Leads (Calmed s₀) (coverAbsent a w va rights) fun _ => Marked s₀ a va := by
  unfold coverAbsent
  split
  · exact leads_pure fun _ h => h.marked
  · exact (leads_locate ht List.mem_cons_self 64 rights).bind fun _ => leads_pure fun _ h => h.1

theorem leads_dirtySector (hq : Quiet s₀ a va) (hserved : a.served = true) (num : Nat) (w : Window) (t : Translation) :
    Leads (Marked s₀ a va) (dirtySector a num w va t) fun _ => Marked s₀ a va :=
  (leads_require _ _ _ fun _ h => h).bind fun _ => (leads_comeTo_marked hq hserved List.mem_cons_self true).bind fun _ =>
    leads_modify fun _ h => marked_onOwn h _

theorem leads_checkWindow {I : State → Prop} (w : Window) (rights : Nat) :
    Leads I (checkWindow a w rights) fun _ => I :=
  .ite (leads_raise _ _) (leads_pure fun _ h => h)

theorem leads_apertureByte (ht : TablesQuiet s₀ a va) (n rights : Nat) :
    Leads (Calmed s₀) (apertureByte a va n rights) fun _ => Calmed s₀ := by
  unfold apertureByte
  refine .unless (leads_failTranslation _ _ _) ((leads_checkGrant ht va rights).bind fun _ => .get_bind fun _ _ =>
    .unless (leads_raise _ _) (.unless (leads_raise _ _) ?_))
  split
  · exact leads_raise _ _
  · exact leads_pure fun _ h => h

/-! #### Reads and writes -/

/-- A read marks a leaf at most. -/
theorem leads_readPieceOf (hq : Quiet s₀ a va) (ht : TablesQuiet s₀ a va) (unseen : List OldWrite) (n rights : Nat) :
    Leads (Calmed s₀) (readPieceOf unseen a va n rights) fun _ => Marked s₀ a va := by
  unfold readPieceOf
  refine .ite ((leads_apertureByte ht n rights).bind fun _ => .get_bind fun _ _ => leads_pure fun _ h => h.marked) (.ite
    (.unless (leads_raise _ _) (.get_bind fun _ _ => leads_pure fun _ h => h.marked))
    ((leads_beforeCaches ht va rights).bind fun _ => .get_bind fun s _ => ?_))
  split
  next num w hw =>
    have hserved : a.served = true := by
      cases h : a.served with
      | true => rfl
      | false =>
        rw [h] at hw
        cases hw
    refine (leads_checkWindow w rights).bind fun _ => (leads_fillSector hq ht num w).bind fun t => ?_
    have hend : Leads (Marked s₀ a va) (do
        let v := windowLoad (coreOf (← get) a.core) w t va n unseen
        pure (v.1, v.2 && w.lc)) fun _ => Marked s₀ a va := .get_bind fun _ _ => leads_pure fun _ h => h
    exact .ite ((leads_dirtySector hq hserved num w t).bind fun _ => hend) hend
  next =>
    exact (leads_comeTo_calmed hq List.mem_cons_self false).bind fun _ =>
      (leads_locate ht List.mem_cons_self n rights).bind fun _ => Leads.mono (leads_loadAt _ _ _ _) fun _ h => h.1

/-- Memory after a write: marked at most, and then stored to where a leaf that the access may use places it. -/
def StoredMemory (s : State) (va : Nat) (bs : List Byte) (tag : Bool) (m : Memory) : Prop :=
  ∃ n, MarkedMemory s va n ∧
    (m = n ∨ ∃ t ∈ mayUse s va, m = n.writeKeyed (leafKey t.entry.toNat) (placeOf t va) bs tag)

theorem Marked.stored {s : State} (h : Marked s₀ a va s) (bs : List Byte) (tag : Bool) :
    StoredMemory s₀ va bs tag s.memory := ⟨_, h.memory, .inl rfl⟩

theorem trustCommand_memory (s : State) (w : Nat) : (trustCommand s w).memory = s.memory := by
  unfold trustCommand
  dsimp only
  split
  · rfl
  · split
    · unfold createKey
      split <;> rfl
    · split
      · unfold destroyKey
        split <;> rfl
      · split
        · unfold queryKey
          split <;> rfl
        · rfl

theorem leads_writePiece (hq : Quiet s₀ a va) (ht : TablesQuiet s₀ a va) (bs : List Byte) (tag : Bool) (rights : Nat) :
    Leads (Calmed s₀) (writePiece a va bs tag rights) fun _ s => StoredMemory s₀ va bs tag s.memory := by
  unfold writePiece
  refine .ite ((leads_apertureByte ht _ rights).bind fun _ => leads_modify fun _ h => h.marked.stored (a := a) bs tag) (.ite
    (.unless (leads_raise _ _) (leads_modify fun s h => ?_))
    ((leads_beforeCaches ht va rights).bind fun _ => .get_bind fun s _ => ?_))
  · split
    · rw [trustCommand_memory]
      exact h.marked.stored (a := a) bs tag
    · exact h.marked.stored (a := a) bs tag
  · split
    next num w hw =>
      have hserved : a.served = true := by
        cases h : a.served with
        | true => rfl
        | false =>
          rw [h] at hw
          cases hw
      refine (leads_checkWindow w rights).bind fun _ => .unless (leads_raise _ _) ?_
      extract_lets stored put
      have hstored (u : Unit) : Leads (Marked s₀ a va) (stored u) fun _ s => StoredMemory s₀ va bs tag s.memory :=
        leads_modify fun _ h => (marked_onOwn h _).stored bs tag
      have hput (t : Translation) : Leads (Marked s₀ a va) (put t) fun _ s => StoredMemory s₀ va bs tag s.memory :=
        (leads_dirtySector hq hserved num w t).bind fun _ => .get_bind fun _ _ => .unless (leads_hold _) (hstored ())
      exact .ite ((leads_fillSector hq ht num w).bind hput) ((leads_coverAbsent ht w rights).bind hput)
    next =>
      refine (leads_comeTo_calmed hq List.mem_cons_self true).bind fun _ =>
        (leads_locate ht List.mem_cons_self bs.length rights).bind fun p => .get_bind fun _ _ => ?_
      have hstore : Leads (Placed s₀ a va va p) (modify fun s => storeAt s p a bs tag)
          fun _ s => StoredMemory s₀ va bs tag s.memory := by
        refine leads_modify fun s h => ?_
        obtain ⟨hmarked, t, ht', rfl⟩ := h
        unfold storeAt
        split
        · exact hmarked.stored bs tag
        · exact ⟨_, hmarked.memory, .inr ⟨t, ht', rfl⟩⟩
      exact .ite (Leads.bind (Q := fun _ => Placed s₀ a va va p) (leads_hold _) fun _ => hstore) hstore

end

end Sys2Proof.Machine
end

section
namespace Sys2Proof.Machine
open Sys2Proof.Claims

/-! ### A sector reads the same under every key (R430) -/

section
open Seal

theorem length_unrounds {ks : List (List Byte)} (h : ∀ k ∈ ks, k.length = 16) (hne : ks ≠ []) (b : List Byte) :
    (unrounds ks b).length = 16 := by
  induction ks generalizing b with
  | nil => exact absurd rfl hne
  | cons k rest ih =>
    cases rest with
    | nil =>
      unfold unrounds
      rw [length_xorBytes, List.length_map, h k List.mem_cons_self]
      simp [unshiftRows]
    | cons k' rest' =>
      unfold unrounds
      exact ih (fun x hx => h x (List.mem_cons_of_mem _ hx)) (List.cons_ne_nil _ _) _

theorem length_decryptBlock {key : List Byte} (h : key.length = 32) (b : List Byte) :
    (decryptBlock (roundKeys key) b).length = 16 := by
  obtain ⟨h1, h2⟩ := roundKeys_lengths h
  unfold decryptBlock
  generalize roundKeys key = ks at h1 h2 ⊢
  refine length_unrounds (fun k hk => h2 k (List.mem_reverse.1 (List.mem_of_mem_tail hk))) (fun he => ?_) _
  have hlen := congrArg List.length he
  rw [List.length_tail, List.length_reverse, h1] at hlen
  cases hlen

theorem length_tweaked {f : List Byte → List Byte} (hf : ∀ b, (f b).length = 16) {t : List Byte} (ht : t.length = 16)
    (bs : List (List Byte)) : (tweaked f t bs).length = 16 * bs.length := by
  induction bs generalizing t with
  | nil => rfl
  | cons b rest ih =>
    unfold tweaked
    rw [List.length_append, length_xorBytes, hf, ht, ih (by unfold nextTweak; exact length_bytesOf _ _), List.length_cons]
    omega

theorem length_decryptSector (pair : BitVec 512) (address : Nat) (ct : List Byte) :
    (decryptSector pair address ct).length = 64 := by
  have hfirst : ((bytesOf 64 pair.toNat).take 32).length = 32 := by rw [List.length_take, length_bytesOf]; rfl
  have hsecond : ((bytesOf 64 pair.toNat).drop 32).length = 32 := by rw [List.length_drop, length_bytesOf]
  unfold decryptSector sectorKeys firstTweak
  rw [length_tweaked (fun b => length_decryptBlock hfirst b) (length_encryptBlock hsecond _), length_chunks]

end

section
variable {m m' : Memory} {key : Nat}

theorem length_reread (old new : BitVec 512) (x : Nat) {text : List Byte} (h : text.length = 64) :
    (reread old new x text).length = 64 := by
  unfold reread
  split
  · exact h
  · rw [List.length_take, length_decryptSector]
    rfl

theorem length_sectorUnder (m : Memory) (key sector : Nat) : (m.sectorUnder key sector).length = 64 := by
  have hraw : (m.bytes (sector * 64) 64).length = 64 := length_getBytes _ _ _ _
  unfold Memory.sectorUnder
  dsimp only
  split
  · exact hraw
  · split
    · exact hraw
    · exact length_reread _ _ _ hraw

/-- What a byte reads under a key depends on its sector alone. -/
theorem readKeyed_congr {x : Nat} (howners : m'.owners = m.owners) (hkeys : look m'.keys (x / 64) = look m.keys (x / 64))
    (hbytes : ∀ y, y / 64 = x / 64 → m'.byte y = m.byte y) : m'.readKeyed key x 1 = m.readKeyed key x 1 := by
  have hkey (y : Nat) (hy : y / 64 = x / 64) : m'.keyAt y = m.keyAt y := by
    unfold Memory.keyAt
    rw [hy, hkeys]
  have hraw : m'.bytes (x / 64 * 64) 64 = m.bytes (x / 64 * 64) 64 :=
    getBytes_congr _ _ _ _ _ fun y h1 h2 => hbytes y (by omega)
  have hone : m'.bytes x 1 = m.bytes x 1 := getBytes_congr _ _ _ _ _ fun y h1 h2 => hbytes y (by omega)
  have hforeign : m'.foreign key x = m.foreign key x := by
    unfold Memory.foreign
    rw [hkey x rfl]
  have hpair (id : Nat) : m'.keyPair id = m.keyPair id := by
    unfold Memory.keyPair
    rw [howners]
  have hunder : m'.sectorUnder key (x / 64) = m.sectorUnder key (x / 64) := by
    unfold Memory.sectorUnder
    rw [hraw, hkey _ (by omega)]
    simp only [hpair]
  unfold Memory.readKeyed
  rw [hforeign, hone, hunder]

theorem writeKeyed_owners (m : Memory) (key a : Nat) (bs : List Byte) (tag : Bool) :
    (m.writeKeyed key a bs tag).owners = m.owners := rfl

theorem writeKeyed_keys (m : Memory) (key a : Nat) (bs : List Byte) (tag : Bool) :
    (m.writeKeyed key a bs tag).keys = if a < hostBase then put m.keys (a / 64) key else m.keys := rfl

/-- A store inside a sector leaves what every other sector reads. -/
theorem readKeyed_writeKeyed_other {k a x : Nat} {bs : List Byte} {tag : Bool} (hx : x / 64 ≠ a / 64)
    (hlen : a % 64 + bs.length ≤ 64) : (m.writeKeyed k a bs tag).readKeyed key x 1 = m.readKeyed key x 1 := by
  refine readKeyed_congr rfl ?_ fun y hy => byte_writeKeyed _ _ _ _ _ _ (by omega) (by omega)
  rw [writeKeyed_keys]
  split
  · exact look_put_other _ _ _ _ hx
  · rfl

theorem foreign_sector {x a : Nat} (h : x / 64 = a / 64) : m.foreign key x = m.foreign key a := by
  have hlt : (x < hostBase) = (a < hostBase) := by
    unfold hostBase
    apply propext
    omega
  unfold Memory.foreign Memory.keyAt
  rw [h]
  simp only [hlt]

theorem foreign_writeKeyed (m : Memory) (key a : Nat) (bs : List Byte) (tag : Bool) :
    (m.writeKeyed key a bs tag).foreign key a = false := by
  unfold Memory.foreign Memory.keyAt
  rw [writeKeyed_keys]
  by_cases ha : a < hostBase
  · rw [if_pos ha, look_put_same]
    simp
  · rw [if_neg ha]
    cases look m.keys (a / 64) with
    | none => rfl
    | some j => simp [ha]

/-- A store of a sector leaves what its other bytes read under the same key: a sector of another key is read under the new one
first. -/
theorem readKeyed_writeKeyed_same {a x : Nat} {bs : List Byte} {tag : Bool} (hx : x / 64 = a / 64)
    (hout : x < a ∨ a + bs.length ≤ x) : (m.writeKeyed key a bs tag).readKeyed key x 1 = m.readKeyed key x 1 := by
  have hread (n : Memory) : n.readKeyed key x 1 = [if n.foreign key a = true then (n.sectorUnder key (a / 64)).getD (x % 64) 0
      else n.byte x] := by
    unfold Memory.readKeyed
    rw [foreign_sector hx, hx]
    split
    · have hlt : x % 64 < (n.sectorUnder key (a / 64)).length := by rw [length_sectorUnder]; exact Nat.mod_lt _ (by omega)
      rw [List.drop_eq_getElem_cons hlt, List.take_succ_cons, List.take_zero, List.getD_eq_getElem _ _ hlt]
    · rfl
  have hbyte : (m.writeKeyed key a bs tag).byte x =
      if m.foreign key a = true then (m.sectorUnder key (a / 64)).getD (x % 64) 0 else m.byte x := by
    unfold Memory.byte Memory.writeKeyed
    rw [cellGet_putBytes_outside _ _ _ _ _ hout]
    split
    · have hlt : x - a / 64 * 64 < (m.sectorUnder key (a / 64)).length := by rw [length_sectorUnder]; omega
      rw [cellGet_putBytes, if_pos (by omega), List.getElem?_eq_getElem hlt, Option.getD_some,
        show x % 64 = x - a / 64 * 64 by omega, List.getD_eq_getElem _ _ hlt]
    · rfl
  rw [hread, hread m, foreign_writeKeyed, if_neg Bool.false_ne_true, hbyte]

end

/-! ### The bytes that an access leaves -/

section
variable {s : State} {va x : Nat} {m : Memory}

theorem marked_byte (h : MarkedMemory s va m) (hx : OffLeaves s va x) : m.byte x = s.memory.byte x := by
  rcases h with rfl | ⟨t, ht, a, b, hleaf, rfl⟩
  · rfl
  · have hne := hx t ht a hleaf
    refine byte_writeKeyed _ _ _ _ _ _ hne ?_
    have hxa : x ≠ a := fun h => hne (h ▸ rfl)
    rw [List.length_singleton]
    omega

theorem marked_readKeyed {key : Nat} (h : MarkedMemory s va m) (hx : OffLeaves s va x) :
    m.readKeyed key x 1 = s.memory.readKeyed key x 1 := by
  rcases h with rfl | ⟨t, ht, a, b, hleaf, rfl⟩
  · rfl
  · exact readKeyed_writeKeyed_other (hx t ht a hleaf) (by rw [List.length_singleton]; omega)

theorem stored_byte {bs : List Byte} {tag : Bool} (h : StoredMemory s va bs tag m) (hx : OffLeaves s va x)
    (ho : OffStore s va bs.length x) : m.byte x = s.memory.byte x := by
  obtain ⟨n, hn, rfl | ⟨t, ht, rfl⟩⟩ := h
  · exact marked_byte hn hx
  · obtain ⟨hsector, hrange⟩ := ho t ht
    rw [byte_writeKeyed _ _ _ _ _ _ hsector (by omega), marked_byte hn hx]

theorem stored_readKeyed {bs : List Byte} {tag : Bool} {pa key : Nat} (h : StoredMemory s va bs tag m)
    (hplace : ∀ tr ∈ mayUse s va, placeOf tr va = pa ∧ leafKey tr.entry.toNat = key) (hlen : pa % 64 + bs.length ≤ 64)
    (hx : OffLeaves s va x) (hout : x < pa ∨ pa + bs.length ≤ x) : m.readKeyed key x 1 = s.memory.readKeyed key x 1 := by
  obtain ⟨n, hn, rfl | ⟨t, ht, rfl⟩⟩ := h
  · exact marked_readKeyed hn hx
  · obtain ⟨hpa, hkey⟩ := hplace t ht
    rw [hpa, hkey, ← marked_readKeyed hn hx]
    by_cases hsector : x / 64 = pa / 64
    · exact readKeyed_writeKeyed_same hsector hout
    · exact readKeyed_writeKeyed_other hsector hlen

theorem pieces_inside {n : Nat} (hn : 0 < n) (h : va % 64 + n ≤ 64) : pieces va n = [(va, n)] := by
  have hmin : min n (64 - va % 64) = n := by omega
  unfold pieces
  rw [piecesFrom_step (by omega), hmin, Nat.sub_self]
  rfl

theorem accessed_memory (len : Nat) (y : MemX) (t : State) : (accessed len y t).memory = t.memory := by
  unfold accessed
  split <;> rfl

end

/-- Settles O27: while no window has to write back, an access moves memory only where it marks the leaf that it uses and where it
stores, and both are one keyed write inside a sector. -/
theorem memoryFrames : Obligations.MemoryFrames := by
  intro a va rights s hq ht
  refine ⟨fun n r t _ h x hx => ?_, fun bs tag t _ h => ⟨fun x hx ho => ?_, fun pa key hplace hlen x hx hout => ?_⟩,
    fun n hn h => pieces_inside hn h, fun len y b v t => ⟨accessed_memory len y t, ?_⟩⟩
  · exact marked_byte (leads_readPieceOf hq ht _ n rights s r t (.refl s) h).memory hx
  · exact stored_byte (leads_writePiece hq ht bs tag rights s () t (.refl s) h) hx ho
  · exact stored_readKeyed (leads_writePiece hq ht bs tag rights s () t (.refl s) h) hplace hlen hx hout
  · rw [accessed_memory, writeInt_memory]

end Sys2Proof.Machine
end
